-- ==== Sys2Proof/Word.lean ====
section
/-! DEFINITION. The word types of the Zheurn Z4 and the plainest list maps (spec/00 R5-R7, spec/08 R176). -/

namespace Sys2Proof

/-- One lane register, one scalar register, one system register (R176, R182). -/
abbrev W64 := BitVec 64

/-- One bit per lane (R183, R191). -/
abbrev Mask := BitVec 32

/-- One instruction, literal or modifier word (R198). -/
abbrev Word32 := BitVec 32

/-- One byte of memory (R7). -/
abbrev Byte := BitVec 8

/-- One 32-byte sector or granule as a number (R33). -/
abbrev Sector := BitVec 256

/-- A register of 32 lanes (R176). -/
abbrev LaneReg := Vector W64 32

namespace LaneReg

/-- The register whose lane `l` holds `f l`. -/
def ofFn (f : Nat → W64) : LaneReg := ⟨⟨(List.range 32).map f⟩, by simp⟩

/-- Zero in every lane. -/
def zero : LaneReg := ofFn fun _ => 0

/-- Lane `l`, zero beyond lane 31. -/
def lane (r : LaneReg) (l : Nat) : W64 := r.toArray.toList.getD l 0

end LaneReg

/-- Bits `hi` down to `lo` of a number, as R5 writes `x[hi:lo]`. -/
def bitsOf (x hi lo : Nat) : Nat := x / 2 ^ lo % 2 ^ (hi + 1 - lo)

/-- Lane `l` of a mask. -/
def Mask.has (m : Mask) (l : Nat) : Bool := m.getLsbD l

/-- The mask of the lanes that satisfy `f`. -/
def Mask.ofFn (f : Nat → Bool) : Mask :=
  BitVec.ofNat 32 ((List.range 32).foldl (fun acc l => if f l then acc + 2 ^ l else acc) 0)

/-- The lanes of a mask in ascending order. -/
def Mask.lanes (m : Mask) : List Nat := (List.range 32).filter m.has

/-- The lowest-numbered lane of a mask (R229). -/
def Mask.lowest? (m : Mask) : Option Nat := m.lanes.head?

/-- Every lane (R374). -/
def Mask.all : Mask := BitVec.allOnes 32

/-- Two's-complement reading of the low `w` bits of a number. -/
def signedOf (w x : Nat) : Int :=
  let y := x % 2 ^ w
  if y < 2 ^ (w - 1) then (y : Int) else (y : Int) - 2 ^ w

/-- The low `w` bits of an integer, as a number. -/
def wrapInt (w : Nat) (x : Int) : Nat := (x % (2 ^ w : Int)).toNat

/-- A map from numbers to data: entries with strictly rising keys. -/
abbrev NMap (α : Type) := List (Nat × α)

namespace NMap

/-- The entry of key `k`. -/
def get? {α : Type} : NMap α → Nat → Option α
  | [], _ => none
  | (j, a) :: m, k => if j = k then some a else get? m k

/-- Sets the entry of key `k`, in key order. -/
def set {α : Type} : NMap α → Nat → α → NMap α
  | [], k, x => [(k, x)]
  | (j, a) :: m, k, x => if k < j then (k, x) :: (j, a) :: m else if j = k then (k, x) :: m else (j, a) :: set m k x

/-- Drops the entry of key `k`. -/
def erase {α : Type} (m : NMap α) (k : Nat) : NMap α := m.filter fun e => e.1 != k

/-- Changes the entry of key `k`, if there is one. -/
def adjust {α : Type} (m : NMap α) (k : Nat) (f : α → α) : NMap α :=
  match get? m k with
  | some a => set m k (f a)
  | none => m

end NMap

/-- Replaces element `n` of a list, if it has one. -/
def listSet {α : Type} : List α → Nat → α → List α
  | [], _, _ => []
  | _ :: l, 0, x => x :: l
  | a :: l, n + 1, x => a :: listSet l n x

end Sys2Proof
end

