-- ==== Sys2Proof/Syntax.lean ====
section
/-! DEFINITION. Syntax: operand fields and the instructions of Oasol version 1, one constructor per row of the
opcode table (spec/09 R203-R211, spec/opcode_table.json). Rows without an encoding are events: moves of the
machine's engines and of the world outside, in their own constructors at the end. -/

namespace Sys2Proof

/-- Named registers v0-v23 (R177). -/
abbrev VReg := Fin 24

/-- Scalar registers s0-s15 (R182). -/
abbrev SReg := Fin 16

/-- Predicates p0-p11 (R183). -/
abbrev PReg := Fin 12

/-- The age operand Cq4: `n` names the entry `n + 1` pushes back (R204). -/
abbrev Cq := Fin 16

/-- The lookahead window L4 (R208). -/
abbrev La := Fin 16

/-- A 2-bit selector. -/
abbrev Sel := Fin 4

/-- A 4-bit immediate: a barrier number or a queue mask (R324). -/
abbrev Four := Fin 16

/-- A 6-bit immediate. -/
abbrev Six := Fin 64

/-- O5: a two's-complement offset in units of the access size (R204). -/
abbrev Off := BitVec 5

/-- OFF16: a two's-complement packet offset (R204). -/
abbrev Off16 := BitVec 16

/-- What follows an instruction word in its chain: nothing, a further instruction word, or a literal word with its
own chain bit (R200, R206). -/
inductive Tail where
  | stop
  | chain
  | lit (v : BitVec 25) (c : Bool)
  deriving DecidableEq, Repr

/-- The guard or selector field G4 (R205). -/
inductive Guard where
  | always
  | p (n : PReg)
  deriving DecidableEq, Repr

/-- A source field S6 (R205). -/
inductive Src where
  | v (n : VReg)
  | k (n : Fin 4)
  | age (n : Fin 16)
  | s (n : SReg)
  | zero
  | lane
  | lit
  deriving DecidableEq, Repr

/-- A destination field D5 (R205). -/
inductive Dst where
  | v (n : VReg)
  | k (n : Fin 4)
  | none
  deriving DecidableEq, Repr

/-- The predicate destination PD4 with its complement bit K (R205, R230). -/
structure PDst where
  p : PReg
  k : Bool
  deriving DecidableEq, Repr

/-- The base field of an M-format word (R300). -/
inductive Base where
  | v (n : VReg)
  | s (n : SReg)
  | zero
  deriving DecidableEq, Repr

/-- The address source of CCTL and PREF (R321, R322). -/
inductive Addr6 where
  | v (n : VReg)
  | s (n : SReg)
  deriving DecidableEq, Repr

/-- The mask source of REGS, GROW, TASK, SPAWN and YIELD (R387). -/
inductive MaskSrc where
  | zero
  | lit
  | s (n : SReg)
  deriving DecidableEq, Repr

/-- Integer operation width W (R204). -/
inductive Width where
  | w32 | w64
  deriving DecidableEq, Repr

/-- Floating-point width W (R204). -/
inductive FWidth where
  | f64 | f32
  deriving DecidableEq, Repr

/-- Packed 16-bit format of major 0x20 (R258). -/
inductive HFmt where
  | f16 | bf16
  deriving DecidableEq, Repr

/-- Rounding modes (R157). -/
inductive Rnd where
  | rn | rz | ru | rd | ra | ro
  deriving DecidableEq, Repr

/-- Integer compare conditions CC4 (R230). -/
inductive ICond where
  | eq | ne | ltI | leI | gtI | geI | ltN | leN | gtN | geN | tst
  deriving DecidableEq, Repr

/-- Floating-point compare conditions (R243). -/
inductive FCond where
  | eq | ne | lt | le | gt | ge | un | ord
  deriving DecidableEq, Repr

/-- WAITM conditions (R319). -/
inductive WCond where
  | eq | ne | geN | ltN | geI | ltI | tst
  deriving DecidableEq, Repr

/-- Access types of the modifier word (R207, R301). -/
inductive MemTy where
  | b8 | b16 | b32 | b64 | i8 | i16 | i32 | b128 | n8 | n16 | n32 | n64 | f32 | f64 | i64
  deriving DecidableEq, Repr

/-- Fence and atomic scopes (R207). -/
inductive Scope where
  | grp | team | clu | die | dev | sys
  deriving DecidableEq, Repr

/-- Atomic operations OPX (R311). -/
inductive AOp where
  | add | min | max | and | or | xor | inc | dec
  deriving DecidableEq, Repr

/-- Access sets of a fence: loads, stores or both (R316). -/
inductive Sets where
  | ld | st | ldst
  deriving DecidableEq, Repr

/-- QSTAT selectors (R340). -/
inductive QSel where
  | cpq | mxq | clq | ptq | kq | bat
  deriving DecidableEq, Repr

/-- Solver kinds (R276). -/
inductive SolveKind where
  | lu | chol
  deriving DecidableEq, Repr

/-- MMAQ element formats (R268). -/
inductive QFmt where
  | e4m3 | e5m2 | e3m2 | e2m3
  deriving DecidableEq, Repr

/-- MMAS formats of B (R268). -/
inductive SFmt where
  | e2m1 | e4m3 | e5m2 | int4
  deriving DecidableEq, Repr

/-- MMAT tile formats (R270). -/
inductive TFmt where
  | f64 | f32 | f16 | bf16 | e4m3 | e5m2 | e2m1 | e3m2 | e2m3 | int4
  deriving DecidableEq, Repr

/-- The F4 of MMAJ: `.f32` with a rounding code, or a 16-bit form (R268, R273). -/
inductive JFmt where
  | f32 (r : Rnd)
  | bf16
  | f16
  deriving DecidableEq, Repr

/-- An issuing unit: a core, a group slot of it and a split of the group (R356, R428). -/
structure UnitRef where
  core : Nat
  slot : Nat
  split : Nat
  deriving DecidableEq, Repr

/-- The tag of a request to a base die, with the context that issued it (R26, R39). -/
structure PacketTag where
  n : Nat
  ctx : Nat
  deriving DecidableEq, Repr

/-- An access that has met a compressed page: its address, and the ACCESS byte, AGENT and UNIT that a record of it names
(R62, R68). -/
structure PageTouch where
  va : Nat
  access : Nat
  agent : Nat
  unit : Nat
  deriving DecidableEq, Repr

/-- What an access asks of a leaf (R55). -/
inductive AccessKind where
  | read
  | write
  | fetch
  deriving DecidableEq, Repr

/-- How a unit's test ends (R463). -/
inductive TestResult where
  | pass
  | repaired (detail : Nat)
  | beyond
  deriving DecidableEq, Repr

/-- What a peer or an L1 asks of memory: bytes, stored bytes or one atomic (R78, R476). -/
inductive MemOp where
  | read (n : Nat)
  | write (bytes : List Byte)
  | atom (op : AOp) (ty : MemTy) (b : W64)
  | acas (ty : MemTy) (cmp new : W64)
  | axch (ty : MemTy) (b : W64)
  deriving DecidableEq, Repr

/-- An inbound peer request: the initiator's PEERNO, a device physical address, the operation, and whether its data are poisoned
(R142, R476). -/
structure PeerReq where
  peer : Nat
  addr : Nat
  op : MemOp
  poison : Bool
  deriving DecidableEq, Repr

/-- A request that reaches an L2 slice from a core's L1 or from another die's slice (R78): its number, by which a slice
knows a request that waits with it, the slice, who asks, the page's home die and no-allocate attribute, and the context. -/
structure SliceReq where
  n : Nat
  slice : Nat
  core : Option Nat
  remote : Option Nat
  home : Nat
  noalloc : Bool
  ctx : Nat
  addr : Nat
  op : MemOp
  deriving DecidableEq, Repr

/-- What a member package sends a collective: its elements, or a refusal with code 0x03 (R343, R480). -/
inductive Contribution where
  | data (elems : List W64)
  | refused
  deriving DecidableEq, Repr

/-- Byte masks of a write packet, one per sector of a line (R28). -/
abbrev WrMasks := List Word32

/-- Sector data of a write packet (R28). -/
abbrev WrData := List Sector

/-- Bytes of a host write (R470). -/
abbrev ByteList := List Byte

/-- The instructions: 166 encoded words, then 104 events (spec/opcode_table.json). -/
inductive Instr where
  | iadd (t : Tail) (g : Guard) (d : Dst) (a : Src) (b : Src) (w : Width)
  | isub (t : Tail) (g : Guard) (d : Dst) (a : Src) (b : Src) (w : Width)
  | iaddc (t : Tail) (g : Guard) (d : Dst) (a : Src) (b : Src) (w : Width)
  | imul (t : Tail) (g : Guard) (d : Dst) (a : Src) (b : Src) (w : Width)
  | imulhI (t : Tail) (g : Guard) (d : Dst) (a : Src) (b : Src) (w : Width)
  | imulhN (t : Tail) (g : Guard) (d : Dst) (a : Src) (b : Src) (w : Width)
  | imad (t : Tail) (d : Dst) (a : Src) (b : Src) (q : Cq) (w : Width)
  | andB (t : Tail) (g : Guard) (d : Dst) (a : Src) (b : Src) (w : Width)
  | orB (t : Tail) (g : Guard) (d : Dst) (a : Src) (b : Src) (w : Width)
  | xorB (t : Tail) (g : Guard) (d : Dst) (a : Src) (b : Src) (w : Width)
  | andn (t : Tail) (g : Guard) (d : Dst) (a : Src) (b : Src) (w : Width)
  | orn (t : Tail) (g : Guard) (d : Dst) (a : Src) (b : Src) (w : Width)
  | notB (t : Tail) (g : Guard) (d : Dst) (a : Src) (w : Width)
  | shl (t : Tail) (g : Guard) (d : Dst) (a : Src) (b : Src) (w : Width)
  | shr (t : Tail) (g : Guard) (d : Dst) (a : Src) (b : Src) (w : Width)
  | sar (t : Tail) (g : Guard) (d : Dst) (a : Src) (b : Src) (w : Width)
  | rol (t : Tail) (g : Guard) (d : Dst) (a : Src) (b : Src) (w : Width)
  | ror (t : Tail) (g : Guard) (d : Dst) (a : Src) (b : Src) (w : Width)
  | popc (t : Tail) (g : Guard) (d : Dst) (a : Src) (w : Width)
  | clz (t : Tail) (g : Guard) (d : Dst) (a : Src) (w : Width)
  | ctz (t : Tail) (g : Guard) (d : Dst) (a : Src) (w : Width)
  | brev (t : Tail) (g : Guard) (d : Dst) (a : Src) (w : Width)
  | bfeN (t : Tail) (g : Guard) (d : Dst) (a : Src) (b : Src) (w : Width)
  | bfeI (t : Tail) (g : Guard) (d : Dst) (a : Src) (b : Src) (w : Width)
  | bfi (t : Tail) (g : Guard) (d : VReg) (a : Src) (b : Src) (w : Width)
  | minI (t : Tail) (g : Guard) (d : Dst) (a : Src) (b : Src) (w : Width)
  | minN (t : Tail) (g : Guard) (d : Dst) (a : Src) (b : Src) (w : Width)
  | maxI (t : Tail) (g : Guard) (d : Dst) (a : Src) (b : Src) (w : Width)
  | maxN (t : Tail) (g : Guard) (d : Dst) (a : Src) (b : Src) (w : Width)
  | absI (t : Tail) (g : Guard) (d : Dst) (a : Src) (w : Width)
  | negI (t : Tail) (g : Guard) (d : Dst) (a : Src) (w : Width)
  | sel (t : Tail) (g : Guard) (d : Dst) (a : Src) (b : Src) (w : Width)
  | mov (t : Tail) (g : Guard) (d : Dst) (a : Src) (w : Width)
  | movs (t : Tail) (g : Guard) (d : SReg) (a : Src) (w : Width)
  | lea (t : Tail) (g : Guard) (d : Dst) (a : Src) (b : Src) (w : Width)
  | icmp32 (t : Tail) (g : Guard) (pd : PDst) (a : Src) (b : Src) (n : ICond)
  | icmp64 (t : Tail) (g : Guard) (pd : PDst) (a : Src) (b : Src) (n : ICond)
  | pand (c : Bool) (g : Guard) (pd : PDst) (a : PReg) (b : PReg)
  | por (c : Bool) (g : Guard) (pd : PDst) (a : PReg) (b : PReg)
  | pxor (c : Bool) (g : Guard) (pd : PDst) (a : PReg) (b : PReg)
  | pnot (c : Bool) (g : Guard) (pd : PDst) (a : PReg)
  | pmov (c : Bool) (g : Guard) (pd : PDst) (a : PReg)
  | censusNz (t : Tail) (g : Guard) (d : Dst) (a : Src)
  | censusLsb (t : Tail) (g : Guard) (d : Dst) (a : Src)
  | censusSgn (t : Tail) (g : Guard) (d : Dst) (a : Src)
  | routeFrom (t : Tail) (g : Guard) (d : Dst) (a : Src) (b : Src) (w : Width)
  | routeRot (t : Tail) (g : Guard) (d : Dst) (a : Src) (b : Src) (w : Width)
  | routeShift (t : Tail) (g : Guard) (d : Dst) (a : Src) (b : Src) (w : Width)
  | routeFlip (t : Tail) (g : Guard) (d : Dst) (a : Src) (b : Src) (w : Width)
  | peers (t : Tail) (g : Guard) (d : Dst) (a : Src) (w : Width)
  | fadd (t : Tail) (g : Guard) (d : Dst) (a : Src) (b : Src) (r : Rnd) (w : FWidth)
  | fsub (t : Tail) (d : Dst) (a : Src) (b : Src) (r : Rnd) (w : FWidth)
  | fmul (t : Tail) (g : Guard) (d : Dst) (a : Src) (b : Src) (r : Rnd) (w : FWidth)
  | ffma (t : Tail) (d : Dst) (a : Src) (b : Src) (q : Cq) (r : Rnd) (w : FWidth)
  | ffms (t : Tail) (d : Dst) (a : Src) (b : Src) (q : Cq) (r : Rnd) (w : FWidth)
  | fnma (t : Tail) (d : Dst) (a : Src) (b : Src) (q : Cq) (r : Rnd) (w : FWidth)
  | fmin (t : Tail) (g : Guard) (d : Dst) (a : Src) (b : Src) (w : FWidth)
  | fmax (t : Tail) (g : Guard) (d : Dst) (a : Src) (b : Src) (w : FWidth)
  | fminNum (t : Tail) (g : Guard) (d : Dst) (a : Src) (b : Src) (w : FWidth)
  | fmaxNum (t : Tail) (g : Guard) (d : Dst) (a : Src) (b : Src) (w : FWidth)
  | fcmp (t : Tail) (g : Guard) (pd : PDst) (a : Src) (b : Src) (n : FCond) (w : FWidth)
  | fcvt (t : Tail) (g : Guard) (d : Dst) (a : Src) (f : Six) (r : Rnd) (u : Bool)
  | fclass (t : Tail) (g : Guard) (d : Dst) (a : Src) (w : FWidth)
  | ffrexp (t : Tail) (g : Guard) (d : VReg) (a : Src) (w : FWidth)
  | fabs (t : Tail) (g : Guard) (d : Dst) (a : Src) (w : FWidth)
  | fneg (t : Tail) (g : Guard) (d : Dst) (a : Src) (w : FWidth)
  | fcpysgn (t : Tail) (g : Guard) (d : Dst) (a : Src) (b : Src) (w : FWidth)
  | fscale (t : Tail) (d : Dst) (a : Src) (b : Src) (r : Rnd) (w : FWidth)
  | fdiv (t : Tail) (l : La) (d : Dst) (a : Src) (b : Src) (r : Rnd) (w : FWidth)
  | fsqrt (t : Tail) (l : La) (d : Dst) (a : Src) (r : Rnd) (w : FWidth)
  | frcp (t : Tail) (l : La) (d : Dst) (a : Src) (r : Rnd) (w : FWidth)
  | frsq (t : Tail) (l : La) (d : Dst) (a : Src) (r : Rnd) (w : FWidth)
  | fexp2 (t : Tail) (l : La) (d : Dst) (a : Src) (w : FWidth)
  | flog2 (t : Tail) (l : La) (d : Dst) (a : Src) (w : FWidth)
  | fsin (t : Tail) (l : La) (d : Dst) (a : Src) (w : FWidth)
  | fcos (t : Tail) (l : La) (d : Dst) (a : Src) (w : FWidth)
  | ftanh (t : Tail) (l : La) (d : Dst) (a : Src) (w : FWidth)
  | pkadd16 (t : Tail) (g : Guard) (d : Dst) (a : Src) (b : Src) (r : Rnd) (h : HFmt)
  | pkmul16 (t : Tail) (d : Dst) (a : Src) (b : Src) (r : Rnd) (h : HFmt)
  | pkfma16 (t : Tail) (d : VReg) (a : Src) (b : Src) (r : Rnd) (h : HFmt)
  | pkfna16 (t : Tail) (d : VReg) (a : Src) (b : Src) (r : Rnd) (h : HFmt)
  | cvtn (t : Tail) (g : Guard) (d : Dst) (a : Src) (f : Six) (r : Rnd) (u : Bool)
  | dot4I8 (t : Tail) (g : Guard) (d : VReg) (a : Src) (b : Src)
  | dot4N8 (t : Tail) (g : Guard) (d : VReg) (a : Src) (b : Src)
  | dot8E4m3 (t : Tail) (g : Guard) (d : VReg) (a : Src) (b : Src)
  | dot8E5m2 (t : Tail) (g : Guard) (d : VReg) (a : Src) (b : Src)
  | sclx (t : Tail) (g : Guard) (d : Dst) (a : Src) (b : Src) (j : Sel)
  | scls (t : Tail) (g : Guard) (d : Dst) (a : Src) (b : Src) (j : Sel)
  | pkaddF32 (t : Tail) (g : Guard) (d : Dst) (a : Src) (b : Src) (r : Rnd)
  | pkmulF32 (t : Tail) (d : Dst) (a : Src) (b : Src) (r : Rnd)
  | pkfmaF32 (t : Tail) (d : VReg) (a : Src) (b : Src) (r : Rnd)
  | pkfnaF32 (t : Tail) (d : VReg) (a : Src) (b : Src) (r : Rnd)
  | mmad (c : Bool) (l : La) (d : VReg) (a : VReg) (b : VReg) (r : Rnd)
  | mmaF32 (c : Bool) (l : La) (d : VReg) (a : VReg) (b : VReg) (r : Rnd)
  | mmaBf16 (c : Bool) (l : La) (d : VReg) (a : VReg) (b : VReg)
  | mmaF16 (c : Bool) (l : La) (d : VReg) (a : VReg) (b : VReg)
  | mmaq (c : Bool) (l : La) (d : VReg) (a : VReg) (b : VReg) (fa : QFmt) (fb : QFmt)
  | mmas (l : La) (d : VReg) (a : VReg) (b : VReg) (fb : SFmt) (mc : Bool) (sa : VReg) (sb : VReg) (ja : Sel) (jb : Sel)
  | mmat (t : Tail) (l : La) (d : VReg) (a : VReg) (h : Src) (f : TFmt)
  | mmaj (c : Bool) (l : La) (d : VReg) (a : VReg) (b : VReg) (f : JFmt)
  | tfact (c : Bool) (l : La) (d : VReg) (a : VReg) (k : SolveKind)
  | tsolv (c : Bool) (l : La) (d : VReg) (a : VReg) (b : VReg) (k : SolveKind)
  | tref (l : La) (d : VReg) (a : VReg) (b : VReg) (k : SolveKind) (mc : Bool) (pd : PReg)
  | ld (g : Guard) (l : La) (x : Dst) (a : Base) (o : Off) (mc : Bool) (ty : MemTy)
  | st (g : Guard) (x : Src) (a : Base) (o : Off) (mc : Bool) (ty : MemTy)
  | ldl (g : Guard) (l : La) (x : Dst) (a : Base) (o : Off) (mc : Bool) (ty : MemTy)
  | stl (g : Guard) (x : Src) (a : Base) (o : Off) (mc : Bool) (ty : MemTy)
  | ldc (g : Guard) (l : La) (x : Dst) (a : Base) (o : Off) (mc : Bool) (ty : MemTy)
  | atom (g : Guard) (l : La) (x : Src) (a : Base) (o : Off) (mc : Bool) (op : AOp) (ty : MemTy) (sc : Scope) (xd : Dst)
  | red (g : Guard) (x : Src) (a : Base) (o : Off) (mc : Bool) (op : AOp) (ty : MemTy) (sc : Scope)
  | acas (g : Guard) (l : La) (x : Src) (a : Base) (o : Off) (mc : Bool) (ty : MemTy) (sc : Scope) (x2 : Src) (xd : Dst)
  | axch (g : Guard) (l : La) (x : Src) (a : Base) (o : Off) (mc : Bool) (ty : MemTy) (sc : Scope) (xd : Dst)
  | fence (c : Bool) (s : Sets) (p : Sets) (e : Scope)
  | fenceS (c : Bool) (s : Sets) (p : Sets) (e : Scope)
  | waitm (c : Bool) (g : Guard) (l : La) (a : VReg) (n : WCond) (w : Width)
  | cctlInv (c : Bool) (g : Guard) (a : Addr6)
  | cctlInvall (c : Bool)
  | cctlWb (c : Bool) (g : Guard) (a : Addr6)
  | pref (c : Bool) (g : Guard) (a : Addr6) (v : Bool)
  | copy (t : Tail) (g : Guard) (a : Src) (b : Src)
  | copyr (t : Tail) (g : Guard) (a : Src) (b : Src)
  | batch (c : Bool) (l : La)
  | waitb (t : Tail) (l : La) (a : Src)
  | qfence (c : Bool) (m : Four)
  | tile (t : Tail) (g : Guard) (l : La) (a : VReg) (b : Src)
  | barInit (t : Tail) (a : Src) (k : Four)
  | barArrive (c : Bool) (k : Four)
  | barWait (c : Bool) (l : La) (k : Four)
  | barTest (c : Bool) (l : La) (k : Four)
  | qstat (c : Bool) (l : La) (s : QSel)
  | coll (t : Tail) (g : Guard) (a : Src) (b : Src)
  | ifW (c : Bool) (g : Guard) (o : Off16)
  | elseW (c : Bool) (o : Off16)
  | endif (c : Bool)
  | loopW (c : Bool) (g : Guard) (o : Off16)
  | endloop (c : Bool) (g : Guard)
  | brk (c : Bool) (g : Guard)
  | cont (c : Bool) (g : Guard)
  | jmp (c : Bool) (g : Guard) (o : Off16)
  | call (c : Bool) (g : Guard) (o : Off16)
  | ret (c : Bool) (g : Guard)
  | exit (c : Bool) (g : Guard)
  | nop (c : Bool)
  | launch (t : Tail) (g : Guard) (l : La) (a : Src) (b : Src)
  | waitchild (t : Tail) (l : La) (a : Src)
  | spawn (t : Tail) (g : Guard) (a : Src) (b : MaskSrc)
  | yieldW (t : Tail) (g : Guard) (a : Src) (b : MaskSrc)
  | task (t : Tail) (b : MaskSrc)
  | commit (c : Bool)
  | regs (t : Tail) (n : Six) (b : MaskSrc)
  | endregs (c : Bool)
  | grow (t : Tail) (n : Six) (b : MaskSrc)
  | shrink (c : Bool) (n : Six)
  | trap (t : Tail) (g : Guard) (n : Six) (b : Src)
  | rtt (c : Bool)
  | getsr (c : Bool) (g : Guard) (l : La) (n : Six)
  | setsr (t : Tail) (g : Guard) (n : Six) (b : Src)
  | waitpred (c : Bool)
  | sigsucc (c : Bool)
  | traceW (t : Tail) (g : Guard) (n : Six) (b : Src)
  | pathb (t : Tail) (a : Src) (b : Src)
  | segl (c : Bool) (g : Guard) (a : VReg)
  | segq (c : Bool) (g : Guard) (a : VReg)
  | segc (c : Bool) (g : Guard) (a : VReg)
  | pathe (t : Tail) (a : Src) (b : Src)
  | covrd (t : Tail) (g : Guard) (l : La) (a : Src) (b : Src)
  | issueCycle (core : Nat)
  | resultDelivery (u : UnitRef)
  | gwctReturn (k : Nat)
  | fenceComplete (u : UnitRef)
  | fenceSValidation (k : Nat)
  | regionCommit (k : Nat)
  | effectRelease (n : Nat)
  | trayTimerExpiry (n : Nat)
  | seamWaitTimeout (k : Nat)
  | barrierArrivalCount (n : Nat)
  | copyDispatch (q : Nat)
  | copyComplete (n : Nat)
  | operandFetchComplete (cl : Nat) (n : Nat)
  | enginePassGrant (cl : Nat)
  | matrixDelivery (cl : Nat) (n : Nat)
  | mmajGatherTimeout (cl : Nat) (n : Nat)
  | fmtemuComplete (k : Nat)
  | collComplete (n : Nat)
  | collMemberTimeout (n : Nat) (j : Nat)
  | pathOperation (core : Nat)
  | waitmReread (u : UnitRef)
  | starvationLimit (core : Nat)
  | watchedWaitExpiry (u : UnitRef)
  | groupRestore (n : Nat)
  | launchAccept (n : Nat)
  | teamAdmission (gk : Nat)
  | gridComplete (gk : Nat)
  | wr (slice : Nat) (tag : PacketTag) (line : Nat) (sectors : Four) (masks : WrMasks) (data : WrData)
  | writePerformed (ch : Nat) (n : Nat)
  | subGranuleMerge (ch : Nat) (n : Nat)
  | readServiceComplete (ch : Nat) (n : Nat)
  | rdata (ch : Nat) (n : Nat)
  | wack (ch : Nat) (n : Nat)
  | writeBufferDrain (ch : Nat)
  | crustWriteback (ch : Nat)
  | rowRemapComplete (ch : Nat) (bank : Nat) (row : Nat)
  | sideLogReplay (core : Nat)
  | epochEnd (die : Nat)
  | pageExpansion (die : Nat) (ctx : Nat) (va : PageTouch)
  | hqLaunch (q : Nat)
  | hqRelease (q : Nat)
  | hqAcquire (q : Nat)
  | hqJoin (q : Nat)
  | contextSaveComplete (ctx : Nat)
  | traceRingWrite (die : Nat)
  | traceSyncTimer (k : Nat)
  | loss (core : Nat)
  | proxyPlacementTimeout (k : Nat)
  | proxyTransferComplete (k : Nat)
  | proxyResume (k : Nat)
  | unitTestComplete (kind : Nat) (index : Nat) (res : TestResult)
  | hostCompletionTimeout (n : Nat)
  | peerReplyTimeout (n : Nat)
  | peerRetry (core : Nat)
  | peerStoreDrop (core : Nat)
  | arbiterPromotion (cl : Nat)
  | rd (slice : Nat) (tag : PacketTag) (line : Nat) (sectors : Four) (noalloc : Bool)
  | patrolScrub (gran : Nat)
  | bplAdd (page : Nat)
  | bplRemove (page : Nat)
  | walkComplete (core : Nat) (ctx : Nat) (va : Nat) (acc : AccessKind)
  | hqDoorbell (q : Nat) (v : W64)
  | hqbaseWrite (q : Nat) (v : W64)
  | hqctxWrite (q : Nat) (v : W64)
  | hqctlWrite (q : Nat) (v : W64)
  | plctlWrite (v : W64)
  | preempt (ctx : Nat)
  | resume (ctx : Nat)
  | residueMismatch (u : UnitRef)
  | parityError (u : UnitRef)
  | strikeReport (zone : Nat)
  | sliceCricketReport (slice : Nat)
  | l1Uncorrectable (core : Nat) (pa : Nat)
  | cnscntWrite (v : W64)
  | peerPortDown (p : Nat)
  | trctlWrite (die : Nat) (v : W64)
  | hostBar2Read (off : Nat) (n : Nat)
  | l2SliceRequest (rq : SliceReq)
  | peerInboundRequest (rq : PeerReq)
  | peerPortUp (p : Nat)
  | powerControl (watts : Nat) (temp : Nat) (step : Nat)
  | pwrctlWrite (v : W64)
  | registerWrite (off : Nat) (v : W64)
  | hostBar2Write (off : Nat) (bytes : ByteList)
  | memberContribution (n : Nat) (j : Nat) (c : Contribution)
  | bplCommandComplete
  | vminvRange
  | vminvContext
  | vminvAll
  | vminvRefuseRange
  | invalidationComplete
  | teardown
  | scoreDecay
  | packageReset
  | bootStageComplete
  | bootStageTimeout
  | mbAttest
  | mbImageWrite
  | mbSlotActivate
  | mbCertRead
  | mbRestart
  | mailboxComplete
  | thermalTrip
  | powerLoss
  deriving DecidableEq, Repr

end Sys2Proof
end

