-- ==== Sys2Proof/WellFormed.lean ====
section
/-! DEFINITION. Which instructions the encoding can say: the checks of the word itself, of its literal and of its
modifier (spec/09 R203-R211, and each chapter's table of illegal uses: R236, R256, R279, R290, R323, R347, R387). -/

namespace Sys2Proof

/-- K = 1 with PD4 = 11 is illegal (R205). -/
def PDst.wf (d : PDst) : Bool := !(d.k && d.p.val == 11)

/-- The source is the chained literal. -/
def Src.isLit : Src → Bool
  | .lit => true
  | _ => false

/-- The source pops a k-queue. -/
def Src.isK : Src → Bool
  | .k _ => true
  | _ => false

/-- The mask is the chained literal. -/
def MaskSrc.isLit : MaskSrc → Bool
  | .lit => true
  | _ => false

/-- A literal word follows exactly when a source names LIT (R202, reasons 0x4 and 0x5). -/
def Tail.wfFor (t : Tail) (usesLit : Bool) : Bool :=
  match t with
  | .lit _ _ => usesLit
  | _ => !usesLit

/-- A load accepts every type; `.b128` needs a register pair (R301, R303). -/
def MemTy.loadOk (ty : MemTy) (x : Dst) : Bool :=
  match ty, x with
  | .b128, .v n => decide (n.val ≤ 22)
  | .b128, _ => false
  | _, _ => true

/-- The types a store accepts (R301), and its register pair (R303). -/
def MemTy.storeOk (ty : MemTy) (x : Src) : Bool :=
  match ty, x with
  | .b8, _ | .b16, _ | .b32, _ | .b64, _ => true
  | .b128, .v n => decide (n.val ≤ 22)
  | _, _ => false

/-- The pairings of atomic operation and type (R311). -/
def MemTy.atomOk (ty : MemTy) (op : AOp) : Bool :=
  match op, ty with
  | .add, .i32 | .add, .n32 | .add, .i64 | .add, .n64 | .add, .f32 | .add, .f64 => true
  | .min, .i32 | .min, .i64 | .min, .n32 | .min, .n64 | .min, .f32 | .min, .f64 => true
  | .max, .i32 | .max, .i64 | .max, .n32 | .max, .n64 | .max, .f32 | .max, .f64 => true
  | .and, .b32 | .and, .b64 | .or, .b32 | .or, .b64 | .xor, .b32 | .xor, .b64 => true
  | .inc, .n32 | .inc, .n64 | .dec, .n32 | .dec, .n64 => true
  | _, _ => false

/-- The instruction is one its encoding can say; an event always is. -/
def Instr.wf : Instr → Bool
  | .iadd t _ _ a b _ => t.wfFor (a.isLit || b.isLit)
  | .isub t _ _ a b _ => t.wfFor (a.isLit || b.isLit)
  | .iaddc t _ _ a b _ => t.wfFor (a.isLit || b.isLit)
  | .imul t _ _ a b _ => t.wfFor (a.isLit || b.isLit)
  | .imulhI t _ _ a b _ => t.wfFor (a.isLit || b.isLit)
  | .imulhN t _ _ a b _ => t.wfFor (a.isLit || b.isLit)
  | .imad t _ a b _ _ => t.wfFor (a.isLit || b.isLit)
  | .andB t _ _ a b _ => t.wfFor (a.isLit || b.isLit)
  | .orB t _ _ a b _ => t.wfFor (a.isLit || b.isLit)
  | .xorB t _ _ a b _ => t.wfFor (a.isLit || b.isLit)
  | .andn t _ _ a b _ => t.wfFor (a.isLit || b.isLit)
  | .orn t _ _ a b _ => t.wfFor (a.isLit || b.isLit)
  | .notB t _ _ a _ => t.wfFor (a.isLit)
  | .shl t _ _ a b _ => t.wfFor (a.isLit || b.isLit)
  | .shr t _ _ a b _ => t.wfFor (a.isLit || b.isLit)
  | .sar t _ _ a b _ => t.wfFor (a.isLit || b.isLit)
  | .rol t _ _ a b _ => t.wfFor (a.isLit || b.isLit)
  | .ror t _ _ a b _ => t.wfFor (a.isLit || b.isLit)
  | .popc t _ _ a _ => t.wfFor (a.isLit)
  | .clz t _ _ a _ => t.wfFor (a.isLit)
  | .ctz t _ _ a _ => t.wfFor (a.isLit)
  | .brev t _ _ a _ => t.wfFor (a.isLit)
  | .bfeN t _ _ a b _ => t.wfFor (a.isLit || b.isLit)
  | .bfeI t _ _ a b _ => t.wfFor (a.isLit || b.isLit)
  | .bfi t _ _ a b _ => t.wfFor (a.isLit || b.isLit)
  | .minI t _ _ a b _ => t.wfFor (a.isLit || b.isLit)
  | .minN t _ _ a b _ => t.wfFor (a.isLit || b.isLit)
  | .maxI t _ _ a b _ => t.wfFor (a.isLit || b.isLit)
  | .maxN t _ _ a b _ => t.wfFor (a.isLit || b.isLit)
  | .absI t _ _ a _ => t.wfFor (a.isLit)
  | .negI t _ _ a _ => t.wfFor (a.isLit)
  | .sel t _ _ a b _ => t.wfFor (a.isLit || b.isLit)
  | .mov t _ _ a _ => t.wfFor (a.isLit)
  | .movs t _ _ a _ => t.wfFor (a.isLit)
  | .lea t _ _ a b _ => t.wfFor (a.isLit || b.isLit)
  | .icmp32 t _ pd a b _ => t.wfFor (a.isLit || b.isLit) && pd.wf
  | .icmp64 t _ pd a b _ => t.wfFor (a.isLit || b.isLit) && pd.wf
  | .pand _ _ pd _ _ => pd.wf
  | .por _ _ pd _ _ => pd.wf
  | .pxor _ _ pd _ _ => pd.wf
  | .pnot _ _ pd _ => pd.wf
  | .pmov _ _ pd _ => pd.wf
  | .censusNz t _ _ a => t.wfFor (a.isLit)
  | .censusLsb t _ _ a => t.wfFor (a.isLit)
  | .censusSgn t _ _ a => t.wfFor (a.isLit)
  | .routeFrom t _ _ a b _ => t.wfFor (a.isLit || b.isLit)
  | .routeRot t _ _ a b _ => t.wfFor (a.isLit || b.isLit)
  | .routeShift t _ _ a b _ => t.wfFor (a.isLit || b.isLit)
  | .routeFlip t _ _ a b _ => t.wfFor (a.isLit || b.isLit)
  | .peers t _ _ a _ => t.wfFor (a.isLit)
  | .fadd t _ _ a b _ _ => t.wfFor (a.isLit || b.isLit)
  | .fsub t _ a b _ _ => t.wfFor (a.isLit || b.isLit)
  | .fmul t _ _ a b _ _ => t.wfFor (a.isLit || b.isLit)
  | .ffma t _ a b _ _ _ => t.wfFor (a.isLit || b.isLit)
  | .ffms t _ a b _ _ _ => t.wfFor (a.isLit || b.isLit)
  | .fnma t _ a b _ _ _ => t.wfFor (a.isLit || b.isLit)
  | .fmin t _ _ a b _ => t.wfFor (a.isLit || b.isLit)
  | .fmax t _ _ a b _ => t.wfFor (a.isLit || b.isLit)
  | .fminNum t _ _ a b _ => t.wfFor (a.isLit || b.isLit)
  | .fmaxNum t _ _ a b _ => t.wfFor (a.isLit || b.isLit)
  | .fcmp t _ pd a b _ _ => t.wfFor (a.isLit || b.isLit) && pd.wf
  | .fcvt t _ _ a f _ u => t.wfFor (a.isLit) && (!u || (16 ≤ f.val && f.val ≤ 23))
  | .fclass t _ _ a _ => t.wfFor (a.isLit)
  | .ffrexp t _ d a _ => t.wfFor (a.isLit) && decide (d.val ≤ 22)
  | .fabs t _ _ a _ => t.wfFor (a.isLit)
  | .fneg t _ _ a _ => t.wfFor (a.isLit)
  | .fcpysgn t _ _ a b _ => t.wfFor (a.isLit || b.isLit)
  | .fscale t _ a b _ _ => t.wfFor (a.isLit || b.isLit)
  | .fdiv t _ _ a b _ _ => t.wfFor (a.isLit || b.isLit)
  | .fsqrt t _ _ a _ _ => t.wfFor (a.isLit)
  | .frcp t _ _ a _ _ => t.wfFor (a.isLit)
  | .frsq t _ _ a r w => t.wfFor (a.isLit) && (w != .f64 || r == .rn)
  | .fexp2 t _ _ a _ => t.wfFor (a.isLit)
  | .flog2 t _ _ a _ => t.wfFor (a.isLit)
  | .fsin t _ _ a _ => t.wfFor (a.isLit)
  | .fcos t _ _ a _ => t.wfFor (a.isLit)
  | .ftanh t _ _ a _ => t.wfFor (a.isLit)
  | .pkadd16 t _ _ a b _ _ => t.wfFor (a.isLit || b.isLit)
  | .pkmul16 t _ a b _ _ => t.wfFor (a.isLit || b.isLit)
  | .pkfma16 t _ a b _ _ => t.wfFor (a.isLit || b.isLit)
  | .pkfna16 t _ a b _ _ => t.wfFor (a.isLit || b.isLit)
  | .cvtn t _ _ a f _ u => t.wfFor (a.isLit) && (f.val ≤ 5 || (8 ≤ f.val && f.val ≤ 15)) && (!u || (2 ≤ f.val && f.val ≤ 5))
  | .dot4I8 t _ _ a b => t.wfFor (a.isLit || b.isLit)
  | .dot4N8 t _ _ a b => t.wfFor (a.isLit || b.isLit)
  | .dot8E4m3 t _ _ a b => t.wfFor (a.isLit || b.isLit)
  | .dot8E5m2 t _ _ a b => t.wfFor (a.isLit || b.isLit)
  | .sclx t _ _ a b _ => t.wfFor (a.isLit || b.isLit)
  | .scls t _ _ a b _ => t.wfFor (a.isLit || b.isLit)
  | .pkaddF32 t _ _ a b _ => t.wfFor (a.isLit || b.isLit)
  | .pkmulF32 t _ a b _ => t.wfFor (a.isLit || b.isLit)
  | .pkfmaF32 t _ a b _ => t.wfFor (a.isLit || b.isLit)
  | .pkfnaF32 t _ a b _ => t.wfFor (a.isLit || b.isLit)
  | .mmad _ _ _ _ _ _ => true
  | .mmaF32 _ _ _ _ _ _ => true
  | .mmaBf16 _ _ _ _ _ => true
  | .mmaF16 _ _ _ _ _ => true
  | .mmaq _ _ _ _ _ _ _ => true
  | .mmas _ _ _ _ fb _ _ sb _ jb => (fb == .e2m1 || (sb.val == 0 && jb.val == 0))
  | .mmat t _ _ _ h _ => t.wfFor (h.isLit) && !h.isK
  | .mmaj _ _ _ _ _ _ => true
  | .tfact _ _ _ _ _ => true
  | .tsolv _ _ _ _ _ _ => true
  | .tref _ _ _ _ _ _ _ => true
  | .ld _ _ x _ _ _ ty => ty.loadOk x
  | .st _ x _ _ _ ty => ty.storeOk x && !x.isLit
  | .ldl _ _ x _ _ _ ty => ty.loadOk x
  | .stl _ x _ _ _ ty => ty.storeOk x && !x.isLit
  | .ldc _ _ x _ _ _ ty => ty.loadOk x
  | .atom _ _ x _ _ _ op ty _ _ => ty.atomOk op && !x.isLit
  | .red _ x _ _ _ op ty _ => ty.atomOk op && !x.isLit
  | .acas _ _ x _ _ _ ty _ x2 _ => (ty == .b32 || ty == .b64) && !x.isLit && !x2.isLit
  | .axch _ _ x _ _ _ ty _ _ => (ty == .b32 || ty == .b64) && !x.isLit
  | .fence _ _ _ _ => true
  | .fenceS _ _ _ _ => true
  | .waitm _ _ _ a _ _ => decide (a.val ≤ 22)
  | .cctlInv _ _ _ => true
  | .cctlInvall _ => true
  | .cctlWb _ _ _ => true
  | .pref _ _ _ _ => true
  | .copy t _ a b => t.wfFor (a.isLit || b.isLit)
  | .copyr t _ a b => t.wfFor (a.isLit || b.isLit)
  | .batch _ _ => true
  | .waitb t _ a => t.wfFor (a.isLit)
  | .qfence _ m => (m.val != 0)
  | .tile t _ _ a b => t.wfFor (b.isLit) && decide (a.val ≤ 22)
  | .barInit t a _ => t.wfFor (a.isLit)
  | .barArrive _ _ => true
  | .barWait _ _ _ => true
  | .barTest _ _ _ => true
  | .qstat _ _ _ => true
  | .coll t _ a b => t.wfFor (a.isLit || b.isLit)
  | .ifW _ _ _ => true
  | .elseW _ _ => true
  | .endif _ => true
  | .loopW _ _ _ => true
  | .endloop _ _ => true
  | .brk _ _ => true
  | .cont _ _ => true
  | .jmp _ _ _ => true
  | .call _ _ _ => true
  | .ret _ _ => true
  | .exit _ _ => true
  | .nop _ => true
  | .launch t _ _ a b => t.wfFor (a.isLit || b.isLit) && !a.isK && !b.isK
  | .waitchild t _ a => t.wfFor (a.isLit) && !a.isK
  | .spawn t _ a b => t.wfFor (a.isLit || b.isLit) && !a.isK
  | .yieldW t _ a b => t.wfFor (a.isLit || b.isLit) && !a.isK
  | .task t b => t.wfFor (b.isLit)
  | .commit _ => true
  | .regs t _ b => t.wfFor (b.isLit)
  | .endregs _ => true
  | .grow t _ b => t.wfFor (b.isLit)
  | .shrink _ _ => true
  | .trap t _ _ b => t.wfFor (b.isLit) && !b.isK
  | .rtt _ => true
  | .getsr _ _ _ _ => true
  | .setsr t _ _ b => t.wfFor (b.isLit) && !b.isK
  | .waitpred _ => true
  | .sigsucc _ => true
  | .traceW t _ _ b => t.wfFor (b.isLit) && !b.isK
  | .pathb t a b => t.wfFor (a.isLit || b.isLit) && !a.isK && !b.isK
  | .segl _ _ _ => true
  | .segq _ _ _ => true
  | .segc _ _ _ => true
  | .pathe t a b => t.wfFor (a.isLit || b.isLit) && !a.isK && !b.isK
  | .covrd t _ _ a b => t.wfFor (a.isLit || b.isLit) && !a.isK && !b.isK
  | .issueCycle _ => true
  | .resultDelivery _ => true
  | .gwctReturn _ => true
  | .fenceComplete _ => true
  | .fenceSValidation _ => true
  | .regionCommit _ => true
  | .effectRelease _ => true
  | .trayTimerExpiry _ => true
  | .seamWaitTimeout _ => true
  | .barrierArrivalCount _ => true
  | .copyDispatch _ => true
  | .copyComplete _ => true
  | .operandFetchComplete _ _ => true
  | .enginePassGrant _ => true
  | .arbiterPromotion _ => true
  | .matrixDelivery _ _ => true
  | .mmajGatherTimeout _ _ => true
  | .fmtemuComplete _ => true
  | .collComplete _ => true
  | .collMemberTimeout _ _ => true
  | .pathOperation _ => true
  | .waitmReread _ => true
  | .starvationLimit _ => true
  | .watchedWaitExpiry _ => true
  | .groupRestore _ => true
  | .launchAccept _ => true
  | .teamAdmission _ => true
  | .gridComplete _ => true
  | .rd _ _ _ _ _ => true
  | .wr _ _ _ _ _ _ => true
  | .writePerformed _ _ => true
  | .subGranuleMerge _ _ => true
  | .readServiceComplete _ _ => true
  | .rdata _ _ => true
  | .wack _ _ => true
  | .writeBufferDrain _ => true
  | .crustWriteback _ => true
  | .rowRemapComplete _ _ _ => true
  | .patrolScrub _ => true
  | .bplAdd _ => true
  | .bplRemove _ => true
  | .bplCommandComplete => true
  | .walkComplete _ _ _ _ => true
  | .vminvRange => true
  | .vminvContext => true
  | .vminvAll => true
  | .vminvRefuseRange => true
  | .invalidationComplete => true
  | .sideLogReplay _ => true
  | .epochEnd _ => true
  | .pageExpansion _ _ _ => true
  | .hqDoorbell _ _ => true
  | .hqbaseWrite _ _ => true
  | .hqctxWrite _ _ => true
  | .hqctlWrite _ _ => true
  | .hqLaunch _ => true
  | .hqRelease _ => true
  | .hqAcquire _ => true
  | .hqJoin _ => true
  | .plctlWrite _ => true
  | .teardown => true
  | .preempt _ => true
  | .resume _ => true
  | .contextSaveComplete _ => true
  | .traceRingWrite _ => true
  | .traceSyncTimer _ => true
  | .loss _ => true
  | .trctlWrite _ _ => true
  | .residueMismatch _ => true
  | .parityError _ => true
  | .strikeReport _ => true
  | .sliceCricketReport _ => true
  | .l1Uncorrectable _ _ => true
  | .proxyPlacementTimeout _ => true
  | .proxyTransferComplete _ => true
  | .proxyResume _ => true
  | .scoreDecay => true
  | .unitTestComplete _ _ _ => true
  | .cnscntWrite _ => true
  | .hostBar2Read _ _ => true
  | .hostBar2Write _ _ => true
  | .hostCompletionTimeout _ => true
  | .peerInboundRequest _ => true
  | .peerReplyTimeout _ => true
  | .peerRetry _ => true
  | .peerStoreDrop _ => true
  | .peerPortDown _ => true
  | .peerPortUp _ => true
  | .packageReset => true
  | .bootStageComplete => true
  | .bootStageTimeout => true
  | .mbAttest => true
  | .mbImageWrite => true
  | .mbSlotActivate => true
  | .mbCertRead => true
  | .mbRestart => true
  | .mailboxComplete => true
  | .powerControl _ _ _ => true
  | .pwrctlWrite _ => true
  | .thermalTrip => true
  | .registerWrite _ _ => true
  | .l2SliceRequest _ => true
  | .memberContribution _ _ _ => true
  | .powerLoss => true

/-- The row is an event: a move of the machine that no program word encodes. -/
def Instr.isEvent : Instr → Bool
  | .iadd _ _ _ _ _ _ => false
  | .isub _ _ _ _ _ _ => false
  | .iaddc _ _ _ _ _ _ => false
  | .imul _ _ _ _ _ _ => false
  | .imulhI _ _ _ _ _ _ => false
  | .imulhN _ _ _ _ _ _ => false
  | .imad _ _ _ _ _ _ => false
  | .andB _ _ _ _ _ _ => false
  | .orB _ _ _ _ _ _ => false
  | .xorB _ _ _ _ _ _ => false
  | .andn _ _ _ _ _ _ => false
  | .orn _ _ _ _ _ _ => false
  | .notB _ _ _ _ _ => false
  | .shl _ _ _ _ _ _ => false
  | .shr _ _ _ _ _ _ => false
  | .sar _ _ _ _ _ _ => false
  | .rol _ _ _ _ _ _ => false
  | .ror _ _ _ _ _ _ => false
  | .popc _ _ _ _ _ => false
  | .clz _ _ _ _ _ => false
  | .ctz _ _ _ _ _ => false
  | .brev _ _ _ _ _ => false
  | .bfeN _ _ _ _ _ _ => false
  | .bfeI _ _ _ _ _ _ => false
  | .bfi _ _ _ _ _ _ => false
  | .minI _ _ _ _ _ _ => false
  | .minN _ _ _ _ _ _ => false
  | .maxI _ _ _ _ _ _ => false
  | .maxN _ _ _ _ _ _ => false
  | .absI _ _ _ _ _ => false
  | .negI _ _ _ _ _ => false
  | .sel _ _ _ _ _ _ => false
  | .mov _ _ _ _ _ => false
  | .movs _ _ _ _ _ => false
  | .lea _ _ _ _ _ _ => false
  | .icmp32 _ _ _ _ _ _ => false
  | .icmp64 _ _ _ _ _ _ => false
  | .pand _ _ _ _ _ => false
  | .por _ _ _ _ _ => false
  | .pxor _ _ _ _ _ => false
  | .pnot _ _ _ _ => false
  | .pmov _ _ _ _ => false
  | .censusNz _ _ _ _ => false
  | .censusLsb _ _ _ _ => false
  | .censusSgn _ _ _ _ => false
  | .routeFrom _ _ _ _ _ _ => false
  | .routeRot _ _ _ _ _ _ => false
  | .routeShift _ _ _ _ _ _ => false
  | .routeFlip _ _ _ _ _ _ => false
  | .peers _ _ _ _ _ => false
  | .fadd _ _ _ _ _ _ _ => false
  | .fsub _ _ _ _ _ _ => false
  | .fmul _ _ _ _ _ _ _ => false
  | .ffma _ _ _ _ _ _ _ => false
  | .ffms _ _ _ _ _ _ _ => false
  | .fnma _ _ _ _ _ _ _ => false
  | .fmin _ _ _ _ _ _ => false
  | .fmax _ _ _ _ _ _ => false
  | .fminNum _ _ _ _ _ _ => false
  | .fmaxNum _ _ _ _ _ _ => false
  | .fcmp _ _ _ _ _ _ _ => false
  | .fcvt _ _ _ _ _ _ _ => false
  | .fclass _ _ _ _ _ => false
  | .ffrexp _ _ _ _ _ => false
  | .fabs _ _ _ _ _ => false
  | .fneg _ _ _ _ _ => false
  | .fcpysgn _ _ _ _ _ _ => false
  | .fscale _ _ _ _ _ _ => false
  | .fdiv _ _ _ _ _ _ _ => false
  | .fsqrt _ _ _ _ _ _ => false
  | .frcp _ _ _ _ _ _ => false
  | .frsq _ _ _ _ _ _ => false
  | .fexp2 _ _ _ _ _ => false
  | .flog2 _ _ _ _ _ => false
  | .fsin _ _ _ _ _ => false
  | .fcos _ _ _ _ _ => false
  | .ftanh _ _ _ _ _ => false
  | .pkadd16 _ _ _ _ _ _ _ => false
  | .pkmul16 _ _ _ _ _ _ => false
  | .pkfma16 _ _ _ _ _ _ => false
  | .pkfna16 _ _ _ _ _ _ => false
  | .cvtn _ _ _ _ _ _ _ => false
  | .dot4I8 _ _ _ _ _ => false
  | .dot4N8 _ _ _ _ _ => false
  | .dot8E4m3 _ _ _ _ _ => false
  | .dot8E5m2 _ _ _ _ _ => false
  | .sclx _ _ _ _ _ _ => false
  | .scls _ _ _ _ _ _ => false
  | .pkaddF32 _ _ _ _ _ _ => false
  | .pkmulF32 _ _ _ _ _ => false
  | .pkfmaF32 _ _ _ _ _ => false
  | .pkfnaF32 _ _ _ _ _ => false
  | .mmad _ _ _ _ _ _ => false
  | .mmaF32 _ _ _ _ _ _ => false
  | .mmaBf16 _ _ _ _ _ => false
  | .mmaF16 _ _ _ _ _ => false
  | .mmaq _ _ _ _ _ _ _ => false
  | .mmas _ _ _ _ _ _ _ _ _ _ => false
  | .mmat _ _ _ _ _ _ => false
  | .mmaj _ _ _ _ _ _ => false
  | .tfact _ _ _ _ _ => false
  | .tsolv _ _ _ _ _ _ => false
  | .tref _ _ _ _ _ _ _ => false
  | .ld _ _ _ _ _ _ _ => false
  | .st _ _ _ _ _ _ => false
  | .ldl _ _ _ _ _ _ _ => false
  | .stl _ _ _ _ _ _ => false
  | .ldc _ _ _ _ _ _ _ => false
  | .atom _ _ _ _ _ _ _ _ _ _ => false
  | .red _ _ _ _ _ _ _ _ => false
  | .acas _ _ _ _ _ _ _ _ _ _ => false
  | .axch _ _ _ _ _ _ _ _ _ => false
  | .fence _ _ _ _ => false
  | .fenceS _ _ _ _ => false
  | .waitm _ _ _ _ _ _ => false
  | .cctlInv _ _ _ => false
  | .cctlInvall _ => false
  | .cctlWb _ _ _ => false
  | .pref _ _ _ _ => false
  | .copy _ _ _ _ => false
  | .copyr _ _ _ _ => false
  | .batch _ _ => false
  | .waitb _ _ _ => false
  | .qfence _ _ => false
  | .tile _ _ _ _ _ => false
  | .barInit _ _ _ => false
  | .barArrive _ _ => false
  | .barWait _ _ _ => false
  | .barTest _ _ _ => false
  | .qstat _ _ _ => false
  | .coll _ _ _ _ => false
  | .ifW _ _ _ => false
  | .elseW _ _ => false
  | .endif _ => false
  | .loopW _ _ _ => false
  | .endloop _ _ => false
  | .brk _ _ => false
  | .cont _ _ => false
  | .jmp _ _ _ => false
  | .call _ _ _ => false
  | .ret _ _ => false
  | .exit _ _ => false
  | .nop _ => false
  | .launch _ _ _ _ _ => false
  | .waitchild _ _ _ => false
  | .spawn _ _ _ _ => false
  | .yieldW _ _ _ _ => false
  | .task _ _ => false
  | .commit _ => false
  | .regs _ _ _ => false
  | .endregs _ => false
  | .grow _ _ _ => false
  | .shrink _ _ => false
  | .trap _ _ _ _ => false
  | .rtt _ => false
  | .getsr _ _ _ _ => false
  | .setsr _ _ _ _ => false
  | .waitpred _ => false
  | .sigsucc _ => false
  | .traceW _ _ _ _ => false
  | .pathb _ _ _ => false
  | .segl _ _ _ => false
  | .segq _ _ _ => false
  | .segc _ _ _ => false
  | .pathe _ _ _ => false
  | .covrd _ _ _ _ _ => false
  | .issueCycle _ => true
  | .resultDelivery _ => true
  | .gwctReturn _ => true
  | .fenceComplete _ => true
  | .fenceSValidation _ => true
  | .regionCommit _ => true
  | .effectRelease _ => true
  | .trayTimerExpiry _ => true
  | .seamWaitTimeout _ => true
  | .barrierArrivalCount _ => true
  | .copyDispatch _ => true
  | .copyComplete _ => true
  | .operandFetchComplete _ _ => true
  | .enginePassGrant _ => true
  | .arbiterPromotion _ => true
  | .matrixDelivery _ _ => true
  | .mmajGatherTimeout _ _ => true
  | .fmtemuComplete _ => true
  | .collComplete _ => true
  | .collMemberTimeout _ _ => true
  | .pathOperation _ => true
  | .waitmReread _ => true
  | .starvationLimit _ => true
  | .watchedWaitExpiry _ => true
  | .groupRestore _ => true
  | .launchAccept _ => true
  | .teamAdmission _ => true
  | .gridComplete _ => true
  | .rd _ _ _ _ _ => true
  | .wr _ _ _ _ _ _ => true
  | .writePerformed _ _ => true
  | .subGranuleMerge _ _ => true
  | .readServiceComplete _ _ => true
  | .rdata _ _ => true
  | .wack _ _ => true
  | .writeBufferDrain _ => true
  | .crustWriteback _ => true
  | .rowRemapComplete _ _ _ => true
  | .patrolScrub _ => true
  | .bplAdd _ => true
  | .bplRemove _ => true
  | .bplCommandComplete => true
  | .walkComplete _ _ _ _ => true
  | .vminvRange => true
  | .vminvContext => true
  | .vminvAll => true
  | .vminvRefuseRange => true
  | .invalidationComplete => true
  | .sideLogReplay _ => true
  | .epochEnd _ => true
  | .pageExpansion _ _ _ => true
  | .hqDoorbell _ _ => true
  | .hqbaseWrite _ _ => true
  | .hqctxWrite _ _ => true
  | .hqctlWrite _ _ => true
  | .hqLaunch _ => true
  | .hqRelease _ => true
  | .hqAcquire _ => true
  | .hqJoin _ => true
  | .plctlWrite _ => true
  | .teardown => true
  | .preempt _ => true
  | .resume _ => true
  | .contextSaveComplete _ => true
  | .traceRingWrite _ => true
  | .traceSyncTimer _ => true
  | .loss _ => true
  | .trctlWrite _ _ => true
  | .residueMismatch _ => true
  | .parityError _ => true
  | .strikeReport _ => true
  | .sliceCricketReport _ => true
  | .l1Uncorrectable _ _ => true
  | .proxyPlacementTimeout _ => true
  | .proxyTransferComplete _ => true
  | .proxyResume _ => true
  | .scoreDecay => true
  | .unitTestComplete _ _ _ => true
  | .cnscntWrite _ => true
  | .hostBar2Read _ _ => true
  | .hostBar2Write _ _ => true
  | .hostCompletionTimeout _ => true
  | .peerInboundRequest _ => true
  | .peerReplyTimeout _ => true
  | .peerRetry _ => true
  | .peerStoreDrop _ => true
  | .peerPortDown _ => true
  | .peerPortUp _ => true
  | .packageReset => true
  | .bootStageComplete => true
  | .bootStageTimeout => true
  | .mbAttest => true
  | .mbImageWrite => true
  | .mbSlotActivate => true
  | .mbCertRead => true
  | .mbRestart => true
  | .mailboxComplete => true
  | .powerControl _ _ _ => true
  | .pwrctlWrite _ => true
  | .thermalTrip => true
  | .registerWrite _ _ => true
  | .l2SliceRequest _ => true
  | .memberContribution _ _ _ => true
  | .powerLoss => true

end Sys2Proof
end

