-- ==== Sys2Proof/Decode.lean ====
section
/-! DEFINITION. The decoder, total on any words and rejecting by name, and the encoder, both from the encoding tables
of spec/09 (R203-R211) and the format tables of the instruction chapters. -/

namespace Sys2Proof

/-- Why the decoder takes no instruction from a word. The first two are malformed chains (ILLPKT, R202), the others
illegal encodings (ILLEGAL, R212 step 3). -/
inductive Reject where
  /-- A literal word without an instruction that names or requires it (reason 0x4). -/
  | strayLiteral
  /-- A literal or modifier word is required and missing (reason 0x5). -/
  | missingLiteral
  /-- C = 1 with no word after it (reason 0x1). -/
  | chainAtEnd
  /-- A major opcode without instructions (R210). -/
  | major (m : Nat)
  /-- A minor value that the table does not assign (R210). -/
  | minor (m n : Nat)
  /-- A field value outside its encoding, or a must-be field with another value. -/
  | field (lo n : Nat)
  /-- A modifier field outside its encoding (R207). -/
  | modifier (lo n : Nat)
  /-- A code outside its table (R205, R207, R210). -/
  | code (n : Nat)
  /-- Fields that no rule allows together. -/
  | form
  deriving DecidableEq, Repr

/-- Bits `lo` to `lo + n - 1` of a word. -/
def fld (w lo n : Nat) : Nat := w / 2 ^ lo % 2 ^ n

/-- A number below `m`. -/
def finOfCode (m n : Nat) : Except Reject (Fin m) := if h : n < m then .ok ⟨n, h⟩ else .error (.code n)

/-- One bit. -/
def bitOfCode (n : Nat) : Bool := n == 1

/-- One bit as a number. -/
def bitCode (b : Bool) : Nat := if b then 1 else 0

/-- A field that must hold one value. -/
def wantField (w lo n v : Nat) : Except Reject Unit := if fld w lo n = v then .ok () else .error (.field lo n)

/-- A modifier field that must hold one value. -/
def wantMod (w lo n v : Nat) : Except Reject Unit := if fld w lo n = v then .ok () else .error (.modifier lo n)

/-- Guard field G4 (R205). -/
def Guard.code : Guard → Nat
  | .always => 0
  | .p n => n.val + 1

/-- Guard of a G4 value. -/
def Guard.ofCode (n : Nat) : Except Reject Guard :=
  if n = 0 then .ok .always else if h : n - 1 < 12 then .ok (.p ⟨n - 1, h⟩) else .error (.code n)

/-- Source field S6 (R205). -/
def Src.code : Src → Nat
  | .v n => n.val
  | .k n => 24 + n.val
  | .age n => 28 + n.val
  | .s n => 44 + n.val
  | .zero => 60
  | .lane => 61
  | .lit => 63

/-- Source of an S6 value. -/
def Src.ofCode (n : Nat) : Except Reject Src :=
  if h : n < 24 then .ok (.v ⟨n, h⟩)
  else if h : n - 24 < 4 then .ok (.k ⟨n - 24, h⟩)
  else if h : n - 28 < 16 then .ok (.age ⟨n - 28, h⟩)
  else if h : n - 44 < 16 then .ok (.s ⟨n - 44, h⟩)
  else if n = 60 then .ok .zero
  else if n = 61 then .ok .lane
  else if n = 63 then .ok .lit
  else .error (.code n)

/-- Destination field D5 (R205). -/
def Dst.code : Dst → Nat
  | .v n => n.val
  | .k n => 24 + n.val
  | .none => 28

/-- Destination of a D5 value. -/
def Dst.ofCode (n : Nat) : Except Reject Dst :=
  if h : n < 24 then .ok (.v ⟨n, h⟩)
  else if h : n - 24 < 4 then .ok (.k ⟨n - 24, h⟩)
  else if n = 28 then .ok .none
  else .error (.code n)

/-- PD4 and K as one five-bit field (R203). -/
def PDst.code (d : PDst) : Nat := d.p.val * 2 + bitCode d.k

/-- Predicate destination of PD4 and K. -/
def PDst.ofCode (n : Nat) : Except Reject PDst :=
  if h : n / 2 < 12 then .ok ⟨⟨n / 2, h⟩, bitOfCode (n % 2)⟩ else .error (.code n)

/-- Base field of the M format (R300). -/
def Base.code : Base → Nat
  | .v n => n.val
  | .s n => 44 + n.val
  | .zero => 60

/-- Base of an A6 value. -/
def Base.ofCode (n : Nat) : Except Reject Base :=
  if h : n < 24 then .ok (.v ⟨n, h⟩)
  else if n < 44 then .error (.code n)
  else if h : n - 44 < 16 then .ok (.s ⟨n - 44, h⟩)
  else if n = 60 then .ok .zero
  else .error (.code n)

/-- Address source of CCTL and PREF (R321). -/
def Addr6.code : Addr6 → Nat
  | .v n => n.val
  | .s n => 44 + n.val

/-- Address source of an A6 value. -/
def Addr6.ofCode (n : Nat) : Except Reject Addr6 :=
  if h : n < 24 then .ok (.v ⟨n, h⟩)
  else if n < 44 then .error (.code n)
  else if h : n - 44 < 16 then .ok (.s ⟨n - 44, h⟩)
  else .error (.code n)

/-- Mask field of major 0x3D (R388). -/
def MaskSrc.code : MaskSrc → Nat
  | .zero => 60
  | .lit => 63
  | .s n => 44 + n.val

/-- Mask of a B6 value. -/
def MaskSrc.ofCode (n : Nat) : Except Reject MaskSrc :=
  if n < 44 then .error (.code n)
  else if h : n - 44 < 16 then .ok (.s ⟨n - 44, h⟩)
  else if n = 60 then .ok .zero
  else if n = 63 then .ok .lit
  else .error (.code n)

/-- Access sets of a fence; 0 is illegal (R316). -/
def Sets.code : Sets → Nat
  | .ld => 1
  | .st => 2
  | .ldst => 3

/-- Access sets of a two-bit field. -/
def Sets.ofCode (n : Nat) : Except Reject Sets :=
  match n with
  | 1 => .ok .ld
  | 2 => .ok .st
  | 3 => .ok .ldst
  | _ => .error (.code n)

/-- Codes of Width. -/
def Width.code : Width → Nat
  | .w32 => 0
  | .w64 => 1

/-- Width of a code. -/
def Width.ofCode (n : Nat) : Except Reject Width :=
  match n with
  | 0 => .ok .w32
  | 1 => .ok .w64
  | _ => .error (.code n)

/-- Codes of FWidth. -/
def FWidth.code : FWidth → Nat
  | .f64 => 0
  | .f32 => 1

/-- FWidth of a code. -/
def FWidth.ofCode (n : Nat) : Except Reject FWidth :=
  match n with
  | 0 => .ok .f64
  | 1 => .ok .f32
  | _ => .error (.code n)

/-- Codes of HFmt. -/
def HFmt.code : HFmt → Nat
  | .f16 => 0
  | .bf16 => 1

/-- HFmt of a code. -/
def HFmt.ofCode (n : Nat) : Except Reject HFmt :=
  match n with
  | 0 => .ok .f16
  | 1 => .ok .bf16
  | _ => .error (.code n)

/-- Codes of Rnd. -/
def Rnd.code : Rnd → Nat
  | .rn => 0
  | .rz => 1
  | .ru => 2
  | .rd => 3
  | .ra => 4
  | .ro => 5

/-- Rnd of a code. -/
def Rnd.ofCode (n : Nat) : Except Reject Rnd :=
  match n with
  | 0 => .ok .rn
  | 1 => .ok .rz
  | 2 => .ok .ru
  | 3 => .ok .rd
  | 4 => .ok .ra
  | 5 => .ok .ro
  | _ => .error (.code n)

/-- Codes of ICond. -/
def ICond.code : ICond → Nat
  | .eq => 0
  | .ne => 1
  | .ltI => 2
  | .leI => 3
  | .gtI => 4
  | .geI => 5
  | .ltN => 6
  | .leN => 7
  | .gtN => 8
  | .geN => 9
  | .tst => 10

/-- ICond of a code. -/
def ICond.ofCode (n : Nat) : Except Reject ICond :=
  match n with
  | 0 => .ok .eq
  | 1 => .ok .ne
  | 2 => .ok .ltI
  | 3 => .ok .leI
  | 4 => .ok .gtI
  | 5 => .ok .geI
  | 6 => .ok .ltN
  | 7 => .ok .leN
  | 8 => .ok .gtN
  | 9 => .ok .geN
  | 10 => .ok .tst
  | _ => .error (.code n)

/-- Codes of FCond. -/
def FCond.code : FCond → Nat
  | .eq => 0
  | .ne => 1
  | .lt => 2
  | .le => 3
  | .gt => 4
  | .ge => 5
  | .un => 6
  | .ord => 7

/-- FCond of a code. -/
def FCond.ofCode (n : Nat) : Except Reject FCond :=
  match n with
  | 0 => .ok .eq
  | 1 => .ok .ne
  | 2 => .ok .lt
  | 3 => .ok .le
  | 4 => .ok .gt
  | 5 => .ok .ge
  | 6 => .ok .un
  | 7 => .ok .ord
  | _ => .error (.code n)

/-- Codes of WCond. -/
def WCond.code : WCond → Nat
  | .eq => 0
  | .ne => 1
  | .geN => 2
  | .ltN => 3
  | .geI => 4
  | .ltI => 5
  | .tst => 6

/-- WCond of a code. -/
def WCond.ofCode (n : Nat) : Except Reject WCond :=
  match n with
  | 0 => .ok .eq
  | 1 => .ok .ne
  | 2 => .ok .geN
  | 3 => .ok .ltN
  | 4 => .ok .geI
  | 5 => .ok .ltI
  | 6 => .ok .tst
  | _ => .error (.code n)

/-- Codes of MemTy. -/
def MemTy.code : MemTy → Nat
  | .b8 => 0
  | .b16 => 1
  | .b32 => 2
  | .b64 => 3
  | .i8 => 4
  | .i16 => 5
  | .i32 => 6
  | .b128 => 7
  | .n8 => 8
  | .n16 => 9
  | .n32 => 10
  | .n64 => 11
  | .f32 => 12
  | .f64 => 13
  | .i64 => 14

/-- MemTy of a code. -/
def MemTy.ofCode (n : Nat) : Except Reject MemTy :=
  match n with
  | 0 => .ok .b8
  | 1 => .ok .b16
  | 2 => .ok .b32
  | 3 => .ok .b64
  | 4 => .ok .i8
  | 5 => .ok .i16
  | 6 => .ok .i32
  | 7 => .ok .b128
  | 8 => .ok .n8
  | 9 => .ok .n16
  | 10 => .ok .n32
  | 11 => .ok .n64
  | 12 => .ok .f32
  | 13 => .ok .f64
  | 14 => .ok .i64
  | _ => .error (.code n)

/-- Codes of Scope. -/
def Scope.code : Scope → Nat
  | .grp => 0
  | .team => 1
  | .clu => 2
  | .die => 3
  | .dev => 4
  | .sys => 5

/-- Scope of a code. -/
def Scope.ofCode (n : Nat) : Except Reject Scope :=
  match n with
  | 0 => .ok .grp
  | 1 => .ok .team
  | 2 => .ok .clu
  | 3 => .ok .die
  | 4 => .ok .dev
  | 5 => .ok .sys
  | _ => .error (.code n)

/-- Codes of AOp. -/
def AOp.code : AOp → Nat
  | .add => 0
  | .min => 1
  | .max => 2
  | .and => 3
  | .or => 4
  | .xor => 5
  | .inc => 6
  | .dec => 7

/-- AOp of a code. -/
def AOp.ofCode (n : Nat) : Except Reject AOp :=
  match n with
  | 0 => .ok .add
  | 1 => .ok .min
  | 2 => .ok .max
  | 3 => .ok .and
  | 4 => .ok .or
  | 5 => .ok .xor
  | 6 => .ok .inc
  | 7 => .ok .dec
  | _ => .error (.code n)

/-- Codes of QSel. -/
def QSel.code : QSel → Nat
  | .cpq => 0
  | .mxq => 1
  | .clq => 2
  | .ptq => 3
  | .kq => 4
  | .bat => 5

/-- QSel of a code. -/
def QSel.ofCode (n : Nat) : Except Reject QSel :=
  match n with
  | 0 => .ok .cpq
  | 1 => .ok .mxq
  | 2 => .ok .clq
  | 3 => .ok .ptq
  | 4 => .ok .kq
  | 5 => .ok .bat
  | _ => .error (.code n)

/-- Codes of SolveKind. -/
def SolveKind.code : SolveKind → Nat
  | .lu => 0
  | .chol => 1

/-- SolveKind of a code. -/
def SolveKind.ofCode (n : Nat) : Except Reject SolveKind :=
  match n with
  | 0 => .ok .lu
  | 1 => .ok .chol
  | _ => .error (.code n)

/-- Codes of QFmt. -/
def QFmt.code : QFmt → Nat
  | .e4m3 => 0
  | .e5m2 => 1
  | .e3m2 => 2
  | .e2m3 => 3

/-- QFmt of a code. -/
def QFmt.ofCode (n : Nat) : Except Reject QFmt :=
  match n with
  | 0 => .ok .e4m3
  | 1 => .ok .e5m2
  | 2 => .ok .e3m2
  | 3 => .ok .e2m3
  | _ => .error (.code n)

/-- Codes of SFmt. -/
def SFmt.code : SFmt → Nat
  | .e2m1 => 0
  | .e4m3 => 1
  | .e5m2 => 2
  | .int4 => 3

/-- SFmt of a code. -/
def SFmt.ofCode (n : Nat) : Except Reject SFmt :=
  match n with
  | 0 => .ok .e2m1
  | 1 => .ok .e4m3
  | 2 => .ok .e5m2
  | 3 => .ok .int4
  | _ => .error (.code n)

/-- Codes of TFmt. -/
def TFmt.code : TFmt → Nat
  | .f64 => 0
  | .f32 => 1
  | .f16 => 2
  | .bf16 => 3
  | .e4m3 => 4
  | .e5m2 => 5
  | .e2m1 => 6
  | .e3m2 => 7
  | .e2m3 => 8
  | .int4 => 9

/-- TFmt of a code. -/
def TFmt.ofCode (n : Nat) : Except Reject TFmt :=
  match n with
  | 0 => .ok .f64
  | 1 => .ok .f32
  | 2 => .ok .f16
  | 3 => .ok .bf16
  | 4 => .ok .e4m3
  | 5 => .ok .e5m2
  | 6 => .ok .e2m1
  | 7 => .ok .e3m2
  | 8 => .ok .e2m3
  | 9 => .ok .int4
  | _ => .error (.code n)

/-- The F4 of MMAJ (R268). -/
def JFmt.code : JFmt → Nat
  | .f32 r => r.code
  | .bf16 => 6
  | .f16 => 7

/-- MMAJ form of an F4 value. -/
def JFmt.ofCode (n : Nat) : Except Reject JFmt :=
  if n = 6 then .ok .bf16 else if n = 7 then .ok .f16 else (Rnd.ofCode n).map .f32

/-- The word is a literal or modifier word (R206). -/
def isLitWord (w : Nat) : Bool := fld w 25 6 == 0x3F

/-- What follows the instruction word, from its chain bit and the next word (R200, R202, R206). -/
def mkTail (w : Nat) (nx : Option Nat) (usesLit : Bool) : Except Reject Tail :=
  match fld w 31 1, nx with
  | 0, _ => if usesLit then .error .missingLiteral else .ok .stop
  | _, none => if usesLit then .error .missingLiteral else .error .chainAtEnd
  | _, some x =>
    if isLitWord x then
      if usesLit then .ok (.lit (BitVec.ofNat 25 (x % 2 ^ 25)) (bitOfCode (fld x 31 1))) else .error .strayLiteral
    else if usesLit then .error .missingLiteral else .ok .chain

/-- The chain bit of a form that takes no literal. -/
def mkChain (w : Nat) (nx : Option Nat) : Except Reject Bool :=
  match mkTail w nx false with
  | .ok t => .ok (t == .chain)
  | .error e => .error e

/-- The modifier word of a form that requires one (R207). -/
def mkMod (w : Nat) (nx : Option Nat) : Except Reject Nat :=
  match fld w 31 1, nx with
  | 0, _ => .error .missingLiteral
  | _, none => .error .missingLiteral
  | _, some x => if isLitWord x then .ok x else .error .missingLiteral

/-- Refuses fields that no rule allows together. -/
def checked (i : Instr) : Except Reject Instr := if i.wf then .ok i else .error .form

/-- IADD (R220). -/
def decodeIadd (iw : Nat) (nx : Option Nat) : Except Reject Instr := do
  let g ← Guard.ofCode (fld iw 21 4)
  let d ← Dst.ofCode (fld iw 16 5)
  let a ← Src.ofCode (fld iw 10 6)
  let b ← Src.ofCode (fld iw 4 6)
  let w ← Width.ofCode (fld iw 0 1)
  let t ← mkTail iw nx (a.isLit || b.isLit)
  checked (.iadd t g d a b w)

/-- ISUB (R220). -/
def decodeIsub (iw : Nat) (nx : Option Nat) : Except Reject Instr := do
  let g ← Guard.ofCode (fld iw 21 4)
  let d ← Dst.ofCode (fld iw 16 5)
  let a ← Src.ofCode (fld iw 10 6)
  let b ← Src.ofCode (fld iw 4 6)
  let w ← Width.ofCode (fld iw 0 1)
  let t ← mkTail iw nx (a.isLit || b.isLit)
  checked (.isub t g d a b w)

/-- IADDC (R220). -/
def decodeIaddc (iw : Nat) (nx : Option Nat) : Except Reject Instr := do
  let g ← Guard.ofCode (fld iw 21 4)
  let d ← Dst.ofCode (fld iw 16 5)
  let a ← Src.ofCode (fld iw 10 6)
  let b ← Src.ofCode (fld iw 4 6)
  let w ← Width.ofCode (fld iw 0 1)
  let t ← mkTail iw nx (a.isLit || b.isLit)
  checked (.iaddc t g d a b w)

/-- IMUL (R220). -/
def decodeImul (iw : Nat) (nx : Option Nat) : Except Reject Instr := do
  let g ← Guard.ofCode (fld iw 21 4)
  let d ← Dst.ofCode (fld iw 16 5)
  let a ← Src.ofCode (fld iw 10 6)
  let b ← Src.ofCode (fld iw 4 6)
  let w ← Width.ofCode (fld iw 0 1)
  let t ← mkTail iw nx (a.isLit || b.isLit)
  checked (.imul t g d a b w)

/-- IMULH_I (R220). -/
def decodeImulhI (iw : Nat) (nx : Option Nat) : Except Reject Instr := do
  let g ← Guard.ofCode (fld iw 21 4)
  let d ← Dst.ofCode (fld iw 16 5)
  let a ← Src.ofCode (fld iw 10 6)
  let b ← Src.ofCode (fld iw 4 6)
  let w ← Width.ofCode (fld iw 0 1)
  let t ← mkTail iw nx (a.isLit || b.isLit)
  checked (.imulhI t g d a b w)

/-- IMULH_N (R220). -/
def decodeImulhN (iw : Nat) (nx : Option Nat) : Except Reject Instr := do
  let g ← Guard.ofCode (fld iw 21 4)
  let d ← Dst.ofCode (fld iw 16 5)
  let a ← Src.ofCode (fld iw 10 6)
  let b ← Src.ofCode (fld iw 4 6)
  let w ← Width.ofCode (fld iw 0 1)
  let t ← mkTail iw nx (a.isLit || b.isLit)
  checked (.imulhN t g d a b w)

/-- IMAD (R221). -/
def decodeImad (iw : Nat) (nx : Option Nat) : Except Reject Instr := do
  wantField iw 1 3 0
  let d ← Dst.ofCode (fld iw 20 5)
  let a ← Src.ofCode (fld iw 14 6)
  let b ← Src.ofCode (fld iw 8 6)
  let q ← finOfCode 16 (fld iw 4 4)
  let w ← Width.ofCode (fld iw 0 1)
  let t ← mkTail iw nx (a.isLit || b.isLit)
  checked (.imad t d a b q w)

/-- AND (R220). -/
def decodeAndB (iw : Nat) (nx : Option Nat) : Except Reject Instr := do
  let g ← Guard.ofCode (fld iw 21 4)
  let d ← Dst.ofCode (fld iw 16 5)
  let a ← Src.ofCode (fld iw 10 6)
  let b ← Src.ofCode (fld iw 4 6)
  let w ← Width.ofCode (fld iw 0 1)
  let t ← mkTail iw nx (a.isLit || b.isLit)
  checked (.andB t g d a b w)

/-- OR (R220). -/
def decodeOrB (iw : Nat) (nx : Option Nat) : Except Reject Instr := do
  let g ← Guard.ofCode (fld iw 21 4)
  let d ← Dst.ofCode (fld iw 16 5)
  let a ← Src.ofCode (fld iw 10 6)
  let b ← Src.ofCode (fld iw 4 6)
  let w ← Width.ofCode (fld iw 0 1)
  let t ← mkTail iw nx (a.isLit || b.isLit)
  checked (.orB t g d a b w)

/-- XOR (R220). -/
def decodeXorB (iw : Nat) (nx : Option Nat) : Except Reject Instr := do
  let g ← Guard.ofCode (fld iw 21 4)
  let d ← Dst.ofCode (fld iw 16 5)
  let a ← Src.ofCode (fld iw 10 6)
  let b ← Src.ofCode (fld iw 4 6)
  let w ← Width.ofCode (fld iw 0 1)
  let t ← mkTail iw nx (a.isLit || b.isLit)
  checked (.xorB t g d a b w)

/-- ANDN (R220). -/
def decodeAndn (iw : Nat) (nx : Option Nat) : Except Reject Instr := do
  let g ← Guard.ofCode (fld iw 21 4)
  let d ← Dst.ofCode (fld iw 16 5)
  let a ← Src.ofCode (fld iw 10 6)
  let b ← Src.ofCode (fld iw 4 6)
  let w ← Width.ofCode (fld iw 0 1)
  let t ← mkTail iw nx (a.isLit || b.isLit)
  checked (.andn t g d a b w)

/-- ORN (R220). -/
def decodeOrn (iw : Nat) (nx : Option Nat) : Except Reject Instr := do
  let g ← Guard.ofCode (fld iw 21 4)
  let d ← Dst.ofCode (fld iw 16 5)
  let a ← Src.ofCode (fld iw 10 6)
  let b ← Src.ofCode (fld iw 4 6)
  let w ← Width.ofCode (fld iw 0 1)
  let t ← mkTail iw nx (a.isLit || b.isLit)
  checked (.orn t g d a b w)

/-- NOT (R220). -/
def decodeNotB (iw : Nat) (nx : Option Nat) : Except Reject Instr := do
  wantField iw 4 6 60
  let g ← Guard.ofCode (fld iw 21 4)
  let d ← Dst.ofCode (fld iw 16 5)
  let a ← Src.ofCode (fld iw 10 6)
  let w ← Width.ofCode (fld iw 0 1)
  let t ← mkTail iw nx (a.isLit)
  checked (.notB t g d a w)

/-- SHL (R222). -/
def decodeShl (iw : Nat) (nx : Option Nat) : Except Reject Instr := do
  let g ← Guard.ofCode (fld iw 21 4)
  let d ← Dst.ofCode (fld iw 16 5)
  let a ← Src.ofCode (fld iw 10 6)
  let b ← Src.ofCode (fld iw 4 6)
  let w ← Width.ofCode (fld iw 0 1)
  let t ← mkTail iw nx (a.isLit || b.isLit)
  checked (.shl t g d a b w)

/-- SHR (R222). -/
def decodeShr (iw : Nat) (nx : Option Nat) : Except Reject Instr := do
  let g ← Guard.ofCode (fld iw 21 4)
  let d ← Dst.ofCode (fld iw 16 5)
  let a ← Src.ofCode (fld iw 10 6)
  let b ← Src.ofCode (fld iw 4 6)
  let w ← Width.ofCode (fld iw 0 1)
  let t ← mkTail iw nx (a.isLit || b.isLit)
  checked (.shr t g d a b w)

/-- SAR (R222). -/
def decodeSar (iw : Nat) (nx : Option Nat) : Except Reject Instr := do
  let g ← Guard.ofCode (fld iw 21 4)
  let d ← Dst.ofCode (fld iw 16 5)
  let a ← Src.ofCode (fld iw 10 6)
  let b ← Src.ofCode (fld iw 4 6)
  let w ← Width.ofCode (fld iw 0 1)
  let t ← mkTail iw nx (a.isLit || b.isLit)
  checked (.sar t g d a b w)

/-- ROL (R222). -/
def decodeRol (iw : Nat) (nx : Option Nat) : Except Reject Instr := do
  let g ← Guard.ofCode (fld iw 21 4)
  let d ← Dst.ofCode (fld iw 16 5)
  let a ← Src.ofCode (fld iw 10 6)
  let b ← Src.ofCode (fld iw 4 6)
  let w ← Width.ofCode (fld iw 0 1)
  let t ← mkTail iw nx (a.isLit || b.isLit)
  checked (.rol t g d a b w)

/-- ROR (R222). -/
def decodeRor (iw : Nat) (nx : Option Nat) : Except Reject Instr := do
  let g ← Guard.ofCode (fld iw 21 4)
  let d ← Dst.ofCode (fld iw 16 5)
  let a ← Src.ofCode (fld iw 10 6)
  let b ← Src.ofCode (fld iw 4 6)
  let w ← Width.ofCode (fld iw 0 1)
  let t ← mkTail iw nx (a.isLit || b.isLit)
  checked (.ror t g d a b w)

/-- POPC (R223). -/
def decodePopc (iw : Nat) (nx : Option Nat) : Except Reject Instr := do
  wantField iw 4 6 60
  let g ← Guard.ofCode (fld iw 21 4)
  let d ← Dst.ofCode (fld iw 16 5)
  let a ← Src.ofCode (fld iw 10 6)
  let w ← Width.ofCode (fld iw 0 1)
  let t ← mkTail iw nx (a.isLit)
  checked (.popc t g d a w)

/-- CLZ (R223). -/
def decodeClz (iw : Nat) (nx : Option Nat) : Except Reject Instr := do
  wantField iw 4 6 60
  let g ← Guard.ofCode (fld iw 21 4)
  let d ← Dst.ofCode (fld iw 16 5)
  let a ← Src.ofCode (fld iw 10 6)
  let w ← Width.ofCode (fld iw 0 1)
  let t ← mkTail iw nx (a.isLit)
  checked (.clz t g d a w)

/-- CTZ (R223). -/
def decodeCtz (iw : Nat) (nx : Option Nat) : Except Reject Instr := do
  wantField iw 4 6 60
  let g ← Guard.ofCode (fld iw 21 4)
  let d ← Dst.ofCode (fld iw 16 5)
  let a ← Src.ofCode (fld iw 10 6)
  let w ← Width.ofCode (fld iw 0 1)
  let t ← mkTail iw nx (a.isLit)
  checked (.ctz t g d a w)

/-- BREV (R223). -/
def decodeBrev (iw : Nat) (nx : Option Nat) : Except Reject Instr := do
  wantField iw 4 6 60
  let g ← Guard.ofCode (fld iw 21 4)
  let d ← Dst.ofCode (fld iw 16 5)
  let a ← Src.ofCode (fld iw 10 6)
  let w ← Width.ofCode (fld iw 0 1)
  let t ← mkTail iw nx (a.isLit)
  checked (.brev t g d a w)

/-- BFE_N (R224). -/
def decodeBfeN (iw : Nat) (nx : Option Nat) : Except Reject Instr := do
  let g ← Guard.ofCode (fld iw 21 4)
  let d ← Dst.ofCode (fld iw 16 5)
  let a ← Src.ofCode (fld iw 10 6)
  let b ← Src.ofCode (fld iw 4 6)
  let w ← Width.ofCode (fld iw 0 1)
  let t ← mkTail iw nx (a.isLit || b.isLit)
  checked (.bfeN t g d a b w)

/-- BFE_I (R224). -/
def decodeBfeI (iw : Nat) (nx : Option Nat) : Except Reject Instr := do
  let g ← Guard.ofCode (fld iw 21 4)
  let d ← Dst.ofCode (fld iw 16 5)
  let a ← Src.ofCode (fld iw 10 6)
  let b ← Src.ofCode (fld iw 4 6)
  let w ← Width.ofCode (fld iw 0 1)
  let t ← mkTail iw nx (a.isLit || b.isLit)
  checked (.bfeI t g d a b w)

/-- BFI (R225). -/
def decodeBfi (iw : Nat) (nx : Option Nat) : Except Reject Instr := do
  let g ← Guard.ofCode (fld iw 21 4)
  let d ← finOfCode 24 (fld iw 16 5)
  let a ← Src.ofCode (fld iw 10 6)
  let b ← Src.ofCode (fld iw 4 6)
  let w ← Width.ofCode (fld iw 0 1)
  let t ← mkTail iw nx (a.isLit || b.isLit)
  checked (.bfi t g d a b w)

/-- MIN_I (R226). -/
def decodeMinI (iw : Nat) (nx : Option Nat) : Except Reject Instr := do
  let g ← Guard.ofCode (fld iw 21 4)
  let d ← Dst.ofCode (fld iw 16 5)
  let a ← Src.ofCode (fld iw 10 6)
  let b ← Src.ofCode (fld iw 4 6)
  let w ← Width.ofCode (fld iw 0 1)
  let t ← mkTail iw nx (a.isLit || b.isLit)
  checked (.minI t g d a b w)

/-- MIN_N (R226). -/
def decodeMinN (iw : Nat) (nx : Option Nat) : Except Reject Instr := do
  let g ← Guard.ofCode (fld iw 21 4)
  let d ← Dst.ofCode (fld iw 16 5)
  let a ← Src.ofCode (fld iw 10 6)
  let b ← Src.ofCode (fld iw 4 6)
  let w ← Width.ofCode (fld iw 0 1)
  let t ← mkTail iw nx (a.isLit || b.isLit)
  checked (.minN t g d a b w)

/-- MAX_I (R226). -/
def decodeMaxI (iw : Nat) (nx : Option Nat) : Except Reject Instr := do
  let g ← Guard.ofCode (fld iw 21 4)
  let d ← Dst.ofCode (fld iw 16 5)
  let a ← Src.ofCode (fld iw 10 6)
  let b ← Src.ofCode (fld iw 4 6)
  let w ← Width.ofCode (fld iw 0 1)
  let t ← mkTail iw nx (a.isLit || b.isLit)
  checked (.maxI t g d a b w)

/-- MAX_N (R226). -/
def decodeMaxN (iw : Nat) (nx : Option Nat) : Except Reject Instr := do
  let g ← Guard.ofCode (fld iw 21 4)
  let d ← Dst.ofCode (fld iw 16 5)
  let a ← Src.ofCode (fld iw 10 6)
  let b ← Src.ofCode (fld iw 4 6)
  let w ← Width.ofCode (fld iw 0 1)
  let t ← mkTail iw nx (a.isLit || b.isLit)
  checked (.maxN t g d a b w)

/-- ABS (R226). -/
def decodeAbsI (iw : Nat) (nx : Option Nat) : Except Reject Instr := do
  wantField iw 4 6 60
  let g ← Guard.ofCode (fld iw 21 4)
  let d ← Dst.ofCode (fld iw 16 5)
  let a ← Src.ofCode (fld iw 10 6)
  let w ← Width.ofCode (fld iw 0 1)
  let t ← mkTail iw nx (a.isLit)
  checked (.absI t g d a w)

/-- NEG (R226). -/
def decodeNegI (iw : Nat) (nx : Option Nat) : Except Reject Instr := do
  wantField iw 4 6 60
  let g ← Guard.ofCode (fld iw 21 4)
  let d ← Dst.ofCode (fld iw 16 5)
  let a ← Src.ofCode (fld iw 10 6)
  let w ← Width.ofCode (fld iw 0 1)
  let t ← mkTail iw nx (a.isLit)
  checked (.negI t g d a w)

/-- SEL (R227). -/
def decodeSel (iw : Nat) (nx : Option Nat) : Except Reject Instr := do
  let g ← Guard.ofCode (fld iw 21 4)
  let d ← Dst.ofCode (fld iw 16 5)
  let a ← Src.ofCode (fld iw 10 6)
  let b ← Src.ofCode (fld iw 4 6)
  let w ← Width.ofCode (fld iw 0 1)
  let t ← mkTail iw nx (a.isLit || b.isLit)
  checked (.sel t g d a b w)

/-- MOV (R228). -/
def decodeMov (iw : Nat) (nx : Option Nat) : Except Reject Instr := do
  wantField iw 4 6 60
  let g ← Guard.ofCode (fld iw 21 4)
  let d ← Dst.ofCode (fld iw 16 5)
  let a ← Src.ofCode (fld iw 10 6)
  let w ← Width.ofCode (fld iw 0 1)
  let t ← mkTail iw nx (a.isLit)
  checked (.mov t g d a w)

/-- MOVS (R229). -/
def decodeMovs (iw : Nat) (nx : Option Nat) : Except Reject Instr := do
  wantField iw 4 6 60
  let g ← Guard.ofCode (fld iw 21 4)
  let d ← finOfCode 16 (fld iw 16 5)
  let a ← Src.ofCode (fld iw 10 6)
  let w ← Width.ofCode (fld iw 0 1)
  let t ← mkTail iw nx (a.isLit)
  checked (.movs t g d a w)

/-- LEA (R228). -/
def decodeLea (iw : Nat) (nx : Option Nat) : Except Reject Instr := do
  let g ← Guard.ofCode (fld iw 21 4)
  let d ← Dst.ofCode (fld iw 16 5)
  let a ← Src.ofCode (fld iw 10 6)
  let b ← Src.ofCode (fld iw 4 6)
  let w ← Width.ofCode (fld iw 0 1)
  let t ← mkTail iw nx (a.isLit || b.isLit)
  checked (.lea t g d a b w)

/-- ICMP_32 (R230). -/
def decodeIcmp32 (iw : Nat) (nx : Option Nat) : Except Reject Instr := do
  let g ← Guard.ofCode (fld iw 21 4)
  let pd ← PDst.ofCode (fld iw 16 5)
  let a ← Src.ofCode (fld iw 10 6)
  let b ← Src.ofCode (fld iw 4 6)
  let n ← ICond.ofCode (fld iw 0 4)
  let t ← mkTail iw nx (a.isLit || b.isLit)
  checked (.icmp32 t g pd a b n)

/-- ICMP_64 (R230). -/
def decodeIcmp64 (iw : Nat) (nx : Option Nat) : Except Reject Instr := do
  let g ← Guard.ofCode (fld iw 21 4)
  let pd ← PDst.ofCode (fld iw 16 5)
  let a ← Src.ofCode (fld iw 10 6)
  let b ← Src.ofCode (fld iw 4 6)
  let n ← ICond.ofCode (fld iw 0 4)
  let t ← mkTail iw nx (a.isLit || b.isLit)
  checked (.icmp64 t g pd a b n)

/-- PAND (R231). -/
def decodePand (iw : Nat) (nx : Option Nat) : Except Reject Instr := do
  let g ← Guard.ofCode (fld iw 21 4)
  let pd ← PDst.ofCode (fld iw 16 5)
  let a ← finOfCode 12 (fld iw 10 6)
  let b ← finOfCode 12 (fld iw 4 6)
  let c ← mkChain iw nx
  checked (.pand c g pd a b)

/-- POR (R231). -/
def decodePor (iw : Nat) (nx : Option Nat) : Except Reject Instr := do
  let g ← Guard.ofCode (fld iw 21 4)
  let pd ← PDst.ofCode (fld iw 16 5)
  let a ← finOfCode 12 (fld iw 10 6)
  let b ← finOfCode 12 (fld iw 4 6)
  let c ← mkChain iw nx
  checked (.por c g pd a b)

/-- PXOR (R231). -/
def decodePxor (iw : Nat) (nx : Option Nat) : Except Reject Instr := do
  let g ← Guard.ofCode (fld iw 21 4)
  let pd ← PDst.ofCode (fld iw 16 5)
  let a ← finOfCode 12 (fld iw 10 6)
  let b ← finOfCode 12 (fld iw 4 6)
  let c ← mkChain iw nx
  checked (.pxor c g pd a b)

/-- PNOT (R231). -/
def decodePnot (iw : Nat) (nx : Option Nat) : Except Reject Instr := do
  wantField iw 4 6 0
  let g ← Guard.ofCode (fld iw 21 4)
  let pd ← PDst.ofCode (fld iw 16 5)
  let a ← finOfCode 12 (fld iw 10 6)
  let c ← mkChain iw nx
  checked (.pnot c g pd a)

/-- PMOV (R231). -/
def decodePmov (iw : Nat) (nx : Option Nat) : Except Reject Instr := do
  wantField iw 4 6 0
  let g ← Guard.ofCode (fld iw 21 4)
  let pd ← PDst.ofCode (fld iw 16 5)
  let a ← finOfCode 12 (fld iw 10 6)
  let c ← mkChain iw nx
  checked (.pmov c g pd a)

/-- CENSUS_NZ (R233). -/
def decodeCensusNz (iw : Nat) (nx : Option Nat) : Except Reject Instr := do
  wantField iw 0 1 0
  wantField iw 4 6 60
  let g ← Guard.ofCode (fld iw 21 4)
  let d ← Dst.ofCode (fld iw 16 5)
  let a ← Src.ofCode (fld iw 10 6)
  let t ← mkTail iw nx (a.isLit)
  checked (.censusNz t g d a)

/-- CENSUS_LSB (R233). -/
def decodeCensusLsb (iw : Nat) (nx : Option Nat) : Except Reject Instr := do
  wantField iw 0 1 0
  wantField iw 4 6 60
  let g ← Guard.ofCode (fld iw 21 4)
  let d ← Dst.ofCode (fld iw 16 5)
  let a ← Src.ofCode (fld iw 10 6)
  let t ← mkTail iw nx (a.isLit)
  checked (.censusLsb t g d a)

/-- CENSUS_SGN (R233). -/
def decodeCensusSgn (iw : Nat) (nx : Option Nat) : Except Reject Instr := do
  wantField iw 0 1 0
  wantField iw 4 6 60
  let g ← Guard.ofCode (fld iw 21 4)
  let d ← Dst.ofCode (fld iw 16 5)
  let a ← Src.ofCode (fld iw 10 6)
  let t ← mkTail iw nx (a.isLit)
  checked (.censusSgn t g d a)

/-- ROUTE_FROM (R234). -/
def decodeRouteFrom (iw : Nat) (nx : Option Nat) : Except Reject Instr := do
  let g ← Guard.ofCode (fld iw 21 4)
  let d ← Dst.ofCode (fld iw 16 5)
  let a ← Src.ofCode (fld iw 10 6)
  let b ← Src.ofCode (fld iw 4 6)
  let w ← Width.ofCode (fld iw 0 1)
  let t ← mkTail iw nx (a.isLit || b.isLit)
  checked (.routeFrom t g d a b w)

/-- ROUTE_ROT (R234). -/
def decodeRouteRot (iw : Nat) (nx : Option Nat) : Except Reject Instr := do
  let g ← Guard.ofCode (fld iw 21 4)
  let d ← Dst.ofCode (fld iw 16 5)
  let a ← Src.ofCode (fld iw 10 6)
  let b ← Src.ofCode (fld iw 4 6)
  let w ← Width.ofCode (fld iw 0 1)
  let t ← mkTail iw nx (a.isLit || b.isLit)
  checked (.routeRot t g d a b w)

/-- ROUTE_SHIFT (R234). -/
def decodeRouteShift (iw : Nat) (nx : Option Nat) : Except Reject Instr := do
  let g ← Guard.ofCode (fld iw 21 4)
  let d ← Dst.ofCode (fld iw 16 5)
  let a ← Src.ofCode (fld iw 10 6)
  let b ← Src.ofCode (fld iw 4 6)
  let w ← Width.ofCode (fld iw 0 1)
  let t ← mkTail iw nx (a.isLit || b.isLit)
  checked (.routeShift t g d a b w)

/-- ROUTE_FLIP (R234). -/
def decodeRouteFlip (iw : Nat) (nx : Option Nat) : Except Reject Instr := do
  let g ← Guard.ofCode (fld iw 21 4)
  let d ← Dst.ofCode (fld iw 16 5)
  let a ← Src.ofCode (fld iw 10 6)
  let b ← Src.ofCode (fld iw 4 6)
  let w ← Width.ofCode (fld iw 0 1)
  let t ← mkTail iw nx (a.isLit || b.isLit)
  checked (.routeFlip t g d a b w)

/-- PEERS (R235). -/
def decodePeers (iw : Nat) (nx : Option Nat) : Except Reject Instr := do
  wantField iw 4 6 60
  let g ← Guard.ofCode (fld iw 21 4)
  let d ← Dst.ofCode (fld iw 16 5)
  let a ← Src.ofCode (fld iw 10 6)
  let w ← Width.ofCode (fld iw 0 1)
  let t ← mkTail iw nx (a.isLit)
  checked (.peers t g d a w)

/-- FADD (R240). -/
def decodeFadd (iw : Nat) (nx : Option Nat) : Except Reject Instr := do
  let g ← Guard.ofCode (fld iw 21 4)
  let d ← Dst.ofCode (fld iw 16 5)
  let a ← Src.ofCode (fld iw 10 6)
  let b ← Src.ofCode (fld iw 4 6)
  let r ← Rnd.ofCode (fld iw 1 3)
  let w ← FWidth.ofCode (fld iw 0 1)
  let t ← mkTail iw nx (a.isLit || b.isLit)
  checked (.fadd t g d a b r w)

/-- FSUB (R240). -/
def decodeFsub (iw : Nat) (nx : Option Nat) : Except Reject Instr := do
  let d ← Dst.ofCode (fld iw 16 5)
  let a ← Src.ofCode (fld iw 10 6)
  let b ← Src.ofCode (fld iw 4 6)
  let r ← Rnd.ofCode (fld iw 1 3)
  let w ← FWidth.ofCode (fld iw 0 1)
  let t ← mkTail iw nx (a.isLit || b.isLit)
  checked (.fsub t d a b r w)

/-- FMUL (R240). -/
def decodeFmul (iw : Nat) (nx : Option Nat) : Except Reject Instr := do
  let g ← Guard.ofCode (fld iw 21 4)
  let d ← Dst.ofCode (fld iw 16 5)
  let a ← Src.ofCode (fld iw 10 6)
  let b ← Src.ofCode (fld iw 4 6)
  let r ← Rnd.ofCode (fld iw 1 3)
  let w ← FWidth.ofCode (fld iw 0 1)
  let t ← mkTail iw nx (a.isLit || b.isLit)
  checked (.fmul t g d a b r w)

/-- FFMA (R241). -/
def decodeFfma (iw : Nat) (nx : Option Nat) : Except Reject Instr := do
  let d ← Dst.ofCode (fld iw 20 5)
  let a ← Src.ofCode (fld iw 14 6)
  let b ← Src.ofCode (fld iw 8 6)
  let q ← finOfCode 16 (fld iw 4 4)
  let r ← Rnd.ofCode (fld iw 1 3)
  let w ← FWidth.ofCode (fld iw 0 1)
  let t ← mkTail iw nx (a.isLit || b.isLit)
  checked (.ffma t d a b q r w)

/-- FFMS (R241). -/
def decodeFfms (iw : Nat) (nx : Option Nat) : Except Reject Instr := do
  let d ← Dst.ofCode (fld iw 20 5)
  let a ← Src.ofCode (fld iw 14 6)
  let b ← Src.ofCode (fld iw 8 6)
  let q ← finOfCode 16 (fld iw 4 4)
  let r ← Rnd.ofCode (fld iw 1 3)
  let w ← FWidth.ofCode (fld iw 0 1)
  let t ← mkTail iw nx (a.isLit || b.isLit)
  checked (.ffms t d a b q r w)

/-- FNMA (R241). -/
def decodeFnma (iw : Nat) (nx : Option Nat) : Except Reject Instr := do
  let d ← Dst.ofCode (fld iw 20 5)
  let a ← Src.ofCode (fld iw 14 6)
  let b ← Src.ofCode (fld iw 8 6)
  let q ← finOfCode 16 (fld iw 4 4)
  let r ← Rnd.ofCode (fld iw 1 3)
  let w ← FWidth.ofCode (fld iw 0 1)
  let t ← mkTail iw nx (a.isLit || b.isLit)
  checked (.fnma t d a b q r w)

/-- FMIN (R242). -/
def decodeFmin (iw : Nat) (nx : Option Nat) : Except Reject Instr := do
  let g ← Guard.ofCode (fld iw 21 4)
  let d ← Dst.ofCode (fld iw 16 5)
  let a ← Src.ofCode (fld iw 10 6)
  let b ← Src.ofCode (fld iw 4 6)
  let w ← FWidth.ofCode (fld iw 0 1)
  let t ← mkTail iw nx (a.isLit || b.isLit)
  checked (.fmin t g d a b w)

/-- FMAX (R242). -/
def decodeFmax (iw : Nat) (nx : Option Nat) : Except Reject Instr := do
  let g ← Guard.ofCode (fld iw 21 4)
  let d ← Dst.ofCode (fld iw 16 5)
  let a ← Src.ofCode (fld iw 10 6)
  let b ← Src.ofCode (fld iw 4 6)
  let w ← FWidth.ofCode (fld iw 0 1)
  let t ← mkTail iw nx (a.isLit || b.isLit)
  checked (.fmax t g d a b w)

/-- FMIN_NUM (R242). -/
def decodeFminNum (iw : Nat) (nx : Option Nat) : Except Reject Instr := do
  let g ← Guard.ofCode (fld iw 21 4)
  let d ← Dst.ofCode (fld iw 16 5)
  let a ← Src.ofCode (fld iw 10 6)
  let b ← Src.ofCode (fld iw 4 6)
  let w ← FWidth.ofCode (fld iw 0 1)
  let t ← mkTail iw nx (a.isLit || b.isLit)
  checked (.fminNum t g d a b w)

/-- FMAX_NUM (R242). -/
def decodeFmaxNum (iw : Nat) (nx : Option Nat) : Except Reject Instr := do
  let g ← Guard.ofCode (fld iw 21 4)
  let d ← Dst.ofCode (fld iw 16 5)
  let a ← Src.ofCode (fld iw 10 6)
  let b ← Src.ofCode (fld iw 4 6)
  let w ← FWidth.ofCode (fld iw 0 1)
  let t ← mkTail iw nx (a.isLit || b.isLit)
  checked (.fmaxNum t g d a b w)

/-- FCMP (R243). -/
def decodeFcmp (iw : Nat) (nx : Option Nat) : Except Reject Instr := do
  let g ← Guard.ofCode (fld iw 21 4)
  let pd ← PDst.ofCode (fld iw 16 5)
  let a ← Src.ofCode (fld iw 10 6)
  let b ← Src.ofCode (fld iw 4 6)
  let n ← FCond.ofCode (fld iw 1 3)
  let w ← FWidth.ofCode (fld iw 0 1)
  let t ← mkTail iw nx (a.isLit || b.isLit)
  checked (.fcmp t g pd a b n w)

/-- FCVT (R244). -/
def decodeFcvt (iw : Nat) (nx : Option Nat) : Except Reject Instr := do
  let g ← Guard.ofCode (fld iw 21 4)
  let d ← Dst.ofCode (fld iw 16 5)
  let a ← Src.ofCode (fld iw 10 6)
  let f ← finOfCode 64 (fld iw 4 6)
  let r ← Rnd.ofCode (fld iw 1 3)
  let u := bitOfCode (fld iw 0 1)
  let t ← mkTail iw nx (a.isLit)
  checked (.fcvt t g d a f r u)

/-- FCLASS (R246). -/
def decodeFclass (iw : Nat) (nx : Option Nat) : Except Reject Instr := do
  wantField iw 4 6 60
  let g ← Guard.ofCode (fld iw 21 4)
  let d ← Dst.ofCode (fld iw 16 5)
  let a ← Src.ofCode (fld iw 10 6)
  let w ← FWidth.ofCode (fld iw 0 1)
  let t ← mkTail iw nx (a.isLit)
  checked (.fclass t g d a w)

/-- FFREXP (R247). -/
def decodeFfrexp (iw : Nat) (nx : Option Nat) : Except Reject Instr := do
  wantField iw 4 6 60
  let g ← Guard.ofCode (fld iw 21 4)
  let d ← finOfCode 24 (fld iw 16 5)
  let a ← Src.ofCode (fld iw 10 6)
  let w ← FWidth.ofCode (fld iw 0 1)
  let t ← mkTail iw nx (a.isLit)
  checked (.ffrexp t g d a w)

/-- FABS (R249). -/
def decodeFabs (iw : Nat) (nx : Option Nat) : Except Reject Instr := do
  wantField iw 4 6 60
  let g ← Guard.ofCode (fld iw 21 4)
  let d ← Dst.ofCode (fld iw 16 5)
  let a ← Src.ofCode (fld iw 10 6)
  let w ← FWidth.ofCode (fld iw 0 1)
  let t ← mkTail iw nx (a.isLit)
  checked (.fabs t g d a w)

/-- FNEG (R249). -/
def decodeFneg (iw : Nat) (nx : Option Nat) : Except Reject Instr := do
  wantField iw 4 6 60
  let g ← Guard.ofCode (fld iw 21 4)
  let d ← Dst.ofCode (fld iw 16 5)
  let a ← Src.ofCode (fld iw 10 6)
  let w ← FWidth.ofCode (fld iw 0 1)
  let t ← mkTail iw nx (a.isLit)
  checked (.fneg t g d a w)

/-- FCPYSGN (R249). -/
def decodeFcpysgn (iw : Nat) (nx : Option Nat) : Except Reject Instr := do
  let g ← Guard.ofCode (fld iw 21 4)
  let d ← Dst.ofCode (fld iw 16 5)
  let a ← Src.ofCode (fld iw 10 6)
  let b ← Src.ofCode (fld iw 4 6)
  let w ← FWidth.ofCode (fld iw 0 1)
  let t ← mkTail iw nx (a.isLit || b.isLit)
  checked (.fcpysgn t g d a b w)

/-- FSCALE (R248). -/
def decodeFscale (iw : Nat) (nx : Option Nat) : Except Reject Instr := do
  let d ← Dst.ofCode (fld iw 16 5)
  let a ← Src.ofCode (fld iw 10 6)
  let b ← Src.ofCode (fld iw 4 6)
  let r ← Rnd.ofCode (fld iw 1 3)
  let w ← FWidth.ofCode (fld iw 0 1)
  let t ← mkTail iw nx (a.isLit || b.isLit)
  checked (.fscale t d a b r w)

/-- FDIV (R251). -/
def decodeFdiv (iw : Nat) (nx : Option Nat) : Except Reject Instr := do
  let l ← finOfCode 16 (fld iw 21 4)
  let d ← Dst.ofCode (fld iw 16 5)
  let a ← Src.ofCode (fld iw 10 6)
  let b ← Src.ofCode (fld iw 4 6)
  let r ← Rnd.ofCode (fld iw 1 3)
  let w ← FWidth.ofCode (fld iw 0 1)
  let t ← mkTail iw nx (a.isLit || b.isLit)
  checked (.fdiv t l d a b r w)

/-- FSQRT (R251). -/
def decodeFsqrt (iw : Nat) (nx : Option Nat) : Except Reject Instr := do
  let l ← finOfCode 16 (fld iw 21 4)
  let d ← Dst.ofCode (fld iw 16 5)
  let a ← Src.ofCode (fld iw 10 6)
  let r ← Rnd.ofCode (fld iw 1 3)
  let w ← FWidth.ofCode (fld iw 0 1)
  let t ← mkTail iw nx (a.isLit)
  checked (.fsqrt t l d a r w)

/-- FRCP (R251). -/
def decodeFrcp (iw : Nat) (nx : Option Nat) : Except Reject Instr := do
  let l ← finOfCode 16 (fld iw 21 4)
  let d ← Dst.ofCode (fld iw 16 5)
  let a ← Src.ofCode (fld iw 10 6)
  let r ← Rnd.ofCode (fld iw 1 3)
  let w ← FWidth.ofCode (fld iw 0 1)
  let t ← mkTail iw nx (a.isLit)
  checked (.frcp t l d a r w)

/-- FRSQ (R251). -/
def decodeFrsq (iw : Nat) (nx : Option Nat) : Except Reject Instr := do
  let l ← finOfCode 16 (fld iw 21 4)
  let d ← Dst.ofCode (fld iw 16 5)
  let a ← Src.ofCode (fld iw 10 6)
  let r ← Rnd.ofCode (fld iw 1 3)
  let w ← FWidth.ofCode (fld iw 0 1)
  let t ← mkTail iw nx (a.isLit)
  checked (.frsq t l d a r w)

/-- FEXP2 (R253). -/
def decodeFexp2 (iw : Nat) (nx : Option Nat) : Except Reject Instr := do
  wantField iw 1 3 0
  let l ← finOfCode 16 (fld iw 21 4)
  let d ← Dst.ofCode (fld iw 16 5)
  let a ← Src.ofCode (fld iw 10 6)
  let w ← FWidth.ofCode (fld iw 0 1)
  let t ← mkTail iw nx (a.isLit)
  checked (.fexp2 t l d a w)

/-- FLOG2 (R253). -/
def decodeFlog2 (iw : Nat) (nx : Option Nat) : Except Reject Instr := do
  wantField iw 1 3 0
  let l ← finOfCode 16 (fld iw 21 4)
  let d ← Dst.ofCode (fld iw 16 5)
  let a ← Src.ofCode (fld iw 10 6)
  let w ← FWidth.ofCode (fld iw 0 1)
  let t ← mkTail iw nx (a.isLit)
  checked (.flog2 t l d a w)

/-- FSIN (R253). -/
def decodeFsin (iw : Nat) (nx : Option Nat) : Except Reject Instr := do
  wantField iw 1 3 0
  let l ← finOfCode 16 (fld iw 21 4)
  let d ← Dst.ofCode (fld iw 16 5)
  let a ← Src.ofCode (fld iw 10 6)
  let w ← FWidth.ofCode (fld iw 0 1)
  let t ← mkTail iw nx (a.isLit)
  checked (.fsin t l d a w)

/-- FCOS (R253). -/
def decodeFcos (iw : Nat) (nx : Option Nat) : Except Reject Instr := do
  wantField iw 1 3 0
  let l ← finOfCode 16 (fld iw 21 4)
  let d ← Dst.ofCode (fld iw 16 5)
  let a ← Src.ofCode (fld iw 10 6)
  let w ← FWidth.ofCode (fld iw 0 1)
  let t ← mkTail iw nx (a.isLit)
  checked (.fcos t l d a w)

/-- FTANH (R253). -/
def decodeFtanh (iw : Nat) (nx : Option Nat) : Except Reject Instr := do
  wantField iw 1 3 0
  let l ← finOfCode 16 (fld iw 21 4)
  let d ← Dst.ofCode (fld iw 16 5)
  let a ← Src.ofCode (fld iw 10 6)
  let w ← FWidth.ofCode (fld iw 0 1)
  let t ← mkTail iw nx (a.isLit)
  checked (.ftanh t l d a w)

/-- PKADD_16 (R258). -/
def decodePkadd16 (iw : Nat) (nx : Option Nat) : Except Reject Instr := do
  let g ← Guard.ofCode (fld iw 21 4)
  let d ← Dst.ofCode (fld iw 16 5)
  let a ← Src.ofCode (fld iw 10 6)
  let b ← Src.ofCode (fld iw 4 6)
  let r ← Rnd.ofCode (fld iw 1 3)
  let h ← HFmt.ofCode (fld iw 0 1)
  let t ← mkTail iw nx (a.isLit || b.isLit)
  checked (.pkadd16 t g d a b r h)

/-- PKMUL_16 (R258). -/
def decodePkmul16 (iw : Nat) (nx : Option Nat) : Except Reject Instr := do
  let d ← Dst.ofCode (fld iw 16 5)
  let a ← Src.ofCode (fld iw 10 6)
  let b ← Src.ofCode (fld iw 4 6)
  let r ← Rnd.ofCode (fld iw 1 3)
  let h ← HFmt.ofCode (fld iw 0 1)
  let t ← mkTail iw nx (a.isLit || b.isLit)
  checked (.pkmul16 t d a b r h)

/-- PKFMA_16 (R258). -/
def decodePkfma16 (iw : Nat) (nx : Option Nat) : Except Reject Instr := do
  let d ← finOfCode 24 (fld iw 16 5)
  let a ← Src.ofCode (fld iw 10 6)
  let b ← Src.ofCode (fld iw 4 6)
  let r ← Rnd.ofCode (fld iw 1 3)
  let h ← HFmt.ofCode (fld iw 0 1)
  let t ← mkTail iw nx (a.isLit || b.isLit)
  checked (.pkfma16 t d a b r h)

/-- PKFNA_16 (R258). -/
def decodePkfna16 (iw : Nat) (nx : Option Nat) : Except Reject Instr := do
  let d ← finOfCode 24 (fld iw 16 5)
  let a ← Src.ofCode (fld iw 10 6)
  let b ← Src.ofCode (fld iw 4 6)
  let r ← Rnd.ofCode (fld iw 1 3)
  let h ← HFmt.ofCode (fld iw 0 1)
  let t ← mkTail iw nx (a.isLit || b.isLit)
  checked (.pkfna16 t d a b r h)

/-- CVTN (R259). -/
def decodeCvtn (iw : Nat) (nx : Option Nat) : Except Reject Instr := do
  let g ← Guard.ofCode (fld iw 21 4)
  let d ← Dst.ofCode (fld iw 16 5)
  let a ← Src.ofCode (fld iw 10 6)
  let f ← finOfCode 64 (fld iw 4 6)
  let r ← Rnd.ofCode (fld iw 1 3)
  let u := bitOfCode (fld iw 0 1)
  let t ← mkTail iw nx (a.isLit)
  checked (.cvtn t g d a f r u)

/-- DOT4_I8 (R260). -/
def decodeDot4I8 (iw : Nat) (nx : Option Nat) : Except Reject Instr := do
  wantField iw 0 1 0
  let g ← Guard.ofCode (fld iw 21 4)
  let d ← finOfCode 24 (fld iw 16 5)
  let a ← Src.ofCode (fld iw 10 6)
  let b ← Src.ofCode (fld iw 4 6)
  let t ← mkTail iw nx (a.isLit || b.isLit)
  checked (.dot4I8 t g d a b)

/-- DOT4_N8 (R260). -/
def decodeDot4N8 (iw : Nat) (nx : Option Nat) : Except Reject Instr := do
  wantField iw 0 1 0
  let g ← Guard.ofCode (fld iw 21 4)
  let d ← finOfCode 24 (fld iw 16 5)
  let a ← Src.ofCode (fld iw 10 6)
  let b ← Src.ofCode (fld iw 4 6)
  let t ← mkTail iw nx (a.isLit || b.isLit)
  checked (.dot4N8 t g d a b)

/-- DOT8_E4M3 (R260). -/
def decodeDot8E4m3 (iw : Nat) (nx : Option Nat) : Except Reject Instr := do
  wantField iw 0 1 0
  let g ← Guard.ofCode (fld iw 21 4)
  let d ← finOfCode 24 (fld iw 16 5)
  let a ← Src.ofCode (fld iw 10 6)
  let b ← Src.ofCode (fld iw 4 6)
  let t ← mkTail iw nx (a.isLit || b.isLit)
  checked (.dot8E4m3 t g d a b)

/-- DOT8_E5M2 (R260). -/
def decodeDot8E5m2 (iw : Nat) (nx : Option Nat) : Except Reject Instr := do
  wantField iw 0 1 0
  let g ← Guard.ofCode (fld iw 21 4)
  let d ← finOfCode 24 (fld iw 16 5)
  let a ← Src.ofCode (fld iw 10 6)
  let b ← Src.ofCode (fld iw 4 6)
  let t ← mkTail iw nx (a.isLit || b.isLit)
  checked (.dot8E5m2 t g d a b)

/-- SCLX (R262). -/
def decodeSclx (iw : Nat) (nx : Option Nat) : Except Reject Instr := do
  let g ← Guard.ofCode (fld iw 21 4)
  let d ← Dst.ofCode (fld iw 16 5)
  let a ← Src.ofCode (fld iw 10 6)
  let b ← Src.ofCode (fld iw 4 6)
  let j ← finOfCode 4 (fld iw 0 2)
  let t ← mkTail iw nx (a.isLit || b.isLit)
  checked (.sclx t g d a b j)

/-- SCLS (R261). -/
def decodeScls (iw : Nat) (nx : Option Nat) : Except Reject Instr := do
  let g ← Guard.ofCode (fld iw 21 4)
  let d ← Dst.ofCode (fld iw 16 5)
  let a ← Src.ofCode (fld iw 10 6)
  let b ← Src.ofCode (fld iw 4 6)
  let j ← finOfCode 4 (fld iw 0 2)
  let t ← mkTail iw nx (a.isLit || b.isLit)
  checked (.scls t g d a b j)

/-- PKADD_F32 (R250). -/
def decodePkaddF32 (iw : Nat) (nx : Option Nat) : Except Reject Instr := do
  wantField iw 0 1 0
  let g ← Guard.ofCode (fld iw 21 4)
  let d ← Dst.ofCode (fld iw 16 5)
  let a ← Src.ofCode (fld iw 10 6)
  let b ← Src.ofCode (fld iw 4 6)
  let r ← Rnd.ofCode (fld iw 1 3)
  let t ← mkTail iw nx (a.isLit || b.isLit)
  checked (.pkaddF32 t g d a b r)

/-- PKMUL_F32 (R250). -/
def decodePkmulF32 (iw : Nat) (nx : Option Nat) : Except Reject Instr := do
  wantField iw 0 1 0
  let d ← Dst.ofCode (fld iw 16 5)
  let a ← Src.ofCode (fld iw 10 6)
  let b ← Src.ofCode (fld iw 4 6)
  let r ← Rnd.ofCode (fld iw 1 3)
  let t ← mkTail iw nx (a.isLit || b.isLit)
  checked (.pkmulF32 t d a b r)

/-- PKFMA_F32 (R250). -/
def decodePkfmaF32 (iw : Nat) (nx : Option Nat) : Except Reject Instr := do
  wantField iw 0 1 0
  let d ← finOfCode 24 (fld iw 16 5)
  let a ← Src.ofCode (fld iw 10 6)
  let b ← Src.ofCode (fld iw 4 6)
  let r ← Rnd.ofCode (fld iw 1 3)
  let t ← mkTail iw nx (a.isLit || b.isLit)
  checked (.pkfmaF32 t d a b r)

/-- PKFNA_F32 (R250). -/
def decodePkfnaF32 (iw : Nat) (nx : Option Nat) : Except Reject Instr := do
  wantField iw 0 1 0
  let d ← finOfCode 24 (fld iw 16 5)
  let a ← Src.ofCode (fld iw 10 6)
  let b ← Src.ofCode (fld iw 4 6)
  let r ← Rnd.ofCode (fld iw 1 3)
  let t ← mkTail iw nx (a.isLit || b.isLit)
  checked (.pkfnaF32 t d a b r)

/-- MMAD (R268). -/
def decodeMmad (iw : Nat) (nx : Option Nat) : Except Reject Instr := do
  wantField iw 0 1 0
  let l ← finOfCode 16 (fld iw 21 4)
  let d ← finOfCode 24 (fld iw 16 5)
  let a ← finOfCode 24 (fld iw 10 6)
  let b ← finOfCode 24 (fld iw 4 6)
  let r ← Rnd.ofCode (fld iw 1 3)
  let c ← mkChain iw nx
  checked (.mmad c l d a b r)

/-- MMA_F32 (R268). -/
def decodeMmaF32 (iw : Nat) (nx : Option Nat) : Except Reject Instr := do
  let l ← finOfCode 16 (fld iw 21 4)
  let d ← finOfCode 24 (fld iw 16 5)
  let a ← finOfCode 24 (fld iw 10 6)
  let b ← finOfCode 24 (fld iw 4 6)
  let r ← Rnd.ofCode (fld iw 0 4)
  let c ← mkChain iw nx
  checked (.mmaF32 c l d a b r)

/-- MMA_BF16 (R268). -/
def decodeMmaBf16 (iw : Nat) (nx : Option Nat) : Except Reject Instr := do
  let l ← finOfCode 16 (fld iw 21 4)
  let d ← finOfCode 24 (fld iw 16 5)
  let a ← finOfCode 24 (fld iw 10 6)
  let b ← finOfCode 24 (fld iw 4 6)
  let c ← mkChain iw nx
  checked (.mmaBf16 c l d a b)

/-- MMA_F16 (R268). -/
def decodeMmaF16 (iw : Nat) (nx : Option Nat) : Except Reject Instr := do
  let l ← finOfCode 16 (fld iw 21 4)
  let d ← finOfCode 24 (fld iw 16 5)
  let a ← finOfCode 24 (fld iw 10 6)
  let b ← finOfCode 24 (fld iw 4 6)
  let c ← mkChain iw nx
  checked (.mmaF16 c l d a b)

/-- MMAQ (R268). -/
def decodeMmaq (iw : Nat) (nx : Option Nat) : Except Reject Instr := do
  let l ← finOfCode 16 (fld iw 21 4)
  let d ← finOfCode 24 (fld iw 16 5)
  let a ← finOfCode 24 (fld iw 10 6)
  let b ← finOfCode 24 (fld iw 4 6)
  let fa ← QFmt.ofCode (fld iw 2 2)
  let fb ← QFmt.ofCode (fld iw 0 2)
  let c ← mkChain iw nx
  checked (.mmaq c l d a b fa fb)

/-- MMAS (R269). -/
def decodeMmas (iw : Nat) (nx : Option Nat) : Except Reject Instr := do
  wantField iw 0 2 0
  let l ← finOfCode 16 (fld iw 21 4)
  let d ← finOfCode 24 (fld iw 16 5)
  let a ← finOfCode 24 (fld iw 10 6)
  let b ← finOfCode 24 (fld iw 4 6)
  let fb ← SFmt.ofCode (fld iw 2 2)
  let x' ← mkMod iw nx
  let mc := bitOfCode (fld x' 31 1)
  let sa ← finOfCode 24 (fld x' 19 6)
  let sb ← finOfCode 24 (fld x' 13 6)
  let ja ← finOfCode 4 (fld x' 11 2)
  let jb ← finOfCode 4 (fld x' 9 2)
  wantMod x' 0 9 0
  checked (.mmas l d a b fb mc sa sb ja jb)

/-- MMAT (R270). -/
def decodeMmat (iw : Nat) (nx : Option Nat) : Except Reject Instr := do
  let l ← finOfCode 16 (fld iw 21 4)
  let d ← finOfCode 24 (fld iw 16 5)
  let a ← finOfCode 24 (fld iw 10 6)
  let h ← Src.ofCode (fld iw 4 6)
  let f ← TFmt.ofCode (fld iw 0 4)
  let t ← mkTail iw nx (h.isLit)
  checked (.mmat t l d a h f)

/-- MMAJ (R273). -/
def decodeMmaj (iw : Nat) (nx : Option Nat) : Except Reject Instr := do
  let l ← finOfCode 16 (fld iw 21 4)
  let d ← finOfCode 24 (fld iw 16 5)
  let a ← finOfCode 24 (fld iw 10 6)
  let b ← finOfCode 24 (fld iw 4 6)
  let f ← JFmt.ofCode (fld iw 0 4)
  let c ← mkChain iw nx
  checked (.mmaj c l d a b f)

/-- TFACT (R276). -/
def decodeTfact (iw : Nat) (nx : Option Nat) : Except Reject Instr := do
  wantField iw 4 6 60
  let l ← finOfCode 16 (fld iw 21 4)
  let d ← finOfCode 24 (fld iw 16 5)
  let a ← finOfCode 24 (fld iw 10 6)
  let k ← SolveKind.ofCode (fld iw 0 2)
  let c ← mkChain iw nx
  checked (.tfact c l d a k)

/-- TSOLV (R277). -/
def decodeTsolv (iw : Nat) (nx : Option Nat) : Except Reject Instr := do
  let l ← finOfCode 16 (fld iw 21 4)
  let d ← finOfCode 24 (fld iw 16 5)
  let a ← finOfCode 24 (fld iw 10 6)
  let b ← finOfCode 24 (fld iw 4 6)
  let k ← SolveKind.ofCode (fld iw 0 2)
  let c ← mkChain iw nx
  checked (.tsolv c l d a b k)

/-- TREF (R278). -/
def decodeTref (iw : Nat) (nx : Option Nat) : Except Reject Instr := do
  let l ← finOfCode 16 (fld iw 21 4)
  let d ← finOfCode 24 (fld iw 16 5)
  let a ← finOfCode 24 (fld iw 10 6)
  let b ← finOfCode 24 (fld iw 4 6)
  let k ← SolveKind.ofCode (fld iw 0 2)
  let x' ← mkMod iw nx
  let mc := bitOfCode (fld x' 31 1)
  let pd ← finOfCode 12 (fld x' 21 4)
  wantMod x' 0 21 0
  checked (.tref l d a b k mc pd)

/-- LD (R306). -/
def decodeLd (iw : Nat) (nx : Option Nat) : Except Reject Instr := do
  let g ← Guard.ofCode (fld iw 21 4)
  let l ← finOfCode 16 (fld iw 17 4)
  let x ← Dst.ofCode (fld iw 11 6)
  let a ← Base.ofCode (fld iw 5 6)
  let o := BitVec.ofNat 5 (fld iw 0 5)
  let x' ← mkMod iw nx
  let mc := bitOfCode (fld x' 31 1)
  wantMod x' 20 5 0
  let ty ← MemTy.ofCode (fld x' 16 4)
  wantMod x' 13 3 0
  wantMod x' 7 6 0
  wantMod x' 2 5 28
  wantMod x' 0 2 0
  checked (.ld g l x a o mc ty)

/-- ST (R309). -/
def decodeSt (iw : Nat) (nx : Option Nat) : Except Reject Instr := do
  wantField iw 17 4 0
  let g ← Guard.ofCode (fld iw 21 4)
  let x ← Src.ofCode (fld iw 11 6)
  let a ← Base.ofCode (fld iw 5 6)
  let o := BitVec.ofNat 5 (fld iw 0 5)
  let x' ← mkMod iw nx
  let mc := bitOfCode (fld x' 31 1)
  wantMod x' 20 5 0
  let ty ← MemTy.ofCode (fld x' 16 4)
  wantMod x' 13 3 0
  wantMod x' 7 6 0
  wantMod x' 2 5 28
  wantMod x' 0 2 0
  checked (.st g x a o mc ty)

/-- LDL (R307). -/
def decodeLdl (iw : Nat) (nx : Option Nat) : Except Reject Instr := do
  let g ← Guard.ofCode (fld iw 21 4)
  let l ← finOfCode 16 (fld iw 17 4)
  let x ← Dst.ofCode (fld iw 11 6)
  let a ← Base.ofCode (fld iw 5 6)
  let o := BitVec.ofNat 5 (fld iw 0 5)
  let x' ← mkMod iw nx
  let mc := bitOfCode (fld x' 31 1)
  let ty ← MemTy.ofCode (fld x' 16 4)
  wantMod x' 13 3 0
  wantMod x' 7 6 0
  wantMod x' 2 5 28
  wantMod x' 0 2 0
  checked (.ldl g l x a o mc ty)

/-- STL (R309). -/
def decodeStl (iw : Nat) (nx : Option Nat) : Except Reject Instr := do
  wantField iw 17 4 0
  let g ← Guard.ofCode (fld iw 21 4)
  let x ← Src.ofCode (fld iw 11 6)
  let a ← Base.ofCode (fld iw 5 6)
  let o := BitVec.ofNat 5 (fld iw 0 5)
  let x' ← mkMod iw nx
  let mc := bitOfCode (fld x' 31 1)
  let ty ← MemTy.ofCode (fld x' 16 4)
  wantMod x' 13 3 0
  wantMod x' 7 6 0
  wantMod x' 2 5 28
  wantMod x' 0 2 0
  checked (.stl g x a o mc ty)

/-- LDC (R308). -/
def decodeLdc (iw : Nat) (nx : Option Nat) : Except Reject Instr := do
  let g ← Guard.ofCode (fld iw 21 4)
  let l ← finOfCode 16 (fld iw 17 4)
  let x ← Dst.ofCode (fld iw 11 6)
  let a ← Base.ofCode (fld iw 5 6)
  let o := BitVec.ofNat 5 (fld iw 0 5)
  let x' ← mkMod iw nx
  let mc := bitOfCode (fld x' 31 1)
  wantMod x' 20 5 0
  let ty ← MemTy.ofCode (fld x' 16 4)
  wantMod x' 13 3 0
  wantMod x' 7 6 0
  wantMod x' 2 5 28
  wantMod x' 0 2 0
  checked (.ldc g l x a o mc ty)

/-- ATOM (R312). -/
def decodeAtom (iw : Nat) (nx : Option Nat) : Except Reject Instr := do
  let g ← Guard.ofCode (fld iw 21 4)
  let l ← finOfCode 16 (fld iw 17 4)
  let x ← Src.ofCode (fld iw 11 6)
  let a ← Base.ofCode (fld iw 5 6)
  let o := BitVec.ofNat 5 (fld iw 0 5)
  let x' ← mkMod iw nx
  let mc := bitOfCode (fld x' 31 1)
  let op ← AOp.ofCode (fld x' 20 5)
  let ty ← MemTy.ofCode (fld x' 16 4)
  let sc ← Scope.ofCode (fld x' 13 3)
  wantMod x' 7 6 0
  let xd ← Dst.ofCode (fld x' 2 5)
  wantMod x' 0 2 0
  checked (.atom g l x a o mc op ty sc xd)

/-- RED (R312). -/
def decodeRed (iw : Nat) (nx : Option Nat) : Except Reject Instr := do
  wantField iw 17 4 0
  let g ← Guard.ofCode (fld iw 21 4)
  let x ← Src.ofCode (fld iw 11 6)
  let a ← Base.ofCode (fld iw 5 6)
  let o := BitVec.ofNat 5 (fld iw 0 5)
  let x' ← mkMod iw nx
  let mc := bitOfCode (fld x' 31 1)
  let op ← AOp.ofCode (fld x' 20 5)
  let ty ← MemTy.ofCode (fld x' 16 4)
  let sc ← Scope.ofCode (fld x' 13 3)
  wantMod x' 7 6 0
  wantMod x' 2 5 28
  wantMod x' 0 2 0
  checked (.red g x a o mc op ty sc)

/-- ACAS (R312). -/
def decodeAcas (iw : Nat) (nx : Option Nat) : Except Reject Instr := do
  let g ← Guard.ofCode (fld iw 21 4)
  let l ← finOfCode 16 (fld iw 17 4)
  let x ← Src.ofCode (fld iw 11 6)
  let a ← Base.ofCode (fld iw 5 6)
  let o := BitVec.ofNat 5 (fld iw 0 5)
  let x' ← mkMod iw nx
  let mc := bitOfCode (fld x' 31 1)
  let ty ← MemTy.ofCode (fld x' 16 4)
  let sc ← Scope.ofCode (fld x' 13 3)
  let x2 ← Src.ofCode (fld x' 7 6)
  let xd ← Dst.ofCode (fld x' 2 5)
  wantMod x' 0 2 0
  checked (.acas g l x a o mc ty sc x2 xd)

/-- AXCH (R312). -/
def decodeAxch (iw : Nat) (nx : Option Nat) : Except Reject Instr := do
  let g ← Guard.ofCode (fld iw 21 4)
  let l ← finOfCode 16 (fld iw 17 4)
  let x ← Src.ofCode (fld iw 11 6)
  let a ← Base.ofCode (fld iw 5 6)
  let o := BitVec.ofNat 5 (fld iw 0 5)
  let x' ← mkMod iw nx
  let mc := bitOfCode (fld x' 31 1)
  let ty ← MemTy.ofCode (fld x' 16 4)
  let sc ← Scope.ofCode (fld x' 13 3)
  wantMod x' 7 6 0
  let xd ← Dst.ofCode (fld x' 2 5)
  wantMod x' 0 2 0
  checked (.axch g l x a o mc ty sc xd)

/-- FENCE (R317). -/
def decodeFence (iw : Nat) (nx : Option Nat) : Except Reject Instr := do
  wantField iw 3 3 0
  wantField iw 10 2 0
  wantField iw 17 8 0
  let s ← Sets.ofCode (fld iw 8 2)
  let p ← Sets.ofCode (fld iw 6 2)
  let e ← Scope.ofCode (fld iw 0 3)
  let c ← mkChain iw nx
  checked (.fence c s p e)

/-- FENCE_S (R106). -/
def decodeFenceS (iw : Nat) (nx : Option Nat) : Except Reject Instr := do
  wantField iw 3 3 0
  wantField iw 10 2 0
  wantField iw 17 8 0
  let s ← Sets.ofCode (fld iw 8 2)
  let p ← Sets.ofCode (fld iw 6 2)
  let e ← Scope.ofCode (fld iw 0 3)
  let c ← mkChain iw nx
  checked (.fenceS c s p e)

/-- WAITM (R320). -/
def decodeWaitm (iw : Nat) (nx : Option Nat) : Except Reject Instr := do
  wantField iw 0 2 0
  let g ← Guard.ofCode (fld iw 21 4)
  let l ← finOfCode 16 (fld iw 17 4)
  let a ← finOfCode 24 (fld iw 6 6)
  let n ← WCond.ofCode (fld iw 3 3)
  let w ← Width.ofCode (fld iw 2 1)
  let c ← mkChain iw nx
  checked (.waitm c g l a n w)

/-- CCTL_INV (R321). -/
def decodeCctlInv (iw : Nat) (nx : Option Nat) : Except Reject Instr := do
  wantField iw 17 4 0
  let g ← Guard.ofCode (fld iw 21 4)
  let a ← Addr6.ofCode (fld iw 6 6)
  let c ← mkChain iw nx
  checked (.cctlInv c g a)

/-- CCTL_INVALL (R321). -/
def decodeCctlInvall (iw : Nat) (nx : Option Nat) : Except Reject Instr := do
  wantField iw 6 6 60
  wantField iw 17 8 0
  let c ← mkChain iw nx
  checked (.cctlInvall c)

/-- CCTL_WB (R321). -/
def decodeCctlWb (iw : Nat) (nx : Option Nat) : Except Reject Instr := do
  wantField iw 17 4 0
  let g ← Guard.ofCode (fld iw 21 4)
  let a ← Addr6.ofCode (fld iw 6 6)
  let c ← mkChain iw nx
  checked (.cctlWb c g a)

/-- PREF (R322). -/
def decodePref (iw : Nat) (nx : Option Nat) : Except Reject Instr := do
  wantField iw 1 5 0
  wantField iw 17 4 0
  let g ← Guard.ofCode (fld iw 21 4)
  let a ← Addr6.ofCode (fld iw 6 6)
  let v := bitOfCode (fld iw 0 1)
  let c ← mkChain iw nx
  checked (.pref c g a v)

/-- COPY (R327). -/
def decodeCopy (iw : Nat) (nx : Option Nat) : Except Reject Instr := do
  wantField iw 17 4 0
  let g ← Guard.ofCode (fld iw 21 4)
  let a ← Src.ofCode (fld iw 6 6)
  let b ← Src.ofCode (fld iw 0 6)
  let t ← mkTail iw nx (a.isLit || b.isLit)
  checked (.copy t g a b)

/-- COPYR (R327). -/
def decodeCopyr (iw : Nat) (nx : Option Nat) : Except Reject Instr := do
  wantField iw 17 4 0
  let g ← Guard.ofCode (fld iw 21 4)
  let a ← Src.ofCode (fld iw 6 6)
  let b ← Src.ofCode (fld iw 0 6)
  let t ← mkTail iw nx (a.isLit || b.isLit)
  checked (.copyr t g a b)

/-- BATCH (R328). -/
def decodeBatch (iw : Nat) (nx : Option Nat) : Except Reject Instr := do
  wantField iw 0 12 3900
  wantField iw 21 4 0
  let l ← finOfCode 16 (fld iw 17 4)
  let c ← mkChain iw nx
  checked (.batch c l)

/-- WAITB (R329). -/
def decodeWaitb (iw : Nat) (nx : Option Nat) : Except Reject Instr := do
  wantField iw 0 6 60
  wantField iw 21 4 0
  let l ← finOfCode 16 (fld iw 17 4)
  let a ← Src.ofCode (fld iw 6 6)
  let t ← mkTail iw nx (a.isLit)
  checked (.waitb t l a)

/-- QFENCE (R332). -/
def decodeQfence (iw : Nat) (nx : Option Nat) : Except Reject Instr := do
  wantField iw 4 8 240
  wantField iw 17 8 0
  let m ← finOfCode 16 (fld iw 0 4)
  let c ← mkChain iw nx
  checked (.qfence c m)

/-- TILE (R333). -/
def decodeTile (iw : Nat) (nx : Option Nat) : Except Reject Instr := do
  let g ← Guard.ofCode (fld iw 21 4)
  let l ← finOfCode 16 (fld iw 17 4)
  let a ← finOfCode 24 (fld iw 6 6)
  let b ← Src.ofCode (fld iw 0 6)
  let t ← mkTail iw nx (b.isLit)
  checked (.tile t g l a b)

/-- BAR_INIT (R336). -/
def decodeBarInit (iw : Nat) (nx : Option Nat) : Except Reject Instr := do
  wantField iw 4 2 0
  wantField iw 17 8 0
  let a ← Src.ofCode (fld iw 6 6)
  let k ← finOfCode 16 (fld iw 0 4)
  let t ← mkTail iw nx (a.isLit)
  checked (.barInit t a k)

/-- BAR_ARRIVE (R337). -/
def decodeBarArrive (iw : Nat) (nx : Option Nat) : Except Reject Instr := do
  wantField iw 4 8 240
  wantField iw 17 8 0
  let k ← finOfCode 16 (fld iw 0 4)
  let c ← mkChain iw nx
  checked (.barArrive c k)

/-- BAR_WAIT (R338). -/
def decodeBarWait (iw : Nat) (nx : Option Nat) : Except Reject Instr := do
  wantField iw 4 8 240
  wantField iw 21 4 0
  let l ← finOfCode 16 (fld iw 17 4)
  let k ← finOfCode 16 (fld iw 0 4)
  let c ← mkChain iw nx
  checked (.barWait c l k)

/-- BAR_TEST (R339). -/
def decodeBarTest (iw : Nat) (nx : Option Nat) : Except Reject Instr := do
  wantField iw 4 8 240
  wantField iw 21 4 0
  let l ← finOfCode 16 (fld iw 17 4)
  let k ← finOfCode 16 (fld iw 0 4)
  let c ← mkChain iw nx
  checked (.barTest c l k)

/-- QSTAT (R340). -/
def decodeQstat (iw : Nat) (nx : Option Nat) : Except Reject Instr := do
  wantField iw 6 6 60
  wantField iw 21 4 0
  let l ← finOfCode 16 (fld iw 17 4)
  let s ← QSel.ofCode (fld iw 0 6)
  let c ← mkChain iw nx
  checked (.qstat c l s)

/-- COLL (R342). -/
def decodeColl (iw : Nat) (nx : Option Nat) : Except Reject Instr := do
  wantField iw 17 4 0
  let g ← Guard.ofCode (fld iw 21 4)
  let a ← Src.ofCode (fld iw 6 6)
  let b ← Src.ofCode (fld iw 0 6)
  let t ← mkTail iw nx (a.isLit || b.isLit)
  checked (.coll t g a b)

/-- IF (R378). -/
def decodeIfW (iw : Nat) (nx : Option Nat) : Except Reject Instr := do
  let g ← Guard.ofCode (fld iw 16 4)
  let o := BitVec.ofNat 16 (fld iw 0 16)
  let c ← mkChain iw nx
  checked (.ifW c g o)

/-- ELSE (R378). -/
def decodeElseW (iw : Nat) (nx : Option Nat) : Except Reject Instr := do
  wantField iw 16 4 0
  let o := BitVec.ofNat 16 (fld iw 0 16)
  let c ← mkChain iw nx
  checked (.elseW c o)

/-- ENDIF (R378). -/
def decodeEndif (iw : Nat) (nx : Option Nat) : Except Reject Instr := do
  wantField iw 0 20 0
  let c ← mkChain iw nx
  checked (.endif c)

/-- LOOP (R379). -/
def decodeLoopW (iw : Nat) (nx : Option Nat) : Except Reject Instr := do
  let g ← Guard.ofCode (fld iw 16 4)
  let o := BitVec.ofNat 16 (fld iw 0 16)
  let c ← mkChain iw nx
  checked (.loopW c g o)

/-- ENDLOOP (R379). -/
def decodeEndloop (iw : Nat) (nx : Option Nat) : Except Reject Instr := do
  wantField iw 0 16 0
  let g ← Guard.ofCode (fld iw 16 4)
  let c ← mkChain iw nx
  checked (.endloop c g)

/-- BRK (R379). -/
def decodeBrk (iw : Nat) (nx : Option Nat) : Except Reject Instr := do
  wantField iw 0 16 0
  let g ← Guard.ofCode (fld iw 16 4)
  let c ← mkChain iw nx
  checked (.brk c g)

/-- CONT (R379). -/
def decodeCont (iw : Nat) (nx : Option Nat) : Except Reject Instr := do
  wantField iw 0 16 0
  let g ← Guard.ofCode (fld iw 16 4)
  let c ← mkChain iw nx
  checked (.cont c g)

/-- JMP (R381). -/
def decodeJmp (iw : Nat) (nx : Option Nat) : Except Reject Instr := do
  let g ← Guard.ofCode (fld iw 16 4)
  let o := BitVec.ofNat 16 (fld iw 0 16)
  let c ← mkChain iw nx
  checked (.jmp c g o)

/-- CALL (R381). -/
def decodeCall (iw : Nat) (nx : Option Nat) : Except Reject Instr := do
  let g ← Guard.ofCode (fld iw 16 4)
  let o := BitVec.ofNat 16 (fld iw 0 16)
  let c ← mkChain iw nx
  checked (.call c g o)

/-- RET (R381). -/
def decodeRet (iw : Nat) (nx : Option Nat) : Except Reject Instr := do
  wantField iw 0 16 0
  let g ← Guard.ofCode (fld iw 16 4)
  let c ← mkChain iw nx
  checked (.ret c g)

/-- EXIT (R382). -/
def decodeExit (iw : Nat) (nx : Option Nat) : Except Reject Instr := do
  wantField iw 0 16 0
  let g ← Guard.ofCode (fld iw 16 4)
  let c ← mkChain iw nx
  checked (.exit c g)

/-- NOP (R383). -/
def decodeNop (iw : Nat) (nx : Option Nat) : Except Reject Instr := do
  wantField iw 0 20 0
  let c ← mkChain iw nx
  checked (.nop c)

/-- LAUNCH (R397). -/
def decodeLaunch (iw : Nat) (nx : Option Nat) : Except Reject Instr := do
  let g ← Guard.ofCode (fld iw 21 4)
  let l ← finOfCode 16 (fld iw 17 4)
  let a ← Src.ofCode (fld iw 6 6)
  let b ← Src.ofCode (fld iw 0 6)
  let t ← mkTail iw nx (a.isLit || b.isLit)
  checked (.launch t g l a b)

/-- WAITCHILD (R398). -/
def decodeWaitchild (iw : Nat) (nx : Option Nat) : Except Reject Instr := do
  wantField iw 0 6 60
  wantField iw 21 4 0
  let l ← finOfCode 16 (fld iw 17 4)
  let a ← Src.ofCode (fld iw 6 6)
  let t ← mkTail iw nx (a.isLit)
  checked (.waitchild t l a)

/-- SPAWN (R401). -/
def decodeSpawn (iw : Nat) (nx : Option Nat) : Except Reject Instr := do
  wantField iw 17 4 0
  let g ← Guard.ofCode (fld iw 21 4)
  let a ← Src.ofCode (fld iw 6 6)
  let b ← MaskSrc.ofCode (fld iw 0 6)
  let t ← mkTail iw nx (a.isLit || b.isLit)
  checked (.spawn t g a b)

/-- YIELD (R402). -/
def decodeYieldW (iw : Nat) (nx : Option Nat) : Except Reject Instr := do
  wantField iw 17 4 0
  let g ← Guard.ofCode (fld iw 21 4)
  let a ← Src.ofCode (fld iw 6 6)
  let b ← MaskSrc.ofCode (fld iw 0 6)
  let t ← mkTail iw nx (a.isLit || b.isLit)
  checked (.yieldW t g a b)

/-- TASK (R403). -/
def decodeTask (iw : Nat) (nx : Option Nat) : Except Reject Instr := do
  wantField iw 6 6 60
  wantField iw 17 8 0
  let b ← MaskSrc.ofCode (fld iw 0 6)
  let t ← mkTail iw nx (b.isLit)
  checked (.task t b)

/-- COMMIT (R404). -/
def decodeCommit (iw : Nat) (nx : Option Nat) : Except Reject Instr := do
  wantField iw 0 12 3900
  wantField iw 17 8 0
  let c ← mkChain iw nx
  checked (.commit c)

/-- REGS (R185). -/
def decodeRegs (iw : Nat) (nx : Option Nat) : Except Reject Instr := do
  wantField iw 17 8 0
  let n ← finOfCode 64 (fld iw 6 6)
  let b ← MaskSrc.ofCode (fld iw 0 6)
  let t ← mkTail iw nx (b.isLit)
  checked (.regs t n b)

/-- ENDREGS (R186). -/
def decodeEndregs (iw : Nat) (nx : Option Nat) : Except Reject Instr := do
  wantField iw 0 12 3900
  wantField iw 17 8 0
  let c ← mkChain iw nx
  checked (.endregs c)

/-- GROW (R187). -/
def decodeGrow (iw : Nat) (nx : Option Nat) : Except Reject Instr := do
  wantField iw 17 8 0
  let n ← finOfCode 64 (fld iw 6 6)
  let b ← MaskSrc.ofCode (fld iw 0 6)
  let t ← mkTail iw nx (b.isLit)
  checked (.grow t n b)

/-- SHRINK (R188). -/
def decodeShrink (iw : Nat) (nx : Option Nat) : Except Reject Instr := do
  wantField iw 0 6 60
  wantField iw 17 8 0
  let n ← finOfCode 64 (fld iw 6 6)
  let c ← mkChain iw nx
  checked (.shrink c n)

/-- TRAP (R407). -/
def decodeTrap (iw : Nat) (nx : Option Nat) : Except Reject Instr := do
  wantField iw 17 4 0
  let g ← Guard.ofCode (fld iw 21 4)
  let n ← finOfCode 64 (fld iw 6 6)
  let b ← Src.ofCode (fld iw 0 6)
  let t ← mkTail iw nx (b.isLit)
  checked (.trap t g n b)

/-- RTT (R408). -/
def decodeRtt (iw : Nat) (nx : Option Nat) : Except Reject Instr := do
  wantField iw 0 12 3900
  wantField iw 17 8 0
  let c ← mkChain iw nx
  checked (.rtt c)

/-- GETSR (R395). -/
def decodeGetsr (iw : Nat) (nx : Option Nat) : Except Reject Instr := do
  wantField iw 0 6 60
  let g ← Guard.ofCode (fld iw 21 4)
  let l ← finOfCode 16 (fld iw 17 4)
  let n ← finOfCode 64 (fld iw 6 6)
  let c ← mkChain iw nx
  checked (.getsr c g l n)

/-- SETSR (R396). -/
def decodeSetsr (iw : Nat) (nx : Option Nat) : Except Reject Instr := do
  wantField iw 17 4 0
  let g ← Guard.ofCode (fld iw 21 4)
  let n ← finOfCode 64 (fld iw 6 6)
  let b ← Src.ofCode (fld iw 0 6)
  let t ← mkTail iw nx (b.isLit)
  checked (.setsr t g n b)

/-- WAITPRED (R400). -/
def decodeWaitpred (iw : Nat) (nx : Option Nat) : Except Reject Instr := do
  wantField iw 0 12 3900
  wantField iw 17 8 0
  let c ← mkChain iw nx
  checked (.waitpred c)

/-- SIGSUCC (R399). -/
def decodeSigsucc (iw : Nat) (nx : Option Nat) : Except Reject Instr := do
  wantField iw 0 12 3900
  wantField iw 17 8 0
  let c ← mkChain iw nx
  checked (.sigsucc c)

/-- TRACE (R409). -/
def decodeTraceW (iw : Nat) (nx : Option Nat) : Except Reject Instr := do
  wantField iw 17 4 0
  let g ← Guard.ofCode (fld iw 21 4)
  let n ← finOfCode 64 (fld iw 6 6)
  let b ← Src.ofCode (fld iw 0 6)
  let t ← mkTail iw nx (b.isLit)
  checked (.traceW t g n b)

/-- PATHB (R292). -/
def decodePathb (iw : Nat) (nx : Option Nat) : Except Reject Instr := do
  wantField iw 17 8 0
  let a ← Src.ofCode (fld iw 6 6)
  let b ← Src.ofCode (fld iw 0 6)
  let t ← mkTail iw nx (a.isLit || b.isLit)
  checked (.pathb t a b)

/-- SEGL (R293). -/
def decodeSegl (iw : Nat) (nx : Option Nat) : Except Reject Instr := do
  wantField iw 0 6 60
  wantField iw 17 4 0
  let g ← Guard.ofCode (fld iw 21 4)
  let a ← finOfCode 24 (fld iw 6 6)
  let c ← mkChain iw nx
  checked (.segl c g a)

/-- SEGQ (R293). -/
def decodeSegq (iw : Nat) (nx : Option Nat) : Except Reject Instr := do
  wantField iw 0 6 60
  wantField iw 17 4 0
  let g ← Guard.ofCode (fld iw 21 4)
  let a ← finOfCode 24 (fld iw 6 6)
  let c ← mkChain iw nx
  checked (.segq c g a)

/-- SEGC (R293). -/
def decodeSegc (iw : Nat) (nx : Option Nat) : Except Reject Instr := do
  wantField iw 0 6 60
  wantField iw 17 4 0
  let g ← Guard.ofCode (fld iw 21 4)
  let a ← finOfCode 24 (fld iw 6 6)
  let c ← mkChain iw nx
  checked (.segc c g a)

/-- PATHE (R294). -/
def decodePathe (iw : Nat) (nx : Option Nat) : Except Reject Instr := do
  wantField iw 17 8 0
  let a ← Src.ofCode (fld iw 6 6)
  let b ← Src.ofCode (fld iw 0 6)
  let t ← mkTail iw nx (a.isLit || b.isLit)
  checked (.pathe t a b)

/-- COVRD (R295). -/
def decodeCovrd (iw : Nat) (nx : Option Nat) : Except Reject Instr := do
  let g ← Guard.ofCode (fld iw 21 4)
  let l ← finOfCode 16 (fld iw 17 4)
  let a ← Src.ofCode (fld iw 6 6)
  let b ← Src.ofCode (fld iw 0 6)
  let t ← mkTail iw nx (a.isLit || b.isLit)
  checked (.covrd t g l a b)

/-- The instruction of a word, its literal or modifier taken from the next word (R210, R211). -/
def decodeInstr (iw : Nat) (nx : Option Nat) : Except Reject Instr :=
  let m := fld iw 25 6
  match m with
  | 0x00 =>
    match fld iw 1 3 with
    | 0 => decodeIadd iw nx
    | 1 => decodeIsub iw nx
    | 2 => decodeIaddc iw nx
    | n => .error (.minor m n)
  | 0x01 =>
    match fld iw 1 3 with
    | 0 => decodeImul iw nx
    | 1 => decodeImulhI iw nx
    | 2 => decodeImulhN iw nx
    | n => .error (.minor m n)
  | 0x02 => decodeImad iw nx
  | 0x03 =>
    match fld iw 1 3 with
    | 0 => decodeAndB iw nx
    | 1 => decodeOrB iw nx
    | 2 => decodeXorB iw nx
    | 3 => decodeAndn iw nx
    | 4 => decodeOrn iw nx
    | 5 => decodeNotB iw nx
    | n => .error (.minor m n)
  | 0x04 =>
    match fld iw 1 3 with
    | 0 => decodeShl iw nx
    | 1 => decodeShr iw nx
    | 2 => decodeSar iw nx
    | 3 => decodeRol iw nx
    | 4 => decodeRor iw nx
    | n => .error (.minor m n)
  | 0x05 =>
    match fld iw 1 3 with
    | 0 => decodePopc iw nx
    | 1 => decodeClz iw nx
    | 2 => decodeCtz iw nx
    | 3 => decodeBrev iw nx
    | 4 => decodeBfeN iw nx
    | 5 => decodeBfeI iw nx
    | 6 => decodeBfi iw nx
    | n => .error (.minor m n)
  | 0x06 =>
    match fld iw 1 3 with
    | 0 => decodeMinI iw nx
    | 1 => decodeMinN iw nx
    | 2 => decodeMaxI iw nx
    | 3 => decodeMaxN iw nx
    | 4 => decodeAbsI iw nx
    | 5 => decodeNegI iw nx
    | 6 => decodeSel iw nx
    | n => .error (.minor m n)
  | 0x07 =>
    match fld iw 1 3 with
    | 0 => decodeMov iw nx
    | 1 => decodeMovs iw nx
    | 2 => decodeLea iw nx
    | n => .error (.minor m n)
  | 0x08 => decodeIcmp32 iw nx
  | 0x09 => decodeIcmp64 iw nx
  | 0x0A =>
    match fld iw 0 4 with
    | 0 => decodePand iw nx
    | 1 => decodePor iw nx
    | 2 => decodePxor iw nx
    | 3 => decodePnot iw nx
    | 4 => decodePmov iw nx
    | n => .error (.minor m n)
  | 0x0B =>
    match fld iw 1 3 with
    | 0 => decodeCensusNz iw nx
    | 1 => decodeCensusLsb iw nx
    | 2 => decodeCensusSgn iw nx
    | n => .error (.minor m n)
  | 0x0C =>
    match fld iw 1 3 with
    | 0 => decodeRouteFrom iw nx
    | 1 => decodeRouteRot iw nx
    | 2 => decodeRouteShift iw nx
    | 3 => decodeRouteFlip iw nx
    | 4 => decodePeers iw nx
    | n => .error (.minor m n)
  | 0x10 =>
    match fld iw 21 4 with
    | 13 => decodeFsub iw nx
    | _ => decodeFadd iw nx
  | 0x11 => decodeFmul iw nx
  | 0x12 => decodeFfma iw nx
  | 0x13 => decodeFfms iw nx
  | 0x14 => decodeFnma iw nx
  | 0x15 =>
    match fld iw 1 3 with
    | 0 => decodeFmin iw nx
    | 1 => decodeFmax iw nx
    | 2 => decodeFminNum iw nx
    | 3 => decodeFmaxNum iw nx
    | n => .error (.minor m n)
  | 0x16 => decodeFcmp iw nx
  | 0x17 => decodeFcvt iw nx
  | 0x18 =>
    match fld iw 21 4 with
    | 13 => decodeFscale iw nx
    | _ =>
      match fld iw 1 3 with
      | 0 => decodeFclass iw nx
      | 1 => decodeFfrexp iw nx
      | 2 => decodeFabs iw nx
      | 3 => decodeFneg iw nx
      | 4 => decodeFcpysgn iw nx
      | n => .error (.minor m n)
  | 0x19 => decodeFdiv iw nx
  | 0x1A =>
    match fld iw 4 6 with
    | 0 => decodeFsqrt iw nx
    | 1 => decodeFrcp iw nx
    | 2 => decodeFrsq iw nx
    | n => .error (.minor m n)
  | 0x1B =>
    match fld iw 4 6 with
    | 0 => decodeFexp2 iw nx
    | 1 => decodeFlog2 iw nx
    | 2 => decodeFsin iw nx
    | 3 => decodeFcos iw nx
    | 4 => decodeFtanh iw nx
    | n => .error (.minor m n)
  | 0x20 =>
    match fld iw 21 4 with
    | 13 => decodePkmul16 iw nx
    | 14 => decodePkfma16 iw nx
    | 15 => decodePkfna16 iw nx
    | _ => decodePkadd16 iw nx
  | 0x21 => decodeCvtn iw nx
  | 0x22 =>
    match fld iw 1 3 with
    | 0 => decodeDot4I8 iw nx
    | 1 => decodeDot4N8 iw nx
    | 2 => decodeDot8E4m3 iw nx
    | 3 => decodeDot8E5m2 iw nx
    | n => .error (.minor m n)
  | 0x23 =>
    match fld iw 2 2 with
    | 0 => decodeSclx iw nx
    | 1 => decodeScls iw nx
    | n => .error (.minor m n)
  | 0x24 =>
    match fld iw 21 4 with
    | 13 => decodePkmulF32 iw nx
    | 14 => decodePkfmaF32 iw nx
    | 15 => decodePkfnaF32 iw nx
    | _ => decodePkaddF32 iw nx
  | 0x28 => decodeMmad iw nx
  | 0x29 =>
    match fld iw 0 4 with
    | 6 => decodeMmaBf16 iw nx
    | 7 => decodeMmaF16 iw nx
    | _ => decodeMmaF32 iw nx
  | 0x2A => decodeMmaq iw nx
  | 0x2B => decodeMmas iw nx
  | 0x2C => decodeMmat iw nx
  | 0x2D => decodeMmaj iw nx
  | 0x2E =>
    match fld iw 2 2 with
    | 0 => decodeTfact iw nx
    | 1 => decodeTsolv iw nx
    | 2 => decodeTref iw nx
    | n => .error (.minor m n)
  | 0x30 => decodeLd iw nx
  | 0x31 => decodeSt iw nx
  | 0x32 =>
    match mkMod iw nx with
    | .error e => .error e
    | .ok x =>
      match fld x 20 5 with
      | 0 => decodeLdl iw nx
      | 1 => decodeStl iw nx
      | n => .error (.modifier 20 n)
  | 0x33 => decodeLdc iw nx
  | 0x34 => decodeAtom iw nx
  | 0x35 => decodeRed iw nx
  | 0x36 =>
    match mkMod iw nx with
    | .error e => .error e
    | .ok x =>
      match fld x 20 5 with
      | 0 => decodeAcas iw nx
      | 1 => decodeAxch iw nx
      | n => .error (.modifier 20 n)
  | 0x37 =>
    match fld iw 12 5 with
    | 0 => decodeFence iw nx
    | 1 => decodeFenceS iw nx
    | 2 => decodeWaitm iw nx
    | 3 =>
      match fld iw 0 6 with
      | 0 => decodeCctlInv iw nx
      | 1 => decodeCctlInvall iw nx
      | 2 => decodeCctlWb iw nx
      | n => .error (.minor m n)
    | 4 => decodePref iw nx
    | n => .error (.minor m n)
  | 0x38 =>
    match fld iw 12 5 with
    | 0 => decodeCopy iw nx
    | 1 => decodeCopyr iw nx
    | n => .error (.minor m n)
  | 0x39 =>
    match fld iw 12 5 with
    | 0 => decodeBatch iw nx
    | 1 => decodeWaitb iw nx
    | 2 => decodeQfence iw nx
    | 3 => decodeTile iw nx
    | n => .error (.minor m n)
  | 0x3A =>
    match fld iw 12 5 with
    | 0 => decodeBarInit iw nx
    | 1 => decodeBarArrive iw nx
    | 2 => decodeBarWait iw nx
    | 3 => decodeBarTest iw nx
    | 4 => decodeQstat iw nx
    | n => .error (.minor m n)
  | 0x3B =>
    match fld iw 12 5 with
    | 0 => decodeColl iw nx
    | n => .error (.minor m n)
  | 0x3C =>
    match fld iw 20 5 with
    | 0 => decodeIfW iw nx
    | 1 => decodeElseW iw nx
    | 2 => decodeEndif iw nx
    | 3 => decodeLoopW iw nx
    | 4 => decodeEndloop iw nx
    | 5 => decodeBrk iw nx
    | 6 => decodeCont iw nx
    | 7 => decodeJmp iw nx
    | 8 => decodeCall iw nx
    | 9 => decodeRet iw nx
    | 10 => decodeExit iw nx
    | 11 => decodeNop iw nx
    | n => .error (.minor m n)
  | 0x3D =>
    match fld iw 12 5 with
    | 0 => decodeLaunch iw nx
    | 1 => decodeWaitchild iw nx
    | 2 => decodeSpawn iw nx
    | 3 => decodeYieldW iw nx
    | 4 => decodeTask iw nx
    | 5 => decodeCommit iw nx
    | 6 => decodeRegs iw nx
    | 7 => decodeEndregs iw nx
    | 8 => decodeGrow iw nx
    | 9 => decodeShrink iw nx
    | 10 => decodeTrap iw nx
    | 11 => decodeRtt iw nx
    | 12 => decodeGetsr iw nx
    | 13 => decodeSetsr iw nx
    | 14 => decodeWaitpred iw nx
    | 15 => decodeSigsucc iw nx
    | 16 => decodeTraceW iw nx
    | n => .error (.minor m n)
  | 0x3E =>
    match fld iw 12 5 with
    | 0 => decodePathb iw nx
    | 1 => decodeSegl iw nx
    | 2 => decodeSegq iw nx
    | 3 => decodeSegc iw nx
    | 4 => decodePathe iw nx
    | 5 => decodeCovrd iw nx
    | n => .error (.minor m n)
  | 0x3F => .error .strayLiteral
  | _ => .error (.major m)

/-- The words of an instruction word with what follows it. -/
def Tail.words (t : Tail) (w : Nat) : List Nat :=
  match t with
  | .stop => [w]
  | .chain => [w + 0x80000000]
  | .lit v c => [w + 0x80000000, 0x7E000000 + v.toNat + bitCode c * 0x80000000]

/-- The words of an instruction; an event has none. -/
def encode : Instr → List Nat
  | .iadd t g d a b w => t.words (0x00000000 + g.code * 2097152 + d.code * 65536 + a.code * 1024 + b.code * 16 + w.code)
  | .isub t g d a b w => t.words (0x00000002 + g.code * 2097152 + d.code * 65536 + a.code * 1024 + b.code * 16 + w.code)
  | .iaddc t g d a b w => t.words (0x00000004 + g.code * 2097152 + d.code * 65536 + a.code * 1024 + b.code * 16 + w.code)
  | .imul t g d a b w => t.words (0x02000000 + g.code * 2097152 + d.code * 65536 + a.code * 1024 + b.code * 16 + w.code)
  | .imulhI t g d a b w => t.words (0x02000002 + g.code * 2097152 + d.code * 65536 + a.code * 1024 + b.code * 16 + w.code)
  | .imulhN t g d a b w => t.words (0x02000004 + g.code * 2097152 + d.code * 65536 + a.code * 1024 + b.code * 16 + w.code)
  | .imad t d a b q w => t.words (0x04000000 + d.code * 1048576 + a.code * 16384 + b.code * 256 + q.val * 16 + w.code)
  | .andB t g d a b w => t.words (0x06000000 + g.code * 2097152 + d.code * 65536 + a.code * 1024 + b.code * 16 + w.code)
  | .orB t g d a b w => t.words (0x06000002 + g.code * 2097152 + d.code * 65536 + a.code * 1024 + b.code * 16 + w.code)
  | .xorB t g d a b w => t.words (0x06000004 + g.code * 2097152 + d.code * 65536 + a.code * 1024 + b.code * 16 + w.code)
  | .andn t g d a b w => t.words (0x06000006 + g.code * 2097152 + d.code * 65536 + a.code * 1024 + b.code * 16 + w.code)
  | .orn t g d a b w => t.words (0x06000008 + g.code * 2097152 + d.code * 65536 + a.code * 1024 + b.code * 16 + w.code)
  | .notB t g d a w => t.words (0x060003CA + g.code * 2097152 + d.code * 65536 + a.code * 1024 + w.code)
  | .shl t g d a b w => t.words (0x08000000 + g.code * 2097152 + d.code * 65536 + a.code * 1024 + b.code * 16 + w.code)
  | .shr t g d a b w => t.words (0x08000002 + g.code * 2097152 + d.code * 65536 + a.code * 1024 + b.code * 16 + w.code)
  | .sar t g d a b w => t.words (0x08000004 + g.code * 2097152 + d.code * 65536 + a.code * 1024 + b.code * 16 + w.code)
  | .rol t g d a b w => t.words (0x08000006 + g.code * 2097152 + d.code * 65536 + a.code * 1024 + b.code * 16 + w.code)
  | .ror t g d a b w => t.words (0x08000008 + g.code * 2097152 + d.code * 65536 + a.code * 1024 + b.code * 16 + w.code)
  | .popc t g d a w => t.words (0x0A0003C0 + g.code * 2097152 + d.code * 65536 + a.code * 1024 + w.code)
  | .clz t g d a w => t.words (0x0A0003C2 + g.code * 2097152 + d.code * 65536 + a.code * 1024 + w.code)
  | .ctz t g d a w => t.words (0x0A0003C4 + g.code * 2097152 + d.code * 65536 + a.code * 1024 + w.code)
  | .brev t g d a w => t.words (0x0A0003C6 + g.code * 2097152 + d.code * 65536 + a.code * 1024 + w.code)
  | .bfeN t g d a b w => t.words (0x0A000008 + g.code * 2097152 + d.code * 65536 + a.code * 1024 + b.code * 16 + w.code)
  | .bfeI t g d a b w => t.words (0x0A00000A + g.code * 2097152 + d.code * 65536 + a.code * 1024 + b.code * 16 + w.code)
  | .bfi t g d a b w => t.words (0x0A00000C + g.code * 2097152 + d.val * 65536 + a.code * 1024 + b.code * 16 + w.code)
  | .minI t g d a b w => t.words (0x0C000000 + g.code * 2097152 + d.code * 65536 + a.code * 1024 + b.code * 16 + w.code)
  | .minN t g d a b w => t.words (0x0C000002 + g.code * 2097152 + d.code * 65536 + a.code * 1024 + b.code * 16 + w.code)
  | .maxI t g d a b w => t.words (0x0C000004 + g.code * 2097152 + d.code * 65536 + a.code * 1024 + b.code * 16 + w.code)
  | .maxN t g d a b w => t.words (0x0C000006 + g.code * 2097152 + d.code * 65536 + a.code * 1024 + b.code * 16 + w.code)
  | .absI t g d a w => t.words (0x0C0003C8 + g.code * 2097152 + d.code * 65536 + a.code * 1024 + w.code)
  | .negI t g d a w => t.words (0x0C0003CA + g.code * 2097152 + d.code * 65536 + a.code * 1024 + w.code)
  | .sel t g d a b w => t.words (0x0C00000C + g.code * 2097152 + d.code * 65536 + a.code * 1024 + b.code * 16 + w.code)
  | .mov t g d a w => t.words (0x0E0003C0 + g.code * 2097152 + d.code * 65536 + a.code * 1024 + w.code)
  | .movs t g d a w => t.words (0x0E0003C2 + g.code * 2097152 + d.val * 65536 + a.code * 1024 + w.code)
  | .lea t g d a b w => t.words (0x0E000004 + g.code * 2097152 + d.code * 65536 + a.code * 1024 + b.code * 16 + w.code)
  | .icmp32 t g pd a b n => t.words (0x10000000 + g.code * 2097152 + pd.code * 65536 + a.code * 1024 + b.code * 16 + n.code)
  | .icmp64 t g pd a b n => t.words (0x12000000 + g.code * 2097152 + pd.code * 65536 + a.code * 1024 + b.code * 16 + n.code)
  | .pand c g pd a b => [0x14000000 + bitCode c * 2147483648 + g.code * 2097152 + pd.code * 65536 + a.val * 1024 + b.val * 16]
  | .por c g pd a b => [0x14000001 + bitCode c * 2147483648 + g.code * 2097152 + pd.code * 65536 + a.val * 1024 + b.val * 16]
  | .pxor c g pd a b => [0x14000002 + bitCode c * 2147483648 + g.code * 2097152 + pd.code * 65536 + a.val * 1024 + b.val * 16]
  | .pnot c g pd a => [0x14000003 + bitCode c * 2147483648 + g.code * 2097152 + pd.code * 65536 + a.val * 1024]
  | .pmov c g pd a => [0x14000004 + bitCode c * 2147483648 + g.code * 2097152 + pd.code * 65536 + a.val * 1024]
  | .censusNz t g d a => t.words (0x160003C0 + g.code * 2097152 + d.code * 65536 + a.code * 1024)
  | .censusLsb t g d a => t.words (0x160003C2 + g.code * 2097152 + d.code * 65536 + a.code * 1024)
  | .censusSgn t g d a => t.words (0x160003C4 + g.code * 2097152 + d.code * 65536 + a.code * 1024)
  | .routeFrom t g d a b w => t.words (0x18000000 + g.code * 2097152 + d.code * 65536 + a.code * 1024 + b.code * 16 + w.code)
  | .routeRot t g d a b w => t.words (0x18000002 + g.code * 2097152 + d.code * 65536 + a.code * 1024 + b.code * 16 + w.code)
  | .routeShift t g d a b w => t.words (0x18000004 + g.code * 2097152 + d.code * 65536 + a.code * 1024 + b.code * 16 + w.code)
  | .routeFlip t g d a b w => t.words (0x18000006 + g.code * 2097152 + d.code * 65536 + a.code * 1024 + b.code * 16 + w.code)
  | .peers t g d a w => t.words (0x180003C8 + g.code * 2097152 + d.code * 65536 + a.code * 1024 + w.code)
  | .fadd t g d a b r w => t.words (0x20000000 + g.code * 2097152 + d.code * 65536 + a.code * 1024 + b.code * 16 + r.code * 2 + w.code)
  | .fsub t d a b r w => t.words (0x21A00000 + d.code * 65536 + a.code * 1024 + b.code * 16 + r.code * 2 + w.code)
  | .fmul t g d a b r w => t.words (0x22000000 + g.code * 2097152 + d.code * 65536 + a.code * 1024 + b.code * 16 + r.code * 2 + w.code)
  | .ffma t d a b q r w => t.words (0x24000000 + d.code * 1048576 + a.code * 16384 + b.code * 256 + q.val * 16 + r.code * 2 + w.code)
  | .ffms t d a b q r w => t.words (0x26000000 + d.code * 1048576 + a.code * 16384 + b.code * 256 + q.val * 16 + r.code * 2 + w.code)
  | .fnma t d a b q r w => t.words (0x28000000 + d.code * 1048576 + a.code * 16384 + b.code * 256 + q.val * 16 + r.code * 2 + w.code)
  | .fmin t g d a b w => t.words (0x2A000000 + g.code * 2097152 + d.code * 65536 + a.code * 1024 + b.code * 16 + w.code)
  | .fmax t g d a b w => t.words (0x2A000002 + g.code * 2097152 + d.code * 65536 + a.code * 1024 + b.code * 16 + w.code)
  | .fminNum t g d a b w => t.words (0x2A000004 + g.code * 2097152 + d.code * 65536 + a.code * 1024 + b.code * 16 + w.code)
  | .fmaxNum t g d a b w => t.words (0x2A000006 + g.code * 2097152 + d.code * 65536 + a.code * 1024 + b.code * 16 + w.code)
  | .fcmp t g pd a b n w => t.words (0x2C000000 + g.code * 2097152 + pd.code * 65536 + a.code * 1024 + b.code * 16 + n.code * 2 + w.code)
  | .fcvt t g d a f r u => t.words (0x2E000000 + g.code * 2097152 + d.code * 65536 + a.code * 1024 + f.val * 16 + r.code * 2 + bitCode u)
  | .fclass t g d a w => t.words (0x300003C0 + g.code * 2097152 + d.code * 65536 + a.code * 1024 + w.code)
  | .ffrexp t g d a w => t.words (0x300003C2 + g.code * 2097152 + d.val * 65536 + a.code * 1024 + w.code)
  | .fabs t g d a w => t.words (0x300003C4 + g.code * 2097152 + d.code * 65536 + a.code * 1024 + w.code)
  | .fneg t g d a w => t.words (0x300003C6 + g.code * 2097152 + d.code * 65536 + a.code * 1024 + w.code)
  | .fcpysgn t g d a b w => t.words (0x30000008 + g.code * 2097152 + d.code * 65536 + a.code * 1024 + b.code * 16 + w.code)
  | .fscale t d a b r w => t.words (0x31A00000 + d.code * 65536 + a.code * 1024 + b.code * 16 + r.code * 2 + w.code)
  | .fdiv t l d a b r w => t.words (0x32000000 + l.val * 2097152 + d.code * 65536 + a.code * 1024 + b.code * 16 + r.code * 2 + w.code)
  | .fsqrt t l d a r w => t.words (0x34000000 + l.val * 2097152 + d.code * 65536 + a.code * 1024 + r.code * 2 + w.code)
  | .frcp t l d a r w => t.words (0x34000010 + l.val * 2097152 + d.code * 65536 + a.code * 1024 + r.code * 2 + w.code)
  | .frsq t l d a r w => t.words (0x34000020 + l.val * 2097152 + d.code * 65536 + a.code * 1024 + r.code * 2 + w.code)
  | .fexp2 t l d a w => t.words (0x36000000 + l.val * 2097152 + d.code * 65536 + a.code * 1024 + w.code)
  | .flog2 t l d a w => t.words (0x36000010 + l.val * 2097152 + d.code * 65536 + a.code * 1024 + w.code)
  | .fsin t l d a w => t.words (0x36000020 + l.val * 2097152 + d.code * 65536 + a.code * 1024 + w.code)
  | .fcos t l d a w => t.words (0x36000030 + l.val * 2097152 + d.code * 65536 + a.code * 1024 + w.code)
  | .ftanh t l d a w => t.words (0x36000040 + l.val * 2097152 + d.code * 65536 + a.code * 1024 + w.code)
  | .pkadd16 t g d a b r h => t.words (0x40000000 + g.code * 2097152 + d.code * 65536 + a.code * 1024 + b.code * 16 + r.code * 2 + h.code)
  | .pkmul16 t d a b r h => t.words (0x41A00000 + d.code * 65536 + a.code * 1024 + b.code * 16 + r.code * 2 + h.code)
  | .pkfma16 t d a b r h => t.words (0x41C00000 + d.val * 65536 + a.code * 1024 + b.code * 16 + r.code * 2 + h.code)
  | .pkfna16 t d a b r h => t.words (0x41E00000 + d.val * 65536 + a.code * 1024 + b.code * 16 + r.code * 2 + h.code)
  | .cvtn t g d a f r u => t.words (0x42000000 + g.code * 2097152 + d.code * 65536 + a.code * 1024 + f.val * 16 + r.code * 2 + bitCode u)
  | .dot4I8 t g d a b => t.words (0x44000000 + g.code * 2097152 + d.val * 65536 + a.code * 1024 + b.code * 16)
  | .dot4N8 t g d a b => t.words (0x44000002 + g.code * 2097152 + d.val * 65536 + a.code * 1024 + b.code * 16)
  | .dot8E4m3 t g d a b => t.words (0x44000004 + g.code * 2097152 + d.val * 65536 + a.code * 1024 + b.code * 16)
  | .dot8E5m2 t g d a b => t.words (0x44000006 + g.code * 2097152 + d.val * 65536 + a.code * 1024 + b.code * 16)
  | .sclx t g d a b j => t.words (0x46000000 + g.code * 2097152 + d.code * 65536 + a.code * 1024 + b.code * 16 + j.val)
  | .scls t g d a b j => t.words (0x46000004 + g.code * 2097152 + d.code * 65536 + a.code * 1024 + b.code * 16 + j.val)
  | .pkaddF32 t g d a b r => t.words (0x48000000 + g.code * 2097152 + d.code * 65536 + a.code * 1024 + b.code * 16 + r.code * 2)
  | .pkmulF32 t d a b r => t.words (0x49A00000 + d.code * 65536 + a.code * 1024 + b.code * 16 + r.code * 2)
  | .pkfmaF32 t d a b r => t.words (0x49C00000 + d.val * 65536 + a.code * 1024 + b.code * 16 + r.code * 2)
  | .pkfnaF32 t d a b r => t.words (0x49E00000 + d.val * 65536 + a.code * 1024 + b.code * 16 + r.code * 2)
  | .mmad c l d a b r => [0x50000000 + bitCode c * 2147483648 + l.val * 2097152 + d.val * 65536 + a.val * 1024 + b.val * 16 + r.code * 2]
  | .mmaF32 c l d a b r => [0x52000000 + bitCode c * 2147483648 + l.val * 2097152 + d.val * 65536 + a.val * 1024 + b.val * 16 + r.code]
  | .mmaBf16 c l d a b => [0x52000006 + bitCode c * 2147483648 + l.val * 2097152 + d.val * 65536 + a.val * 1024 + b.val * 16]
  | .mmaF16 c l d a b => [0x52000007 + bitCode c * 2147483648 + l.val * 2097152 + d.val * 65536 + a.val * 1024 + b.val * 16]
  | .mmaq c l d a b fa fb => [0x54000000 + bitCode c * 2147483648 + l.val * 2097152 + d.val * 65536 + a.val * 1024 + b.val * 16 + fa.code * 4 + fb.code]
  | .mmas l d a b fb mc sa sb ja jb => [0xD6000000 + l.val * 2097152 + d.val * 65536 + a.val * 1024 + b.val * 16 + fb.code * 4, 0x7E000000 + bitCode mc * 2147483648 + sa.val * 524288 + sb.val * 8192 + ja.val * 2048 + jb.val * 512]
  | .mmat t l d a h f => t.words (0x58000000 + l.val * 2097152 + d.val * 65536 + a.val * 1024 + h.code * 16 + f.code)
  | .mmaj c l d a b f => [0x5A000000 + bitCode c * 2147483648 + l.val * 2097152 + d.val * 65536 + a.val * 1024 + b.val * 16 + f.code]
  | .tfact c l d a k => [0x5C0003C0 + bitCode c * 2147483648 + l.val * 2097152 + d.val * 65536 + a.val * 1024 + k.code]
  | .tsolv c l d a b k => [0x5C000004 + bitCode c * 2147483648 + l.val * 2097152 + d.val * 65536 + a.val * 1024 + b.val * 16 + k.code]
  | .tref l d a b k mc pd => [0xDC000008 + l.val * 2097152 + d.val * 65536 + a.val * 1024 + b.val * 16 + k.code, 0x7E000000 + bitCode mc * 2147483648 + pd.val * 2097152]
  | .ld g l x a o mc ty => [0xE0000000 + g.code * 2097152 + l.val * 131072 + x.code * 2048 + a.code * 32 + o.toNat, 0x7E000000 + bitCode mc * 2147483648 + ty.code * 65536 + 112]
  | .st g x a o mc ty => [0xE2000000 + g.code * 2097152 + x.code * 2048 + a.code * 32 + o.toNat, 0x7E000000 + bitCode mc * 2147483648 + ty.code * 65536 + 112]
  | .ldl g l x a o mc ty => [0xE4000000 + g.code * 2097152 + l.val * 131072 + x.code * 2048 + a.code * 32 + o.toNat, 0x7E000000 + bitCode mc * 2147483648 + ty.code * 65536 + 112]
  | .stl g x a o mc ty => [0xE4000000 + g.code * 2097152 + x.code * 2048 + a.code * 32 + o.toNat, 0x7E000000 + bitCode mc * 2147483648 + 1048576 + ty.code * 65536 + 112]
  | .ldc g l x a o mc ty => [0xE6000000 + g.code * 2097152 + l.val * 131072 + x.code * 2048 + a.code * 32 + o.toNat, 0x7E000000 + bitCode mc * 2147483648 + ty.code * 65536 + 112]
  | .atom g l x a o mc op ty sc xd => [0xE8000000 + g.code * 2097152 + l.val * 131072 + x.code * 2048 + a.code * 32 + o.toNat, 0x7E000000 + bitCode mc * 2147483648 + op.code * 1048576 + ty.code * 65536 + sc.code * 8192 + xd.code * 4]
  | .red g x a o mc op ty sc => [0xEA000000 + g.code * 2097152 + x.code * 2048 + a.code * 32 + o.toNat, 0x7E000000 + bitCode mc * 2147483648 + op.code * 1048576 + ty.code * 65536 + sc.code * 8192 + 112]
  | .acas g l x a o mc ty sc x2 xd => [0xEC000000 + g.code * 2097152 + l.val * 131072 + x.code * 2048 + a.code * 32 + o.toNat, 0x7E000000 + bitCode mc * 2147483648 + ty.code * 65536 + sc.code * 8192 + x2.code * 128 + xd.code * 4]
  | .axch g l x a o mc ty sc xd => [0xEC000000 + g.code * 2097152 + l.val * 131072 + x.code * 2048 + a.code * 32 + o.toNat, 0x7E000000 + bitCode mc * 2147483648 + 1048576 + ty.code * 65536 + sc.code * 8192 + xd.code * 4]
  | .fence c s p e => [0x6E000000 + bitCode c * 2147483648 + s.code * 256 + p.code * 64 + e.code]
  | .fenceS c s p e => [0x6E001000 + bitCode c * 2147483648 + s.code * 256 + p.code * 64 + e.code]
  | .waitm c g l a n w => [0x6E002000 + bitCode c * 2147483648 + g.code * 2097152 + l.val * 131072 + a.val * 64 + n.code * 8 + w.code * 4]
  | .cctlInv c g a => [0x6E003000 + bitCode c * 2147483648 + g.code * 2097152 + a.code * 64]
  | .cctlInvall c => [0x6E003F01 + bitCode c * 2147483648]
  | .cctlWb c g a => [0x6E003002 + bitCode c * 2147483648 + g.code * 2097152 + a.code * 64]
  | .pref c g a v => [0x6E004000 + bitCode c * 2147483648 + g.code * 2097152 + a.code * 64 + bitCode v]
  | .copy t g a b => t.words (0x70000000 + g.code * 2097152 + a.code * 64 + b.code)
  | .copyr t g a b => t.words (0x70001000 + g.code * 2097152 + a.code * 64 + b.code)
  | .batch c l => [0x72000F3C + bitCode c * 2147483648 + l.val * 131072]
  | .waitb t l a => t.words (0x7200103C + l.val * 131072 + a.code * 64)
  | .qfence c m => [0x72002F00 + bitCode c * 2147483648 + m.val]
  | .tile t g l a b => t.words (0x72003000 + g.code * 2097152 + l.val * 131072 + a.val * 64 + b.code)
  | .barInit t a k => t.words (0x74000000 + a.code * 64 + k.val)
  | .barArrive c k => [0x74001F00 + bitCode c * 2147483648 + k.val]
  | .barWait c l k => [0x74002F00 + bitCode c * 2147483648 + l.val * 131072 + k.val]
  | .barTest c l k => [0x74003F00 + bitCode c * 2147483648 + l.val * 131072 + k.val]
  | .qstat c l s => [0x74004F00 + bitCode c * 2147483648 + l.val * 131072 + s.code]
  | .coll t g a b => t.words (0x76000000 + g.code * 2097152 + a.code * 64 + b.code)
  | .ifW c g o => [0x78000000 + bitCode c * 2147483648 + g.code * 65536 + o.toNat]
  | .elseW c o => [0x78100000 + bitCode c * 2147483648 + o.toNat]
  | .endif c => [0x78200000 + bitCode c * 2147483648]
  | .loopW c g o => [0x78300000 + bitCode c * 2147483648 + g.code * 65536 + o.toNat]
  | .endloop c g => [0x78400000 + bitCode c * 2147483648 + g.code * 65536]
  | .brk c g => [0x78500000 + bitCode c * 2147483648 + g.code * 65536]
  | .cont c g => [0x78600000 + bitCode c * 2147483648 + g.code * 65536]
  | .jmp c g o => [0x78700000 + bitCode c * 2147483648 + g.code * 65536 + o.toNat]
  | .call c g o => [0x78800000 + bitCode c * 2147483648 + g.code * 65536 + o.toNat]
  | .ret c g => [0x78900000 + bitCode c * 2147483648 + g.code * 65536]
  | .exit c g => [0x78A00000 + bitCode c * 2147483648 + g.code * 65536]
  | .nop c => [0x78B00000 + bitCode c * 2147483648]
  | .launch t g l a b => t.words (0x7A000000 + g.code * 2097152 + l.val * 131072 + a.code * 64 + b.code)
  | .waitchild t l a => t.words (0x7A00103C + l.val * 131072 + a.code * 64)
  | .spawn t g a b => t.words (0x7A002000 + g.code * 2097152 + a.code * 64 + b.code)
  | .yieldW t g a b => t.words (0x7A003000 + g.code * 2097152 + a.code * 64 + b.code)
  | .task t b => t.words (0x7A004F00 + b.code)
  | .commit c => [0x7A005F3C + bitCode c * 2147483648]
  | .regs t n b => t.words (0x7A006000 + n.val * 64 + b.code)
  | .endregs c => [0x7A007F3C + bitCode c * 2147483648]
  | .grow t n b => t.words (0x7A008000 + n.val * 64 + b.code)
  | .shrink c n => [0x7A00903C + bitCode c * 2147483648 + n.val * 64]
  | .trap t g n b => t.words (0x7A00A000 + g.code * 2097152 + n.val * 64 + b.code)
  | .rtt c => [0x7A00BF3C + bitCode c * 2147483648]
  | .getsr c g l n => [0x7A00C03C + bitCode c * 2147483648 + g.code * 2097152 + l.val * 131072 + n.val * 64]
  | .setsr t g n b => t.words (0x7A00D000 + g.code * 2097152 + n.val * 64 + b.code)
  | .waitpred c => [0x7A00EF3C + bitCode c * 2147483648]
  | .sigsucc c => [0x7A00FF3C + bitCode c * 2147483648]
  | .traceW t g n b => t.words (0x7A010000 + g.code * 2097152 + n.val * 64 + b.code)
  | .pathb t a b => t.words (0x7C000000 + a.code * 64 + b.code)
  | .segl c g a => [0x7C00103C + bitCode c * 2147483648 + g.code * 2097152 + a.val * 64]
  | .segq c g a => [0x7C00203C + bitCode c * 2147483648 + g.code * 2097152 + a.val * 64]
  | .segc c g a => [0x7C00303C + bitCode c * 2147483648 + g.code * 2097152 + a.val * 64]
  | .pathe t a b => t.words (0x7C004000 + a.code * 64 + b.code)
  | .covrd t g l a b => t.words (0x7C005000 + g.code * 2097152 + l.val * 131072 + a.code * 64 + b.code)
  | .issueCycle _ => []
  | .resultDelivery _ => []
  | .gwctReturn _ => []
  | .fenceComplete _ => []
  | .fenceSValidation _ => []
  | .regionCommit _ => []
  | .effectRelease _ => []
  | .trayTimerExpiry _ => []
  | .seamWaitTimeout _ => []
  | .barrierArrivalCount _ => []
  | .copyDispatch _ => []
  | .copyComplete _ => []
  | .operandFetchComplete _ _ => []
  | .enginePassGrant _ => []
  | .arbiterPromotion _ => []
  | .matrixDelivery _ _ => []
  | .mmajGatherTimeout _ _ => []
  | .fmtemuComplete _ => []
  | .collComplete _ => []
  | .collMemberTimeout _ _ => []
  | .pathOperation _ => []
  | .waitmReread _ => []
  | .starvationLimit _ => []
  | .watchedWaitExpiry _ => []
  | .groupRestore _ => []
  | .launchAccept _ => []
  | .teamAdmission _ => []
  | .gridComplete _ => []
  | .rd _ _ _ _ _ => []
  | .wr _ _ _ _ _ _ => []
  | .writePerformed _ _ => []
  | .subGranuleMerge _ _ => []
  | .readServiceComplete _ _ => []
  | .rdata _ _ => []
  | .wack _ _ => []
  | .writeBufferDrain _ => []
  | .crustWriteback _ => []
  | .rowRemapComplete _ _ _ => []
  | .patrolScrub _ => []
  | .bplAdd _ => []
  | .bplRemove _ => []
  | .bplCommandComplete => []
  | .walkComplete _ _ _ _ => []
  | .vminvRange => []
  | .vminvContext => []
  | .vminvAll => []
  | .vminvRefuseRange => []
  | .invalidationComplete => []
  | .sideLogReplay _ => []
  | .epochEnd _ => []
  | .pageExpansion _ _ _ => []
  | .hqDoorbell _ _ => []
  | .hqbaseWrite _ _ => []
  | .hqctxWrite _ _ => []
  | .hqctlWrite _ _ => []
  | .hqLaunch _ => []
  | .hqRelease _ => []
  | .hqAcquire _ => []
  | .hqJoin _ => []
  | .plctlWrite _ => []
  | .teardown => []
  | .preempt _ => []
  | .resume _ => []
  | .contextSaveComplete _ => []
  | .traceRingWrite _ => []
  | .traceSyncTimer _ => []
  | .loss _ => []
  | .trctlWrite _ _ => []
  | .residueMismatch _ => []
  | .parityError _ => []
  | .strikeReport _ => []
  | .sliceCricketReport _ => []
  | .l1Uncorrectable _ _ => []
  | .proxyPlacementTimeout _ => []
  | .proxyTransferComplete _ => []
  | .proxyResume _ => []
  | .scoreDecay => []
  | .unitTestComplete _ _ _ => []
  | .cnscntWrite _ => []
  | .hostBar2Read _ _ => []
  | .hostBar2Write _ _ => []
  | .hostCompletionTimeout _ => []
  | .peerInboundRequest _ => []
  | .peerReplyTimeout _ => []
  | .peerRetry _ => []
  | .peerStoreDrop _ => []
  | .peerPortDown _ => []
  | .peerPortUp _ => []
  | .packageReset => []
  | .bootStageComplete => []
  | .bootStageTimeout => []
  | .mbAttest => []
  | .mbImageWrite => []
  | .mbSlotActivate => []
  | .mbCertRead => []
  | .mbRestart => []
  | .mailboxComplete => []
  | .powerControl _ _ _ => []
  | .pwrctlWrite _ => []
  | .thermalTrip => []
  | .registerWrite _ _ => []
  | .l2SliceRequest _ => []
  | .memberContribution _ _ _ => []
  | .powerLoss => []

/-- The instruction at the head of a list of words, and how many words it takes. -/
def decodeWords : List Nat → Except Reject (Instr × Nat)
  | [] => .error .missingLiteral
  | w :: ws =>
    match decodeInstr w ws.head? with
    | .error e => .error e
    | .ok i => .ok (i, (encode i).length)

/-- The chain goes on after the instruction's last word (R198). -/
def Instr.chains (i : Instr) : Bool :=
  match (encode i).getLast? with
  | some w => fld w 31 1 == 1
  | none => false

/-- The low `n` bits of a number, lowest first, as bytes in memory order (R7). -/
def leBytes : Nat → Nat → List Byte
  | 0, _ => []
  | n + 1, x => BitVec.ofNat 8 (x % 256) :: leBytes n (x / 256)

/-- The number that bytes in memory order hold (R7). -/
def leNat : List Byte → Nat
  | [] => 0
  | b :: bs => b.toNat + 256 * leNat bs

/-- The instruction that the decoder reads from the table's bits: the first word, and zeros above it. -/
def decodeTableWord (nbits w : Nat) : Option Instr :=
  let x := w % 2 ^ nbits
  match decodeInstr (leNat (leBytes 4 (x % 2 ^ 32))) (some (x / 2 ^ 32 % 2 ^ 32)) with
  | .ok i => some i
  | .error _ => none

end Sys2Proof
end

