-- ==== Sys2Proof/Config.lean ====
section
/-! DEFINITION. The values that the spec leaves open, as opaque constants that no proof can see (notes/assumptions/1),
and the part's fixed counts (spec/00 R1). -/

namespace Sys2Proof.Config

/-- Which of the results within the bound a special function returns: operation number and operand bits give a choice
(R174, R175; LOG 1). -/
opaque transcendental : Nat → W64 → Nat

/-- What an overlapping copy reads: the old or the new source byte (R132; LOG 1). -/
opaque overlapNew : Nat → Bool

/-- The order in which a collective adds its members' elements (R175, R342; LOG 1). -/
opaque collOrder : Nat → Nat

/-- The error-correction syndrome that a fault record reports (R39; LOG 1). -/
opaque syndrome : Nat → BitVec 24

/-- Whether a page of these bytes compresses, and into how many 4 KiB chunks (R66; LOG 10). -/
opaque compressedChunks : List Byte → Nat

/-- Whether an image's signature verifies (R483; LOG 11). -/
opaque signatureOk : List Byte → Bool

/-- The SHAKE256 digest of bytes, 64 bytes as a number (R483, R486; LOG 11). -/
opaque shake : List Byte → BitVec 512

/-- The alias key's Ed448 signature over a digest, 114 bytes (R485, R486; LOG 11). -/
opaque signature : List Byte → BitVec 912

/-- The certificate chain held in flash (R484; LOG 11). -/
opaque certificates : Nat → Byte

/-- The number of bytes of the certificate chain (R484; LOG 11). -/
opaque certificateBytes : Nat

/-- An MMAT on an INT4 tile, whose shape the spec does not state: element `n` of D's lanes from A's lanes, C's lanes and the
tile's bytes (R156, R270; LOG 1). -/
opaque int4Product : List W64 → List W64 → List Byte → Nat → W64

/-- The flags of that MMAT (LOG 1). -/
opaque int4Flags : List W64 → List W64 → List Byte → BitVec 5

/-- The pivot row of a column with a NaN, which has no greatest magnitude: from the column and the step (R276; LOG 1). -/
opaque nanPivot : List Nat → Nat → Nat

/-- The greatest magnitude of a residual with a NaN (R278; LOG 1). -/
opaque nanResidual : List Nat → W64

/-- The low bits of a time that a trace packet cannot hold (R444; LOG 1). -/
opaque freeWord : Nat → W64

/-- The hash that spreads requests to a peer over ports (R475; LOG 9). -/
opaque portHash : Nat → Nat

/-- Whether errors in a crust way have come to the point where the base die retires it (R24; LOG 1). -/
opaque wayRetires : Nat → Bool

/-- Bytes of a firmware image's header (R483; LOG 11). -/
opaque imageHeaderBytes : Nat

/-- Bytes of a whole image, by its header (R483; LOG 11). -/
opaque imageBytes : List Byte → Nat

/-- The security version that an image's header holds (R483; LOG 11). -/
opaque imageSvn : List Byte → Nat

/-- The PMU image and the control-core image that a flash slot holds (R481, R486; LOG 11). -/
opaque imagePart : Bool → List Byte → List Byte

/-- The unit health list as the digest of a report sees it: kind, index, state and spares of each unit (R464, R486; LOG 11). -/
opaque healthImage : List (Nat × Nat × Nat) → List Byte

/-- Compute dies. -/
def dies : Nat := 4

/-- Cores. -/
def cores : Nat := 384

/-- Blocks of a core's register file (R176). -/
def coreBlocks : Nat := 1536

/-- Bytes of a core's scratchpad (R87). -/
def scratchBytes : Nat := 262144

/-- Bytes of main memory (R18). -/
def memBytes : Nat := 0xC000000000

/-- The strike window in cycles (R1). -/
def strikeWindow : Nat := 384

end Sys2Proof.Config
end

