-- ==== Sys2Proof/Machine/State.lean ====
section
/-! DEFINITION. Everything the spec gives the machine, as plain data, and the state after reset. Each field's docstring
names the rule that gives it; INVENTORY.md lists them all with their reset values. -/

namespace Sys2Proof.Machine

/-- A packet index and a word slot (R199, R390). -/
structure Pc where
  packet : Nat
  slot : Nat
  deriving DecidableEq, Repr

/-- An entry of a mask stack (R374). -/
structure MaskEntry where
  loop : Bool
  o : Mask
  e : Mask
  ct : Mask
  elsePhase : Bool
  t : Nat
  h : Nat
  x : Option Nat
  deriving DecidableEq, Repr

/-- An entry of a return stack (R374). -/
structure RetEntry where
  packet : Nat
  depth : Nat
  deriving DecidableEq, Repr

/-- A division record: its number, the depth of the divided entry, the merge word, whether this split was made by it,
the lanes it took, and the return-stack depth at the division (R380, R381). -/
structure Division where
  id : Nat
  depth : Nat
  merge : Nat
  fresh : Bool
  taken : Mask
  rets : Nat
  deriving DecidableEq, Repr

/-- The word that slot 0 of a target must hold when a transfer arrives there (R377). -/
inductive Arrival where
  | elseOrEndif
  | endif
  | endloop
  deriving DecidableEq, Repr

/-- The blocking waits, by the code of XINFO.WAIT (R360, R362). -/
inductive WaitKind where
  | waitm
  | barWait
  | waitb
  | waitpred
  | waitchild
  | kqueue (pop : Bool) (q : Nat)
  | mmaj
  deriving DecidableEq, Repr

/-- Why a unit is held before issue (R58, R360). -/
inductive Hold where
  /-- A use beyond its window waits for a pending result (R209). -/
  | operand
  /-- A blocking wait (R360). -/
  | wait (k : WaitKind)
  /-- A faulting access or fetch waits for its page (R58): context, waiting lanes with their addresses, kind. -/
  | fault (ctx : Nat) (lanes : List (Nat × Nat)) (acc : AccessKind)
  /-- A fence's conditions, with its sets and scope (R104). -/
  | fence (p s : Sets) (scope : Scope)
  /-- A split at its merge word (R371). -/
  | merge
  /-- REGS or GROW waits for blocks (R185, R187). -/
  | blocks (n : Nat) (grow : Bool)
  /-- COMMIT's or a seam's conditions (R404). -/
  | commit
  /-- No buffer entry or hold is free and the group owns none (R84). -/
  | budget
  /-- A queue, table or log is full (R126, R264, R296, R342, R401, R328, R59). -/
  | full
  /-- A word of a load or pop waits for an outside reply or an earlier log entry (R59). -/
  | order
  /-- The control core performs the word (R156). -/
  | emulation
  deriving DecidableEq, Repr

/-- One control path of a group (R368, R374). `got` holds the values that satisfied a WAITM, and
`watch`, by lane that still waits, the DTIME of its next read and the device sector that it reads, one more than its number, or 0 for
host and peer memory (R320), `logMark` the number that
the core's side log had reached when a load that waits for its page first issued (R59), `queue` the cycles from which its
last results of fixed latency can be read by age, newest first, and `ready` the cycle from which its next word may issue
(R181, R218). -/
structure Split where
  id : Nat
  pc : Pc
  lanes : Mask
  m : Mask
  stack : List MaskEntry
  rets : List RetEntry
  divs : List Division
  arrive : Option Arrival
  hold : Option Hold
  waitStart : Option Nat
  waitTarget : Option (Nat × Nat)
  reread : Nat
  got : NMap W64
  watch : NMap (Nat × Nat)
  logMark : Option Nat
  queue : List Nat
  ready : Nat
  lastIssue : Nat
  deriving DecidableEq, Repr

/-- A trap that a delivery takes (R314, R272, R169). -/
structure DelivTrap where
  cause : Nat
  mask : Mask
  addr : W64
  info : W64
  deriving DecidableEq, Repr

/-- What a pending result waits for: a cycle, an engine's entry, or an outside reply (R208). -/
inductive PendOn where
  | cycle (n : Nat)
  | engine (n : Nat)
  | reply (n : Nat)
  deriving DecidableEq, Repr

/-- A long-latency result that has issued (R179, R208, R209). `rooms` gives, per split, the words its window still covers;
`lanes` are those of the issuing split, and `ages` gives, per such lane, the place of its last entry in the result queue. -/
structure Pending where
  on : PendOn
  prod : Pc
  rooms : List (Nat × Nat)
  lanes : Mask
  ages : List Nat
  act : Mask
  regs : List Nat
  nq : Nat
  vals : List LaneReg
  kq : Option (Nat × Nat)
  pred : Option (Nat × Bool)
  flags : BitVec 5
  flagLanes : Mask
  trap : Option DelivTrap
  stamp : Nat
  deriving DecidableEq, Repr

/-- Whether a region reopens: never, after the word in hand has acted outside (R189, R458), or before the next word, once
no result is pending (R84). -/
inductive Reopen where
  | no
  | after
  | now
  deriving DecidableEq, Repr

/-- The trap slot of a group in handler mode (R436, R438). -/
structure TrapSlot where
  split : Nat
  m : Mask
  stack : List MaskEntry
  rets : List RetEntry
  rq : Vector LaneReg 16
  rp : Pc
  xpcWritten : Bool
  reopen : Reopen
  deriving DecidableEq, Repr

/-- A trap as its rule gives it (R434, R436): cause, whether the word has issued, lanes (none: the active lanes of the
issuing split), XADDR and XINFO. -/
structure Trap where
  cause : Nat
  issued : Bool
  mask : Option Mask
  addr : W64
  info : W64
  deriving DecidableEq, Repr

/-- A trap that waits until the group's pending results are delivered (R436): its split, whether its word itself raised it
or a delivery did, XPC, RP, and whether the region reopens at RP. -/
structure WaitTrap where
  split : Nat
  word : Bool
  trap : Trap
  xpc : Pc
  rp : Pc
  reopen : Bool
  deriving DecidableEq, Repr

/-- Path states (R289); `leaving` stands for the time until the records of a spawn-mode PATHE have left. -/
inductive PathState where
  | none
  | opened
  | closed
  | leaving
  deriving DecidableEq, Repr

/-- A group's path: its state, origin, size and accumulators of 40 bits in row order (R281, R289). -/
structure Path where
  st : PathState
  ox : Int
  oy : Int
  w : Nat
  h : Nat
  acc : List (BitVec 40)
  deriving DecidableEq, Repr

/-- One closed or open batch: its number, copies still running, its status, and whether a copy joined it (R137, R330,
R340). -/
structure Batch where
  num : Nat
  open? : Nat
  status : BitVec 16
  any : Bool
  deriving DecidableEq, Repr

/-- A group's batch state (R137, R330). -/
structure Batches where
  last : Nat
  cur : Batch
  closed : List Batch
  aged : BitVec 16
  deriving DecidableEq, Repr

/-- What a sector request of a store or reduction carries: bytes under a mask, or lanes' operands at offsets, in lane
order (R59, R82, R109). -/
inductive StoreKind where
  | store (data : Sector) (mask : Word32)
  | red (op : AOp) (ty : MemTy) (ops : List (Nat × W64))
  deriving DecidableEq, Repr

/-- A region's buffer entry or recorded RED: one sector of global memory or of the scratchpad; `phys` is the target (0 the
device, 1 the host, 2 a peer), the peer and the sector that a store with a translation reaches (R82, R109). -/
structure BufEntry where
  scratch : Bool
  va : Nat
  phys : Option (Nat × Nat × Nat)
  kind : StoreKind
  deriving DecidableEq, Repr

/-- A held sector: space, address, data, poison, stamp and the lease end of its copy; `copy` marks one that a copy of the region
read, which the copy's bound counts (R83, R102, R106, R145). -/
structure HeldSector where
  scratch : Bool
  addr : Nat
  data : Sector
  poison : Bool
  stamp : Nat
  lease : Nat
  copy : Bool
  deriving DecidableEq, Repr

/-- A tile hold: team, handle, generation, bytes, sectors and status (R271). -/
structure TileHold where
  team : Nat
  handle : Nat
  gen : Nat
  bytes : List Byte
  pois : List Nat
  status : BitVec 16
  deriving DecidableEq, Repr

/-- The region's one returning atomic: per lane its address, the bytes read, and what it writes (R109). -/
structure RecAtomic where
  size : Nat
  lanes : List (Nat × Nat × W64 × Option W64)
  deriving DecidableEq, Repr

/-- A speculative load of a FENCE.S: physical sector, stamp and lease end (R106). -/
structure SpecLoad where
  pa : Nat
  stamp : Nat
  lease : Nat
  deriving DecidableEq, Repr


/-- Access classes a fence may name (R104). -/
inductive AccClass where
  | ld
  | st
  | atom
  deriving DecidableEq, Repr

/-- An outstanding access of a group: issuing split, class, the time it completes, whether host or peer, and the value
that raises HORIZON (R94, R103). -/
structure Outstanding where
  split : Nat
  cls : AccClass
  doneAt : Option Nat
  remote : Option Nat
  gwct : Nat
  deriving DecidableEq, Repr

/-- An unvalidated FENCE.S: its sets, its scope, the accesses it waits for and its speculative loads (R106). -/
structure FenceS where
  p : Sets
  s : Sets
  scope : Scope
  wait : List Outstanding
  loads : List SpecLoad
  deriving DecidableEq, Repr

/-- A continuation record: saved names, the issuing grid, and the cycle it entered its tray (R401, R427). -/
structure TrayRec where
  vals : List (Nat × W64)
  grid : Nat
  written : Nat
  deriving DecidableEq, Repr

/-- A copy command: its group, grids, team, core and words, its batch, whether its arrival waits for COMMIT, whether the
open region issued it, the scratchpad granules a region read for it, and the MMAT whose tile it fetches (R128, R129,
R136-R138, R145). -/
structure CopyCmd where
  id : Nat
  group : Nat
  grids : List Nat
  team : Nat
  ctx : Nat
  core : Nat
  cmd : W64
  desc : List W64
  ragged : Bool
  batch : Nat
  arriveHeld : Bool
  inRegion : Bool
  snap : List (Nat × Sector × Bool)
  cache : Option Nat
  deriving DecidableEq, Repr

/-- A device launch before acceptance: context, header, argument block, id, level, launching team, and the ids of the team's
earlier launches, latest first (R397, R419). -/
structure DevLaunch where
  ctx : Nat
  team : Nat
  grid : Nat
  level : Nat
  hdr : List W64
  hdrAddr : Nat
  args : W64
  id : Nat
  prev : List Nat
  deriving DecidableEq, Repr

/-- An effect that COMMIT or R111 releases. -/
inductive Effect where
  | launch (l : DevLaunch)
  | spawn (entry : Nat) (rs : List TrayRec)
  | pathSpawn (entry : Nat) (rs : List TrayRec)
  | signal
  | copy (c : CopyCmd)
  | arrive (k : Nat)
  | kpush (q : Nat) (id : Nat)
  | copyArrive (id : Nat)
  | exited (signalled : Bool)
  deriving DecidableEq, Repr

/-- The states of a region (R455). -/
inductive RegionPhase where
  | opened
  | buffering
  | replaying
  | seam
  | commitWait
  | rolledBack
  | failed
  deriving DecidableEq, Repr

/-- What a rollback restores (R91, R170, R192, R331, R384, R403). -/
structure Snapshot where
  pc : Pc
  m : Mask
  gone : Mask
  stack : List MaskEntry
  rets : List RetEntry
  live : BitVec 24
  v : Vector LaneReg 24
  rq : Vector LaneReg 16
  p : Vector Mask 12
  sreg : Vector W64 16
  fflags : BitVec 5
  scrmask : W64
  off : Mask
  batches : Batches
  trap : Option TrapSlot
  deriving DecidableEq, Repr

/-- What follows a region's commit: a seam's reopen (R84), the word after COMMIT (R404), the held word outside any region,
with or without a reopen after it (R189, R405, R458), or the group's exit (R382). -/
inductive AfterCommit where
  | seam
  | close
  | bare (reopen : Bool)
  | exit
  deriving DecidableEq, Repr

/-- An open task region (R455, R109, R106, R459). `reserved` is the sum of its copies' bounds on held sectors (R145). -/
structure Region where
  phase : RegionPhase
  after : AfterCommit
  start : Pc
  seamed : Bool
  snap : Snapshot
  fails : Nat
  cmpFails : Nat
  replays : Nat
  buf : List BufEntry
  holds : List HeldSector
  reserved : Nat
  tiles : List TileHold
  atomic : Option RecAtomic
  effects : List Effect
  fences : List FenceS
  noSpec : Bool
  atomicOut : Bool
  lastResult : Nat
  launchIds : List Nat
  launchNo : Nat
  waits : List (Nat × Nat)
  waitNo : Nat
  cause : Nat
  cluster : Nat
  deriving DecidableEq, Repr

/-- A group's registers (R177-R184). -/
structure Regs where
  scope : Option Nat
  ws : BitVec 24
  v : Vector LaneReg 24
  rq : Vector LaneReg 16
  p : Vector Mask 12
  sreg : Vector W64 16
  deriving DecidableEq, Repr

/-- A group's system registers that programs write (R389). -/
structure SysRegs where
  xpc : W64
  xmask : W64
  xcause : W64
  xaddr : W64
  xinfo : W64
  fflags : BitVec 5
  scrmask : W64
  horizon : Nat
  tracectl : W64
  inject : W64
  deriving DecidableEq, Repr

/-- What admission fixes for a group (R178, R349-R357, R389-R391, R412, R426). -/
structure GroupInfo where
  ctx : Nat
  priv : Bool
  grid : Nat
  trayGrids : List Nat
  team : Nat
  ix : Nat
  role : Nat
  roleSize : Nat
  level : Nat
  cls : Nat
  prio : Nat
  code : Nat
  handler : Option Nat
  fpen : BitVec 5
  accept : Bool
  pivotReg : Bool
  delta : W64
  dims : W64
  gdims : W64
  born : Nat
  tray : Bool
  deriving DecidableEq, Repr

/-- A word that the control core performs: the cycle at which it is done, zero once it is, its split and the word (R156). -/
structure Emulation where
  due : Nat
  split : Nat
  ins : Instr
  deriving DecidableEq, Repr

/-- A resident group (R348). `off` holds the lanes switched off under R91, `gone` the lanes that exited, `repeated` the word,
with its split and the split's last issue, whose residue check has failed once outside a region (R239). `emu` is the
word that the control core performs (R156). `ready` gives the cycles
from which registers (by number), s registers (from 32) and predicates (from 64) that words of fixed latency write can be read
(R218). `late` holds the
results that are delivered while their window is open, `traps` the traps that wait for deliveries, and `drain` says that a
halt has ended the windows of the results still pending (R209, R436). -/
structure Group where
  info : GroupInfo
  regs : Regs
  sys : SysRegs
  off : Mask
  gone : Mask
  splits : List Split
  nextDiv : Nat
  pend : List Pending
  late : List Pending
  traps : List WaitTrap
  drain : Bool
  trap : Option TrapSlot
  path : Path
  batches : Batches
  targets : Vector (Option Nat) 16
  region : Option Region
  out : List Outstanding
  mmaj : Nat
  signalled : Bool
  lastDelivery : Option Nat
  emu : Option Emulation
  proxyOf : Option Nat
  proxied : Bool
  halted : Bool
  traceOn : Bool
  lastSync : Nat
  lostTrace : Bool
  reopen : Reopen
  repeated : Option (Nat × Pc × Nat)
  ready : NMap Nat
  deriving DecidableEq, Repr

/-- A barrier of a team (R334). -/
structure Barrier where
  init : Bool
  exp : Nat
  cnt : Nat
  phase : Nat
  pst : BitVec 16
  last : BitVec 16
  deriving DecidableEq, Repr

/-- A k-queue entry: id, value, filled by its producer, visible to consumers, and the cycle it can be popped from
(R184, R237, R346). -/
structure KEntry where
  id : Nat
  val : LaneReg
  filled : Bool
  seen : Bool
  at? : Nat
  deriving DecidableEq, Repr

/-- A tile handle (R136). -/
structure Tile where
  bound : Bool
  cmd : W64
  desc : List W64
  gen : Nat
  deriving DecidableEq, Repr

/-- Error marks of granules that no access has found yet (R34, R35, R87; LOG 12). -/
inductive EccMark where
  | correctable
  | uncorrectable
  deriving DecidableEq, Repr

/-- A team's scratchpad allocation: bytes, init bit per word, busy commands per granule, poison per granule, and the errors of
its granules that no access has found yet (R87, R88). -/
structure Scratch where
  size : Nat
  bytes : List Host.Cell
  init : List Nat
  busy : List (Nat × Nat)
  poison : List Nat
  marks : NMap EccMark
  deriving DecidableEq, Repr

/-- A child grid of a team and its completion status (R398). -/
structure Child where
  id : Nat
  grid : Option Nat
  status : Option W64
  deriving DecidableEq, Repr

/-- A team (R348, R350), with s0 and s1 as its groups held them at admission (R93, R178, R426). -/
structure Team where
  grid : Nat
  ctx : Nat
  core : Nat
  index : Nat
  s0 : W64
  s1 : W64
  slots : List Nat
  scr : Scratch
  nb : Vector Barrier 16
  kq : Vector (List KEntry) 4
  nextK : Nat
  tiles : Vector Tile 32
  children : List Child
  launches : List Nat
  reports : List (Nat × W64)
  tray : Bool
  deriving DecidableEq, Repr

/-- A role of a launch header: entry, scope size and groups (R356, R412). -/
structure Role where
  entry : Nat
  regs : Nat
  groups : Nat
  deriving DecidableEq, Repr

/-- A launch header as the dispatcher reads it (R412). Without a role table one role stands for every group. -/
structure Header where
  table : Bool
  roles : List Role
  deps : List Word32
  delta : W64
  scratch : Nat
  fpen : BitVec 5
  sms : Bool
  accept : Bool
  pivotReg : Bool
  fuse : Bool
  prio : Nat
  cls : Nat
  tdim : Nat × Nat × Nat
  gdim : Nat × Nat × Nat
  args : W64
  handler : Option Nat
  code : Nat
  deriving DecidableEq, Repr

/-- Where a grid came from: a host queue's entry, a device launch's team, or a tray (R351, R418). -/
inductive Origin where
  | host (q idx : Nat)
  | team (t : Nat)
  deriving DecidableEq, Repr

/-- An accepted grid (R414, R415). `votes` counts, by die, the votes for its preferred die (R72). -/
structure Grid where
  id : Nat
  ctx : Nat
  hdr : Header
  hdrAddr : Nat
  level : Nat
  origin : Origin
  parent : Option Nat
  deps : List Nat
  prio : Nat
  die : Option Nat
  votes : List Nat
  next : Nat
  total : Nat
  signals : Nat
  groups : Nat
  refuse : Nat
  flags : BitVec 8
  psub : Nat
  horizon : Nat
  done : Bool
  stopping : Bool
  deriving DecidableEq, Repr

/-- A context known to the dispatcher: its descriptor's address and fields, and its next grid id (R411, R414). -/
structure Ctx where
  desc : Nat
  save : Nat
  aring : Nat
  trt : Nat
  trtn : Nat
  priv : Bool
  l3 : Nat
  nextId : Nat
  preempted : Bool
  saving : Bool
  deriving DecidableEq, Repr

/-- A taken entry of a host queue: its context, whether its work is done, and whether its record is written (R63, R418). -/
structure HqEntry where
  idx : Nat
  ctx : Nat
  op : Nat
  grid : Option Nat
  cmp : W64
  irq : Bool
  refuse : Nat
  done : Bool
  written : Bool
  deriving DecidableEq, Repr

/-- A host launch queue (R416). -/
structure HostQueue where
  base : Nat
  desc : Nat
  size : Nat
  err : Bool
  render : Bool
  en : Bool
  head : Nat
  tail : Nat
  entries : List HqEntry
  launches : List Nat
  deriving DecidableEq, Repr

/-- A tray (R425). -/
structure Tray where
  ctx : Nat
  die : Nat
  entry : Nat
  recs : List TrayRec
  deriving DecidableEq, Repr

/-- A group issued by a tray that waits for admission (R427). -/
structure TrayGroup where
  ctx : Nat
  die : Nat
  hdr : List W64
  recs : List TrayRec
  seq : Nat
  deriving DecidableEq, Repr

/-- An effect on its way out under R111: the group's accesses must be complete and DTIME past the horizon. -/
structure Release where
  group : Nat
  grid : Nat
  team : Nat
  die : Nat
  ctx : Nat
  eff : Effect
  wait : List Outstanding
  horizon : Nat
  deriving DecidableEq, Repr

/-- A sector of an L2 line (R78). -/
inductive L2State where
  | i
  | f
  | c
  | d
  | l
  deriving DecidableEq, Repr

/-- A sector's state, data and poison in an L2 slice, and a remote copy's lease end and WCT (R78, R98, R99). -/
structure L2Sector where
  st : L2State
  data : Sector
  poison : Bool
  lease : Nat
  wct : Nat
  deriving DecidableEq, Repr

/-- A line in a die's L2: its four sectors and its last use (R77, R78). -/
structure L2Line where
  secs : List L2Sector
  used : Nat
  deriving DecidableEq, Repr

/-- LEASEEND and WCT of a line at its home (R78, R99). -/
structure LineTimes where
  leaseEnd : Nat
  wct : Nat
  deriving DecidableEq, Repr

/-- A sector copy in a core's L1 and the cycle of its fill (R80). -/
structure L1Copy where
  data : Sector
  poison : Bool
  lease : Nat
  stamp : Nat
  filled : Nat
  deriving DecidableEq, Repr

/-- A packet at a base die's channel (R25, R28), with the context of the access behind it (R39): a read keeps the sectors
captured for it. -/
structure Packet where
  n : Nat
  ctx : Nat
  slice : Nat
  tag : Nat
  line : Nat
  wr : Bool
  sectors : Nat
  noalloc : Bool
  masks : List Word32
  data : List Sector
  doneSecs : Nat
  got : List (Nat × Sector × Bool × Bool)
  served : Bool
  mergePois : Bool
  deriving DecidableEq, Repr

/-- A way of the crust: its tag, a dirty and a valid bit for each of its 32 lines, its reference bit, and whether it is
retired (R20, R24). -/
structure CrustWay where
  tag : Nat
  dirty : Word32
  ref : Bool
  retired : Bool
  valid : Word32
  deriving DecidableEq, Repr

/-- A channel of a base die (R22-R31, R34, R38). -/
structure Channel where
  packets : List Packet
  next : Nat
  wbuf : List Nat
  crust : NMap CrustWay
  wback : List Nat
  remap : List (Nat × Nat × Nat)
  corrected : List (Nat × Nat × Nat)
  moving : List (Nat × Nat)
  deriving DecidableEq, Repr

/-- The registers of a record ring (R41, R62, R466). -/
structure Ring where
  base : Nat
  head : Nat
  tail : Nat
  en : Bool
  irqen : Bool
  ovf : Bool
  dropped : Nat
  deriving DecidableEq, Repr

/-- A cached translation: context, page base, page size and leaf (R54). -/
structure Xlate where
  ctx : Nat
  base : Nat
  size : Nat
  leaf : W64
  deriving DecidableEq, Repr

/-- A cached table entry of a die's walk cache (R54). -/
structure WalkEntry where
  die : Nat
  ctx : Nat
  level : Nat
  tagVa : Nat
  table : Nat
  deriving DecidableEq, Repr

/-- A posted host-path fault that is not served (R62). -/
structure PostedFault where
  ctx : Nat
  base : Nat
  size : Nat
  deriving DecidableEq, Repr

/-- An invalidation in progress: context (none: all), range, whether it refuses, and, once the translations are gone, the number
below which host and peer requests were translated through them (R56, R57, R62). -/
structure Invalidation where
  ctx : Option Nat
  range : Option (Nat × Nat)
  refuse : Bool
  upto : Option Nat
  deriving DecidableEq, Repr

/-- What a placement unit or control core does to a page (R67, R68, R71). -/
structure PageMove where
  die : Nat
  ctx : Nat
  va : Nat
  leafAt : Nat
  old : W64
  newHome : Option Nat
  deriving DecidableEq, Repr

/-- A placement unit's count of a page: its first address and size, the samples by requesting die, the epochs without a
sample, and the requests seen (R70). -/
structure PageCount where
  die : Nat
  ctx : Nat
  va : Nat
  size : Nat
  counts : List Nat
  idle : Nat
  seen : Nat
  deriving DecidableEq, Repr

/-- A page that has migrated, and the epochs of its new home since (R71). -/
structure RecentMove where
  die : Nat
  ctx : Nat
  va : Nat
  epochs : Nat
  deriving DecidableEq, Repr

/-- A page that a unit without a held instruction waits for: AGENT, UNIT, context and 64 KiB unit (R50, R57, R58). -/
structure AwaitedPage where
  agent : Nat
  unit : Nat
  ctx : Nat
  page : Nat
  deriving DecidableEq, Repr

/-- A side-log entry (R59, R478): its place in the order of the core's stores, its sector, its group with that group's
admission and split, its grids, and whether it waits for an invalidation (R57). -/
structure SlogEntry where
  n : Nat
  ctx : Nat
  va : Nat
  kind : StoreKind
  poison : Bool
  group : Nat
  born : Nat
  split : Nat
  grid : Nat
  grids : List Nat
  waits : Bool
  first : Option Nat
  retryAt : Nat
  code : Nat
  deriving DecidableEq, Repr

/-- Progress of a copy command (R127, R131-R142): the next element, an outside request in flight, elements read and
not yet written with their poison, offsets read, bytes of scratchpad granules written clean, the first values of
overwritten bytes, a tile's bytes and poisoned granules, the fault code of a remote refusal, whether the run has ended
or only its arrival is left, and whether a fence has ended the operand-cache entry that it would make (R120). -/
structure CopyRun where
  cmd : CopyCmd
  engine : Nat
  elem : Nat
  status : BitVec 16
  far : Nat
  gwct : Nat
  parked : Option (Nat × Nat)
  req : Option Nat
  part : List (List Byte × Bool)
  offs : List Nat
  clean : NMap Word32
  old : NMap Byte
  bytes : List Byte
  pois : List Nat
  ended : Bool
  finished : Bool
  stale : Bool := false
  deriving DecidableEq, Repr

/-- An entry of an engine queue: an operation, or a QFENCE with its number (R115, R117). -/
inductive QueueItem (α : Type) where
  | op (a : α)
  | fence (n : Nat)
  deriving DecidableEq, Repr

/-- The tile of an MMAT: its key and binding at issue, and, once fetched, its bytes, its poisoned granules, its status and the
fault code of a remote refusal (R270-R272). -/
structure TileUse where
  team : Nat
  handle : Nat
  gen : Nat
  cmd : W64
  desc : List W64
  got : Option (List Byte × List Nat × BitVec 16 × Nat)
  deriving DecidableEq, Repr

/-- A matrix operation with its captured operands: A, B and D runs, then scale registers; `repeated` after a first residue
mismatch outside a region (R264, R266). -/
structure MatOp where
  id : Nat
  core : Nat
  group : Nat
  split : Nat
  ins : Instr
  regs : List (List LaneReg)
  tile : Option TileUse
  pivotReg : Bool
  delta : W64
  accept : Bool
  prio : Nat
  issued : Nat
  eligible : Option Nat
  granted : Option Nat
  mmaj : Option Nat
  inject : Bool
  repeated : Bool
  deriving DecidableEq, Repr

/-- An operand-cache entry: key (team, handle, generation), bytes, poisoned granules, status, last use (R271, R272). -/
structure OcEntry where
  cluster : Nat
  team : Nat
  handle : Nat
  gen : Nat
  bytes : List Byte
  pois : List Nat
  status : BitVec 16
  used : Nat
  deriving DecidableEq, Repr

/-- A collective's descriptor fields (R341). -/
structure CollDesc where
  staddr : Nat
  timeout : Nat
  set : Nat
  root : Nat
  op : Nat
  red : Nat
  ty : Nat
  count : Nat
  dst : Nat
  src : Nat
  deriving DecidableEq, Repr

/-- A COLL: its group, batch, barrier word, descriptor; once begun, its engine, members and contributions, the bytes of its
own contribution read so far, the pieces of its result written so far, an outside request in flight, its status, and whether its
context was torn down. `start` is the DTIME of its acceptance; while it is parked, the time that has run (R342-R345). -/
structure CollRun where
  id : Nat
  group : Nat
  grids : List Nat
  team : Nat
  ctx : Nat
  core : Nat
  batch : Nat
  bar : W64
  desc : CollDesc
  seq : Nat
  engine : Option Nat
  start : Nat
  m : Nat
  self : Nat
  got : List (Nat × List W64)
  lost : List Nat
  parked : Option (Nat × Nat)
  gwct : Nat
  mine : List Byte
  pois : Bool
  wrote : Nat
  req : Option Nat
  status : BitVec 16
  torn : Bool
  deriving DecidableEq, Repr

/-- What a path operation does when its turn comes (R292-R296): takes a tile, adds segments of control points, closes, or
reads pixels for a pending result under a rule word. -/
inductive PathKind where
  | begin (ox oy : Int) (w h : Nat)
  | segs (l : List (List (Int × Int)))
  | finish
  | read (n : Nat) (px : List (Nat × Int × Int)) (rule : Nat)
  deriving DecidableEq, Repr

/-- A path operation in a core's queue (R296). -/
structure PathOp where
  group : Nat
  kind : PathKind
  deriving DecidableEq, Repr

/-- The engine queues of a core (R115, R117). -/
structure CoreQueues where
  copy : List (QueueItem CopyCmd)
  coll : List (QueueItem CollRun)
  path : List (QueueItem PathOp)
  matFences : List (Nat × Nat)
  deriving DecidableEq, Repr

/-- A unit whose suspicion score is kept (R461, R463). -/
structure Suspicion where
  score : Nat
  state : Nat
  spares : Nat
  deriving DecidableEq, Repr

/-- Steps of a proxy replay (R457). -/
inductive ProxyStage where
  | placing (since : Nat)
  | transfer (till : Nat)
  | running
  deriving DecidableEq, Repr

/-- A replay on another cluster: the original group, the proxy group, and its step (R457). -/
structure Proxy where
  orig : Nat
  proxy : Option Nat
  fromCluster : Nat
  stage : ProxyStage
  deriving DecidableEq, Repr

/-- Who waits for a host or peer request: a lane of a group's load or atomic with its pending result and type, a held
split's read (a WAITM lane, or key 32 for a descriptor), a group's store, a side-log entry of a core, a copy, or the dispatcher's
read of a grid's argument block (R72). -/
inductive ReqOwner where
  | lane (group pend lane : Nat) (ty : MemTy)
  | held (group split key : Nat)
  | store (group : Nat) (split : Nat)
  | slog (core : Nat) (entry : SlogEntry)
  | copy (id : Nat)
  | votes (grid : Nat)
  deriving DecidableEq, Repr

/-- An outstanding host or peer request of this package (R471, R477-R479): its number, owner, context and grids, target
(no peer: the host), port, whether it was sent again on another port and whether it is held behind such a one (R479), address at
the target, virtual address, operation, whether its data are poisoned (R142), the DTIME it was sent at, and the DTIME that must
have passed before this package, serving it itself, acknowledges it (R123, R475). -/
structure OutReq where
  n : Nat
  owner : ReqOwner
  ctx : Nat
  grid : Nat
  grids : List Nat
  core : Nat
  peer : Option Nat
  port : Option Nat
  reissued : Bool
  held : Bool
  addr : Nat
  va : Nat
  op : MemOp
  poison : Bool
  sent : Nat
  ackAt : Nat
  deriving DecidableEq, Repr

/-- A reply from outside: bytes with poison, or a fault code (R476, R477; LOG 9). -/
inductive Reply where
  | ok (bytes : List Byte) (poison : Bool)
  | fail (code : Nat)
  deriving DecidableEq, Repr

/-- A reply that this package owes a peer: the peer, the address, the reply, and the DTIME that must have passed before it
leaves (R123). -/
structure PeerAck where
  peer : Nat
  addr : Nat
  reply : Reply
  after : Nat
  deriving DecidableEq, Repr

/-- A saved team or group (R445, R446): its side-log entries with it. -/
structure Saved where
  ctx : Nat
  team : Team
  teamKey : Nat
  groups : List (Nat × Group)
  mats : List MatOp
  copies : List CopyCmd
  colls : List CollRun
  slog : List SlogEntry
  reason : Nat
  seq : Nat
  blocks : Nat
  deriving DecidableEq, Repr

/-- The trace unit of a die (R447). -/
structure TraceUnit where
  base : Nat
  size : Nat
  wrap : Bool
  en : Bool
  wr : Nat
  rd : Nat
  next : Nat
  deriving DecidableEq, Repr

/-- A core's trace queue: packets of words, lost count, last packet's cycle (R448-R450). -/
structure TraceQueue where
  packets : List (List W64)
  lost : Nat
  last : Nat
  deriving DecidableEq, Repr

/-- The mode of a core's cluster (R86). -/
structure CoreState where
  fused : Bool
  deriving DecidableEq, Repr

/-- Boot and firmware state (R481-R485). Flash fields persist through reset; `mbData` holds what a mailbox command has read. -/
structure Boot where
  stage : Nat
  since : Nat
  reason : Nat
  fails : Nat
  svn : Nat
  slot : Nat
  state : Nat
  active : Nat
  nextActive : Nat
  slots : List (List Byte)
  tripped : Bool
  oneMod : Bool
  fuses : Nat
  powered : Bool
  mbcmd : W64
  mbaddr : W64
  mbResult : Nat
  mbErr : Bool
  mbBusy : Bool
  mbData : List Byte
  deriving DecidableEq, Repr

/-- Power and thermal registers (R487, R488). -/
structure Power where
  cap : Nat
  tlimit : Nat
  irqen : Bool
  watts : Nat
  temp : Nat
  deriving DecidableEq, Repr

/-- One inbound window (R476). -/
structure Window where
  first : Nat
  last : Nat
  w : Bool
  en : Bool
  deriving DecidableEq, Repr

/-- One peer port's status (R479). -/
structure Port where
  replays : Nat
  downEv : Bool
  up : Bool
  deriving DecidableEq, Repr

/-- The peer block (R475-R480). -/
structure Peers where
  timeout : Nat
  en : Bool
  id : Nat
  prt : Nat
  coltab : Nat
  windows : List Window
  ports : List Port
  deriving DecidableEq, Repr

/-- The scheduling block; `preRun` is the context that the running command of PRECTL names (R363, R432, R442). -/
structure Sched where
  starve : Nat
  tddesc : W64
  tdrec : W64
  tdBusy : Bool
  tdErr : Bool
  preCtx : Nat
  preRun : Nat
  preErr : Bool
  preBusy : Bool
  deriving DecidableEq, Repr

/-- The translation block: VMINVA, VMINVC, PLCTL and HOSTWIN (R56, R65, R471). -/
structure VmRegs where
  vminva : W64
  ctx : Nat
  err : Bool
  busy : Bool
  migmin : Nat
  coldep : Nat
  epoch : Nat
  migen : Bool
  colden : Bool
  coldNow : Nat
  coldFlash : Nat
  hostwin : Nat
  deriving DecidableEq, Repr

/-- The containment block's control, selection and counts (R462, R465, R467). -/
structure Containment where
  thresh : Nat
  wmis : Nat
  wpar : Nat
  wunc : Nat
  wcor : Nat
  decay : Nat
  verbose : Bool
  autotest : Bool
  irqen : Bool
  en : Bool
  selKind : Nat
  selIndex : Nat
  rollbk : Nat
  replay : Nat
  lastDecay : Nat
  deriving DecidableEq, Repr

/-- The clock: arithmetic cycles, device time, its fraction and the clock step (R14, R15, R488). -/
structure Clock where
  cycle : Nat
  dtime : Nat
  frac : Nat
  mhz : Nat
  deriving DecidableEq, Repr

/-- Main memory and what stands around it (R17-R43, R77-R80, R99). `mem` lists the non-zero bytes by physical address;
`l2marks` the errors of L2 arrays that nothing has found yet, by die × 2^35 + sector, and `l1marks` those of L1s, by core × 2^35 +
sector (R79, R80, R452; LOG 12). `l1miss` lists by
core the cycles at which its outstanding sector requests are back (R32); `scrub` the granules that each stack's patrol
scrubber has read (R37). -/
structure MemSide where
  mem : List Host.Cell
  poison : List Nat
  marks : NMap EccMark
  l2marks : NMap EccMark
  l1marks : NMap EccMark
  chans : NMap Channel
  l2 : NMap L2Line
  times : NMap LineTimes
  l2off : NMap (List Nat)
  l1 : NMap (NMap L1Copy)
  l1miss : NMap (List Nat)
  missq : NMap (List SliceReq)
  scrub : List Nat
  faq : Ring
  bpl : List Nat
  bplRemoved : List Nat
  bplErr : Bool
  bplBusy : Bool
  hostHorizon : Nat
  deriving DecidableEq, Repr

/-- Translation and placement (R54-R72). `slogSaved` holds the side-log entries, by core, of exited groups of pre-empted
contexts (R60), `slogNext` the number of the next entry; `frames` the free 64 KiB frames, by number, that compression has given
the placement units (R67, R68). -/
structure VmSide where
  regs : VmRegs
  vmfq : Ring
  posted : List PostedFault
  inval : Option Invalidation
  tlb : NMap (List Xlate)
  lastPage : NMap (NMap Xlate)
  walks : List WalkEntry
  moves : List PageMove
  counts : List PageCount
  recent : List RecentMove
  awaited : List AwaitedPage
  images : NMap (List Host.Cell)
  slog : NMap (List SlogEntry)
  ownerless : NMap (List SlogEntry)
  slogSaved : List (Nat × SlogEntry)
  slogNext : Nat
  frames : List Nat
  deriving DecidableEq, Repr

/-- Grids, teams, groups, trays and what the dispatcher holds (R411-R446). -/
structure Work where
  groups : NMap Group
  teams : NMap Team
  grids : NMap Grid
  ctxs : NMap Ctx
  nextTeam : Nat
  nextGrid : Nat
  nextSeq : Nat
  hq : List HostQueue
  sched : Sched
  dlq : NMap (List DevLaunch)
  releases : List Release
  trays : List Tray
  trayGroups : List TrayGroup
  saved : List Saved
  cores : NMap CoreState
  deriving DecidableEq, Repr

/-- Engines and their queues (R115-R146, R264-R299, R342). `queues` has the cores by number, then from 384 the control cores
(R126); `pipes` the cycle from which a pipe takes its next instruction, by core × 8 + pipe: 0 and 1 vector, 2 special function, 3
memory, 4 control, with the first cycle of what a vector pipe notes at 6 and 7 (R218, R238, R429), and from 4,096 the cycle from
which a copy engine takes its next line-sized step (R125). -/
structure Engines where
  queues : NMap CoreQueues
  copies : List CopyRun
  mats : NMap (List MatOp)
  oc : List OcEntry
  colls : List CollRun
  collSeq : NMap Nat
  early : List (Nat × Nat × Nat × List W64)
  nextId : Nat
  nextFence : Nat
  pipes : NMap Nat
  deriving DecidableEq, Repr

/-- A capability of the PCIe function (R469). -/
inductive PciCap where
  | pciExpress
  | powerManagement
  | msix
  deriving DecidableEq, Repr

/-- A base address register: its number, width in bits, whether it is prefetchable, and its size in bytes (R470). -/
structure PciBar where
  num : Nat
  bits : Nat
  prefetch : Bool
  size : Nat
  deriving DecidableEq, Repr

/-- The one PCIe function: its number, header type, class code, capabilities and BARs (R469, R470). -/
structure PciFunction where
  number : Nat
  headerType : Nat
  classCode : BitVec 24
  caps : List PciCap
  bars : List PciBar
  deriving DecidableEq, Repr

/-- Containment, traces, host link, peers, boot and power (R447-R489). `cplTimeout` is the completion timeout, in ns, that
Device Control 2 selects (R471). -/
structure Package where
  cns : Containment
  crq : Ring
  scores : NMap Suspicion
  flashScores : NMap Nat
  health : NMap Suspicion
  proxies : List Proxy
  trace : List TraceUnit
  traceq : NMap TraceQueue
  msix : List Nat
  boot : Boot
  power : Power
  peers : Peers
  outreqs : List OutReq
  nextReq : Nat
  inbox : NMap Reply
  acks : List PeerAck
  cplTimeout : Nat
  pci : PciFunction
  deriving DecidableEq, Repr

/-- How the last instruction of the selected unit ended. -/
inductive Issue where
  | idle
  | issued
  | held
  | trapped
  deriving DecidableEq, Repr

/-- Pipes that a chain uses (R200). -/
structure Pipes where
  v : Nat
  sf : Nat
  mem : Nat
  ctl : Nat
  deriving DecidableEq, Repr

/-- The machine (R10, R348). The last seven fields are the model's own (LOG 1, LOG 2): the unit whose instruction `exec`
runs, the state its chain reads, how it ended, the events to run first, the units to issue, the chains that cores issued
in this cycle, and the counter that free values are drawn with. -/
structure State where
  clock : Clock
  ms : MemSide
  vm : VmSide
  work : Work
  eng : Engines
  pkg : Package
  sel : UnitRef
  pre : Option Group
  last : Issue
  agenda : List Instr
  issuing : List UnitRef
  slots : List (Nat × Pipes)
  freeCtr : Nat
  deriving DecidableEq, Repr

/-- Why the machine stops with a fault. -/
inductive Fault where
  /-- An instruction word was given to `exec` with no resident group in the selected slot. Raised by every instruction
  meaning; safe: no unit of the hardware issues without a group (R428). -/
  | noUnit
  deriving DecidableEq, Repr

/-- Why the model refuses an instruction. -/
inductive Refusal where
  /-- An instruction without a meaning yet, by its mnemonic. Raised by Dispatch.lean only; safe. -/
  | notModelled (mnemonic : String)
  deriving DecidableEq, Repr

/-- A ring's registers after reset (R41). -/
def Ring.reset : Ring := ⟨0, 0, 0, false, false, false, 0⟩

/-- A host queue after reset (R416). -/
def HostQueue.reset : HostQueue := ⟨0, 0, 4, false, false, false, 0, 0, [], []⟩

/-- Boot state after reset: stage 1 begins; firmware slots and fuses as LOG 6 names them (R481, R482). -/
def Boot.reset : Boot :=
  { stage := 1, since := 0, reason := 0, fails := 0, svn := 0, slot := 0, state := 0, active := 0, nextActive := 0
    slots := [[], []], tripped := false, oneMod := false, fuses := 0, powered := true
    mbcmd := 0, mbaddr := 0, mbResult := 0, mbErr := false, mbBusy := false, mbData := [] }

/-- Memory after reset: zero everywhere, without poison (R481); everything else empty. -/
def MemSide.reset : MemSide :=
  { mem := [], poison := [], marks := [], l2marks := [], l1marks := [], chans := [], l2 := [], times := [], l2off := []
    l1 := [], l1miss := [], missq := []
    scrub := List.replicate 12 0
    faq := Ring.reset, bpl := [], bplRemoved := [], bplErr := false, bplBusy := false, hostHorizon := 0 }

/-- Translation and placement after reset (R56, R65; COLDSZ as the part ships). -/
def VmSide.reset : VmSide :=
  { regs := { vminva := 0, ctx := 0, err := false, busy := false, migmin := 32, coldep := 64, epoch := 10
              migen := true, colden := true, coldNow := 2, coldFlash := 2, hostwin := 0 }
    vmfq := Ring.reset, posted := [], inval := none, tlb := [], lastPage := [], walks := [], moves := [], counts := []
    recent := [], awaited := [], images := [], slog := [], ownerless := [], slogSaved := [], slogNext := 0, frames := [] }

/-- No work after reset (R416, R363). -/
def Work.reset : Work :=
  { groups := [], teams := [], grids := [], ctxs := [], nextTeam := 0, nextGrid := 0, nextSeq := 0
    hq := List.replicate 64 HostQueue.reset
    sched := { starve := 65536, tddesc := 0, tdrec := 0, tdBusy := false, tdErr := false, preCtx := 0, preRun := 0
               preErr := false, preBusy := false }
    dlq := [], releases := [], trays := [], trayGroups := [], saved := [], cores := [] }

/-- Engines after reset. -/
def Engines.reset : Engines :=
  { queues := [], copies := [], mats := [], oc := [], colls := [], collSeq := [], early := []
    nextId := 0, nextFence := 0, pipes := [] }

/-- Containment, links, boot and power after reset (R462, R475, R487). -/
def Package.reset : Package :=
  { cns := { thresh := 64, wmis := 16, wpar := 16, wunc := 32, wcor := 1, decay := 24, verbose := false
             autotest := true, irqen := false, en := false, selKind := 0, selIndex := 0, rollbk := 0, replay := 0
             lastDecay := 0 }
    crq := Ring.reset, scores := [], flashScores := [], health := [], proxies := []
    trace := List.replicate 4 ⟨0, 0, false, false, 0, 0, 0⟩, traceq := [], msix := []
    boot := Boot.reset
    power := { cap := 2200, tlimit := 95, irqen := false, watts := 0, temp := 0 }
    peers := { timeout := 1000, en := false, id := 0, prt := 0, coltab := 0
               windows := List.replicate 16 ⟨0, 0, false, false⟩, ports := List.replicate 12 ⟨0, false, false⟩ }
    outreqs := [], nextReq := 0, inbox := [], acks := [], cplTimeout := 40000000
    pci := { number := 0, headerType := 0, classCode := 0x120000#24
             caps := [.pciExpress, .powerManagement, .msix]
             bars := [⟨0, 64, false, 2 ^ 24⟩, ⟨2, 64, true, 2 ^ 40⟩] } }

/-- The machine right after a package reset (R15, R481): time zero, memory zero, no work, boot stage 1 running. -/
def State.reset : State :=
  { clock := { cycle := 0, dtime := 0, frac := 0, mhz := 2250 }
    ms := MemSide.reset, vm := VmSide.reset, work := Work.reset, eng := Engines.reset, pkg := Package.reset
    sel := ⟨0, 0, 0⟩, pre := none, last := .idle, agenda := [], issuing := [], slots := [], freeCtr := 0 }

end Sys2Proof.Machine
end

