-- ==== Sys2Proof/Machine/Operands.lean ====
section
/-! DEFINITION. What each word names: the registers, ages, predicates and queues it reads and writes, its pushes, its
pipe and its window (spec/08 R177-R184, spec/09 R200-R209), and how an operand field is read (R205, R206). -/

namespace Sys2Proof

/-- What a word names: named registers read and written, ages, predicates, k-queue pops and pushes in operand order, and s
registers. -/
structure Uses where
  v : List Nat
  d : List Nat
  ages : List Nat
  pr : List Nat
  pw : List Nat
  pop : List Nat
  push : List Nat
  s : List Nat
  deriving DecidableEq, Repr

/-- Nothing named. -/
def Uses.empty : Uses := ⟨[], [], [], [], [], [], [], []⟩

/-- Both words' names. -/
def Uses.and (a b : Uses) : Uses :=
  ⟨a.v ++ b.v, a.d ++ b.d, a.ages ++ b.ages, a.pr ++ b.pr, a.pw ++ b.pw, a.pop ++ b.pop, a.push ++ b.push, a.s ++ b.s⟩

/-- `n` consecutive named registers from `b` (R193). -/
def regRun (b n : Nat) : List Nat := (List.range n).map (b + ·)

/-- Registers read. -/
def readsRun (b n : Nat) : Uses := { Uses.empty with v := regRun b n }

/-- Registers written. -/
def writesRun (b n : Nat) : Uses := { Uses.empty with d := regRun b n }

/-- What a source names (R205). -/
def srcUses : Src → Uses
  | .v n => readsRun n.val 1
  | .k n => { Uses.empty with pop := [n.val] }
  | .age n => { Uses.empty with ages := [n.val] }
  | .s n => { Uses.empty with s := [n.val] }
  | .zero | .lane | .lit => Uses.empty

/-- What a destination names (R205). -/
def dstUses : Dst → Uses
  | .v n => writesRun n.val 1
  | .k n => { Uses.empty with push := [n.val] }
  | .none => Uses.empty

/-- The predicate a guard reads (R205). -/
def guardUses : Guard → Uses
  | .always => Uses.empty
  | .p n => { Uses.empty with pr := [n.val] }

/-- The predicates a compare writes (R230). -/
def pdstUses (d : PDst) : Uses := { Uses.empty with pw := if d.k then [d.p.val, d.p.val + 1] else [d.p.val] }

/-- A predicate read. -/
def predUses (p : PReg) : Uses := { Uses.empty with pr := [p.val] }

/-- The register of a base (R300). -/
def baseUses : Base → Uses
  | .v n => readsRun n.val 1
  | .s n => { Uses.empty with s := [n.val] }
  | .zero => Uses.empty

/-- The register of an address source (R321). -/
def addrUses : Addr6 → Uses
  | .v n => readsRun n.val 1
  | .s n => { Uses.empty with s := [n.val] }

/-- The s register of a mask source (R387). -/
def maskUses : MaskSrc → Uses
  | .s n => { Uses.empty with s := [n.val] }
  | .zero | .lit => Uses.empty

/-- The registers of a load's destination: two for `.b128` (R303). -/
def loadUses (ty : MemTy) (x : Dst) : Uses :=
  match ty, x with
  | .b128, .v n => writesRun n.val 2
  | _, d => dstUses d

/-- The registers of a store's data (R303). -/
def storeUses (ty : MemTy) (x : Src) : Uses :=
  match ty, x with
  | .b128, .v n => readsRun n.val 2
  | _, d => srcUses d

/-- Registers of C and D of a product (R193). -/
def accUses (d n : Nat) : Uses := ⟨regRun d n, regRun d n, [], [], [], [], [], []⟩

/-- Registers of B in an MMAS (R269). -/
def SFmt.bRegs : SFmt → Nat
  | .e2m1 => 2
  | .e4m3 => 4
  | .e5m2 => 4
  | .int4 => 2

/-- Registers of D in an MMAT (R270). -/
def TFmt.dRegs : TFmt → Nat
  | .f64 => 8
  | _ => 4

/-- Registers of A in an MMAT, with the block words of an E2M1 A (R270). -/
def TFmt.aRegs : TFmt → Nat
  | .e2m1 => 3
  | _ => 2

/-- What a word names. An event names nothing. -/
def Instr.uses : Instr → Uses
  | .iadd _ g d a b _ => (((guardUses g).and (dstUses d)).and (srcUses a)).and (srcUses b)
  | .isub _ g d a b _ => (((guardUses g).and (dstUses d)).and (srcUses a)).and (srcUses b)
  | .iaddc _ g d a b _ => (((guardUses g).and (dstUses d)).and (srcUses a)).and (srcUses b)
  | .imul _ g d a b _ => (((guardUses g).and (dstUses d)).and (srcUses a)).and (srcUses b)
  | .imulhI _ g d a b _ => (((guardUses g).and (dstUses d)).and (srcUses a)).and (srcUses b)
  | .imulhN _ g d a b _ => (((guardUses g).and (dstUses d)).and (srcUses a)).and (srcUses b)
  | .imad _ d a b q _ => (((dstUses d).and (srcUses a)).and (srcUses b)).and { Uses.empty with ages := [q.val] }
  | .andB _ g d a b _ => (((guardUses g).and (dstUses d)).and (srcUses a)).and (srcUses b)
  | .orB _ g d a b _ => (((guardUses g).and (dstUses d)).and (srcUses a)).and (srcUses b)
  | .xorB _ g d a b _ => (((guardUses g).and (dstUses d)).and (srcUses a)).and (srcUses b)
  | .andn _ g d a b _ => (((guardUses g).and (dstUses d)).and (srcUses a)).and (srcUses b)
  | .orn _ g d a b _ => (((guardUses g).and (dstUses d)).and (srcUses a)).and (srcUses b)
  | .notB _ g d a _ => ((guardUses g).and (dstUses d)).and (srcUses a)
  | .shl _ g d a b _ => (((guardUses g).and (dstUses d)).and (srcUses a)).and (srcUses b)
  | .shr _ g d a b _ => (((guardUses g).and (dstUses d)).and (srcUses a)).and (srcUses b)
  | .sar _ g d a b _ => (((guardUses g).and (dstUses d)).and (srcUses a)).and (srcUses b)
  | .rol _ g d a b _ => (((guardUses g).and (dstUses d)).and (srcUses a)).and (srcUses b)
  | .ror _ g d a b _ => (((guardUses g).and (dstUses d)).and (srcUses a)).and (srcUses b)
  | .popc _ g d a _ => ((guardUses g).and (dstUses d)).and (srcUses a)
  | .clz _ g d a _ => ((guardUses g).and (dstUses d)).and (srcUses a)
  | .ctz _ g d a _ => ((guardUses g).and (dstUses d)).and (srcUses a)
  | .brev _ g d a _ => ((guardUses g).and (dstUses d)).and (srcUses a)
  | .bfeN _ g d a b _ => (((guardUses g).and (dstUses d)).and (srcUses a)).and (srcUses b)
  | .bfeI _ g d a b _ => (((guardUses g).and (dstUses d)).and (srcUses a)).and (srcUses b)
  | .bfi _ g d a b _ => (((guardUses g).and (accUses d.val 1)).and (srcUses a)).and (srcUses b)
  | .minI _ g d a b _ => (((guardUses g).and (dstUses d)).and (srcUses a)).and (srcUses b)
  | .minN _ g d a b _ => (((guardUses g).and (dstUses d)).and (srcUses a)).and (srcUses b)
  | .maxI _ g d a b _ => (((guardUses g).and (dstUses d)).and (srcUses a)).and (srcUses b)
  | .maxN _ g d a b _ => (((guardUses g).and (dstUses d)).and (srcUses a)).and (srcUses b)
  | .absI _ g d a _ => ((guardUses g).and (dstUses d)).and (srcUses a)
  | .negI _ g d a _ => ((guardUses g).and (dstUses d)).and (srcUses a)
  | .sel _ g d a b _ => (((guardUses g).and (dstUses d)).and (srcUses a)).and (srcUses b)
  | .mov _ g d a _ => ((guardUses g).and (dstUses d)).and (srcUses a)
  | .movs _ g d a _ => ((guardUses g).and (srcUses a)).and { Uses.empty with s := [d.val] }
  | .lea _ g d a b _ => (((guardUses g).and (dstUses d)).and (srcUses a)).and (srcUses b)
  | .icmp32 _ g pd a b _ => (((guardUses g).and (pdstUses pd)).and (srcUses a)).and (srcUses b)
  | .icmp64 _ g pd a b _ => (((guardUses g).and (pdstUses pd)).and (srcUses a)).and (srcUses b)
  | .pand _ g pd a b => (((guardUses g).and (pdstUses pd)).and (predUses a)).and (predUses b)
  | .por _ g pd a b => (((guardUses g).and (pdstUses pd)).and (predUses a)).and (predUses b)
  | .pxor _ g pd a b => (((guardUses g).and (pdstUses pd)).and (predUses a)).and (predUses b)
  | .pnot _ g pd a => ((guardUses g).and (pdstUses pd)).and (predUses a)
  | .pmov _ g pd a => ((guardUses g).and (pdstUses pd)).and (predUses a)
  | .censusNz _ g d a => ((guardUses g).and (dstUses d)).and (srcUses a)
  | .censusLsb _ g d a => ((guardUses g).and (dstUses d)).and (srcUses a)
  | .censusSgn _ g d a => ((guardUses g).and (dstUses d)).and (srcUses a)
  | .routeFrom _ g d a b _ => (((guardUses g).and (dstUses d)).and (srcUses a)).and (srcUses b)
  | .routeRot _ g d a b _ => (((guardUses g).and (dstUses d)).and (srcUses a)).and (srcUses b)
  | .routeShift _ g d a b _ => (((guardUses g).and (dstUses d)).and (srcUses a)).and (srcUses b)
  | .routeFlip _ g d a b _ => (((guardUses g).and (dstUses d)).and (srcUses a)).and (srcUses b)
  | .peers _ g d a _ => ((guardUses g).and (dstUses d)).and (srcUses a)
  | .fadd _ g d a b _ _ => (((guardUses g).and (dstUses d)).and (srcUses a)).and (srcUses b)
  | .fsub _ d a b _ _ => ((dstUses d).and (srcUses a)).and (srcUses b)
  | .fmul _ g d a b _ _ => (((guardUses g).and (dstUses d)).and (srcUses a)).and (srcUses b)
  | .ffma _ d a b q _ _ => (((dstUses d).and (srcUses a)).and (srcUses b)).and { Uses.empty with ages := [q.val] }
  | .ffms _ d a b q _ _ => (((dstUses d).and (srcUses a)).and (srcUses b)).and { Uses.empty with ages := [q.val] }
  | .fnma _ d a b q _ _ => (((dstUses d).and (srcUses a)).and (srcUses b)).and { Uses.empty with ages := [q.val] }
  | .fmin _ g d a b _ => (((guardUses g).and (dstUses d)).and (srcUses a)).and (srcUses b)
  | .fmax _ g d a b _ => (((guardUses g).and (dstUses d)).and (srcUses a)).and (srcUses b)
  | .fminNum _ g d a b _ => (((guardUses g).and (dstUses d)).and (srcUses a)).and (srcUses b)
  | .fmaxNum _ g d a b _ => (((guardUses g).and (dstUses d)).and (srcUses a)).and (srcUses b)
  | .fcmp _ g pd a b _ _ => (((guardUses g).and (pdstUses pd)).and (srcUses a)).and (srcUses b)
  | .fcvt _ g d a _ _ _ => ((guardUses g).and (dstUses d)).and (srcUses a)
  | .fclass _ g d a _ => ((guardUses g).and (dstUses d)).and (srcUses a)
  | .ffrexp _ g d a _ => ((guardUses g).and (writesRun d.val 2)).and (srcUses a)
  | .fabs _ g d a _ => ((guardUses g).and (dstUses d)).and (srcUses a)
  | .fneg _ g d a _ => ((guardUses g).and (dstUses d)).and (srcUses a)
  | .fcpysgn _ g d a b _ => (((guardUses g).and (dstUses d)).and (srcUses a)).and (srcUses b)
  | .fscale _ d a b _ _ => ((dstUses d).and (srcUses a)).and (srcUses b)
  | .fdiv _ _ d a b _ _ => ((dstUses d).and (srcUses a)).and (srcUses b)
  | .fsqrt _ _ d a _ _ => (dstUses d).and (srcUses a)
  | .frcp _ _ d a _ _ => (dstUses d).and (srcUses a)
  | .frsq _ _ d a _ _ => (dstUses d).and (srcUses a)
  | .fexp2 _ _ d a _ => (dstUses d).and (srcUses a)
  | .flog2 _ _ d a _ => (dstUses d).and (srcUses a)
  | .fsin _ _ d a _ => (dstUses d).and (srcUses a)
  | .fcos _ _ d a _ => (dstUses d).and (srcUses a)
  | .ftanh _ _ d a _ => (dstUses d).and (srcUses a)
  | .pkadd16 _ g d a b _ _ => (((guardUses g).and (dstUses d)).and (srcUses a)).and (srcUses b)
  | .pkmul16 _ d a b _ _ => ((dstUses d).and (srcUses a)).and (srcUses b)
  | .pkfma16 _ d a b _ _ => ((accUses d.val 1).and (srcUses a)).and (srcUses b)
  | .pkfna16 _ d a b _ _ => ((accUses d.val 1).and (srcUses a)).and (srcUses b)
  | .cvtn _ g d a _ _ _ => ((guardUses g).and (dstUses d)).and (srcUses a)
  | .dot4I8 _ g d a b => (((guardUses g).and (accUses d.val 1)).and (srcUses a)).and (srcUses b)
  | .dot4N8 _ g d a b => (((guardUses g).and (accUses d.val 1)).and (srcUses a)).and (srcUses b)
  | .dot8E4m3 _ g d a b => (((guardUses g).and (accUses d.val 1)).and (srcUses a)).and (srcUses b)
  | .dot8E5m2 _ g d a b => (((guardUses g).and (accUses d.val 1)).and (srcUses a)).and (srcUses b)
  | .sclx _ g d a b _ => (((guardUses g).and (dstUses d)).and (srcUses a)).and (srcUses b)
  | .scls _ g d a b _ => (((guardUses g).and (dstUses d)).and (srcUses a)).and (srcUses b)
  | .pkaddF32 _ g d a b _ => (((guardUses g).and (dstUses d)).and (srcUses a)).and (srcUses b)
  | .pkmulF32 _ d a b _ => ((dstUses d).and (srcUses a)).and (srcUses b)
  | .pkfmaF32 _ d a b _ => ((accUses d.val 1).and (srcUses a)).and (srcUses b)
  | .pkfnaF32 _ d a b _ => ((accUses d.val 1).and (srcUses a)).and (srcUses b)
  | .mmad _ _ d a b _ => ((accUses d.val 8).and (readsRun a.val 2)).and (readsRun b.val 2)
  | .mmaF32 _ _ d a b _ => ((accUses d.val 4).and (readsRun a.val 2)).and (readsRun b.val 2)
  | .mmaBf16 _ _ d a b => ((accUses d.val 4).and (readsRun a.val 2)).and (readsRun b.val 2)
  | .mmaF16 _ _ d a b => ((accUses d.val 4).and (readsRun a.val 2)).and (readsRun b.val 2)
  | .mmaq _ _ d a b _ _ => ((accUses d.val 4).and (readsRun a.val 2)).and (readsRun b.val 2)
  | .mmas _ d a b fb _ sa sb _ _ => ((((accUses d.val 4).and (readsRun a.val 2)).and (readsRun b.val fb.bRegs)).and (readsRun sa.val 1)).and (if fb == .e2m1 then readsRun sb.val 1 else Uses.empty)
  | .mmat _ _ d a h f => ((accUses d.val f.dRegs).and (readsRun a.val f.aRegs)).and (srcUses h)
  | .mmaj _ _ d a b _ => ((accUses d.val 4).and (readsRun a.val 2)).and (readsRun b.val 2)
  | .tfact _ _ d a _ => (writesRun d.val 9).and (readsRun a.val 8)
  | .tsolv _ _ d a b _ => ((writesRun d.val 1).and (readsRun a.val 9)).and (readsRun b.val 1)
  | .tref _ d a b _ _ pd => (((accUses d.val 3).and (readsRun a.val 8)).and (readsRun b.val 9)).and { Uses.empty with pw := [pd.val] }
  | .ld g _ x a _ _ ty => ((guardUses g).and (loadUses ty x)).and (baseUses a)
  | .st g x a _ _ ty => ((guardUses g).and (storeUses ty x)).and (baseUses a)
  | .ldl g _ x a _ _ ty => ((guardUses g).and (loadUses ty x)).and (baseUses a)
  | .stl g x a _ _ ty => ((guardUses g).and (storeUses ty x)).and (baseUses a)
  | .ldc g _ x a _ _ ty => ((guardUses g).and (loadUses ty x)).and (baseUses a)
  | .atom g _ x a _ _ _ _ _ xd => (((guardUses g).and (srcUses x)).and (baseUses a)).and (dstUses xd)
  | .red g x a _ _ _ _ _ => ((guardUses g).and (srcUses x)).and (baseUses a)
  | .acas g _ x a _ _ _ _ x2 xd => ((((guardUses g).and (srcUses x)).and (baseUses a)).and (srcUses x2)).and (dstUses xd)
  | .axch g _ x a _ _ _ _ xd => (((guardUses g).and (srcUses x)).and (baseUses a)).and (dstUses xd)
  | .fence _ _ _ _ => Uses.empty
  | .fenceS _ _ _ _ => Uses.empty
  | .waitm _ g _ a _ _ => (guardUses g).and (readsRun a.val 2)
  | .cctlInv _ g a => (guardUses g).and (addrUses a)
  | .cctlInvall _ => Uses.empty
  | .cctlWb _ g a => (guardUses g).and (addrUses a)
  | .pref _ g a _ => (guardUses g).and (addrUses a)
  | .copy _ g a b => ((guardUses g).and (srcUses a)).and (srcUses b)
  | .copyr _ g a b => ((guardUses g).and (srcUses a)).and (srcUses b)
  | .batch _ _ => Uses.empty
  | .waitb _ _ a => (srcUses a)
  | .qfence _ _ => Uses.empty
  | .tile _ g _ a b => ((guardUses g).and (readsRun a.val 2)).and (srcUses b)
  | .barInit _ a _ => (srcUses a)
  | .barArrive _ _ => Uses.empty
  | .barWait _ _ _ => Uses.empty
  | .barTest _ _ _ => Uses.empty
  | .qstat _ _ _ => Uses.empty
  | .coll _ g a b => ((guardUses g).and (srcUses a)).and (srcUses b)
  | .ifW _ g _ => (guardUses g)
  | .elseW _ _ => Uses.empty
  | .endif _ => Uses.empty
  | .loopW _ g _ => (guardUses g)
  | .endloop _ g => (guardUses g)
  | .brk _ g => (guardUses g)
  | .cont _ g => (guardUses g)
  | .jmp _ g _ => (guardUses g)
  | .call _ g _ => (guardUses g)
  | .ret _ g => (guardUses g)
  | .exit _ g => (guardUses g)
  | .nop _ => Uses.empty
  | .launch _ g _ a b => ((guardUses g).and (srcUses a)).and (srcUses b)
  | .waitchild _ _ a => (srcUses a)
  | .spawn _ g a b => ((guardUses g).and (srcUses a)).and (maskUses b)
  | .yieldW _ g a b => ((guardUses g).and (srcUses a)).and (maskUses b)
  | .task _ b => maskUses b
  | .commit _ => Uses.empty
  | .regs _ _ b => maskUses b
  | .endregs _ => Uses.empty
  | .grow _ _ b => maskUses b
  | .shrink _ _ => Uses.empty
  | .trap _ g _ b => (guardUses g).and (srcUses b)
  | .rtt _ => Uses.empty
  | .getsr _ g _ _ => (guardUses g)
  | .setsr _ g _ b => (guardUses g).and (srcUses b)
  | .waitpred _ => Uses.empty
  | .sigsucc _ => Uses.empty
  | .traceW _ g _ b => (guardUses g).and (srcUses b)
  | .pathb _ a b => (srcUses a).and (srcUses b)
  | .segl _ g a => (guardUses g).and (readsRun a.val 2)
  | .segq _ g a => (guardUses g).and (readsRun a.val 3)
  | .segc _ g a => (guardUses g).and (readsRun a.val 4)
  | .pathe _ a b => (srcUses a).and (srcUses b)
  | .covrd _ g _ a b => ((guardUses g).and (srcUses a)).and (srcUses b)
  | .issueCycle _ => Uses.empty
  | .resultDelivery _ => Uses.empty
  | .gwctReturn _ => Uses.empty
  | .fenceComplete _ => Uses.empty
  | .fenceSValidation _ => Uses.empty
  | .regionCommit _ => Uses.empty
  | .effectRelease _ => Uses.empty
  | .trayTimerExpiry _ => Uses.empty
  | .seamWaitTimeout _ => Uses.empty
  | .barrierArrivalCount _ => Uses.empty
  | .copyDispatch _ => Uses.empty
  | .copyComplete _ => Uses.empty
  | .operandFetchComplete _ _ => Uses.empty
  | .enginePassGrant _ => Uses.empty
  | .arbiterPromotion _ => Uses.empty
  | .matrixDelivery _ _ => Uses.empty
  | .mmajGatherTimeout _ _ => Uses.empty
  | .fmtemuComplete _ => Uses.empty
  | .collComplete _ => Uses.empty
  | .collMemberTimeout _ _ => Uses.empty
  | .pathOperation _ => Uses.empty
  | .waitmReread _ => Uses.empty
  | .starvationLimit _ => Uses.empty
  | .watchedWaitExpiry _ => Uses.empty
  | .groupRestore _ => Uses.empty
  | .launchAccept _ => Uses.empty
  | .teamAdmission _ => Uses.empty
  | .gridComplete _ => Uses.empty
  | .rd _ _ _ _ _ => Uses.empty
  | .wr _ _ _ _ _ _ => Uses.empty
  | .writePerformed _ _ => Uses.empty
  | .subGranuleMerge _ _ => Uses.empty
  | .readServiceComplete _ _ => Uses.empty
  | .rdata _ _ => Uses.empty
  | .wack _ _ => Uses.empty
  | .writeBufferDrain _ => Uses.empty
  | .crustWriteback _ => Uses.empty
  | .rowRemapComplete _ _ _ => Uses.empty
  | .patrolScrub _ => Uses.empty
  | .bplAdd _ => Uses.empty
  | .bplRemove _ => Uses.empty
  | .bplCommandComplete => Uses.empty
  | .walkComplete _ _ _ _ => Uses.empty
  | .vminvRange => Uses.empty
  | .vminvContext => Uses.empty
  | .vminvAll => Uses.empty
  | .vminvRefuseRange => Uses.empty
  | .invalidationComplete => Uses.empty
  | .sideLogReplay _ => Uses.empty
  | .epochEnd _ => Uses.empty
  | .pageExpansion _ _ _ => Uses.empty
  | .hqDoorbell _ _ => Uses.empty
  | .hqbaseWrite _ _ => Uses.empty
  | .hqctxWrite _ _ => Uses.empty
  | .hqctlWrite _ _ => Uses.empty
  | .hqLaunch _ => Uses.empty
  | .hqRelease _ => Uses.empty
  | .hqAcquire _ => Uses.empty
  | .hqJoin _ => Uses.empty
  | .plctlWrite _ => Uses.empty
  | .teardown => Uses.empty
  | .preempt _ => Uses.empty
  | .resume _ => Uses.empty
  | .contextSaveComplete _ => Uses.empty
  | .traceRingWrite _ => Uses.empty
  | .traceSyncTimer _ => Uses.empty
  | .loss _ => Uses.empty
  | .trctlWrite _ _ => Uses.empty
  | .residueMismatch _ => Uses.empty
  | .parityError _ => Uses.empty
  | .strikeReport _ => Uses.empty
  | .sliceCricketReport _ => Uses.empty
  | .l1Uncorrectable _ _ => Uses.empty
  | .proxyPlacementTimeout _ => Uses.empty
  | .proxyTransferComplete _ => Uses.empty
  | .proxyResume _ => Uses.empty
  | .scoreDecay => Uses.empty
  | .unitTestComplete _ _ _ => Uses.empty
  | .cnscntWrite _ => Uses.empty
  | .hostBar2Read _ _ => Uses.empty
  | .hostBar2Write _ _ => Uses.empty
  | .hostCompletionTimeout _ => Uses.empty
  | .peerInboundRequest _ => Uses.empty
  | .peerReplyTimeout _ => Uses.empty
  | .peerRetry _ => Uses.empty
  | .peerStoreDrop _ => Uses.empty
  | .peerPortDown _ => Uses.empty
  | .peerPortUp _ => Uses.empty
  | .packageReset => Uses.empty
  | .bootStageComplete => Uses.empty
  | .bootStageTimeout => Uses.empty
  | .mbAttest => Uses.empty
  | .mbImageWrite => Uses.empty
  | .mbSlotActivate => Uses.empty
  | .mbCertRead => Uses.empty
  | .mbRestart => Uses.empty
  | .mailboxComplete => Uses.empty
  | .powerControl _ _ _ => Uses.empty
  | .pwrctlWrite _ => Uses.empty
  | .thermalTrip => Uses.empty
  | .registerWrite _ _ => Uses.empty
  | .l2SliceRequest _ => Uses.empty
  | .memberContribution _ _ _ => Uses.empty
  | .powerLoss => Uses.empty

/-- Result-queue entries of a load: one per register (R304). -/
def ldPushes : MemTy → Nat
  | .b128 => 2
  | _ => 1

/-- Result-queue entries a word pushes (R179). -/
def Instr.pushes : Instr → Nat
  | .iadd _ _ _ _ _ _ => 1
  | .isub _ _ _ _ _ _ => 1
  | .iaddc _ _ _ _ _ _ => 1
  | .imul _ _ _ _ _ _ => 1
  | .imulhI _ _ _ _ _ _ => 1
  | .imulhN _ _ _ _ _ _ => 1
  | .imad _ _ _ _ _ _ => 1
  | .andB _ _ _ _ _ _ => 1
  | .orB _ _ _ _ _ _ => 1
  | .xorB _ _ _ _ _ _ => 1
  | .andn _ _ _ _ _ _ => 1
  | .orn _ _ _ _ _ _ => 1
  | .notB _ _ _ _ _ => 1
  | .shl _ _ _ _ _ _ => 1
  | .shr _ _ _ _ _ _ => 1
  | .sar _ _ _ _ _ _ => 1
  | .rol _ _ _ _ _ _ => 1
  | .ror _ _ _ _ _ _ => 1
  | .popc _ _ _ _ _ => 1
  | .clz _ _ _ _ _ => 1
  | .ctz _ _ _ _ _ => 1
  | .brev _ _ _ _ _ => 1
  | .bfeN _ _ _ _ _ _ => 1
  | .bfeI _ _ _ _ _ _ => 1
  | .bfi _ _ _ _ _ _ => 1
  | .minI _ _ _ _ _ _ => 1
  | .minN _ _ _ _ _ _ => 1
  | .maxI _ _ _ _ _ _ => 1
  | .maxN _ _ _ _ _ _ => 1
  | .absI _ _ _ _ _ => 1
  | .negI _ _ _ _ _ => 1
  | .sel _ _ _ _ _ _ => 1
  | .mov _ _ _ _ _ => 1
  | .movs _ _ _ _ _ => 0
  | .lea _ _ _ _ _ _ => 1
  | .icmp32 _ _ _ _ _ _ => 0
  | .icmp64 _ _ _ _ _ _ => 0
  | .pand _ _ _ _ _ => 0
  | .por _ _ _ _ _ => 0
  | .pxor _ _ _ _ _ => 0
  | .pnot _ _ _ _ => 0
  | .pmov _ _ _ _ => 0
  | .censusNz _ _ _ _ => 1
  | .censusLsb _ _ _ _ => 1
  | .censusSgn _ _ _ _ => 1
  | .routeFrom _ _ _ _ _ _ => 1
  | .routeRot _ _ _ _ _ _ => 1
  | .routeShift _ _ _ _ _ _ => 1
  | .routeFlip _ _ _ _ _ _ => 1
  | .peers _ _ _ _ _ => 1
  | .fadd _ _ _ _ _ _ _ => 1
  | .fsub _ _ _ _ _ _ => 1
  | .fmul _ _ _ _ _ _ _ => 1
  | .ffma _ _ _ _ _ _ _ => 1
  | .ffms _ _ _ _ _ _ _ => 1
  | .fnma _ _ _ _ _ _ _ => 1
  | .fmin _ _ _ _ _ _ => 1
  | .fmax _ _ _ _ _ _ => 1
  | .fminNum _ _ _ _ _ _ => 1
  | .fmaxNum _ _ _ _ _ _ => 1
  | .fcmp _ _ _ _ _ _ _ => 0
  | .fcvt _ _ _ _ _ _ _ => 1
  | .fclass _ _ _ _ _ => 1
  | .ffrexp _ _ _ _ _ => 2
  | .fabs _ _ _ _ _ => 1
  | .fneg _ _ _ _ _ => 1
  | .fcpysgn _ _ _ _ _ _ => 1
  | .fscale _ _ _ _ _ _ => 1
  | .fdiv _ _ _ _ _ _ _ => 1
  | .fsqrt _ _ _ _ _ _ => 1
  | .frcp _ _ _ _ _ _ => 1
  | .frsq _ _ _ _ _ _ => 1
  | .fexp2 _ _ _ _ _ => 1
  | .flog2 _ _ _ _ _ => 1
  | .fsin _ _ _ _ _ => 1
  | .fcos _ _ _ _ _ => 1
  | .ftanh _ _ _ _ _ => 1
  | .pkadd16 _ _ _ _ _ _ _ => 1
  | .pkmul16 _ _ _ _ _ _ => 1
  | .pkfma16 _ _ _ _ _ _ => 1
  | .pkfna16 _ _ _ _ _ _ => 1
  | .cvtn _ _ _ _ _ _ _ => 1
  | .dot4I8 _ _ _ _ _ => 1
  | .dot4N8 _ _ _ _ _ => 1
  | .dot8E4m3 _ _ _ _ _ => 1
  | .dot8E5m2 _ _ _ _ _ => 1
  | .sclx _ _ _ _ _ _ => 1
  | .scls _ _ _ _ _ _ => 1
  | .pkaddF32 _ _ _ _ _ _ => 1
  | .pkmulF32 _ _ _ _ _ => 1
  | .pkfmaF32 _ _ _ _ _ => 1
  | .pkfnaF32 _ _ _ _ _ => 1
  | .mmad _ _ _ _ _ _ => 8
  | .mmaF32 _ _ _ _ _ _ => 4
  | .mmaBf16 _ _ _ _ _ => 4
  | .mmaF16 _ _ _ _ _ => 4
  | .mmaq _ _ _ _ _ _ _ => 4
  | .mmas _ _ _ _ _ _ _ _ _ _ => 4
  | .mmat _ _ _ _ _ f => f.dRegs
  | .mmaj _ _ _ _ _ _ => 4
  | .tfact _ _ _ _ _ => 9
  | .tsolv _ _ _ _ _ _ => 1
  | .tref _ _ _ _ _ _ _ => 3
  | .ld _ _ _ _ _ _ ty => ldPushes ty
  | .st _ _ _ _ _ _ => 0
  | .ldl _ _ _ _ _ _ ty => ldPushes ty
  | .stl _ _ _ _ _ _ => 0
  | .ldc _ _ _ _ _ _ ty => ldPushes ty
  | .atom _ _ _ _ _ _ _ _ _ _ => 1
  | .red _ _ _ _ _ _ _ _ => 0
  | .acas _ _ _ _ _ _ _ _ _ _ => 1
  | .axch _ _ _ _ _ _ _ _ _ => 1
  | .fence _ _ _ _ => 0
  | .fenceS _ _ _ _ => 0
  | .waitm _ _ _ _ _ _ => 1
  | .cctlInv _ _ _ => 0
  | .cctlInvall _ => 0
  | .cctlWb _ _ _ => 0
  | .pref _ _ _ _ => 0
  | .copy _ _ _ _ => 0
  | .copyr _ _ _ _ => 0
  | .batch _ _ => 1
  | .waitb _ _ _ => 1
  | .qfence _ _ => 0
  | .tile _ _ _ _ _ => 1
  | .barInit _ _ _ => 0
  | .barArrive _ _ => 0
  | .barWait _ _ _ => 1
  | .barTest _ _ _ => 1
  | .qstat _ _ _ => 1
  | .coll _ _ _ _ => 0
  | .ifW _ _ _ => 0
  | .elseW _ _ => 0
  | .endif _ => 0
  | .loopW _ _ _ => 0
  | .endloop _ _ => 0
  | .brk _ _ => 0
  | .cont _ _ => 0
  | .jmp _ _ _ => 0
  | .call _ _ _ => 0
  | .ret _ _ => 0
  | .exit _ _ => 0
  | .nop _ => 0
  | .launch _ _ _ _ _ => 1
  | .waitchild _ _ _ => 1
  | .spawn _ _ _ _ => 0
  | .yieldW _ _ _ _ => 0
  | .task _ _ => 0
  | .commit _ => 0
  | .regs _ _ _ => 0
  | .endregs _ => 0
  | .grow _ _ _ => 0
  | .shrink _ _ => 0
  | .trap _ _ _ _ => 0
  | .rtt _ => 0
  | .getsr _ _ _ _ => 1
  | .setsr _ _ _ _ => 0
  | .waitpred _ => 0
  | .sigsucc _ => 0
  | .traceW _ _ _ _ => 0
  | .pathb _ _ _ => 0
  | .segl _ _ _ => 0
  | .segq _ _ _ => 0
  | .segc _ _ _ => 0
  | .pathe _ _ _ => 0
  | .covrd _ _ _ _ _ => 1
  | .issueCycle _ => 0
  | .resultDelivery _ => 0
  | .gwctReturn _ => 0
  | .fenceComplete _ => 0
  | .fenceSValidation _ => 0
  | .regionCommit _ => 0
  | .effectRelease _ => 0
  | .trayTimerExpiry _ => 0
  | .seamWaitTimeout _ => 0
  | .barrierArrivalCount _ => 0
  | .copyDispatch _ => 0
  | .copyComplete _ => 0
  | .operandFetchComplete _ _ => 0
  | .enginePassGrant _ => 0
  | .arbiterPromotion _ => 0
  | .matrixDelivery _ _ => 0
  | .mmajGatherTimeout _ _ => 0
  | .fmtemuComplete _ => 0
  | .collComplete _ => 0
  | .collMemberTimeout _ _ => 0
  | .pathOperation _ => 0
  | .waitmReread _ => 0
  | .starvationLimit _ => 0
  | .watchedWaitExpiry _ => 0
  | .groupRestore _ => 0
  | .launchAccept _ => 0
  | .teamAdmission _ => 0
  | .gridComplete _ => 0
  | .rd _ _ _ _ _ => 0
  | .wr _ _ _ _ _ _ => 0
  | .writePerformed _ _ => 0
  | .subGranuleMerge _ _ => 0
  | .readServiceComplete _ _ => 0
  | .rdata _ _ => 0
  | .wack _ _ => 0
  | .writeBufferDrain _ => 0
  | .crustWriteback _ => 0
  | .rowRemapComplete _ _ _ => 0
  | .patrolScrub _ => 0
  | .bplAdd _ => 0
  | .bplRemove _ => 0
  | .bplCommandComplete => 0
  | .walkComplete _ _ _ _ => 0
  | .vminvRange => 0
  | .vminvContext => 0
  | .vminvAll => 0
  | .vminvRefuseRange => 0
  | .invalidationComplete => 0
  | .sideLogReplay _ => 0
  | .epochEnd _ => 0
  | .pageExpansion _ _ _ => 0
  | .hqDoorbell _ _ => 0
  | .hqbaseWrite _ _ => 0
  | .hqctxWrite _ _ => 0
  | .hqctlWrite _ _ => 0
  | .hqLaunch _ => 0
  | .hqRelease _ => 0
  | .hqAcquire _ => 0
  | .hqJoin _ => 0
  | .plctlWrite _ => 0
  | .teardown => 0
  | .preempt _ => 0
  | .resume _ => 0
  | .contextSaveComplete _ => 0
  | .traceRingWrite _ => 0
  | .traceSyncTimer _ => 0
  | .loss _ => 0
  | .trctlWrite _ _ => 0
  | .residueMismatch _ => 0
  | .parityError _ => 0
  | .strikeReport _ => 0
  | .sliceCricketReport _ => 0
  | .l1Uncorrectable _ _ => 0
  | .proxyPlacementTimeout _ => 0
  | .proxyTransferComplete _ => 0
  | .proxyResume _ => 0
  | .scoreDecay => 0
  | .unitTestComplete _ _ _ => 0
  | .cnscntWrite _ => 0
  | .hostBar2Read _ _ => 0
  | .hostBar2Write _ _ => 0
  | .hostCompletionTimeout _ => 0
  | .peerInboundRequest _ => 0
  | .peerReplyTimeout _ => 0
  | .peerRetry _ => 0
  | .peerStoreDrop _ => 0
  | .peerPortDown _ => 0
  | .peerPortUp _ => 0
  | .packageReset => 0
  | .bootStageComplete => 0
  | .bootStageTimeout => 0
  | .mbAttest => 0
  | .mbImageWrite => 0
  | .mbSlotActivate => 0
  | .mbCertRead => 0
  | .mbRestart => 0
  | .mailboxComplete => 0
  | .powerControl _ _ _ => 0
  | .pwrctlWrite _ => 0
  | .thermalTrip => 0
  | .registerWrite _ _ => 0
  | .l2SliceRequest _ => 0
  | .memberContribution _ _ _ => 0
  | .powerLoss => 0

/-- The pipes (R200). -/
inductive Pipe where
  | v
  | sf
  | mem
  | ctl
  | none
  deriving DecidableEq, Repr

/-- The pipe a word issues to (R200). -/
def Instr.pipe : Instr → Pipe
  | .iadd _ _ _ _ _ _ => .v
  | .isub _ _ _ _ _ _ => .v
  | .iaddc _ _ _ _ _ _ => .v
  | .imul _ _ _ _ _ _ => .v
  | .imulhI _ _ _ _ _ _ => .v
  | .imulhN _ _ _ _ _ _ => .v
  | .imad _ _ _ _ _ _ => .v
  | .andB _ _ _ _ _ _ => .v
  | .orB _ _ _ _ _ _ => .v
  | .xorB _ _ _ _ _ _ => .v
  | .andn _ _ _ _ _ _ => .v
  | .orn _ _ _ _ _ _ => .v
  | .notB _ _ _ _ _ => .v
  | .shl _ _ _ _ _ _ => .v
  | .shr _ _ _ _ _ _ => .v
  | .sar _ _ _ _ _ _ => .v
  | .rol _ _ _ _ _ _ => .v
  | .ror _ _ _ _ _ _ => .v
  | .popc _ _ _ _ _ => .v
  | .clz _ _ _ _ _ => .v
  | .ctz _ _ _ _ _ => .v
  | .brev _ _ _ _ _ => .v
  | .bfeN _ _ _ _ _ _ => .v
  | .bfeI _ _ _ _ _ _ => .v
  | .bfi _ _ _ _ _ _ => .v
  | .minI _ _ _ _ _ _ => .v
  | .minN _ _ _ _ _ _ => .v
  | .maxI _ _ _ _ _ _ => .v
  | .maxN _ _ _ _ _ _ => .v
  | .absI _ _ _ _ _ => .v
  | .negI _ _ _ _ _ => .v
  | .sel _ _ _ _ _ _ => .v
  | .mov _ _ _ _ _ => .v
  | .movs _ _ _ _ _ => .ctl
  | .lea _ _ _ _ _ _ => .v
  | .icmp32 _ _ _ _ _ _ => .v
  | .icmp64 _ _ _ _ _ _ => .v
  | .pand _ _ _ _ _ => .v
  | .por _ _ _ _ _ => .v
  | .pxor _ _ _ _ _ => .v
  | .pnot _ _ _ _ => .v
  | .pmov _ _ _ _ => .v
  | .censusNz _ _ _ _ => .v
  | .censusLsb _ _ _ _ => .v
  | .censusSgn _ _ _ _ => .v
  | .routeFrom _ _ _ _ _ _ => .v
  | .routeRot _ _ _ _ _ _ => .v
  | .routeShift _ _ _ _ _ _ => .v
  | .routeFlip _ _ _ _ _ _ => .v
  | .peers _ _ _ _ _ => .v
  | .fadd _ _ _ _ _ _ _ => .v
  | .fsub _ _ _ _ _ _ => .v
  | .fmul _ _ _ _ _ _ _ => .v
  | .ffma _ _ _ _ _ _ _ => .v
  | .ffms _ _ _ _ _ _ _ => .v
  | .fnma _ _ _ _ _ _ _ => .v
  | .fmin _ _ _ _ _ _ => .v
  | .fmax _ _ _ _ _ _ => .v
  | .fminNum _ _ _ _ _ _ => .v
  | .fmaxNum _ _ _ _ _ _ => .v
  | .fcmp _ _ _ _ _ _ _ => .v
  | .fcvt _ _ _ _ _ _ _ => .v
  | .fclass _ _ _ _ _ => .v
  | .ffrexp _ _ _ _ _ => .v
  | .fabs _ _ _ _ _ => .v
  | .fneg _ _ _ _ _ => .v
  | .fcpysgn _ _ _ _ _ _ => .v
  | .fscale _ _ _ _ _ _ => .v
  | .fdiv _ _ _ _ _ _ _ => .sf
  | .fsqrt _ _ _ _ _ _ => .sf
  | .frcp _ _ _ _ _ _ => .sf
  | .frsq _ _ _ _ _ _ => .sf
  | .fexp2 _ _ _ _ _ => .sf
  | .flog2 _ _ _ _ _ => .sf
  | .fsin _ _ _ _ _ => .sf
  | .fcos _ _ _ _ _ => .sf
  | .ftanh _ _ _ _ _ => .sf
  | .pkadd16 _ _ _ _ _ _ _ => .v
  | .pkmul16 _ _ _ _ _ _ => .v
  | .pkfma16 _ _ _ _ _ _ => .v
  | .pkfna16 _ _ _ _ _ _ => .v
  | .cvtn _ _ _ _ _ _ _ => .v
  | .dot4I8 _ _ _ _ _ => .v
  | .dot4N8 _ _ _ _ _ => .v
  | .dot8E4m3 _ _ _ _ _ => .v
  | .dot8E5m2 _ _ _ _ _ => .v
  | .sclx _ _ _ _ _ _ => .v
  | .scls _ _ _ _ _ _ => .v
  | .pkaddF32 _ _ _ _ _ _ => .v
  | .pkmulF32 _ _ _ _ _ => .v
  | .pkfmaF32 _ _ _ _ _ => .v
  | .pkfnaF32 _ _ _ _ _ => .v
  | .mmad _ _ _ _ _ _ => .ctl
  | .mmaF32 _ _ _ _ _ _ => .ctl
  | .mmaBf16 _ _ _ _ _ => .ctl
  | .mmaF16 _ _ _ _ _ => .ctl
  | .mmaq _ _ _ _ _ _ _ => .ctl
  | .mmas _ _ _ _ _ _ _ _ _ _ => .ctl
  | .mmat _ _ _ _ _ _ => .ctl
  | .mmaj _ _ _ _ _ _ => .ctl
  | .tfact _ _ _ _ _ => .ctl
  | .tsolv _ _ _ _ _ _ => .ctl
  | .tref _ _ _ _ _ _ _ => .ctl
  | .ld _ _ _ _ _ _ _ => .mem
  | .st _ _ _ _ _ _ => .mem
  | .ldl _ _ _ _ _ _ _ => .mem
  | .stl _ _ _ _ _ _ => .mem
  | .ldc _ _ _ _ _ _ _ => .mem
  | .atom _ _ _ _ _ _ _ _ _ _ => .mem
  | .red _ _ _ _ _ _ _ _ => .mem
  | .acas _ _ _ _ _ _ _ _ _ _ => .mem
  | .axch _ _ _ _ _ _ _ _ _ => .mem
  | .fence _ _ _ _ => .mem
  | .fenceS _ _ _ _ => .mem
  | .waitm _ _ _ _ _ _ => .mem
  | .cctlInv _ _ _ => .mem
  | .cctlInvall _ => .mem
  | .cctlWb _ _ _ => .mem
  | .pref _ _ _ _ => .mem
  | .copy _ _ _ _ => .mem
  | .copyr _ _ _ _ => .mem
  | .batch _ _ => .mem
  | .waitb _ _ _ => .mem
  | .qfence _ _ => .mem
  | .tile _ _ _ _ _ => .mem
  | .barInit _ _ _ => .ctl
  | .barArrive _ _ => .ctl
  | .barWait _ _ _ => .ctl
  | .barTest _ _ _ => .ctl
  | .qstat _ _ _ => .ctl
  | .coll _ _ _ _ => .mem
  | .ifW _ _ _ => .ctl
  | .elseW _ _ => .ctl
  | .endif _ => .ctl
  | .loopW _ _ _ => .ctl
  | .endloop _ _ => .ctl
  | .brk _ _ => .ctl
  | .cont _ _ => .ctl
  | .jmp _ _ _ => .ctl
  | .call _ _ _ => .ctl
  | .ret _ _ => .ctl
  | .exit _ _ => .ctl
  | .nop _ => .none
  | .launch _ _ _ _ _ => .ctl
  | .waitchild _ _ _ => .ctl
  | .spawn _ _ _ _ => .ctl
  | .yieldW _ _ _ _ => .ctl
  | .task _ _ => .ctl
  | .commit _ => .ctl
  | .regs _ _ _ => .ctl
  | .endregs _ => .ctl
  | .grow _ _ _ => .ctl
  | .shrink _ _ => .ctl
  | .trap _ _ _ _ => .ctl
  | .rtt _ => .ctl
  | .getsr _ _ _ _ => .ctl
  | .setsr _ _ _ _ => .ctl
  | .waitpred _ => .ctl
  | .sigsucc _ => .ctl
  | .traceW _ _ _ _ => .ctl
  | .pathb _ _ _ => .mem
  | .segl _ _ _ => .mem
  | .segq _ _ _ => .mem
  | .segc _ _ _ => .mem
  | .pathe _ _ _ => .mem
  | .covrd _ _ _ _ _ => .mem
  | .issueCycle _ => .none
  | .resultDelivery _ => .none
  | .gwctReturn _ => .none
  | .fenceComplete _ => .none
  | .fenceSValidation _ => .none
  | .regionCommit _ => .none
  | .effectRelease _ => .none
  | .trayTimerExpiry _ => .none
  | .seamWaitTimeout _ => .none
  | .barrierArrivalCount _ => .none
  | .copyDispatch _ => .none
  | .copyComplete _ => .none
  | .operandFetchComplete _ _ => .none
  | .enginePassGrant _ => .none
  | .arbiterPromotion _ => .none
  | .matrixDelivery _ _ => .none
  | .mmajGatherTimeout _ _ => .none
  | .fmtemuComplete _ => .none
  | .collComplete _ => .none
  | .collMemberTimeout _ _ => .none
  | .pathOperation _ => .none
  | .waitmReread _ => .none
  | .starvationLimit _ => .none
  | .watchedWaitExpiry _ => .none
  | .groupRestore _ => .none
  | .launchAccept _ => .none
  | .teamAdmission _ => .none
  | .gridComplete _ => .none
  | .rd _ _ _ _ _ => .none
  | .wr _ _ _ _ _ _ => .none
  | .writePerformed _ _ => .none
  | .subGranuleMerge _ _ => .none
  | .readServiceComplete _ _ => .none
  | .rdata _ _ => .none
  | .wack _ _ => .none
  | .writeBufferDrain _ => .none
  | .crustWriteback _ => .none
  | .rowRemapComplete _ _ _ => .none
  | .patrolScrub _ => .none
  | .bplAdd _ => .none
  | .bplRemove _ => .none
  | .bplCommandComplete => .none
  | .walkComplete _ _ _ _ => .none
  | .vminvRange => .none
  | .vminvContext => .none
  | .vminvAll => .none
  | .vminvRefuseRange => .none
  | .invalidationComplete => .none
  | .sideLogReplay _ => .none
  | .epochEnd _ => .none
  | .pageExpansion _ _ _ => .none
  | .hqDoorbell _ _ => .none
  | .hqbaseWrite _ _ => .none
  | .hqctxWrite _ _ => .none
  | .hqctlWrite _ _ => .none
  | .hqLaunch _ => .none
  | .hqRelease _ => .none
  | .hqAcquire _ => .none
  | .hqJoin _ => .none
  | .plctlWrite _ => .none
  | .teardown => .none
  | .preempt _ => .none
  | .resume _ => .none
  | .contextSaveComplete _ => .none
  | .traceRingWrite _ => .none
  | .traceSyncTimer _ => .none
  | .loss _ => .none
  | .trctlWrite _ _ => .none
  | .residueMismatch _ => .none
  | .parityError _ => .none
  | .strikeReport _ => .none
  | .sliceCricketReport _ => .none
  | .l1Uncorrectable _ _ => .none
  | .proxyPlacementTimeout _ => .none
  | .proxyTransferComplete _ => .none
  | .proxyResume _ => .none
  | .scoreDecay => .none
  | .unitTestComplete _ _ _ => .none
  | .cnscntWrite _ => .none
  | .hostBar2Read _ _ => .none
  | .hostBar2Write _ _ => .none
  | .hostCompletionTimeout _ => .none
  | .peerInboundRequest _ => .none
  | .peerReplyTimeout _ => .none
  | .peerRetry _ => .none
  | .peerStoreDrop _ => .none
  | .peerPortDown _ => .none
  | .peerPortUp _ => .none
  | .packageReset => .none
  | .bootStageComplete => .none
  | .bootStageTimeout => .none
  | .mbAttest => .none
  | .mbImageWrite => .none
  | .mbSlotActivate => .none
  | .mbCertRead => .none
  | .mbRestart => .none
  | .mailboxComplete => .none
  | .powerControl _ _ _ => .none
  | .pwrctlWrite _ => .none
  | .thermalTrip => .none
  | .registerWrite _ _ => .none
  | .l2SliceRequest _ => .none
  | .memberContribution _ _ _ => .none
  | .powerLoss => .none

/-- A word of major 0x3C other than NOP, or of major 0x3D (R202 reason 0x6, R373). -/
def Instr.endsChain : Instr → Bool
  | .iadd _ _ _ _ _ _ => false
  | .isub _ _ _ _ _ _ => false
  | .iaddc _ _ _ _ _ _ => false
  | .imul _ _ _ _ _ _ => false
  | .imulhI _ _ _ _ _ _ => false
  | .imulhN _ _ _ _ _ _ => false
  | .imad _ _ _ _ _ _ => false
  | .andB _ _ _ _ _ _ => false
  | .orB _ _ _ _ _ _ => false
  | .xorB _ _ _ _ _ _ => false
  | .andn _ _ _ _ _ _ => false
  | .orn _ _ _ _ _ _ => false
  | .notB _ _ _ _ _ => false
  | .shl _ _ _ _ _ _ => false
  | .shr _ _ _ _ _ _ => false
  | .sar _ _ _ _ _ _ => false
  | .rol _ _ _ _ _ _ => false
  | .ror _ _ _ _ _ _ => false
  | .popc _ _ _ _ _ => false
  | .clz _ _ _ _ _ => false
  | .ctz _ _ _ _ _ => false
  | .brev _ _ _ _ _ => false
  | .bfeN _ _ _ _ _ _ => false
  | .bfeI _ _ _ _ _ _ => false
  | .bfi _ _ _ _ _ _ => false
  | .minI _ _ _ _ _ _ => false
  | .minN _ _ _ _ _ _ => false
  | .maxI _ _ _ _ _ _ => false
  | .maxN _ _ _ _ _ _ => false
  | .absI _ _ _ _ _ => false
  | .negI _ _ _ _ _ => false
  | .sel _ _ _ _ _ _ => false
  | .mov _ _ _ _ _ => false
  | .movs _ _ _ _ _ => false
  | .lea _ _ _ _ _ _ => false
  | .icmp32 _ _ _ _ _ _ => false
  | .icmp64 _ _ _ _ _ _ => false
  | .pand _ _ _ _ _ => false
  | .por _ _ _ _ _ => false
  | .pxor _ _ _ _ _ => false
  | .pnot _ _ _ _ => false
  | .pmov _ _ _ _ => false
  | .censusNz _ _ _ _ => false
  | .censusLsb _ _ _ _ => false
  | .censusSgn _ _ _ _ => false
  | .routeFrom _ _ _ _ _ _ => false
  | .routeRot _ _ _ _ _ _ => false
  | .routeShift _ _ _ _ _ _ => false
  | .routeFlip _ _ _ _ _ _ => false
  | .peers _ _ _ _ _ => false
  | .fadd _ _ _ _ _ _ _ => false
  | .fsub _ _ _ _ _ _ => false
  | .fmul _ _ _ _ _ _ _ => false
  | .ffma _ _ _ _ _ _ _ => false
  | .ffms _ _ _ _ _ _ _ => false
  | .fnma _ _ _ _ _ _ _ => false
  | .fmin _ _ _ _ _ _ => false
  | .fmax _ _ _ _ _ _ => false
  | .fminNum _ _ _ _ _ _ => false
  | .fmaxNum _ _ _ _ _ _ => false
  | .fcmp _ _ _ _ _ _ _ => false
  | .fcvt _ _ _ _ _ _ _ => false
  | .fclass _ _ _ _ _ => false
  | .ffrexp _ _ _ _ _ => false
  | .fabs _ _ _ _ _ => false
  | .fneg _ _ _ _ _ => false
  | .fcpysgn _ _ _ _ _ _ => false
  | .fscale _ _ _ _ _ _ => false
  | .fdiv _ _ _ _ _ _ _ => false
  | .fsqrt _ _ _ _ _ _ => false
  | .frcp _ _ _ _ _ _ => false
  | .frsq _ _ _ _ _ _ => false
  | .fexp2 _ _ _ _ _ => false
  | .flog2 _ _ _ _ _ => false
  | .fsin _ _ _ _ _ => false
  | .fcos _ _ _ _ _ => false
  | .ftanh _ _ _ _ _ => false
  | .pkadd16 _ _ _ _ _ _ _ => false
  | .pkmul16 _ _ _ _ _ _ => false
  | .pkfma16 _ _ _ _ _ _ => false
  | .pkfna16 _ _ _ _ _ _ => false
  | .cvtn _ _ _ _ _ _ _ => false
  | .dot4I8 _ _ _ _ _ => false
  | .dot4N8 _ _ _ _ _ => false
  | .dot8E4m3 _ _ _ _ _ => false
  | .dot8E5m2 _ _ _ _ _ => false
  | .sclx _ _ _ _ _ _ => false
  | .scls _ _ _ _ _ _ => false
  | .pkaddF32 _ _ _ _ _ _ => false
  | .pkmulF32 _ _ _ _ _ => false
  | .pkfmaF32 _ _ _ _ _ => false
  | .pkfnaF32 _ _ _ _ _ => false
  | .mmad _ _ _ _ _ _ => false
  | .mmaF32 _ _ _ _ _ _ => false
  | .mmaBf16 _ _ _ _ _ => false
  | .mmaF16 _ _ _ _ _ => false
  | .mmaq _ _ _ _ _ _ _ => false
  | .mmas _ _ _ _ _ _ _ _ _ _ => false
  | .mmat _ _ _ _ _ _ => false
  | .mmaj _ _ _ _ _ _ => false
  | .tfact _ _ _ _ _ => false
  | .tsolv _ _ _ _ _ _ => false
  | .tref _ _ _ _ _ _ _ => false
  | .ld _ _ _ _ _ _ _ => false
  | .st _ _ _ _ _ _ => false
  | .ldl _ _ _ _ _ _ _ => false
  | .stl _ _ _ _ _ _ => false
  | .ldc _ _ _ _ _ _ _ => false
  | .atom _ _ _ _ _ _ _ _ _ _ => false
  | .red _ _ _ _ _ _ _ _ => false
  | .acas _ _ _ _ _ _ _ _ _ _ => false
  | .axch _ _ _ _ _ _ _ _ _ => false
  | .fence _ _ _ _ => false
  | .fenceS _ _ _ _ => false
  | .waitm _ _ _ _ _ _ => false
  | .cctlInv _ _ _ => false
  | .cctlInvall _ => false
  | .cctlWb _ _ _ => false
  | .pref _ _ _ _ => false
  | .copy _ _ _ _ => false
  | .copyr _ _ _ _ => false
  | .batch _ _ => false
  | .waitb _ _ _ => false
  | .qfence _ _ => false
  | .tile _ _ _ _ _ => false
  | .barInit _ _ _ => false
  | .barArrive _ _ => false
  | .barWait _ _ _ => false
  | .barTest _ _ _ => false
  | .qstat _ _ _ => false
  | .coll _ _ _ _ => false
  | .ifW _ _ _ => true
  | .elseW _ _ => true
  | .endif _ => true
  | .loopW _ _ _ => true
  | .endloop _ _ => true
  | .brk _ _ => true
  | .cont _ _ => true
  | .jmp _ _ _ => true
  | .call _ _ _ => true
  | .ret _ _ => true
  | .exit _ _ => true
  | .nop _ => false
  | .launch _ _ _ _ _ => true
  | .waitchild _ _ _ => true
  | .spawn _ _ _ _ => true
  | .yieldW _ _ _ _ => true
  | .task _ _ => true
  | .commit _ => true
  | .regs _ _ _ => true
  | .endregs _ => true
  | .grow _ _ _ => true
  | .shrink _ _ => true
  | .trap _ _ _ _ => true
  | .rtt _ => true
  | .getsr _ _ _ _ => true
  | .setsr _ _ _ _ => true
  | .waitpred _ => true
  | .sigsucc _ => true
  | .traceW _ _ _ _ => true
  | .pathb _ _ _ => false
  | .segl _ _ _ => false
  | .segq _ _ _ => false
  | .segc _ _ _ => false
  | .pathe _ _ _ => false
  | .covrd _ _ _ _ _ => false
  | .issueCycle _ => false
  | .resultDelivery _ => false
  | .gwctReturn _ => false
  | .fenceComplete _ => false
  | .fenceSValidation _ => false
  | .regionCommit _ => false
  | .effectRelease _ => false
  | .trayTimerExpiry _ => false
  | .seamWaitTimeout _ => false
  | .barrierArrivalCount _ => false
  | .copyDispatch _ => false
  | .copyComplete _ => false
  | .operandFetchComplete _ _ => false
  | .enginePassGrant _ => false
  | .arbiterPromotion _ => false
  | .matrixDelivery _ _ => false
  | .mmajGatherTimeout _ _ => false
  | .fmtemuComplete _ => false
  | .collComplete _ => false
  | .collMemberTimeout _ _ => false
  | .pathOperation _ => false
  | .waitmReread _ => false
  | .starvationLimit _ => false
  | .watchedWaitExpiry _ => false
  | .groupRestore _ => false
  | .launchAccept _ => false
  | .teamAdmission _ => false
  | .gridComplete _ => false
  | .rd _ _ _ _ _ => false
  | .wr _ _ _ _ _ _ => false
  | .writePerformed _ _ => false
  | .subGranuleMerge _ _ => false
  | .readServiceComplete _ _ => false
  | .rdata _ _ => false
  | .wack _ _ => false
  | .writeBufferDrain _ => false
  | .crustWriteback _ => false
  | .rowRemapComplete _ _ _ => false
  | .patrolScrub _ => false
  | .bplAdd _ => false
  | .bplRemove _ => false
  | .bplCommandComplete => false
  | .walkComplete _ _ _ _ => false
  | .vminvRange => false
  | .vminvContext => false
  | .vminvAll => false
  | .vminvRefuseRange => false
  | .invalidationComplete => false
  | .sideLogReplay _ => false
  | .epochEnd _ => false
  | .pageExpansion _ _ _ => false
  | .hqDoorbell _ _ => false
  | .hqbaseWrite _ _ => false
  | .hqctxWrite _ _ => false
  | .hqctlWrite _ _ => false
  | .hqLaunch _ => false
  | .hqRelease _ => false
  | .hqAcquire _ => false
  | .hqJoin _ => false
  | .plctlWrite _ => false
  | .teardown => false
  | .preempt _ => false
  | .resume _ => false
  | .contextSaveComplete _ => false
  | .traceRingWrite _ => false
  | .traceSyncTimer _ => false
  | .loss _ => false
  | .trctlWrite _ _ => false
  | .residueMismatch _ => false
  | .parityError _ => false
  | .strikeReport _ => false
  | .sliceCricketReport _ => false
  | .l1Uncorrectable _ _ => false
  | .proxyPlacementTimeout _ => false
  | .proxyTransferComplete _ => false
  | .proxyResume _ => false
  | .scoreDecay => false
  | .unitTestComplete _ _ _ => false
  | .cnscntWrite _ => false
  | .hostBar2Read _ _ => false
  | .hostBar2Write _ _ => false
  | .hostCompletionTimeout _ => false
  | .peerInboundRequest _ => false
  | .peerReplyTimeout _ => false
  | .peerRetry _ => false
  | .peerStoreDrop _ => false
  | .peerPortDown _ => false
  | .peerPortUp _ => false
  | .packageReset => false
  | .bootStageComplete => false
  | .bootStageTimeout => false
  | .mbAttest => false
  | .mbImageWrite => false
  | .mbSlotActivate => false
  | .mbCertRead => false
  | .mbRestart => false
  | .mailboxComplete => false
  | .powerControl _ _ _ => false
  | .pwrctlWrite _ => false
  | .thermalTrip => false
  | .registerWrite _ _ => false
  | .l2SliceRequest _ => false
  | .memberContribution _ _ _ => false
  | .powerLoss => false

/-- The lookahead window L4 of a word; zero where the format has none (R208). -/
def Instr.window : Instr → Nat
  | .iadd _ _ _ _ _ _ => 0
  | .isub _ _ _ _ _ _ => 0
  | .iaddc _ _ _ _ _ _ => 0
  | .imul _ _ _ _ _ _ => 0
  | .imulhI _ _ _ _ _ _ => 0
  | .imulhN _ _ _ _ _ _ => 0
  | .imad _ _ _ _ _ _ => 0
  | .andB _ _ _ _ _ _ => 0
  | .orB _ _ _ _ _ _ => 0
  | .xorB _ _ _ _ _ _ => 0
  | .andn _ _ _ _ _ _ => 0
  | .orn _ _ _ _ _ _ => 0
  | .notB _ _ _ _ _ => 0
  | .shl _ _ _ _ _ _ => 0
  | .shr _ _ _ _ _ _ => 0
  | .sar _ _ _ _ _ _ => 0
  | .rol _ _ _ _ _ _ => 0
  | .ror _ _ _ _ _ _ => 0
  | .popc _ _ _ _ _ => 0
  | .clz _ _ _ _ _ => 0
  | .ctz _ _ _ _ _ => 0
  | .brev _ _ _ _ _ => 0
  | .bfeN _ _ _ _ _ _ => 0
  | .bfeI _ _ _ _ _ _ => 0
  | .bfi _ _ _ _ _ _ => 0
  | .minI _ _ _ _ _ _ => 0
  | .minN _ _ _ _ _ _ => 0
  | .maxI _ _ _ _ _ _ => 0
  | .maxN _ _ _ _ _ _ => 0
  | .absI _ _ _ _ _ => 0
  | .negI _ _ _ _ _ => 0
  | .sel _ _ _ _ _ _ => 0
  | .mov _ _ _ _ _ => 0
  | .movs _ _ _ _ _ => 0
  | .lea _ _ _ _ _ _ => 0
  | .icmp32 _ _ _ _ _ _ => 0
  | .icmp64 _ _ _ _ _ _ => 0
  | .pand _ _ _ _ _ => 0
  | .por _ _ _ _ _ => 0
  | .pxor _ _ _ _ _ => 0
  | .pnot _ _ _ _ => 0
  | .pmov _ _ _ _ => 0
  | .censusNz _ _ _ _ => 0
  | .censusLsb _ _ _ _ => 0
  | .censusSgn _ _ _ _ => 0
  | .routeFrom _ _ _ _ _ _ => 0
  | .routeRot _ _ _ _ _ _ => 0
  | .routeShift _ _ _ _ _ _ => 0
  | .routeFlip _ _ _ _ _ _ => 0
  | .peers _ _ _ _ _ => 0
  | .fadd _ _ _ _ _ _ _ => 0
  | .fsub _ _ _ _ _ _ => 0
  | .fmul _ _ _ _ _ _ _ => 0
  | .ffma _ _ _ _ _ _ _ => 0
  | .ffms _ _ _ _ _ _ _ => 0
  | .fnma _ _ _ _ _ _ _ => 0
  | .fmin _ _ _ _ _ _ => 0
  | .fmax _ _ _ _ _ _ => 0
  | .fminNum _ _ _ _ _ _ => 0
  | .fmaxNum _ _ _ _ _ _ => 0
  | .fcmp _ _ _ _ _ _ _ => 0
  | .fcvt _ _ _ _ _ _ _ => 0
  | .fclass _ _ _ _ _ => 0
  | .ffrexp _ _ _ _ _ => 0
  | .fabs _ _ _ _ _ => 0
  | .fneg _ _ _ _ _ => 0
  | .fcpysgn _ _ _ _ _ _ => 0
  | .fscale _ _ _ _ _ _ => 0
  | .fdiv _ l _ _ _ _ _ => l.val
  | .fsqrt _ l _ _ _ _ => l.val
  | .frcp _ l _ _ _ _ => l.val
  | .frsq _ l _ _ _ _ => l.val
  | .fexp2 _ l _ _ _ => l.val
  | .flog2 _ l _ _ _ => l.val
  | .fsin _ l _ _ _ => l.val
  | .fcos _ l _ _ _ => l.val
  | .ftanh _ l _ _ _ => l.val
  | .pkadd16 _ _ _ _ _ _ _ => 0
  | .pkmul16 _ _ _ _ _ _ => 0
  | .pkfma16 _ _ _ _ _ _ => 0
  | .pkfna16 _ _ _ _ _ _ => 0
  | .cvtn _ _ _ _ _ _ _ => 0
  | .dot4I8 _ _ _ _ _ => 0
  | .dot4N8 _ _ _ _ _ => 0
  | .dot8E4m3 _ _ _ _ _ => 0
  | .dot8E5m2 _ _ _ _ _ => 0
  | .sclx _ _ _ _ _ _ => 0
  | .scls _ _ _ _ _ _ => 0
  | .pkaddF32 _ _ _ _ _ _ => 0
  | .pkmulF32 _ _ _ _ _ => 0
  | .pkfmaF32 _ _ _ _ _ => 0
  | .pkfnaF32 _ _ _ _ _ => 0
  | .mmad _ l _ _ _ _ => l.val
  | .mmaF32 _ l _ _ _ _ => l.val
  | .mmaBf16 _ l _ _ _ => l.val
  | .mmaF16 _ l _ _ _ => l.val
  | .mmaq _ l _ _ _ _ _ => l.val
  | .mmas l _ _ _ _ _ _ _ _ _ => l.val
  | .mmat _ l _ _ _ _ => l.val
  | .mmaj _ l _ _ _ _ => l.val
  | .tfact _ l _ _ _ => l.val
  | .tsolv _ l _ _ _ _ => l.val
  | .tref l _ _ _ _ _ _ => l.val
  | .ld _ l _ _ _ _ _ => l.val
  | .st _ _ _ _ _ _ => 0
  | .ldl _ l _ _ _ _ _ => l.val
  | .stl _ _ _ _ _ _ => 0
  | .ldc _ l _ _ _ _ _ => l.val
  | .atom _ l _ _ _ _ _ _ _ _ => l.val
  | .red _ _ _ _ _ _ _ _ => 0
  | .acas _ l _ _ _ _ _ _ _ _ => l.val
  | .axch _ l _ _ _ _ _ _ _ => l.val
  | .fence _ _ _ _ => 0
  | .fenceS _ _ _ _ => 0
  | .waitm _ _ l _ _ _ => l.val
  | .cctlInv _ _ _ => 0
  | .cctlInvall _ => 0
  | .cctlWb _ _ _ => 0
  | .pref _ _ _ _ => 0
  | .copy _ _ _ _ => 0
  | .copyr _ _ _ _ => 0
  | .batch _ l => l.val
  | .waitb _ l _ => l.val
  | .qfence _ _ => 0
  | .tile _ _ l _ _ => l.val
  | .barInit _ _ _ => 0
  | .barArrive _ _ => 0
  | .barWait _ l _ => l.val
  | .barTest _ l _ => l.val
  | .qstat _ l _ => l.val
  | .coll _ _ _ _ => 0
  | .ifW _ _ _ => 0
  | .elseW _ _ => 0
  | .endif _ => 0
  | .loopW _ _ _ => 0
  | .endloop _ _ => 0
  | .brk _ _ => 0
  | .cont _ _ => 0
  | .jmp _ _ _ => 0
  | .call _ _ _ => 0
  | .ret _ _ => 0
  | .exit _ _ => 0
  | .nop _ => 0
  | .launch _ _ l _ _ => l.val
  | .waitchild _ l _ => l.val
  | .spawn _ _ _ _ => 0
  | .yieldW _ _ _ _ => 0
  | .task _ _ => 0
  | .commit _ => 0
  | .regs _ _ _ => 0
  | .endregs _ => 0
  | .grow _ _ _ => 0
  | .shrink _ _ => 0
  | .trap _ _ _ _ => 0
  | .rtt _ => 0
  | .getsr _ _ l _ => l.val
  | .setsr _ _ _ _ => 0
  | .waitpred _ => 0
  | .sigsucc _ => 0
  | .traceW _ _ _ _ => 0
  | .pathb _ _ _ => 0
  | .segl _ _ _ => 0
  | .segq _ _ _ => 0
  | .segc _ _ _ => 0
  | .pathe _ _ _ => 0
  | .covrd _ _ l _ _ => l.val
  | .issueCycle _ => 0
  | .resultDelivery _ => 0
  | .gwctReturn _ => 0
  | .fenceComplete _ => 0
  | .fenceSValidation _ => 0
  | .regionCommit _ => 0
  | .effectRelease _ => 0
  | .trayTimerExpiry _ => 0
  | .seamWaitTimeout _ => 0
  | .barrierArrivalCount _ => 0
  | .copyDispatch _ => 0
  | .copyComplete _ => 0
  | .operandFetchComplete _ _ => 0
  | .enginePassGrant _ => 0
  | .arbiterPromotion _ => 0
  | .matrixDelivery _ _ => 0
  | .mmajGatherTimeout _ _ => 0
  | .fmtemuComplete _ => 0
  | .collComplete _ => 0
  | .collMemberTimeout _ _ => 0
  | .pathOperation _ => 0
  | .waitmReread _ => 0
  | .starvationLimit _ => 0
  | .watchedWaitExpiry _ => 0
  | .groupRestore _ => 0
  | .launchAccept _ => 0
  | .teamAdmission _ => 0
  | .gridComplete _ => 0
  | .rd _ _ _ _ _ => 0
  | .wr _ _ _ _ _ _ => 0
  | .writePerformed _ _ => 0
  | .subGranuleMerge _ _ => 0
  | .readServiceComplete _ _ => 0
  | .rdata _ _ => 0
  | .wack _ _ => 0
  | .writeBufferDrain _ => 0
  | .crustWriteback _ => 0
  | .rowRemapComplete _ _ _ => 0
  | .patrolScrub _ => 0
  | .bplAdd _ => 0
  | .bplRemove _ => 0
  | .bplCommandComplete => 0
  | .walkComplete _ _ _ _ => 0
  | .vminvRange => 0
  | .vminvContext => 0
  | .vminvAll => 0
  | .vminvRefuseRange => 0
  | .invalidationComplete => 0
  | .sideLogReplay _ => 0
  | .epochEnd _ => 0
  | .pageExpansion _ _ _ => 0
  | .hqDoorbell _ _ => 0
  | .hqbaseWrite _ _ => 0
  | .hqctxWrite _ _ => 0
  | .hqctlWrite _ _ => 0
  | .hqLaunch _ => 0
  | .hqRelease _ => 0
  | .hqAcquire _ => 0
  | .hqJoin _ => 0
  | .plctlWrite _ => 0
  | .teardown => 0
  | .preempt _ => 0
  | .resume _ => 0
  | .contextSaveComplete _ => 0
  | .traceRingWrite _ => 0
  | .traceSyncTimer _ => 0
  | .loss _ => 0
  | .trctlWrite _ _ => 0
  | .residueMismatch _ => 0
  | .parityError _ => 0
  | .strikeReport _ => 0
  | .sliceCricketReport _ => 0
  | .l1Uncorrectable _ _ => 0
  | .proxyPlacementTimeout _ => 0
  | .proxyTransferComplete _ => 0
  | .proxyResume _ => 0
  | .scoreDecay => 0
  | .unitTestComplete _ _ _ => 0
  | .cnscntWrite _ => 0
  | .hostBar2Read _ _ => 0
  | .hostBar2Write _ _ => 0
  | .hostCompletionTimeout _ => 0
  | .peerInboundRequest _ => 0
  | .peerReplyTimeout _ => 0
  | .peerRetry _ => 0
  | .peerStoreDrop _ => 0
  | .peerPortDown _ => 0
  | .peerPortUp _ => 0
  | .packageReset => 0
  | .bootStageComplete => 0
  | .bootStageTimeout => 0
  | .mbAttest => 0
  | .mbImageWrite => 0
  | .mbSlotActivate => 0
  | .mbCertRead => 0
  | .mbRestart => 0
  | .mailboxComplete => 0
  | .powerControl _ _ _ => 0
  | .pwrctlWrite _ => 0
  | .thermalTrip => 0
  | .registerWrite _ _ => 0
  | .l2SliceRequest _ => 0
  | .memberContribution _ _ _ => 0
  | .powerLoss => 0

/-- Words an instruction takes with its literal or modifier (R206, R207). -/
def Instr.width (i : Instr) : Nat := (encode i).length

end Sys2Proof
end

