-- ==== Sys2Proof/Machine/Flags.lean ====
section
/-! DEFINITION. Formats, the one rounding function and the flags it raises; arithmetic, conversions, minimum, compare and
class over bit patterns (spec/07 R147-R170, spec/11 R240-R250, spec/12 R258-R262). -/

namespace Sys2Proof.Machine

/-! ## Flags -/

/-- Exception flags (R167). -/
abbrev FFlags := BitVec 5

/-- Invalid operation (R167). -/
def flagNv : FFlags := 16
/-- Division by zero (R167). -/
def flagDz : FFlags := 8
/-- Overflow (R167). -/
def flagOf : FFlags := 4
/-- Underflow (R167). -/
def flagUf : FFlags := 2
/-- Inexact (R167). -/
def flagNx : FFlags := 1

/-- A flag raised on a condition. -/
def flagIf (b : Bool) (f : FFlags) : FFlags := if b then f else 0

/-! ## Formats -/

/-- The floating-point formats with a datapath (R147, R155). -/
inductive Fmt where
  | f64
  | f32
  | f16
  | bf16
  | e4m3
  | e5m2
  deriving DecidableEq, Repr

/-- Width in bits (R147). -/
def Fmt.bits : Fmt → Nat
  | .f64 => 64 | .f32 => 32 | .f16 => 16 | .bf16 => 16 | .e4m3 => 8 | .e5m2 => 8

/-- Fraction bits (R147). -/
def Fmt.frac : Fmt → Nat
  | .f64 => 52 | .f32 => 23 | .f16 => 10 | .bf16 => 7 | .e4m3 => 3 | .e5m2 => 2

/-- Exponent bits (R147). -/
def Fmt.expo (f : Fmt) : Nat := f.bits - 1 - f.frac

/-- Exponent bias (R147). -/
def Fmt.bias : Fmt → Int
  | .f64 => 1023 | .f32 => 127 | .f16 => 15 | .bf16 => 127 | .e4m3 => 7 | .e5m2 => 15

/-- Precision (R158). -/
def Fmt.p (f : Fmt) : Nat := f.frac + 1

/-- Exponent of the smallest normal (R158). -/
def Fmt.emin (f : Fmt) : Int := 1 - f.bias

/-- Bits of the largest finite value, without sign (R147). -/
def Fmt.maxBits : Fmt → Nat
  | .f64 => 0x7FEFFFFFFFFFFFFF | .f32 => 0x7F7FFFFF | .f16 => 0x7BFF | .bf16 => 0x7F7F | .e4m3 => 0x7E | .e5m2 => 0x7B

/-- Bits of +∞; .e4m3 has none and takes its NaN (R147, R159). -/
def Fmt.infBits : Fmt → Nat
  | .f64 => 0x7FF0000000000000 | .f32 => 0x7F800000 | .f16 => 0x7C00 | .bf16 => 0x7F80 | .e4m3 => 0x7F | .e5m2 => 0x7C

/-- Bits of the default NaN (R148). -/
def Fmt.nanBits : Fmt → Nat
  | .f64 => 0x7FF8000000000000 | .f32 => 0x7FC00000 | .f16 => 0x7E00 | .bf16 => 0x7FC0 | .e4m3 => 0x7F | .e5m2 => 0x7E

/-- The sign bit's weight. -/
def Fmt.sign (f : Fmt) : Nat := 2 ^ (f.bits - 1)

/-- A value: a NaN with sign, payload aligned to 52 bits and signalling mark; an infinity; or (-1)^s × m × 2^e. -/
inductive FVal where
  | nan (s : Bool) (pay : Nat) (sig : Bool)
  | inf (s : Bool)
  | fin (s : Bool) (m : Nat) (e : Int)
  deriving DecidableEq, Repr

/-- The value of a bit pattern (R147, R148). An FP8 NaN carries no payload (R162). -/
def Fmt.value (f : Fmt) (x : Nat) : FVal :=
  let s := x / f.sign % 2 == 1
  let e := x / 2 ^ f.frac % 2 ^ f.expo
  let m := x % 2 ^ f.frac
  if f = .e4m3 then
    if e = 15 ∧ m = 7 then .nan s (2 ^ 51) false
    else if e = 0 then .fin s m (-9) else .fin s (m + 8) ((e : Int) - 10)
  else if e = 2 ^ f.expo - 1 then
    if m = 0 then .inf s
    else .nan s (if f = .e5m2 then 2 ^ 51 else m * 2 ^ (52 - f.frac)) (m / 2 ^ (f.frac - 1) % 2 == 0)
  else if e = 0 then .fin s m (f.emin - f.frac)
  else .fin s (m + 2 ^ f.frac) ((e : Int) - f.bias - f.frac)

/-- The value is a NaN. -/
def FVal.isNan : FVal → Bool
  | .nan _ _ _ => true
  | _ => false

/-- The value is a signalling NaN (R148). -/
def FVal.isSig : FVal → Bool
  | .nan _ _ s => s
  | _ => false

/-- The sign of a value. -/
def FVal.sign : FVal → Bool
  | .nan s _ _ => s
  | .inf s => s
  | .fin s _ _ => s

/-- The value with its sign inverted; a NaN stays (R241). -/
def FVal.neg : FVal → FVal
  | .nan s p q => .nan s p q
  | .inf s => .inf !s
  | .fin s m e => .fin (!s) m e

/-- The value is a zero. -/
def FVal.isZero : FVal → Bool
  | .fin _ m _ => m == 0
  | _ => false

/-- A magnitude with a sign. -/
def Fmt.signed (f : Fmt) (s : Bool) (x : Nat) : Nat := if s then x + f.sign else x

/-- A NaN written in a format: quieted, sign kept, payload kept to the width; FP8 targets take R163's codes (R161-R163). -/
def Fmt.nan (f : Fmt) (s : Bool) (pay : Nat) : Nat :=
  match f with
  | .e4m3 => f.signed s 0x7F
  | .e5m2 => f.signed s 0x7E
  | _ => f.signed s (Nat.lor f.nanBits (pay / 2 ^ (52 - f.frac)))

/-- Bits with the flags raised in making them. -/
abbrev FRes := Nat × FFlags

/-! ## Rounding -/

/-- Whether the upper neighbour is taken: `lo` and whether the exact value is above it, its remainder against half of
the spacing (R158). -/
def roundsUp (mode : Rnd) (s : Bool) (lo : Nat) (inexact : Bool) (half : Ordering) : Bool :=
  match mode with
  | .rn => half == .gt || (half == .eq && lo % 2 == 1)
  | .ra => half != .lt
  | .rz => false
  | .ru => inexact && !s
  | .rd => inexact && s
  | .ro => inexact && lo % 2 == 0

/-- Rounds `num × 2^exp`, or with `sticky` a value strictly between it and the next multiple of `2^exp`, to a multiple of
`2^qe`: the multiple and whether it differs (R158). With `sticky`, `exp` lies below `qe`. -/
def roundAt (mode : Rnd) (s : Bool) (num : Nat) (exp : Int) (sticky : Bool) (qe : Int) : Nat × Bool :=
  if qe ≤ exp then (num * 2 ^ (exp - qe).toNat, sticky)
  else
    let sh := (qe - exp).toNat
    let lo := num / 2 ^ sh
    let rest := num % 2 ^ sh
    let h := 2 ^ (sh - 1)
    let half := if rest < h then Ordering.lt else if h < rest ∨ sticky then Ordering.gt else Ordering.eq
    let inexact := rest != 0 || sticky
    (if roundsUp mode s lo inexact half then lo + 1 else lo, inexact)

/-- `a × 2^x < b × 2^y`. -/
def dyLt (a : Nat) (x : Int) (b : Nat) (y : Int) : Bool :=
  let e := min x y
  decide (a * 2 ^ (x - e).toNat < b * 2 ^ (y - e).toNat)

/-- The bits of `n × 2^qe` with `n ≤ 2^p`, the subnormal spacing included (R147). -/
def Fmt.pack (f : Fmt) (n : Nat) (qe : Int) : Nat :=
  if n = 0 then 0
  else if n < 2 ^ f.frac then n
  else ((qe + f.frac + f.bias).toNat) * 2 ^ f.frac + (n - 2 ^ f.frac)

/-- The overflowed result (R159, R163). -/
def Fmt.overflow (f : Fmt) (mode : Rnd) (sat s : Bool) : Nat :=
  let toMax : Bool := match mode with
    | .rz | .ro => true
    | .rn | .ra => false
    | .ru => s
    | .rd => !s
  let fp8 := f == .e4m3 || f == .e5m2
  if toMax || (fp8 && sat) then f.signed s f.maxBits else f.signed s f.infBits

/-- The largest finite value as mantissa and exponent. -/
def Fmt.maxFin (f : Fmt) : Nat × Int :=
  match f.value f.maxBits with
  | .fin _ m e => (m, e)
  | _ => (0, 0)

/-- RoundTo of a non-zero finite value, with the flags it raises (R158, R159, R149, R167). -/
def Fmt.roundFin (f : Fmt) (mode : Rnd) (sat s : Bool) (num : Nat) (exp : Int) (sticky : Bool) : FRes :=
  let e0 : Int := (Nat.log2 num : Int) + exp
  let e := max e0 f.emin
  let qe := e - f.p + 1
  let (n, inexact) := roundAt mode s num exp sticky qe
  let (mm, me) := f.maxFin
  if dyLt mm me n qe then (f.overflow mode sat s, flagOf ||| flagNx)
  else
    let (u, _) := roundAt mode s num exp sticky (e0 - f.p + 1)
    let tiny := dyLt u (e0 - f.p + 1) 1 f.emin
    (f.signed s (f.pack n qe), flagIf inexact flagNx ||| flagIf (inexact && tiny) flagUf)

/-- A zero of a format. -/
def Fmt.zero (f : Fmt) (s : Bool) : Nat := f.signed s 0

/-- The default NaN with NV (R161). -/
def Fmt.invalid (f : Fmt) : FRes := (f.nanBits, flagNv)

/-- RoundTo of a value as a conversion does it: NaNs by R161-R163, infinities by R163 (R158, R162, R163). -/
def Fmt.convert (f : Fmt) (mode : Rnd) (sat : Bool) (v : FVal) : FRes :=
  match v with
  | .nan s p q => (f.nan s p, flagIf q flagNv)
  | .inf s =>
    if f = .e4m3 then
      if sat then (f.signed s f.maxBits, flagOf ||| flagNx) else (f.signed s f.infBits, flagNv)
    else if f = .e5m2 ∧ sat then (f.signed s f.maxBits, flagOf ||| flagNx)
    else (f.signed s f.infBits, 0)
  | .fin s m e => if m = 0 then (f.zero s, 0) else f.roundFin mode sat s m e false

/-! ## Exact dyadic numbers -/

/-- An exact number `m × 2^e`. -/
structure Dy where
  m : Int
  e : Int
  deriving DecidableEq, Repr

/-- Zero. -/
def Dy.zero : Dy := ⟨0, 0⟩

/-- Exact sum. -/
def Dy.add (a b : Dy) : Dy :=
  if a.m = 0 then b else if b.m = 0 then a
  else
    let e := min a.e b.e
    ⟨a.m * (2 : Int) ^ (a.e - e).toNat + b.m * (2 : Int) ^ (b.e - e).toNat, e⟩

/-- Exact product. -/
def Dy.mul (a b : Dy) : Dy := ⟨a.m * b.m, a.e + b.e⟩

/-- Exact negation. -/
def Dy.neg (a : Dy) : Dy := ⟨-a.m, a.e⟩

/-- Exact comparison. -/
def Dy.cmp (a b : Dy) : Ordering := compare (a.add b.neg).m 0

/-- A finite value as an exact number. -/
def FVal.dy : FVal → Dy
  | .fin s m e => ⟨if s then -(m : Int) else m, e⟩
  | _ => Dy.zero

/-- RoundTo of an exact non-zero sum, and of an exact zero with the signs of its operands (R158, R160). -/
def Fmt.roundSum (f : Fmt) (mode : Rnd) (x : Dy) (sa sb : Bool) : FRes :=
  if x.m = 0 then (f.zero (if sa = sb then sa else mode == .rd), 0)
  else f.roundFin mode false (decide (x.m < 0)) x.m.natAbs x.e false

/-- The first NaN of some operands, quieted; a signalling one raises NV (R161). -/
def Fmt.firstNan (f : Fmt) (xs : List FVal) : Option FRes :=
  let fl := flagIf (xs.any FVal.isSig) flagNv
  (xs.filterMap fun x => match x with
    | .nan s p _ => some (f.nan s p, fl)
    | _ => none).head?

/-! ## Arithmetic -/

/-- The sum of two values that are no NaNs (R240, R160, R161). -/
def Fmt.addV (f : Fmt) (mode : Rnd) (a b : FVal) : FRes :=
  match a, b with
  | .inf s, .inf t => if s = t then (f.signed s f.infBits, 0) else f.invalid
  | .inf s, _ => (f.signed s f.infBits, 0)
  | _, .inf t => (f.signed t f.infBits, 0)
  | x, y => f.roundSum mode (x.dy.add y.dy) x.sign y.sign

/-- FADD (R240). -/
def Fmt.add (f : Fmt) (mode : Rnd) (a b : Nat) : FRes :=
  let x := f.value a
  let y := f.value b
  (f.firstNan [x, y]).getD (f.addV mode x y)

/-- FSUB (R240). -/
def Fmt.sub (f : Fmt) (mode : Rnd) (a b : Nat) : FRes :=
  let x := f.value a
  let y := f.value b
  (f.firstNan [x, y]).getD (f.addV mode x y.neg)

/-- A product of values, exact: a NaN for a NaN operand and for 0 × ∞ (R161, R172). -/
def mulV (a b : FVal) : FVal :=
  match a, b with
  | .nan s p q, _ => .nan s p q
  | _, .nan s p q => .nan s p q
  | .inf s, y => if y.isZero then .nan false (2 ^ 51) false else .inf (s != y.sign)
  | x, .inf t => if x.isZero then .nan false (2 ^ 51) false else .inf (x.sign != t)
  | .fin s m e, .fin t n g => .fin (s != t) (m * n) (e + g)

/-- FMUL (R240). -/
def Fmt.mul (f : Fmt) (mode : Rnd) (a b : Nat) : FRes :=
  let x := f.value a
  let y := f.value b
  (f.firstNan [x, y]).getD <|
    match mulV x y with
    | .nan _ _ _ => f.invalid
    | .inf s => (f.signed s f.infBits, 0)
    | .fin s m e => if m = 0 then (f.zero s, 0) else f.roundFin mode false s m e false

/-- The three fused forms: p + c, p − c, c − p (R241). -/
inductive Fused where
  | pc
  | pmc
  | cmp
  deriving DecidableEq, Repr

/-- FFMA, FFMS and FNMA on values (R241, R161). -/
def Fmt.fmaV (f : Fmt) (k : Fused) (mode : Rnd) (x y z : FVal) : FRes :=
  let p := mulV x y
  let bad := !x.isNan && !y.isNan && p.isNan
  match f.firstNan [x, y, z] with
  | some r => (r.1, r.2 ||| flagIf bad flagNv)
  | none =>
    if bad then f.invalid
    else
      match k with
      | .pc => f.addV mode p z
      | .pmc => f.addV mode p z.neg
      | .cmp => f.addV mode z p.neg

/-- FFMA, FFMS and FNMA on bits (R241). -/
def Fmt.fma (f : Fmt) (k : Fused) (mode : Rnd) (a b c : Nat) : FRes := f.fmaV k mode (f.value a) (f.value b) (f.value c)

/-- Bits of quotient kept beyond the precision in a division. -/
def guardBits : Nat := 70

/-- A quotient of positive numbers as a number with a sticky mark. -/
def quot (a b : Nat) (e : Int) : Nat × Int × Bool :=
  let k := Nat.log2 b + guardBits
  (a * 2 ^ k / b, e - k, a * 2 ^ k % b != 0)

/-- FDIV (R252, R161). -/
def Fmt.div (f : Fmt) (mode : Rnd) (a b : Nat) : FRes :=
  let x := f.value a
  let y := f.value b
  (f.firstNan [x, y]).getD <|
    match x, y with
    | .inf _, .inf _ => f.invalid
    | .inf s, z => (f.signed (s != z.sign) f.infBits, 0)
    | z, .inf t => (f.zero (z.sign != t), 0)
    | .fin s m e, .fin t n g =>
      if n = 0 then (if m = 0 then f.invalid else (f.signed (s != t) f.infBits, flagDz))
      else if m = 0 then (f.zero (s != t), 0)
      else
        let (q, e', st) := quot m n (e - g)
        f.roundFin mode false (s != t) q e' st
    | _, _ => f.invalid

/-- FRCP: one divided by the operand (R252). -/
def Fmt.rcp (f : Fmt) (mode : Rnd) (a : Nat) : FRes := f.div mode (f.bias.toNat * 2 ^ f.frac) a

/-- Integer square root with a sticky mark of `m × 2^e`: at least `2 × guardBits` bits under the root. -/
def rootOf (m : Nat) (e : Int) : Nat × Int × Bool :=
  let k : Nat := 2 * guardBits + (e % 2).toNat
  let x := m * 2 ^ k
  let r := Nat.sqrt x
  (r, (e - k) / 2, r * r != x)

/-- FSQRT (R252). -/
def Fmt.sqrt (f : Fmt) (mode : Rnd) (a : Nat) : FRes :=
  let x := f.value a
  (f.firstNan [x]).getD <|
    match x with
    | .inf s => if s then f.invalid else (f.infBits, 0)
    | .fin s m e =>
      if m = 0 then (f.zero s, 0)
      else if s then f.invalid
      else
        let (r, e', st) := rootOf m e
        f.roundFin mode false false r e' st
    | _ => f.invalid

/-- The reciprocal square root of `m × 2^e` in whole units, rounded down, with a sticky mark: the root of `2^k / m` with
`e + k` even. -/
def rsqOf (m : Nat) (e : Int) : Nat × Int × Bool :=
  let k0 : Nat := 4 * guardBits + 2 * Nat.log2 m
  let k := if (e + k0) % 2 = 0 then k0 else k0 + 1
  let r := Nat.sqrt (2 ^ k / m)
  (r, (-e - k) / 2, r * r * m != 2 ^ k)

/-- FRSQ, correctly rounded (R252). -/
def Fmt.rsq (f : Fmt) (mode : Rnd) (a : Nat) : FRes :=
  let x := f.value a
  (f.firstNan [x]).getD <|
    match x with
    | .inf s => if s then f.invalid else (f.zero false, 0)
    | .fin s m e =>
      if m = 0 then (f.signed s f.infBits, flagDz)
      else if s then f.invalid
      else
        let (r, e', st) := rsqOf m e
        f.roundFin mode false false r e' st
    | _ => f.invalid

/-- FSCALE: a × 2^n, a NaN by R161 on a alone (R248). -/
def Fmt.scale (f : Fmt) (mode : Rnd) (a : Nat) (n : Int) : FRes :=
  let x := f.value a
  (f.firstNan [x]).getD <|
    match x with
    | .fin s m e => if m = 0 then (f.zero s, 0) else f.roundFin mode false s m (e + max (-4096) (min n 4096)) false
    | .inf s => (f.signed s f.infBits, 0)
    | _ => f.invalid

/-! ## Order -/

/-- The order of two values that are no NaNs; −0 equals +0 (R243). -/
def cmpV (a b : FVal) : Ordering :=
  match a, b with
  | .inf s, .inf t => if s = t then .eq else if s then .lt else .gt
  | .inf s, _ => if s then .lt else .gt
  | _, .inf t => if t then .gt else .lt
  | x, y => x.dy.cmp y.dy

/-- FMIN and FMAX on operands that are no NaNs: −0 lies below +0 (R242). -/
def Fmt.pick (f : Fmt) (wantMax : Bool) (a b : Nat) : Nat :=
  let x := f.value a
  let y := f.value b
  let aLess : Bool := match cmpV x y with
    | .lt => true
    | .gt => false
    | .eq => x.sign || !y.sign
  if aLess != wantMax then a else b

/-- FMIN and FMAX (R242). -/
def Fmt.minMax (f : Fmt) (wantMax : Bool) (a b : Nat) : FRes :=
  let a := a % 2 ^ f.bits
  let b := b % 2 ^ f.bits
  (f.firstNan [f.value a, f.value b]).getD (f.pick wantMax a b, 0)

/-- FMIN.num and FMAX.num: one NaN gives the other operand (R242). -/
def Fmt.minMaxNum (f : Fmt) (wantMax : Bool) (a b : Nat) : FRes :=
  let a := a % 2 ^ f.bits
  let b := b % 2 ^ f.bits
  let x := f.value a
  let y := f.value b
  let fl := flagIf (x.isSig || y.isSig) flagNv
  match x.isNan, y.isNan with
  | true, true => (f.firstNan [x, y]).getD (0, fl)
  | true, false => (b, fl)
  | false, true => (a, fl)
  | false, false => (f.pick wantMax a b, fl)

/-- FCMP: outcome and flags (R243). -/
def Fmt.compare (f : Fmt) (c : FCond) (a b : Nat) : Bool × FFlags :=
  let x := f.value a
  let y := f.value b
  let un := x.isNan || y.isNan
  let quiet := flagIf (x.isSig || y.isSig) flagNv
  let loud := flagIf un flagNv
  let o := cmpV x y
  match c with
  | .eq => (!un && o == .eq, quiet)
  | .ne => (un || o != .eq, quiet)
  | .lt => (!un && o == .lt, loud)
  | .le => (!un && o != .gt, loud)
  | .gt => (!un && o == .gt, loud)
  | .ge => (!un && o != .lt, loud)
  | .un => (un, quiet)
  | .ord => (!un, quiet)

/-- FCLASS: one bit set (R246). -/
def Fmt.classOf (f : Fmt) (a : Nat) : Nat :=
  match f.value a with
  | .inf true => 2 ^ 0
  | .inf false => 2 ^ 7
  | .nan _ _ true => 2 ^ 8
  | .nan _ _ false => 2 ^ 9
  | .fin s m _ =>
    if m = 0 then (if s then 2 ^ 3 else 2 ^ 4)
    else if m < 2 ^ f.frac then (if s then 2 ^ 2 else 2 ^ 5)
    else if s then 2 ^ 1 else 2 ^ 6

/-- FFREXP: the fraction's bits, the exponent and the flags (R247). -/
def Fmt.frexp (f : Fmt) (a : Nat) : Nat × Int × FFlags :=
  match f.value a with
  | .nan s p q => (f.nan s p, 0, flagIf q flagNv)
  | .inf s => (f.signed s f.infBits, 0, 0)
  | .fin s m e =>
    if m = 0 then (f.zero s, 0, 0)
    else
      let x : Int := (Nat.log2 m : Int) + e + 1
      ((f.roundFin .rn false s m (e - x) false).1, x, 0)

/-! ## Integers -/

/-- A conversion to an integer type of width `w`, signed or not (R164). -/
def toInt (v : FVal) (mode : Rnd) (signed : Bool) (w : Nat) : Nat × FFlags :=
  let hi : Int := if signed then 2 ^ (w - 1) - 1 else 2 ^ w - 1
  let lo : Int := if signed then -(2 ^ (w - 1)) else 0
  match v with
  | .nan _ _ _ => (0, flagNv)
  | .inf s => (wrapInt w (if s then lo else hi), flagNv)
  | .fin s m e =>
    if 128 < (Nat.log2 m : Int) + e ∧ m ≠ 0 then (wrapInt w (if s then lo else hi), flagNv)
    else
      let (n, inexact) := roundAt mode s m e false 0
      let x : Int := if s then -(n : Int) else n
      if hi < x then (wrapInt w hi, flagNv)
      else if x < lo then (wrapInt w lo, flagNv)
      else (wrapInt w x, flagIf inexact flagNx)

/-- A conversion from an integer (R165). -/
def Fmt.ofInt (f : Fmt) (mode : Rnd) (x : Int) : FRes :=
  if x = 0 then (0, 0) else f.roundFin mode false (decide (x < 0)) x.natAbs 0 false

/-- Rounds to an integral value in the same format (R245). -/
def Fmt.integral (f : Fmt) (mode : Rnd) (a : Nat) : FRes :=
  match f.value a with
  | .nan s p q => (f.nan s p, flagIf q flagNv)
  | .inf s => (f.signed s f.infBits, 0)
  | .fin s m e =>
    let (n, inexact) := roundAt mode s m e false 0
    if n = 0 then (f.zero s, flagIf inexact flagNx)
    else ((f.roundFin .rn false s n 0 false).1, flagIf inexact flagNx)

/-! ## The E2M1 block format -/

/-- Twice the magnitude of an element code (R150). -/
def e2m1Mag (c : Nat) : Nat := [0, 1, 2, 3, 4, 6, 8, 12].getD (c % 8) 0

/-- The value of an element code under a block word (R151). A NaN takes SPECIAL's sign, or is positive for a NaN scale
(R172). -/
def blockValue (c word : Nat) : FVal :=
  let s : Int := (word % 256 : Nat) - 127
  if word % 256 = 255 then .nan false (2 ^ 51) false
  else if c % 16 = 8 then
    match Fmt.e4m3.value (word / 256 % 256) with
    | .fin sg m e => .fin sg m (e + s)
    | v => v
  else .fin (c / 8 % 2 == 1) (e2m1Mag c) (s - 1)

/-- The candidates of a block word: codes with exact values, one code to a value (R166). -/
def e2m1Cands (word : Nat) : List (Nat × Dy) :=
  let plain := ((List.range 16).filter (· != 8)).map fun c => (c, (blockValue c word).dy)
  match blockValue 8 word with
  | .fin s m e =>
    let sp := (FVal.fin s m e).dy
    match plain.find? fun x => x.2.cmp sp == .eq with
    | some x => if x.1 % 2 = 0 then plain else (8, sp) :: plain.filter fun y => y.1 != x.1
    | none => (8, sp) :: plain
  | _ => plain

/-- The greater of two candidates. -/
def candMax (a b : Nat × Dy) : Nat × Dy := if a.2.cmp b.2 == .lt then b else a

/-- The lesser of two candidates. -/
def candMin (a b : Nat × Dy) : Nat × Dy := if b.2.cmp a.2 == .lt then b else a

/-- The candidate of smaller magnitude. -/
def candSmall (a b : Nat × Dy) : Nat × Dy :=
  if (Dy.mk b.2.m.natAbs b.2.e).cmp ⟨a.2.m.natAbs, a.2.e⟩ == .lt then b else a

/-- Chooses between the neighbours of an inexact value (R166). -/
def candRound (mode : Rnd) (x : Dy) (lo hi : Nat × Dy) : Nat × Dy :=
  let small := candSmall lo hi
  let large := if small.1 = lo.1 then hi else lo
  let even := if lo.1 % 2 = hi.1 % 2 then small else if lo.1 % 2 = 0 then lo else hi
  let odd := if lo.1 % 2 = hi.1 % 2 then small else if lo.1 % 2 = 1 then lo else hi
  let twice := x.add x
  let mid := lo.2.add hi.2
  let near (tie : Nat × Dy) := match twice.cmp mid with
    | .lt => lo
    | .gt => hi
    | .eq => tie
  match mode with
  | .rn => near even
  | .ra => near large
  | .rz => small
  | .ru => hi
  | .rd => lo
  | .ro => odd

/-- A conversion into an E2M1 element (R166). -/
def toE2m1 (word : Nat) (mode : Rnd) (v : FVal) : Nat × FFlags :=
  if word % 256 = 255 then (0, flagNv)
  else
    let cs := e2m1Cands word
    let top := cs.foldl candMax (0, Dy.zero)
    let bottom := cs.foldl candMin (0, Dy.zero)
    match v with
    | .nan _ _ _ => if (Fmt.e4m3.value (word / 256 % 256)).isNan then (8, 0) else (0, flagNv)
    | .inf s => ((if s then bottom else top).1, flagOf ||| flagNx)
    | .fin s m e =>
      let x := (FVal.fin s m e).dy
      if top.2.cmp x == .lt then (top.1, flagOf ||| flagNx)
      else if x.cmp bottom.2 == .lt then (bottom.1, flagOf ||| flagNx)
      else
        let lo := (cs.filter fun c => c.2.cmp x != .gt).foldl candMax bottom
        let hi := (cs.filter fun c => c.2.cmp x != .lt).foldl candMin top
        if lo.2.cmp x == .eq then (lo.1, 0)
        else ((candRound mode x lo hi).1, flagNx)

/-- The least integer `e` with |m| ≤ 6 × 2^e, for a non-zero magnitude (R261). -/
def ceilLogSixth (m : Nat) (x : Int) : Int :=
  let e0 : Int := (Nat.log2 m : Int) + x - 3
  let fits (e : Int) : Bool := !dyLt 6 e m x
  if fits e0 then e0 else if fits (e0 + 1) then e0 + 1 else e0 + 2

/-- SCLS: the block word for a block's largest value (R261). -/
def blockWord (m : Nat) : Nat × FFlags :=
  match Fmt.f32.value m with
  | .nan _ _ _ => (0x7FFF, flagNv)
  | .inf s => ((if s then 0xFE else 0x7E) * 256 + 0xFE, flagOf)
  | .fin s n e =>
    if n = 0 then (0x007F, 0)
    else
      let sc : Int := min (max (127 + ceilLogSixth n e) 0) 0xFE
      ((Fmt.e4m3.roundFin .rn true s n (e - (sc - 127)) false).1 * 256 + sc.toNat, 0)

/-! ## Sums of k-groups -/

/-- One k-group: acc + S rounded once to .f32 under .rn; the elements carry the format's NaN as .f32 NaNs (R172). -/
def kGroup (acc : Nat) (ab : List (FVal × FVal)) : FRes :=
  let f := Fmt.f32
  let av := f.value acc
  let els := ab.flatMap fun x => [x.1, x.2]
  let sig := (els ++ [av]).any FVal.isSig
  let prods := ab.map fun x => mulV x.1 x.2
  let zeroInf := ab.any fun x => !x.1.isNan && !x.2.isNan && (mulV x.1 x.2).isNan
  let infs := prods.filterMap fun p => match p with
    | .inf s => some s
    | _ => none
  let meet := infs.contains true && infs.contains false
  let nv := flagIf (sig || zeroInf || meet) flagNv
  match f.firstNan els with
  | some r => (r.1, nv)
  | none =>
    match f.firstNan [av] with
    | some r => (r.1, nv)
    | none =>
      if zeroInf || meet then f.invalid
      else
        match infs.head? with
        | some s =>
          match av with
          | .inf t => if s = t then (f.signed s f.infBits, 0) else f.invalid
          | _ => (f.signed s f.infBits, 0)
        | none =>
          match av with
          | .inf t => (f.signed t f.infBits, 0)
          | _ =>
            let sum := prods.foldl (fun d p => d.add p.dy) Dy.zero
            let neg := prods.all fun p => p.isZero && p.sign
            f.roundSum .rn (av.dy.add sum) av.sign (if sum.m = 0 then neg else decide (sum.m < 0))

end Sys2Proof.Machine
end

