-- ==== Sys2Proof/Machine/Base.lean ====
section
/-! DEFINITION. Accessors of the state: groups, splits, teams, grids, time, lane registers, sectors as bytes, and the
trace queues (spec/01 R13-R15, spec/08, spec/20 R447-R450). -/

namespace Sys2Proof.Machine

/-- The three outcomes over this machine. -/
abbrev Out := Host.Outcome State Fault Refusal

/-- The key of a group slot: 32 slots to a core (R1). -/
def unitKey (u : UnitRef) : Nat := u.core * 32 + u.slot

/-- The core of a group key. -/
def coreOf (k : Nat) : Nat := k / 32

/-- The slot of a group key. -/
def slotOf (k : Nat) : Nat := k % 32

/-- The cluster of a core (R13). -/
def clusterOf (core : Nat) : Nat := core / 4

/-- The compute die of a core (R13). -/
def dieOf (core : Nat) : Nat := core / 96

/-- A bit as a number. -/
def b2n (b : Bool) : Nat := if b then 1 else 0

/-- A 64-bit value of a number. -/
def w64 (n : Nat) : W64 := BitVec.ofNat 64 n

/-- A resident group. -/
def State.group? (s : State) (k : Nat) : Option Group := NMap.get? s.work.groups k

/-- Writes a group. -/
def State.setGroup (s : State) (k : Nat) (g : Group) : State :=
  { s with work := { s.work with groups := NMap.set s.work.groups k g } }

/-- Frees a group slot. -/
def State.dropGroup (s : State) (k : Nat) : State :=
  { s with work := { s.work with groups := NMap.erase s.work.groups k } }

/-- Changes a group. -/
def State.onGroup (s : State) (k : Nat) (f : Group → Group) : State :=
  match s.group? k with
  | some g => s.setGroup k (f g)
  | none => s

/-- A team. -/
def State.team? (s : State) (k : Nat) : Option Team := NMap.get? s.work.teams k

/-- Writes a team. -/
def State.setTeam (s : State) (k : Nat) (t : Team) : State :=
  { s with work := { s.work with teams := NMap.set s.work.teams k t } }

/-- Changes a team. -/
def State.onTeam (s : State) (k : Nat) (f : Team → Team) : State :=
  match s.team? k with
  | some t => s.setTeam k (f t)
  | none => s

/-- A grid. -/
def State.grid? (s : State) (k : Nat) : Option Grid := NMap.get? s.work.grids k

/-- Changes a grid. -/
def State.onGrid (s : State) (k : Nat) (f : Grid → Grid) : State :=
  { s with work := { s.work with grids := NMap.adjust s.work.grids k f } }

/-- A context. -/
def State.ctx? (s : State) (c : Nat) : Option Ctx := NMap.get? s.work.ctxs c

/-- Changes the memory side. -/
def State.onMs (s : State) (f : MemSide → MemSide) : State := { s with ms := f s.ms }

/-- Changes translation and placement. -/
def State.onVm (s : State) (f : VmSide → VmSide) : State := { s with vm := f s.vm }

/-- Changes the dispatcher's holdings. -/
def State.onWork (s : State) (f : Work → Work) : State := { s with work := f s.work }

/-- Changes the engines. -/
def State.onEng (s : State) (f : Engines → Engines) : State := { s with eng := f s.eng }

/-- Changes the package block. -/
def State.onPkg (s : State) (f : Package → Package) : State := { s with pkg := f s.pkg }

/-- DTIME as programs read it (R15). -/
def State.dtime (s : State) : Nat := s.clock.dtime

/-- The starvation limit: values below 4,096 act as 4,096 (R363). -/
def State.starve (s : State) : Nat := max s.work.sched.starve 4096

/-- A host write of a register takes effect: DTIME has passed the host horizon (R122). -/
def State.hostReady (s : State) : Bool := s.ms.hostHorizon == 0 || decide (s.ms.hostHorizon < s.clock.dtime)

/-- A register write by the host, once it may take effect (R122). -/
def hostWrite (s : State) (f : State → State) : State := if s.hostReady then f s else s

/-- A fresh number for a free value (LOG 1). -/
def State.draw (s : State) : Nat × State := (s.freeCtr, { s with freeCtr := s.freeCtr + 1 })

/-- One arithmetic-clock cycle: DTIME gains 1000 / mhz ns, its fraction kept (R14, R15). -/
def Clock.tick (c : Clock) : Clock :=
  let f := c.frac + 1000
  { c with cycle := c.cycle + 1, dtime := c.dtime + f / c.mhz, frac := f % c.mhz }

/-- A split of a group. -/
def Group.split? (g : Group) (id : Nat) : Option Split := g.splits.find? fun sp => sp.id == id

/-- Writes a split of a group. -/
def Group.setSplit (g : Group) (sp : Split) : Group :=
  { g with splits := g.splits.map fun x => if x.id == sp.id then sp else x }

/-- The group is divided (R368). -/
def Group.inSplits (g : Group) : Bool := decide (1 < g.splits.length)

/-- Scope size, zero while no scope is open (R177). -/
def Group.names (g : Group) : Nat := g.regs.scope.getD 0

/-- A named register (R177). -/
def Group.reg (g : Group) (n : Nat) : LaneReg := g.regs.v.toArray.toList.getD n LaneReg.zero

/-- Entry `n` of the result queue, the newest being 0 (R179). -/
def Group.aged (g : Group) (n : Nat) : LaneReg := g.regs.rq.toArray.toList.getD n LaneReg.zero

/-- A scalar register (R182). -/
def Group.scalar (g : Group) (n : Nat) : W64 := g.regs.sreg.toArray.toList.getD n 0

/-- A predicate (R183). -/
def Group.pred (g : Group) (n : Nat) : Mask := g.regs.p.toArray.toList.getD n 0

/-- Changes the registers of a group. -/
def Group.onRegs (g : Group) (f : Regs → Regs) : Group := { g with regs := f g.regs }

/-- Changes the system registers of a group. -/
def Group.onSys (g : Group) (f : SysRegs → SysRegs) : Group := { g with sys := f g.sys }

/-- The lanes of `m` take the new value, the others keep the old one (R191). -/
def LaneReg.merge (m : Mask) (new old : LaneReg) : LaneReg :=
  LaneReg.ofFn fun l => if m.has l then new.lane l else old.lane l

/-- Writes a named register in the lanes of `m` (R191). -/
def Group.setReg (g : Group) (n : Nat) (m : Mask) (x : LaneReg) : Group :=
  g.onRegs fun r => { r with v := r.v.setIfInBounds n (LaneReg.merge m x (g.reg n)) }

/-- Writes a scalar register (R229). -/
def Group.setScalar (g : Group) (n : Nat) (x : W64) : Group :=
  g.onRegs fun r => { r with sreg := r.sreg.setIfInBounds n x }

/-- Writes a predicate in the lanes of `m` (R191). -/
def Group.setPred (g : Group) (n : Nat) (m x : Mask) : Group :=
  g.onRegs fun r => { r with p := r.p.setIfInBounds n ((x &&& m) ||| (g.pred n &&& ~~~m)) }

/-- Pushes one entry: the lanes of the split shift, the active ones take the value and the others zero (R179, R191).
Entries of results whose window may be open, of those lanes, grow one older. -/
def Group.push (g : Group) (lanes act : Mask) (x : LaneReg) : Group :=
  let entry (i : Nat) : LaneReg :=
    LaneReg.ofFn fun l =>
      if lanes.has l then
        if i = 0 then (if act.has l then x.lane l else 0) else (g.aged (i - 1)).lane l
      else (g.aged i).lane l
  let older (p : Pending) : Pending :=
    { p with ages := p.ages.zipIdx.map fun a => if lanes.has a.2 then a.1 + 1 else a.1 }
  { g.onRegs fun r => { r with rq := ⟨⟨(List.range 16).map entry⟩, by simp⟩ } with
    pend := g.pend.map older, late := g.late.map older }

/-- Raises HORIZON (R103). -/
def Group.raiseHorizon (g : Group) (t : Nat) : Group :=
  g.onSys fun x => { x with horizon := max x.horizon t }

/-- Raises exception flags (R168). -/
def Group.raiseFlags (g : Group) (f : BitVec 5) : Group := g.onSys fun x => { x with fflags := x.fflags ||| f }

/-- A packet and slot in the form of XPC (R390). -/
def Pc.code (p : Pc) : W64 := w64 (p.packet % 2 ^ 32 * 4 + p.slot % 4)

/-- The word `n` slots further: the next packet's slot 0 follows slot 2 (R199). -/
def Pc.add (p : Pc) (n : Nat) : Pc :=
  if p.slot + n < 3 then ⟨p.packet, p.slot + n⟩ else ⟨p.packet + 1, 0⟩

/-- Byte `i` of a sector. -/
def Sector.byte (x : Sector) (i : Nat) : Byte := (x >>> (8 * i)).setWidth 8

/-- A sector of bytes, lowest address first. -/
def Sector.ofBytes (f : Nat → Byte) : Sector :=
  BitVec.ofNat 256 (leNat ((List.range 32).map f))

/-- The bytes of `new` where the byte mask is set, else those of `old` (R78). -/
def Sector.mergeBytes (m : Word32) (new old : Sector) : Sector :=
  Sector.ofBytes fun i => if m.getLsbD i then Sector.byte new i else Sector.byte old i

/-- Bytes `i` to `i + n - 1` of a sector as a number (R7). -/
def Sector.field (x : Sector) (i n : Nat) : Nat := (x.toNat / 2 ^ (8 * i)) % 2 ^ (8 * n)

/-- A mask of `n` bytes from byte `i`. -/
def byteMask (i n : Nat) : Word32 := BitVec.ofNat 32 ((2 ^ n - 1) * 2 ^ i)

/-- The lanes of a group that its trace and TRACECTL settings select (R392). -/
def Group.traced (g : Group) : Bool := g.sys.tracectl.getLsbD 0

/-- The trace unit of a die. -/
def State.traceUnit (s : State) (die : Nat) : TraceUnit := s.pkg.trace.getD die ⟨0, 0, false, false, 0, 0, 0⟩

/-- A core's trace queue. -/
def State.traceQ (s : State) (core : Nat) : TraceQueue := (NMap.get? s.pkg.traceq core).getD ⟨[], 0, 0⟩

/-- Words in a trace queue (R447). -/
def TraceQueue.words (q : TraceQueue) : Nat := (q.packets.map List.length).foldl (· + ·) 0

/-- The header word of a trace packet (R448). -/
def traceHeader (ty delta core slot split payload : Nat) : W64 :=
  w64 (ty % 16 * 2 ^ 60 + delta % 4096 * 2 ^ 48 + core % 96 % 128 * 2 ^ 41 + slot % 32 * 2 ^ 36 + split % 4 * 2 ^ 34
    + payload % 2 ^ 34)

/-- A SYNC of a group: its current packet and DTIME (R448, R449). -/
def syncPacket (s : State) (k : Nat) (g : Group) (split : Nat) : List W64 :=
  let pc := ((g.split? split).map Split.pc).getD ⟨0, 0⟩
  [traceHeader 7 0 (coreOf k) (slotOf k) split (pc.packet * 4 + pc.slot), w64 s.clock.dtime]

/-- Enters one packet of a group in its core's queue, after a SYNC where R449 asks for one; a packet that finds no room
is lost and counted (R447-R450). -/
def traceEnter (s : State) (k split ty payload : Nat) (extra : List W64) : State :=
  let core := coreOf k
  if (s.traceUnit (dieOf core)).en then
    match s.group? k with
    | none => s
    | some g =>
      let q := s.traceQ core
      let stale := decide (4095 < s.clock.cycle - q.last)
      let sync := if g.traceOn && !stale then [] else [syncPacket s k g split]
      let delta := if sync.isEmpty then s.clock.cycle - q.last else 0
      let pk := traceHeader ty delta core (slotOf k) split payload :: extra
      let room := (sync.map List.length).foldl (· + ·) 0 + pk.length
      if q.lost = 0 ∧ q.words + room ≤ 64 then
        let q' : TraceQueue := ⟨q.packets ++ sync ++ [pk], 0, s.clock.cycle⟩
        let s := s.onPkg fun p => { p with traceq := NMap.set p.traceq core q' }
        s.setGroup k { g with traceOn := true, lastSync := if sync.isEmpty then g.lastSync else s.clock.cycle }
      else
        let q' : TraceQueue := { q with lost := min (q.lost + 1) (2 ^ 34 - 1) }
        let s := s.onPkg fun p => { p with traceq := NMap.set p.traceq core q' }
        s.setGroup k { g with lostTrace := true }
  else s

/-- A BRANCH packet: the split's next word (R448). -/
def traceBranch (s : State) (k split : Nat) (pc : Pc) : State :=
  match s.group? k with
  | some g => if g.traced then traceEnter s k split 1 (pc.packet * 4 + pc.slot) [] else s
  | none => s

/-- A MASK packet when the active mask changed (R448). -/
def traceMask (s : State) (k split : Nat) (old new : Mask) : State :=
  match s.group? k with
  | some g => if g.sys.tracectl.getLsbD 1 && old != new then traceEnter s k split 2 new.toNat [] else s
  | none => s

/-- SPLIT, TRAP and EVENT packets (R448). -/
def traceNote (s : State) (k split ty payload : Nat) : State :=
  match s.group? k with
  | some g => if g.traced then traceEnter s k split ty payload [] else s
  | none => s

/-- Raises an MSI-X vector (R472). -/
def State.raiseVector (s : State) (v : Nat) : State := s.onPkg fun p => { p with msix := p.msix ++ [v] }

/-- The engine queues of a core. -/
def State.queues (s : State) (core : Nat) : CoreQueues := (NMap.get? s.eng.queues core).getD ⟨[], [], [], []⟩

/-- Writes the engine queues of a core. -/
def State.setQueues (s : State) (core : Nat) (q : CoreQueues) : State :=
  s.onEng fun e => { e with queues := NMap.set e.queues core q }

/-- Operations in a queue, QFENCE marks not counted (R340). -/
def queueOps {α : Type} (q : List (QueueItem α)) : List α :=
  q.filterMap fun x => match x with
    | .op a => some a
    | .fence _ => none

/-- The mode of a core (R86). -/
def State.core (s : State) (c : Nat) : CoreState := (NMap.get? s.work.cores c).getD ⟨false⟩

/-- The groups resident on a core, by slot. -/
def State.groupsOf (s : State) (core : Nat) : NMap Group := s.work.groups.filter fun e => coreOf e.1 == core

end Sys2Proof.Machine
end

