-- ==== Sys2Proof/Machine/MainMemory.lean ====
section
/-! DEFINITION. Main memory and the base dies: cells, the address hash, the crust, packets in their order, ECC and
poison, row remap, and the fault-address queue (spec/02 R17-R43). -/

namespace Sys2Proof.Machine

/-! ## Cells -/

/-- The byte at an address of a list of cells; an unlisted address reads zero (R481). -/
def cellGet : List Host.Cell → Nat → Byte
  | [], _ => 0
  | (a, b) :: m, x => if a = x then b else if x < a then 0 else cellGet m x

/-- Writes one byte and keeps the form: addresses rise and no zero is listed. -/
def cellSet : List Host.Cell → Nat → Byte → List Host.Cell
  | [], x, v => if v = 0 then [] else [(x, v)]
  | (a, b) :: m, x, v =>
    if x < a then (if v = 0 then (a, b) :: m else (x, v) :: (a, b) :: m)
    else if a = x then (if v = 0 then m else (x, v) :: m)
    else (a, b) :: cellSet m x v

/-- Writes bytes at rising addresses. -/
def cellPut (m : List Host.Cell) (x : Nat) (bs : List Byte) : List Host.Cell :=
  bs.zipIdx.foldl (fun m b => cellSet m (x + b.2) b.1) m

/-- Reads `n` bytes. -/
def cellRead (m : List Host.Cell) (x n : Nat) : List Byte := (List.range n).map fun i => cellGet m (x + i)

/-- The form of a memory: addresses strictly rising, no entry equal to what an unlisted address reads as. -/
def Memory.wf : List Host.Cell → Bool
  | [] => true
  | [(_, b)] => b != 0
  | (a, b) :: (a', b') :: m => b != 0 && decide (a < a') && Memory.wf ((a', b') :: m)

/-- Adds a number to a rising list. -/
def insNat : List Nat → Nat → List Nat
  | [], x => [x]
  | a :: l, x => if x < a then x :: a :: l else if a = x then a :: l else a :: insNat l x

/-- Removes a number. -/
def delNat (l : List Nat) (x : Nat) : List Nat := l.filter (· != x)

/-! ## Address hash -/

/-- The line of a physical address (R18). -/
def lineOf (pa : Nat) : Nat := pa / 128

/-- Line index within its channel (R18). -/
def chanIndex (line : Nat) : Nat := line / 384

/-- The channel of a line (R18). -/
def channelOf (line : Nat) : Nat :=
  let q := chanIndex line
  let f := Nat.xor (Nat.xor (q % 128) (q / 2 ^ 7 % 128)) (Nat.xor (q / 2 ^ 14 % 128) (q / 2 ^ 21 % 8))
  (line % 384 + 3 * f) % 384

/-- Bank of a channel line (R19). -/
def bankOf (q : Nat) : Nat := Nat.xor (q % 16) (q / 2 ^ 7 % 16)

/-- Row of a channel line (R19). -/
def rowOf (q : Nat) : Nat := q / 2 ^ 7

/-- The line of a channel and a line index: the inverse of the hash (R18). -/
def lineAt (ch q : Nat) : Nat :=
  let f := Nat.xor (Nat.xor (q % 128) (q / 2 ^ 7 % 128)) (Nat.xor (q / 2 ^ 14 % 128) (q / 2 ^ 21 % 8))
  q * 384 + (ch + 384 - 3 * f % 384) % 384

/-- Crust set and tag of a channel line (R20). -/
def crustSet (q : Nat) : Nat := q / 32 % 4096

/-- Crust tag of a channel line (R20). -/
def crustTag (q : Nat) : Nat := q / 2 ^ 17

/-- The slice within a die and the set of a line (R77). -/
def sliceOf (line : Nat) : Nat := line % 48

/-- The L2 set of a line (R77). -/
def l2Set (line : Nat) : Nat := line / 48 % 1024

/-! ## Main memory by sector -/

/-- A sector of main memory as stored. -/
def memSector (ms : MemSide) (sec : Nat) : Sector := Sector.ofBytes fun i => cellGet ms.mem (sec * 32 + i)

/-- Stores bytes of a sector into main memory. -/
def setMemSector (ms : MemSide) (sec : Nat) (m : Word32) (x : Sector) : MemSide :=
  let put (c : List Host.Cell) (i : Nat) := if m.getLsbD i then cellSet c (sec * 32 + i) (Sector.byte x i) else c
  { ms with mem := (List.range 32).foldl put ms.mem }

/-- The granule's poison mark (R33). -/
def granPoison (ms : MemSide) (sec : Nat) : Bool := ms.poison.contains sec

/-- Sets or clears a granule's poison mark. -/
def setPoison (ms : MemSide) (sec : Nat) (p : Bool) : MemSide :=
  { ms with poison := if p then insNat ms.poison sec else delNat ms.poison sec }

/-- The all-ones byte mask. -/
def fullMask : Word32 := BitVec.allOnes 32

/-- The die whose L2 holds a line valid as home, if one does (R69). -/
def homeHolding (ms : MemSide) (sec : Nat) : Option Nat :=
  (List.range 4).find? fun d =>
    match NMap.get? ms.l2 (d * 2 ^ 33 + sec / 4) with
    | some l =>
      match l.secs[sec % 4]? with
      | some x => x.st == .c || x.st == .d
      | none => false
    | none => false

/-- The current value and poison of a sector of device memory: the home's copy, else main memory (R28, R69, R78). -/
def sectorNow (ms : MemSide) (sec : Nat) : Sector × Bool :=
  match homeHolding ms sec with
  | some d =>
    match (NMap.get? ms.l2 (d * 2 ^ 33 + sec / 4)).bind fun l => l.secs[sec % 4]? with
    | some x => (x.data, x.poison)
    | none => (memSector ms sec, granPoison ms sec)
  | none => (memSector ms sec, granPoison ms sec)

/-- The current byte at a physical address. -/
def byteNow (ms : MemSide) (pa : Nat) : Byte := Sector.byte (sectorNow ms (pa / 32)).1 (pa % 32)

/-- `n` bytes at a physical address, without translation. -/
def physRead (s : State) (pa n : Nat) : List Byte := (List.range n).map fun i => byteNow s.ms (pa + i)

/-- A little-endian number of `n` bytes at a physical address. -/
def physNat (s : State) (pa n : Nat) : Nat := leNat (physRead s pa n)

/-- Some of the bytes are poisoned. -/
def physPoison (s : State) (pa n : Nat) : Bool :=
  (List.range ((pa + n - 1) / 32 + 1 - pa / 32)).any fun i => (sectorNow s.ms (pa / 32 + i)).2

/-- Times of a line at its home (R78, R99). -/
def lineTimes (ms : MemSide) (line : Nat) : LineTimes := (NMap.get? ms.times line).getD ⟨0, 0⟩

/-- Raises LEASEEND of a line (R98). -/
def raiseLease (ms : MemSide) (line t : Nat) : MemSide :=
  let x := lineTimes ms line
  { ms with times := NMap.set ms.times line { x with leaseEnd := max x.leaseEnd t } }

/-- The GWCT of a write performed now on a line, and the line's WCT with it (R99). -/
def performStamp (s : State) (line : Nat) : Nat × State :=
  let x := lineTimes s.ms line
  let g := max s.clock.dtime x.leaseEnd + 2
  (g, s.onMs fun ms => { ms with times := NMap.set ms.times line { x with wct := max x.wct g } })

/-! ## Channels and the crust -/

/-- A channel's state (R20-R31). -/
def State.chan (s : State) (ch : Nat) : Channel := (NMap.get? s.ms.chans ch).getD ⟨[], 0, [], [], [], [], [], []⟩

/-- Writes a channel's state. -/
def State.setChan (s : State) (ch : Nat) (c : Channel) : State :=
  s.onMs fun ms => { ms with chans := NMap.set ms.chans ch c }

/-- A way that holds nothing. -/
def CrustWay.empty : CrustWay := ⟨0, 0, false, false, 0⟩

/-- A way of a crust set (R20). -/
def crustWay (c : Channel) (set w : Nat) : CrustWay := (NMap.get? c.crust (set * 8 + w)).getD CrustWay.empty

/-- The way of a line's crust set that holds its block (R20). -/
def crustBlock (c : Channel) (q : Nat) : Option Nat :=
  (List.range 8).find? fun w =>
    let x := crustWay c (crustSet q) w
    x.valid != 0 && !x.retired && x.tag == crustTag q

/-- The way of a line's crust set that holds the line itself (R20). -/
def crustHit (c : Channel) (q : Nat) : Option Nat :=
  (crustBlock c q).filter fun w => (crustWay c (crustSet q) w).valid.getLsbD (q % 32)

/-- The victim way of a crust set (R22), among the ways that are not retired (R24). -/
def crustVictim (c : Channel) (set : Nat) : Option Nat :=
  let ws := (List.range 8).filter fun w => !(crustWay c set w).retired
  match ws.find? fun w => (crustWay c set w).valid == 0 with
  | some w => some w
  | none =>
    match ws.find? fun w => !(crustWay c set w).ref && (crustWay c set w).dirty == 0 with
    | some w => some w
    | none => ws.find? fun w => !(crustWay c set w).ref

/-- Marks a way referenced; when every way in use would be, the others are cleared (R22). A retired way counts for
nothing, as its set runs with the ways that remain (R24; LOG 48). -/
def crustTouch (c : Channel) (set w : Nat) : Channel :=
  let c := { c with crust := NMap.adjust c.crust (set * 8 + w) fun x => { x with ref := true } }
  let all := (List.range 8).all fun v => (crustWay c set v).ref || (crustWay c set v).retired
  if all then
    let clear (m : NMap CrustWay) (v : Nat) :=
      if v = w then m else NMap.adjust m (set * 8 + v) fun x => { x with ref := false }
    { c with crust := (List.range 8).foldl clear c.crust }
  else c

/-- Makes a way ready for a line that a fill brings: its block's way is, and so is a victim without dirty lines. The
dirty lines of another victim go to the writeback buffer as far as that has room, and the fill waits for the rest; with
`wait` it waits here, while the buffer drains (R22). Answers whether the fill can go on. -/
def crustReady (c : Channel) (q : Nat) (wait : Bool) : Bool × Channel :=
  match crustBlock c q with
  | some _ => (true, c)
  | none =>
    match crustVictim c (crustSet q) with
    | none => (true, c)
    | some w =>
      let old := crustWay c (crustSet q) w
      let lost := (List.range 32).filter fun i => old.dirty.getLsbD i
      let n := if wait then lost.length else min lost.length (16 - c.wback.length)
      let wb := c.wback ++ (lost.take n).map fun i => old.tag * 2 ^ 17 + crustSet q * 32 + i
      let left : Word32 := Mask.ofFn fun i => (lost.drop n).contains i
      (n == lost.length,
        { c with wback := wb.drop (wb.length - 16)
                 crust := NMap.adjust c.crust (crustSet q * 8 + w) fun x => { x with dirty := left } })

/-- Puts a line into the way that `crustReady` has made ready: into its block, or into a block that replaces the victim.
A block just installed counts as referenced (LOG 48). A set whose ways are all retired takes nothing (R24). -/
def crustFill (c : Channel) (q : Nat) : Channel :=
  let bit : Word32 := BitVec.ofNat 32 (2 ^ (q % 32))
  match crustBlock c q with
  | some w =>
    crustTouch { c with crust := NMap.adjust c.crust (crustSet q * 8 + w) fun x => { x with valid := x.valid ||| bit } }
      (crustSet q) w
  | none =>
    match crustVictim c (crustSet q) with
    | none => c
    | some w =>
      crustTouch { c with crust := NMap.set c.crust (crustSet q * 8 + w) ⟨crustTag q, 0, false, false, bit⟩ } (crustSet q) w

/-- Marks a line dirty that stands in the crust (R21). -/
def crustDirty (c : Channel) (q : Nat) : Channel :=
  match crustHit c q with
  | some w =>
    let c := crustTouch c (crustSet q) w
    { c with crust := NMap.adjust c.crust (crustSet q * 8 + w) fun x =>
        { x with dirty := x.dirty ||| BitVec.ofNat 32 (2 ^ (q % 32)) } }
  | none => c

/-- What a read does to the crust: a hit counts, a miss installs its line unless the request says no-allocate (R21, R22).
Answers whether the read's fill can go on. -/
def crustRead (c : Channel) (q : Nat) (noalloc wait : Bool) : Bool × Channel :=
  match crustHit c q with
  | some w => (true, crustTouch c (crustSet q) w)
  | none =>
    if noalloc then (true, c)
    else
      let (ok, c) := crustReady c q wait
      (ok, if ok then crustFill c q else c)

/-- The first sector of the write buffer leaves it with its line: a whole line into the crust, another one into the crust
where its line stands there, else to the main layer (R21, R29). -/
def drainBuffer (c : Channel) (wait : Bool) : Channel :=
  match c.wbuf with
  | [] => c
  | sec :: _ =>
    let q := chanIndex (sec / 4)
    let whole := (List.range 4).all fun i => c.wbuf.contains (sec / 4 * 4 + i)
    let (ok, d) := if whole then crustReady c q wait else (true, c)
    if ok then
      let d := crustDirty (if whole then crustFill d q else d) q
      { d with wbuf := c.wbuf.filter fun x => x / 4 != sec / 4 }
    else d

/-! ## Packets -/

/-- A packet of a channel. -/
def packetOf (s : State) (ch n : Nat) : Option Packet := (s.chan ch).packets.find? fun p => p.n == n

/-- Changes a packet of a channel. -/
def onPacket (s : State) (ch n : Nat) (f : Packet → Packet) : State :=
  let c := s.chan ch
  s.setChan ch { c with packets := c.packets.map fun p => if p.n = n then f p else p }

/-- Removes a packet: its reply has reached the slice, and its tag is free (R26). -/
def dropPacket (s : State) (ch n : Nat) : State :=
  let c := s.chan ch
  s.setChan ch { c with packets := c.packets.filter fun p => p.n != n }

/-- A packet arrives behind every earlier one (R27, R28). -/
def arrivePacket (s : State) (ch : Nat) (p : Packet) : State :=
  let c := s.chan ch
  s.setChan ch { c with packets := c.packets ++ [{ p with n := c.next }], next := c.next + 1 }

/-- The tags of a slice that are taken at a channel (R26). -/
def tagsTaken (s : State) (ch slice : Nat) : List Nat := ((s.chan ch).packets.filter fun p => p.slice == slice).map Packet.tag

/-- A tag of a slice that is free at a channel (R26). -/
def freeTag (s : State) (ch slice : Nat) : Option Nat := (List.range 8).find? fun t => !(tagsTaken s ch slice).contains t

/-- The packet names a sector of its line. -/
def Packet.names (p : Packet) (i : Nat) : Bool := p.sectors.testBit i

/-- A write's sector is not performed yet. -/
def Packet.waits (p : Packet) (i : Nat) : Bool := p.names i && !p.doneSecs.testBit i

/-- The row of a line is being copied to a spare: its requests wait (R38). -/
def rowMoving (s : State) (line : Nat) : Bool :=
  (s.chan (channelOf line)).moving.contains (bankOf (chanIndex line), rowOf (chanIndex line))

/-- A row's copy to its spare ends (R38). -/
def endMove (s : State) (ch bank row : Nat) : State :=
  let c := s.chan ch
  s.setChan ch { c with moving := c.moving.filter fun e => e != (bank, row) }

/-- An access that one step performs waits here until its row's copy has ended (R38; LOG 3). -/
def awaitMove (s : State) (line : Nat) : State :=
  if rowMoving s line then endMove s (channelOf line) (bankOf (chanIndex line)) (rowOf (chanIndex line)) else s

/-! ## Reads and writes in their order

What a read of the main layer finds is told by a check: from the granule, the record type and the context it gives whether
the granule was corrected, and the state after (R34, R35). -/

/-- What reading a granule finds and does (R34, R35). -/
abbrev Check := State → Nat → Nat → Nat → Bool × State

/-- The check of the fault-address queue's own records, which reports nothing (LOG 16). -/
def noCheck : Check := fun s _ _ _ => (false, s)

/-- A read takes a sector as it stands now (R28, R34, R35). -/
def takePart (check : Check) (s : State) (ch n i : Nat) : State :=
  match packetOf s ch n with
  | none => s
  | some p =>
    if p.got.any fun g => g.1 == i then s
    else
      let sec := p.line * 4 + i
      let (cor, s) := check s sec 2 p.ctx
      onPacket s ch n fun y => { y with got := y.got ++ [(i, memSector s.ms sec, granPoison s.ms sec, cor)] }

/-- Performs a write of one sector behind arrival `n`: earlier-arrived reads of the sector take it first (R28), the write
enters the buffer, which drains if it is full (R29), and a partial sector is merged into the granule as read (R30, R36,
R37). Answers whether the merge met poison. -/
def performWith (check : Check) (s : State) (ch n sec ctx : Nat) (m : Word32) (x : Sector) : Bool × State :=
  let early := (s.chan ch).packets.filter fun p => !p.wr && decide (p.n < n) && p.line == sec / 4 && p.names (sec % 4)
  let s := early.foldl (fun s p => takePart check s ch p.n (sec % 4)) s
  let c := s.chan ch
  let c := if c.wbuf.contains sec || decide (c.wbuf.length < 64) then c else drainBuffer c true
  let s := s.setChan ch { c with wbuf := insNat c.wbuf sec }
  if m = fullMask then
    (false, s.onMs fun ms => { setPoison (setMemSector ms sec m x) sec false with marks := NMap.erase ms.marks sec })
  else
    let (_, s) := check s sec 3 ctx
    (granPoison s.ms sec, s.onMs fun ms => setMemSector ms sec m x)

/-- Performs one sector of a write packet (R29, R30). -/
def performPart (check : Check) (s : State) (ch n i : Nat) : State :=
  match packetOf s ch n with
  | none => s
  | some p =>
    let (bad, s) := performWith check s ch n (p.line * 4 + i) p.ctx (p.masks.getD i 0) (p.data.getD i 0)
    onPacket s ch n fun y => { y with doneSecs := y.doneSecs + 2 ^ i, mergePois := y.mergePois || bad
                                      served := (List.range 4).all fun j => j == i || !y.waits j }

/-- Performs every write to a sector that arrived before arrival `n` and still waits (R28). -/
def settleWith (check : Check) (s : State) (sec n : Nat) : State :=
  let ch := channelOf (sec / 4)
  (s.chan ch).packets.foldl (fun s p =>
    if p.wr && decide (p.n < n) && p.line == sec / 4 && p.waits (sec % 4) then performPart check s ch p.n (sec % 4) else s) s

/-- Serves a read packet: each sector is taken after the earlier-arrived writes to it, and the crust is filled (R21, R28). -/
def serveRead (check : Check) (s : State) (ch n : Nat) : State :=
  match packetOf s ch n with
  | none => s
  | some p =>
    let s := ((List.range 4).filter p.names).foldl (fun s i =>
      takePart check (settleWith check s (p.line * 4 + i) n) ch n i) s
    onPacket (s.setChan ch (crustRead (s.chan ch) (chanIndex p.line) p.noalloc true).2) ch n fun y => { y with served := true }

/-- The key of a die's copy of a line. -/
def l2Key (die line : Nat) : Nat := die * 2 ^ 33 + line

/-- An invalid sector. -/
def L2Sector.invalid : L2Sector := ⟨.i, 0, false, 0, 0⟩

/-- A die's copy of a sector. -/
def l2Sector (ms : MemSide) (die sec : Nat) : L2Sector :=
  ((NMap.get? ms.l2 (l2Key die (sec / 4))).bind fun l => l.secs[sec % 4]?).getD L2Sector.invalid

/-- The key of an L2 array's error mark (LOG 12). -/
def l2MarkKey (die sec : Nat) : Nat := die * 2 ^ 35 + sec

/-- Writes one sector of a line a die holds; the array's code is written with it. -/
def setL2Sector (ms : MemSide) (die sec : Nat) (x : L2Sector) (now : Nat) : MemSide :=
  let old := (NMap.get? ms.l2 (l2Key die (sec / 4))).getD ⟨List.replicate 4 L2Sector.invalid, now⟩
  { ms with l2 := NMap.set ms.l2 (l2Key die (sec / 4)) ⟨listSet old.secs (sec % 4) x, now⟩
            l2marks := NMap.erase ms.l2marks (l2MarkKey die sec) }

/-- RDATA reaches the slice: the sectors that wait for it become C, and the tag is free (R26, R78). -/
def deliverRead (s : State) (ch : Nat) (p : Packet) : State :=
  let die := p.slice / 48
  p.got.foldl (fun s g =>
    let sec := p.line * 4 + g.1
    if (l2Sector s.ms die sec).st == .f then
      s.onMs fun ms => setL2Sector ms die sec ⟨.c, g.2.1, g.2.2.1, 0, 0⟩ s.clock.cycle
    else s) (dropPacket s ch p.n)

/-- A packet is served at its base die and answered: what an access that needs its tag or its data waits for (R26, R29, R30,
R78; LOG 3). -/
def completeWith (check : Check) (s : State) (ch n : Nat) : State :=
  match packetOf s ch n with
  | none => s
  | some p =>
    let s := awaitMove s p.line
    if p.wr then
      dropPacket (((List.range 4).filter p.waits).foldl (fun s i =>
        performPart check (settleWith check s (p.line * 4 + i) n) ch n i) s) ch n
    else
      let s := serveRead check s ch n
      match packetOf s ch n with
      | some p => deliverRead s ch p
      | none => s

/-- An access to a sector waits for the fill that a slice has asked for (R78). -/
def endFillsWith (check : Check) (s : State) (sec : Nat) : State :=
  let ch := channelOf (sec / 4)
  (s.chan ch).packets.foldl (fun s p =>
    if !p.wr && p.line == sec / 4 && p.names (sec % 4) && (l2Sector s.ms (p.slice / 48) sec).st == .f then
      completeWith check s ch p.n
    else s) s

/-- A write of one sector by a unit of the device: into the copy that the home holds, else at the base die behind every
earlier arrival. `poison` writes the poison pattern (R28, R33, R39). -/
def unitWriteWith (check : Check) (s : State) (sec ctx : Nat) (m : Word32) (x : Sector) (poison : Bool) : State :=
  let s := endFillsWith check s sec
  match homeHolding s.ms sec with
  | some d =>
    let old := l2Sector s.ms d sec
    let p := if m = fullMask then poison else old.poison || poison
    s.onMs fun ms => setL2Sector ms d sec { old with st := .d, data := Sector.mergeBytes m x old.data, poison := p } s.clock.cycle
  | none =>
    let ch := channelOf (sec / 4)
    let n := (s.chan ch).next
    let (_, s) := performWith check (settleWith check (awaitMove s (sec / 4)) sec n) ch n sec ctx m x
    if poison then s.onMs fun ms => setPoison ms sec true else s

/-- Writes bytes at a physical address: records, rings and tables of the device's own units (R39, R411). -/
def physWriteWith (check : Check) (s : State) (pa : Nat) (bs : List Byte) : State :=
  let secs := (List.range ((pa + bs.length + 31) / 32 - pa / 32)).map (pa / 32 + ·)
  secs.foldl (fun s sec =>
    let ofs (i : Nat) : Option Byte := if sec * 32 + i < pa then none else bs[sec * 32 + i - pa]?
    let m : Word32 := Mask.ofFn fun i => (ofs i).isSome
    let x := Sector.ofBytes fun i => (ofs i).getD 0
    (performStamp (unitWriteWith check s sec 0 m x false) (sec / 4)).2) s

/-! ## Record rings -/

/-- Posts a record of 32 bytes on a ring of `n` records: dropped and counted when disabled or full (R41). -/
def Ring.post (write : State → Nat → List Byte → State) (r : Ring) (n : Nat) (rec : Nat) (s : State) : Ring × State :=
  if !r.en || (r.head + 1) % n == r.tail then
    ({ r with ovf := true, dropped := min (r.dropped + 1) 0xFFFF }, s)
  else
    ({ r with head := (r.head + 1) % n }, write s (r.base * 4096 + 32 * r.head) (leBytes 32 rec))

/-- The word of a ring's control register (R41). -/
def Ring.ctl (r : Ring) : W64 := w64 (r.dropped * 2 ^ 16 + b2n r.ovf * 4 + b2n r.irqen * 2 + b2n r.en)

/-- A write of a ring's control register (R41). -/
def Ring.writeCtl (r : Ring) (v : W64) : Ring :=
  { r with en := v.getLsbD 0, irqen := v.getLsbD 1
           ovf := r.ovf && !v.getLsbD 2, dropped := if v.getLsbD 2 then 0 else r.dropped }

/-- A fault-address record: type, source, channel, bank, row, address, context (R39). -/
def faqRecord (s : State) (ty source ch bank row pa syn ctx : Nat) : Nat :=
  1 + ctx % 2 ^ 32 * 2 ^ 32 + syn % 2 ^ 24 * 2 ^ 64 + pa / 32 * 32 % 2 ^ 40 * 2 ^ 88 + row % 2 ^ 24 * 2 ^ 128
    + bank % 256 * 2 ^ 152 + ch % 2 ^ 16 * 2 ^ 160 + source % 256 * 2 ^ 176 + ty % 256 * 2 ^ 184
    + s.clock.dtime % 2 ^ 64 * 2 ^ 192

/-- The record of the queue that an event repeats: same type and address, and for type 0x10 same channel and bank, still
valid (R39). -/
def faqMatch (s : State) (ty pa ch bank : Nat) : Option Nat :=
  let r := s.ms.faq
  ((List.range ((r.head + 4096 - r.tail) % 4096)).map fun i => r.base * 4096 + 32 * ((r.tail + i) % 4096)).find? fun a =>
    let x := physNat s a 32
    x % 2 == 1 && x / 2 ^ 184 % 256 == ty && x / 2 ^ 88 % 2 ^ 40 == pa / 32 * 32 &&
      (ty != 0x10 || (x / 2 ^ 160 % 2 ^ 16 == ch && x / 2 ^ 152 % 256 == bank))

/-- Posts a fault-address record, or merges the event into one, whose COUNT alone changes (R39-R41). -/
def postFaq (s : State) (ty source ch bank row pa ctx : Nat) : State :=
  match faqMatch s ty pa ch bank with
  | some a =>
    let x := physNat s a 32
    let count := x / 2 ^ 16 % 2 ^ 16
    physWriteWith noCheck s a (leBytes 32 (x - count * 2 ^ 16 + min (count + 1) 0xFFFF * 2 ^ 16))
  | none =>
    let (n, s) := if ty = 2 ∨ ty = 3 ∨ ty = 7 then s.draw else (0, s)
    let syn := if ty = 2 ∨ ty = 3 ∨ ty = 7 then (Config.syndrome n).toNat else 0
    let (r, s') := s.ms.faq.post (physWriteWith noCheck) 4096 (faqRecord s ty source ch bank row pa syn ctx) s
    let s' := s'.onMs fun ms => { ms with faq := r }
    if r.head != s.ms.faq.head && r.irqen then s'.raiseVector 0 else s'

/-! ## Errors, retired ways and remapped rows -/

/-- The granules of a row (R19). -/
def rowGranules (ch bank row : Nat) : List Nat :=
  (List.range 8).flatMap fun l =>
    let line := lineAt ch (row * 128 + l * 16 + Nat.xor bank (row % 16))
    (List.range 4).map fun i => line * 4 + i

/-- The copy of a row reads a granule: it corrects what can be corrected, and what cannot is poisoned and reported
(R35, R38; LOG 48). -/
def copyGranule (s : State) (ch bank row sec : Nat) : State :=
  match NMap.get? s.ms.marks sec with
  | none => s
  | some .correctable => s.onMs fun ms => { ms with marks := NMap.erase ms.marks sec }
  | some .uncorrectable =>
    let s := s.onMs fun ms => setPoison { ms with marks := NMap.erase ms.marks sec } sec true
    postFaq s 0x02 (ch / 32) ch bank row (sec * 32) 0

/-- Remaps a row into the next spare row of its bank, or reports that no spare is left (R38). The record 0x04 is posted as
the copy begins; it names the granule that led to the remap. A row that is being copied already is not remapped again
(LOG 48). -/
def remapRow (s : State) (ch bank row pa : Nat) : State :=
  let c := s.chan ch
  let used := (c.remap.filter fun e => e.1 == bank).length
  if c.moving.contains (bank, row) then s
  else if used < 64 then
    let s := s.setChan ch { c with remap := c.remap ++ [(bank, row, used)], moving := c.moving ++ [(bank, row)]
                                   corrected := c.corrected.filter fun e => !(e.1 == bank && e.2.1 == row) }
    let s := (rowGranules ch bank row).foldl (fun s sec => copyGranule s ch bank row sec) s
    postFaq s 0x04 (ch / 32) ch bank row pa 0
  else postFaq s 0x05 (ch / 32) ch bank row pa 0

/-- An error found in a granule whose line stands in the crust may retire its way: the way's dirty lines go to the main
layer, and a record of type 0x01 is posted, which names that granule (R24; LOG 48). -/
def retireWay (s : State) (sec : Nat) : State :=
  let ch := channelOf (sec / 4)
  let q := chanIndex (sec / 4)
  let c := s.chan ch
  match crustHit c q with
  | none => s
  | some w =>
    let (n, s) := s.draw
    if Config.wayRetires n then
      let c := { c with crust := NMap.set c.crust (crustSet q * 8 + w) { CrustWay.empty with retired := true } }
      postFaq (s.setChan ch c) 0x01 (ch / 32) ch (bankOf q) (rowOf q) (sec * 32) 0
    else s

/-- What reading a granule of the main layer finds: correctable errors are corrected, counted and written back;
uncorrectable ones poison the granule, post a record of the given type, and a read or scrub remaps the row (R34-R37). -/
def checkGranule : Check := fun s sec ty ctx =>
  let ch := channelOf (sec / 4)
  let q := chanIndex (sec / 4)
  match NMap.get? s.ms.marks sec with
  | none => (false, s)
  | some .correctable =>
    let s := s.onMs fun ms => { ms with marks := NMap.erase ms.marks sec }
    let c := s.chan ch
    let hit := (bankOf q, rowOf q, sec)
    let cor := if c.corrected.contains hit then c.corrected else c.corrected ++ [hit]
    let s := retireWay (s.setChan ch { c with corrected := cor }) sec
    if 3 ≤ (cor.filter fun e => e.1 == bankOf q && e.2.1 == rowOf q).length then
      (true, remapRow s ch (bankOf q) (rowOf q) (sec * 32))
    else (true, s)
  | some .uncorrectable =>
    let s := s.onMs fun ms => setPoison { ms with marks := NMap.erase ms.marks sec } sec true
    let s := retireWay (postFaq s ty (ch / 32) ch (bankOf q) (rowOf q) (sec * 32) ctx) sec
    (false, if ty = 3 then s else remapRow s ch (bankOf q) (rowOf q) (sec * 32))

/-- Writes a granule with the poison pattern through the maintenance port (R79). -/
def writePoisoned (s : State) (sec : Nat) (x : Sector) : State :=
  let ch := channelOf (sec / 4)
  let n := (s.chan ch).next
  let s := (performWith checkGranule (settleWith checkGranule (awaitMove s (sec / 4)) sec n) ch n sec 0 fullMask x).2
  s.onMs fun ms => setPoison ms sec true

/-- A unit of the device reads a granule that no home holds: after the earlier-arrived writes, and with what the read finds
(R28, R34, R35). -/
def touchGranule (s : State) (sec ctx : Nat) : State :=
  let s := endFillsWith checkGranule s sec
  match homeHolding s.ms sec with
  | some _ => s
  | none =>
    let s := settleWith checkGranule (awaitMove s (sec / 4)) sec (s.chan (channelOf (sec / 4))).next
    (checkGranule s sec 2 ctx).2

/-- The granule that a stack's patrol scrubber reads at a place of its round: channel by channel, line by line (R37;
LOG 48). -/
def patrolGranule (stack place : Nat) : Nat :=
  let j := place % 2 ^ 31
  lineAt (32 * stack + j / 2 ^ 26) (j % 2 ^ 26 / 4) * 4 + j % 4

/-- A stack's scrubber has a granule to read: its round of 2^31 granules takes 24 hours (R37). -/
def patrolDue (s : State) (stack : Nat) : Bool :=
  decide ((s.ms.scrub.getD stack 0 + 1) * 86400000000000 ≤ s.clock.dtime * 2 ^ 31)

end Sys2Proof.Machine
end

