-- ==== Sys2Proof/Machine/MemPath.lean ====
section
/-! DEFINITION. The road from a core to the base dies: containment scores, L2 slices with their tags and miss tables, L1
copies and their leases (spec/02 R25-R32, spec/04 R77-R86, spec/05 R97-R101, spec/21 R461-R466). -/

namespace Sys2Proof.Machine

/-! ## Scores and containment records -/

/-- The key of a unit: kind and index (R461). -/
def unitScoreKey (kind index : Nat) : Nat := kind * 1024 + index

/-- A unit's score and state (R461). -/
def scoreOf (s : State) (kind index : Nat) : Suspicion :=
  (NMap.get? s.pkg.scores (unitScoreKey kind index)).getD ⟨0, 0, 0⟩

/-- Posts a containment record (R466). -/
def postCrq (s : State) (ty kind index ctx grid addr score detail : Nat) : State :=
  let rcd := 1 + addr / 2 ^ 32 % 2 ^ 16 * 2 ^ 24 + detail % 256 * 2 ^ 40 + score % 2 ^ 16 * 2 ^ 48
    + addr % 2 ^ 32 * 2 ^ 64 + grid % 2 ^ 32 * 2 ^ 96 + ctx % 2 ^ 32 * 2 ^ 128 + index % 1024 * 2 ^ 170
    + kind % 16 * 2 ^ 180 + ty % 256 * 2 ^ 184 + s.clock.dtime % 2 ^ 64 * 2 ^ 192
  let ring := { s.pkg.crq with en := s.pkg.cns.en, irqen := s.pkg.cns.irqen }
  let (r, s') := ring.post (physWriteWith checkGranule) 1024 rcd s
  let s' := s'.onPkg fun p => { p with crq := r }
  if r.head != s.pkg.crq.head && s.pkg.cns.irqen then s'.raiseVector 2 else s'

/-- Raises a unit's score; reaching THRESH is reported, and at half of THRESH the score is written to flash (R461-R463). The
drain itself is `drainUnit`. -/
def addScore (s : State) (kind index weight : Nat) : State :=
  let u := scoreOf s kind index
  let n := min (u.score + weight) 0xFFFF
  let t := s.pkg.cns.thresh
  let key := unitScoreKey kind index
  let s := s.onPkg fun p => { p with scores := NMap.set p.scores key { u with score := n } }
  let s := if 2 * u.score < t ∧ t ≤ 2 * n then
      s.onPkg fun p => { p with flashScores := NMap.set p.flashScores key n }
    else s
  if u.score < t ∧ t ≤ n ∧ u.state = 0 then postCrq s 0x04 kind index 0 0 0 n 0 else s

/-! ## L2 slices -/

/-- A die's slice finds what its array holds in a sector when it uses it: a corrected error counts for the slice's score; a
sector with an uncorrectable one is dropped when memory or its home has the data, else poisoned (R79). -/
def l2Check (s : State) (die sec : Nat) : State :=
  let slice := die * 48 + sliceOf (sec / 4)
  match NMap.get? s.ms.l2marks (l2MarkKey die sec) with
  | none => s
  | some m =>
    let s := s.onMs fun ms => { ms with l2marks := NMap.erase ms.l2marks (l2MarkKey die sec) }
    let x := l2Sector s.ms die sec
    match m with
    | .correctable => addScore s 5 slice s.pkg.cns.wcor
    | .uncorrectable =>
      let s := addScore s 5 slice s.pkg.cns.wunc
      match x.st with
      | .c | .l => s.onMs fun ms => setL2Sector ms die sec L2Sector.invalid s.clock.cycle
      | .d => s.onMs fun ms => setL2Sector ms die sec { x with poison := true } s.clock.cycle
      | _ => s

/-- Every slice that holds a sector as home checks it before a unit of the device uses it (R79). -/
def l2CheckHome (s : State) (sec : Nat) : State :=
  match homeHolding s.ms sec with
  | some d => l2Check s d sec
  | none => s

/-- Writes bytes at a physical address: records, rings and tables of the device's own units (R39, R411). -/
def physWrite (s : State) (pa : Nat) (bs : List Byte) : State :=
  let secs := (List.range ((pa + bs.length + 31) / 32 - pa / 32)).map (pa / 32 + ·)
  physWriteWith checkGranule (secs.foldl l2CheckHome s) pa bs

/-- Writes a 64-bit word. -/
def physWriteW (s : State) (pa : Nat) (x : W64) : State := physWrite s pa (leBytes 8 x.toNat)

/-- A unit of the device is about to read bytes at a physical address: what the read finds (R28, R34, R35, R79). -/
def touchPhys (s : State) (pa n ctx : Nat) : State :=
  ((List.range ((pa + n + 31) / 32 - pa / 32)).map (pa / 32 + ·)).foldl
    (fun s sec => touchGranule (l2CheckHome s sec) sec ctx) s

/-- Requests that wait in a slice's miss table (R31, R32, R78). -/
def missesOf (s : State) (slice : Nat) : List SliceReq := (NMap.get? s.ms.missq slice).getD []

/-- Writes a slice's miss table. -/
def setMisses (s : State) (slice : Nat) (l : List SliceReq) : State :=
  s.onMs fun ms => { ms with missq := if l.isEmpty then NMap.erase ms.missq slice else NMap.set ms.missq slice l }

/-- A slice has an RD for a sector on its way (R78). -/
def rdSent (s : State) (slice sec : Nat) : Bool :=
  (s.chan (channelOf (sec / 4))).packets.any fun p => !p.wr && p.slice == slice && p.line == sec / 4 && p.names (sec % 4)

/-- The fills that a slice's waiting requests still ask of a channel go out on its free tags, oldest first (R31). -/
def sendWaiting (s : State) (slice ch : Nat) : State :=
  (missesOf s slice).foldl (fun s rq =>
    let sec := rq.addr / 32
    if channelOf (sec / 4) = ch && (l2Sector s.ms (slice / 48) sec).st == .f && rq.home == slice / 48 && !rdSent s slice sec then
      match freeTag s ch slice with
      | some t => arrivePacket s ch
          { n := 0, ctx := rq.ctx, slice := slice, tag := t, line := sec / 4, wr := false, sectors := 2 ^ (sec % 4)
            noalloc := rq.noalloc, masks := [], data := [], doneSecs := 0, got := [], served := false, mergePois := false }
      | none => s
    else s) s

/-- A slice's access takes a tag: it waits until one of its eight at the channel is free, behind the requests that wait for
one already; an eviction writeback goes before those (R26, R31; LOG 3). -/
def takeTag (s : State) (slice ch : Nat) (writeback : Bool) : Nat → State
  | 0 => s
  | fuel + 1 =>
    let s := if writeback then s else sendWaiting s slice ch
    if (freeTag s ch slice).isSome then s
    else
      match (s.chan ch).packets.find? fun p => p.slice == slice with
      | some p => takeTag (completeWith checkGranule s ch p.n) slice ch writeback fuel
      | none => s

/-- More than the requests and tags of a slice (R26, R32). -/
def tagFuel : Nat := 272

/-- A slice's read of one sector, from its channel: after every earlier-arrived write, filling the crust unless the page
asks not to (R21, R26, R28, R34, R35). -/
def baseRead (s : State) (die sec ctx : Nat) (noalloc : Bool) : Sector × Bool × State :=
  let ch := channelOf (sec / 4)
  let s := awaitMove (takeTag s (die * 48 + sliceOf (sec / 4)) ch false tagFuel) (sec / 4)
  let (_, s) := checkGranule (settleWith checkGranule s sec (s.chan ch).next) sec 2 ctx
  (memSector s.ms sec, granPoison s.ms sec,
    s.setChan ch (crustRead (s.chan ch) (chanIndex (sec / 4)) noalloc true).2)

/-- A slice's write of one sector at its channel; answers whether its merge met poison (R26, R28-R30, R36). -/
def baseWrite (s : State) (die sec ctx : Nat) (m : Word32) (x : Sector) (writeback : Bool) : Bool × State :=
  let ch := channelOf (sec / 4)
  let s := awaitMove (takeTag s (die * 48 + sliceOf (sec / 4)) ch writeback tagFuel) (sec / 4)
  let n := (s.chan ch).next
  performWith checkGranule (settleWith checkGranule s sec n) ch n sec ctx m x

/-- Writes a dirty sector of a die's L2 back, after a look at its array; a poisoned one goes to memory with the poison pattern
through the control core (R79). -/
def writeBackSector (s : State) (die sec : Nat) : State :=
  let s := l2Check s die sec
  let x := l2Sector s.ms die sec
  if x.st == .d then
    if x.poison then writePoisoned s sec x.data else (baseWrite s die sec 0 fullMask x.data true).2
  else s

/-- Writes a line's dirty sectors back; with `keep` they stay valid, else the line is dropped (R77, R321). -/
def flushLine (s : State) (die line : Nat) (keep : Bool) : State :=
  let s := (List.range 4).foldl (fun s i => writeBackSector s die (line * 4 + i)) s
  s.onMs fun ms =>
    if keep then
      { ms with l2 := NMap.adjust ms.l2 (l2Key die line) fun l =>
          { l with secs := l.secs.map fun x => if x.st == .d then { x with st := .c } else x } }
    else
      { ms with l2 := NMap.erase ms.l2 (l2Key die line)
                l2marks := ms.l2marks.filter fun e => e.1 / 4 != l2MarkKey die (line * 4) / 4 }

/-- Ways of a slice that are not disabled (R463). -/
def l2Ways (ms : MemSide) (die slice : Nat) : Nat := 16 - ((NMap.get? ms.l2off (die * 48 + slice)).getD []).length

/-- Waits for the fills of a line's sectors (R78). -/
def endLineFills (s : State) (line : Nat) : State :=
  (List.range 4).foldl (fun s i => endFillsWith checkGranule s (line * 4 + i)) s

/-- Makes room for a line: the least recently used line without dirty, filling or poisoned-dirty sectors goes; when there is
none, the least recently used dirty line is written back and goes (R77). A set whose lines all wait for fills waits for
one. -/
def makeRoom (s : State) (die line : Nat) : State :=
  if (NMap.get? s.ms.l2 (l2Key die line)).isSome then s
  else
    let same := s.ms.l2.filter fun e =>
      e.1 / 2 ^ 33 == die && sliceOf (e.1 % 2 ^ 33) == sliceOf line && l2Set (e.1 % 2 ^ 33) == l2Set line
    if same.length < l2Ways s.ms die (sliceOf line) then s
    else
      let older (a b : Nat × L2Line) : Nat × L2Line := if b.2.used < a.2.used then b else a
      let pick (l : NMap L2Line) : Option (Nat × L2Line) :=
        match l with
        | [] => none
        | e :: r => some (r.foldl older e)
      let has (st : L2State) (e : Nat × L2Line) : Bool := e.2.secs.any fun x => x.st == st
      let clean := same.filter fun e => !has .d e && !has .f e
      let dirty := same.filter fun e => has .d e && !has .f e
      match (pick clean).orElse fun _ => (pick dirty).orElse fun _ => pick same with
      | some e => flushLine (endLineFills s (e.1 % 2 ^ 33)) die (e.1 % 2 ^ 33) false
      | none => s

/-- The home slice's valid copy of a sector, filled from the base die when it has none; a fill on its way is awaited (R78). -/
def homeFetch (s : State) (home sec ctx : Nat) (noalloc : Bool) : L2Sector × State :=
  let s := l2Check (endFillsWith checkGranule s sec) home sec
  let x := l2Sector s.ms home sec
  if x.st == .c || x.st == .d then
    (x, s.onMs fun ms => setL2Sector ms home sec x s.clock.cycle)
  else
    let s := makeRoom s home (sec / 4)
    let (d, p, s) := baseRead s home sec ctx noalloc
    let x : L2Sector := ⟨.c, d, p, 0, 0⟩
    (x, s.onMs fun ms => setL2Sector ms home sec x s.clock.cycle)

/-- Performs a write at the home slice and gives its GWCT. A partial write of a sector that the slice does not hold is a
read-modify-write at the base die; `poison` marks data that is written poisoned (R30, R78, R99, R142). -/
def homeWrite (s : State) (home sec ctx : Nat) (m : Word32) (x : Sector) (poison : Bool) : Nat × State :=
  let s := l2Check (endFillsWith checkGranule s sec) home sec
  let now := s.clock.cycle
  let cur := l2Sector s.ms home sec
  let s :=
    if cur.st == .c || cur.st == .d then
      let p := if m = fullMask then poison else cur.poison || poison
      s.onMs fun ms => setL2Sector ms home sec ⟨.d, Sector.mergeBytes m x cur.data, p, 0, 0⟩ now
    else if m = fullMask then
      (makeRoom s home (sec / 4)).onMs fun ms => setL2Sector ms home sec ⟨.d, x, poison, 0, 0⟩ now
    else
      let (_, s) := baseWrite (makeRoom s home (sec / 4)) home sec ctx m x false
      let s := if poison then s.onMs fun ms => setPoison ms sec true else s
      s.onMs fun ms => setL2Sector ms home sec ⟨.d, memSector ms sec, granPoison ms sec, 0, 0⟩ now
  performStamp s (sec / 4)

/-- A sector handed to an L1: data, poison, lease end and stamp. -/
structure Grant where
  data : Sector
  poison : Bool
  lease : Nat
  stamp : Nat
  deriving DecidableEq, Repr

/-- A remote die's slice asks the home slice for a sector: the home grants 1,000 ns, and the slice keeps the copy until
then (R78, R98). -/
def remoteFill (s : State) (die home sec ctx : Nat) (noalloc : Bool) : L2Sector × State :=
  let (x, s) := homeFetch s home sec ctx noalloc
  let till := s.clock.dtime + 1000
  let s := makeRoom (s.onMs fun ms => raiseLease ms (sec / 4) till) die (sec / 4)
  let r : L2Sector := ⟨.l, x.data, x.poison, till, (lineTimes s.ms (sec / 4)).wct⟩
  (r, s.onMs fun ms => setL2Sector ms die sec r s.clock.cycle)

/-- A remote slice's copy of a sector while its lease runs, else a new one (R78, R79). -/
def remoteFetch (s : State) (die home sec ctx : Nat) (noalloc : Bool) : L2Sector × State :=
  let s := l2Check s die sec
  let r := l2Sector s.ms die sec
  if r.st == .l && decide (s.clock.dtime < r.lease) then (r, s.onMs fun ms => setL2Sector ms die sec r s.clock.cycle)
  else remoteFill s die home sec ctx noalloc

/-- A read by a core of `die` of a page homed at `home`: the home grants 250 ns, and a remote slice grants at most its own
lease (R78, R98, R99). -/
def sliceRead (s : State) (die home sec ctx : Nat) (noalloc : Bool) : Grant × State :=
  let till := s.clock.dtime + 250
  if die = home then
    let (x, s) := homeFetch s home sec ctx noalloc
    let s := s.onMs fun ms => raiseLease ms (sec / 4) till
    (⟨x.data, x.poison, till, (lineTimes s.ms (sec / 4)).wct⟩, s)
  else
    let (r, s) := remoteFetch s die home sec ctx noalloc
    (⟨r.data, r.poison, min r.lease till, r.wct⟩, s)

/-- A read by an engine of `die`, which keeps no copy: at the home, or through its die's read copy (R98, R118). -/
def engineRead (s : State) (die home sec ctx : Nat) (noalloc : Bool) : Grant × State :=
  if die = home then
    let (x, s) := homeFetch s home sec ctx noalloc
    (⟨x.data, x.poison, s.clock.dtime, (lineTimes s.ms (sec / 4)).wct⟩, s)
  else
    let (r, s) := remoteFetch s die home sec ctx noalloc
    (⟨r.data, r.poison, r.lease, r.wct⟩, s)

/-! ## Budgets of an L1 -/

/-- A core's buffer entries that no region owns and that wait for the log (R61). -/
def ownerlessOf (s : State) (core : Nat) : List SlogEntry := (NMap.get? s.vm.ownerless core).getD []

/-- Buffer entries taken on a core, entries that wait for the side log included (R61, R84). -/
def entriesUsed (s : State) (core : Nat) : Nat :=
  ((s.groupsOf core).map fun e => ((e.2.region.map fun r => r.buf.length).getD 0)).foldl (· + ·) 0
    + (ownerlessOf s core).length

/-- The sectors held on a core, each once: the team of a scratchpad granule, and its number (R83, R84). A sector that two
regions hold counts once even where a store between their first reads gave them different bytes, and each region reads the
bytes that it held (LOG 49). -/
def holdKeys (s : State) (core : Nat) : List (Option Nat × Nat) :=
  (s.groupsOf core).foldl (fun (acc : List (Option Nat × Nat)) e =>
    match e.2.region with
    | none => acc
    | some r => (r.holds.filter fun h => !h.copy).foldl (fun acc h =>
        let key := (if h.scratch then some e.2.info.team else none, h.addr)
        if acc.contains key then acc else key :: acc) acc) []

/-- Sectors held on a core: tile holds are included, and the bounds of regions' copies in place of what those read (R83, R84, R145,
R271). -/
def holdsUsed (s : State) (core : Nat) : Nat :=
  let tiles := ((s.groupsOf core).map fun e =>
    match e.2.region with
    | none => 0
    | some r => (r.tiles.map fun t => (t.bytes.length + 31) / 32).foldl (· + ·) r.reserved).foldl (· + ·) 0
  (holdKeys s core).length + tiles

/-- Lines that a core's L1 caches beside entries and holds: 192 KiB in all (R80, R84). -/
def lineRoom (s : State) (core : Nat) : Nat := (6144 - entriesUsed s core - holdsUsed s core) / 4

/-! ## L1 -/

/-- The L1 that holds a line for a core: its own, or in a fused cluster the L1 of core (line mod 4) (R86). -/
def l1Owner (s : State) (core line : Nat) : Nat :=
  if (s.core core).fused then clusterOf core * 4 + line % 4 else core

/-- A core's L1 copies. -/
def l1Of (ms : MemSide) (core : Nat) : NMap L1Copy := (NMap.get? ms.l1 core).getD []

/-- A core's L1 copy of a sector. -/
def l1Copy (s : State) (core sec : Nat) : Option L1Copy := NMap.get? (l1Of s.ms (l1Owner s core (sec / 4))) sec

/-- The lines of an L1, each once, with the cycle of its last fill. -/
def l1Lines (l : NMap L1Copy) : NMap Nat :=
  l.foldl (fun m e => NMap.set m (e.1 / 4) (max ((NMap.get? m (e.1 / 4)).getD 0) e.2.filled)) []

/-- An L1 that has no room for a line drops the line filled longest ago (R80, R84; LOG 49). -/
def l1Room (l : NMap L1Copy) (line room : Nat) : NMap L1Copy :=
  let lines := l1Lines l
  if (NMap.get? lines line).isSome || decide (lines.length < room) then l
  else
    match lines with
    | [] => l
    | e :: r =>
      let old := r.foldl (fun a b => if b.2 < a.2 then b else a) e
      l.filter fun x => x.1 / 4 != old.1

/-- Writes a core's L1 copy of a sector. -/
def setL1 (s : State) (core sec : Nat) (c : L1Copy) : State :=
  let o := l1Owner s core (sec / 4)
  s.onMs fun ms => { ms with l1 := NMap.set ms.l1 o (NMap.set (l1Room (l1Of ms o) (sec / 4) (lineRoom s o)) sec c)
                             l1marks := NMap.erase ms.l1marks (o * 2 ^ 35 + sec) }

/-- Drops a core's L1 copy of a sector. -/
def dropL1 (s : State) (core sec : Nat) : State :=
  let o := l1Owner s core (sec / 4)
  s.onMs fun ms => { ms with l1 := NMap.set ms.l1 o (NMap.erase (l1Of ms o) sec) }

/-- A sector request waits in the core's L1 miss queue until it is back (R32, R81). -/
def noteMiss (s : State) (core delay : Nat) : State :=
  let l := ((NMap.get? s.ms.l1miss core).getD []).filter fun t => decide (s.clock.cycle < t)
  s.onMs fun ms => { ms with l1miss := NMap.set ms.l1miss core (l ++ [s.clock.cycle + delay]) }

/-- Sector requests of a core that are not back, those to the host and to peers among them (R32). -/
def missesOut (s : State) (core : Nat) : Nat :=
  (((NMap.get? s.ms.l1miss core).getD []).filter fun t => decide (s.clock.cycle < t)).length
    + (s.pkg.outreqs.filter fun r => r.core == core).length

/-- The memory pipe may issue: no sector request stands in the coalescer behind the 64 of the core's miss queue (R32). -/
def missRoom (s : State) (core : Nat) : Bool := decide (missesOut s core ≤ 64)

/-- Cycles until a request is back from a home slice (R79, R305; LOG 3). -/
def homeDelay (core home : Nat) : Nat := if dieOf core = home then 120 else 230

/-- The L1 that holds a copy finds what its array holds in it: a corrected error counts for its score; a copy with an uncorrectable
one is dropped, and fetched again (R80, R454, R462). -/
def l1Check (s : State) (core sec : Nat) : State :=
  let o := l1Owner s core (sec / 4)
  let key := o * 2 ^ 35 + sec
  match NMap.get? s.ms.l1marks key with
  | none => s
  | some m =>
    let s := s.onMs fun ms => { ms with l1marks := NMap.erase ms.l1marks key }
    if (l1Copy s core sec).isNone then s
    else
      match m with
      | .correctable => addScore s 3 o s.pkg.cns.wcor
      | .uncorrectable => addScore (dropL1 s core sec) 3 o s.pkg.cns.wunc

/-- A core's read of a sector of device memory: its L1 while the lease runs, else the slices (R80, R100, R101). -/
def coreRead (s : State) (core home sec ctx : Nat) (noalloc : Bool) : Grant × State :=
  let s := l1Check s core sec
  match (l1Copy s core sec).filter fun c => decide (s.clock.dtime < c.lease) with
  | some c => (⟨c.data, c.poison, c.lease, c.stamp⟩, s)
  | none =>
    let (g, s) := sliceRead (noteMiss s core (homeDelay core home)) (dieOf core) home sec ctx noalloc
    (g, setL1 s core sec ⟨g.data, g.poison, g.lease, g.stamp, s.clock.cycle⟩)

/-- A copy updated in place by a passing write, whose GWCT its stamp then shows (R78, R81, R99). -/
def L1Copy.update (c : L1Copy) (m : Word32) (x : Sector) (poison : Bool) (gwct : Nat) : L1Copy :=
  { c with data := Sector.mergeBytes m x c.data, poison := if m = fullMask then poison else c.poison || poison
           stamp := max c.stamp gwct }

/-- A write of a sector that has passed a die's slice on its way home has updated a read copy there; a fill on its way to
that slice is awaited first (R78, R99). -/
def passRemote (s : State) (die home sec ctx gwct : Nat) (m : Word32) (x : Sector) (poison : Bool) : State :=
  let s := l2Check s die sec
  let r := l2Sector s.ms die sec
  if die = home then s
  else
    match r.st with
    | .f => (remoteFill s die home sec ctx false).2
    | .l => s.onMs fun ms => setL2Sector ms die sec
        { r with data := Sector.mergeBytes m x r.data, poison := if m = fullMask then poison else r.poison || poison
                 wct := max r.wct gwct } s.clock.cycle
    | _ => s

/-- A write by an agent that has no L1: copy engines, collectives, host and peers (R99, R118, R122). -/
def agentWrite (s : State) (die : Option Nat) (home sec ctx : Nat) (m : Word32) (x : Sector) (poison : Bool) : Nat × State :=
  let (g, s) := homeWrite s home sec ctx m x poison
  match die with
  | some d => (g, passRemote s d home sec ctx g m x poison)
  | none => (g, s)

/-- A core's write-through of a sector: performed at the home slice, its own L1 copy and its die's read copy updated in
place, with the write's GWCT in their stamps (R78, R81, R99). -/
def coreWrite (s : State) (core home sec ctx : Nat) (m : Word32) (x : Sector) (poison : Bool) : Nat × State :=
  let (g, s) := agentWrite (noteMiss s core (homeDelay core home)) (some (dieOf core)) home sec ctx m x poison
  (g, match l1Copy s core sec with
    | some c => setL1 s core sec (c.update m x poison g)
    | none => s)

/-- Drops a core's L1 copy and its die's read copy of a sector: an atomic goes to the home (R81, R97). -/
def dropCopies (s : State) (core home sec : Nat) : State :=
  let s := dropL1 s core sec
  if dieOf core = home || (NMap.get? s.ms.l2 (l2Key (dieOf core) (sec / 4))).isNone then s
  else s.onMs fun ms => setL2Sector ms (dieOf core) sec L2Sector.invalid s.clock.cycle

/-- A physical address outside main memory (R18). -/
def outsideMemory (pa : Nat) : Bool := decide (Config.memBytes ≤ pa)

/-- Every line of a page leaves a die's L2 (R71). -/
def flushPage (s : State) (die pa size : Nat) : State :=
  let keys := s.ms.l2.filter fun e =>
    e.1 / 2 ^ 33 == die && decide (pa ≤ e.1 % 2 ^ 33 * 128) && decide (e.1 % 2 ^ 33 * 128 < pa + size)
  keys.foldl (fun s e => flushLine (endLineFills s (e.1 % 2 ^ 33)) die (e.1 % 2 ^ 33) false) s

/-- Drops the L1 copies of a range of physical memory from every core (R121). -/
def dropL1Range (s : State) (pa size : Nat) : State :=
  s.onMs fun ms => { ms with l1 := ms.l1.map fun e =>
    (e.1, e.2.filter fun x => !(decide (pa ≤ x.1 * 32) && decide (x.1 * 32 < pa + size))) }

end Sys2Proof.Machine
end

