-- ==== Sys2Proof/Machine/Vm.lean ====
section
/-! DEFINITION. Translation: page tables, lookup stages, permission, faults and invalidation (spec/03 R44-R62). -/

namespace Sys2Proof.Machine

/-- What a mapped leaf gives an access, and the span of its page (R45, R49). -/
structure Leaf where
  tgt : Nat
  peer : Nat
  home : Nat
  pa : Nat
  noalloc : Bool
  dev : Bool
  pin : Bool
  cold : Bool
  x : Bool
  w : Bool
  v : Bool
  span : Nat
  deriving DecidableEq, Repr

/-- The fields of a leaf entry (R49), for the smallest page; `Leaf.at` gives the span of its level. -/
def Leaf.of (e : Nat) : Leaf :=
  { tgt := bitsOf e 41 40, peer := bitsOf e 57 48, home := bitsOf e 43 42, pa := bitsOf e 39 16 * 2 ^ 16
    noalloc := e.testBit 8, dev := e.testBit 7, pin := e.testBit 6, cold := e.testBit 5, x := e.testBit 3
    w := e.testBit 2, v := e.testBit 0, span := 2 ^ 16 }

/-- Bytes that an entry of a level spans (R45, R62). -/
def levelSpan : Nat → Nat
  | 0 => 2 ^ 16
  | 1 => 2 ^ 21
  | 2 => 2 ^ 30
  | _ => 2 ^ 39

/-- Index into a table of a level (R47). -/
def levelIndex (lv va : Nat) : Nat := if lv = 0 then va / 2 ^ 16 % 32 else va / levelSpan lv % 512

/-- The leaf of an entry of a level (R45, R49). -/
def Leaf.at (lv e : Nat) : Leaf := { Leaf.of e with span := levelSpan lv }

/-- A leaf that breaks a rule (R51). R49 asks PEERNO to be zero where TGT is not 2; R51 does not list it, and the model takes it
for a reserved bit (LOG 50). -/
def leafMalformed (lv e : Nat) : Bool :=
  let l := Leaf.of e
  bitsOf e 63 58 != 0 || bitsOf e 47 44 != 0 || bitsOf e 15 9 != 0 || e.testBit 4 || l.tgt == 3 ||
    (l.tgt != 2 && l.peer != 0) || l.pa % levelSpan lv != 0 || (l.tgt == 0 && decide (Config.memBytes ≤ l.pa))

/-- A table entry that breaks a rule; the next table lies one level below (R48). -/
def tableMalformed (lv e : Nat) : Bool :=
  bitsOf e 63 40 != 0 || bitsOf e 7 2 != 0 || (2 ≤ lv && bitsOf e 11 8 != 0)

/-- How a walk ends (R47, R51, R52): the level and address of the last entry, and the leaf. -/
inductive Walk where
  | absent (lv : Nat)
  | malformed (lv : Nat)
  | leaf (lv addr e : Nat)
  deriving DecidableEq, Repr

/-- Walks from a table of a level (R47); the tables met on the way are listed for the walk cache. -/
def walkFrom (s : State) (va : Nat) : Nat → Nat → Walk × List (Nat × Nat)
  | 0, table =>
    let a := table + 8 * levelIndex 0 va
    let e := physNat s a 8
    (if leafMalformed 0 e then .malformed 0 else .leaf 0 a e, [])
  | lv + 1, table =>
    let a := table + 8 * levelIndex (lv + 1) va
    let e := physNat s a 8
    if lv + 1 = 3 then
      if !e.testBit 0 then (.absent 3, [])
      else if e.testBit 1 || tableMalformed 3 e then (.malformed 3, [])
      else
        let next := bitsOf e 39 8 * 256
        let (w, c) := walkFrom s va lv next
        (w, (lv, next) :: c)
    else if e.testBit 1 then (if leafMalformed (lv + 1) e then .malformed (lv + 1) else .leaf (lv + 1) a e, [])
    else if !e.testBit 0 then (.absent (lv + 1), [])
    else if tableMalformed (lv + 1) e then (.malformed (lv + 1), [])
    else
      let next := bitsOf e 39 8 * 256
      let (w, c) := walkFrom s va lv next
      (w, (lv, next) :: c)

/-- A walk of a context's tables from the top (R46, R47). -/
def walkTop (s : State) (ctx va : Nat) : Walk × List (Nat × Nat) :=
  walkFrom s va 3 (((s.ctx? ctx).map Ctx.l3).getD 0)

/-- The lowest table of an address in a die's walk cache (R54). -/
def walkCached (s : State) (die ctx va : Nat) : Option (Nat × Nat) :=
  (([0, 1, 2] : List Nat).filterMap fun lv =>
    (s.vm.walks.find? fun w =>
      w.die == die && w.ctx == ctx && w.level == lv && w.tagVa == va / levelSpan (lv + 1)).map fun w =>
        (lv, w.table)).head?

/-- The entries that a walk from a table reads, each as an ordinary read of memory (R35, R54). -/
def walkReads (s : State) (ctx va : Nat) : Nat → Nat → State
  | 0, table => touchPhys s (table + 8 * levelIndex 0 va) 8 ctx
  | lv + 1, table =>
    let a := table + 8 * levelIndex (lv + 1) va
    let s := touchPhys s a 8 ctx
    let e := physNat s a 8
    if e.testBit 1 || !e.testBit 0 || tableMalformed (lv + 1) e then s
    else walkReads s ctx va lv (bitsOf e 39 8 * 256)

/-- A walk through a die's walk cache of 1,024 table entries; the entry that was installed longest ago goes first (R54; LOG 50).
It ends in the step that begins it, so that no walker, and no place in the walk queue, is taken between steps (LOG 3). -/
def walkDie (s : State) (die ctx va : Nat) : Walk × State :=
  let (lv, table) := (walkCached s die ctx va).getD (3, ((s.ctx? ctx).map Ctx.l3).getD 0)
  let s := walkReads s ctx va lv table
  let (w, new) := walkFrom s va lv table
  let add : List WalkEntry := new.map fun e => ⟨die, ctx, e.1, va / levelSpan (e.1 + 1), e.2⟩
  (w, s.onVm fun vm =>
    let mine := add ++ vm.walks.filter fun w => w.die == die
    { vm with walks := mine.take 1024 ++ vm.walks.filter fun w => w.die != die })

/-- Who asks for a translation: its die, its AGENT and UNIT in fault records (R62). -/
structure Agent where
  die : Nat
  agent : Nat
  unit : Nat
  deriving DecidableEq, Repr

/-- A core as an agent. -/
def coreAgent (core : Nat) : Agent := ⟨dieOf core, 0, core⟩

/-- The I/O die's control core, which acts for the dispatcher and the collective engines (R343, R418). The I/O die has no walkers
of its own: compute die 0 walks for it, and expands compressed pages for it (R10, R68; LOG 50). -/
def ioAgent : Agent := ⟨0, 4, 4⟩

/-- ACCESS of a fault record (R62): an atomic sets bit 2 alone (LOG 50). -/
def accessBits (acc : AccessKind) (atomic : Bool) : Nat :=
  match acc with
  | .read => if atomic then 4 else 1
  | .write => if atomic then 4 else 2
  | .fetch => 8

/-- Posts a host-path fault once per context and range (R62). -/
def postVmFault (s : State) (ctx va kind access : Nat) (ag : Agent) (lv : Nat) : State :=
  let base := va / levelSpan lv * levelSpan lv
  if s.vm.posted.any fun p => p.ctx == ctx && decide (p.base ≤ va) && decide (va < p.base + p.size) then s
  else
    let s := s.onVm fun vm => { vm with posted := vm.posted ++ [⟨ctx, base, levelSpan lv⟩] }
    let rcd := 1 + lv % 4 * 2 ^ 64 + ag.agent % 256 * 2 ^ 72 + ag.unit % 2 ^ 16 * 2 ^ 80 + access % 256 * 2 ^ 96
      + kind % 256 * 2 ^ 104 + va % 2 ^ 48 * 2 ^ 112 + ctx % 2 ^ 32 * 2 ^ 160 + s.clock.dtime % 2 ^ 64 * 2 ^ 192
    let (r, s') := s.vm.vmfq.post physWrite 1024 rcd s
    let s' := s'.onVm fun vm => { vm with vmfq := r }
    if r.head != s.vm.vmfq.head && r.irqen then s'.raiseVector 1 else s'

/-- The answer to a translation. -/
inductive Xl where
  /-- Mapped and permitted: the leaf and the target address. -/
  | ok (l : Leaf) (pa : Nat)
  /-- A permission is missing (R55). -/
  | denied
  /-- The page is not mapped, in transit, compressed or not held: the access waits (R50, R58). -/
  | wait
  deriving DecidableEq, Repr

/-- The permission an access needs (R55). -/
def Leaf.permits (l : Leaf) (acc : AccessKind) : Bool :=
  match acc with
  | .read => true
  | .write => l.w
  | .fetch => l.x

/-- A cached translation answers for an address. -/
def Xlate.covers (x : Xlate) (ctx va : Nat) : Bool :=
  x.ctx == ctx && decide (x.base ≤ va) && decide (va < x.base + x.size)

/-- Removes every cached translation and table entry that could translate an address of a range (R57). -/
def dropXlates (s : State) (meets : Nat → Nat → Nat → Bool) : State :=
  let keep (x : Xlate) : Bool := !meets x.ctx x.base x.size
  s.onVm fun vm =>
    { vm with
      tlb := vm.tlb.map fun e => (e.1, e.2.filter keep)
      lastPage := vm.lastPage.map fun e => (e.1, e.2.filter fun y => keep y.2)
      walks := vm.walks.filter fun w => !meets w.ctx (w.tagVa * levelSpan (w.level + 1)) (levelSpan (w.level + 1)) }

/-- A split held on a page of the range walks again (R57). -/
def Split.release (sp : Split) (meets : Nat → Nat → Nat → Bool) : Split :=
  match sp.hold with
  | some (.fault ctx lanes _) =>
    if lanes.any fun l => meets ctx (l.2 / 2 ^ 16 * 2 ^ 16) (2 ^ 16) then { sp with hold := none } else sp
  | _ => sp

/-- Releases every access that waits in a range: held words and fetches, side-log entries, copies, collectives, the control
cores' own accesses, and the posted faults (R57). -/
def releaseWaiters (s : State) (meets : Nat → Nat → Nat → Bool) : State :=
  let page (ctx va : Nat) : Bool := meets ctx (va / 2 ^ 16 * 2 ^ 16) (2 ^ 16)
  let entry (e : SlogEntry) : SlogEntry := if page e.ctx e.va then { e with waits := false } else e
  let parked (p : Option (Nat × Nat)) : Bool := match p with
    | some (c, va) => page c va
    | none => false
  let s := s.onVm fun vm =>
    { vm with
      posted := vm.posted.filter fun p => !meets p.ctx p.base p.size
      awaited := vm.awaited.filter fun a => !page a.ctx (a.page * 2 ^ 16)
      slog := vm.slog.map fun e => (e.1, e.2.map entry)
      ownerless := vm.ownerless.map fun e => (e.1, e.2.map entry) }
  let s := s.onEng fun e =>
    { e with
      copies := e.copies.map fun r => if parked r.parked then { r with parked := none } else r
      colls := e.colls.map fun r => if parked r.parked then { r with parked := none, start := s.clock.dtime - r.start } else r }
  s.onWork fun w => { w with groups := w.groups.map fun e =>
    (e.1, { e.2 with splits := e.2.splits.map fun sp => Split.release sp meets }) }

/-- Addresses of a context meet those of an invalidation: of a range, or of everything, in a context or in all (R56). -/
def invalMeets (ctx : Option Nat) (range : Option (Nat × Nat)) (c base size : Nat) : Bool :=
  (match ctx with | some x => x == c | none => true) &&
    (match range with | some (b, n) => decide (base < b + n) && decide (b < base + size) | none => true)

/-- Completes an invalidation: translations go, and waiters walk again (R56, R57). -/
def invalidateRange (s : State) (ctx : Option Nat) (range : Option (Nat × Nat)) : State :=
  releaseWaiters (dropXlates s (invalMeets ctx range)) (invalMeets ctx range)

/-- Writes a leaf by compare-and-swap: nothing changes when the driver has changed the entry (R53). -/
def casLeaf (s : State) (addr : Nat) (old new : W64) : Bool × State :=
  let s := touchPhys s addr 8 0
  if physNat s addr 8 = old.toNat then (true, physWriteW s addr new) else (false, s)

/-- An access that reaches an in-transit page of a compression ends the compression: the leaf is mapped as before and
the page invalidated (R67). -/
def abandonCompression (s : State) (ctx va : Nat) : State :=
  match s.vm.moves.find? fun m => m.ctx == ctx && m.newHome.isNone && m.va == va / 2 ^ 16 * 2 ^ 16 with
  | none => s
  | some m =>
    let transit := (m.old &&& ~~~(w64 1)) ||| w64 0x20
    let (_, s) := casLeaf s m.leafAt transit m.old
    let s := s.onVm fun vm => { vm with moves := vm.moves.filter (· != m) }
    invalidateRange s (some ctx) (some (m.va, 2 ^ 16))

/-- The event is an expansion of a page (R68). -/
def sameExpansion (ctx va : Nat) : Instr → Bool
  | .pageExpansion _ c x => c == ctx && x.va / 2 ^ 16 == va / 2 ^ 16
  | _ => false

/-- What a finished walk answers: a fault is posted, an expansion is asked for, or the leaf stands (R50-R52, R55, R68). -/
def finishWalk (s : State) (w : Walk) (ag : Agent) (ctx va : Nat) (acc : AccessKind) (atomic : Bool) :
    Xl × Option (Nat × W64) × State :=
  let access := accessBits acc atomic
  match w with
  | .absent lv => (.wait, none, postVmFault s ctx va 1 access ag lv)
  | .malformed lv => (.wait, none, postVmFault s ctx va 3 access ag lv)
  | .leaf lv _ e =>
    let l := Leaf.at lv e
    if !l.dev then (.wait, none, postVmFault s ctx va 2 access ag lv)
    else
      match l.v, l.cold with
      | true, false =>
        (if l.permits acc then .ok l (l.pa + va % levelSpan lv) else .denied, some (lv, BitVec.ofNat 64 e), s)
      | true, true =>
        let ev := Instr.pageExpansion ag.die ctx ⟨va, access, ag.agent, ag.unit⟩
        (.wait, none, if s.agenda.any (sameExpansion ctx va) then s else { s with agenda := s.agenda ++ [ev] })
      | false, true => (.wait, none, s)
      | false, false => (.wait, none, postVmFault s ctx va 1 access ag lv)

/-- Walks for an access. One that meets the page of a compression under way ends the compression and walks again (R67). -/
def walkFor (s : State) (ag : Agent) (ctx va : Nat) (acc : AccessKind) (atomic : Bool) : Xl × Option (Nat × W64) × State :=
  let (w, s) := walkDie s ag.die ctx va
  match w with
  | .leaf _ _ e =>
    let l := Leaf.of e
    if l.dev && !l.v && l.cold then
      let (w, s) := walkDie (abandonCompression s ctx va) ag.die ctx va
      finishWalk s w ag ctx va acc atomic
    else finishWalk s w ag ctx va acc atomic
  | _ => finishWalk s w ag ctx va acc atomic

/-- A translation without lookup stages: control cores, engines and the dispatcher (R46, R418). An agent's access that has met
a page it must wait for walks again when an invalidation that covers the page has completed (R50, R57). -/
def translateWalk (s : State) (ag : Agent) (ctx va : Nat) (acc : AccessKind) (atomic : Bool) : Xl × State :=
  let at? : AwaitedPage := ⟨ag.agent, ag.unit, ctx, va / 2 ^ 16⟩
  if s.vm.awaited.contains at? then (.wait, s)
  else
    let (x, _, s) := walkFor s ag ctx va acc atomic
    match x with
    | .wait => (x, s.onVm fun vm => { vm with awaited := vm.awaited ++ [at?] })
    | _ => (x, s)

/-- A core's TLB. -/
def tlbOf (s : State) (core : Nat) : List Xlate := (NMap.get? s.vm.tlb core).getD []

/-- A lane's last-page register (R54). -/
def lastPageOf (s : State) (k lane : Nat) : Option Xlate :=
  ((NMap.get? s.vm.lastPage k).getD [] |> fun m => NMap.get? m lane)

/-- Writes a lane's last-page register. -/
def setLastPage (s : State) (k lane : Nat) (x : Xlate) : State :=
  s.onVm fun vm =>
    { vm with lastPage := NMap.set vm.lastPage k (NMap.set ((NMap.get? vm.lastPage k).getD []) lane x) }

/-- A lane's access is translated by its last-page register, the core's TLB, or a walk (R54). Instruction fetches use the
TLB alone. A full TLB drops the translation that was installed longest ago (LOG 50). -/
def translate (s : State) (k : Nat) (lane : Option Nat) (ctx va : Nat) (acc : AccessKind) (atomic : Bool) : Xl × State :=
  let core := coreOf k
  let hit (x : Xlate) : Xl :=
    let l := { Leaf.of x.leaf.toNat with span := x.size }
    if l.permits acc then .ok l (l.pa + va % x.size) else .denied
  let fast := lane.bind fun l => (lastPageOf s k l).bind fun x =>
    if x.covers ctx va && (Leaf.of x.leaf.toNat).permits acc then some (hit x) else none
  match fast with
  | some r => (r, s)
  | none =>
    match (tlbOf s core).find? fun x => x.covers ctx va with
    | some x =>
      let r := hit x
      (r, match lane, r with
        | some l, .ok _ _ => setLastPage s k l x
        | _, _ => s)
    | none =>
      let (r, m, s) := walkFor s (coreAgent core) ctx va acc atomic
      match m with
      | none => (r, s)
      | some (lv, e) =>
        let x : Xlate := ⟨ctx, va / levelSpan lv * levelSpan lv, levelSpan lv, e⟩
        let s := s.onVm fun vm => { vm with tlb := NMap.set vm.tlb core (x :: (tlbOf s core).take 511) }
        (r, match lane, r with
          | some l, .ok _ _ => setLastPage s k l x
          | _, _ => s)

/-- The leaf that maps an address now, without a fault (R72, R321). -/
def leafNow (s : State) (ctx va : Nat) : Option (Leaf × Nat × Nat × Nat) :=
  match (walkTop s ctx va).1 with
  | .leaf lv a e =>
    let l := Leaf.at lv e
    if l.dev && l.v && !l.cold then some (l, l.pa + va % levelSpan lv, lv, a) else none
  | _ => none

/-- The least-counted of a placement unit's pages: the smallest sum of the four counts, the earliest entry among equals
(R70; LOG 50). -/
def leastCounted (l : List PageCount) : Option PageCount :=
  l.foldl (fun m p => match m with
    | some q => if p.counts.sum < q.counts.sum then some p else m
    | none => some p) none

/-- A home die's slices count a request to a page: one in sixteen is sampled for the die that sent it, in a table of 65,536
pages whose least-counted entry goes first (R70). -/
def samplePage (s : State) (l : Leaf) (ctx va die : Nat) : State :=
  if l.tgt != 0 then s
  else
    let page := va / l.span * l.span
    let same (p : PageCount) : Bool := p.die == l.home && p.ctx == ctx && p.va == page && p.size == l.span
    let hit (p : PageCount) : PageCount :=
      if p.seen % 16 = 15 then
        { p with seen := p.seen + 1, idle := 0, counts := listSet p.counts die (min (p.counts.getD die 0 + 1) 255) }
      else { p with seen := p.seen + 1 }
    s.onVm fun vm =>
      if vm.counts.any same then { vm with counts := vm.counts.map fun p => if same p then hit p else p }
      else
        let mine := vm.counts.filter fun p => p.die == l.home
        let kept := if mine.length < 65536 then vm.counts
          else match leastCounted mine with
            | some q => vm.counts.erase q
            | none => vm.counts
        { vm with counts := kept ++ [⟨l.home, ctx, page, l.span, [0, 0, 0, 0], 0, 1⟩] }

/-- The address has bits above 47 (R44). -/
def wildAddr (va : Nat) : Bool := decide (2 ^ 48 ≤ va)

end Sys2Proof.Machine
end

