-- ==== Sys2Proof/Machine/Ops.lean ====
section
/-! DEFINITION. What every instruction shares: operands and results, delivery of long-latency results, taking a trap and
returning from one, holding, dividing into splits, and leaving a core (spec/08, spec/09 R208-R212, spec/16 R360-R370,
spec/17 R380-R382, spec/20 R434-R441). -/

namespace Sys2Proof.Machine

/-! ## Asynchronous records -/

/-- Posts a record on a context's asynchronous ring; without a ring it is dropped, on a full ring counted (R411, R441). -/
def postAsync (s : State) (ctx : Nat) (rcd : Nat) : State :=
  match s.ctx? ctx with
  | none => s
  | some c =>
    if c.aring = 0 then s
    else
      let s := touchPhys s c.aring 64 ctx
      let wr := physNat s c.aring 8
      let rd := physNat s (c.aring + 8) 8
      let sz := physNat s (c.aring + 16) 1
      let sz := if 4 ≤ sz ∧ sz ≤ 12 then sz else 12
      if (wr + 2 ^ 64 - rd) % 2 ^ 64 = 2 ^ sz then
        physWrite s (c.aring + 20) (leBytes 4 (min (physNat s (c.aring + 20) 4 + 1) 0xFFFFFFFF))
      else
        let s := physWrite s (c.aring + 64 + 32 * (wr % 2 ^ sz)) (leBytes 32 rcd)
        physWriteW s c.aring (w64 (wr + 1))

/-- A record of kinds 0x2 to 0x6 (R441). -/
def asyncRecord (s : State) (ctx grid : Nat) (addr : Nat) (core cause info kind : Nat) : Nat :=
  1 + kind % 16 * 2 + info % 2 ^ 32 * 2 ^ 15 + cause % 256 * 2 ^ 47 + core % 512 * 2 ^ 55 + addr % 2 ^ 64 * 2 ^ 64
    + grid % 2 ^ 32 * 2 ^ 128 + ctx % 2 ^ 32 * 2 ^ 160 + s.clock.dtime % 2 ^ 64 * 2 ^ 192

/-- The grid id of a grid key. -/
def gridId (s : State) (gk : Nat) : Nat := ((s.grid? gk).map Grid.id).getD 0

/-- Sets a status bit of a grid (R415). -/
def setGridFlag (s : State) (gk bit : Nat) : State :=
  s.onGrid gk fun g => { g with flags := g.flags ||| BitVec.ofNat 8 (2 ^ bit) }

/-- Posts an asynchronous record of a group's context and sets the grid's ASYNC bit (R415, R441). -/
def postKind (s : State) (ctx gk : Nat) (addr core cause info kind : Nat) : State :=
  setGridFlag (postAsync s ctx (asyncRecord s ctx (gridId s gk) addr core cause info kind)) gk 4

/-! ## Delivery -/

/-- Entry `i` of the result queue takes values in some lanes. -/
def Group.setAged (g : Group) (f : Nat → Nat → Option W64) : Group :=
  let entry (i : Nat) : LaneReg := LaneReg.ofFn fun l => (f i l).getD ((g.aged i).lane l)
  g.onRegs fun r => { r with rq := ⟨⟨(List.range 16).map entry⟩, by simp⟩ }

/-- Writes a pending result to its registers, its result-queue entries and its predicate (R209). -/
def Group.deliver (g : Group) (p : Pending) : Group :=
  let g := (p.regs.zip p.vals).foldl (fun g rv => g.setReg rv.1 p.act rv.2) g
  let g := g.setAged fun i l =>
    if p.act.has l then
      let a := p.ages.getD l 0
      if a ≤ i && i < a + p.nq then (p.vals[p.nq - 1 - (i - a)]?).map fun v => v.lane l else none
    else none
  let g := match p.pred with
    | some (n, b) => g.setPred n Mask.all (if b then Mask.all else 0)
    | none => g
  (g.raiseFlags p.flags).raiseHorizon p.stamp

/-- Fills or frees the k-queue entry a pending result reserved (R237). -/
def fillK (s : State) (team : Nat) (kq : Option (Nat × Nat)) (x : LaneReg) : State :=
  match kq with
  | none => s
  | some (q, id) => s.onTeam team fun t =>
      { t with kq := t.kq.setIfInBounds q ((t.kq.toArray.toList.getD q []).map fun e =>
          if e.id = id then { e with val := x, filled := true, at? := s.clock.cycle + 4 } else e) }

/-! ## Leaving a core -/

/-- Grids whose work a group counts for (R355). -/
def Group.grids (g : Group) : List Nat := if g.info.tray then g.info.trayGrids else [g.info.grid]

/-- The scratchpad report of a team (R93), as a record: the team's index and the grid's id stand in it as s0 and s1 held them. -/
def scratchRecord (s : State) (t : Team) : Nat :=
  let hit := t.reports.filter fun r => r.2 != 0
  let groups := (hit.map fun r => 2 ^ r.1).foldl (· + ·) 0
  let all := (hit.map fun r => r.2.toNat).foldl Nat.lor 0
  1 + 1 * 2 + all / 2 ^ 32 % 8 * 2 ^ 5 + all % 2 ^ 32 * 2 ^ 32 + groups % 2 ^ 32 * 2 ^ 64
    + t.s0.toNat % 2 ^ 32 * 2 ^ 96 + t.s1.toNat % 2 ^ 32 * 2 ^ 128 + t.s0.toNat / 2 ^ 32 * 2 ^ 160
    + s.clock.dtime % 2 ^ 64 * 2 ^ 192

/-- Drops a team's operand-cache entries, at its exit or at a fence: fetches under way make none (R120). -/
def dropTiles (s : State) (team : Nat) : State :=
  let past (r : CopyRun) : CopyRun := if r.cmd.cache.isSome && r.cmd.team == team then { r with stale := true } else r
  s.onEng fun e => { e with oc := e.oc.filter (fun x => x.team != team), copies := e.copies.map past }

/-- A partner of a joint product that traps while it waits takes its operands back: the product starts again when it issues its
MMAJ again (R273). -/
def dropJoint (s : State) (k : Nat) (g : Group) (sp : Split) : State :=
  if sp.hold = some (.wait .mmaj) then
    s.onEng fun e => { e with mats := e.mats.map fun x =>
      (x.1, x.2.filter fun (m : MatOp) => !(m.group == k && m.split == sp.id && m.mmaj == some g.mmaj)) }
  else s

/-- No group: engine work whose group has left its core belongs to it. -/
def nobody : Nat := 2 ^ 20

/-- Keys from here on stand for saved groups. -/
def savedBase : Nat := 2 ^ 21

/-- The key that stands for a saved group: the number of its save and its slot. -/
def savedKey (seq slot : Nat) : Nat := savedBase + seq * 32 + slot

/-- Renames the groups that engine work, releases, side-log entries and host or peer requests belong to. -/
def reown (s : State) (f : Nat → Nat) : State :=
  let cp (c : CopyCmd) : CopyCmd := { c with group := f c.group }
  let cl (c : CollRun) : CollRun := { c with group := f c.group }
  let qc (q : QueueItem CopyCmd) : QueueItem CopyCmd := match q with | .op a => .op (cp a) | .fence n => .fence n
  let ql (q : QueueItem CollRun) : QueueItem CollRun := match q with | .op a => .op (cl a) | .fence n => .fence n
  let qp (q : QueueItem PathOp) : QueueItem PathOp := match q with
    | .op a => .op { a with group := f a.group }
    | .fence n => .fence n
  let eff (e : Effect) : Effect := match e with
    | .copy c => .copy (cp c)
    | e => e
  let logs (m : NMap (List SlogEntry)) : NMap (List SlogEntry) :=
    m.map fun x => (x.1, x.2.map fun (e : SlogEntry) => { e with group := f e.group })
  let s := s.onEng fun e => { e with
    queues := e.queues.map fun x => (x.1, { x.2 with copy := x.2.copy.map qc, coll := x.2.coll.map ql, path := x.2.path.map qp })
    copies := e.copies.map fun r => { r with cmd := cp r.cmd }
    colls := e.colls.map cl
    mats := e.mats.map fun x => (x.1, x.2.map fun (m : MatOp) => { m with group := f m.group }) }
  let s := s.onWork fun w => { w with
    releases := w.releases.map fun (r : Release) => { r with group := f r.group, eff := eff r.eff } }
  let s := s.onVm fun vm => { vm with slog := logs vm.slog, ownerless := logs vm.ownerless }
  s.onPkg fun p => { p with outreqs := p.outreqs.map fun (r : OutReq) => { r with owner := match r.owner with
    | .lane g a b c => .lane (f g) a b c
    | .held g a b => .held (f g) a b
    | .store g a => .store (f g) a
    | .slog c e => .slog c { e with group := f e.group }
    | o => o } }

/-- A group's work outside its core runs on without it (R118, R382). -/
def disown (s : State) (k : Nat) : State := reown s fun x => if x = k then nobody else x

/-- A copy of a team is not complete: it waits for its release, stands in a queue, runs, or is saved (R137). -/
def copiesOfTeam (s : State) (team : Nat) : Bool :=
  let named (q : QueueItem CopyCmd) : Bool := match q with
    | .op c => c.team == team
    | .fence _ => false
  s.eng.copies.any (fun r => r.cmd.team == team) || s.eng.queues.any (fun e => e.2.copy.any named) ||
    s.work.releases.any (fun r => match r.eff with | .copy c => c.team == team | _ => false)

/-- A team whose last group has gone ends, and its scratchpad is freed, once the copies that its groups issued have run (R137,
R352, R382; LOG 51). -/
def endTeam (s : State) (team : Nat) : State :=
  match s.team? team with
  | some t =>
    if t.slots.isEmpty && !copiesOfTeam s team then s.onWork fun w => { w with teams := NMap.erase w.teams team } else s
  | none => s

/-- A group leaves its core: its SCRMASK joins the team's report, its blocks and slot are freed, and the team ends with
its last group (R93, R352, R382). -/
def leaveCore (s : State) (k : Nat) (count : Bool) : State :=
  match s.group? k with
  | none => s
  | some g =>
    let s := traceNote s k ((g.splits.head?.map Split.id).getD 0) 5 (3 * 2 ^ 30)
    let s := disown (s.dropGroup k) k
    let s := s.onVm fun vm => { vm with lastPage := NMap.erase vm.lastPage k }
    let s := s.onPkg fun p => { p with proxies := p.proxies.filter fun x => x.orig != k }
    let rel : Release :=
      { group := nobody, grid := g.info.grid, team := g.info.team, die := dieOf (coreOf k), ctx := g.info.ctx
        eff := .exited (g.signalled || g.info.tray), wait := g.out, horizon := g.sys.horizon }
    let s := g.grids.foldl (fun s gk => s.onWork fun w => { w with releases := w.releases ++ [{ rel with grid := gk }] }) s
    let s := g.grids.foldl (fun s gk => s.onGrid gk fun x => { x with groups := x.groups - 1 }) s
    match s.team? g.info.team with
    | none => s
    | some t =>
      let t := { t with slots := delNat t.slots (slotOf k)
                        reports := if count then t.reports ++ [(g.info.ix, g.sys.scrmask)] else t.reports }
      if t.slots.isEmpty then
        let s := if t.reports.any fun r => r.2 != 0 then
            (g.grids).foldl (fun s gk => setGridFlag s gk 5) (postAsync s t.ctx (scratchRecord s t))
          else s
        endTeam ((dropTiles s g.info.team).setTeam g.info.team t) g.info.team
      else s.setTeam g.info.team t

/-- Grid keys that descend from some grids, the grids themselves included (R352, R439). Grid keys rise with acceptance,
so a parent comes before its children. -/
def descendants (s : State) (gks : List Nat) : List Nat :=
  s.work.grids.foldl (fun acc e =>
    match e.2.parent with
    | some p => if acc.contains p then insNat acc e.1 else acc
    | none => acc) gks

/-- The copies that a group issued in an open region are dropped with it (R92, R439). -/
def dropHeldCopies (s : State) (k : Nat) : State :=
  let mine (c : CopyCmd) : Bool := c.group == k && c.inRegion
  let core := coreOf k
  let q := s.queues core
  let s := s.setQueues core { q with copy := q.copy.filter fun x => match x with
    | .op c => !mine c
    | .fence _ => true }
  s.onEng fun e => { e with copies := e.copies.filter fun r => !mine r.cmd }

/-- Every group of some grids stops at its boundary and is discarded; nothing more of them is admitted, and effects
that regions held are dropped with the groups (R439). -/
def stopGrids (s : State) (gks : List Nat) : State :=
  let gks := descendants s gks
  let s := gks.foldl (fun s gk => s.onGrid gk fun x => { x with stopping := true, next := x.total }) s
  let victims := (s.work.groups.filter fun e => e.2.grids.any gks.contains).map Prod.fst
  let s := victims.foldl dropHeldCopies s
  let s := victims.foldl (fun s k => leaveCore s k false) s
  s.onWork fun w => { w with saved := w.saved.filter fun x => !gks.contains x.team.grid
                             dlq := w.dlq.map fun e => (e.1, e.2.filter fun l => !gks.contains l.grid) }

/-! ## Traps -/

/-- A trap of a cause with a reason, for the word as a whole. -/
def Trap.word (cause info : Nat) : Trap := ⟨cause, false, none, 0, w64 info⟩

/-- ILLEGAL (R434). -/
def causeIllegal : Nat := 0x01
/-- ILLPKT (R434). -/
def causeIllpkt : Nat := 0x02
/-- ILLCONV (R434). -/
def causeIllconv : Nat := 0x03
/-- LOOKAHEAD (R434). -/
def causeLookahead : Nat := 0x04
/-- FETCH.NP (R434). -/
def causeFetchNp : Nat := 0x05
/-- FETCH.NX (R434). -/
def causeFetchNx : Nat := 0x06
/-- LOAD.NP (R434). -/
def causeLoadNp : Nat := 0x07
/-- PROT (R434). -/
def causeProt : Nat := 0x08
/-- ALIGN (R434). -/
def causeAlign : Nat := 0x09
/-- POISON (R434). -/
def causePoison : Nat := 0x0A
/-- FPE (R434). -/
def causeFpe : Nat := 0x0B
/-- ILLWAIT (R434). -/
def causeIllwait : Nat := 0x0C
/-- ILLNEST (R434). -/
def causeIllnest : Nat := 0x0D
/-- ILLREGION (R434). -/
def causeIllregion : Nat := 0x0E
/-- QUEUE (R434). -/
def causeQueue : Nat := 0x0F
/-- REMOTE (R434). -/
def causeRemote : Nat := 0x10
/-- DEPTH (R434). -/
def causeDepth : Nat := 0x11
/-- TRAP (R434). -/
def causeTrap : Nat := 0x12
/-- STRIKE (R434). -/
def causeStrike : Nat := 0x13
/-- REPLAYFAIL (R434). -/
def causeReplayfail : Nat := 0x14

/-- Writes the trap frame (R436). -/
def Group.frame (g : Group) (xpc : Pc) (m : Mask) (t : Trap) : Group :=
  g.onSys fun x => { x with xpc := xpc.code, xmask := m.setWidth 64, xcause := w64 t.cause, xaddr := t.addr
                            xinfo := t.info }

/-- An unhandled trap: its record is posted, and the grid and its descendants stop (R439). -/
def unhandled (s : State) (k : Nat) (g : Group) (xpc : Pc) (t : Trap) : State :=
  let s := g.grids.foldl (fun s gk =>
    setGridFlag (postAsync s g.info.ctx
      (asyncRecord s g.info.ctx (gridId s gk) xpc.code.toNat (coreOf k) t.cause (t.info.toNat % 2 ^ 32) 6)) gk 6) s
  stopGrids s g.grids

/-- TAKES A TRAP (R436): every window ends, the frame is written, and the split enters its handler with empty stacks; `rp`
is the word that RTT resumes at. Without a handler, or in handler mode, the trap is unhandled (R439). A trap is taken once
the group's pending results are delivered: `Cx.trap` and `postTrap` see to that. -/
def takeTrap (s : State) (k split : Nat) (t : Trap) (xpc rp : Pc) (reopen : Bool) : State :=
  let s := { s with last := .trapped }
  match s.group? k with
  | none => s
  | some g =>
    let g := { g with late := [], emu := none }
    match (g.split? split).orElse fun _ => g.splits.head? with
    | none => s
    | some sp =>
      let s := dropJoint s k g sp
      let m := t.mask.getD (sp.m &&& ~~~g.off)
      let g := g.frame xpc m t
      let s := traceNote (s.setGroup k g) k sp.id 4 (t.cause * 2 ^ 26)
      match g.info.handler, g.trap with
      | some h, none =>
        match s.group? k with
        | none => s
        | some g =>
          let g := { g with trap := some ⟨sp.id, sp.m, sp.stack, sp.rets, g.regs.rq, rp, false, if reopen then .now else g.reopen⟩, reopen := .no }
          let m' := if sp.m = 0 then sp.lanes &&& ~~~(g.off ||| g.gone) else sp.m
          let sp' := { sp with pc := ⟨h, 0⟩, m := m', stack := [], rets := [], arrive := none, hold := none
                               waitStart := none, waitTarget := none, reread := 0, got := [], watch := [], logMark := none }
          let s := s.setGroup k (g.setSplit sp')
          traceMask (traceBranch s k sp.id ⟨h, 0⟩) k sp.id sp.m m'
      | _, _ => unhandled s k g xpc t

/-- A trap that does not leave its word unissued: it waits until the group's pending results are delivered, behind those that
deliveries have raised, and then is taken (R169, R436). In handler mode it is unhandled at once (R439). -/
def postTrap (s : State) (k split : Nat) (word : Bool) (t : Trap) (xpc rp : Pc) (reopen : Bool) : State :=
  match s.group? k with
  | none => s
  | some g =>
    if (g.pend.isEmpty && g.traps.isEmpty) || g.trap.isSome then takeTrap s k split t xpc rp reopen
    else
      let w : WaitTrap := ⟨split, word, t, xpc, rp, reopen⟩
      let l := if word then g.traps ++ [w] else g.traps.filter (fun x => !x.word) ++ [w] ++ g.traps.filter (fun x => x.word)
      { s.setGroup k { g with traps := l } with last := .trapped }

/-- A group whose pending results are all delivered takes the first trap that waited for them, and a halt's end of its windows
is over (R209, R436). A trap of a word that has not issued goes when its split has left the word meanwhile. -/
def settleTraps (s : State) (k : Nat) : State :=
  match s.group? k with
  | none => s
  | some g =>
    if g.pend.isEmpty then
      let stands (w : WaitTrap) : Bool := w.trap.issued || (g.split? w.split).map Split.pc == some w.rp
      match g.trap, g.traps.filter stands with
      | none, w :: rest => takeTrap (s.setGroup k { g with traps := rest, drain := false }) k w.split w.trap w.xpc w.rp w.reopen
      | _, _ => if g.drain then s.setGroup k { g with drain := false } else s
    else s

/-- RETURNS FROM A TRAP (R438): M, both stacks and the result queue come back from the trap slot, and the split resumes
at XPC when the handler wrote it, else at RP. RTT issues once nothing is pending (R209). -/
def returnTrap (s : State) (k : Nat) (ts : TrapSlot) : State :=
  match s.group? k with
  | none => s
  | some g =>
    match g.split? ts.split with
    | none => s
    | some sp =>
      let x := g.sys.xpc.toNat
      let pc : Pc := if ts.xpcWritten then ⟨x / 4 % 2 ^ 32, x % 4⟩ else ts.rp
      let m := ts.m &&& ~~~(g.off ||| g.gone)
      let sp' := { sp with pc := pc, m := m, stack := ts.stack, rets := ts.rets, arrive := none, hold := none
                           lastIssue := s.clock.cycle }
      let g := { (g.onRegs fun r => { r with rq := ts.rq }) with
        trap := none, late := [], reopen := if ts.xpcWritten && ts.reopen == Reopen.now then .no else ts.reopen }
      let s := s.setGroup k (g.setSplit sp')
      settleTraps (traceMask (traceBranch s k sp.id pc) k sp.id sp.m m) k

/-! ## The instruction in hand -/

/-- An instruction at issue: the state, the group's slot, the group as it stands, the group as the chain reads it
(R201), the split, and the lanes active under the mask stack (R191). -/
structure Cx where
  s : State
  k : Nat
  g : Group
  rd : Group
  sp : Split
  act : Mask
  i : Instr

/-- Writes the group in hand back to the state. -/
def Cx.st (c : Cx) : State := c.s.setGroup c.k c.g

/-- The unit in hand, if a group stands in the selected slot. -/
def cx? (i : Instr) (s : State) : Option Cx :=
  let k := unitKey s.sel
  match s.group? k with
  | none => none
  | some g =>
    match g.split? s.sel.split with
    | none => none
    | some sp =>
      let rd := s.pre.getD g
      let m := ((rd.split? sp.id).map Split.m).getD sp.m
      some ⟨s, k, g, rd, sp, m &&& ~~~rd.off, i⟩

/-- The lanes active under a guard (R191, R205). -/
def Cx.guard (c : Cx) (g : Guard) : Mask :=
  match g with
  | .always => c.act
  | .p n => c.act &&& c.rd.pred n.val

/-- The class of the group: 0 C, 1 P, 2 W (R357). -/
def Cx.cls (c : Cx) : Nat := c.g.info.cls

/-- A region is open, or the group is its proxy (R455). -/
def Group.inRegion (g : Group) : Bool := g.region.isSome

/-- The unit is held before issue: nothing is pushed or performed (R58, R360). -/
def Cx.held (c : Cx) (h : Hold) : State :=
  let sp := { c.sp with hold := some h
                        waitStart := match h with
                          | .wait _ => c.sp.waitStart.orElse fun _ => some c.s.clock.cycle
                          | .budget => c.sp.waitStart.orElse fun _ => some c.s.clock.cycle
                          | _ => c.sp.waitStart }
  { c.s.setGroup c.k (c.g.setSplit sp) with last := .held }

/-- Takes a trap that leaves the word unissued: RP is the word itself. While results of the group are pending the word is held,
older words of its chain having issued: the trap is taken when they are delivered (R201, R436). -/
def Cx.trap (c : Cx) (t : Trap) : State :=
  if c.g.pend.isEmpty then takeTrap c.st c.k c.sp.id t c.sp.pc c.sp.pc false
  else { c.held .operand with last := .trapped }

/-- Takes a trap of the word as a whole. -/
def Cx.raise (c : Cx) (cause info : Nat) : State := c.trap (Trap.word cause info)

/-- Words that a window counts: not NOP (R208). -/
def Instr.counted : Instr → Bool
  | .nop _ => false
  | _ => true

/-- The word delivers a result of its own (R453). -/
def Instr.delivers (i : Instr) : Bool := !i.uses.d.isEmpty || !i.uses.pw.isEmpty || decide (0 < i.pushes)

/-- A split's windows shrink by `n`, the counted words that have issued; a delivered result is forgotten when no window of it is left
(R208, R209). -/
def Group.shrinkWindows (g : Group) (split n : Nat) : Group :=
  let shrink (p : Pending) : Pending := { p with rooms := p.rooms.map fun r => if r.1 = split then (r.1, r.2 - n) else r }
  { g with pend := g.pend.map shrink, late := (g.late.map shrink).filter fun p => p.rooms.any fun r => decide (0 < r.2) }

/-- A word issues: the PC moves past it, windows of the split shrink, holds end (R199, R208); in a region its result
restarts the strike window (R453). -/
def Cx.advance (c : Cx) (pc : Pc) : Cx :=
  let sp := { c.sp with pc := pc, hold := none, waitStart := none, waitTarget := none, arrive := none
                        reread := 0, got := [], watch := [], logMark := none, lastIssue := c.s.clock.cycle }
  let region := if Instr.delivers c.i then c.g.region.map fun r => { r with lastResult := c.s.clock.cycle } else c.g.region
  { c with sp := sp, g := { c.g.shrinkWindows sp.id (b2n (Instr.counted c.i)) with region := region }.setSplit sp }

/-- The word after the one in hand. -/
def Cx.nextPc (c : Cx) : Pc := c.sp.pc.add c.i.width

/-- The word has issued and the split goes on at the next. -/
def Cx.done (c : Cx) : State := { (c.advance c.nextPc).st with last := .issued }

/-- The word has issued, and a trap is taken after it: RP is the next word (R436). -/
def Cx.doneTrap (c : Cx) (t : Trap) : State :=
  postTrap c.done c.k c.sp.id true { t with issued := true } c.sp.pc c.nextPc false

/-! ## Operands -/

/-- How a literal becomes an operand (R206). -/
inductive LitTy where
  | int
  | f64
  | f32
  | pk32
  | h16
  | b8
  | n4
  deriving DecidableEq, Repr

/-- The operand value of a literal (R206). -/
def litValue (ty : LitTy) (v : BitVec 25) : W64 :=
  let n := v.toNat
  match ty with
  | .int => v.signExtend 64
  | .f64 => w64 (n * 2 ^ 39)
  | .f32 => w64 (n * 2 ^ 7)
  | .pk32 => w64 (n * 2 ^ 7 * (2 ^ 32 + 1))
  | .h16 => w64 (n % 2 ^ 16 * 0x0001000100010001)
  | .b8 => w64 (n % 2 ^ 8 * 0x0101010101010101)
  | .n4 => w64 (n % 2 ^ 4 * 0x1111111111111111)

/-- Every lane alike. -/
def LaneReg.splat (x : W64) : LaneReg := LaneReg.ofFn fun _ => x

/-- The k-queue of the group's team. -/
def Cx.kqueue (c : Cx) (q : Nat) : List KEntry :=
  ((c.s.team? c.g.info.team).map fun t => t.kq.toArray.toList.getD q []).getD []

/-- Entries of a k-queue that a pop may take now, oldest first (R184, R237, R346). -/
def Cx.poppable (c : Cx) (q : Nat) : List KEntry :=
  (c.kqueue q).takeWhile fun e => e.filled && e.seen && decide (e.at? ≤ c.s.clock.cycle)

/-- Reads a source in every lane; `nth` says which entry a pop takes (R184, R201, R205). -/
def Cx.source (c : Cx) (t : Tail) (ty : LitTy) (x : Src) (nth : Nat) : LaneReg :=
  match x with
  | .v n => c.rd.reg n.val
  | .k n => ((c.kqueue n.val)[nth]?.map KEntry.val).getD LaneReg.zero
  | .age n => c.g.aged n.val
  | .s n => LaneReg.splat (c.rd.scalar n.val)
  | .zero => LaneReg.zero
  | .lane => LaneReg.ofFn fun l => w64 l
  | .lit =>
    match t with
    | .lit v _ => LaneReg.splat (litValue ty v)
    | _ => LaneReg.zero

/-- Pops that earlier operands take from the queue of `x`. -/
def popsBefore (earlier : List Src) (x : Src) : Nat := (earlier.filter (· == x)).length

/-- Reads the operands of a word in order (R184). -/
def Cx.operands (c : Cx) (t : Tail) (xs : List (Src × LitTy)) : List LaneReg :=
  xs.zipIdx.map fun e => c.source t e.1.2 e.1.1 (popsBefore ((xs.take e.2).map Prod.fst) e.1.1)

/-- The first operand. -/
def Cx.opA (c : Cx) (t : Tail) (ty : LitTy) (a : Src) : LaneReg := c.source t ty a 0

/-- The second operand. -/
def Cx.opB (c : Cx) (t : Tail) (ty : LitTy) (a b : Src) : LaneReg := c.source t ty b (popsBefore [a] b)

/-- The value of the lowest-numbered active lane (R229, R325, R388). -/
def uniform (m : Mask) (x : LaneReg) : W64 :=
  match m.lowest? with
  | some l => x.lane l
  | none => 0

/-- The k-queues after a word's pops: each loses as many of its oldest entries as the word pops (R184). -/
def popQueues (us : Uses) (kq : Vector (List KEntry) 4) : Vector (List KEntry) 4 :=
  let one (kq : Vector (List KEntry) 4) (q : Nat) :=
    kq.setIfInBounds q ((kq.toArray.toList.getD q []).drop (us.pop.filter (· == q)).length)
  ([0, 1, 2, 3] : List Nat).foldl one kq

/-- Removes the entries that a word pops (R184). -/
def Cx.pops (c : Cx) (us : Uses) : Cx :=
  if us.pop.isEmpty then c
  else { c with s := c.s.onTeam c.g.info.team fun t => { t with kq := popQueues us t.kq } }

/-- Adds an entry to a k-queue: filled now, or reserved until a delivery; in a region it stays unseen until COMMIT
(R184, R237, R346). Answers the entry's id. -/
def Cx.kpush (c : Cx) (q : Nat) (x : LaneReg) (filled : Bool) : Nat × Cx :=
  match c.s.team? c.g.info.team with
  | none => (0, c)
  | some t =>
    let e : KEntry := ⟨t.nextK, x, filled, !c.g.inRegion, c.s.clock.cycle + 4⟩
    let t' := { t with nextK := t.nextK + 1, kq := t.kq.setIfInBounds q (t.kq.toArray.toList.getD q [] ++ [e]) }
    let g := match c.g.region with
      | some r => { c.g with region := some { r with effects := r.effects ++ [.kpush q e.id] } }
      | none => c.g
    (e.id, { c with s := c.s.setTeam c.g.info.team t', g := g })

/-- Writes a result: the named destination in active lanes, the result queue, or a k-queue (R179, R184, R191). -/
def Cx.write (c : Cx) (d : Dst) (act : Mask) (x : LaneReg) : Cx :=
  let z := LaneReg.merge act x LaneReg.zero
  let c := { c with g := c.g.push c.sp.lanes act x }
  match d with
  | .v n => { c with g := c.g.setReg n.val act x }
  | .none => c
  | .k q => (c.kpush q.val z true).2

/-- A long-latency word issues: it pushes an empty entry per register and waits for delivery (R179, R208). -/
def Cx.later (c : Cx) (on : PendOn) (act : Mask) (regs : List Nat) (vals : List LaneReg) (kq : Option (Nat × Nat))
    (flags : BitVec 5) (flagLanes : Mask) (trap : Option DelivTrap) (stamp : Nat) : Cx :=
  let n := vals.length
  let g := (List.range n).foldl (fun g _ => g.push c.sp.lanes 0 LaneReg.zero) c.g
  let p : Pending :=
    { on := on, prod := c.sp.pc, rooms := [(c.sp.id, c.i.window + b2n (Instr.counted c.i))], lanes := c.sp.lanes
      ages := List.replicate 32 0, act := act, regs := regs, nq := n, vals := vals, kq := kq, pred := none, flags := flags, flagLanes := flagLanes
      trap := trap, stamp := stamp }
  { c with g := { g with pend := g.pend ++ [p] } }

/-! ## Checks before issue -/

/-- A result that the word uses: it reads or writes one of its registers, names one of its result-queue entries, or reads its
predicate (R209). -/
def Pending.usedBy (p : Pending) (lanes : Mask) (us : Uses) : Bool :=
  us.v.any p.regs.contains || us.d.any p.regs.contains ||
    us.ages.any (fun a => (List.range 32).any fun l =>
      lanes.has l && p.lanes.has l && decide (p.ages.getD l 0 ≤ a) && decide (a < p.ages.getD l 0 + p.nq)) ||
    (match p.pred with
     | some (n, _) => us.pr.contains n
     | none => false)

/-- Words a split may still issue inside a pending result's window. -/
def Pending.room (p : Pending) (split : Nat) : Option Nat := (p.rooms.find? fun r => r.1 == split).map Prod.snd

/-- The checks of a word beyond those common to all (R212 step 6), and the names that a mask operand adds to those which must be in
scope (R212 step 3, R388). -/
structure Checks where
  illconv : Cx → Bool
  illwait : Cx → Option Nat
  illregion : Cx → Bool
  names : Cx → List Nat

/-- No structural check of its own. -/
def Checks.none : Checks :=
  { illconv := fun _ => false, illwait := fun _ => Option.none, illregion := fun _ => false, names := fun _ => [] }

/-- XINFO of an ILLEGAL of the encoding: path words report reason 0x4 (R290). -/
def illegalInfo (i : Instr) : Nat :=
  match i with
  | .pathb _ _ _ | .segl _ _ _ | .segq _ _ _ | .segc _ _ _ | .pathe _ _ _ | .covrd _ _ _ _ _ => 4
  | _ => 0

/-! ## Waiting and dividing -/

/-- The word at a packet and slot of a group's code, without a fault: none where the page is not mapped (R199). -/
def codeWord (s : State) (g : Group) (p : Pc) : Option Nat :=
  let va := g.info.code + 12 * p.packet + 4 * p.slot
  match leafNow s g.info.ctx va with
  | some (l, pa, _, _) => if l.x && l.tgt == 0 then some (physNat s pa 4) else none
  | none => none

/-- The instruction in slot 0 of a packet. -/
def headInstr (s : State) (g : Group) (packet : Nat) : Option Instr :=
  match codeWord s g ⟨packet, 0⟩ with
  | none => none
  | some w =>
    match decodeInstr w (codeWord s g ⟨packet, 1⟩) with
    | .ok i => some i
    | .error _ => none

/-- The packet that a B-format offset names; none below packet 0 (R204). -/
def targetPacket (p : Nat) (o : Off16) : Option Nat :=
  let t := (p : Int) + o.toInt
  if t < 0 then none else some t.toNat

/-- Depth of the frame's floor: the top return entry's depth (R374). -/
def Split.floor (sp : Split) : Nat := (sp.rets.head?.map RetEntry.depth).getD 0

/-- The innermost IF entry of the frame with pending lanes: its place from the top, the entry, and the merge word that
its ELSE names (R368, R380). -/
def pendingArm (s : State) (g : Group) (sp : Split) : Option (Nat × MaskEntry × Nat) :=
  let frame := sp.stack.take (sp.stack.length - sp.floor)
  (frame.zipIdx.filterMap fun e =>
    if !e.1.loop && !e.1.elsePhase && e.1.e &&& ~~~g.off != 0 then
      match headInstr s g e.1.t with
      | some (.elseW _ o) => (targetPacket e.1.t o).map fun m => (e.2, e.1, m)
      | _ => none
    else none).head?

/-- A split number that is free (R369). -/
def freeSplit (g : Group) : Option Nat := ([0, 1, 2, 3] : List Nat).find? fun n => !(g.splits.any fun x => x.id == n)

/-- Empties the E of the `i`th entry from the bottom of a split's mask stack. -/
def Split.emptied (sp : Split) (i : Nat) : Split :=
  { sp with stack := sp.stack.zipIdx.map fun e => if e.2 + i + 1 = sp.stack.length then { e.1 with e := 0 } else e.1 }

/-- Records a division in a split, inner divisions before outer ones. -/
def Split.record (sp : Split) (d : Division) : Split :=
  { sp with divs := sp.divs.filter (fun x => decide (d.depth < x.depth)) ++ d :: sp.divs.filter (fun x => decide (x.depth ≤ d.depth)) }

/-- Divides the group at a wait: a new split takes the pending lanes and starts the else arm, and the waiting split keeps
the entry with its E emptied (R368, R380). Splits of divisions above the entry hold copies of it: each is emptied, E being
the same in all, and they merge first (R371). The accesses issued before the division precede the new split's words too
(R104). -/
def divide (s : State) (k : Nat) (g : Group) (sp : Split) (at? : Nat) (e : MaskEntry) (merge id : Nat) : State :=
  let below := sp.stack.drop (at? + 1)
  let i := below.length
  let m := e.e &&& ~~~g.off
  let rec1 : Division := ⟨g.nextDiv, i + 1, merge, false, e.e, sp.rets.length⟩
  let inner := (sp.divs.filter fun d => decide (i + 1 < d.depth)).map Division.id
  let kin (x : Split) : Bool := x.id == sp.id || x.divs.any fun d => inner.contains d.id
  let new : Split :=
    { id := id, pc := ⟨e.t + 1, 0⟩, lanes := e.e, m := m, stack := below, rets := sp.rets
      divs := { rec1 with fresh := true } :: sp.divs.filter (fun d => decide (d.depth ≤ i)), arrive := none, hold := none
      waitStart := none, waitTarget := none, reread := 0, got := [], watch := [], logMark := none, queue := sp.queue, ready := 0, lastIssue := s.clock.cycle }
  let keep (x : Split) : Split :=
    let x := { x with lanes := x.lanes &&& ~~~e.e }
    if kin x then (x.emptied i).record rec1 else x
  let wide (p : Pending) : Pending :=
    match p.room sp.id with
    | some r => { p with rooms := p.rooms ++ [(id, r)] }
    | none => p
  let out := g.out ++ (g.out.filter fun o => o.split == sp.id).map fun o => { o with split := id }
  let g := { g with splits := g.splits.map keep ++ [new], nextDiv := g.nextDiv + 1, pend := g.pend.map wide
                    late := g.late.map wide, out := out }
  traceNote (s.setGroup k g) k id 3 m.toNat

/-- A blocking wait whose condition does not hold: a C group with pending lanes divides, every other group is held
whole (R360, R368, R369). -/
def Cx.wait (c : Cx) (w : WaitKind) : State :=
  let s := c.held (.wait w)
  if c.cls = 0 && c.g.info.roleSize ≤ 1 && !c.g.inRegion && c.g.trap.isNone && decide (c.g.splits.length < 4) then
    match s.group? c.k with
    | none => s
    | some g =>
      match g.split? c.sp.id with
      | none => s
      | some sp =>
        match pendingArm s g sp, freeSplit g with
        | some (n, e, merge), some id => { divide s c.k g sp n e merge id with last := .held }
        | _, _ => s
  else s

end Sys2Proof.Machine
end

