-- ==== Sys2Proof/Machine/Access.lean ====
section
/-! DEFINITION. Accesses of groups: atomic operations, the scratchpad, host and peer requests, sector writes and the side
log (spec/03 R58-R62, spec/04 R87-R93, spec/05 R94-R110, spec/14 R311-R315, spec/22 R471-R478). -/

namespace Sys2Proof.Machine

/-! ## Access types -/

/-- Access size in bytes (R301). -/
def MemTy.size : MemTy → Nat
  | .b8 | .i8 | .n8 => 1
  | .b16 | .i16 | .n16 => 2
  | .b32 | .i32 | .n32 | .f32 => 4
  | .b64 | .n64 | .f64 | .i64 => 8
  | .b128 => 16

/-- A loaded value as a register holds it: .i types sign-extended, the others zero-extended (R154, R301). -/
def MemTy.extend (ty : MemTy) (x : Nat) : W64 :=
  match ty with
  | .i8 => BitVec.ofInt 64 (signedOf 8 x)
  | .i16 => BitVec.ofInt 64 (signedOf 16 x)
  | .i32 => BitVec.ofInt 64 (signedOf 32 x)
  | _ => w64 (x % 2 ^ (8 * min (MemTy.size ty) 8))

/-- The type is signed. -/
def MemTy.isSigned : MemTy → Bool
  | .i8 | .i16 | .i32 | .i64 => true
  | _ => false

/-- A floating-point access type's format. -/
def MemTy.fmt? : MemTy → Option Fmt
  | .f32 => some .f32
  | .f64 => some .f64
  | _ => none

/-- The new value of ATOM and RED (R311). -/
def atomNew (op : AOp) (ty : MemTy) (old b : Nat) : Nat :=
  let w := 8 * MemTy.size ty
  let o := old % 2 ^ w
  let y := b % 2 ^ w
  let less (p q : Nat) : Bool :=
    if MemTy.isSigned ty then decide (signedOf w p < signedOf w q) else decide (p < q)
  match op with
  | .add => match MemTy.fmt? ty with
    | some f => (f.add .rn o y).1
    | none => (o + y) % 2 ^ w
  | .min => match MemTy.fmt? ty with
    | some f => (f.minMaxNum false o y).1
    | none => if less y o then y else o
  | .max => match MemTy.fmt? ty with
    | some f => (f.minMaxNum true o y).1
    | none => if less o y then y else o
  | .and => Nat.land o y
  | .or => Nat.lor o y
  | .xor => Nat.xor o y
  | .inc => if y ≤ o then 0 else o + 1
  | .dec => if o = 0 ∨ y < o then y else o - 1

/-- What one atomic does to the old bytes: a new value, or none when nothing is written (R311, R312). -/
def MemOp.apply (op : MemOp) (old : Nat) : Option Nat :=
  match op with
  | .read _ | .write _ => none
  | .atom o ty b => some (atomNew o ty old b.toNat)
  | .acas ty cmp new =>
    let w := 8 * MemTy.size ty
    if old = cmp.toNat % 2 ^ w then some (new.toNat % 2 ^ w) else none
  | .axch ty b => some (b.toNat % 2 ^ (8 * MemTy.size ty))

/-- Bytes an operation touches. -/
def MemOp.size : MemOp → Nat
  | .read n => n
  | .write bs => bs.length
  | .atom _ ty _ => MemTy.size ty
  | .acas ty _ _ => MemTy.size ty
  | .axch ty _ => MemTy.size ty

/-- A number as the bytes of a sector from byte `i`. -/
def Sector.ofNat (x i n : Nat) : Sector := BitVec.ofNat 256 (x % 2 ^ (8 * n) * 2 ^ (8 * i))

/-! ## Scratchpad -/

/-- The scratchpad's granule as a sector (R87). -/
def Scratch.sector (sc : Scratch) (g : Nat) : Sector := Sector.ofBytes fun i => cellGet sc.bytes (32 * g + i)

/-- A word's init bit (R88). -/
def Scratch.isInit (sc : Scratch) (w : Nat) : Bool := sc.init.contains w

/-- A granule's busy bit (R88). -/
def Scratch.isBusy (sc : Scratch) (g : Nat) : Bool := sc.busy.any fun b => b.1 == g && decide (0 < b.2)

/-- What an access of granules finds in them: an error that can be corrected is, and a granule with another one is poisoned (R33,
R87, R451). -/
def Scratch.check (sc : Scratch) (gs : List Nat) : Scratch :=
  let bad (g : Nat) : Bool := NMap.get? sc.marks g == some .uncorrectable
  { sc with poison := (gs.filter bad).foldl insNat sc.poison, marks := sc.marks.filter fun m => !gs.contains m.1 }

/-- Writes bytes of a granule: the init bits of the words touched are set; the poison bit is set by poisoned data, and by an
error that a partial write finds, and cleared by a whole granule without (R87, R88). -/
def Scratch.write (sc : Scratch) (g : Nat) (m : Word32) (x : Sector) (poison : Bool) : Scratch :=
  let sc := if m = fullMask then { sc with marks := NMap.erase sc.marks g } else sc.check [g]
  let put (c : List Host.Cell) (i : Nat) := if m.getLsbD i then cellSet c (32 * g + i) (Sector.byte x i) else c
  let words := (List.range 8).filter fun w => (List.range 4).any fun b => m.getLsbD (4 * w + b)
  { sc with bytes := (List.range 32).foldl put sc.bytes
            init := words.foldl (fun l w => insNat l (8 * g + w)) sc.init
            poison := if poison then insNat sc.poison g
              else if m = fullMask then delNat sc.poison g else sc.poison }

/-- Raises or lowers a granule's count of copies that write it (R88). -/
def Scratch.busyAdd (sc : Scratch) (g : Nat) (up : Bool) : Scratch :=
  let cur := ((sc.busy.find? fun b => b.1 == g).map Prod.snd).getD 0
  let n := if up then cur + 1 else cur - 1
  { sc with busy := (sc.busy.filter fun b => b.1 != g) ++ (if n = 0 then [] else [(g, n)]) }

/-- Changes a team's scratchpad. -/
def onScratch (s : State) (team : Nat) (f : Scratch → Scratch) : State := s.onTeam team fun t => { t with scr := f t.scr }

/-! ## Peer requests -/

/-- Minimal mode (R482). -/
def State.minimal (s : State) : Bool := s.pkg.boot.state == 2

/-- The inbound window that holds an address (R476). -/
def windowOf (s : State) (pa : Nat) : Option Window :=
  s.pkg.peers.windows.find? fun w => w.en && decide (w.first ≤ pa / 2 ^ 16) && decide (pa / 2 ^ 16 ≤ w.last)

/-- Sectors that bytes at a physical address touch. -/
def touched (pa n : Nat) : List Nat := (List.range ((pa + n + 31) / 32 - pa / 32)).map (pa / 32 + ·)

/-- Reads bytes at home slices for the host or a peer: from the slice that holds a sector as home, else from its base die
through a slice of die 0, no die being home (R35, R122, R123, R470; LOG 16). -/
def outerRead (s : State) (pa n : Nat) : List Byte × Bool × State :=
  let (got, bad, s) := (touched pa n).foldl (fun (acc : List (Nat × Sector) × Bool × State) sec =>
    let s := endFillsWith checkGranule acc.2.2 sec
    let (x, p, s) := match homeHolding s.ms sec with
      | some d =>
        let (x, s) := homeFetch s d sec 0 false
        (x.data, x.poison, s)
      | none => baseRead s 0 sec 0 false
    (acc.1 ++ [(sec, x)], acc.2.1 || p, s)) ([], false, s)
  ((List.range n).map fun i =>
    Sector.byte (((got.find? fun g => g.1 == (pa + i) / 32).map Prod.snd).getD 0) ((pa + i) % 32), bad, s)

/-- Writes bytes at home slices for the host or a peer, poisoned where the peer's data are, and gives the greatest GWCT (R30,
R36, R37, R99, R142, R470). -/
def outerWrite (s : State) (pa : Nat) (bs : List Byte) (poison : Bool) : Nat × State :=
  (touched pa bs.length).foldl (fun (acc : Nat × State) sec =>
    let ofs (i : Nat) : Option Byte := if sec * 32 + i < pa then none else bs[sec * 32 + i - pa]?
    let m : Word32 := Mask.ofFn fun i => (ofs i).isSome
    let x := Sector.ofBytes fun i => (ofs i).getD 0
    let s := endFillsWith checkGranule acc.2 sec
    let (g, s) := match homeHolding s.ms sec with
      | some d => homeWrite s d sec 0 m x poison
      | none =>
        let s := (baseWrite s 0 sec 0 m x false).2
        performStamp (if poison then s.onMs fun ms => setPoison ms sec true else s) (sec / 4)
    (max acc.1 g, s)) (0, s)

/-- Performs an operation on device memory for the host or a peer, at the home slice: the bytes as read, their poison, and the
greatest GWCT of its writes (R94, R99, R122, R123). A write answers without having read. -/
def performPhys (s : State) (pa : Nat) (op : MemOp) (poison : Bool) : List Byte × Bool × Nat × State :=
  match op with
  | .write bs =>
    let (g, s) := outerWrite s pa bs poison
    ([], false, g, s)
  | .read n =>
    let (old, bad, s) := outerRead s pa n
    (old, bad, (lineTimes s.ms (lineOf pa)).wct, s)
  | o =>
    let n := MemOp.size o
    let (old, bad, s) := outerRead s pa n
    match (if bad then none else MemOp.apply o (leNat old)) with
    | none => (old, bad, (lineTimes s.ms (lineOf pa)).wct, s)
    | some x =>
      let (g, s) := outerWrite s pa (leBytes n x) false
      (old, bad, g, s)

/-- An inbound request: refused with a fault code and a record of type 0x10, or performed (R476-R478). Beside the reply stands
the DTIME that must have passed before a store or atomic is acknowledged, its GWCT (R123). -/
def serveInbound (s : State) (rq : PeerReq) : Reply × Nat × State :=
  let writes := match rq.op with
    | .read _ => false
    | _ => true
  let refuse (code : Nat) : Reply × Nat × State :=
    (.fail code, 0, postFaq s 0x10 16 rq.peer code 0 rq.addr 0)
  if !s.pkg.peers.en || s.minimal then refuse 3
  else
    match windowOf s rq.addr with
    | none => refuse 1
    | some w =>
      if writes && !w.w then refuse 2
      else
        let (bs, bad, g, s) := performPhys s rq.addr rq.op rq.poison
        (.ok bs bad, if writes then g else 0, s)

/-- The ports that a request to a peer may take (R475). -/
def portsTo (s : State) (peer : Nat) : List Nat :=
  let mask := physNat s (s.pkg.peers.prt + 2 * peer) 2
  (List.range 12).filter fun p => mask.testBit p && (s.pkg.peers.ports.getD p ⟨0, false, false⟩).up

/-- A host atomic that PCIe carries (R471). -/
def hostCarries : MemOp → Bool
  | .atom .add ty _ => ty == .i32 || ty == .n32 || ty == .i64 || ty == .n64
  | .atom _ _ _ => false
  | _ => true

/-- For whom a request goes out: context, grids and core. -/
structure Sender where
  ctx : Nat
  grids : List Nat
  core : Nat
  deriving DecidableEq, Repr

/-- The grid that stands for a group's grids. -/
def firstGrid (gs : List Nat) : Nat := gs.head?.getD 0

/-- A request to a sector of a peer was sent again on another port and is not acknowledged: later ones are held (R479). -/
def sectorReissued (s : State) (peer addr : Nat) : Bool :=
  s.pkg.outreqs.any fun r => r.reissued && r.peer == some peer && r.addr / 32 == addr / 32 && (NMap.get? s.pkg.inbox r.n).isNone

/-- Sends a request to the host or a peer, its data poisoned where `poison` says so: a fault code at once, or an outstanding
request. A request to this package's own number is served through its own windows (R123, R142, R471, R475, R477). -/
def sendRemote (s : State) (ow : ReqOwner) (f : Sender) (l : Leaf) (pa va : Nat) (op : MemOp) (poison : Bool) :
    Option Nat × Nat × State :=
  let n := s.pkg.nextReq
  let add (peer port : Option Nat) (held : Bool) (addr ackAt : Nat) (s : State) : State :=
    s.onPkg fun p => { p with nextReq := n + 1
                              outreqs := p.outreqs ++
                                [⟨n, ow, f.ctx, firstGrid f.grids, f.grids, f.core, peer, port, false, held, addr, va, op, poison, s.clock.dtime, ackAt⟩] }
  if l.tgt = 1 then
    if hostCarries op then (none, n, add none none false (s.vm.regs.hostwin + pa) 0 s) else (some 6, n, s)
  else if l.peer = s.pkg.peers.id then
    let (r, g, s) := serveInbound s ⟨l.peer, pa, op, poison⟩
    (none, n, (add (some l.peer) none false pa g s).onPkg fun p => { p with inbox := NMap.set p.inbox n r })
  else if !s.pkg.peers.en then (some 5, n, s)
  else
    match portsTo s l.peer with
    | [] => (some 5, n, s)
    | ps =>
      let held := sectorReissued s l.peer pa
      (none, n, add (some l.peer) (if held then none else ps[Config.portHash (pa / 32) % ps.length]?) held pa 0 s)

/-- The reply to a request, once it counts (R123). -/
def replyTo (s : State) (r : OutReq) : Option Reply :=
  if r.ackAt = 0 || decide (r.ackAt < s.clock.dtime) then NMap.get? s.pkg.inbox r.n else none

/-- A request and its reply are done with. -/
def endRequest (s : State) (n : Nat) : State :=
  s.onPkg fun p => { p with outreqs := p.outreqs.filter fun x => x.n != n, inbox := NMap.erase p.inbox n }

/-! ## The side log -/

/-- A core's side log. -/
def slogOf (s : State) (core : Nat) : List SlogEntry := (NMap.get? s.vm.slog core).getD []

/-- Writes a core's side log. -/
def setSlog (s : State) (core : Nat) (l : List SlogEntry) : State :=
  s.onVm fun vm => { vm with slog := NMap.set vm.slog core l }

/-- The log or its waiting entries hold something for the page of an address, of those that were entered before a number
(R59 rules 2 and 3, R61). -/
def slogHolds (s : State) (core ctx va : Nat) (before : Option Nat) : Bool :=
  (slogOf s core ++ ownerlessOf s core).any fun e =>
    e.ctx == ctx && e.va / 2 ^ 16 == va / 2 ^ 16 && (match before with
      | some n => decide (e.n < n)
      | none => true)

/-- Enters a request in the side log, under the next number; with the log full it joins the entries that wait (R59, R61). -/
def slogEnter (s : State) (core : Nat) (e : SlogEntry) : State :=
  let e := { e with n := s.vm.slogNext }
  let s := s.onVm fun vm => { vm with slogNext := vm.slogNext + 1 }
  if (slogOf s core).length < 256 ∧ (ownerlessOf s core).isEmpty then setSlog s core (slogOf s core ++ [e])
  else s.onVm fun vm => { vm with ownerless := NMap.set vm.ownerless core (ownerlessOf s core ++ [e]) }

/-! ## Sector writes of a group -/

/-- The runs of a byte mask: start and length. -/
def maskRuns (m : Word32) : List (Nat × Nat) :=
  (List.range 32).foldl (fun acc i =>
    if m.getLsbD i then
      match acc.getLast? with
      | some (a, n) => if a + n = i then acc.dropLast ++ [(a, n + 1)] else acc ++ [(i, 1)]
      | none => [(i, 1)]
    else acc) []

/-- Who writes a sector: group with its admission, split, context, grids and core. -/
structure Writer where
  k : Nat
  born : Nat
  split : Nat
  ctx : Nat
  grids : List Nat
  core : Nat
  deriving DecidableEq, Repr

/-- A split of a group as a writer. -/
def Group.writer (g : Group) (k split : Nat) : Writer := ⟨k, g.info.born, split, g.info.ctx, g.grids, coreOf k⟩

/-- The writer of a word. -/
def Cx.writer (c : Cx) : Writer := c.g.writer c.k c.sp.id

/-- A writer's requests. -/
def Writer.sender (w : Writer) : Sender := ⟨w.ctx, w.grids, w.core⟩

/-- A writer's side-log entry: its number is set when it enters (R59). -/
def Writer.entry (w : Writer) (va : Nat) (kind : StoreKind) (poison waits : Bool) : SlogEntry :=
  { n := 0, ctx := w.ctx, va := va, kind := kind, poison := poison, group := w.k, born := w.born, split := w.split
    grid := firstGrid w.grids, grids := w.grids, waits := waits, first := none, retryAt := 0, code := 0 }

/-- A split in WAITM reads again at once in the lanes that watch a sector which its core has written (R320). -/
def Split.wake (sp : Split) (secs : List Nat) : Split :=
  let hit (e : Nat × Nat × Nat) : Bool := e.2.2 != 0 && secs.contains (e.2.2 - 1)
  if sp.hold = some (.wait .waitm) ∧ sp.watch.any hit then
    { sp with reread := 0, watch := sp.watch.map fun e => if hit e then (e.1, 0, e.2.2) else e }
  else sp

/-- The splits of a group that watch written sectors read them again (R320). -/
def Group.wake (g : Group) (secs : List Nat) : Group := { g with splits := g.splits.map fun sp => sp.wake secs }

/-- The waits of a core that watch written sectors read them again (R320). -/
def wakeWaits (s : State) (core : Nat) (secs : List Nat) : State :=
  s.onWork fun w => { w with groups := w.groups.map fun e => if coreOf e.1 = core then (e.1, e.2.wake secs) else e }

/-- Performs one atomic on device memory through a core: the old bytes, poison, the GWCT or stamp it returns, and the
state (R312, R99, R314). The core's L1 copy and its die's read copy of the sector go (R81, R97). -/
def atomDevice (s : State) (core : Nat) (l : Leaf) (pa ctx : Nat) (op : MemOp) : Nat × Bool × Nat × State :=
  let n := MemOp.size op
  let sec := pa / 32
  let s := dropCopies (noteMiss s core (homeDelay core l.home)) core l.home sec
  let (x, s) := homeFetch s l.home sec ctx l.noalloc
  let old := Sector.field x.data (pa % 32) n
  let wct := (lineTimes s.ms (sec / 4)).wct
  if x.poison then (old, true, wct, s)
  else
    match MemOp.apply op old with
    | none => (old, false, wct, s)
    | some v =>
      let (g, s) := homeWrite s l.home sec ctx (byteMask (pa % 32) n) (Sector.ofNat v (pa % 32) n) false
      (old, false, g, wakeWaits s core [sec])

/-- The requests that a store or reduction of a sector sends outside the device: runs of bytes, or lanes' operations, at their
offsets (R471, R475). -/
def kindOps (kind : StoreKind) : List (Nat × MemOp) :=
  match kind with
  | .store x m => (maskRuns m).map fun r => (r.1, MemOp.write ((List.range r.2).map fun i => Sector.byte x (r.1 + i)))
  | .red op ty ops => ops.map fun o => (o.1, .atom op ty o.2)

/-- One such request, as a side-log entry keeps it (R59, R478). -/
def opKind (o : Nat × MemOp) : StoreKind :=
  match o.2 with
  | .write bs => .store (Sector.ofNat (leNat bs) o.1 bs.length) (byteMask o.1 bs.length)
  | .atom op ty b => .red op ty [(o.1, b)]
  | _ => .store 0 0

/-- Lanes of a reduction have met poison: they did nothing, and are counted where the grid accepts poison, else reported (R299,
R314). -/
def redPoison (s : State) (w : Writer) (va bad : Nat) : State :=
  let grid := firstGrid w.grids
  let accept : Bool := match s.group? w.k with
    | some g => g.info.accept && g.info.born == w.born
    | none => ((s.grid? grid).map fun g => g.hdr.accept && decide (g.prio ≤ 1)).getD false
  if bad = 0 then s
  else if accept then w.grids.foldl (fun s gk => s.onGrid gk fun x => { x with psub := min (x.psub + bad) 0xFFFFFFFF }) s
  else postKind s w.ctx grid (va / 32 * 32) w.core causePoison 0 5

/-- Sends one sector write or reduction through a mapped leaf: to device memory at once, to the host or a peer as
requests. A remote refusal enters the side log (R81, R108, R312, R478). Answers what is outstanding for the group. -/
def sendSector (s : State) (w : Writer) (l : Leaf) (pa va : Nat) (kind : StoreKind) (poison : Bool) :
    List Outstanding × State :=
  let at? := some (s.clock.cycle + homeDelay w.core l.home)
  if l.tgt = 0 then
    match kind with
    | .store x m =>
      let (g, s) := coreWrite s w.core l.home (pa / 32) w.ctx m x poison
      ([⟨w.split, .st, at?, none, g⟩], wakeWaits s w.core [pa / 32])
    | .red op ty ops =>
      let (g, bad, s) := ops.foldl (fun (acc : Nat × Nat × State) o =>
        let (_, bad, g, s) := atomDevice acc.2.2 w.core l (pa / 32 * 32 + o.1) w.ctx (.atom op ty o.2)
        (max acc.1 g, acc.2.1 + b2n bad, s)) (0, 0, s)
      ([⟨w.split, .st, at?, none, g⟩], redPoison s w va bad)
  else
    let ops := kindOps kind
    ops.foldl (fun (acc : List Outstanding × State) o =>
      let (code, n, s) := sendRemote acc.2 (.store w.k w.split) w.sender l (pa / 32 * 32 + o.1) (va / 32 * 32 + o.1) o.2 poison
      match code with
      | none => (acc.1 ++ [⟨w.split, .st, none, some n, 0⟩], s)
      | some code =>
        let e := { w.entry va (opKind o) poison false with first := some s.clock.dtime, retryAt := s.clock.dtime + 100000, code := code }
        (acc.1, slogEnter s w.core e))
      ([], s)

/-- The group's store or reduction of one sector that leaves at COMMIT: through the translation, or into the side log where
its page waits or the log holds the page (R58, R59, R61). A page without W drops it with a record, as a replayed entry
(R62). -/
def storeOut (s : State) (w : Writer) (va : Nat) (kind : StoreKind) (poison : Bool) : List Outstanding × State :=
  if slogHolds s w.core w.ctx va none then ([], slogEnter s w.core (w.entry va kind poison false))
  else
    let (x, s) := translate s w.k none w.ctx va .write false
    match x with
    | .ok l pa => sendSector (samplePage s l w.ctx va (dieOf w.core)) w l pa va kind poison
    | .wait => ([], slogEnter s w.core (w.entry va kind poison true))
    | .denied => ([], postKind s w.ctx (firstGrid w.grids) (va / 2 ^ 16 * 2 ^ 16) w.core causeProt 1 4)

/-- Accesses that the group waits for. -/
def Group.await (g : Group) (o : List Outstanding) : Group := { g with out := g.out ++ o }

/-! ## Sector requests of an instruction -/

/-- Where a sector request goes: the target sector of a translated one (R75). -/
def physKey (x : Option (Leaf × Nat)) : Option (Nat × Nat × Nat) := x.map fun e => (e.1.tgt, e.1.peer, e.2 / 32)

/-- The order of sector requests: by target sector, then, for those whose page is not mapped, by virtual sector (R59, R75). -/
def reqKey (va : Nat) (x : Option (Leaf × Nat)) : Nat :=
  match x with
  | some (l, pa) => (l.tgt * 2 ^ 10 + l.peer) * 2 ^ 40 + pa / 32
  | none => 2 ^ 60 + va / 32

/-- A lane's part of a store or reduction: its address, its translation, and what it writes within its sector. -/
structure LanePart where
  va : Nat
  xl : Option (Leaf × Nat)
  kind : StoreKind
  deriving DecidableEq, Repr

/-- A later part of a sector joins an earlier one: the later bytes win, and reductions follow in lane order (R75, R76, R82). -/
def StoreKind.join (a b : StoreKind) : StoreKind :=
  match a, b with
  | .store d m, .store x k => .store (Sector.mergeBytes k x d) (m ||| k)
  | .red op ty l, .red _ _ l' => .red op ty (l ++ l')
  | _, b => b

/-- The sector requests of an instruction's lanes, ascending: the higher lane's byte prevails (R75, R76, R312). -/
def sectorReqs (ls : List LanePart) : NMap LanePart :=
  ls.foldl (fun m l =>
    let k := reqKey l.va l.xl
    NMap.set m k (match NMap.get? m k with
      | some r => { r with kind := r.kind.join l.kind }
      | none => l)) []

/-- Requests are made by line: each line counts once for its page, whatever its sectors (R70, R75). -/
def sampleLines (s : State) (ctx die : Nat) (rs : List (Leaf × Nat × Nat)) : State :=
  (rs.foldl (fun (acc : Option (Nat × Nat × Nat) × State) r =>
    let line := (r.1.tgt, r.1.peer, r.2.1 / 128)
    if acc.1 = some line then acc else (some line, samplePage acc.2 r.1 ctx r.2.2 die)) (none, s)).2

/-- Sends the sector requests of a store or reduction outside a region, ascending: those of mapped pages go out, the others
enter the side log (R58, R59, R75, R81). -/
def sendParts (s : State) (w : Writer) (rs : List LanePart) : List Outstanding × State :=
  let s := sampleLines s w.ctx (dieOf w.core) (rs.filterMap fun r => r.xl.map fun x => (x.1, x.2, r.va))
  rs.foldl (fun (acc : List Outstanding × State) r =>
    match r.xl with
    | some (l, pa) =>
      let (o, s) := sendSector acc.2 w l pa (r.va / 32 * 32) r.kind false
      (acc.1 ++ o, s)
    | none => (acc.1, slogEnter acc.2 w.core (w.entry (r.va / 32 * 32) r.kind false (!slogHolds acc.2 w.core w.ctx r.va none))))
    ([], s)

/-- The bytes of a register pair or of a register's low part (R303, R309). -/
def storeBytes (ty : MemTy) (lo hi : W64) : List Byte :=
  if ty = .b128 then leBytes 8 lo.toNat ++ leBytes 8 hi.toNat else leBytes (MemTy.size ty) lo.toNat

/-- A store's bytes as the part of their sector. -/
def storePart (va : Nat) (bs : List Byte) : StoreKind :=
  .store (Sector.ofNat (leNat bs) (va % 32) bs.length) (byteMask (va % 32) bs.length)

/-! ## Own bytes of a region -/

/-- A buffer entry is of a sector: the same granule of the scratchpad; in memory the same virtual sector, or the same target
sector where both are translated (R82). -/
def BufEntry.at (e : BufEntry) (scratch : Bool) (va : Nat) (phys : Option (Nat × Nat × Nat)) : Bool :=
  e.scratch == scratch && (e.va / 32 == va / 32 || (phys.isSome && e.phys == phys))

/-- The bytes of a group's own buffer over a sector, later entries winning (R82). -/
def Region.overlay (r : Region) (scratch : Bool) (va : Nat) (phys : Option (Nat × Nat × Nat)) (x : Sector) : Sector × Word32 :=
  r.buf.foldl (fun (acc : Sector × Word32) e =>
    match e.kind with
    | .store d m => if e.at scratch va phys then (Sector.mergeBytes m d acc.1, acc.2 ||| m) else acc
    | .red _ _ _ => acc) (x, 0)

/-- A region's held copy of a sector (R83). -/
def Region.held? (r : Region) (scratch : Bool) (addr : Nat) : Option HeldSector :=
  r.holds.find? fun h => h.scratch == scratch && h.addr == addr

/-- The open region, if there is one. -/
def Cx.region (c : Cx) : Option Region := c.g.region

/-- Changes the open region. -/
def Group.onRegion (g : Group) (f : Region → Region) : Group := { g with region := g.region.map f }

/-- The first effect of a region makes it BUFFERING (R455). -/
def Region.touch (r : Region) : Region := if r.phase = .opened then { r with phase := .buffering } else r

/-- The place of the entry that a region's store of a sector merges into: the last entry of that sector, unless it is a
RED, which the store must follow (R76, R82). -/
def Region.mergeAt (r : Region) (scratch : Bool) (va : Nat) (phys : Option (Nat × Nat × Nat)) : Option Nat :=
  match (r.buf.zipIdx.filter fun e => e.1.at scratch va phys).getLast? with
  | some (⟨_, _, _, .store _ _⟩, n) => some n
  | _ => none

/-- A region stores a sector: merged into the entry of that sector, or a new entry (R82). -/
def Region.store (r : Region) (scratch : Bool) (va : Nat) (phys : Option (Nat × Nat × Nat)) (kind : StoreKind) (now : Nat) : Region :=
  let r := { r.touch with lastResult := now }
  match r.mergeAt scratch va phys with
  | some n => { r with buf := r.buf.zipIdx.map fun e => if e.2 = n then { e.1 with kind := e.1.kind.join kind } else e.1 }
  | none => { r with buf := r.buf ++ [⟨scratch, va, phys, kind⟩] }

/-- A sector that a load takes: data, poison, stamp, the cycles until it is back, its lease end, and whether the L1 had it. -/
structure Loaded where
  data : Sector
  poison : Bool
  stamp : Nat
  delay : Nat
  lease : Nat
  hit : Bool
  deriving DecidableEq, Repr

/-- Cycles of a hit in the L1 that holds a line for a core: 12 more where that is another core's (R80, R86). -/
def hitDelay (s : State) (core sec : Nat) : Nat := if l1Owner s core (sec / 4) = core then 28 else 40

/-- A group's load of one sector of device memory: its held copy, else the caches; a new hold inside a region (R83, R100,
R102, R305). -/
def Cx.loadSector (c : Cx) (l : Leaf) (pa : Nat) : Loaded × Cx :=
  let core := coreOf c.k
  let sec := pa / 32
  match c.g.region.bind fun r => r.held? false sec with
  | some h => (⟨h.data, h.poison, h.stamp, 28, h.lease, true⟩, c)
  | none =>
    let hit := match l1Copy c.s core sec with
      | some x => decide (c.s.clock.dtime < x.lease)
      | none => false
    let (g, s) := coreRead c.s core l.home sec c.g.info.ctx l.noalloc
    let c := { c with s := s }
    let c := match c.g.region with
      | some _ => { c with g := c.g.onRegion fun r =>
          { r.touch with holds := r.holds ++ [⟨false, sec, g.data, g.poison, g.stamp, g.lease, false⟩] } }
      | none => c
    (⟨g.data, g.poison, g.stamp, if hit then hitDelay s core sec else homeDelay core l.home, g.lease, hit⟩, c)

end Sys2Proof.Machine
end

