-- ==== Sys2Proof/Machine/Region.lean ====
section
/-! DEFINITION. Task regions: budgets, seams, commit, rollback and failure; containment scores and records; barrier
arrivals and copy-queue entry that a commit releases (spec/04 R82-R85, R92, spec/05 R105-R111, spec/08 R192,
spec/18 R403-R405, spec/21 R451-R467). -/

namespace Sys2Proof.Machine

/-! ## Effects that a commit or a wait releases -/

/-- A status of two copies or batches: bits joined, the error code of the earlier with ERR (R139, R330). -/
def mergeStatus (a b : BitVec 16) : BitVec 16 :=
  let low := (a ||| b) &&& 0x0FFF
  low ||| ((if a.getLsbD 0 then a else b) &&& 0xF000)

/-- One arrival at a barrier with a copy's status: PST is the OR of the statuses of its phase (R334, R335). -/
def Barrier.arrive (b : Barrier) (st : BitVec 16) : Barrier :=
  let pst := b.pst ||| st
  if b.cnt + 1 = b.exp then { b with last := pst, phase := (b.phase + 1) % 2 ^ 32, cnt := 0, pst := 0 }
  else { b with cnt := b.cnt + 1, pst := pst }

/-- Barrier `k` of a team. -/
def barrierOf (s : State) (team k : Nat) : Barrier :=
  ((s.team? team).map fun t => t.nb.toArray.toList.getD k ⟨false, 0, 0, 0, 0, 0⟩).getD ⟨false, 0, 0, 0, 0, 0⟩

/-- Counts an arrival at a team's barrier (R335). -/
def arriveAt (s : State) (team k : Nat) (st : BitVec 16) : State :=
  s.onTeam team fun t => { t with nb := t.nb.setIfInBounds k ((barrierOf s team k).arrive st) }

/-- Counts a group's own arrival and notes its target (R337). -/
def countArrival (s : State) (team g k : Nat) : State :=
  let t := (barrierOf s team k).phase
  arriveAt (s.onGroup g fun x =>
    if x.info.team = team then { x with targets := x.targets.setIfInBounds k (some t) } else x) team k 0

/-- Enters a copy in its core's copy queue (R115). -/
def enqueueCopy (s : State) (c : CopyCmd) : State :=
  let q := s.queues c.core
  s.setQueues c.core { q with copy := q.copy ++ [.op c] }

/-- What an effect still waits for when its region has committed: the group's outstanding accesses and its HORIZON (R111). -/
def releaseOf (g : Group) (k : Nat) (eff : Effect) : Release :=
  { group := k, grid := g.info.grid, team := g.info.team, die := dieOf (coreOf k), ctx := g.info.ctx, eff := eff
    wait := g.out, horizon := g.sys.horizon }

/-- Adds a release. -/
def State.addRelease (s : State) (r : Release) : State := s.onWork fun w => { w with releases := w.releases ++ [r] }

/-- A launch is on its way to the dispatcher: its team counts it as a child (R397, R398, R419). -/
def noteLaunch (s : State) (r : Release) (l : DevLaunch) : State :=
  let prev := ((s.team? l.team).map Team.launches).getD []
  let e := match r.eff with
    | .launch l => Effect.launch { l with prev := prev }
    | e => e
  (s.onTeam l.team fun t => { t with children := t.children ++ [⟨l.id, none, none⟩]
                                     launches := l.id :: t.launches.take 254 }).addRelease { r with eff := e }

/-! ## Opening, committing and restoring -/

/-- The state that a region restores (R192, R170, R91, R331, R384): names outside `live` are dropped. -/
def Group.snapshot (g : Group) (sp : Split) (pc : Pc) (live : BitVec 24) : Snapshot :=
  { pc := pc, m := sp.m, gone := g.gone, stack := sp.stack, rets := sp.rets, live := live, v := g.regs.v
    rq := g.regs.rq, p := g.regs.p, sreg := g.regs.sreg, fflags := g.sys.fflags, scrmask := g.sys.scrmask
    off := g.off, batches := g.batches, trap := g.trap }

/-- A new region (R403, R455). -/
def Region.new (start : Pc) (seamed : Bool) (snap : Snapshot) (cluster : Nat) : Region :=
  { phase := .opened, after := .close, start := start, seamed := seamed, snap := snap, fails := 0, cmpFails := 0
    replays := 0, buf := [], holds := [], reserved := 0, tiles := [], atomic := none, effects := [], fences := [], noSpec := false
    atomicOut := false, lastResult := 0, launchIds := [], launchNo := 0, waits := [], waitNo := 0, cause := 0
    cluster := cluster }

/-- The live names of a scope as a mask (R84). -/
def Group.liveNames (g : Group) : BitVec 24 := BitVec.ofNat 24 (2 ^ g.names - 1)

/-- Reopens a region before the word at which a split stands, with every live name (R84). -/
def reopenRegion (s : State) (k split : Nat) : State :=
  s.onGroup k fun g =>
    match g.split? split with
    | none => g
    | some sp =>
      { g with region := some (Region.new sp.pc true (g.snapshot sp sp.pc g.liveNames) (clusterOf (coreOf k)))
               reopen := .no }

/-- Puts a group back to its region's start (R85, R192, R170, R91, R331, R384). -/
def Group.restore (g : Group) (r : Region) : Group :=
  let x := r.snap
  let keep (n : Nat) : LaneReg := if x.live.getLsbD n then x.v.toArray.toList.getD n LaneReg.zero else LaneReg.zero
  let sps := match g.splits with
    | [] => []
    | sp :: _ => [{ sp with pc := x.pc, m := x.m, stack := x.stack, rets := x.rets, divs := [], arrive := none
                            hold := none, waitStart := none, waitTarget := none, reread := 0, got := [], watch := [], logMark := none
                            queue := [], ready := 0 }]
  { g with regs := { g.regs with v := ⟨⟨(List.range 24).map keep⟩, by simp⟩, rq := x.rq, p := x.p, sreg := x.sreg }
           sys := { g.sys with fflags := x.fflags, scrmask := x.scrmask }
           off := x.off, gone := x.gone, splits := sps, batches := x.batches, trap := x.trap, pend := [], late := [], traps := []
           drain := false, ready := [], emu := none }

/-- COMMIT's conditions: no long-latency work, no fence to validate, 384 cycles since the last result; the pages of the
returning atomic are mapped (R404, R106, R109). -/
def commitReady (s : State) (g : Group) (r : Region) : Bool :=
  g.pend.isEmpty && g.traps.isEmpty && r.fences.isEmpty && g.emu.isNone &&
    (r.lastResult == 0 || decide (r.lastResult + Config.strikeWindow ≤ s.clock.cycle)) &&
    (match r.atomic with
     | none => true
     | some a => a.lanes.all fun l => (leafNow s g.info.ctx l.2.1).isSome)

/-- The compare of the region's returning atomic and, when every lane's bytes are as recorded, its writes in lane order; no
copy of what it touches stays with its core (R70, R81, R97, R109 step 1). -/
def performAtomic (s : State) (w : Writer) (a : RecAtomic) : Option (List Outstanding × State) :=
  a.lanes.foldl (fun acc l =>
    match acc with
    | none => none
    | some (o, s) =>
      match leafNow s w.ctx l.2.1 with
      | none => none
      | some (lf, pa, _, _) =>
        let s := dropCopies (samplePage s lf w.ctx l.2.1 (dieOf w.core)) w.core lf.home (pa / 32)
        let (x, s) := homeFetch s lf.home (pa / 32) w.ctx lf.noalloc
        let cur := Sector.field x.data (pa % 32) a.size
        if cur != l.2.2.1.toNat % 2 ^ (8 * a.size) then none
        else
          match l.2.2.2 with
          | none => some (o ++ [⟨w.split, .atom, some s.clock.cycle, none, (lineTimes s.ms (lineOf pa)).wct⟩], s)
          | some v =>
            let (g, s) := homeWrite s lf.home (pa / 32) w.ctx (byteMask (pa % 32) a.size)
              (Sector.ofNat v.toNat (pa % 32) a.size) false
            some (o ++ [⟨w.split, .atom, some (s.clock.cycle + homeDelay w.core lf.home), none, g⟩],
              wakeWaits s w.core [pa / 32]))
    (some ([], s))

/-- The buffered stores and recorded REDs leave in creation order (R82, R109 step 2, R110). -/
def sendBuffer (s : State) (w : Writer) (team : Nat) (buf : List BufEntry) : List Outstanding × State :=
  buf.foldl (fun acc e =>
    if e.scratch then
      match e.kind with
      | .store x m => (acc.1, onScratch acc.2 team fun sc => sc.write (e.va / 32) m x false)
      | .red _ _ _ => acc
    else
      let (o, s) := storeOut acc.2 w e.va e.kind false
      (acc.1 ++ o, s)) ([], s)

/-- Changes every copy command of a group, queued or running. -/
def onCopies (s : State) (k : Nat) (f : CopyCmd → CopyCmd) : State :=
  let g (c : CopyCmd) : CopyCmd := if c.group = k then f c else c
  let item (x : QueueItem CopyCmd) : QueueItem CopyCmd := match x with
    | .op a => .op (g a)
    | .fence n => .fence n
  s.onEng fun e => { e with
    queues := e.queues.map fun x => (x.1, { x.2 with copy := x.2.copy.map item })
    copies := e.copies.map fun r => { r with cmd := g r.cmd } }

/-- A held effect leaves with the region (R109, R138, R184, R337, R405). -/
def sendEffect (s : State) (k : Nat) (eff : Effect) : State :=
  match s.group? k with
  | none => s
  | some g =>
    match eff with
    | .kpush q id => s.onTeam g.info.team fun t =>
        { t with kq := t.kq.setIfInBounds q ((t.kq.toArray.toList.getD q []).map fun e =>
            if e.id = id then { e with seen := true, at? := s.clock.cycle + 4 } else e) }
    | .copyArrive id =>
      let late := s.eng.copies.filter fun r => r.cmd.id == id && r.finished
      let s := s.onEng fun e => { e with copies := e.copies.filter fun r => !(r.cmd.id == id && r.finished) }
      let s := onCopies s k fun c => if c.id = id then { c with arriveHeld := false } else c
      late.foldl (fun s r => arriveAt s r.cmd.team (bitsOf r.cmd.cmd.toNat 17 14) r.status) s
    | .launch l => noteLaunch s (releaseOf g k (.launch l)) l
    | .signal => (s.onGroup k fun g => { g with signalled := true }).addRelease (releaseOf g k .signal)
    | e => s.addRelease (releaseOf g k e)

/-- Commits the open region: none when its atomic's compare fails (R109, R404, R455). -/
def commitRegion (s : State) (k : Nat) : Option State :=
  match s.group? k with
  | none => some s
  | some g =>
    match g.region with
    | none => some s
    | some r =>
      let w : Writer := g.writer k ((g.splits.head?.map Split.id).getD 0)
      let first := match r.atomic with
        | none => some ([], s)
        | some a => performAtomic s w a
      match first with
      | none => none
      | some (o1, s) =>
        let (o2, s) := sendBuffer s w g.info.team r.buf
        let s := s.onGroup k fun g => { (g.await (o1 ++ o2)) with region := none }
        let s := r.effects.foldl (fun s e => sendEffect s k e) s
        let s := onCopies s k fun c => { c with inRegion := false }
        some (if 0 < r.replays then
            s.onPkg fun p => { p with cns := { p.cns with replay := min (p.cns.replay + 1) 0xFFFFFFFF } }
          else s)

/-- Drops the k-queue entries that a region pushed or reserved (R184). -/
def dropPushes (s : State) (g : Group) (r : Region) : State :=
  let ids := (r.effects.filterMap fun e => match e with
      | .kpush q id => some (q, id)
      | _ => none) ++ g.pend.filterMap Pending.kq
  ids.foldl (fun s x => s.onTeam g.info.team fun t =>
    { t with kq := t.kq.setIfInBounds x.1 ((t.kq.toArray.toList.getD x.1 []).filter fun e => e.id != x.2) }) s

/-- The granules of the scratchpad that a command's destination rows take: start and bytes of each row (R88, R131, R133). -/
def copyRows (c : CopyCmd) : List (Nat × Nat) :=
  let d (i : Nat) : W64 := c.desc.getD i 0
  let cvt := bitsOf c.cmd.toNat 31 28
  let es := 2 ^ bitsOf c.cmd.toNat 23 22
  let dsz := if cvt = 1 ∨ cvt = 2 then 1 else if cvt = 3 ∨ cvt = 4 then 2 else es
  let rows := bitsOf (d 2).toNat 47 24 + 1
  let planes := bitsOf (d 2).toNat 63 48 + 1
  let width := bitsOf (d 2).toNat 23 0 + 1
  (List.range planes).flatMap fun p => (List.range rows).map fun r =>
    (((d 1) + w64 p * d 6 + w64 r * d 5).toNat, width * dsz)

/-- Granules that rows cover. -/
def rowsGranules (size : Nat) (rows : List (Nat × Nat)) : List Nat :=
  rows.foldl (fun acc r =>
    (List.range ((r.1 + r.2 + 31) / 32 - r.1 / 32)).foldl (fun acc i =>
      if (r.1 / 32 + i) * 32 < size then insNat acc (r.1 / 32 + i) else acc) acc) []

/-- The command writes the scratchpad (R128). -/
def CopyCmd.toScratch (c : CopyCmd) : Bool := c.cmd.getLsbD 20

/-- Begins or ends a command's share of the busy bits (R88). -/
def markBusy (s : State) (c : CopyCmd) (up : Bool) : State :=
  if c.toScratch then
    onScratch s c.team fun sc => (rowsGranules sc.size (copyRows c)).foldl (fun sc g => sc.busyAdd g up) sc
  else s

/-- Abandons the copies that a group issued in the run being rolled back (R92). -/
def abandonCopies (s : State) (k : Nat) : State :=
  let mine (c : CopyCmd) : Bool := c.group == k && c.inRegion
  let core := coreOf k
  let queued := (queueOps (s.queues core).copy).filter mine
  let running := (s.eng.copies.filter fun r => mine r.cmd && !r.finished).map CopyRun.cmd
  let s := (queued ++ running).foldl (fun s c => markBusy s c false) s
  let q := s.queues core
  let s := s.setQueues core { q with copy := q.copy.filter fun x => match x with
    | .op c => !mine c
    | .fence _ => true }
  s.onEng fun e => { e with copies := e.copies.filter fun r => !mine r.cmd }

/-- Causes of a rollback, as DETAIL codes them (R456, R459, R466). -/
inductive RollCause where
  | residue (kind index : Nat)
  | parity
  | cricket
  | entry
  | refetched
  | compare
  | speculation
  | preempt
  deriving DecidableEq, Repr

/-- The code of a cause (R459, R466). -/
def RollCause.code : RollCause → Nat
  | .residue _ _ => 1 | .parity => 2 | .cricket => 3 | .entry => 4 | .refetched => 7
  | .compare => 8 | .speculation => 9 | .preempt => 10

/-- The cause counts toward the three runs (R455). -/
def RollCause.isError (c : RollCause) : Bool := decide (c.code < 8)

/-- The next run takes another cluster (R456). -/
def RollCause.moves : RollCause → Bool
  | .residue _ _ | .parity | .entry | .refetched => true
  | _ => false

/-- The unit whose score a cause raises, with the weight (R456, R462). -/
def RollCause.unit (c : RollCause) (s : State) (core : Nat) : Option (Nat × Nat × Nat) :=
  match c with
  | .residue kind index => some (kind, index, s.pkg.cns.wmis)
  | .parity => some (2, core, s.pkg.cns.wpar)
  | .entry | .refetched => some (3, core, s.pkg.cns.wunc)
  | _ => none

/-- A region fails: its outputs are poisoned, its other effects dropped, the snapshot restored, and REPLAYFAIL is taken
(R459). `k` is the group, `r` the region as its last run left it, `unit` the unit that the last error concerns, if any (R466). -/
def failRegion (s : State) (k : Nat) (r : Region) (cause : Nat) (unit : Option (Nat × Nat)) : State :=
  match s.group? k with
  | none => s
  | some g =>
    let w : Writer := g.writer k 0
    let poisonAt (s : State) (va : Nat) (kind : StoreKind) : State :=
      match leafNow s w.ctx va with
      | some (l, pa, _, _) =>
        match kind with
        | .store x m => (sendSector s w l pa va (.store x m) true).2
        | .red _ _ _ => (sendSector s w l pa va (.store 0 0) true).2
      | none => slogEnter s w.core (w.entry va kind true false)
    let s := r.buf.foldl (fun s e =>
      if e.scratch then
        match e.kind with
        | .store x m => onScratch s g.info.team fun sc => sc.write (e.va / 32) m x true
        | .red _ _ _ => s
      else poisonAt s e.va e.kind) s
    let atoms := ((r.atomic.map RecAtomic.lanes).getD []).map fun l => l.2.1
    let s := atoms.foldl (fun s va => poisonAt s va (.store 0 0)) s
    let s := abandonCopies (dropPushes s g r) k
    let addrs := ((r.buf.filter fun e => !e.scratch).map BufEntry.va) ++ atoms
    let low := addrs.foldl (fun (m : Option Nat) a => some (min (m.getD a) (a / 32 * 32))) none
    let low := (low.map fun a => a / 32 * 32).getD 0
    let s := s.setGroup k { (g.restore r) with region := none, proxied := false, reopen := .no }
    let info := r.cluster % 256 * 2 ^ 16 + r.fails % 256 * 2 ^ 8 + b2n r.seamed * 16 + cause % 16
    let s := match unit with
      | some (kind, i) => postCrq s 0x02 kind i w.ctx (gridId s g.info.grid) low (scoreOf s kind i).score cause
      | none => postCrq s 0x02 15 0 w.ctx (gridId s g.info.grid) low 0 cause
    takeTrap s k ((g.splits.head?.map Split.id).getD 0) ⟨causeReplayfail, true, none, w64 low, w64 info⟩ r.start r.start
      r.seamed

/-- A region rolls back: its stores, effects and undelivered work are dropped, the snapshot is restored, and it replays in
place, on another cluster, or fails (R85, R92, R453-R458). -/
def rollback (s : State) (k : Nat) (cause : RollCause) (real : Bool) : State :=
  match s.group? k with
  | none => s
  | some g =>
    match g.region with
    | none => s
    | some r =>
      let core := coreOf k
      let s := traceNote s k ((g.splits.head?.map Split.id).getD 0) 5 0
      let g := (s.group? k).getD g
      let s := match cause.unit s core with
        | some (kind, i, wgt) => if real then addScore s kind i wgt else s
        | none => s
      let s := if cause.isError then
          s.onPkg fun p => { p with cns := { p.cns with rollbk := min (p.cns.rollbk + 1) 0xFFFFFFFF } }
        else s
      let r := { r with fails := if cause.isError then r.fails + 1 else r.fails
                        cmpFails := if cause = .compare then r.cmpFails + 1 else r.cmpFails
                        cause := if cause.isError then cause.code else r.cause
                        cluster := clusterOf core }
      let owner := g.proxyOf.getD k
      if cause.isError && decide (3 ≤ r.fails) then
        let s := if owner = k then s
          else (dropPushes s g r).dropGroup k
        let s := s.onPkg fun p => { p with proxies := p.proxies.filter fun x => x.orig != owner }
        failRegion s owner r cause.code ((cause.unit s core).map fun u => (u.1, u.2.1))
      else
        let s := abandonCopies (dropPushes s g r) k
        let s := s.onEng fun e => { e with mats := e.mats.map fun x => (x.1, x.2.filter fun m => m.group != k) }
        let s := if s.pkg.cns.verbose then
            let u := (cause.unit s core).getD (15, 0, 0)
            postCrq s 0x01 u.1 u.2.1 g.info.ctx (gridId s g.info.grid) 0 (scoreOf s u.1 u.2.1).score cause.code
          else s
        let r' := { r with phase := .replaying, after := .close, replays := r.replays + 1, buf := [], atomic := none
                           effects := [], fences := [], reserved := 0, lastResult := 0, launchNo := 0, waitNo := 0
                           noSpec := r.noSpec || cause == .speculation
                           atomicOut := r.atomicOut || decide (8 ≤ r.cmpFails)
                           holds := if cause = .preempt then [] else r.holds
                           tiles := if cause = .preempt then [] else r.tiles }
        let back : Group := { (g.restore r) with region := some r' }
        if cause.moves then
          let entry : Proxy := ⟨owner, none, clusterOf core, .placing s.clock.cycle⟩
          let s := s.onPkg fun p => { p with proxies := (p.proxies.filter fun x => x.orig != owner) ++ [entry] }
          if owner = k then s.setGroup k { back with proxied := true }
          else (s.dropGroup k).onGroup owner fun o => { o with region := some r', proxied := true }
        else s.setGroup k back

/-- The group waits for the conditions of a COMMIT or a seam, and none of its words is attempted meanwhile (R84, R404). -/
def Group.committing (g : Group) : Bool :=
  (match g.region with
   | some r => r.phase == .seam || r.phase == .commitWait
   | none => false) && g.splits.all fun sp => sp.hold == some .commit

/-- Finishes a commit whose conditions hold, and goes on as the region's note says (R84, R189, R382, R404, R458). A replay
for speculation that seams before its FENCE.S still takes it as FENCE (R107). -/
def finishCommit (s : State) (k : Nat) : State :=
  match (s.group? k).bind Group.region with
  | none => s
  | some r =>
    match commitRegion s k with
    | none => { rollback s k .compare true with last := .held }
    | some s =>
      let free (s : State) (f : Split → Split) : State := s.onGroup k fun g =>
        { g with splits := g.splits.map fun sp => f { sp with hold := none, waitStart := none } }
      let split := (((s.group? k).bind fun g => g.splits.head?).map Split.id).getD 0
      let proxy := ((s.group? k).bind Group.proxyOf).isSome
      match r.after with
      | .seam => if proxy then free (s.onGroup k fun g => { g with halted := true, reopen := .now }) id
        else (reopenRegion (free s id) k split).onGroup k fun g => g.onRegion fun n => { n with noSpec := r.noSpec }
      | .bare b => free (s.onGroup k fun g => { g with reopen := if b then .after else .no, halted := g.halted || proxy }) id
      | .close =>
        { free (s.onGroup k fun g => { g.shrinkWindows split 1 with halted := g.halted || proxy }) (fun sp =>
            { sp with pc := sp.pc.add 1, arrive := none, lastIssue := s.clock.cycle }) with last := .issued }
      | .exit => if proxy then s.onGroup k fun g => { g with halted := true } else leaveCore s k true

/-- Begins a commit: at once when its conditions hold, else the unit is held until they do (R84, R404). -/
def startCommit (s : State) (k : Nat) (after : AfterCommit) : State :=
  let ph : RegionPhase := if after = .seam ∨ after = .bare true then .seam else .commitWait
  let s := s.onGroup k fun g =>
    { (g.onRegion fun r => { r with phase := ph, after := after }) with
      splits := g.splits.map fun sp => { sp with hold := some .commit } }
  match s.group? k with
  | none => s
  | some g =>
    match g.region with
    | none => s
    | some r => if commitReady s g r then finishCommit s k else s

/-- A word needs its region committed first: a seam, or the commit it stands for. -/
def Cx.commit (c : Cx) (after : AfterCommit) : State := startCommit { c.st with last := .held } c.k after

/-- Takes buffer entries and holds of the core's budgets, with the seam or wait of R84 when they do not suffice. -/
def Cx.budget (c : Cx) (entries holds : Nat) (body : Cx → State) : State :=
  match c.g.region with
  | none => body c
  | some r =>
    let core := coreOf c.k
    let s := c.st
    if entriesUsed s core + entries ≤ 2048 ∧ holdsUsed s core + holds ≤ 4096 then body c
    else if r.buf.isEmpty && r.holds.isEmpty && r.tiles.isEmpty then c.held .budget
    else c.commit .seam

/-- A word that acts outside any region has issued: where it asked for it, a region reopens before the next word (R189,
R458). -/
def Cx.doneReopen (c : Cx) : State :=
  if c.g.reopen = .after && c.g.region.isNone then { c with g := { c.g with reopen := .now } }.done else c.done

end Sys2Proof.Machine
end

