-- ==== Sys2Proof/Machine/Issue.lean ====
section
/-! DEFINITION. How a word issues: the checks of R212 in their order, injected errors, flags with FPE, and the plain result
shapes that families share (spec/09 R212, spec/18 R393, spec/07 R168-R169, spec/21 R451-R453). -/

namespace Sys2Proof.Machine

/-! ## Checks before issue -/

/-- A class that forbids k-queue operands (R184, R361). -/
def kWait (c : Cx) (us : Uses) : Bool := c.cls != 0 && !(us.pop.isEmpty && us.push.isEmpty)

/-- A k-queue that has no entry to pop or no room, held for STARVE cycles with no other group of the team left, traps;
else the wait holds (R184, R346, R435). -/
def kHold (c : Cx) (us : Uses) : Option State :=
  let need (l : List Nat) (q : Nat) : Nat := (l.filter (· == q)).length
  let bad := (([0, 1, 2, 3] : List Nat).filterMap fun q =>
    if (c.poppable q).length < need us.pop q then some (true, q)
    else if 0 < need us.push q ∧ 8 < (c.kqueue q).length - need us.pop q + need us.push q then some (false, q)
    else none).head?
  match bad with
  | none => none
  | some (pop, q) =>
    let since := c.sp.waitStart.getD c.s.clock.cycle
    let alone := match c.s.team? c.g.info.team with
      | some t => t.slots.length == 1
      | none => true
    if alone && decide (c.s.starve ≤ c.s.clock.cycle - since) then
      some (c.raise causeQueue (q + 4 * b2n (!pop)))
    else some (c.wait (.kqueue pop q))

/-- The word that an arrival asks for (R377). -/
def arrivalOk (a : Option Arrival) (i : Instr) : Bool :=
  match a, i with
  | none, _ => true
  | some .elseOrEndif, .elseW _ _ => true
  | some .elseOrEndif, .endif _ => true
  | some .endif, .endif _ => true
  | some .endloop, .endloop _ _ => true
  | some _, _ => false

/-- The word names a format without a datapath: the control core performs it (R156). -/
def emulated (i : Instr) : Bool :=
  match i with
  | .mmaq _ _ _ _ _ fa fb => fa == .e3m2 || fa == .e2m3 || fb == .e3m2 || fb == .e2m3
  | .mmas _ _ _ _ fb _ _ _ _ _ => fb == .int4
  | .mmat _ _ _ _ _ f => f == .e3m2 || f == .e2m3 || f == .int4
  | _ => false

/-- Cycles that an emulation takes (R156; LOG 3). -/
def emulationCycles : Nat := 67500

/-- What the control core has prepared for a group's word is gone (R156, R444). -/
def dropEmu (s : State) (k : Nat) : State :=
  let mine (o : MatOp) : Bool := o.group == k && emulated o.ins
  let ids := (s.eng.mats.flatMap fun x => x.2.filter mine).map MatOp.id
  if ids.isEmpty then s
  else s.onEng fun e => { e with
    mats := e.mats.map fun x => (x.1, x.2.filter fun o => !mine o)
    copies := e.copies.filter fun r => !(match r.cmd.cache with | some id => ids.contains id | none => false) }

/-- FMTEMU (R156, R212 step 4): the group is held whole until the control core has performed the word; then the word takes its
remaining checks, and its result is delivered with it (LOG 25). Answers what happens instead of the word, until then. -/
def Cx.emulate (c : Cx) : Option State :=
  if !emulated c.i then none
  else
    let start := some ({ c with s := dropEmu c.s c.k, g := { c.g with emu := some ⟨c.s.clock.cycle + emulationCycles, c.sp.id, c.i⟩ } }.held .emulation)
    match c.g.emu with
    | some e => if e.ins = c.i ∧ e.split = c.sp.id then (if e.due = 0 then none else some (c.held .emulation)) else start
    | none => start

/-- A pending result that takes a trap when it is delivered, or, for an engine or an outside target, may take one: nothing
beyond its window issues (R169, R272, R314). -/
def mayTrap (c : Cx) (p : Pending) : Bool :=
  p.trap.isSome || (p.flags &&& c.g.info.fpen) != 0 ||
    match p.on with
    | .cycle _ => false
    | .reply _ => true
    | .engine n => c.g.info.fpen != 0 || c.s.eng.mats.any fun e => e.2.any fun o => o.id == n && o.tile.isSome

/-- The results whose open window a word uses: pending ones, and delivered ones (R209). -/
def Cx.inWindow (c : Cx) : Option Pending :=
  (c.g.late ++ c.g.pend).find? fun p => decide (0 < (p.room c.sp.id).getD 0) && p.usedBy c.sp.lanes c.i.uses

/-- The word waits for a pending result: one that it uses beyond its window, or one whose delivery may trap; an older word of
its own chain does not hold it for that (R169, R201, R209). -/
def Cx.waitsResult (c : Cx) : Bool :=
  c.g.pend.any (fun p => (p.room c.sp.id).isSome && p.usedBy c.sp.lanes c.i.uses) ||
    (c.g.pend.take c.rd.pend.length).any fun p => p.room c.sp.id == some 0 && mayTrap c p

/-- Steps 3 to 6 of R212 for a decoded word, then its body: a name outside the scope, an emulation, a use inside a window, a
pending operand, the structural traps, and the k-queues. -/
def checks (ck : Checks) (c : Cx) (body : Cx → State) : State :=
  let us := c.i.uses
  if (us.v ++ us.d ++ ck.names c).any fun n => decide (c.g.names ≤ n) then c.raise causeIllegal (illegalInfo c.i)
  else
    match c.emulate with
    | some s => s
    | none =>
    match if emulated c.i then none else c.inWindow with
    | some p => c.trap ⟨causeLookahead, false, none, 0, p.prod.code⟩
    | none =>
      if c.waitsResult then c.held .operand
      else if ck.illconv c then c.raise causeIllconv 0
      else
        match ck.illwait c with
        | some w => c.raise causeIllwait (w * 16)
        | none =>
          if kWait c us then c.raise causeIllwait 0x60
          else if ck.illregion c || (c.g.inRegion && !us.pop.isEmpty) then c.raise causeIllregion 0
          else if !arrivalOk c.sp.arrive c.i then c.raise causeIllnest 4
          else
            match kHold c us with
            | some s => s
            | none => body c

/-- A strike report for a cluster zone: regions of its cores roll back, and groups that received a result outside a region
within the window take STRIKE (R453). `real` reports add nothing to scores either. -/
def strikeZone (s : State) (zone : Nat) : State :=
  let ks := (s.work.groups.filter fun e => clusterOf (coreOf e.1) == zone).map Prod.fst
  let s := ks.foldl (fun s k =>
    match s.group? k with
    | none => s
    | some g =>
      if g.proxied then s
      else if g.inRegion then rollback s k .cricket false
      else
        let recent := match g.lastDelivery with
          | some c => decide (s.clock.cycle ≤ c + Config.strikeWindow)
          | none => false
        let engine := ((NMap.get? s.eng.mats zone).getD []).any fun m => m.group == k
        match g.splits with
        | sp :: _ =>
          if recent || engine then
            let s := postCrq s 0x03 15 0 g.info.ctx (gridId s g.info.grid) 0 0 0
            postTrap s k sp.id false ⟨causeStrike, true, none, 0, 0⟩ sp.pc sp.pc false
          else s
        | [] => s) s
  s.onEng fun e => { e with mats := NMap.adjust e.mats zone fun l => l.map fun m => { m with granted := none } }

/-- A register parity error at a word: the region rolls back, or the group takes STRIKE after the word, which has done
nothing (R451, R456). -/
def parityAt (c : Cx) (real : Bool) : State :=
  if c.g.inRegion then { rollback c.st c.k .parity real with last := .trapped }
  else
    let s := if real then addScore c.st 2 (coreOf c.k) c.s.pkg.cns.wpar else c.st
    let s := postCrq s 0x03 2 (coreOf c.k) c.g.info.ctx (gridId s c.g.info.grid) 0 (scoreOf s 2 (coreOf c.k)).score 2
    postTrap s c.k c.sp.id true ⟨causeStrike, true, none, 0, 2⟩ c.sp.pc c.nextPc false

/-- Clears a bit of INJECT (R393). -/
def Cx.clearInject (c : Cx) (m : W64) : Cx := { c with g := c.g.onSys fun x => { x with inject := x.inject &&& ~~~m } }

/-- Reopens a region before the word, once no result is pending (R84, R189, R458). -/
def Cx.reopened (c : Cx) : Option Cx :=
  if c.g.reopen = .now && c.g.region.isNone then
    if c.g.pend.isEmpty then
      let s := reopenRegion c.s c.k c.sp.id
      (s.group? c.k).map fun g => { c with s := s, g := g }
    else none
  else some c

/-- Runs one instruction word of the selected unit: a region reopens where one is due, injected errors come first, then
the checks, then its body (R212, R393). -/
def issue (i : Instr) (ck : Checks) (s : State) (body : Cx → State) : Out :=
  match cx? i s with
  | none => .fault .noUnit
  | some c₀ =>
    .next <|
      match c₀.reopened with
      | none => c₀.held .operand
      | some c =>
      if c.g.sys.inject.getLsbD 2 then
        { strikeZone (c.clearInject 4).st (clusterOf (coreOf c.k)) with last := .held }
      else if c.g.sys.inject.getLsbD 1 && !i.uses.v.isEmpty then parityAt (c.clearInject 2) false
      else checks ck c body

/-- A residue-checked word looks at INJECT: whether it takes the mismatch, and COUNT afterwards (R393). -/
def Cx.residue (c : Cx) : Bool × Cx :=
  if c.g.sys.inject.getLsbD 0 then
    if bitsOf c.g.sys.inject.toNat 15 8 = 0 then (true, c.clearInject 1)
    else (false, { c with g := c.g.onSys fun x => { x with inject := x.inject - 0x100 } })
  else (false, c)

/-- A residue-checked word of a pipe: a mismatch inside a region rolls it back, and outside the repeat in place passes
(R239, R393). -/
def Cx.residueChecked (c : Cx) (kind index : Nat) (body : Cx → State) : State :=
  let (bad, c) := c.residue
  if bad && c.g.inRegion then { rollback c.st c.k (.residue kind index) false with last := .trapped }
  else if bad then body { c with g := { c.g with repeated := some (c.sp.id, c.sp.pc, c.sp.lastIssue) } }
  else body c

/-! ## Flags and FPE -/

/-- The word completes with flags per lane: they enter FFLAGS, and an enabled one takes FPE after the word (R168, R169). -/
def Cx.doneFlags (c : Cx) (fl : Nat → BitVec 5) (act : Mask) : State :=
  let all := act.lanes.foldl (fun (f : BitVec 5) l => f ||| fl l) 0
  let c := { c with g := c.g.raiseFlags all }
  let en := c.g.info.fpen
  if (all &&& en) = 0 then c.done
  else
    let m := Mask.ofFn fun l => act.has l && (fl l &&& en) != 0
    c.doneTrap ⟨causeFpe, true, some m, 0, (all &&& en).setWidth 64⟩

/-! ## Plain results -/

/-- A vector-pipe word that raises no flag: its result in the lanes of its guard (R217, R237). -/
def aluWord (i : Instr) (g : Guard) (d : Dst) (s : State) (f : Cx → Mask → LaneReg) : Out :=
  issue i Checks.none s fun c =>
    let act := c.guard g
    let x := f c act
    ((c.pops i.uses).write d act x).done

/-- A word that reads two operands lane by lane (R217). -/
def aluWord2 (i : Instr) (t : Tail) (g : Guard) (d : Dst) (a b : Src) (ty : LitTy) (s : State) (f : W64 → W64 → W64) :
    Out :=
  aluWord i g d s fun c _ =>
    let x := c.opA t ty a
    let y := c.opB t ty a b
    LaneReg.ofFn fun l => f (x.lane l) (y.lane l)

/-- A word that reads one operand lane by lane (R217). -/
def aluWord1 (i : Instr) (t : Tail) (g : Guard) (d : Dst) (a : Src) (ty : LitTy) (s : State) (f : W64 → W64) : Out :=
  aluWord i g d s fun c _ =>
    let x := c.opA t ty a
    LaneReg.ofFn fun l => f (x.lane l)

/-- A compare: predicates of the guard's lanes, the complement beside when K is set (R230, R243). -/
def Group.setCompare (g : Group) (d : PDst) (act x : Mask) : Group :=
  let g := g.setPred d.p.val act x
  if d.k then g.setPred (d.p.val + 1) act (~~~x) else g

end Sys2Proof.Machine
end

