-- ==== Sys2Proof/Machine/Control.lean ====
section
/-! DEFINITION. Control flow: the mask stack, resume points, merges, calls and exits (spec/16 R368-R371,
spec/17 R372-R386). -/

namespace Sys2Proof.Machine

/-- The tested predicate in every lane (R372). -/
def Cx.tested (c : Cx) (g : Guard) : Mask :=
  match g with
  | .always => Mask.all
  | .p n => c.rd.pred n.val

/-- Lanes of a group that stand in some split's M or mask stack (R382). -/
def Group.lanesLeft (g : Group) : Mask :=
  (g.splits.map fun sp => sp.stack.foldl (fun m e => m ||| e.o ||| e.e ||| e.ct) sp.m).foldl (· ||| ·) 0 &&& ~~~g.off

/-- Where a split with no active lane goes on (R376). -/
inductive Resume where
  | goesTo (packet : Nat) (a : Option Arrival)
  | ends
  | exits
  deriving DecidableEq, Repr

/-- The depth down to which a split's stack is its own in a division (R380): the waiting split keeps the divided entry. -/
def Division.base (d : Division) : Nat := if d.fresh then d.depth - 1 else d.depth

/-- The resume point of a split whose M is empty (R376). -/
def Split.resume (sp : Split) (others : Bool) : Resume :=
  let open? := sp.divs.head?.filter fun d => decide (sp.stack.length ≤ d.base)
  match open?, sp.stack with
  | some d, _ => .goesTo d.merge none
  | none, e :: _ =>
    if e.loop then .goesTo (e.x.getD 0) (some .endloop)
    else if e.elsePhase then .goesTo (e.x.getD 0) (some .endif)
    else .goesTo e.t (some .elseOrEndif)
  | none, [] => if others then .ends else .exits

/-- The split in hand moves to a packet and slot, with its new mask and stacks (R377, R448, R492). -/
def Cx.place (c : Cx) (old : Mask) (pc : Pc) (a : Option Arrival) : State :=
  let c := c.advance pc
  let s := c.s.setGroup c.k (c.g.setSplit { c.sp with arrive := a })
  { traceMask (traceBranch s c.k c.sp.id pc) c.k c.sp.id old c.sp.m with last := .issued }

/-- The group in hand exits, once its results are delivered: an open region commits first (R209, R382). `before` is the word
as it stood. -/
def Cx.leave (c before : Cx) : State :=
  if !before.g.pend.isEmpty then before.held .operand
  else if c.g.inRegion then before.commit .exit
  else { leaveCore (c.advance c.nextPc).st c.k true with last := .issued }

/-- The word leaves its split at `pc`, or at the resume point when it leaves M empty (R376, R382). -/
def Cx.goOn (c before : Cx) (pc : Pc) (a : Option Arrival) : State :=
  let old := before.sp.m
  let g := c.g.setSplit c.sp
  if c.sp.m != 0 then c.place old pc a
  else if g.lanesLeft = 0 then c.leave before
  else
    match c.sp.resume (decide (1 < g.splits.length)) with
    | .goesTo p a => c.place old ⟨p, 0⟩ a
    | .exits => c.leave before
    | .ends =>
      let s := traceBranch (c.advance c.nextPc).st c.k c.sp.id ((c.sp.divs.head?.map fun d => ⟨d.merge, 0⟩).getD c.nextPc)
      { s.onGroup c.k fun g => { g with splits := g.splits.filter fun x => x.id != c.sp.id } with last := .issued }

/-- Slot 0 of the next packet, where a control word goes on that does not transfer (R373). -/
def Cx.nextPacket (c : Cx) : Pc := ⟨c.sp.pc.packet + 1, 0⟩

/-- A control word with a target: one below packet 0 is illegal, taken or not (R372). -/
def targetWord (i : Instr) (o : Off16) (ck : Checks) (s : State) (body : Cx → Nat → State) : Out :=
  match cx? i s with
  | none => .fault .noUnit
  | some c =>
    match targetPacket c.sp.pc.packet o with
    | none => .next (c.raise causeIllegal 0)
    | some t => issue i ck s fun c => body c t

/-- The split in hand with a new mask and mask stack; a lane switched off never returns (R374). -/
def Cx.masked (c : Cx) (m : Mask) (stack : List MaskEntry) : Cx :=
  { c with sp := { c.sp with m := m &&& ~~~(c.g.off ||| c.g.gone), stack := stack } }

/-! ## IF, ELSE, ENDIF -/

/-- The entry that IF pushes (R378). -/
def ifEntry (m p : Mask) (t : Nat) (endifThere : Bool) : MaskEntry :=
  { loop := false, o := m, e := m &&& ~~~p, ct := 0, elsePhase := false, t := t, h := 0
    x := if endifThere then some t else none }

/-- Slot 0 of a packet holds an ENDIF (R374). -/
def endifAt (s : State) (g : Group) (packet : Nat) : Bool :=
  match headInstr s g packet with
  | some (.endif _) => true
  | _ => false

/-- IF (R378). -/
def execIfW (c : Bool) (g : Guard) (o : Off16) (s : State) : Out :=
  targetWord (.ifW c g o) o Checks.none s fun x t =>
    if 32 ≤ x.sp.stack.length then x.raise causeIllnest 1
    else
      let p := x.tested g
      let e := ifEntry x.sp.m p t (endifAt x.s x.g t)
      (x.masked (x.sp.m &&& p) (e :: x.sp.stack)).goOn x x.nextPacket none

/-- ELSE (R378). -/
def execElseW (c : Bool) (o : Off16) (s : State) : Out :=
  targetWord (.elseW c o) o Checks.none s fun x t =>
    match x.sp.stack with
    | [] => x.raise causeIllnest 2
    | e :: rest =>
      if e.loop || e.elsePhase then x.raise causeIllnest 2
      else (x.masked e.e ({ e with e := 0, elsePhase := true, x := some t } :: rest)).goOn x x.nextPacket none

/-- The splits of a division that stand at its merge word, all of them (R371): none while one is still out. -/
def Group.atMerge (g : Group) (d : Division) : Option (List Split) :=
  let mine := g.splits.filter fun sp => sp.divs.any fun x => x.id == d.id
  if mine.all fun sp => sp.pc == ⟨d.merge, 0⟩ && (sp.divs.head?.map Division.id) == some d.id &&
      decide (sp.stack.length = (sp.divs.head?.map Division.base).getD 0) then some mine
  else none

/-- The entries below a divided entry, as the splits combine them (R380). -/
def mergeBelow (a b : List MaskEntry) : List MaskEntry :=
  (a.zip b).map fun e => { e.1 with o := e.1.o &&& e.2.o, ct := e.1.ct ||| e.2.ct }

/-- The cycles from which both splits' last results can be read: the later of each (R218). -/
def joinTimes : List Nat → List Nat → List Nat
  | [], b => b
  | a, [] => a
  | x :: a, y :: b => max x y :: joinTimes a b

/-- The group after a merge: one split in place of both (R371, R380). -/
def Group.mergeSplits (g : Group) (w n : Split) : Group × Split :=
  let top := w.stack.head?.getD (ifEntry 0 0 0 true)
  let taken := (n.divs.head?.map Division.taken).getD n.lanes
  let m := ((top.o &&& ~~~taken) ||| n.m) &&& ~~~(g.off ||| g.gone)
  let sp := { w with lanes := w.lanes ||| n.lanes, m := m, divs := w.divs.tail, hold := none
                     queue := joinTimes w.queue n.queue, stack := { top with o := m } :: mergeBelow w.stack.tail n.stack }
  let join (p : Pending) : Pending :=
    let best := max ((p.room w.id).getD 0) ((p.room n.id).getD 0)
    let rest := p.rooms.filter fun r => r.1 != w.id && r.1 != n.id
    if (p.room w.id).isSome || (p.room n.id).isSome then { p with rooms := (w.id, best) :: rest } else p
  let g := { g with splits := g.splits.filter fun x => x.id != n.id, pend := g.pend.map join, late := g.late.map join
                    out := g.out.map fun (o : Outstanding) => if o.split = n.id then { o with split := w.id } else o }
  (g.setSplit sp, sp)

/-- ENDIF of the split in hand (R378). -/
def Cx.endif (x before : Cx) : State :=
  match x.sp.stack with
  | [] => x.raise causeIllnest 2
  | e :: rest =>
    if e.loop then x.raise causeIllnest 2 else (x.masked e.o rest).goOn before x.nextPacket none

/-- The split in hand stands at or below the divided entry of its open division (R380). -/
def Cx.atDivision (x : Cx) : Option Division :=
  x.sp.divs.head?.filter fun d => decide (x.sp.stack.length ≤ d.base)

/-- ENDIF: a division merges here first, once all its splits have come (R371, R378, R380). -/
def execEndif (c : Bool) (s : State) : Out :=
  issue (.endif c) Checks.none s fun x =>
    match x.atDivision with
    | none => x.endif x
    | some d =>
      if x.sp.pc != ⟨d.merge, 0⟩ then x.raise causeIllnest 2
      else
        match x.g.atMerge d with
        | none => x.held .merge
        | some mine =>
          let waiting := mine.find? fun sp => (sp.divs.head?.map Division.fresh) == some false
          let fresh := mine.find? fun sp => (sp.divs.head?.map Division.fresh) == some true
          match waiting, fresh with
          | some w, some n =>
            let (g, sp) := x.g.mergeSplits w n
            let s := traceNote (x.s.setGroup x.k g) x.k sp.id 3 (2 ^ 32 + sp.m.toNat)
            let g := (s.group? x.k).getD g
            let x := { x with s := s, g := g, rd := g, sp := sp }
            x.endif x
          | some w, none => { x with sp := { w with divs := w.divs.tail } }.endif x
          | none, _ => { x with sp := { x.sp with divs := x.sp.divs.tail } }.goOn x x.nextPacket none

/-! ## LOOP, ENDLOOP, BRK, CONT -/

/-- LOOP (R379). -/
def execLoopW (c : Bool) (g : Guard) (o : Off16) (s : State) : Out :=
  targetWord (.loopW c g o) o Checks.none s fun x t =>
    if 32 ≤ x.sp.stack.length then x.raise causeIllnest 1
    else
      let e : MaskEntry :=
        { loop := true, o := x.sp.m, e := 0, ct := 0, elsePhase := false, t := 0, h := x.sp.pc.packet + 1
          x := some t }
      (x.masked (x.sp.m &&& x.tested g) (e :: x.sp.stack)).goOn x x.nextPacket none

/-- ENDLOOP (R379). -/
def execEndloop (c : Bool) (g : Guard) (s : State) : Out :=
  issue (.endloop c g) Checks.none s fun x =>
    match x.sp.stack with
    | [] => x.raise causeIllnest 2
    | e :: rest =>
      if !e.loop || x.atDivision.isSome then x.raise causeIllnest 2
      else
        let again := (x.sp.m ||| e.ct) &&& x.tested g &&& ~~~(x.g.off ||| x.g.gone)
        if again != 0 then (x.masked again ({ e with ct := 0 } :: rest)).goOn x ⟨e.h, 0⟩ none
        else (x.masked e.o rest).goOn x x.nextPacket none

/-- The place of the innermost LOOP entry of a split's frame, from the top (R374, R379). -/
def Split.innerLoop (sp : Split) : Option Nat :=
  let frame := sp.stack.take (sp.stack.length - sp.floor)
  ((frame.zipIdx.filter fun e => e.1.loop).map Prod.snd).head?

/-- Removes lanes from the entries above the innermost loop, and adds them to its CT for CONT (R375). -/
def cutLanes (stack : List MaskEntry) (at? : Nat) (rem : Mask) (cont : Bool) : List MaskEntry :=
  stack.zipIdx.map fun e =>
    if e.2 < at? then { e.1 with o := e.1.o &&& ~~~rem, e := e.1.e &&& ~~~rem }
    else if e.2 = at? ∧ cont then { e.1 with ct := e.1.ct ||| rem }
    else e.1

/-- BRK and CONT remove lanes (R375, R379). -/
def Cx.breakLanes (x : Cx) (g : Guard) (cont : Bool) : State :=
  match x.sp.innerLoop with
  | none => x.raise causeIllnest 3
  | some n =>
    let rem := x.sp.m &&& x.tested g
    (x.masked (x.sp.m &&& ~~~rem) (cutLanes x.sp.stack n rem cont)).goOn x x.nextPacket none

/-- BRK (R379). -/
def execBrk (c : Bool) (g : Guard) (s : State) : Out :=
  issue (.brk c g) Checks.none s fun x => x.breakLanes g false

/-- CONT (R379). -/
def execCont (c : Bool) (g : Guard) (s : State) : Out :=
  issue (.cont c g) Checks.none s fun x => x.breakLanes g true

/-! ## JMP, CALL, RET -/

/-- The tested predicate differs among the active lanes (R381). -/
def Cx.mixed (x : Cx) (g : Guard) : Bool :=
  let on := x.act &&& x.tested g
  on != 0 && on != x.act

/-- The transfer is taken: the predicate is set in every active lane (R381). -/
def Cx.taken (x : Cx) (g : Guard) : Bool :=
  match g with
  | .always => true
  | .p _ => x.act &&& x.tested g == x.act && x.act != 0

/-- JMP, CALL and RET raise ILLCONV on a mixed predicate (R381). -/
def uniformChecks (g : Guard) : Checks := { Checks.none with illconv := fun x => x.mixed g }

/-- JMP (R381). -/
def execJmp (c : Bool) (g : Guard) (o : Off16) (s : State) : Out :=
  targetWord (.jmp c g o) o (uniformChecks g) s fun x t =>
    if x.taken g then x.place x.sp.m ⟨t, 0⟩ none else x.place x.sp.m x.nextPacket none

/-- CALL (R381). -/
def execCall (c : Bool) (g : Guard) (o : Off16) (s : State) : Out :=
  targetWord (.call c g o) o (uniformChecks g) s fun x t =>
    if x.taken g then
      if 16 ≤ x.sp.rets.length then x.raise causeIllnest 5
      else
        let e : RetEntry := ⟨x.sp.pc.packet + 1, x.sp.stack.length⟩
        { x with sp := { x.sp with rets := e :: x.sp.rets } }.place x.sp.m ⟨t, 0⟩ none
    else x.place x.sp.m x.nextPacket none

/-- RET (R381). -/
def execRet (c : Bool) (g : Guard) (s : State) : Out :=
  issue (.ret c g) (uniformChecks g) s fun x =>
    if x.taken g then
      match x.sp.rets with
      | [] => x.raise causeIllnest 6
      | e :: rest =>
        if x.sp.stack.length != e.depth then x.raise causeIllnest 6
        else if x.sp.divs.any fun d => decide (x.sp.rets.length ≤ d.rets) then x.raise causeIllnest 7
        else { x with sp := { x.sp with rets := rest } }.place x.sp.m ⟨e.packet, 0⟩ none
    else x.place x.sp.m x.nextPacket none

/-! ## EXIT and NOP -/

/-- An entry without some lanes (R375). -/
def MaskEntry.without (e : MaskEntry) (rem : Mask) : MaskEntry :=
  { e with o := e.o &&& ~~~rem, e := e.e &&& ~~~rem, ct := e.ct &&& ~~~rem }

/-- Lanes leave M and every entry of the split for good, and the split goes on at `pc` or at its resume point; in handler
mode they leave what the trap slot saved too (R375, R382). -/
def Cx.exitLanes (x : Cx) (rem : Mask) (pc : Pc) : State :=
  let g' := { x.g with gone := x.g.gone ||| rem, trap := x.g.trap.map fun t =>
    { t with m := t.m &&& ~~~rem, stack := t.stack.map fun e => e.without rem } }
  let y := { x with g := g' }
  (y.masked (x.sp.m &&& ~~~rem) (x.sp.stack.map fun e => e.without rem)).goOn x pc none

/-- EXIT (R375, R382). -/
def execExit (c : Bool) (g : Guard) (s : State) : Out :=
  issue (.exit c g) Checks.none s fun x => x.exitLanes (x.sp.m &&& x.tested g) x.nextPacket

/-- NOP (R383). -/
def execNop (c : Bool) (s : State) : Out := issue (.nop c) Checks.none s fun x => x.done

end Sys2Proof.Machine
end

