-- ==== Sys2Proof/Machine/Memory.lean ====
section
/-! DEFINITION. Memory, atomic and fence instructions (spec/14 R300-R323, spec/05 R94-R110, spec/04 R87-R92). -/

namespace Sys2Proof.Machine

/-! ## Addresses and translation -/

/-- The base operand (R302). -/
def Cx.base (c : Cx) (a : Base) : LaneReg :=
  match a with
  | .v n => c.rd.reg n.val
  | .s n => LaneReg.splat (c.rd.scalar n.val)
  | .zero => LaneReg.zero

/-- The effective address of a lane (R302). -/
def effAddr (base : W64) (o : Off) (size : Nat) : Nat := (base + o.signExtend 64 * w64 size).toNat

/-- The active lanes' effective addresses, ascending (R302). -/
def Cx.addrs (c : Cx) (a : Base) (o : Off) (size : Nat) (act : Mask) : List (Nat × Nat) :=
  act.lanes.map fun l => (l, effAddr ((c.base a).lane l) o size)

/-- The mask of some lanes. -/
def lanesMask (ls : List Nat) : Mask := Mask.ofFn ls.contains

/-- A trap of some lanes: XADDR is the lowest one's address (R313). -/
def Cx.laneTrap (c : Cx) (cause : Nat) (ls : List (Nat × Nat)) : State :=
  c.trap ⟨cause, false, some (lanesMask (ls.map Prod.fst)), w64 ((ls.head?.map Prod.snd).getD 0), 0⟩

/-- ALIGN, then PROT of bits above 47 (R313). -/
def Cx.checkAddrs (c : Cx) (size : Nat) (global : Bool) (ls : List (Nat × Nat)) (body : State) : State :=
  let off := ls.filter fun e => e.2 % size != 0
  let wild := if global then ls.filter fun e => wildAddr e.2 else []
  if !off.isEmpty then c.laneTrap causeAlign off
  else if !wild.isEmpty then c.laneTrap causeProt wild
  else body

/-- A lane's translated access. -/
structure LaneXl where
  lane : Nat
  va : Nat
  leaf : Leaf
  pa : Nat
  deriving DecidableEq, Repr

/-- What translation gives the lanes: mapped, denied, or waiting for their page (R55, R58). -/
structure Xlated where
  ok : List LaneXl
  denied : List (Nat × Nat)
  waiting : List (Nat × Nat)
  deriving DecidableEq, Repr

/-- Translates the lanes of one instruction in ascending order (R75). -/
def translateLanes (s : State) (k ctx : Nat) (acc : AccessKind) (atomic : Bool) (ls : List (Nat × Nat)) : Xlated × State :=
  ls.foldl (fun (r : Xlated × State) e =>
    let (x, s) := translate r.2 k (some e.1) ctx e.2 acc atomic
    match x with
    | .ok l pa => ({ r.1 with ok := r.1.ok ++ [⟨e.1, e.2, l, pa⟩] }, s)
    | .denied => ({ r.1 with denied := r.1.denied ++ [e] }, s)
    | .wait => ({ r.1 with waiting := r.1.waiting ++ [e] }, s)) (⟨[], [], []⟩, s)

/-- Translation for a load or a returning atomic: a denied lane traps, and a waiting one holds the group. It waits too for the
entries that the side log held for its pages when it first issued, and for the core's miss queue (R32, R55, R58, R59). -/
def Cx.reading (c : Cx) (acc : AccessKind) (atomic : Bool) (ls : List (Nat × Nat)) (body : Cx → List LaneXl → State) :
    State :=
  let (x, s) := translateLanes c.s c.k c.g.info.ctx acc atomic ls
  let mark := c.sp.logMark.getD s.vm.slogNext
  let c := { c with s := s, sp := { c.sp with logMark := some mark } }
  if !x.denied.isEmpty then c.laneTrap causeProt x.denied
  else if !x.waiting.isEmpty then c.held (.fault c.g.info.ctx x.waiting acc)
  else if ls.any fun e => slogHolds s (coreOf c.k) c.g.info.ctx e.2 (some mark) then c.held .order
  else if !missRoom s (coreOf c.k) then c.held .full
  else body c x.ok

/-- Sector numbers of some lanes, each once, ascending (R75). -/
def sectorsOf (ls : List LaneXl) : List Nat := ls.foldl (fun acc l => insNat acc (l.pa / 32)) []

/-- A fresh number for a pending result. -/
def Cx.fresh (c : Cx) : Nat × Cx :=
  (c.s.eng.nextId, { c with s := c.s.onEng fun e => { e with nextId := e.nextId + 1 } })

/-! ## Loads -/

/-- What a lane of a load or atomic received: its bytes as a number, poison, or a fault code (R314). -/
structure LaneGot where
  lane : Nat
  va : Nat
  val : Nat
  poison : Bool
  code : Option Nat
  deriving DecidableEq, Repr

/-- The trap of a word whose lanes met poison or a fault code: the lowest such lane decides which, and the lanes of that
kind stand in the mask (R314). -/
def gotTrap (accept : Bool) (gs : List LaneGot) : Option DelivTrap :=
  let bad := gs.filter fun g => (g.poison && !accept) || g.code.isSome
  match bad with
  | [] => none
  | g :: _ =>
    let where? := w64 (g.va / 32 * 32)
    match g.code with
    | some code => some ⟨causeRemote, lanesMask ((bad.filter fun x => x.code.isSome).map LaneGot.lane), where?, w64 code⟩
    | none => some ⟨causePoison, lanesMask ((bad.filter fun x => x.code.isNone).map LaneGot.lane), where?, 0⟩

/-- Counts the lanes that the accept policy substitutes (R299). -/
def countSubst (s : State) (g : Group) (n : Nat) : State :=
  if n = 0 then s else g.grids.foldl (fun s gk => s.onGrid gk fun x => { x with psub := min (x.psub + n) 0xFFFFFFFF }) s

/-- The register values of what lanes received: a pair for `.b128` (R301, R303). Poisoned lanes read as zero (R299). -/
def gotRegs (ty : MemTy) (gs : List LaneGot) : List LaneReg :=
  let val (l : Nat) : Nat := ((gs.find? fun g => g.lane == l).map fun g => if g.poison then 0 else g.val).getD 0
  if ty = .b128 then [LaneReg.ofFn fun l => w64 (val l % 2 ^ 64), LaneReg.ofFn fun l => w64 (val l / 2 ^ 64)]
  else [LaneReg.ofFn fun l => if gs.any fun g => g.lane == l then MemTy.extend ty (val l) else 0]

/-- A load or atomic issues: its result waits for its cycle, or for its outside replies under number `n` (R208, R304). -/
def Cx.result (c : Cx) (d : Dst) (ty : MemTy) (act : Mask) (gs : List LaneGot) (n delay stamp : Nat) (remote : Bool) : Cx :=
  let vals := gotRegs ty gs
  let c := { c with s := countSubst c.s c.g (if c.g.info.accept then (gs.filter LaneGot.poison).length else 0) }
  let (kq, c) := match d with
    | .k q =>
      let (id, c) := c.kpush q.val LaneReg.zero false
      (some (q.val, id), c)
    | _ => (none, c)
  let regs := match d with
    | .v r => regRun r.val vals.length
    | _ => []
  c.later (if remote then .reply n else .cycle (c.s.clock.cycle + delay)) act regs vals kq 0 0
    (gotTrap c.g.info.accept gs) stamp

/-- Sends the host and peer lanes of a load or atomic as requests (R471, R475); lane 32 stands for every active lane of an
LDC (R308). -/
def Cx.sendLanes (c : Cx) (n : Nat) (ty : MemTy) (cls : AccClass) (spread : Bool) (ls : List LaneXl) (op : Nat → MemOp) :
    List LaneGot × Bool × Cx :=
  ls.foldl (fun (r : List LaneGot × Bool × Cx) l =>
    let c := r.2.2
    let (code, rq, s) := sendRemote c.s (.lane c.k n (if spread then 32 else l.lane) ty) c.writer.sender l.leaf l.pa l.va
      (op l.lane) false
    let c := { c with s := s }
    match code with
    | some code => (r.1 ++ [⟨l.lane, l.va, 0, false, some code⟩], r.2.1, c)
    | none => (r.1, true, { c with g := c.g.await [⟨c.sp.id, cls, none, some rq, 0⟩] })) ([], false, c)

/-- Loads of the sectors of device memory, ascending: what each gives (R75, R306). -/
def Cx.loadSectors (c : Cx) (ls : List LaneXl) : NMap Loaded × Cx :=
  (sectorsOf ls).foldl (fun (r : NMap Loaded × Cx) sec =>
    match ls.find? fun l => l.pa / 32 == sec with
    | some l =>
      let (x, c) := r.2.loadSector l.leaf l.pa
      (NMap.set r.1 sec x, c)
    | none => r) ([], c)

/-- The line requests of a load that its L1 does not answer are counted for their pages (R70, R75). -/
def Cx.sampleLoads (c : Cx) (ls : List LaneXl) (loaded : NMap Loaded) : Cx :=
  let out := loaded.filterMap fun e =>
    if e.2.hit then none else (ls.find? fun l => l.pa / 32 == e.1).map fun l => (l.leaf, l.pa, l.va)
  { c with s := sampleLines c.s c.g.info.ctx (dieOf (coreOf c.k)) out }

/-- What a lane reads of its sector: the group's own buffered bytes over the loaded ones (R82, R306). -/
def Cx.laneBytes (c : Cx) (loaded : NMap Loaded) (size : Nat) (l : LaneXl) : LaneGot :=
  let x := (NMap.get? loaded (l.pa / 32)).getD ⟨0, false, 0, 0, 0, true⟩
  let (data, own) := match c.g.region with
    | some r => r.overlay false l.va (physKey (some (l.leaf, l.pa))) x.data
    | none => (x.data, 0)
  let mine := byteMask (l.va % 32) size
  ⟨l.lane, l.va, Sector.field data (l.va % 32) size, x.poison && (own &&& mine) != mine, none⟩

/-- The loads that an open FENCE.S makes speculative (R106). -/
def Region.speculate (r : Region) (loads : List SpecLoad) : Region :=
  { r with fences := r.fences.map fun f => if f.s = .st then f else { f with loads := f.loads ++ loads } }

/-- Holds that a region's load adds on its core (R83, R84). -/
def Cx.newHolds (c : Cx) (secs : List Nat) : Nat :=
  match c.g.region with
  | none => 0
  | some r =>
    let keys := holdKeys c.s (coreOf c.k)
    (secs.filter fun sec => (r.held? false sec).isNone && !keys.contains (none, sec)).length

/-- A global load's body, after the checks of its addresses (R306, R314, R315); LDC spreads one access over every active
lane (R308). -/
def Cx.load (c : Cx) (d : Dst) (ty : MemTy) (act : Mask) (ls : List LaneXl) (spread : Bool) : State :=
  let dev := ls.filter fun l => l.leaf.tgt == 0
  let far := ls.filter fun l => l.leaf.tgt != 0
  c.budget 0 (c.newHolds (sectorsOf dev)) fun c =>
    let (loaded, c) := c.loadSectors dev
    let c := c.sampleLoads dev loaded
    let near := dev.map (c.laneBytes loaded (MemTy.size ty))
    let delay := (loaded.map fun e => e.2.delay).foldl max 28
    let stamp := (loaded.map fun e => e.2.stamp).foldl max 0
    let spec : List SpecLoad := loaded.map fun e => ⟨e.1, e.2.stamp, e.2.lease⟩
    let (n, c) := c.fresh
    let (failed, remote, c) := c.sendLanes n ty .ld spread far fun _ => .read (MemTy.size ty)
    let c := { c with g := c.g.onRegion fun r => r.speculate spec }
    let c := if dev.isEmpty then c
      else { c with g := c.g.await [⟨c.sp.id, .ld, some (c.s.clock.cycle + delay), none, stamp⟩] }
    let one := near ++ failed
    let gs := if spread then one.flatMap fun r => act.lanes.map fun i => { r with lane := i } else one
    (c.result d ty act gs n delay stamp remote).done

/-- LD (R306). -/
def execLd (g : Guard) (l : La) (x : Dst) (a : Base) (o : Off) (mc : Bool) (ty : MemTy) (s : State) : Out :=
  issue (.ld g l x a o mc ty) Checks.none s fun c =>
    let act := c.guard g
    let ls := c.addrs a o (MemTy.size ty) act
    c.checkAddrs (MemTy.size ty) true ls <|
      c.reading .read false ls fun c ok => c.load x ty act ok false

/-- LDC: one access at the lowest active lane's address, for every active lane (R308). -/
def execLdc (g : Guard) (l : La) (x : Dst) (a : Base) (o : Off) (mc : Bool) (ty : MemTy) (s : State) : Out :=
  issue (.ldc g l x a o mc ty) Checks.none s fun c =>
    let act := c.guard g
    let ls := (c.addrs a o (MemTy.size ty) act).take 1
    c.checkAddrs (MemTy.size ty) true ls <|
      c.reading .read false ls fun c ok =>
        c.load x ty act ok true

/-! ## Stores -/

/-- Where a lane's store or reduction goes: its translation, or none where its page waits or, outside a region, the side log
holds the page (R59, R61). -/
def Cx.target (c : Cx) (x : Xlated) (e : Nat × Nat) : Option (Leaf × Nat) :=
  if !c.g.inRegion && slogHolds c.s (coreOf c.k) c.g.info.ctx e.2 none then none
  else (x.ok.find? fun l => l.lane == e.1).map fun l => (l.leaf, l.pa)

/-- Translation for stores and reductions, and their sector requests: a denied lane traps; requests that the side log has no
room for, outside a region, and those that the miss queue has none for, hold the group (R32, R55, R59, R61, R75). -/
def Cx.writing (c : Cx) (atomic : Bool) (ls : List (Nat × Nat)) (kind : Nat → Nat → StoreKind)
    (body : Cx → List LanePart → State) : State :=
  let (x, s) := translateLanes c.s c.k c.g.info.ctx .write atomic ls
  let c := { c with s := s }
  let core := coreOf c.k
  let reqs := (sectorReqs (ls.map fun e => ⟨e.2, c.target x e, kind e.1 e.2⟩)).map Prod.snd
  let need := (reqs.filter fun r => r.xl.isNone).length
  if !x.denied.isEmpty then c.laneTrap causeProt x.denied
  else if !c.g.inRegion && decide (0 < need) &&
      (!(ownerlessOf s core).isEmpty || decide (256 < (slogOf s core).length + need)) then c.held .full
  else if !c.g.inRegion && !missRoom s core then c.held .full
  else body c reqs

/-- A lane's part of a store (R309). -/
def storeKindOf (ty : MemTy) (lo hi : LaneReg) (lane va : Nat) : StoreKind :=
  storePart va (storeBytes ty (lo.lane lane) (hi.lane lane))

/-- The data operand of a store, the second register of a pair beside it (R303). -/
def Cx.storeData (c : Cx) (x : Src) : LaneReg × LaneReg :=
  (c.source .stop .int x 0, match x with | .v n => c.rd.reg (n.val + 1) | _ => LaneReg.zero)

/-- Sectors of device memory that requests wrote. -/
def writtenSectors (reqs : List LanePart) : List Nat :=
  reqs.filterMap fun r => r.xl.bind fun x => if x.1.tgt = 0 then some (x.2 / 32) else none

/-- Sends sector requests of a store or reduction outside a region, ascending (R75, R81). -/
def Cx.sendReqs (c : Cx) (reqs : List LanePart) : Cx :=
  let (o, s) := sendParts c.s c.writer reqs
  { c with s := s, g := (c.g.await o).wake (writtenSectors reqs) }

/-- Stores enter the region's buffer (R82). -/
def Region.storeAll (r : Region) (reqs : List LanePart) (now : Nat) : Region :=
  reqs.foldl (fun r q => r.store false (q.va / 32 * 32) (physKey q.xl) q.kind now) r

/-- ST (R309). -/
def execSt (g : Guard) (x : Src) (a : Base) (o : Off) (mc : Bool) (ty : MemTy) (s : State) : Out :=
  let i := Instr.st g x a o mc ty
  issue i Checks.none s fun c =>
    let act := c.guard g
    let ls := c.addrs a o (MemTy.size ty) act
    c.checkAddrs (MemTy.size ty) true ls <|
      let (lo, hi) := c.storeData x
      c.writing false ls (storeKindOf ty lo hi) fun c reqs =>
        match c.g.region with
        | none => ((c.pops i.uses).sendReqs reqs).done
        | some r =>
          c.budget (reqs.filter fun q => (r.mergeAt false q.va (physKey q.xl)).isNone).length 0 fun c =>
            { c.pops i.uses with g := c.g.onRegion fun r => r.storeAll reqs c.s.clock.cycle }.done

/-! ## The scratchpad -/

/-- The team's scratchpad. -/
def Cx.scratch (c : Cx) : Scratch := ((c.s.team? c.g.info.team).map Team.scr).getD ⟨0, [], [], [], [], []⟩

/-- Words that an access touches (R87). -/
def wordsOf (off size : Nat) : List Nat := (List.range ((off + size + 3) / 4 - off / 4)).map (off / 4 + ·)

/-- Own buffered bytes of a scratchpad granule (R82). -/
def Cx.ownScratch (c : Cx) (off : Nat) : Word32 :=
  match c.g.region with
  | some r => (r.overlay true off none 0).2
  | none => 0

/-- The scratchpad violations of a lane: RANGE, UNINIT, BUSY (R89). -/
def Cx.violation (c : Cx) (sc : Scratch) (load : Bool) (size off : Nat) : Bool × Bool × Bool :=
  let range := decide (sc.size < off + size)
  let uninit := load && !range && (wordsOf off size).any fun w =>
    !sc.isInit w && (c.ownScratch (4 * w) &&& byteMask (4 * w % 32) 4) != byteMask (4 * w % 32) 4
  let busy := !range && sc.isBusy (off / 32)
  (range, uninit, busy)

/-- Lanes switched off: SCRMASK, the mask of the split and the group's switched-off lanes (R90, R91). -/
def Cx.switchOff (c : Cx) (bad : List (Nat × Bool × Bool × Bool)) : Cx :=
  let m := lanesMask (bad.map Prod.fst)
  let bit (n : Nat) (f : Bool × Bool × Bool → Bool) : W64 := if bad.any fun b => f b.2 then w64 (2 ^ n) else 0
  let add := m.setWidth 64 ||| bit 32 (fun v => v.1) ||| bit 33 (fun v => v.2.1) ||| bit 34 (fun v => v.2.2)
  { c with g := { c.g.onSys (fun x => { x with scrmask := x.scrmask ||| add }) with off := c.g.off ||| m }
           sp := { c.sp with m := c.sp.m &&& ~~~m } }

/-- The lanes that violate, with their causes. -/
def Cx.violations (c : Cx) (load : Bool) (size : Nat) (ls : List (Nat × Nat)) : List (Nat × Bool × Bool × Bool) :=
  let sc := c.scratch
  (ls.map fun e => (e.1, c.violation sc load size e.2)).filter fun v => v.2.1 || v.2.2.1 || v.2.2.2

/-- Scratchpad cycles of an access: the most distinct words in one bank (R87). -/
def bankCycles (size : Nat) (ls : List (Nat × Nat)) : Nat :=
  let words := ls.foldl (fun acc e => (wordsOf e.2 size).foldl insNat acc) []
  ((List.range 32).map fun b => (words.filter fun w => w % 32 == b).length).foldl max 1

/-- The word has issued; when a switch-off left no active lane, the split goes on at its resume point (R376, R91). -/
def Cx.doneMask (c before : Cx) : State :=
  if c.sp.m = 0 && before.sp.m != 0 then c.goOn { c with sp := { c.sp with m := before.sp.m } } c.nextPc none
  else if c.sp.m != before.sp.m then traceMask c.done c.k c.sp.id before.sp.m c.sp.m
  else c.done

/-- A granule as a region's loads see it: held, or read now (R83, R92). -/
def Cx.granule (c : Cx) (sc : Scratch) (g : Nat) : Sector × Bool :=
  match c.g.region.bind fun r => r.held? true g with
  | some h => (h.data, h.poison)
  | none => (sc.sector g, sc.poison.contains g)

/-- LDL (R307). -/
def execLdl (g : Guard) (l : La) (x : Dst) (a : Base) (o : Off) (mc : Bool) (ty : MemTy) (s : State) : Out :=
  issue (.ldl g l x a o mc ty) Checks.none s fun c =>
    let act := c.guard g
    let size := MemTy.size ty
    let ls := c.addrs a o size act
    c.checkAddrs size false ls <|
      let bad := c.violations true size ls
      let good := ls.filter fun e => !(bad.any fun b => b.1 == e.1)
      let grans := good.foldl (fun acc e => insNat acc (e.2 / 32)) []
      let sc := c.scratch.check grans
      let c := { c with s := onScratch c.s c.g.info.team fun _ => sc }
      let keys := holdKeys c.s (coreOf c.k)
      let fresh := match c.g.region with
        | none => []
        | some r => grans.filter fun n => (r.held? true n).isNone
      c.budget 0 (fresh.filter fun n => !keys.contains (some c.g.info.team, n)).length fun c₀ =>
        let own (off : Nat) (d : Sector) : Sector × Word32 := match c₀.g.region with
          | some r => r.overlay true off none d
          | none => (d, 0)
        let gs : List LaneGot := good.map fun e =>
          let (d, p) := c₀.granule sc (e.2 / 32)
          let (d, m) := own e.2 d
          let mine := byteMask (e.2 % 32) size
          ⟨e.1, e.2, Sector.field d (e.2 % 32) size, p && (m &&& mine) != mine, none⟩
        let holds : List HeldSector := fresh.map fun n => ⟨true, n, sc.sector n, sc.poison.contains n, 0, 0, false⟩
        let c := { c₀ with g := c₀.g.onRegion fun r => if holds.isEmpty then r else { r.touch with holds := r.holds ++ holds } }
        let c := c.switchOff bad
        let act := act &&& ~~~(lanesMask (bad.map Prod.fst))
        let (n, c) := c.fresh
        (c.result x ty act gs n (23 + bankCycles size good) 0 false).doneMask c₀

/-- STL (R309). -/
def execStl (g : Guard) (x : Src) (a : Base) (o : Off) (mc : Bool) (ty : MemTy) (s : State) : Out :=
  let i := Instr.stl g x a o mc ty
  issue i Checks.none s fun c =>
    let act := c.guard g
    let size := MemTy.size ty
    let ls := c.addrs a o size act
    c.checkAddrs size false ls <|
      let bad := c.violations false size ls
      let good := ls.filter fun e => !(bad.any fun b => b.1 == e.1)
      let (lo, hi) := c.storeData x
      let reqs := (sectorReqs (good.map fun e => ⟨e.2, none, storeKindOf ty lo hi e.1 e.2⟩)).map Prod.snd
      match c.g.region with
      | none =>
        let put (sc : Scratch) (q : LanePart) : Scratch := match q.kind with
          | .store x m => sc.write (q.va / 32) m x false
          | .red _ _ _ => sc
        let c₁ := (c.pops i.uses).switchOff bad
        { c₁ with s := onScratch c₁.s c.g.info.team fun sc => reqs.foldl put sc }.doneMask c
      | some r =>
        c.budget (reqs.filter fun q => (r.mergeAt true q.va none).isNone).length 0 fun c =>
          let put (r : Region) (q : LanePart) := r.store true (q.va / 32 * 32) none q.kind c.s.clock.cycle
          let c₁ := (c.pops i.uses).switchOff bad
          { c₁ with g := c₁.g.onRegion fun r => reqs.foldl put r }.doneMask c

/-! ## Atomics -/

/-- The line requests of an atomic, ascending (R75). -/
def lineRequests (ls : List LaneXl) : List (Leaf × Nat × Nat) :=
  (ls.foldl (fun (m : NMap (Leaf × Nat × Nat)) l =>
    if (NMap.get? m (l.pa / 128)).isSome then m else NMap.set m (l.pa / 128) (l.leaf, l.pa, l.va)) []).map Prod.snd

/-- Performs the lanes of an atomic on device memory, in ascending lane order at each line's home slice (R75, R312). -/
def atomLanes (s : State) (core ctx : Nat) (op : Nat → MemOp) (ls : List LaneXl) : List LaneGot × Nat × State :=
  ls.foldl (fun (r : List LaneGot × Nat × State) l =>
    let (old, bad, g, s) := atomDevice r.2.2 core l.leaf l.pa ctx (op l.lane)
    (r.1 ++ [⟨l.lane, l.va, old, bad, none⟩], max r.2.1 g, s)) ([], 0, sampleLines s ctx (dieOf core) (lineRequests ls))

/-- Cycles until an atomic's result is back (R305). -/
def atomDelay (core : Nat) (ls : List LaneXl) : Nat := (ls.map fun l => homeDelay core l.leaf.home + 20).foldl max 140

/-- A returning atomic outside a region, device lanes at once and the others as requests (R312). -/
def Cx.atomOutside (c : Cx) (d : Dst) (ty : MemTy) (act : Mask) (us : Uses) (ls : List LaneXl) (op : Nat → MemOp) : State :=
  let core := coreOf c.k
  let dev := ls.filter fun l => l.leaf.tgt == 0
  let far := ls.filter fun l => l.leaf.tgt != 0
  let c := c.pops us
  let (gs, stamp, s) := atomLanes c.s core c.g.info.ctx op dev
  let (n, c) := { c with s := s }.fresh
  let (failed, remote, c) := c.sendLanes n ty .atom false far op
  let delay := atomDelay core dev
  let c := if dev.isEmpty then c
    else { c with g := (c.g.await [⟨c.sp.id, .atom, some (c.s.clock.cycle + delay), none, stamp⟩]).wake (dev.map fun l => l.pa / 32) }
  (c.result d ty act (gs ++ failed) n delay stamp remote).doneReopen

/-- The first returning atomic of a region: its core's copies go, the home slices' bytes are read now, and it is checked and
performed at COMMIT (R81, R97, R109). The old bytes of the lanes come from a run that is then discarded. -/
def Cx.atomRecorded (c : Cx) (d : Dst) (ty : MemTy) (act : Mask) (us : Uses) (ls : List LaneXl) (op : Nat → MemOp) : State :=
  let core := coreOf c.k
  let s := ls.foldl (fun s l => (homeFetch (dropCopies s core l.leaf.home (l.pa / 32)) l.leaf.home (l.pa / 32) c.g.info.ctx l.leaf.noalloc).2)
    (sampleLines c.s c.g.info.ctx (dieOf core) (lineRequests ls))
  let c := { c with s := noteMiss s core (atomDelay core ls) }
  let (gs, _, _) := atomLanes c.s core c.g.info.ctx op ls
  let stamp := (ls.map fun l => (lineTimes c.s.ms (lineOf l.pa)).wct).foldl max 0
  let rec' : RecAtomic :=
    { size := MemTy.size ty
      lanes := (gs.filter fun g => !g.poison).map fun g =>
        (g.lane, g.va, w64 g.val, (MemOp.apply (op g.lane) g.val).map w64) }
  let c := c.pops us
  let (n, c) := c.fresh
  let delay := atomDelay core ls
  let g := c.g.onRegion fun r => { r.touch with atomic := some rec' }
  let c := { c with g := g.await [⟨c.sp.id, .atom, some (c.s.clock.cycle + delay), none, stamp⟩] }
  (c.result d ty act gs n delay stamp false).done

/-- ATOM, ACAS and AXCH (R312, R315, R105, R109, R458): a region seams before a second one, or before one whose sector it
has buffered; one to host or peer memory acts between regions. -/
def Cx.atomWord (c : Cx) (d : Dst) (ty : MemTy) (act : Mask) (us : Uses) (ls : List (Nat × Nat)) (op : Nat → MemOp) : State :=
  c.checkAddrs (MemTy.size ty) true ls <|
    c.reading .write true ls fun c ok =>
      match c.g.region with
      | none => c.atomOutside d ty act us ok op
      | some r =>
        if ok.isEmpty then
          let (n, c) := (c.pops us).fresh
          (c.result d ty act [] n 140 0 false).done
        else if r.atomicOut || ok.any fun l => l.leaf.tgt != 0 then c.commit (.bare true)
        else if r.atomic.isSome || ok.any (fun l => r.buf.any fun e => e.at false l.va (physKey (some (l.leaf, l.pa)))) then
          c.commit .seam
        else c.atomRecorded d ty act us ok op

/-- ATOM (R310-R312). -/
def execAtom (g : Guard) (l : La) (x : Src) (a : Base) (o : Off) (mc : Bool) (op : AOp) (ty : MemTy) (sc : Scope) (xd : Dst)
    (s : State) : Out :=
  let i := Instr.atom g l x a o mc op ty sc xd
  issue i Checks.none s fun c =>
    let act := c.guard g
    let b := c.source .stop .int x 0
    c.atomWord xd ty act i.uses (c.addrs a o (MemTy.size ty) act) fun n => .atom op ty (b.lane n)

/-- ACAS: X6 is the new value, X2 the comparand (R300, R312). -/
def execAcas (g : Guard) (l : La) (x : Src) (a : Base) (o : Off) (mc : Bool) (ty : MemTy) (sc : Scope) (x2 : Src) (xd : Dst)
    (s : State) : Out :=
  let i := Instr.acas g l x a o mc ty sc x2 xd
  issue i Checks.none s fun c =>
    let act := c.guard g
    let new := c.source .stop .int x 0
    let cmp := c.source .stop .int x2 (popsBefore [x] x2)
    c.atomWord xd ty act i.uses (c.addrs a o (MemTy.size ty) act) fun n => .acas ty (cmp.lane n) (new.lane n)

/-- AXCH (R312). -/
def execAxch (g : Guard) (l : La) (x : Src) (a : Base) (o : Off) (mc : Bool) (ty : MemTy) (sc : Scope) (xd : Dst)
    (s : State) : Out :=
  let i := Instr.axch g l x a o mc ty sc xd
  issue i Checks.none s fun c =>
    let act := c.guard g
    let b := c.source .stop .int x 0
    c.atomWord xd ty act i.uses (c.addrs a o (MemTy.size ty) act) fun n => .axch ty (b.lane n)

/-- RED (R310-R312, R315). -/
def execRed (g : Guard) (x : Src) (a : Base) (o : Off) (mc : Bool) (op : AOp) (ty : MemTy) (sc : Scope) (s : State) : Out :=
  let i := Instr.red g x a o mc op ty sc
  issue i Checks.none s fun c =>
    let act := c.guard g
    let ls := c.addrs a o (MemTy.size ty) act
    c.checkAddrs (MemTy.size ty) true ls <|
      let b := c.source .stop .int x 0
      c.writing true ls (fun lane va => .red op ty [(va % 32, b.lane lane)]) fun c reqs =>
        if c.g.inRegion then
          c.budget reqs.length 0 fun c =>
            let add : List BufEntry := reqs.map fun q => ⟨false, q.va / 32 * 32, physKey q.xl, q.kind⟩
            { c.pops i.uses with g := c.g.onRegion fun r =>
                if add.isEmpty then r else { r.touch with buf := r.buf ++ add, lastResult := c.s.clock.cycle } }.done
        else
          ((c.pops i.uses).sendReqs reqs).done

/-! ## Fences -/

/-- The set holds loads (R104). -/
def Sets.hasLd : Sets → Bool
  | .st => false
  | _ => true

/-- The set holds stores (R104). -/
def Sets.hasSt : Sets → Bool
  | .ld => false
  | _ => true

/-- The scope waits for HORIZON (R104). -/
def Scope.waits : Scope → Bool
  | .grp | .team => false
  | _ => true

/-- An access belongs to a class of a set (R104). -/
def Sets.covers (p : Sets) (c : AccClass) : Bool :=
  match c with
  | .ld => Sets.hasLd p
  | .st => Sets.hasSt p
  | .atom => true

/-- An outstanding access is complete (R94). -/
def Outstanding.isDone (s : State) (o : Outstanding) : Bool :=
  (match o.doneAt with
   | some t => decide (t ≤ s.clock.cycle)
   | none => true) &&
    (match o.remote with
     | some n => !(s.pkg.outreqs.any fun r => r.n == n)
     | none => true)

/-- Complete accesses leave a group's list and raise HORIZON (R103). -/
def Group.settle (g : Group) (s : State) : Group :=
  let fin := g.out.filter (Outstanding.isDone s)
  { fin.foldl (fun g o => g.raiseHorizon o.gwct) g with out := g.out.filter fun o => !Outstanding.isDone s o }

/-- Side-log entries of a group that are not performed (R60). -/
def logOf (s : State) (k : Nat) (g : Group) : List SlogEntry :=
  (slogOf s (coreOf k) ++ ownerlessOf s (coreOf k)).filter fun e => e.group == k && e.born == g.info.born

/-- The conditions of a fence over some accesses hold (R104, R60). -/
def fenceHolds (s : State) (k : Nat) (g : Group) (wait : List Outstanding) (p : Sets) (scope : Scope) : Bool :=
  let left := wait.filter fun o => !Outstanding.isDone s o
  let log := logOf s k g
  (left.all fun o => !Sets.covers p o.cls) && (!Sets.hasSt p || log.isEmpty) &&
    (!Scope.waits scope || decide (g.sys.horizon < s.clock.dtime)) &&
    (scope != .sys || ((left.all fun o => o.remote.isNone) && log.all fun e => e.first.isNone))

/-- The team's operand-cache entries go at a fence (R120). -/
def fenceTiles (s : State) (team : Nat) (p su : Sets) (scope : Scope) : State :=
  if Sets.hasSt p || (Sets.hasLd su && Scope.waits scope) then dropTiles s team else s

/-- FENCE outside any seam: it issues when its conditions hold, else the split is held (R104, R317, R318). -/
def Cx.fence (c : Cx) (su p : Sets) (e : Scope) : State :=
  let g := c.g.settle c.s
  let c := { c with g := g }
  if fenceHolds c.s c.k g (g.out.filter fun o => o.split == c.sp.id) p e then
    { c with s := fenceTiles c.s g.info.team p su e }.done
  else c.held (.fence p su e)

/-- The region has just seamed before the word in hand (R84). -/
def Region.freshAt (r : Region) (pc : Pc) : Bool :=
  r.seamed && r.snap.pc == pc && r.buf.isEmpty && r.holds.isEmpty && r.tiles.isEmpty && r.atomic.isNone && r.effects.isEmpty

/-- FENCE (R316, R317, R84, R105). -/
def execFence (cb : Bool) (su p : Sets) (e : Scope) (s : State) : Out :=
  issue (.fence cb su p e) Checks.none s fun c =>
    match c.g.region with
    | some r =>
      if (Sets.hasLd su || Sets.hasSt p) && !r.freshAt c.sp.pc then c.commit .seam else c.fence su p e
    | none => c.fence su p e

/-- FENCE.S (R106, R107): in a region the group runs past it, unless a replay for speculation takes it as FENCE. -/
def execFenceS (cb : Bool) (su p : Sets) (e : Scope) (s : State) : Out :=
  issue (.fenceS cb su p e) Checks.none s fun c =>
    match c.g.region with
    | none => c.fence su p e
    | some r =>
      if r.noSpec then
        if (Sets.hasLd su || Sets.hasSt p) && !r.freshAt c.sp.pc then c.commit .seam else c.fence su p e
      else if Sets.hasSt p && !r.freshAt c.sp.pc then c.commit .seam
      else
        let g := c.g.settle c.s
        let f : FenceS := ⟨p, su, e, g.out.filter fun o => o.split == c.sp.id, []⟩
        { c with s := fenceTiles c.s g.info.team p su e
                 g := g.onRegion fun r => { r with fences := r.fences ++ [f] } }.done

/-! ## Reads of a held word -/

/-- What a host or peer read of a held word gives now. -/
inductive FarRead where
  | got (bytes : List Byte) (poison : Bool)
  | failed (code : Nat)
  | waiting
  deriving DecidableEq, Repr

/-- A host or peer read of a word that is held until it has the bytes: the reply that has come, or a request (R320, R326). -/
def Cx.farRead (c : Cx) (key : Nat) (l : Leaf) (pa va n : Nat) : FarRead × Cx :=
  match c.s.pkg.outreqs.find? fun q => q.owner == .held c.k c.sp.id key with
  | some q =>
    match replyTo c.s q with
    | none => (.waiting, c)
    | some rep =>
      let c := { c with s := endRequest c.s q.n }
      match rep with
      | .ok bs p => (.got bs p, c)
      | .fail code => (.failed code, c)
  | none =>
    let (code, _, s) := sendRemote c.s (.held c.k c.sp.id key) c.writer.sender l pa va (.read n) false
    let c := { c with s := s }
    match code with
    | some code => (.failed code, c)
    | none => (.waiting, c)

/-! ## WAITM -/

/-- A WAITM condition (R319). -/
def waitHolds (n : WCond) (w : Width) (m c : W64) : Bool :=
  let bits := match w with
    | .w32 => 32
    | .w64 => 64
  let x := m.toNat % 2 ^ bits
  let y := c.toNat % 2 ^ bits
  match n with
  | .eq => x == y
  | .ne => x != y
  | .geN => decide (y ≤ x)
  | .ltN => decide (x < y)
  | .geI => decide (signedOf bits y ≤ signedOf bits x)
  | .ltI => decide (signedOf bits x < signedOf bits y)
  | .tst => Nat.land x y != 0

/-- The type at which WAITM reads and pushes (R319, R320, R154). -/
def waitTy (n : WCond) (w : Width) : MemTy :=
  match w, n with
  | .w32, .geI | .w32, .ltI => .i32
  | .w32, _ => .b32
  | .w64, _ => .b64

/-- One attempt of WAITM: what its unsatisfied lanes read now (R320). -/
structure WaitRead where
  c : Cx
  got : NMap W64
  bad : List LaneGot
  watch : NMap (Nat × Nat)

/-- A lane of WAITM reads: device memory as an ordinary load, host and peer memory by a request that is sent again
1,000 ns after a reply that did not satisfy it (R320). -/
def WaitRead.lane (r : WaitRead) (n : WCond) (ty : MemTy) (w : Width) (cmp : LaneReg) (l : LaneXl) : WaitRead :=
  let c := r.c
  let at? := if l.leaf.tgt = 0 then l.pa / 32 + 1 else 0
  let again (t : Nat) : NMap (Nat × Nat) := NMap.set r.watch l.lane (t, at?)
  let take (c : Cx) (v : W64) (next : Nat) : WaitRead :=
    if waitHolds n w v (cmp.lane l.lane) then { r with c := c, got := NMap.set r.got l.lane v, watch := NMap.erase r.watch l.lane }
    else { r with c := c, watch := again next }
  let poisoned (c : Cx) (next : Nat) : WaitRead :=
    if c.g.info.accept then take { c with s := countSubst c.s c.g 1 } 0 next
    else { r with c := c, bad := r.bad ++ [⟨l.lane, l.va, 0, true, none⟩] }
  if l.leaf.tgt = 0 then
    let (x, c) := c.loadSector l.leaf l.pa
    let c := { (if x.hit then c else { c with s := samplePage c.s l.leaf c.g.info.ctx l.va (dieOf (coreOf c.k)) }) with
      g := c.g.raiseHorizon x.stamp }
    if x.poison then poisoned c x.lease
    else take c (MemTy.extend ty (Sector.field x.data (l.pa % 32) (MemTy.size ty))) x.lease
  else
    let (x, c) := c.farRead l.lane l.leaf l.pa l.va (MemTy.size ty)
    let next := c.s.clock.dtime + 1000
    match x with
    | .got _ true => poisoned c next
    | .got bs false => take c (MemTy.extend ty (leNat bs)) next
    | .failed code => { r with c := c, bad := r.bad ++ [⟨l.lane, l.va, 0, false, some code⟩] }
    | .waiting => { r with c := c, watch := again (2 ^ 64) }

/-- The DTIME at which some lane of a WAITM reads next. -/
def nextRead (w : NMap (Nat × Nat)) : Nat :=
  match w with
  | [] => 0
  | e :: l => l.foldl (fun m x => min m x.2.1) e.2.1

/-- The reply to a lane's read has come. -/
def Cx.answered (c : Cx) (lane : Nat) : Bool :=
  c.s.pkg.outreqs.any fun q => q.owner == .held c.k c.sp.id lane && (replyTo c.s q).isSome

/-- WAITM is illegal in class W and in a region (R361, R315). -/
def waitmChecks : Checks :=
  { Checks.none with illwait := fun c => if c.cls = 2 then some 1 else none, illregion := fun c => c.g.inRegion }

/-- WAITM (R319, R320). -/
def execWaitm (cb : Bool) (g : Guard) (l : La) (a : VReg) (n : WCond) (w : Width) (s : State) : Out :=
  issue (.waitm cb g l a n w) waitmChecks s fun c =>
    let act := c.guard g
    let ty := waitTy n w
    let addr := c.rd.reg a.val
    let ls := (act.lanes.filter fun x => (NMap.get? c.sp.got x).isNone).map fun x => (x, (addr.lane x).toNat)
    c.checkAddrs (MemTy.size ty) true ls <|
      if c.sp.hold = some (.wait .waitm) && decide (c.s.clock.dtime < c.sp.reread) then c.held (.wait .waitm)
      else
        let due (e : Nat × Nat) : Bool := match NMap.get? c.sp.watch e.1 with
          | some t => decide (t.1 ≤ c.s.clock.dtime) || c.answered e.1
          | none => true
        c.reading .read false (ls.filter due) fun c ok =>
          let r := ok.foldl (fun (r : WaitRead) x => r.lane n ty w (c.rd.reg (a.val + 1)) x) ⟨c, c.sp.got, [], c.sp.watch⟩
          let c := { r.c with sp := { r.c.sp with got := r.got, watch := r.watch, reread := nextRead r.watch } }
          if !r.bad.isEmpty || act.lanes.all fun x => (NMap.get? r.got x).isSome then
            let gs : List LaneGot := r.bad ++ r.got.map fun e => ⟨e.1, 0, e.2.toNat, false, none⟩
            let (k, c) := c.fresh
            (c.result .none ty act gs k 28 0 false).done
          else c.wait .waitm

/-! ## CCTL and PREF -/

/-- The address source of CCTL and PREF in a lane (R321). -/
def Cx.addr6 (c : Cx) (a : Addr6) : LaneReg :=
  match a with
  | .v n => c.rd.reg n.val
  | .s n => LaneReg.splat (c.rd.scalar n.val)

/-- The lanes' mapped device addresses; the others are ignored (R321, R322). -/
def Cx.hints (c : Cx) (g : Guard) (a : Addr6) : List (Leaf × Nat × Nat) :=
  (c.guard g).lanes.filterMap fun l =>
    let va := ((c.addr6 a).lane l).toNat
    if wildAddr va then none
    else
      match leafNow c.s c.g.info.ctx va with
      | some (lf, pa, _, _) => if lf.tgt = 0 then some (lf, pa, va) else none
      | none => none

/-- CCTL.inv (R321). -/
def execCctlInv (cb : Bool) (g : Guard) (a : Addr6) (s : State) : Out :=
  issue (.cctlInv cb g a) Checks.none s fun c =>
    let drop (s : State) (pa : Nat) : State :=
      (List.range 4).foldl (fun s i => dropL1 s (coreOf c.k) (lineOf pa * 4 + i)) s
    { c with s := (c.hints g a).foldl (fun s (x : Leaf × Nat × Nat) => drop s x.2.1) c.s }.done

/-- CCTL.invall (R321). -/
def execCctlInvall (cb : Bool) (s : State) : Out :=
  issue (.cctlInvall cb) Checks.none s fun c =>
    { c with s := c.s.onMs fun ms => { ms with l1 := NMap.erase ms.l1 (coreOf c.k) } }.done

/-- CCTL.wb (R321). -/
def execCctlWb (cb : Bool) (g : Guard) (a : Addr6) (s : State) : Out :=
  issue (.cctlWb cb g a) Checks.none s fun c =>
    { c with s := (c.hints g a).foldl (fun s (x : Leaf × Nat × Nat) => flushLine s x.1.home (lineOf x.2.1) true) c.s }.done

/-- PREF (R322): a full miss queue stops it at issue (R32). -/
def execPref (cb : Bool) (g : Guard) (a : Addr6) (v : Bool) (s : State) : Out :=
  issue (.pref cb g a v) Checks.none s fun c =>
    if !missRoom c.s (coreOf c.k) then c.held .full
    else
      let fill (s : State) (x : Leaf × Nat × Nat) : State :=
        if v then (homeFetch s x.1.home (x.2.1 / 32) c.g.info.ctx x.1.noalloc).2
        else (coreRead s (coreOf c.k) x.1.home (x.2.1 / 32) c.g.info.ctx x.1.noalloc).2
      let lines := lineRequests ((c.hints g a).map fun x => ⟨0, x.2.2, x.1, x.2.1⟩)
      { c with s := (c.hints g a).foldl fill (sampleLines c.s c.g.info.ctx (dieOf (coreOf c.k)) lines) }.done

end Sys2Proof.Machine
end

