-- ==== Sys2Proof/Machine/Copy.lean ====
section
/-! DEFINITION. The copy engines: command fields, boxes and ragged rows, conversion, stepping, completion and batches
(spec/06 R125-R146, spec/15 R328-R331). -/

namespace Sys2Proof.Machine

/-! ## Command and descriptor -/

/-- The fields of a command and its descriptor (R128, R129). -/
structure Box where
  cvt : Nat
  rnd : Nat
  sat : Bool
  ss : Nat
  ds : Nat
  ssp : Bool
  dsp : Bool
  src : W64
  dst : W64
  width : Nat
  rows : Nat
  planes : Nat
  srs : W64
  sps : W64
  drs : W64
  dps : W64
  pad : Nat
  ragged : Bool
  deriving DecidableEq, Repr

/-- The destination element size (R128). -/
def dstSize (cmd : Nat) : Nat :=
  let cvt := bitsOf cmd 31 28
  if cvt = 1 ∨ cvt = 2 then 1 else if cvt = 3 ∨ cvt = 4 then 2 else 2 ^ bitsOf cmd 23 22

/-- Reads a command word and a descriptor (R128, R129). -/
def Box.of (cmd : Nat) (desc : List W64) (ragged : Bool) : Box :=
  let d (i : Nat) : W64 := desc.getD i 0
  { cvt := bitsOf cmd 31 28, rnd := bitsOf cmd 27 25, sat := cmd.testBit 24, ss := 2 ^ bitsOf cmd 23 22
    ds := dstSize cmd, ssp := cmd.testBit 21, dsp := cmd.testBit 20, src := d 0, dst := d 1
    width := bitsOf (d 2).toNat 23 0 + 1, rows := bitsOf (d 2).toNat 47 24 + 1
    planes := if ragged then 1 else bitsOf (d 2).toNat 63 48 + 1
    srs := d 3, sps := d 4, drs := d 5, dps := d 6, pad := (d 7).toNat, ragged := ragged }

/-- The box of a command. -/
def CopyCmd.box (c : CopyCmd) : Box := Box.of c.cmd.toNat c.desc c.ragged

/-- The command word is legal (R128); a tile may set TRAG and may not write the scratchpad or arrive (R136). -/
def cmdLegal (cmd : Nat) (tile : Bool) : Bool :=
  let cvt := bitsOf cmd 31 28
  let rnd := bitsOf cmd 27 25
  let esz := bitsOf cmd 23 22
  bitsOf cmd 63 32 == 0 && bitsOf cmd 12 0 == 0 && decide (cvt ≤ 4) && decide (rnd ≤ 5) &&
    (cvt == 1 || cvt == 2 || (rnd == 0 && !cmd.testBit 24)) &&
    (!(cvt == 1 || cvt == 2) || esz == 1) && (!(cvt == 3 || cvt == 4) || esz == 0) &&
    (if tile then !cmd.testBit 20 && !cmd.testBit 18 else !cmd.testBit 13)

/-- A must-be-zero field is set, PAD exceeds its element, or a stride is no multiple of its element (R130). -/
def Box.malformed (b : Box) (desc : List W64) : Bool :=
  let d (i : Nat) : Nat := (desc.getD i 0).toNat
  let planes := bitsOf (d 2) 63 48
  if b.ragged then
    d 3 != 0 || d 6 != 0 || planes != 0 || decide (2 ^ (8 * b.ds) ≤ d 7) || d 5 % b.ds != 0
  else d 7 != 0 || d 3 % b.ss != 0 || d 4 % b.ss != 0 || d 5 % b.ds != 0 || d 6 % b.ds != 0

/-- The first misaligned base (R130). -/
def Box.misaligned (b : Box) : Option Nat :=
  if b.src.toNat % b.ss != 0 then some b.src.toNat
  else if b.dst.toNat % b.ds != 0 then some b.dst.toNat
  else if b.ragged && b.sps.toNat % 4 != 0 then some b.sps.toNat else none

/-- The first global base with bits above 47 (R130). -/
def Box.wild (b : Box) : Option Nat :=
  if !b.ssp && wildAddr b.src.toNat then some b.src.toNat
  else if !b.dsp && wildAddr b.dst.toNat then some b.dst.toNat
  else if b.ragged && !b.ssp && wildAddr b.sps.toNat then some b.sps.toNat else none

/-- The bound on source sectors of a region's copy (R145). DESIGN CHOICE: the sectors of the offsets count as ⌈4 × (ROWS + 1) / 32⌉ + 1,
wherever the array begins. -/
def Box.bound (b : Box) : Nat :=
  let per := (b.width * b.ss + 31) / 32 + 1
  if b.ragged then b.rows * per + (4 * (b.rows + 1) + 31) / 32 + 1 else b.planes * b.rows * per

/-- Elements of a command in box order (R131, R133). -/
def Box.total (b : Box) : Nat := b.planes * b.rows * b.width

/-- Plane, row and column of an element (R131). -/
def Box.place (b : Box) (n : Nat) : Nat × Nat × Nat := (n / (b.rows * b.width), n / b.width % b.rows, n % b.width)

/-- The destination address of an element (R131, R133). -/
def Box.dstAt (b : Box) (n : Nat) : Nat :=
  let (p, r, e) := b.place n
  (b.dst + w64 p * (if b.ragged then 0 else b.dps) + w64 r * b.drs + w64 (e * b.ds)).toNat

/-- The source address of an element of a box (R131). -/
def Box.srcAt (b : Box) (n : Nat) : Nat :=
  let (p, r, e) := b.place n
  (b.src + w64 p * b.sps + w64 r * b.srs + w64 (e * b.ss)).toNat

/-- Bytes that lie in a scratchpad allocation. -/
def inScratch (size off n : Nat) : Bool := decide (off + n ≤ size)

/-- Rows of a box in the scratchpad: source or destination starts and lengths. -/
def Box.rowsOf (b : Box) (source : Bool) : List (Nat × Nat) :=
  (List.range (b.planes * b.rows)).map fun i =>
    if source then (b.srcAt (i * b.width), b.width * b.ss) else (b.dstAt (i * b.width), b.width * b.ds)

/-- The SCRRANGE check before the first access (R139): every destination row, every source row of a COPY, and an offset
array in the scratchpad. -/
def Box.fits (b : Box) (size : Nat) : Bool :=
  (!b.dsp || (b.rowsOf false).all fun r => inScratch size r.1 r.2) &&
    (!b.ssp || b.ragged || (b.rowsOf true).all fun r => inScratch size r.1 r.2) &&
    (!(b.ssp && b.ragged) || inScratch size b.sps.toNat (4 * (b.rows + 1)))

/-! ## Conversion -/

/-- A rounding mode of its code (R128). -/
def rndOf : Nat → Rnd
  | 0 => .rn
  | 1 => .rz
  | 2 => .ru
  | 3 => .rd
  | 4 => .ra
  | _ => .ro

/-- One element converted on its way, and whether it sets OVFL (R134, R135). -/
def Box.convert (b : Box) (x : Nat) : Nat × Bool :=
  let narrow (f : Fmt) : Nat × Bool :=
    let v := Fmt.bf16.value x
    let r := f.convert (rndOf b.rnd) b.sat v
    let ovfl := (r.2 &&& flagOf) != 0 || (match v with | .inf _ => true | _ => false)
    (r.1, ovfl)
  match b.cvt with
  | 1 => narrow .e4m3
  | 2 => narrow .e5m2
  | 3 => ((Fmt.bf16.convert .rn false (Fmt.e4m3.value x)).1, false)
  | 4 => ((Fmt.bf16.convert .rn false (Fmt.e5m2.value x)).1, false)
  | _ => (x, false)

/-! ## Batches -/

/-- The number a batch takes after `n` (R137). -/
def nextBatch (n : Nat) : Nat := if n = 0xFFFFFFFF then 1 else n + 1

/-- A copy or collective joins the open batch (R137, R342). -/
def Batches.join (b : Batches) : Batches := { b with cur := { b.cur with open? := b.cur.open? + 1, any := true } }

/-- A copy of a batch completes with a status (R139). -/
def Batches.finish (b : Batches) (num : Nat) (st : BitVec 16) : Batches :=
  let hit (x : Batch) : Batch :=
    if x.num = num ∧ 0 < x.open? then { x with open? := x.open? - 1, status := mergeStatus x.status st } else x
  if b.cur.num = num then { b with cur := hit b.cur } else { b with closed := b.closed.map hit }

/-- Closed batches that are not complete: from the first with copies left (R137). -/
def Batches.pending (b : Batches) : List Batch := b.closed.dropWhile fun x => x.open? == 0

/-- Closes the open batch; the oldest of seventeen kept joins the aged status (R137, R328, R330). -/
def Batches.close (b : Batches) : Batches :=
  let closed := b.closed ++ [b.cur]
  let n := b.cur.num
  let cur : Batch := ⟨nextBatch n, 0, 0, false⟩
  if 16 < closed.length then
    match closed with
    | old :: rest => ⟨n, cur, rest, mergeStatus b.aged old.status⟩
    | [] => ⟨n, cur, [], b.aged⟩
  else ⟨n, cur, closed, b.aged⟩

/-- A batch's state: complete or not, and its status (R329, R330). -/
def Batches.ask (b : Batches) (n : Nat) : Option (BitVec 16) :=
  match b.closed.find? fun x => x.num == n with
  | some x => if b.pending.any fun y => y.num == n then none else some x.status
  | none => some b.aged

/-- The batches of a new group (R137, R330). -/
def Batches.new : Batches := ⟨0, ⟨1, 0, 0, false⟩, [], 0⟩

/-- A copy of a group completes: its batch learns it, and so does the snapshot of an open region when an earlier run issued
the copy (R137, R331). -/
def batchDone (s : State) (k num : Nat) (st : BitVec 16) (inRegion : Bool) : State :=
  s.onGroup k fun g =>
    let g := { g with batches := g.batches.finish num st }
    if inRegion then g
    else g.onRegion fun r => { r with snap := { r.snap with batches := r.snap.batches.finish num st } }

/-! ## Source and destination -/

/-- What an engine's access gives. -/
inductive Moved where
  /-- Bytes, poison, and the physical place they came from or went to, where there is one. -/
  | done (bytes : List Byte) (poison : Bool) (place : Option Nat)
  /-- The page waits (R140). -/
  | parked (ctx va : Nat)
  /-- An outside request is in flight. -/
  | pending
  /-- The command stops with this ECODE (R139). -/
  | stop (code : Nat)

/-- The die through which a command reaches memory: its engine's (R127). -/
def CopyRun.die (r : CopyRun) : Nat := if r.cmd.cache.isSome then dieOf r.cmd.core else r.engine / 12

/-- The agent of a command's translations: a copy engine, a matrix engine's operand fetcher, or the control core whose command
it is (R62, R127). -/
def CopyRun.agent (r : CopyRun) : Agent :=
  match r.cmd.cache with
  | none => if r.cmd.core < 384 then ⟨r.die, 1, r.engine⟩ else ⟨r.die, 4, r.cmd.core - 384⟩
  | some _ => ⟨r.die, 2, clusterOf r.cmd.core⟩

/-- Takes the reply to a run's request, when it has come. -/
def CopyRun.reply (r : CopyRun) (s : State) : Option Reply × CopyRun × State :=
  match r.req with
  | none => (none, r, s)
  | some n =>
    match (s.pkg.outreqs.find? fun x => x.n == n).bind (replyTo s) with
    | none => (none, r, s)
    | some rep => (some rep, { r with req := none }, endRequest s n)

/-- Who sends a command's requests. -/
def CopyRun.sender (r : CopyRun) : Sender := ⟨r.cmd.ctx, r.cmd.grids, r.cmd.core⟩

/-- A sector of device memory as an engine reads it: through the issuing region's holds, or at its die's slice (R118,
R145). -/
def engineSector (s : State) (r : CopyRun) (l : Leaf) (sec : Nat) : Sector × Bool × State :=
  let k := r.cmd.group
  let viaRegion := r.cmd.inRegion && r.cmd.toScratch
  let region := if viaRegion then (s.group? k).bind Group.region else none
  match region with
  | some rg =>
    match rg.held? false sec with
    | some h => (h.data, h.poison, s)
    | none =>
      let (g, s) := coreRead s r.cmd.core l.home sec r.cmd.ctx l.noalloc
      let h : HeldSector := ⟨false, sec, g.data, g.poison, g.stamp, g.lease, true⟩
      (g.data, g.poison, s.onGroup k fun x => x.onRegion fun rg => { rg.touch with holds := rg.holds ++ [h] })
  | none =>
    let (g, s) := engineRead s r.die l.home sec r.cmd.ctx l.noalloc
    (g.data, g.poison, s)

/-- Reads bytes of device memory for an engine. -/
def engineBytes (s : State) (r : CopyRun) (l : Leaf) (pa n : Nat) : List Byte × Bool × State :=
  (List.range ((pa + n + 31) / 32 - pa / 32)).foldl (fun (acc : List Byte × Bool × State) i =>
    let sec := pa / 32 + i
    let (d, p, s) := engineSector acc.2.2 r l sec
    let part := ((List.range 32).filter fun j => decide (pa ≤ sec * 32 + j) && decide (sec * 32 + j < pa + n)).map fun j =>
      Sector.byte d j
    (acc.1 ++ part, acc.2.1 || p, s)) ([], false, s)

/-- Scratchpad bytes as a command reads them: the granules a region read for it at issue, else the words now (R87, R136,
R145). -/
def engineScratch (s : State) (r : CopyRun) (off n : Nat) : List Byte × Bool × State :=
  let live := ((List.range ((off + n + 31) / 32 - off / 32)).map (off / 32 + ·)).filter fun g => !r.cmd.snap.any fun x => x.1 == g
  let s := onScratch s r.cmd.team fun sc => sc.check live
  let sc := ((s.team? r.cmd.team).map Team.scr).getD ⟨0, [], [], [], [], []⟩
  let gran (g : Nat) : Sector × Bool := match r.cmd.snap.find? fun x => x.1 == g with
    | some x => x.2
    | none => (sc.sector g, sc.poison.contains g)
  ((List.range n).map fun i => Sector.byte (gran ((off + i) / 32)).1 ((off + i) % 32),
   (List.range ((off + n + 31) / 32 - off / 32)).any fun i => (gran (off / 32 + i)).2, s)

/-- Reads `n` source bytes of one page (R139, R140, R142). -/
def CopyRun.fetch (r : CopyRun) (s : State) (scratch : Bool) (addr n : Nat) : Moved × CopyRun × State :=
  if scratch then
    let (bs, p, s) := engineScratch s r addr n
    (.done bs p (some addr), r, s)
  else if r.req.isSome then
    let (rep, r, s) := r.reply s
    match rep with
    | none => (.pending, r, s)
    | some (.ok bs p) => (.done bs p none, r, s)
    | some (.fail code) => (.stop 5, { r with far := code }, s)
  else if wildAddr (addr + n - 1) then (.stop 1, r, s)
  else
    let (x, s) := translateWalk s r.agent r.cmd.ctx addr .read false
    match x with
    | .denied => (.stop 1, r, s)
    | .wait => (.parked r.cmd.ctx addr, r, s)
    | .ok l pa =>
      if l.tgt = 0 then
        let (bs, p, s) := engineBytes (samplePage s l r.cmd.ctx addr r.die) r l pa n
        (.done bs p (some pa), r, s)
      else
        let (code, q, s) := sendRemote s (.copy r.cmd.id) r.sender l pa addr (.read n) false
        match code with
        | some code => (.stop 5, { r with far := code }, s)
        | none => (.pending, { r with req := some q }, s)

/-- The command's clean bytes of a scratchpad granule after a write: a granule it has written whole without poison loses
its poison bit (R88). -/
def CopyRun.mark (r : CopyRun) (g : Nat) (m : Word32) (poison : Bool) : Bool × CopyRun :=
  let cur := (NMap.get? r.clean g).getD 0
  let new := if poison then cur &&& ~~~m else cur ||| m
  (new == fullMask, { r with clean := NMap.set r.clean g new })

/-- Keeps the first values of bytes about to be overwritten (R132). -/
def CopyRun.keep (r : CopyRun) (place : Nat) (was : List Byte) : CopyRun :=
  if r.cmd.box.ssp == r.cmd.box.dsp && r.cmd.cache.isNone then
    { r with old := was.zipIdx.foldl (fun m b =>
        if (NMap.get? m (place + b.2)).isSome then m else NMap.set m (place + b.2) b.1) r.old }
  else r

/-- Writes bytes of one destination sector (R88, R99, R139-R142). -/
def CopyRun.put (r : CopyRun) (s : State) (addr : Nat) (bs : List Byte) (poison : Bool) : Moved × CopyRun × State :=
  let n := bs.length
  let m := byteMask (addr % 32) n
  let x := Sector.ofNat (leNat bs) (addr % 32) n
  if r.cmd.cache.isSome then
    let g := r.bytes.length / 32
    (.done [] false none, { r with bytes := r.bytes ++ bs, pois := if poison then insNat r.pois g else r.pois }, s)
  else if r.cmd.box.dsp then
    let (was, _, s) := engineScratch s { r with cmd := { r.cmd with snap := [] } } addr n
    let r := r.keep addr was
    let (whole, r) := r.mark (addr / 32) m poison
    let s := onScratch s r.cmd.team fun sc =>
      let sc := sc.write (addr / 32) m x poison
      if whole then { sc with poison := delNat sc.poison (addr / 32) } else sc
    (.done [] false none, r, s)
  else if r.req.isSome then
    let (rep, r, s) := r.reply s
    match rep with
    | none => (.pending, r, s)
    | some (.ok _ _) => (.done [] false none, r, s)
    | some (.fail code) => (.stop 5, { r with far := code }, s)
  else if wildAddr (addr + n - 1) then (.stop 1, r, s)
  else
    let (t, s) := translateWalk s r.agent r.cmd.ctx addr .write false
    match t with
    | .denied => (.stop 1, r, s)
    | .wait => (.parked r.cmd.ctx addr, r, s)
    | .ok l pa =>
      if l.tgt = 0 then
        let s := samplePage s l r.cmd.ctx addr r.die
        let r := r.keep pa (physRead s pa n)
        let (g, s) := agentWrite s (some r.die) l.home (pa / 32) r.cmd.ctx m x poison
        (.done [] false none, { r with gwct := max r.gwct g }, s)
      else
        let (code, q, s) := sendRemote s (.copy r.cmd.id) r.sender l pa addr (.write bs) poison
        match code with
        | some code => (.stop 5, { r with far := code }, s)
        | none => (.pending, { r with req := some q }, s)

/-! ## Stepping -/

/-- The command ends with an error code, or without (R139). -/
def CopyRun.finish (r : CopyRun) (code : Nat) : CopyRun :=
  { r with ended := true, parked := none
           status := if code = 0 then r.status else r.status ||| 1 ||| BitVec.ofNat 16 (code * 2 ^ 12) }

/-- Sets a status bit. -/
def CopyRun.flag (r : CopyRun) (b : Bool) (n : Nat) : CopyRun :=
  if b then { r with status := r.status ||| BitVec.ofNat 16 (2 ^ n) } else r

/-- What a ragged row still needs before its elements move: an offset to read, an error, or its start and length. -/
inductive RowState where
  | needs (i : Nat)
  | bad (code : Nat)
  | ready (start len : Nat)

/-- The state of a ragged row (R133, R139). DESIGN CHOICE: of a scratchpad row the check covers the elements that are read, the
first WIDTH of it; a row without elements lies nowhere. -/
def CopyRun.row (r : CopyRun) (b : Box) (size i : Nat) : RowState :=
  match r.offs[i]?, r.offs[i + 1]? with
  | some a, some e =>
    if e < a then .bad 4
    else
      let at? := (b.src + w64 (a * b.ss)).toNat
      if b.ssp && e != a && !inScratch size at? (min (e - a) b.width * b.ss) then .bad 3 else .ready a (e - a)
  | _, _ => .needs r.offs.length

/-- Elements from `n` on, at most `left`, that are written together: of one destination sector (R95, R140). -/
def CopyRun.chunk (r : CopyRun) (left : Nat) : Nat :=
  let b := r.cmd.box
  let at? := if r.cmd.cache.isSome then r.elem * b.ds else b.dstAt r.elem
  min left (max 1 ((32 - at? % 32) / b.ds))

/-- A byte as the command's read but unwritten elements leave it, the latest first (R132). -/
def CopyRun.unwritten (b : Box) (part : List ((List Byte × Bool) × Nat)) (a : Nat) : Option Byte :=
  part.reverse.findSome? fun e => if b.dstAt e.2 ≤ a then e.1.1[a - b.dstAt e.2]? else none

/-- The elements of fetched bytes, converted, after those read before them. Where the command overwrites its own source, an
element is as it stood at acceptance or as the command wrote it since, as the free choice says (R132, R134, R135, R142). -/
def CopyRun.take (r : CopyRun) (s : State) (addr cnt : Nat) (bs : List Byte) (p : Bool) (place : Option Nat) : CopyRun × State :=
  let b := r.cmd.box
  let own := b.ssp == b.dsp && r.cmd.cache.isNone
  let put (r : CopyRun) (i : Nat) : CopyRun :=
    let was := ((bs.drop (i * b.ss)).take b.ss).zipIdx
    let old := was.map fun x => ((place.bind fun q => NMap.get? r.old (q + i * b.ss + x.2))).getD x.1
    let late := r.part.zipIdx.map fun e => (e.1, r.elem + e.2)
    let now := was.map fun x => if own then (CopyRun.unwritten b late (addr + i * b.ss + x.2)).getD x.1 else x.1
    let v := b.convert (leNat (if old != now && !Config.overlapNew (s.freeCtr + i) then old else now))
    { (r.flag p 1).flag v.2 3 with part := r.part ++ [(leBytes b.ds v.1, p)] }
  ((List.range cnt).foldl put r, { s with freeCtr := s.freeCtr + cnt })

/-- What a step of a command found, and whether it goes on: bytes read or written, a page or reply to wait for, or an error. -/
def CopyRun.after (m : Moved) (r : CopyRun) (s : State) (f : List Byte → Bool → Option Nat → CopyRun → State → CopyRun × State) :
    Bool × CopyRun × State :=
  match m with
  | .done bs p a => (true, f bs p a { r with parked := none } s)
  | .parked c va => (false, { r with parked := some (c, va) }, s)
  | .pending => (false, r, s)
  | .stop code => (false, r.finish code, s)

/-- Reads elements of a row from a source address, at most `left`: those of one source sector (R95, R131). -/
def CopyRun.source (r : CopyRun) (s : State) (addr left : Nat) : Bool × CopyRun × State :=
  let b := r.cmd.box
  let cnt := min left (max 1 ((32 - addr % 32) / b.ss))
  let (m, r, s) := r.fetch s b.ssp addr (cnt * b.ss)
  CopyRun.after m r s fun bs p a r s => r.take s addr cnt bs p a

/-- Reads offset `n` of a ragged copy, with the other offset of its aligned 8 bytes (R95, R133). -/
def CopyRun.offset (r : CopyRun) (s : State) (n : Nat) : Bool × CopyRun × State :=
  let b := r.cmd.box
  let addr := (b.sps + w64 (4 * n)).toNat
  let cnt := if addr % 8 = 0 ∧ n < b.rows then 2 else 1
  let (m, r, s) := r.fetch s b.ssp addr (4 * cnt)
  match m with
  | .done bs p _ =>
    if p then (false, r.finish 4, s)
    else (true, { r with parked := none, offs := r.offs ++ (List.range cnt).map fun i => leNat ((bs.drop (4 * i)).take 4) }, s)
  | m => CopyRun.after m r s fun _ _ _ r s => (r, s)

/-- One move of a command: none when it has ended or cannot go on now. Elements of a row are read by source sectors until a
destination sector's are there, which are then written together (R95, R131-R142). -/
def CopyRun.move (r : CopyRun) (s : State) : Bool × CopyRun × State :=
  let b := r.cmd.box
  let size := ((s.team? r.cmd.team).map fun t => t.scr.size).getD 0
  let (_, i, e) := b.place r.elem
  let want := r.chunk (b.width - e)
  let from? := e + r.part.length
  if r.ended then (false, r, s)
  else if b.total ≤ r.elem then (false, r.finish 0, s)
  else if want ≤ r.part.length then
    let part := r.part.take want
    let (m, r, s) := r.put s (b.dstAt r.elem) (part.flatMap Prod.fst) (part.any Prod.snd)
    CopyRun.after m r s fun _ _ _ r s => ({ r with part := r.part.drop want, elem := r.elem + want }, s)
  else if b.ragged then
    match r.row b size i with
    | .bad code => (false, r.finish code, s)
    | .needs n => r.offset s n
    | .ready a len =>
      let r := r.flag (decide (b.width < len)) 2
      if from? < len then r.source s ((b.src + w64 ((a + from?) * b.ss)).toNat) (min len b.width - from?)
      else (true, { r with part := r.part ++ List.replicate (want - r.part.length) (leBytes b.ds b.pad, false) }, s)
  else r.source s (b.srcAt (r.elem + r.part.length)) (b.width - from?)

/-- Moves a command on as far as it goes now. -/
def CopyRun.moves : Nat → CopyRun → State → CopyRun × State
  | 0, r, s => (r, s)
  | n + 1, r, s =>
    let (go, r, s) := r.move s
    if go then moves n r s else (r, s)

/-- A line-sized step of a command: its moves until it has written what it writes in a row to one line of its destination
(R125). -/
def CopyRun.lineStep : Nat → CopyRun → State → CopyRun × State
  | 0, r, s => (r, s)
  | n + 1, r, s =>
    let b := r.cmd.box
    let (go, r', s) := r.move s
    let same := r'.elem == r.elem || decide (b.total ≤ r'.elem) ||
      (r'.elem / b.width == r.elem / b.width && b.dstAt r'.elem / 128 == b.dstAt r.elem / 128)
    if go && same then lineStep n r' s else (r', s)

/-- A bound on the moves of a command. -/
def CopyRun.fuel (r : CopyRun) : Nat := 2 * r.cmd.box.total + r.cmd.box.rows + 4

/-- A bound on the moves of a line-sized step: the elements of a line are read, padded and written, after two offsets. -/
def CopyRun.lineFuel : Nat := 300

/-- A command begins on an engine, with the SCRRANGE check of its whole box (R127, R139). -/
def CopyRun.begin (s : State) (c : CopyCmd) (engine : Nat) : CopyRun :=
  let size := ((s.team? c.team).map fun t => t.scr.size).getD 0
  let r : CopyRun :=
    { cmd := c, engine := engine, elem := 0, status := 0, far := 0, gwct := 0, parked := none, req := none, part := []
      offs := [], clean := [], old := [], bytes := [], pois := [], ended := false, finished := false }
  if c.box.fits size then r else r.finish 3

/-- Writes a run back. -/
def setRun (s : State) (r : CopyRun) : State :=
  s.onEng fun e => { e with copies := e.copies.map fun x => if x.cmd.id = r.cmd.id then r else x }

/-- A copy is complete (R118, R137-R139): its busy bits end, its batch learns its status, and it arrives at its barrier,
unless its region still holds the arrival. -/
def finishCopy (s : State) (r : CopyRun) : State :=
  let s := markBusy s r.cmd false
  let s := batchDone s r.cmd.group r.cmd.batch r.status r.cmd.inRegion
  if r.cmd.arriveHeld then setRun s { r with finished := true }
  else
    let s := s.onEng fun e => { e with copies := e.copies.filter fun x => x.cmd.id != r.cmd.id }
    if r.cmd.cmd.getLsbD 18 then arriveAt s r.cmd.team (bitsOf r.cmd.cmd.toNat 17 14) r.status else s

/-! ## Dispatch -/

/-- The active commands of an engine, in the order in which they began (R125, R127). -/
def activeRuns (s : State) (e : Nat) : List CopyRun := s.eng.copies.filter fun r => r.engine == e && !r.ended

/-- Active commands of an engine (R127). -/
def engineLoad (s : State) (e : Nat) : Nat := (activeRuns s e).length

/-- The place among the pipes of the cycle from which an engine takes its next step. -/
def enginePipe (e : Nat) : Nat := 4096 + e

/-- It is a command's turn at its engine, which takes a step of each active command in turn, one a cycle (R125). -/
def CopyRun.turn (r : CopyRun) (s : State) : Bool :=
  let active := activeRuns s r.engine
  decide ((NMap.get? s.eng.pipes (enginePipe r.engine)).getD 0 ≤ s.clock.cycle) &&
    (active[s.clock.cycle % active.length]?).map (fun x => x.cmd.id) == some r.cmd.id

/-- A command's next line-sized step, in its turn (R125). -/
def CopyRun.advance (r : CopyRun) (s : State) : CopyRun × State :=
  if r.ended || !r.turn s then (r, s)
  else
    let (r', s') := CopyRun.lineStep CopyRun.lineFuel r s
    (r', if r' = r then s' else s'.onEng fun e => { e with pipes := NMap.set e.pipes (enginePipe r.engine) (s.clock.cycle + 1) })

/-- The die's engine with the fewest active commands, with room for one more (R125, R127). -/
def pickEngine (s : State) (die : Nat) : Option Nat :=
  let best := (List.range 12).foldl (fun (b : Nat) i =>
    if engineLoad s (12 * die + i) < engineLoad s b then 12 * die + i else b) (12 * die)
  if engineLoad s best < 8 then some best else none

/-- An operation of a core's copy queue is still running: the next one waits for it (R116, R127). -/
def copyBusy (s : State) (core : Nat) : Bool :=
  s.eng.copies.any fun r => r.cmd.core == core && r.cmd.cache.isNone && !r.finished

/-- A QFENCE mark stands at the head of every queue it entered, with nothing of those queues before it (R117). -/
def fenceReady (s : State) (core n : Nat) : Bool :=
  let q := s.queues core
  let head {α : Type} (l : List (QueueItem α)) : Bool :=
    match l with
    | .fence m :: _ => m == n
    | _ => false
  let has {α : Type} (l : List (QueueItem α)) : Bool := l.any fun x => match x with
    | .fence m => m == n
    | .op _ => false
  (!has q.copy || (head q.copy && !copyBusy s core)) &&
    (!has q.coll || (head q.coll && !(s.eng.colls.any fun c => c.core == core))) &&
    (!has q.path || head q.path) &&
    (match q.matFences.find? fun f => f.1 == n with
     | none => true
     | some (_, m) =>
       ((NMap.get? s.eng.mats (clusterOf core)).getD []).all fun o => o.core != core || decide (m ≤ o.id))

/-- Drops a QFENCE mark from every queue. -/
def dropFence (s : State) (core n : Nat) : State :=
  let q := s.queues core
  let cut {α : Type} (l : List (QueueItem α)) : List (QueueItem α) := l.filter fun x => match x with
    | .fence m => m != n
    | .op _ => true
  s.setQueues core { q with copy := cut q.copy, coll := cut q.coll, path := cut q.path
                            matFences := q.matFences.filter fun f => f.1 != n }

/-- Drops every QFENCE mark of a core whose queues have all come to it (R117). -/
def settleFences (s : State) (core : Nat) : State :=
  let q := s.queues core
  let marks := (q.copy.filterMap fun x => match x with | .fence n => some n | .op _ => none) ++
    (q.coll.filterMap fun x => match x with | .fence n => some n | .op _ => none) ++
    (q.path.filterMap fun x => match x with | .fence n => some n | .op _ => none) ++ q.matFences.map Prod.fst
  marks.foldl (fun s n => if fenceReady s core n then dropFence s core n else s) s

/-- The die whose engine takes a queue's next command: the core's own, a compute die's own for its control core, and for the I/O
die's the one whose engines hold the fewest active commands (R127). -/
def queueDie (s : State) (q : Nat) : Nat :=
  let load (d : Nat) : Nat := ((List.range 12).map fun i => engineLoad s (12 * d + i)).foldl (· + ·) 0
  if q < 384 then dieOf q
  else if q < 388 then q - 384
  else (List.range 4).foldl (fun b d => if load d < load b then d else b) 0

/-- COPY_DISPATCH of a core's queue or a control core's (R127): the command at its head goes to an engine once the queue's earlier
commands are complete. -/
def execCopyDispatch (q : Nat) (s : State) : Out :=
  let s := settleFences s q
  let cq := s.queues q
  .next <|
    match cq.copy with
    | .op c :: rest =>
      if copyBusy s q then s
      else
        match pickEngine s (queueDie s q) with
        | none => s
        | some e =>
          let s := s.setQueues q { cq with copy := rest }
          s.onEng fun x => { x with copies := x.copies ++ [CopyRun.begin s c e] }
    | _ => s

/-- COPY_COMPLETE (R125, R131-R142): the command takes its next line-sized step in its turn, as far as its pages and replies allow, and
completes once DTIME has passed the greatest GWCT of its writes. A team that waited for it alone ends (R137). -/
def execCopyComplete (n : Nat) (s : State) : Out :=
  .next <|
    match s.eng.copies.find? fun r => r.cmd.id == n && r.cmd.cache.isNone && !r.finished with
    | none => s
    | some r =>
      let (r, s) := r.advance s
      let s := setRun s r
      if r.ended && (r.gwct == 0 || decide (r.gwct < s.clock.dtime)) then
        endTeam (settleFences (finishCopy s r) r.cmd.core) r.cmd.team
      else s

end Sys2Proof.Machine
end

