-- ==== Sys2Proof/Machine/Async.lean ====
section
/-! DEFINITION. Copy, batch, barrier, queue and collective instructions (spec/15 R324-R347, spec/06 R128-R146). -/

namespace Sys2Proof.Machine

/-! ## Shared -/

/-- Pushes one value to every active lane 4 cycles after issue (R325). -/
def Cx.pushValue (c : Cx) (act : Mask) (x : W64) : Cx :=
  c.later (.cycle (c.s.clock.cycle + 4)) act [] [LaneReg.merge act (LaneReg.splat x) LaneReg.zero] none 0 0 none 0

/-- A descriptor or header read found poison: the word counts as issued and accepts nothing (R129, R299). -/
def Cx.poisoned (c : Cx) (us : Uses) (act : Mask) (lane addr : Nat) (pushes : Bool) (cause code : Nat) : State :=
  let c := c.pops us
  let c := if pushes then c.pushValue act 0 else c
  if c.g.info.accept && cause == causePoison then { c with s := countSubst c.s c.g 1 }.done
  else c.doneTrap ⟨cause, true, some (lanesMask [lane]), w64 addr, w64 code⟩

/-- What a held word needs to read: words of a descriptor or header, in its context (R129, R326, R397). -/
structure DescRead where
  us : Uses
  act : Mask
  lane : Nat
  pushes : Bool

/-- Words of 64 bits from bytes. -/
def wordsOfBytes (bs : List Byte) (n : Nat) : List W64 :=
  (List.range n).map fun i => w64 (leNat ((bs.drop (8 * i)).take 8))

/-- A global descriptor's sectors as a load of the group reads them, its own buffered bytes over them; an open FENCE.S makes
the load speculative (R70, R82, R106, R129). -/
def Cx.descSectors (c : Cx) (l : Leaf) (pa va n : Nat) : List Byte × Bool × Nat × Cx :=
  let read (r : List Byte × Bool × Nat × Cx) (i : Nat) : List Byte × Bool × Nat × Cx :=
    let (x, c) := r.2.2.2.loadSector l (pa + 32 * i)
    let c := if x.hit then c else { c with s := sampleLines c.s c.g.info.ctx (dieOf (coreOf c.k)) [(l, pa + 32 * i, va + 32 * i)] }
    let (d, m) := match c.g.region with
      | some rg => rg.overlay false (va + 32 * i) (physKey (some (l, pa + 32 * i))) x.data
      | none => (x.data, 0)
    let bad := x.poison && m != fullMask
    let where? := if r.2.1 then r.2.2.1 else if bad then va + 32 * i else 0
    let g := (c.g.raiseHorizon x.stamp).onRegion fun rg => rg.speculate [⟨pa / 32 + i, x.stamp, x.lease⟩]
    (r.1 ++ (List.range 32).map (Sector.byte d), r.2.1 || bad, where?, { c with g := g })
  (List.range (n / 32)).foldl read ([], false, 0, c)

/-- Reads `n` bytes of a descriptor or header in global memory as a load of the group, before the word issues (R129, R326,
R313): the word is held until it has them. -/
def Cx.readGlobal (c : Cx) (d : DescRead) (addr n align : Nat) (body : Cx → List W64 → State) : State :=
  let ls := [(d.lane, addr)]
  c.checkAddrs align true ls <|
    c.reading .read false ls fun c ok =>
      match ok with
      | [] => c.held .order
      | x :: _ =>
        if x.leaf.tgt = 0 then
          let secs := (List.range (n / 32)).map (x.pa / 32 + ·)
          c.budget 0 (c.newHolds secs) fun c =>
            let (bs, bad, at?, c) := c.descSectors x.leaf x.pa addr n
            if bad then c.poisoned d.us d.act d.lane at? d.pushes causePoison 0 else body c (wordsOfBytes bs (n / 8))
        else
          let (r, c) := c.farRead 32 x.leaf x.pa addr n
          match r with
          | .waiting => c.held .order
          | .failed code => c.poisoned d.us d.act d.lane (addr / 32 * 32) d.pushes causeRemote code
          | .got _ true => c.poisoned d.us d.act d.lane (addr / 32 * 32) d.pushes causePoison 0
          | .got bs false => body c (wordsOfBytes bs (n / 8))

/-- ILLEGAL with an address and a reason (R130). -/
def Cx.illegalAt (c : Cx) (addr info : Nat) : State := c.trap ⟨causeIllegal, false, none, w64 addr, w64 info⟩

/-- Reads a descriptor of 64 bytes in the team's scratchpad (R129, R130): range, busy and uninitialised words are illegal;
a region holds its granules. -/
def Cx.readScratch (c : Cx) (d : DescRead) (off : Nat) (body : Cx → List W64 → State) : State :=
  if off % 64 != 0 then c.laneTrap causeAlign [(d.lane, off)]
  else
    let sc := c.scratch.check [off / 32, off / 32 + 1]
    let range := decide (sc.size < off + 64)
    let busy := (List.range 2).any fun i => sc.isBusy (off / 32 + i)
    let own (i : Nat) (x : Sector) : Sector × Word32 := match c.g.region with
      | some r => r.overlay true (off + 32 * i) none x
      | none => (x, 0)
    let uninit := (wordsOf off 64).any fun w =>
      !sc.isInit w && (c.ownScratch (4 * w) &&& byteMask (4 * w % 32) 4) != byteMask (4 * w % 32) 4
    if range then c.illegalAt off 8
    else if busy then c.illegalAt off 9
    else if uninit then c.illegalAt off 10
    else
      let fresh := match c.g.region with
        | none => []
        | some r => ([0, 1] : List Nat).filter fun i => (r.held? true (off / 32 + i)).isNone
      let keys := holdKeys c.s (coreOf c.k)
      let c := { c with s := onScratch c.s c.g.info.team fun _ => sc }
      c.budget 0 (fresh.filter fun i => !keys.contains (some c.g.info.team, off / 32 + i)).length fun c =>
        let gran (i : Nat) : Sector × Bool :=
          let (x, p) := c.granule sc (off / 32 + i)
          let (y, m) := own i x
          (y, p && m != fullMask)
        let holds : List HeldSector := fresh.map fun i =>
          ⟨true, off / 32 + i, sc.sector (off / 32 + i), sc.poison.contains (off / 32 + i), 0, 0, false⟩
        let c := { c with g := c.g.onRegion fun r => if holds.isEmpty then r else { r.touch with holds := r.holds ++ holds } }
        match ([0, 1] : List Nat).find? fun i => (gran i).2 with
        | some i => c.poisoned d.us d.act d.lane (off + 32 * i) d.pushes causePoison 0
        | none =>
          body c (wordsOfBytes ((List.range 64).map fun i => Sector.byte (gran (i / 32)).1 (i % 32)) 8)

/-- Reads the descriptor of a command in the space its DDSP names (R128, R129). -/
def Cx.readDesc (c : Cx) (d : DescRead) (cmd addr : Nat) (body : Cx → List W64 → State) : State :=
  if cmd.testBit 19 then c.readScratch d addr body else c.readGlobal d addr 64 64 body

/-- The checks of R130 on a descriptor that has arrived, in table order; a field out of range is reason 0x4 (R347). -/
def Cx.checkDesc (c : Cx) (lane : Nat) (b : Box) (desc : List W64) (addr : Nat) (body : Cx → State) : State :=
  if b.malformed desc then c.illegalAt addr 4
  else
    match b.misaligned with
    | some a => c.laneTrap causeAlign [(lane, a)]
    | none =>
      match b.wild with
      | some a => c.laneTrap causeProt [(lane, a)]
      | none => body c

/-- A copy of the group that its region held has left the region and not yet entered the queue (R144). -/
def copyLeaving (s : State) (k : Nat) : Bool :=
  s.work.releases.any fun r => r.group == k && (match r.eff with
    | .copy _ => true
    | _ => false)

/-! ## COPY and COPYR -/

/-- The scratchpad granules that a region's copy reads at issue: the offset array and the source rows (R145). -/
def Cx.sourceGranules (c : Cx) (b : Box) : List Nat :=
  let sc := c.scratch
  if !b.ssp then []
  else if b.ragged then
    let arr := rowsGranules sc.size [(b.sps.toNat, 4 * (b.rows + 1))]
    let byte (a : Nat) : Byte := Sector.byte (c.granule sc (a / 32)).1 (a % 32)
    let off (i : Nat) : Nat := leNat ((List.range 4).map fun j => byte (b.sps.toNat + 4 * i + j))
    let rows := (List.range b.rows).map fun i =>
      ((b.src + w64 (off i * b.ss)).toNat, min (off (i + 1) - off i) b.width * b.ss)
    (rowsGranules sc.size rows).foldl insNat arr
  else rowsGranules sc.size (b.rowsOf true)

/-- Accepts a command: it joins the open batch, its granules become busy, and it enters the queue or is held by the region,
which keeps its bound on held sectors reserved (R88, R92, R137, R144, R145, R327). -/
def Cx.acceptCopy (c : Cx) (us : Uses) (cmd : W64) (desc : List W64) (ragged : Bool) : State :=
  let b := Box.of cmd.toNat desc ragged
  let c := c.pops us
  let (id, c) := c.fresh
  let inRegion := c.g.inRegion
  let grans := if inRegion && b.dsp then c.sourceGranules b else []
  let sc := c.scratch.check grans
  let snap := grans.map fun n => (n, c.granule sc n)
  let fresh := match c.g.region with
    | none => []
    | some r => grans.filter fun n => (r.held? true n).isNone
  let holds : List HeldSector := fresh.map fun n => ⟨true, n, sc.sector n, sc.poison.contains n, 0, 0, true⟩
  let cc : CopyCmd :=
    { id := id, group := c.k, grids := c.g.grids, team := c.g.info.team, ctx := c.g.info.ctx, core := coreOf c.k
      cmd := cmd, desc := desc, ragged := ragged, batch := c.g.batches.cur.num
      arriveHeld := inRegion && b.dsp && cmd.getLsbD 18, inRegion := inRegion, snap := snap, cache := none }
  let g := { c.g with batches := c.g.batches.join }
  let g := g.onRegion fun r =>
    let r := { r.touch with holds := r.holds ++ holds }
    let r := if b.dsp then { r with reserved := r.reserved + b.bound } else r
    if !b.dsp then { r with effects := r.effects ++ [.copy { cc with inRegion := false }] }
    else if cmd.getLsbD 18 then { r with effects := r.effects ++ [.copyArrive id] } else r
  let s := markBusy (if grans.isEmpty then c.s else onScratch c.s c.g.info.team fun _ => sc) cc true
  let s := if inRegion && !b.dsp then s else enqueueCopy s cc
  { c with s := s, g := g }.done

/-- COPY and COPYR (R327, R128-R130, R144, R145). -/
def copyWord (i : Instr) (ragged : Bool) (t : Tail) (g : Guard) (a b : Src) (s : State) : Out :=
  issue i Checks.none s fun c =>
    let act := c.guard g
    match act.lowest? with
    | none => (c.pops i.uses).done
    | some l =>
      let cmd := (c.opA t .int a).lane l
      let addr := ((c.opB t .int a b).lane l).toNat
      let n := cmd.toNat
      if !cmdLegal n false then c.raise causeIllegal 0
      else if n.testBit 18 && !(barrierOf c.s c.g.info.team (bitsOf n 17 14)).init then c.raise causeIllegal 3
      else
        c.readDesc ⟨i.uses, act, l, false⟩ n addr fun c desc =>
          let box := Box.of n desc ragged
          c.checkDesc l box desc addr fun c =>
            let held := c.g.inRegion && !box.dsp
            if c.g.inRegion && box.dsp && decide (4096 < box.bound) then c.raise causeIllregion 0
            else if !held && decide (64 ≤ (queueOps (c.s.queues (coreOf c.k)).copy).length) then c.held .full
            else if copyLeaving c.s c.k then c.held .order
            else if c.g.inRegion && box.dsp then c.budget 0 box.bound fun c => c.acceptCopy i.uses cmd desc ragged
            else c.acceptCopy i.uses cmd desc ragged

/-- COPY (R327). -/
def execCopy (t : Tail) (g : Guard) (a b : Src) (s : State) : Out := copyWord (.copy t g a b) false t g a b s

/-- COPYR (R327). -/
def execCopyr (t : Tail) (g : Guard) (a b : Src) (s : State) : Out := copyWord (.copyr t g a b) true t g a b s

/-! ## Batches -/

/-- A batch holds a copy that the region holds until COMMIT (R331). -/
def Region.holdsBatch (r : Region) (n : Nat) : Bool :=
  r.effects.any fun e => match e with
    | .copy c => c.batch == n
    | _ => false

/-- BATCH behind a held copy is illegal in a region (R331). -/
def batchChecks : Checks :=
  { Checks.none with illregion := fun c =>
      match c.g.region, c.g.batches.pending with
      | some r, b :: rest => decide (15 ≤ rest.length + 1) && r.holdsBatch b.num
      | _, _ => false }

/-- BATCH (R328, R137). -/
def execBatch (cb : Bool) (l : La) (s : State) : Out :=
  issue (.batch cb l) batchChecks s fun c =>
    if 15 ≤ c.g.batches.pending.length then c.held .full
    else
      let n := c.g.batches.cur.num
      ({ c with g := { c.g with batches := c.g.batches.close } }.pushValue c.act (w64 n)).done

/-- The batch number that WAITB asks for (R329). -/
def Cx.batchArg (c : Cx) (t : Tail) (a : Src) : Nat := (uniform c.act (c.opA t .int a)).toNat % 2 ^ 32

/-- WAITB on a batch with a held copy is illegal in a region (R331, R146). -/
def waitbChecks (t : Tail) (a : Src) : Checks :=
  { Checks.none with illregion := fun c =>
      match c.g.region with
      | some r => r.holdsBatch (c.batchArg t a)
      | none => false }

/-- WAITB (R329, R330). -/
def execWaitb (t : Tail) (l : La) (a : Src) (s : State) : Out :=
  let i := Instr.waitb t l a
  issue i (waitbChecks t a) s fun c =>
    let n := c.batchArg t a
    let last := c.g.batches.last
    let d := (last + 0xFFFFFFFF - n % 0xFFFFFFFF) % 0xFFFFFFFF
    if n = 0 then ((c.pops i.uses).pushValue c.act 0).done
    else if last = 0 ∨ 2 ^ 31 ≤ d then c.raise causeIllegal 1
    else
      match c.g.batches.ask n with
      | none => c.wait .waitb
      | some st => ((c.pops i.uses).pushValue c.act (st.setWidth 64)).done

/-! ## QFENCE -/

/-- QFENCE (R332, R117). -/
def execQfence (cb : Bool) (m : Four) (s : State) : Out :=
  issue (.qfence cb m) Checks.none s fun c =>
    let bit (n : Nat) : Bool := m.val.testBit n
    let heldCopies := match c.g.region with
      | some r => r.effects.any fun e => match e with
        | .copy _ => true
        | _ => false
      | none => false
    if bit 0 && heldCopies then c.commit .seam
    else if bit 0 && copyLeaving c.s c.k then c.held .order
    else
      let core := coreOf c.k
      let q := c.s.queues core
      let n := c.s.eng.nextFence
      let s := c.s.setQueues core
        { copy := if bit 0 then q.copy ++ [.fence n] else q.copy
          matFences := if bit 1 then q.matFences ++ [(n, c.s.eng.nextId)] else q.matFences
          coll := if bit 2 then q.coll ++ [.fence n] else q.coll
          path := if bit 3 then q.path ++ [.fence n] else q.path }
      { c with s := s.onEng fun e => { e with nextFence := n + 1 } }.done

/-! ## TILE -/

/-- TILE (R333, R136): the operand cache loses what it held of the handle (R120). -/
def execTile (t : Tail) (g : Guard) (l : La) (a : VReg) (b : Src) (s : State) : Out :=
  let i := Instr.tile t g l a b
  issue i { Checks.none with illregion := fun c => c.g.inRegion } s fun c =>
    let act := c.guard g
    match act.lowest? with
    | none => (c.pops i.uses).done
    | some ln =>
      let cmd := (c.rd.reg a.val).lane ln
      let addr := ((c.rd.reg (a.val + 1)).lane ln).toNat
      let h := ((c.opA t .int b).lane ln).toNat
      let n := cmd.toNat
      if !cmdLegal n true then c.raise causeIllegal 0
      else if 32 ≤ h then c.raise causeIllegal 4
      else
        c.readDesc ⟨i.uses, act, ln, true⟩ n addr fun c desc =>
          c.checkDesc ln (Box.of n desc (n.testBit 13)) desc addr fun c =>
            let old := ((c.s.team? c.g.info.team).map fun t => t.tiles.toArray.toList.getD h ⟨false, 0, [], 0⟩).getD ⟨false, 0, [], 0⟩
            let gen := (old.gen + 1) % 2 ^ 16
            let s := c.s.onTeam c.g.info.team fun t => { t with tiles := t.tiles.setIfInBounds h ⟨true, cmd, desc, gen⟩ }
            let s := s.onEng fun e => { e with oc := e.oc.filter fun x => !(x.team == c.g.info.team && x.handle == h) }
            (({ c with s := s }.pops i.uses).pushValue act (w64 gen)).done

/-! ## Barriers -/

/-- A copy or collective of a team that is not complete names a barrier, saved work included (R336). -/
def barrierNamed (s : State) (team core k : Nat) : Bool :=
  let names (c : CopyCmd) : Bool := c.team == team && c.cmd.getLsbD 18 && bitsOf c.cmd.toNat 17 14 == k
  let coll (c : CollRun) : Bool := c.team == team && c.bar.getLsbD 4 && c.bar.toNat % 16 == k
  let held (g : Group) : Bool := g.info.team == team && (match g.region with
    | some r => r.effects.any fun e => match e with
      | .copy c => names c
      | _ => false
    | none => false)
  (queueOps (s.queues core).copy).any names || (s.eng.copies.any fun r => names r.cmd && !r.finished) ||
    (queueOps (s.queues core).coll).any coll || s.eng.colls.any coll || (s.groupsOf core).any (fun e => held e.2) ||
    s.work.saved.any (fun x => x.copies.any names || x.colls.any coll || x.groups.any fun e => held e.2) ||
    s.work.releases.any fun r => match r.eff with
      | .copy c => names c
      | _ => false

/-- BAR.INIT is illegal in splits and in a region (R336). -/
def barInitChecks : Checks :=
  { Checks.none with illconv := fun c => c.g.inSplits, illregion := fun c => c.g.inRegion }

/-- BAR.INIT (R336). -/
def execBarInit (t : Tail) (a : Src) (k : Four) (s : State) : Out :=
  let i := Instr.barInit t a k
  issue i barInitChecks s fun c =>
    let n := (uniform c.act (c.opA t .int a)).toNat
    let team := c.g.info.team
    if 0 < (barrierOf c.s team k.val).cnt || barrierNamed c.s team (coreOf c.k) k.val then c.raise causeIllegal 2
    else if n = 0 ∨ 65535 < n then c.raise causeIllegal 4
    else
      let s := c.s.onTeam team fun t => { t with nb := t.nb.setIfInBounds k.val ⟨true, n, 0, 0, 0, 0⟩ }
      ({ c with s := s }.pops i.uses).done

/-- BAR.ARRIVE (R337, R113): counted at once when every access of the group is complete, else when they are; a region holds
it until COMMIT. -/
def execBarArrive (cb : Bool) (k : Four) (s : State) : Out :=
  issue (.barArrive cb k) { Checks.none with illconv := fun c => c.g.inSplits } s fun c =>
    let team := c.g.info.team
    if !(barrierOf c.s team k.val).init then c.raise causeIllegal 3
    else if c.g.inRegion then
      { c with g := c.g.onRegion fun r => { r.touch with effects := r.effects ++ [Effect.arrive k.val] } }.done
    else
      let g := c.g.settle c.s
      let c := { c with g := g }
      if g.out.isEmpty && (logOf c.s c.k g).isEmpty then
        let s := c.done
        { countArrival s team c.k k.val with last := .issued }
      else { c with s := c.s.addRelease (releaseOf g c.k (Effect.arrive k.val)) }.done

/-- An arrival of the group at a barrier that is not yet counted (R337). -/
def arrivalOut (s : State) (k bar : Nat) : Bool :=
  s.work.releases.any fun r => r.group == k && (match r.eff with
    | .arrive b => b == bar
    | _ => false)

/-- Barriers that a region's held effects name: BAR.WAIT on one is illegal (R338, R146). -/
def Cx.barrierHeld (c : Cx) (k : Nat) : Bool :=
  match c.g.region with
  | none => false
  | some r =>
    let names (x : CopyCmd) : Bool := x.cmd.getLsbD 18 && bitsOf x.cmd.toNat 17 14 == k
    let cmds := queueOps (c.s.queues (coreOf c.k)).copy ++ c.s.eng.copies.map CopyRun.cmd
    r.effects.any fun e => match e with
      | .arrive b => b == k
      | .copy x => names x
      | .copyArrive id => cmds.any fun x => x.id == id && names x
      | _ => false

/-- The target on which a replay's next BAR.WAIT waited in the run before it: the same wait is made again (R192, R338). -/
def Cx.waitedFor (c : Cx) (k : Nat) : Option Nat :=
  match c.g.region with
  | none => none
  | some r =>
    match r.waits[r.waitNo]? with
    | some (b, t) => if b = k then some t else none
    | none => none

/-- The target that BAR.WAIT of this split waits on (R338): none while an arrival is not yet counted. -/
def Cx.barTarget (c : Cx) (k : Nat) : Option Nat :=
  match c.sp.waitTarget with
  | some (b, t) => if b = k then some t else none
  | none =>
    if (c.waitedFor k).isSome then c.waitedFor k
    else if arrivalOut c.s c.k k then none
    else some ((c.g.targets.toArray.toList.getD k none).getD (barrierOf c.s c.g.info.team k).phase)

/-- The phase of a target has completed (R338). -/
def phaseOver (b : Barrier) (t : Nat) : Bool :=
  let d := (b.phase + 2 ^ 32 - t) % 2 ^ 32
  decide (1 ≤ d ∧ d ≤ 2 ^ 31)

/-- BAR.WAIT (R338). -/
def execBarWait (cb : Bool) (l : La) (k : Four) (s : State) : Out :=
  issue (.barWait cb l k) { Checks.none with illregion := fun c => c.barrierHeld k.val } s fun c =>
    let b := barrierOf c.s c.g.info.team k.val
    if !b.init then c.raise causeIllegal 3
    else
      match c.barTarget k.val with
      | none => c.wait .barWait
      | some t =>
        if phaseOver b t then
          let c := if (c.waitedFor k.val).isSome then c
            else { c with g := { c.g with targets := c.g.targets.setIfInBounds k.val none } }
          let c := { c with g := c.g.onRegion fun r =>
            { r with waits := r.waits.take r.waitNo ++ [(k.val, t)] ++ r.waits.drop (r.waitNo + 1), waitNo := r.waitNo + 1 } }
          (c.pushValue c.act (w64 (b.last.toNat * 2 ^ 32 + t))).done
        else { c with sp := { c.sp with waitTarget := some (k.val, t) } }.wait .barWait

/-- BAR.TEST (R339). -/
def execBarTest (cb : Bool) (l : La) (k : Four) (s : State) : Out :=
  issue (.barTest cb l k) Checks.none s fun c =>
    let b := barrierOf c.s c.g.info.team k.val
    if !b.init then c.raise causeIllegal 3
    else
      let ready := match c.barTarget k.val with
        | some t => phaseOver b t
        | none => false
      (c.pushValue c.act (w64 (b2n ready * 2 ^ 63 + b.last.toNat * 2 ^ 32 + b.cnt % 2 ^ 16 * 2 ^ 16 + b.phase % 2 ^ 16))).done

/-! ## QSTAT -/

/-- Reservation entries held by a core's groups: a word that a control core performs has none (R156, R264, R340). -/
def matEntries (s : State) (core : Nat) : List MatOp :=
  ((NMap.get? s.eng.mats (clusterOf core)).getD []).filter fun m => m.core == core && !emulated m.ins

/-- The status word of a selector (R340). -/
def Cx.qstat (c : Cx) (q : QSel) : Nat :=
  let core := coreOf c.k
  match q with
  | .cpq => (queueOps (c.s.queues core).copy).length
  | .mxq => (matEntries c.s core).length
  | .clq => (queueOps (c.s.queues core).coll).length
  | .ptq => (queueOps (c.s.queues core).path).length
  | .kq => (([0, 1, 2, 3] : List Nat).map fun n => (c.kqueue n).length * 16 ^ n).foldl (· + ·) 0
  | .bat => b2n c.g.batches.cur.any * 2 ^ 36 + c.g.batches.pending.length * 2 ^ 32 + c.g.batches.last

/-- QSTAT (R340). -/
def execQstat (cb : Bool) (l : La) (q : QSel) (s : State) : Out :=
  issue (.qstat cb l q) Checks.none s fun c => (c.pushValue c.act (w64 (c.qstat q))).done

/-! ## COLL -/

/-- Element size of a collective's TYPE (R341). -/
def collSize (ty : Nat) : Nat := if ty = 0 ∨ ty = 4 ∨ ty = 6 then 8 else if ty = 2 then 2 else 4

/-- The fields of a collective's descriptor (R341). -/
def CollDesc.of (d : List W64) : CollDesc :=
  let w (i : Nat) : Nat := (d.getD i 0).toNat
  { staddr := w 7, timeout := bitsOf (w 6) 63 32, set := bitsOf (w 6) 31 24, root := bitsOf (w 6) 23 16
    op := bitsOf (w 6) 15 8, red := bitsOf (w 6) 7 0, ty := bitsOf (w 5) 63 56, count := w 4, dst := w 1, src := w 0 }

/-- The address of a member set's descriptor (R480). -/
def setAddr (s : State) (n : Nat) : Nat := s.pkg.peers.coltab * 2 ^ 16 + 256 * n

/-- A set's descriptor: configured, member count and this package's index (R480). -/
def setInfo (s : State) (n : Nat) : Bool × Nat × Nat :=
  let a := setAddr s n
  (physNat s a 1 % 2 == 1, physNat s (a + 1) 1, physNat s (a + 2) 1)

/-- The PEERNO of a member (R480). -/
def memberOf (s : State) (set j : Nat) : Nat := physNat s (setAddr s set + 16 + 2 * j) 2 % 1024

/-- A field of a collective's descriptor is illegal (R341). -/
def collIllegal (s : State) (d : List W64) : Bool :=
  let x := CollDesc.of d
  let (valid, m, _) := setInfo s x.set
  let float := decide (x.ty ≤ 2)
  decide (3 < x.op) || (if x.op ≤ 1 then decide (5 < x.red) else x.red != 0) || (x.op != 3 && x.root != 0) ||
    decide (6 < x.ty) || bitsOf (d.getD 5 0).toNat 55 0 != 0 || (d.getD 3 0) != 0 || (d.getD 2 0) != 0 ||
    x.count == 0 || decide (2 ^ 32 < x.count) || !valid || (x.op == 3 && decide (m ≤ x.root)) ||
    (decide (x.op ≤ 1) && decide (3 ≤ x.red) && float)

/-- The first misaligned address of a collective (R341). -/
def CollDesc.misaligned (x : CollDesc) : Option Nat :=
  if x.src % collSize x.ty != 0 then some x.src
  else if x.dst % collSize x.ty != 0 then some x.dst
  else if x.staddr % 16 != 0 then some x.staddr else none

/-- The first address of a collective outside 48 bits (R341). -/
def CollDesc.wild (x : CollDesc) : Option Nat := ([x.src, x.dst, x.staddr].filter wildAddr).head?

/-- COLL (R341, R342). -/
def execColl (t : Tail) (g : Guard) (a b : Src) (s : State) : Out :=
  let i := Instr.coll t g a b
  issue i { Checks.none with illregion := fun c => c.g.inRegion } s fun c =>
    let act := c.guard g
    match act.lowest? with
    | none => (c.pops i.uses).done
    | some l =>
      let addr := ((c.opA t .int a).lane l).toNat
      let bar := (c.opB t .int a b).lane l
      if bar.getLsbD 4 && !(barrierOf c.s c.g.info.team (bar.toNat % 16)).init then c.raise causeIllegal 3
      else if bitsOf bar.toNat 63 5 != 0 then c.raise causeIllegal 4
      else
        c.readGlobal ⟨i.uses, act, l, false⟩ addr 64 64 fun c d =>
          let x := CollDesc.of d
          if collIllegal c.s d then c.raise causeIllegal 4
          else
            match x.misaligned, x.wild with
            | some e, _ => c.laneTrap causeAlign [(l, e)]
            | none, some e => c.laneTrap causeProt [(l, e)]
            | none, none =>
              let core := coreOf c.k
              let q := c.s.queues core
              if 8 ≤ (queueOps q.coll).length then c.held .full
              else
                let (id, c) := (c.pops i.uses).fresh
                let seq := (NMap.get? c.s.eng.collSeq x.set).getD 0
                let (_, m, self) := setInfo c.s x.set
                let r : CollRun :=
                  { id := id, group := c.k, grids := c.g.grids, team := c.g.info.team, ctx := c.g.info.ctx, core := core
                    batch := c.g.batches.cur.num, bar := bar, desc := x, seq := seq, engine := none
                    start := c.s.clock.dtime, m := m, self := self, got := [], lost := [], parked := none, gwct := 0
                    mine := [], pois := false, wrote := 0, req := none, status := 0, torn := false }
                let s := c.s.setQueues core { q with coll := q.coll ++ [.op r] }
                let s := s.onEng fun e => { e with collSeq := NMap.set e.collSeq x.set (seq + 1) }
                { c with s := s, g := { c.g with batches := c.g.batches.join } }.done

end Sys2Proof.Machine
end

