-- ==== Sys2Proof/Machine/Transcend.lean ====
section
/-! DEFINITION. The special functions of R251-R254: exact results and special operands by rule, and for every other
operand a result within the bound of R174 or R254 that a free value picks (LOG 1). The approximations that decide whether
a result is within the bound carry more than a hundred bits beyond the format. -/

namespace Sys2Proof.Machine

/-- π × 2^1400, rounded down. -/
def piFix : Nat := 0x3243F6A8885A308D313198A2E03707344A4093822299F31D0082EFA98EC4E6C89452821E638D01377BE5466CF34E90C6CC0AC29B7C97C50DD3F84D5B5B54709179216D5D98979FB1BD1310BA698DFB5AC2FFD72DBD01ADFB7B8E1AFED6A267E96BA7C9045F12C7F9924A19947B3916CF70801F2E2858EFC16636920D871574E69A458FEA3F4933D7E0D95748F728EB658718BCD5882154AEE7B54A41DC25A59B59C30D5392AF26013C5D1B023286085

/-- ln 2 × 2^320, rounded down. -/
def ln2Fix : Nat := 0xB17217F7D1CF79ABC9E3B39803F2F6AF40F343267298B62D8A0D175B8BAAFA2BE7B876206DEBAC98

/-- Fraction bits of the fixed-point series. -/
def fixBits : Nat := 256

/-- One in fixed point. -/
def fixOne : Nat := 2 ^ fixBits

/-- A product in fixed point. -/
def fixMul (a b : Nat) : Nat := a * b / fixOne

/-- The sum of t^k / k! over the terms that fit. -/
def expSeries (t : Nat) : Nat :=
  ((List.range 80).foldl (fun (st : Nat × Nat) k => (st.1 + st.2, fixMul st.2 t / (k + 1))) (0, fixOne)).1

/-- The alternating sum of r^(2k+d) / (2k+d)! with d = 1 for the sine and 0 for the cosine. -/
def trigSeries (r d : Nat) : Int :=
  let sq := fixMul r r
  ((List.range 45).foldl (fun (st : Int × Nat) k =>
    let t : Int := st.2
    (if k % 2 = 0 then st.1 + t else st.1 - t, fixMul st.2 sq / ((2 * k + d + 1) * (2 * k + d + 2))))
    ((0 : Int), if d = 1 then r else fixOne)).1

/-- Fraction bits of the logarithm of a number in [1, 2) held with 320 fraction bits, by repeated squaring. -/
def logBits : Nat → Nat → Nat → Nat
  | 0, _, acc => acc
  | n + 1, y, acc =>
    let z := y * y / 2 ^ 320
    if 2 ^ 321 ≤ z then logBits n (z / 2) (2 * acc + 1) else logBits n z (2 * acc)

/-- A magnitude in fixed point, rounded down. -/
def toFix (m : Nat) (e : Int) : Nat := if 0 ≤ e + fixBits then m * 2 ^ (e + fixBits).toNat else m / 2 ^ (-(e + fixBits)).toNat

/-- |y − a| ≤ bound, exactly. -/
def nearTo (y a bound : Dy) : Bool :=
  let d := y.add a.neg
  (Dy.mk d.m.natAbs d.e).cmp bound != .gt

/-- `b` units in the last place of a value (R173). -/
def Fmt.ulps (f : Fmt) (a : Dy) (b : Nat) : Dy :=
  ⟨b, (if a.m = 0 then f.emin else max ((Nat.log2 a.m.natAbs : Int) + a.e) f.emin) - f.p + 1⟩

/-- The result for an operand whose exact result is near `a`: a free value when it lies within the bound and in the
function's range, else `a` rounded (R174, R175; LOG 1). -/
def Fmt.free (f : Fmt) (op x : Nat) (a bound : Dy) (ok : FVal → Bool) : Nat :=
  let c := Config.transcendental (op * 2 + b2f f) (BitVec.ofNat 64 x) % 2 ^ f.bits
  match f.value c with
  | .fin s m e => if ok (.fin s m e) && nearTo (FVal.fin s m e).dy a bound then c else plain
  | _ => plain
where
  /-- The width as a digit of the choice. -/
  b2f (f : Fmt) : Nat := if f = .f64 then 0 else 1
  /-- The approximation rounded to nearest. -/
  plain : Nat := if a.m = 0 then 0 else (f.roundFin .rn false (decide (a.m < 0)) a.m.natAbs a.e false).1

/-- NX, and UF for a result below the smallest normal (R174, R253). -/
def Fmt.inexactFlags (f : Fmt) (y : Nat) : FFlags :=
  match f.value y with
  | .fin _ m e => flagNx ||| flagIf (dyLt m e 1 f.emin) flagUf
  | _ => flagNx

/-- A magnitude of at most 1 (R253). -/
def atMostOne : FVal → Bool
  | .fin _ m e => !dyLt 1 0 m e
  | _ => false

/-- Not negative, no −0 (R253). -/
def notNegative : FVal → Bool
  | .fin s _ _ => !s
  | _ => false

/-- FEXP2 (R253). -/
def Fmt.exp2 (f : Fmt) (a : Nat) : FRes :=
  let v := f.value a
  (f.firstNan [v]).getD <|
    match v with
    | .inf s => (if s then 0 else f.infBits, 0)
    | .fin s m e =>
      let one := f.bias.toNat * 2 ^ f.frac
      if m = 0 then (one, 0)
      else if 12 ≤ (Nat.log2 m : Int) + e then
        if s then
          let y := f.free 0 a ⟨1, -4096⟩ (f.ulps Dy.zero 1) notNegative
          (y, f.inexactFlags y)
        else (f.infBits, flagOf ||| flagNx)
      else
        let whole := decide (0 ≤ e) || m % 2 ^ (-e).toNat == 0
        let mag := toFix m e
        let x : Int := if s then -(mag : Int) - (if whole || m * fixOne % 2 ^ (-e).toNat == 0 then 0 else 1) else mag
        let n := x / (fixOne : Int)
        let fr := (x % (fixOne : Int)).toNat
        if f.bias < n then (f.infBits, flagOf ||| flagNx)
        else if whole && decide (f.emin - f.p + 1 ≤ n) then ((f.roundFin .rn false false 1 n false).1, 0)
        else
          let t : Dy := ⟨expSeries (fr * ln2Fix / 2 ^ 320), n - fixBits⟩
          let y := f.free 0 a t (f.ulps t 1) notNegative
          (y, f.inexactFlags y)
    | _ => f.invalid

/-- FLOG2 (R253): between the logarithms of the powers of two around the operand. -/
def Fmt.log2 (f : Fmt) (a : Nat) : FRes :=
  let v := f.value a
  (f.firstNan [v]).getD <|
    match v with
    | .inf s => if s then f.invalid else (f.infBits, 0)
    | .fin s m e =>
      if m = 0 then (f.signed true f.infBits, flagDz)
      else if s then f.invalid
      else
        let n : Int := (Nat.log2 m : Int) + e
        if m = 2 ^ Nat.log2 m then f.ofInt .rn n
        else
          let fr := logBits 160 (m * 2 ^ 320 / 2 ^ Nat.log2 m) 0
          let t : Dy := ⟨n * 2 ^ 160 + fr, -160⟩
          let within (y : FVal) : Bool := y.dy.cmp ⟨n, 0⟩ != .lt && y.dy.cmp ⟨n + 1, 0⟩ != .gt
          let y := f.free 1 a t (f.ulps t 1) within
          (y, flagNx)
    | _ => f.invalid

/-- The quarter turns in a magnitude and what is left of it in fixed point. -/
def reduceArg (m : Nat) (e : Int) : Nat × Nat :=
  let x := m * 2 ^ (e + 1401).toNat
  (x / piFix, x % piFix / 2 ^ (1401 - fixBits))

/-- Sine of a magnitude (`cosine` asks for its cosine) as an exact number near it, on its side of every power of two. -/
def sinCosNear (m : Nat) (e : Int) (cosine : Bool) : Dy :=
  if !cosine && decide ((Nat.log2 m : Int) + e < -30) then
    let sq := toFix (m * m) (2 * e)
    ⟨(m : Int) * ((fixOne - max 1 (sq / 6) + fixMul sq sq / 120 : Nat) : Int), e - fixBits⟩
  else
    let (k, r) := reduceArg m e
    let q := (k + (if cosine then 1 else 0)) % 4
    let v := if q % 2 = 0 then trigSeries r 1 else min (trigSeries r 0) (fixOne - 1)
    ⟨if 2 ≤ q then -v else v, -(fixBits : Int)⟩

/-- The bound of FSIN and FCOS at a magnitude (R174, R254). -/
def Fmt.trigBound (f : Fmt) (m : Nat) (e : Int) (t : Dy) : Dy :=
  let inside (k : Nat) : Bool := !dyLt (piFix * 2 ^ k) (-1400) m e
  if f = .f32 then (if inside 20 then f.ulps t 1 else ⟨1, -22⟩)
  else if inside 40 then f.ulps t 2
  else if !dyLt (2 ^ 200) 0 m e then ⟨1, -50⟩
  else ⟨1, -30⟩

/-- FSIN (R253, R254). -/
def Fmt.sin (f : Fmt) (a : Nat) : FRes :=
  let v := f.value a
  (f.firstNan [v]).getD <|
    match v with
    | .fin s m e =>
      if m = 0 then (f.zero s, 0)
      else
        let t0 := sinCosNear m e false
        let t := if s then t0.neg else t0
        let y := f.free 2 a t (f.trigBound m e t) atMostOne
        (y, f.inexactFlags y)
    | _ => f.invalid

/-- FCOS (R253, R254). -/
def Fmt.cos (f : Fmt) (a : Nat) : FRes :=
  let v := f.value a
  (f.firstNan [v]).getD <|
    match v with
    | .fin _ m e =>
      if m = 0 then (f.bias.toNat * 2 ^ f.frac, 0)
      else
        let t := sinCosNear m e true
        let y := f.free 3 a t (f.trigBound m e t) atMostOne
        (y, f.inexactFlags y)
    | _ => f.invalid

/-- The hyperbolic tangent of a magnitude as an exact number near it, on its side of every power of two. -/
def tanhNear (m : Nat) (e : Int) : Dy :=
  let x : Int := (Nat.log2 m : Int) + e
  if x < -30 then
    let sq := toFix (m * m) (2 * e)
    ⟨(m : Int) * ((fixOne - max 1 (sq / 3) + 2 * fixMul sq sq / 15 : Nat) : Int), e - fixBits⟩
  else if 6 ≤ x then ⟨2 ^ 180 - 1, -180⟩
  else
    let t := toFix m (e + 1)
    let ln2 := ln2Fix / 2 ^ 64
    let g := expSeries (t % ln2) * 2 ^ (t / ln2)
    ⟨((g - fixOne) * fixOne / (g + fixOne) : Nat), -(fixBits : Int)⟩

/-- FTANH (R253). -/
def Fmt.tanh (f : Fmt) (a : Nat) : FRes :=
  let v := f.value a
  (f.firstNan [v]).getD <|
    match v with
    | .inf s => (f.signed s (f.bias.toNat * 2 ^ f.frac), 0)
    | .fin s m e =>
      if m = 0 then (f.zero s, 0)
      else
        let t0 := tanhNear m e
        let t := if s then t0.neg else t0
        let y := f.free 4 a t (f.ulps t (if f = .f32 then 1 else 2)) atMostOne
        (y, f.inexactFlags y)
    | _ => f.invalid

/-- FRSQ in .f64: within one unit in the last place, NX unless exact (R174, R252). -/
def rsq64 (a : Nat) : FRes :=
  let f := Fmt.f64
  let v := f.value a
  match v with
  | .fin false m e =>
    if m = 0 then f.rsq .rn a
    else
      let (r, x, st) := rsqOf m e
      let t : Dy := ⟨r, x⟩
      let y := f.free 5 a t (f.ulps t 1) notNegative
      (y, flagIf (st || (f.value y).dy.cmp t != .eq) flagNx)
  | _ => f.rsq .rn a

end Sys2Proof.Machine
end

