-- ==== Sys2Proof/Machine/FloatOps.lean ====
section
/-! DEFINITION. Floating-point and special-function instructions (spec/11 R237-R256). -/

namespace Sys2Proof.Machine

/-- The format of W (R237). -/
def FWidth.fmt : FWidth → Fmt
  | .f64 => .f64
  | .f32 => .f32

/-- How a literal becomes an operand of a format (R206). -/
def FWidth.lit : FWidth → LitTy
  | .f64 => .f64
  | .f32 => .f32

/-- A lane's operand bits at a format's width (R154). -/
def opBits (f : Fmt) (x : W64) : Nat := x.toNat % 2 ^ f.bits

/-- A result of a vector pipe with flags: written, pushed, and its flags raised with the trap they may take (R168, R169,
R237). -/
def flagWord (i : Instr) (g : Guard) (d : Dst) (s : State) (f : Cx → Mask → Nat → W64 × FFlags) : Out :=
  issue i Checks.none s fun c =>
    let act := c.guard g
    let r (l : Nat) := f c act l
    ((c.pops i.uses).write d act (LaneReg.ofFn fun l => (r l).1)).doneFlags (fun l => (r l).2) act

/-- The vector pipe that a core's score for a word counts on: pipe 0 (R461; LOG 3). -/
def vPipe (c : Cx) : Nat := 2 * coreOf c.k

/-- A result of a vector pipe that carries the residue check in .f64 (R239). -/
def fpWord (i : Instr) (w : FWidth) (g : Guard) (d : Dst) (s : State) (f : Cx → Mask → Nat → FRes) : Out :=
  issue i Checks.none s fun c =>
    let body (c : Cx) : State :=
      let act := c.guard g
      let r (l : Nat) := f c act l
      ((c.pops i.uses).write d act (LaneReg.ofFn fun l => w64 (r l).1)).doneFlags (fun l => (r l).2) act
    if w = .f64 then c.residueChecked 0 (vPipe c) body else body c

/-- A two-operand floating-point word (R237, R240). -/
def fpWord2 (i : Instr) (w : FWidth) (t : Tail) (g : Guard) (d : Dst) (a b : Src) (s : State)
    (f : Fmt → Nat → Nat → FRes) : Out :=
  fpWord i w g d s fun c _ l =>
    f (FWidth.fmt w) (opBits (FWidth.fmt w) ((c.opA t (FWidth.lit w) a).lane l))
      (opBits (FWidth.fmt w) ((c.opB t (FWidth.lit w) a b).lane l))

/-- A fused multiply-add (R241). -/
def fmaWord (i : Instr) (k : Fused) (t : Tail) (d : Dst) (a b : Src) (q : Cq) (r : Rnd) (w : FWidth) (s : State) : Out :=
  fpWord i w .always d s fun c _ l =>
    let f := FWidth.fmt w
    f.fma k r (opBits f ((c.opA t (FWidth.lit w) a).lane l)) (opBits f ((c.opB t (FWidth.lit w) a b).lane l))
      (opBits f ((c.g.aged q.val).lane l))

/-- A word without residue that reads two operands (R242, R249). -/
def plainFp2 (i : Instr) (w : FWidth) (t : Tail) (g : Guard) (d : Dst) (a b : Src) (s : State)
    (f : Fmt → Nat → Nat → FRes) : Out :=
  flagWord i g d s fun c _ l =>
    let r := f (FWidth.fmt w) (opBits (FWidth.fmt w) ((c.opA t (FWidth.lit w) a).lane l))
      (opBits (FWidth.fmt w) ((c.opB t (FWidth.lit w) a b).lane l))
    (w64 r.1, r.2)

/-- A word without residue that reads one operand (R246, R249). -/
def plainFp1 (i : Instr) (w : FWidth) (t : Tail) (g : Guard) (d : Dst) (a : Src) (s : State) (f : Fmt → Nat → FRes) : Out :=
  flagWord i g d s fun c _ l =>
    let r := f (FWidth.fmt w) (opBits (FWidth.fmt w) ((c.opA t (FWidth.lit w) a).lane l))
    (w64 r.1, r.2)

/-- Float formats by the 2-bit codes of FCVT (R244). -/
def cvtFloat (n : Nat) : Fmt := [Fmt.f64, .f32, .f16, .bf16].getD (n % 4) .f64

/-- FP8 formats by the 1-bit code of FCVT (R244). -/
def cvtFp8 (n : Nat) : Fmt := if n % 2 = 0 then .e4m3 else .e5m2

/-- Integer types by the 2-bit codes of FCVT: signed and width (R244). -/
def cvtInt (n : Nat) : Bool × Nat := [(true, 32), (true, 64), (false, 32), (false, 64)].getD (n % 4) (true, 32)

/-- FCVT on one lane (R244, R245). -/
def convertLane (f : Nat) (mode : Rnd) (sat : Bool) (x : W64) : W64 × FFlags :=
  if f < 0x10 then
    let src := cvtFloat (f / 4)
    let dst := cvtFloat f
    let r := if src = dst then src.integral mode (opBits src x) else dst.convert mode false (src.value (opBits src x))
    (w64 r.1, r.2)
  else if f < 0x18 then
    let src := cvtFloat (f / 2)
    let r := (cvtFp8 f).convert mode sat (src.value (opBits src x))
    (w64 r.1, r.2)
  else if f < 0x20 then
    let r := (cvtFloat (f / 2)).convert mode false ((cvtFp8 f).value (opBits .e4m3 x))
    (w64 r.1, r.2)
  else if f < 0x30 then
    let src := cvtFloat (f / 4)
    let (sg, w) := cvtInt f
    let r := toInt (src.value (opBits src x)) mode sg w
    (if sg then BitVec.ofInt 64 (signedOf w r.1) else w64 r.1, r.2)
  else
    let (sg, w) := cvtInt (f / 4)
    let r := (cvtFloat f).ofInt mode (if sg then signedOf w x.toNat else (x.toNat % 2 ^ w : Nat))
    (w64 r.1, r.2)

/-- The literal type of a conversion's source (R206, R244). -/
def cvtLit (f : Nat) : LitTy :=
  if f < 0x10 then [LitTy.f64, .f32, .h16, .h16].getD (f / 4 % 4) .f64
  else if f < 0x18 then [LitTy.f64, .f32, .h16, .h16].getD (f / 2 % 4) .f64
  else if f < 0x20 then .b8
  else if f < 0x30 then [LitTy.f64, .f32, .h16, .h16].getD (f / 4 % 4) .f64
  else .int

/-- Cycles from issue to delivery of the special-function pipe (R238, R254). -/
def sfDelay (base32 base64 : Nat) (w : FWidth) (far : Bool) : Nat :=
  (if w = .f64 then base64 else base32) + if far then 48 else 0

/-- A special-function word: its result waits for delivery, when its flags rise and a trap they enable is taken (R168,
R169, R208, R238, R251). -/
def sfWord (i : Instr) (w : FWidth) (d : Dst) (s : State) (delay : Nat) (f : Cx → Mask → Nat → FRes) : Out :=
  issue i Checks.none s fun c =>
    let body (c : Cx) : State :=
      let act := c.act
      let r (l : Nat) : FRes := if act.has l then f c act l else (0, 0)
      let x := LaneReg.ofFn fun l => w64 (r l).1
      let fl := act.lanes.foldl (fun (a : FFlags) l => a ||| (r l).2) 0
      let en := c.g.info.fpen
      let who := Mask.ofFn fun l => act.has l && ((r l).2 &&& en) != 0
      let c := c.pops i.uses
      let regs := match d with
        | .v n => [n.val]
        | _ => []
      let (kq, c) := match d with
        | .k q => let (id, c) := c.kpush q.val LaneReg.zero false; (some (q.val, id), c)
        | _ => (none, c)
      (c.later (.cycle (c.s.clock.cycle + delay)) act regs [x] kq fl who none 0).done
    if w = .f64 then c.residueChecked 1 (coreOf c.k) body else body c

/-- A special-function word of one operand. -/
def sfWord1 (i : Instr) (w : FWidth) (t : Tail) (d : Dst) (a : Src) (s : State) (delay : Nat) (f : Fmt → Nat → FRes) : Out :=
  sfWord i w d s delay fun c _ l => f (FWidth.fmt w) (opBits (FWidth.fmt w) ((c.opA t (FWidth.lit w) a).lane l))

/-- Elements of a packed operand (R154, R250, R258). -/
def element (w : Nat) (x : W64) (i : Nat) : Nat := bitsOf x.toNat (w * i + w - 1) (w * i)

/-- A packed value of elements (R154). -/
def pack (w n : Nat) (f : Nat → Nat) : Nat := (List.range n).foldl (fun acc i => acc + f i % 2 ^ w * 2 ^ (w * i)) 0

/-- Element by element over a packed format (R250, R258). -/
def packedOp (f : Fmt) (x y z : W64) (op : Nat → Nat → Nat → FRes) : W64 × FFlags :=
  let n := 64 / f.bits
  let r (i : Nat) := op (element f.bits x i) (element f.bits y i) (element f.bits z i)
  (w64 (pack f.bits n fun i => (r i).1), (List.range n).foldl (fun (a : FFlags) i => a ||| (r i).2) 0)

/-- A packed word; `old` gives the destination's old contents where the form reads them (R250, R258). -/
def packedWord (i : Instr) (f : Fmt) (lit : LitTy) (t : Tail) (g : Guard) (d : Dst) (old : Option Nat) (a b : Src)
    (s : State) (op : Nat → Nat → Nat → FRes) : Out :=
  flagWord i g d s fun c _ l =>
    let z : W64 := match old with
      | some n => (c.rd.reg n).lane l
      | none => 0
    packedOp f ((c.opA t lit a).lane l) ((c.opB t lit a b).lane l) z op


/-- FADD (R240). -/
def execFadd (t : Tail) (g : Guard) (d : Dst) (a b : Src) (r : Rnd) (w : FWidth) (s : State) : Out :=
  fpWord2 (.fadd t g d a b r w) w t g d a b s fun f x y => f.add r x y

/-- FSUB (R240). -/
def execFsub (t : Tail) (d : Dst) (a b : Src) (r : Rnd) (w : FWidth) (s : State) : Out :=
  fpWord2 (.fsub t d a b r w) w t .always d a b s fun f x y => f.sub r x y

/-- FMUL (R240). -/
def execFmul (t : Tail) (g : Guard) (d : Dst) (a b : Src) (r : Rnd) (w : FWidth) (s : State) : Out :=
  fpWord2 (.fmul t g d a b r w) w t g d a b s fun f x y => f.mul r x y

/-- FFMA (R241): p + c. -/
def execFfma (t : Tail) (d : Dst) (a b : Src) (q : Cq) (r : Rnd) (w : FWidth) (s : State) : Out :=
  fmaWord (.ffma t d a b q r w) .pc t d a b q r w s

/-- FFMS (R241): p − c. -/
def execFfms (t : Tail) (d : Dst) (a b : Src) (q : Cq) (r : Rnd) (w : FWidth) (s : State) : Out :=
  fmaWord (.ffms t d a b q r w) .pmc t d a b q r w s

/-- FNMA (R241): c − p. -/
def execFnma (t : Tail) (d : Dst) (a b : Src) (q : Cq) (r : Rnd) (w : FWidth) (s : State) : Out :=
  fmaWord (.fnma t d a b q r w) .cmp t d a b q r w s

/-- FMIN (R242). -/
def execFmin (t : Tail) (g : Guard) (d : Dst) (a b : Src) (w : FWidth) (s : State) : Out :=
  plainFp2 (.fmin t g d a b w) w t g d a b s fun f x y => f.minMax false x y

/-- FMAX (R242). -/
def execFmax (t : Tail) (g : Guard) (d : Dst) (a b : Src) (w : FWidth) (s : State) : Out :=
  plainFp2 (.fmax t g d a b w) w t g d a b s fun f x y => f.minMax true x y

/-- FMIN.num (R242). -/
def execFminNum (t : Tail) (g : Guard) (d : Dst) (a b : Src) (w : FWidth) (s : State) : Out :=
  plainFp2 (.fminNum t g d a b w) w t g d a b s fun f x y => f.minMaxNum false x y

/-- FMAX.num (R242). -/
def execFmaxNum (t : Tail) (g : Guard) (d : Dst) (a b : Src) (w : FWidth) (s : State) : Out :=
  plainFp2 (.fmaxNum t g d a b w) w t g d a b s fun f x y => f.minMaxNum true x y

/-- FCMP (R243). -/
def execFcmp (t : Tail) (g : Guard) (pd : PDst) (a b : Src) (n : FCond) (w : FWidth) (s : State) : Out :=
  let i : Instr := .fcmp t g pd a b n w
  issue i Checks.none s fun c =>
    let act := c.guard g
    let f := FWidth.fmt w
    let r (l : Nat) := f.compare n (opBits f ((c.opA t (FWidth.lit w) a).lane l)) (opBits f ((c.opB t (FWidth.lit w) a b).lane l))
    let m := Mask.ofFn fun l => (r l).1
    let c := c.pops i.uses
    ({ c with g := c.g.setCompare pd act m } : Cx).doneFlags (fun l => (r l).2) act

/-- FCVT (R244, R245). -/
def execFcvt (t : Tail) (g : Guard) (d : Dst) (a : Src) (f : Six) (r : Rnd) (u : Bool) (s : State) : Out :=
  flagWord (.fcvt t g d a f r u) g d s fun c _ l => convertLane f.val r u ((c.opA t (cvtLit f.val) a).lane l)

/-- FCLASS (R246). -/
def execFclass (t : Tail) (g : Guard) (d : Dst) (a : Src) (w : FWidth) (s : State) : Out :=
  plainFp1 (.fclass t g d a w) w t g d a s fun f x => (f.classOf x, 0)

/-- FFREXP (R247): the fraction, then the exponent, each written and pushed. -/
def execFfrexp (t : Tail) (g : Guard) (d : VReg) (a : Src) (w : FWidth) (s : State) : Out :=
  let i : Instr := .ffrexp t g d a w
  issue i Checks.none s fun c =>
    let act := c.guard g
    let f := FWidth.fmt w
    let r (l : Nat) := f.frexp (opBits f ((c.opA t (FWidth.lit w) a).lane l))
    let c := c.pops i.uses
    let c := c.write (.v d) act (LaneReg.ofFn fun l => w64 (r l).1)
    let e := LaneReg.ofFn fun l => BitVec.ofInt 64 (r l).2.1
    let c := { c with g := (c.g.push c.sp.lanes act e).setReg (d.val + 1) act e }
    c.doneFlags (fun l => (r l).2.2) act

/-- FABS (R249). -/
def execFabs (t : Tail) (g : Guard) (d : Dst) (a : Src) (w : FWidth) (s : State) : Out :=
  plainFp1 (.fabs t g d a w) w t g d a s fun f x => (x % f.sign, 0)

/-- FNEG (R249). -/
def execFneg (t : Tail) (g : Guard) (d : Dst) (a : Src) (w : FWidth) (s : State) : Out :=
  plainFp1 (.fneg t g d a w) w t g d a s fun f x => (Nat.xor x f.sign, 0)

/-- FCPYSGN (R249). -/
def execFcpysgn (t : Tail) (g : Guard) (d : Dst) (a b : Src) (w : FWidth) (s : State) : Out :=
  plainFp2 (.fcpysgn t g d a b w) w t g d a b s fun f x y => (x % f.sign + y / f.sign % 2 * f.sign, 0)

/-- FSCALE (R248): B is an .i64 whatever W is. -/
def execFscale (t : Tail) (d : Dst) (a b : Src) (r : Rnd) (w : FWidth) (s : State) : Out :=
  flagWord (.fscale t d a b r w) .always d s fun c _ l =>
    let f := FWidth.fmt w
    let x := f.scale r (opBits f ((c.opA t (FWidth.lit w) a).lane l)) ((c.opB t .int a b).lane l).toInt
    (w64 x.1, x.2)

/-- FDIV (R251, R252). -/
def execFdiv (t : Tail) (l : La) (d : Dst) (a b : Src) (r : Rnd) (w : FWidth) (s : State) : Out :=
  sfWord (.fdiv t l d a b r w) w d s (sfDelay 22 38 w false) fun c _ n =>
    let f := FWidth.fmt w
    f.div r (opBits f ((c.opA t (FWidth.lit w) a).lane n)) (opBits f ((c.opB t (FWidth.lit w) a b).lane n))

/-- FSQRT (R251, R252). -/
def execFsqrt (t : Tail) (l : La) (d : Dst) (a : Src) (r : Rnd) (w : FWidth) (s : State) : Out :=
  sfWord1 (.fsqrt t l d a r w) w t d a s (sfDelay 20 36 w false) fun f x => f.sqrt r x

/-- FRCP (R251, R252). -/
def execFrcp (t : Tail) (l : La) (d : Dst) (a : Src) (r : Rnd) (w : FWidth) (s : State) : Out :=
  sfWord1 (.frcp t l d a r w) w t d a s (sfDelay 16 28 w false) fun f x => f.rcp r x

/-- FRSQ (R251, R252): correctly rounded in .f32, within a unit in the last place in .f64. -/
def execFrsq (t : Tail) (l : La) (d : Dst) (a : Src) (r : Rnd) (w : FWidth) (s : State) : Out :=
  sfWord1 (.frsq t l d a r w) w t d a s (sfDelay 16 28 w false) fun f x => if f = .f64 then rsq64 x else f.rsq r x

/-- FEXP2 (R251, R253). -/
def execFexp2 (t : Tail) (l : La) (d : Dst) (a : Src) (w : FWidth) (s : State) : Out :=
  sfWord1 (.fexp2 t l d a w) w t d a s (sfDelay 18 34 w false) fun f x => f.exp2 x

/-- FLOG2 (R251, R253). -/
def execFlog2 (t : Tail) (l : La) (d : Dst) (a : Src) (w : FWidth) (s : State) : Out :=
  sfWord1 (.flog2 t l d a w) w t d a s (sfDelay 18 34 w false) fun f x => f.log2 x

/-- FTANH (R251, R253). -/
def execFtanh (t : Tail) (l : La) (d : Dst) (a : Src) (w : FWidth) (s : State) : Out :=
  sfWord1 (.ftanh t l d a w) w t d a s (sfDelay 22 40 w false) fun f x => f.tanh x

/-- Some active lane's operand lies beyond the range of R174, and the word takes longer (R238, R254). -/
def farArgs (w : FWidth) (x : LaneReg) (act : Mask) : Bool :=
  act.lanes.any fun l =>
    match (FWidth.fmt w).value (opBits (FWidth.fmt w) (x.lane l)) with
    | .fin _ m e => dyLt (piFix * 2 ^ (if w = .f32 then 20 else 40)) (-1400) m e
    | _ => false

/-- The operand register and active lanes of the selected unit, for the latency of FSIN and FCOS. -/
def trigDelay (i : Instr) (w : FWidth) (t : Tail) (a : Src) (s : State) : Nat :=
  match cx? i s with
  | none => 0
  | some c => sfDelay 22 40 w (farArgs w (c.opA t (FWidth.lit w) a) c.act)

/-- FSIN (R251, R253, R254). -/
def execFsin (t : Tail) (l : La) (d : Dst) (a : Src) (w : FWidth) (s : State) : Out :=
  sfWord1 (.fsin t l d a w) w t d a s (trigDelay (.fsin t l d a w) w t a s) fun f x => f.sin x

/-- FCOS (R251, R253, R254). -/
def execFcos (t : Tail) (l : La) (d : Dst) (a : Src) (w : FWidth) (s : State) : Out :=
  sfWord1 (.fcos t l d a w) w t d a s (trigDelay (.fcos t l d a w) w t a s) fun f x => f.cos x

/-- PKADD.f32 (R250). -/
def execPkaddF32 (t : Tail) (g : Guard) (d : Dst) (a b : Src) (r : Rnd) (s : State) : Out :=
  packedWord (.pkaddF32 t g d a b r) .f32 .pk32 t g d none a b s fun x y _ => Fmt.f32.add r x y

/-- PKMUL.f32 (R250). -/
def execPkmulF32 (t : Tail) (d : Dst) (a b : Src) (r : Rnd) (s : State) : Out :=
  packedWord (.pkmulF32 t d a b r) .f32 .pk32 t .always d none a b s fun x y _ => Fmt.f32.mul r x y

/-- PKFMA.f32 (R250): c is the destination's old contents. -/
def execPkfmaF32 (t : Tail) (d : VReg) (a b : Src) (r : Rnd) (s : State) : Out :=
  packedWord (.pkfmaF32 t d a b r) .f32 .pk32 t .always (.v d) (some d.val) a b s fun x y z => Fmt.f32.fma .pc r x y z

/-- PKFNA.f32 (R250). -/
def execPkfnaF32 (t : Tail) (d : VReg) (a b : Src) (r : Rnd) (s : State) : Out :=
  packedWord (.pkfnaF32 t d a b r) .f32 .pk32 t .always (.v d) (some d.val) a b s fun x y z => Fmt.f32.fma .cmp r x y z

end Sys2Proof.Machine
end

