-- ==== Sys2Proof/Machine/TileMath.lean ====
section
/-! DEFINITION. The arithmetic of the matrix engines: fragments, products in their summation order, and the 16 × 16 solver
tiles (spec/07 R171-R172, spec/08 R193-R197, spec/12 R263-R278). -/

namespace Sys2Proof.Machine

/-! ## Fragments -/

/-- Element `k` of a row of A or a column of B, `w` bits wide, of a shape with `n` steps along k (R195). -/
def fragAt (regs : List LaneReg) (w n rc k : Nat) : Nat :=
  let h := k / (n / 2)
  let t := k % (n / 2)
  element w ((regs.getD (t * w / 64) LaneReg.zero).lane (rc + 16 * h)) (t % (64 / w))

/-- Element (i, j) of a C or D run in .f32 (R196). -/
def acc32 (regs : List LaneReg) (i j : Nat) : Nat :=
  element 32 ((regs.getD (j % 8 / 2) LaneReg.zero).lane (i + 16 * (j / 8))) (j % 2)

/-- Element (i, j) of a 16 × 16 .f64 matrix in 8 registers (R194, R274). -/
def acc64 (regs : List LaneReg) (i j : Nat) : Nat := ((regs.getD (j % 8) LaneReg.zero).lane (i + 16 * (j / 8))).toNat

/-- The 4 registers of a .f32 result (R196). -/
def regs32 (f : Nat → Nat → Nat) : List LaneReg :=
  (List.range 4).map fun m => LaneReg.ofFn fun l =>
    let j := 8 * (l / 16) + 2 * m
    w64 (f (l % 16) j % 2 ^ 32 + f (l % 16) (j + 1) % 2 ^ 32 * 2 ^ 32)

/-- The 8 registers of a .f64 matrix (R194, R274). -/
def regs64 (f : Nat → Nat → Nat) : List LaneReg :=
  (List.range 8).map fun m => LaneReg.ofFn fun l => w64 (f (l % 16) (8 * (l / 16) + m))

/-! ## Products -/

/-- A chain of FMAs in ascending k, rounded at each step (R171). -/
def chainSum (f : Fmt) (r : Rnd) (n : Nat) (a b : Nat → Nat) (c : FRes) : FRes :=
  (List.range n).foldl (fun (acc : FRes) k =>
    let x := f.fma .pc r (a k) (b k) acc.1
    (x.1, acc.2 ||| x.2)) c

/-- k-groups of 16, each rounded once (R172). -/
def groupSum (n : Nat) (a b : Nat → FVal) (c : FRes) : FRes :=
  (List.range (n / 16)).foldl (fun (acc : FRes) g =>
    let x := kGroup acc.1 ((List.range 16).map fun t => (a (16 * g + t), b (16 * g + t)))
    (x.1, acc.2 ||| x.2)) c

/-- An element by element product: the 256 results and their flags. -/
def tileOf (f : Nat → Nat → FRes) : (Nat → Nat → Nat) × FFlags :=
  let rows := (List.range 16).map fun i => (List.range 16).map fun j => f i j
  (fun i j => ((rows.getD i []).getD j (0, 0)).1,
   (rows.flatMap fun r => r.map Prod.snd).foldl (fun (a : FFlags) x => a ||| x) 0)

/-- An E3M2 element (R156). -/
def e3m2Value (x : Nat) : FVal :=
  let s := x / 32 % 2 == 1
  let e := x / 4 % 8
  let m := x % 4
  if e = 0 then .fin s m (-4) else .fin s (m + 4) ((e : Int) - 5)

/-- An E2M3 element (R156). -/
def e2m3Value (x : Nat) : FVal :=
  let s := x / 32 % 2 == 1
  let e := x / 8 % 4
  let m := x % 8
  if e = 0 then .fin s m (-3) else .fin s (m + 8) ((e : Int) - 4)

/-- An INT4 element (R156). -/
def int4Value (x : Nat) : FVal :=
  let v := signedOf 4 x
  .fin (decide (v < 0)) v.natAbs 0

/-- An element of MMAQ (R268). -/
def QFmt.value : QFmt → Nat → FVal
  | .e4m3 => Fmt.e4m3.value
  | .e5m2 => Fmt.e5m2.value
  | .e3m2 => e3m2Value
  | .e2m3 => e2m3Value

/-- MMAD and MMA .f32 (R268, R171). -/
def productChain (f : Fmt) (n : Nat) (r : Rnd) (a b d : List LaneReg) : List LaneReg × FFlags :=
  let acc := if f = .f64 then acc64 d else acc32 d
  let (x, fl) := tileOf fun i j =>
    chainSum f r n (fragAt a f.bits n i) (fragAt b f.bits n j) (acc i j, 0)
  (if f = .f64 then regs64 x else regs32 x, fl)

/-- The .bf16, .f16 and byte-wide shapes: elements by their values (R268, R172). -/
def productGroups (w n : Nat) (va vb : Nat → FVal) (a b d : List LaneReg) : List LaneReg × FFlags :=
  let (x, fl) := tileOf fun i j =>
    groupSum n (fun k => va (fragAt a w n i k)) (fun k => vb (fragAt b w n j k)) (acc32 d i j, 0)
  (regs32 x, fl)

/-- The block word of a row or column and k-block in a scale register (R197). -/
def blockWordAt (s : LaneReg) (j rc h : Nat) : Nat := element 16 (s.lane (rc + 16 * h)) j

/-- An E2M1 operand's value at (row or column, k) under its scale register (R197). -/
def e2m1Frag (regs : List LaneReg) (s : LaneReg) (j rc k : Nat) : FVal :=
  blockValue (fragAt regs 4 64 rc k) (blockWordAt s j rc (k / 32))

/-- MMAS (R268, R269). -/
def productScaled (fb : SFmt) (a b d : List LaneReg) (sa sb : LaneReg) (ja jb : Nat) : List LaneReg × FFlags :=
  let bv (j k : Nat) : FVal := match fb with
    | .e2m1 => e2m1Frag b sb jb j k
    | .e4m3 => Fmt.e4m3.value (fragAt b 8 64 j k)
    | .e5m2 => Fmt.e5m2.value (fragAt b 8 64 j k)
    | .int4 => int4Value (fragAt b 4 64 j k)
  let (x, fl) := tileOf fun i j => groupSum 64 (e2m1Frag a sa ja i) (bv j) (acc32 d i j, 0)
  (regs32 x, fl)

/-- Element B[k][n] of a dense tile of `size`-byte elements (R270). -/
def tileElem (t : List Byte) (size k n : Nat) : Nat := leNat ((t.drop ((16 * k + n) * size)).take size)

/-- MMAT with a tile (R270); the product of an INT4 tile, whose shape is not stated, is a free value of its operands (LOG 1). -/
def productTile (fm : TFmt) (a d : List LaneReg) (t : List Byte) : List LaneReg × FFlags :=
  let chain (f : Fmt) (n : Nat) : List LaneReg × FFlags :=
    let acc := if f = .f64 then acc64 d else acc32 d
    let (x, fl) := tileOf fun i j =>
      chainSum f .rn n (fragAt a f.bits n i) (fun k => tileElem t (f.bits / 8) k j) (acc i j, 0)
    (if f = .f64 then regs64 x else regs32 x, fl)
  let groups (w n : Nat) (v : Nat → FVal) : List LaneReg × FFlags :=
    let (x, fl) := tileOf fun i j =>
      groupSum n (fun k => v (fragAt a w n i k)) (fun k => v (tileElem t (w / 8) k j)) (acc32 d i j, 0)
    (regs32 x, fl)
  match fm with
  | .f64 => chain .f64 4
  | .f32 => chain .f32 8
  | .f16 => groups 16 16 Fmt.f16.value
  | .bf16 => groups 16 16 Fmt.bf16.value
  | .e4m3 => groups 8 32 Fmt.e4m3.value
  | .e5m2 => groups 8 32 Fmt.e5m2.value
  | .e3m2 => groups 8 32 e3m2Value
  | .e2m3 => groups 8 32 e2m3Value
  | .e2m1 =>
    let bv (j k : Nat) : FVal :=
      let by' := (t.getD (8 * k + j / 2) 0).toNat
      blockValue (if j % 2 = 0 then by' % 16 else by' / 16) (leNat ((t.drop (512 + 2 * (16 * (k / 32) + j))).take 2))
    let (x, fl) := tileOf fun i j => groupSum 64 (e2m1Frag a (a.getD 2 LaneReg.zero) 0 i) (bv j) (acc32 d i j, 0)
    (regs32 x, fl)
  | .int4 =>
    let lanes (l : List LaneReg) : List W64 := l.flatMap fun r => (List.range 32).map r.lane
    let (la, lc) := (lanes a, lanes d)
    ((List.range 4).map fun m => LaneReg.ofFn fun l => Config.int4Product la lc t (32 * m + l), Config.int4Flags la lc t)

/-- The joint product of MMAJ for position `p`: the shape's order continued over h = 0 and h = 1; `q` gives a position's A
and B runs (R273). -/
def productJoint (f : JFmt) (p : Nat) (q : Nat → List LaneReg × List LaneReg) (d : List LaneReg) : List LaneReg × FFlags :=
  let a (h : Nat) : List LaneReg := (q (2 * (p / 2) + h)).1
  let b (h : Nat) : List LaneReg := (q (2 * h + p % 2)).2
  let groups (v : Nat → FVal) (i j : Nat) : FRes :=
    let step (h : Nat) (c : FRes) : FRes :=
      groupSum 16 (fun k => v (fragAt (a h) 16 16 i k)) (fun k => v (fragAt (b h) 16 16 j k)) c
    step 1 (step 0 (acc32 d i j, 0))
  let (x, fl) := tileOf fun i j =>
    match f with
    | .f32 r =>
      let step (h : Nat) (c : FRes) : FRes := chainSum .f32 r 8 (fragAt (a h) 32 8 i) (fragAt (b h) 32 8 j) c
      step 1 (step 0 (acc32 d i j, 0))
    | .bf16 => groups Fmt.bf16.value i j
    | .f16 => groups Fmt.f16.value i j
  (regs32 x, fl)

/-! ## Solver tiles -/

/-- Rows of a 16 × 16 matrix. -/
abbrev Rows := List (List Nat)

/-- An element of rows. -/
def Rows.el (m : Rows) (i j : Nat) : Nat := (m.getD i []).getD j 0

/-- Writes an element of rows. -/
def Rows.put (m : Rows) (i j x : Nat) : Rows := listSet m i (listSet (m.getD i []) j x)

/-- The rows of a matrix run (R274). -/
def Rows.of (regs : List LaneReg) : Rows := (List.range 16).map fun i => (List.range 16).map fun j => acc64 regs i j

/-- The magnitude bits of a .f64. -/
def mag64 (x : Nat) : Nat := x % 2 ^ 63

/-- A .f64 is a NaN. -/
def isNan64 (x : Nat) : Bool := (Fmt.f64.value x).isNan

/-- The default NaN of .f64. -/
def nan64 : Nat := Fmt.f64.nanBits

/-- A factorisation in progress: rows, pivots, regularised steps, breakdown and flags (R276). -/
structure Factor where
  m : Rows
  piv : Nat
  reg : Nat
  broke : Bool
  fl : FFlags
  deriving DecidableEq, Repr

/-- ApplyPolicy of R275: the pivot, or none on a STRICT breakdown; `atZero` tells a breaking pivot. -/
def Factor.policy (f : Factor) (pivotReg : Bool) (delta j p : Nat) (breaks : Bool) : Option Nat × Factor :=
  if pivotReg then
    if !isNan64 p && decide (mag64 p < mag64 delta) then
      (some (if mag64 p = 0 then mag64 delta else mag64 delta + p / 2 ^ 63 * 2 ^ 63), { f with reg := f.reg + 2 ^ j })
    else (some p, f)
  else if breaks then (none, { f with broke := true, fl := f.fl ||| flagNv })
  else (some p, f)

/-- Writes the result of an operation. -/
def Factor.write (f : Factor) (i j : Nat) (r : FRes) : Factor := { f with m := f.m.put i j r.1, fl := f.fl ||| r.2 }

/-- Indices from `a` up to 15. -/
def upTo16 (a : Nat) : List Nat := (List.range 16).drop a

/-- Step j of .lu (R276). A column with a NaN has no greatest magnitude: its row is a free value. On a STRICT breakdown
the whole column and every element that later steps write become NaN (R275; LOG 1). -/
def luStep (pivotReg : Bool) (delta : Nat) (f : Factor) (j : Nat) : Factor :=
  if f.broke then { f with m := (upTo16 j).foldl (fun m i => m.put i j nan64) f.m, piv := f.piv + j * 16 ^ j }
  else
    let bad := (upTo16 j).any fun i => isNan64 (f.m.el i j)
    let q :=
      if bad then j + Config.nanPivot ((upTo16 j).map fun i => f.m.el i j) j % (16 - j)
      else (upTo16 j).foldl (fun q i => if mag64 (f.m.el q j) < mag64 (f.m.el i j) then i else q) j
    let f := { f with piv := f.piv + q * 16 ^ j
                      m := listSet (listSet f.m j (f.m.getD q [])) q (f.m.getD j []) }
    let (p, f) := f.policy pivotReg delta j (f.m.el j j) (mag64 (f.m.el j j) == 0)
    match p with
    | none =>
      let col := (List.range 16).foldl (fun (m : Rows) i => m.put i j nan64) f.m
      { f with m := (upTo16 j).foldl (fun m i => (upTo16 j).foldl (fun m k => m.put i k nan64) m) col }
    | some p =>
      let f := { f with m := f.m.put j j p }
      (upTo16 (j + 1)).foldl (fun f i =>
        let f := f.write i j (Fmt.f64.div .rn (f.m.el i j) p)
        (upTo16 (j + 1)).foldl (fun (f : Factor) k =>
          f.write i k (Fmt.f64.fma .cmp .rn (f.m.el i j) (f.m.el j k) (f.m.el i k))) f) f

/-- A chain c − Σ a(k) × b(k) over some k (R276, R277). -/
def chainMinus (ks : List Nat) (a b : Nat → Nat) (c : FRes) : FRes :=
  ks.foldl (fun (acc : FRes) k =>
    let x := Fmt.f64.fma .cmp .rn (a k) (b k) acc.1
    (x.1, acc.2 ||| x.2)) c

/-- Step j of .chol (R276), over the lower triangle. -/
def cholStep (pivotReg : Bool) (delta : Nat) (f : Factor) (j : Nat) : Factor :=
  if f.broke then { f with m := (upTo16 j).foldl (fun m i => m.put i j nan64) f.m }
  else
    let row (m : Rows) (i k : Nat) : Nat := m.el i k
    let d := chainMinus (List.range j) (row f.m j) (row f.m j) (f.m.el j j, 0)
    let f := { f with fl := f.fl ||| d.2 }
    let low := match Fmt.f64.value d.1 with
      | .nan _ _ _ => false
      | .inf s => s
      | .fin s m _ => s || m == 0
    let (p, f) := f.policy pivotReg delta j d.1 low
    match p with
    | none => { f with m := (upTo16 j).foldl (fun m i => m.put i j nan64) f.m }
    | some p =>
      let f := f.write j j (Fmt.f64.sqrt .rn p)
      (upTo16 (j + 1)).foldl (fun (f : Factor) i =>
        let s := chainMinus (List.range j) (row f.m i) (row f.m j) (f.m.el i j, 0)
        let q := Fmt.f64.div .rn s.1 (f.m.el j j)
        f.write i j (q.1, s.2 ||| q.2)) f

/-- Bit 16i + j of the signature's mask: A[i][j] is not zero (R274). -/
def signature16 (m : Rows) : W64 :=
  let word (n : Nat) : Nat :=
    (List.range 64).foldl (fun acc b =>
      let i := (64 * n + b) / 16
      let j := (64 * n + b) % 16
      if mag64 (m.el i j) = 0 then acc else acc + 2 ^ b) 0
  w64 (Nat.xor (Nat.xor (word 0) (word 1)) (Nat.xor (word 2) (word 3)))

/-- A register with values in its lowest lanes and zero above. -/
def lowLanes (xs : List W64) : LaneReg := LaneReg.ofFn fun l => xs.getD l 0

/-- TFACT: the 9 registers of the factor, and flags (R274-R276). -/
def factorTile (k : SolveKind) (pivotReg : Bool) (delta : W64) (a : List LaneReg) : List LaneReg × FFlags :=
  let m := Rows.of a
  let f₀ : Factor := ⟨m, 0, 0, false, 0⟩
  let f := match k with
    | .lu => (List.range 16).foldl (luStep pivotReg delta.toNat) f₀
    | .chol => (List.range 16).foldl (cholStep pivotReg delta.toNat) f₀
  let out (i j : Nat) : Nat := match k with
    | .lu => f.m.el i j
    | .chol => if j ≤ i then f.m.el i j else 0
  let status := (if k = .chol then 1 else 0) + b2n (f.reg != 0) * 2 + b2n f.broke * 4 + f.reg * 2 ^ 8
  let piv := match k with
    | .lu => f.piv
    | .chol => 0
  (regs64 out ++ [lowLanes [w64 piv, signature16 m, w64 status]], f.fl)

/-- One vector solved by .lu or .chol (R277). -/
def solveVector (k : SolveKind) (m : Rows) (piv : Nat) (b : List Nat) : List Nat × FFlags :=
  let x0 : List Nat := match k with
    | .lu => (List.range 16).foldl (fun (b : List Nat) i =>
        let q := piv / 16 ^ i % 16
        listSet (listSet b i (b.getD q 0)) q (b.getD i 0)) b
    | .chol => b
  let div (r : FRes) (d : Nat) : FRes :=
    let q := Fmt.f64.div .rn r.1 d
    (q.1, r.2 ||| q.2)
  let fwd := (List.range 16).foldl (fun (acc : List Nat × FFlags) i =>
    let s := chainMinus (List.range i) (fun n => m.el i n) (fun n => acc.1.getD n 0) (acc.1.getD i 0, 0)
    let r := if k = .chol then div s (m.el i i) else s
    (listSet acc.1 i r.1, acc.2 ||| r.2)) (x0, 0)
  ((List.range 16).map (15 - ·)).foldl (fun (acc : List Nat × FFlags) i =>
    let at' (n : Nat) : Nat := if k = .lu then m.el i n else m.el n i
    let s := chainMinus (upTo16 (i + 1)) at' (fun n => acc.1.getD n 0) (acc.1.getD i 0, 0)
    let r := div s (m.el i i)
    (listSet acc.1 i r.1, acc.2 ||| r.2)) fwd

/-- The two vectors of a register (R274). -/
def vectorsOf (r : LaneReg) : List (List Nat) :=
  (List.range 2).map fun h => (List.range 16).map fun i => (r.lane (i + 16 * h)).toNat

/-- A register of two vectors. -/
def ofVectors (v : List (List Nat)) : LaneReg := LaneReg.ofFn fun l => w64 ((v.getD (l / 16) []).getD (l % 16) 0)

/-- TSOLV of both vectors with a factor of 9 registers (R277). -/
def solveTile (k : SolveKind) (f : List LaneReg) (b : List (List Nat)) : List (List Nat) × FFlags :=
  let rec8 := f.getD 8 LaneReg.zero
  let kind := if (rec8.lane 2).getLsbD 0 then SolveKind.chol else .lu
  if k ≠ kind then (List.replicate 2 (List.replicate 16 nan64), flagNv)
  else
    let r := b.map (solveVector k (Rows.of f) (rec8.lane 0).toNat)
    (r.map Prod.fst, (r.map Prod.snd).foldl (fun (a : FFlags) x => a ||| x) 0)

/-- |d| ≤ 2^-52 × |x| on .f64 bits, exactly (R278). -/
def convergedAt (d x : Nat) : Bool :=
  match Fmt.f64.value d, Fmt.f64.value x with
  | .nan _ _ _, _ => false
  | _, .nan _ _ _ => false
  | _, .inf _ => true
  | .inf _, _ => false
  | .fin _ m e, .fin _ n g => !dyLt n (g - 52) m e

/-- One pass of TREF: the refined x, the residual, the flags, and whether it converged (R278). -/
def refinePass (k : SolveKind) (a : Rows) (f : List LaneReg) (b x : List (List Nat)) :
    List (List Nat) × List (List Nat) × FFlags × Bool :=
  let rs := (List.range 2).map fun h => (List.range 16).map fun i =>
    chainMinus (List.range 16) (fun n => a.el i n) (fun n => (x.getD h []).getD n 0) ((b.getD h []).getD i 0, 0)
  let r := rs.map fun v => v.map Prod.fst
  let fl1 := (rs.flatMap fun v => v.map Prod.snd).foldl (fun (a : FFlags) y => a ||| y) 0
  let (d, fl2) := solveTile k f r
  let xs := (List.range 2).map fun h => (List.range 16).map fun i =>
    Fmt.f64.add .rn ((x.getD h []).getD i 0) ((d.getD h []).getD i 0)
  let x' := xs.map fun v => v.map Prod.fst
  let fl3 := (xs.flatMap fun v => v.map Prod.snd).foldl (fun (a : FFlags) y => a ||| y) 0
  let ok := (List.range 2).all fun h => (List.range 16).all fun i =>
    convergedAt ((d.getD h []).getD i 0) ((x'.getD h []).getD i 0)
  (x', r, fl1 ||| fl2 ||| fl3, ok)

/-- Passes of TREF left, passes made, x, the last residual and the flags (R278). -/
def refineLoop (k : SolveKind) (a : Rows) (f : List LaneReg) (b : List (List Nat)) :
    Nat → Nat → List (List Nat) → FFlags → Nat × List (List Nat) × List (List Nat) × FFlags
  | 0, n, x, fl => (n, x, [], fl)
  | left + 1, n, x, fl =>
    let (x', r, fl', ok) := refinePass k a f b x
    if ok || left == 0 then (n + 1, x', r, fl ||| fl') else refineLoop k a f b left (n + 1) x' (fl ||| fl')

/-- TREF: vd to vd+2, flags, and whether it started cold; a residual with a NaN has no greatest magnitude (R278; LOG 1). -/
def refineTile (k : SolveKind) (d a f : List LaneReg) : List LaneReg × FFlags × Bool :=
  let m := Rows.of a
  let sig := signature16 m
  let cold := (d.getD 2 LaneReg.zero).lane 0 != sig
  let b := vectorsOf (d.getD 1 LaneReg.zero)
  let (x, fl) := if cold then solveTile k f b else (vectorsOf (d.getD 0 LaneReg.zero), 0)
  let (n, x, r, fl) := refineLoop k m f b 4 0 x fl
  let flat := r.flatMap id
  let top := if flat.any isNan64 then Config.nanResidual flat else w64 ((flat.map mag64).foldl max 0)
  ([ofVectors x, d.getD 1 LaneReg.zero, lowLanes [sig, w64 n, top]], fl, cold)

end Sys2Proof.Machine
end

