-- ==== Sys2Proof/Machine/Matrix.lean ====
section
/-! DEFINITION. Delivery of long-latency results, and matrix and solver instructions with their engine: the reservation
table, tile fetches, passes and deliveries (spec/09 R208-R209, spec/12 R263-R279, spec/19 R430, spec/07 R156). -/

namespace Sys2Proof.Machine

/-! ## Delivery of one result -/

/-- Delivers one pending result of a group: registers and flags are written, or its trap is raised instead, and an enabled flag
raises FPE; either trap is taken once nothing is pending (R169, R209, R272, R314, R436, R453). Its window stays open where words
are left in it. The k-queue entry of a load that traps is filled with zero. -/
def deliverPending (s : State) (k : Nat) (p : Pending) : State :=
  match s.group? k with
  | none => s
  | some g =>
    let isOpen := !g.drain && p.rooms.any fun r => decide (0 < r.2)
    let g := { g with pend := g.pend.erase p, late := if isOpen then g.late ++ [p] else g.late }
    let sp := ((p.rooms.filterMap fun r => g.split? r.1).head?).orElse fun _ => g.splits.head?
    let split := (sp.map Split.id).getD 0
    let rp := (sp.map Split.pc).getD p.prod
    match p.trap with
    | some t =>
      let s := fillK (s.setGroup k (g.raiseHorizon p.stamp)) g.info.team p.kq LaneReg.zero
      settleTraps (postTrap s k split false ⟨t.cause, true, some t.mask, t.addr, t.info⟩ p.prod rp false) k
    | none =>
      let g := { g.deliver p with lastDelivery := some s.clock.cycle }
      let g := g.onRegion fun r => { r with lastResult := s.clock.cycle }
      let s := fillK (s.setGroup k g) g.info.team p.kq (p.vals.headD LaneReg.zero)
      let en := p.flags &&& g.info.fpen
      settleTraps (if en = 0 then s
        else postTrap s k split false ⟨causeFpe, true, some p.flagLanes, 0, en.setWidth 64⟩ p.prod rp false) k

/-! ## The reservation table -/

/-- A cluster's reservation table (R264). -/
def matTable (s : State) (cl : Nat) : List MatOp := (NMap.get? s.eng.mats cl).getD []

/-- Writes a cluster's reservation table. -/
def setTable (s : State) (cl : Nat) (l : List MatOp) : State := s.onEng fun e => { e with mats := NMap.set e.mats cl l }

/-- The cluster's engine whose table holds an operation of a core. -/
def MatOp.cluster (o : MatOp) : Nat := clusterOf o.core

/-- Changes an operation of a table. -/
def onOp (s : State) (o : MatOp) (f : MatOp → MatOp) : State :=
  setTable s o.cluster ((matTable s o.cluster).map fun x => if x.id = o.id then f x else x)

/-- Removes an operation from its table. -/
def dropOp (s : State) (o : MatOp) : State :=
  setTable s o.cluster ((matTable s o.cluster).filter fun x => x.id != o.id)

/-- Operations that occupy the table: not those of the control core. -/
def MatOp.native (o : MatOp) : Bool := !emulated o.ins

/-- The .f64 forms carry the residue check (R266). -/
def residueForm (i : Instr) : Bool :=
  match i with
  | .mmad _ _ _ _ _ _ | .tfact _ _ _ _ _ | .tsolv _ _ _ _ _ _ | .tref _ _ _ _ _ _ _ => true
  | .mmat _ _ _ _ _ f => f == .f64
  | _ => false

/-- Operations that run alone on their engine (R265). -/
def exclusiveForm (i : Instr) : Bool :=
  match i with
  | .tfact _ _ _ _ _ | .tsolv _ _ _ _ _ _ | .tref _ _ _ _ _ _ _ => true
  | _ => false

/-- Quarter passes of an operation (R265). -/
def quarterPasses (i : Instr) : Nat :=
  match i with
  | .mmad _ _ _ _ _ _ | .mmaF32 _ _ _ _ _ _ | .mmaj _ _ _ _ _ _ => 4
  | .mmat _ _ _ _ _ f => if f == .f64 || f == .f32 then 4 else 1
  | _ => 1

/-- Cycles from its pass to its delivery (R265). -/
def engineLatency (i : Instr) : Nat :=
  match i with
  | .mmad _ _ _ _ _ _ | .mmaF32 _ _ _ _ _ _ => 24
  | .mmas _ _ _ _ _ _ _ _ _ _ => 22
  | .mmat _ _ _ _ _ f => 8 + (if f == .f64 || f == .f32 then 24 else if f == .e2m1 then 22 else 20)
  | .mmaj _ _ _ _ _ _ => 48
  | .tfact _ _ _ _ k => if k == .lu then 320 else 224
  | .tsolv _ _ _ _ _ _ => 96
  | .tref _ _ _ _ _ _ _ => 1056
  | _ => 20

/-! ## Results -/

/-- The bytes of a tile as the product reads them: poisoned granules read as zero under accept (R299). -/
def tileBytes (bytes : List Byte) (pois : List Nat) : List Byte :=
  bytes.zipIdx.map fun b => if pois.contains (b.2 / 32) then 0 else b.1

/-- The trap of an MMAT whose fetch failed or met poison (R272). -/
def tileTrap (o : MatOp) (t : TileUse) (st : BitVec 16) (far : Nat) : Option DelivTrap :=
  let src := t.desc.getD 0 0
  let mk (cause : Nat) (info : Nat) : Option DelivTrap := some ⟨cause, Mask.all, src, w64 info⟩
  if st.getLsbD 0 then
    match st.toNat / 2 ^ 12 with
    | 1 => mk causeProt 0
    | 2 => mk causeLoadNp 0
    | 3 => mk causeIllegal 5
    | 4 => mk causeIllegal 4
    | _ => mk causeRemote far
  else if st.getLsbD 1 && !o.accept then mk causePoison 0
  else none

/-- The D registers, the flags, the predicate that TREF writes, the trap taken instead, and the state (R268-R278). -/
structure EngineResult where
  regs : List LaneReg
  flags : BitVec 5
  pred : Bool
  trap : Option DelivTrap
  s : State

/-- What an operation computes from its captured operands (R264-R278). -/
def MatOp.result (o : MatOp) (s : State) : EngineResult :=
  let r (n : Nat) : List LaneReg := o.regs.getD n []
  let sc (n : Nat) : LaneReg := (r 3).getD n LaneReg.zero
  let plain (x : List LaneReg × FFlags) : EngineResult := ⟨x.1, x.2, false, none, s⟩
  match o.ins with
  | .mmad _ _ _ _ _ rm => plain (productChain .f64 4 rm (r 0) (r 1) (r 2))
  | .mmaF32 _ _ _ _ _ rm => plain (productChain .f32 8 rm (r 0) (r 1) (r 2))
  | .mmaBf16 _ _ _ _ _ => plain (productGroups 16 16 Fmt.bf16.value Fmt.bf16.value (r 0) (r 1) (r 2))
  | .mmaF16 _ _ _ _ _ => plain (productGroups 16 16 Fmt.f16.value Fmt.f16.value (r 0) (r 1) (r 2))
  | .mmaq _ _ _ _ _ fa fb => plain (productGroups 8 32 (QFmt.value fa) (QFmt.value fb) (r 0) (r 1) (r 2))
  | .mmas _ _ _ _ fb _ _ _ ja jb => plain (productScaled fb (r 0) (r 1) (r 2) (sc 0) (sc 1) ja.val jb.val)
  | .mmat _ _ _ _ _ f =>
    match o.tile.bind fun t => t.got.map fun x => (t, x) with
    | none => plain (r 2, 0)
    | some (t, bytes, pois, st, far) =>
      match tileTrap o t st far with
      | some tr => ⟨r 2, 0, false, some tr, s⟩
      | none =>
        let x := plain (productTile f (r 0) (r 2) (tileBytes bytes pois))
        if st.getLsbD 1 then
          match s.group? o.group with
          | some g => { x with s := countSubst s g 1 }
          | none => x
        else x
  | .tfact _ _ _ _ k => plain (factorTile k o.pivotReg o.delta (r 0))
  | .tsolv _ _ _ _ _ k =>
    let (x, fl) := solveTile k (r 0) (vectorsOf ((r 1).headD LaneReg.zero))
    plain ([ofVectors x], fl)
  | .tref _ _ _ _ k _ _ =>
    let (x, fl, cold) := refineTile k (r 2) (r 0) (r 1)
    ⟨x, fl, cold, none, s⟩
  | _ => plain (r 2, 0)

/-! ## Issue -/

/-- Every lane must be active, and the group undivided (R263). -/
def matChecks : Checks := { Checks.none with illconv := fun c => c.g.inSplits || c.act != Mask.all }

/-- The registers of a run as the chain reads them. -/
def Cx.run (c : Cx) (b n : Nat) : List LaneReg := (regRun b n).map c.rd.reg

/-- A new operation of the word in hand, with captured runs (R264). -/
def Cx.newOp (c : Cx) (id : Nat) (regs : List (List LaneReg)) (tile : Option TileUse) (mmaj : Option Nat) (inject : Bool) :
    MatOp :=
  { id := id, core := coreOf c.k, group := c.k, split := c.sp.id, ins := c.i, regs := regs, tile := tile
    pivotReg := c.g.info.pivotReg, delta := c.g.info.delta, accept := c.g.info.accept, prio := c.g.info.prio
    issued := c.s.clock.cycle, eligible := none, granted := none, mmaj := mmaj, inject := inject, repeated := false }

/-- The word issues for an operation of the table: it pushes one entry per D register and waits for the engine (R264). -/
def Cx.engineWord (c : Cx) (op : MatOp) (d n : Nat) (pred : Option Nat) : State :=
  let c := c.later (.engine op.id) Mask.all (regRun d n) (List.replicate n LaneReg.zero) none 0 0 none 0
  let mark (p : Pending) : Pending :=
    if p.on = .engine op.id then { p with pred := pred.map fun x => (x, false) } else p
  let g := { c.g with pend := c.g.pend.map mark }
  { c with g := g.onRegion Region.touch }.done

/-- The control core delivers a word that it has performed: the word issues, and its result comes with it (R156). -/
def Cx.emulatedWord (c : Cx) (op : MatOp) (d n : Nat) : State :=
  let x := op.result c.s
  let c := { c with s := dropOp x.s op, g := { c.g.onRegion Region.touch with emu := none } }
  let s := (c.later (.cycle c.s.clock.cycle) Mask.all (regRun d n) x.regs none x.flags Mask.all x.trap 0).done
  match (s.group? c.k).bind fun g => g.pend.getLast? with
  | some p => deliverPending s c.k p
  | none => s

/-- An emulated word, once the control core is done (R156): one with a tile has its fetch made first, as an operation that
stands in the table for its turn alone. -/
def Cx.emuIssue (c : Cx) (regs : List (List LaneReg)) (tile : Option TileUse) (d n : Nat) : State :=
  let cl := clusterOf (coreOf c.k)
  match (matTable c.s cl).find? fun o => o.group == c.k && !o.native with
  | some o =>
    if (o.tile.bind TileUse.got).isSome then c.emulatedWord o d n else c.held .emulation
  | none =>
    let (id, c) := c.fresh
    let op := c.newOp id regs tile none false
    if (match tile with
      | some t => t.got.isSome
      | none => true) then c.emulatedWord op d n
    else { c with s := setTable c.s cl (matTable c.s cl ++ [op]) }.held .emulation

/-- A full table holds the word (R264); else it is entered with its captured runs. An emulated word takes no entry (R156). -/
def Cx.matIssue (c : Cx) (regs : List (List LaneReg)) (tile : Option TileUse) (d n : Nat) (pred : Option Nat) : State :=
  let cl := clusterOf (coreOf c.k)
  if emulated c.i then c.emuIssue regs tile d n
  else if 32 ≤ ((matTable c.s cl).filter MatOp.native).length then c.held .full
  else
    let (bad, c) := if residueForm c.i then c.residue else (false, c)
    let (id, c) := c.fresh
    let op := c.newOp id regs tile none bad
    { c with s := setTable c.s cl (matTable c.s cl ++ [op]) }.engineWord op d n pred

/-- A product from registers (R263, R264, R268). -/
def matWord (i : Instr) (s : State) (a na b nb d nd : Nat) : Out :=
  issue i matChecks s fun c => c.matIssue [c.run a na, c.run b nb, c.run d nd] none d nd none

/-- MMAD (R268). -/
def execMmad (cb : Bool) (l : La) (d a b : VReg) (r : Rnd) (s : State) : Out :=
  matWord (.mmad cb l d a b r) s a.val 2 b.val 2 d.val 8

/-- MMA .f32 (R268). -/
def execMmaF32 (cb : Bool) (l : La) (d a b : VReg) (r : Rnd) (s : State) : Out :=
  matWord (.mmaF32 cb l d a b r) s a.val 2 b.val 2 d.val 4

/-- MMA .bf16 (R268). -/
def execMmaBf16 (cb : Bool) (l : La) (d a b : VReg) (s : State) : Out :=
  matWord (.mmaBf16 cb l d a b) s a.val 2 b.val 2 d.val 4

/-- MMA .f16 (R268). -/
def execMmaF16 (cb : Bool) (l : La) (d a b : VReg) (s : State) : Out :=
  matWord (.mmaF16 cb l d a b) s a.val 2 b.val 2 d.val 4

/-- MMAQ (R268). -/
def execMmaq (cb : Bool) (l : La) (d a b : VReg) (fa fb : QFmt) (s : State) : Out :=
  matWord (.mmaq cb l d a b fa fb) s a.val 2 b.val 2 d.val 4

/-- MMAS (R268, R269). -/
def execMmas (l : La) (d a b : VReg) (fb : SFmt) (mc : Bool) (sa sb : VReg) (ja jb : Sel) (s : State) : Out :=
  issue (.mmas l d a b fb mc sa sb ja jb) matChecks s fun c =>
    c.matIssue [c.run a.val 2, c.run b.val (SFmt.bRegs fb), c.run d.val 4, [c.rd.reg sa.val, c.rd.reg sb.val]] none d.val 4 none

/-- The box that a tile format needs: planes, rows, width, element bytes (R270). INT4 and the six-bit formats take the box of
their byte-wide neighbour; INT4 has no stated shape, and any bound box serves it (LOG 25). -/
def tileBox (f : TFmt) : Nat × Nat × Nat × Nat :=
  match f with
  | .f64 => (1, 4, 16, 8)
  | .f32 => (1, 8, 16, 4)
  | .f16 | .bf16 => (1, 16, 16, 2)
  | .e2m1 => (1, 72, 8, 1)
  | _ => (1, 32, 16, 1)

/-- The tile hold of an open region (R271). -/
def Region.tile? (r : Region) (team handle gen : Nat) : Option TileHold :=
  r.tiles.find? fun t => t.team == team && t.handle == handle && t.gen == gen

/-- MMAT (R270, R271). -/
def execMmat (t : Tail) (l : La) (d a : VReg) (h : Src) (f : TFmt) (s : State) : Out :=
  issue (.mmat t l d a h f) matChecks s fun c =>
    let n := ((c.opA t .int h).lane 0).toNat
    let team := c.g.info.team
    let tile := ((c.s.team? team).map fun x => x.tiles.toArray.toList.getD n ⟨false, 0, [], 0⟩).getD ⟨false, 0, [], 0⟩
    let box := Box.of tile.cmd.toNat tile.desc (tile.cmd.getLsbD 13)
    if 32 ≤ n ∨ !tile.bound then c.raise causeIllegal 0
    else if f ≠ .int4 ∧ (box.planes, box.rows, box.width, box.ds) ≠ tileBox f then c.raise causeIllegal 0
    else
      let need := (box.planes * box.rows * box.width * box.ds + 31) / 32
      let hold := c.g.region.bind fun r => r.tile? team n tile.gen
      c.budget 0 (if hold.isSome then 0 else min need 128) fun c =>
        let got := hold.map fun x => (x.bytes, x.pois, x.status, 0)
        c.matIssue [c.run a.val (TFmt.aRegs f), [], c.run d.val (TFmt.dRegs f)]
          (some ⟨team, n, tile.gen, tile.cmd, tile.desc, got⟩) d.val (TFmt.dRegs f) none

/-- TFACT (R276). -/
def execTfact (cb : Bool) (l : La) (d a : VReg) (k : SolveKind) (s : State) : Out :=
  issue (.tfact cb l d a k) matChecks s fun c => c.matIssue [c.run a.val 8, [], []] none d.val 9 none

/-- TSOLV (R277). -/
def execTsolv (cb : Bool) (l : La) (d a b : VReg) (k : SolveKind) (s : State) : Out :=
  issue (.tsolv cb l d a b k) matChecks s fun c => c.matIssue [c.run a.val 9, c.run b.val 1, []] none d.val 1 none

/-- TREF (R278). -/
def execTref (l : La) (d a b : VReg) (k : SolveKind) (mc : Bool) (pd : PReg) (s : State) : Out :=
  issue (.tref l d a b k mc pd) matChecks s fun c =>
    c.matIssue [c.run a.val 8, c.run b.val 9, c.run d.val 3] none d.val 3 (some pd.val)

/-! ## MMAJ -/

/-- The first cluster of a core's quad (R273). -/
def quadOf (core : Nat) : Nat := clusterOf core / 4 * 4

/-- Groups that stand on a cluster with a grid and a GROUPIX (R273). -/
def partnersOn (s : State) (cl grid ix : Nat) : List (Nat × Group) :=
  s.work.groups.filter fun e => clusterOf (coreOf e.1) == cl && e.2.info.grid == grid && e.2.info.ix == ix

/-- The MMAJ entry of the `n`-th joint product of a grid and GROUPIX on a cluster (R273). -/
def jointEntry (s : State) (cl grid ix n : Nat) : Option MatOp :=
  (matTable s cl).find? fun o => o.mmaj == some n &&
    (match s.group? o.group with
     | some g => g.info.grid == grid && g.info.ix == ix
     | none => false)

/-- The four entries of a joint product, by position, once all partners have come (R273). -/
def jointAll (s : State) (core grid ix n : Nat) : Option (List MatOp) :=
  let os := (List.range 4).filterMap fun i => jointEntry s (quadOf core + i) grid ix n
  if os.length = 4 then some os else none

/-- MMAJ is illegal in classes P and W and in a region (R267, R273). -/
def mmajChecks : Checks :=
  { matChecks with illwait := fun c => if c.cls = 0 then none else some 7, illregion := fun c => c.g.inRegion }

/-- A partner of a grid and GROUPIX is pre-empted: a saved team holds it (R273). -/
def partnerAway (s : State) (grid ix : Nat) : Bool :=
  s.work.saved.any fun x => x.groups.any fun e => e.2.info.grid == grid && e.2.info.ix == ix

/-- MMAJ (R273): its operands enter the table at the first attempt, and the word waits until all four partners have come, one
that is pre-empted among them. -/
def execMmaj (cb : Bool) (l : La) (d a b : VReg) (f : JFmt) (s : State) : Out :=
  issue (.mmaj cb l d a b f) mmajChecks s fun c =>
    let core := coreOf c.k
    let cl := clusterOf core
    let i := c.g.info
    if !partnerAway c.s i.grid i.ix && (List.range 4).any fun x => (partnersOn c.s (quadOf core + x) i.grid i.ix).isEmpty then
      c.raise causeIllegal 0
    else
      let old := (matTable c.s cl).find? fun o => o.group == c.k && o.mmaj == some c.g.mmaj
      let stale := c.sp.hold != some (.wait .mmaj)
      let table := (matTable c.s cl).filter fun o => !(stale && (old.map MatOp.id) == some o.id)
      if (stale || old.isNone) && decide (32 ≤ (table.filter MatOp.native).length) then c.held .full
      else
        let (op, c) := match stale, old with
          | false, some o => (o, c)
          | _, _ =>
            let (id, c) := c.fresh
            let op := c.newOp id [c.run a.val 2, c.run b.val 2, c.run d.val 4] none (some c.g.mmaj) false
            (op, { c with s := setTable c.s cl (table ++ [op]) })
        match jointAll c.s core i.grid i.ix c.g.mmaj with
        | none => c.wait .mmaj
        | some _ =>
          let (id, c) := c.fresh
          { c with s := onOp c.s op fun o => { o with id := id, issued := c.s.clock.cycle }
                   g := { c.g with mmaj := c.g.mmaj + 1 } }.engineWord { op with id := id } d.val 4 none

/-! ## Tile fetches -/

/-- The copy engine that a tile fetch of a cluster goes to: its die's with the fewest active commands, with room for one more (R126,
R127). -/
def fetchEngine (s : State) (cl : Nat) : Option Nat := pickEngine s (cl / 24)

/-- The run that fetches an operation's tile: the one under way, or a new one, once an engine has room (R127, R136). -/
def fetchRun (s : State) (cl : Nat) (cmd : CopyCmd) : Option (CopyRun × State) :=
  match s.eng.copies.find? fun r => r.cmd.cache == cmd.cache with
  | some r => some (r, s)
  | none => (fetchEngine s cl).map fun e =>
    let r := CopyRun.begin s cmd e
    (r, s.onEng fun x => { x with copies := x.copies ++ [r] })

/-- The fetch command of an MMAT's tile (R136). -/
def MatOp.fetchCmd (o : MatOp) (t : TileUse) (ctx : Nat) (grids : List Nat) (inRegion : Bool) : CopyCmd :=
  { id := o.id, group := o.group, grids := grids, team := t.team, ctx := ctx, core := o.core, cmd := t.cmd, desc := t.desc
    ragged := t.cmd.getLsbD 13, batch := 0, arriveHeld := false, inRegion := inRegion, snap := [], cache := some o.id }

/-- An MMAT has its tile: its region keeps a hold of it (R271). -/
def gotTile (s : State) (o : MatOp) (t : TileUse) (bytes : List Byte) (pois : List Nat) (st : BitVec 16) (far : Nat) : State :=
  let s := onOp s o fun x => { x with tile := x.tile.map fun u => { u with got := some (bytes, pois, st, far) } }
  if st.getLsbD 0 then s
  else s.onGroup o.group fun g => g.onRegion fun r =>
    if (r.tile? t.team t.handle t.gen).isSome then r
    else { r.touch with tiles := r.tiles ++ [⟨t.team, t.handle, t.gen, bytes, pois, st⟩] }

/-- An entry of the operand cache that a queued MMAT needs (R271). -/
def ocNeeded (s : State) (e : OcEntry) : Bool :=
  (matTable s e.cluster).any fun o => match o.tile with
    | some t => t.team == e.team && t.handle == e.handle && t.gen == e.gen && t.got.isNone
    | none => false

/-- Room for one more entry in a cluster's operand cache: the least recently used entry that no queued MMAT needs goes
(R271). -/
def ocRoom (s : State) (cl : Nat) : Option State :=
  let mine := s.eng.oc.filter fun e => e.cluster == cl
  if mine.length < 64 then some s
  else
    let free := mine.filter fun e => !ocNeeded s e
    match free with
    | [] => none
    | e :: r =>
      let old := r.foldl (fun (a : OcEntry) b => if b.used < a.used then b else a) e
      some (s.onEng fun x => { x with oc := x.oc.filter (· != old) })

/-- An MMAT's reads wait for earlier MMATs of its core and for the QFENCEs before it (R115-R117). -/
def fetchTurn (s : State) (o : MatOp) : Bool :=
  let s := settleFences s o.core
  !((matTable s o.cluster).any fun x => x.core == o.core && decide (x.id < o.id) && (match x.tile with
      | some t => t.got.isNone
      | none => false)) &&
    (s.queues o.core).matFences.all fun f => decide (o.id < f.2)

/-- OPERAND_FETCH_COMPLETE (R136, R270, R271): the tile of the oldest waiting MMAT of a core is found in the operand cache, or
its fetch begins, moves on, and ends. -/
def execOperandFetchComplete (cl n : Nat) (s : State) : Out :=
  .next <|
    match (matTable s cl).find? fun o => o.id == n with
    | none => s
    | some o =>
      match o.tile with
      | none => s
      | some t =>
        if t.got.isSome || !fetchTurn s o then s
        else
          let s := settleFences s o.core
          match s.eng.oc.find? fun e => e.cluster == cl && e.team == t.team && e.handle == t.handle && e.gen == t.gen with
          | some e =>
            let s := s.onEng fun x => { x with oc := x.oc.map fun y => if y = e then { y with used := s.clock.cycle } else y }
            gotTile s o t e.bytes e.pois e.status 0
          | none =>
            match ocRoom s cl with
            | none => s
            | some s =>
              let g := s.group? o.group
              let cmd := o.fetchCmd t ((g.map fun x => x.info.ctx).getD 0) ((g.map Group.grids).getD [])
                ((g.map Group.inRegion).getD false)
              match fetchRun s cl cmd with
              | none => s
              | some x =>
              let (r, s) := x.1.advance x.2
              if !r.ended then setRun s r
              else
                let s := s.onEng fun e => { e with copies := e.copies.filter fun x => x.cmd.cache != some n }
                if r.status.getLsbD 0 then gotTile s o t [] [] r.status r.far
                else if r.stale then gotTile s o t r.bytes r.pois r.status 0
                else
                  let entry : OcEntry := ⟨cl, t.team, t.handle, t.gen, r.bytes, r.pois, r.status, s.clock.cycle⟩
                  gotTile (s.onEng fun e => { e with oc := e.oc ++ [entry] }) o t r.bytes r.pois r.status 0

/-! ## The arbiter -/

/-- The entry of an MMAJ that has not issued: it waits for its partners (R273). -/
def MatOp.unissued (s : State) (o : MatOp) : Bool :=
  match o.mmaj, s.group? o.group with
  | some n, some g => decide (g.mmaj ≤ n)
  | _, _ => false

/-- An entry is ready: operands captured, tile fetched, partners come (R430). -/
def matReady (s : State) (o : MatOp) : Bool :=
  !o.unissued s &&
  (match o.tile with
   | some t => t.got.isSome
   | none => true) &&
    (match o.mmaj with
     | some n =>
       match s.group? o.group with
       | some g => ((jointAll s o.core g.info.grid g.info.ix n).map fun os => os.all fun x => !x.unissued s).getD false
       | none => false
     | none => true)

/-- The entries that are eligible: ready, with every earlier entry of their core granted (R430). -/
def eligibleOps (s : State) (cl : Nat) : List MatOp :=
  let t := (matTable s cl).filter MatOp.native
  t.filter fun o => o.granted.isNone && matReady s o &&
    t.all fun x => x.core != o.core || decide (o.id ≤ x.id) || x.granted.isSome || x.unissued s

/-- The arbiter's order of two eligible entries (R430). -/
def grantBefore (now : Nat) (a b : MatOp) : Bool :=
  let old (o : MatOp) : Bool := match o.eligible with
    | some t => decide (t + 4096 ≤ now)
    | none => false
  if old a != old b then old a
  else if old a then decide (a.id < b.id)
  else if a.prio != b.prio then decide (b.prio < a.prio) else decide (a.id < b.id)

/-- Notes when entries became eligible (R430). -/
def markEligible (s : State) (cl : Nat) : State :=
  let ids := (eligibleOps s cl).map MatOp.id
  setTable s cl ((matTable s cl).map fun o =>
    if ids.contains o.id && o.eligible.isNone then { o with eligible := some s.clock.cycle } else o)

/-- The entry at the head of the arbiter's order, when the engine can take it now (R265, R430). -/
def nextGrant (s : State) (cl : Nat) : Option MatOp :=
  let now := s.clock.cycle
  match eligibleOps s cl with
  | [] => none
  | o :: r =>
    let head := r.foldl (fun a b => if grantBefore now b a then b else a) o
    let flying := (matTable s cl).filter fun x => x.granted.isSome
    let used := ((flying.filter fun x => x.granted == some now).map fun x => quarterPasses x.ins).foldl (· + ·) 0
    if exclusiveForm head.ins then (if flying.isEmpty then some head else none)
    else if flying.any fun x => exclusiveForm x.ins then none
    else if used + quarterPasses head.ins ≤ 4 then some head else none

/-- ENGINE_PASS_GRANT (R430): one grant of a cluster's arbiter. -/
def execEnginePassGrant (cl : Nat) (s : State) : Out :=
  let s := markEligible s cl
  .next <|
    match nextGrant s cl with
    | none => s
    | some o => onOp s o fun x => { x with granted := some s.clock.cycle }

/-- ARBITER_PROMOTION (R430): entries that became eligible 4,096 cycles ago come first; the order reads the time, so the
event changes only the note of when entries became eligible. -/
def execArbiterPromotion (cl : Nat) (s : State) : Out := .next (markEligible s cl)

/-! ## Deliveries of the engine -/

/-- Gives an operation's result to its group's pending entry, and frees the table entry (R264). -/
def deliverOp (o : MatOp) (x : EngineResult) : State :=
  let s := dropOp x.s o
  match s.group? o.group with
  | none => s
  | some g =>
    match g.pend.find? fun p => p.on == .engine o.id with
    | none => s
    | some p =>
      let q := { p with vals := x.regs, flags := x.flags, flagLanes := Mask.all, trap := x.trap, on := .cycle s.clock.cycle
                        pred := p.pred.map fun y => (y.1, x.pred) }
      deliverPending (s.setGroup o.group { g with pend := g.pend.map fun y => if y = p then q else y }) o.group q

/-- An injected residue mismatch on an engine: the region rolls back; outside one the engine performs the operation once more
from its captured operands, and that passes (R266, R393). -/
def deliverChecked (s : State) (o : MatOp) : State :=
  let inRegion := ((s.group? o.group).map Group.inRegion).getD false
  if o.inject && inRegion then rollback (dropOp s o) o.group (.residue 4 o.cluster) false
  else if o.inject then onOp s o fun x => { x with inject := false, granted := some s.clock.cycle }
  else deliverOp o (o.result s)

/-- The operation's turn to deliver: its latency is over and no earlier operation of its core is left (R264). -/
def matDue (s : State) (o : MatOp) : Bool :=
  (match o.granted with
   | some t => decide (t + engineLatency o.ins ≤ s.clock.cycle)
   | none => false) &&
    (matTable s o.cluster).all fun x => x.core != o.core || !x.native || x.unissued s || decide (o.id ≤ x.id)

/-- The word of an MMAJ (R273). -/
def jointFmt (i : Instr) : Option JFmt :=
  match i with
  | .mmaj _ _ _ _ _ f => some f
  | _ => none

/-- A partner waits for the others of its joint product (R273). -/
def gathering (s : State) (o : MatOp) : Bool := match (s.group? o.group).bind fun g => g.split? o.split with
  | some sp => sp.hold == some (.wait .mmaj)
  | none => false

/-- A joint product is delivered to all four partners together, or all four take ILLEGAL when their F4 differ (R273). -/
def deliverJoint (s : State) (os : List MatOp) : State :=
  let runs (i : Nat) : List LaneReg × List LaneReg :=
    ((os[i]?).map fun o => (o.regs.getD 0 [], o.regs.getD 1 [])).getD ([], [])
  let same := os.all fun o => jointFmt o.ins == (os.head?.bind fun x => jointFmt x.ins)
  os.zipIdx.foldl (fun s e =>
    let x : EngineResult := match same, jointFmt e.1.ins with
      | true, some f =>
        let (regs, fl) := productJoint f e.2 runs (e.1.regs.getD 2 [])
        ⟨regs, fl, false, none, s⟩
      | _, _ => ⟨[], 0, false, some ⟨causeIllegal, Mask.all, 0, 0⟩, s⟩
    deliverOp e.1 x) s

/-- MATRIX_DELIVERY (R264-R273): an operation whose latency is over delivers; MMAJ with its partners, 48 cycles after the
last of them issued. -/
def execMatrixDelivery (cl n : Nat) (s : State) : Out :=
  .next <|
    match (matTable s cl).find? fun o => o.id == n && o.native with
    | none => s
    | some o =>
      match o.mmaj with
      | none => if matDue s o then deliverChecked s o else s
      | some m =>
        match (s.group? o.group).bind fun g => jointAll s o.core g.info.grid g.info.ix m with
        | none => s
        | some os =>
          let due (x : MatOp) : Bool := matDue s x && decide (x.issued + 48 ≤ s.clock.cycle)
          if os.all (fun x => !x.unissued s) && os.all due then deliverJoint s os else s

/-- MMAJ_GATHER_TIMEOUT (R273): partners that have not all come within the starvation limit; every waiting one takes ILLWAIT.
The timer stands while a partner is pre-empted. -/
def execMmajGatherTimeout (cl n : Nat) (s : State) : Out :=
  .next <|
    match (matTable s cl).find? fun o => o.id == n with
    | none => s
    | some o =>
      match o.mmaj, s.group? o.group with
      | some m, some g =>
        let os := (List.range 4).filterMap fun i => jointEntry s (quadOf o.core + i) g.info.grid g.info.ix m
        let late := os.any fun x => gathering s x && decide (x.issued + s.starve ≤ s.clock.cycle)
        if os.length < 4 && late && !partnerAway s g.info.grid g.info.ix then
          (os.filter (gathering s)).foldl (fun s x =>
            match (s.group? x.group).bind fun g => g.split? x.split with
            | some sp => postTrap (dropOp s x) x.group sp.id true (Trap.word causeIllwait 0x71) sp.pc sp.pc false
            | none => dropOp s x) s
        else s
      | _, _ => s

/-- A cycle passes: the timers of joint products stand while a partner is pre-empted (R273). -/
def holdJoints (s : State) : State :=
  if s.work.saved.isEmpty then s
  else
    let away (o : MatOp) : Bool := o.mmaj.isSome && gathering s o &&
      (match s.group? o.group with
       | some g => partnerAway s g.info.grid g.info.ix
       | none => false)
    s.onEng fun e => { e with mats := e.mats.map fun x =>
      (x.1, x.2.map fun o => if away o then { o with issued := o.issued + 1 } else o) }

/-- FMTEMU_COMPLETE (R156): the control core has performed the word, which comes next of the group's. -/
def execFmtemuComplete (k : Nat) (s : State) : Out :=
  .next <|
    match s.group? k with
    | none => s
    | some g =>
      match g.emu with
      | none => s
      | some e =>
        if e.due = 0 ∨ s.clock.cycle < e.due then s
        else
          let s := s.setGroup k { g with emu := some { e with due := 0 } }
          { s with issuing := ⟨coreOf k, slotOf k, e.split⟩ :: s.issuing }

end Sys2Proof.Machine
end

