-- ==== Sys2Proof/Machine/Trays.lean ====
section
/-! DEFINITION. The tray table and the tray units (spec/16 R354-R355, spec/18 R401-R402, spec/19 R425-R427). -/

namespace Sys2Proof.Machine

/-- A 64-bit field of a tray header: bits [hi:lo] of the 512 (R426). -/
def trayField (h : List W64) (hi lo : Nat) : Nat := bitsOf (h.getD (lo / 64) 0).toNat (hi % 64) (lo % 64)

/-- The tray header of an entry packet: the lowest-indexed match (R426). -/
def findTray (s : State) (ctx entry : Nat) : Option (List W64) :=
  match s.ctx? ctx with
  | none => none
  | some c =>
    let hdr (i : Nat) : List W64 := (List.range 8).map fun w => w64 (physNat s (c.trt + 64 * i + 8 * w) 8)
    ((List.range c.trtn).map hdr).find? fun h => trayField h 447 416 == entry

/-- Scope size of a tray's groups (R426). -/
def trayRegs (h : List W64) : Nat := trayField h 396 392

/-- The header breaks a rule: its groups are refused (R426, R413). -/
def trayRefused (h : List W64) : Bool :=
  trayField h 319 256 != 0 || trayField h 367 357 != 0 || trayField h 387 384 != 0 || trayRegs h == 0 ||
    decide (24 < trayRegs h) || decide (262144 < trayField h 415 397) || trayField h 511 448 % 64 != 0 ||
    decide (2 ^ 48 ≤ trayField h 511 448)

/-- The records of an effect and their tray's entry. -/
def effectRecords (e : Effect) : Option (Nat × List TrayRec) :=
  match e with
  | .spawn n rs => some (n, rs)
  | .pathSpawn n rs => some (n, rs)
  | _ => none

/-- Records promised to a die's tray unit and not yet in it: released ones and those that regions hold. Each is its context,
entry and number of records. -/
def trayPromised (s : State) (die : Nat) : List (Nat × Nat × Nat) :=
  let of' (ctx : Nat) (e : Effect) : Option (Nat × Nat × Nat) := (effectRecords e).map fun r => (ctx, r.1, r.2.length)
  (s.work.releases.filter fun r => r.die == die).filterMap (fun r => of' r.ctx r.eff) ++
    (s.work.groups.filter fun e => dieOf (coreOf e.1) == die).flatMap fun e =>
      ((e.2.region.map Region.effects).getD []).filterMap (of' e.2.info.ctx)

/-- A die's tray unit has room for records of some entries: 64 trays and 4,096 records (R425). -/
def trayFits (s : State) (die ctx : Nat) (news : List (Nat × Nat)) : Bool :=
  let inUnit : List (Nat × Nat × Nat) := (s.work.trays.filter fun t => t.die == die).map fun t => (t.ctx, t.entry, t.recs.length)
  let all : List (Nat × Nat × Nat) := inUnit ++ trayPromised s die ++ news.map fun e => (ctx, e.1, e.2)
  let keys := all.foldl (fun (acc : List (Nat × Nat)) x =>
    if acc.contains (x.1, x.2.1) then acc else (x.1, x.2.1) :: acc) []
  let total : Nat := (all.map fun (x : Nat × Nat × Nat) => x.2.2).foldl Nat.add 0
  decide (total ≤ 4096) && decide (keys.length ≤ 64)

/-- Each grid among some records, once. -/
def recordGrids (rs : List TrayRec) : List Nat := rs.foldl (fun acc r => insNat acc r.grid) []

/-- A tray issues a group of its oldest records, at most 32 (R427); a header that breaks a rule refuses it, and the refusal
reaches each record's grid as FAULT (R426). -/
def trayIssue (s : State) (t : Tray) : State :=
  let rs := t.recs.take 32
  let left := t.recs.drop 32
  let cut (x : Tray) : Tray := if x.die = t.die ∧ x.ctx = t.ctx ∧ x.entry = t.entry then { x with recs := left } else x
  let s := s.onWork fun w => { w with trays := (w.trays.map cut).filter fun x => !x.recs.isEmpty }
  match findTray s t.ctx t.entry with
  | none => (recordGrids rs).foldl (fun s g => setGridFlag s g 6) s
  | some h =>
    if trayRefused h || rs.any fun r => r.vals.any fun v => decide (trayRegs h ≤ v.1) then (recordGrids rs).foldl (fun s g => setGridFlag s g 6) s
    else s.onWork fun w =>
      { w with trayGroups := w.trayGroups ++ [⟨t.ctx, t.die, h, rs, w.nextGrid⟩], nextGrid := w.nextGrid + 1 }

/-- Records enter their tray; a tray with 32 records issues a group (R354, R425, R427). -/
def trayAdd (s : State) (die ctx entry : Nat) (rs : List TrayRec) : State :=
  let rs := rs.map fun (r : TrayRec) => { r with written := s.clock.cycle }
  let mine (t : Tray) : Bool := t.die == die && t.ctx == ctx && t.entry == entry
  let s := s.onWork fun w =>
    { w with trays := if w.trays.any mine then w.trays.map fun t => if mine t then { t with recs := t.recs ++ rs } else t
        else w.trays ++ [⟨ctx, die, entry, rs⟩] }
  (List.range (rs.length / 32 + 1)).foldl (fun s _ =>
    match s.work.trays.find? mine with
    | some t => if 32 ≤ t.recs.length then trayIssue s t else s
    | none => s) s

end Sys2Proof.Machine
end

