-- ==== Sys2Proof/Machine/System.lean ====
section
/-! DEFINITION. Launch, region and system instructions (spec/18 R387-R410, spec/08 R185-R190, spec/16 R351-R361). -/

namespace Sys2Proof.Machine

/-! ## Shared -/

/-- The mask operand: bits [23:0] (R388). -/
def Cx.maskOf (c : Cx) (t : Tail) (b : MaskSrc) : BitVec 24 :=
  match b with
  | .zero => 0
  | .lit =>
    match t with
    | .lit v _ => v.setWidth 24
    | _ => 0
  | .s n => (c.rd.scalar n.val).setWidth 24

/-- The names of a mask, ascending. -/
def maskNames (m : BitVec 24) : List Nat := (List.range 24).filter fun n => m.getLsbD n

/-- The names of a mask operand must be in scope (R177, R388). -/
def maskChecks (t : Tail) (b : MaskSrc) (ck : Checks) : Checks := { ck with names := fun c => maskNames (c.maskOf t b) }

/-- The group is divided: ILLCONV (R189, R403). -/
def wholeChecks : Checks := { Checks.none with illconv := fun c => c.g.inSplits }

/-- Adds an effect to the open region. -/
def Cx.hold (c : Cx) (e : Effect) : Cx :=
  { c with g := c.g.onRegion fun r => { r.touch with effects := r.effects ++ [e] } }

/-- The group with its complete accesses counted, and a release of an effect from it (R111). -/
def Cx.release (c : Cx) (e : Effect) : Cx :=
  let g := c.g.settle c.s
  { c with g := g, s := c.s.addRelease (releaseOf g c.k e) }

/-- A word whose fixed fields are illegal traps before every other check. -/
def staticWord (i : Instr) (bad : Option Nat) (ck : Checks) (s : State) (body : Cx → State) : Out :=
  match bad with
  | none => issue i ck s body
  | some info =>
    match cx? i s with
    | none => .fault .noUnit
    | some c => .next (c.raise causeIllegal info)

/-! ## LAUNCH, WAITCHILD -/

/-- Ids of a context that no new grid may take: live grids, children whose status a team holds, and launches that are released
or held (R414). -/
def idsTaken (s : State) (ctx : Nat) : List Nat :=
  let launches (es : List Effect) : List Nat := es.filterMap fun e => match e with
    | .launch l => some l.id
    | _ => none
  ((s.work.grids.filter fun g => g.2.ctx == ctx).map fun g => g.2.id) ++
    launches ((s.work.releases.filter fun r => r.ctx == ctx).map Release.eff) ++
    ((s.work.dlq.flatMap Prod.snd).filter fun l => l.ctx == ctx).map DevLaunch.id ++
    ((s.work.groups.filter fun g => g.2.info.ctx == ctx).flatMap fun g => ((g.2.region.map Region.launchIds).getD [])) ++
    (((s.work.teams.map Prod.snd).filter fun t => t.ctx == ctx) ++
      (s.work.saved.filter fun x => x.ctx == ctx).map Saved.team).flatMap fun t => t.children.map Child.id

/-- The next grid id of a context: ids count upward, skipping 0 and those taken (R414). -/
def freshId (s : State) (ctx : Nat) : Nat × State :=
  let used := idsTaken s ctx
  let start := ((s.ctx? ctx).map Ctx.nextId).getD 1
  let try' (i : Nat) : Nat := (start + i) % 2 ^ 32
  let id := (((List.range (used.length + 2)).map try').find? fun n => n != 0 && !used.contains n).getD start
  (id, s.onWork fun w => { w with ctxs := NMap.adjust w.ctxs ctx fun c => { c with nextId := (id + 1) % 2 ^ 32 } })

/-- The id of a region's next launch: a replay's launch at the same position receives the same id (R405). -/
def Cx.launchId (c : Cx) : Nat × Cx :=
  match c.g.region with
  | none =>
    let (id, s) := freshId c.s c.g.info.ctx
    (id, { c with s := s })
  | some r =>
    match r.launchIds[r.launchNo]? with
    | some id => (id, { c with g := c.g.onRegion fun r => { r with launchNo := r.launchNo + 1 } })
    | none =>
      let (id, s) := freshId c.s c.g.info.ctx
      (id, { c with s := s, g := c.g.onRegion fun r =>
        { r with launchNo := r.launchNo + 1, launchIds := r.launchIds ++ [id] } })

/-- Launches that wait for the dispatcher at a die: released ones (R397). -/
def dlqOf (s : State) (die : Nat) : List DevLaunch := (NMap.get? s.work.dlq die).getD []

/-- A launch's header has been read: its id is pushed, and it is released, or held by the region (R397, R405). -/
def Cx.acceptLaunch (c : Cx) (us : Uses) (act : Mask) (addr : Nat) (args : W64) (hdr : List W64) : State :=
  let (id, c) := (c.pops us).launchId
  let l : DevLaunch :=
    { ctx := c.g.info.ctx, team := c.g.info.team, grid := c.g.info.grid, level := c.g.info.level, hdr := hdr
      hdrAddr := addr, args := args, id := id, prev := [] }
  let c := if c.g.inRegion then c.hold (.launch l)
    else
      let g := c.g.settle c.s
      { c with g := g, s := noteLaunch c.s (releaseOf g c.k (.launch l)) l }
  (c.pushValue act (w64 id)).done

/-- LAUNCH (R397, R351). -/
def execLaunch (t : Tail) (g : Guard) (l : La) (a b : Src) (s : State) : Out :=
  let i := Instr.launch t g l a b
  issue i Checks.none s fun c =>
    let act := c.guard g
    if c.g.info.ix ≠ 0 then c.raise causeIllnest 0xC
    else if 10 ≤ c.g.info.level then c.raise causeDepth 0
    else
      match act.lowest? with
      | none => ((c.pops i.uses).pushValue 0 0).done
      | some n =>
        let addr := ((c.opA t .int a).lane n).toNat
        let args := (c.opB t .int a b).lane n
        if 256 ≤ (dlqOf c.s (dieOf (coreOf c.k))).length then c.held .full
        else
          c.readGlobal ⟨i.uses, act, n, true⟩ addr 128 128 fun c hdr =>
            c.acceptLaunch i.uses act addr args hdr

/-- The grid id that WAITCHILD names. -/
def Cx.childArg (c : Cx) (t : Tail) (a : Src) : Nat := (uniform c.act (c.opA t .int a)).toNat

/-- WAITCHILD is illegal in class W, and in a region that holds the launch it waits for (R361, R405). -/
def waitchildChecks (t : Tail) (a : Src) : Checks :=
  { Checks.none with
    illwait := fun c => if c.cls = 2 then some 5 else none
    illregion := fun c =>
      match c.g.region with
      | none => false
      | some r => r.effects.any fun e => match e with
        | .launch l => c.childArg t a == 0 || l.id == c.childArg t a
        | _ => false }

/-- The team's children (R398). -/
def Cx.children (c : Cx) : List Child := ((c.s.team? c.g.info.team).map Team.children).getD []

/-- WAITCHILD (R398). -/
def execWaitchild (t : Tail) (l : La) (a : Src) (s : State) : Out :=
  let i := Instr.waitchild t l a
  issue i (waitchildChecks t a) s fun c =>
    let n := c.childArg t a
    let kids := if n = 0 then c.children else c.children.filter fun x => x.id == n
    if n ≠ 0 ∧ kids.isEmpty then c.raise causeIllegal 4
    else if kids.all fun x => x.status.isSome then
      let all := kids.foldl (fun (v : W64) x => v ||| x.status.getD 0) 0
      ((c.pops i.uses).pushValue c.act all).done
    else c.wait .waitchild

/-! ## SPAWN, YIELD -/

/-- The entries that some lanes name, each once, with how many lanes name it, in lane order. -/
def laneEntries (es : List (Nat × Nat)) : List (Nat × Nat) :=
  es.foldl (fun acc e =>
    if acc.any fun x => x.1 == e.2 then acc.map fun x => if x.1 = e.2 then (x.1, x.2 + 1) else x
    else acc ++ [(e.2, 1)]) []

/-- The checks of SPAWN and YIELD, then the records by entry (R401, R388, R410, R209). -/
def Cx.records (c : Cx) (t : Tail) (g : Guard) (a : Src) (b : MaskSrc) (body : Cx → List (Nat × List TrayRec) → State) :
    State :=
  let act := c.guard g
  let m := c.maskOf t b
  let names := maskNames m
  let ctx := c.g.info.ctx
  let es := act.lanes.map fun l => (l, ((c.opA t .int a).lane l).toNat)
  let names? (p : Pending) : Bool := (p.room c.sp.id).isSome && names.any p.regs.contains
  match (c.g.late ++ c.g.pend).find? fun p => names? p && decide (0 < (p.room c.sp.id).getD 0) with
  | some p => c.trap ⟨causeLookahead, false, none, 0, p.prod.code⟩
  | none =>
    if c.g.pend.any names? then c.held .operand
    else if act = 0 then body c []
    else if 16 < names.length then c.raise causeIllegal 1
    else
      let hdrs := (laneEntries es).map fun e => (e, findTray c.s ctx e.1)
      if hdrs.any fun h => h.2.isNone then c.raise causeIllegal 5
      else if hdrs.any fun h => names.any fun n => decide (trayRegs (h.2.getD []) ≤ n) then c.raise causeIllegal 6
      else if !trayFits c.s (dieOf (coreOf c.k)) ctx (laneEntries es) then c.held .full
      else
        body c ((laneEntries es).map fun e =>
          (e.1, (es.filter fun x => x.2 == e.1).map fun x =>
            ⟨names.map fun n => (n, (c.rd.reg n).lane x.1), c.g.info.grid, 0⟩))

/-- SPAWN (R401, R405). -/
def execSpawn (t : Tail) (g : Guard) (a : Src) (b : MaskSrc) (s : State) : Out :=
  let i := Instr.spawn t g a b
  issue i (maskChecks t b Checks.none) s fun c =>
    c.records t g a b fun c rs =>
      let put (c : Cx) (r : Nat × List TrayRec) : Cx :=
        if c.g.inRegion then c.hold (.spawn r.1 r.2) else c.release (.spawn r.1 r.2)
      (rs.foldl put (c.pops i.uses)).done

/-- YIELD (R402, R405): a region commits first; the active lanes then leave as by EXIT. -/
def execYieldW (t : Tail) (g : Guard) (a : Src) (b : MaskSrc) (s : State) : Out :=
  let i := Instr.yieldW t g a b
  issue i (maskChecks t b Checks.none) s fun c =>
    let act := c.guard g
    c.records t g a b fun c rs =>
      if c.g.inRegion then c.commit (.bare false)
      else
        let c := rs.foldl (fun (c : Cx) r => c.release (.spawn r.1 r.2)) (c.pops i.uses)
        if act = 0 then c.done
        else { c with g := { c.g with path := { c.g.path with st := .none } } }.exitLanes act c.nextPc

/-! ## TASK, COMMIT -/

/-- TASK (R403): the snapshot waits for every pending result, so that it holds whole registers. -/
def execTask (t : Tail) (b : MaskSrc) (s : State) : Out :=
  issue (.task t b) (maskChecks t b wholeChecks) s fun c =>
    let m := c.maskOf t b
    if c.g.inRegion then c.raise causeIllnest 8
    else if c.g.regs.scope.isNone then c.raise causeIllnest 0xA
    else if !c.g.pend.isEmpty then c.held .operand
    else
      let r := Region.new c.sp.pc false (c.g.snapshot c.sp c.nextPc m) (clusterOf (coreOf c.k))
      { c with g := { c.g with region := some r, reopen := .no } }.done

/-- COMMIT (R404). -/
def execCommit (cb : Bool) (s : State) : Out :=
  issue (.commit cb) wholeChecks s fun c =>
    if c.g.inRegion then c.commit .close else c.raise causeIllnest 9

/-! ## Register scopes -/

/-- Blocks of the register file that a group holds (R176). -/
def Group.blocks (g : Group) : Nat := 32 + 2 * g.names

/-- Blocks in use on a core. -/
def blocksUsed (s : State) (core : Nat) : Nat := ((s.groupsOf core).map fun e => e.2.blocks).foldl Nat.add 0

/-- A group waits for blocks in REGS or GROW (R190). -/
def Group.waitsBlocks (g : Group) : Option Nat :=
  (g.splits.filterMap fun sp => match sp.hold with
    | some (.blocks n _) => some n
    | _ => none).head?

/-- The core grants `n` more blocks to a group: they are free, and no older group waits for blocks (R190). -/
def grants (s : State) (k : Nat) (g : Group) (n : Nat) : Bool :=
  let older := (s.groupsOf (coreOf k)).any fun e =>
    e.1 != k && e.2.waitsBlocks.isSome && (decide (e.2.info.born < g.info.born) ||
      (e.2.info.born == g.info.born && decide (e.1 < k)))
  !older && decide (blocksUsed s (coreOf k) + n ≤ Config.coreBlocks)

/-- The lowest sixteen names of a mask (R185). -/
def firstSixteen (m : BitVec 24) : BitVec 24 :=
  BitVec.ofNat 24 (((maskNames m).take 16).map fun n => 2 ^ n).sum

/-- A scope that grows from `m` to `n` names: the new names are zero in every lane (R185, R187). -/
def Regs.widen (r : Regs) (m n : Nat) (ws : BitVec 24) : Regs :=
  let name (i : Nat) : LaneReg := if m ≤ i ∧ i < n then LaneReg.zero else r.v.toArray.toList.getD i LaneReg.zero
  let kept := if m = 0 then 0 else r.ws
  { r with scope := some n, v := ⟨⟨(List.range 24).map name⟩, by simp⟩
           ws := kept ||| firstSixteen (BitVec.ofNat 24
             (((maskNames ws).filter fun i => decide (i < n) && !kept.getLsbD i).map fun i => 2 ^ i).sum) }

/-- The working set's limit of sixteen names: those it had come first (R187). -/
def Regs.limit (r : Regs) (old : BitVec 24) : Regs :=
  let had := (maskNames r.ws).filter fun i => old.getLsbD i
  let new := (maskNames r.ws).filter fun i => !old.getLsbD i
  { r with ws := BitVec.ofNat 24 (((had ++ new).take 16).map fun i => 2 ^ i).sum }

/-- REGS (R185, R189, R190, R406). -/
def execRegs (t : Tail) (n : Six) (b : MaskSrc) (s : State) : Out :=
  staticWord (.regs t n b) (if n.val = 0 ∨ 24 < n.val then some 0 else none) wholeChecks s fun c =>
    if c.g.regs.scope.isSome then c.raise causeIllnest 0xA
    else if !grants c.s c.k c.g (2 * n.val) then c.held (.blocks n.val false)
    else
      let ws := firstSixteen (c.maskOf t b)
      { c with g := c.g.onRegs fun r => (r.widen 0 n.val ws).limit 0 }.done

/-- Results that are still to come no longer write the names from `n` on, which have died; their result-queue entries they write
(R180, R186, R188). -/
def Group.forget (g : Group) (n : Nat) : Group :=
  let cut (p : Pending) : Pending := { p with regs := p.regs.filter fun r => decide (r < n) }
  { g with pend := g.pend.map cut, late := g.late.map cut }

/-- ENDREGS is illegal in a region (R189). -/
def endregsChecks : Checks := { wholeChecks with illregion := fun c => c.g.inRegion }

/-- ENDREGS (R186, R189). -/
def execEndregs (cb : Bool) (s : State) : Out :=
  issue (.endregs cb) endregsChecks s fun c =>
    if c.g.regs.scope.isNone then c.raise causeIllnest 0xA
    else
      let g := (c.g.forget 0).onRegs fun r =>
        { r with scope := none, ws := 0, v := ⟨⟨(List.range 24).map fun _ => LaneReg.zero⟩, by simp⟩ }
      { c with g := g }.done

/-- GROW (R187, R189, R190). -/
def execGrow (t : Tail) (n : Six) (b : MaskSrc) (s : State) : Out :=
  staticWord (.grow t n b) (if 24 < n.val then some 0 else none) wholeChecks s fun c =>
    let m := c.g.names
    if c.g.regs.scope.isNone then c.raise causeIllnest 0xA
    else if n.val < m then c.raise causeIllegal 0
    else if n.val = m then c.doneReopen
    else if c.g.inRegion then c.commit (.bare true)
    else if !grants c.s c.k c.g (2 * (n.val - m)) then c.held (.blocks n.val true)
    else { c with g := c.g.onRegs fun r => (r.widen m n.val (c.maskOf t b)).limit r.ws }.doneReopen

/-- SHRINK (R188, R189). -/
def execShrink (cb : Bool) (n : Six) (s : State) : Out :=
  staticWord (.shrink cb n) (if n.val = 0 then some 0 else none) wholeChecks s fun c =>
    let m := c.g.names
    if c.g.regs.scope.isNone then c.raise causeIllnest 0xA
    else if m < n.val then c.raise causeIllegal 0
    else if n.val = m then c.doneReopen
    else if c.g.inRegion then c.commit (.bare true)
    else
      let name (r : Regs) (i : Nat) : LaneReg := if i < n.val then r.v.toArray.toList.getD i LaneReg.zero else LaneReg.zero
      let g := (c.g.forget n.val).onRegs fun r =>
        { r with scope := some n.val, v := ⟨⟨(List.range 24).map (name r)⟩, by simp⟩
                 ws := BitVec.ofNat 24 (((maskNames r.ws).filter fun i => decide (i < n.val)).map fun i => 2 ^ i).sum }
      { c with g := g }.doneReopen

/-! ## Traps and system registers -/

/-- TRAP (R407). -/
def execTrap (t : Tail) (g : Guard) (n : Six) (b : Src) (s : State) : Out :=
  let i := Instr.trap t g n b
  issue i Checks.none s fun c =>
    let act := c.guard g
    if act = 0 then (c.pops i.uses).done
    else
      let x := uniform act (c.opA t .int b)
      (c.pops i.uses).doneTrap ⟨causeTrap, true, some act, x, w64 n.val⟩

/-- RTT (R408, R438, R410): what the handler's words still have to deliver is delivered first (R209). -/
def execRtt (cb : Bool) (s : State) : Out :=
  issue (.rtt cb) Checks.none s fun c =>
    match c.g.trap with
    | none => c.raise causeIllnest 0xD
    | some ts =>
      if c.g.sys.xpc.toNat % 4 = 3 then c.raise causeIllegal 0
      else if !c.g.pend.isEmpty then c.held .operand
      else { returnTrap { c.st with last := .issued } c.k ts with last := .issued }

/-- An unassigned system register number (R389). -/
def sysForbidden (n : Nat) : Option Nat := if 14 ≤ n ∧ n ≤ 31 ∨ 36 ≤ n then some 2 else none

/-- A privileged system register in an unprivileged context (R394). -/
def Cx.sysDenied (c : Cx) (n : Nat) : Bool := decide (32 ≤ n) && !c.g.info.priv

/-- The value of a system register, as it stood before the chain (R201, R389-R395). -/
def Cx.sysRead (c : Cx) (n : Nat) : W64 :=
  let x := c.rd.sys
  match n with
  | 0 => x.xpc
  | 1 => x.xmask
  | 2 => x.xcause
  | 3 => x.xaddr
  | 4 => x.xinfo
  | 5 => x.fflags.setWidth 64
  | 6 => x.scrmask
  | 7 => w64 c.s.clock.dtime
  | 8 => w64 (c.rd.settle c.s).sys.horizon
  | 9 => w64 (c.g.info.role * 256 + c.g.info.ix)
  | 10 => c.g.info.dims
  | 11 => c.g.info.gdims
  | 12 => w64 c.g.info.cls
  | 13 => x.tracectl
  | 32 => w64 c.g.info.ctx
  | 33 => w64 (coreOf c.k)
  | 34 => w64 c.g.info.level
  | 35 => x.inject
  | _ => 0

/-- GETSR (R395). -/
def execGetsr (cb : Bool) (g : Guard) (l : La) (n : Six) (s : State) : Out :=
  staticWord (.getsr cb g l n) (sysForbidden n.val) Checks.none s fun c =>
    if c.sysDenied n.val then c.raise causeIllegal 3
    else (c.pushValue (c.guard g) (c.sysRead n.val)).done

/-- A system register takes a value according to its access code (R389, R396). -/
def SysRegs.write (x : SysRegs) (n : Nat) (v : W64) : SysRegs :=
  match n with
  | 0 => { x with xpc := v &&& 0x3FFFFFFFF }
  | 1 => { x with xmask := v &&& 0xFFFFFFFF }
  | 2 => { x with xcause := v &&& 0xFF }
  | 3 => { x with xaddr := v }
  | 4 => { x with xinfo := v }
  | 5 => { x with fflags := v.setWidth 5 }
  | 6 => { x with scrmask := x.scrmask &&& ~~~v }
  | 8 => { x with horizon := max x.horizon v.toNat }
  | 13 => { x with tracectl := v &&& 0xF007 }
  | 35 => { x with inject := v &&& 0xFF07 }
  | _ => x

/-- Enters a SYNC of a group in its core's queue (R449, R450). -/
def traceSync (s : State) (k split : Nat) : State :=
  let core := coreOf k
  match s.group? k with
  | none => s
  | some g =>
    if !(s.traceUnit (dieOf core)).en then s
    else
      let q := s.traceQ core
      let fits := q.lost == 0 && decide (q.words + 2 ≤ 64)
      let q' : TraceQueue := if fits then ⟨q.packets ++ [syncPacket s k g split], 0, s.clock.cycle⟩
        else { q with lost := min (q.lost + 1) (2 ^ 34 - 1) }
      let s := s.onPkg fun p => { p with traceq := NMap.set p.traceq core q' }
      s.setGroup k { g with traceOn := g.traceOn || fits, lastSync := s.clock.cycle, lostTrace := g.lostTrace || !fits }

/-- SETSR (R396): a handler's write of XPC counts for its RTT (R438), and EN or USER becoming 1 writes a SYNC (R449). -/
def execSetsr (t : Tail) (g : Guard) (n : Six) (b : Src) (s : State) : Out :=
  let i := Instr.setsr t g n b
  staticWord i (sysForbidden n.val) Checks.none s fun c =>
    let act := c.guard g
    if c.sysDenied n.val then c.raise causeIllegal 3
    else if act = 0 then (c.pops i.uses).done
    else
      let v := uniform act (c.opA t .int b)
      let was := c.g.sys.tracectl
      let g := c.g.onSys fun x => x.write n.val v
      let g := if n.val = 0 then { g with trap := g.trap.map fun ts => { ts with xpcWritten := true } } else g
      let new := g.sys.tracectl &&& ~~~was
      let s := ({ c with g := g }.pops i.uses).done
      if new &&& 5 != 0 then { traceSync s c.k c.sp.id with last := .issued } else s

/-! ## Signals between grids -/

/-- Groups of a team (R356, R412). -/
def Header.teamGroups (h : Header) : Nat :=
  (h.roles.map Role.groups).sum

/-- A grid has signalled (R399): all its teams have been admitted, and each group has signalled or exited. A grid that is
no longer known is complete. -/
def hasSignalled (s : State) (gk : Nat) : Bool :=
  match s.grid? gk with
  | none => true
  | some g => g.done || (g.next == g.total && decide (g.total * g.hdr.teamGroups ≤ g.signals))

/-- WAITPRED is illegal in class W (R361). -/
def waitpredChecks : Checks := { Checks.none with illwait := fun c => if c.cls = 2 then some 4 else none }

/-- WAITPRED (R400). -/
def execWaitpred (cb : Bool) (s : State) : Out :=
  issue (.waitpred cb) waitpredChecks s fun c =>
    let deps := ((c.s.grid? c.g.info.grid).map Grid.deps).getD []
    if deps.all (hasSignalled c.s) then c.done else c.wait .waitpred

/-- The group's signal is held by its region. -/
def Region.holdsSignal (r : Region) : Bool := r.effects.any fun e => match e with
  | .signal => true
  | _ => false

/-- SIGSUCC (R399, R405). -/
def execSigsucc (cb : Bool) (s : State) : Out :=
  issue (.sigsucc cb) Checks.none s fun c =>
    match c.g.region with
    | some r => if c.g.signalled || r.holdsSignal then c.done else (c.hold .signal).done
    | none =>
      if c.g.signalled then c.done
      else
        let c := c.release .signal
        { c with g := { c.g with signalled := true } }.done

/-- TRACE (R409). -/
def execTraceW (t : Tail) (g : Guard) (n : Six) (b : Src) (s : State) : Out :=
  let i := Instr.traceW t g n b
  issue i Checks.none s fun c =>
    let act := c.guard g
    let x := uniform act (c.opA t .int b)
    let on := act != 0 && c.g.sys.tracectl.getLsbD 2
    let s := (c.pops i.uses).done
    if on then { traceEnter s c.k c.sp.id 6 (n.val * 2 ^ 28) [x] with last := .issued } else s

end Sys2Proof.Machine
end

