-- ==== Sys2Proof/Machine/Sched.lean ====
section
/-! DEFINITION. Events of cores: selection, deliveries, fences, commits, releases, and the timers of waits (spec/05 R103-R113,
spec/16 R356-R367, spec/19 R427-R429). An event whose condition does not hold changes nothing. -/

namespace Sys2Proof.Machine

/-! ## Selection -/

/-- The context of a group is halted by a pre-emption (R443). -/
def ctxHalted (s : State) (ctx : Nat) : Bool := ((s.ctx? ctx).map fun c => c.preempted || c.saving).getD false

/-- The groups of a role that run in lock-step with a group, lowest slot first (R356). -/
def roleMembers (s : State) (k : Nat) (g : Group) : List Nat :=
  if g.info.roleSize ≤ 1 then [k]
  else
    ((s.groupsOf (coreOf k)).filter fun e => e.2.info.team == g.info.team && e.2.info.role == g.info.role).map Prod.fst

/-- The member of a group's role that runs a trap handler: it runs alone, and the role is held (R356, R440). -/
def roleHandler (s : State) (k : Nat) (g : Group) : Option Nat :=
  (roleMembers s k g).find? fun m => ((s.group? m).map fun x => x.trap.isSome).getD false

/-- The groups that a unit's chain runs for: the whole role, or one group (R356). -/
def unitGroups (s : State) (u : UnitRef) : List Nat :=
  let k := unitKey u
  match s.group? k with
  | none => []
  | some g => if (roleHandler s k g).isSome then [k] else roleMembers s k g

/-- A group whose words may not issue now: halted, replayed elsewhere, in an emulation, or with results that must be delivered
first, before a trap or after a halt (R156, R209, R436, R443, R457). -/
def Group.stands (g : Group) : Bool :=
  g.halted || g.proxied || !g.traps.isEmpty || (g.drain && !g.pend.isEmpty) ||
    (match g.emu with
     | some e => e.due != 0
     | none => false)

/-- The splits of a group that may issue: the handler's alone in handler mode, the emulated word's alone once it is done, and
none that waits for its page (R50, R57, R58, R156, R436). -/
def Group.runners (g : Group) : List Split :=
  let sps := match g.trap, g.emu with
    | some ts, _ => g.splits.filter fun (sp : Split) => sp.id == ts.split
    | none, some e => g.splits.filter fun (sp : Split) => sp.id == e.split
    | none, none => g.splits
  sps.filter fun (sp : Split) => match sp.hold with
    | some (.fault _ _ _) => false
    | _ => true

/-- The units of a core, by slot: groups, splits, roles; not those of a group that stands, that a commit holds, or of a role whose
other group runs a handler (R356, R404, R428). -/
def unitsOf (s : State) (core : Nat) : List (UnitRef × Group × Split) :=
  (s.groupsOf core).flatMap fun (e : Nat × Group) =>
    let g := e.2
    let lead := match roleHandler s e.1 g with
      | some m => m == e.1
      | none => (roleMembers s e.1 g).head? == some e.1
    let waits := (roleMembers s e.1 g).any fun m => ((s.group? m).map Group.committing).getD false
    if g.stands || ctxHalted s g.info.ctx || !lead || waits then []
    else g.runners.map fun (sp : Split) => ((⟨core, slotOf e.1, sp.id⟩ : UnitRef), g, sp)

/-- A unit has not issued for the starvation limit (R364). -/
def starved (s : State) (sp : Split) : Bool := decide (s.starve ≤ s.clock.cycle - sp.lastIssue)

/-- The order of selection: starved units by admission, then priority, then the least recently issued, then the slot
(R429). -/
def unitBefore (s : State) (a b : UnitRef × Group × Split) : Bool :=
  match starved s a.2.2, starved s b.2.2 with
  | true, false => true
  | false, true => false
  | true, true => decide (a.2.1.info.born < b.2.1.info.born)
  | false, false =>
    if a.2.1.info.prio ≠ b.2.1.info.prio then decide (b.2.1.info.prio < a.2.1.info.prio)
    else decide (a.2.2.lastIssue < b.2.2.lastIssue)

/-- Inserts a unit behind those that come before it. -/
def insUnit (s : State) (u : UnitRef × Group × Split) : List (UnitRef × Group × Split) → List (UnitRef × Group × Split)
  | [] => [u]
  | x :: l => if unitBefore s u x then u :: x :: l else x :: insUnit s u l

/-- ISSUE_CYCLE (R429): a core's units are put in their order of selection; `step` issues the chains. -/
def execIssueCycle (core : Nat) (s : State) : Out :=
  let us := (unitsOf s core).foldl (fun l u => insUnit s u l) []
  .next { s with issuing := s.issuing ++ us.map Prod.fst }

/-! ## Deliveries -/

/-- The lowest lane of a delivery trap. -/
def DelivTrap.low (t : DelivTrap) : Nat := t.mask.lowest?.getD 32

/-- Two traps of one delivery: the lowest lane decides, and lanes of the same cause join (R314). -/
def joinTraps (a : Option DelivTrap) (b : DelivTrap) : DelivTrap :=
  match a with
  | none => b
  | some a =>
    let (x, y) := if b.low < a.low then (b, a) else (a, b)
    if x.cause = y.cause then { x with mask := x.mask ||| y.mask } else x

/-- A reply for a lane of a pending result (R299, R314, R471): lane 32 stands for every active lane. -/
def Pending.take (p : Pending) (accept : Bool) (lane va : Nat) (ty : MemTy) (r : Reply) : Pending :=
  let m := if lane = 32 then p.act else lanesMask [lane]
  let put (x : Nat) : List LaneReg :=
    let new : List LaneReg := if ty = .b128 then [LaneReg.splat (w64 (x % 2 ^ 64)), LaneReg.splat (w64 (x / 2 ^ 64))]
      else [LaneReg.splat (MemTy.extend ty x)]
    (p.vals.zip new).map fun e => LaneReg.merge m e.2 e.1
  let at? := w64 (va / 32 * 32)
  match r with
  | .fail code => { p with trap := some (joinTraps p.trap ⟨causeRemote, m, at?, w64 code⟩) }
  | .ok bs false => { p with vals := put (leNat bs) }
  | .ok _ true =>
    if accept then { p with vals := put 0 } else { p with trap := some (joinTraps p.trap ⟨causePoison, m, at?, 0⟩) }

/-- The requests of a pending result that have not been taken yet. -/
def lanesOut (s : State) (k n : Nat) : List OutReq :=
  s.pkg.outreqs.filter fun r => match r.owner with
    | .lane g p _ _ => g == k && p == n
    | _ => false

/-- Takes the replies that have come for one pending result (R299, R471, R475). -/
def takeReplies (s : State) (k : Nat) (p : Pending) : Pending × State :=
  match p.on with
  | .reply n =>
    (lanesOut s k n).foldl (fun (acc : Pending × State) r =>
      match replyTo acc.2 r, r.owner with
      | some rep, .lane _ _ lane ty =>
        let accept := ((s.group? k).map fun g => g.info.accept).getD false
        let s := endRequest acc.2 r.n
        let bad := match rep with
          | .ok _ b => b && accept
          | _ => false
        let s := if bad then (match s.group? k with
          | some g => countSubst s g (if lane = 32 then p.act.lanes.length else 1)
          | none => s) else s
        (acc.1.take accept lane r.va ty rep, s)
      | _, _ => acc) (p, s)
  | _ => (p, s)

/-- A pending result can be delivered now (R208, R209). -/
def pendDue (s : State) (k : Nat) (p : Pending) : Bool :=
  match p.on with
  | .cycle n => decide (n ≤ s.clock.cycle)
  | .reply n => (lanesOut s k n).all fun r => (replyTo s r).isSome
  | .engine _ => false

/-- Delivers the first result of a group that is due. -/
def deliverDue (s : State) (k : Nat) : State :=
  match (s.group? k).bind fun g => g.pend.find? (pendDue s k) with
  | none => s
  | some p =>
    let (q, s) := takeReplies s k p
    deliverPending (s.onGroup k fun g => { g with pend := g.pend.map fun y => if y = p then q else y }) k q

/-- RESULT_DELIVERY (R209, R314). -/
def execResultDelivery (u : UnitRef) (s : State) : Out := .next (deliverDue s (unitKey u))

/-- The reply to a group's store or reduction: an acknowledged one is complete, one that met poison is counted or reported, and a
failed one enters its core's side log (R299, R478). -/
def storeReply (s : State) (k split : Nat) (r : OutReq) (rep : Reply) : State :=
  let s := endRequest s r.n
  let w : Writer := ⟨k, ((s.group? k).map fun g => g.info.born).getD 0, split, r.ctx, r.grids, r.core⟩
  match rep, r.op with
  | .ok _ true, .atom _ _ _ => redPoison s w r.va 1
  | .ok _ _, _ => s
  | .fail code, op =>
    slogEnter s r.core { w.entry (r.va / 32 * 32) (opKind (r.va % 32, op)) r.poison false with
      first := some r.sent, retryAt := s.clock.dtime + 100000, code := code }

/-- Takes the replies that have come for a group's stores and reductions (R471, R478). -/
def storeReplies (s : State) (k : Nat) : State :=
  s.pkg.outreqs.foldl (fun s r => match r.owner, replyTo s r with
    | .store g split, some rep => if g = k then storeReply s k split r rep else s
    | _, _ => s) s

/-- GWCT_RETURN (R103, R478): complete accesses of a group raise HORIZON and leave its list. -/
def execGwctReturn (k : Nat) (s : State) : Out :=
  let s := storeReplies s k
  .next (s.onGroup k fun g => g.settle s)

/-! ## Fences and commits -/

/-- FENCE_COMPLETE (R104): a split held at a fence goes past it when the fence's conditions hold. -/
def execFenceComplete (u : UnitRef) (s : State) : Out :=
  .next <|
    match (s.group? (unitKey u)).bind fun g => g.split? u.split with
    | none => s
    | some sp =>
      match sp.hold with
      | some (.fence p su e) =>
        match cx? (.fence false su p e) { s with sel := u, pre := none } with
        | some c => c.fence su p e
        | none => s
      | _ => s

/-- The first FENCE.S of a region whose conditions hold (R106). -/
def fenceSDue (s : State) (k : Nat) : Option FenceS :=
  match s.group? k with
  | none => none
  | some g =>
    match g.region with
    | none => none
    | some r => r.fences.find? fun f => fenceHolds s k (g.settle s) f.wait f.p f.scope

/-- FENCE_S_VALIDATION (R106, R107): a speculative load whose copy ended by HORIZON and whose line has been written since
rolls the region back. -/
def execFenceSValidation (k : Nat) (s : State) : Out :=
  .next <|
    match fenceSDue s k with
    | none => s
    | some f =>
      let s := s.onGroup k fun g => g.settle s
      let h := ((s.group? k).map fun g => g.sys.horizon).getD 0
      let stale := f.loads.any fun l => decide (l.lease ≤ h) && decide (l.stamp < (lineTimes s.ms (l.pa / 4)).wct)
      if stale then rollback s k .speculation true
      else s.onGroup k fun g => g.onRegion fun r => { r with fences := r.fences.erase f }

/-- A group waits for the conditions of its COMMIT or seam, and they hold (R404). -/
def commitDue (s : State) (k : Nat) : Bool :=
  match s.group? k with
  | none => false
  | some g =>
    match g.region with
    | none => false
    | some r => g.committing && !g.proxied && !g.halted && commitReady s g r

/-- REGION_COMMIT (R84, R109, R404, R455). -/
def execRegionCommit (k : Nat) (s : State) : Out := .next (if commitDue s k then finishCommit s k else s)

/-- A region holds buffer entries or holds that another group may wait for (R84). -/
def mayGive (g : Group) : Bool :=
  match g.region with
  | none => false
  | some r =>
    !g.proxied && !g.committing && !(r.buf.isEmpty && r.holds.isEmpty && r.tiles.isEmpty)

/-- The other groups of a core that a group which has waited 4,096 cycles for its budget makes seam (R84). -/
def seamVictims (s : State) (k : Nat) : List Nat :=
  match s.group? k with
  | none => []
  | some g =>
    let late := g.splits.any fun sp => sp.hold == some .budget &&
      decide (4096 ≤ s.clock.cycle - sp.waitStart.getD s.clock.cycle)
    if late then ((s.groupsOf (coreOf k)).filter fun e => e.1 != k && mayGive e.2).map Prod.fst else []

/-- SEAM_WAIT_TIMEOUT (R84). -/
def execSeamWaitTimeout (k : Nat) (s : State) : Out :=
  .next ((seamVictims s k).foldl (fun s v => startCommit s v .seam) s)

/-! ## Releases -/

/-- The side log holds an entry of a group; of groups that have gone, one of the grid (R60). -/
def slogOfGroup (s : State) (group grid : Nat) : Bool :=
  (s.vm.slog.flatMap Prod.snd ++ s.vm.ownerless.flatMap Prod.snd).any fun e =>
    e.group == group && (group != nobody || e.grids.contains grid)

/-- The greatest GWCT that a release waits for (R103, R111). -/
def Release.horizonNow (r : Release) : Nat := (r.wait.map Outstanding.gwct).foldl max r.horizon

/-- A release can go out: its group is not saved, its group's accesses are complete and DTIME is past its HORIZON; an arrival needs only the accesses,
and copies leave in their order,
as their core's copy queue has room (R109, R111, R113, R126, R144). -/
def releaseDue (s : State) (n : Nat) : Bool :=
  match s.work.releases[n]? with
  | none => false
  | some r =>
    let clear := (r.wait.all (Outstanding.isDone s)) && !slogOfGroup s r.group r.grid
    match r.eff with
    | .arrive _ => clear && !(s.work.saved.any fun x => x.teamKey == r.team)
    | .copy c => clear && decide (r.group < savedBase) && (s.team? c.team).isSome && decide (r.horizonNow < s.clock.dtime) &&
        decide ((queueOps (s.queues c.core).copy).length < 64) &&
        !((s.work.releases.take n).any fun x => x.group == r.group && (match x.eff with
          | .copy _ => true
          | _ => false))
    | _ => clear && decide (r.group < savedBase) && decide (r.horizonNow < s.clock.dtime)

/-- One more group of a grid has signalled (R399). -/
def countSignal (s : State) (gk : Nat) : State := s.onGrid gk fun g => { g with signals := g.signals + 1 }

/-- A released effect takes place (R111, R113, R397, R399, R401). -/
def doRelease (s : State) (r : Release) : State :=
  match r.eff with
  | .launch l => s.onWork fun w => { w with dlq := NMap.set w.dlq r.die (((NMap.get? w.dlq r.die).getD []) ++ [l]) }
  | .spawn e rs => trayAdd s r.die r.ctx e rs
  | .pathSpawn e rs =>
    (trayAdd s r.die r.ctx e rs).onGroup r.group fun g =>
      if g.info.grid = r.grid ∧ g.path.st = .leaving then { g with path := { g.path with st := .none } } else g
  | .signal => countSignal s r.grid
  | .copy c => enqueueCopy s c
  | .arrive k => countArrival s r.team r.group k
  | .exited done =>
    let s := s.onGrid r.grid fun g => { g with horizon := max g.horizon r.horizonNow }
    if done then s else countSignal s r.grid
  | .kpush _ _ | .copyArrive _ => s

/-- Takes a release out of the list and lets it act. -/
def releaseAt (s : State) (n : Nat) : State :=
  match s.work.releases[n]? with
  | none => s
  | some r => doRelease (s.onWork fun w => { w with releases := w.releases.eraseIdx n }) r

/-- EFFECT_RELEASE (R111): release `n` of those that wait. -/
def execEffectRelease (n : Nat) (s : State) : Out := .next (if releaseDue s n then releaseAt s n else s)

/-- BARRIER_ARRIVAL_COUNT (R113, R337): release `n`, an arrival. -/
def execBarrierArrivalCount (n : Nat) (s : State) : Out :=
  let arrival := match (s.work.releases[n]?).map Release.eff with
    | some (.arrive _) => true
    | _ => false
  .next (if arrival && releaseDue s n then releaseAt s n else s)

/-- A tray's timer: values below 64 act as 64 (R426). -/
def trayTimer (s : State) (t : Tray) : Nat :=
  match findTray s t.ctx t.entry with
  | some h => max 64 (trayField h 383 368)
  | none => 64

/-- The timer of tray `n` has expired: it runs from its oldest record, and not while the context is halted (R354, R427). -/
def trayDue (s : State) (n : Nat) : Bool :=
  match s.work.trays[n]? with
  | none => false
  | some t =>
    match t.recs with
    | [] => false
    | r :: _ => !ctxHalted s t.ctx && (decide (trayTimer s t ≤ s.clock.cycle - r.written) || decide (32 ≤ t.recs.length))

/-- TRAY_TIMER_EXPIRY (R354, R427): tray `n` issues a partial group. -/
def execTrayTimerExpiry (n : Nat) (s : State) : Out :=
  .next <|
    match s.work.trays[n]? with
    | none => s
    | some t => if trayDue s n then trayIssue s t else s

/-! ## Waits -/

/-- A split held in WAITM may read again: its copy's lease or its interval is over, or a reply has come (R320). -/
def rereadDue (s : State) (u : UnitRef) : Bool :=
  match (s.group? (unitKey u)).bind fun g => g.split? u.split with
  | none => false
  | some sp =>
    let answered := s.pkg.outreqs.any fun r => (match r.owner with
      | .held g p _ => g == unitKey u && p == sp.id
      | _ => false) && (replyTo s r).isSome
    sp.hold == some (.wait .waitm) && sp.reread != 0 && (decide (sp.reread ≤ s.clock.dtime) || answered)

/-- WAITM_REREAD (R320): the split's next attempt reads again. -/
def execWaitmReread (u : UnitRef) (s : State) : Out :=
  .next <|
    if rereadDue s u then
      s.onGroup (unitKey u) fun g =>
        { g with splits := g.splits.map fun sp => if sp.id = u.split then
            { sp with reread := 0, watch := sp.watch.map fun e => if e.2.1 ≤ s.clock.dtime then (e.1, 0, e.2.2) else e } else sp }
    else s

/-- A group stands in blocking waits with every split, and the latest began at this cycle (R365, R367). -/
def Group.waitingSince (g : Group) : Option Nat :=
  if g.splits.all fun sp => match sp.hold with
    | some (.wait _) => true
    | _ => false
  then some ((g.splits.map fun sp => sp.waitStart.getD 0).foldl max 0)
  else none

/-- The resident groups of a grid. -/
def groupsOfGrid (s : State) (gk : Nat) : List (Nat × Group) := s.work.groups.filter fun e => e.2.grids.contains gk

/-- A watched WAITM has waited for the starvation limit (R367): P groups only. -/
def watchDue (s : State) (u : UnitRef) : Bool :=
  match s.group? (unitKey u) with
  | none => false
  | some g =>
    match g.split? u.split with
    | none => false
    | some sp =>
      g.info.cls == 1 && sp.hold == some (.wait .waitm) &&
        decide (s.starve ≤ s.clock.cycle - sp.waitStart.getD s.clock.cycle)

/-- WATCHED_WAIT_EXPIRY (R367): ILLWAIT when the whole grid waits and has teams that are not admitted, or when the group has
lanes pending in another arm; else the timer starts again. -/
def execWatchedWaitExpiry (u : UnitRef) (s : State) : Out :=
  .next <|
    match s.group? (unitKey u), watchDue s u with
    | some g, true =>
      match g.split? u.split with
      | none => s
      | some sp =>
        let all := (groupsOfGrid s g.info.grid).all fun e =>
          match e.2.waitingSince with
          | some t => decide (s.starve ≤ s.clock.cycle - t)
          | none => false
        let more := ((s.grid? g.info.grid).map fun x => decide (x.next < x.total)).getD false
        if (all && more) || (pendingArm s g sp).isSome then
          postTrap s (unitKey u) sp.id true (Trap.word causeIllwait 0x12) sp.pc sp.pc false
        else s.setGroup (unitKey u) (g.setSplit { sp with waitStart := some s.clock.cycle })
    | _, _ => s

end Sys2Proof.Machine
end

