-- ==== Sys2Proof/Machine/Admit.lean ====
section
/-! DEFINITION. The dispatcher: contexts, launch headers, acceptance, placement, admission, completion, and the host launch
queues (spec/19 R411-R427, spec/03 R63, R72, spec/16 R348-R359, spec/05 R112). An event whose condition does not hold changes
nothing. -/

namespace Sys2Proof.Machine

/-! ## Contexts -/

/-- Reads a context descriptor (R411): the context's number, and the context as the dispatcher knows it. While a grid of it
is live it stays as it was read. -/
def loadCtx (s : State) (desc : Nat) : Nat × State :=
  let s := touchPhys s desc 64 0
  let w (i : Nat) : Nat := physNat s (desc + 8 * i) 8
  let n := w 3 / 2 ^ 32
  let live := s.work.grids.any fun e => e.2.ctx == n && !e.2.done
  let old := s.ctx? n
  if live && old.isSome then (n, s)
  else
    let c : Ctx :=
      { desc := desc, save := w 7, aring := w 6, trt := w 5, trtn := w 4 / 2 ^ 56, priv := (w 4).testBit 0
        l3 := w 2 % 2 ^ 40, nextId := (old.map Ctx.nextId).getD 1
        preempted := (old.map Ctx.preempted).getD false, saving := (old.map Ctx.saving).getD false }
    (n, s.onWork fun x => { x with ctxs := NMap.set x.ctxs n c })

/-! ## Launch headers -/

/-- The roles of a header: its role table, or one role for all its groups (R356, R412). -/
def headerRoles (h : List W64) : List Role :=
  let n := trayField h 331 329
  if n = 0 then
    [⟨trayField h 95 64, trayField h 339 335, trayField h 271 256 * trayField h 287 272 * trayField h 303 288 / 32⟩]
  else
    (List.range (min n 4)).map fun r =>
      let w := (h.getD (10 + r) 0).toNat
      ⟨bitsOf w 31 0, bitsOf w 36 32, bitsOf w 45 40⟩

/-- The fields of a launch header (R412). -/
def Header.of (h : List W64) : Header :=
  let handler := trayField h 127 96
  { table := trayField h 331 329 != 0
    roles := headerRoles h
    deps := (List.range (min (trayField h 334 332) 4)).map fun d =>
      BitVec.ofNat 32 ((h.getD (8 + d / 2) 0).toNat / 2 ^ (32 * (d % 2)))
    delta := h.getD 6 0, scratch := trayField h 363 345, fpen := BitVec.ofNat 5 (trayField h 344 340)
    sms := trayField h 328 328 == 1, accept := trayField h 327 327 == 1, pivotReg := trayField h 326 326 == 0
    fuse := trayField h 325 325 == 1, prio := trayField h 324 322, cls := trayField h 321 320
    tdim := (trayField h 271 256, trayField h 287 272, trayField h 303 288)
    gdim := (trayField h 223 192, trayField h 239 224, trayField h 255 240)
    args := h.getD 2 0, handler := if handler = 0xFFFFFFFF then none else some handler, code := (h.getD 0 0).toNat }

/-- Blocks of the register file that a team takes (R176, R423). -/
def Header.blocks (h : Header) : Nat := (h.roles.map fun r => r.groups * (32 + 2 * r.regs)).sum

/-- A size rounded up to 1 KiB (R87). -/
def roundKiB (n : Nat) : Nat := (n + 1023) / 1024 * 1024

/-- Teams of a grid (R349). -/
def Header.teams (h : Header) : Nat := h.gdim.1 * h.gdim.2.1 * h.gdim.2.2

/-- A field that must be zero is not, or CODE is misaligned or outside 48 bits (R412, R413). -/
def headerReserved (h : List W64) : Bool :=
  let role (r : Nat) : Bool := let w := (h.getD (10 + r) 0).toNat; bitsOf w 39 37 != 0 || bitsOf w 63 46 != 0
  let code := (h.getD 0 0).toNat
  h.getD 14 0 != 0 || h.getD 15 0 != 0 || h.getD 7 0 != 0 || trayField h 383 364 != 0 || trayField h 319 304 != 0 ||
    (List.range 4).any role || code % 64 != 0 || decide (2 ^ 48 ≤ code)

/-- A relative dependence with a reserved bit set (R413, R419). -/
def depReserved (d : Word32) : Bool := d.getLsbD 31 && bitsOf d.toNat 30 8 != 0

/-- Dimensions outside R349. -/
def dimsWrong (h : Header) : Bool :=
  let ds := [h.tdim.1, h.tdim.2.1, h.tdim.2.2]
  let n := h.tdim.1 * h.tdim.2.1 * h.tdim.2.2
  ds.any (fun d => decide (d < 1 ∨ 1024 < d)) || n % 32 != 0 || decide (n < 32 ∨ 1024 < n)

/-- A scope size or a role field out of range, or dimensions that do not fit the role table (R412, R413). -/
def rolesWrong (h : List W64) : Bool :=
  let x := Header.of h
  let sum := (x.roles.map Role.groups).sum
  decide (4 < trayField h 331 329) || (x.roles.any fun r => decide (r.regs < 1 ∨ 24 < r.regs)) ||
    (x.table && (decide (32 < sum) || (x.roles.any fun r => decide (r.groups < 1 ∨ 32 < r.groups)) ||
      x.tdim != (32 * sum, 1, 1)))

/-- PIVOT = REG with DELTA not a positive normal (R413). -/
def deltaWrong (h : Header) : Bool :=
  let e := bitsOf h.delta.toNat 62 52
  h.pivotReg && (h.delta.getLsbD 63 || e == 0 || e == 0x7FF)

/-! ## Placement -/

/-- A unit of a core or of its cluster is in one of some states of service (R463). -/
def unitIn (s : State) (core : Nat) (p : Nat → Bool) : Bool :=
  [(0, 2 * core), (0, 2 * core + 1), (1, core), (2, core), (3, core), (4, clusterOf core)].any fun u =>
    p (scoreOf s u.1 u.2).state

/-- A core is offline (R463). -/
def coreOffline (s : State) (core : Nat) : Bool := unitIn s core (· == 2)

/-- A core admits no team: it is drained, under test or offline (R463). -/
def coreDown (s : State) (core : Nat) : Bool := unitIn s core fun st => st == 1 || st == 2

/-- What a team takes of a core (R423). -/
structure Need where
  blocks : Nat
  slots : Nat
  scratch : Nat
  fuse : Bool
  ctx : Nat
  deriving DecidableEq, Repr

/-- What a team of a header takes. -/
def Header.need (h : Header) (ctx : Nat) : Need := ⟨h.blocks, h.teamGroups, roundKiB h.scratch, h.fuse, ctx⟩

/-- Teams of a kind that an empty core holds. -/
def Need.perCore (n : Need) : Nat :=
  min (32 / n.slots) (min (Config.coreBlocks / n.blocks)
    (if n.scratch = 0 then 32 else Config.scratchBytes / n.scratch))

/-- Why a header is refused: the first failing check in the order of R413; 0 for none. -/
def headerRefuse (s : State) (h : List W64) : Nat :=
  let x := Header.of h
  let usable := ((List.range Config.cores).filter fun c => !coreOffline s c).length
  if headerReserved h then 0x08
  else if x.cls = 3 then 0x01
  else if 4 < trayField h 334 332 ∨ x.deps.any depReserved then 0x06
  else if dimsWrong x then 0x02
  else if rolesWrong h then 0x03
  else if 262144 < x.scratch then 0x04
  else if deltaWrong x then 0x07
  else if Config.coreBlocks < x.blocks ∨ 32 < x.teamGroups then 0x0A
  else if x.cls = 0 ∧ usable * (x.need 0).perCore < x.teams then 0x05
  else 0

/-- Blocks that a core has free beside some teams placed on trial (R424). -/
def freeBlocks (s : State) (extra : List (Nat × Need)) (core : Nat) : Nat :=
  Config.coreBlocks - blocksUsed s core - ((extra.filter fun e => e.1 == core).map fun e => e.2.blocks).sum

/-- The cluster of a core takes a team under its fusion rule: an empty cluster switches first (R86, R423). -/
def modeFits (s : State) (extra : List (Nat × Need)) (n : Need) (core : Nat) : Bool :=
  let there := (s.work.teams.filter fun t => clusterOf t.2.core == clusterOf core).map fun t => ((s.core t.2.core).fused, t.2.ctx)
  let tried := (extra.filter fun e => clusterOf e.1 == clusterOf core).map fun e => (e.2.fuse, e.2.ctx)
  (there ++ tried).all fun x => x.1 == n.fuse && (!n.fuse || x.2 == n.ctx)

/-- A team fits a core (R190, R423, R463). -/
def fitsCore (s : State) (extra : List (Nat × Need)) (n : Need) (core : Nat) : Bool :=
  let tried := extra.filter fun e => e.1 == core
  let teams := (s.work.teams.filter fun t => t.2.core == core).map fun t => t.2.scr.size
  decide (n.blocks ≤ freeBlocks s extra core) &&
    decide ((s.groupsOf core).length + (tried.map fun e => e.2.slots).sum + n.slots ≤ 32) &&
    decide (teams.sum + (tried.map fun e => e.2.scratch).sum + n.scratch ≤ Config.scratchBytes) &&
    modeFits s extra n core && !coreDown s core && !((s.groupsOf core).any fun e => e.2.waitsBlocks.isSome)

/-- The fitting core of a die with the most free blocks, the lowest on a tie (R424). -/
def bestCore (s : State) (extra : List (Nat × Need)) (n : Need) (blocked : List Nat) (die : Nat) : Option Nat :=
  let cs := ((List.range 96).map (96 * die + ·)).filter fun c => !blocked.contains c && fitsCore s extra n c
  cs.foldl (fun (b : Option Nat) c =>
    match b with
    | some x => if freeBlocks s extra x < freeBlocks s extra c then some c else b
    | none => some c) none

/-- Free blocks of a die. -/
def dieFree (s : State) (extra : List (Nat × Need)) (die : Nat) : Nat :=
  (((List.range 96).map (96 * die + ·)).map fun c => if coreDown s c then 0 else freeBlocks s extra c).sum

/-- Where a team goes: the preferred die, else the die with the most free blocks, passing over dies without a fitting core
(R424). -/
def placeTeam (s : State) (extra : List (Nat × Need)) (n : Need) (pref : Option Nat) (dies blocked : List Nat) : Option Nat :=
  let found := dies.filterMap fun d => (bestCore s extra n blocked d).map fun c => (d, c)
  match pref.bind fun p => found.find? fun x => x.1 == p with
  | some x => some x.2
  | none =>
    (found.foldl (fun (b : Option (Nat × Nat)) x =>
      match b with
      | some y => if dieFree s extra y.1 < dieFree s extra x.1 then some x else b
      | none => some x) none).map Prod.snd

/-- Places teams one after another against a snapshot of free space (R359, R424). -/
def trialPlace (s : State) (n : Need) (pref : Option Nat) (blocked : List Nat) : Nat → List (Nat × Need) → List (Option Nat)
  | 0, _ => []
  | k + 1, extra =>
    match placeTeam s extra n pref [0, 1, 2, 3] blocked with
    | some c => some c :: trialPlace s n pref blocked k (extra ++ [(c, n)])
    | none => none :: trialPlace s n pref blocked k extra

/-- A value of an argument block as the placement unit's read finds it (R72): known, to be asked for at the host or a peer, or
not there. -/
inductive ArgValue where
  | absent
  | known (v : Nat)
  | asked (l : Leaf) (pa : Nat)

/-- Reads one value of an argument block: a compressed page by its image. A page that is not mapped or not held, and data that
are poisoned, give no value and no fault (R72; LOG 52). -/
def argValue (s : State) (ctx va : Nat) : ArgValue × State :=
  if wildAddr (va + 7) then (.absent, s)
  else
    match (walkTop s ctx va).1 with
    | .leaf lv _ e =>
      let l := Leaf.at lv e
      let ofs := va % levelSpan lv
      match l.dev && l.v, l.cold with
      | true, false =>
        if l.tgt ≠ 0 then (.asked l (l.pa + ofs), s)
        else
          let s := touchPhys s (l.pa + ofs) 8 ctx
          (if physPoison s (l.pa + ofs) 8 then .absent else .known (physNat s (l.pa + ofs) 8), s)
      | true, true =>
        (match NMap.get? s.vm.images (l.pa / 2 ^ 16) with
         | some cells => .known (leNat (cellRead cells ofs 8))
         | none => .absent, s)
      | _, _ => (.absent, s)
    | _ => (.absent, s)

/-- A value votes for the home die of the mapped device page that it points to (R72). -/
def addVote (s : State) (ctx v : Nat) (votes : List Nat) : List Nat :=
  match (if wildAddr v then none else leafNow s ctx v) with
  | some x => if x.1.tgt = 0 then listSet votes x.1.home (votes.getD x.1.home 0 + 1) else votes
  | none => votes

/-- A request for a value of a grid's argument block. -/
def OutReq.votesFor (r : OutReq) (gk : Nat) : Bool := r.owner == .votes gk

/-- A grid's preferred die is still unknown: its argument block is being read outside the device (R72). -/
def votesOut (s : State) (gk : Nat) : Bool := s.pkg.outreqs.any fun r => r.votesFor gk

/-- The preferred die: most votes, then most free blocks, then the lower (R72). -/
def preferredDie (s : State) (v : List Nat) : Option Nat :=
  if v.all (· == 0) then none
  else
    (List.range 4).foldl (fun (b : Option Nat) d =>
      match b with
      | some x =>
        if v.getD x 0 < v.getD d 0 ∨ (v.getD x 0 = v.getD d 0 ∧ dieFree s [] x < dieFree s [] d) then some d else b
      | none => some d) none

/-- Once every value has come, the votes name a grid's preferred die (R72). -/
def settleVotes (s : State) (gk : Nat) : State :=
  if votesOut s gk then s else s.onGrid gk fun g => { g with die := preferredDie s g.votes }

/-- The placement unit reads the argument block of a grid that is launched (R72). -/
def startVotes (s : State) (gk ctx args : Nat) : State :=
  settleVotes ((List.range 8).foldl (fun s i =>
    let va := args + 8 * i
    let (v, s) := argValue s ctx va
    match v with
    | .absent => s
    | .known v => s.onGrid gk fun g => { g with votes := addVote s ctx v g.votes }
    | .asked l pa => (sendRemote s (.votes gk) ⟨ctx, [gk], 0⟩ l pa va (.read 8) false).2.2) s) gk

/-- Takes a reply for a value of an argument block: a failed or poisoned one gives no vote (R72; LOG 52). -/
def takeVote (s : State) (r : OutReq) : State :=
  match r.owner, replyTo s r with
  | .votes gk, some rep =>
    let s := endRequest s r.n
    let s := match rep with
      | .ok bs false => s.onGrid gk fun g => { g with votes := addVote s r.ctx (leNat bs) g.votes }
      | _ => s
    settleVotes s gk
  | _, _ => s

/-- Takes the replies to the placement units' reads (R72). -/
def takeVotes (s : State) : State := s.pkg.outreqs.foldl takeVote s

/-! ## Acceptance -/

/-- The key of a live grid of a context (R414). -/
def liveGrid (s : State) (ctx id : Nat) : Option Nat :=
  (s.work.grids.find? fun e => e.2.ctx == ctx && e.2.id == id && !e.2.done).map Prod.fst

/-- The predecessors that a header's dependence words name (R419): `rel` gives the earlier launches, latest first. A
predecessor that is not live is satisfied. -/
def depKeys (s : State) (ctx : Nat) (deps : List Word32) (rel : List (Option Nat)) : List Nat :=
  (deps.filterMap fun d =>
    let k := d.toNat % 256
    if d.getLsbD 31 then (if k = 0 then none else (rel[k - 1]?).join) else liveGrid s ctx d.toNat).filter fun gk =>
      ((s.grid? gk).map fun g => !g.done).getD false

/-- A launch as it reaches the dispatcher. -/
structure Launch where
  ctx : Nat
  hdr : List W64
  hdrAddr : Nat
  args : W64
  level : Nat
  origin : Origin
  parent : Option Nat
  rel : List (Option Nat)
  id : Option Nat
  prio : Nat → Nat
  refuse : Nat

/-- Accepts a launch: it becomes a grid, refused ones with no team (R412-R414, R419, R421). -/
def acceptGrid (s : State) (l : Launch) : Nat × State :=
  let (id, s) := match l.id with
    | some id => (id, s)
    | none => freshId s l.ctx
  let h := Header.of l.hdr
  let refuse := if l.refuse = 0 then headerRefuse s l.hdr else l.refuse
  let h := { h with args := if l.args = 0 then h.args else l.args }
  let gk := s.work.nextGrid
  let g : Grid :=
    { id := id, ctx := l.ctx, hdr := h, hdrAddr := l.hdrAddr, level := l.level, origin := l.origin, parent := l.parent
      deps := if refuse = 0 then depKeys s l.ctx h.deps l.rel else [], prio := l.prio h.prio
      die := none, votes := [0, 0, 0, 0], next := 0
      total := if refuse = 0 then h.teams else 0, signals := 0, groups := 0, refuse := refuse, flags := 0, psub := 0
      horizon := 0, done := false, stopping := false }
  let s := s.onWork fun w => { w with grids := NMap.set w.grids gk g, nextGrid := gk + 1 }
  (gk, if refuse = 0 ∧ h.teams ≠ 0 then startVotes s gk l.ctx h.args.toNat else s)

/-- The grid of a child launch is known to its team. -/
def noteChild (s : State) (team id gk : Nat) : State :=
  let f (t : Team) : Team :=
    { t with children := t.children.map fun c => if c.id = id ∧ c.grid.isNone then { c with grid := some gk } else c }
  (s.onTeam team f).onWork fun w =>
    { w with saved := w.saved.map fun x => if x.teamKey = team then { x with team := f x.team } else x }

/-- LAUNCH_ACCEPT (R397, R412, R433): the oldest launch of die `n`'s device launch queue; one whose context has been torn down
is dropped. -/
def execLaunchAccept (n : Nat) (s : State) : Out :=
  .next <|
    match dlqOf s n with
    | [] => s
    | l :: rest =>
      if ctxHalted s l.ctx then s
      else
        let s := s.onWork fun w => { w with dlq := if rest.isEmpty then NMap.erase w.dlq n else NMap.set w.dlq n rest }
        if (s.ctx? l.ctx).isNone then s
        else
          let (gk, s) := acceptGrid s
            { ctx := l.ctx, hdr := l.hdr, hdrAddr := l.hdrAddr, args := l.args, level := l.level + 1, origin := .team l.team
              parent := some l.grid, rel := l.prev.map (liveGrid s l.ctx), id := some l.id, prio := id, refuse := 0 }
          noteChild s l.team l.id gk

/-! ## Admission -/

/-- A predecessor is complete (R420). -/
def predComplete (s : State) (gk : Nat) : Bool := ((s.grid? gk).map Grid.done).getD true

/-- A predecessor that is not complete lets its successor start (R420). -/
def predEarly (s : State) (gk : Nat) : Bool :=
  predComplete s gk || ((s.grid? gk).map fun g => g.hdr.sms && g.next == g.total).getD true

/-- What waits for admission: a grid, or a group issued by a tray; its key, priority, and whether it is early (R420, R422). -/
structure Candidate where
  key : Nat
  prio : Nat
  early : Bool
  tray : Bool
  deriving DecidableEq, Repr

/-- Everything admissible (R420, R422, R442). -/
def candidates (s : State) : List Candidate :=
  let grid (e : Nat × Grid) : Option Candidate :=
    let g := e.2
    if g.done || g.stopping || g.next == g.total || ctxHalted s g.ctx || votesOut s e.1 then none
    else if g.deps.all (predComplete s) then some ⟨e.1, g.prio, false, false⟩
    else if g.deps.all (predEarly s) then some ⟨e.1, g.prio, true, false⟩
    else none
  s.work.grids.filterMap grid ++
    ((s.work.trayGroups.filter fun t => !ctxHalted s t.ctx).map fun t => ⟨t.seq, trayField t.hdr 391 389, false, true⟩)

/-- The order of admission (R422). -/
def candBefore (a b : Candidate) : Bool :=
  if a.prio ≠ b.prio then decide (b.prio < a.prio)
  else if a.early ≠ b.early then !a.early
  else decide (a.key < b.key)

/-- Inserts by the order of admission. -/
def insCand (c : Candidate) : List Candidate → List Candidate
  | [] => [c]
  | x :: l => if candBefore c x then c :: x :: l else x :: insCand c l

/-- The candidates in their order. -/
def admissionOrder (s : State) : List Candidate := (candidates s).foldl (fun l c => insCand c l) []

/-- The class of a candidate's grid. -/
def candClass (s : State) (c : Candidate) : Nat := if c.tray then 2 else ((s.grid? c.key).map fun g => g.hdr.cls).getD 2

/-- The trial placement of a C grid's teams against the free space (R359, R424). -/
def trialOf (s : State) (gk : Nat) (blocked : List Nat) : List (Option Nat) :=
  match s.grid? gk with
  | some g => trialPlace s (g.hdr.need g.ctx) g.die blocked g.total []
  | none => []

/-- The cores that waiting C grids reserve against a candidate: those of their latest trial placements (R359). Among C grids
of one priority the earlier one holds. -/
def reserved (s : State) (order : List Candidate) (c : Candidate) : List Nat :=
  let holds (x : Candidate) : Bool :=
    x != c && candClass s x == 0 && decide (c.prio ≤ x.prio) && (candClass s c != 0 || candBefore x c)
  (order.filter holds).flatMap fun x => (trialOf s x.key []).filterMap id

/-- The cores that a candidate's next team, a C grid's teams, or a tray's group would take now (R359, R422-R424, R427). -/
def placementOf (s : State) (order : List Candidate) (c : Candidate) : Option (List Nat) :=
  let blocked := reserved s order c
  if c.tray then
    (s.work.trayGroups.find? fun t => t.seq == c.key).bind fun t =>
      let n : Need := ⟨32 + 2 * trayRegs t.hdr, 1, roundKiB (trayField t.hdr 415 397), false, t.ctx⟩
      (placeTeam s [] n none [t.die] blocked).map fun x => [x]
  else
    (s.grid? c.key).bind fun g =>
      let n := g.hdr.need g.ctx
      if g.hdr.cls = 0 then
        let t := trialPlace s n g.die blocked g.total []
        if t.all Option.isSome then some (t.filterMap id) else none
      else (placeTeam s [] n g.die [0, 1, 2, 3] blocked).map fun x => [x]

/-- The first candidate in the order that can be admitted, with its cores. -/
def nextAdmission (s : State) : Option (Candidate × List Nat) :=
  let order := admissionOrder s
  (order.filterMap fun c => (placementOf s order c).map fun p => (c, p)).head?

/-- A new group (R178, R191, R389, R391): its scope's names, from the records of a tray if it came from one. -/
def newGroup (now : Nat) (info : GroupInfo) (entry regs : Nat) (s0 : List W64) (gone : Mask) (name : Nat → LaneReg) : Group :=
  let all : Mask := Mask.all
  let sr : Vector W64 16 := ⟨⟨(List.range 16).map fun i => s0.getD i 0⟩, by simp⟩
  let sp : Split :=
    { id := 0, pc := ⟨entry, 0⟩, lanes := all, m := all &&& ~~~gone, stack := [], rets := [], divs := [], arrive := none
      hold := none, waitStart := none, waitTarget := none, reread := 0, got := [], watch := [], logMark := none
      queue := [], ready := 0, lastIssue := now }
  { info := info
    regs := { scope := some regs, ws := 0, v := ⟨⟨(List.range 24).map name⟩, by simp⟩
              rq := ⟨⟨(List.range 16).map fun _ => LaneReg.zero⟩, by simp⟩
              p := ⟨⟨(List.range 12).map fun _ => 0⟩, by simp⟩, sreg := sr }
    sys := { xpc := 0, xmask := 0, xcause := 0, xaddr := 0, xinfo := 0, fflags := 0, scrmask := 0, horizon := 0
             tracectl := 0, inject := 0 }
    off := 0, gone := gone, splits := [sp], nextDiv := 0, pend := [], late := [], traps := [], drain := false, trap := none, path := ⟨.none, 0, 0, 0, 0, []⟩
    batches := Batches.new, targets := ⟨⟨(List.range 16).map fun _ => none⟩, by simp⟩, region := none, out := []
    mmaj := 0, signalled := false, lastDelivery := none, emu := none, proxyOf := none, proxied := false, halted := false
    traceOn := false, lastSync := now, lostTrace := false, reopen := .no, repeated := none, ready := [] }

/-- A team as admission leaves it: nb0 counts its groups, its scratchpad is blank (R88, R334, R350); s0 and s1 are its groups'
(R93, R178). -/
def newTeam (grid ctx core index : Nat) (s0 s1 : W64) (slots : List Nat) (scratch : Nat) (tray : Bool) : Team :=
  let bar (i : Nat) : Barrier := if i = 0 then ⟨true, slots.length, 0, 0, 0, 0⟩ else ⟨false, 0, 0, 0, 0, 0⟩
  { grid := grid, ctx := ctx, core := core, index := index, s0 := s0, s1 := s1, slots := slots, scr := ⟨scratch, [], [], [], [], []⟩
    nb := ⟨⟨(List.range 16).map bar⟩, by simp⟩, kq := ⟨⟨(List.range 4).map fun _ => []⟩, by simp⟩, nextK := 0
    tiles := ⟨⟨(List.range 32).map fun _ => ⟨false, 0, [], 0⟩⟩, by simp⟩, children := [], launches := [], reports := []
    tray := tray }

/-- The lowest free slots of a core. -/
def freeSlots (s : State) (core n : Nat) : List Nat :=
  ((List.range 32).filter fun i => (s.group? (core * 32 + i)).isNone).take n

/-- A cluster takes the mode of the team that comes: a change invalidates its four L1s (R86). -/
def setMode (s : State) (core : Nat) (fuse : Bool) : State :=
  if (s.core core).fused == fuse then s
  else
    (List.range 4).foldl (fun s i =>
      let c := clusterOf core * 4 + i
      (s.onWork fun w => { w with cores := NMap.set w.cores c ⟨fuse⟩ }).onMs fun ms =>
        { ms with l1 := NMap.erase ms.l1 c, l1marks := ms.l1marks.filter fun m => m.1 / 2 ^ 35 != c }) s

/-- Places a team's groups in its slots; last-page registers of the slots are cleared (R54, R350). -/
def placeGroups (s : State) (core : Nat) (gs : List (Nat × Group)) : State :=
  gs.foldl (fun s e =>
    let k := core * 32 + e.1
    (s.setGroup k e.2).onVm fun vm => { vm with lastPage := NMap.erase vm.lastPage k }) s

/-- The role of each group of a team: role number, scope, entry and size (R356). -/
def Header.groupRoles (h : Header) : List (Nat × Role) :=
  h.roles.zipIdx.flatMap fun r => List.replicate r.1.groups (r.2, r.1)

/-- Admits a grid's next team to a core (R178, R350, R422). -/
def admitTeam (s : State) (gk : Nat) (g : Grid) (core : Nat) : State :=
  let h := g.hdr
  let s := setMode s core h.fuse
  let slots := freeSlots s core h.teamGroups
  let tk := s.work.nextTeam
  let index := g.next
  let s0 := [w64 index, w64 g.id, h.args, w64 g.hdrAddr]
  let info (ix : Nat) (r : Nat × Role) : GroupInfo :=
    { ctx := g.ctx, priv := ((s.ctx? g.ctx).map Ctx.priv).getD false, grid := gk, trayGrids := [], team := tk, ix := ix
      role := if h.table then r.1 else 0, roleSize := if h.table then r.2.groups else 1, level := g.level, cls := h.cls
      prio := g.prio, code := h.code, handler := h.handler, fpen := h.fpen, accept := h.accept && decide (g.prio ≤ 1)
      pivotReg := h.pivotReg, delta := h.delta
      dims := w64 (h.tdim.1 + h.tdim.2.1 * 2 ^ 16 + h.tdim.2.2 * 2 ^ 32)
      gdims := w64 (h.gdim.1 + h.gdim.2.1 * 2 ^ 32 + h.gdim.2.2 * 2 ^ 48), born := s.work.nextSeq, tray := false }
  let gs := (slots.zip h.groupRoles.zipIdx).map fun e =>
    (e.1, newGroup s.clock.cycle (info e.2.2 e.2.1) e.2.1.2.entry e.2.1.2.regs s0 0 fun _ => LaneReg.zero)
  let s := placeGroups (s.setTeam tk (newTeam gk g.ctx core index (w64 index) (w64 g.id) slots (roundKiB h.scratch) false)) core gs
  (s.onWork fun w => { w with nextTeam := tk + 1, nextSeq := w.nextSeq + 1 }).onGrid gk fun g =>
    { g with next := g.next + 1, groups := g.groups + gs.length }

/-- Admits a group that a tray issued, as a team of its own (R178, R191, R354, R355, R426, R427). -/
def admitTray (s : State) (t : TrayGroup) (core : Nat) : State :=
  let s := s.onWork fun w => { w with trayGroups := w.trayGroups.filter fun x => x.seq != t.seq }
  let s := setMode s core false
  let slots := freeSlots s core 1
  let tk := s.work.nextTeam
  let grids := recordGrids t.recs
  let first := (t.recs.head?.map TrayRec.grid).getD 0
  let handler := trayField t.hdr 351 320
  let prio := trayField t.hdr 391 389
  let info : GroupInfo :=
    { ctx := t.ctx, priv := ((s.ctx? t.ctx).map Ctx.priv).getD false, grid := first, trayGrids := grids, team := tk, ix := 0
      role := 0, roleSize := 1, level := (grids.map fun g => ((s.grid? g).map Grid.level).getD 1).foldl max 1, cls := 2
      prio := prio, code := (t.hdr.getD 7 0).toNat, handler := if handler = 0xFFFFFFFF then none else some handler
      fpen := BitVec.ofNat 5 (trayField t.hdr 356 352), accept := (t.hdr.getD 6 0).getLsbD 4 && decide (prio ≤ 1), pivotReg := false, delta := 0
      dims := w64 (32 + 2 ^ 16 + 2 ^ 32), gdims := w64 (1 + 2 ^ 32 + 2 ^ 48), born := s.work.nextSeq, tray := true }
  let name (n : Nat) : LaneReg := LaneReg.ofFn fun l =>
    match t.recs[l]? with
    | some r => ((r.vals.find? fun v => v.1 == n).map Prod.snd).getD 0
    | none => 0
  let gone := Mask.ofFn fun l => decide (t.recs.length ≤ l)
  let g := newGroup s.clock.cycle info (trayField t.hdr 447 416) (trayRegs t.hdr) (t.hdr.take 4) gone name
  let s := placeGroups (s.setTeam tk (newTeam first t.ctx core 0 (t.hdr.getD 0 0) (t.hdr.getD 1 0) slots
      (roundKiB (trayField t.hdr 415 397)) true)) core
    (slots.map fun i => (i, g))
  let s := s.onWork fun w => { w with nextTeam := tk + 1, nextSeq := w.nextSeq + 1 }
  grids.foldl (fun s gk => s.onGrid gk fun g => { g with groups := g.groups + 1 }) s

/-- TEAM_ADMISSION (R350, R359, R422-R424, R427): the candidate admits its next team, a C grid all of them, when it is the
first that can. -/
def execTeamAdmission (gk : Nat) (s : State) : Out :=
  .next <|
    match nextAdmission s with
    | none => s
    | some (c, cores) =>
      if c.key ≠ gk then s
      else if c.tray then
        match s.work.trayGroups.find? fun t => t.seq == gk, cores with
        | some t, core :: _ => admitTray s t core
        | _, _ => s
      else cores.foldl (fun s core =>
        match s.grid? gk with
        | some g => admitTeam s gk g core
        | none => s) s

/-! ## Completion -/

/-- The completion status (R415). -/
def Grid.status (g : Grid) : W64 :=
  w64 (min g.psub 0xFFFFFFFF * 2 ^ 32 + g.refuse % 256 * 2 ^ 24 + bitsOf g.flags.toNat 7 3 * 8 + 1)

/-- The status sets the parent's CHILD bit (R415). -/
def Grid.troubled (g : Grid) : Bool := g.refuse != 0 || bitsOf g.flags.toNat 7 3 != 0

/-- An item of an engine queue belongs to a grid. -/
def queueOfGrid (s : State) (gk : Nat) : Bool :=
  (s.eng.queues.any fun q => (queueOps q.2.copy).any (fun c => c.grids.contains gk) ||
      (queueOps q.2.coll).any fun c => c.grids.contains gk) ||
    (s.eng.copies.any fun r => r.cmd.grids.contains gk) || (s.eng.colls.any fun c => c.grids.contains gk) ||
    s.work.saved.any fun x => (x.copies.any fun c => c.grids.contains gk) || x.colls.any fun c => c.grids.contains gk

/-- Continuation records of a grid wait in a tray, in a group that a tray issued, or on their way (R355). -/
def recordsOfGrid (s : State) (gk : Nat) : Bool :=
  let has (rs : List TrayRec) : Bool := rs.any fun r => r.grid == gk
  (s.work.trays.any fun t => has t.recs) || (s.work.trayGroups.any fun t => has t.recs) ||
    s.work.releases.any fun r => r.grid == gk || ((effectRecords r.eff).map fun x => has x.2).getD false

/-- A grid launched a child that is not complete (R352). -/
def childrenOpen (s : State) (gk : Nat) : Bool :=
  (s.work.grids.any fun e => e.2.parent == some gk && !e.2.done) ||
    (s.work.dlq.flatMap Prod.snd).any fun l => l.grid == gk

/-- The side log or its waiting entries hold something of a grid (R60). -/
def slogOfGrid (s : State) (gk : Nat) : Bool :=
  (s.vm.slog.flatMap Prod.snd ++ s.vm.ownerless.flatMap Prod.snd ++ s.vm.slogSaved.map Prod.snd ++
    s.work.saved.flatMap Saved.slog).any fun e => e.grids.contains gk

/-- Every condition of a grid's completion holds (R112, R352, R355). -/
def gridOver (s : State) (gk : Nat) : Bool :=
  match s.grid? gk with
  | none => false
  | some g =>
    let host := match g.origin with
      | .host _ _ => true
      | .team _ => false
    !g.done && g.next == g.total && g.groups == 0 && !slogOfGrid s gk && !queueOfGrid s gk && !recordsOfGrid s gk &&
      !childrenOpen s gk && (g.horizon == 0 || decide (g.horizon < s.clock.dtime)) &&
      !(host && s.pkg.outreqs.any fun r => r.grids.contains gk)

/-- A child's status reaches its team, resident or saved (R398). -/
def giveStatus (s : State) (team gk : Nat) (st : W64) : State :=
  let f (t : Team) : Team :=
    { t with children := t.children.map fun c => if c.grid = some gk then { c with status := some st } else c }
  (s.onTeam team f).onWork fun w =>
    { w with saved := w.saved.map fun x => if x.teamKey = team then { x with team := f x.team } else x }

/-- Changes a host queue. -/
def onHq (s : State) (q : Nat) (f : HostQueue → HostQueue) : State :=
  s.onWork fun w => { w with hq := w.hq.zipIdx.map fun x => if x.2 = q then f x.1 else x.1 }

/-- A host queue (R416). -/
def hqOf (s : State) (q : Nat) : HostQueue := s.work.hq.getD q HostQueue.reset

/-- Keys that own the dispatcher's own requests to host and peer memory: a queue's header read, and completion records. -/
def recordOwner : Nat := nobody + 65

/-- The completion record of an entry (R418). -/
def hqRecord (s : State) (e : HqEntry) : Nat :=
  let g := e.grid.bind s.grid?
  let st := (g.map Grid.status).getD (w64 (e.refuse * 2 ^ 24 + 1))
  st.toNat + (g.map Grid.id).getD 0 * 2 ^ 64 + s.clock.dtime % 2 ^ 64 * 2 ^ 128

/-- Writes an entry's completion record, if its page answers: whether the entry is settled. A record that is refused or meets
W = 0 is not written (R418). -/
def writeHqRecord (s : State) (e : HqEntry) : Bool × State :=
  let at? := e.cmp.toNat / 32 * 32
  if e.cmp = 0 ∨ wildAddr at? then (true, s)
  else
    let (x, s) := translateWalk s ioAgent e.ctx at? .write false
    match x with
    | .wait => (false, s)
    | .denied => (true, s)
    | .ok l pa =>
      let rcd := hqRecord s e
      if l.tgt = 0 then (true, (agentWrite s none l.home (pa / 32) e.ctx fullMask (BitVec.ofNat 256 rcd) false).2)
      else
        (true, (sendRemote s (.held recordOwner 0 0) ⟨e.ctx, e.grid.toList, 0⟩ l pa at? (.write (leBytes 32 rcd)) false).2.2)

/-- An entry whose record is settled raises its interrupt, and its grid is forgotten (R418, R472). -/
def settleEntry (s : State) (q : Nat) (e : HqEntry) : State :=
  let s := onHq s q fun x => { x with entries := x.entries.filter (· != e) }
  let s := match e.grid with
    | some gk => s.onWork fun w => { w with grids := NMap.erase w.grids gk }
    | none => s
  if e.irq then s.raiseVector 3 else s

/-- Writes the records of a queue's completed entries as far as their pages answer (R418). -/
def flushRecords (s : State) (q : Nat) (mine : HqEntry → Bool) : State :=
  ((hqOf s q).entries.filter fun e => e.done && mine e).foldl (fun s e =>
    let (ok, s) := writeHqRecord s e
    if ok then settleEntry s q e else s) s

/-- A grid is complete (R112, R352, R415, R418): its parent learns of trouble, its team or its host queue of its status. -/
def completeGrid (s : State) (gk : Nat) : State :=
  match s.grid? gk with
  | none => s
  | some g =>
    let s := s.onGrid gk fun x => { x with done := true }
    let s := match g.parent with
      | some p => if g.troubled then setGridFlag s p 3 else s
      | none => s
    match g.origin with
    | .team t =>
      let s := giveStatus s t gk g.status
      s.onWork fun w => { w with grids := NMap.erase w.grids gk }
    | .host q _ =>
      let s := onHq s q fun x =>
        { x with entries := x.entries.map fun e => if e.grid = some gk then { e with done := true } else e }
      flushRecords s q fun e => e.grid == some gk

/-- GRID_COMPLETE (R112, R352, R415, R418): completes a grid, or writes the record of one whose page has come. -/
def execGridComplete (gk : Nat) (s : State) : Out :=
  .next <|
    match s.grid? gk with
    | none => s
    | some g =>
      if gridOver s gk then completeGrid s gk
      else
        match g.done, g.origin with
        | true, .host q _ => flushRecords s q fun e => e.grid == some gk
        | _, _ => s

/-! ## Host launch queues -/

/-- The size of a queue's ring (R416). -/
def HostQueue.ring (q : HostQueue) : Nat := 2 ^ (if 4 ≤ q.size ∧ q.size ≤ 12 then q.size else 12)

/-- HQBASE and HQCTX are ignored while the queue is served (R416). -/
def hqWrite (s : State) (q : Nat) (f : HostQueue → HostQueue) : State :=
  onHq s q fun x => if x.en then { x with err := true } else f x

/-- A write of HQBASE (R416). -/
def hqbaseSet (s : State) (q : Nat) (v : W64) : State := hqWrite s q fun x => { x with base := bitsOf v.toNat 47 12 }

/-- A write of HQCTX (R416). -/
def hqctxSet (s : State) (q : Nat) (v : W64) : State := hqWrite s q fun x => { x with desc := bitsOf v.toNat 47 6 * 64 }

/-- A write of HQCTL (R416): SIZE and RENDER stay while the queue is served; minimal mode serves no queue (R482). -/
def hqctlSet (s : State) (q : Nat) (v : W64) : State :=
  onHq s q fun x =>
    let size := bitsOf v.toNat 19 16
    let render := v.getLsbD 1
    let bad := x.en && (size != x.size || render != x.render)
    let barred := s.minimal && v.getLsbD 0
    { x with err := (x.err && !v.getLsbD 2) || bad || barred
             size := if x.en then x.size else size, render := if x.en then x.render else render
             en := v.getLsbD 0 && !barred }

/-- A write of HQDB: one past the last valid entry (R416). -/
def hqdbSet (s : State) (q : Nat) (v : W64) : State :=
  onHq s q fun x =>
    let t := v.toNat % 2 ^ 16
    if x.ring ≤ t then { x with err := true } else { x with tail := t }

/-- HQBASE_WRITE (R122, R416). -/
def execHqbaseWrite (q : Nat) (v : W64) (s : State) : Out := .next (hostWrite s fun s => hqbaseSet s q v)

/-- HQCTX_WRITE (R122, R416). -/
def execHqctxWrite (q : Nat) (v : W64) (s : State) : Out := .next (hostWrite s fun s => hqctxSet s q v)

/-- HQCTL_WRITE (R122, R416, R482). -/
def execHqctlWrite (q : Nat) (v : W64) (s : State) : Out := .next (hostWrite s fun s => hqctlSet s q v)

/-- HQ_DOORBELL (R122, R416). -/
def execHqDoorbell (q : Nat) (v : W64) (s : State) : Out := .next (hostWrite s fun s => hqdbSet s q v)

/-- The dispatcher reads a queue's context descriptor and the entry at its head (R34, R35, R416). -/
def touchHead (s : State) (q : Nat) : State :=
  let x := hqOf s q
  if !x.en || x.head % x.ring == x.tail || s.minimal then s
  else touchPhys (touchPhys s x.desc 64 0) (x.base * 4096 + 64 * (x.head % x.ring)) 64 0

/-- The entry at a queue's head, if the queue is served and has one: its context and words (R416-R418, R442). -/
def hqHead (s : State) (q : Nat) : Option (Nat × List W64) :=
  let x := hqOf s q
  if !x.en || x.head % x.ring == x.tail || s.minimal then none
  else
    let ctx := physNat s (x.desc + 28) 4
    if ctxHalted s ctx then none
    else some (ctx, (List.range 8).map fun i => w64 (physNat s (x.base * 4096 + 64 * (x.head % x.ring) + 8 * i) 8))

/-- A field of a host-queue entry that must be zero is not (R418). -/
def hqMalformed (e : List W64) : Bool := e.getD 6 0 != 0 || e.getD 7 0 != 0 || bitsOf (e.getD 0 0).toNat 63 9 != 0

/-- OP of an entry. -/
def hqOp (e : List W64) : Nat := (e.getD 0 0).toNat % 256

/-- Takes the entry at a queue's head (R417). -/
def hqTake (s : State) (q ctx : Nat) (e : List W64) (grid : Option Nat) (refuse : Nat) (over' : Bool) : State :=
  onHq s q fun x =>
    let n : HqEntry :=
      { idx := x.head, ctx := ctx, op := hqOp e, grid := grid, cmp := e.getD 3 0, irq := (e.getD 0 0).getLsbD 8
        refuse := refuse, done := over', written := false }
    { x with head := (x.head + 1) % x.ring, entries := x.entries ++ [n]
             launches := match grid with
               | some gk => gk :: x.launches.take 254
               | none => x.launches }

/-- Accepts a queue's LAUNCH with the header as read, or refused (R412, R413, R417, R419). -/
def hqAccept (s : State) (q : Nat) (e hdr : List W64) (refuse : Nat) : State :=
  let x := hqOf s q
  let (ctx, s) := loadCtx s x.desc
  let (gk, s) := acceptGrid s
    { ctx := ctx, hdr := hdr, hdrAddr := (e.getD 1 0).toNat, args := e.getD 2 0, level := 1, origin := .host q x.head
      parent := none, rel := x.launches.map some, id := none
      prio := fun p => if x.render then min p 1 else max p 2, refuse := refuse }
  hqTake s q ctx e (some gk) 0 false

/-- What the dispatcher's header read gives (R418). -/
inductive HdrRead where
  | waits
  | refused (code : Nat)
  | words (hdr : List W64)

/-- Reads a header of 128 bytes through translation (R418); host and peer memory by a request (R471, R475). -/
def readHeader (s : State) (q ctx addr : Nat) : HdrRead × State :=
  let ow := nobody + 1 + q
  let mine := s.pkg.outreqs.find? fun r => match r.owner with
    | .held g _ _ => g == ow
    | _ => false
  match mine with
  | some r =>
    match replyTo s r with
    | none => (.waits, s)
    | some rep =>
      let s := endRequest s r.n
      match rep with
      | .ok bs false => (.words (wordsOfBytes bs 16), s)
      | .ok _ true => (.refused 0x0B, s)
      | .fail _ => (.refused 0x0B, s)
  | none =>
    if wildAddr addr then (.refused 0x09, s)
    else if addr % 128 ≠ 0 then (.refused 0x08, s)
    else
      let (x, s) := translateWalk s ioAgent ctx addr .read false
      match x with
      | .wait => (.waits, s)
      | .denied => (.refused 0x09, s)
      | .ok l pa =>
        if l.tgt = 0 then
          let s := touchPhys s pa 128 ctx
          if physPoison s pa 128 then (.refused 0x0B, s) else (.words (wordsOfBytes (physRead s pa 128) 16), s)
        else
          let (code, _, s) := sendRemote s (.held ow 0 32) ⟨ctx, [], 0⟩ l pa addr (.read 128) false
          match code with
          | some _ => (.refused 0x0B, s)
          | none => (.waits, s)

/-- Answered requests for completion records are forgotten. -/
def dropRecords (s : State) : State :=
  let hit := s.pkg.outreqs.filter fun r => (match r.owner with
    | .held g _ _ => g == recordOwner
    | _ => false) && (replyTo s r).isSome
  hit.foldl (fun s r => endRequest s r.n) s

/-- The entry is for `hqLaunch`: a LAUNCH, or one that is refused at once (R418). -/
def hqLaunches (e : List W64) : Bool := hqMalformed e || !([2, 3, 4].contains (hqOp e))

/-- HQ_LAUNCH (R412, R413, R417, R418): takes a LAUNCH, or an entry that is refused at once, from a queue's head. -/
def execHqLaunch (q : Nat) (s : State) : Out :=
  let s := touchHead (dropRecords (flushRecords s q fun e => e.op == 1 || e.refuse != 0)) q
  .next <|
    match hqHead s q with
    | none => s
    | some (ctx, e) =>
      if !hqLaunches e then s
      else if hqOp e ≠ 1 then
        let (ctx, s) := loadCtx s (hqOf s q).desc
        flushRecords (hqTake s q ctx e none 8 true) q fun e => e.refuse != 0
      else if hqMalformed e then hqAccept s q e [] 8
      else
        let (_, s) := loadCtx s (hqOf s q).desc
        let (h, s) := readHeader s q ctx (e.getD 1 0).toNat
        match h with
        | .waits => s
        | .refused code => hqAccept s q e [] code
        | .words hdr => hqAccept s q e hdr 0

/-- Sets or clears DEV in the leaf that maps an address, by compare-and-swap, and sends the page's lines back to memory (R53,
R63). -/
def setDev (s : State) (ctx va : Nat) (on : Bool) : State :=
  match (walkTop s ctx va).1 with
  | .leaf lv a e =>
    let new := if on then w64 e ||| 0x80 else w64 e &&& ~~~(0x80 : W64)
    let l := Leaf.of e
    let s := if l.tgt = 0 ∧ !on then
        (List.range Config.dies).foldl (fun s d => flushPage s d (l.pa + va % levelSpan lv / 2 ^ 21 * 2 ^ 21) (min (levelSpan lv) (2 ^ 21))) s
      else s
    (casLeaf s a (w64 e) new).2
  | _ => s

/-- Hands a range over: DEV in each of its leaves, then the invalidation (R63). -/
def handRange (s : State) (ctx base units : Nat) (on : Bool) : State :=
  let base := base / 2 ^ 21 * 2 ^ 21
  let n := min units (2 ^ 27)
  let s := (List.range n).foldl (fun s i =>
    let va := (base + i * 2 ^ 21) % 2 ^ 48
    match (walkTop s ctx va).1 with
    | .leaf 0 _ _ | .malformed 0 => (List.range 32).foldl (fun s j => setDev s ctx (va + j * 2 ^ 16) on) s
    | _ => setDev s ctx va on) s
  invalidateRange s (some ctx) (some (base, n * 2 ^ 21))

/-- Every entry that a queue has taken is complete. -/
def hqClear (s : State) (q : Nat) : Bool := (hqOf s q).entries.all HqEntry.done

/-- Takes an entry of one OP that acts at the queue's head. -/
def hqAct (s : State) (q op : Nat) (ready : Bool) (act : State → Nat → List W64 → State) : State :=
  let s := touchHead (dropRecords (flushRecords s q fun e => e.op == op)) q
  match hqHead s q with
  | none => s
  | some (_, e) =>
    if hqMalformed e || hqOp e != op || !ready then s
    else
      let (ctx, s) := loadCtx s (hqOf s q).desc
      flushRecords (hqTake (act s ctx e) q ctx e none 0 true) q fun x => x.op == op

/-- HQ_RELEASE (R63, R418): once every earlier entry is complete. -/
def execHqRelease (q : Nat) (s : State) : Out :=
  .next (hqAct s q 2 (hqClear s q) fun s ctx e => handRange s ctx (e.getD 4 0).toNat (e.getD 5 0).toNat false)

/-- HQ_ACQUIRE (R63, R418): later entries start after it. -/
def execHqAcquire (q : Nat) (s : State) : Out :=
  .next (hqAct s q 3 true fun s ctx e => handRange s ctx (e.getD 4 0).toNat (e.getD 5 0).toNat true)

/-- HQ_JOIN (R418): once every earlier entry is complete. -/
def execHqJoin (q : Nat) (s : State) : Out := .next (hqAct s q 4 (hqClear s q) fun s _ _ => s)

/-- A refuse-range ends the dispatcher's waits in it (R62, R413, R418): a header read is refused with 0x09, a completion
record is not written. -/
def refuseHq (s : State) (ctx base size : Nat) : State :=
  let inside (a : Nat) : Bool := decide (base ≤ a) && decide (a < base + size)
  (List.range 64).foldl (fun s q =>
    let late := (hqOf s q).entries.filter fun e => e.done && e.ctx == ctx && inside (e.cmp.toNat / 32 * 32)
    let s := late.foldl (fun s e => settleEntry s q e) s
    match hqHead s q with
    | some (c, e) =>
      let addr := (e.getD 1 0).toNat
      if c = ctx ∧ !hqMalformed e ∧ hqOp e = 1 ∧ inside addr ∧ (leafNow s ctx addr).isNone then hqAccept s q e [] 0x09 else s
    | none => s) s

end Sys2Proof.Machine
end

