-- ==== Sys2Proof/Machine/BaseDie.lean ====
section
/-! DEFINITION. Events of the base dies and the L2 slices: packets, the write buffer, scrubbing, row remaps, the bad-page
list and slice requests (spec/02 R20-R43, spec/04 R77-R79). An event whose condition does not hold changes nothing. -/

namespace Sys2Proof.Machine

/-! ## Packets -/

/-- A tag between 0 and 7 that is free, and a line of main memory (R18, R26). -/
def mayArrive (s : State) (slice tag line : Nat) : Bool :=
  decide (tag < 8) && decide (slice < 192) && decide (line * 128 < Config.memBytes) &&
    !(tagsTaken s (channelOf line) slice).contains tag

/-- RD (R25, R28): a read packet arrives. The context of the access behind it goes with its tag (R39). -/
def execRd (slice : Nat) (tag : PacketTag) (line : Nat) (sectors : Four) (noalloc : Bool) (s : State) : Out :=
  .next <|
    if mayArrive s slice tag.n line then
      arrivePacket s (channelOf line)
        { n := 0, ctx := tag.ctx, slice := slice, tag := tag.n, line := line, wr := false, sectors := sectors.val, noalloc := noalloc
          masks := [], data := [], doneSecs := 0, got := [], served := false, mergePois := false }
    else s

/-- WR (R25, R28): a write packet arrives. -/
def execWr (slice : Nat) (tag : PacketTag) (line : Nat) (sectors : Four) (masks : WrMasks) (data : WrData) (s : State) : Out :=
  .next <|
    if mayArrive s slice tag.n line then
      arrivePacket s (channelOf line)
        { n := 0, ctx := tag.ctx, slice := slice, tag := tag.n, line := line, wr := true, sectors := sectors.val, noalloc := false
          masks := masks, data := data, doneSecs := 0, got := [], served := false, mergePois := false }
    else s

/-- No earlier-arrived write to a sector is still to be performed (R28). -/
def sectorFree (s : State) (ch : Nat) (p : Packet) (i : Nat) : Bool :=
  !((s.chan ch).packets.any fun y => y.wr && decide (y.n < p.n) && y.line == p.line && y.waits i)

/-- The write buffer takes a sector: it has room, or holds the sector already (R29). -/
def bufferTakes (s : State) (ch sec : Nat) : Bool :=
  (s.chan ch).wbuf.contains sec || decide ((s.chan ch).wbuf.length < 64)

/-- Performs the sectors of a write that are full, or those that need a merge, as far as the buffer has room (R28-R30). -/
def performSectors (s : State) (ch n : Nat) (full : Bool) : State :=
  (List.range 4).foldl (fun s i =>
    match packetOf s ch n with
    | none => s
    | some p =>
      if p.wr && p.waits i && decide ((p.masks.getD i 0 = fullMask) = full) && sectorFree s ch p i && !rowMoving s p.line &&
          bufferTakes s ch (p.line * 4 + i) then performPart checkGranule s ch n i
      else s) s

/-- WRITE_PERFORMED (R29): the full sectors of a write enter the write buffer. -/
def execWritePerformed (ch n : Nat) (s : State) : Out := .next (performSectors s ch n true)

/-- SUB_GRANULE_MERGE (R30, R36, R37): the partial sectors of a write are merged and performed. -/
def execSubGranuleMerge (ch n : Nat) (s : State) : Out := .next (performSectors s ch n false)

/-- READ_SERVICE_COMPLETE (R21-R23, R28, R34, R35): a read takes each sector as it stands after the earlier-arrived writes, once
the victim that its fill needs has left the crust. -/
def execReadServiceComplete (ch n : Nat) (s : State) : Out :=
  .next <|
    match packetOf s ch n with
    | none => s
    | some p =>
      let left := (List.range 4).filter fun i => p.names i && !(p.got.any fun g => g.1 == i)
      if p.wr || p.served || rowMoving s p.line || left.any (fun i => !sectorFree s ch p i) then s
      else
        let q := chanIndex p.line
        let (ok, c) :=
          if p.noalloc || (crustHit (s.chan ch) q).isSome then (true, s.chan ch) else crustReady (s.chan ch) q false
        if ok then serveRead checkGranule (s.setChan ch c) ch n else s.setChan ch c

/-- WRITE_BUFFER_DRAIN (R21, R22, R29): the first sector of the buffer, with its line, goes to the crust or the main layer. -/
def execWriteBufferDrain (ch : Nat) (s : State) : Out :=
  .next (if (s.chan ch).wbuf.isEmpty then s else s.setChan ch (drainBuffer (s.chan ch) false))

/-- CRUST_WRITEBACK (R22): a victim's dirty line reaches the main layer. -/
def execCrustWriteback (ch : Nat) (s : State) : Out :=
  .next <|
    let c := s.chan ch
    s.setChan ch { c with wback := c.wback.drop 1 }

/-- ROW_REMAP_COMPLETE (R38): the row stands in its spare, and its requests go on. -/
def execRowRemapComplete (ch bank row : Nat) (s : State) : Out := .next (endMove s ch bank row)

/-- PATROL_SCRUB (R34, R35, R37, R38): in idle cycles of its channel a stack's scrubber reads one granule; it goes on in its
round when the granule is the round's next, and a round's first granule of a channel starts that channel's counts of
corrected granules afresh. -/
def execPatrolScrub (gran : Nat) (s : State) : Out :=
  .next <|
    let ch := channelOf (gran / 4)
    let c := s.chan ch
    if !c.packets.isEmpty || decide (Config.memBytes ≤ gran * 32) then s
    else
      let stack := ch / 32
      let s := s.onMs fun ms =>
        let at? := ms.scrub.getD stack 0
        if patrolGranule stack at? = gran then { ms with scrub := listSet ms.scrub stack (at? + 1) } else ms
      let s := if chanIndex (gran / 4) = 0 ∧ gran % 4 = 0 then s.setChan ch { c with corrected := [] } else s
      (checkGranule (awaitMove s (gran / 4)) gran 7 0).2

/-! ## The bad-page list -/

/-- A command of the list is ignored: ERR (R43). -/
def bplIgnored (s : State) : State := s.onMs fun ms => { ms with bplErr := true }

/-- Adds a page to the list (R43). -/
def bplAddSet (s : State) (page : Nat) : State :=
  if s.ms.bplBusy || decide (Config.memBytes / 2 ^ 16 ≤ page) || s.ms.bpl.contains page || decide (8192 ≤ s.ms.bpl.length)
  then bplIgnored s
  else s.onMs fun ms => { ms with bpl := insNat ms.bpl page, bplBusy := true }

/-- Removes a page from the list (R43): the placement units go on avoiding it until the next start. -/
def bplRemoveSet (s : State) (page : Nat) : State :=
  if s.ms.bplBusy || decide (Config.memBytes / 2 ^ 16 ≤ page) || !s.ms.bpl.contains page then bplIgnored s
  else s.onMs fun ms => { ms with bpl := delNat ms.bpl page, bplRemoved := insNat ms.bplRemoved page, bplBusy := true }

/-- BPL_ADD (R43, R122). -/
def execBplAdd (page : Nat) (s : State) : Out := .next (hostWrite s fun s => bplAddSet s page)

/-- BPL_REMOVE (R43, R122). -/
def execBplRemove (page : Nat) (s : State) : Out := .next (hostWrite s fun s => bplRemoveSet s page)

/-- BPL_COMMAND_COMPLETE (R43). -/
def execBplCommandComplete (s : State) : Out := .next (s.onMs fun ms => { ms with bplBusy := false })

/-! ## L2 slices -/

/-- A request waits in the slice's miss table, which holds 256 (R32). -/
def waitMiss (s : State) (rq : SliceReq) : State := setMisses s rq.slice (missesOf s rq.slice ++ [rq])

/-- The slice takes a request that must wait; a full one returns no credit, and the request stays with its sender (R32). -/
def missTableTakes (s : State) (slice : Nat) : Bool := decide ((missesOf s slice).length < 256)

/-- Whether a waiting request can be taken again: its sector's fill has come, or, at a remote slice, its lease has ended (R31,
R78). -/
def missReady (s : State) (rq : SliceReq) : Bool := (l2Sector s.ms (rq.slice / 48) (rq.addr / 32)).st != .f

/-- A read misses: its sector waits for the fill, which the home asks of the base die on a free tag, and a remote slice of
the home slice (R26, R31, R78). -/
def sendFill (s : State) (rq : SliceReq) : State :=
  if missTableTakes s rq.slice then
    let die := rq.slice / 48
    let sec := rq.addr / 32
    let s := makeRoom s die (sec / 4)
    let s := s.onMs fun ms => setL2Sector ms die sec { L2Sector.invalid with st := .f } s.clock.cycle
    let s := waitMiss s rq
    if rq.home = die then sendWaiting s rq.slice (channelOf (sec / 4)) else s
  else s

/-- The request that a remote slice sends to the home slice for a sector that it waits for (R78). -/
def homeward (rq : SliceReq) : SliceReq :=
  { rq with slice := rq.home * 48 + rq.slice % 48, core := none, remote := some (rq.slice / 48) }

/-- What a waiting request of a slice lets happen next, if anything: it is taken again when its fill has come; a fill that is
not asked for yet goes to the home slice, or to the base die on a free tag (R31, R78). -/
def missEvent (s : State) (rq : SliceReq) : Option Instr :=
  let sec := rq.addr / 32
  if missReady s rq then some (.l2SliceRequest rq)
  else if rq.home != rq.slice / 48 then
    (if (missesOf s (homeward rq).slice).contains (homeward rq) then none else some (.l2SliceRequest (homeward rq)))
  else if rdSent s rq.slice sec || (freeTag s (channelOf (sec / 4)) rq.slice).isNone then none
  else some (.l2SliceRequest rq)

/-- The home slice answers a remote slice's read: the copy with a lease of 1,000 ns, taken where the fill is awaited (R78,
R98). -/
def grantRemote (s : State) (die home sec ctx : Nat) (noalloc : Bool) : State :=
  if (l2Sector s.ms die sec).st == .f then (remoteFill s die home sec ctx noalloc).2 else s

/-- A request reaches an L2 slice (R78): a read hits and grants a lease, or waits for a fill; a write is performed at the
home with its GWCT; an atomic is performed at the home. A request for a sector whose fill is pending waits. -/
def sliceRequest (s : State) (rq : SliceReq) : State :=
  let die := rq.slice / 48
  let sec := rq.addr / 32
  if decide (192 ≤ rq.slice) || decide (4 ≤ rq.home) || sliceOf (sec / 4) != rq.slice % 48 || outsideMemory rq.addr then s
  else
    let s := l2Check s die sec
    let x := l2Sector s.ms die sec
    if x.st == .f then (if missTableTakes s rq.slice then waitMiss s rq else s)
    else
      match rq.op with
      | .read _ =>
        let hit := x.st == .c || x.st == .d || (x.st == .l && decide (s.clock.dtime < x.lease))
        if !hit then sendFill s rq
        else
          match rq.core, rq.remote with
          | some c, _ =>
            let (g, s) := sliceRead s die rq.home sec rq.ctx rq.noalloc
            setL1 s c sec ⟨g.data, g.poison, g.lease, g.stamp, s.clock.cycle⟩
          | none, some d => grantRemote s d die sec rq.ctx rq.noalloc
          | none, none => (engineRead s die rq.home sec rq.ctx rq.noalloc).2
      | .write bs =>
        let m := byteMask (rq.addr % 32) bs.length
        let d := Sector.ofNat (leNat bs) (rq.addr % 32) bs.length
        match rq.core with
        | some c => (coreWrite s c rq.home sec rq.ctx m d false).2
        | none => (agentWrite s (some die) rq.home sec rq.ctx m d false).2
      | op =>
        let l : Leaf := ⟨0, 0, rq.home, rq.addr / 2 ^ 16 * 2 ^ 16, rq.noalloc, true, false, false, false, true, true, 2 ^ 16⟩
        (atomDevice s (rq.core.getD (96 * die)) l rq.addr rq.ctx op).2.2.2

/-- L2_SLICE_REQUEST (R78): a request that waits in its slice's miss table is taken from it when its
fill has come, else its fill goes out; another one arrives. -/
def execL2SliceRequest (rq : SliceReq) (s : State) : Out :=
  .next <|
    let l := missesOf s rq.slice
    if l.contains rq then
      (if missReady s rq then sliceRequest (setMisses s rq.slice (l.erase rq)) rq
        else sendWaiting s rq.slice (channelOf (rq.addr / 128)))
    else sliceRequest s rq

/-- The requests of a slice that can be taken again, oldest first (R31, R78). -/
def retakeMisses (s : State) (slice : Nat) : State :=
  (missesOf s slice).foldl (fun s rq =>
    if missReady s rq && (missesOf s slice).contains rq then
      sliceRequest (setMisses s slice ((missesOf s slice).erase rq)) rq
    else s) s

/-- A tag is free again at a channel: the fills that wait for one go out, and requests whose fill has come are taken again
(R31). -/
def tagFreed (s : State) (slice ch : Nat) : State := retakeMisses (sendWaiting s slice ch) slice

/-- WACK (R26, R29, R31): a performed write's acknowledgement frees its tag. -/
def execWack (ch n : Nat) (s : State) : Out :=
  .next <|
    match packetOf s ch n with
    | some p => if p.wr && p.served then tagFreed (dropPacket s ch n) p.slice ch else s
    | none => s

/-- RDATA (R26, R31, R78): read data fills the slice's waiting sectors and frees the tag. -/
def execRdata (ch n : Nat) (s : State) : Out :=
  .next <|
    match packetOf s ch n with
    | some p => if !p.wr && p.served then tagFreed (deliverRead s ch p) p.slice ch else s
    | none => s

end Sys2Proof.Machine
end

