-- ==== Sys2Proof/Machine/Coll.lean ====
section
/-! DEFINITION. The collective engines (spec/15 R341-R345, spec/22 R480). Collectives are named by their set and their place in the
set's order. -/

namespace Sys2Proof.Machine

/-- The number of a set's collective: the set in the low 8 bits, its place above them (R342). -/
def CollRun.key (r : CollRun) : Nat := r.desc.set + 256 * r.seq

/-- Changes a collective, queued or begun. -/
def onColl (s : State) (n : Nat) (f : CollRun → CollRun) : State :=
  let g (r : CollRun) : CollRun := if r.key = n then f r else r
  let item (x : QueueItem CollRun) : QueueItem CollRun := match x with
    | .op a => .op (g a)
    | .fence m => .fence m
  s.onEng fun e => { e with queues := e.queues.map fun x => (x.1, { x.2 with coll := x.2.coll.map item })
                            colls := e.colls.map g }

/-- A collective that is queued or begun. -/
def collOf (s : State) (n : Nat) : Option CollRun :=
  (s.eng.colls ++ s.eng.queues.flatMap fun x => queueOps x.2.coll).find? fun r => r.key == n

/-! ## Elements -/

/-- Bits of an element (R341). -/
def collBits (ty : Nat) : Nat := 8 * collSize ty

/-- The elements of bytes. -/
def collElems (ty : Nat) (bs : List Byte) : List W64 :=
  (List.range (bs.length / collSize ty)).map fun i => w64 (leNat ((bs.drop (i * collSize ty)).take (collSize ty)))

/-- The floating-point format of a TYPE. -/
def collFmt (ty : Nat) : Option Fmt := if ty = 0 then some .f64 else if ty = 1 then some .f32 else if ty = 2 then some .bf16 else none

/-- One step of a reduction (R342). -/
def collStep (red ty : Nat) (a b : Nat) : Nat :=
  let w := collBits ty
  let less : Bool := if ty = 3 ∨ ty = 4 then decide (signedOf w a < signedOf w b) else decide (a < b)
  match red with
  | 0 => match collFmt ty with
    | some f => (f.add .rn a b).1
    | none => (a + b) % 2 ^ w
  | 1 => match collFmt ty with
    | some f => (f.minMaxNum false a b).1
    | none => if less then a else b
  | 2 => match collFmt ty with
    | some f => (f.minMaxNum true a b).1
    | none => if less then b else a
  | 3 => Nat.land a b
  | 4 => Nat.lor a b
  | _ => Nat.xor a b

/-- The members' values of one element in the engine's order, which is a free choice (R175, R342). -/
def collOrdered (free : Nat) : Nat → List Nat → List Nat
  | 0, l => l
  | n + 1, l =>
    match l with
    | [] => []
    | _ => let i := Config.collOrder (free + n) % l.length
      l.getD i 0 :: collOrdered free n (l.eraseIdx i)

/-- The reduction of one element over the members that took part (R342, R343). -/
def collReduce (red ty free : Nat) (xs : List Nat) : Nat :=
  match collOrdered free xs.length xs with
  | [] => 0
  | x :: l => l.foldl (collStep red ty) x

/-! ## What a collective reads and writes -/

/-- Elements that this package's SRC holds (R342): every member's blocks for reduce-scatter, none for a broadcast's other
members. -/
def CollRun.sources (r : CollRun) : Nat :=
  match r.desc.op with
  | 1 => r.m * r.desc.count
  | 3 => if r.self = r.desc.root then r.desc.count else 0
  | _ => r.desc.count

/-- Members that are neither heard nor lost yet. A broadcast waits for its root alone. -/
def CollRun.missing (r : CollRun) : List Nat :=
  (List.range r.m).filter fun j =>
    j != r.self && !r.lost.contains j && !(r.got.any fun g => g.1 == j) && (r.desc.op != 3 || j == r.desc.root)

/-- The members that took part. -/
def CollRun.members (r : CollRun) : List Nat := (List.range r.m).filter fun j => !r.lost.contains j

/-- The block of a member that concerns this package: what it sent, or this package's own. -/
def CollRun.block (r : CollRun) (j : Nat) : List W64 :=
  let own := collElems r.desc.ty r.mine
  if j = r.self then (if r.desc.op = 1 then (own.drop (r.self * r.desc.count)).take r.desc.count else own)
  else ((r.got.find? fun g => g.1 == j).map Prod.snd).getD []

/-- The blocks that DST receives: offsets in elements, and elements (R342, R343). -/
def CollRun.blocks (r : CollRun) (free : Nat) : List (Nat × List W64) :=
  let n := r.desc.count
  match r.desc.op with
  | 0 | 1 =>
    [(0, (List.range n).map fun i =>
      w64 (collReduce r.desc.red r.desc.ty (free + 64 * i) (r.members.map fun j => ((r.block j).getD i 0).toNat)))]
  | 2 => r.members.map fun j => (j * n, r.block j)
  | _ => if r.lost.contains r.desc.root then [] else [(0, r.block r.desc.root)]

/-- The status record (R344). -/
def CollRun.record (r : CollRun) : Nat :=
  (r.members.map fun j => 2 ^ j).sum + r.members.length * 2 ^ 64 + b2n (!r.lost.isEmpty) * 2 ^ 72

/-- Bytes from an address, cut at sector boundaries. -/
def cutSectors : Nat → Nat → List Byte → List (Nat × List Byte)
  | 0, _, _ => []
  | n + 1, a, bs =>
    if bs.isEmpty then []
    else
      let k := 32 - a % 32
      (a, bs.take k) :: cutSectors n (a + k) (bs.drop k)

/-- The pieces that the engine writes, the status record last; an error leaves only the record (R342-R344). -/
def CollRun.pieces (r : CollRun) (free : Nat) : List (Nat × List Byte) :=
  let es := collSize r.desc.ty
  let data := if r.status.getLsbD 0 then [] else
    (r.blocks free).flatMap fun b =>
      let bs := b.2.flatMap fun x => leBytes es x.toNat
      cutSectors (bs.length + 1) ((w64 (r.desc.dst + b.1 * es)).toNat) bs
  data ++ (if r.desc.staddr = 0 then [] else [(r.desc.staddr, leBytes 16 r.record)])

/-! ## Moving on -/

/-- What an access of a collective engine gives. -/
inductive CollMove where
  | done (bytes : List Byte) (poison : Bool) (gwct : Nat)
  | waits (va : Nat)
  | pending (req : Nat)
  | stop (code : Nat)

/-- Bytes of device memory as a collective engine reads them at their home slice (R118, R342). -/
def homeBytes (s : State) (l : Leaf) (ctx pa n : Nat) : List Byte × Bool × State :=
  (touched pa n).foldl (fun (acc : List Byte × Bool × State) sec =>
    let (x, s) := homeFetch acc.2.2 l.home sec ctx l.noalloc
    let part := ((List.range 32).filter fun j => decide (pa ≤ sec * 32 + j) && decide (sec * 32 + j < pa + n)).map fun j =>
      Sector.byte x.data j
    (acc.1 ++ part, acc.2.1 || x.poison, s)) ([], false, s)

/-- One access of an engine within a page, through the I/O die's control core; host and peer memory by a request (R343, R471,
R475). -/
def collAccess (s : State) (r : CollRun) (va : Nat) (op : MemOp) (poison : Bool) : CollMove × State :=
  let writes := match op with
    | .read _ => false
    | _ => true
  match r.req with
  | some n =>
    match (s.pkg.outreqs.find? fun x => x.n == n).bind (replyTo s) with
    | none => (.pending n, s)
    | some rep =>
      let s := endRequest s n
      match rep with
      | .ok bs p => (.done bs p 0, s)
      | .fail _ => (.stop 5, s)
  | none =>
    if wildAddr (va + MemOp.size op - 1) then (.stop 1, s)
    else
      let (x, s) := translateWalk s ioAgent r.ctx va (if writes then .write else .read) false
      match x with
      | .denied => (.stop 1, s)
      | .wait => (.waits va, s)
      | .ok l pa =>
        if l.tgt = 0 then
          match op with
          | .write bs =>
            let (g, s) := agentWrite s none l.home (pa / 32) r.ctx (byteMask (pa % 32) bs.length)
              (Sector.ofNat (leNat bs) (pa % 32) bs.length) poison
            (.done [] false g, s)
          | _ =>
            let (bs, p, s) := homeBytes s l r.ctx pa (MemOp.size op)
            (.done bs p 0, s)
        else
          let (code, n, s) := sendRemote s (.copy r.id) ⟨r.ctx, r.grids, r.core⟩ l pa va op poison
          match code with
          | some _ => (.stop 5, s)
          | none => (.pending n, s)

/-- The collective ends with an error code: only its status record is left to write (R343). -/
def CollRun.fail (r : CollRun) (code : Nat) : CollRun :=
  if r.status.getLsbD 0 then r else { r with status := r.status ||| 1 ||| BitVec.ofNat 16 (code * 2 ^ 12), wrote := 0, req := none }

/-- The collective parks on a page: its timeout stops (R343). -/
def CollRun.park (r : CollRun) (now va : Nat) : CollRun :=
  { r with start := if r.parked.isNone then now - r.start else r.start, parked := some (r.ctx, va) }

/-- The collective goes on. -/
def CollRun.unpark (r : CollRun) (now : Nat) : CollRun :=
  { r with start := if r.parked.isSome then now - r.start else r.start, parked := none }

/-- What is left for a begun collective to do (R342-R344). -/
inductive CollNext where
  | readAt (va n : Nat)
  | wait
  | writeAt (va : Nat) (bs : List Byte)
  | done

/-- The next access of a collective: its own contribution first, then the result once every member is heard or lost. After a
tear-down it only waits for its members (R345). -/
def CollRun.next (r : CollRun) (free : Nat) : CollNext :=
  let total := r.sources * collSize r.desc.ty
  if r.torn then (if r.missing.isEmpty then .done else .wait)
  else if !r.status.getLsbD 0 && decide (r.mine.length < total) then
    let va := (w64 (r.desc.src + r.mine.length)).toNat
    .readAt va (min (2 ^ 16 - va % 2 ^ 16) (total - r.mine.length))
  else if !r.status.getLsbD 0 && !r.missing.isEmpty then .wait
  else
    match (r.pieces free)[r.wrote]? with
    | some (va, bs) => .writeAt va bs
    | none => .done

/-- Moves a collective on as far as it goes; whether it has nothing left to do. -/
def CollRun.run (free : Nat) : Nat → CollRun → State → Bool × CollRun × State
  | 0, r, s => (false, r, s)
  | n + 1, r, s =>
    let now := s.clock.dtime
    match r.next free with
    | .wait => (false, r, s)
    | .done => (true, r, s)
    | .readAt va k =>
      let (m, s) := collAccess s r va (.read k) false
      match m with
      | .done bs p _ => run free n { (r.unpark now) with mine := r.mine ++ bs, pois := r.pois || p, req := none } s
      | .waits va => (false, r.park now va, s)
      | .pending q => (false, { r with req := some q }, s)
      | .stop code => run free n ((r.unpark now).fail code) s
    | .writeAt va bs =>
      let (m, s) := collAccess s r va (.write bs) (r.pois && va != r.desc.staddr)
      match m with
      | .done _ _ g => run free n { (r.unpark now) with wrote := r.wrote + 1, gwct := max r.gwct g, req := none } s
      | .waits va => (false, r.park now va, s)
      | .pending q => (false, { r with req := some q }, s)
      | .stop code =>
        if r.status.getLsbD 0 then run free n { (r.unpark now) with wrote := r.wrote + 1, req := none } s
        else run free n ((r.unpark now).fail code) s

/-- A bound on the accesses of a collective. -/
def CollRun.fuel (r : CollRun) : Nat := 4 * (r.m + 1) * r.desc.count + 64

/-- Reads this package's contribution as far as it can be read now. -/
def CollRun.contribute : Nat → CollRun → State → CollRun × State
  | 0, r, s => (r, s)
  | n + 1, r, s =>
    match r.next 0 with
    | .readAt va k =>
      match collAccess s r va (.read k) false with
      | (.done bs p _, s) => contribute n { r with mine := r.mine ++ bs, pois := r.pois || p, req := none } s
      | (_, s) => (r, s)
    | _ => (r, s)

/-- Tear-down of a context (R345): its begun collectives go on for the other members, with the contribution that can be read
while the context's pages are still there (LOG 53), and write nothing more; those still queued are dropped. -/
def tearColls (s : State) (ctx : Nat) : State :=
  s.eng.colls.foldl (fun (s : State) r =>
    if r.ctx != ctx || r.torn then s
    else
      let (r, s) := r.contribute r.fuel s
      let r := { r.unpark s.clock.dtime with torn := true, req := none }
      s.onEng fun e => { e with colls := e.colls.map fun x => if x.id = r.id then r else x }) s

/-- The collective engines' loads; the less busy of the two takes a command (R342). -/
def collEngine (s : State) : Nat :=
  let load (e : Nat) : Nat := (s.eng.colls.filter fun r => r.engine == some e).length
  if load 1 < load 0 then 1 else 0

/-- The command at the head of a core's collective queue goes to an engine; contributions that came early are there (R342). -/
def beginColl (s : State) (core : Nat) : State :=
  let s := settleFences s core
  let q := s.queues core
  match q.coll with
  | .op r :: rest =>
    if s.eng.colls.any fun x => x.core == core then s
    else
      let early := s.eng.early.filter fun e => e.1 == r.desc.set && e.2.1 == r.seq
      let r := { r with engine := some (collEngine s), got := r.got ++ early.map fun e => (e.2.2.1, e.2.2.2) }
      (s.setQueues core { q with coll := rest }).onEng fun e =>
        { e with colls := e.colls ++ [r], early := e.early.filter fun e => !(e.1 == r.desc.set && e.2.1 == r.seq) }
  | _ => s

/-- A completion is applied to its batch and its barrier; of a saved group or team they stand in the saved context, which
brings them back on resume (R345). -/
def collDone (s : State) (r : CollRun) (st : BitVec 16) : State :=
  let batch (e : Nat × Group) (seq : Nat) : Nat × Group :=
    if savedKey seq e.1 = r.group then (e.1, { e.2 with batches := e.2.batches.finish r.batch st }) else e
  let s := batchDone s r.group r.batch st false
  let s := s.onWork fun w => { w with saved := w.saved.map fun x => { x with groups := x.groups.map fun e => batch e x.seq } }
  if !r.bar.getLsbD 4 then s
  else if (s.team? r.team).isSome then arriveAt s r.team (r.bar.toNat % 16) st
  else
    let k := r.bar.toNat % 16
    let arrive (t : Team) : Team :=
      { t with nb := t.nb.setIfInBounds k ((t.nb.toArray.toList.getD k ⟨false, 0, 0, 0, 0, 0⟩).arrive st) }
    s.onWork fun w => { w with saved := w.saved.map fun x => if x.teamKey = r.team then { x with team := arrive x.team } else x }

/-- A collective is complete (R118, R342, R344, R345). -/
def finishColl (s : State) (r : CollRun) : State :=
  let st := if r.pois then r.status ||| 2 else r.status
  let s := s.onEng fun e => { e with colls := e.colls.filter fun x => x.id != r.id }
  settleFences (if r.torn then s else collDone s r st) r.core

/-- COLL_COMPLETE (R342-R345): collective `n` begins when it is at its queue's head, moves on as far as members, pages and
replies allow, and completes once DTIME has passed the greatest GWCT of its writes. -/
def execCollComplete (n : Nat) (s : State) : Out :=
  .next <|
    match collOf s n with
    | none => s
    | some r =>
      let s := if r.engine.isNone then beginColl s r.core else s
      match s.eng.colls.find? fun x => x.key == n with
      | none => s
      | some r =>
        let r := if r.desc.op = 3 && r.lost.contains r.desc.root then r.fail 5 else r
        let free := s.freeCtr
        let (over', r, s) := CollRun.run free r.fuel r s
        let s := onColl s n fun _ => r
        if over' && (r.gwct == 0 || decide (r.gwct < s.clock.dtime)) then
          { finishColl s r with freeCtr := free + 64 * r.desc.count }
        else s

/-- The DTIME at which a collective stops waiting for its members (R341, R343). -/
def CollRun.deadline (r : CollRun) : Nat := r.start + (if r.desc.timeout = 0 then 100000 else r.desc.timeout) * 1000

/-- A member of a collective is lost when it is not heard within TIMEOUT (R343). -/
def memberLate (s : State) (n j : Nat) : Bool :=
  match collOf s n with
  | none => false
  | some r => r.parked.isNone && decide (r.deadline ≤ s.clock.dtime) && r.missing.contains j

/-- COLL_MEMBER_TIMEOUT (R343). -/
def execCollMemberTimeout (n j : Nat) (s : State) : Out :=
  .next (if memberLate s n j then onColl s n fun r => { r with lost := insNat r.lost j } else s)

/-- MEMBER_CONTRIBUTION (R343, R480): member `j` of collective `n` is heard, or lost at once by its refusal; one that comes
before this package's COLL is kept. -/
def execMemberContribution (n j : Nat) (c : Contribution) (s : State) : Out :=
  .next <|
    match collOf s n, c with
    | some r, .data xs =>
      if r.missing.contains j then onColl s n fun r => { r with got := r.got ++ [(j, xs)] } else s
    | some r, .refused => if r.missing.contains j then onColl s n fun r => { r with lost := insNat r.lost j } else s
    | none, .data xs =>
      if n / 256 < (NMap.get? s.eng.collSeq (n % 256)).getD 0 then s
      else s.onEng fun e => { e with early := e.early ++ [(n % 256, n / 256, j, xs)] }
    | none, .refused => s

end Sys2Proof.Machine
end

