-- ==== Sys2Proof/Machine/Raster.lean ====
section
/-! DEFINITION. The path rasteriser's arithmetic: reduction and splitting of segments, cell amounts, and coverage rules
(spec/13 R280-R288, spec/25 R495-R496). Lengths are integers in units of 2^-24 pixel. -/

namespace Sys2Proof.Machine

/-- A point in units of 2^-24 pixel. -/
abbrev Pt := Int × Int

/-- One pixel, and one unit of the parameter t. -/
def one24 : Int := 2 ^ 24

/-- The nearest integer to n / d, ties to even, for positive d (R285). -/
def nearest (n d : Int) : Int :=
  let q := n / d
  let r := n % d
  if 2 * r < d then q else if d < 2 * r then q + 1 else if q % 2 = 0 then q else q + 1

/-- The nearest integer to a value known to within e / d; what the bound leaves undecided is a tie (R285). -/
def nearestWithin (n d e : Int) : Int :=
  let a := nearest (n - e) d
  let b := nearest (n + e) d
  if a = b then a else if a % 2 = 0 then a else b

/-- Bits to which a crossing parameter is found: enough to decide every rounding that is not a tie. -/
def rootBits : Nat := 2048

/-- A polynomial at t = k / 2^b, as a number over a scale; coefficients rise in degree. -/
def polyAt (b : Nat) (k : Int) : List Int → Int × Int
  | [] => (0, 1)
  | a :: p =>
    let (n, s) := polyAt b k p
    (a * s * 2 ^ b + k * n, s * 2 ^ b)

/-- The greatest number of `n` more bits that comes before the root. -/
def rootDigits (before : Nat → Bool) : Nat → Nat → Nat
  | 0, acc => acc
  | n + 1, acc => rootDigits before n (if before (acc + 2 ^ n) then acc + 2 ^ n else acc)

/-- The parameter in (0, 1) at which a monotone polynomial takes a value, in units of 2^-rootBits. -/
def crossing (p : List Int) (v : Int) (up : Bool) : Nat :=
  let before (k : Nat) : Bool :=
    let (n, s) := polyAt rootBits k p
    if up then decide (n ≤ v * s) else decide (v * s ≤ n)
  rootDigits before rootBits 0

/-- Power-basis coefficients of Bézier control values. -/
def powerBasis : List Int → List Int
  | [a, b] => [a, b - a]
  | [a, c, b] => [a, 2 * (c - a), a - 2 * c + b]
  | [a, c, d, b] => [a, 3 * (c - a), 3 * (a - 2 * c + d), b - 3 * d + 3 * c - a]
  | l => l.take 1

/-- Sum of two polynomials. -/
def polyAdd : List Int → List Int → List Int
  | [], q => q
  | p, [] => p
  | a :: p, b :: q => (a + b) :: polyAdd p q

/-- Product of two polynomials. -/
def polyMul : List Int → List Int → List Int
  | [], _ => []
  | a :: p, q => polyAdd (q.map (a * ·)) (0 :: polyMul p q)

/-- The derivative of a polynomial. -/
def polyDeriv (p : List Int) : List Int := (p.zipIdx.map fun e => e.1 * (e.2 : Int)).drop 1

/-- Sixty times the antiderivative of a polynomial of degree at most 5. -/
def polyInt60 (p : List Int) : List Int := 0 :: p.zipIdx.map fun e => e.1 * (60 / ((e.2 : Int) + 1))

/-- A point of a sub-piece: its parameter in units of 2^-rootBits, and its rounded coordinates (R285). -/
structure Mark where
  k : Nat
  x : Int
  y : Int
  deriving DecidableEq, Repr

/-- Inserts a mark in the order of parameters. -/
def insMark (m : Mark) : List Mark → List Mark
  | [] => [m]
  | x :: l => if m.k < x.k then m :: x :: l else x :: insMark m l

/-- Adds an amount to cell i of a tile row, and dy to every cell right of it, modulo 2^40 (R281, R284, R286). -/
def Path.addCell (p : Path) (row : Nat) (i amt dy : Int) : Path :=
  { p with acc := p.acc.zipIdx.map fun e =>
      if e.2 / p.w = row then
        let col := p.ox + ((e.2 % p.w : Nat) : Int)
        if col = i then e.1 + BitVec.ofInt 40 amt else if i < col then e.1 + BitVec.ofInt 40 dy else e.1
      else e.1 }

/-- The bound on a rounding's error: the scale over 2^(rootBits - b). -/
def slack (s : Int) (b : Nat) : Int := s / 2 ^ (rootBits - b)

/-- One monotone piece, cut at the row and column boundaries of the tile (R284, R285). Boundaries outside the tile would cut
it without effect: cells left of the tile share their carries, and rows outside receive nothing. -/
def Path.addPiece (p : Path) (ctrl : List Pt) : Path :=
  let px := powerBasis (ctrl.map Prod.fst)
  let py := powerBasis (ctrl.map Prod.snd)
  let (x0, y0) := ctrl.headD (0, 0)
  let (x1, y1) := ctrl.getLastD (0, 0)
  if y0 = y1 then p
  else
    let between (a b v : Int) : Bool := decide (min a b < v ∧ v < max a b)
    let at' (q : List Int) (k : Nat) : Int :=
      let (n, s) := polyAt rootBits k q
      nearestWithin n s (slack s 64)
    let rows := ((List.range (p.h + 1)).map fun (j : Nat) => (p.oy + (j : Int)) * one24).filter (between y0 y1)
    let cols := ((List.range (p.w + 1)).map fun (i : Nat) => (p.ox + (i : Int)) * one24).filter (between x0 x1)
    let marks := rows.map (fun v =>
        let k := crossing py v (decide (y0 < y1))
        ⟨k, at' px k, v⟩) ++
      cols.map (fun v =>
        let k := crossing px v (decide (x0 < x1))
        (⟨k, v, at' py k⟩ : Mark))
    let marks := (⟨0, x0, y0⟩ : Mark) :: (marks.foldl (fun l m => insMark m l) []) ++ [⟨2 ^ rootBits, x1, y1⟩]
    (marks.zip marks.tail).foldl (fun (p : Path) e =>
      let (a, b) := e
      let dy := b.y - a.y
      if dy = 0 then p
      else
        let cell (q : List Int) : Int :=
          let (n, s) := polyAt (rootBits + 1) (a.k + b.k : Nat) q
          n / (s * one24)
        let i := cell px
        let j := cell py
        if j < p.oy ∨ p.oy + p.h ≤ j ∨ p.ox + p.w ≤ i then p
        else
          let edge := (i + 1) * one24
          let amt :=
            if ctrl.length = 2 then nearest (dy * (2 * edge - a.x - b.x)) (2 * one24)
            else
              let g := polyInt60 (polyMul (polyAdd [edge] (px.map (-1 * ·))) (polyDeriv py))
              let (na, s) := polyAt rootBits a.k g
              let (nb, _) := polyAt rootBits b.k g
              nearestWithin (nb - na) (s * 60 * one24) (slack s 112)
          p.addCell (j - p.oy).toNat i amt dy) p

/-! ## Reduction and splitting -/

/-- The points lie on one line (R287). -/
def collinear (q : List Pt) : Bool :=
  let o := q.headD (0, 0)
  let d := q.map fun r => (r.1 - o.1, r.2 - o.2)
  d.all fun a => d.all fun b => a.1 * b.2 == a.2 * b.1

/-- Nearest multiple of 2^-24 to n / d, for d of either sign. -/
def nearestParam (n d : Int) : Int := if d < 0 then nearest (-n * one24) (-d) else nearest (n * one24) d

/-- The roots of A t² + B t + C, each rounded to 2^-24, that lie in (0, 1) (R285, R287). -/
def splitRoots (a b c : Int) : List Nat :=
  let rs : List Int :=
    if a = 0 then (if b = 0 then [] else [nearestParam (-c) b])
    else
      let disc := b * b - 4 * a * c
      if disc < 0 then []
      else
        let r : Int := (Nat.sqrt disc.toNat : Nat)
        if r * r = disc then [nearestParam (-b + r) (2 * a), nearestParam (-b - r) (2 * a)]
        else
          let r : Int := (Nat.sqrt (disc.toNat * 2 ^ 512) : Nat)
          [nearestParam (-b * 2 ^ 256 + r) (2 * a * 2 ^ 256), nearestParam (-b * 2 ^ 256 - r) (2 * a * 2 ^ 256)]
  (rs.filter fun r => decide (0 < r ∧ r < one24)).map Int.toNat

/-- De Casteljau at parameters in units of 2^-24; each step scales by 2^24 (R285). -/
def casteljau : List Int → List Pt → List Pt
  | [], q => q
  | t :: ts, q =>
    casteljau ts ((q.zip q.tail).map fun e =>
      (e.1.1 * one24 + (e.2.1 - e.1.1) * t, e.1.2 * one24 + (e.2.2 - e.1.2) * t))

/-- A value held within the span of two others. -/
def clampTo (a b v : Int) : Int := min (max v (min a b)) (max a b)

/-- The control points of a curve's piece between two parameters, rounded, the inner ones clamped into the box of its ends
(R285). -/
def subCurve (q : List Pt) (a b : Nat) : List Pt :=
  let deg := q.length - 1
  let pt (k : Nat) : Pt :=
    let ts := List.replicate (deg - k) (a : Int) ++ List.replicate k (b : Int)
    let r := (casteljau ts q).headD (0, 0)
    (nearest r.1 (one24 ^ deg), nearest r.2 (one24 ^ deg))
  let ctrl := (List.range (deg + 1)).map pt
  let p0 := ctrl.headD (0, 0)
  let p1 := ctrl.getLastD (0, 0)
  ctrl.zipIdx.map fun e =>
    if e.2 = 0 ∨ e.2 = deg then e.1 else (clampTo p0.1 p1.1 e.1.1, clampTo p0.2 p1.2 e.1.2)

/-- The parameters at which one coordinate of a curve turns (R287). -/
def turns : List Int → List Nat
  | [a, c, b] => splitRoots 0 (a - 2 * c + b) (c - a)
  | [a, c, d, b] => splitRoots (b - 3 * d + 3 * c - a) (2 * (a - 2 * c + d)) (c - a)
  | _ => []

/-- A segment as it is accumulated: a line, or a curve of degree 2 or 3, after the reductions of R287. -/
def reduceSegment (q : List Pt) : List Pt :=
  let ends (q : List Pt) : List Pt := [q.headD (0, 0), q.getLastD (0, 0)]
  let quad (q : List Pt) : List Pt :=
    match q with
    | [a, c, b] => if a.1 - 2 * c.1 + b.1 = 0 ∧ a.2 - 2 * c.2 + b.2 = 0 then [a, b] else q
    | _ => q
  if collinear q then ends q
  else
    match q with
    | [a, c, d, b] =>
      if b.1 - 3 * d.1 + 3 * c.1 - a.1 = 0 ∧ b.2 - 3 * d.2 + 3 * c.2 - a.2 = 0 then
        quad [a, ((3 * c.1 - a.1) / 2, (3 * c.2 - a.2) / 2), b]
      else q
    | _ => quad q

/-- Adds a segment of fixed-point control points (R280, R284-R287). -/
def Path.addSegment (p : Path) (pts : List (Int × Int)) : Path :=
  let q := reduceSegment (pts.map fun e => (e.1 * 2 ^ 16, e.2 * 2 ^ 16))
  if q.length = 2 then p.addPiece q
  else
    let ts := (turns (q.map Prod.fst) ++ turns (q.map Prod.snd)).foldl insNat []
    let ts := 0 :: ts ++ [2 ^ 24]
    (ts.zip ts.tail).foldl (fun (p : Path) e => p.addPiece (subCurve q e.1 e.2)) p

/-! ## Coverage -/

/-- Coverage of an accumulator in units of 2^-24: non-zero or even-odd (R288). -/
def coverage (rule : Nat) (a : BitVec 40) : Nat :=
  let m := a.toInt.natAbs
  if rule = 0 then min (2 ^ 24) m
  else
    let f := m % 2 ^ 25
    if f ≤ 2 ^ 24 then f else 2 ^ 25 - f

/-- The accumulator of a pixel: zero outside the tile (R295). -/
def Path.at? (p : Path) (x y : Int) : BitVec 40 :=
  let i := x - p.ox
  let j := y - p.oy
  if i < 0 ∨ (p.w : Int) ≤ i ∨ j < 0 ∨ (p.h : Int) ≤ j then 0 else p.acc.getD (j.toNat * p.w + i.toNat) 0

/-- The value that COVRD reads of a pixel under a rule word (R288, R295). -/
def Path.read (p : Path) (rule : Nat) (x y : Int) : W64 :=
  let a := p.at? x y
  if rule % 4 = 2 then a.signExtend 64
  else
    let c := coverage (rule % 4) a
    if rule.testBit 2 then w64 (Fmt.f32.roundFin .rn false false c (-24) false).1 else w64 c

end Sys2Proof.Machine
end

