-- ==== Sys2Proof/Machine/Path.lean ====
section
/-! DEFINITION. The path instructions and the path queue (spec/13 R289-R298). -/

namespace Sys2Proof.Machine

/-- A point register: X low, Y high, both signed (R280). -/
def pointOf (x : W64) : Int × Int := (signedOf 32 x.toNat, signedOf 32 (x.toNat / 2 ^ 32))

/-- A path instruction in a region is illegal; PATHB and PATHE are illegal in splits (R291, R297). -/
def pathChecks (whole : Bool) : Checks :=
  { Checks.none with illconv := fun c => whole && c.g.inSplits, illregion := fun c => c.g.inRegion }

/-- A path instruction with the state it needs; ILLEGAL with its reason otherwise. While the records of a spawn-mode PATHE
have not left, the word is held (R289). -/
def Cx.pathState (c : Cx) (ok : PathState → Bool) (reason : Nat) (body : State) : State :=
  if c.g.path.st = .leaving then c.held .order
  else if !ok c.g.path.st then c.raise causeIllegal reason
  else body

/-- The core's path queue holds eight instructions (R296). -/
def Cx.pathQueue (c : Cx) (k : PathKind) (body : Cx → State) : State :=
  let core := coreOf c.k
  let q := c.s.queues core
  if 8 ≤ (queueOps q.path).length then c.held .full
  else body { c with s := c.s.setQueues core { q with path := q.path ++ [.op ⟨c.k, k⟩] } }

/-- The tile of PATHB: its control word is legal and its bounds hold (R281, R292). -/
def tileOk (ctl : Nat) (ox oy : Int) (w h : Nat) : Bool :=
  bitsOf ctl 63 14 == 0 && bitsOf ctl 7 6 == 0 && decide (-(2 ^ 23 : Int) ≤ ox) && decide (-(2 ^ 23 : Int) ≤ oy) &&
    decide (ox + w ≤ (2 ^ 23 : Int)) && decide (oy + h ≤ (2 ^ 23 : Int))

/-- PATHB (R291, R292). -/
def execPathb (t : Tail) (a b : Src) (s : State) : Out :=
  let i := Instr.pathb t a b
  issue i (pathChecks true) s fun c =>
    let (ox, oy) := pointOf (uniform c.act (c.opA t .int a))
    let ctl := (uniform c.act (c.opB t .int a b)).toNat
    let w := bitsOf ctl 5 0 + 1
    let h := bitsOf ctl 13 8 + 1
    c.pathState (fun st => st == .none || st == .closed) 2 <|
      if !tileOk ctl ox oy w h then c.raise causeIllegal 4
      else c.pathQueue (.begin ox oy w h) fun c => { c with g := { c.g with path := { c.g.path with st := .opened } } }.done

/-- SEGL, SEGQ and SEGC (R293): each active lane adds one segment of `n` points, read at issue. -/
def segWord (i : Instr) (n : Nat) (g : Guard) (a : VReg) (s : State) : Out :=
  issue i (pathChecks false) s fun c =>
    c.pathState (· == .opened) 1 <|
      let segs := (c.guard g).lanes.map fun l => (regRun a.val n).map fun r => pointOf ((c.rd.reg r).lane l)
      c.pathQueue (.segs segs) Cx.done

/-- SEGL (R293). -/
def execSegl (cb : Bool) (g : Guard) (a : VReg) (s : State) : Out := segWord (.segl cb g a) 2 g a s

/-- SEGQ (R293). -/
def execSegq (cb : Bool) (g : Guard) (a : VReg) (s : State) : Out := segWord (.segq cb g a) 3 g a s

/-- SEGC (R293). -/
def execSegc (cb : Bool) (g : Guard) (a : VReg) (s : State) : Out := segWord (.segc cb g a) 4 g a s

/-- The records of a spawn-mode PATHE: every pixel with coverage, in row-major order (R294). -/
def Path.records (p : Path) (rule grid : Nat) : List TrayRec :=
  (List.range (p.w * p.h)).filterMap fun n =>
    let c := coverage rule (p.acc.getD n 0)
    let x := p.ox + ((n % p.w : Nat) : Int)
    let y := p.oy + ((n / p.w : Nat) : Int)
    if c = 0 then none
    else some ⟨[(0, w64 (wrapInt 32 x + wrapInt 32 y * 2 ^ 32)), (1, w64 c)], grid, 0⟩

/-- PATHE (R294): read-out, or spawn mode, which waits for the path queue, so that its records are known and fit. -/
def execPathe (t : Tail) (a b : Src) (s : State) : Out :=
  let i := Instr.pathe t a b
  issue i (pathChecks true) s fun c =>
    let entry := (uniform c.act (c.opA t .int a)).toNat
    let word := (uniform c.act (c.opB t .int a b)).toNat
    c.pathState (· == .opened) 1 <|
      if entry = 0 then
        if word ≠ 0 then c.raise causeIllegal 4
        else c.pathQueue .finish fun c => { c with g := { c.g with path := { c.g.path with st := .closed } } }.done
      else if 2 ≤ word then c.raise causeIllegal 4
      else
        match findTray c.s c.g.info.ctx entry with
        | none => c.raise causeIllegal 5
        | some _ =>
          if !(c.s.queues (coreOf c.k)).path.isEmpty then c.held .full
          else
            let rs := c.g.path.records word c.g.info.grid
            if !trayFits c.s (dieOf (coreOf c.k)) c.g.info.ctx [(entry, rs.length)] then c.held .full
            else
              let g := { c.g.settle c.s with path := { c.g.path with st := .leaving } }
              { c with s := c.s.addRelease (releaseOf g c.k (.pathSpawn entry rs)), g := g }.done

/-- A rule word is legal (R295). -/
def ruleOk (r : Nat) : Bool := decide (r < 16) && r % 4 != 3 && !(r.testBit 2 && r % 4 == 2)

/-- COVRD (R295): each active lane reads one pixel once the earlier operations of the path are done. -/
def execCovrd (t : Tail) (g : Guard) (l : La) (a b : Src) (s : State) : Out :=
  let i := Instr.covrd t g l a b
  issue i (pathChecks false) s fun c =>
    let act := c.guard g
    c.pathState (· == .closed) 3 <|
      if act = 0 then (c.pushValue 0 0).done
      else
        let rule := (uniform act (c.opB t .int a b)).toNat
        if !ruleOk rule then c.raise causeIllegal 4
        else
          let (n, c) := c.fresh
          let at? := c.opA t .int a
          let px := act.lanes.map fun x => (x, pointOf (at?.lane x))
          c.pathQueue (.read n px rule) fun c =>
            let c := c.later (.engine n) act [] [LaneReg.zero] none 0 0 none 0
            { c with g := { c.g with path := { c.g.path with st := if rule.testBit 3 then .none else .closed } } }.done

/-- An operation of the path queue takes effect (R281, R284, R295): a COVRD is delivered 40 cycles later. -/
def PathKind.run (k : PathKind) (now : Nat) (g : Group) : Group :=
  match k with
  | .begin ox oy w h => { g with path := { g.path with ox := ox, oy := oy, w := w, h := h, acc := List.replicate (w * h) 0 } }
  | .segs l => { g with path := l.foldl Path.addSegment g.path }
  | .finish => g
  | .read n px rule =>
    let val := LaneReg.ofFn fun l =>
      match px.find? fun e => e.1 == l with
      | some (_, x, y) => g.path.read rule x y
      | none => 0
    { g with pend := g.pend.map fun p => if p.on = .engine n then { p with on := .cycle (now + 40), vals := [val] } else p }

/-- PATH_OPERATION (R284, R296): the operation at the head of a core's path queue takes effect. -/
def execPathOperation (core : Nat) (s : State) : Out :=
  let s := settleFences s core
  let q := s.queues core
  .next <|
    match q.path with
    | .op o :: rest =>
      let s := s.setQueues core { q with path := rest }
      settleFences (s.onGroup o.group (o.kind.run s.clock.cycle)) core
    | _ => s

end Sys2Proof.Machine
end

