-- ==== Sys2Proof/Machine/Save.lean ====
section
/-! DEFINITION. Halting, saving and restoring groups, teams, grids and contexts; evictions; tear-down (spec/20 R442-R446,
spec/16 R363-R366, spec/08 R190, spec/19 R432-R433). An event whose condition does not hold changes nothing. -/

namespace Sys2Proof.Machine

/-! ## Halting -/

/-- The accepted operations of a core's path queue complete (R298, R443). -/
def drainPath (s : State) (core : Nat) : State :=
  let q := s.queues core
  let s := s.setQueues core { q with path := q.path.filter fun x => match x with
    | .op _ => false
    | .fence _ => true }
  settleFences ((queueOps q.path).foldl (fun s o => s.onGroup o.group (o.kind.run s.clock.cycle)) s) core

/-- A group is gone from a cluster's engine and from its slot, with what its open region pushed (R457). -/
def dropProxyGroup (s : State) (k : Nat) : State :=
  match s.group? k with
  | none => s
  | some g =>
    let s := match g.region with
      | some r => dropPushes s g r
      | none => s
    let s := abandonCopies s k
    let s := s.onEng fun e => { e with mats := e.mats.map fun x => (x.1, x.2.filter fun m => m.group != k) }
    (s.dropGroup k).onVm fun vm => { vm with lastPage := NMap.erase vm.lastPage k }

/-- Abandons a group's replay on another cluster: it replays from its region start (R460). -/
def dropProxy (s : State) (k : Nat) : State :=
  match s.pkg.proxies.find? fun p => p.orig == k with
  | none => s
  | some p =>
    let s := match p.proxy with
      | some q => dropProxyGroup s q
      | none => s
    (s.onPkg fun x => { x with proxies := x.proxies.filter fun y => y.orig != k }).onGroup k fun g =>
      { g with proxied := false }

/-- A group's windows end, and its emulation is abandoned (R156, R209, R444). -/
def Group.halt (g : Group) : Group := { g with late := [], drain := !g.pend.isEmpty, emu := none }

/-- Halts a group at an instruction boundary, or at its region's start; its core's path operations complete, and results that
are a matter of cycles are delivered in their time (R209, R298, R443, R444). -/
def haltGroup (s : State) (k : Nat) : State :=
  let s := drainPath (dropProxy s k) (coreOf k)
  let split := (((s.group? k).bind fun g => g.splits.head?).map Split.id).getD 0
  let s := match s.group? k with
    | none => s
    | some g => if g.inRegion then rollback s k .preempt true else (dropEmu s k).onGroup k Group.halt
  traceNote s k split 5 (2 ^ 30)

/-- Nothing of a group is under way outside the core, and none of its results is a matter of cycles: its save need not wait
(R443, R444). -/
def quiet (s : State) (k : Nat) : Bool :=
  let results := ((s.group? k).map fun g => g.pend.any fun p => match p.on with
    | .engine _ => false
    | _ => true).getD false
  let out := s.pkg.outreqs.any fun r => match r.owner with
    | .lane g _ _ _ => g == k
    | .store g _ => g == k
    | .slog _ e => e.group == k
    | .held g _ _ => g == k && (replyTo s r).isNone
    | _ => false
  !results && !out

/-! ## Saving -/

/-- A group as it is saved: held waits, faults and fences are executed again (R445, R446). -/
def Group.atRest (g : Group) : Group :=
  { g with splits := g.splits.map fun (sp : Split) => { sp with hold := none, waitStart := none, reread := 0, got := [], watch := [], logMark := none }
           traceOn := false, lastDelivery := none }

/-- A copy run that fetches a tile for one of some operations. -/
def fetchesFor (ms : List MatOp) (r : CopyRun) : Bool := match r.cmd.cache with
  | some id => ms.any fun m => m.id == id
  | none => false

/-- Saves halted groups of a team, or the whole team with its copies: engine work that is abandoned goes with them (R143,
R345, R444, R445). Of an entry of the reservation table the cycles since its issue are kept (R273). -/
def saveGroups (s : State) (tk : Nat) (ks : List Nat) (whole : Bool) (reason : Nat) : State :=
  match s.team? tk with
  | none => s
  | some t =>
    let seq := s.work.nextSeq
    let core := t.core
    let cl := clusterOf core
    let s := reown s fun x => if ks.contains x then savedKey seq (slotOf x) else x
    let keys := ks.map fun k => savedKey seq (slotOf k)
    let gs := ks.filterMap fun k => (s.group? k).map fun g => (slotOf k, g.atRest)
    let blocks := (gs.map fun e => e.2.blocks).sum
    let ms := (matTable s cl).filter fun m => keys.contains m.group
    let mine (c : CopyCmd) : Bool := keys.contains c.group || (whole && c.team == tk)
    let running := (s.eng.copies.filter fun r => r.cmd.cache.isNone && mine r.cmd && !r.finished).map CopyRun.cmd
    let q := s.queues core
    let copies := running ++ (queueOps q.copy).filter mine
    let past (m : MatOp) : MatOp := { m with granted := none, eligible := none, issued := s.clock.cycle - m.issued }
    let colls := (queueOps q.coll).filter fun c => keys.contains c.group || (whole && c.team == tk)
    let logs := (slogOf s core ++ ownerlessOf s core).filter fun e => keys.contains e.group
    let ids := copies.map CopyCmd.id ++ ((s.eng.copies.filter (fetchesFor ms)).map fun r => r.cmd.id)
    let s := s.setQueues core { q with
      copy := q.copy.filter fun x => match x with
        | .op c => !mine c
        | .fence _ => true
      coll := q.coll.filter fun x => match x with
        | .op c => !(colls.any fun y => y.id == c.id)
        | .fence _ => true }
    let s := s.onEng fun e => { e with
      copies := e.copies.filter fun r => !ids.contains r.cmd.id
      mats := NMap.adjust e.mats cl fun l => l.filter fun m => !keys.contains m.group }
    let s := s.onVm fun vm => { vm with
      slog := NMap.adjust vm.slog core fun l => l.filter fun e => !keys.contains e.group
      ownerless := NMap.adjust vm.ownerless core fun l => l.filter fun e => !keys.contains e.group
      lastPage := vm.lastPage.filter fun e => !ks.contains e.1 }
    let s := s.onPkg fun p => { p with outreqs := p.outreqs.filter fun r => match r.owner with
      | .copy id => !ids.contains id
      | .held g _ _ => !keys.contains g
      | _ => true }
    let s := ks.foldl (fun s k => s.dropGroup k) s
    let left := (t.slots.filter fun i => !(ks.map slotOf).contains i) ++ (if whole then [] else [1000 + seq])
    let saved : Saved :=
      { ctx := t.ctx, team := { t with slots := left }, teamKey := tk, groups := gs
        mats := ms.map past, copies := copies, colls := colls
        slog := logs, reason := reason, seq := seq, blocks := blocks }
    let s := if whole then dropTiles (s.onWork fun w => { w with teams := NMap.erase w.teams tk }) tk
      else s.setTeam tk { t with slots := left }
    settleFences (s.onWork fun w => { w with saved := w.saved ++ [saved], nextSeq := seq + 1 }) core

/-- The resident groups of a team. -/
def teamKeys (s : State) (tk : Nat) : List Nat := (s.work.groups.filter fun e => e.2.info.team == tk).map Prod.fst

/-- Halts and saves a team whole (R365, R366, R463). -/
def saveTeam (s : State) (tk reason : Nat) : State :=
  let s := (teamKeys s tk).foldl haltGroup s
  saveGroups s tk (teamKeys s tk) true reason

/-- The resident teams of a grid. -/
def teamsOfGrid (s : State) (gk : Nat) : List Nat :=
  (s.work.teams.filter fun t => t.2.grid == gk && !t.2.tray).map Prod.fst

/-- Halts and saves a grid whole (R359, R365). -/
def saveGrid (s : State) (gk reason : Nat) : State := (teamsOfGrid s gk).foldl (fun s tk => saveTeam s tk reason) s

/-! ## Restoring -/

/-- A saved unit holds one group of a team that stays (R190). -/
def Saved.single (x : Saved) : Bool := x.reason == 1

/-- The fusion and priority of a saved unit's grid, and whether it is a C grid (R86, R422). -/
def savedGrid (s : State) (x : Saved) : Bool × Nat × Bool :=
  match s.grid? x.team.grid with
  | some g =>
    if x.team.tray then (false, ((x.groups.head?).map fun e => e.2.info.prio).getD g.prio, false)
    else (g.hdr.fuse, g.prio, g.hdr.cls == 0)
  | none => (false, 0, false)

/-- What a saved unit needs of a core: its whole old allocation (R190, R446). -/
def savedNeed (s : State) (x : Saved) : Need :=
  ⟨x.blocks, x.groups.length, if x.single then 0 else x.team.scr.size, (savedGrid s x).1, x.ctx⟩

/-- The saved units that are restored together: those of a C grid, all at once (R359, R446). -/
def restoreSet (s : State) (x : Saved) : List Saved :=
  if (savedGrid s x).2.2 && x.reason != 1 && x.reason != 3 then
    s.work.saved.filter fun y => y.team.grid == x.team.grid && !y.team.tray && y.reason != 1 && y.reason != 3
  else [x]

/-- Places saved units one after another; none when one finds no core. -/
def restorePlaces (s : State) (blocked : List Nat) : List Saved → List (Nat × Need) → Option (List Nat)
  | [], _ => some []
  | x :: l, extra =>
    let n := savedNeed s x
    let at? := if x.single then
        ((s.team? x.teamKey).map Team.core).filter fun c => fitsCore s extra n c
      else placeTeam s extra n ((s.grid? x.team.grid).bind Grid.die) [0, 1, 2, 3] blocked
    match at? with
    | none => none
    | some c => (restorePlaces s blocked l (extra ++ [(c, n)])).map (c :: ·)

/-- The grid id that a saved split waits for in WAITCHILD: its word's operand (R366, R398). -/
def waitedChild (s : State) (g : Group) (sp : Split) : Option Nat :=
  match (codeWord s g sp.pc).map fun w => decodeInstr w (codeWord s g (sp.pc.add 1)) with
  | some (.ok (.waitchild t l a)) =>
    let c : Cx := ⟨s, 0, g, g, sp, sp.m &&& ~~~g.off, .waitchild t l a⟩
    some (c.childArg t a)
  | _ => none

/-- The children that a saved team waits on are complete (R366). -/
def childrenDone (s : State) (x : Saved) : Bool :=
  x.groups.all fun e => e.2.splits.all fun sp =>
    match waitedChild s e.2 sp with
    | some n => (x.team.children.filter fun c => n == 0 || c.id == n).all fun c => c.status.isSome
    | none => true

/-- The reason of a saved unit lets it return (R190, R365, R366, R446, R463). -/
def mayReturn (s : State) (x : Saved) : Bool :=
  !ctxHalted s x.ctx &&
    (match x.reason with
     | 1 => (s.team? x.teamKey).isSome
     | 2 => ((nextAdmission s).map fun a => decide (a.1.prio < (savedGrid s x).2.1)).getD true
     | 3 => childrenDone s x
     | _ => true)

/-- The cores that a saved unit, with those restored beside it, would take now. -/
def restoreAt (s : State) (x : Saved) : Option (List Nat) :=
  if mayReturn s x then
    let c : Candidate := ⟨x.team.grid, (savedGrid s x).2.1, false, x.team.tray⟩
    restorePlaces s (reserved s (admissionOrder s) c) (restoreSet s x) []
  else none

/-- The saved unit that returns next: higher priority first, then the order of saving (R422, R446). -/
def nextRestore (s : State) : Option Saved :=
  (s.work.saved.filter fun x => (restoreAt s x).isSome).foldl (fun (b : Option Saved) x =>
    match b with
    | some y => if (savedGrid s y).2.1 < (savedGrid s x).2.1 then some x else b
    | none => some x) none

/-- A restored group: its timers restart (R363, R446). -/
def Group.back (g : Group) (now : Nat) : Group :=
  { g with splits := g.splits.map fun (sp : Split) => { sp with lastIssue := now }, lastSync := now }

/-- Puts a side-log entry back behind the entries that were entered before it; with the log full it joins those that wait (R59,
R60, R61). -/
def slogReturn (s : State) (core : Nat) (e : SlogEntry) : State :=
  let put (l : List SlogEntry) : List SlogEntry := l.filter (fun x => decide (x.n < e.n)) ++ e :: l.filter fun x => !decide (x.n < e.n)
  if (slogOf s core).length < 256 ∧ (ownerlessOf s core).isEmpty then setSlog s core (put (slogOf s core))
  else s.onVm fun vm => { vm with ownerless := NMap.set vm.ownerless core (put (ownerlessOf s core)) }

/-- Copies of a team that wait for their release go to the core that it has returned to (R144, R446). -/
def moveCopies (s : State) (tk core : Nat) : State :=
  let eff (e : Effect) : Effect := match e with
    | .copy c => .copy (if c.team = tk then { c with core := core } else c)
    | e => e
  s.onWork fun w => { w with releases := w.releases.map fun (r : Release) => { r with eff := eff r.eff } }

/-- Restores a saved unit on a core (R446): its abandoned engine work is issued again. -/
def restoreUnit (s : State) (x : Saved) (core : Nat) : State :=
  let s := s.onWork fun w => { w with saved := w.saved.filter fun y => y.seq != x.seq }
  let s := if x.single then s else setMode s core (savedGrid s x).1
  let slots := freeSlots s core x.groups.length
  let names := (x.groups.zip slots).map fun e => (savedKey x.seq e.1.1, core * 32 + e.2)
  let f (k : Nat) : Nat := ((names.find? fun n => n.1 == k).map Prod.snd).getD k
  let s := reown s f
  let s := placeGroups s core ((x.groups.zip slots).map fun e => (e.2, e.1.2.back s.clock.cycle))
  let s := if x.single then
      s.onTeam x.teamKey fun t => { t with slots := slots ++ t.slots.filter fun i => i != 1000 + x.seq }
    else (moveCopies s x.teamKey core).setTeam x.teamKey { x.team with core := core, slots := slots ++ x.team.slots }
  let s := setTable s (clusterOf core)
    (matTable s (clusterOf core) ++ x.mats.map fun (m : MatOp) => { m with group := f m.group, core := core, issued := s.clock.cycle - m.issued })
  let s := x.copies.foldl (fun s c => enqueueCopy s { c with group := f c.group, core := core }) s
  let q := s.queues core
  let s := s.setQueues core { q with coll := q.coll ++ x.colls.map fun c => .op { c with group := f c.group, core := core } }
  let s := x.slog.foldl (fun s e => slogReturn s core { e with group := f e.group }) s
  names.foldl (fun s n =>
    match s.group? n.2 with
    | none => s
    | some g =>
      let split := (g.splits.head?.map Split.id).getD 0
      let s := if g.sys.tracectl &&& 5 != 0 then traceSync s n.2 split else s
      traceNote s n.2 split 5 (2 * 2 ^ 30)) s

/-- A resume has ended: none of the context's units is saved any more (R442). -/
def resumeOver (s : State) : State :=
  let c := s.work.sched.preRun
  if s.work.sched.preBusy && !ctxHalted s c && !(s.work.saved.any fun x => x.ctx == c && x.reason == 0) then
    s.onWork fun w => { w with sched := { w.sched with preBusy := false } }
  else s

/-- GROUP_RESTORE (R190, R359, R365, R366, R446): the saved unit of number `n` returns, with those it returns with. -/
def execGroupRestore (n : Nat) (s : State) : Out :=
  .next <|
    match nextRestore s with
    | none => s
    | some x =>
      if x.seq ≠ n then s
      else
        match restoreAt s x with
        | none => s
        | some cores => resumeOver (((restoreSet s x).zip cores).foldl (fun s e => restoreUnit s e.1 e.2) s)

/-! ## Evictions -/

/-- The youngest of some groups by admission, the higher slot on a tie. -/
def youngest (gs : NMap Group) : Option Nat :=
  (gs.foldl (fun (b : Option (Nat × Group)) e =>
    match b with
    | some y => if e.2.info.born < y.2.info.born then b else some e
    | none => some e) none).map Prod.fst

/-- A group's wait in GROW: the names it asks for (R190). -/
def Group.growing (g : Group) : Option Nat :=
  (g.splits.filterMap fun sp => match sp.hold with
    | some (.blocks n true) => some n
    | _ => none).head?

/-- Every resident group of a core waits in GROW and none can be granted: the youngest is saved (R190). -/
def evictGrow (s : State) (core : Nat) : Option State :=
  let gs := s.groupsOf core
  let stuck := !gs.isEmpty && gs.all fun e =>
    match e.2.growing with
    | some n => !grants s e.1 e.2 (2 * (n - e.2.names))
    | none => false
  if !stuck then none
  else
    match youngest gs with
    | none => none
    | some k =>
      if quiet s k then
        (s.group? k).map fun g => saveGroups (haltGroup s k) g.info.team [k] false 1
      else none

/-- A candidate cannot be admitted now, and could on one of some cores once a save has been made. -/
def wouldAdmit (s s' : State) (cores : List Nat) (c : Candidate) : Bool :=
  (placementOf s (admissionOrder s) c).isNone &&
    ((placementOf s' (admissionOrder s') c).map fun l => l.any cores.contains).getD false

/-- Every group of a C grid has stood in blocking waits for the limit while another grid's team waits for its cores: the grid
is saved whole (R365). -/
def evictGrid (s : State) (gk : Nat) : Option State :=
  match s.grid? gk with
  | none => none
  | some g =>
    let gs := s.work.groups.filter fun e => e.2.info.grid == gk && !e.2.info.tray
    let stuck := !gs.isEmpty && gs.all fun e =>
      quiet s e.1 && (match e.2.waitingSince with
        | some t => decide (s.starve ≤ s.clock.cycle - t)
        | none => false)
    if g.hdr.cls ≠ 0 ∨ !stuck then none
    else
      let cores := gs.map fun e => coreOf e.1
      let s' := saveGrid s gk 2
      let others := (admissionOrder s).filter fun c => (c.tray || c.key != gk) && decide (g.prio ≤ c.prio)
      if others.any (wouldAdmit s s' cores) then some s' else none

/-- Every group of a team has stood in WAITCHILD for the limit while a team of one of its children waits for its core: the
team is saved (R366). -/
def evictTeam (s : State) (tk : Nat) : Option State :=
  match s.team? tk with
  | none => none
  | some t =>
    let ks := teamKeys s tk
    let stuck (k : Nat) : Bool := match s.group? k with
      | none => false
      | some g => quiet s k && g.splits.all fun sp => sp.hold == some (.wait .waitchild) &&
          decide (s.starve ≤ s.clock.cycle - sp.waitStart.getD s.clock.cycle)
    if ks.isEmpty ∨ t.slots.length ≠ ks.length ∨ !(ks.all stuck) then none
    else
      let s' := saveTeam s tk 3
      let kids := t.children.filterMap Child.grid
      let others := (admissionOrder s).filter fun c => !c.tray && kids.contains c.key
      if others.any (wouldAdmit s s' [t.core]) then some s' else none

/-- The eviction that is due at a core, if one is (R190, R365, R366). -/
def eviction (s : State) (core : Nat) : Option State :=
  let teams := (s.work.teams.filter fun t => t.2.core == core).map Prod.fst
  let grids := (s.work.grids.map Prod.fst).filter fun gk => (s.groupsOf core).any fun e => e.2.info.grid == gk
  ((evictGrow s core).orElse fun _ => (grids.filterMap (evictGrid s)).head?).orElse fun _ =>
    (teams.filterMap (evictTeam s)).head?

/-- STARVATION_LIMIT (R190, R364-R366): starved units come first at their core's selection; a grid, team or group whose waits
keep others out is saved. -/
def execStarvationLimit (core : Nat) (s : State) : Out :=
  let us := (unitsOf s core).filter fun u => starved s u.2.2
  let rest := s.issuing.filter fun u => u.core != core || !(us.any fun x => x.1 == u)
  let first := s.issuing.filter fun u => u.core == core && us.any fun x => x.1 == u
  let s := { s with issuing := first ++ rest }
  .next ((eviction s core).getD s)

/-! ## Pre-emption and resume -/

/-- A command of PRECTL is ignored (R442). -/
def preIgnored (s : State) : State := s.onWork fun w => { w with sched := { w.sched with preErr := true } }

/-- Changes a context. -/
def State.onCtx (s : State) (c : Nat) (f : Ctx → Ctx) : State := s.onWork fun w => { w with ctxs := NMap.adjust w.ctxs c f }

/-- A command of PRECTL begins. -/
def preBegin (s : State) (ctx : Nat) : State :=
  s.onWork fun w => { w with sched := { w.sched with preBusy := true, preCtx := ctx, preRun := ctx } }

/-- Pre-empts a context: its queues let nothing more in, and its groups halt (R442-R444). -/
def preemptCtx (s : State) (ctx : Nat) : State :=
  if s.work.sched.preBusy || (s.ctx? ctx).isNone || ctxHalted s ctx then preIgnored s
  else
    let s := (preBegin s ctx).onCtx ctx fun c => { c with saving := true }
    let mine := (s.work.groups.filter fun e => e.2.info.ctx == ctx && e.2.proxyOf.isNone).map Prod.fst
    mine.foldl haltGroup s

/-- PREEMPT (R442, R443). -/
def execPreempt (ctx : Nat) (s : State) : Out := .next (hostWrite s fun s => preemptCtx s ctx)

/-- The save of a context can end: its groups and its side-log entries have nothing under way (R444). -/
def saveDue (s : State) (ctx : Nat) : Bool :=
  let entry (r : OutReq) : Bool := match r.owner with
    | .slog _ e => e.ctx == ctx
    | _ => false
  ((s.ctx? ctx).map Ctx.saving).getD false && !s.pkg.outreqs.any entry &&
    (s.work.groups.filter fun e => e.2.info.ctx == ctx).all fun e => quiet s e.1

/-- CONTEXT_SAVE_COMPLETE (R442, R444, R445). -/
def execContextSaveComplete (ctx : Nat) (s : State) : Out :=
  .next <|
    if saveDue s ctx then
      let teams := (s.work.teams.filter fun t => t.2.ctx == ctx).map Prod.fst
      let s := teams.foldl (fun s tk => saveGroups s tk (teamKeys s tk) true 0) s
      let logs := (s.vm.slog ++ s.vm.ownerless).flatMap fun c => (c.2.filter fun e => e.ctx == ctx).map fun e => (c.1, e)
      let cut (l : List SlogEntry) : List SlogEntry := l.filter fun e => e.ctx != ctx
      let s := s.onVm fun vm => { vm with
        slog := vm.slog.map fun c => (c.1, cut c.2), ownerless := vm.ownerless.map fun c => (c.1, cut c.2)
        slogSaved := vm.slogSaved ++ logs }
      let s := s.onCtx ctx fun c => { c with saving := false, preempted := true }
      s.onWork fun w => { w with sched := { w.sched with preBusy := false } }
    else s

/-- Resumes a context: its units return through admission, its trays' timers restart (R363, R442, R446). -/
def resumeCtx (s : State) (ctx : Nat) : State :=
  if s.work.sched.preBusy || !(((s.ctx? ctx).map Ctx.preempted).getD false) then preIgnored s
  else
    let s := (preBegin s ctx).onCtx ctx fun c => { c with preempted := false }
    let mine := s.vm.slogSaved.filter fun e => e.2.ctx == ctx
    let s := s.onVm fun vm => { vm with slogSaved := vm.slogSaved.filter fun e => e.2.ctx != ctx }
    let s := mine.foldl (fun s e => slogReturn s e.1 e.2) s
    let again (t : Tray) : Tray :=
      if t.ctx = ctx then { t with recs := t.recs.map fun (r : TrayRec) => { r with written := s.clock.cycle } } else t
    resumeOver (s.onWork fun w => { w with trays := w.trays.map again })

/-- RESUME (R442, R446). -/
def execResume (ctx : Nat) (s : State) : Out := .next (hostWrite s fun s => resumeCtx s ctx)

/-! ## Tear-down -/

/-- Everything of a context leaves the device (R432, R433, R143, R345, R460). -/
def dropContext (s : State) (ctx : Nat) : State :=
  let s := tearColls s ctx
  let ks := (s.work.groups.filter fun e => e.2.info.ctx == ctx).map Prod.fst
  let tks := (s.work.teams.filter fun t => t.2.ctx == ctx).map Prod.fst
  let copyOf (c : CopyCmd) : Bool := c.ctx == ctx
  let s := s.onEng fun e => { e with
    queues := e.queues.map fun x => (x.1, { x.2 with
      copy := x.2.copy.filter fun i => match i with
        | .op c => !copyOf c
        | .fence _ => true
      coll := x.2.coll.filter fun i => match i with
        | .op c => c.ctx != ctx
        | .fence _ => true
      path := x.2.path.filter fun i => match i with
        | .op o => !ks.contains o.group
        | .fence _ => true })
    copies := e.copies.filter fun r => !copyOf r.cmd
    mats := e.mats.map fun x => (x.1, x.2.filter fun m => !ks.contains m.group)
    oc := e.oc.filter fun x => !tks.contains x.team }
  let keep (l : List SlogEntry) : List SlogEntry := l.filter fun e => e.ctx != ctx
  let s := s.onVm fun vm => { vm with
    slog := vm.slog.map fun c => (c.1, keep c.2), ownerless := vm.ownerless.map fun c => (c.1, keep c.2)
    slogSaved := vm.slogSaved.filter fun e => e.2.ctx != ctx
    awaited := vm.awaited.filter fun a => a.ctx != ctx
    lastPage := vm.lastPage.filter fun e => !ks.contains e.1 }
  let s := s.onPkg fun p => { p with
    outreqs := p.outreqs.filter fun r => r.ctx != ctx
    proxies := p.proxies.filter fun x => !ks.contains x.orig }
  s.onWork fun w => { w with
    groups := w.groups.filter fun e => e.2.info.ctx != ctx
    teams := w.teams.filter fun t => t.2.ctx != ctx
    grids := w.grids.filter fun g => g.2.ctx != ctx
    ctxs := NMap.erase w.ctxs ctx
    dlq := w.dlq.map fun d => (d.1, d.2.filter fun l => l.ctx != ctx)
    releases := w.releases.filter fun r => r.ctx != ctx
    trays := w.trays.filter fun t => t.ctx != ctx
    trayGroups := w.trayGroups.filter fun t => t.ctx != ctx
    saved := w.saved.filter fun x => x.ctx != ctx
    hq := w.hq.map fun (q : HostQueue) => { q with entries := q.entries.filter fun e => e.ctx != ctx } }

/-- Launches of a context that have not been accepted: released, or waiting for their release (R432, R433). -/
def pendingLaunches (s : State) (ctx : Nat) : Nat :=
  let isLaunch (e : Effect) : Bool := match e with
    | .launch _ => true
    | _ => false
  ((s.work.dlq.flatMap Prod.snd).filter fun l => l.ctx == ctx).length +
    (s.work.releases.filter fun r => r.ctx == ctx && isLaunch r.eff).length

/-- TEARDOWN (R432, R433): the queues of the context stop, all it has is dropped, and the record is written. -/
def execTeardown (s : State) : Out :=
  .next <|
    if !s.work.sched.tdBusy then s
    else
      let s := touchPhys s s.work.sched.tddesc.toNat 64 0
      let ctx := physNat s (s.work.sched.tddesc.toNat + 28) 4
      let records := ((s.work.trays.filter fun t => t.ctx == ctx).map fun t => t.recs.length).sum +
        ((s.work.trayGroups.filter fun t => t.ctx == ctx).map fun t => t.recs.length).sum
      let grids := (s.work.grids.filter fun g => g.2.ctx == ctx && !g.2.done).length
      let launches := pendingLaunches s ctx
      let named (q : HostQueue) : Bool := physNat s (q.desc + 28) 4 == ctx
      let s := s.onWork fun w => { w with hq := w.hq.map fun (q : HostQueue) => if q.en && named q then { q with en := false } else q }
      let s := dropContext s ctx
      let rcd := s.clock.dtime % 2 ^ 32 + ctx * 2 ^ 32 + grids % 2 ^ 32 * 2 ^ 64 + launches % 2 ^ 32 * 2 ^ 96
        + records % 2 ^ 32 * 2 ^ 128
      let s := physWrite s s.work.sched.tdrec.toNat (leBytes 32 rcd)
      s.onWork fun w => { w with sched := { w.sched with
        tdBusy := false, preBusy := w.sched.preBusy && w.sched.preRun != ctx } }

end Sys2Proof.Machine
end

