-- ==== Sys2Proof/Machine/Contain.lean ====
section
/-! DEFINITION. Containment: errors found by the detectors, replays on another cluster, scores, drains and tests (spec/21
R451-R467, spec/11 R239, spec/12 R266, spec/04 R79). An event whose condition does not hold changes nothing. -/

namespace Sys2Proof.Machine

/-! ## Drains -/

/-- The cores that a unit's drain empties (R463). -/
def drainCores (kind index : Nat) : List Nat :=
  match kind with
  | 0 => [index / 2]
  | 1 | 2 | 3 => [index]
  | 4 => (List.range 4).map (4 * index + ·)
  | _ => []

/-- The number of units of a kind (R461). -/
def unitCount : Nat → Nat
  | 0 => 768
  | 1 | 2 | 3 => 384
  | 4 => 96
  | 5 => 192
  | _ => 0

/-- A unit stands. -/
def setUnit (s : State) (kind index : Nat) (u : Suspicion) : State :=
  s.onPkg fun p => { p with scores := NMap.set p.scores (unitScoreKey kind index) u }

/-- A unit's score has reached THRESH, and its drain has not begun (R463). -/
def drainWanted (s : State) (kind index : Nat) : Bool :=
  let u := scoreOf s kind index
  s.pkg.cns.autotest && u.state == 0 && decide (s.pkg.cns.thresh ≤ u.score) && decide (index < unitCount kind)

/-- C grids with a team on some cores. -/
def gridsOn (s : State) (cores : List Nat) : List Nat :=
  (s.work.grids.filter fun g => g.2.hdr.cls == 0 &&
    s.work.teams.any fun t => t.2.grid == g.1 && !t.2.tray && cores.contains t.2.core).map Prod.fst

/-- Saves what is resident on some cores: C grids whole, else teams (R359, R446, R463). -/
def saveCores (s : State) (cores : List Nat) : State :=
  let s := (gridsOn s cores).foldl (fun s gk => saveGrid s gk 4) s
  let tks := (s.work.teams.filter fun t => cores.contains t.2.core).map Prod.fst
  tks.foldl (fun s tk => saveTeam s tk 4) s

/-- Every group on some cores, or of a C grid there, can be halted now (R444). -/
def coresQuiet (s : State) (cores : List Nat) : Bool :=
  let gks := gridsOn s cores
  (s.work.groups.filter fun e => cores.contains (coreOf e.1) || gks.contains e.2.info.grid).all fun e => quiet s e.1

/-- The C grids there could be wholly resident without the cores (R463). -/
def fitWithout (s : State) (cores : List Nat) : Bool :=
  (gridsOn s cores).all fun gk =>
    match s.grid? gk with
    | none => true
    | some g =>
      let s' := saveGrid s gk 4
      (trialPlace s' (g.hdr.need g.ctx) g.die cores g.total []).all Option.isSome

/-- Begins a unit's drain where it can begin: else the unit stays in service meanwhile (R463). -/
def drainUnit (s : State) (kind index : Nat) : State :=
  let cores := drainCores kind index
  if drainWanted s kind index && coresQuiet s cores && fitWithout s cores then
    saveCores (setUnit s kind index { scoreOf s kind index with state := 1 }) cores
  else s

/-- A drain that is wanted can begin. -/
def drainReady (s : State) (kind index : Nat) : Bool :=
  drainWanted s kind index && coresQuiet s (drainCores kind index) && fitWithout s (drainCores kind index)

/-! ## Errors in pipes and registers -/

/-- The instruction at a unit's next word. -/
def nextWord (s : State) (u : UnitRef) : Option Cx :=
  match s.group? (unitKey u) with
  | none => none
  | some g =>
    match g.split? u.split with
    | none => none
    | some sp =>
      match (codeWord s g sp.pc).map fun w => decodeInstr w (codeWord s g (sp.pc.add 1)) with
      | some (.ok i) => cx? i { s with sel := u, pre := none }
      | _ => none

/-- The pipe that checks a word of a core: kind and index (R239, R461; LOG 3). -/
def checkedBy (i : Instr) (core : Nat) : Option (Nat × Nat) :=
  match i with
  | .fadd _ _ _ _ _ _ .f64 | .fsub _ _ _ _ _ .f64 | .fmul _ _ _ _ _ _ .f64 | .ffma _ _ _ _ _ _ .f64
  | .ffms _ _ _ _ _ _ .f64 | .fnma _ _ _ _ _ _ .f64 => some (0, 2 * core)
  | .fdiv _ _ _ _ _ _ .f64 | .fsqrt _ _ _ _ _ .f64 | .frcp _ _ _ _ _ .f64 | .frsq _ _ _ _ _ .f64
  | .fexp2 _ _ _ _ .f64 | .flog2 _ _ _ _ .f64 | .fsin _ _ _ _ .f64 | .fcos _ _ _ _ .f64 | .ftanh _ _ _ _ .f64 =>
    some (1, core)
  | _ => none

/-- An engine operation that carries the check (R266). -/
def MatOp.checked (o : MatOp) : Bool :=
  match o.ins with
  | .mmad _ _ _ _ _ _ => true
  | .mmat _ _ _ _ _ f => f == .f64
  | .tfact _ _ _ _ _ => true
  | .tsolv _ _ _ _ _ _ => true
  | .tref _ _ _ _ _ _ _ => true
  | _ => false

/-- A STRIKE's record, with the unit it concerns (R466). -/
def strikeRecord (s : State) (g : Group) (kind index info : Nat) : State :=
  postCrq s 0x03 kind index g.info.ctx (gridId s g.info.grid) 0 (scoreOf s kind index).score info

/-- A mismatch in an operation of the engine: rollback, repetition, or STRIKE for a second one (R266). -/
def engineMismatch (s : State) (k : Nat) (g : Group) (o : MatOp) : State :=
  let cl := o.cluster
  if g.inRegion then drainUnit (rollback (dropOp s o) k (.residue 4 cl) true) 4 cl
  else
    let s := addScore s 4 cl s.pkg.cns.wmis
    if !o.repeated then
      drainUnit (onOp s o fun x => { x with repeated := true, granted := some s.clock.cycle }) 4 cl
    else
      match g.pend.find? fun p => p.on == .engine o.id with
      | none => s
      | some p =>
        let s := strikeRecord (dropOp s o) g 4 cl 1
        let q := { p with trap := some ⟨causeStrike, Mask.all, 0, 1⟩, on := PendOn.cycle s.clock.cycle }
        let g := { g with pend := g.pend.map fun y => if y = p then q else y }
        drainUnit (deliverPending (s.setGroup k g) k q) 4 cl

/-- A mismatch in a pipe at a unit's next word: rollback, repetition in place, or STRIKE for a second one at the same word
(R239, R494). -/
def pipeMismatch (c : Cx) (kind index : Nat) : State :=
  if c.g.inRegion then drainUnit (rollback c.s c.k (.residue kind index) true) kind index
  else
    let s := addScore c.s kind index c.s.pkg.cns.wmis
    let here := (c.sp.id, c.sp.pc, c.sp.lastIssue)
    if c.g.repeated ≠ some here then
      drainUnit (s.onGroup c.k fun g => { g with repeated := some here }) kind index
    else
      let s := strikeRecord (s.onGroup c.k fun g => { g with repeated := none }) c.g kind index 1
      drainUnit (postTrap s c.k c.sp.id true ⟨causeStrike, true, none, 0, 1⟩ c.sp.pc c.nextPc false) kind index

/-- RESIDUE_MISMATCH (R239, R266, R451, R462): in an operation of the unit's group that its engine works on, else in its next
word. -/
def execResidueMismatch (u : UnitRef) (s : State) : Out :=
  .next <|
    let k := unitKey u
    match s.group? k with
    | none => s
    | some g =>
      if g.proxied then s
      else
        match (matTable s (clusterOf (coreOf k))).find? fun o => o.group == k && o.checked && o.granted.isSome with
        | some o => engineMismatch s k g o
        | none =>
          match nextWord s u with
          | none => s
          | some c =>
            match checkedBy c.i (coreOf k) with
            | some (kind, index) => { pipeMismatch c kind index with sel := s.sel, pre := s.pre }
            | none => s

/-- The word reads registers, k-queue entries or predicates (R451). -/
def readsParity (us : Uses) : Bool := !(us.v.isEmpty && us.ages.isEmpty && us.pr.isEmpty && us.pop.isEmpty)

/-- PARITY_ERROR (R451, R456, R494): at the word that reads. -/
def execParityError (u : UnitRef) (s : State) : Out :=
  .next <|
    match nextWord s u with
    | none => s
    | some c =>
      if c.g.proxied || !readsParity c.i.uses then s
      else { drainUnit (parityAt c true) 2 (coreOf c.k) with sel := s.sel, pre := s.pre }

/-- STRIKE_REPORT (R453): from a cluster's zone. -/
def execStrikeReport (zone : Nat) (s : State) : Out := .next (if zone < 96 then strikeZone s zone else s)

/-! ## Errors in caches -/

/-- SLICE_CRICKET_REPORT (R79, R452): the slice scrubs its arrays; no region and no group is touched. -/
def execSliceCricketReport (slice : Nat) (s : State) : Out :=
  let mine := (s.ms.l2marks.map Prod.fst).filter fun k => k / 2 ^ 35 == slice / 48 && sliceOf (k % 2 ^ 35 / 4) == slice % 48
  .next (drainUnit (mine.foldl (fun s k => l2Check s (k / 2 ^ 35) (k % 2 ^ 35)) s) 5 slice)

/-- A buffer entry of a region stands for a physical sector (R82). -/
def buffersAt (s : State) (g : Group) (r : Region) (pa : Nat) : Bool :=
  r.buf.any fun e => !e.scratch &&
    (match e.phys with
     | some x => x == (0, 0, pa / 32)
     | none => ((leafNow s g.info.ctx e.va).map fun x => x.1.tgt == 0 && x.2.1 / 32 == pa / 32).getD false)

/-- A tile hold of a region was fetched from a physical sector (R271). -/
def tileAt (s : State) (g : Group) (r : Region) (pa : Nat) : Bool :=
  r.tiles.any fun t =>
    match ((s.team? t.team).map fun x => x.tiles.toArray.toList.getD t.handle ⟨false, 0, [], 0⟩) with
    | none => false
    | some b =>
      b.gen == t.gen && ((Box.of b.cmd.toNat b.desc (b.cmd.toNat.testBit 13)).rowsOf true).any fun row =>
        (List.range ((row.1 + row.2 + 31) / 32 - row.1 / 32)).any fun i =>
          ((leafNow s g.info.ctx ((row.1 / 32 + i) * 32)).map fun x => x.1.tgt == 0 && x.2.1 / 32 == pa / 32).getD false

/-- The fate of a region when its core's L1 has an uncorrectable error in a sector (R454): none when the error is not its own;
`real` for the first, which counts for the L1's score. -/
def regionL1Error (s : State) (k pa : Nat) (real : Bool) : Option State :=
  match s.group? k with
  | none => none
  | some g =>
    match g.region with
    | none => none
    | some r =>
      if g.proxied then none
      else if buffersAt s g r pa || tileAt s g r pa then some (rollback s k .entry real)
      else
        match r.held? false (pa / 32) with
        | none => none
        | some h =>
          if (lineTimes s.ms (lineOf pa)).wct ≤ h.stamp then
            let (x, s) := coreRead s (coreOf k) ((homeHolding s.ms (pa / 32)).getD (dieOf (coreOf k))) (pa / 32) g.info.ctx false
            let fresh : HeldSector := ⟨false, h.addr, x.data, x.poison, x.stamp, x.lease, h.copy⟩
            let s := s.onGroup k fun g => g.onRegion fun r =>
              { r with holds := r.holds.map fun y => if y.scratch == false && y.addr == h.addr then fresh else y }
            some (rollback s k .refetched real)
          else
            let s := if real then addScore s 3 (coreOf k) s.pkg.cns.wunc else s
            let r := { r with cluster := clusterOf (coreOf k), fails := r.fails + 1 }
            let owner := g.proxyOf.getD k
            let s := if owner = k then s else (dropPushes s g r).dropGroup k
            let s := s.onPkg fun p => { p with proxies := p.proxies.filter fun x => x.orig != owner }
            some (failRegion s owner r 5 (some (3, coreOf k)))

/-- L1_UNCORRECTABLE (R454, R462): a sector of a core's L1; one that no region holds or buffers is dropped. -/
def execL1Uncorrectable (core pa : Nat) (s : State) : Out :=
  let s := dropL1 s core (pa / 32)
  let (hit, s) := ((s.groupsOf core).map Prod.fst).foldl (fun (acc : Bool × State) k =>
    match regionL1Error acc.2 k pa (!acc.1) with
    | some s => (true, s)
    | none => acc) (false, s)
  .next (drainUnit (if hit then s else addScore s 3 core s.pkg.cns.wunc) 3 core)

/-! ## Replays on another cluster -/

/-- The entry of a group's replay elsewhere. -/
def proxyEntry (s : State) (k : Nat) : Option Proxy := s.pkg.proxies.find? fun p => p.orig == k

/-- Changes the entry of a group's replay elsewhere. -/
def onProxy (s : State) (k : Nat) (f : Proxy → Proxy) : State :=
  s.onPkg fun p => { p with proxies := p.proxies.map fun x => if x.orig = k then f x else x }

/-- Scores of a core's units, summed (R457). -/
def coreScore (s : State) (core : Nat) : Nat :=
  (([(0, 2 * core), (0, 2 * core + 1), (1, core), (2, core), (3, core)] : List (Nat × Nat)).map fun u =>
    (scoreOf s u.1 u.2).score).sum

/-- Holds that a transfer brings (R84, R457). -/
def Region.holdCount (r : Region) : Nat := r.holds.length + (r.tiles.map fun t => (t.bytes.length + 31) / 32).sum

/-- The core that a replay takes (R457): on another cluster of the die, by score, free blocks and index. -/
def proxyCore (s : State) (p : Proxy) : Option Nat :=
  match s.group? p.orig with
  | none => none
  | some g =>
    let need := 32 + 2 * g.names
    let holds := (g.region.map Region.holdCount).getD 0
    let fits (c : Nat) : Bool :=
      clusterOf c != p.fromCluster && !coreDown s c && !(freeSlots s c 1).isEmpty &&
        decide (need ≤ freeBlocks s [] c) && decide (holdsUsed s c + holds ≤ 4096)
    let cs := ((List.range 96).map (96 * dieOf (coreOf p.orig) + ·)).filter fits
    cs.foldl (fun (b : Option Nat) c =>
      match b with
      | none => some c
      | some x =>
        if coreScore s c < coreScore s x ∨
            (coreScore s c = coreScore s x ∧ freeBlocks s [] x < freeBlocks s [] c) then some c else b) none

/-- Sets up the proxy of a group on a core: the transfer begins (R457). -/
def placeProxy (s : State) (k core : Nat) : State :=
  match s.group? k, freeSlots s core 1 with
  | some g, slot :: _ =>
    let pk := core * 32 + slot
    let p : Group := { g with proxyOf := some k, proxied := false, halted := true, out := [], traceOn := false
                              lastDelivery := none, repeated := none }
    onProxy (s.setGroup pk p) k fun x => { x with proxy := some pk, stage := .transfer (s.clock.cycle + 6750) }
  | _, _ => s

/-- A replay elsewhere can take its next step: a core qualifies, or the transfer is over. -/
def proxyDue (s : State) (k : Nat) : Bool :=
  match proxyEntry s k with
  | none => false
  | some p =>
    match p.stage with
    | .placing _ => (proxyCore s p).isSome
    | .transfer t => decide (t ≤ s.clock.cycle)
    | _ => false

/-- PROXY_TRANSFER_COMPLETE (R457): the sequencer takes a core for the replay and begins the transfer; once that is over, the
proxy runs. -/
def execProxyTransferComplete (k : Nat) (s : State) : Out :=
  .next <|
    match proxyEntry s k with
    | none => s
    | some p =>
      match p.stage, p.proxy with
      | .placing _, _ =>
        match proxyCore s p with
        | some c => placeProxy s k c
        | none => s
      | .transfer t, some pk =>
        if t ≤ s.clock.cycle then
          (onProxy s k fun x => { x with stage := .running }).onGroup pk fun g =>
            { g with halted := false, splits := g.splits.map fun (sp : Split) => { sp with lastIssue := s.clock.cycle } }
        else s
      | _, _ => s

/-- No core has qualified for the starvation limit (R457). -/
def proxyLate (s : State) (k : Nat) : Bool :=
  match proxyEntry s k with
  | none => false
  | some p =>
    match p.stage with
    | .placing t => (proxyCore s p).isNone && decide (s.starve ≤ s.clock.cycle - t)
    | _ => false

/-- PROXY_PLACEMENT_TIMEOUT (R457): the region replays in place. -/
def execProxyPlacementTimeout (k : Nat) (s : State) : Out :=
  .next <|
    if proxyLate s k then
      (s.onPkg fun p => { p with proxies := p.proxies.filter fun x => x.orig != k }).onGroup k fun g => { g with proxied := false }
    else s

/-- A proxy's run has ended, and what its commit sent is complete (R457). -/
def proxyOver (s : State) (k : Nat) : Option (Nat × Group) :=
  ((proxyEntry s k).bind Proxy.proxy).bind fun pk =>
    match s.group? pk, (proxyEntry s k).map Proxy.stage with
    | some g, some .running =>
      let g := g.settle s
      if g.halted && g.region.isNone && g.out.isEmpty && !slogOfGroup s pk g.info.grid && decide (g.sys.horizon < s.clock.dtime)
      then some (pk, g) else none
    | _, _ => none

/-- PROXY_RESUME (R457): the proxy's registers and control state go back to the original group, which goes on after the commit
or seam; the proxy slot is freed. -/
def execProxyResume (k : Nat) (s : State) : Out :=
  .next <|
    match proxyOver s k, s.group? k with
    | some (pk, p), some g =>
      let exits := p.splits.any fun sp => sp.hold == some .commit
      let back : Group :=
        { p with info := g.info, proxyOf := none, proxied := false, halted := false, traceOn := g.traceOn
                 lastSync := g.lastSync, lostTrace := g.lostTrace, lastDelivery := none
                 splits := p.splits.map fun (sp : Split) => { sp with lastIssue := s.clock.cycle } }
      let s := (reown s fun x => if x = pk then k else x).dropGroup pk
      let s := s.onVm fun vm => { vm with lastPage := NMap.erase vm.lastPage pk }
      let s := s.onPkg fun x => { x with proxies := x.proxies.filter fun y => y.orig != k }
      let s := s.setGroup k back
      if exits then leaveCore s k true else s
    | _, _ => s

/-! ## Scores and tests -/

/-- Nanoseconds between two halvings; none for DECAY zero (R462). -/
def decayPeriod (s : State) : Nat := s.pkg.cns.decay * 3600000000000

/-- A halving is due (R462). -/
def decayDue (s : State) : Bool := decide (0 < decayPeriod s) && decide (s.pkg.cns.lastDecay + decayPeriod s ≤ s.clock.dtime)

/-- SCORE_DECAY (R461, R462): every score is halved and written to flash. -/
def execScoreDecay (s : State) : Out :=
  .next <|
    if decayDue s then
      s.onPkg fun p =>
        let halved := p.scores.map fun e => (e.1, { e.2 with score := e.2.score / 2 })
        { p with scores := halved, flashScores := halved.map fun e => (e.1, e.2.score)
                 cns := { p.cns with lastDecay := p.cns.lastDecay + decayPeriod s } }
    else s

/-- Spares of a kind (R463). -/
def spareCount : Nat → Nat
  | 0 => 2
  | 2 => 16
  | 3 => 8
  | 5 => 8
  | _ => 0

/-- A slice's lines beyond the ways it has left: written back, the least recently used first (R463). -/
def trimSlice (s : State) (slice : Nat) : State :=
  let die := slice / 48
  let ways := l2Ways s.ms die (slice % 48)
  let mine := s.ms.l2.filter fun e => e.1 / 2 ^ 33 == die && sliceOf (e.1 % 2 ^ 33) == slice % 48
  mine.foldl (fun s e =>
    let newer := mine.filter fun x => l2Set (x.1 % 2 ^ 33) == l2Set (e.1 % 2 ^ 33) &&
      (decide (e.2.used < x.2.used) || (x.2.used == e.2.used && decide (x.1 < e.1)))
    if ways ≤ newer.length then flushLine s die (e.1 % 2 ^ 33) false else s) s

/-- Writes a unit's repair or retirement to the health list (R464). -/
def noteHealth (s : State) (kind index : Nat) : State :=
  s.onPkg fun p => { p with health := NMap.set p.health (unitScoreKey kind index) { scoreOf s kind index with score := 0 } }

/-- A test has ended: the unit returns, is repaired, or goes out of service, with its record (R463, R464, R466). -/
def testEnd (s : State) (kind index : Nat) (r : TestResult) : State :=
  let u := scoreOf s kind index
  let beyond : State :=
    let st := if kind = 5 then 3 else 2
    let s := noteHealth (setUnit s kind index { u with state := st }) kind index
    postCrq s (if kind = 5 then 0x08 else 0x07) kind index 0 0 0 u.score 0
  match r with
  | .pass => postCrq (setUnit s kind index ⟨0, 0, u.spares⟩) 0x05 kind index 0 0 0 0 0
  | .repaired n =>
    if u.spares < spareCount kind then
      let s := noteHealth (setUnit s kind index ⟨0, 0, u.spares + 1⟩) kind index
      let s := if kind = 5 then
          trimSlice (s.onMs fun ms => { ms with l2off := NMap.set ms.l2off index (insNat ((NMap.get? ms.l2off index).getD []) (n % 16)) })
            index
        else s
      postCrq s 0x06 kind index 0 0 0 0 n
    else beyond
  | .beyond => beyond

/-- UNIT_TEST_COMPLETE (R463): a drain that had to wait begins; the test of a drained unit ends. -/
def execUnitTestComplete (kind index : Nat) (r : TestResult) (s : State) : Out :=
  .next <|
    if (scoreOf s kind index).state = 1 then testEnd s kind index r
    else drainUnit s kind index

/-- A write of CNSCNT, of any value (R467). -/
def cnscntSet (s : State) : State := s.onPkg fun p => { p with cns := { p.cns with rollbk := 0, replay := 0 } }

/-- CNSCNT_WRITE (R122, R467). -/
def execCnscntWrite (_v : W64) (s : State) : Out := .next (hostWrite s cnscntSet)

end Sys2Proof.Machine
end

