-- ==== Sys2Proof/Machine/Place.lean ====
section
/-! DEFINITION. Events of translation and placement: walks, invalidation, refused ranges, the side log, migration, compression
and expansion (spec/03 R54-R73). An event whose condition does not hold changes nothing. -/

namespace Sys2Proof.Machine

/-! ## Walks and invalidation -/

/-- WALK_COMPLETE (R54): a core's walk ends with a translation in its TLB or with a fault. -/
def execWalkComplete (core ctx va : Nat) (acc : AccessKind) (s : State) : Out :=
  .next (if wildAddr va then s else (translate s (core * 32) none ctx va acc false).2)

/-- The range that VMINVA names: start and size (R56). -/
def VmRegs.range (r : VmRegs) : Nat × Nat :=
  (bitsOf r.vminva.toNat 47 16 * 2 ^ 16, (bitsOf r.vminva.toNat 63 48 + 1) * 2 ^ 16)

/-- Changes the registers of the translation block. -/
def onVmRegs (s : State) (f : VmRegs → VmRegs) : State := s.onVm fun vm => { vm with regs := f vm.regs }

/-- Starts an invalidation of CONTEXT and VMINVA; while one is running it is ignored (R56). -/
def vminvStart (s : State) (i : VmRegs → Invalidation) : State :=
  if s.vm.regs.busy then onVmRegs s fun r => { r with err := true }
  else (onVmRegs s fun r => { r with busy := true }).onVm fun vm => { vm with inval := some (i vm.regs) }

/-- VMINV_RANGE (R56). -/
def execVminvRange (s : State) : Out := .next (hostWrite s fun s => vminvStart s fun r => ⟨some r.ctx, some r.range, false, none⟩)

/-- VMINV_CONTEXT (R56). -/
def execVminvContext (s : State) : Out := .next (hostWrite s fun s => vminvStart s fun r => ⟨some r.ctx, none, false, none⟩)

/-- VMINV_ALL (R56). -/
def execVminvAll (s : State) : Out := .next (hostWrite s fun s => vminvStart s fun _ => ⟨none, none, false, none⟩)

/-- VMINV_REFUSE_RANGE (R62). -/
def execVminvRefuseRange (s : State) : Out :=
  .next (hostWrite s fun s => vminvStart s fun r => ⟨some r.ctx, some r.range, true, none⟩)

/-! ## Refused ranges -/

/-- An address lies in a range. -/
def inRange (base size a : Nat) : Bool := decide (base ≤ a) && decide (a < base + size)

/-- A group held on a page of a refused range takes LOAD.NP or FETCH.NP (R62, R313, R437). -/
def refuseHeld (s : State) (ctx base size k split : Nat) : State :=
  match s.group? k with
  | none => s
  | some g =>
    match g.split? split with
    | none => s
    | some sp =>
      match sp.hold with
      | some (.fault c lanes acc) =>
        let hit := lanes.filter fun l => inRange base size l.2
        match c == ctx, hit with
        | true, l :: _ =>
          match acc with
          | .fetch => postTrap s k sp.id true ⟨causeFetchNp, false, none, w64 l.2, 0⟩ ⟨sp.pc.packet, 0⟩ sp.pc false
          | _ =>
            postTrap s k sp.id true ⟨causeLoadNp, false, some (lanesMask (hit.map Prod.fst)), w64 (l.2 / 2 ^ 16 * 2 ^ 16), 0⟩
              sp.pc sp.pc false
        | _, _ => s
      | _ => s

/-- Entries that wait for room enter a core's side log in their order (R61). -/
def refillLog (s : State) (core : Nat) : State :=
  let room := 256 - (slogOf s core).length
  let more := (ownerlessOf s core).take room
  if more.isEmpty then s
  else
    let s := setSlog s core (slogOf s core ++ more)
    s.onVm fun vm => { vm with ownerless := NMap.set vm.ownerless core ((ownerlessOf s core).drop room) }

/-- Drops the entries of a page from a core's side log and from those that wait for room in it, with one record for the page
(R61, R62). -/
def dropPage (s : State) (core ctx page cause kind : Nat) : State :=
  let mine (e : SlogEntry) : Bool := e.ctx == ctx && e.va / 2 ^ 16 == page
  match (slogOf s core ++ ownerlessOf s core).find? mine with
  | none => s
  | some e =>
    let s := setSlog s core ((slogOf s core).filter fun x => !mine x)
    let s := s.onVm fun vm => { vm with ownerless := NMap.adjust vm.ownerless core fun l => l.filter fun x => !mine x }
    refillLog (postKind s ctx e.grid (page * 2 ^ 16) core cause 1 kind) core

/-- Side-log entries of a refused range are dropped, with one LOAD.NP record per page (R62). -/
def refuseLog (s : State) (ctx base size core : Nat) : State :=
  let hit := (slogOf s core ++ ownerlessOf s core).filter fun e => e.ctx == ctx && inRange base size e.va
  let pages := hit.foldl (fun acc e => insNat acc (e.va / 2 ^ 16)) []
  pages.foldl (fun s p => dropPage s core ctx p causeLoadNp 3) s

/-- What waits in a refused range fails (R62): held accesses and fetches, side-log entries, parked copies, tile fetches and
collectives, and the dispatcher's own accesses. -/
def refuseRange (s : State) (ctx base size : Nat) : State :=
  let units := (s.work.groups.filter fun e => e.2.info.ctx == ctx).flatMap fun e =>
    e.2.splits.map fun (sp : Split) => (e.1, sp.id)
  let s := units.foldl (fun s u => refuseHeld s ctx base size u.1 u.2) s
  let cores := (s.vm.slog ++ s.vm.ownerless).foldl (fun acc e => insNat acc e.1) []
  let s := cores.foldl (fun s core => refuseLog s ctx base size core) s
  let parked (p : Option (Nat × Nat)) : Bool := match p with
    | some (c, va) => c == ctx && inRange base size va
    | none => false
  let s := s.onEng fun e => { e with
    copies := e.copies.map fun r => if parked r.parked then r.finish 2 else r
    colls := e.colls.map fun r => if parked r.parked then (r.unpark s.clock.dtime).fail 2 else r }
  refuseHq s ctx base size

/-! ## Moves of pages -/

/-- A leaf in transit (R50). -/
def leafTransit (e : W64) : W64 := (e &&& ~~~(1 : W64)) ||| 0x20

/-- A leaf with another HOME (R49). -/
def leafHome (e : W64) (home : Nat) : W64 := (e &&& ~~~(3 <<< 42 : W64)) ||| w64 (home % 4 * 2 ^ 42)

/-- A leaf with another page address (R49). -/
def leafPage (e : W64) (page : Nat) : W64 := (e &&& ~~~(0xFFFFFF <<< 16 : W64)) ||| w64 (page % 2 ^ 24 * 2 ^ 16)

/-- The first 64 KiB unit of the cold zone that this start applies, and their number (R64). -/
def coldZone (s : State) : Nat × Nat :=
  match s.vm.regs.coldNow with
  | 1 => (0xBA0000, 0x60000)
  | 2 => (0xB40000, 0xC0000)
  | 3 => (0xA80000, 0x180000)
  | _ => (0xC00000, 0)

/-- A page that the placement units avoid (R42, R43). -/
def avoided (s : State) (page : Nat) : Bool := s.ms.bpl.contains page || s.ms.bplRemoved.contains page

/-- A free place for an image: below the first free unit there are at most as many taken or avoided ones (R66). -/
def coldPlace (s : State) : Option Nat :=
  let (first, n) := coldZone s
  let tries := min n (s.vm.images.length + s.ms.bpl.length + s.ms.bplRemoved.length + 1)
  ((List.range tries).map (first + ·)).find? fun p => (NMap.get? s.vm.images p).isNone && !avoided s p

/-- The bytes of a page that are not zero, at their places in it. -/
def pageCells (s : State) (pa : Nat) : List Host.Cell :=
  (s.ms.mem.filter fun c => decide (pa ≤ c.1) && decide (c.1 < pa + 2 ^ 16)).map fun c => (c.1 - pa, c.2)

/-- The bytes of a page. -/
def pageBytes (s : State) (pa : Nat) : List Byte := physRead s pa (2 ^ 16)

/-- Granules of a range of memory that hold an error which no access has found yet. -/
def markedGranules (s : State) (pa size : Nat) : List Nat :=
  (s.ms.marks.map Prod.fst ++ s.ms.l2marks.map fun (m : Nat × EccMark) => m.1 % 2 ^ 35).filter fun g => inRange pa size (g * 32)

/-- A unit of the device reads a range of memory, and the errors there are found (R34, R35, R66, R68, R79). -/
def readMarked (s : State) (pa size ctx : Nat) : State :=
  (markedGranules s pa size).foldl (fun s g => touchGranule (l2CheckHome s g) g ctx) s

/-- A granule of a page is poisoned. -/
def pagePoisoned (s : State) (pa : Nat) : Bool := physPoison s pa (2 ^ 16)

/-- Bytes that an image takes at most (R66). -/
def imageBytes : Nat := 48 * 1024

/-- An image's granules are written without error or poison (R37, R67). -/
def writeImage (s : State) (place : Nat) (cells : List Host.Cell) : State :=
  let clean (g : Nat) : Bool := !inRange (place * 2 ^ 16) imageBytes (g * 32)
  (s.onMs fun ms => { ms with poison := ms.poison.filter clean, marks := ms.marks.filter fun m => clean m.1 }).onVm fun vm =>
    { vm with images := NMap.set vm.images place cells }

/-- Every L2 gives a page's lines back to memory. -/
def flushAll (s : State) (pa size : Nat) : State := (List.range Config.dies).foldl (fun s d => flushPage s d pa size) s

/-- Sets a page in transit and invalidates it (R67, R71). -/
def beginMove (s : State) (die ctx va leafAt : Nat) (old : W64) (size : Nat) (home : Option Nat) : State :=
  let (ok, s) := casLeaf s leafAt old (leafTransit old)
  if ok then
    invalidateRange (s.onVm fun vm => { vm with moves := vm.moves ++ [⟨die, ctx, va, leafAt, old, home⟩] })
      (some ctx) (some (va, size))
  else s

/-- The level of a move's leaf by its alignment: a 2 MiB page moves, never a larger one (R71). -/
def PageMove.size (s : State) (m : PageMove) : Nat :=
  match (walkTop s m.ctx m.va).1 with
  | .leaf lv _ _ => levelSpan lv
  | _ => 2 ^ 16

/-- Ends a move: the page stands at its new home, or as an image in the cold zone, and no L1 keeps lines of the frame that is then
free; a leaf that the driver has changed in between stays (R53, R67, R71, R121). A page that turns out poisoned is not compressed
(R66). -/
def finishMove (s : State) (m : PageMove) : State :=
  let s := s.onVm fun vm => { vm with moves := vm.moves.erase m }
  let l := Leaf.of m.old.toNat
  let size := m.size s
  let s := match m.newHome with
    | some d =>
      let s := flushPage s m.die l.pa size
      let (ok, s) := casLeaf s m.leafAt (leafTransit m.old) (leafHome m.old d)
      if ok then s.onVm fun vm => { vm with recent := vm.recent ++ [⟨d, m.ctx, m.va, 0⟩] } else s
    | none =>
      let s := readMarked (flushAll s l.pa (2 ^ 16)) l.pa (2 ^ 16) m.ctx
      match (if pagePoisoned s l.pa then none else coldPlace s) with
      | none => (casLeaf s m.leafAt (leafTransit m.old) m.old).2
      | some place =>
        let s := writeImage s place (pageCells s l.pa)
        let new := leafPage m.old place ||| 0x20
        let (ok, s) := casLeaf s m.leafAt (leafTransit m.old) new
        if ok then (dropL1Range s l.pa (2 ^ 16)).onVm fun vm => { vm with frames := insNat vm.frames (l.pa / 2 ^ 16) }
        else s.onVm fun vm => { vm with images := NMap.erase vm.images place }
  invalidateRange s (some m.ctx) (some (m.va, size))

/-- Host and peer requests below a number that were translated through what an invalidation removes are not answered yet (R57). -/
def rangeBusy (s : State) (ctx : Option Nat) (range : Option (Nat × Nat)) (upto : Nat) : Bool :=
  s.pkg.outreqs.any fun r => decide (r.n < upto) && invalMeets ctx range r.ctx r.va (MemOp.size r.op) && (replyTo s r).isNone

/-- Begins an invalidation: the translations of its range go (R57). -/
def beginInval (s : State) (i : Invalidation) : State :=
  (dropXlates s (invalMeets i.ctx i.range)).onVm fun vm => { vm with inval := some { i with upto := some s.pkg.nextReq } }

/-- Ends an invalidation: what waits in a refused range fails, the other waiters walk again, and BUSY clears (R57, R62). -/
def endInval (s : State) (i : Invalidation) : State :=
  let s := match i.refuse, i.ctx, i.range with
    | true, some c, some (b, n) => refuseRange s c b n
    | _, _, _ => s
  (onVmRegs (invalidateRange s i.ctx i.range) fun r => { r with busy := false }).onVm fun vm => { vm with inval := none }

/-- INVALIDATION_COMPLETE (R57, R62): the translations of the range go; once the accesses that were translated through them have
been answered, the command ends. Without a command of the driver's, the move whose own invalidation it is ends (R67, R71). -/
def execInvalidationComplete (s : State) : Out :=
  .next <|
    match s.vm.inval with
    | some i =>
      let s := if i.upto.isNone then beginInval s i else s
      if rangeBusy s i.ctx i.range (i.upto.getD s.pkg.nextReq) then s else endInval s i
    | none =>
      match s.vm.moves with
      | m :: _ => finishMove s m
      | [] => s

/-! ## Placement -/

/-- A page has migrated in the last four epochs (R71). -/
def movedLately (s : State) (ctx va : Nat) : Bool := s.vm.recent.any fun r => r.ctx == ctx && r.va == va && decide (r.epochs < 4)

/-- The die that a page should move to (R71). -/
def PageCount.target (p : PageCount) (s : State) : Option Nat :=
  let total := p.counts.sum
  if decide (total < s.vm.regs.migmin) || movedLately s p.ctx p.va then none
  else (List.range 4).find? fun d => d != p.die && decide (3 * total ≤ 4 * p.counts.getD d 0)

/-- What a placement unit does with a page at an epoch's end (R66, R71). -/
def placePage (s : State) (p : PageCount) : State :=
  let r := s.vm.regs
  match leafNow s p.ctx p.va with
  | none => s
  | some (l, _, lv, at?) =>
    let old := w64 (physNat s at? 8)
    if l.tgt ≠ 0 ∨ l.pin ∨ l.home ≠ p.die ∨ 2 ≤ lv ∨ p.size ≠ levelSpan lv then s
    else
      match r.migen, p.target s with
      | true, some d => beginMove s p.die p.ctx p.va at? old p.size (some d)
      | _, _ =>
        let s := if r.colden && lv == 0 && decide (r.coldep ≤ p.idle) then readMarked s l.pa (2 ^ 16) p.ctx else s
        if r.colden && lv == 0 && decide (r.coldep ≤ p.idle) && !pagePoisoned s l.pa &&
            decide (1 ≤ Config.compressedChunks (pageBytes s l.pa) ∧ Config.compressedChunks (pageBytes s l.pa) ≤ 12) &&
            (coldPlace s).isSome then
          beginMove s p.die p.ctx p.va at? old (2 ^ 16) none
        else s

/-- EPOCH_END (R66, R70, R71): a die's placement unit chooses pages to migrate or compress, and halves its counts. `idle` is
the number of epochs that ended since the page's last sample. -/
def execEpochEnd (die : Nat) (s : State) : Out :=
  let s := (s.vm.counts.filter fun p => p.die == die).foldl placePage s
  .next (s.onVm fun vm =>
    { vm with
      counts := vm.counts.map fun p => if p.die = die then { p with counts := p.counts.map (· / 2), idle := p.idle + 1 } else p
      recent := (vm.recent.map fun r => if r.die = die then { r with epochs := r.epochs + 1 } else r).filter fun r =>
        decide (r.epochs < 4) })

/-- A granule of an image is poisoned: its read has found an error that cannot be corrected, now or before (R35, R68). -/
def imageBroken (s : State) (place : Nat) : Bool := physPoison s (place * 2 ^ 16) imageBytes

/-- PAGE_EXPANSION (R62, R68): the control core of the requesting die expands a compressed page into a free frame, homed at its
die; without a frame the fault of the access goes to the host. -/
def execPageExpansion (die ctx : Nat) (x : PageTouch) (s : State) : Out :=
  .next <|
    match (walkTop s ctx x.va).1 with
    | .leaf 0 at? e =>
      let l := Leaf.of e
      if !(l.dev && l.v && l.cold) then s
      else
        let place := l.pa / 2 ^ 16
        match NMap.get? s.vm.images place, s.vm.frames.find? fun f => !avoided s f with
        | some cells, some f =>
          let pa := f * 2 ^ 16
          let s := readMarked s (place * 2 ^ 16) imageBytes ctx
          let broken := imageBroken s place
          let s := dropL1Range (flushAll s pa (2 ^ 16)) pa (2 ^ 16)
          let new := leafHome (leafPage (w64 e) f &&& ~~~(0x20 : W64)) die
          let (ok, s) := casLeaf s at? (w64 e) new
          if !ok then s
          else
            let outside (c : Host.Cell) : Bool := decide (c.1 < pa) || decide (pa + 2 ^ 16 ≤ c.1)
            let marked (g : Nat) : Bool := decide (f * 2048 ≤ g) && decide (g < (f + 1) * 2048)
            let s := s.onMs fun ms => { ms with
              mem := cells.foldl (fun m c => cellSet m (pa + c.1) c.2) (ms.mem.filter outside)
              poison := if broken then (List.range 2048).foldl (fun p i => insNat p (f * 2048 + i)) ms.poison
                else ms.poison.filter fun g => !marked g
              marks := ms.marks.filter fun m => !marked m.1 }
            let s := s.onVm fun vm => { vm with frames := delNat vm.frames f, images := NMap.erase vm.images place }
            invalidateRange s (some ctx) (some (x.va / 2 ^ 16 * 2 ^ 16, 2 ^ 16))
        | _, _ => postVmFault s ctx x.va 4 x.access ⟨die, x.agent, x.unit⟩ 0
    | _ => s

/-- A write of PLCTL (R64, R65): COLDSZ goes to flash, for the next start. -/
def plctlSet (s : State) (v : W64) : State :=
  onVmRegs s fun r =>
    { r with migmin := bitsOf v.toNat 47 32, coldep := bitsOf v.toNat 31 24, epoch := bitsOf v.toNat 23 16
             migen := v.getLsbD 3, colden := v.getLsbD 2, coldFlash := v.toNat % 4 }

/-- PLCTL_WRITE (R64, R65, R122). -/
def execPlctlWrite (v : W64) (s : State) : Out := .next (hostWrite s fun s => plctlSet s v)

/-! ## The side log -/

/-- The first entry of its page in a core's log (R59). -/
def firstOfPage (l : List SlogEntry) (e : SlogEntry) : Bool :=
  (l.find? fun x => x.ctx == e.ctx && x.va / 2 ^ 16 == e.va / 2 ^ 16) == some e

/-- The entry of a core's log that a request carries out. -/
def OutReq.retries (r : OutReq) (core : Nat) : Option SlogEntry :=
  match r.owner with
  | .slog c e => if c = core then some e else none
  | _ => none

/-- An entry is under way. -/
def inFlight (s : State) (core : Nat) (e : SlogEntry) : Bool := s.pkg.outreqs.any fun r => r.retries core == some e

/-- Replaces an entry of a core's log. -/
def swapEntry (s : State) (core : Nat) (e : SlogEntry) (new : List SlogEntry) : State :=
  let l := slogOf s core
  match l.findIdx? (· == e) with
  | some i => setSlog s core (l.take i ++ new ++ l.drop (i + 1))
  | none => s

/-- An entry leaves a core's log. -/
def removeEntry (s : State) (core : Nat) (e : SlogEntry) : State := refillLog (swapEntry s core e []) core

/-- Accesses that a replayed entry leaves outstanding are its group's, and effects that wait for the group wait for them; of a
group that has gone, its grids complete after them (R60, R94, R111, R112, R113). -/
def noteReplay (s : State) (e : SlogEntry) (o : List Outstanding) : State :=
  let mine (r : Release) : Bool := r.group == e.group && (e.group != nobody || e.grids.contains r.grid)
  let s := s.onWork fun w => { w with releases := w.releases.map fun r => if mine r then { r with wait := r.wait ++ o } else r }
  if ((s.group? e.group).map fun g => g.info.born == e.born).getD false then s.onGroup e.group fun g => g.await o
  else
    let last := (o.map Outstanding.gwct).foldl max 0
    e.grids.foldl (fun s gk => s.onGrid gk fun g => { g with horizon := max g.horizon last }) s

/-- The writer of a side-log entry. -/
def SlogEntry.writer (e : SlogEntry) (core : Nat) : Writer := ⟨e.group, e.born, e.split, e.ctx, e.grids, core⟩

/-- An entry as it is performed: a poisoned reduction writes nothing (R459). -/
def SlogEntry.performs (e : SlogEntry) : StoreKind :=
  match e.poison, e.kind with
  | true, .red _ _ _ => .store 0 0
  | _, k => k

/-- An entry for a remote page is sent, one operation at a time, and stays until it is answered: one of several operations becomes
that many entries (R59, R478). -/
def sendEntry (s : State) (core : Nat) (e : SlogEntry) (l : Leaf) (pa : Nat) : State :=
  match kindOps e.performs with
  | [] => removeEntry s core e
  | [o] =>
    let at? := s.clock.dtime
    let (code, _, s) := sendRemote s (.slog core e) (e.writer core).sender l (pa / 32 * 32 + o.1) (e.va / 32 * 32 + o.1) o.2 e.poison
    match code with
    | none => s
    | some c => swapEntry s core e [{ e with code := c, first := some (e.first.getD at?), retryAt := at? + 100000 }]
  | ops => swapEntry s core e (ops.map fun o => { e with kind := opKind o })

/-- Replays one entry: on its page performed, sent, or dropped with its page where W = 0; it waits again, with a new record,
where the walk still finds no page (R57, R59, R62, R70, R459, R478). -/
def replayEntry (s : State) (core : Nat) (e : SlogEntry) : State :=
  let atomic := match e.kind with
    | .store _ _ => false
    | .red _ _ _ => true
  let (x, s) := translate s (core * 32) none e.ctx e.va .write atomic
  match x with
  | .wait => swapEntry s core e [{ e with waits := true }]
  | .denied => dropPage s core e.ctx (e.va / 2 ^ 16) causeProt 4
  | .ok l pa =>
    let s := samplePage s l e.ctx e.va (dieOf core)
    if l.tgt ≠ 0 then sendEntry s core e l pa
    else
      let s := removeEntry s core e
      let (o, s) := sendSector s (e.writer core) l pa e.va e.performs e.poison
      noteReplay s e o

/-- The first entry of its page that no invalidation and no answer holds, of those that a remote target has failed or has not
(R57, R59, R478). -/
def replayable (s : State) (core : Nat) (failed : Bool) : Option SlogEntry :=
  (slogOf s core).find? fun e =>
    (e.code != 0) == failed && (!failed || decide (e.retryAt ≤ s.clock.dtime)) && !e.waits && !inFlight s core e &&
      !ctxHalted s e.ctx && firstOfPage (slogOf s core) e

/-- Replays a core's log as far as it goes. -/
def replayLog (core : Nat) : Nat → State → State
  | 0, s => s
  | n + 1, s =>
    match replayable s core false with
    | some e => replayLog core n (replayEntry s core e)
    | none => s

/-- SIDE_LOG_REPLAY (R59, R61, R62): a core's entries replay page by page in log order. -/
def execSideLogReplay (core : Nat) (s : State) : Out :=
  .next (replayLog core (33 * ((slogOf s core).length + (ownerlessOf s core).length)) (refillLog s core))

end Sys2Proof.Machine
end

