-- ==== Sys2Proof/Machine/Links.lean ====
section
/-! DEFINITION. Host and peer links: BAR2 accesses, timeouts, inbound requests, retries, drops and ports (spec/22 R470-R479,
spec/06 R122-R123). Replies from outside are inputs (notes/assumptions/9). An event whose condition does not hold changes
nothing. -/

namespace Sys2Proof.Machine

/-! ## The host -/

/-- BAR2 serves an access: not in minimal mode, not at or above 768 GiB (R470, R482). -/
def bar2Serves (s : State) (off n : Nat) : Bool := !s.minimal && decide (off + n ≤ Config.memBytes)

/-- HOST_BAR2_READ (R122, R470): the reply leaves the device; an error that the read finds is handled as any read's. -/
def execHostBar2Read (off n : Nat) (s : State) : Out :=
  .next (if bar2Serves s off n then (outerRead s off n).2.2 else s)

/-- HOST_BAR2_WRITE (R122, R470): performed at home slices; the host horizon rises. -/
def execHostBar2Write (off : Nat) (bytes : ByteList) (s : State) : Out :=
  .next <|
    if bar2Serves s off bytes.length then
      let (g, s) := outerWrite s off bytes false
      s.onMs fun ms => { ms with hostHorizon := max ms.hostHorizon g }
    else s

/-- An outstanding request without a reply. -/
def waiting (s : State) (n : Nat) : Option OutReq :=
  if (NMap.get? s.pkg.inbox n).isSome then none else s.pkg.outreqs.find? fun r => r.n == n

/-- A reply comes for a request. -/
def answer (s : State) (n : Nat) (r : Reply) : State := s.onPkg fun p => { p with inbox := NMap.set p.inbox n r }

/-- A read or atomic to host memory has had no completion within the timeout (R471). -/
def hostLate (s : State) (n : Nat) : Bool :=
  match waiting s n with
  | some r =>
    let posted := match r.op with
      | .write _ => true
      | _ => false
    r.peer.isNone && !posted && decide (r.sent + s.pkg.cplTimeout ≤ s.clock.dtime)
  | none => false

/-- HOST_COMPLETION_TIMEOUT (R471, R477): fault code 0x08. -/
def execHostCompletionTimeout (n : Nat) (s : State) : Out := .next (if hostLate s n then answer s n (.fail 8) else s)

/-! ## Peers -/

/-- PEER_INBOUND_REQUEST (R123, R475-R478): the reply leaves once the GWCT of what was written has passed. -/
def execPeerInboundRequest (rq : PeerReq) (s : State) : Out :=
  let (reply, g, s) := serveInbound s rq
  .next (s.onPkg fun p => { p with acks := p.acks ++ [⟨rq.peer, rq.addr, reply, g⟩] })

/-- Replies to peers leave as DTIME passes what they wait for (R123). -/
def sendAcks (s : State) : State := s.onPkg fun p => { p with acks := p.acks.filter fun a => !decide (a.after < s.clock.dtime) }

/-- PEERTO in nanoseconds (R475). -/
def peerTimeout (s : State) : Nat := max s.pkg.peers.timeout 1 * 1000

/-- A peer has not replied within PEERTO (R477). -/
def peerLate (s : State) (n : Nat) : Bool :=
  match waiting s n with
  | some r => r.peer.isSome && decide (r.sent + peerTimeout s ≤ s.clock.dtime)
  | none => false

/-- PEER_REPLY_TIMEOUT (R477): fault code 0x04. -/
def execPeerReplyTimeout (n : Nat) (s : State) : Out := .next (if peerLate s n then answer s n (.fail 4) else s)

/-- The first request for an entry of a core's log that has been answered. -/
def retryAnswered (s : State) (core : Nat) : Option (OutReq × SlogEntry × Reply) :=
  (s.pkg.outreqs.filterMap fun r =>
    match r.retries core, replyTo s r with
    | some e, some rep => some (r, e, rep)
    | _, _ => none).head?

/-- Takes the answer to an entry's request: the entry is performed and leaves, or has failed (again) and is sent once more 100 µs
after it was last sent; a reduction that met poison is counted or reported (R299, R478). -/
def retryTake (s : State) (core : Nat) (r : OutReq) (e : SlogEntry) (rep : Reply) : State :=
  let s := endRequest s r.n
  match rep with
  | .ok _ bad =>
    let s := match bad, r.op with
      | true, .atom _ _ _ => redPoison s (e.writer core) r.va 1
      | _, _ => s
    removeEntry s core e
  | .fail code =>
    swapEntry s core e [{ e with code := code, first := some (e.first.getD r.sent), retryAt := max s.clock.dtime (r.sent + 100000) }]

/-- PEER_RETRY (R471, R478): answers to side-log entries are taken, and failed entries whose interval is over are sent again. -/
def execPeerRetry (core : Nat) (s : State) : Out :=
  .next <|
    match retryAnswered s core with
    | some (r, e, rep) => retryTake s core r e rep
    | none =>
      match replayable s core true with
      | some e => replayEntry s core e
      | none => s

/-- An entry still failing 10 ms after its first attempt (R478). -/
def dropReady (s : State) (core : Nat) : Option SlogEntry :=
  (slogOf s core).find? fun e => e.code != 0 && decide (e.first.getD s.clock.dtime + 10000000 ≤ s.clock.dtime)

/-- PEER_STORE_DROP (R441, R478): the entry is dropped with a record of kind 0x2. -/
def execPeerStoreDrop (core : Nat) (s : State) : Out :=
  .next <|
    match dropReady s core with
    | none => s
    | some e =>
      let gone (r : OutReq) : Bool := r.retries core == some e
      let ns := (s.pkg.outreqs.filter gone).map OutReq.n
      let s := s.onPkg fun p => { p with outreqs := p.outreqs.filter (fun r => !gone r)
                                         inbox := p.inbox.filter fun x => !ns.contains x.1 }
      postKind (removeEntry s core e) e.ctx e.grid (e.va / 32 * 32) core causeRemote e.code 2

/-- Changes a peer port. -/
def onPort (s : State) (p : Nat) (f : Port → Port) : State :=
  s.onPkg fun x => { x with peers := { x.peers with ports := x.peers.ports.zipIdx.map fun y => if y.2 = p then f y.1 else y.1 } }

/-- PEER_PORT_DOWN (R472, R479): DOWNEV is set and raises vector 6; unacknowledged requests take another port of the mask, if
one is up, and later ones to their sectors are held until they are acknowledged. -/
def execPeerPortDown (p : Nat) (s : State) : Out :=
  .next <|
    if 12 ≤ p then s
    else
      let s := (onPort s p fun x => { x with up := false, downEv := true }).raiseVector 6
      let move (r : OutReq) : OutReq :=
        match r.port == some p, r.peer with
        | true, some peer =>
          let ps := portsTo s peer
          { r with port := ps[Config.portHash (r.addr / 32) % ps.length]?, reissued := true }
        | _, _ => r
      s.onPkg fun x => { x with outreqs := x.outreqs.map move }

/-- Requests that stood behind a reissued one to their sector go out (R479). -/
def sendHeld (s : State) : State :=
  let go (r : OutReq) : OutReq :=
    match r.held, r.peer with
    | true, some peer =>
      if sectorReissued s peer r.addr then r
      else
        let ps := portsTo s peer
        { r with held := false, port := ps[Config.portHash (r.addr / 32) % ps.length]? }
    | _, _ => r
  if s.pkg.outreqs.any OutReq.held then s.onPkg fun x => { x with outreqs := x.outreqs.map go } else s

/-- PEER_PORT_UP (R479): REPLAYS is cleared. -/
def execPeerPortUp (p : Nat) (s : State) : Out := .next (onPort s p fun x => { x with up := true, replays := 0 })

end Sys2Proof.Machine
end

