-- ==== Sys2Proof/Machine/TraceUnit.lean ====
section
/-! DEFINITION. The trace units: ring writes, periodic SYNCs, LOSS packets and TRCTL (spec/20 R447-R450, spec/23 R490-R491). An
event whose condition does not hold changes nothing. -/

namespace Sys2Proof.Machine

/-- Changes the trace unit of a die. -/
def onTrace (s : State) (die : Nat) (f : TraceUnit → TraceUnit) : State :=
  s.onPkg fun p => { p with trace := p.trace.zipIdx.map fun t => if t.2 = die then f t.1 else t.1 }

/-- Writes a core's trace queue. -/
def setTraceQ (s : State) (core : Nat) (q : TraceQueue) : State :=
  s.onPkg fun p => { p with traceq := NMap.set p.traceq core q }

/-- The size of a trace ring in bytes (R447). -/
def TraceUnit.ring (t : TraceUnit) : Nat := 2 ^ (min t.size 12 + 12)

/-- Bytes that the reader has not consumed (R447). -/
def TraceUnit.held (t : TraceUnit) : Nat := (t.wr + (2 ^ 64 - t.rd)) % 2 ^ 64

/-- The ring takes `n` more words (R447). -/
def TraceUnit.takes (t : TraceUnit) (n : Nat) : Bool := t.wrap || decide (t.held + 8 * n ≤ t.ring)

/-- The next core of a die with a packet, from the one after the last served (R447). -/
def traceTurn (s : State) (die : Nat) : Option Nat :=
  let t := s.traceUnit die
  ((List.range 96).map fun i => 96 * die + (t.next + i) % 96).find? fun c => !(s.traceQ c).packets.isEmpty

/-- Writes one word into a die's ring. -/
def traceWord (s : State) (die : Nat) (w : W64) : State :=
  let t := s.traceUnit die
  onTrace (physWriteW s (t.base * 4096 + t.wr % t.ring) w) die fun t => { t with wr := (t.wr + 8) % 2 ^ 64 }

/-- Moves whole packets of cores in their turn while words are left in this cycle (R447). -/
def traceMove (die : Nat) : Nat → Nat → State → State
  | 0, _, s => s
  | n + 1, left, s =>
    match traceTurn s die with
    | none => s
    | some c =>
      let q := s.traceQ c
      match q.packets with
      | [] => s
      | p :: rest =>
        if decide (p.length ≤ left) && (s.traceUnit die).takes p.length then
          let s := p.foldl (fun s w => traceWord s die w) (setTraceQ s c { q with packets := rest })
          traceMove die n (left - p.length) (onTrace s die fun t => { t with next := (c % 96 + 1) % 96 })
        else s

/-- A trace unit has something to write and room for it. -/
def traceDue (s : State) (die : Nat) : Bool :=
  (s.traceUnit die).en && (match (traceTurn s die).bind fun c => (s.traceQ c).packets.head? with
    | some p => (s.traceUnit die).takes p.length
    | none => false)

/-- TRACE_RING_WRITE (R447): a die's unit writes up to 8 words, packets whole. -/
def execTraceRingWrite (die : Nat) (s : State) : Out :=
  .next (if (s.traceUnit die).en then traceMove die 8 8 s else s)

/-- A traced group's SYNC is due (R392, R449). -/
def syncDue (s : State) (k : Nat) : Bool :=
  match s.group? k with
  | none => false
  | some g =>
    g.sys.tracectl &&& 5 != 0 && (s.traceUnit (dieOf (coreOf k))).en &&
      decide (2 ^ (bitsOf g.sys.tracectl.toNat 15 12 + 8) ≤ s.clock.cycle - g.lastSync)

/-- TRACE_SYNC_TIMER (R392, R449, R490). -/
def execTraceSyncTimer (k : Nat) (s : State) : Out :=
  .next <|
    if syncDue s k then
      let split := (((s.group? k).bind fun g => g.splits.head?).map Split.id).getD 0
      traceSync s k split
    else s

/-- Groups of a core that have lost a packet, by slot (R450). -/
def lostGroups (s : State) (core : Nat) : NMap Group := (s.groupsOf core).filter fun e => e.2.lostTrace

/-- A core's queue has room for its LOSS and the SYNCs (R450). -/
def lossDue (s : State) (core : Nat) : Bool :=
  let q := s.traceQ core
  decide (0 < q.lost) && decide (q.words + 1 + 2 * (lostGroups s core).length ≤ 64)

/-- LOSS (R450, R490, R491): the count, then a SYNC of each group that lost a packet, in one cycle. The DELTA of a LOSS later
than 4,095 cycles has no stated value. -/
def execLoss (core : Nat) (s : State) : Out :=
  .next <|
    if lossDue s core then
      let q := s.traceQ core
      let d := s.clock.cycle - q.last
      let (n, s) := if d ≤ 4095 then (0, s) else s.draw
      let delta := if d ≤ 4095 then d else (Config.freeWord n).toNat % 4096
      let gs := lostGroups s core
      let syncs := gs.map fun (e : Nat × Group) => syncPacket s e.1 e.2 ((e.2.splits.head?.map Split.id).getD 0)
      let s := setTraceQ s core ⟨q.packets ++ [[traceHeader 8 delta core 0 0 q.lost]] ++ syncs, 0, s.clock.cycle⟩
      gs.foldl (fun s e => s.onGroup e.1 fun g =>
        { g with lostTrace := false, traceOn := true, lastSync := s.clock.cycle }) s
    else s

/-- A write of TRCTL (R447): when EN becomes 1, WR counts from zero and each traced group writes a SYNC before its next
packet. -/
def trctlSet (s : State) (die : Nat) (v : W64) : State :=
    let on := v.getLsbD 0 && !(s.traceUnit die).en
    let s := onTrace s die fun t =>
      { t with size := bitsOf v.toNat 7 4, wrap := v.getLsbD 1, en := v.getLsbD 0, wr := if on then 0 else t.wr }
    let again (e : Nat × Group) : Nat × Group :=
      if dieOf (coreOf e.1) = die then (e.1, { e.2 with traceOn := false }) else e
    if on then s.onWork fun w => { w with groups := w.groups.map again }
    else s

/-- TRCTL_WRITE (R122, R447). -/
def execTrctlWrite (die : Nat) (v : W64) (s : State) : Out := .next (hostWrite s fun s => trctlSet s die v)

end Sys2Proof.Machine
end

