-- ==== Sys2Proof/Machine/Boot.lean ====
section
/-! DEFINITION. Start-up, mailbox, power and the registers of BAR0 (spec/22 R470, R473, R481-R489; field maps of R41, R43, R56,
R65, R363, R416, R432, R442, R447, R462, R465-R467, R475-R479). An event whose condition does not hold changes nothing. -/

namespace Sys2Proof.Machine

/-! ## Starts -/

/-- Changes the boot block. -/
def onBoot (s : State) (f : Boot → Boot) : State := s.onPkg fun p => { p with boot := f p.boot }

/-- What flash and fuses keep when all other device state is lost: remap tables, bad pages, disabled ways, scores, the health
list, the cold-zone size, the firmware slots and the count of failed starts (R38, R42, R64, R461, R464, R482, R483). -/
def lostState (s : State) (b : Boot) : State :=
  let r := State.reset
  let chans := (s.ms.chans.filter fun c => !c.2.remap.isEmpty).map fun c => (c.1, (⟨[], 0, [], [], [], c.2.remap, [], []⟩ : Channel))
  { r with ms := { r.ms with bpl := s.ms.bpl, chans := chans, l2off := s.ms.l2off }
           vm := { r.vm with regs := { r.vm.regs with coldFlash := s.vm.regs.coldFlash } }
           pkg := { r.pkg with flashScores := s.pkg.flashScores, health := s.pkg.health, boot := b }
           freeCtr := s.freeCtr }

/-- The boot block as a start begins: the last failure shows while failed starts follow one another, and a trip in the next
start (R482, R489). -/
def Boot.again (b : Boot) : Boot :=
  { Boot.reset with
    reason := if b.tripped then 7 else if b.fails = 0 then 0 else b.reason
    fails := b.fails, active := b.nextActive, nextActive := b.nextActive, slots := b.slots, oneMod := b.oneMod, fuses := b.fuses }

/-- PACKAGE_RESET (R481): a start begins with stage 1. -/
def execPackageReset (s : State) : Out := .next (lostState s s.pkg.boot.again)

/-- A start has failed (R482): a new one begins, or after three the minimal mode. -/
def startFails (s : State) (reason : Nat) : State :=
  let n := min (s.pkg.boot.fails + 1) 3
  let b := { s.pkg.boot.again with fails := n, reason := reason }
  if 3 ≤ n then lostState s { b with stage := 5, state := 2 } else lostState s b

/-- An image's signature and version let it run (R483). -/
def imageOk (s : State) (img : List Byte) : Bool := Config.signatureOk img && decide (s.pkg.boot.fuses ≤ Config.imageSvn img)

/-- The slots in the order in which a start tries them: the active one first (R481, R484). -/
def slotOrder (b : Boot) : List Nat := [b.active % 2, 1 - b.active % 2]

/-- The image that a slot holds: the PMU's, or the control cores' (R481). -/
def slotImage (b : Boot) (control : Bool) (slot : Nat) : List Byte := Config.imagePart control (b.slots.getD slot [])

/-- Why no slot's image runs: its version, or the image (R482). -/
def imageReason (s : State) (control : Bool) : Nat :=
  if (slotOrder s.pkg.boot).any fun x => Config.signatureOk (slotImage s.pkg.boot control x) then 3 else if control then 2 else 1

/-- What the control cores apply at a start: scores, the health list and the cold-zone size (R42, R64, R461, R464). -/
def loadLists (s : State) : State :=
  let s := s.onPkg fun p =>
    let kept := p.flashScores.map fun e => (e.1, (⟨e.2, 0, 0⟩ : Suspicion))
    { p with scores := p.health.foldl (fun m e =>
        NMap.set m e.1 { e.2 with score := ((NMap.get? p.flashScores e.1).getD 0) }) kept }
  onVmRegs s fun r => { r with coldNow := r.coldFlash }

/-- BOOT_STAGE_COMPLETE (R468, R481-R483, R485). -/
def execBootStageComplete (s : State) : Out :=
  .next <|
    let b := s.pkg.boot
    let go (s : State) (n : Nat) : State := onBoot s fun b => { b with stage := n, since := s.clock.dtime }
    if b.state ≠ 0 ∨ !b.powered then s
    else
      match b.stage with
      | 1 =>
        match (slotOrder b).find? fun x => imageOk s (slotImage b false x) with
        | none => startFails s (imageReason s false)
        | some x => onBoot (go s 2) fun b => { b with slot := x, svn := min (Config.imageSvn (slotImage b false x)) 255 }
      | 2 =>
        match (slotOrder b).find? fun x => imageOk s (slotImage b true x) with
        | none => startFails s (imageReason s true)
        | some _ => go (loadLists s) 3
      | 3 => go s 4
      | 4 => onBoot (go s 5) fun b =>
          { b with state := 1, fails := 0, fuses := max b.fuses (min b.svn 64) }
      | _ => s

/-- The limit of a stage in nanoseconds (R481). -/
def stageLimit : Nat → Nat
  | 1 => 1000000000
  | 2 => 3000000000
  | _ => 5000000000

/-- A stage has exceeded its limit (R482). -/
def stageLate (s : State) : Bool :=
  let b := s.pkg.boot
  b.state == 0 && b.powered && decide (stageLimit b.stage < s.clock.dtime - b.since)

/-- BOOT_STAGE_TIMEOUT (R482). -/
def execBootStageTimeout (s : State) : Out := .next (if stageLate s then startFails s 8 else s)

/-- POWER_LOSS (R461): all device state is lost but what flash and fuses hold. -/
def execPowerLoss (s : State) : Out := .next (lostState s { s.pkg.boot.again with powered := false })

/-- THERMAL_TRIP (R482, R489). -/
def execThermalTrip (s : State) : Out :=
  .next (lostState s { s.pkg.boot.again with powered := false, tripped := true })

/-! ## Power -/

/-- The setting that the PMU chooses is one R488 allows: within the cap and the limit, or the lowest. -/
def powerFits (s : State) (watts temp step : Nat) : Bool :=
  decide (step ≤ 18) && (step == 0 || (decide (watts ≤ s.pkg.power.cap) && decide (temp ≤ s.pkg.power.tlimit)))

/-- POWER_CONTROL (R487, R488): the PMU samples power and temperature and sets the clock step. -/
def execPowerControl (watts temp step : Nat) (s : State) : Out :=
  .next <|
    if powerFits s watts temp step then
      let mhz := 900 + 75 * step
      let moved := mhz != s.clock.mhz
      let s := s.onPkg fun p => { p with power := { p.power with watts := watts, temp := temp } }
      let s := { s with clock := { s.clock with mhz := mhz, frac := s.clock.frac * mhz / max s.clock.mhz 1 } }
      if moved && s.pkg.power.irqen then s.raiseVector 5 else s
    else s

/-- A number kept within bounds. -/
def clampNat (lo hi x : Nat) : Nat := max lo (min hi x)

/-- A write of PWRCTL (R487). -/
def pwrctlSet (s : State) (v : W64) : State :=
  s.onPkg fun p => { p with power := { p.power with
    cap := clampNat 400 2200 (bitsOf v.toNat 47 32), tlimit := clampNat 85 105 (bitsOf v.toNat 15 8), irqen := v.getLsbD 0 } }

/-- PWRCTL_WRITE (R122, R487). -/
def execPwrctlWrite (v : W64) (s : State) : Out := .next (hostWrite s fun s => pwrctlSet s v)

/-! ## Registers as they read -/

/-- BOOTSTAT (R482). -/
def bootstat (b : Boot) : W64 :=
  w64 (b.reason * 2 ^ 32 + b.fails * 2 ^ 24 + b.svn % 256 * 2 ^ 16 + b.slot % 2 * 8 + b.state % 8)

/-- A context or queue register of the queue block (R416). -/
def readQueue (s : State) (q r : Nat) : W64 :=
  let x := hqOf s q
  match r with
  | 0 => w64 (x.base * 4096)
  | 8 => w64 x.desc
  | 16 => w64 (x.size * 2 ^ 16 + b2n x.err * 4 + b2n x.render * 2 + b2n x.en)
  | 24 => w64 (x.head * 2 ^ 16 + x.tail)
  | _ => 0

/-- CNSVAL of the unit that CNSSEL names (R465). -/
def cnsval (s : State) : W64 :=
  let c := s.pkg.cns
  if unitCount c.selKind ≤ c.selIndex then 0
  else
    let u := scoreOf s c.selKind c.selIndex
    w64 (u.spares % 16 * 2 ^ 20 + u.state % 4 * 2 ^ 16 + u.score)

/-- CNSCTL (R462). -/
def cnsctl (c : Containment) : W64 :=
  w64 (c.thresh * 2 ^ 48 + c.wmis * 2 ^ 40 + c.wpar * 2 ^ 32 + c.wunc * 2 ^ 24 + c.wcor * 2 ^ 16 + c.decay * 2 ^ 8
    + b2n c.verbose * 8 + b2n c.autotest * 4 + b2n c.irqen * 2 + b2n c.en)

/-- A register of a record ring: base, head, tail or control (R41). -/
def readRing (r : Ring) (n : Nat) : W64 :=
  match n with
  | 0 => w64 (r.base * 4096)
  | 1 => w64 r.head
  | 2 => w64 r.tail
  | _ => r.ctl

/-- A register of a die's trace block (R447). -/
def readTrace (t : TraceUnit) (r : Nat) : W64 :=
  match r with
  | 0 => w64 (t.base * 4096)
  | 8 => w64 (t.size * 16 + b2n t.wrap * 2 + b2n t.en)
  | 16 => w64 t.wr
  | 24 => w64 t.rd
  | _ => 0

/-- The containment record queue's registers, with EN and IRQEN of CNSCTL (R466). -/
def crqRing (s : State) : Ring := { s.pkg.crq with en := s.pkg.cns.en, irqen := s.pkg.cns.irqen }

/-- The register at an offset of BAR0 (R8, R473); zero where none is assigned. -/
def readRegister (s : State) (off : Nat) : W64 :=
  if off % 8 ≠ 0 then 0
  else
    let r := off % 2 ^ 16
    match off / 2 ^ 16 with
    | 0 => if r < 0x4000 then readQueue s (r / 256) (r % 256) else 0
    | 1 =>
      let c := s.work.sched
      match r with
      | 0x00 => w64 c.starve
      | 0x08 => c.tddesc
      | 0x10 => c.tdrec
      | 0x18 => w64 (b2n c.tdErr * 4 + b2n c.tdBusy * 2)
      | 0x20 => w64 (c.preCtx * 2 ^ 32 + b2n c.preErr * 8 + b2n c.preBusy * 4)
      | _ => 0
    | 2 =>
      let c := s.vm.regs
      match r with
      | 0x00 => c.vminva
      | 0x08 => w64 (c.ctx * 2 ^ 32 + b2n c.err * 2 + b2n c.busy)
      | 0x10 => readRing s.vm.vmfq 0
      | 0x18 => readRing s.vm.vmfq 1
      | 0x20 => readRing s.vm.vmfq 2
      | 0x28 => readRing s.vm.vmfq 3
      | 0x30 => w64 (c.migmin * 2 ^ 32 + c.coldep * 2 ^ 24 + c.epoch * 2 ^ 16 + b2n c.migen * 8 + b2n c.colden * 4 + c.coldFlash)
      | 0x38 => w64 c.hostwin
      | _ => 0
    | 3 =>
      match r with
      | 0x00 => readRing s.ms.faq 0
      | 0x08 => readRing s.ms.faq 1
      | 0x10 => readRing s.ms.faq 2
      | 0x18 => readRing s.ms.faq 3
      | 0x28 => w64 (s.ms.bpl.length * 2 ^ 16 + b2n s.ms.bplErr * 4 + b2n (s.ms.bpl.length == 8192) * 2 + b2n s.ms.bplBusy)
      | _ => 0
    | 4 =>
      match r with
      | 0x00 => cnsctl s.pkg.cns
      | 0x08 => w64 (s.pkg.cns.selKind * 2 ^ 12 + s.pkg.cns.selIndex)
      | 0x10 => cnsval s
      | 0x18 => w64 (s.pkg.cns.rollbk * 2 ^ 32 + s.pkg.cns.replay)
      | 0x20 => readRing (crqRing s) 0
      | 0x28 => readRing (crqRing s) 1
      | 0x30 => readRing (crqRing s) 2
      | 0x38 => readRing (crqRing s) 3
      | _ => 0
    | 5 => if r < 0x400 then readTrace (s.traceUnit (r / 256)) (r % 256) else 0
    | 6 =>
      let c := s.pkg.peers
      if 0x100 ≤ r ∧ r < 0x180 then
        let w := c.windows.getD ((r - 0x100) / 8) ⟨0, 0, false, false⟩
        w64 (w.last * 2 ^ 40 + w.first * 2 ^ 16 + b2n w.w * 4 + b2n w.en)
      else if 0x200 ≤ r ∧ r < 0x260 then
        let p := c.ports.getD ((r - 0x200) / 8) ⟨0, false, false⟩
        w64 (p.replays * 2 ^ 32 + b2n p.downEv * 2 + b2n p.up)
      else
        match r with
        | 0x00 => w64 (c.timeout * 2 ^ 12 + b2n c.en * 2 ^ 10 + c.id)
        | 0x08 => w64 c.prt
        | 0x10 => w64 (c.coltab * 2 ^ 16)
        | _ => 0
    | 7 =>
      let b := s.pkg.boot
      match r with
      | 0x00 => bootstat b
      | 0x08 => w64 (b2n b.oneMod)
      | 0x10 => b.mbcmd
      | 0x18 => b.mbaddr
      | 0x20 => w64 (b.mbResult * 2 ^ 8 + b2n b.mbErr * 2 + b2n b.mbBusy)
      | _ => 0
    | 8 =>
      let p := s.pkg.power
      match r with
      | 0x00 => w64 (p.cap * 2 ^ 32 + p.tlimit * 2 ^ 8 + b2n p.irqen)
      | 0x08 => w64 (p.watts % 2 ^ 16 * 2 ^ 48 + p.temp % 256 * 2 ^ 40 + s.clock.mhz * 2 ^ 16 + s.clock.mhz * 2 / 3)
      | _ => 0
    | _ => 0

/-! ## Mailbox -/

/-- A write of MBCMD (R484): ignored while a command runs. -/
def mbcmdSet (s : State) (v : W64) : State :=
  onBoot s fun b => if b.mbBusy then { b with mbErr := true } else { b with mbcmd := v, mbBusy := true, mbData := [] }

/-- Suspicion scores are written to flash (R461). -/
def flashAll (s : State) : State :=
  s.onPkg fun p => { p with flashScores := p.scores.map fun e => (e.1, e.2.score) }

/-- MB_ATTEST (R484). -/
def execMbAttest (s : State) : Out := .next (hostWrite s fun s => mbcmdSet s 1)

/-- MB_IMAGE_WRITE (R484). -/
def execMbImageWrite (s : State) : Out := .next (hostWrite s fun s => mbcmdSet s 2)

/-- MB_SLOT_ACTIVATE (R484). -/
def execMbSlotActivate (s : State) : Out := .next (hostWrite s fun s => mbcmdSet s 3)

/-- MB_CERT_READ (R484). -/
def execMbCertRead (s : State) : Out := .next (hostWrite s fun s => mbcmdSet s 4)

/-- MB_RESTART (R484). -/
def execMbRestart (s : State) : Out := .next (hostWrite s fun s => mbcmdSet s 5)

/-- The key that owns the mailbox's requests to host memory. -/
def mbOwner : Nat := nobody + 66

/-- The mailbox's request in flight. -/
def mbRequest (s : State) : Option OutReq :=
  s.pkg.outreqs.find? fun r => match r.owner with
    | .held g _ _ => g == mbOwner
    | _ => false

/-- Sends a request of the mailbox to host memory (R471, R484). -/
def mbSend (s : State) (at? : Nat) (op : MemOp) : State :=
  let a := s.vm.regs.hostwin + s.pkg.boot.mbaddr.toNat + at?
  s.onPkg fun p => { p with nextReq := p.nextReq + 1
                            outreqs := p.outreqs ++ [⟨p.nextReq, .held mbOwner 0 0, 0, 0, [], 0, none, none, false, false, a, 0, op,
                              false, s.clock.dtime, 0⟩] }

/-- A mailbox command ends (R472, R484). -/
def mbFinish (s : State) (r : Nat) : State :=
  (onBoot s fun b => { b with mbBusy := false, mbResult := r, mbData := [] }).raiseVector 4

/-- What the health list's digest covers (R464, R486). -/
def healthBytes (s : State) : List Byte := Config.healthImage (s.pkg.health.map fun e => (e.1, e.2.state, e.2.spares))

/-- The attestation report on a nonce (R486). -/
def attestReport (s : State) (nonce : List Byte) : List Byte :=
  let b := s.pkg.boot
  let digest (x : List Byte) : List Byte := leBytes 64 (Config.shake x).toNat
  let head := nonce ++ leBytes 8 s.clock.dtime ++ leBytes 8 (bootstat b).toNat ++ leBytes 8 s.pkg.peers.id
    ++ digest (slotImage b false b.slot) ++ digest (slotImage b true b.slot) ++ digest (healthBytes s) ++ leBytes 8 b.fuses
  head ++ leBytes 114 (Config.signature (digest head)).toNat ++ List.replicate 14 0

/-- Bytes that the image command still has to read: the header first, then as many as it says (R483, R484). -/
def imageNeed (got : List Byte) : Nat :=
  if got.length < Config.imageHeaderBytes then Config.imageHeaderBytes
  else max Config.imageHeaderBytes (Config.imageBytes (got.take Config.imageHeaderBytes))

/-- An image has been read: verified, then written to the inactive slot (R483, R484). -/
def imageDone (s : State) (img : List Byte) : State :=
  if imageOk s img then
    mbFinish (onBoot s fun b => { b with slots := listSet b.slots (1 - b.slot % 2) img }) 0
  else mbFinish s 1

/-- Sends the next piece of what is to be written behind the first `k` bytes of the mailbox's data; ends when none is left. -/
def mbPush (s : State) (k total : Nat) : State :=
  let d := s.pkg.boot.mbData
  let rest := d.drop k
  if rest.isEmpty then mbFinish s 0
  else
    let s := mbSend s (total - rest.length) (.write (rest.take 256))
    onBoot s fun b => { b with mbData := d.take k ++ rest.drop 256 }

/-- The certificate chain (R484, R485). -/
def certChain : List Byte := (List.range Config.certificateBytes).map Config.certificates

/-- The next action of a command that has no request in flight (R484). -/
def mbStep (s : State) : State :=
  let b := s.pkg.boot
  match b.mbcmd.toNat with
  | 1 => if b.mbData.isEmpty then mbSend s 0 (.read 32) else mbPush s 32 384
  | 2 =>
    let n := b.mbData.length
    let need := imageNeed b.mbData
    if need ≤ n then imageDone s b.mbData else mbSend s n (.read (min 512 (need - n)))
  | 3 => mbFinish (onBoot s fun b => { b with nextActive := 1 - b.slot % 2 }) 0
  | 4 =>
    let s := if b.mbData.isEmpty then onBoot s fun b => { b with mbData := 0 :: certChain } else s
    mbPush s 1 Config.certificateBytes
  | 5 =>
    let s := flashAll (mbFinish s 0)
    lostState s s.pkg.boot.again
  | _ => mbFinish s 2

/-- The mailbox takes a reply of the host (R471, R484): a failed read ends the command. -/
def mbReply (s : State) (r : OutReq) (rep : Reply) : State :=
  let s := endRequest s r.n
  match r.op, rep with
  | .read _, .ok bs false =>
    onBoot s fun b =>
      { b with mbData := b.mbData ++ bs ++ (if b.mbcmd = 1 then attestReport s bs else []) }
  | .read _, _ => mbFinish s 2
  | _, _ => s

/-- The mailbox has something to do. -/
def mbDue (s : State) : Bool :=
  s.pkg.boot.mbBusy && (match mbRequest s with
    | some r => (NMap.get? s.pkg.inbox r.n).isSome
    | none => true)

/-- MAILBOX_COMPLETE (R484-R486): a command goes on by one request to host memory, or ends. -/
def execMailboxComplete (s : State) : Out :=
  .next <|
    if !s.pkg.boot.mbBusy then s
    else
      match mbRequest s with
      | none => mbStep s
      | some r =>
        match NMap.get? s.pkg.inbox r.n with
        | none => s
        | some rep => mbReply s r rep

/-! ## Register writes -/

/-- Changes the scheduling block. -/
def onSched (s : State) (f : Sched → Sched) : State := s.onWork fun w => { w with sched := f w.sched }

/-- Changes the containment block. -/
def onCns (s : State) (f : Containment → Containment) : State := s.onPkg fun p => { p with cns := f p.cns }

/-- Changes the peer block. -/
def onPeers (s : State) (f : Peers → Peers) : State := s.onPkg fun p => { p with peers := f p.peers }

/-- A write of a register of a record ring of 2^`bits` records (R41). -/
def ringSet (r : Ring) (bits n : Nat) (v : W64) : Ring :=
  match n with
  | 0 => { r with base := bitsOf v.toNat 39 12 }
  | 2 => { r with tail := v.toNat % 2 ^ bits }
  | 3 => r.writeCtl v
  | _ => r

/-- A write of VMINVC (R56, R62). -/
def vminvcSet (s : State) (v : W64) : State :=
  if s.vm.regs.busy then onVmRegs s fun r => { r with err := true }
  else
    let op := bitsOf v.toNat 4 2
    if 5 ≤ op then onVmRegs s fun r => { r with err := true }
    else
      let s := onVmRegs s fun r => { r with ctx := bitsOf v.toNat 63 32, err := r.err && !v.getLsbD 1 }
      match op with
      | 1 => vminvStart s fun r => ⟨some r.ctx, some r.range, false, none⟩
      | 2 => vminvStart s fun r => ⟨some r.ctx, none, false, none⟩
      | 3 => vminvStart s fun _ => ⟨none, none, false, none⟩
      | 4 => vminvStart s fun r => ⟨some r.ctx, some r.range, true, none⟩
      | _ => s

/-- A write of PRECTL (R442). -/
def prectlSet (s : State) (v : W64) : State :=
  let op := v.toNat % 4
  if s.work.sched.preBusy && op != 0 then preIgnored s
  else
    let ctx := bitsOf v.toNat 63 32
    let s := onSched s fun c => { c with preCtx := ctx, preErr := c.preErr && !v.getLsbD 3 }
    match op with
    | 1 => preemptCtx s ctx
    | 2 => resumeCtx s ctx
    | 3 => preIgnored s
    | _ => s

/-- A write of TDCTL (R432). -/
def tdctlSet (s : State) (v : W64) : State :=
  onSched s fun c =>
    let err := c.tdErr && !v.getLsbD 2
    if v.getLsbD 0 then (if c.tdBusy then { c with tdErr := true } else { c with tdErr := err, tdBusy := true })
    else { c with tdErr := err }

/-- A write of BPLCMD (R43). -/
def bplcmdSet (s : State) (v : W64) : State :=
  if s.ms.bplBusy then bplIgnored s
  else
    match bitsOf v.toNat 63 62 with
    | 1 => bplAddSet s (v.toNat % 2 ^ 24)
    | 2 => bplRemoveSet s (v.toNat % 2 ^ 24)
    | 3 => bplIgnored s
    | _ => s

/-- A write of CNSCTL (R462). -/
def cnsctlSet (c : Containment) (v : W64) : Containment :=
  let n := v.toNat
  { c with thresh := bitsOf n 63 48, wmis := bitsOf n 47 40, wpar := bitsOf n 39 32, wunc := bitsOf n 31 24
           wcor := bitsOf n 23 16, decay := bitsOf n 15 8, verbose := v.getLsbD 3, autotest := v.getLsbD 2
           irqen := v.getLsbD 1, en := v.getLsbD 0 }

/-- A write of a register of the peer block (R475-R480). -/
def peerSet (c : Peers) (r : Nat) (v : W64) : Peers :=
  let n := v.toNat
  if 0x100 ≤ r ∧ r < 0x180 then
    let w : Window := ⟨bitsOf n 39 16, bitsOf n 63 40, v.getLsbD 2, v.getLsbD 0⟩
    { c with windows := listSet c.windows ((r - 0x100) / 8) w }
  else if 0x200 ≤ r ∧ r < 0x260 then
    { c with ports := c.ports.zipIdx.map fun p =>
        if p.2 = (r - 0x200) / 8 then { p.1 with downEv := p.1.downEv && !v.getLsbD 1 } else p.1 }
  else
    match r with
    | 0x00 => { c with timeout := bitsOf n 31 12, en := v.getLsbD 10, id := n % 2 ^ 10 }
    | 0x08 => { c with prt := bitsOf n 39 11 * 2 ^ 11 }
    | 0x10 => { c with coltab := bitsOf n 39 16 }
    | _ => c

/-- A write of eight bytes at an offset of BAR0 (R8, R470, R473). -/
def writeRegister (s : State) (off : Nat) (v : W64) : State :=
  if off % 8 ≠ 0 then s
  else
    let r := off % 2 ^ 16
    match off / 2 ^ 16 with
    | 0 =>
      if r < 0x4000 then
        match r % 256 with
        | 0x00 => hqbaseSet s (r / 256) v
        | 0x08 => hqctxSet s (r / 256) v
        | 0x10 => hqctlSet s (r / 256) v
        | 0x18 => hqdbSet s (r / 256) v
        | _ => s
      else s
    | 1 =>
      match r with
      | 0x00 => onSched s fun c => { c with starve := v.toNat % 2 ^ 32 }
      | 0x08 => onSched s fun c => { c with tddesc := w64 (bitsOf v.toNat 47 6 * 2 ^ 6) }
      | 0x10 => onSched s fun c => { c with tdrec := w64 (bitsOf v.toNat 47 5 * 2 ^ 5) }
      | 0x18 => tdctlSet s v
      | 0x20 => prectlSet s v
      | _ => s
    | 2 =>
      match r with
      | 0x00 =>
        if s.vm.regs.busy then onVmRegs s fun c => { c with err := true }
        else onVmRegs s fun c => { c with vminva := w64 (v.toNat / 2 ^ 16 * 2 ^ 16) }
      | 0x08 => vminvcSet s v
      | 0x10 => s.onVm fun vm => { vm with vmfq := ringSet vm.vmfq 10 0 v }
      | 0x20 => s.onVm fun vm => { vm with vmfq := ringSet vm.vmfq 10 2 v }
      | 0x28 => s.onVm fun vm => { vm with vmfq := ringSet vm.vmfq 10 3 v }
      | 0x30 => plctlSet s v
      | 0x38 => onVmRegs s fun c => { c with hostwin := bitsOf v.toNat 47 12 * 2 ^ 12 }
      | _ => s
    | 3 =>
      match r with
      | 0x00 => s.onMs fun ms => { ms with faq := ringSet ms.faq 12 0 v }
      | 0x10 => s.onMs fun ms => { ms with faq := ringSet ms.faq 12 2 v }
      | 0x18 => s.onMs fun ms => { ms with faq := ringSet ms.faq 12 3 v }
      | 0x20 => bplcmdSet s v
      | 0x28 => s.onMs fun ms => { ms with bplErr := ms.bplErr && !v.getLsbD 2 }
      | _ => s
    | 4 =>
      match r with
      | 0x00 => onCns s fun c => cnsctlSet c v
      | 0x08 => onCns s fun c => { c with selKind := bitsOf v.toNat 15 12, selIndex := v.toNat % 2 ^ 10 }
      | 0x18 => cnscntSet s
      | 0x20 => s.onPkg fun p => { p with crq := ringSet p.crq 10 0 v }
      | 0x30 => s.onPkg fun p => { p with crq := ringSet p.crq 10 2 v }
      | 0x38 => onCns (s.onPkg fun p => { p with crq := ringSet p.crq 10 3 v }) fun c =>
          { c with irqen := v.getLsbD 1, en := v.getLsbD 0 }
      | _ => s
    | 5 =>
      if r < 0x400 then
        match r % 256 with
        | 0x00 => onTrace s (r / 256) fun t => { t with base := bitsOf v.toNat 47 12 }
        | 0x08 => trctlSet s (r / 256) v
        | 0x18 => onTrace s (r / 256) fun t => { t with rd := v.toNat }
        | _ => s
      else s
    | 6 => onPeers s fun c => peerSet c r v
    | 7 =>
      match r with
      | 0x10 => mbcmdSet s v
      | 0x18 => onBoot s fun b => { b with mbaddr := w64 (bitsOf v.toNat 39 6 * 2 ^ 6) }
      | 0x20 => onBoot s fun b => { b with mbErr := b.mbErr && !v.getLsbD 1 }
      | _ => s
    | 8 =>
      match r with
      | 0x00 => pwrctlSet s v
      | _ => s
    | _ => s

/-- REGISTER_WRITE (R122, R470, R473): an aligned 8-byte write of BAR0. -/
def execRegisterWrite (off : Nat) (v : W64) (s : State) : Out := .next (hostWrite s fun s => writeRegister s off v)

end Sys2Proof.Machine
end

