-- ==== Sys2Proof/Machine/Integer.lean ====
section
/-! DEFINITION. Integer, logic, predicate and lane instructions (spec/10 R217-R236). -/

namespace Sys2Proof.Machine

/-- Bits of an integer width (R217). -/
def Width.bits : Width → Nat
  | .w32 => 32
  | .w64 => 64

/-- A value cut to a width and zero-extended (R154). -/
def cut (w : Width) (x : W64) : W64 := w64 (x.toNat % 2 ^ Width.bits w)

/-- A value cut to a width and sign-extended (R154). -/
def cutS (w : Width) (x : W64) : W64 := BitVec.ofInt 64 (signedOf (Width.bits w) x.toNat)

/-- The low bits of a value as a number. -/
def low (w : Width) (x : W64) : Nat := x.toNat % 2 ^ Width.bits w

/-- The low bits of a value as a signed number. -/
def slow (w : Width) (x : W64) : Int := signedOf (Width.bits w) x.toNat

/-- A signed result of a width, sign-extended (R217). -/
def ofSlow (w : Width) (x : Int) : W64 := BitVec.ofInt 64 (signedOf (Width.bits w) (wrapInt (Width.bits w) x))

/-- IMULH on signed values (R220). -/
def mulHiS (w : Width) (a b : W64) : W64 := ofSlow w (slow w a * slow w b / 2 ^ Width.bits w)

/-- SHL (R222): the count is B[7:0]. -/
def shiftL (w : Width) (a b : W64) : W64 :=
  let n := b.toNat % 256
  if n < Width.bits w then cut w (w64 (low w a * 2 ^ n)) else 0

/-- SHR (R222). -/
def shiftR (w : Width) (a b : W64) : W64 :=
  let n := b.toNat % 256
  if n < Width.bits w then w64 (low w a / 2 ^ n) else 0

/-- SAR (R222). -/
def shiftA (w : Width) (a b : W64) : W64 := ofSlow w (slow w a / 2 ^ min (b.toNat % 256) (Width.bits w))

/-- A rotation to the left by `k` below the width (R222). -/
def rotl (w : Width) (a : Nat) (k : Nat) : W64 := cut w (w64 (a * 2 ^ k + a / 2 ^ (Width.bits w - k)))

/-- ROL (R222). -/
def rotateL (w : Width) (a b : W64) : W64 := rotl w (low w a) (b.toNat % 256 % Width.bits w)

/-- ROR (R222). -/
def rotateR (w : Width) (a b : W64) : W64 :=
  let k := b.toNat % 256 % Width.bits w
  rotl w (low w a) (if k = 0 then 0 else Width.bits w - k)

/-- A number whose bit `i` is `f i`, for `i` below `n`. -/
def ofBits (n : Nat) (f : Nat → Bool) : Nat := (List.range n).foldl (fun acc i => if f i then acc + 2 ^ i else acc) 0

/-- POPC (R223). -/
def popCount (w : Width) (a : W64) : W64 :=
  w64 ((List.range (Width.bits w)).filter fun i => a.getLsbD i).length

/-- CLZ (R223). -/
def leadZeros (w : Width) (a : W64) : W64 :=
  w64 (if low w a = 0 then Width.bits w else Width.bits w - 1 - Nat.log2 (low w a))

/-- CTZ (R223). -/
def trailZeros (w : Width) (a : W64) : W64 :=
  w64 (((List.range (Width.bits w)).find? fun i => a.getLsbD i).getD (Width.bits w))

/-- BREV (R223). -/
def bitReverse (w : Width) (a : W64) : W64 := w64 (ofBits (Width.bits w) fun i => a.getLsbD (Width.bits w - 1 - i))

/-- BFE as a number of the width (R224). -/
def extractField (w : Width) (signed : Bool) (a b : W64) : Nat :=
  let n := Width.bits w
  let pos := bitsOf b.toNat 7 0
  let len := bitsOf b.toNat 15 8
  let bit (i : Nat) : Bool := if pos + i < n then a.getLsbD (pos + i) else signed && a.getLsbD (n - 1)
  ofBits n fun i => if i < len then bit i else signed && decide (0 < len) && bit (len - 1)

/-- BFI (R225). -/
def insertField (w : Width) (old a b : W64) : W64 :=
  let pos := bitsOf b.toNat 7 0
  let len := bitsOf b.toNat 15 8
  w64 (ofBits (Width.bits w) fun i => if pos ≤ i ∧ i < pos + len then a.getLsbD (i - pos) else old.getLsbD i)

/-- The conditions of ICMP (R230). -/
def intCond (w : Width) (n : ICond) (a b : W64) : Bool :=
  match n with
  | .eq => low w a == low w b
  | .ne => low w a != low w b
  | .ltI => decide (slow w a < slow w b)
  | .leI => decide (slow w a ≤ slow w b)
  | .gtI => decide (slow w b < slow w a)
  | .geI => decide (slow w b ≤ slow w a)
  | .ltN => decide (low w a < low w b)
  | .leN => decide (low w a ≤ low w b)
  | .gtN => decide (low w b < low w a)
  | .geN => decide (low w b ≤ low w a)
  | .tst => Nat.land (low w a) (low w b) != 0

/-- A compare of a width (R230). -/
def icmpWord (i : Instr) (w : Width) (t : Tail) (g : Guard) (pd : PDst) (a b : Src) (n : ICond) (s : State) : Out :=
  issue i Checks.none s fun c =>
    let act := c.guard g
    let x := c.opA t .int a
    let y := c.opB t .int a b
    let r := Mask.ofFn fun l => intCond w n (x.lane l) (y.lane l)
    let c := c.pops i.uses
    ({ c with g := c.g.setCompare pd act r } : Cx).done

/-- A predicate instruction (R231). -/
def predWord (i : Instr) (g : Guard) (pd : PDst) (s : State) (f : Cx → Mask) : Out :=
  issue i Checks.none s fun c => ({ c with g := c.g.setCompare pd (c.guard g) (f c) } : Cx).done

/-- The census word of votes over the participating lanes (R233). -/
def census (z v : Mask) : W64 :=
  let m := z &&& v
  let n := m.lanes.length
  if z = 0 then 0
  else
    let any := m != 0
    let all := m == z
    w64 (m.toNat + n * 2 ^ 32 + b2n all * 2 ^ 40 + b2n any * 2 ^ 41 + b2n (all || !any) * 2 ^ 42)

/-- CENSUS with a test on each lane's value (R233). -/
def censusWord (i : Instr) (t : Tail) (g : Guard) (d : Dst) (a : Src) (s : State) (test : W64 → Bool) : Out :=
  aluWord i g d s fun c act =>
    let x := c.opA t .int a
    LaneReg.splat (census act (Mask.ofFn fun l => test (x.lane l)))

/-- Segment width and base of a lane under ROUTE (R234). -/
def routeSeg (b l : Nat) : Nat × Nat :=
  let w := 2 ^ min (bitsOf b 10 8) 5
  (w, l / w * w)

/-- The source lane of ROUTE.from (R234). -/
def routeFromLane (b _l : Nat) : Option Nat := some (b % 32)

/-- The source lane of ROUTE.rot (R234). -/
def routeRotLane (b l : Nat) : Option Nat :=
  let (w, base) := routeSeg b l
  some (base + (l - base + b % 32) % w)

/-- The source lane of ROUTE.shift (R234). -/
def routeShiftLane (b l : Nat) : Option Nat :=
  let (w, base) := routeSeg b l
  let j : Int := (l : Int) + signedOf 6 b
  if j < base ∨ (base + w : Nat) ≤ j then none else some j.toNat

/-- The source lane of ROUTE.flip (R234). -/
def routeFlipLane (b l : Nat) : Option Nat := some (Nat.xor l (b % 32))

/-- ROUTE over the participating lanes (R232, R234). -/
def routeWord (i : Instr) (t : Tail) (g : Guard) (d : Dst) (a b : Src) (w : Width) (s : State)
    (from? : Nat → Nat → Option Nat) : Out :=
  aluWord i g d s fun c act =>
    let x := c.opA t .int a
    let y := c.opB t .int a b
    LaneReg.ofFn fun l =>
      match from? (y.lane l).toNat l with
      | some j => cut w (if act.has j then x.lane j else x.lane l)
      | none => cut w (x.lane l)

/-- The peer word of a lane (R235). -/
def peerWord (w : Width) (z : Mask) (x : LaneReg) (l : Nat) : W64 :=
  let same := Mask.ofFn fun j => z.has j && low w (x.lane j) == low w (x.lane l)
  let rank := (same.lanes.filter fun j => decide (j < l)).length
  w64 (same.toNat + rank * 2 ^ 32 + b2n (rank == 0) * 2 ^ 37 + b2n (same == z) * 2 ^ 38)


/-- IADD (R220). -/
def execIadd (t : Tail) (g : Guard) (d : Dst) (a b : Src) (w : Width) (s : State) : Out :=
  aluWord2 (.iadd t g d a b w) t g d a b .int s fun x y => cut w (x + y)

/-- ISUB (R220). -/
def execIsub (t : Tail) (g : Guard) (d : Dst) (a b : Src) (w : Width) (s : State) : Out :=
  aluWord2 (.isub t g d a b w) t g d a b .int s fun x y => cut w (x - y)

/-- IADDC (R220: the carry out of the unsigned sum). -/
def execIaddc (t : Tail) (g : Guard) (d : Dst) (a b : Src) (w : Width) (s : State) : Out :=
  aluWord2 (.iaddc t g d a b w) t g d a b .int s fun x y => w64 ((low w x + low w y) / 2 ^ Width.bits w)

/-- IMUL (R220). -/
def execImul (t : Tail) (g : Guard) (d : Dst) (a b : Src) (w : Width) (s : State) : Out :=
  aluWord2 (.imul t g d a b w) t g d a b .int s fun x y => cut w (x * y)

/-- IMULH on signed values (R220). -/
def execImulhI (t : Tail) (g : Guard) (d : Dst) (a b : Src) (w : Width) (s : State) : Out :=
  aluWord2 (.imulhI t g d a b w) t g d a b .int s fun x y => mulHiS w x y

/-- IMULH on unsigned values (R220). -/
def execImulhN (t : Tail) (g : Guard) (d : Dst) (a b : Src) (w : Width) (s : State) : Out :=
  aluWord2 (.imulhN t g d a b w) t g d a b .int s fun x y => w64 (low w x * low w y / 2 ^ Width.bits w)

/-- IMAD (R221). -/
def execImad (t : Tail) (d : Dst) (a b : Src) (q : Cq) (w : Width) (s : State) : Out :=
  aluWord (.imad t d a b q w) .always d s fun c _ =>
    let x := c.opA t .int a
    let y := c.opB t .int a b
    let z := c.g.aged q.val
    LaneReg.ofFn fun l => cut w (x.lane l * y.lane l + z.lane l)

/-- AND (R220). -/
def execAndB (t : Tail) (g : Guard) (d : Dst) (a b : Src) (w : Width) (s : State) : Out :=
  aluWord2 (.andB t g d a b w) t g d a b .int s fun x y => cut w (x &&& y)

/-- OR (R220). -/
def execOrB (t : Tail) (g : Guard) (d : Dst) (a b : Src) (w : Width) (s : State) : Out :=
  aluWord2 (.orB t g d a b w) t g d a b .int s fun x y => cut w (x ||| y)

/-- XOR (R220). -/
def execXorB (t : Tail) (g : Guard) (d : Dst) (a b : Src) (w : Width) (s : State) : Out :=
  aluWord2 (.xorB t g d a b w) t g d a b .int s fun x y => cut w (x ^^^ y)

/-- ANDN (R220). -/
def execAndn (t : Tail) (g : Guard) (d : Dst) (a b : Src) (w : Width) (s : State) : Out :=
  aluWord2 (.andn t g d a b w) t g d a b .int s fun x y => cut w (x &&& ~~~y)

/-- ORN (R220). -/
def execOrn (t : Tail) (g : Guard) (d : Dst) (a b : Src) (w : Width) (s : State) : Out :=
  aluWord2 (.orn t g d a b w) t g d a b .int s fun x y => cut w (x ||| ~~~y)

/-- NOT (R220). -/
def execNotB (t : Tail) (g : Guard) (d : Dst) (a : Src) (w : Width) (s : State) : Out :=
  aluWord1 (.notB t g d a w) t g d a .int s fun x => cut w (~~~x)

/-- SHL (R222). -/
def execShl (t : Tail) (g : Guard) (d : Dst) (a b : Src) (w : Width) (s : State) : Out :=
  aluWord2 (.shl t g d a b w) t g d a b .int s fun x y => shiftL w x y

/-- SHR (R222). -/
def execShr (t : Tail) (g : Guard) (d : Dst) (a b : Src) (w : Width) (s : State) : Out :=
  aluWord2 (.shr t g d a b w) t g d a b .int s fun x y => shiftR w x y

/-- SAR (R222). -/
def execSar (t : Tail) (g : Guard) (d : Dst) (a b : Src) (w : Width) (s : State) : Out :=
  aluWord2 (.sar t g d a b w) t g d a b .int s fun x y => shiftA w x y

/-- ROL (R222). -/
def execRol (t : Tail) (g : Guard) (d : Dst) (a b : Src) (w : Width) (s : State) : Out :=
  aluWord2 (.rol t g d a b w) t g d a b .int s fun x y => rotateL w x y

/-- ROR (R222). -/
def execRor (t : Tail) (g : Guard) (d : Dst) (a b : Src) (w : Width) (s : State) : Out :=
  aluWord2 (.ror t g d a b w) t g d a b .int s fun x y => rotateR w x y

/-- POPC (R223). -/
def execPopc (t : Tail) (g : Guard) (d : Dst) (a : Src) (w : Width) (s : State) : Out :=
  aluWord1 (.popc t g d a w) t g d a .int s fun x => popCount w x

/-- CLZ (R223). -/
def execClz (t : Tail) (g : Guard) (d : Dst) (a : Src) (w : Width) (s : State) : Out :=
  aluWord1 (.clz t g d a w) t g d a .int s fun x => leadZeros w x

/-- CTZ (R223). -/
def execCtz (t : Tail) (g : Guard) (d : Dst) (a : Src) (w : Width) (s : State) : Out :=
  aluWord1 (.ctz t g d a w) t g d a .int s fun x => trailZeros w x

/-- BREV (R223). -/
def execBrev (t : Tail) (g : Guard) (d : Dst) (a : Src) (w : Width) (s : State) : Out :=
  aluWord1 (.brev t g d a w) t g d a .int s fun x => bitReverse w x

/-- BFE.n (R224). -/
def execBfeN (t : Tail) (g : Guard) (d : Dst) (a b : Src) (w : Width) (s : State) : Out :=
  aluWord2 (.bfeN t g d a b w) t g d a b .int s fun x y => w64 (extractField w false x y)

/-- BFE.i (R224). -/
def execBfeI (t : Tail) (g : Guard) (d : Dst) (a b : Src) (w : Width) (s : State) : Out :=
  aluWord2 (.bfeI t g d a b w) t g d a b .int s fun x y => cutS w (w64 (extractField w true x y))

/-- BFI (R225): into the destination's old value. -/
def execBfi (t : Tail) (g : Guard) (d : VReg) (a b : Src) (w : Width) (s : State) : Out :=
  aluWord (.bfi t g d a b w) g (.v d) s fun c _ =>
    let x := c.opA t .int a
    let y := c.opB t .int a b
    let old := c.rd.reg d.val
    LaneReg.ofFn fun l => insertField w (old.lane l) (x.lane l) (y.lane l)

/-- MIN on signed values (R226). -/
def execMinI (t : Tail) (g : Guard) (d : Dst) (a b : Src) (w : Width) (s : State) : Out :=
  aluWord2 (.minI t g d a b w) t g d a b .int s fun x y => if slow w y < slow w x then cutS w y else cutS w x

/-- MIN on unsigned values (R226). -/
def execMinN (t : Tail) (g : Guard) (d : Dst) (a b : Src) (w : Width) (s : State) : Out :=
  aluWord2 (.minN t g d a b w) t g d a b .int s fun x y => if low w y < low w x then cut w y else cut w x

/-- MAX on signed values (R226). -/
def execMaxI (t : Tail) (g : Guard) (d : Dst) (a b : Src) (w : Width) (s : State) : Out :=
  aluWord2 (.maxI t g d a b w) t g d a b .int s fun x y => if slow w x < slow w y then cutS w y else cutS w x

/-- MAX on unsigned values (R226). -/
def execMaxN (t : Tail) (g : Guard) (d : Dst) (a b : Src) (w : Width) (s : State) : Out :=
  aluWord2 (.maxN t g d a b w) t g d a b .int s fun x y => if low w x < low w y then cut w y else cut w x

/-- ABS (R226: the most negative value returns itself). -/
def execAbsI (t : Tail) (g : Guard) (d : Dst) (a : Src) (w : Width) (s : State) : Out :=
  aluWord1 (.absI t g d a w) t g d a .int s fun x => ofSlow w (slow w x).natAbs

/-- NEG (R226). -/
def execNegI (t : Tail) (g : Guard) (d : Dst) (a : Src) (w : Width) (s : State) : Out :=
  aluWord1 (.negI t g d a w) t g d a .int s fun x => ofSlow w (-(slow w x))

/-- SEL (R227): the guard field selects, and every active lane writes. -/
def execSel (t : Tail) (g : Guard) (d : Dst) (a b : Src) (w : Width) (s : State) : Out :=
  aluWord (.sel t g d a b w) .always d s fun c _ =>
    let x := c.opA t .int a
    let y := c.opB t .int a b
    let p : Mask := match g with
      | .always => Mask.all
      | .p n => c.rd.pred n.val
    LaneReg.ofFn fun l => cut w (if p.has l then x.lane l else y.lane l)

/-- MOV (R228). -/
def execMov (t : Tail) (g : Guard) (d : Dst) (a : Src) (w : Width) (s : State) : Out :=
  aluWord1 (.mov t g d a w) t g d a .int s fun x => cut w x

/-- MOVS (R229): the lowest active lane's value, for the whole group. -/
def execMovs (t : Tail) (g : Guard) (d : SReg) (a : Src) (w : Width) (s : State) : Out :=
  let i : Instr := .movs t g d a w
  issue i Checks.none s fun c =>
    let act := c.guard g
    let x := c.opA t .int a
    let c := c.pops i.uses
    (if act = 0 then c else { c with g := c.g.setScalar d.val (cut w (uniform act x)) } : Cx).done

/-- LEA (R228): a 64-bit sum; with W = 0 the second operand is a signed 32-bit value. -/
def execLea (t : Tail) (g : Guard) (d : Dst) (a b : Src) (w : Width) (s : State) : Out :=
  aluWord2 (.lea t g d a b w) t g d a b .int s fun x y => x + (if w = .w32 then cutS .w32 y else y)

/-- ICMP on 32 bits (R230). -/
def execIcmp32 (t : Tail) (g : Guard) (pd : PDst) (a b : Src) (n : ICond) (s : State) : Out :=
  icmpWord (.icmp32 t g pd a b n) .w32 t g pd a b n s

/-- ICMP on 64 bits (R230). -/
def execIcmp64 (t : Tail) (g : Guard) (pd : PDst) (a b : Src) (n : ICond) (s : State) : Out :=
  icmpWord (.icmp64 t g pd a b n) .w64 t g pd a b n s

/-- PAND (R231). -/
def execPand (c : Bool) (g : Guard) (pd : PDst) (a b : PReg) (s : State) : Out :=
  predWord (.pand c g pd a b) g pd s fun x => x.rd.pred a.val &&& x.rd.pred b.val

/-- POR (R231). -/
def execPor (c : Bool) (g : Guard) (pd : PDst) (a b : PReg) (s : State) : Out :=
  predWord (.por c g pd a b) g pd s fun x => x.rd.pred a.val ||| x.rd.pred b.val

/-- PXOR (R231). -/
def execPxor (c : Bool) (g : Guard) (pd : PDst) (a b : PReg) (s : State) : Out :=
  predWord (.pxor c g pd a b) g pd s fun x => x.rd.pred a.val ^^^ x.rd.pred b.val

/-- PNOT (R231). -/
def execPnot (c : Bool) (g : Guard) (pd : PDst) (a : PReg) (s : State) : Out :=
  predWord (.pnot c g pd a) g pd s fun x => ~~~(x.rd.pred a.val)

/-- PMOV (R231). -/
def execPmov (c : Bool) (g : Guard) (pd : PDst) (a : PReg) (s : State) : Out :=
  predWord (.pmov c g pd a) g pd s fun x => x.rd.pred a.val

/-- CENSUS.nz (R233). -/
def execCensusNz (t : Tail) (g : Guard) (d : Dst) (a : Src) (s : State) : Out :=
  censusWord (.censusNz t g d a) t g d a s fun x => x != 0

/-- CENSUS.lsb (R233). -/
def execCensusLsb (t : Tail) (g : Guard) (d : Dst) (a : Src) (s : State) : Out :=
  censusWord (.censusLsb t g d a) t g d a s fun x => x.getLsbD 0

/-- CENSUS.sgn (R233). -/
def execCensusSgn (t : Tail) (g : Guard) (d : Dst) (a : Src) (s : State) : Out :=
  censusWord (.censusSgn t g d a) t g d a s fun x => x.getLsbD 63

/-- ROUTE.from (R234). -/
def execRouteFrom (t : Tail) (g : Guard) (d : Dst) (a b : Src) (w : Width) (s : State) : Out :=
  routeWord (.routeFrom t g d a b w) t g d a b w s routeFromLane

/-- ROUTE.rot (R234). -/
def execRouteRot (t : Tail) (g : Guard) (d : Dst) (a b : Src) (w : Width) (s : State) : Out :=
  routeWord (.routeRot t g d a b w) t g d a b w s routeRotLane

/-- ROUTE.shift (R234). -/
def execRouteShift (t : Tail) (g : Guard) (d : Dst) (a b : Src) (w : Width) (s : State) : Out :=
  routeWord (.routeShift t g d a b w) t g d a b w s routeShiftLane

/-- ROUTE.flip (R234). -/
def execRouteFlip (t : Tail) (g : Guard) (d : Dst) (a b : Src) (w : Width) (s : State) : Out :=
  routeWord (.routeFlip t g d a b w) t g d a b w s routeFlipLane

/-- PEERS (R235). -/
def execPeers (t : Tail) (g : Guard) (d : Dst) (a : Src) (w : Width) (s : State) : Out :=
  aluWord (.peers t g d a w) g d s fun c act =>
    let x := c.opA t .int a
    LaneReg.ofFn fun l => peerWord w act x l

end Sys2Proof.Machine
end

