-- ==== Sys2Proof/Machine/Narrow.lean ====
section
/-! DEFINITION. Packed 16-bit arithmetic, narrow conversions, dot products and block scales (spec/12 R257-R262). -/

namespace Sys2Proof.Machine

/-- The format of major 0x20's F4[0] (R258). -/
def HFmt.fmt : HFmt → Fmt
  | .f16 => .f16
  | .bf16 => .bf16

/-- PKADD in .f16 and .bf16 (R258). -/
def execPkadd16 (t : Tail) (g : Guard) (d : Dst) (a b : Src) (r : Rnd) (h : HFmt) (s : State) : Out :=
  packedWord (.pkadd16 t g d a b r h) (HFmt.fmt h) .h16 t g d none a b s fun x y _ => (HFmt.fmt h).add r x y

/-- PKMUL in .f16 and .bf16 (R258). -/
def execPkmul16 (t : Tail) (d : Dst) (a b : Src) (r : Rnd) (h : HFmt) (s : State) : Out :=
  packedWord (.pkmul16 t d a b r h) (HFmt.fmt h) .h16 t .always d none a b s fun x y _ => (HFmt.fmt h).mul r x y

/-- PKFMA in .f16 and .bf16 (R258): c is the destination's old contents. -/
def execPkfma16 (t : Tail) (d : VReg) (a b : Src) (r : Rnd) (h : HFmt) (s : State) : Out :=
  packedWord (.pkfma16 t d a b r h) (HFmt.fmt h) .h16 t .always (.v d) (some d.val) a b s fun x y z =>
    (HFmt.fmt h).fma .pc r x y z

/-- PKFNA in .f16 and .bf16 (R258). -/
def execPkfna16 (t : Tail) (d : VReg) (a b : Src) (r : Rnd) (h : HFmt) (s : State) : Out :=
  packedWord (.pkfna16 t d a b r h) (HFmt.fmt h) .h16 t .always (.v d) (some d.val) a b s fun x y z =>
    (HFmt.fmt h).fma .cmp r x y z

/-- A selector of CVTN: source, destination and elements (R259). -/
def cvtnForm (f : Nat) : Fmt × Fmt × Nat :=
  match f with
  | 0x00 => (.f32, .f16, 2) | 0x01 => (.f32, .bf16, 2)
  | 0x02 => (.f16, .e4m3, 4) | 0x03 => (.f16, .e5m2, 4) | 0x04 => (.bf16, .e4m3, 4) | 0x05 => (.bf16, .e5m2, 4)
  | 0x08 => (.e4m3, .f16, 4) | 0x09 => (.e5m2, .f16, 4) | 0x0A => (.e4m3, .bf16, 4) | 0x0B => (.e5m2, .bf16, 4)
  | 0x0C => (.f16, .f32, 2) | 0x0D => (.bf16, .f32, 2) | 0x0E => (.f16, .bf16, 4)
  | _ => (.bf16, .f16, 4)

/-- The literal type of elements of a format (R206). -/
def elementLit (f : Fmt) : LitTy :=
  match f with
  | .f64 => .f64
  | .f32 => .pk32
  | .f16 | .bf16 => .h16
  | .e4m3 | .e5m2 => .b8

/-- CVTN (R259): element by element, results in the low bits. -/
def execCvtn (t : Tail) (g : Guard) (d : Dst) (a : Src) (f : Six) (r : Rnd) (u : Bool) (s : State) : Out :=
  flagWord (.cvtn t g d a f r u) g d s fun c _ l =>
    let (src, dst, n) := cvtnForm f.val
    let x := (c.opA t (elementLit src) a).lane l
    let y (i : Nat) : FRes := dst.convert r u (src.value (element src.bits x i))
    (w64 (pack dst.bits n fun i => (y i).1), (List.range n).foldl (fun (e : FFlags) i => e ||| (y i).2) 0)

/-- One half of DOT4 (R260): four byte products added to a 32-bit element, wrapping. -/
def dot4Half (signed : Bool) (old x y : W64) (h : Nat) : Nat :=
  let v (z : W64) (i : Nat) : Int := if signed then signedOf 8 (element 8 z i) else (element 8 z i : Nat)
  let sum := (List.range 4).foldl (fun (acc : Int) i => acc + v x (4 * h + i) * v y (4 * h + i)) (element 32 old h : Nat)
  wrapInt 32 sum

/-- DOT4 in either reading of the bytes (R260). -/
def dot4Word (i : Instr) (signed : Bool) (t : Tail) (g : Guard) (d : VReg) (a b : Src) (s : State) : Out :=
  flagWord i g (.v d) s fun c _ l =>
    let old := (c.rd.reg d.val).lane l
    let x := (c.opA t .b8 a).lane l
    let y := (c.opB t .b8 a b).lane l
    (w64 (pack 32 2 fun h => dot4Half signed old x y h), 0)

/-- DOT4.i8 (R260). -/
def execDot4I8 (t : Tail) (g : Guard) (d : VReg) (a b : Src) (s : State) : Out := dot4Word (.dot4I8 t g d a b) true t g d a b s

/-- DOT4.n8 (R260). -/
def execDot4N8 (t : Tail) (g : Guard) (d : VReg) (a b : Src) (s : State) : Out := dot4Word (.dot4N8 t g d a b) false t g d a b s

/-- DOT8 (R260): one k-group of eight products onto D[31:0] (R172). -/
def dot8Word (i : Instr) (f : Fmt) (t : Tail) (g : Guard) (d : VReg) (a b : Src) (s : State) : Out :=
  flagWord i g (.v d) s fun c _ l =>
    let x := (c.opA t .b8 a).lane l
    let y := (c.opB t .b8 a b).lane l
    let r := kGroup (opBits .f32 ((c.rd.reg d.val).lane l))
      ((List.range 8).map fun i => (f.value (element 8 x i), f.value (element 8 y i)))
    (w64 r.1, r.2)

/-- DOT8.e4m3 (R260). -/
def execDot8E4m3 (t : Tail) (g : Guard) (d : VReg) (a b : Src) (s : State) : Out := dot8Word (.dot8E4m3 t g d a b) .e4m3 t g d a b s

/-- DOT8.e5m2 (R260). -/
def execDot8E5m2 (t : Tail) (g : Guard) (d : VReg) (a b : Src) (s : State) : Out := dot8Word (.dot8E5m2 t g d a b) .e5m2 t g d a b s

/-- SCLX (R262): four .bf16 values into element codes under a block word. -/
def execSclx (t : Tail) (g : Guard) (d : Dst) (a b : Src) (j : Sel) (s : State) : Out :=
  flagWord (.sclx t g d a b j) g d s fun c _ l =>
    let x := (c.opA t .h16 a).lane l
    let w := element 16 ((c.opB t .h16 a b).lane l) j.val
    let y (i : Nat) := toE2m1 w .rn (Fmt.bf16.value (element 16 x i))
    (w64 (pack 4 4 fun i => (y i).1), (List.range 4).foldl (fun (e : FFlags) i => e ||| (y i).2) 0)

/-- SCLS (R261): the block word of a block's largest value, into one field of the scale register. -/
def execScls (t : Tail) (g : Guard) (d : Dst) (a b : Src) (j : Sel) (s : State) : Out :=
  flagWord (.scls t g d a b j) g d s fun c _ l =>
    let y := (c.opB t .h16 a b).lane l
    let r := blockWord (opBits .f32 ((c.opA t .f32 a).lane l))
    (w64 (pack 16 4 fun i => if i = j.val then r.1 else element 16 y i), r.2)

end Sys2Proof.Machine
end

