-- ==== Sys2Proof/Machine/Dispatch.lean ====
section
/-! DEFINITION. One arm per constructor: each calls that instruction's meaning. -/

namespace Sys2Proof.Machine

/-- What an instruction does to the machine. -/
def exec (i : Instr) (s : State) : Host.Outcome State Fault Refusal :=
  match i with
  | .iadd t g d a b w => Sys2Proof.Machine.execIadd t g d a b w s
  | .isub t g d a b w => Sys2Proof.Machine.execIsub t g d a b w s
  | .iaddc t g d a b w => Sys2Proof.Machine.execIaddc t g d a b w s
  | .imul t g d a b w => Sys2Proof.Machine.execImul t g d a b w s
  | .imulhI t g d a b w => Sys2Proof.Machine.execImulhI t g d a b w s
  | .imulhN t g d a b w => Sys2Proof.Machine.execImulhN t g d a b w s
  | .imad t d a b q w => Sys2Proof.Machine.execImad t d a b q w s
  | .andB t g d a b w => Sys2Proof.Machine.execAndB t g d a b w s
  | .orB t g d a b w => Sys2Proof.Machine.execOrB t g d a b w s
  | .xorB t g d a b w => Sys2Proof.Machine.execXorB t g d a b w s
  | .andn t g d a b w => Sys2Proof.Machine.execAndn t g d a b w s
  | .orn t g d a b w => Sys2Proof.Machine.execOrn t g d a b w s
  | .notB t g d a w => Sys2Proof.Machine.execNotB t g d a w s
  | .shl t g d a b w => Sys2Proof.Machine.execShl t g d a b w s
  | .shr t g d a b w => Sys2Proof.Machine.execShr t g d a b w s
  | .sar t g d a b w => Sys2Proof.Machine.execSar t g d a b w s
  | .rol t g d a b w => Sys2Proof.Machine.execRol t g d a b w s
  | .ror t g d a b w => Sys2Proof.Machine.execRor t g d a b w s
  | .popc t g d a w => Sys2Proof.Machine.execPopc t g d a w s
  | .clz t g d a w => Sys2Proof.Machine.execClz t g d a w s
  | .ctz t g d a w => Sys2Proof.Machine.execCtz t g d a w s
  | .brev t g d a w => Sys2Proof.Machine.execBrev t g d a w s
  | .bfeN t g d a b w => Sys2Proof.Machine.execBfeN t g d a b w s
  | .bfeI t g d a b w => Sys2Proof.Machine.execBfeI t g d a b w s
  | .bfi t g d a b w => Sys2Proof.Machine.execBfi t g d a b w s
  | .minI t g d a b w => Sys2Proof.Machine.execMinI t g d a b w s
  | .minN t g d a b w => Sys2Proof.Machine.execMinN t g d a b w s
  | .maxI t g d a b w => Sys2Proof.Machine.execMaxI t g d a b w s
  | .maxN t g d a b w => Sys2Proof.Machine.execMaxN t g d a b w s
  | .absI t g d a w => Sys2Proof.Machine.execAbsI t g d a w s
  | .negI t g d a w => Sys2Proof.Machine.execNegI t g d a w s
  | .sel t g d a b w => Sys2Proof.Machine.execSel t g d a b w s
  | .mov t g d a w => Sys2Proof.Machine.execMov t g d a w s
  | .movs t g d a w => Sys2Proof.Machine.execMovs t g d a w s
  | .lea t g d a b w => Sys2Proof.Machine.execLea t g d a b w s
  | .icmp32 t g pd a b n => Sys2Proof.Machine.execIcmp32 t g pd a b n s
  | .icmp64 t g pd a b n => Sys2Proof.Machine.execIcmp64 t g pd a b n s
  | .pand c g pd a b => Sys2Proof.Machine.execPand c g pd a b s
  | .por c g pd a b => Sys2Proof.Machine.execPor c g pd a b s
  | .pxor c g pd a b => Sys2Proof.Machine.execPxor c g pd a b s
  | .pnot c g pd a => Sys2Proof.Machine.execPnot c g pd a s
  | .pmov c g pd a => Sys2Proof.Machine.execPmov c g pd a s
  | .censusNz t g d a => Sys2Proof.Machine.execCensusNz t g d a s
  | .censusLsb t g d a => Sys2Proof.Machine.execCensusLsb t g d a s
  | .censusSgn t g d a => Sys2Proof.Machine.execCensusSgn t g d a s
  | .routeFrom t g d a b w => Sys2Proof.Machine.execRouteFrom t g d a b w s
  | .routeRot t g d a b w => Sys2Proof.Machine.execRouteRot t g d a b w s
  | .routeShift t g d a b w => Sys2Proof.Machine.execRouteShift t g d a b w s
  | .routeFlip t g d a b w => Sys2Proof.Machine.execRouteFlip t g d a b w s
  | .peers t g d a w => Sys2Proof.Machine.execPeers t g d a w s
  | .fadd t g d a b r w => Sys2Proof.Machine.execFadd t g d a b r w s
  | .fsub t d a b r w => Sys2Proof.Machine.execFsub t d a b r w s
  | .fmul t g d a b r w => Sys2Proof.Machine.execFmul t g d a b r w s
  | .ffma t d a b q r w => Sys2Proof.Machine.execFfma t d a b q r w s
  | .ffms t d a b q r w => Sys2Proof.Machine.execFfms t d a b q r w s
  | .fnma t d a b q r w => Sys2Proof.Machine.execFnma t d a b q r w s
  | .fmin t g d a b w => Sys2Proof.Machine.execFmin t g d a b w s
  | .fmax t g d a b w => Sys2Proof.Machine.execFmax t g d a b w s
  | .fminNum t g d a b w => Sys2Proof.Machine.execFminNum t g d a b w s
  | .fmaxNum t g d a b w => Sys2Proof.Machine.execFmaxNum t g d a b w s
  | .fcmp t g pd a b n w => Sys2Proof.Machine.execFcmp t g pd a b n w s
  | .fcvt t g d a f r u => Sys2Proof.Machine.execFcvt t g d a f r u s
  | .fclass t g d a w => Sys2Proof.Machine.execFclass t g d a w s
  | .ffrexp t g d a w => Sys2Proof.Machine.execFfrexp t g d a w s
  | .fabs t g d a w => Sys2Proof.Machine.execFabs t g d a w s
  | .fneg t g d a w => Sys2Proof.Machine.execFneg t g d a w s
  | .fcpysgn t g d a b w => Sys2Proof.Machine.execFcpysgn t g d a b w s
  | .fscale t d a b r w => Sys2Proof.Machine.execFscale t d a b r w s
  | .fdiv t l d a b r w => Sys2Proof.Machine.execFdiv t l d a b r w s
  | .fsqrt t l d a r w => Sys2Proof.Machine.execFsqrt t l d a r w s
  | .frcp t l d a r w => Sys2Proof.Machine.execFrcp t l d a r w s
  | .frsq t l d a r w => Sys2Proof.Machine.execFrsq t l d a r w s
  | .fexp2 t l d a w => Sys2Proof.Machine.execFexp2 t l d a w s
  | .flog2 t l d a w => Sys2Proof.Machine.execFlog2 t l d a w s
  | .fsin t l d a w => Sys2Proof.Machine.execFsin t l d a w s
  | .fcos t l d a w => Sys2Proof.Machine.execFcos t l d a w s
  | .ftanh t l d a w => Sys2Proof.Machine.execFtanh t l d a w s
  | .pkadd16 t g d a b r h => Sys2Proof.Machine.execPkadd16 t g d a b r h s
  | .pkmul16 t d a b r h => Sys2Proof.Machine.execPkmul16 t d a b r h s
  | .pkfma16 t d a b r h => Sys2Proof.Machine.execPkfma16 t d a b r h s
  | .pkfna16 t d a b r h => Sys2Proof.Machine.execPkfna16 t d a b r h s
  | .cvtn t g d a f r u => Sys2Proof.Machine.execCvtn t g d a f r u s
  | .dot4I8 t g d a b => Sys2Proof.Machine.execDot4I8 t g d a b s
  | .dot4N8 t g d a b => Sys2Proof.Machine.execDot4N8 t g d a b s
  | .dot8E4m3 t g d a b => Sys2Proof.Machine.execDot8E4m3 t g d a b s
  | .dot8E5m2 t g d a b => Sys2Proof.Machine.execDot8E5m2 t g d a b s
  | .sclx t g d a b j => Sys2Proof.Machine.execSclx t g d a b j s
  | .scls t g d a b j => Sys2Proof.Machine.execScls t g d a b j s
  | .pkaddF32 t g d a b r => Sys2Proof.Machine.execPkaddF32 t g d a b r s
  | .pkmulF32 t d a b r => Sys2Proof.Machine.execPkmulF32 t d a b r s
  | .pkfmaF32 t d a b r => Sys2Proof.Machine.execPkfmaF32 t d a b r s
  | .pkfnaF32 t d a b r => Sys2Proof.Machine.execPkfnaF32 t d a b r s
  | .mmad c l d a b r => Sys2Proof.Machine.execMmad c l d a b r s
  | .mmaF32 c l d a b r => Sys2Proof.Machine.execMmaF32 c l d a b r s
  | .mmaBf16 c l d a b => Sys2Proof.Machine.execMmaBf16 c l d a b s
  | .mmaF16 c l d a b => Sys2Proof.Machine.execMmaF16 c l d a b s
  | .mmaq c l d a b fa fb => Sys2Proof.Machine.execMmaq c l d a b fa fb s
  | .mmas l d a b fb mc sa sb ja jb => Sys2Proof.Machine.execMmas l d a b fb mc sa sb ja jb s
  | .mmat t l d a h f => Sys2Proof.Machine.execMmat t l d a h f s
  | .mmaj c l d a b f => Sys2Proof.Machine.execMmaj c l d a b f s
  | .tfact c l d a k => Sys2Proof.Machine.execTfact c l d a k s
  | .tsolv c l d a b k => Sys2Proof.Machine.execTsolv c l d a b k s
  | .tref l d a b k mc pd => Sys2Proof.Machine.execTref l d a b k mc pd s
  | .ld g l x a o mc ty => Sys2Proof.Machine.execLd g l x a o mc ty s
  | .st g x a o mc ty => Sys2Proof.Machine.execSt g x a o mc ty s
  | .ldl g l x a o mc ty => Sys2Proof.Machine.execLdl g l x a o mc ty s
  | .stl g x a o mc ty => Sys2Proof.Machine.execStl g x a o mc ty s
  | .ldc g l x a o mc ty => Sys2Proof.Machine.execLdc g l x a o mc ty s
  | .atom g l x a o mc op ty sc xd => Sys2Proof.Machine.execAtom g l x a o mc op ty sc xd s
  | .red g x a o mc op ty sc => Sys2Proof.Machine.execRed g x a o mc op ty sc s
  | .acas g l x a o mc ty sc x2 xd => Sys2Proof.Machine.execAcas g l x a o mc ty sc x2 xd s
  | .axch g l x a o mc ty sc xd => Sys2Proof.Machine.execAxch g l x a o mc ty sc xd s
  | .fence c sv p e => Sys2Proof.Machine.execFence c sv p e s
  | .fenceS c sv p e => Sys2Proof.Machine.execFenceS c sv p e s
  | .waitm c g l a n w => Sys2Proof.Machine.execWaitm c g l a n w s
  | .cctlInv c g a => Sys2Proof.Machine.execCctlInv c g a s
  | .cctlInvall c => Sys2Proof.Machine.execCctlInvall c s
  | .cctlWb c g a => Sys2Proof.Machine.execCctlWb c g a s
  | .pref c g a v => Sys2Proof.Machine.execPref c g a v s
  | .copy t g a b => Sys2Proof.Machine.execCopy t g a b s
  | .copyr t g a b => Sys2Proof.Machine.execCopyr t g a b s
  | .batch c l => Sys2Proof.Machine.execBatch c l s
  | .waitb t l a => Sys2Proof.Machine.execWaitb t l a s
  | .qfence c m => Sys2Proof.Machine.execQfence c m s
  | .tile t g l a b => Sys2Proof.Machine.execTile t g l a b s
  | .barInit t a k => Sys2Proof.Machine.execBarInit t a k s
  | .barArrive c k => Sys2Proof.Machine.execBarArrive c k s
  | .barWait c l k => Sys2Proof.Machine.execBarWait c l k s
  | .barTest c l k => Sys2Proof.Machine.execBarTest c l k s
  | .qstat c l sv => Sys2Proof.Machine.execQstat c l sv s
  | .coll t g a b => Sys2Proof.Machine.execColl t g a b s
  | .ifW c g o => Sys2Proof.Machine.execIfW c g o s
  | .elseW c o => Sys2Proof.Machine.execElseW c o s
  | .endif c => Sys2Proof.Machine.execEndif c s
  | .loopW c g o => Sys2Proof.Machine.execLoopW c g o s
  | .endloop c g => Sys2Proof.Machine.execEndloop c g s
  | .brk c g => Sys2Proof.Machine.execBrk c g s
  | .cont c g => Sys2Proof.Machine.execCont c g s
  | .jmp c g o => Sys2Proof.Machine.execJmp c g o s
  | .call c g o => Sys2Proof.Machine.execCall c g o s
  | .ret c g => Sys2Proof.Machine.execRet c g s
  | .exit c g => Sys2Proof.Machine.execExit c g s
  | .nop c => Sys2Proof.Machine.execNop c s
  | .launch t g l a b => Sys2Proof.Machine.execLaunch t g l a b s
  | .waitchild t l a => Sys2Proof.Machine.execWaitchild t l a s
  | .spawn t g a b => Sys2Proof.Machine.execSpawn t g a b s
  | .yieldW t g a b => Sys2Proof.Machine.execYieldW t g a b s
  | .task t b => Sys2Proof.Machine.execTask t b s
  | .commit c => Sys2Proof.Machine.execCommit c s
  | .regs t n b => Sys2Proof.Machine.execRegs t n b s
  | .endregs c => Sys2Proof.Machine.execEndregs c s
  | .grow t n b => Sys2Proof.Machine.execGrow t n b s
  | .shrink c n => Sys2Proof.Machine.execShrink c n s
  | .trap t g n b => Sys2Proof.Machine.execTrap t g n b s
  | .rtt c => Sys2Proof.Machine.execRtt c s
  | .getsr c g l n => Sys2Proof.Machine.execGetsr c g l n s
  | .setsr t g n b => Sys2Proof.Machine.execSetsr t g n b s
  | .waitpred c => Sys2Proof.Machine.execWaitpred c s
  | .sigsucc c => Sys2Proof.Machine.execSigsucc c s
  | .traceW t g n b => Sys2Proof.Machine.execTraceW t g n b s
  | .pathb t a b => Sys2Proof.Machine.execPathb t a b s
  | .segl c g a => Sys2Proof.Machine.execSegl c g a s
  | .segq c g a => Sys2Proof.Machine.execSegq c g a s
  | .segc c g a => Sys2Proof.Machine.execSegc c g a s
  | .pathe t a b => Sys2Proof.Machine.execPathe t a b s
  | .covrd t g l a b => Sys2Proof.Machine.execCovrd t g l a b s
  | .issueCycle core => Sys2Proof.Machine.execIssueCycle core s
  | .resultDelivery u => Sys2Proof.Machine.execResultDelivery u s
  | .gwctReturn k => Sys2Proof.Machine.execGwctReturn k s
  | .fenceComplete u => Sys2Proof.Machine.execFenceComplete u s
  | .fenceSValidation k => Sys2Proof.Machine.execFenceSValidation k s
  | .regionCommit k => Sys2Proof.Machine.execRegionCommit k s
  | .effectRelease n => Sys2Proof.Machine.execEffectRelease n s
  | .trayTimerExpiry n => Sys2Proof.Machine.execTrayTimerExpiry n s
  | .seamWaitTimeout k => Sys2Proof.Machine.execSeamWaitTimeout k s
  | .barrierArrivalCount n => Sys2Proof.Machine.execBarrierArrivalCount n s
  | .copyDispatch q => Sys2Proof.Machine.execCopyDispatch q s
  | .copyComplete n => Sys2Proof.Machine.execCopyComplete n s
  | .operandFetchComplete cl n => Sys2Proof.Machine.execOperandFetchComplete cl n s
  | .enginePassGrant cl => Sys2Proof.Machine.execEnginePassGrant cl s
  | .arbiterPromotion cl => Sys2Proof.Machine.execArbiterPromotion cl s
  | .matrixDelivery cl n => Sys2Proof.Machine.execMatrixDelivery cl n s
  | .mmajGatherTimeout cl n => Sys2Proof.Machine.execMmajGatherTimeout cl n s
  | .fmtemuComplete k => Sys2Proof.Machine.execFmtemuComplete k s
  | .collComplete n => Sys2Proof.Machine.execCollComplete n s
  | .collMemberTimeout n j => Sys2Proof.Machine.execCollMemberTimeout n j s
  | .pathOperation core => Sys2Proof.Machine.execPathOperation core s
  | .waitmReread u => Sys2Proof.Machine.execWaitmReread u s
  | .starvationLimit core => Sys2Proof.Machine.execStarvationLimit core s
  | .watchedWaitExpiry u => Sys2Proof.Machine.execWatchedWaitExpiry u s
  | .groupRestore n => Sys2Proof.Machine.execGroupRestore n s
  | .launchAccept n => Sys2Proof.Machine.execLaunchAccept n s
  | .teamAdmission gk => Sys2Proof.Machine.execTeamAdmission gk s
  | .gridComplete gk => Sys2Proof.Machine.execGridComplete gk s
  | .rd slice tag line sectors noalloc => Sys2Proof.Machine.execRd slice tag line sectors noalloc s
  | .wr slice tag line sectors masks data => Sys2Proof.Machine.execWr slice tag line sectors masks data s
  | .writePerformed ch n => Sys2Proof.Machine.execWritePerformed ch n s
  | .subGranuleMerge ch n => Sys2Proof.Machine.execSubGranuleMerge ch n s
  | .readServiceComplete ch n => Sys2Proof.Machine.execReadServiceComplete ch n s
  | .rdata ch n => Sys2Proof.Machine.execRdata ch n s
  | .wack ch n => Sys2Proof.Machine.execWack ch n s
  | .writeBufferDrain ch => Sys2Proof.Machine.execWriteBufferDrain ch s
  | .crustWriteback ch => Sys2Proof.Machine.execCrustWriteback ch s
  | .rowRemapComplete ch bank row => Sys2Proof.Machine.execRowRemapComplete ch bank row s
  | .patrolScrub gran => Sys2Proof.Machine.execPatrolScrub gran s
  | .bplAdd page => Sys2Proof.Machine.execBplAdd page s
  | .bplRemove page => Sys2Proof.Machine.execBplRemove page s
  | .bplCommandComplete => Sys2Proof.Machine.execBplCommandComplete s
  | .walkComplete core ctx va acc => Sys2Proof.Machine.execWalkComplete core ctx va acc s
  | .vminvRange => Sys2Proof.Machine.execVminvRange s
  | .vminvContext => Sys2Proof.Machine.execVminvContext s
  | .vminvAll => Sys2Proof.Machine.execVminvAll s
  | .vminvRefuseRange => Sys2Proof.Machine.execVminvRefuseRange s
  | .invalidationComplete => Sys2Proof.Machine.execInvalidationComplete s
  | .sideLogReplay core => Sys2Proof.Machine.execSideLogReplay core s
  | .epochEnd die => Sys2Proof.Machine.execEpochEnd die s
  | .pageExpansion die ctx va => Sys2Proof.Machine.execPageExpansion die ctx va s
  | .hqDoorbell q v => Sys2Proof.Machine.execHqDoorbell q v s
  | .hqbaseWrite q v => Sys2Proof.Machine.execHqbaseWrite q v s
  | .hqctxWrite q v => Sys2Proof.Machine.execHqctxWrite q v s
  | .hqctlWrite q v => Sys2Proof.Machine.execHqctlWrite q v s
  | .hqLaunch q => Sys2Proof.Machine.execHqLaunch q s
  | .hqRelease q => Sys2Proof.Machine.execHqRelease q s
  | .hqAcquire q => Sys2Proof.Machine.execHqAcquire q s
  | .hqJoin q => Sys2Proof.Machine.execHqJoin q s
  | .plctlWrite v => Sys2Proof.Machine.execPlctlWrite v s
  | .teardown => Sys2Proof.Machine.execTeardown s
  | .preempt ctx => Sys2Proof.Machine.execPreempt ctx s
  | .resume ctx => Sys2Proof.Machine.execResume ctx s
  | .contextSaveComplete ctx => Sys2Proof.Machine.execContextSaveComplete ctx s
  | .traceRingWrite die => Sys2Proof.Machine.execTraceRingWrite die s
  | .traceSyncTimer k => Sys2Proof.Machine.execTraceSyncTimer k s
  | .loss core => Sys2Proof.Machine.execLoss core s
  | .trctlWrite die v => Sys2Proof.Machine.execTrctlWrite die v s
  | .residueMismatch u => Sys2Proof.Machine.execResidueMismatch u s
  | .parityError u => Sys2Proof.Machine.execParityError u s
  | .strikeReport zone => Sys2Proof.Machine.execStrikeReport zone s
  | .sliceCricketReport slice => Sys2Proof.Machine.execSliceCricketReport slice s
  | .l1Uncorrectable core pa => Sys2Proof.Machine.execL1Uncorrectable core pa s
  | .proxyPlacementTimeout k => Sys2Proof.Machine.execProxyPlacementTimeout k s
  | .proxyTransferComplete k => Sys2Proof.Machine.execProxyTransferComplete k s
  | .proxyResume k => Sys2Proof.Machine.execProxyResume k s
  | .scoreDecay => Sys2Proof.Machine.execScoreDecay s
  | .unitTestComplete kind index res => Sys2Proof.Machine.execUnitTestComplete kind index res s
  | .cnscntWrite v => Sys2Proof.Machine.execCnscntWrite v s
  | .hostBar2Read off n => Sys2Proof.Machine.execHostBar2Read off n s
  | .hostBar2Write off bytes => Sys2Proof.Machine.execHostBar2Write off bytes s
  | .hostCompletionTimeout n => Sys2Proof.Machine.execHostCompletionTimeout n s
  | .peerInboundRequest rq => Sys2Proof.Machine.execPeerInboundRequest rq s
  | .peerReplyTimeout n => Sys2Proof.Machine.execPeerReplyTimeout n s
  | .peerRetry core => Sys2Proof.Machine.execPeerRetry core s
  | .peerStoreDrop core => Sys2Proof.Machine.execPeerStoreDrop core s
  | .peerPortDown p => Sys2Proof.Machine.execPeerPortDown p s
  | .peerPortUp p => Sys2Proof.Machine.execPeerPortUp p s
  | .packageReset => Sys2Proof.Machine.execPackageReset s
  | .bootStageComplete => Sys2Proof.Machine.execBootStageComplete s
  | .bootStageTimeout => Sys2Proof.Machine.execBootStageTimeout s
  | .mbAttest => Sys2Proof.Machine.execMbAttest s
  | .mbImageWrite => Sys2Proof.Machine.execMbImageWrite s
  | .mbSlotActivate => Sys2Proof.Machine.execMbSlotActivate s
  | .mbCertRead => Sys2Proof.Machine.execMbCertRead s
  | .mbRestart => Sys2Proof.Machine.execMbRestart s
  | .mailboxComplete => Sys2Proof.Machine.execMailboxComplete s
  | .powerControl watts temp step => Sys2Proof.Machine.execPowerControl watts temp step s
  | .pwrctlWrite v => Sys2Proof.Machine.execPwrctlWrite v s
  | .thermalTrip => Sys2Proof.Machine.execThermalTrip s
  | .registerWrite off v => Sys2Proof.Machine.execRegisterWrite off v s
  | .l2SliceRequest rq => Sys2Proof.Machine.execL2SliceRequest rq s
  | .memberContribution n j c => Sys2Proof.Machine.execMemberContribution n j c s
  | .powerLoss => Sys2Proof.Machine.execPowerLoss s

end Sys2Proof.Machine
end

