-- ==== Sys2Proof/Machine/Pace.lean ====
section
/-! DEFINITION. The cycles that words take: fixed latencies with their interlock, main-file reads, issue intervals of pipes, and
the cycles after a transfer (spec/08 R181, spec/10 R218, spec/11 R238-R239, spec/17 R373; LOG 3, 54). -/

namespace Sys2Proof.Machine

/-! ## Latencies -/

/-- Cycles to the result of a word whose latency is fixed; zero for words that deliver otherwise (R208, R218, R238, R250, R257). -/
def fixedLatency (i : Instr) : Nat :=
  match i with
  | .imul _ _ _ _ _ w | .imulhI _ _ _ _ _ w | .imulhN _ _ _ _ _ w | .imad _ _ _ _ _ w => if w = .w64 then 8 else 6
  | .censusNz _ _ _ _ | .censusLsb _ _ _ _ | .censusSgn _ _ _ _ | .routeFrom _ _ _ _ _ _ | .routeRot _ _ _ _ _ _
  | .routeShift _ _ _ _ _ _ | .routeFlip _ _ _ _ _ _ | .peers _ _ _ _ _ => 6
  | .movs _ _ _ _ _ => 3
  | .fadd _ _ _ _ _ _ _ | .fsub _ _ _ _ _ _ | .fmul _ _ _ _ _ _ _ | .ffma _ _ _ _ _ _ _ | .ffms _ _ _ _ _ _ _
  | .fnma _ _ _ _ _ _ _ | .fscale _ _ _ _ _ _ | .fcvt _ _ _ _ _ _ _ | .ffrexp _ _ _ _ _ => 5
  | .pkadd16 _ _ _ _ _ _ _ | .pkmul16 _ _ _ _ _ _ | .pkfma16 _ _ _ _ _ _ | .pkfna16 _ _ _ _ _ _ | .cvtn _ _ _ _ _ _ _
  | .dot4I8 _ _ _ _ _ | .dot4N8 _ _ _ _ _ | .dot8E4m3 _ _ _ _ _ | .dot8E5m2 _ _ _ _ _ | .sclx _ _ _ _ _ _
  | .scls _ _ _ _ _ _ | .pkaddF32 _ _ _ _ _ _ | .pkmulF32 _ _ _ _ _ | .pkfmaF32 _ _ _ _ _ | .pkfnaF32 _ _ _ _ _ => 5
  | i => if i.pipe = .v then 4 else 0

/-- Words that occupy their vector pipe for two cycles (R218). -/
def twoCycles (i : Instr) : Bool :=
  match i with
  | .imul _ _ _ _ _ w | .imulhI _ _ _ _ _ w | .imulhN _ _ _ _ _ w | .imad _ _ _ _ _ w => w == .w64
  | _ => false

/-- The issue interval of the special-function pipe; `far` operands double it (R238). -/
def sfInterval (i : Instr) (far : Bool) : Nat :=
  let by' (w : FWidth) (a b : Nat) : Nat := if w = .f64 then b else a
  let n := match i with
    | .fdiv _ _ _ _ _ _ w | .fsqrt _ _ _ _ _ w => by' w 4 8
    | .frcp _ _ _ _ _ w | .frsq _ _ _ _ _ w | .fexp2 _ _ _ _ w | .flog2 _ _ _ _ w => by' w 2 6
    | .fsin _ _ _ _ w | .fcos _ _ _ _ w | .ftanh _ _ _ _ w => by' w 2 8
    | _ => 1
  if far then 2 * n else n

/-! ## Before issue -/

/-- Names that a word reads from the main file: those outside the working set, and ages from ^9 on (R181). -/
def mainReads (g : Group) (us : Uses) : Nat :=
  let names := us.v.foldl (fun l n => if g.regs.ws.getLsbD n then l else insNat l n) []
  let ages := us.ages.foldl (fun l n => if n < 8 then l else insNat l n) []
  names.length + ages.length

/-- The cycle from which the results of fixed latency that a word uses can be read; `n` entries stand in the result queue before
those of its chain's beginning (R208, R218). -/
def Group.operandsAt (g : Group) (sp : Split) (us : Uses) (n : Nat) : Nat :=
  let at' (k : Nat) : Nat := (NMap.get? g.ready k).getD 0
  let ages := us.ages.map fun a => if a < n then 0 else sp.queue.getD (a - n) 0
  ((us.v ++ us.d).map at' ++ us.s.map (fun x => at' (32 + x)) ++ (us.pr ++ us.pw).map (fun x => at' (64 + x)) ++ ages).foldl max 0

/-- The earliest cycle of a chain: its operands' and the first one after the split's last word or transfer, with one more for every
further main-file read of a word. The reads go on while the word waits for operands, as the ICMP of the run of spec/23 shows, and
a split that has not issued since its admission has had that time already (R181, R218, R373; LOG 3, 54). -/
def Group.earliest (g : Group) (sp : Split) : List Instr → Nat → Nat
  | [], _ => sp.ready
  | i :: l, n =>
    let more := if sp.ready = 0 then 0 else mainReads g i.uses - 1
    max (max (sp.ready + more) (g.operandsAt sp i.uses n)) (g.earliest sp l (n + i.pushes))

/-- What a core's pipe notes (R218, R238, R429): pipes 0 and 1 vector, 2 special function, 3 memory, 4 control; 6 and 7 the first
cycle of what the vector pipes note. -/
def pipeAt (s : State) (core p : Nat) : Nat := (NMap.get? s.eng.pipes (core * 8 + p)).getD 0

/-- Vector pipes of a core that a word of an earlier cycle still occupies (R218, R429). -/
def busyPipes (s : State) (core : Nat) : Nat :=
  (([0, 1] : List Nat).filter fun p =>
    decide (s.clock.cycle < pipeAt s core p) && decide (pipeAt s core (6 + p) < s.clock.cycle)).length

/-- A pipe of which a core has one takes a word (R238, R429). -/
def pipeFree (s : State) (core p : Nat) : Bool := decide (pipeAt s core p ≤ s.clock.cycle)

/-! ## The memory pipe -/

/-- Lines that lanes' addresses touch, after translation; an unmapped page's lines count by their virtual address (R75). -/
def Cx.linesOf (c : Cx) (ls : List (Nat × Nat)) : Nat :=
  (ls.foldl (fun (acc : List (Option (Nat × Nat) × Nat)) e =>
    let line := match leafNow c.s c.g.info.ctx e.2 with
      | some (l, pa, _, _) => (some (l.tgt, l.peer), pa / 128)
      | none => (none, e.2 / 128)
    if acc.contains line then acc else line :: acc) []).length

/-- Scratchpad cycles of an access: those of the lanes that it does not switch off (R87, R91). -/
def Cx.scratchCycles (c : Cx) (load : Bool) (size : Nat) (ls : List (Nat × Nat)) : Nat :=
  let bad := c.violations load size ls
  bankCycles size (ls.filter fun e => !(bad.any fun b => b.1 == e.1))

/-- Cycles for which a word keeps the memory pipe: one for each line that its lanes touch, or for each scratchpad cycle
(R75, R305). -/
def Cx.pipeCycles (c : Cx) (i : Instr) : Nat :=
  match i with
  | .ld g _ _ a o _ ty | .st g _ a o _ ty | .atom g _ _ a o _ _ ty _ _ | .red g _ a o _ _ ty _ | .acas g _ _ a o _ ty _ _ _
  | .axch g _ _ a o _ ty _ _ => c.linesOf (c.addrs a o (MemTy.size ty) (c.guard g))
  | .ldl g _ _ a o _ ty => c.scratchCycles true (MemTy.size ty) (c.addrs a o (MemTy.size ty) (c.guard g))
  | .stl g _ a o _ ty => c.scratchCycles false (MemTy.size ty) (c.addrs a o (MemTy.size ty) (c.guard g))
  | .waitm _ g _ a _ _ => c.linesOf ((c.guard g).lanes.map fun x => (x, ((c.rd.reg a.val).lane x).toNat))
  | .pref _ g a _ => c.linesOf ((c.hints g a).map fun x => (0, x.2.2))
  | _ => 1

/-- Cycles for which a unit's word keeps the memory pipe of its core: its groups' one after another, each at least one (R75, R305,
R429). `s` is the state before its chain, which every word of the chain reads (R201). -/
def memCycles (s : State) (u : UnitRef) (i : Instr) : Nat :=
  ((unitGroups s u).map fun k =>
    match cx? i { s with sel := ⟨coreOf k, slotOf k, u.split⟩, pre := none } with
    | some c => max 1 (c.pipeCycles i)
    | none => 1).foldl (· + ·) 0

/-! ## After issue -/

/-- Puts off the delivery of the word at a place, which the pipe performs a second time (R239). -/
def putOff (now : Nat) (pc : Pc) : List Pending → List Pending
  | [] => []
  | p :: l =>
    if p.prod = pc ∧ !(l.any fun q => q.prod == pc) then
      { p with on := match p.on with
          | .cycle n => .cycle (2 * n - now)
          | o => o } :: l
    else p :: putOff now pc l

/-- Notes when the results of a chain's words, issued now from `pc` on, can be read; a word whose residue check failed once is
performed again in place, which adds its latency once (R218, R238, R239). -/
def Group.paced (g : Group) (split now : Nat) : List Instr → Pc → Group
  | [], _ => g
  | i :: l, pc =>
    let again := match g.repeated with
      | some (n, at?, _) => n == split && at? == pc
      | none => false
    let t := now + (if again then 2 else 1) * fixedLatency i
    let us := i.uses
    let names := if fixedLatency i = 0 then [] else us.d ++ (if i.pipe = .ctl then us.s.map (32 + ·) else []) ++ us.pw.map (64 + ·)
    let late (sp : Split) : Split :=
      if sp.id = split then { sp with queue := (List.replicate i.pushes t ++ sp.queue).take 16 } else sp
    let g := { g with
      ready := names.foldl (fun m n => NMap.set m n t) g.ready
      splits := if i.pushes = 0 then g.splits else g.splits.map late
      pend := if again then putOff now pc g.pend else g.pend
      repeated := if again then none else g.repeated }
    g.paced split now l (pc.add i.width)

/-- The words of major 0x3C but NOP: the split goes on at the packet that the word gives, or at the next one (R373). -/
def Instr.steers : Instr → Bool
  | .ifW _ _ _ | .elseW _ _ | .endif _ | .loopW _ _ _ | .endloop _ _ | .brk _ _ | .cont _ _ | .jmp _ _ _ | .call _ _ _
  | .ret _ _ | .exit _ _ => true
  | _ => false

/-- A NOP behind its packet's first slot: it takes neither an issue slot nor a cycle, as the runs of spec/23 and spec/24 show
(R200, R429; LOG 54). -/
def freeWords (ws : List Instr) (pc : Pc) : Bool :=
  match ws with
  | [.nop _] => pc.slot != 0
  | _ => false

/-- The split that has issued a chain issues again from the next cycle on, and four cycles after a control word, which changes its
PC even where it falls through, or after another word that has moved it (R373, R490-R492; LOG 54). After a free NOP
nothing has changed for it. `old` is the split before the chain. -/
def Group.nextAt (g : Group) (old : Split) (now : Nat) (ws : List Instr) : Group :=
  let pc := old.pc
  let next := ws.foldl (fun (p : Pc) i => p.add i.width) pc
  let last (f : Instr → Bool) : Bool := (ws.getLast?.map f).getD false
  let jumped (sp : Split) : Bool := last Instr.steers ||
    (sp.pc != next && sp.pc != ⟨pc.packet + 1, 0⟩ && last fun i => i.pipe == .ctl)
  let after (sp : Split) : Split := if freeWords ws pc then { sp with lastIssue := old.lastIssue }
    else { sp with ready := now + if jumped sp then 4 else 1 }
  { g with splits := g.splits.map fun sp => if sp.id = old.id then after sp else sp }

/-- The result of the word at a place waits as long as operands beyond the ranges of R174 make it (R238). -/
def farResult (g : Group) (now : Nat) (pc : Pc) : Bool :=
  match (g.pend.filter fun p => p.prod == pc).getLast? with
  | some p => (match p.on with
    | .cycle n => decide (now + 48 ≤ n)
    | _ => false)
  | none => false

/-- The pipes of a core that a chain's words, issued now from `pc` on, occupy beyond this cycle: a word of a unit of `size` groups
takes that many times as long, and one of the memory pipe `mem` cycles (R75, R218, R238, R305, R429). -/
def occupy (size : Nat) (mem : Instr → Nat) (g : Option Group) (core : Nat) : List Instr → Pc → State → State
  | [], _, s => s
  | i :: l, pc, s =>
    let now := s.clock.cycle
    let put (p n : Nat) (s : State) : State := s.onEng fun e => { e with pipes := NMap.set e.pipes (core * 8 + p) n }
    let free := if pipeAt s core 0 ≤ now then 0 else 1
    let s := match i.pipe with
      | .sf => put 2 (now + size * sfInterval i ((g.map fun g => farResult g now pc).getD false)) s
      | .v =>
        let n := if twoCycles i then 2 * size else size
        if n ≤ 1 then s else put free (now + n) (put (6 + free) now s)
      | .mem => if mem i ≤ 1 then s else put 3 (now + mem i) s
      | .ctl => if size ≤ 1 then s else put 4 (now + size) s
      | .none => s
    occupy size mem g core l (pc.add i.width) s

end Sys2Proof.Machine
end

