-- ==== Sys2Proof/Machine/Chain.lean ====
section
/-! DEFINITION. Fetching a packet, reading its chains, and issuing one chain of a unit: whole or not at all, for every
group of a role (spec/09 R198-R212, spec/16 R356, spec/19 R428-R429, spec/20 R436-R437). -/

namespace Sys2Proof.Machine

/-! ## Fetch -/

/-- What a fetch gives: bytes, a trap, or a hold. -/
inductive Fetched where
  | bytes (bs : List Byte)
  | trap (t : Trap)
  | held (h : Hold)
  deriving DecidableEq, Repr

/-- Fetches bytes of one page (R35, R44, R55, R58, R199, R437): device memory at once, with what the read finds there, host and
peer memory by a request. -/
def Cx.fetchPart (c : Cx) (key va n : Nat) : Fetched × Cx :=
  if wildAddr (va + n - 1) then (.trap ⟨causeProt, false, none, w64 va, 0⟩, c)
  else
    let (x, s) := translate c.s c.k none c.g.info.ctx va .fetch false
    let c := { c with s := s }
    match x with
    | .denied => (.trap ⟨causeFetchNx, false, none, w64 va, 0⟩, c)
    | .wait => (.held (.fault c.g.info.ctx [(0, va)] .fetch), c)
    | .ok l pa =>
      if l.tgt = 0 then
        let s := touchPhys s pa n c.g.info.ctx
        let c := { c with s := s }
        if physPoison s pa n then (.trap ⟨causePoison, false, none, w64 (va / 32 * 32), 0⟩, c)
        else (.bytes (physRead s pa n), c)
      else
        let (r, c) := c.farRead key l pa va n
        match r with
        | .got bs false => (.bytes bs, c)
        | .got _ true => (.trap ⟨causePoison, false, none, w64 (va / 32 * 32), 0⟩, c)
        | .failed code => (.trap ⟨causeRemote, false, none, w64 va, w64 code⟩, c)
        | .waiting => (.held .order, c)

/-- Fetches the packet at which a split stands, both parts of one that straddles a page (R199, R437). -/
def Cx.fetchPacket (c : Cx) : Fetched × Cx :=
  let va := c.g.info.code + 12 * c.sp.pc.packet
  let n := min 12 (2 ^ 16 - va % 2 ^ 16)
  let (x, c) := c.fetchPart 64 va n
  match x with
  | .bytes a =>
    if n = 12 then (.bytes a, c)
    else
      let (y, c) := c.fetchPart 65 (va + n) (12 - n)
      match y with
      | .bytes b => (.bytes (a ++ b), c)
      | r => (r, c)
  | r => (r, c)

/-- The three words of a packet's bytes (R198, R199). -/
def packetWords (bs : List Byte) : List Nat := (List.range 3).map fun i => leNat ((bs.drop (4 * i)).take 4)

/-! ## Chains -/

/-- The words of the chain that starts a list of words (R200). -/
def chainWords : List Nat → List Nat
  | [] => []
  | w :: ws => if fld w 31 1 = 1 then w :: chainWords ws else [w]

/-- A word requires a modifier: the M format, MMAS and TREF (R207). -/
def needsModifier (w : Nat) : Bool :=
  let m := fld w 25 6
  (decide (0x30 ≤ m) && decide (m ≤ 0x36)) || m == 0x2B || (m == 0x2E && fld w 2 2 == 2)

/-- A field of six bits holds LIT (R205). -/
def litAt (w lo : Nat) : Bool := fld w lo 6 == 63

/-- A word names LIT in one of its source fields, by its format (R203, R205, R210). -/
def namesLit (w : Nat) : Bool :=
  let m := fld w 25 6
  let f5 := fld w 12 5
  if m = 0x17 ∨ m = 0x1A ∨ m = 0x1B ∨ m = 0x21 then litAt w 10
  else if m = 0x02 ∨ m = 0x12 ∨ m = 0x13 ∨ m = 0x14 then litAt w 14 || litAt w 8
  else if m = 0x0A then false
  else if m ≤ 0x0C ∨ (0x10 ≤ m ∧ m ≤ 0x19) ∨ (0x20 ≤ m ∧ m ≤ 0x24) then litAt w 10 || litAt w 4
  else if m = 0x2C then litAt w 4
  else if m = 0x38 ∨ m = 0x3B then litAt w 6 || litAt w 0
  else if m = 0x39 then (f5 == 1 && litAt w 6) || (f5 == 3 && litAt w 0)
  else if m = 0x3A then f5 == 0 && litAt w 6
  else if m = 0x3D then
    if f5 = 0 ∨ f5 = 2 ∨ f5 = 3 then litAt w 6 || litAt w 0
    else if f5 = 1 then litAt w 6
    else ([4, 6, 8, 10, 13, 16] : List Nat).contains f5 && litAt w 0
  else if m = 0x3E then ([0, 4, 5] : List Nat).contains f5 && (litAt w 6 || litAt w 0)
  else false

/-- The pipe of a word whose encoding is illegal, by its major (R200). -/
def majorPipe (w : Nat) : Pipe :=
  let m := fld w 25 6
  if m = 0x07 ∧ fld w 1 3 = 1 then .ctl
  else if m ≤ 0x0C ∨ (0x10 ≤ m ∧ m ≤ 0x18) ∨ (0x20 ≤ m ∧ m ≤ 0x24) then .v
  else if 0x19 ≤ m ∧ m ≤ 0x1B then .sf
  else if (0x30 ≤ m ∧ m ≤ 0x39) ∨ m = 0x3B ∨ m = 0x3E then .mem
  else if (0x28 ≤ m ∧ m ≤ 0x2E) ∨ m = 0x3A ∨ m = 0x3C ∨ m = 0x3D then .ctl
  else .none

/-- What a chain holds: an instruction, a word with an illegal encoding, a literal word that nothing asks for, or a word
whose literal is missing (R202, R212). -/
inductive ChainItem where
  | ins (i : Instr)
  | bad (w : Nat)
  | stray
  | missing (w : Nat)
  deriving DecidableEq, Repr

/-- One instruction of a chain. A chain bit set in slot 2 is reason 0x1, whatever the word. -/
def chainItem (w : Nat) (nx : Option Nat) : ChainItem :=
  match decodeInstr w nx with
  | .ok i => .ins i
  | .error _ => .bad w

/-- The items of a chain's words (R202, R206, R207). -/
def chainItems : List Nat → List ChainItem
  | [] => []
  | [w] =>
    if isLitWord w then [.stray]
    else if needsModifier w || namesLit w then [.missing w]
    else [chainItem w none]
  | w :: x :: ws =>
    if isLitWord w then .stray :: chainItems (x :: ws)
    else if needsModifier w || namesLit w then
      if isLitWord x then chainItem w (some x) :: chainItems ws else .missing w :: chainItems (x :: ws)
    else chainItem w (some x) :: chainItems (x :: ws)

/-- The pipe an item uses. -/
def ChainItem.pipe : ChainItem → Pipe
  | .ins i => i.pipe
  | .bad w => majorPipe w
  | .missing w => majorPipe w
  | .stray => .none

/-- The pipes that items use together (R200). -/
def pipesOf (l : List ChainItem) : Pipes :=
  let count (p : Pipe) : Nat := (l.filter fun x => ChainItem.pipe x == p).length
  ⟨count .v, count .sf, count .mem, count .ctl⟩

/-- Two vector pipes and one of each other kind (R200, R429). -/
def Pipes.fit (p : Pipes) : Bool := decide (p.v ≤ 2) && decide (p.sf ≤ 1) && decide (p.mem ≤ 1) && decide (p.ctl ≤ 1)

/-- Both chains' pipes. -/
def Pipes.add (p q : Pipes) : Pipes := ⟨p.v + q.v, p.sf + q.sf, p.mem + q.mem, p.ctl + q.ctl⟩

/-- Some names of `a` are in `b`. -/
def meets (a b : List Nat) : Bool := a.any b.contains

/-- The instruction whose names an item has: a word whose literal is missing names what it names with one (R202). -/
def ChainItem.named : ChainItem → Option Instr
  | .ins i => some i
  | .missing w => match decodeInstr (w % 2 ^ 31 + 2 ^ 31) (some 0x7E000000) with
    | .ok i => some i
    | .error _ => none
  | .bad _ | .stray => none

/-- A word uses what an earlier word of its chain writes or pushes, or both name one k-queue (R202 reason 0x3): `d`, `pw`,
`n` and `q` are the registers, predicates, pushes and queues of the earlier words. -/
def hazard : List ChainItem → List Nat → List Nat → Nat → List Nat → Bool
  | [], _, _, _, _ => false
  | x :: l, d, pw, n, q =>
    match x.named with
    | some i =>
      let u := i.uses
      let k := u.pop ++ u.push
      meets (u.v ++ u.d) d || meets (u.pr ++ u.pw) pw || (u.ages.any fun a => decide (a < n)) || meets k q ||
        hazard l (d ++ u.d) (pw ++ u.pw) (n + i.pushes) (q ++ k)
    | none => hazard l d pw n q

/-- An item ends its chain: majors 0x3C, but NOP, and 0x3D (R202 reason 0x6). -/
def ChainItem.ends : ChainItem → Bool
  | .ins i => i.endsChain
  | .bad w | .missing w => fld w 25 6 == 0x3D || (fld w 25 6 == 0x3C && fld w 20 5 != 11)
  | .stray => false

/-- A word that ends its chain has an instruction after it. -/
def goesOn : List ChainItem → Bool
  | [] => false
  | x :: l => (x.ends && l.any fun y => y != .stray) || goesOn l

/-- Why a chain is malformed, by the lowest code; `over'` says that its last word has C = 1 in slot 2 (R202). -/
def packetFault (over' : Bool) (l : List ChainItem) : Option Nat :=
  if over' then some 1
  else if !(pipesOf l).fit then some 2
  else if hazard l [] [] 0 [] then some 3
  else if l.any fun x => x == .stray then some 4
  else if l.any fun x => match x with
    | .missing _ => true
    | _ => false then some 5
  else if goesOn l then some 6
  else none

/-- The words that an item takes. -/
def ChainItem.width : ChainItem → Nat
  | .ins i => i.width
  | _ => 1

/-! ## Running one chain of one group -/

/-- How a chain of a group ended: after its last word, held, or stopped by a trap or rollback; `n` words have issued. -/
inductive Ended where
  | done
  | held
  | stopped
  deriving DecidableEq, Repr

/-- A run of a chain: the state, the words that issued, and the end. -/
structure Ran where
  s : State
  n : Nat
  how : Ended

/-- The split in hand of a unit. -/
def unitSplit (s : State) (k split : Nat) : Option Split := (s.group? k).bind fun g => g.split? split

/-- Runs one item at the split's word. -/
def runItem (s : State) (x : ChainItem) : Out :=
  match x with
  | .ins i => exec i s
  | .bad w =>
    match cx? (.nop false) s with
    | none => .fault .noUnit
    | some c => .next (c.raise causeIllegal (if fld w 25 6 = 0x3E then 4 else 0))
  | _ => .next s

/-- The hold that stands at a word keeps its chain: it moves from the word to the chain's first word (R201). A region that
the hold reopened starts there too. -/
def holdChain (s : State) (k split : Nat) (start word : Pc) : State :=
  s.onGroup k fun g =>
    match g.split? split with
    | none => g
    | some sp =>
      let r := g.region.map fun r =>
        if r.start = word then { r with start := start, snap := { r.snap with pc := start } } else r
      { g with region := r }.setSplit { sp with pc := start }

/-- A word after the first of its chain is held: the chain has not issued. The hold is what the word meets when the earlier
words have not issued, or else the hold that it met after them (R201). A commit that the word itself asks for stands at the
word: the earlier words have issued then. -/
def holdLater (s₀ s : State) (k split : Nat) (start word : Pc) (x : ChainItem) : Out :=
  match unitSplit s k split with
  | some sp =>
    let own : Bool := match ((s.group? k).bind Group.region).map Region.after with
      | some .close | some .exit => sp.hold == some .commit
      | _ => false
    if sp.pc != word || sp.hold.isNone || own then .next s
    else
      let s₁ := s₀.onGroup k fun g => match g.split? split with
        | some y => g.setSplit { y with pc := word, arrive := none }
        | none => g
      match runItem { s₁ with pre := none } x with
      | .next t =>
        if t.last = .held ∧ ((unitSplit t k split).map Split.pc) = some word then .next (holdChain t k split start word)
        else .next (s₀.onGroup k fun g => match g.split? split with
          | some y => g.setSplit { y with hold := sp.hold, waitStart := sp.waitStart, reread := sp.reread, got := sp.got, watch := sp.watch, logMark := sp.logMark }
          | none => g)
      | r => r
  | none => .next s

/-- A trap that was taken after its word has issued counts that word: RP lies past it (R436). -/
def passed (s : State) (k split : Nat) (word : Pc) : Nat :=
  match (s.group? k).bind Group.trap with
  | some ts => b2n (ts.split == split && ts.rp != word)
  | none => 0

/-- Runs the items of a chain in order (R201): `s₀` and `start` are the state and the word before the chain, `n` counts the
words that have issued. -/
def runItems (s₀ : State) (k split : Nat) (start : Pc) : List ChainItem → Nat → State → Except Fault Ran
  | [], n, s => .ok ⟨s, n, .done⟩
  | x :: l, n, s =>
    let word := ((unitSplit s k split).map Split.pc).getD start
    match runItem s x with
    | .next t =>
      match t.last with
      | .issued =>
        if l.isEmpty ∨ ((unitSplit t k split).map Split.pc) = some (word.add x.width) then
          runItems s₀ k split start l (n + 1) t
        else .ok ⟨t, n + 1, .done⟩
      | .held =>
        if n = 0 then .ok ⟨t, 0, .held⟩
        else
          match holdLater s₀ t k split start word x with
          | .next u => .ok ⟨u, n, .held⟩
          | .fault f => .error f
          | .refused _ => .ok ⟨t, n, .held⟩
      | _ => .ok ⟨t, n + passed t k split word, .stopped⟩
    | .fault f => .error f
    | .refused _ => .ok ⟨s, n, .stopped⟩

/-- The chain at which a split stands, read from its packet's words: its items, and why it is malformed. -/
def readChain (ws : List Nat) (slot : Nat) : List ChainItem × Option Nat :=
  let c := chainWords (ws.drop slot)
  let l := chainItems c
  let over' := decide (slot + c.length = 3) && ((c.getLast?.map fun w => fld w 31 1 == 1).getD false)
  (l, packetFault over' l)

/-- What a split's next chain is: its items, a trap in its place, or a hold of its fetch (R212 steps 1 and 2). -/
inductive Next where
  | chain (l : List ChainItem)
  | trap (t : Trap) (xpc : Pc)
  | held (h : Hold)
  deriving DecidableEq, Repr

/-- Fetches and reads the chain at which a group's split stands. -/
def Cx.nextChain (c : Cx) : Next × Cx :=
  let (f, c) := c.fetchPacket
  match f with
  | .held h => (.held h, c)
  | .trap t => (.trap t ⟨c.sp.pc.packet, 0⟩, c)
  | .bytes bs =>
    match readChain (packetWords bs) c.sp.pc.slot with
    | (_, some n) => (.trap (Trap.word causeIllpkt n) c.sp.pc, c)
    | (l, none) => (.chain l, c)

/-- The instructions of items. -/
def itemWords (l : List ChainItem) : List Instr := l.filterMap fun x => match x with
  | .ins i => some i
  | _ => none

/-- Runs at most `limit` words of the chain at which a group's split stands, and notes when their results can be read (R218). A
trap in the chain's place waits until nothing is pending (R436). -/
def runChain (s : State) (k split limit : Nat) : Except Fault Ran :=
  let u : UnitRef := ⟨coreOf k, slotOf k, split⟩
  match cx? (.nop false) { s with sel := u, pre := none } with
  | none => .ok ⟨s, 0, .stopped⟩
  | some c =>
    let (x, c) := c.nextChain
    match x with
    | .held h => .ok ⟨c.held h, 0, .held⟩
    | .trap t xpc =>
      if limit = 0 then .ok ⟨c.st, 0, .done⟩
      else if c.g.pend.isEmpty then .ok ⟨takeTrap c.st k split t xpc c.sp.pc false, 0, .stopped⟩
      else .ok ⟨c.held .operand, 0, .held⟩
    | .chain l =>
      let s := c.st
      let pre := if l.length ≤ 1 then none else s.group? k
      match runItems s k split c.sp.pc (l.take limit) 0 { s with pre := pre } with
      | .ok r =>
        let ws := itemWords (l.take r.n)
        let pace (g : Group) : Group := (g.paced split s.clock.cycle ws c.sp.pc).nextAt c.sp s.clock.cycle ws
        let t := { r.s with pre := none }
        .ok { r with s := if r.how = .held ∨ r.n = 0 then t else t.onGroup k pace }
      | .error f => .error f

/-! ## Roles -/

/-- A trap that a role's other group has stopped: the frame registers come back, the split goes on after its word (R356). -/
def undoTrap (s : State) (k : Nat) (old : Option Group) : State :=
  match s.group? k, old with
  | some g, some o =>
    match g.trap, o.trap with
    | some ts, none =>
      (returnTrap s k ts).onGroup k fun x => x.onSys fun y =>
        { y with xpc := o.sys.xpc, xmask := o.sys.xmask, xcause := o.sys.xcause, xaddr := o.sys.xaddr, xinfo := o.sys.xinfo }
    | _, _ => s
  | _, _ => s

/-- Runs the groups of a role one after another: the state, and per group how its chain ended, in their order. -/
def runGroups (split limit : Nat) : List Nat → State → Except Fault (State × List (Nat × Ran))
  | [], s => .ok (s, [])
  | k :: ks, s =>
    match runChain s k split limit with
    | .error f => .error f
    | .ok r =>
      match runGroups split limit ks r.s with
      | .error f => .error f
      | .ok (t, l) => .ok (t, (k, r) :: l)

/-- Every group of a role keeps the hold of the one that is held (R356). -/
def holdRole (s : State) (ks : List Nat) (split held : Nat) : State :=
  match unitSplit s held split with
  | none => s
  | some h =>
    ks.foldl (fun s k => s.onGroup k fun g =>
      match g.split? split with
      | some y => g.setSplit { y with hold := h.hold, waitStart := h.waitStart }
      | none => g) s

/-- Runs a role's chain (R356, R440): for all its groups or for none. The group that a trap stops takes it; the others go as
far, and take none of their own. -/
def runRole (s : State) (ks : List Nat) (split : Nat) : Except Fault Ran :=
  match runGroups split 3 ks s with
  | .error f => .error f
  | .ok (t, rs) =>
    match rs.find? fun r => r.2.how == .held with
    | some (k, _) =>
      match runChain s k split 3 with
      | .error f => .error f
      | .ok r => .ok ⟨holdRole r.s ks split k, 0, .held⟩
    | none =>
      let stops := (rs.filter fun r => r.2.how == .stopped).map fun r => (r.1, r.2.n)
      match stops with
      | [] => .ok ⟨t, (rs.map fun r => r.2.n).foldl max 0, .done⟩
      | x :: l =>
        let (k, n) := l.foldl (fun (b : Nat × Nat) y => if y.2 < b.2 then y else b) x
        let others := ks.filter (· != k)
        match runGroups split n others s with
        | .error f => .error f
        | .ok (u, _) =>
          let u := others.foldl (fun u j => undoTrap u j (s.group? j)) u
          match runChain u k split 3 with
          | .error f => .error f
          | .ok r => .ok ⟨r.s, r.n, .stopped⟩

/-! ## Issuing a unit -/

/-- Pipes taken on a core in this cycle, and the chains that took them (R429). -/
def coreSlots (s : State) (core : Nat) : List Pipes := (s.slots.filter fun x => x.1 == core).map Prod.snd

/-- The items of a unit's next chain: none where a trap or a hold takes its place. -/
def unitItems (s : State) (u : UnitRef) : List ChainItem :=
  match cx? (.nop false) { s with sel := u, pre := none } with
  | none => []
  | some c =>
    match c.nextChain.1 with
    | .chain l => l
    | _ => []

/-- The pipes that a unit's next chain needs. -/
def unitPipes (s : State) (u : UnitRef) : Pipes := pipesOf (unitItems s u)

/-- No group of a role stands: a proxy, a halt, an emulation or a pending trap of one holds the whole role (R356). -/
def roleFree (s : State) (ks : List Nat) : Bool :=
  ks.all fun k => ((s.group? k).map fun g => !g.stands).getD false

/-- The core of a unit has an issue slot and pipes left for its next chain in this cycle (R218, R238, R429). -/
def unitFits (s : State) (u : UnitRef) : Bool :=
  let taken := coreSlots s u.core
  let mine := unitPipes s u
  let all := taken.foldl Pipes.add mine
  decide (taken.length < 2) && all.fit && decide (all.v + busyPipes s u.core ≤ 2) && (mine.sf == 0 || pipeFree s u.core 2) &&
    (mine.mem == 0 || pipeFree s u.core 3) && (mine.ctl == 0 || pipeFree s u.core 4)

/-- The cycles that a unit's next chain must wait for are over, in every group of its role (R181, R218, R373). -/
def unitReady (s : State) (u : UnitRef) : Bool :=
  (unitGroups s u).all fun k =>
    match s.group? k, unitSplit s k u.split with
    | some g, some sp => decide (g.earliest sp (itemWords (unitItems s u)) 0 ≤ s.clock.cycle)
    | _, _ => true

/-- A unit is one of its core's that may issue, and no group of its role is held outside it (R428). -/
def unitRuns (s : State) (u : UnitRef) : Bool :=
  ((unitsOf s u.core).any fun x => x.1 == u) && roleFree s (unitGroups s u)

/-- Issues the next chain of a unit, if its core has an issue slot and pipes for it in this cycle and what it uses can be read
(R200, R218, R428, R429). A chain that is held takes no slot; after a free NOP the unit's turn stands. -/
def issueUnit (s : State) (u : UnitRef) : Out :=
  let line := s.issuing
  let s := { s with issuing := s.issuing.filter (· != u) }
  if !unitRuns s u || !unitFits s u || !unitReady s u then .next s
  else
    let r := match unitGroups s u with
      | [k] => runChain s k u.split 3
      | ks => runRole s ks u.split
    match r with
    | .error f => .fault f
    | .ok r =>
      if r.how = .held then .next { r.s with slots := s.slots }
      else
        let pc := ((unitSplit s (unitKey u) u.split).map Split.pc).getD ⟨0, 0⟩
        let ws := itemWords ((unitItems s u).take r.n)
        if freeWords ws pc then .next { r.s with slots := s.slots, issuing := line }
        else
          let t := occupy (unitGroups s u).length (memCycles s u) (r.s.group? (unitKey u)) u.core ws pc r.s
          .next { t with slots := s.slots ++ [(u.core, unitPipes s u)] }

end Sys2Proof.Machine
end

