-- ==== Sys2Proof/Machine/Agenda.lean ====
section
/-! DEFINITION. Which of the machine's own events comes next, the tick of the clock, and the body of a step (spec/01 R14-R15,
spec/05 R94, spec/19 R411-R433; LOG 2). What only the world outside decides is an instruction that is given to `exec`, never
chosen here. -/

namespace Sys2Proof.Machine

/-- An event of a list is included when a condition holds. -/
def whenDue (b : Bool) (i : Instr) : List Instr := if b then [i] else []

/-- Events of one group (R84, R103-R109, R156, R209, R320, R367, R404, R449). -/
def groupEvents (s : State) (k : Nat) (g : Group) : List Instr :=
  let unit (sp : Split) : UnitRef := ⟨coreOf k, slotOf k, sp.id⟩
  let fences := g.splits.filter fun (sp : Split) => match sp.hold with
    | some (.fence _ _ _) => true
    | _ => false
  let stores := s.pkg.outreqs.any fun r => match r.owner with
    | .store n _ => n == k
    | _ => false
  whenDue (g.pend.any (pendDue s k)) (.resultDelivery ⟨coreOf k, slotOf k, 0⟩) ++
    whenDue (!g.out.isEmpty || stores) (.gwctReturn k) ++
    fences.map (fun sp => .fenceComplete (unit sp)) ++
    whenDue (fenceSDue s k).isSome (.fenceSValidation k) ++
    whenDue (commitDue s k) (.regionCommit k) ++
    whenDue (!(seamVictims s k).isEmpty) (.seamWaitTimeout k) ++
    (g.splits.filter fun sp => rereadDue s (unit sp)).map (fun sp => .waitmReread (unit sp)) ++
    (g.splits.filter fun sp => watchDue s (unit sp)).map (fun sp => .watchedWaitExpiry (unit sp)) ++
    whenDue ((g.emu.map fun e => e.due != 0 && decide (e.due ≤ s.clock.cycle)).getD false) (.fmtemuComplete k) ++
    whenDue (syncDue s k) (.traceSyncTimer k)

/-- Answers to the stores of groups that have exited (R112, R471, R478). -/
def storeEvents (s : State) : List Instr :=
  whenDue (s.pkg.outreqs.any fun r => (match r.owner with
    | .store n _ => n == nobody
    | _ => false) && (replyTo s r).isSome) (.gwctReturn nobody)

/-- Events of one cluster's engine (R264-R273, R430). -/
def engineEvents (cl : Nat) (ops : List MatOp) : List Instr :=
  let fetches := ops.filter fun o => match o.tile with
    | some t => t.got.isNone
    | none => false
  fetches.map (fun o => .operandFetchComplete cl o.id) ++
    whenDue (!ops.isEmpty) (.enginePassGrant cl) ++
    (ops.filter fun o => o.granted.isSome).map (fun o => .matrixDelivery cl o.id) ++
    (ops.filter fun o => o.mmaj.isSome).map (fun o => .mmajGatherTimeout cl o.id)

/-- Events of one core's engine queues (R117, R127, R296). -/
def queueEvents (core : Nat) (q : CoreQueues) : List Instr :=
  whenDue (!(q.copy.isEmpty && q.matFences.isEmpty)) (.copyDispatch core) ++ whenDue (!q.path.isEmpty) (.pathOperation core)

/-- Events of copies and collectives under way (R131, R342, R343). -/
def runEvents (s : State) : List Instr :=
  ((s.eng.copies.filter fun r => r.cmd.cache.isNone && !r.finished).map fun r => Instr.copyComplete r.cmd.id) ++
    (s.eng.colls ++ s.eng.queues.flatMap fun x => queueOps x.2.coll).flatMap fun r =>
      ((r.missing.filter (memberLate s r.key)).map fun j => Instr.collMemberTimeout r.key j) ++ [.collComplete r.key]

/-- Events of one core's side log (R59, R61, R471, R478). -/
def logEvents (s : State) (core : Nat) : List Instr :=
  whenDue ((retryAnswered s core).isSome || (replayable s core true).isSome) (.peerRetry core) ++
    whenDue (dropReady s core).isSome (.peerStoreDrop core) ++
    whenDue ((replayable s core false).isSome || !(ownerlessOf s core).isEmpty) (.sideLogReplay core)

/-- Releases and trays (R111, R113, R354, R427). -/
def releaseEvents (s : State) : List Instr :=
  let due := (List.range s.work.releases.length).filter (releaseDue s)
  (due.map fun n => match (s.work.releases[n]?).map Release.eff with
    | some (.arrive _) => Instr.barrierArrivalCount n
    | _ => .effectRelease n) ++
    ((List.range s.work.trays.length).filter (trayDue s)).map fun n => .trayTimerExpiry n

/-- The head of a host queue, by its OP (R417, R418). -/
def hqEvents (s : State) (q : Nat) : List Instr :=
  match hqHead s q with
  | none => []
  | some (_, e) =>
    if hqLaunches e then [.hqLaunch q]
    else if hqOp e = 2 then [.hqRelease q]
    else if hqOp e = 3 then [.hqAcquire q]
    else [.hqJoin q]

/-- Queues that have something to serve. -/
def hqServed (s : State) : List Nat :=
  (s.work.hq.zipIdx.filter fun q => q.1.en && q.1.head % q.1.ring != q.1.tail).map Prod.snd

/-- Completed entries whose record is still to be written (R418). -/
def recordEvents (s : State) : List Instr :=
  s.work.hq.zipIdx.flatMap fun q => (q.1.entries.filter HqEntry.done).map fun e =>
    match e.grid with
    | some gk => Instr.gridComplete gk
    | none => if e.op = 2 then .hqRelease q.2 else if e.op = 3 then .hqAcquire q.2 else if e.op = 4 then .hqJoin q.2
      else .hqLaunch q.2

/-- A saved unit returns before a team of lower or equal priority is admitted (R422, R446). -/
def admissionEvents (s : State) : List Instr :=
  if s.work.saved.isEmpty && (candidates s).isEmpty then []
  else
    match nextRestore s, nextAdmission s with
    | none, none => []
    | some x, none => [.groupRestore x.seq]
    | none, some (c, _) => [.teamAdmission c.key]
    | some x, some (c, _) => if c.prio ≤ (savedGrid s x).2.1 then [.groupRestore x.seq] else [.teamAdmission c.key]

/-- The dispatcher's events (R112, R190, R352, R365, R366, R411-R446). -/
def dispatchEvents (s : State) : List Instr :=
  let cores := s.work.groups.foldl (fun acc e => insNat acc (coreOf e.1)) []
  whenDue s.work.sched.tdBusy .teardown ++
    ((s.work.ctxs.map Prod.fst).filter (saveDue s)).map (fun c => .contextSaveComplete c) ++
    ((s.work.grids.map Prod.fst).filter (gridOver s)).map (fun gk => .gridComplete gk) ++
    recordEvents s ++
    (s.work.dlq.map fun d => .launchAccept d.1) ++
    (hqServed s).flatMap (hqEvents s) ++
    (cores.filter fun c => (eviction s c).isSome).map (fun c => .starvationLimit c) ++
    admissionEvents s

/-- Events of one channel of a base die (R22-R31, R38). -/
def channelEvents (ch : Nat) (c : Channel) : List Instr :=
  (c.packets.flatMap fun p =>
    if p.wr then [Instr.writePerformed ch p.n, .subGranuleMerge ch p.n, .wack ch p.n]
    else [.readServiceComplete ch p.n, .rdata ch p.n]) ++
    whenDue (!c.wbuf.isEmpty) (.writeBufferDrain ch) ++ whenDue (!c.wback.isEmpty) (.crustWriteback ch) ++
    c.moving.map fun r => .rowRemapComplete ch r.1 r.2

/-- Requests that wait at slices, and the patrol scrubbers of the stacks (R31, R37, R78). -/
def memoryEvents (s : State) : List Instr :=
  (s.ms.missq.flatMap fun e => e.2.filterMap (missEvent s)) ++
    ((List.range 12).filter (patrolDue s)).map fun j => .patrolScrub (patrolGranule j (s.ms.scrub.getD j 0))

/-- Replays elsewhere (R457). -/
def proxyEvents (s : State) : List Instr :=
  s.pkg.proxies.flatMap fun p =>
    whenDue (proxyOver s p.orig).isSome (.proxyResume p.orig) ++ whenDue (proxyDue s p.orig) (.proxyTransferComplete p.orig) ++
      whenDue (proxyLate s p.orig) (.proxyPlacementTimeout p.orig)

/-- Timeouts of host and peer requests (R471, R477). -/
def linkEvents (s : State) : List Instr :=
  s.pkg.outreqs.flatMap fun r => whenDue (hostLate s r.n) (.hostCompletionTimeout r.n) ++ whenDue (peerLate s r.n) (.peerReplyTimeout r.n)

/-- Drains that can begin (R463). -/
def drainEvents (s : State) : List Instr :=
  (s.pkg.scores.filter fun e => drainReady s (e.1 / 1024) (e.1 % 1024)).map fun e =>
    .unitTestComplete (e.1 / 1024) (e.1 % 1024) .pass

/-- Events of the package (R43, R56, R450, R461, R481, R484). -/
def packageEvents (s : State) : List Instr :=
  whenDue (s.pkg.boot.state == 0 && stageLate s) .bootStageTimeout ++
    whenDue (s.pkg.boot.state == 0 && s.pkg.boot.powered) .bootStageComplete ++
    whenDue (mbDue s) .mailboxComplete ++ whenDue (decayDue s) .scoreDecay ++ whenDue s.ms.bplBusy .bplCommandComplete ++
    whenDue (s.vm.inval.isSome || !s.vm.moves.isEmpty) .invalidationComplete ++
    (s.pkg.traceq.filter fun q => lossDue s q.1).map fun q => .loss q.1

/-- What may happen before the clock goes on, in the model's fixed order (LOG 2). -/
def agendaNow (s : State) : List Instr :=
  packageEvents s ++ linkEvents s ++ proxyEvents s ++
    s.ms.chans.flatMap (fun c => channelEvents c.1 c.2) ++
    s.work.groups.flatMap (fun e => groupEvents s e.1 e.2) ++ storeEvents s ++
    s.eng.mats.flatMap (fun e => engineEvents e.1 e.2) ++
    s.eng.queues.flatMap (fun e => queueEvents e.1 e.2) ++ runEvents s ++
    (s.vm.slog.map Prod.fst ++ s.vm.ownerless.map Prod.fst).flatMap (logEvents s) ++
    memoryEvents s ++ releaseEvents s ++ drainEvents s ++ dispatchEvents s

/-- An event changes the machine, in more than the counter of free values. -/
def changes (s : State) (i : Instr) : Bool :=
  match exec i s with
  | .next t => { t with sel := s.sel, pre := s.pre, last := s.last, freeCtr := s.freeCtr } != s
  | _ => false

/-- The next event: the first that changes anything. -/
def nextEvent (s : State) : Option Instr := (agendaNow s).find? (changes s)

/-- Nanoseconds of an epoch: EPOCH below 1 acts as 1 (R65). -/
def epochTime (s : State) : Nat := max s.vm.regs.epoch 1 * 100000

/-- A request that nothing waits for any more: its read was discarded (R82, R444). -/
def OutReq.orphan (r : OutReq) (s : State) : Bool :=
  match r.owner with
  | .lane k p _ _ => !(((s.group? k).map fun g => g.pend.any fun x => x.on == .reply p).getD false)
  | .held k sp _ => decide (k < nobody) && (((s.group? k).bind fun g => g.split? sp).bind Split.hold).isNone
  | .copy id => !(s.eng.copies.any fun x => x.cmd.id == id || x.req == some r.n) && !(s.eng.colls.any fun x => x.id == id)
  | _ => false

/-- Answers to discarded reads are forgotten. -/
def dropOrphans (s : State) : State :=
  (s.pkg.outreqs.filter fun r => r.orphan s && (replyTo s r).isSome).foldl (fun s r => endRequest s r.n) s

/-- What goes on by itself as a cycle passes: the timers of joint products stand where they must, replies to peers leave, requests
held behind others go out, and answers that no unit's word takes are taken (R72, R123, R273, R479). -/
def passCycle (s : State) : State := dropOrphans (takeVotes (sendHeld (sendAcks (holdJoints s))))

/-- Results that are due with the cycle: a word that waits for one may issue in it (R209, R218, R238, R265; LOG 54). -/
def dueResults (s : State) : List Instr :=
  (s.work.groups.flatMap fun e => (e.2.pend.filter (pendDue s e.1)).map fun _ => .resultDelivery ⟨coreOf e.1, slotOf e.1, 0⟩) ++
    s.eng.mats.flatMap fun e => (e.2.filter (matDue s)).map fun o => .matrixDelivery e.1 o.id

/-- A cycle of the arithmetic clock passes: results that are due are delivered, every core with residents selects its units, trace
units write, and an epoch may end (R15, R70, R209, R429, R447). -/
def tick (s : State) : State :=
  let c := s.clock.tick
  let t := passCycle { s with clock := c, slots := [], issuing := [] }
  let cores := s.work.groups.foldl (fun acc e => insNat acc (coreOf e.1)) []
  let rings := ((List.range Config.dies).filter (traceDue t)).map fun d => Instr.traceRingWrite d
  let epochs := if s.clock.dtime / epochTime s < c.dtime / epochTime s then
      (List.range Config.dies).map fun d => Instr.epochEnd d
    else []
  { t with agenda := rings ++ epochs ++ dueResults t ++ cores.map fun n => .issueCycle n }

/-- An event leaves the issue slots of the cycle as they are (R429). -/
def keepSlots (s : State) (o : Out) : Out :=
  match o with
  | .next t => .next { t with slots := s.slots }
  | o => o

/-- One step: the event at the head of the agenda, else the chain of the first selected unit, else an event of the machine's
own, else a tick (LOG 2). Without power no die but the PMU runs: nothing but an event at the head of the agenda, which
stands for what comes from outside, changes the state (R489). -/
def stepBody (s : State) : Out :=
  match s.agenda with
  | i :: rest => keepSlots s (exec i { s with agenda := rest })
  | [] =>
    if !s.pkg.boot.powered then .next s
    else
      match s.issuing with
      | u :: _ => issueUnit s u
      | [] =>
        match nextEvent s with
        | some i => keepSlots s (exec i s)
        | none => .next (tick s)

end Sys2Proof.Machine
end

