-- ==== Sys2Proof/Machine/Step.lean ====
section
/-! DEFINITION. One step of the machine, and the state in which the very next step issues a given word: that of a launched
group whose code holds the word in its first packet (spec/19 R411-R429; LOG 13). -/

namespace Sys2Proof.Machine

/-- One step of the machine (LOG 2). -/
def step (s : State) : Out := stepBody s

/-- The header of the grid that a word to be fetched runs in: one team of one group, class C, a scope of 24 names, code at
0x10000 (R412). -/
def fetchHeader : Header :=
  { table := false, roles := [⟨0, 24, 1⟩], deps := [], delta := 0, scratch := 1024, fpen := 0, sms := false, accept := false
    pivotReg := false, fuse := false, prio := 2, cls := 0, tdim := (32, 1, 1), gdim := (1, 1, 1), args := 0, handler := none
    code := 0x10000 }

/-- What admission fixes for that group: a privileged context (R389, R391). -/
def fetchInfo (ctx grid team born : Nat) : GroupInfo :=
  { ctx := ctx, priv := true, grid := grid, trayGrids := [], team := team, ix := 0, role := 0, roleSize := 1, level := 1
    cls := 0, prio := 2, code := 0x10000, handler := none, fpen := 0, accept := false, pivotReg := false, delta := 0
    dims := 0x0000000100010020, gdims := 0x0001000100000001, born := born, tray := false }

/-- The bytes of the packet: the word's 64 bits, then NOP (R198, R199). -/
def fetchBytes (nbits w : Nat) : List Byte := leBytes 8 (w % 2 ^ nbits) ++ leBytes 4 0x78B00000

/-- A booted machine with one group in slot 0 of core 0, which core 0 has selected; its context, grid and team stand as
admission leaves them, the page of its code is in the core's TLB, and its first packet holds the word. -/
def State.withFetchWord (s : State) (nbits w : Nat) : State :=
  let gk := s.work.nextGrid
  let tk := s.work.nextTeam
  let ctx := (s.work.ctxs.map Prod.fst).foldl max 0 + 1
  let grid : Grid :=
    { id := 1, ctx := ctx, hdr := fetchHeader, hdrAddr := 0, level := 1, origin := .host 0 0, parent := none, deps := []
      prio := 2, die := none, votes := [0, 0, 0, 0], next := 1, total := 1, signals := 0, groups := 1, refuse := 0, flags := 0, psub := 0
      horizon := 0, done := false, stopping := false }
  let cx : Ctx :=
    { desc := 0, save := 0, aring := 0, trt := 0, trtn := 0, priv := true, l3 := 0, nextId := 2, preempted := false
      saving := false }
  let g := newGroup s.clock.cycle (fetchInfo ctx gk tk s.work.nextSeq) 0 24 [0, 1, 0, 0] 0 fun _ => LaneReg.zero
  let s := physWrite s 0x10000 (fetchBytes nbits w)
  let s := s.setTeam tk (newTeam gk ctx 0 0 0 1 [0] 1024 false)
  let s := s.setGroup 0 g
  let s := s.onWork fun x => { x with
    grids := NMap.set x.grids gk grid, ctxs := NMap.set x.ctxs ctx cx, nextGrid := gk + 1, nextTeam := tk + 1
    nextSeq := x.nextSeq + 1 }
  let s := s.onVm fun vm => { vm with tlb := NMap.set vm.tlb 0 (⟨ctx, 0x10000, 0x10000, 0x1008D⟩ :: tlbOf s 0) }
  let s := s.onPkg fun p => { p with boot := { p.boot with powered := true, state := 1, stage := 5 } }
  { s with agenda := [], issuing := [⟨0, 0, 0⟩], slots := [] }

end Sys2Proof.Machine
end

