-- ==== Sys2Proof/Safety.lean ====
section
/-! DEFINITION. What claims call safe, and the words in which they speak of one step: memories in their canonical form, issue
slots within their limits, runs that go on, a word that passes every check of R212, and what a word that has issued
leaves. -/

namespace Sys2Proof.Machine

/-- Main memory, every scratchpad and every page image list their bytes in the canonical form. -/
def State.canonical (s : State) : Bool :=
  Memory.wf s.ms.mem && (s.work.teams.all fun t => Memory.wf t.2.scr.bytes) && (s.vm.images.all fun i => Memory.wf i.2)

/-- In the current cycle every core has issued at most two chains, which fit its pipes together (R200, R429). -/
def State.slotsFit (s : State) : Prop :=
  ∀ core, (coreSlots s core).length ≤ 2 ∧ ((coreSlots s core).foldl Pipes.add ⟨0, 0, 0, 0⟩).fit = true

/-- The machine goes on for some steps without a fault or a refusal. -/
def State.runs (s : State) (n : Nat) : Prop := ∃ t, Host.Core.run Sys2Proof.core n s = .next t

/-! ## A word that passes the checks -/

/-- Entries that a word pops from a k-queue. -/
def Uses.popsOf (us : Uses) (q : Nat) : Nat := (us.pop.filter (· == q)).length

/-- Entries that a word pushes to a k-queue. -/
def Uses.pushesOf (us : Uses) (q : Nat) : Nat := (us.push.filter (· == q)).length

/-- The word of a unit passes the checks that every word meets (R212 steps 3 to 6): no region is to reopen, no injected error
is armed (R393), its names lie in the scope, the control core has nothing left to do for it (R156), no result that it uses is
pending or in its window and none that older words left beyond its window may trap (R209, R169), k-queues are used in class C and popped outside regions (R184), an arrival finds its word (R377), and the k-queues
have what it pops and room for what it pushes. The group's team is resident (R348). -/
structure Cx.Clear (c : Cx) : Prop where
  opened : c.g.reopen ≠ .now ∨ c.g.region.isSome = true
  sound : c.g.sys.inject &&& 7 = 0
  team : (c.s.team? c.g.info.team).isSome = true
  names : ∀ n ∈ c.i.uses.v ++ c.i.uses.d, n < c.g.names
  native : c.emulate = none
  free : ∀ p ∈ c.g.pend, (p.room c.sp.id).isSome = true → p.usedBy c.sp.lanes c.i.uses = false
  closed : ∀ p ∈ c.g.late, 0 < (p.room c.sp.id).getD 0 → p.usedBy c.sp.lanes c.i.uses = false
  quiet : ∀ p ∈ c.g.pend.take c.rd.pend.length, p.room c.sp.id = some 0 → mayTrap c p = false
  queues : c.i.uses.pop = [] ∧ c.i.uses.push = [] ∨ c.cls = 0
  popless : c.g.region.isSome = true → c.i.uses.pop = []
  arrives : arrivalOk c.sp.arrive c.i = true
  filled : ∀ q < 4, Uses.popsOf c.i.uses q ≤ (c.poppable q).length
  room : ∀ q < 4, q ∈ c.i.uses.push → (c.kqueue q).length - Uses.popsOf c.i.uses q + Uses.pushesOf c.i.uses q ≤ 8

/-! ## What a word leaves -/

/-- A team beside its k-queues. -/
def Team.rest (m : Team) : Nat × Nat × Nat × Nat × List Nat × Scratch × Vector Barrier 16 × Vector Tile 32 × List Child :=
  (m.grid, m.ctx, m.core, m.index, m.slots, m.scr, m.nb, m.tiles, m.children)

/-- The values in a team's k-queue, oldest first (R184). -/
def State.kvalues (s : State) (team q : Nat) : List LaneReg :=
  (((s.team? team).map fun m => m.kq.toArray.toList.getD q []).getD []).map KEntry.val

/-- Everything but one group and its team's k-queues is as before: the clock, all of memory with its caches, translation,
engines, the package, the other groups, the other teams, grids, contexts and queues. -/
def State.sameOutside (s t : State) (k team : Nat) : Prop :=
  t.clock = s.clock ∧ t.ms = s.ms ∧ t.vm = s.vm ∧ t.eng = s.eng ∧ t.pkg = s.pkg ∧
    (∀ j, j ≠ k → t.group? j = s.group? j) ∧ (∀ j, j ≠ team → t.team? j = s.team? j) ∧
    (t.team? team).map Team.rest = (s.team? team).map Team.rest ∧
    { t.work with groups := s.work.groups, teams := s.work.teams } = s.work

/-- A group as before in all but its registers, its system registers, its splits, its pending results with their windows, and its
region. -/
def Group.sameElse (g h : Group) : Prop :=
  { h with regs := g.regs, sys := g.sys, splits := g.splits, pend := g.pend, late := g.late, region := g.region } = g

/-- The split in hand stands at a word, no longer held, with its masks and stacks as before (R199). -/
def Cx.stands (c : Cx) (h : Group) (pc : Pc) : Prop :=
  ∃ sp, h.split? c.sp.id = some sp ∧ sp.pc = pc ∧ sp.hold = none ∧ sp.m = c.sp.m ∧ sp.lanes = c.sp.lanes ∧
    sp.stack = c.sp.stack ∧ sp.rets = c.sp.rets

/-- The split in hand stands at a word, and the other splits are as they were. -/
def Cx.wentOn (c : Cx) (h : Group) (pc : Pc) : Prop :=
  c.stands h pc ∧ ∀ j, j ≠ c.sp.id → h.split? j = c.g.split? j

/-- The destination names a register. -/
def Dst.isReg (d : Dst) (n : Nat) : Bool :=
  match d with
  | .v r => r.val == n
  | _ => false

/-- The destination names a k-queue. -/
def Dst.isQueue (d : Dst) (n : Nat) : Bool :=
  match d with
  | .k q => q.val == n
  | _ => false

/-- The result queue after one push: in the lanes of the split the entries grow one older, and the newest holds the value in
active lanes and zero in the others (R179, R191). -/
def Cx.pushed (c : Cx) (act : Mask) (x : Nat → W64) (h : Group) : Prop :=
  ∀ l < 32, ∀ n < 16, (h.aged n).lane l =
    if c.sp.lanes.has l then
      if n = 0 then (if act.has l then x l else 0) else (c.g.aged (n - 1)).lane l
    else (c.g.aged n).lane l

/-- A word has issued with one result `x` in the lanes `act`, its flags `fl` raised, and nothing else changed: the named
destination takes it in those lanes, the result queue is pushed, a k-queue destination gains an entry, operands are popped,
and the split stands at the next word (R179, R184, R191, R199). -/
structure Cx.Wrote (c : Cx) (d : Dst) (act : Mask) (x : Nat → W64) (fl : BitVec 5) (t : State) : Prop where
  last : t.last = .issued
  outside : State.sameOutside c.s t c.k c.g.info.team
  queue : ∀ q < 4, t.kvalues c.g.info.team q =
    (c.s.kvalues c.g.info.team q).drop (Uses.popsOf c.i.uses q) ++
      (if Dst.isQueue d q then [LaneReg.merge act (LaneReg.ofFn x) LaneReg.zero] else [])
  group : ∃ h, t.group? c.k = some h ∧ Group.sameElse c.g h ∧ c.wentOn h c.nextPc ∧ c.pushed act x h ∧
    h.sys = { c.g.sys with fflags := c.g.sys.fflags ||| fl } ∧
    { h.regs with v := c.g.regs.v, rq := c.g.regs.rq } = c.g.regs ∧
    ∀ n < 24, ∀ l < 32, (h.reg n).lane l = if Dst.isReg d n && act.has l then x l else (c.g.reg n).lane l

/-- A word has issued that writes predicates in the lanes `act` and nothing else: the result in `p`, its complement in the
next predicate when K is set (R230, R231, R243); flags `fl` are raised. -/
structure Cx.Compared (c : Cx) (d : PDst) (act : Mask) (x : Nat → Bool) (fl : BitVec 5) (t : State) : Prop where
  last : t.last = .issued
  outside : State.sameOutside c.s t c.k c.g.info.team
  queue : ∀ q < 4, t.kvalues c.g.info.team q = (c.s.kvalues c.g.info.team q).drop (Uses.popsOf c.i.uses q)
  group : ∃ h, t.group? c.k = some h ∧ Group.sameElse c.g h ∧ c.wentOn h c.nextPc ∧
    h.sys = { c.g.sys with fflags := c.g.sys.fflags ||| fl } ∧ { h.regs with p := c.g.regs.p } = c.g.regs ∧
    ∀ n < 12, ∀ l < 32, (h.pred n).has l =
      if n = d.p.val && act.has l then x l
      else if d.k && n = d.p.val + 1 && act.has l then !x l
      else (c.g.pred n).has l

/-- A word has issued and nothing but the group itself has changed in more than its position: `h` is the group afterwards,
at the word `pc`. -/
def Cx.Issued (c : Cx) (pc : Pc) (h : Group) (t : State) : Prop :=
  t.last = .issued ∧ State.sameOutside c.s t c.k c.g.info.team ∧ t.group? c.k = some h ∧ c.wentOn h pc

/-- A word has issued that leaves the group's registers as they were: `h` is the group afterwards, at the next word. -/
def Cx.Went (c : Cx) (h : Group) (t : State) : Prop :=
  t.last = .issued ∧ t.group? c.k = some h ∧ c.stands h c.nextPc ∧ h.regs = c.g.regs

/-- A word has issued that leaves the group's registers and its system registers as they were. -/
def Cx.Passed (c : Cx) (h : Group) (t : State) : Prop := c.Went h t ∧ h.sys = c.g.sys

/-- A word has issued whose result is still pending: `p` is it, last in the group's list, and of the group's registers only
the result queue has changed (R179, R208). -/
def Cx.Awaits (c : Cx) (t : State) (p : Pending) : Prop :=
  t.last = .issued ∧ ∃ h, t.group? c.k = some h ∧ c.stands h c.nextPc ∧ h.pend.getLast? = some p ∧
    { h.regs with rq := c.g.regs.rq } = c.g.regs ∧ h.sys = c.g.sys

/-- A word is held: it has done nothing, and its split waits (R58, R360). -/
def Cx.Holds (c : Cx) (w : Hold) (t : State) : Prop :=
  t.last = .held ∧ ∃ h sp, t.group? c.k = some h ∧ h.split? c.sp.id = some sp ∧ sp.hold = some w ∧ sp.pc = c.sp.pc ∧
    h.regs = c.g.regs ∧ h.sys = c.g.sys

/-- A control word has issued: its split stands at `pc` with a mask, its stacks and what it must find there; registers, system
registers, the other splits, the other groups and memory are as they were (R372-R381). -/
def Cx.Moved (c : Cx) (t : State) (pc : Pc) (m : Mask) (stack : List MaskEntry) (rets : List RetEntry) (a : Option Arrival) :
    Prop :=
  t.last = .issued ∧ t.ms = c.s.ms ∧ (∀ j, j ≠ c.k → t.group? j = c.s.group? j) ∧
    ∃ h sp, t.group? c.k = some h ∧ h.regs = c.g.regs ∧ h.sys = c.g.sys ∧ h.split? c.sp.id = some sp ∧ sp.pc = pc ∧
      sp.m = m ∧ sp.stack = stack ∧ sp.rets = rets ∧ sp.arrive = a ∧ sp.hold = none ∧
      ∀ j, j ≠ c.sp.id → h.split? j = c.g.split? j

/-- A trap has been taken: the frame is written, the trap slot holds what RTT gives back, and the split stands at the handler with
empty stacks (R436). `m` is what XMASK receives, `rp` where RTT resumes. -/
def Cx.Entered (c : Cx) (u : State) (cause : Nat) (m : Mask) (addr info : W64) (rp : Pc) : Prop :=
  u.last = .trapped ∧ ∃ hp h ts sp, c.g.info.handler = some hp ∧ u.group? c.k = some h ∧
    h.sys = { c.g.sys with xpc := w64 (c.sp.pc.packet % 2 ^ 32 * 4 + c.sp.pc.slot % 4), xmask := m.setWidth 64
                           xcause := w64 cause, xaddr := addr, xinfo := info } ∧
    h.regs = c.g.regs ∧ h.trap = some ts ∧ ts.split = c.sp.id ∧ ts.m = c.sp.m ∧ ts.stack = c.sp.stack ∧ ts.rets = c.sp.rets ∧
    ts.rq = c.g.regs.rq ∧ ts.rp = rp ∧ ts.xpcWritten = false ∧ h.split? c.sp.id = some sp ∧ sp.pc = ⟨hp, 0⟩ ∧ sp.stack = [] ∧
    sp.rets = [] ∧ sp.hold = none ∧
    sp.m = if c.sp.m = 0 then c.sp.lanes &&& ~~~(c.g.off ||| c.g.gone) else c.sp.m

end Sys2Proof.Machine
end

