-- ==== Sys2Proof/Certificates/Slice0/Obligations.lean ====
section
/-! DEFINITION. The claims about this machine, for the provers: each formalises rules of the spec, which its docstring names.
A claim about a word speaks of a unit that passes the checks of R212 (`Cx.Clear`); what the word then does is its
conclusion. -/

namespace Sys2Proof.Machine

/-! ## Results of words, as the rules give them -/

/-- Words of two operands that write one integer result, with their results per lane (R217, R220-R226, R228): products and
sums wrap at the width, and a shift by the width or more gives zero or the sign. -/
def intWords2 : List ((Tail → Guard → Dst → Src → Src → Width → Instr) × (Width → W64 → W64 → W64)) :=
  [(Instr.iadd, fun w x y => cut w (x + y)),
   (Instr.isub, fun w x y => cut w (x - y)),
   (Instr.iaddc, fun w x y => if 2 ^ Width.bits w ≤ low w x + low w y then 1 else 0),
   (Instr.imul, fun w x y => cut w (x * y)),
   (Instr.imulhI, fun w x y => mulHiS w x y),
   (Instr.imulhN, fun w x y => w64 (low w x * low w y / 2 ^ Width.bits w)),
   (Instr.andB, fun w x y => cut w (x &&& y)),
   (Instr.orB, fun w x y => cut w (x ||| y)),
   (Instr.xorB, fun w x y => cut w (x ^^^ y)),
   (Instr.andn, fun w x y => cut w (x &&& ~~~y)),
   (Instr.orn, fun w x y => cut w (x ||| ~~~y)),
   (Instr.shl, fun w x y => shiftL w x y),
   (Instr.shr, fun w x y => shiftR w x y),
   (Instr.sar, fun w x y => shiftA w x y),
   (Instr.rol, fun w x y => rotateL w x y),
   (Instr.ror, fun w x y => rotateR w x y),
   (Instr.bfeN, fun w x y => w64 (extractField w false x y)),
   (Instr.bfeI, fun w x y => cutS w (w64 (extractField w true x y))),
   (Instr.minI, fun w x y => if slow w x ≤ slow w y then cutS w x else cutS w y),
   (Instr.minN, fun w x y => w64 (min (low w x) (low w y))),
   (Instr.maxI, fun w x y => if slow w y ≤ slow w x then cutS w x else cutS w y),
   (Instr.maxN, fun w x y => w64 (max (low w x) (low w y))),
   (Instr.lea, fun w x y => x + if w = .w32 then cutS .w32 y else y)]

/-- Words of one operand that write one integer result (R220, R223, R226, R228). -/
def intWords1 : List ((Tail → Guard → Dst → Src → Width → Instr) × (Width → W64 → W64)) :=
  [(Instr.notB, fun w x => cut w (~~~x)),
   (Instr.popc, fun w x => popCount w x),
   (Instr.clz, fun w x => leadZeros w x),
   (Instr.ctz, fun w x => trailZeros w x),
   (Instr.brev, fun w x => bitReverse w x),
   (Instr.absI, fun w x => ofSlow w (slow w x).natAbs),
   (Instr.negI, fun w x => ofSlow w (-(slow w x))),
   (Instr.mov, fun w x => cut w x)]

/-- The result of ROUTE in lane `l`: the source lane's value where that lane takes part, else the lane's own (R232, R234). -/
def Cx.routed (c : Cx) (t : Tail) (act : Mask) (a b : Src) (w : Width) (f : Nat → Nat → Option Nat) (l : Nat) : W64 :=
  match f ((c.opB t .int a b).lane l).toNat l with
  | some j => cut w (if act.has j then (c.opA t .int a).lane j else (c.opA t .int a).lane l)
  | none => cut w ((c.opA t .int a).lane l)

/-- The other words that write one integer result: their destination, the lanes that take it, and the result of lane `l`
(R221, R225, R227, R233-R235). -/
def Cx.intResult (c : Cx) (i : Instr) : Option (Dst × Mask × (Nat → W64)) :=
  match i with
  | .imad t d a b q w => some (d, c.act, fun l =>
      cut w ((c.opA t .int a).lane l * (c.opB t .int a b).lane l + (c.g.aged q.val).lane l))
  | .bfi t g d a b w => some (.v d, c.guard g, fun l =>
      insertField w ((c.rd.reg d.val).lane l) ((c.opA t .int a).lane l) ((c.opB t .int a b).lane l))
  | .sel t g d a b w => some (d, c.act, fun l =>
      let yes := match g with
        | .always => true
        | .p n => (c.rd.pred n.val).has l
      cut w (if yes then (c.opA t .int a).lane l else (c.opB t .int a b).lane l))
  | .censusNz t g d a => some (d, c.guard g, fun _ => census (c.guard g) (Mask.ofFn fun l => (c.opA t .int a).lane l != 0))
  | .censusLsb t g d a => some (d, c.guard g, fun _ =>
      census (c.guard g) (Mask.ofFn fun l => ((c.opA t .int a).lane l).getLsbD 0))
  | .censusSgn t g d a => some (d, c.guard g, fun _ =>
      census (c.guard g) (Mask.ofFn fun l => ((c.opA t .int a).lane l).getLsbD 63))
  | .routeFrom t g d a b w => some (d, c.guard g, c.routed t (c.guard g) a b w routeFromLane)
  | .routeRot t g d a b w => some (d, c.guard g, c.routed t (c.guard g) a b w routeRotLane)
  | .routeShift t g d a b w => some (d, c.guard g, c.routed t (c.guard g) a b w routeShiftLane)
  | .routeFlip t g d a b w => some (d, c.guard g, c.routed t (c.guard g) a b w routeFlipLane)
  | .peers t g d a w => some (d, c.guard g, fun l => peerWord w (c.guard g) (c.opA t .int a) l)
  | _ => none

/-- Words that write predicates from integers or predicates: their destination, the lanes, and the result (R230, R231). -/
def Cx.predResult (c : Cx) (i : Instr) : Option (PDst × Mask × (Nat → Bool)) :=
  match i with
  | .icmp32 t g p a b n => some (p, c.guard g, fun l => intCond .w32 n ((c.opA t .int a).lane l) ((c.opB t .int a b).lane l))
  | .icmp64 t g p a b n => some (p, c.guard g, fun l => intCond .w64 n ((c.opA t .int a).lane l) ((c.opB t .int a b).lane l))
  | .pand _ g p a b => some (p, c.guard g, fun l => (c.rd.pred a.val).has l && (c.rd.pred b.val).has l)
  | .por _ g p a b => some (p, c.guard g, fun l => (c.rd.pred a.val).has l || (c.rd.pred b.val).has l)
  | .pxor _ g p a b => some (p, c.guard g, fun l => (c.rd.pred a.val).has l != (c.rd.pred b.val).has l)
  | .pnot _ g p a => some (p, c.guard g, fun l => !(c.rd.pred a.val).has l)
  | .pmov _ g p a => some (p, c.guard g, fun l => (c.rd.pred a.val).has l)
  | _ => none

/-- A floating-point operand of lane `l`, cut to its format (R154, R206). -/
def Cx.floatA (c : Cx) (t : Tail) (w : FWidth) (a : Src) (l : Nat) : Nat :=
  opBits (FWidth.fmt w) ((c.opA t (FWidth.lit w) a).lane l)

/-- The second floating-point operand of lane `l` (R154, R206). -/
def Cx.floatB (c : Cx) (t : Tail) (w : FWidth) (a b : Src) (l : Nat) : Nat :=
  opBits (FWidth.fmt w) ((c.opB t (FWidth.lit w) a b).lane l)

/-- The operand c of a fused word: an age of the result queue (R241). -/
def Cx.floatC (c : Cx) (w : FWidth) (q : Cq) (l : Nat) : Nat := opBits (FWidth.fmt w) ((c.g.aged q.val).lane l)

/-- A result of a format in its register (R154). -/
def floatWord (r : FRes) : W64 × FFlags := (w64 r.1, r.2)

/-- Words that write one floating-point result: their destination, the lanes, and the value and flags of lane `l`, as the
exact result of their rule rounded once (R158-R169, R240-R249). -/
def Cx.floatResult (c : Cx) (i : Instr) : Option (Dst × Mask × (Nat → W64 × FFlags)) :=
  match i with
  | .fadd t g d a b r w => some (d, c.guard g, fun l =>
      floatWord ((FWidth.fmt w).add r (c.floatA t w a l) (c.floatB t w a b l)))
  | .fsub t d a b r w => some (d, c.act, fun l => floatWord ((FWidth.fmt w).sub r (c.floatA t w a l) (c.floatB t w a b l)))
  | .fmul t g d a b r w => some (d, c.guard g, fun l =>
      floatWord ((FWidth.fmt w).mul r (c.floatA t w a l) (c.floatB t w a b l)))
  | .ffma t d a b q r w => some (d, c.act, fun l =>
      floatWord ((FWidth.fmt w).fma .pc r (c.floatA t w a l) (c.floatB t w a b l) (c.floatC w q l)))
  | .ffms t d a b q r w => some (d, c.act, fun l =>
      floatWord ((FWidth.fmt w).fma .pmc r (c.floatA t w a l) (c.floatB t w a b l) (c.floatC w q l)))
  | .fnma t d a b q r w => some (d, c.act, fun l =>
      floatWord ((FWidth.fmt w).fma .cmp r (c.floatA t w a l) (c.floatB t w a b l) (c.floatC w q l)))
  | .fmin t g d a b w => some (d, c.guard g, fun l =>
      floatWord ((FWidth.fmt w).minMax false (c.floatA t w a l) (c.floatB t w a b l)))
  | .fmax t g d a b w => some (d, c.guard g, fun l =>
      floatWord ((FWidth.fmt w).minMax true (c.floatA t w a l) (c.floatB t w a b l)))
  | .fminNum t g d a b w => some (d, c.guard g, fun l =>
      floatWord ((FWidth.fmt w).minMaxNum false (c.floatA t w a l) (c.floatB t w a b l)))
  | .fmaxNum t g d a b w => some (d, c.guard g, fun l =>
      floatWord ((FWidth.fmt w).minMaxNum true (c.floatA t w a l) (c.floatB t w a b l)))
  | .fcvt t g d a f r u => some (d, c.guard g, fun l => convertLane f.val r u ((c.opA t (cvtLit f.val) a).lane l))
  | .fclass t g d a w => some (d, c.guard g, fun l => (w64 ((FWidth.fmt w).classOf (c.floatA t w a l)), 0))
  | .fabs t g d a w => some (d, c.guard g, fun l => (w64 (c.floatA t w a l % (FWidth.fmt w).sign), 0))
  | .fneg t g d a w => some (d, c.guard g, fun l => (w64 (Nat.xor (c.floatA t w a l) (FWidth.fmt w).sign), 0))
  | .fcpysgn t g d a b w => some (d, c.guard g, fun l =>
      (w64 (c.floatA t w a l % (FWidth.fmt w).sign +
        c.floatB t w a b l / (FWidth.fmt w).sign % 2 * (FWidth.fmt w).sign), 0))
  | .fscale t d a b r w => some (d, c.act, fun l =>
      floatWord ((FWidth.fmt w).scale r (c.floatA t w a l) ((c.opB t .int a b).lane l).toInt))
  | _ => none

/-- Packed and narrow words: destination, lanes, value and flags of lane `l` (R250, R258-R262). -/
def Cx.narrowResult (c : Cx) (i : Instr) : Option (Dst × Mask × (Nat → W64 × FFlags)) :=
  let x (t : Tail) (ty : LitTy) (a : Src) (l : Nat) : W64 := (c.opA t ty a).lane l
  let y (t : Tail) (ty : LitTy) (a b : Src) (l : Nat) : W64 := (c.opB t ty a b).lane l
  let old (d : VReg) (l : Nat) : W64 := (c.rd.reg d.val).lane l
  match i with
  | .pkadd16 t g d a b r h => some (d, c.guard g, fun l =>
      packedOp (HFmt.fmt h) (x t .h16 a l) (y t .h16 a b l) 0 fun p q _ => (HFmt.fmt h).add r p q)
  | .pkmul16 t d a b r h => some (d, c.act, fun l =>
      packedOp (HFmt.fmt h) (x t .h16 a l) (y t .h16 a b l) 0 fun p q _ => (HFmt.fmt h).mul r p q)
  | .pkfma16 t d a b r h => some (.v d, c.act, fun l =>
      packedOp (HFmt.fmt h) (x t .h16 a l) (y t .h16 a b l) (old d l) fun p q z => (HFmt.fmt h).fma .pc r p q z)
  | .pkfna16 t d a b r h => some (.v d, c.act, fun l =>
      packedOp (HFmt.fmt h) (x t .h16 a l) (y t .h16 a b l) (old d l) fun p q z => (HFmt.fmt h).fma .cmp r p q z)
  | .pkaddF32 t g d a b r => some (d, c.guard g, fun l =>
      packedOp .f32 (x t .pk32 a l) (y t .pk32 a b l) 0 fun p q _ => Fmt.f32.add r p q)
  | .pkmulF32 t d a b r => some (d, c.act, fun l =>
      packedOp .f32 (x t .pk32 a l) (y t .pk32 a b l) 0 fun p q _ => Fmt.f32.mul r p q)
  | .pkfmaF32 t d a b r => some (.v d, c.act, fun l =>
      packedOp .f32 (x t .pk32 a l) (y t .pk32 a b l) (old d l) fun p q z => Fmt.f32.fma .pc r p q z)
  | .pkfnaF32 t d a b r => some (.v d, c.act, fun l =>
      packedOp .f32 (x t .pk32 a l) (y t .pk32 a b l) (old d l) fun p q z => Fmt.f32.fma .cmp r p q z)
  | .cvtn t g d a f r u => some (d, c.guard g, fun l =>
      let e (n : Nat) : FRes := (cvtnForm f.val).2.1.convert r u
        ((cvtnForm f.val).1.value (element (cvtnForm f.val).1.bits (x t (elementLit (cvtnForm f.val).1) a l) n))
      (w64 (pack (cvtnForm f.val).2.1.bits (cvtnForm f.val).2.2 fun n => (e n).1),
        (List.range (cvtnForm f.val).2.2).foldl (fun (m : FFlags) n => m ||| (e n).2) 0))
  | .dot4I8 t g d a b => some (.v d, c.guard g, fun l =>
      (w64 (pack 32 2 fun n => dot4Half true (old d l) (x t .b8 a l) (y t .b8 a b l) n), 0))
  | .dot4N8 t g d a b => some (.v d, c.guard g, fun l =>
      (w64 (pack 32 2 fun n => dot4Half false (old d l) (x t .b8 a l) (y t .b8 a b l) n), 0))
  | .dot8E4m3 t g d a b => some (.v d, c.guard g, fun l =>
      floatWord (kGroup (opBits .f32 (old d l))
        ((List.range 8).map fun n => (Fmt.e4m3.value (element 8 (x t .b8 a l) n), Fmt.e4m3.value (element 8 (y t .b8 a b l) n)))))
  | .dot8E5m2 t g d a b => some (.v d, c.guard g, fun l =>
      floatWord (kGroup (opBits .f32 (old d l))
        ((List.range 8).map fun n => (Fmt.e5m2.value (element 8 (x t .b8 a l) n), Fmt.e5m2.value (element 8 (y t .b8 a b l) n)))))
  | .sclx t g d a b j => some (d, c.guard g, fun l =>
      let e (n : Nat) := toE2m1 (element 16 (y t .h16 a b l) j.val) .rn (Fmt.bf16.value (element 16 (x t .h16 a l) n))
      (w64 (pack 4 4 fun n => (e n).1), (List.range 4).foldl (fun (m : FFlags) n => m ||| (e n).2) 0))
  | .scls t g d a b j => some (d, c.guard g, fun l =>
      let r := blockWord (opBits .f32 (x t .f32 a l))
      (w64 (pack 16 4 fun n => if n = j.val then r.1 else element 16 (y t .h16 a b l) n), r.2))
  | _ => none

/-- The flags that lanes raise together (R168). -/
def laneFlags (m : Mask) (r : Nat → W64 × FFlags) : FFlags := m.lanes.foldl (fun (f : FFlags) l => f ||| (r l).2) 0

/-- Special-function words: format, destination, cycles to delivery, and the value and flags of lane `l` (R238, R251-R254). -/
def Cx.specialResult (c : Cx) (i : Instr) : Option (FWidth × Dst × Nat × (Nat → FRes)) :=
  match i with
  | .fdiv t _ d a b r w => some (w, d, sfDelay 22 38 w false, fun l => (FWidth.fmt w).div r (c.floatA t w a l) (c.floatB t w a b l))
  | .fsqrt t _ d a r w => some (w, d, sfDelay 20 36 w false, fun l => (FWidth.fmt w).sqrt r (c.floatA t w a l))
  | .frcp t _ d a r w => some (w, d, sfDelay 16 28 w false, fun l => (FWidth.fmt w).rcp r (c.floatA t w a l))
  | .frsq t _ d a r w => some (w, d, sfDelay 16 28 w false, fun l =>
      if w = .f64 then rsq64 (c.floatA t w a l) else (FWidth.fmt w).rsq r (c.floatA t w a l))
  | .fexp2 t _ d a w => some (w, d, sfDelay 18 34 w false, fun l => (FWidth.fmt w).exp2 (c.floatA t w a l))
  | .flog2 t _ d a w => some (w, d, sfDelay 18 34 w false, fun l => (FWidth.fmt w).log2 (c.floatA t w a l))
  | .fsin t _ d a w => some (w, d, sfDelay 22 40 w (farArgs w (c.opA t (FWidth.lit w) a) c.act), fun l =>
      (FWidth.fmt w).sin (c.floatA t w a l))
  | .fcos t _ d a w => some (w, d, sfDelay 22 40 w (farArgs w (c.opA t (FWidth.lit w) a) c.act), fun l =>
      (FWidth.fmt w).cos (c.floatA t w a l))
  | .ftanh t _ d a w => some (w, d, sfDelay 22 40 w false, fun l => (FWidth.fmt w).tanh (c.floatA t w a l))
  | _ => none

/-- The registers that a destination names. -/
def Dst.regs (d : Dst) : List Nat :=
  match d with
  | .v n => [n.val]
  | _ => []

end Sys2Proof.Machine

open Sys2Proof Sys2Proof.Machine

/-- R217, R220-R226, R228: in the lanes of its guard an integer word of two operands, or of one, writes the result its rule gives; it
changes nothing else. -/
def Obligations.IntegerWordCompletes : Prop :=
  (∀ p ∈ intWords2, ∀ (t : Tail) (g : Guard) (d : Dst) (a b : Src) (w : Width) (s : State) (c : Cx),
     cx? (p.1 t g d a b w) s = some c → c.Clear →
     ∃ u, exec (p.1 t g d a b w) s = .next u ∧
       c.Wrote d (c.guard g) (fun l => p.2 w ((c.opA t .int a).lane l) ((c.opB t .int a b).lane l)) 0 u) ∧
  ∀ p ∈ intWords1, ∀ (t : Tail) (g : Guard) (d : Dst) (a : Src) (w : Width) (s : State) (c : Cx),
    cx? (p.1 t g d a w) s = some c → c.Clear →
    ∃ u, exec (p.1 t g d a w) s = .next u ∧ c.Wrote d (c.guard g) (fun l => p.2 w ((c.opA t .int a).lane l)) 0 u

/-- R221, R225, R227, R233-R235: IMAD, BFI, SEL, CENSUS, ROUTE and PEERS write their result and change nothing else. -/
def Obligations.IntegerAndLaneWordCompletes : Prop :=
  ∀ (i : Instr) (s : State) (c : Cx) (d : Dst) (act : Mask) (x : Nat → W64),
    cx? i s = some c → c.Clear → c.intResult i = some (d, act, x) →
    ∃ u, exec i s = .next u ∧ c.Wrote d act x 0 u

/-- R229: MOVS writes the lowest active lane's value, cut to its width, to a scalar register of the whole group; with no
active lane it writes nothing. It takes the control pipe, pushes nothing and changes nothing else. A word of it whose D5 is above
15, or whose B6 is not 60, is no instruction. -/
def Obligations.MovsWritesScalar : Prop :=
  (∀ (t : Tail) (g : Guard) (d : SReg) (a : Src) (w : Width) (s : State) (c : Cx),
    cx? (.movs t g d a w) s = some c → c.Clear →
    (Instr.movs t g d a w).pipe = .ctl ∧
    ∃ u h, exec (.movs t g d a w) s = .next u ∧ c.Issued c.nextPc h u ∧ Group.sameElse c.g h ∧ h.sys = c.g.sys ∧
      { h.regs with sreg := c.g.regs.sreg } = c.g.regs ∧
      ∀ n < 16, h.scalar n = match (c.guard g).lowest? with
        | some l => if n = d.val then cut w ((c.opA t .int a).lane l) else c.g.scalar n
        | none => c.g.scalar n) ∧
  ∀ (iw : Nat) (nx : Option Nat), fld iw 25 6 = 0x07 → fld iw 1 3 = 1 → (16 ≤ fld iw 16 5 ∨ fld iw 4 6 ≠ 60) →
    ∃ e, decodeInstr iw nx = .error e

/-- R230, R231: compares and predicate words write the predicate they name in the lanes of their guard, the complement to the
next one when K is set, and change nothing else. -/
def Obligations.PredicateWordCompletes : Prop :=
  ∀ (i : Instr) (s : State) (c : Cx) (p : PDst) (act : Mask) (x : Nat → Bool),
    cx? i s = some c → c.Clear → c.predResult i = some (p, act, x) →
    ∃ u, exec i s = .next u ∧ c.Compared p act x 0 u

/-- R168, R240-R250, R258-R262: a floating-point, packed or narrow word of the vector pipe whose flags are not enabled by FPEN writes
the correctly rounded results of its rule, raises its lanes' flags together, and changes nothing else. -/
def Obligations.FloatWordCompletes : Prop :=
  ∀ (i : Instr) (s : State) (c : Cx) (d : Dst) (act : Mask) (r : Nat → W64 × FFlags),
    cx? i s = some c → c.Clear → (c.floatResult i = some (d, act, r) ∨ c.narrowResult i = some (d, act, r)) →
    laneFlags act r &&& c.g.info.fpen = 0 →
    ∃ u, exec i s = .next u ∧ c.Wrote d act (fun l => (r l).1) (laneFlags act r) u

/-- R243, R247: FCMP writes the predicate of its condition, raises its flags, and changes nothing else; FFREXP writes the fraction to
the register it names and the exponent to the next one, and pushes both, the exponent last. -/
def Obligations.FcmpAndFfrexpComplete : Prop :=
  (∀ (t : Tail) (g : Guard) (p : PDst) (a b : Src) (n : FCond) (w : FWidth) (s : State) (c : Cx),
     cx? (.fcmp t g p a b n w) s = some c → c.Clear →
     let r (l : Nat) := (FWidth.fmt w).compare n (c.floatA t w a l) (c.floatB t w a b l)
     let fl := laneFlags (c.guard g) fun l => (0, (r l).2)
     fl &&& c.g.info.fpen = 0 →
     ∃ u, exec (.fcmp t g p a b n w) s = .next u ∧ c.Compared p (c.guard g) (fun l => (r l).1) fl u) ∧
  ∀ (t : Tail) (g : Guard) (d : VReg) (a : Src) (w : FWidth) (s : State) (c : Cx),
    cx? (.ffrexp t g d a w) s = some c → c.Clear →
    let r (l : Nat) := (FWidth.fmt w).frexp (c.floatA t w a l)
    let fl := laneFlags (c.guard g) fun l => (0, (r l).2.2)
    fl &&& c.g.info.fpen = 0 →
    ∃ u h, exec (.ffrexp t g d a w) s = .next u ∧ c.Issued c.nextPc h u ∧
      h.sys = { c.g.sys with fflags := c.g.sys.fflags ||| fl } ∧
      { h.regs with v := c.g.regs.v, rq := c.g.regs.rq } = c.g.regs ∧
      (∀ n < 24, ∀ l < 32, (h.reg n).lane l =
        if (c.guard g).has l && n == d.val + 1 then BitVec.ofInt 64 (r l).2.1
        else if (c.guard g).has l && n == d.val then w64 (r l).1 else (c.g.reg n).lane l) ∧
      ∀ l < 32, c.sp.lanes.has l = true → (c.guard g).has l = true →
        (h.aged 0).lane l = BitVec.ofInt 64 (r l).2.1 ∧ (h.aged 1).lane l = w64 (r l).1

/-- R208, R238, R251-R254: a special-function word issues at once and its result, the correctly rounded or bounded value of its
rule, is pending for the destination and the result queue until its cycle; flags wait with it. -/
def Obligations.SpecialFunctionIssues : Prop :=
  ∀ (i : Instr) (s : State) (c : Cx) (w : FWidth) (d : Dst) (n : Nat) (r : Nat → FRes),
    cx? i s = some c → c.Clear → c.specialResult i = some (w, d, n, r) →
    ∃ u p, exec i s = .next u ∧ c.Awaits u p ∧ p.on = .cycle (c.s.clock.cycle + n) ∧ p.prod = c.sp.pc ∧ p.act = c.act ∧
      p.regs = Dst.regs d ∧ p.nq = 1 ∧ p.rooms = [(c.sp.id, i.window)] ∧
      (∃ x, p.vals = [x] ∧ ∀ l < 32, c.act.has l = true → x.lane l = w64 (r l).1) ∧
      p.flags = laneFlags c.act fun l => floatWord (r l)

/-! ## Memory words -/

namespace Sys2Proof.Machine

/-- Every address is a multiple of the access size and has no bit above 47 (R302, R313). -/
def placed (size : Nat) (ls : List (Nat × Nat)) : Prop := ∀ e ∈ ls, e.2 % size = 0 ∧ wildAddr e.2 = false

/-- Translation maps every lane of a read with the permission it needs, the side log holds nothing for its page from before the
word first issued, and the core's miss queue has room (R32, R55, R59); `ok` gives the lanes their leaves and addresses, `s` is
the state after the lookups. -/
def Cx.Reaches (c : Cx) (acc : AccessKind) (atomic : Bool) (ls : List (Nat × Nat)) (ok : List LaneXl) (s : State) : Prop :=
  translateLanes c.s c.k c.g.info.ctx acc atomic ls = (⟨ok, [], []⟩, s) ∧ missRoom s (coreOf c.k) = true ∧
    ∀ e ∈ ls, slogHolds s (coreOf c.k) c.g.info.ctx e.2 (some (c.sp.logMark.getD s.vm.slogNext)) = false

/-- The unit after its lookups. -/
def Cx.after (c : Cx) (s : State) : Cx := { c with s := s }

/-- No region is open, or the core's budgets have room for the region's entries and holds (R84). -/
def Cx.fits (c : Cx) (entries holds : Nat) : Prop :=
  c.g.region = none ∨
    entriesUsed c.st (coreOf c.k) + entries ≤ 2048 ∧ holdsUsed c.st (coreOf c.k) + holds ≤ 4096

/-- The lanes' values as an L1 copy of their sectors gives them. -/
def Cx.copied (_c : Cx) (size : Nat) (x : LaneXl) (y : L1Copy) : LaneGot :=
  ⟨x.lane, x.va, Sector.field y.data (x.va % 32) size, y.poison, none⟩

/-- The load words, with their destination and type; LDC takes the lowest lane's address (R306, R308). -/
def loadWord (spread : Bool) (g : Guard) (l : La) (x : Dst) (a : Base) (o : Off) (mc : Bool) (ty : MemTy) : Instr :=
  if spread then .ldc g l x a o mc ty else .ld g l x a o mc ty

/-- The addresses a load word reads (R302, R308). -/
def Cx.loadAddrs (c : Cx) (spread : Bool) (g : Guard) (a : Base) (o : Off) (ty : MemTy) : List (Nat × Nat) :=
  if spread then (c.addrs a o (MemTy.size ty) (c.guard g)).take 1 else c.addrs a o (MemTy.size ty) (c.guard g)

/-- What each active lane receives: its own access, or the one that LDC makes for all of them (R306, R308). -/
def spreadGot (spread : Bool) (act : Mask) (gs : List LaneGot) : List LaneGot :=
  if spread then gs.flatMap fun r => act.lanes.map fun i => { r with lane := i } else gs

/-- The registers of a destination that takes `n` values (R303). -/
def Dst.run (d : Dst) (n : Nat) : List Nat :=
  match d with
  | .v r => regRun r.val n
  | _ => []

/-- The home slice of a leaf holds a sector as home, and no other die does; no slice waits for the sector, and no array has an error
in it (R69, R78, R79). -/
def homeAt (s : State) (l : Leaf) (sec : Nat) : Prop :=
  homeHolding s.ms sec = some l.home ∧
    ((l2Sector s.ms l.home sec).st = .c ∨ (l2Sector s.ms l.home sec).st = .d) ∧
    ∀ d, (l2Sector s.ms d sec).st ≠ .f ∧ NMap.get? s.ms.l2marks (l2MarkKey d sec) = none

/-- The words that write sectors: access size, lanes and addresses, whether it is atomic, and what a lane writes of its sector: ST its
bytes, RED its operand (R75, R309, R312). -/
def Cx.storeWord (c : Cx) (i : Instr) : Option (Nat × List (Nat × Nat) × Bool × (Nat → Nat → StoreKind)) :=
  match i with
  | .st g x a o _ ty =>
    some (MemTy.size ty, c.addrs a o (MemTy.size ty) (c.guard g), false, storeKindOf ty (c.storeData x).1 (c.storeData x).2)
  | .red g x a o _ op ty _ =>
    some (MemTy.size ty, c.addrs a o (MemTy.size ty) (c.guard g), true, fun lane va =>
      .red op ty [(va % 32, (c.source .stop .int x 0).lane lane)])
  | _ => none

/-- The sector requests of such a word: one for each target sector, those whose page waits last (R59, R75). -/
def Cx.requests (c : Cx) (x : Xlated) (ls : List (Nat × Nat)) (kind : Nat → Nat → StoreKind) : List LanePart :=
  (sectorReqs (ls.map fun e => ⟨e.2, c.target x e, kind e.1 e.2⟩)).map Prod.snd

/-- Requests that go into the side log (R59, R61). -/
def unmapped (reqs : List LanePart) : Nat := (reqs.filter fun q => q.xl.isNone).length

/-- The bytes that a store's request writes. -/
def LanePart.mask (q : LanePart) : Word32 :=
  match q.kind with
  | .store _ m => m
  | .red _ _ _ => 0

/-- The data of a store's request. -/
def LanePart.data (q : LanePart) : Sector :=
  match q.kind with
  | .store d _ => d
  | .red _ _ _ => 0

/-- The address of byte `j` of a request's sector. -/
def LanePart.byteAt (q : LanePart) (j : Nat) : Nat := ((q.xl.map Prod.snd).getD 0) / 32 * 32 + j

/-- A request goes to a sector of device memory that its home holds (R49, R69). -/
def LanePart.lands (q : LanePart) (s : State) : Prop :=
  ∃ l pa, q.xl = some (l, pa) ∧ l.tgt = 0 ∧ l.peer = 0 ∧ homeAt s l (pa / 32)

/-- A group as another group's word on its core may leave it: only what a WAITM of it reads next may change (R320). -/
def Group.still (g : Group) : Group := { g with splits := g.splits.map fun x => { x with reread := 0, watch := [] } }

/-- The atomic words: addresses, destination, type, what a lane does, and the words' lanes (R310-R312). -/
def Cx.atomicWord (c : Cx) (i : Instr) : Option (Mask × MemTy × Dst × List (Nat × Nat) × (Nat → MemOp)) :=
  match i with
  | .atom g _ x a o _ op ty _ d =>
    some (c.guard g, ty, d, c.addrs a o (MemTy.size ty) (c.guard g), fun n => .atom op ty ((c.source .stop .int x 0).lane n))
  | .acas g _ x a o _ ty _ y d =>
    some (c.guard g, ty, d, c.addrs a o (MemTy.size ty) (c.guard g), fun n =>
      .acas ty ((c.source .stop .int y (popsBefore [x] y)).lane n) ((c.source .stop .int x 0).lane n))
  | .axch g _ x a o _ ty _ d =>
    some (c.guard g, ty, d, c.addrs a o (MemTy.size ty) (c.guard g), fun n => .axch ty ((c.source .stop .int x 0).lane n))
  | _ => none

/-- The state in which the first returning atomic of a region reads: its core's copies are gone, its pages are counted, and the
homes hold the sectors (R70, R81, R97, R109). -/
def Cx.atHomes (c : Cx) (ok : List LaneXl) : State :=
  let core := coreOf c.k
  noteMiss (ok.foldl (fun s l =>
      (homeFetch (dropCopies s core l.leaf.home (l.pa / 32)) l.leaf.home (l.pa / 32) c.g.info.ctx l.leaf.noalloc).2)
    (sampleLines c.s c.g.info.ctx (dieOf core) (lineRequests ok))) core (atomDelay core ok)

/-- The scratchpad words: size, active lanes and addresses (R307, R309). -/
def Cx.scratchWord (c : Cx) (i : Instr) : Option (Bool × Nat × Mask × List (Nat × Nat)) :=
  match i with
  | .ldl g _ _ a o _ ty => some (true, MemTy.size ty, c.guard g, c.addrs a o (MemTy.size ty) (c.guard g))
  | .stl g _ a o _ ty => some (false, MemTy.size ty, c.guard g, c.addrs a o (MemTy.size ty) (c.guard g))
  | _ => none

/-- Granules that addresses lie in, each once. -/
def granulesOf (ls : List (Nat × Nat)) : List Nat := ls.foldl (fun acc e => insNat acc (e.2 / 32)) []

/-- The fence words with their sets and scope (R104, R316). -/
def fenceWord (i : Instr) : Option (Bool × Sets × Sets × Scope) :=
  match i with
  | .fence _ su pr e => some (false, su, pr, e)
  | .fenceS _ su pr e => some (true, su, pr, e)
  | _ => none

/-- A fence word in a region that the group runs past without waiting: a FENCE.S, unless a replay for speculation takes it as
FENCE (R106, R107). -/
def Region.runsPast (r : Region) (spec : Bool) : Bool := spec && !r.noSpec

/-- A fence word in a region that seams first: what it orders reaches over stores, or over loads behind it where the group does
not run past it (R84, R105, R106). -/
def Cx.fenceSeams (c : Cx) (r : Region) (spec : Bool) (su pr : Sets) : Bool :=
  (Sets.hasSt pr || (!r.runsPast spec && Sets.hasLd su)) && !r.freshAt c.sp.pc

/-- A lane of a WAITM reads at this attempt: it has not read yet, its time has come, or its reply has (R320). -/
def Cx.watchOver (c : Cx) (lane : Nat) : Bool :=
  match NMap.get? c.sp.watch lane with
  | some t => decide (t.1 ≤ c.s.clock.dtime) || c.answered lane
  | none => true

/-- What the lanes of a WAITM read at one attempt (R320). -/
def Cx.waitmReads (c : Cx) (a : VReg) (n : WCond) (w : Width) (ok : List LaneXl) : WaitRead :=
  ok.foldl (fun (r : WaitRead) x => r.lane n (waitTy n w) w (c.rd.reg (a.val + 1)) x) ⟨c, c.sp.got, [], c.sp.watch⟩

/-- The sectors of the lines that a cache-control word's lanes name, with their homes (R321). -/
def Cx.hintSectors (c : Cx) (g : Guard) (a : Addr6) : List (Nat × Nat) :=
  (c.hints g a).flatMap fun x => (List.range 4).map fun j => (x.1.home, lineOf x.2.1 * 4 + j)

/-- What PREF does in one lane: with V it fills the home's slice, else the core's L1 (R322). -/
def Cx.prefetch (c : Cx) (v : Bool) (s : State) (x : Leaf × Nat × Nat) : State :=
  if v then (homeFetch s x.1.home (x.2.1 / 32) c.g.info.ctx x.1.noalloc).2
  else (coreRead s (coreOf c.k) x.1.home (x.2.1 / 32) c.g.info.ctx x.1.noalloc).2

end Sys2Proof.Machine

/-- R32, R208, R303, R306, R308, R313: a load of aligned, mapped device addresses issues. Its result is pending for the registers it
names: each lane's value is cut from the sector that the core's caches or the home give, with the group's own buffered bytes
over it, and widened by the type. Nothing else of the group's registers changes. -/
def Obligations.LoadCompletes : Prop :=
  ∀ (spread : Bool) (g : Guard) (l : La) (x : Dst) (a : Base) (o : Off) (mc : Bool) (ty : MemTy) (s s' : State) (c : Cx)
    (ok : List LaneXl),
    cx? (loadWord spread g l x a o mc ty) s = some c → c.Clear →
    placed (MemTy.size ty) (c.loadAddrs spread g a o ty) → c.Reaches .read false (c.loadAddrs spread g a o ty) ok s' →
    (∀ y ∈ ok, y.leaf.tgt = 0) → (c.after s').fits 0 ((c.after s').newHolds (sectorsOf ok)) →
    let read := ((c.after s').loadSectors ok).1
    let got := spreadGot spread (c.guard g) (ok.map (((c.after s').loadSectors ok).2.laneBytes read (MemTy.size ty)))
    ∃ u p n, exec (loadWord spread g l x a o mc ty) s = .next u ∧ c.Awaits u p ∧ p.prod = c.sp.pc ∧ p.act = c.guard g ∧
      p.on = .cycle n ∧ c.s.clock.cycle + 28 ≤ n ∧ p.vals = gotRegs ty got ∧ p.regs = Dst.run x p.vals.length ∧
      p.trap = gotTrap c.g.info.accept got

/-- R69, R78, R80, R86, R100, R305: a load outside regions whose sectors all have a running L1 copy without an error is back with the
copies' bytes after 28 cycles, or after 40 where another core's L1 of a fused cluster holds one; it leaves memory and every cache
as its lookups left them. A core of the home's own die that has no copy of a sector reads what the home holds, and no byte of
memory changes. -/
def Obligations.LoadsReadTheirCopies : Prop :=
  (∀ (spread : Bool) (g : Guard) (l : La) (x : Dst) (a : Base) (o : Off) (mc : Bool) (ty : MemTy) (s s' : State) (c : Cx)
     (ok : List LaneXl) (copy : Nat → L1Copy),
     cx? (loadWord spread g l x a o mc ty) s = some c → c.Clear → c.g.region = none →
     placed (MemTy.size ty) (c.loadAddrs spread g a o ty) → c.Reaches .read false (c.loadAddrs spread g a o ty) ok s' →
     (∀ y ∈ ok, y.leaf.tgt = 0 ∧ l1Copy s' (coreOf c.k) (y.pa / 32) = some (copy (y.pa / 32)) ∧
       s'.clock.dtime < (copy (y.pa / 32)).lease ∧
       NMap.get? s'.ms.l1marks (l1Owner s' (coreOf c.k) (y.pa / 32 / 4) * 2 ^ 35 + y.pa / 32) = none) →
     let got := spreadGot spread (c.guard g) (ok.map fun y => c.copied (MemTy.size ty) y (copy (y.pa / 32)))
     let far := ok.any fun y => l1Owner s' (coreOf c.k) (y.pa / 32 / 4) != coreOf c.k
     ∃ u p, exec (loadWord spread g l x a o mc ty) s = .next u ∧ c.Awaits u p ∧
       p.on = .cycle (c.s.clock.cycle + if far then 40 else 28) ∧
       p.vals = gotRegs ty got ∧ u.ms = s'.ms ∧ ∀ j, j ≠ c.k → u.group? j = s'.group? j) ∧
  ∀ (s : State) (core ctx sec : Nat) (l : Leaf), l1Copy s core sec = none → dieOf core = l.home → homeAt s l sec →
    let r := coreRead s core l.home sec ctx l.noalloc
    r.1.data = (sectorNow s.ms sec).1 ∧ r.1.poison = (sectorNow s.ms sec).2 ∧ r.1.lease = s.clock.dtime + 250 ∧
      ∀ pa, byteNow r.2.ms pa = byteNow s.ms pa

/-- R32, R75, R81, R309, R312: ST and RED outside regions, with addresses aligned and none denied, issue and send their sector
requests in ascending order; what is outstanding joins the group's accesses. Requests whose page waits, or whose page the side
log holds, enter the log, which has room for them (R59, R61). -/
def Obligations.StoreCompletes : Prop :=
  ∀ (i : Instr) (s s' : State) (c : Cx) (size : Nat) (ls : List (Nat × Nat)) (atomic : Bool) (kind : Nat → Nat → StoreKind)
    (x : Xlated),
    cx? i s = some c → c.Clear → c.g.region = none → c.storeWord i = some (size, ls, atomic, kind) → placed size ls →
    translateLanes c.s c.k c.g.info.ctx .write atomic ls = (x, s') → x.denied = [] → missRoom s' (coreOf c.k) = true →
    let reqs := (c.after s').requests x ls kind
    (unmapped reqs = 0 ∨ ownerlessOf s' (coreOf c.k) = [] ∧ (slogOf s' (coreOf c.k)).length + unmapped reqs ≤ 256) →
    let sent := sendParts ((c.after s').pops i.uses).s c.writer reqs
    ∃ u h, exec i s = .next u ∧ c.Passed h u ∧ h.pend.length = c.g.pend.length ∧ h.out = c.g.out ++ sent.1 ∧
      u.ms = sent.2.ms ∧ u.vm = sent.2.vm

/-- R54, R75, R76, R81, R309: a store outside regions whose sectors their homes hold writes its requests' bytes there: of every
sector exactly the masked bytes, and every other byte of memory stays as the lookups left it. Other groups keep all their state but
what a WAITM of the core reads next (R320). -/
def Obligations.StoreWritesItsBytes : Prop :=
  ∀ (g : Guard) (x : Src) (a : Base) (o : Off) (mc : Bool) (ty : MemTy) (s s' : State) (c : Cx) (xl : Xlated),
    let i := Instr.st g x a o mc ty
    let ls := c.addrs a o (MemTy.size ty) (c.guard g)
    let reqs := (c.after s').requests xl ls (storeKindOf ty (c.storeData x).1 (c.storeData x).2)
    cx? i s = some c → c.Clear → c.g.region = none → placed (MemTy.size ty) ls →
    translateLanes c.s c.k c.g.info.ctx .write false ls = (xl, s') → xl.denied = [] → missRoom s' (coreOf c.k) = true →
    (∀ q ∈ reqs, q.lands s') →
    ∃ u, exec i s = .next u ∧
      (∀ q ∈ reqs, ∀ j < 32, byteNow u.ms (q.byteAt j) =
        if q.mask.getLsbD j then Sector.byte q.data j else byteNow s'.ms (q.byteAt j)) ∧
      (∀ pa, (∀ q ∈ reqs, ∀ j < 32, q.mask.getLsbD j = true → pa ≠ q.byteAt j) → byteNow u.ms pa = byteNow s'.ms pa) ∧
      ∀ j, j ≠ c.k → (u.group? j).map Group.still = (s'.group? j).map Group.still

/-- R75, R76: a lane's part of a store holds its bytes at their places of the sector and nothing else; where lanes store to one byte
of one sector, whatever addresses they reach it by, the highest lane's byte is the one that the sector's request carries. -/
def Obligations.HighestLanePrevails : Prop :=
  (∀ (va j : Nat) (bs : List Byte), va % 32 + bs.length ≤ 32 → j < 32 →
    let q : LanePart := ⟨va, none, storePart va bs⟩
    (q.mask.getLsbD j = true ↔ va % 32 ≤ j ∧ j < va % 32 + bs.length) ∧
    (va % 32 ≤ j → ∀ b, bs[j - va % 32]? = some b → Sector.byte q.data j = b)) ∧
  ∀ (ls : List LanePart) (n j : Nat) (e : LanePart), (∀ y ∈ ls, ∃ d m, y.kind = .store d m) → j < 32 →
    ls[n]? = some e → e.mask.getLsbD j = true →
    (∀ m y, n < m → ls[m]? = some y → reqKey y.va y.xl = reqKey e.va e.xl → y.mask.getLsbD j = false) →
    ∃ q, NMap.get? (sectorReqs ls) (reqKey e.va e.xl) = some q ∧ reqKey q.va q.xl = reqKey e.va e.xl ∧
      q.mask.getLsbD j = true ∧ Sector.byte q.data j = Sector.byte e.data j

/-- R82, R84, R109: in a region ST issues at once and its bytes stay in the region's buffer, which takes the sector requests in order;
memory, caches and scratchpads stay as the lookups left them. The first returning atomic of a region, on device sectors that the
region has not buffered, reads at the homes now, is recorded for COMMIT, and writes nothing: its core keeps no copy of what it
touches, and where the homes hold the sectors every byte of memory is as before. -/
def Obligations.RegionKeepsItsWrites : Prop :=
  (∀ (g : Guard) (x : Src) (a : Base) (o : Off) (mc : Bool) (ty : MemTy) (s s' : State) (c : Cx) (r : Region) (xl : Xlated),
     let i := Instr.st g x a o mc ty
     let ls := c.addrs a o (MemTy.size ty) (c.guard g)
     let reqs := (c.after s').requests xl ls (storeKindOf ty (c.storeData x).1 (c.storeData x).2)
     cx? i s = some c → c.Clear → c.g.region = some r → placed (MemTy.size ty) ls →
     translateLanes c.s c.k c.g.info.ctx .write false ls = (xl, s') → xl.denied = [] →
     (c.after s').fits (reqs.filter fun q => (r.mergeAt false q.va (physKey q.xl)).isNone).length 0 →
     ∃ u h r', exec i s = .next u ∧ c.Passed h u ∧ u.ms = s'.ms ∧ u.work.teams = s'.work.teams ∧ h.region = some r' ∧
       r'.buf = (r.storeAll reqs s'.clock.cycle).buf) ∧
  ∀ (i : Instr) (s s' : State) (c : Cx) (act : Mask) (ty : MemTy) (d : Dst) (ls : List (Nat × Nat)) (op : Nat → MemOp)
    (ok : List LaneXl) (r : Region),
    cx? i s = some c → c.Clear → c.g.region = some r → c.atomicWord i = some (act, ty, d, ls, op) → placed (MemTy.size ty) ls →
    c.Reaches .write true ls ok s' → ok ≠ [] → (∀ y ∈ ok, y.leaf.tgt = 0) → r.atomicOut = false → r.atomic = none →
    (∀ y ∈ ok, ∀ e ∈ r.buf, e.at false y.va (physKey (some (y.leaf, y.pa))) = false) →
    let t := (c.after s').atHomes ok
    let got := (atomLanes t (coreOf c.k) c.g.info.ctx op ok).1
    ∃ u h p r' z, exec i s = .next u ∧ c.Awaits u p ∧ p.vals = gotRegs ty got ∧ u.ms = t.ms ∧ u.group? c.k = some h ∧
      h.region = some r' ∧ r'.atomic = some z ∧ r'.buf = r.buf ∧ z.size = MemTy.size ty ∧
      z.lanes = ((got.filter fun y => !y.poison).map fun y =>
        (y.lane, y.va, w64 y.val, (MemOp.apply (op y.lane) y.val).map w64)) ∧
      (∀ y ∈ ok, l1Copy u (coreOf c.k) (y.pa / 32) = none) ∧
      ((∀ y ∈ ok, homeAt s' y.leaf (y.pa / 32)) → ∀ pa, byteNow u.ms pa = byteNow s'.ms pa)

/-- R81, R97, R99, R312, R314: an atomic at a sector that its home holds without poison reads the bytes, and, where its operation
writes, stores the new value at exactly those bytes; the core's own copy of the sector goes. -/
def Obligations.AtomicActsAtItsHome : Prop :=
  ∀ (s : State) (core pa ctx : Nat) (l : Leaf) (op : MemOp), homeAt s l (pa / 32) → (l2Sector s.ms l.home (pa / 32)).poison = false →
    pa % 32 + MemOp.size op ≤ 32 →
    let old := Sector.field (sectorNow s.ms (pa / 32)).1 (pa % 32) (MemOp.size op)
    let r := atomDevice s core l pa ctx op
    r.1 = old ∧ r.2.1 = false ∧ l1Copy r.2.2.2 core (pa / 32) = none ∧
      (∀ v, MemOp.apply op old = some v →
        Sector.field (sectorNow r.2.2.2.ms (pa / 32)).1 (pa % 32) (MemOp.size op) = v % 2 ^ (8 * MemOp.size op)) ∧
      (MemOp.apply op old = none → Sector.field (sectorNow r.2.2.2.ms (pa / 32)).1 (pa % 32) (MemOp.size op) = old) ∧
      ∀ x, (x < pa ∨ pa + MemOp.size op ≤ x) → byteNow r.2.2.2.ms x = byteNow s.ms x

/-- R305, R310, R312: ATOM, ACAS and AXCH outside regions, on aligned and mapped device addresses, issue and perform their lanes'
operations in ascending order; the old values are pending for the destination. -/
def Obligations.AtomicCompletes : Prop :=
  ∀ (i : Instr) (s s' : State) (c : Cx) (act : Mask) (ty : MemTy) (d : Dst) (ls : List (Nat × Nat)) (op : Nat → MemOp)
    (ok : List LaneXl),
    cx? i s = some c → c.Clear → c.g.region = none → c.atomicWord i = some (act, ty, d, ls, op) → placed (MemTy.size ty) ls →
    c.Reaches .write true ls ok s' → (∀ y ∈ ok, y.leaf.tgt = 0) →
    let did := atomLanes (((c.after s').pops i.uses).s) (coreOf c.k) c.g.info.ctx op ok
    ∃ u p n, exec i s = .next u ∧ c.Awaits u p ∧ p.prod = c.sp.pc ∧ p.act = act ∧ p.on = .cycle n ∧ c.s.clock.cycle + 140 ≤ n ∧
      p.vals = gotRegs ty did.1 ∧ p.regs = Dst.run d p.vals.length ∧ p.trap = gotTrap c.g.info.accept did.1 ∧
      u.ms = did.2.2.ms

/-- R33, R87, R88, R307, R309: LDL and STL of addresses that lie in the team's scratchpad and are not busy issue. LDL, of initialised
words, has the scratchpad's bytes pending for its registers and changes no byte of memory or scratchpad: of its granules it only
finds what their arrays hold. STL writes exactly its lanes' bytes, the highest lane's where lanes meet, and sets the init bits of
their words; every other byte stays as it was. -/
def Obligations.ScratchAccessCompletes : Prop :=
  (∀ (g : Guard) (l : La) (x : Dst) (a : Base) (o : Off) (mc : Bool) (ty : MemTy) (s : State) (c : Cx),
     let ls := c.addrs a o (MemTy.size ty) (c.guard g)
     cx? (.ldl g l x a o mc ty) s = some c → c.Clear → c.g.region = none → (∀ e ∈ ls, e.2 % MemTy.size ty = 0) →
     c.violations true (MemTy.size ty) ls = [] →
     let sc := c.scratch.check (granulesOf ls)
     let got : List LaneGot := ls.map fun e =>
       ⟨e.1, e.2, Sector.field (c.scratch.sector (e.2 / 32)) (e.2 % 32) (MemTy.size ty), sc.poison.contains (e.2 / 32), none⟩
     ∃ u p m, exec (.ldl g l x a o mc ty) s = .next u ∧ c.Awaits u p ∧
       p.on = .cycle (c.s.clock.cycle + 23 + bankCycles (MemTy.size ty) ls) ∧ p.act = c.guard g ∧ p.vals = gotRegs ty got ∧
       p.regs = Dst.run x p.vals.length ∧ p.trap = gotTrap c.g.info.accept got ∧ u.ms = c.s.ms ∧
       (∀ j, j ≠ c.k → u.group? j = c.s.group? j) ∧
       u.team? c.g.info.team = some m ∧ m.scr = sc ∧ m.scr.bytes = c.scratch.bytes ∧ m.scr.init = c.scratch.init ∧
       ∀ j, j ≠ c.g.info.team → (u.team? j).map Team.scr = (c.s.team? j).map Team.scr) ∧
  ∀ (g : Guard) (x : Src) (a : Base) (o : Off) (mc : Bool) (ty : MemTy) (s : State) (c : Cx),
    let ls := c.addrs a o (MemTy.size ty) (c.guard g)
    let reqs := (sectorReqs (ls.map fun e => ⟨e.2, none, storeKindOf ty (c.storeData x).1 (c.storeData x).2 e.1 e.2⟩)).map Prod.snd
    cx? (.stl g x a o mc ty) s = some c → c.Clear → c.g.region = none → (∀ e ∈ ls, e.2 % MemTy.size ty = 0) →
    c.violations false (MemTy.size ty) ls = [] → Memory.wf c.scratch.bytes = true →
    ∃ u h m, exec (.stl g x a o mc ty) s = .next u ∧ c.Passed h u ∧ u.ms = c.s.ms ∧ u.team? c.g.info.team = some m ∧
      m.scr.size = c.scratch.size ∧ m.scr.busy = c.scratch.busy ∧
      (∀ q ∈ reqs, ∀ j < 32, cellGet m.scr.bytes (32 * (q.va / 32) + j) =
        if q.mask.getLsbD j then Sector.byte q.data j else cellGet c.scratch.bytes (32 * (q.va / 32) + j)) ∧
      (∀ n, (∀ q ∈ reqs, q.va / 32 ≠ n / 32) → cellGet m.scr.bytes n = cellGet c.scratch.bytes n) ∧
      (∀ w, m.scr.isInit w = (c.scratch.isInit w || reqs.any fun q =>
        q.va / 32 == w / 8 && (List.range 4).any fun b => q.mask.getLsbD (4 * (w % 8) + b))) ∧
      (∀ j, j ≠ c.k → u.group? j = c.s.group? j) ∧
      ∀ j, j ≠ c.g.info.team → (u.team? j).map Team.scr = (c.s.team? j).map Team.scr

/-- R89, R90, R91: lanes of LDL and STL that violate are switched off, for good, with their causes in SCRMASK; the word goes on
with the others, and nothing traps. -/
def Obligations.ScratchViolationSwitchesOff : Prop :=
  ∀ (i : Instr) (s : State) (c : Cx) (load : Bool) (size : Nat) (act : Mask) (ls : List (Nat × Nat)),
    cx? i s = some c → c.Clear → c.g.region = none → c.scratchWord i = some (load, size, act, ls) → (∀ e ∈ ls, e.2 % size = 0) →
    c.g.sys.tracectl = 0 →
    let bad := c.violations load size ls
    let off := lanesMask (bad.map Prod.fst)
    bad ≠ [] → c.sp.m &&& ~~~off ≠ 0 →
    ∃ u h sp, exec i s = .next u ∧ u.last = .issued ∧ u.group? c.k = some h ∧ h.off = c.g.off ||| off ∧
      h.split? c.sp.id = some sp ∧ sp.m = c.sp.m &&& ~~~off ∧ sp.pc = c.nextPc ∧
      { h.sys with scrmask := c.g.sys.scrmask } = c.g.sys ∧
      h.sys.scrmask = c.g.sys.scrmask ||| off.setWidth 64 |||
        (if bad.any fun b => b.2.1 then w64 (2 ^ 32) else 0) ||| (if bad.any fun b => b.2.2.1 then w64 (2 ^ 33) else 0) |||
        (if bad.any fun b => b.2.2.2 then w64 (2 ^ 34) else 0)

/-- R84, R104-R107, R316, R317: FENCE and FENCE.S issue when their conditions hold, and the group's completed accesses raise HORIZON;
a fence whose conditions do not hold is held and changes nothing but what its completed accesses change. In a region a fence that
its sets make seam commits first. A FENCE.S in a region, unless a replay for speculation takes it as FENCE, issues without waiting
and stays to be validated. -/
def Obligations.FenceWaitsForItsConditions : Prop :=
  ∀ (i : Instr) (s : State) (c : Cx) (spec : Bool) (su pr : Sets) (e : Scope),
    cx? i s = some c → c.Clear → fenceWord i = some (spec, su, pr, e) →
    let g := c.g.settle c.s
    let wait := g.out.filter fun x => x.split == c.sp.id
    ((c.g.region = none ∨ ∃ r, c.g.region = some r ∧ r.runsPast spec = false ∧ c.fenceSeams r spec su pr = false) →
      ∃ u h, exec i s = .next u ∧ u.group? c.k = some h ∧ h.regs = c.g.regs ∧ h.sys = g.sys ∧ h.out = g.out ∧
      u.ms = c.s.ms ∧
      if fenceHolds c.s c.k g wait pr e then u.last = .issued ∧ c.stands h c.nextPc
      else u.last = .held ∧ h.split? c.sp.id = some { c.sp with hold := some (.fence pr su e) }) ∧
    (∀ r, c.g.region = some r → c.fenceSeams r spec su pr = true → exec i s = .next (c.commit .seam)) ∧
    ∀ r, c.g.region = some r → r.runsPast spec = true → c.fenceSeams r spec su pr = false →
      ∃ u h r', exec i s = .next u ∧ c.Went h u ∧ h.sys = g.sys ∧ u.ms = c.s.ms ∧ h.region = some r' ∧ r'.buf = r.buf ∧
        r'.fences = r.fences ++ [⟨pr, su, e, wait, []⟩]

/-- R319, R320: WAITM completes when every lane of its guard has read a value that satisfies its condition: those values are
pending for the result queue. The lanes whose time to read has come read at this attempt. -/
def Obligations.WaitmCompletes : Prop :=
  ∀ (b : Bool) (g : Guard) (l : La) (a : VReg) (n : WCond) (w : Width) (s s' : State) (c : Cx) (ok : List LaneXl),
    let ls := ((c.guard g).lanes.filter fun x => (NMap.get? c.sp.got x).isNone).map fun x => (x, ((c.rd.reg a.val).lane x).toNat)
    cx? (.waitm b g l a n w) s = some c → c.Clear → c.cls ≠ 2 → c.g.region = none →
    (c.sp.hold = some (.wait .waitm) → c.sp.reread ≤ c.s.clock.dtime) →
    placed (MemTy.size (waitTy n w)) ls → c.Reaches .read false (ls.filter fun e => c.watchOver e.1) ok s' →
    let r := (c.after s').waitmReads a n w ok
    r.bad = [] → (∀ x ∈ (c.guard g).lanes, (NMap.get? r.got x).isSome = true) →
    ∃ u h p, exec (.waitm b g l a n w) s = .next u ∧ u.last = .issued ∧ u.group? c.k = some h ∧ c.stands h c.nextPc ∧
      { h.regs with rq := c.g.regs.rq } = c.g.regs ∧ h.pend.getLast? = some p ∧ p.on = .cycle (c.s.clock.cycle + 28) ∧
      p.act = c.guard g ∧ p.regs = [] ∧
      p.vals = gotRegs (waitTy n w) (r.got.map fun e => ⟨e.1, 0, e.2.toNat, false, none⟩)

/-- R32, R321, R322: cache-control words always complete and change no register. CCTL.inv drops the core's copies of the lines its
lanes name and no other, and CCTL.invall every copy of its core. Where nothing is amiss in memory or in the arrays, CCTL.wb leaves no dirty
sector in those lines at their homes: each is kept there, clean, and, with no packet waiting on its line, its data stand in main memory. PREF, unless the core's miss
queue is full, fills for its lanes in ascending order: the sector of the last stands in the home's slice, or in the core's L1 with
its lease running. -/
def Obligations.CacheWordsComplete : Prop :=
  ∀ (b v : Bool) (g : Guard) (a : Addr6) (s : State) (c : Cx),
    (cx? (.cctlInv b g a) s = some c → c.Clear →
      ∃ u h, exec (.cctlInv b g a) s = .next u ∧ c.Passed h u ∧ u.ms.l2 = c.s.ms.l2 ∧ u.ms.mem = c.s.ms.mem ∧
        ∀ sec, l1Copy u (coreOf c.k) sec =
          if (c.hintSectors g a).any (fun e => e.2 == sec) then none else l1Copy c.s (coreOf c.k) sec) ∧
    (cx? (.cctlInvall b) s = some c → c.Clear →
      ∃ u h, exec (.cctlInvall b) s = .next u ∧ c.Passed h u ∧ u.ms = { c.s.ms with l1 := NMap.erase c.s.ms.l1 (coreOf c.k) }) ∧
    (cx? (.cctlWb b g a) s = some c → c.Clear →
      ∃ u h, exec (.cctlWb b g a) s = .next u ∧ c.Passed h u ∧ u.ms.l1 = c.s.ms.l1 ∧
        (c.s.ms.marks = [] → c.s.ms.l2marks = [] → ∀ e ∈ c.hintSectors g a, (l2Sector u.ms e.1 e.2).st ≠ .d ∧
          ((l2Sector c.s.ms e.1 e.2).st = .d →
          l2Sector u.ms e.1 e.2 = { l2Sector c.s.ms e.1 e.2 with st := .c } ∧
          ((∀ d, d ≠ e.1 → (l2Sector c.s.ms d e.2).st ≠ .d) →
            (∀ p ∈ (c.s.chan (channelOf (e.2 / 4))).packets, p.line ≠ e.2 / 4) →
            memSector u.ms e.2 = (l2Sector c.s.ms e.1 e.2).data ∧ granPoison u.ms e.2 = (l2Sector c.s.ms e.1 e.2).poison)))) ∧
    (cx? (.pref b g a v) s = some c → c.Clear →
      (missRoom c.s (coreOf c.k) = false → ∃ u, exec (.pref b g a v) s = .next u ∧ c.Holds .full u) ∧
      (missRoom c.s (coreOf c.k) = true →
        ∃ u h, exec (.pref b g a v) s = .next u ∧ c.Passed h u ∧
          u.ms = ((c.hints g a).foldl (c.prefetch v) c.s).ms ∧
          ∀ x, (c.hints g a).getLast? = some x →
            if v then (l2Sector u.ms x.1.home (x.2.1 / 32)).st = .c ∨ (l2Sector u.ms x.1.home (x.2.1 / 32)).st = .d
            else ∃ y, l1Copy u (coreOf c.k) (x.2.1 / 32) = some y ∧ c.s.clock.dtime < y.lease))

/-- R302, R313, R436: a load, store or atomic with a misaligned lane takes ALIGN, and one with a wild address takes PROT, before
anything is translated. With a handler, outside handler mode and with nothing pending, the lanes at fault stand in XMASK, and the
lowest one's address in XADDR. -/
def Obligations.MisalignedAccessTraps : Prop :=
  ∀ (i : Instr) (s : State) (c : Cx) (size : Nat) (ls : List (Nat × Nat)),
    cx? i s = some c → c.Clear → ((∃ a b, c.storeWord i = some (size, ls, a, b)) ∨
      (∃ sp g l x a o mc ty, i = loadWord sp g l x a o mc ty ∧ size = MemTy.size ty ∧ ls = c.loadAddrs sp g a o ty) ∨
      (∃ act ty d op, size = MemTy.size ty ∧ c.atomicWord i = some (act, ty, d, ls, op))) →
    let traps (cause : Nat) (bad : List (Nat × Nat)) : Prop := exec i s = .next (c.laneTrap cause bad) ∧
      (c.g.info.handler.isSome = true → c.g.trap = none → c.g.pend = [] →
        c.Entered (c.laneTrap cause bad) cause (lanesMask (bad.map Prod.fst)) (w64 ((bad.head?.map Prod.snd).getD 0)) 0 c.sp.pc)
    ((ls.filter fun e => e.2 % size != 0) ≠ [] → traps 0x09 (ls.filter fun e => e.2 % size != 0)) ∧
    ((∀ e ∈ ls, e.2 % size = 0) → (ls.filter fun e => wildAddr e.2) ≠ [] → traps 0x08 (ls.filter fun e => wildAddr e.2))

/-! ## Control flow -/

namespace Sys2Proof.Machine

/-- A mask without the lanes that are switched off or have exited (R374). -/
def Cx.alive (c : Cx) (m : Mask) : Mask := m &&& ~~~(c.g.off ||| c.g.gone)

/-- The mask, the mask stack and the place that a control word of the mask stack gives its split, when it meets the stack it needs
(R375, R378, R379). -/
def Cx.control (c : Cx) (i : Instr) : Option (Mask × List MaskEntry × Pc) :=
  let p (g : Guard) : Mask := match g with
    | .always => Mask.all
    | .p n => c.rd.pred n.val
  let next : Pc := ⟨c.sp.pc.packet + 1, 0⟩
  match i, c.sp.stack with
  | .ifW _ g o, st => (targetPacket c.sp.pc.packet o).bind fun t =>
      if 32 ≤ st.length then none
      else some (c.alive (c.sp.m &&& p g),
        ⟨false, c.sp.m, c.sp.m &&& ~~~(p g), 0, false, t, 0, if endifAt c.s c.g t then some t else none⟩ :: st, next)
  | .elseW _ o, e :: st => (targetPacket c.sp.pc.packet o).bind fun t =>
      if e.loop || e.elsePhase then none else some (c.alive e.e, ⟨false, e.o, 0, e.ct, true, e.t, e.h, some t⟩ :: st, next)
  | .endif _, e :: st => if e.loop || c.atDivision.isSome then none else some (c.alive e.o, st, next)
  | .loopW _ g o, st => (targetPacket c.sp.pc.packet o).bind fun t =>
      if 32 ≤ st.length then none
      else some (c.alive (c.sp.m &&& p g), ⟨true, c.sp.m, 0, 0, false, 0, c.sp.pc.packet + 1, some t⟩ :: st, next)
  | .endloop _ g, e :: st =>
      if !e.loop || c.atDivision.isSome then none
      else
        let again := c.alive ((c.sp.m ||| e.ct) &&& p g)
        if again = 0 then some (c.alive e.o, st, next)
        else some (again, ⟨true, e.o, e.e, 0, e.elsePhase, e.t, e.h, e.x⟩ :: st, ⟨e.h, 0⟩)
  | .brk _ g, st => c.sp.innerLoop.map fun n =>
      (c.alive (c.sp.m &&& ~~~(p g)), cutLanes st n (c.sp.m &&& p g) false, next)
  | .cont _ g, st => c.sp.innerLoop.map fun n =>
      (c.alive (c.sp.m &&& ~~~(p g)), cutLanes st n (c.sp.m &&& p g) true, next)
  | _, _ => none

/-- The lanes that the group would still have with a mask and stack for the split in hand (R382). -/
def Cx.lanesWith (c : Cx) (m : Mask) (st : List MaskEntry) : Mask :=
  (c.g.setSplit { c.sp with m := m, stack := st }).lanesLeft

end Sys2Proof.Machine

/-- R373, R375-R379: IF, ELSE, ENDIF, LOOP, ENDLOOP, BRK and CONT give the split the mask and the stack of their rule. With a lane
active it goes on at the next packet or at the loop's first one; with none, and lanes of the group left, it goes to its resume
point, where it must find the word that ends the arm or the loop. -/
def Obligations.MaskWordMovesItsSplit : Prop :=
  ∀ (i : Instr) (s : State) (c : Cx) (m : Mask) (st : List MaskEntry) (pc : Pc),
    cx? i s = some c → c.Clear → c.control i = some (m, st, pc) →
    (m ≠ 0 → ∃ u, exec i s = .next u ∧ c.Moved u pc m st c.sp.rets none) ∧
    ∀ packet a, m = 0 → c.lanesWith 0 st ≠ 0 →
      Split.resume { c.sp with m := 0, stack := st } (decide (1 < c.g.splits.length)) = .goesTo packet a →
      ∃ u, exec i s = .next u ∧ c.Moved u ⟨packet, 0⟩ 0 st c.sp.rets a

/-- R381, R383: JMP, CALL and RET with a predicate that agrees among the active lanes transfer when it is set in all of them and go
on to the next packet otherwise; CALL pushes the packet after it with the depth of the mask stack, and RET pops it. NOP goes on
to the next word. -/
def Obligations.TransferCompletes : Prop :=
  ∀ (b : Bool) (g : Guard) (o : Off16) (s : State) (c : Cx) (t : Nat),
    let next : Pc := ⟨c.sp.pc.packet + 1, 0⟩
    (cx? (.jmp b g o) s = some c → c.Clear → c.mixed g = false → targetPacket c.sp.pc.packet o = some t →
      ∃ u, exec (.jmp b g o) s = .next u ∧ c.Moved u (if c.taken g then ⟨t, 0⟩ else next) c.sp.m c.sp.stack c.sp.rets none) ∧
    (cx? (.call b g o) s = some c → c.Clear → c.mixed g = false → targetPacket c.sp.pc.packet o = some t →
      (c.taken g = true → c.sp.rets.length < 16) →
      ∃ u, exec (.call b g o) s = .next u ∧ c.Moved u (if c.taken g then ⟨t, 0⟩ else next) c.sp.m c.sp.stack
        (if c.taken g then ⟨c.sp.pc.packet + 1, c.sp.stack.length⟩ :: c.sp.rets else c.sp.rets) none) ∧
    (cx? (.ret b g) s = some c → c.Clear → c.mixed g = false →
      (c.taken g = false → ∃ u, exec (.ret b g) s = .next u ∧ c.Moved u next c.sp.m c.sp.stack c.sp.rets none) ∧
      (c.taken g = true → ∀ e rest, c.sp.rets = e :: rest → c.sp.stack.length = e.depth →
        (∀ d ∈ c.sp.divs, d.rets < c.sp.rets.length) →
        ∃ u, exec (.ret b g) s = .next u ∧ c.Moved u ⟨e.packet, 0⟩ c.sp.m c.sp.stack rest none)) ∧
    (cx? (.nop b) s = some c → c.Clear → ∃ u h, exec (.nop b) s = .next u ∧ c.Passed h u ∧ u.ms = c.s.ms)

/-- R375, R382: EXIT removes its lanes for good from the mask and from every entry of the split's stack; when lanes of the group
are left it goes on with the others, and when none is left and nothing is pending, outside a region, the group leaves its core. -/
def Obligations.ExitRemovesItsLanes : Prop :=
  ∀ (b : Bool) (g : Guard) (s : State) (c : Cx),
    let rem := c.sp.m &&& (match g with
      | .always => Mask.all
      | .p n => c.rd.pred n.val)
    let st := c.sp.stack.map fun e => { e with o := e.o &&& ~~~rem, e := e.e &&& ~~~rem, ct := e.ct &&& ~~~rem }
    let m := c.sp.m &&& ~~~rem &&& ~~~(c.g.off ||| (c.g.gone ||| rem))
    cx? (.exit b g) s = some c → c.Clear →
    (m ≠ 0 → ∃ u h, exec (.exit b g) s = .next u ∧ c.Moved u ⟨c.sp.pc.packet + 1, 0⟩ m st c.sp.rets none ∧
      u.group? c.k = some h ∧ h.gone = c.g.gone ||| rem) ∧
    (m = 0 → c.lanesWith 0 st = 0 → c.g.pend = [] → c.g.region = none →
      ∃ u, exec (.exit b g) s = .next u ∧ u.last = .issued ∧ u.group? c.k = none)

namespace Sys2Proof.Machine

/-- Words that only an undivided group may run (R185-R188, R263, R291, R336, R337, R403, R404). -/
def wholeWord (i : Instr) : Bool :=
  match i with
  | .task _ _ | .commit _ | .endregs _ | .barInit _ _ _ | .barArrive _ _ | .pathb _ _ _ | .pathe _ _ _
  | .mmad _ _ _ _ _ _ | .mmaF32 _ _ _ _ _ _ | .mmaBf16 _ _ _ _ _ | .mmaF16 _ _ _ _ _ | .mmaq _ _ _ _ _ _ _
  | .mmas _ _ _ _ _ _ _ _ _ _ | .mmat _ _ _ _ _ _ | .mmaj _ _ _ _ _ _ | .tfact _ _ _ _ _ | .tsolv _ _ _ _ _ _
  | .tref _ _ _ _ _ _ _ => true
  | .regs _ n _ => decide (0 < n.val ∧ n.val ≤ 24)
  | .grow _ n _ => decide (n.val ≤ 24)
  | .shrink _ n => decide (0 < n.val)
  | _ => false

end Sys2Proof.Machine

/-- R372, R377-R381: what traps with ILLNEST in nested control flow, with its reason, and what traps with ILLCONV: a mixed predicate,
and in a divided group a word of the whole group (R185-R188, R263, R291, R336, R337, R403, R404). The word does nothing else. -/
def Obligations.ControlTraps : Prop :=
  (∀ (i : Instr) (s : State) (c : Cx), cx? i s = some c → c.Clear → wholeWord i = true → c.g.inSplits = true →
    (∀ t b, i = .task t b → ∀ n ∈ maskNames (c.maskOf t b), n < c.g.names) → exec i s = .next (c.raise 0x03 0)) ∧
  ∀ (b : Bool) (g : Guard) (o : Off16) (s : State) (c : Cx) (t : Nat), targetPacket c.sp.pc.packet o = some t → c.Clear →
    (cx? (.ifW b g o) s = some c → 32 ≤ c.sp.stack.length → exec (.ifW b g o) s = .next (c.raise 0x0D 1)) ∧
    (cx? (.loopW b g o) s = some c → 32 ≤ c.sp.stack.length → exec (.loopW b g o) s = .next (c.raise 0x0D 1)) ∧
    (cx? (.elseW b o) s = some c → c.sp.stack = [] → exec (.elseW b o) s = .next (c.raise 0x0D 2)) ∧
    (cx? (.endif b) s = some c → c.sp.stack = [] → c.sp.divs = [] → exec (.endif b) s = .next (c.raise 0x0D 2)) ∧
    (cx? (.endloop b g) s = some c → c.sp.stack = [] → exec (.endloop b g) s = .next (c.raise 0x0D 2)) ∧
    (cx? (.brk b g) s = some c → c.sp.innerLoop = none → exec (.brk b g) s = .next (c.raise 0x0D 3)) ∧
    (cx? (.cont b g) s = some c → c.sp.innerLoop = none → exec (.cont b g) s = .next (c.raise 0x0D 3)) ∧
    (cx? (.call b g o) s = some c → c.mixed g = false → c.taken g = true → 16 ≤ c.sp.rets.length →
      exec (.call b g o) s = .next (c.raise 0x0D 5)) ∧
    (cx? (.ret b g) s = some c → c.mixed g = false → c.taken g = true → c.sp.rets = [] →
      exec (.ret b g) s = .next (c.raise 0x0D 6)) ∧
    (cx? (.jmp b g o) s = some c → c.mixed g = true → exec (.jmp b g o) s = .next (c.raise 0x03 0))

/-! ## Launch, region and system words -/

namespace Sys2Proof.Machine

/-- The value of each system register that a program may read, as it stood before the chain (R201, R389-R395). -/
def Cx.sysValues (c : Cx) : List (Nat × W64) :=
  [(0, c.rd.sys.xpc), (1, c.rd.sys.xmask), (2, c.rd.sys.xcause), (3, c.rd.sys.xaddr), (4, c.rd.sys.xinfo),
   (5, c.rd.sys.fflags.setWidth 64), (6, c.rd.sys.scrmask), (7, w64 c.s.clock.dtime), (8, w64 (c.rd.settle c.s).sys.horizon),
   (9, w64 (c.g.info.role * 256 + c.g.info.ix)), (10, c.g.info.dims), (11, c.g.info.gdims), (12, w64 c.g.info.cls),
   (13, c.rd.sys.tracectl), (32, w64 c.g.info.ctx), (33, w64 (c.k / 32)), (34, w64 c.g.info.level), (35, c.rd.sys.inject)]

/-- The system registers after a write, by access code: whole, in their defined bits, bits cleared by ones, or raised; the others
ignore it (R389, R391, R392, R393, R396). -/
def SysRegs.written (x : SysRegs) (v : W64) : List (Nat × SysRegs) :=
  [(0, { x with xpc := v &&& 0x3FFFFFFFF }), (1, { x with xmask := v &&& 0xFFFFFFFF }), (2, { x with xcause := v &&& 0xFF }),
   (3, { x with xaddr := v }), (4, { x with xinfo := v }), (5, { x with fflags := v.setWidth 5 }),
   (6, { x with scrmask := x.scrmask &&& ~~~v }), (7, x), (8, { x with horizon := max x.horizon v.toNat }), (9, x), (10, x),
   (11, x), (12, x), (13, { x with tracectl := v &&& 0xF007 }), (32, x), (33, x), (34, x),
   (35, { x with inject := v &&& 0xFF07 })]

/-- The records of SPAWN and YIELD by entry: an entry's lanes in lane order, each with the masked names' values (R401). -/
def Cx.spawned (c : Cx) (t : Tail) (g : Guard) (a : Src) (b : MaskSrc) : List (Nat × List TrayRec) :=
  let es := (c.guard g).lanes.map fun l => (l, ((c.opA t .int a).lane l).toNat)
  (laneEntries es).map fun e => (e.1, (es.filter fun x => x.2 == e.1).map fun x =>
    ⟨(maskNames (c.maskOf t b)).map fun n => (n, (c.rd.reg n).lane x.1), c.g.info.grid, 0⟩)

/-- What SPAWN and YIELD ask for: names of the scope with no result pending or in its window, at most sixteen; a tray for every entry that takes
these names, and room for the records (R388, R401, R410). -/
structure Cx.Spawns (c : Cx) (t : Tail) (g : Guard) (a : Src) (b : MaskSrc) : Prop where
  names : ∀ n ∈ maskNames (c.maskOf t b), n < c.g.names
  free : ∀ p ∈ c.g.pend, (p.room c.sp.id).isSome = true → ∀ n ∈ maskNames (c.maskOf t b), n ∉ p.regs
  closed : ∀ p ∈ c.g.late, 0 < (p.room c.sp.id).getD 0 → ∀ n ∈ maskNames (c.maskOf t b), n ∉ p.regs
  few : (maskNames (c.maskOf t b)).length ≤ 16
  trays : ∀ l ∈ (c.guard g).lanes, ∃ h, findTray c.s c.g.info.ctx ((c.opA t .int a).lane l).toNat = some h ∧
    ∀ n ∈ maskNames (c.maskOf t b), n < trayRegs h
  room : trayFits c.s (dieOf (coreOf c.k)) c.g.info.ctx
    (laneEntries ((c.guard g).lanes.map fun l => (l, ((c.opA t .int a).lane l).toNat))) = true

/-- A descriptor or header of `n` bytes at an address of global memory arrives: aligned, mapped in device memory, without poison,
and within a region's budget. `c'` is the unit after the read, `ws` are the words (R84, R129, R326). -/
def Cx.Reads (c : Cx) (lane addr n align : Nat) (c' : Cx) (ws : List W64) : Prop :=
  addr % align = 0 ∧ wildAddr addr = false ∧ ∃ x s', c.Reaches .read false [(lane, addr)] [x] s' ∧ x.leaf.tgt = 0 ∧
    (c.after s').fits 0 ((c.after s').newHolds ((List.range (n / 32)).map (x.pa / 32 + ·))) ∧
    let d := (c.after s').descSectors x.leaf x.pa addr n
    d.2.1 = false ∧ c' = d.2.2.2 ∧ ws = wordsOfBytes d.1 (n / 8)

/-- A word has issued whose value `x` is pushed to the lanes `act` of the result queue four cycles later (R325). -/
def Cx.Pushes (c : Cx) (u : State) (act : Mask) (x : W64) : Prop :=
  ∃ p v, c.Awaits u p ∧ p.prod = c.sp.pc ∧ p.on = .cycle (c.s.clock.cycle + 4) ∧ p.act = act ∧ p.regs = [] ∧ p.kq = none ∧
    p.nq = 1 ∧ p.vals = [v] ∧ p.trap = none ∧ ∀ l < 32, v.lane l = if act.has l then x else 0

/-- The unit with its group's complete accesses counted (R103). -/
def Cx.settled (c : Cx) : Cx := { c with g := c.g.settle c.s }

/-- A blocking wait, and what it gives when its condition holds: nothing, or a value that is pushed (R329, R338, R398, R400). -/
def Cx.waitsFor (c : Cx) (i : Instr) : Option (WaitKind × Option (Option W64)) :=
  match i with
  | .waitpred _ =>
    let deps := ((c.s.grid? c.g.info.grid).map Grid.deps).getD []
    some (.waitpred, if deps.all (hasSignalled c.s) then some none else none)
  | .waitchild t _ a =>
    let n := (uniform c.act (c.opA t .int a)).toNat
    let kids := (((c.s.team? c.g.info.team).map Team.children).getD []).filter fun x => n == 0 || x.id == n
    if n ≠ 0 ∧ kids.isEmpty then none
    else some (.waitchild, if kids.all fun x => x.status.isSome then
      some (some (kids.foldl (fun (v : W64) x => v ||| x.status.getD 0) 0)) else none)
  | .waitb t _ a =>
    let n := (uniform c.act (c.opA t .int a)).toNat % 2 ^ 32
    let d := (c.g.batches.last + 0xFFFFFFFF - n % 0xFFFFFFFF) % 0xFFFFFFFF
    if n = 0 then some (.waitb, some (some 0))
    else if c.g.batches.last = 0 ∨ 2 ^ 31 ≤ d then none
    else some (.waitb, (c.g.batches.ask n).map fun x => some (x.setWidth 64))
  | .barWait _ _ k =>
    let b := barrierOf c.s c.g.info.team k.val
    if !b.init then none
    else some (.barWait, match c.barTarget k.val with
      | none => none
      | some t => if phaseOver b t then some (some (w64 (b.last.toNat * 2 ^ 32 + t))) else none)
  | _ => none

/-- The state in which a COMMIT's stores leave: the region notes the commit, and the group's splits are held for it (R404). -/
def Cx.committing (c : Cx) : State :=
  ({ c.st with last := .held } : State).onGroup c.k fun g =>
    { (g.onRegion fun r => { r with phase := .commitWait, after := .close }) with
      splits := g.splits.map fun sp => { sp with hold := some .commit } }

end Sys2Proof.Machine

/-- R351, R397, R405, R414: LAUNCH by a team's first group below level 10, with room at the dispatcher, reads the header of its lowest
lane and pushes the new grid's id. Outside regions it releases the launch, and the team counts a child of that id; a region holds
the launch, whose id is that of the same launch in a run before it. With no active lane it pushes zero and launches nothing. By
another group of the team it takes ILLNEST with reason 0xC, at level 10 DEPTH, and without room at the dispatcher it is held. -/
def Obligations.LaunchReleasesAGrid : Prop :=
  ∀ (t : Tail) (g : Guard) (l : La) (a b : Src) (s : State) (c : Cx),
    let i := Instr.launch t g l a b
    let asked (dl : DevLaunch) (n : Nat) (ws : List W64) : Prop := dl.ctx = c.g.info.ctx ∧ dl.hdr = ws ∧
      dl.hdrAddr = ((c.opA t .int a).lane n).toNat ∧ dl.args = (c.opB t .int a b).lane n ∧ dl.team = c.g.info.team ∧
      dl.grid = c.g.info.grid ∧ dl.level = c.g.info.level
    cx? i s = some c → c.Clear →
    (c.g.info.ix ≠ 0 → exec i s = .next (c.raise 0x0D 0xC)) ∧
    (c.g.info.ix = 0 → 10 ≤ c.g.info.level → exec i s = .next (c.raise 0x11 0)) ∧
    (c.g.info.ix = 0 → c.g.info.level < 10 →
      ((c.guard g).lowest? = none →
        ∃ u, exec i s = .next u ∧ c.Pushes u 0 0 ∧ u.work.releases = c.s.work.releases) ∧
      ∀ n, (c.guard g).lowest? = some n →
        (256 ≤ (dlqOf c.s (dieOf (coreOf c.k))).length → ∃ u, exec i s = .next u ∧ c.Holds .full u) ∧
        ∀ c' ws, (dlqOf c.s (dieOf (coreOf c.k))).length < 256 → c.Reads n ((c.opA t .int a).lane n).toNat 128 128 c' ws →
          (c.g.region = none →
            ∃ u r dl m, exec i s = .next u ∧ c'.settled.Pushes u (c.guard g) (w64 dl.id) ∧
              u.work.releases = c'.s.work.releases ++ [r] ∧ r.eff = .launch dl ∧ r.group = c.k ∧ r.ctx = c.g.info.ctx ∧
              asked dl n ws ∧ u.team? c.g.info.team = some m ∧ m.children.getLast? = some ⟨dl.id, none, none⟩ ∧
              u.ms = c'.s.ms) ∧
          ∀ rg, c.g.region = some rg →
            ∃ u h dl, exec i s = .next u ∧ c'.Pushes u (c.guard g) (w64 dl.id) ∧ u.work.releases = c'.s.work.releases ∧
              u.group? c.k = some h ∧ h.region.map Region.effects = some (rg.effects ++ [.launch dl]) ∧ asked dl n ws ∧
              (∀ id, rg.launchIds[rg.launchNo]? = some id → dl.id = id) ∧ u.ms = c'.s.ms)

/-- R329, R338, R360, R398, R400: WAITPRED, WAITCHILD, WAITB and BAR.WAIT outside regions go on when their condition holds,
pushing the value of their rule; while it does not hold they hold their split at the word, which has done nothing. -/
def Obligations.WaitsForItsCondition : Prop :=
  ∀ (i : Instr) (s : State) (c : Cx) (k : WaitKind) (v : Option (Option W64)), cx? i s = some c → c.Clear → c.g.region = none →
    (c.cls = 2 → k = .waitb ∨ k = .barWait) → c.waitsFor i = some (k, v) →
    ∃ u h, exec i s = .next u ∧ u.group? c.k = some h ∧ u.ms = c.s.ms ∧
      match v with
      | some none => c.Passed h u
      | some (some x) => c.Pushes u c.act x
      | none => c.Holds (.wait k) u

/-- R368, R369, R380: a held wait of a C group outside regions and handlers, whose innermost IF entry of the frame has lanes left
for its else arm, divides the group: a new split starts the else arm with exactly those lanes and the entries below, and the
waiting split keeps its own lanes and the entry without them. -/
def Obligations.WaitDividesTheGroup : Prop :=
  ∀ (i : Instr) (s : State) (c : Cx) (w : WaitKind) (n merge id : Nat) (e : MaskEntry), cx? i s = some c → c.cls = 0 →
    c.g.info.roleSize ≤ 1 → c.g.region = none → c.g.trap = none → c.g.splits.length < 4 →
    let g := c.g.setSplit { c.sp with hold := some (.wait w), waitStart := c.sp.waitStart.orElse fun _ => some c.s.clock.cycle }
    pendingArm (c.s.setGroup c.k g) g
      { c.sp with hold := some (.wait w), waitStart := c.sp.waitStart.orElse fun _ => some c.s.clock.cycle } = some (n, e, merge) →
    freeSplit g = some id →
    ∃ h x y, (c.wait w).last = .held ∧ (c.wait w).group? c.k = some h ∧ h.split? id = some x ∧ h.split? c.sp.id = some y ∧
      x.pc = ⟨e.t + 1, 0⟩ ∧ x.lanes = e.e ∧ x.m = e.e &&& ~~~c.g.off ∧ x.stack = c.sp.stack.drop (n + 1) ∧ x.hold = none ∧
      y.pc = c.sp.pc ∧ y.m = c.sp.m ∧ y.lanes = c.sp.lanes &&& ~~~e.e ∧ y.hold = some (.wait w) ∧
      y.stack[n]? = (c.sp.stack[n]?).map (fun z => { z with e := 0 }) ∧ h.splits.length = c.g.splits.length + 1 ∧
      h.regs = c.g.regs ∧ h.sys = c.g.sys

/-- R388, R401, R405: SPAWN issues with a release per entry outside regions, and holds the records in a region; each record has the
masked names' values of its lane. -/
def Obligations.SpawnReleasesRecords : Prop :=
  ∀ (t : Tail) (g : Guard) (a : Src) (b : MaskSrc) (s : State) (c : Cx),
    cx? (.spawn t g a b) s = some c → c.Clear → c.Spawns t g a b →
    ∃ u h, exec (.spawn t g a b) s = .next u ∧ c.Went h u ∧ u.ms = c.s.ms ∧
      match c.g.region with
      | none => u.work.releases = c.s.work.releases ++
          (c.spawned t g a b).map fun r => releaseOf (c.g.settle c.s) c.k (.spawn r.1 r.2)
      | some r => u.work.releases = c.s.work.releases ∧
          h.region.map Region.effects = some (r.effects ++ (c.spawned t g a b).map fun r => Effect.spawn r.1 r.2)

/-- R402: YIELD outside regions releases its lanes' records, closes the group's path and takes the lanes away for good as EXIT does;
with no active lane it only goes on. -/
def Obligations.YieldReleasesAndLeaves : Prop :=
  ∀ (t : Tail) (g : Guard) (a : Src) (b : MaskSrc) (s : State) (c : Cx),
    let i := Instr.yieldW t g a b
    let act := c.guard g
    let m := c.sp.m &&& ~~~act &&& ~~~(c.g.off ||| (c.g.gone ||| act))
    cx? i s = some c → c.Clear → c.g.region = none → c.Spawns t g a b →
    (act = 0 → ∃ u h, exec i s = .next u ∧ c.Passed h u ∧ u.work.releases = c.s.work.releases) ∧
    (act ≠ 0 → m ≠ 0 → ∃ u h, exec i s = .next u ∧
      c.settled.Moved u c.nextPc m (c.sp.stack.map fun e => { e with o := e.o &&& ~~~act, e := e.e &&& ~~~act, ct := e.ct &&& ~~~act })
        c.sp.rets none ∧ u.group? c.k = some h ∧ h.path.st = .none ∧ h.gone = c.g.gone ||| act ∧
      u.work.releases = c.s.work.releases ++
        (c.spawned t g a b).map fun r => releaseOf (c.g.settle c.s) c.k (.spawn r.1 r.2))

/-- R403, R455: TASK in a scope, undivided and with nothing pending, opens a region whose snapshot resumes after it and holds every
register as it stands, with its mask's names live; it changes nothing else. -/
def Obligations.TaskOpensARegion : Prop :=
  ∀ (t : Tail) (b : MaskSrc) (s : State) (c : Cx), cx? (.task t b) s = some c → c.Clear → c.g.inSplits = false →
    c.g.region = none → c.g.regs.scope.isSome = true → (∀ n ∈ maskNames (c.maskOf t b), n < c.g.names) → c.g.pend = [] →
    ∃ u h r, exec (.task t b) s = .next u ∧ c.Passed h u ∧ u.ms = c.s.ms ∧ h.region = some r ∧ r.phase = .opened ∧
      r.start = c.sp.pc ∧ r.seamed = false ∧ r.snap.pc = c.nextPc ∧ r.snap.m = c.sp.m ∧ r.snap.live = c.maskOf t b ∧
      r.snap.v = c.g.regs.v ∧ r.snap.rq = c.g.regs.rq ∧ r.snap.p = c.g.regs.p ∧ r.snap.sreg = c.g.regs.sreg ∧
      r.snap.stack = c.sp.stack ∧ r.snap.rets = c.sp.rets ∧ r.snap.fflags = c.g.sys.fflags ∧ r.buf = [] ∧ r.holds = [] ∧
      r.effects = [] ∧ r.atomic = none ∧ r.fails = 0

/-- R82, R404: COMMIT of a region whose conditions hold, without a returning atomic and without held effects, sends the region's
buffer in the order it was made, closes the region and goes on; while they do not hold it is held, and the region stays open. -/
def Obligations.CommitSendsTheBuffer : Prop :=
  ∀ (b : Bool) (s : State) (c : Cx) (r : Region), cx? (.commit b) s = some c → c.Clear → c.g.inSplits = false →
    c.g.region = some r →
    (commitReady c.s c.g r = true → c.g.proxyOf = none → r.atomic = none → r.effects = [] →
      ∃ u h, exec (.commit b) s = .next u ∧ c.Passed h u ∧ h.region = none ∧
        u.ms = (sendBuffer c.committing c.writer c.g.info.team r.buf).2.ms) ∧
    (commitReady c.s c.g r = false →
      ∃ u h, exec (.commit b) s = .next u ∧ c.Holds .commit u ∧ u.group? c.k = some h ∧ h.region.isSome = true ∧ u.ms = c.s.ms)

/-- R185-R188: REGS and GROW, when their blocks are granted, widen the scope with names that read zero and leave the others; SHRINK
and ENDREGS give names back, which read zero from then on. Outside regions, undivided. -/
def Obligations.ScopeWordsComplete : Prop :=
  ∀ (t : Tail) (b : Bool) (n : Six) (x : MaskSrc) (s : State) (c : Cx), c.Clear → c.g.inSplits = false → c.g.region = none →
    let leaves (i : Instr) (scope : Option Nat) (zero : Nat → Bool) : Prop :=
      ∃ u h, exec i s = .next u ∧ u.last = .issued ∧ u.group? c.k = some h ∧ c.stands h c.nextPc ∧ h.sys = c.g.sys ∧
        h.regs.scope = scope ∧ (∀ j < 24, h.reg j = if zero j then LaneReg.zero else c.g.reg j) ∧
        { h.regs with scope := c.g.regs.scope, v := c.g.regs.v, ws := c.g.regs.ws } = c.g.regs ∧ u.ms = c.s.ms
    (cx? (.regs t n x) s = some c → 0 < n.val → n.val ≤ 24 → c.g.regs.scope = none → grants c.s c.k c.g (2 * n.val) = true →
      leaves (.regs t n x) (some n.val) fun j => decide (j < n.val)) ∧
    (cx? (.endregs b) s = some c → c.g.regs.scope.isSome = true → leaves (.endregs b) none fun _ => true) ∧
    (∀ m, cx? (.grow t n x) s = some c → c.g.regs.scope = some m → m ≤ n.val → n.val ≤ 24 →
      (m < n.val → grants c.s c.k c.g (2 * (n.val - m)) = true) →
      leaves (.grow t n x) (some n.val) fun j => decide (m ≤ j) && decide (j < n.val)) ∧
    (∀ m, cx? (.shrink b n) s = some c → c.g.regs.scope = some m → 0 < n.val → n.val < m →
      leaves (.shrink b n) (some n.val) fun j => decide (n.val ≤ j))

/-- R408, R438: RTT gives back the mask, both stacks and the result queue from the trap slot, and the split resumes at XPC when the
handler has written it, else where the trap said; the group leaves handler mode, and what the handler wrote elsewhere stands.
Outside a handler RTT takes ILLNEST with reason 0xD, and with SLOT = 3 it takes ILLEGAL. -/
def Obligations.RttReturns : Prop :=
  ∀ (b : Bool) (s : State) (c : Cx), cx? (.rtt b) s = some c → c.Clear →
    (c.g.trap = none → exec (.rtt b) s = .next (c.raise 0x0D 0xD)) ∧
    ∀ ts, c.g.trap = some ts →
      (c.g.sys.xpc.toNat % 4 = 3 → exec (.rtt b) s = .next (c.raise 0x01 0)) ∧
      (c.g.sys.xpc.toNat % 4 ≠ 3 → c.g.pend = [] → c.g.traps = [] → (c.g.split? ts.split).isSome = true →
        ∃ u h sp, exec (.rtt b) s = .next u ∧ u.last = .issued ∧ u.group? c.k = some h ∧ h.trap = none ∧ h.sys = c.g.sys ∧
          h.regs = { c.g.regs with rq := ts.rq } ∧ h.batches = c.g.batches ∧ h.targets = c.g.targets ∧
          h.split? ts.split = some sp ∧ sp.m = ts.m &&& ~~~(c.g.off ||| c.g.gone) ∧ sp.stack = ts.stack ∧ sp.rets = ts.rets ∧
          sp.hold = none ∧ u.ms = c.s.ms ∧
          sp.pc = if ts.xpcWritten then ⟨c.g.sys.xpc.toNat / 4 % 2 ^ 32, c.g.sys.xpc.toNat % 4⟩ else ts.rp)

/-- R389-R396: GETSR pushes the register's value to its lanes, and SETSR writes the lowest lane's value by the register's access
code; both work on privileged registers only in a privileged context. -/
def Obligations.SystemRegistersReadAndWrite : Prop :=
  ∀ (t : Tail) (b : Bool) (g : Guard) (l : La) (n : Six) (x : Src) (s : State) (c : Cx), c.Clear →
    (n.val < 32 ∨ c.g.info.priv = true) →
    (∀ v, cx? (.getsr b g l n) s = some c → (n.val, v) ∈ c.sysValues →
      ∃ u, exec (.getsr b g l n) s = .next u ∧ c.Pushes u (c.guard g) v ∧ u.ms = c.s.ms) ∧
    (∀ y, cx? (.setsr t g n x) s = some c → c.guard g ≠ 0 →
      (n.val, y) ∈ SysRegs.written c.g.sys (uniform (c.guard g) (c.opA t .int x)) →
      ∃ u h, exec (.setsr t g n x) s = .next u ∧ c.Went h u ∧ h.sys = y ∧ u.ms = c.s.ms ∧
        h.trap = if n.val = 0 then c.g.trap.map (fun z => { z with xpcWritten := true }) else c.g.trap) ∧
    (cx? (.setsr t g n x) s = some c → (∃ y, (n.val, y) ∈ c.sysValues) → c.guard g = 0 →
      ∃ u h, exec (.setsr t g n x) s = .next u ∧ c.Passed h u)

/-- R212, R389, R394: GETSR and SETSR of an unassigned register take ILLEGAL with reason 2 before any other check, and of a privileged
one in an unprivileged context ILLEGAL with reason 3. -/
def Obligations.PrivilegedRegistersTrap : Prop :=
  ∀ (t : Tail) (b : Bool) (g : Guard) (l : La) (n : Six) (x : Src) (s : State) (c : Cx),
    (∀ i, i = Instr.getsr b g l n ∨ i = Instr.setsr t g n x → cx? i s = some c →
      (c.Clear → 32 ≤ n.val → n.val ≤ 35 → c.g.info.priv = false → exec i s = .next (c.raise 0x01 3)) ∧
      ((14 ≤ n.val ∧ n.val ≤ 31) ∨ 36 ≤ n.val → exec i s = .next (c.raise 0x01 2)))

/-- R399, R405, R409, R448-R450: SIGSUCC outside regions signals once, as a release, in a region as a held effect. TRACE with a lane
active, USER set and the die's trace unit on enters one USER packet in its core's queue: TYPE 6, the tag in the payload, and the
lowest lane's operand as its second word; a SYNC comes before it where the group has none since the unit was turned on or since
4,095 cycles. With no room for them the packet is lost and counted. Otherwise TRACE does nothing. Neither changes registers. -/
def Obligations.SignalAndTraceComplete : Prop :=
  ∀ (t : Tail) (b : Bool) (g : Guard) (n : Six) (x : Src) (s : State) (c : Cx), c.Clear →
    (cx? (.sigsucc b) s = some c → ∃ u h, exec (.sigsucc b) s = .next u ∧ c.Went h u ∧ u.ms = c.s.ms ∧
      match c.g.region with
      | none => h.signalled = true ∧ u.work.releases = c.s.work.releases ++
          (if c.g.signalled then [] else [releaseOf (c.g.settle c.s) c.k .signal])
      | some r => u.work.releases = c.s.work.releases ∧ h.signalled = c.g.signalled ∧ h.region.map Region.effects =
          some (r.effects ++ if c.g.signalled || r.holdsSignal then [] else [Effect.signal])) ∧
    (cx? (.traceW t g n x) s = some c → ∃ u h, exec (.traceW t g n x) s = .next u ∧ c.Passed h u ∧ u.ms = c.s.ms ∧
      let core := coreOf c.k
      let q := c.s.traceQ core
      let fresh := c.g.traceOn && decide (c.s.clock.cycle - q.last ≤ 4095)
      if c.guard g = 0 ∨ c.g.sys.tracectl.getLsbD 2 = false ∨ (c.s.traceUnit (dieOf core)).en = false then u.pkg = c.s.pkg
      else if q.lost = 0 ∧ q.words + (if fresh then 2 else 4) ≤ 64 then
        u.traceQ core = ⟨q.packets ++ (if fresh then [] else [syncPacket c.s c.k h c.sp.id]) ++
          [[traceHeader 6 (if fresh then c.s.clock.cycle - q.last else 0) core (slotOf c.k) c.sp.id (n.val * 2 ^ 28),
            uniform (c.guard g) (c.opA t .int x)]], 0, c.s.clock.cycle⟩
      else (u.traceQ core).packets = q.packets ∧ (u.traceQ core).lost = min (q.lost + 1) (2 ^ 34 - 1) ∧ h.lostTrace = true)

/-- R407, R436: a trap before its word, with a handler, outside handler mode and with nothing pending, writes the frame, saves mask,
stacks and result queue for RTT, and enters the handler; memory stays as it was. TRAP with an active lane takes TRAP after the
word: XINFO is its number, XADDR its operand, and RTT resumes at the next word; with none it only goes on. -/
def Obligations.TrapEntry : Prop :=
  (∀ (i : Instr) (s : State) (c : Cx) (t : Trap) (hp : Nat), cx? i s = some c → c.g.info.handler = some hp → c.g.trap = none →
     c.g.pend = [] →
     c.Entered (c.trap t) t.cause (t.mask.getD (c.sp.m &&& ~~~c.g.off)) t.addr t.info c.sp.pc ∧ (c.trap t).ms = c.s.ms) ∧
  ∀ (t : Tail) (g : Guard) (n : Six) (b : Src) (s : State) (c : Cx) (hp : Nat), cx? (.trap t g n b) s = some c → c.Clear →
    c.g.info.handler = some hp → c.g.trap = none → c.g.pend = [] → c.g.traps = [] →
    (c.guard g ≠ 0 → ∃ u, exec (.trap t g n b) s = .next u ∧
      c.Entered u 0x12 (c.guard g) (uniform (c.guard g) (c.opA t .int b)) (w64 n.val) c.nextPc ∧ u.ms = c.s.ms) ∧
    (c.guard g = 0 → ∃ u h, exec (.trap t g n b) s = .next u ∧ c.Passed h u ∧ u.ms = c.s.ms)

/-- R436, R439: a trap with nothing pending, without a handler or in handler mode, stops its grid: no group of it is left on any core, and its status says
FAULT. -/
def Obligations.UnhandledTrapStopsItsGrid : Prop :=
  ∀ (i : Instr) (s : State) (c : Cx) (t : Trap), cx? i s = some c → (c.g.info.handler = none ∨ c.g.trap.isSome = true) →
    c.g.pend = [] →
    (c.trap t).last = .trapped ∧
    (∀ j g, (c.trap t).group? j = some g → ∀ gk ∈ c.g.grids, gk ∉ g.grids) ∧
    ∀ gk ∈ c.g.grids, ∀ x, c.s.grid? gk = some x →
      ∃ y, (c.trap t).grid? gk = some y ∧ y.stopping = true ∧ y.next = y.total ∧ y.flags.getLsbD 6 = true

/-! ## Copies, barriers, collectives, paths and matrix words -/

namespace Sys2Proof.Machine

/-- The scratchpad's bytes from an offset. -/
def Scratch.take (sc : Scratch) (off n : Nat) : List Byte :=
  (List.range n).map fun j => Sector.byte (sc.sector (off / 32 + j / 32)) (j % 32)

/-- A descriptor of 64 bytes arrives outside regions, from the space that the command's DDSP names: global memory, or words of the
team's scratchpad that are in range, initialised, not busy and without poison once the read has found what their granules hold
(R33, R87, R129, R130). -/
def Cx.Descriptor (c : Cx) (lane cmd addr : Nat) (c' : Cx) (ws : List W64) : Prop :=
  if cmd.testBit 19 then
    let sc := c.scratch.check [addr / 32, addr / 32 + 1]
    addr % 64 = 0 ∧ addr + 64 ≤ c.scratch.size ∧ c' = { c with s := onScratch c.s c.g.info.team fun _ => sc } ∧
      ws = wordsOfBytes (c.scratch.take addr 64) 8 ∧
      (∀ j < 2, c.scratch.isBusy (addr / 32 + j) = false ∧ sc.poison.contains (addr / 32 + j) = false) ∧
      ∀ w ∈ wordsOf addr 64, c.scratch.isInit w = true
  else c.Reads lane addr 64 64 c' ws

/-- A descriptor passes the checks of R130: no must-be-zero field, its bases aligned and within 48 bits. -/
def Box.passes (b : Box) (ws : List W64) : Prop := b.malformed ws = false ∧ b.misaligned = none ∧ b.wild = none

/-- The copy words. -/
def copyInstr (ragged : Bool) (t : Tail) (g : Guard) (a b : Src) : Instr := if ragged then .copyr t g a b else .copy t g a b

/-- A path word that enters the path queue, with the state that the path is in afterwards (R289, R292-R294). -/
def Cx.pathWord (c : Cx) (i : Instr) : Option (PathKind × PathState) :=
  let seg (n : Nat) (g : Guard) (a : VReg) : Option (PathKind × PathState) :=
    if c.g.path.st = .opened then
      some (.segs ((c.guard g).lanes.map fun l => (List.range n).map fun j =>
        let x := (c.rd.reg (a.val + j)).lane l
        (signedOf 32 x.toNat, signedOf 32 (x.toNat / 2 ^ 32))), .opened)
    else none
  match i with
  | .pathb t a b =>
    let o := uniform c.act (c.opA t .int a)
    let ctl := (uniform c.act (c.opB t .int a b)).toNat
    let x := signedOf 32 o.toNat
    let y := signedOf 32 (o.toNat / 2 ^ 32)
    let w := bitsOf ctl 5 0 + 1
    let h := bitsOf ctl 13 8 + 1
    if c.g.inSplits = false ∧ (c.g.path.st = .none ∨ c.g.path.st = .closed) ∧ tileOk ctl x y w h = true then
      some (.begin x y w h, .opened)
    else none
  | .segl _ g a => seg 2 g a
  | .segq _ g a => seg 3 g a
  | .segc _ g a => seg 4 g a
  | .pathe t a b =>
    if c.g.inSplits = false ∧ c.g.path.st = .opened ∧ uniform c.act (c.opA t .int a) = 0 ∧
        uniform c.act (c.opB t .int a b) = 0 then some (.finish, .closed)
    else none
  | _ => none

/-- A matrix or solver word that reads only registers: the runs it captures, its first result register, how many it has, and the
predicate it writes (R264, R268-R278). -/
def Cx.matWord? (c : Cx) (i : Instr) : Option (List (List LaneReg) × Nat × Nat × Option Nat) :=
  match i with
  | .mmad _ _ d a b _ => some ([c.run a.val 2, c.run b.val 2, c.run d.val 8], d.val, 8, none)
  | .mmaF32 _ _ d a b _ => some ([c.run a.val 2, c.run b.val 2, c.run d.val 4], d.val, 4, none)
  | .mmaBf16 _ _ d a b => some ([c.run a.val 2, c.run b.val 2, c.run d.val 4], d.val, 4, none)
  | .mmaF16 _ _ d a b => some ([c.run a.val 2, c.run b.val 2, c.run d.val 4], d.val, 4, none)
  | .mmaq _ _ d a b _ _ => some ([c.run a.val 2, c.run b.val 2, c.run d.val 4], d.val, 4, none)
  | .mmas _ d a b fb _ sa sb _ _ =>
    some ([c.run a.val 2, c.run b.val (SFmt.bRegs fb), c.run d.val 4, [c.rd.reg sa.val, c.rd.reg sb.val]], d.val, 4, none)
  | .tfact _ _ d a _ => some ([c.run a.val 8, [], []], d.val, 9, none)
  | .tsolv _ _ d a b _ => some ([c.run a.val 9, c.run b.val 1, []], d.val, 1, none)
  | .tref _ d a b _ _ p => some ([c.run a.val 8, c.run b.val 9, c.run d.val 3], d.val, 3, some p.val)
  | _ => none

/-- A word has entered its cluster's reservation table: `op` is the entry with its captured runs, and the `n` registers from `d` on
wait for the engine (R264). -/
def Cx.Enters (c : Cx) (u : State) (op : MatOp) (runs : List (List LaneReg)) (d n : Nat) : Prop :=
  ∃ p h, c.Awaits u p ∧ u.group? c.k = some h ∧ p.on = .engine op.id ∧ p.act = Mask.all ∧ p.regs = (List.range n).map (d + ·) ∧
    p.nq = n ∧ p.vals.length = n ∧ op.ins = c.i ∧ op.regs = runs ∧ op.group = c.k ∧ op.core = coreOf c.k ∧ op.granted = none ∧
    op.issued = c.s.clock.cycle ∧ op.accept = c.g.info.accept ∧ op.delta = c.g.info.delta ∧
    op.pivotReg = c.g.info.pivotReg ∧ h.emu = c.g.emu

/-- A word that the control core has performed has issued, and its result stands in the `n` registers from `d` on (R156). -/
def Cx.Performed (c : Cx) (u : State) (x : EngineResult) (d n : Nat) : Prop :=
  u.last = .issued ∧ ∃ h, u.group? c.k = some h ∧ c.stands h c.nextPc ∧ h.emu = none ∧
    h.sys = { c.g.sys with fflags := c.g.sys.fflags ||| x.flags } ∧
    (∀ j < n, ∀ l < 32, (h.reg (d + j)).lane l = (x.regs.getD j LaneReg.zero).lane l) ∧
    ∀ j < 24, (j < d ∨ d + n ≤ j) → h.reg j = c.g.reg j

/-- The operation that the control core would perform for a word of registers alone. -/
def Cx.emuOp (c : Cx) (runs : List (List LaneReg)) : MatOp := c.fresh.2.newOp c.fresh.1 runs none none false

/-- The table entry of an MMAJ at an attempt, and the state with it: its own entry of an earlier attempt, or a new one with the runs
as they stand, in place of one that an attempt cut short has left (R273). -/
def Cx.gathered (c : Cx) (runs : List (List LaneReg)) : MatOp × State :=
  let cl := clusterOf (coreOf c.k)
  let old := (matTable c.s cl).find? fun o => o.group == c.k && o.mmaj == some c.g.mmaj
  let op := c.fresh.2.newOp c.fresh.1 runs none (some c.g.mmaj) false
  if c.sp.hold = some (.wait .mmaj) then
    match old with
    | some o => (o, c.s)
    | none => (op, setTable c.fresh.2.s cl (matTable c.s cl ++ [op]))
  else (op, setTable c.fresh.2.s cl (((matTable c.s cl).filter fun o => (old.map MatOp.id) != some o.id) ++ [op]))

/-- The path words, and whether a divided group may not use them (R291, R297). -/
def pathClass (i : Instr) : Option Bool :=
  match i with
  | .pathb _ _ _ | .pathe _ _ _ => some true
  | .segl _ _ _ | .segq _ _ _ | .segc _ _ _ | .covrd _ _ _ _ _ => some false
  | _ => none

/-- The state of the path that a word needs, and the reason of its ILLEGAL in another one (R289). -/
def pathNeeds (i : Instr) : Option ((PathState → Bool) × Nat) :=
  match i with
  | .pathb _ _ _ => some (fun st => st == .none || st == .closed, 2)
  | .segl _ _ _ | .segq _ _ _ | .segc _ _ _ | .pathe _ _ _ => some ((· == .opened), 1)
  | .covrd _ _ _ _ _ => some ((· == .closed), 3)
  | _ => none

end Sys2Proof.Machine

/-- R84, R88, R128-R130, R137, R144, R145, R327: COPY and COPYR with a legal command, a legal descriptor and room in the core's copy
queue enter it and join the open batch; granules that they will write are busy from then on. In a region a copy to global memory is
held for COMMIT, and one to the scratchpad enters the queue with its bound on held sectors reserved, or takes ILLREGION above 4,096.
With no active lane they only go on, and with the queue full they are held. -/
def Obligations.CopyEntersItsQueue : Prop :=
  ∀ (ragged : Bool) (t : Tail) (g : Guard) (a b : Src) (s : State) (c : Cx),
    let i := copyInstr ragged t g a b
    cx? i s = some c → c.Clear →
    ((c.guard g).lowest? = none → ∃ u h, exec i s = .next u ∧ c.Passed h u ∧ u.eng = c.s.eng ∧ u.ms = c.s.ms) ∧
    ∀ l c' ws, (c.guard g).lowest? = some l →
      let cmd := (c.opA t .int a).lane l
      let addr := ((c.opB t .int a b).lane l).toNat
      let box := Box.of cmd.toNat ws ragged
      let queue (s : State) : List (QueueItem CopyCmd) := (s.queues (coreOf c.k)).copy
      let asked (cc : CopyCmd) : Prop := cc.cmd = cmd ∧ cc.desc = ws ∧ cc.ragged = ragged ∧ cc.group = c.k ∧
        cc.team = c.g.info.team ∧ cc.ctx = c.g.info.ctx ∧ cc.core = coreOf c.k ∧ cc.batch = c.g.batches.cur.num
      let marked (u : State) (cc : CopyCmd) : Prop := ∀ n ∈ rowsGranules c.scratch.size (copyRows cc), box.dsp = true →
        ∃ m, u.team? c.g.info.team = some m ∧ m.scr.isBusy n = true
      cmdLegal cmd.toNat false = true →
      (cmd.toNat.testBit 18 = true → (barrierOf c.s c.g.info.team (bitsOf cmd.toNat 17 14)).init = true) →
      box.passes ws → copyLeaving c'.s c.k = false →
      (c.g.region = none → c.Descriptor l cmd.toNat addr c' ws →
        ((queueOps (queue c'.s)).length < 64 →
          ∃ u h cc, exec i s = .next u ∧ c'.Passed h u ∧ h.batches = c.g.batches.join ∧ u.ms = c'.s.ms ∧
            queue u = queue c'.s ++ [.op cc] ∧ asked cc ∧ cc.arriveHeld = false ∧ cc.inRegion = false ∧ marked u cc) ∧
        (64 ≤ (queueOps (queue c'.s)).length → ∃ u, exec i s = .next u ∧ c'.Holds .full u)) ∧
      ∀ r, c.g.region = some r → cmd.toNat.testBit 19 = false → c.Reads l addr 64 64 c' ws →
        (box.dsp = false →
          ∃ u h cc, exec i s = .next u ∧ c'.Passed h u ∧ h.batches = c.g.batches.join ∧ u.ms = c'.s.ms ∧ queue u = queue c'.s ∧
            h.region.map Region.effects = some (r.effects ++ [.copy cc]) ∧ asked cc ∧ cc.arriveHeld = false ∧ cc.inRegion = false) ∧
        (box.dsp = true → 4096 < box.bound → exec i s = .next (c'.raise 0x0E 0)) ∧
        (box.dsp = true → box.bound ≤ 4096 → c'.fits 0 box.bound → (queueOps (queue c'.s)).length < 64 →
          ∃ u h r' cc, exec i s = .next u ∧ c'.Passed h u ∧ h.batches = c.g.batches.join ∧ u.ms = c'.s.ms ∧
            queue u = queue c'.s ++ [.op cc] ∧ asked cc ∧ cc.arriveHeld = cmd.getLsbD 18 ∧ cc.inRegion = true ∧ marked u cc ∧
            h.region = some r' ∧ r'.reserved = r.reserved + box.bound ∧
            r'.effects = r.effects ++ if cmd.getLsbD 18 then [.copyArrive cc.id] else [])

/-- R120, R136, R333: TILE outside regions binds its handle to the command and descriptor with the next generation, which it pushes,
and the operand caches lose what they held of the handle. R341, R342: COLL enters its core's collective queue, next in its set's
order, and joins the open batch, or is held while eight stand there. With no active lane both only go on; in a region both take
ILLREGION. -/
def Obligations.TileAndCollComplete : Prop :=
  (∀ (t : Tail) (g : Guard) (l : La) (a : VReg) (b : Src) (s : State) (c : Cx),
    let i := Instr.tile t g l a b
    cx? i s = some c → c.Clear →
    (c.g.region.isSome = true → exec i s = .next (c.raise 0x0E 0)) ∧
    (c.g.region = none → (c.guard g).lowest? = none → ∃ u h, exec i s = .next u ∧ c.Passed h u ∧ u.ms = c.s.ms) ∧
    ∀ c' n ws,
      let cmd := (c.rd.reg a.val).lane n
      let handle := ((c.opA t .int b).lane n).toNat
      let tiles (s : State) : List Tile := ((s.team? c.g.info.team).map fun m => m.tiles.toArray.toList).getD []
      let gen := (((tiles c'.s).getD handle ⟨false, 0, [], 0⟩).gen + 1) % 2 ^ 16
      c.g.region = none → (c.guard g).lowest? = some n → cmdLegal cmd.toNat true = true → handle < 32 →
      c.Descriptor n cmd.toNat ((c.rd.reg (a.val + 1)).lane n).toNat c' ws →
      (Box.of cmd.toNat ws (cmd.toNat.testBit 13)).passes ws →
      ∃ u, exec i s = .next u ∧ c'.Pushes u (c.guard g) (w64 gen) ∧ u.ms = c'.s.ms ∧
        (∀ j < 32, (tiles u)[j]? = if j = handle then some ⟨true, cmd, ws, gen⟩ else (tiles c'.s)[j]?) ∧
        ∀ e, e ∈ u.eng.oc ↔ e ∈ c'.s.eng.oc ∧ ¬ (e.team = c.g.info.team ∧ e.handle = handle)) ∧
  (∀ (t : Tail) (g : Guard) (a b : Src) (s : State) (c : Cx),
    let i := Instr.coll t g a b
    cx? i s = some c → c.Clear →
    (c.g.region.isSome = true → exec i s = .next (c.raise 0x0E 0)) ∧
    (c.g.region = none → (c.guard g).lowest? = none → ∃ u h, exec i s = .next u ∧ c.Passed h u ∧ u.ms = c.s.ms) ∧
    ∀ c' n ws,
      let bar := (c.opB t .int a b).lane n
      let x := CollDesc.of ws
      let queue (s : State) : List (QueueItem CollRun) := (s.queues (coreOf c.k)).coll
      c.g.region = none → (c.guard g).lowest? = some n → bitsOf bar.toNat 63 5 = 0 →
      (bar.getLsbD 4 = true → (barrierOf c.s c.g.info.team (bar.toNat % 16)).init = true) →
      c.Reads n ((c.opA t .int a).lane n).toNat 64 64 c' ws → collIllegal c'.s ws = false → x.misaligned = none → x.wild = none →
      (8 ≤ (queueOps (queue c'.s)).length → ∃ u, exec i s = .next u ∧ c'.Holds .full u) ∧
      ((queueOps (queue c'.s)).length < 8 →
        ∃ u h r, exec i s = .next u ∧ c'.Passed h u ∧ h.batches = c.g.batches.join ∧ u.ms = c'.s.ms ∧
          queue u = queue c'.s ++ [.op r] ∧ r.desc = x ∧ r.bar = bar ∧ r.group = c.k ∧
          r.team = c.g.info.team ∧ r.batch = c.g.batches.cur.num ∧ r.seq = (NMap.get? c'.s.eng.collSeq x.set).getD 0 ∧
          r.start = c'.s.clock.dtime ∧ (r.m, r.self) = (setInfo c'.s x.set).2 ∧
          NMap.get? u.eng.collSeq x.set = some (r.seq + 1)))

/-- R117, R137, R328, R332, R334-R340: BATCH closes the open batch and pushes its number; QFENCE enters a mark in the queues it
names; QSTAT and BAR.TEST push their words; BAR.INIT sets a barrier up; BAR.ARRIVE counts at once when every access of the group
is complete, and otherwise when they are. All outside regions. -/
def Obligations.QueueAndBarrierWordsComplete : Prop :=
  ∀ (t : Tail) (b : Bool) (l : La) (a : Src) (k : Four) (q : QSel) (s : State) (c : Cx), c.Clear → c.g.region = none →
    let core := coreOf c.k
    let bar := barrierOf c.s c.g.info.team k.val
    (cx? (.batch b l) s = some c → c.g.batches.pending.length < 15 →
      ∃ u h, exec (.batch b l) s = .next u ∧ c.Pushes u c.act (w64 c.g.batches.cur.num) ∧ u.group? c.k = some h ∧
        h.batches = c.g.batches.close ∧ u.ms = c.s.ms) ∧
    (cx? (.qfence b k) s = some c → (k.val.testBit 0 = true → copyLeaving c.s c.k = false) →
      ∃ u h, exec (.qfence b k) s = .next u ∧ c.Passed h u ∧ u.ms = c.s.ms ∧ u.eng.nextFence = c.s.eng.nextFence + 1 ∧
        let mark {α : Type} (n : Nat) (l : List (QueueItem α)) : List (QueueItem α) :=
          if k.val.testBit n then l ++ [.fence c.s.eng.nextFence] else l
        (u.queues core).copy = mark 0 (c.s.queues core).copy ∧ (u.queues core).coll = mark 2 (c.s.queues core).coll ∧
        (u.queues core).path = mark 3 (c.s.queues core).path ∧
        (u.queues core).matFences = if k.val.testBit 1 then (c.s.queues core).matFences ++ [(c.s.eng.nextFence, c.s.eng.nextId)]
          else (c.s.queues core).matFences) ∧
    (cx? (.qstat b l q) s = some c → ∃ u, exec (.qstat b l q) s = .next u ∧ c.Pushes u c.act (w64 (c.qstat q)) ∧ u.ms = c.s.ms) ∧
    (cx? (.barTest b l k) s = some c → bar.init = true →
      ∃ u, exec (.barTest b l k) s = .next u ∧ u.ms = c.s.ms ∧ c.Pushes u c.act (w64
        (b2n (((c.barTarget k.val).map (phaseOver bar)).getD false) * 2 ^ 63 + bar.last.toNat * 2 ^ 32 + bar.cnt % 2 ^ 16 * 2 ^ 16 +
          bar.phase % 2 ^ 16))) ∧
    (cx? (.barInit t a k) s = some c → c.g.inSplits = false → bar.cnt = 0 → barrierNamed c.s c.g.info.team core k.val = false →
      let n := (uniform c.act (c.opA t .int a)).toNat
      1 ≤ n → n ≤ 65535 →
      ∃ u h, exec (.barInit t a k) s = .next u ∧ c.Passed h u ∧ u.ms = c.s.ms ∧
        ∀ j < 16, barrierOf u c.g.info.team j = if j = k.val then ⟨true, n, 0, 0, 0, 0⟩ else barrierOf c.s c.g.info.team j) ∧
    (cx? (.barArrive b k) s = some c → c.g.inSplits = false → bar.init = true →
      let g := c.g.settle c.s
      ∃ u h, exec (.barArrive b k) s = .next u ∧ c.Went h u ∧ u.ms = c.s.ms ∧
        if g.out = [] ∧ logOf c.s c.k g = [] then
          barrierOf u c.g.info.team k.val = bar.arrive 0 ∧ h.targets.toArray.toList.getD k.val none = some bar.phase ∧
            u.work.releases = c.s.work.releases
        else u.work.releases = c.s.work.releases ++ [releaseOf g c.k (.arrive k.val)] ∧
          barrierOf u c.g.info.team k.val = bar)

/-- R289, R291-R297: PATHB, SEGL, SEGQ, SEGC and a read-out PATHE in the path state they need enter the core's path queue with the
points their lanes hold; a spawn-mode PATHE releases the tile's records once the queue is empty; COVRD enters its pixels and waits
for the queue. A full queue or tray holds the word, and so does a path whose records are leaving. In another state of the path, or
with a control word, rule or entry that is not legal, the word takes ILLEGAL with its reason, and in a region ILLREGION. -/
def Obligations.PathWordsComplete : Prop :=
  ∀ (i : Instr) (s : State) (c : Cx) (whole : Bool), cx? i s = some c → c.Clear → pathClass i = some whole →
    (whole = true → c.g.inSplits = false) →
    let core := coreOf c.k
    let queue (s : State) : List (QueueItem PathOp) := (s.queues core).path
    (c.g.region.isSome = true → exec i s = .next (c.raise 0x0E 0)) ∧
    (c.g.region = none →
      (c.g.path.st = .leaving → ∃ u, exec i s = .next u ∧ c.Holds .order u) ∧
      (∀ ok reason, pathNeeds i = some (ok, reason) → c.g.path.st ≠ .leaving → ok c.g.path.st = false →
        exec i s = .next (c.raise 0x01 reason)) ∧
      (∀ k st, c.pathWord i = some (k, st) →
        (8 ≤ (queueOps (queue c.s)).length → ∃ u, exec i s = .next u ∧ c.Holds .full u) ∧
        ((queueOps (queue c.s)).length < 8 →
          ∃ u h, exec i s = .next u ∧ c.Passed h u ∧ h.path = { c.g.path with st := st } ∧ u.ms = c.s.ms ∧
            queue u = queue c.s ++ [.op ⟨c.k, k⟩])) ∧
      (∀ t a b, i = .pathb t a b → c.g.path.st = .none ∨ c.g.path.st = .closed →
        let at? := pointOf (uniform c.act (c.opA t .int a))
        let ctl := (uniform c.act (c.opB t .int a b)).toNat
        tileOk ctl at?.1 at?.2 (bitsOf ctl 5 0 + 1) (bitsOf ctl 13 8 + 1) = false → exec i s = .next (c.raise 0x01 4)) ∧
      (∀ t a b, i = .pathe t a b → c.g.path.st = .opened →
        let entry := (uniform c.act (c.opA t .int a)).toNat
        let rule := (uniform c.act (c.opB t .int a b)).toNat
        let rs := c.g.path.records rule c.g.info.grid
        let fits := trayFits c.s (dieOf core) c.g.info.ctx [(entry, rs.length)]
        ((entry = 0 ∧ rule ≠ 0) ∨ (entry ≠ 0 ∧ 2 ≤ rule) → exec i s = .next (c.raise 0x01 4)) ∧
        (entry ≠ 0 → rule < 2 →
          (findTray c.s c.g.info.ctx entry = none → exec i s = .next (c.raise 0x01 5)) ∧
          ((findTray c.s c.g.info.ctx entry).isSome = true →
            (queue c.s ≠ [] ∨ fits = false → ∃ u, exec i s = .next u ∧ c.Holds .full u) ∧
            (queue c.s = [] → fits = true →
              ∃ u h r, exec i s = .next u ∧ c.Went h u ∧ h.path.st = .leaving ∧ u.ms = c.s.ms ∧
                u.work.releases = c.s.work.releases ++ [r] ∧ r.eff = .pathSpawn entry rs ∧ r.group = c.k)))) ∧
      ∀ t g l a b, i = .covrd t g l a b → c.g.path.st = .closed →
        (c.guard g = 0 → ∃ u, exec i s = .next u ∧ c.Pushes u 0 0) ∧
        let rule := (uniform (c.guard g) (c.opB t .int a b)).toNat
        (c.guard g ≠ 0 → ruleOk rule = false → exec i s = .next (c.raise 0x01 4)) ∧
        (c.guard g ≠ 0 → ruleOk rule = true →
          (8 ≤ (queueOps (queue c.s)).length → ∃ u, exec i s = .next u ∧ c.Holds .full u) ∧
          ((queueOps (queue c.s)).length < 8 →
            ∃ u h p n, exec i s = .next u ∧ c.Awaits u p ∧ u.group? c.k = some h ∧ p.on = .engine n ∧ p.act = c.guard g ∧ p.nq = 1 ∧
              h.path.st = (if rule.testBit 3 then .none else .closed) ∧ u.ms = c.s.ms ∧
              queue u = queue c.s ++ [.op ⟨c.k, .read n ((c.guard g).lanes.map fun x =>
                (x, pointOf ((c.opA t .int a).lane x))) rule⟩])))

namespace Sys2Proof.Machine

/-- R156, R212: a word of a format without a datapath is given to the control core before the checks that follow step 4, and its
group is held; nothing of the word is done. Once the control core is done and the remaining checks pass, the word issues and its
result is delivered with it, when no flag of it is enabled; it takes no entry of the reservation table. An MMAT has its tile
fetched first. -/
def EmulatedWordCompletes : Prop :=
  (∀ (i : Instr) (s : State) (c : Cx), cx? i s = some c → emulated i = true → (c.g.reopen ≠ .now ∨ c.g.region.isSome = true) →
    c.g.sys.inject &&& 7 = 0 → (∀ n ∈ i.uses.v ++ i.uses.d, n < c.g.names) → c.g.emu = none →
    ∃ u h, exec i s = .next u ∧ c.Holds .emulation u ∧ u.group? c.k = some h ∧ u.ms = c.s.ms ∧
      h.emu = some ⟨c.s.clock.cycle + emulationCycles, c.sp.id, i⟩ ∧ h.stands = true) ∧
  ∀ (i : Instr) (s : State) (c : Cx), cx? i s = some c → c.Clear → c.g.region = none → c.g.inSplits = false → c.act = Mask.all →
    emulated i = true → c.g.traps = [] →
    let cl := clusterOf (coreOf c.k)
    let mine := (matTable c.s cl).find? fun o => o.group == c.k && !o.native
    (∀ runs d n pred, c.matWord? i = some (runs, d, n, pred) → mine = none →
      let x := (c.emuOp runs).result c.s
      x.flags &&& c.g.info.fpen = 0 →
      ∃ u, exec i s = .next u ∧ c.Performed u x d n ∧ u.ms = c.s.ms ∧
        ((∀ o ∈ matTable c.s cl, o.id < c.s.eng.nextId) → matTable u cl = matTable c.s cl)) ∧
    (∀ t l d a h f, i = .mmat t l d a h f →
      let n := ((c.opA t .int h).lane 0).toNat
      let tile := ((c.s.team? c.g.info.team).bind fun m => m.tiles.toArray.toList[n]?).getD ⟨false, 0, [], 0⟩
      let box := Box.of tile.cmd.toNat tile.desc (tile.cmd.getLsbD 13)
      n < 32 → tile.bound = true → (f = .int4 ∨ (box.planes, box.rows, box.width, box.ds) = tileBox f) →
      (mine = none → ∃ u op, exec i s = .next u ∧ c.Holds .emulation u ∧ matTable u cl = matTable c.s cl ++ [op] ∧ op.ins = i ∧
        op.group = c.k ∧ op.regs = [c.run a.val (TFmt.aRegs f), [], c.run d.val (TFmt.dRegs f)] ∧
        op.tile = some ⟨c.g.info.team, n, tile.gen, tile.cmd, tile.desc, none⟩ ∧ u.ms = c.s.ms) ∧
      ∀ o, mine = some o → (o.tile.bind TileUse.got).isSome = true →
        let x := o.result c.s
        x.trap = none → x.flags &&& c.g.info.fpen = 0 →
        ∃ u, exec i s = .next u ∧ c.Performed u x d.val (TFmt.dRegs f) ∧ u.ms = c.s.ms)

end Sys2Proof.Machine

/-- R263, R264, R268-R270, R276-R278: a matrix or solver word that the engine performs, with every lane active in an undivided group,
outside regions, with room in its cluster's reservation table, enters it with its captured runs; without room it is held. MMAT takes
its handle's tile with it. Words of formats without a datapath complete as `EmulatedWordCompletes` says. -/
def Obligations.MatrixWordEntersTheTable : Prop :=
  Sys2Proof.Machine.EmulatedWordCompletes ∧
  ∀ (i : Instr) (s : State) (c : Cx), cx? i s = some c → c.Clear → c.g.region = none → c.g.inSplits = false → c.act = Mask.all →
    emulated i = false →
    let cl := clusterOf (coreOf c.k)
    let room := ((matTable c.s cl).filter MatOp.native).length < 32
    (∀ runs d n pred, c.matWord? i = some (runs, d, n, pred) →
      (¬ room → ∃ u, exec i s = .next u ∧ c.Holds .full u) ∧
      (room → ∃ u op, exec i s = .next u ∧ c.Enters u op runs d n ∧ op.tile = none ∧ op.mmaj = none ∧
        matTable u cl = matTable c.s cl ++ [op] ∧ u.ms = c.s.ms)) ∧
    (∀ t l d a h f, i = .mmat t l d a h f →
      let n := ((c.opA t .int h).lane 0).toNat
      let tile := ((c.s.team? c.g.info.team).bind fun m => m.tiles.toArray.toList[n]?).getD ⟨false, 0, [], 0⟩
      let box := Box.of tile.cmd.toNat tile.desc (tile.cmd.getLsbD 13)
      n < 32 → tile.bound = true → (box.planes, box.rows, box.width, box.ds) = tileBox f →
      (¬ room → ∃ u, exec i s = .next u ∧ c.Holds .full u) ∧
      (room → ∃ u op, exec i s = .next u ∧ c.Enters u op [c.run a.val (TFmt.aRegs f), [], c.run d.val (TFmt.dRegs f)] d.val (TFmt.dRegs f) ∧
        op.tile = some ⟨c.g.info.team, n, tile.gen, tile.cmd, tile.desc, none⟩ ∧
        matTable u cl = matTable c.s cl ++ [op] ∧ u.ms = c.s.ms))

/-- R267, R273: MMAJ of an undivided class C group with every lane active, outside regions, enters its runs at its first attempt, as
room in the table allows. When all four partners have come, at this attempt or a later one, it issues: its entry keeps the runs of
its first attempt, its result is pending for its four registers, and the next joint product is the group's next. Until they come it
is held, with its entry in the table. It takes ILLEGAL where a cluster of its quad has no partner and none is pre-empted, ILLWAIT
with reason 7 in classes P and W, and ILLREGION in a region. -/
def Obligations.JointProductGathers : Prop :=
  ∀ (b : Bool) (l : La) (d x y : VReg) (f : JFmt) (s : State) (c : Cx),
    let i := Instr.mmaj b l d x y f
    let cl := clusterOf (coreOf c.k)
    let here := partnerAway c.s c.g.info.grid c.g.info.ix = true ∨
      ∀ n < 4, partnersOn c.s (quadOf (coreOf c.k) + n) c.g.info.grid c.g.info.ix ≠ []
    let g := c.gathered [c.run x.val 2, c.run y.val 2, c.run d.val 4]
    let new := c.sp.hold ≠ some (.wait .mmaj) ∨ ∀ o ∈ matTable c.s cl, o.group = c.k → o.mmaj ≠ some c.g.mmaj
    let room := ((matTable g.2 cl).filter MatOp.native).length ≤ 32
    cx? i s = some c → c.Clear → c.g.inSplits = false → c.act = Mask.all →
    (c.cls ≠ 0 → exec i s = .next (c.raise 0x0C 0x70)) ∧
    (c.cls = 0 → c.g.region.isSome = true → exec i s = .next (c.raise 0x0E 0)) ∧
    (c.cls = 0 → c.g.region = none → ¬ here → exec i s = .next (c.raise 0x01 0)) ∧
    (c.cls = 0 → c.g.region = none → here → (∀ o ∈ matTable c.s cl, o.group = c.k → o.core = coreOf c.k) →
      (new → ¬ room → ∃ u, exec i s = .next u ∧ c.Holds .full u) ∧
      ((new → room) →
        ((jointAll g.2 (coreOf c.k) c.g.info.grid c.g.info.ix c.g.mmaj).isSome = true →
          ∃ u h p n, exec i s = .next u ∧ c.Awaits u p ∧ u.group? c.k = some h ∧ h.mmaj = c.g.mmaj + 1 ∧ p.on = .engine n ∧
            p.act = Mask.all ∧ p.regs = (List.range 4).map (d.val + ·) ∧ p.nq = 4 ∧
            { g.1 with id := n, issued := c.s.clock.cycle } ∈ matTable u cl ∧ u.ms = c.s.ms) ∧
        (jointAll g.2 (coreOf c.k) c.g.info.grid c.g.info.ix c.g.mmaj = none →
          ∃ u, exec i s = .next u ∧ c.Holds (.wait .mmaj) u ∧ g.1 ∈ matTable u cl ∧ u.ms = c.s.ms)))

/-! ## Events -/

namespace Sys2Proof.Machine

/-- Registers of BAR0 that hold what is written in their defined bits: offset and bits (R41, R56, R65, R363, R432, R462, R465,
R470, R475, R480, R484). -/
def plainRegisters : List (Nat × W64) :=
  [(0x10000, 0xFFFFFFFF), (0x10008, 0xFFFFFFFFFFC0), (0x10010, 0xFFFFFFFFFFE0), (0x20010, 0xFFFFFFF000),
   (0x20030, 0xFFFFFFFF000F), (0x20038, 0xFFFFFFFFF000), (0x30000, 0xFFFFFFF000), (0x40000, 0xFFFFFFFFFFFFFF0F),
   (0x40008, 0xF3FF), (0x40020, 0xFFFFFFF000), (0x60000, 0xFFFFF7FF), (0x60008, 0xFFFFFFF800), (0x60010, 0xFFFFFF0000),
   (0x70018, 0xFFFFFFFFC0)]

/-- A packet of one sector at its channel's base die, whose turn has come at it, with no error in the granule (R25, R28, R38). -/
def oneSector (s : State) (ch n i : Nat) (p : Packet) : Prop :=
  packetOf s ch n = some p ∧ ch = channelOf p.line ∧ NMap.get? s.ms.marks (p.line * 4 + i) = none ∧ i < 4 ∧ p.sectors = 2 ^ i ∧ p.doneSecs = 0 ∧ p.got = [] ∧ p.served = false ∧
    sectorFree s ch p i = true ∧ rowMoving s p.line = false

/-- Main memory as before but for one sector, which holds `x`. -/
def wroteSector (s t : State) (sec : Nat) (x : Sector) : Prop :=
  ∀ n, memSector t.ms n = if n = sec then x else memSector s.ms n

end Sys2Proof.Machine

/-- R122, R473: once the host's earlier writes are performed, REGISTER_WRITE of a plain register of BAR0 stores its defined bits,
which read back, and leaves the other plain registers, memory and the groups as they were. -/
def Obligations.RegisterWriteReadsBack : Prop :=
  ∀ (s : State) (v : W64), s.hostReady = true → ∀ r ∈ plainRegisters,
    ∃ t, exec (.registerWrite r.1 v) s = .next t ∧ readRegister t r.1 = v &&& r.2 ∧
      (∀ q ∈ plainRegisters, q.1 ≠ r.1 → readRegister t q.1 = readRegister s q.1) ∧ t.ms.mem = s.ms.mem ∧
      t.work.groups = s.work.groups

/-- R43, R56, R62, R65, R416, R442, R447, R467, R484, R487: each command and register event of the host, once its earlier writes
are performed and the unit is free, does what its rule says, and leaves the work of the others as it was. -/
def Obligations.HostCommandsComplete : Prop :=
  ∀ (s : State) (v : W64), s.hostReady = true →
    (∀ page, s.ms.bplBusy = false → page < 0xC00000 →
      (page ∉ s.ms.bpl → s.ms.bpl.length < 8192 → ∃ t, exec (.bplAdd page) s = .next t ∧
        (∀ p, p ∈ t.ms.bpl ↔ p = page ∨ p ∈ s.ms.bpl) ∧ t.ms.bplBusy = true ∧ t.work = s.work ∧ t.ms.mem = s.ms.mem) ∧
      (page ∈ s.ms.bpl → ∃ t, exec (.bplRemove page) s = .next t ∧
        (∀ p, p ∈ t.ms.bpl ↔ p ≠ page ∧ p ∈ s.ms.bpl) ∧ t.ms.bplBusy = true ∧ t.work = s.work ∧ t.ms.mem = s.ms.mem)) ∧
    (s.vm.regs.busy = false →
      let range := (bitsOf s.vm.regs.vminva.toNat 47 16 * 2 ^ 16, (bitsOf s.vm.regs.vminva.toNat 63 48 + 1) * 2 ^ 16)
      ∀ e ∈ [(Instr.vminvRange, Invalidation.mk (some s.vm.regs.ctx) (some range) false none),
          (.vminvContext, ⟨some s.vm.regs.ctx, none, false, none⟩), (.vminvAll, ⟨none, none, false, none⟩),
          (.vminvRefuseRange, ⟨some s.vm.regs.ctx, some range, true, none⟩)],
        exec e.1 s = .next { s with vm := { s.vm with regs := { s.vm.regs with busy := true }, inval := some e.2 } }) ∧
    (∀ q < s.work.hq.length,
      let x := hqOf s q
      let only (t : State) (y : HostQueue) : Prop := hqOf t q = y ∧ (∀ j, j ≠ q → hqOf t j = hqOf s j) ∧ t.ms = s.ms ∧
        t.work.groups = s.work.groups
      (x.en = false → (∃ t, exec (.hqbaseWrite q v) s = .next t ∧ only t { x with base := bitsOf v.toNat 47 12 }) ∧
        (∃ t, exec (.hqctxWrite q v) s = .next t ∧ only t { x with desc := bitsOf v.toNat 47 6 * 64 }) ∧
        (s.minimal = false → ∃ t, exec (.hqctlWrite q v) s = .next t ∧ only t { x with
          err := x.err && !v.getLsbD 2, size := bitsOf v.toNat 19 16, render := v.getLsbD 1, en := v.getLsbD 0 })) ∧
      (v.toNat % 2 ^ 16 < x.ring → ∃ t, exec (.hqDoorbell q v) s = .next t ∧ only t { x with tail := v.toNat % 2 ^ 16 })) ∧
    (∃ t, exec (.plctlWrite v) s = .next t ∧ t.ms = s.ms ∧ t.work = s.work ∧ t.vm.regs =
      { s.vm.regs with migmin := bitsOf v.toNat 47 32, coldep := bitsOf v.toNat 31 24, epoch := bitsOf v.toNat 23 16
                       migen := v.getLsbD 3, colden := v.getLsbD 2, coldFlash := v.toNat % 4 }) ∧
    (∃ t, exec (.pwrctlWrite v) s = .next t ∧ t.ms = s.ms ∧ t.work = s.work ∧ t.pkg.power =
      { s.pkg.power with cap := max 400 (min 2200 (bitsOf v.toNat 47 32)), tlimit := max 85 (min 105 (bitsOf v.toNat 15 8))
                         irqen := v.getLsbD 0 }) ∧
    (∃ t, exec (.cnscntWrite v) s = .next t ∧ t.ms = s.ms ∧ t.work = s.work ∧
      t.pkg.cns = { s.pkg.cns with rollbk := 0, replay := 0 }) ∧
    (∀ die < s.pkg.trace.length, ∃ t, exec (.trctlWrite die v) s = .next t ∧ t.ms = s.ms ∧
      t.traceUnit die = { s.traceUnit die with
        size := bitsOf v.toNat 7 4, wrap := v.getLsbD 1, en := v.getLsbD 0
        wr := if v.getLsbD 0 && !(s.traceUnit die).en then 0 else (s.traceUnit die).wr }) ∧
    (s.pkg.boot.mbBusy = false →
      ∀ e ∈ [(Instr.mbAttest, (1 : W64)), (.mbImageWrite, 2), (.mbSlotActivate, 3), (.mbCertRead, 4), (.mbRestart, 5)],
        exec e.1 s = .next { s with pkg := { s.pkg with boot :=
          { s.pkg.boot with mbcmd := e.2, mbBusy := true, mbData := [] } } }) ∧
    (s.work.sched.preBusy = false → ∀ ctx c, s.ctx? ctx = some c →
      (c.preempted = false → c.saving = false → ∃ t u, exec (.preempt ctx) s = .next t ∧
        u.ctx? ctx = some { c with saving := true } ∧ u.work.groups = s.work.groups ∧ u.ms = s.ms ∧
        u.work.sched = { s.work.sched with preBusy := true, preCtx := ctx, preRun := ctx } ∧
        t = (((s.work.groups.filter fun e => e.2.info.ctx == ctx && e.2.proxyOf.isNone).map Prod.fst).foldl haltGroup u)) ∧
      (c.preempted = true → ∃ t, exec (.resume ctx) s = .next t ∧ t.ctx? ctx = some { c with preempted := false } ∧
        t.work.groups = s.work.groups ∧ t.ms = s.ms ∧ t.work.sched.preCtx = ctx ∧
        (∀ e ∈ t.vm.slogSaved, e.2.ctx ≠ ctx) ∧
        ∀ x ∈ t.work.trays, x.ctx = ctx → ∀ r ∈ x.recs, r.written = s.clock.cycle))

/-- R26, R28-R32, R34, R38, R43, R78: the events of base dies and slices. RD and WR enter a packet with a free tag; a write's
sector reaches memory, whole or merged; a read takes the sector as it stands; RDATA and WACK free the tag, the first filling
the slice; the write buffer, a victim and a moved row are done with; a scrub leaves no latent error; a slice answers a hit. -/
def Obligations.BaseDieEventsComplete : Prop :=
  ∀ (s : State), Memory.wf s.ms.mem = true →
    (∀ slice (tag : PacketTag) line sectors noalloc masks data, mayArrive s slice tag.n line = true →
      let ch := channelOf line
      let arrives (t : State) (wr na : Bool) (ms : List Word32) (ds : List Sector) : Prop :=
        (t.chan ch).packets = (s.chan ch).packets ++
          [⟨(s.chan ch).next, tag.ctx, slice, tag.n, line, wr, (sectors : Four).val, na, ms, ds, 0, [], false, false⟩] ∧
        t.ms.mem = s.ms.mem ∧ t.work = s.work ∧ ∀ j, j ≠ ch → t.chan j = s.chan j
      (∃ t, exec (.rd slice tag line sectors noalloc) s = .next t ∧ arrives t false noalloc [] []) ∧
      ∃ t, exec (.wr slice tag line sectors masks data) s = .next t ∧ arrives t true false masks data) ∧
    (∀ ch n i p, oneSector s ch n i p → p.wr = true → (s.chan ch).wbuf.length < 64 →
      let sec := p.line * 4 + i
      let m := p.masks.getD i 0
      let x := p.data.getD i 0
      (m = fullMask → ∃ t, exec (.writePerformed ch n) s = .next t ∧ wroteSector s t sec x ∧ sec ∈ (t.chan ch).wbuf ∧
        packetOf t ch n = some { p with doneSecs := 2 ^ i, served := true }) ∧
      (m ≠ fullMask → ∃ t, exec (.subGranuleMerge ch n) s = .next t ∧
        wroteSector s t sec (Sector.mergeBytes m x (memSector s.ms sec)) ∧ sec ∈ (t.chan ch).wbuf ∧
        packetOf t ch n = some { p with doneSecs := 2 ^ i, served := true, mergePois := p.mergePois || granPoison s.ms sec })) ∧
    (∀ ch n i p, oneSector s ch n i p → p.wr = false →
      let fills := p.noalloc || (crustHit (s.chan ch) (chanIndex p.line)).isSome || (crustReady (s.chan ch) (chanIndex p.line) false).1
      ∃ t, exec (.readServiceComplete ch n) s = .next t ∧ t.ms.mem = s.ms.mem ∧ packetOf t ch n = some (if fills then { p with
        served := true, got := [(i, memSector s.ms (p.line * 4 + i), granPoison s.ms (p.line * 4 + i), false)] } else p)) ∧
    (∀ ch n p i x b k, packetOf s ch n = some p → p.wr = false → p.served = true → p.got = [(i, x, b, k)] →
      i < 4 → (l2Sector s.ms (p.slice / 48) (p.line * 4 + i)).st = .f → missesOf s p.slice = [] →
      ∃ t, exec (.rdata ch n) s = .next t ∧ packetOf t ch n = none ∧ t.ms.mem = s.ms.mem ∧
        l2Sector t.ms (p.slice / 48) (p.line * 4 + i) = ⟨.c, x, b, 0, 0⟩) ∧
    (∀ ch n p, packetOf s ch n = some p → p.wr = true → p.served = true → missesOf s p.slice = [] →
      ∃ t, exec (.wack ch n) s = .next t ∧ t.ms.mem = s.ms.mem ∧
        (t.chan ch).packets = (s.chan ch).packets.filter fun y => y.n != n) ∧
    (∀ ch sec rest, (s.chan ch).wbuf = sec :: rest →
      let leaves := (List.range 4).any (fun j => !(s.chan ch).wbuf.contains (sec / 4 * 4 + j)) ||
        (crustReady (s.chan ch) (chanIndex (sec / 4)) false).1
      ∃ t, exec (.writeBufferDrain ch) s = .next t ∧ t.ms.mem = s.ms.mem ∧
        (t.chan ch).wbuf = if leaves then (s.chan ch).wbuf.filter fun y => y / 4 != sec / 4 else (s.chan ch).wbuf) ∧
    (∀ ch, ∃ t, exec (.crustWriteback ch) s = .next t ∧ t.ms.mem = s.ms.mem ∧
      t.chan ch = { s.chan ch with wback := (s.chan ch).wback.drop 1 }) ∧
    (∀ ch bank row, ∃ t, exec (.rowRemapComplete ch bank row) s = .next t ∧ t.ms.mem = s.ms.mem ∧
      ∀ e, e ∈ (t.chan ch).moving ↔ e ∈ (s.chan ch).moving ∧ e ≠ (bank, row)) ∧
    (∀ gran, (s.chan (channelOf (gran / 4))).packets = [] → gran * 32 < Config.memBytes →
      ∃ t, exec (.patrolScrub gran) s = .next t ∧ NMap.get? t.ms.marks gran = none ∧
        (NMap.get? s.ms.marks gran = none → t.ms.mem = s.ms.mem)) ∧
    exec .bplCommandComplete s = .next { s with ms := { s.ms with bplBusy := false } } ∧
    ∀ rq core n, rq.slice < 192 → rq.home = rq.slice / 48 → sliceOf (rq.addr / 128) = rq.slice % 48 →
      outsideMemory rq.addr = false → rq.op = .read n → rq.core = some core →
      homeHolding s.ms (rq.addr / 32) = some (rq.slice / 48) → missesOf s rq.slice = [] →
      NMap.get? s.ms.l2marks (l2MarkKey (rq.slice / 48) (rq.addr / 32)) = none →
      (s.chan (channelOf (rq.addr / 128))).packets = [] →
      ∃ t y, exec (.l2SliceRequest rq) s = .next t ∧ l1Copy t core (rq.addr / 32) = some y ∧
        (y.data, y.poison) = sectorNow s.ms (rq.addr / 32) ∧ y.lease = s.clock.dtime + 250 ∧ t.ms.mem = s.ms.mem

namespace Sys2Proof.Machine

/-- A pending result has been delivered to its group: it is out of the list, its registers hold the values in its lanes, its flags
are raised, and the splits stand where they stood (R209, R264). -/
def Delivered (g h : Group) (p : Pending) (vals : List LaneReg) (flags : BitVec 5) : Prop :=
  h.splits = g.splits ∧ h.pend.length + 1 = g.pend.length ∧ h.sys.fflags = g.sys.fflags ||| flags ∧
    (p.regs.Nodup → ∀ (i r : Nat) (v : LaneReg), p.regs[i]? = some r → vals[i]? = some v → r < 24 → ∀ l < 32,
      (h.reg r).lane l = if p.act.has l then v.lane l else (g.reg r).lane l) ∧
    ∀ n < 24, n ∉ p.regs → h.reg n = g.reg n

/-- A group waits for an engine operation's result, which traps nothing: its pending entry is `p` (R264). -/
def waitsEngine (g : Group) (o : MatOp) (x : EngineResult) (p : Pending) : Prop :=
  g.traps = [] ∧ g.pend.find? (fun p => p.on == .engine o.id) = some p ∧ x.trap = none ∧ x.flags &&& g.info.fpen = 0

end Sys2Proof.Machine

/-- R103, R104, R106, R109, R111, R113, R209, R320, R337, R364, R367, R404, R427, R429: the events of groups. A cycle puts every
unit of a core in line, in the order of selection; a due result reaches its registers; complete accesses raise HORIZON; a
fence whose conditions hold lets its split go on; a speculation is validated or rolled back; a commit whose conditions hold
sends its buffer; a release takes place; a tray issues; waits read again or expire; starvation orders the units. -/
def Obligations.GroupEventsComplete : Prop :=
  ∀ (s : State) (k : Nat) (g : Group), s.group? k = some g →
    let leaves (i : Instr) (h : Group) (t : State) : Prop := exec i s = .next t ∧ t.group? k = some h
    (∀ core, ∃ l : List (UnitRef × Group × Split), l.Perm (unitsOf s core) ∧
      l.Pairwise (fun a b => unitBefore s b a = false) ∧
      exec (.issueCycle core) s = .next { s with issuing := s.issuing ++ l.map Prod.fst }) ∧
    (∀ u p n, unitKey u = k → g.traps = [] → g.pend.find? (pendDue s k) = some p → p.on = .cycle n → p.trap = none →
      p.pred = none → p.flags &&& g.info.fpen = 0 → ∃ t h, leaves (.resultDelivery u) h t ∧ Delivered g h p p.vals p.flags ∧ t.ms = s.ms) ∧
    ((∀ r ∈ s.pkg.outreqs, ∀ a, r.owner ≠ .store k a) → ∃ t h, leaves (.gwctReturn k) h t ∧ h.regs = g.regs ∧ t.ms = s.ms ∧
      h.out = g.out.filter (fun o => !Outstanding.isDone s o) ∧
      ∀ o ∈ g.out, Outstanding.isDone s o = true → o.gwct ≤ h.sys.horizon) ∧
    (∀ u sp p su e, unitKey u = k → g.split? u.split = some sp → sp.hold = some (.fence p su e) →
      fenceHolds s k (g.settle s) ((g.settle s).out.filter fun o => o.split == sp.id) p e = true →
      ∃ t h y, leaves (.fenceComplete u) h t ∧ h.split? u.split = some y ∧ y.hold = none ∧ y.pc = sp.pc.add 1 ∧ y.m = sp.m ∧
        h.regs = g.regs ∧ t.ms = s.ms) ∧
    (∀ f r, fenceSDue s k = some f → g.region = some r →
      let stale (l : SpecLoad) : Prop := l.lease ≤ (g.settle s).sys.horizon ∧ l.stamp < (lineTimes s.ms (l.pa / 4)).wct
      ((∀ l ∈ f.loads, ¬ stale l) → ∃ t h, leaves (.fenceSValidation k) h t ∧ t.ms = s.ms ∧ h.regs = g.regs ∧
        h.region.map Region.fences = some (r.fences.erase f)) ∧
      ((∃ l ∈ f.loads, stale l) → g.proxyOf = none → s.pkg.cns.verbose = false → ∃ t h x, leaves (.fenceSValidation k) h t ∧
        h.region = some x ∧ x.phase = .replaying ∧ x.buf = [] ∧ x.effects = [] ∧ x.noSpec = true ∧ h.regs.rq = r.snap.rq ∧
        h.regs.p = r.snap.p ∧ h.pend = [])) ∧
    (∀ r, commitDue s k = true → g.region = some r → r.after = .close → r.atomic = none → r.effects = [] → r.replays = 0 →
      g.proxyOf = none → ∃ t h, leaves (.regionCommit k) h t ∧ h.region = none ∧ (∀ sp ∈ h.splits, sp.hold = none) ∧
        h.splits.map Split.pc = g.splits.map (fun sp => sp.pc.add 1) ∧
        t.ms = (sendBuffer s (g.writer k ((g.splits.head?.map Split.id).getD 0)) g.info.team r.buf).2.ms) ∧
    (∀ v x r, seamVictims s k = [v] → s.group? v = some x → x.region = some r → commitReady s x r = false →
      ∃ t h y, exec (.seamWaitTimeout k) s = .next t ∧ t.group? v = some h ∧ h.region = some y ∧ y.phase = .seam ∧
        y.after = .seam ∧ y.buf = r.buf ∧ (∀ sp ∈ h.splits, sp.hold = some .commit) ∧ t.ms = s.ms) ∧
    (∀ n r, s.work.releases[n]? = some r → releaseDue s n = true →
      let left := s.work.releases.eraseIdx n
      (r.eff = .signal → ∀ x, s.grid? r.grid = some x → ∃ t, exec (.effectRelease n) s = .next t ∧
        t.grid? r.grid = some { x with signals := x.signals + 1 } ∧ t.work.releases = left) ∧
      (∀ l, r.eff = .launch l → ∃ t, exec (.effectRelease n) s = .next t ∧ dlqOf t r.die = dlqOf s r.die ++ [l] ∧
        t.work.releases = left) ∧
      exec (.effectRelease n) s = .next (doRelease { s with work := { s.work with releases := left } } r) ∧
      (∀ j m, r.eff = .arrive j → j < 16 → s.team? r.team = some m → ∃ t, exec (.barrierArrivalCount n) s = .next t ∧
        barrierOf t r.team j = (barrierOf s r.team j).arrive 0 ∧ t.work.releases = left)) ∧
    (∀ n x hdr, s.work.trays[n]? = some x → trayDue s n = true → findTray s x.ctx x.entry = some hdr →
      trayRefused hdr = false → (∀ r ∈ x.recs.take 32, ∀ v ∈ r.vals, v.1 < trayRegs hdr) →
      ∃ t, exec (.trayTimerExpiry n) s = .next t ∧ t.work.trayGroups = s.work.trayGroups ++
        [⟨x.ctx, x.die, hdr, x.recs.take 32, s.work.nextGrid⟩]) ∧
    (∀ u, unitKey u = k → rereadDue s u = true → ∃ t h, leaves (.waitmReread u) h t ∧ h.regs = g.regs ∧ t.ms = s.ms ∧
      ∀ y ∈ h.splits, y.id = u.split → y.reread = 0 ∧ ∀ e ∈ y.watch, e.2.1 = 0 ∨ s.clock.dtime < e.2.1) ∧
    (∀ u sp, unitKey u = k → watchDue s u = true → g.split? u.split = some sp →
      let stuck := ((groupsOfGrid s g.info.grid).all fun e => match e.2.waitingSince with
          | some t => decide (s.starve ≤ s.clock.cycle - t)
          | none => false) && ((s.grid? g.info.grid).map fun x => decide (x.next < x.total)).getD false
      (stuck = false → pendingArm s g sp = none → ∃ t h y, leaves (.watchedWaitExpiry u) h t ∧ h.split? u.split = some y ∧
        y.waitStart = some s.clock.cycle ∧ y.hold = sp.hold ∧ h.regs = g.regs) ∧
      ((stuck = true ∨ (pendingArm s g sp).isSome = true) → g.pend = [] → g.traps = [] →
        exec (.watchedWaitExpiry u) s = .next (takeTrap s k sp.id (Trap.word 0x0C 0x12) sp.pc sp.pc false))) ∧
    ∀ core, ∃ l : List UnitRef, l.Perm s.issuing ∧ exec (.starvationLimit core) s =
      .next ((eviction { s with issuing := l } core).getD { s with issuing := l })

/-- R117, R118, R127, R137, R156, R264, R266, R270, R271, R273, R281, R284, R341-R345, R430, R480: the events of engines. A grant
marks its operation; a result reaches its group; a tile comes from the operand cache or memory; partners that do not come trap;
a copy goes to an engine and completes; members of a collective are heard or lost, and it completes; a path operation acts. -/
def Obligations.EngineEventsComplete : Prop :=
  ∀ (s : State),
    (∀ cl, exec (.arbiterPromotion cl) s = .next (markEligible s cl) ∧
      (∀ x ∈ eligibleOps s cl, ∃ y ∈ matTable (markEligible s cl) cl, y.id = x.id ∧
        y.eligible = x.eligible.orElse fun _ => some s.clock.cycle) ∧
      (nextGrant (markEligible s cl) cl = none → exec (.enginePassGrant cl) s = .next (markEligible s cl)) ∧
      ∀ o, nextGrant (markEligible s cl) cl = some o → o.cluster = cl → ∃ t, exec (.enginePassGrant cl) s = .next t ∧
        (∃ x ∈ matTable t cl, x.id = o.id) ∧ (∀ x ∈ matTable t cl, x.id = o.id → x.granted = some s.clock.cycle) ∧
        ∀ x ∈ matTable t cl, x.id ≠ o.id → x ∈ matTable (markEligible s cl) cl) ∧
    (∀ cl n o g p, (matTable s cl).find? (fun o => o.id == n && o.native) = some o → o.cluster = cl → s.group? o.group = some g →
      (o.mmaj = none → matDue s o = true → o.inject = false → waitsEngine g o (o.result s) p →
        ∃ t h, exec (.matrixDelivery cl n) s = .next t ∧ t.group? o.group = some h ∧
          Delivered g h p (o.result s).regs (o.result s).flags ∧ ∀ x ∈ matTable t cl, x.id ≠ o.id) ∧
      (o.mmaj = none → matDue s o = true → o.inject = true → g.region = none → exec (.matrixDelivery cl n) s =
        .next (onOp s o fun x => { x with inject := false, granted := some s.clock.cycle })) ∧
      (∀ m os, o.mmaj = some m → jointAll s o.core g.info.grid g.info.ix m = some os →
        (∀ x ∈ os, matDue s x = true ∧ x.issued + 48 ≤ s.clock.cycle ∧ ∃ y, s.group? x.group = some y ∧ m < y.mmaj) →
        exec (.matrixDelivery cl n) s = .next (deliverJoint s os))) ∧
    (∀ k g e, s.group? k = some g → g.emu = some e → e.due ≠ 0 → e.due ≤ s.clock.cycle → exec (.fmtemuComplete k) s =
      .next { s.setGroup k { g with emu := some { e with due := 0 } } with issuing := ⟨coreOf k, slotOf k, e.split⟩ :: s.issuing }) ∧
    (∀ cl n o m g sp, (matTable s cl).find? (fun o => o.id == n) = some o → o.mmaj = some m → s.group? o.group = some g →
      (List.range 4).filterMap (fun i => jointEntry s (quadOf o.core + i) g.info.grid g.info.ix m) = [o] →
      g.split? o.split = some sp → sp.hold = some (.wait .mmaj) → o.issued + s.starve ≤ s.clock.cycle →
      (partnerAway s g.info.grid g.info.ix = true → exec (.mmajGatherTimeout cl n) s = .next s) ∧
      (partnerAway s g.info.grid g.info.ix = false → g.pend = [] → g.traps = [] → exec (.mmajGatherTimeout cl n) s =
        .next (takeTrap (dropOp s o) o.group sp.id (Trap.word 0x0C 0x71) sp.pc sp.pc false))) ∧
    (∀ cl n o tile, (matTable s cl).find? (fun o => o.id == n) = some o → o.cluster = cl → o.tile = some tile →
      tile.got = none → fetchTurn s o = true →
      let s₁ := settleFences s o.core
      let found (i : Instr) (x : List Byte × List Nat × BitVec 16 × Nat) : Prop :=
        ∃ t y z, exec i s = .next t ∧ y ∈ matTable t cl ∧ y.id = n ∧ y.tile = some z ∧ z.got = some x
      let cached := s.eng.oc.find? fun e =>
        e.cluster == cl && e.team == tile.team && e.handle == tile.handle && e.gen == tile.gen
      (∀ e, cached = some e → found (.operandFetchComplete cl n) (e.bytes, e.pois, e.status, 0)) ∧
      (cached = none → ∀ s₂ g y, ocRoom s₁ cl = some s₂ → s₂.group? o.group = some g →
        fetchRun s₂ cl (o.fetchCmd tile g.info.ctx g.grids g.inRegion) = some y →
        let x := y.1.advance y.2
        (x.1.ended = false → exec (.operandFetchComplete cl n) s = .next (setRun x.2 x.1)) ∧
        (x.1.ended = true → matTable x.2 cl = matTable s cl → found (.operandFetchComplete cl n)
          (if x.1.status.getLsbD 0 then ([], [], x.1.status, x.1.far) else (x.1.bytes, x.1.pois, x.1.status, 0))))) ∧
    (∀ q c rest e, ((settleFences s q).queues q).copy = .op c :: rest → copyBusy (settleFences s q) q = false →
      pickEngine (settleFences s q) (queueDie (settleFences s q) q) = some e → ∃ t, exec (.copyDispatch q) s = .next t ∧
        (t.queues q).copy = rest ∧ t.eng.copies = (settleFences s q).eng.copies ++ [CopyRun.begin (settleFences s q) c e] ∧
        t.ms = s.ms) ∧
    (∀ n r, s.eng.copies.find? (fun r => r.cmd.id == n && r.cmd.cache.isNone && !r.finished) = some r →
      let m := r.advance s
      let over' := m.1.ended && (m.1.gwct == 0 || decide (m.1.gwct < m.2.clock.dtime))
      (over' = true → m.1.cmd.arriveHeld = false → ∃ t, exec (.copyComplete n) s = .next t ∧ t.ms = m.2.ms ∧
        (∀ x ∈ t.eng.copies, x.cmd.id ≠ m.1.cmd.id) ∧ ∀ g, m.2.group? m.1.cmd.group = some g → g.region = none →
          ∃ h, t.group? m.1.cmd.group = some h ∧ h.batches = g.batches.finish m.1.cmd.batch m.1.status) ∧
      (over' = false → exec (.copyComplete n) s = .next (setRun m.2 m.1))) ∧
    (∀ n r, collOf s n = some r →
      (∀ j, (memberLate s n j = true → ∃ t, exec (.collMemberTimeout n j) s = .next t ∧
          collOf t n = some { r with lost := insNat r.lost j }) ∧
        (j ∈ r.missing → (∀ xs, ∃ t, exec (.memberContribution n j (.data xs)) s = .next t ∧
            collOf t n = some { r with got := r.got ++ [(j, xs)] }) ∧
          ∃ t, exec (.memberContribution n j .refused) s = .next t ∧ collOf t n = some { r with lost := insNat r.lost j })) ∧
      (r.engine.isSome = true → s.eng.colls.find? (fun x => x.key == n) = some r → (r.desc.op = 3 → r.desc.root ∉ r.lost) →
        let x := CollRun.run s.freeCtr r.fuel r s
        x.1 = true → (x.2.1.gwct = 0 ∨ x.2.1.gwct < x.2.2.clock.dtime) →
        ∃ t, exec (.collComplete n) s = .next t ∧ t.ms = x.2.2.ms ∧ (∀ y ∈ t.eng.colls, y.id ≠ x.2.1.id) ∧
          ∀ g, x.2.1.torn = false → x.2.2.group? x.2.1.group = some g → g.region = none →
            ∃ h, t.group? x.2.1.group = some h ∧ h.batches =
              g.batches.finish x.2.1.batch (if x.2.1.pois then x.2.1.status ||| 2 else x.2.1.status))) ∧
    ∀ core o rest g, ((settleFences s core).queues core).path = .op o :: rest → s.group? o.group = some g →
      ∃ t, exec (.pathOperation core) s = .next t ∧ t.group? o.group = some (o.kind.run s.clock.cycle g) ∧ t.ms = s.ms ∧
        queueOps (t.queues core).path = queueOps rest

/-- R63, R112, R190, R350, R354, R397, R411-R422, R432, R433, R442-R446: the dispatcher's events. A launch becomes a grid; a
candidate's team takes its core; a complete grid tells its team or its queue; a host queue's head is taken; a saved unit
returns; a context's save ends; a tear-down leaves nothing of its context. -/
def Obligations.DispatcherEventsComplete : Prop :=
  ∀ (s : State),
    (∀ n l rest, dlqOf s n = l :: rest → ctxHalted s l.ctx = false → (s.ctx? l.ctx).isSome = true →
      ∃ t g, exec (.launchAccept n) s = .next t ∧ dlqOf t n = rest ∧ t.grid? s.work.nextGrid = some g ∧ g.ctx = l.ctx ∧
        g.id = l.id ∧ g.level = l.level + 1 ∧ g.parent = some l.grid ∧ g.origin = .team l.team ∧ g.done = false ∧ g.next = 0 ∧
        g.refuse = headerRefuse s l.hdr ∧ g.total = (if g.refuse = 0 then (Header.of l.hdr).teams else 0) ∧
        t.work.groups = s.work.groups ∧ (g.refuse ≠ 0 → t.ms = s.ms)) ∧
    (∀ c core, nextAdmission s = some (c, [core]) →
      (c.tray = false → ∀ g, s.grid? c.key = some g → ∃ t m, exec (.teamAdmission c.key) s = .next t ∧
        t.team? s.work.nextTeam = some m ∧ m.grid = c.key ∧ m.core = core ∧ m.index = g.next ∧ m.ctx = g.ctx ∧
        m.slots = freeSlots s core g.hdr.teamGroups ∧ m.scr.size = roundKiB g.hdr.scratch ∧ m.tray = false ∧
        (∀ i ∈ m.slots, ∃ h, t.group? (core * 32 + i) = some h ∧ h.info.team = s.work.nextTeam ∧ h.info.grid = c.key ∧
          h.info.ctx = g.ctx) ∧
        t.grid? c.key = some { g with
          next := g.next + 1, groups := g.groups + (m.slots.zip g.hdr.groupRoles.zipIdx).length }) ∧
      (c.tray = true → ∀ x, s.work.trayGroups.find? (fun t => t.seq == c.key) = some x →
        ∃ t m, exec (.teamAdmission c.key) s = .next t ∧ t.team? s.work.nextTeam = some m ∧ m.core = core ∧ m.ctx = x.ctx ∧
          m.tray = true ∧ m.slots = freeSlots s core 1 ∧ ∀ y ∈ t.work.trayGroups, y.seq ≠ c.key)) ∧
    (∀ gk g, s.grid? gk = some g → gridOver s gk = true →
      (∀ tk m, g.origin = .team tk → s.team? tk = some m → ∃ t, exec (.gridComplete gk) s = .next t ∧ t.grid? gk = none ∧
        t.team? tk = some { m with children := m.children.map fun c =>
          if c.grid = (some gk) then { c with status := some g.status } else c }) ∧
      (∀ q n, g.origin = .host q n → q < s.work.hq.length → (∀ e ∈ (hqOf s q).entries, e.grid = some gk → e.cmp = 0) →
        ∃ t, exec (.gridComplete gk) s = .next t ∧ (∀ e ∈ (hqOf t q).entries, e.grid ≠ some gk) ∧ t.ms = s.ms)) ∧
    (∀ q ctx e, q < s.work.hq.length →
      let s₁ (op : HqEntry → Bool) : State := touchHead (dropRecords (flushRecords s q op)) q
      let next (t x : State) : Prop := (hqOf t q).head = ((hqOf x q).head + 1) % (hqOf x q).ring
      let acts (i : Instr) (op : Nat) (ready : Bool) (f : Nat → State → State) : Prop :=
        let a := s₁ fun x => x.op == op
        hqHead a q = some (ctx, e) → hqMalformed e = false → hqOp e = op → ready = true →
        let b := loadCtx a (hqOf a q).desc
        ∃ t, exec i s = .next t ∧ next t a ∧
          t = flushRecords (hqTake (f b.1 b.2) q b.1 e none 0 true) q fun x => x.op == op
      (let a := s₁ fun e => e.op == 1 || e.refuse != 0
       hqHead a q = some (ctx, e) → hqOp e = 1 → hqMalformed e = false →
       let b := (loadCtx a (hqOf a q).desc).2
       ∀ hdr, (readHeader b q ctx (e.getD 1 0).toNat).1 = .words hdr →
        let r := (readHeader b q ctx (e.getD 1 0).toNat).2
        ∃ t g, exec (.hqLaunch q) s = .next t ∧ t.grid? r.work.nextGrid = some g ∧ g.origin = .host q (hqOf r q).head ∧
          g.level = 1 ∧ g.parent = none ∧ g.done = false ∧ g.next = 0 ∧
          g.refuse = headerRefuse (loadCtx r (hqOf r q).desc).2 hdr ∧ next t r) ∧
      acts (.hqRelease q) 2 (hqClear s q) (fun c x => handRange x c (e.getD 4 0).toNat (e.getD 5 0).toNat false) ∧
      acts (.hqAcquire q) 3 true (fun c x => handRange x c (e.getD 4 0).toNat (e.getD 5 0).toNat true) ∧
      acts (.hqJoin q) 4 (hqClear s q) fun _ x => x) ∧
    (∀ x cores, nextRestore s = some x → restoreAt s x = some cores → ∃ t, exec (.groupRestore x.seq) s = .next t ∧
      ∀ y ∈ t.work.saved, y ∈ s.work.saved ∧ y.seq ≠ x.seq) ∧
    (∀ ctx, saveDue s ctx = true → ∃ t c, exec (.contextSaveComplete ctx) s = .next t ∧ t.ctx? ctx = some c ∧
      c.saving = false ∧ c.preempted = true ∧ t.work.sched.preBusy = false ∧ (∀ e ∈ t.work.teams, e.2.ctx ≠ ctx) ∧
      ∀ core, ∀ e ∈ slogOf t core, e.ctx ≠ ctx) ∧
    (s.work.sched.tdBusy = true →
      let ctx := physNat (touchPhys s s.work.sched.tddesc.toNat 64 0) (s.work.sched.tddesc.toNat + 28) 4
      ∃ t, exec .teardown s = .next t ∧ t.work.sched.tdBusy = false ∧ t.ctx? ctx = none ∧
        (∀ e ∈ t.work.groups, e.2.info.ctx ≠ ctx) ∧ (∀ e ∈ t.work.teams, e.2.ctx ≠ ctx) ∧
        (∀ e ∈ t.work.grids, e.2.ctx ≠ ctx) ∧ (∀ e ∈ t.work.saved, e.ctx ≠ ctx) ∧ (∀ r ∈ t.eng.copies, r.cmd.ctx ≠ ctx) ∧
        (∀ r ∈ t.eng.colls, r.ctx = ctx → r.torn = true) ∧
        ((∀ r ∈ s.eng.colls, r.ctx ≠ ctx) → ∀ e ∈ s.work.groups, e.2.info.ctx ≠ ctx → e ∈ t.work.groups))

namespace Sys2Proof.Machine

/-- Every group stands as before, but for holds that have ended: registers, special registers and PCs. -/
def groupsKept (s t : State) : Prop :=
  ∀ k g, s.group? k = some g → ∃ h, t.group? k = some h ∧ h.regs = g.regs ∧ h.sys = g.sys ∧
    h.splits.map Split.pc = g.splits.map Split.pc

/-- A side-log entry holds a reduction (R59). -/
def StoreKind.isRed (k : StoreKind) : Bool := match k with
  | .store _ _ => false
  | .red _ _ _ => true

end Sys2Proof.Machine

/-- R54, R57, R59, R62, R66-R68, R70, R71: the events of translation and placement. A walk that finds a leaf enters the core's TLB;
an invalidation waits for accesses under way, then leaves no translation of its range and no access held on its pages; a move ends
at its new home, or as an image; a log entry is performed, sent, dropped or waits again as its page is; an epoch halves the counts,
and starts a move; a compressed page expands into a free frame, and without one the host is told. -/
def Obligations.TranslationEventsComplete : Prop :=
  ∀ (s : State),
    (∀ core ctx va acc lv e, wildAddr va = false → (tlbOf s core).find? (fun x => x.covers ctx va) = none →
      (finishWalk (walkDie s (dieOf core) ctx va).2 (walkDie s (dieOf core) ctx va).1 (coreAgent core) ctx va acc false).2.1 =
        some (lv, e) → core < 384 →
      ∃ t x, exec (.walkComplete core ctx va acc) s = .next t ∧ x ∈ tlbOf t core ∧ x.covers ctx va = true ∧ x.leaf = e ∧
        x.size = levelSpan lv) ∧
    (∀ i, s.vm.inval = some i →
      let b := if i.upto.isNone then beginInval s i else s
      (rangeBusy b i.ctx i.range (i.upto.getD b.pkg.nextReq) = true → exec .invalidationComplete s = .next b) ∧
      (rangeBusy b i.ctx i.range (i.upto.getD b.pkg.nextReq) = false →
        ∃ t, exec .invalidationComplete s = .next t ∧ t.vm.regs.busy = false ∧ t.vm.inval = none ∧
          (∀ core, ∀ x ∈ tlbOf t core, invalMeets i.ctx i.range x.ctx x.base x.size = false) ∧
          (∀ e ∈ t.work.groups, ∀ sp ∈ e.2.splits, ∀ ctx lanes acc, sp.hold = some (.fault ctx lanes acc) →
            ∀ l ∈ lanes, invalMeets i.ctx i.range ctx (l.2 / 2 ^ 16 * 2 ^ 16) (2 ^ 16) = false) ∧
          (i.refuse = false → groupsKept s t ∧ t.ms = s.ms ∧ ∀ core, tlbOf t core =
            (tlbOf s core).filter fun x => !invalMeets i.ctx i.range x.ctx x.base x.size))) ∧
    (∀ m rest, s.vm.inval = none → s.vm.moves = m :: rest →
      let s₁ := s.onVm fun vm => { vm with moves := vm.moves.erase m }
      let l := Leaf.of m.old.toNat
      ∃ t, exec .invalidationComplete s = .next t ∧ t.vm.moves = rest ∧ groupsKept s t ∧
        (∀ d, m.newHome = some d →
          let x := casLeaf (flushPage s₁ m.die l.pa (m.size s₁)) m.leafAt (leafTransit m.old) (leafHome m.old d)
          t.ms = x.2.ms ∧ (x.1 = true → ⟨d, m.ctx, m.va, 0⟩ ∈ t.vm.recent)) ∧
        (m.newHome = none →
          let p := readMarked (flushAll s₁ l.pa (2 ^ 16)) l.pa (2 ^ 16) m.ctx
          ∀ place, pagePoisoned p l.pa = false → coldPlace p = some place →
          (casLeaf (writeImage p place (pageCells p l.pa)) m.leafAt (leafTransit m.old) (leafPage m.old place ||| 0x20)).1 = true →
          NMap.get? t.vm.images place = some (pageCells p l.pa) ∧ l.pa / 2 ^ 16 ∈ t.vm.frames)) ∧
    (∀ core e, slogOf s core = [e] → ownerlessOf s core = [] → replayable s core false = some e →
      let x := translate s (core * 32) none e.ctx e.va .write e.kind.isRed
      (∀ l pa, x.1 = .ok l pa → l.tgt = 0 → ∃ t, exec (.sideLogReplay core) s = .next t ∧ slogOf t core = [] ∧
        t.ms = (sendSector (removeEntry (samplePage x.2 l e.ctx e.va (dieOf core)) core e) (e.writer core) l pa e.va e.performs
          e.poison).2.ms) ∧
      (∀ l pa o, x.1 = .ok l pa → l.tgt ≠ 0 → kindOps e.performs = [o] →
        (sendRemote (samplePage x.2 l e.ctx e.va (dieOf core)) (.slog core e) (e.writer core).sender l (pa / 32 * 32 + o.1)
          (e.va / 32 * 32 + o.1) o.2 e.poison).1 = none →
        ∃ t, exec (.sideLogReplay core) s = .next t ∧ slogOf t core = [e] ∧ inFlight t core e = true) ∧
      (x.1 = .denied → ∃ t, exec (.sideLogReplay core) s = .next t ∧ slogOf t core = []) ∧
      (x.1 = .wait → ∃ t, exec (.sideLogReplay core) s = .next t ∧ slogOf t core = [{ e with waits := true }])) ∧
    (∀ die, s.vm.regs.migen = false → s.vm.regs.colden = false → exec (.epochEnd die) s = .next { s with
      vm := { s.vm with
        counts := s.vm.counts.map fun p =>
          if p.die = die then { p with counts := p.counts.map (· / 2), idle := p.idle + 1 } else p
        recent := (s.vm.recent.map fun r => if r.die = die then { r with epochs := r.epochs + 1 } else r).filter fun r =>
          decide (r.epochs < 4) } }) ∧
    (∀ die d x rest, s.vm.regs.migen = true → s.vm.counts = x :: rest → (∀ p ∈ rest, p.die ≠ die) → x.die = die →
      x.target s = some d → ∀ l pa lv at?, leafNow s x.ctx x.va = some (l, pa, lv, at?) → lv < 2 → x.size = levelSpan lv →
      l.tgt = 0 → l.pin = false → l.home = die →
      (casLeaf s at? (w64 (physNat s at? 8)) (leafTransit (w64 (physNat s at? 8)))).1 = true →
      ∃ t, exec (.epochEnd die) s = .next t ∧
        t.vm.moves = s.vm.moves ++ [⟨die, x.ctx, x.va, at?, w64 (physNat s at? 8), some d⟩]) ∧
    ∀ die ctx (v : PageTouch) at? e, (walkTop s ctx v.va).1 = .leaf 0 at? e →
      let l := Leaf.of e
      let place := l.pa / 2 ^ 16
      let free := s.vm.frames.find? fun f => !avoided s f
      l.dev = true → l.v = true → l.cold = true →
      ((NMap.get? s.vm.images place = none ∨ free = none) → exec (.pageExpansion die ctx v) s =
        .next (postVmFault s ctx v.va 4 v.access ⟨die, v.agent, v.unit⟩ 0)) ∧
      ∀ cells f, NMap.get? s.vm.images place = some cells → free = some f →
        let pa := f * 2 ^ 16
        let p := dropL1Range (flushAll (readMarked s (place * 2 ^ 16) imageBytes ctx) pa (2 ^ 16)) pa (2 ^ 16)
        let x := casLeaf p at? (w64 e) (leafHome (leafPage (w64 e) f &&& ~~~(0x20 : W64)) die)
        x.1 = true → ∃ t, exec (.pageExpansion die ctx v) s = .next t ∧
          NMap.get? t.vm.images place = none ∧ f ∉ t.vm.frames ∧ groupsKept s t ∧
          t.ms.mem = cells.foldl (fun m c => cellSet m (pa + c.1) c.2)
            (x.2.ms.mem.filter fun c => decide (c.1 < pa) || decide (pa + 2 ^ 16 ≤ c.1))

/-- R79, R239, R266, R451-R457, R461-R464, R494: containment's events. A first mismatch outside a region scores and repeats the
word, an error in a region rolls back, a parity error outside takes STRIKE after its word; a bad L1 sector is dropped; a replay
elsewhere finds its core, moves, runs and returns, or stays in place; scores are halved; a tested unit returns, is repaired or
is taken out. -/
def Obligations.ContainmentEventsComplete : Prop :=
  ∀ (s : State), s.pkg.cns.autotest = false →
    let rolledBack (t : State) (k : Nat) (r : Region) : Prop := ∃ h y, t.group? k = some h ∧ h.proxied = true ∧
      h.region = some y ∧ y.phase = .replaying ∧ y.fails = r.fails + 1 ∧ y.buf = [] ∧ y.effects = [] ∧ h.regs.rq = r.snap.rq ∧
      h.pend = []
    let ready (u : UnitRef) (c : Cx) : Prop := nextWord s u = some c ∧ c.g.proxied = false ∧
      (matTable s (clusterOf (coreOf (unitKey u)))).find? (fun o => o.group == unitKey u && o.checked && o.granted.isSome) = none
    let again (c : Cx) (r : Region) : Prop := c.g.region = some r ∧ c.g.proxyOf = none ∧ r.fails < 2 ∧
      s.pkg.cns.verbose = false
    (∀ u c kind index, ready u c → checkedBy c.i (coreOf (unitKey u)) = some (kind, index) →
      (c.g.region = none → c.g.repeated ≠ some (c.sp.id, c.sp.pc, c.sp.lastIssue) →
        ∃ t, exec (.residueMismatch u) s = .next t ∧
          t.group? (unitKey u) = some { c.g with repeated := some (c.sp.id, c.sp.pc, c.sp.lastIssue) } ∧
          (scoreOf t kind index).score = min ((scoreOf s kind index).score + s.pkg.cns.wmis) 0xFFFF) ∧
      ∀ r, again c r → ∃ t, exec (.residueMismatch u) s = .next t ∧ rolledBack t (unitKey u) r ∧
        t.pkg.cns.rollbk = min (s.pkg.cns.rollbk + 1) 0xFFFFFFFF) ∧
    (∀ u c, nextWord s u = some c → c.g.proxied = false → readsParity c.i.uses = true →
      (c.g.region = none → c.g.trap = none → c.g.pend = [] → c.g.traps = [] → c.g.info.handler.isSome = true →
        ∃ t, exec (.parityError u) s = .next t ∧ c.Entered t 0x13 (c.sp.m &&& ~~~c.g.off) 0 2 c.nextPc ∧
          (scoreOf t 2 (coreOf c.k)).score = min ((scoreOf s 2 (coreOf c.k)).score + s.pkg.cns.wpar) 0xFFFF) ∧
      ∀ r, again c r → ∃ t, exec (.parityError u) s = .next t ∧ rolledBack t (unitKey u) r) ∧
    (∀ zone < 96, (∀ e ∈ s.work.groups, clusterOf (coreOf e.1) ≠ zone) → ∃ t, exec (.strikeReport zone) s = .next t ∧
      t.work = s.work ∧ t.ms = s.ms ∧ ∀ o ∈ matTable t zone, o.granted = none) ∧
    (∀ slice, ∃ t, exec (.sliceCricketReport slice) s = .next t ∧ t.work = s.work ∧
      ∀ e ∈ t.ms.l2marks, e ∈ s.ms.l2marks ∧
        ¬ (e.1 / 2 ^ 35 = slice / 48 ∧ sliceOf (e.1 % 2 ^ 35 / 4) = slice % 48)) ∧
    (∀ core pa, (∀ e ∈ s.groupsOf core, e.2.region = none) → ∃ t, exec (.l1Uncorrectable core pa) s = .next t ∧
      l1Copy t core (pa / 32) = none ∧ t.work = s.work ∧
      (scoreOf t 3 core).score = min ((scoreOf s 3 core).score + s.pkg.cns.wunc) 0xFFFF) ∧
    (∀ k g, s.group? k = some g → proxyLate s k = true → ∃ t, exec (.proxyPlacementTimeout k) s = .next t ∧
      t.group? k = some { g with proxied := false } ∧ (∀ x ∈ t.pkg.proxies, x.orig ≠ k) ∧ t.ms = s.ms) ∧
    (∀ k p, proxyEntry s k = some p →
      (∀ n c g slot rest, p.stage = .placing n → proxyCore s p = some c → s.group? k = some g →
        freeSlots s c 1 = slot :: rest → ∃ t h, exec (.proxyTransferComplete k) s = .next t ∧
          t.group? (c * 32 + slot) = some h ∧ h.proxyOf = some k ∧ h.halted = true ∧ h.region = g.region ∧ h.regs = g.regs ∧
          h.sys = g.sys ∧ h.splits = g.splits ∧ t.ms = s.ms ∧
          proxyEntry t k = some { p with proxy := some (c * 32 + slot), stage := .transfer (s.clock.cycle + 6750) }) ∧
      ∀ n pk g, p.stage = .transfer n → p.proxy = some pk → n ≤ s.clock.cycle → s.group? pk = some g →
        ∃ t h, exec (.proxyTransferComplete k) s = .next t ∧ t.group? pk = some h ∧ h.halted = false ∧ h.regs = g.regs ∧
          h.splits.map Split.pc = g.splits.map Split.pc ∧ proxyEntry t k = some { p with stage := .running } ∧ t.ms = s.ms) ∧
    (∀ k g pk p, s.group? k = some g → proxyOver s k = some (pk, p) → pk ≠ k → (∀ sp ∈ p.splits, sp.hold ≠ some .commit) →
      ∃ t h, exec (.proxyResume k) s = .next t ∧ t.group? k = some h ∧ h.regs = p.regs ∧ h.sys = p.sys ∧ h.info = g.info ∧
        h.splits.map Split.pc = p.splits.map Split.pc ∧ h.proxied = false ∧ h.halted = false ∧ t.group? pk = none ∧
        (∀ x ∈ t.pkg.proxies, x.orig ≠ k) ∧ t.ms = s.ms) ∧
    (decayDue s = true → ∃ t, exec .scoreDecay s = .next t ∧ t.work = s.work ∧ t.ms = s.ms ∧
      t.pkg.scores = s.pkg.scores.map (fun e => (e.1, { e.2 with score := e.2.score / 2 })) ∧
      t.pkg.flashScores = s.pkg.scores.map (fun e => (e.1, e.2.score / 2)) ∧
      t.pkg.cns.lastDecay = s.pkg.cns.lastDecay + decayPeriod s) ∧
    ∀ kind index, (scoreOf s kind index).state = 1 →
      let u := scoreOf s kind index
      (∃ t, exec (.unitTestComplete kind index .pass) s = .next t ∧ scoreOf t kind index = ⟨0, 0, u.spares⟩) ∧
      (∀ n, u.spares < spareCount kind → (kind = 5 → s.ms.l2marks = []) → ∃ t, exec (.unitTestComplete kind index (.repaired n)) s = .next t ∧
        scoreOf t kind index = ⟨0, 0, u.spares + 1⟩) ∧
      ∃ t, exec (.unitTestComplete kind index .beyond) s = .next t ∧
        scoreOf t kind index = { u with state := if kind = 5 then 3 else 2 } ∧
        NMap.get? t.pkg.health (unitScoreKey kind index) = some { u with state := if kind = 5 then 3 else 2, score := 0 }

/-- R122, R123, R392, R447, R449, R450, R470-R479: the events of links and trace units. A BAR2 write raises the host horizon and
reaches its bytes; a late reply counts as a failure; a peer's request is served through its window or refused; an answered retry
leaves the log, and after 10 ms its entry is dropped; a port goes down with DOWNEV and vector 6; a trace unit moves packets to
its ring, and a group's SYNC and a core's LOSS enter the core's queue. -/
def Obligations.LinkEventsComplete : Prop :=
  ∀ (s : State),
    (∀ off n, bar2Serves s off n = true → 0 < n → ∃ t, exec (.hostBar2Read off n) s = .next t ∧ t.work = s.work ∧
      (s.ms.l2marks = [] → s.ms.missq = [] →
        (∀ b, off ≤ b → b < off + n → NMap.get? s.ms.marks (b / 32) = none ∧ (s.chan (channelOf (b / 128))).packets = []) →
        t.ms.mem = s.ms.mem)) ∧
    (∀ (off : Nat) (bs : ByteList), bar2Serves s off bs.length = true → 0 < bs.length → off % 32 + bs.length ≤ 32 →
      homeHolding s.ms (off / 32) = none → NMap.get? s.ms.marks (off / 32) = none → s.ms.missq = [] → Memory.wf s.ms.mem = true →
      (s.chan (channelOf (off / 128))).packets = [] → ∃ t, exec (.hostBar2Write off bs) s = .next t ∧ t.work = s.work ∧
        t.ms.hostHorizon = max s.ms.hostHorizon
          (max s.clock.dtime (lineTimes s.ms (off / 128)).leaseEnd + 2) ∧
        ∀ n b, b < 32 → Sector.byte (memSector t.ms n) b =
          if n = off / 32 ∧ off % 32 ≤ b ∧ b < off % 32 + bs.length then bs.getD (b - off % 32) 0
          else Sector.byte (memSector s.ms n) b) ∧
    (∀ n, hostLate s n = true → exec (.hostCompletionTimeout n) s =
      .next { s with pkg := { s.pkg with inbox := NMap.set s.pkg.inbox n (.fail 8) } }) ∧
    (∀ n, peerLate s n = true → exec (.peerReplyTimeout n) s =
      .next { s with pkg := { s.pkg with inbox := NMap.set s.pkg.inbox n (.fail 4) } }) ∧
    (∀ rq : PeerReq,
      let writes := match rq.op with
        | .read _ => false
        | _ => true
      let owes (t : State) (rep : Reply) (after : Nat) : State :=
        t.onPkg fun p => { p with acks := p.acks ++ [⟨rq.peer, rq.addr, rep, after⟩] }
      let refused (code : Nat) : Prop := exec (.peerInboundRequest rq) s =
        .next (owes (postFaq s 0x10 16 rq.peer code 0 rq.addr 0) (.fail code) 0)
      ((s.pkg.peers.en = false ∨ s.minimal = true) → refused 3) ∧
      (s.pkg.peers.en = true → s.minimal = false →
        (windowOf s rq.addr = none → refused 1) ∧
        ∀ w, windowOf s rq.addr = some w → (writes = true → w.w = false → refused 2) ∧
          ((w.w = true ∨ writes = false) →
            let x := performPhys s rq.addr rq.op rq.poison
            exec (.peerInboundRequest rq) s = .next (owes x.2.2.2 (.ok x.1 x.2.1) (if writes then x.2.2.1 else 0))))) ∧
    (∀ core e r rep, slogOf s core = [e] → ownerlessOf s core = [] → retryAnswered s core = some (r, e, rep) →
      ∃ t, exec (.peerRetry core) s = .next t ∧ (∀ x ∈ t.pkg.outreqs, x.n ≠ r.n) ∧
        (∀ bs, rep = .ok bs false → slogOf t core = [] ∧ t.work = s.work ∧ t.ms = s.ms) ∧
        (∀ bs, rep = .ok bs true → slogOf t core = []) ∧
        ∀ c, rep = .fail c → t.work = s.work ∧ t.ms = s.ms ∧ slogOf t core =
          [{ e with code := c, first := some (e.first.getD r.sent), retryAt := max s.clock.dtime (r.sent + 100000) }]) ∧
    (∀ core e, slogOf s core = [e] → ownerlessOf s core = [] → dropReady s core = some e →
      ∃ t, exec (.peerStoreDrop core) s = .next t ∧ slogOf t core = [] ∧ t.work.groups = s.work.groups ∧
        ∀ x, s.grid? e.grid = some x → t.grid? e.grid = some { x with flags := x.flags ||| 0x10 }) ∧
    (∀ p x, p < 12 → s.pkg.peers.ports[p]? = some x →
      (∃ t, exec (.peerPortDown p) s = .next t ∧ t.pkg.peers.ports[p]? = some { x with up := false, downEv := true } ∧
        t.pkg.msix = s.pkg.msix ++ [6] ∧ t.work = s.work ∧ t.ms = s.ms) ∧
      ∃ t, exec (.peerPortUp p) s = .next t ∧ t.pkg.peers.ports[p]? = some { x with up := true, replays := 0 } ∧
        t.pkg.msix = s.pkg.msix ∧ t.work = s.work ∧ t.ms = s.ms) ∧
    (∀ die core w, die < s.pkg.trace.length → (s.traceUnit die).en = true → traceTurn s die = some core →
      (s.traceQ core).packets = [[w]] → (∀ c, c / 96 = die → c ≠ core → (s.traceQ c).packets = []) →
      (s.traceUnit die).takes 1 = true → ∃ t, exec (.traceRingWrite die) s = .next t ∧ (s.traceQ core).lost = (t.traceQ core).lost ∧
        (t.traceQ core).packets = [] ∧ (t.traceUnit die).wr = ((s.traceUnit die).wr + 8) % 2 ^ 64 ∧
        t.ms = (physWriteW (setTraceQ s core { s.traceQ core with packets := [] })
          ((s.traceUnit die).base * 4096 + (s.traceUnit die).wr % (s.traceUnit die).ring) w).ms) ∧
    (∀ k g sp rest, s.group? k = some g → g.splits = sp :: rest → syncDue s k = true → (s.traceQ (coreOf k)).lost = 0 →
      (s.traceQ (coreOf k)).words + 2 ≤ 64 → ∃ t, exec (.traceSyncTimer k) s = .next t ∧
        t.group? k = some { g with traceOn := true, lastSync := s.clock.cycle } ∧ t.ms = s.ms ∧
        (t.traceQ (coreOf k)).packets = (s.traceQ (coreOf k)).packets ++ [syncPacket s k g sp.id]) ∧
    ∀ core, lossDue s core = true → lostGroups s core = [] → s.clock.cycle - (s.traceQ core).last ≤ 4095 →
      ∃ t, exec (.loss core) s = .next t ∧ t.work = s.work ∧ t.ms = s.ms ∧ t.traceQ core = ⟨(s.traceQ core).packets ++
        [[traceHeader 8 (s.clock.cycle - (s.traceQ core).last) core 0 0 (s.traceQ core).lost]], 0, s.clock.cycle⟩

/-- R42, R461, R464, R481-R489: start-up, the mailbox and power. A reset, a power loss and a trip lose everything but what flash
and fuses hold; each stage of a start goes to the next or fails; a late stage fails; an image becomes active at the next start; the
PMU sets a step that fits. -/
def Obligations.StartEventsComplete : Prop :=
  ∀ (s : State), (s.ms.chans.map Prod.fst).Nodup →
    let lost (t : State) : Prop := t.work = State.reset.work ∧ t.ms.mem = [] ∧ t.ms.l2 = [] ∧ t.ms.l1 = [] ∧
      t.ms.bpl = s.ms.bpl ∧ t.ms.l2off = s.ms.l2off ∧ (∀ ch, (t.chan ch).remap = (s.chan ch).remap) ∧
      t.pkg.flashScores = s.pkg.flashScores ∧ t.pkg.health = s.pkg.health ∧ t.pkg.boot.slots = s.pkg.boot.slots ∧
      t.pkg.boot.fuses = s.pkg.boot.fuses ∧ t.pkg.boot.active = s.pkg.boot.nextActive ∧ t.pkg.boot.state = 0 ∧ t.pkg.boot.stage = 1
    (∃ t, exec .packageReset s = .next t ∧ lost t ∧ t.pkg.boot.powered = true) ∧
    (∃ t, exec .powerLoss s = .next t ∧ lost t ∧ t.pkg.boot.powered = false) ∧
    (∃ t, exec .thermalTrip s = .next t ∧ lost t ∧ t.pkg.boot.powered = false ∧ t.pkg.boot.tripped = true) ∧
    (s.pkg.boot.state = 0 → s.pkg.boot.powered = true →
      let b := s.pkg.boot
      let at? (n : Nat) (b : Boot) : Boot := { b with stage := n, since := s.clock.dtime }
      (b.stage = 1 → ∀ x, (slotOrder b).find? (fun x => imageOk s (slotImage b false x)) = some x →
        exec .bootStageComplete s = .next { s with pkg := { s.pkg with boot :=
          { at? 2 b with slot := x, svn := min (Config.imageSvn (slotImage b false x)) 255 } } }) ∧
      (b.stage = 2 → ∀ x, (slotOrder b).find? (fun x => imageOk s (slotImage b true x)) = some x →
        ∃ t, exec .bootStageComplete s = .next t ∧ t.pkg.boot = at? 3 b ∧ t.vm.regs.coldNow = s.vm.regs.coldFlash ∧ t.ms = s.ms) ∧
      (b.stage = 3 → exec .bootStageComplete s = .next { s with pkg := { s.pkg with boot := at? 4 b } }) ∧
      (b.stage = 4 → exec .bootStageComplete s = .next { s with pkg := { s.pkg with boot :=
        { at? 5 b with state := 1, fails := 0, fuses := max b.fuses (min b.svn 64) } } }) ∧
      (b.stage < 3 → 0 < b.stage → (∀ x ∈ slotOrder b, imageOk s (slotImage b (b.stage == 2) x) = false) → b.fails < 2 →
        ∃ t, exec .bootStageComplete s = .next t ∧ lost t ∧ t.pkg.boot.fails = b.fails + 1 ∧
          t.pkg.boot.reason ∈ [1, 2, 3])) ∧
    (stageLate s = true → ∃ t, exec .bootStageTimeout s = .next t ∧ t.work = State.reset.work ∧ t.ms.mem = [] ∧
      t.pkg.boot.reason = 8 ∧ t.pkg.boot.fails = min (s.pkg.boot.fails + 1) 3 ∧
      t.pkg.boot.state = if 2 ≤ s.pkg.boot.fails then 2 else 0) ∧
    (s.pkg.boot.mbBusy = true → mbRequest s = none → s.pkg.boot.mbcmd = 3 → ∃ t, exec .mailboxComplete s = .next t ∧
      t.pkg.boot = { s.pkg.boot with nextActive := 1 - s.pkg.boot.slot % 2, mbBusy := false, mbResult := 0, mbData := [] } ∧
      t.pkg.msix = s.pkg.msix ++ [4] ∧ t.work = s.work ∧ t.ms = s.ms) ∧
    ∀ watts temp step, powerFits s watts temp step = true → ∃ t, exec (.powerControl watts temp step) s = .next t ∧
      t.clock.mhz = 900 + 75 * step ∧ t.clock.dtime = s.clock.dtime ∧ t.pkg.power.watts = watts ∧ t.pkg.power.temp = temp ∧
      t.work = s.work ∧ t.ms = s.ms

/-! ## The machine -/

/-- R198-R201, R212, R218, R373, R428, R429: the next selected unit of a booted machine, whose core has an issue slot for it and
whose operands can be read, fetches its packet from memory; the one instruction that its chain holds runs as `exec` says, and the
unit leaves the line. Unless the word is held, the chain takes an issue slot with its pipes, and the cycles of its results and of
the split's next word are noted; a NOP behind its packet's first slot takes none, and the unit stays in line (LOG 54). Without a unit in line the next of the machine's events runs, or the clock ticks. An event at the
agenda's head runs as `exec` says; without power nothing else happens (R489; LOG 2). -/
def Obligations.StepRunsDecoded : Prop :=
  (∀ (s : State) (u : UnitRef) (l : List UnitRef) (k : Nat) (c : Cx) (x : State) (f : Leaf) (pa : Nat) (i : Instr),
    s.pkg.boot.powered = true → s.agenda = [] → s.issuing = u :: l → k = unitKey u →
    let r : State := { s with issuing := s.issuing.filter (· != u) }
    unitRuns r u = true → unitFits r u = true → unitReady r u = true → unitGroups r u = [k] →
    cx? (.nop false) { r with sel := ⟨coreOf k, slotOf k, u.split⟩, pre := none } = some c →
    let va := c.g.info.code + 12 * c.sp.pc.packet
    va % 2 ^ 16 ≤ 2 ^ 16 - 12 → wildAddr (va + 11) = false →
    translate c.s c.k none c.g.info.ctx va .fetch false = (.ok f pa, x) → f.tgt = 0 →
    let y := touchPhys x pa 12 c.g.info.ctx
    physPoison y pa 12 = false → readChain (packetWords (physRead y pa 12)) c.sp.pc.slot = ([.ins i], none) →
    let now : State := { y.setGroup k c.g with pre := none }
    (∀ t, exec i now = .next t →
      let n := match t.last with
        | .issued => 1
        | .held => 0
        | _ => passed t k u.split c.sp.pc
      let ws := if n = 0 then [] else [i]
      let paced (g : Group) : Group := (g.paced u.split s.clock.cycle ws c.sp.pc).nextAt c.sp s.clock.cycle ws
      let v : State := if n = 0 then { t with pre := none } else State.onGroup { t with pre := none } k paced
      step s = .next (if t.last = .held then { v with slots := s.slots }
        else if freeWords ws c.sp.pc then { v with slots := s.slots, issuing := s.issuing }
        else { occupy 1 (memCycles r u) (v.group? k) u.core ws c.sp.pc v with slots := s.slots ++ [(u.core, unitPipes r u)] })) ∧
    ∀ e, exec i now = .fault e → step s = .fault e) ∧
  (∀ (s : State), s.agenda = [] → s.pkg.boot.powered = false → step s = .next s) ∧
  (∀ (s : State), s.agenda = [] → s.pkg.boot.powered = true → s.issuing = [] →
    (∀ i t, nextEvent s = some i → exec i s = .next t → step s = .next { t with slots := s.slots }) ∧
    (nextEvent s = none → step s = .next (tick s))) ∧
  ∀ (s : State) (i : Instr) (l : List Instr), s.agenda = i :: l →
    (∀ t, exec i { s with agenda := l } = .next t → step s = .next { t with slots := s.slots }) ∧
    ∀ e, exec i { s with agenda := l } = .fault e → step s = .fault e

/-- R198-R207: decoding an encoded instruction gives it back, and its length in words, whatever follows it; where it is one word
with its chain bit set and without a literal, an instruction word follows it. -/
def Obligations.EncodeDecode : Prop :=
  ∀ (i : Instr) (rest : List Nat), i.isEvent = false → i.wf = true →
    (∀ w, encode i = [w] → fld w 31 1 = 1 → ∃ x l, rest = x :: l ∧ isLitWord x = false) →
    decodeWords (encode i ++ rest) = .ok (i, (encode i).length)

/-- R200, R429: in a cycle no core issues more than two chains, and together they fit its two vector pipes and its one pipe of each
other kind: every step keeps it. -/
def Obligations.SlotsFitKept : Prop := ∀ (s t : State), s.slotsFit → step s = .next t → t.slotsFit

/-- R15, R41, R56, R65, R363, R416, R442, R462, R467, R475, R481, R482, R487: right after a package reset device time is zero, memory
reads zero without poison, nothing runs, no queue is enabled, the fields that have a reset value hold it, and stage 1 of the start
is under way. No register that the spec gives no reset value is named here. -/
def Obligations.ResetFacts : Prop :=
  State.reset.canonical = true ∧ State.reset.slotsFit ∧ State.reset.clock.dtime = 0 ∧
    (∀ sec b, b < 32 → Sector.byte (memSector State.reset.ms sec) b = 0) ∧ (∀ sec, granPoison State.reset.ms sec = false) ∧
    State.reset.work.groups = [] ∧ State.reset.work.teams = [] ∧ State.reset.work.grids = [] ∧
    (∀ q < 64, (hqOf State.reset q).en = false) ∧ State.reset.ms.faq.en = false ∧ State.reset.vm.vmfq.en = false ∧
    State.reset.vm.regs.migen = true ∧ State.reset.vm.regs.colden = true ∧ State.reset.vm.regs.migmin = 32 ∧
    State.reset.vm.regs.coldep = 64 ∧ State.reset.vm.regs.epoch = 10 ∧ State.reset.work.sched.starve = 65536 ∧
    State.reset.pkg.cns.thresh = 64 ∧ State.reset.pkg.cns.wmis = 16 ∧ State.reset.pkg.cns.wpar = 16 ∧
    State.reset.pkg.cns.wunc = 32 ∧ State.reset.pkg.cns.wcor = 1 ∧ State.reset.pkg.cns.decay = 24 ∧
    State.reset.pkg.cns.autotest = true ∧ State.reset.pkg.peers.en = false ∧ State.reset.pkg.power.cap = 2200 ∧
    State.reset.pkg.power.tlimit = 95 ∧ State.reset.pkg.boot.state = 0 ∧ State.reset.pkg.boot.stage = 1

/-- Words that the spec writes out, with the instructions that they encode: the worked cases of chapters 9 to 15, 17, 18 and 23. -/
def Obligations.WordsDecode : Prop :=
  ∀ x ∈ ([([0xA2010830], .fmul .chain .always (.v 1) (.v 2) (.v 3) .rn .f64),
      ([0x12091872], .icmp64 .stop .always ⟨4, true⟩ (.v 6) (.v 7) .ltI),
      ([0x2C090424], .fcmp .stop .always ⟨4, true⟩ (.v 1) (.v 2) .lt .f64),
      ([0x34260400], .fsqrt .stop 1 (.v 6) (.v 1) .rn .f64),
      ([0x46090C86], .scls .stop .always (.v 9) (.v 3) (.v 8) 2),
      ([0x50080024], .mmad false 0 8 0 2 .ru),
      ([0xFC000F3F, 0x7E000103], .pathb (.lit 0x103 false) .zero .lit),
      ([0xE06828C1, 0x7E030070], .ld (.p 2) 4 (.v 5) (.v 6) 1 false .b64),
      ([0xE2001020, 0x7E030070], .st .always (.v 2) (.v 1) 0 false .b64),
      ([0x6E0020C4], .waitm false .always 0 3 .eq .w64),
      ([0x6E000284], .fence false .st .st .dev), ([0x6E000184], .fence false .ld .st .dev),
      ([0xF0000FF1, 0x7E94C000], .copy (.lit 0x94C000 false) .always .lit (.s 5)),
      ([0x78300006], .loopW false .always 6), ([0xFA004F3F, 0x7E000003], .task (.lit 3 false) .lit),
      ([0x7A00C07C], .getsr false .always 0 1), ([0x78B00000], .nop false)] : List (List Nat × Instr)),
    decodeWords (x.1 ++ [0x78B00000]) = .ok (x.2, x.1.length)
end

