-- ==== Sys2Proof/Laws/State.lean ====
section
/-! SUPPORT. What each update of the state leaves in each field, so that no later proof unfolds a record update. -/

namespace Sys2Proof.Machine

@[simp] theorem State.onMs_clock (s : State) (f : MemSide → MemSide) : (s.onMs f).clock = s.clock := rfl
@[simp] theorem State.onMs_ms (s : State) (f : MemSide → MemSide) : (s.onMs f).ms = f s.ms := rfl
@[simp] theorem State.onMs_vm (s : State) (f : MemSide → MemSide) : (s.onMs f).vm = s.vm := rfl
@[simp] theorem State.onMs_work (s : State) (f : MemSide → MemSide) : (s.onMs f).work = s.work := rfl
@[simp] theorem State.onMs_eng (s : State) (f : MemSide → MemSide) : (s.onMs f).eng = s.eng := rfl
@[simp] theorem State.onMs_pkg (s : State) (f : MemSide → MemSide) : (s.onMs f).pkg = s.pkg := rfl
@[simp] theorem State.onMs_sel (s : State) (f : MemSide → MemSide) : (s.onMs f).sel = s.sel := rfl
@[simp] theorem State.onMs_pre (s : State) (f : MemSide → MemSide) : (s.onMs f).pre = s.pre := rfl
@[simp] theorem State.onMs_last (s : State) (f : MemSide → MemSide) : (s.onMs f).last = s.last := rfl
@[simp] theorem State.onMs_agenda (s : State) (f : MemSide → MemSide) : (s.onMs f).agenda = s.agenda := rfl
@[simp] theorem State.onMs_issuing (s : State) (f : MemSide → MemSide) : (s.onMs f).issuing = s.issuing := rfl
@[simp] theorem State.onMs_slots (s : State) (f : MemSide → MemSide) : (s.onMs f).slots = s.slots := rfl
@[simp] theorem State.onMs_freeCtr (s : State) (f : MemSide → MemSide) : (s.onMs f).freeCtr = s.freeCtr := rfl

@[simp] theorem State.onVm_clock (s : State) (f : VmSide → VmSide) : (s.onVm f).clock = s.clock := rfl
@[simp] theorem State.onVm_ms (s : State) (f : VmSide → VmSide) : (s.onVm f).ms = s.ms := rfl
@[simp] theorem State.onVm_vm (s : State) (f : VmSide → VmSide) : (s.onVm f).vm = f s.vm := rfl
@[simp] theorem State.onVm_work (s : State) (f : VmSide → VmSide) : (s.onVm f).work = s.work := rfl
@[simp] theorem State.onVm_eng (s : State) (f : VmSide → VmSide) : (s.onVm f).eng = s.eng := rfl
@[simp] theorem State.onVm_pkg (s : State) (f : VmSide → VmSide) : (s.onVm f).pkg = s.pkg := rfl
@[simp] theorem State.onVm_sel (s : State) (f : VmSide → VmSide) : (s.onVm f).sel = s.sel := rfl
@[simp] theorem State.onVm_pre (s : State) (f : VmSide → VmSide) : (s.onVm f).pre = s.pre := rfl
@[simp] theorem State.onVm_last (s : State) (f : VmSide → VmSide) : (s.onVm f).last = s.last := rfl
@[simp] theorem State.onVm_agenda (s : State) (f : VmSide → VmSide) : (s.onVm f).agenda = s.agenda := rfl
@[simp] theorem State.onVm_issuing (s : State) (f : VmSide → VmSide) : (s.onVm f).issuing = s.issuing := rfl
@[simp] theorem State.onVm_slots (s : State) (f : VmSide → VmSide) : (s.onVm f).slots = s.slots := rfl
@[simp] theorem State.onVm_freeCtr (s : State) (f : VmSide → VmSide) : (s.onVm f).freeCtr = s.freeCtr := rfl

@[simp] theorem State.onWork_clock (s : State) (f : Work → Work) : (s.onWork f).clock = s.clock := rfl
@[simp] theorem State.onWork_ms (s : State) (f : Work → Work) : (s.onWork f).ms = s.ms := rfl
@[simp] theorem State.onWork_vm (s : State) (f : Work → Work) : (s.onWork f).vm = s.vm := rfl
@[simp] theorem State.onWork_work (s : State) (f : Work → Work) : (s.onWork f).work = f s.work := rfl
@[simp] theorem State.onWork_eng (s : State) (f : Work → Work) : (s.onWork f).eng = s.eng := rfl
@[simp] theorem State.onWork_pkg (s : State) (f : Work → Work) : (s.onWork f).pkg = s.pkg := rfl
@[simp] theorem State.onWork_sel (s : State) (f : Work → Work) : (s.onWork f).sel = s.sel := rfl
@[simp] theorem State.onWork_pre (s : State) (f : Work → Work) : (s.onWork f).pre = s.pre := rfl
@[simp] theorem State.onWork_last (s : State) (f : Work → Work) : (s.onWork f).last = s.last := rfl
@[simp] theorem State.onWork_agenda (s : State) (f : Work → Work) : (s.onWork f).agenda = s.agenda := rfl
@[simp] theorem State.onWork_issuing (s : State) (f : Work → Work) : (s.onWork f).issuing = s.issuing := rfl
@[simp] theorem State.onWork_slots (s : State) (f : Work → Work) : (s.onWork f).slots = s.slots := rfl
@[simp] theorem State.onWork_freeCtr (s : State) (f : Work → Work) : (s.onWork f).freeCtr = s.freeCtr := rfl

@[simp] theorem State.onEng_clock (s : State) (f : Engines → Engines) : (s.onEng f).clock = s.clock := rfl
@[simp] theorem State.onEng_ms (s : State) (f : Engines → Engines) : (s.onEng f).ms = s.ms := rfl
@[simp] theorem State.onEng_vm (s : State) (f : Engines → Engines) : (s.onEng f).vm = s.vm := rfl
@[simp] theorem State.onEng_work (s : State) (f : Engines → Engines) : (s.onEng f).work = s.work := rfl
@[simp] theorem State.onEng_eng (s : State) (f : Engines → Engines) : (s.onEng f).eng = f s.eng := rfl
@[simp] theorem State.onEng_pkg (s : State) (f : Engines → Engines) : (s.onEng f).pkg = s.pkg := rfl
@[simp] theorem State.onEng_sel (s : State) (f : Engines → Engines) : (s.onEng f).sel = s.sel := rfl
@[simp] theorem State.onEng_pre (s : State) (f : Engines → Engines) : (s.onEng f).pre = s.pre := rfl
@[simp] theorem State.onEng_last (s : State) (f : Engines → Engines) : (s.onEng f).last = s.last := rfl
@[simp] theorem State.onEng_agenda (s : State) (f : Engines → Engines) : (s.onEng f).agenda = s.agenda := rfl
@[simp] theorem State.onEng_issuing (s : State) (f : Engines → Engines) : (s.onEng f).issuing = s.issuing := rfl
@[simp] theorem State.onEng_slots (s : State) (f : Engines → Engines) : (s.onEng f).slots = s.slots := rfl
@[simp] theorem State.onEng_freeCtr (s : State) (f : Engines → Engines) : (s.onEng f).freeCtr = s.freeCtr := rfl

@[simp] theorem State.onPkg_clock (s : State) (f : Package → Package) : (s.onPkg f).clock = s.clock := rfl
@[simp] theorem State.onPkg_ms (s : State) (f : Package → Package) : (s.onPkg f).ms = s.ms := rfl
@[simp] theorem State.onPkg_vm (s : State) (f : Package → Package) : (s.onPkg f).vm = s.vm := rfl
@[simp] theorem State.onPkg_work (s : State) (f : Package → Package) : (s.onPkg f).work = s.work := rfl
@[simp] theorem State.onPkg_eng (s : State) (f : Package → Package) : (s.onPkg f).eng = s.eng := rfl
@[simp] theorem State.onPkg_pkg (s : State) (f : Package → Package) : (s.onPkg f).pkg = f s.pkg := rfl
@[simp] theorem State.onPkg_sel (s : State) (f : Package → Package) : (s.onPkg f).sel = s.sel := rfl
@[simp] theorem State.onPkg_pre (s : State) (f : Package → Package) : (s.onPkg f).pre = s.pre := rfl
@[simp] theorem State.onPkg_last (s : State) (f : Package → Package) : (s.onPkg f).last = s.last := rfl
@[simp] theorem State.onPkg_agenda (s : State) (f : Package → Package) : (s.onPkg f).agenda = s.agenda := rfl
@[simp] theorem State.onPkg_issuing (s : State) (f : Package → Package) : (s.onPkg f).issuing = s.issuing := rfl
@[simp] theorem State.onPkg_slots (s : State) (f : Package → Package) : (s.onPkg f).slots = s.slots := rfl
@[simp] theorem State.onPkg_freeCtr (s : State) (f : Package → Package) : (s.onPkg f).freeCtr = s.freeCtr := rfl

@[simp] theorem State.setGroup_clock (s : State) (k : Nat) (g : Group) : (s.setGroup k g).clock = s.clock := rfl
@[simp] theorem State.setGroup_ms (s : State) (k : Nat) (g : Group) : (s.setGroup k g).ms = s.ms := rfl
@[simp] theorem State.setGroup_vm (s : State) (k : Nat) (g : Group) : (s.setGroup k g).vm = s.vm := rfl
@[simp] theorem State.setGroup_work (s : State) (k : Nat) (g : Group) : (s.setGroup k g).work = { s.work with groups := NMap.set s.work.groups k g } := rfl
@[simp] theorem State.setGroup_eng (s : State) (k : Nat) (g : Group) : (s.setGroup k g).eng = s.eng := rfl
@[simp] theorem State.setGroup_pkg (s : State) (k : Nat) (g : Group) : (s.setGroup k g).pkg = s.pkg := rfl
@[simp] theorem State.setGroup_sel (s : State) (k : Nat) (g : Group) : (s.setGroup k g).sel = s.sel := rfl
@[simp] theorem State.setGroup_pre (s : State) (k : Nat) (g : Group) : (s.setGroup k g).pre = s.pre := rfl
@[simp] theorem State.setGroup_last (s : State) (k : Nat) (g : Group) : (s.setGroup k g).last = s.last := rfl
@[simp] theorem State.setGroup_agenda (s : State) (k : Nat) (g : Group) : (s.setGroup k g).agenda = s.agenda := rfl
@[simp] theorem State.setGroup_issuing (s : State) (k : Nat) (g : Group) : (s.setGroup k g).issuing = s.issuing := rfl
@[simp] theorem State.setGroup_slots (s : State) (k : Nat) (g : Group) : (s.setGroup k g).slots = s.slots := rfl
@[simp] theorem State.setGroup_freeCtr (s : State) (k : Nat) (g : Group) : (s.setGroup k g).freeCtr = s.freeCtr := rfl

@[simp] theorem State.dropGroup_clock (s : State) (k : Nat) : (s.dropGroup k).clock = s.clock := rfl
@[simp] theorem State.dropGroup_ms (s : State) (k : Nat) : (s.dropGroup k).ms = s.ms := rfl
@[simp] theorem State.dropGroup_vm (s : State) (k : Nat) : (s.dropGroup k).vm = s.vm := rfl
@[simp] theorem State.dropGroup_work (s : State) (k : Nat) : (s.dropGroup k).work = { s.work with groups := NMap.erase s.work.groups k } := rfl
@[simp] theorem State.dropGroup_eng (s : State) (k : Nat) : (s.dropGroup k).eng = s.eng := rfl
@[simp] theorem State.dropGroup_pkg (s : State) (k : Nat) : (s.dropGroup k).pkg = s.pkg := rfl
@[simp] theorem State.dropGroup_sel (s : State) (k : Nat) : (s.dropGroup k).sel = s.sel := rfl
@[simp] theorem State.dropGroup_pre (s : State) (k : Nat) : (s.dropGroup k).pre = s.pre := rfl
@[simp] theorem State.dropGroup_last (s : State) (k : Nat) : (s.dropGroup k).last = s.last := rfl
@[simp] theorem State.dropGroup_agenda (s : State) (k : Nat) : (s.dropGroup k).agenda = s.agenda := rfl
@[simp] theorem State.dropGroup_issuing (s : State) (k : Nat) : (s.dropGroup k).issuing = s.issuing := rfl
@[simp] theorem State.dropGroup_slots (s : State) (k : Nat) : (s.dropGroup k).slots = s.slots := rfl
@[simp] theorem State.dropGroup_freeCtr (s : State) (k : Nat) : (s.dropGroup k).freeCtr = s.freeCtr := rfl

@[simp] theorem State.setTeam_clock (s : State) (k : Nat) (t : Team) : (s.setTeam k t).clock = s.clock := rfl
@[simp] theorem State.setTeam_ms (s : State) (k : Nat) (t : Team) : (s.setTeam k t).ms = s.ms := rfl
@[simp] theorem State.setTeam_vm (s : State) (k : Nat) (t : Team) : (s.setTeam k t).vm = s.vm := rfl
@[simp] theorem State.setTeam_work (s : State) (k : Nat) (t : Team) : (s.setTeam k t).work = { s.work with teams := NMap.set s.work.teams k t } := rfl
@[simp] theorem State.setTeam_eng (s : State) (k : Nat) (t : Team) : (s.setTeam k t).eng = s.eng := rfl
@[simp] theorem State.setTeam_pkg (s : State) (k : Nat) (t : Team) : (s.setTeam k t).pkg = s.pkg := rfl
@[simp] theorem State.setTeam_sel (s : State) (k : Nat) (t : Team) : (s.setTeam k t).sel = s.sel := rfl
@[simp] theorem State.setTeam_pre (s : State) (k : Nat) (t : Team) : (s.setTeam k t).pre = s.pre := rfl
@[simp] theorem State.setTeam_last (s : State) (k : Nat) (t : Team) : (s.setTeam k t).last = s.last := rfl
@[simp] theorem State.setTeam_agenda (s : State) (k : Nat) (t : Team) : (s.setTeam k t).agenda = s.agenda := rfl
@[simp] theorem State.setTeam_issuing (s : State) (k : Nat) (t : Team) : (s.setTeam k t).issuing = s.issuing := rfl
@[simp] theorem State.setTeam_slots (s : State) (k : Nat) (t : Team) : (s.setTeam k t).slots = s.slots := rfl
@[simp] theorem State.setTeam_freeCtr (s : State) (k : Nat) (t : Team) : (s.setTeam k t).freeCtr = s.freeCtr := rfl

@[simp] theorem State.onGrid_clock (s : State) (k : Nat) (f : Grid → Grid) : (s.onGrid k f).clock = s.clock := rfl
@[simp] theorem State.onGrid_ms (s : State) (k : Nat) (f : Grid → Grid) : (s.onGrid k f).ms = s.ms := rfl
@[simp] theorem State.onGrid_vm (s : State) (k : Nat) (f : Grid → Grid) : (s.onGrid k f).vm = s.vm := rfl
@[simp] theorem State.onGrid_work (s : State) (k : Nat) (f : Grid → Grid) : (s.onGrid k f).work = { s.work with grids := NMap.adjust s.work.grids k f } := rfl
@[simp] theorem State.onGrid_eng (s : State) (k : Nat) (f : Grid → Grid) : (s.onGrid k f).eng = s.eng := rfl
@[simp] theorem State.onGrid_pkg (s : State) (k : Nat) (f : Grid → Grid) : (s.onGrid k f).pkg = s.pkg := rfl
@[simp] theorem State.onGrid_sel (s : State) (k : Nat) (f : Grid → Grid) : (s.onGrid k f).sel = s.sel := rfl
@[simp] theorem State.onGrid_pre (s : State) (k : Nat) (f : Grid → Grid) : (s.onGrid k f).pre = s.pre := rfl
@[simp] theorem State.onGrid_last (s : State) (k : Nat) (f : Grid → Grid) : (s.onGrid k f).last = s.last := rfl
@[simp] theorem State.onGrid_agenda (s : State) (k : Nat) (f : Grid → Grid) : (s.onGrid k f).agenda = s.agenda := rfl
@[simp] theorem State.onGrid_issuing (s : State) (k : Nat) (f : Grid → Grid) : (s.onGrid k f).issuing = s.issuing := rfl
@[simp] theorem State.onGrid_slots (s : State) (k : Nat) (f : Grid → Grid) : (s.onGrid k f).slots = s.slots := rfl
@[simp] theorem State.onGrid_freeCtr (s : State) (k : Nat) (f : Grid → Grid) : (s.onGrid k f).freeCtr = s.freeCtr := rfl

@[simp] theorem State.setQueues_clock (s : State) (k : Nat) (q : CoreQueues) : (s.setQueues k q).clock = s.clock := rfl
@[simp] theorem State.setQueues_ms (s : State) (k : Nat) (q : CoreQueues) : (s.setQueues k q).ms = s.ms := rfl
@[simp] theorem State.setQueues_vm (s : State) (k : Nat) (q : CoreQueues) : (s.setQueues k q).vm = s.vm := rfl
@[simp] theorem State.setQueues_work (s : State) (k : Nat) (q : CoreQueues) : (s.setQueues k q).work = s.work := rfl
@[simp] theorem State.setQueues_eng (s : State) (k : Nat) (q : CoreQueues) : (s.setQueues k q).eng = { s.eng with queues := NMap.set s.eng.queues k q } := rfl
@[simp] theorem State.setQueues_pkg (s : State) (k : Nat) (q : CoreQueues) : (s.setQueues k q).pkg = s.pkg := rfl
@[simp] theorem State.setQueues_sel (s : State) (k : Nat) (q : CoreQueues) : (s.setQueues k q).sel = s.sel := rfl
@[simp] theorem State.setQueues_pre (s : State) (k : Nat) (q : CoreQueues) : (s.setQueues k q).pre = s.pre := rfl
@[simp] theorem State.setQueues_last (s : State) (k : Nat) (q : CoreQueues) : (s.setQueues k q).last = s.last := rfl
@[simp] theorem State.setQueues_agenda (s : State) (k : Nat) (q : CoreQueues) : (s.setQueues k q).agenda = s.agenda := rfl
@[simp] theorem State.setQueues_issuing (s : State) (k : Nat) (q : CoreQueues) : (s.setQueues k q).issuing = s.issuing := rfl
@[simp] theorem State.setQueues_slots (s : State) (k : Nat) (q : CoreQueues) : (s.setQueues k q).slots = s.slots := rfl
@[simp] theorem State.setQueues_freeCtr (s : State) (k : Nat) (q : CoreQueues) : (s.setQueues k q).freeCtr = s.freeCtr := rfl

@[simp] theorem State.setChan_clock (s : State) (k : Nat) (c : Channel) : (s.setChan k c).clock = s.clock := rfl
@[simp] theorem State.setChan_ms (s : State) (k : Nat) (c : Channel) : (s.setChan k c).ms = { s.ms with chans := NMap.set s.ms.chans k c } := rfl
@[simp] theorem State.setChan_vm (s : State) (k : Nat) (c : Channel) : (s.setChan k c).vm = s.vm := rfl
@[simp] theorem State.setChan_work (s : State) (k : Nat) (c : Channel) : (s.setChan k c).work = s.work := rfl
@[simp] theorem State.setChan_eng (s : State) (k : Nat) (c : Channel) : (s.setChan k c).eng = s.eng := rfl
@[simp] theorem State.setChan_pkg (s : State) (k : Nat) (c : Channel) : (s.setChan k c).pkg = s.pkg := rfl
@[simp] theorem State.setChan_sel (s : State) (k : Nat) (c : Channel) : (s.setChan k c).sel = s.sel := rfl
@[simp] theorem State.setChan_pre (s : State) (k : Nat) (c : Channel) : (s.setChan k c).pre = s.pre := rfl
@[simp] theorem State.setChan_last (s : State) (k : Nat) (c : Channel) : (s.setChan k c).last = s.last := rfl
@[simp] theorem State.setChan_agenda (s : State) (k : Nat) (c : Channel) : (s.setChan k c).agenda = s.agenda := rfl
@[simp] theorem State.setChan_issuing (s : State) (k : Nat) (c : Channel) : (s.setChan k c).issuing = s.issuing := rfl
@[simp] theorem State.setChan_slots (s : State) (k : Nat) (c : Channel) : (s.setChan k c).slots = s.slots := rfl
@[simp] theorem State.setChan_freeCtr (s : State) (k : Nat) (c : Channel) : (s.setChan k c).freeCtr = s.freeCtr := rfl

@[simp] theorem State.addRelease_clock (s : State) (r : Release) : (s.addRelease r).clock = s.clock := rfl
@[simp] theorem State.addRelease_ms (s : State) (r : Release) : (s.addRelease r).ms = s.ms := rfl
@[simp] theorem State.addRelease_vm (s : State) (r : Release) : (s.addRelease r).vm = s.vm := rfl
@[simp] theorem State.addRelease_work (s : State) (r : Release) : (s.addRelease r).work = { s.work with releases := s.work.releases ++ [r] } := rfl
@[simp] theorem State.addRelease_eng (s : State) (r : Release) : (s.addRelease r).eng = s.eng := rfl
@[simp] theorem State.addRelease_pkg (s : State) (r : Release) : (s.addRelease r).pkg = s.pkg := rfl
@[simp] theorem State.addRelease_sel (s : State) (r : Release) : (s.addRelease r).sel = s.sel := rfl
@[simp] theorem State.addRelease_pre (s : State) (r : Release) : (s.addRelease r).pre = s.pre := rfl
@[simp] theorem State.addRelease_last (s : State) (r : Release) : (s.addRelease r).last = s.last := rfl
@[simp] theorem State.addRelease_agenda (s : State) (r : Release) : (s.addRelease r).agenda = s.agenda := rfl
@[simp] theorem State.addRelease_issuing (s : State) (r : Release) : (s.addRelease r).issuing = s.issuing := rfl
@[simp] theorem State.addRelease_slots (s : State) (r : Release) : (s.addRelease r).slots = s.slots := rfl
@[simp] theorem State.addRelease_freeCtr (s : State) (r : Release) : (s.addRelease r).freeCtr = s.freeCtr := rfl

@[simp] theorem State.raiseVector_clock (s : State) (v : Nat) : (s.raiseVector v).clock = s.clock := rfl
@[simp] theorem State.raiseVector_ms (s : State) (v : Nat) : (s.raiseVector v).ms = s.ms := rfl
@[simp] theorem State.raiseVector_vm (s : State) (v : Nat) : (s.raiseVector v).vm = s.vm := rfl
@[simp] theorem State.raiseVector_work (s : State) (v : Nat) : (s.raiseVector v).work = s.work := rfl
@[simp] theorem State.raiseVector_eng (s : State) (v : Nat) : (s.raiseVector v).eng = s.eng := rfl
@[simp] theorem State.raiseVector_pkg (s : State) (v : Nat) : (s.raiseVector v).pkg = { s.pkg with msix := s.pkg.msix ++ [v] } := rfl
@[simp] theorem State.raiseVector_sel (s : State) (v : Nat) : (s.raiseVector v).sel = s.sel := rfl
@[simp] theorem State.raiseVector_pre (s : State) (v : Nat) : (s.raiseVector v).pre = s.pre := rfl
@[simp] theorem State.raiseVector_last (s : State) (v : Nat) : (s.raiseVector v).last = s.last := rfl
@[simp] theorem State.raiseVector_agenda (s : State) (v : Nat) : (s.raiseVector v).agenda = s.agenda := rfl
@[simp] theorem State.raiseVector_issuing (s : State) (v : Nat) : (s.raiseVector v).issuing = s.issuing := rfl
@[simp] theorem State.raiseVector_slots (s : State) (v : Nat) : (s.raiseVector v).slots = s.slots := rfl
@[simp] theorem State.raiseVector_freeCtr (s : State) (v : Nat) : (s.raiseVector v).freeCtr = s.freeCtr := rfl

@[simp] theorem State.draw_clock (s : State) : s.draw.2.clock = s.clock := rfl
@[simp] theorem State.draw_ms (s : State) : s.draw.2.ms = s.ms := rfl
@[simp] theorem State.draw_vm (s : State) : s.draw.2.vm = s.vm := rfl
@[simp] theorem State.draw_work (s : State) : s.draw.2.work = s.work := rfl
@[simp] theorem State.draw_eng (s : State) : s.draw.2.eng = s.eng := rfl
@[simp] theorem State.draw_pkg (s : State) : s.draw.2.pkg = s.pkg := rfl
@[simp] theorem State.draw_sel (s : State) : s.draw.2.sel = s.sel := rfl
@[simp] theorem State.draw_pre (s : State) : s.draw.2.pre = s.pre := rfl
@[simp] theorem State.draw_last (s : State) : s.draw.2.last = s.last := rfl
@[simp] theorem State.draw_agenda (s : State) : s.draw.2.agenda = s.agenda := rfl
@[simp] theorem State.draw_issuing (s : State) : s.draw.2.issuing = s.issuing := rfl
@[simp] theorem State.draw_slots (s : State) : s.draw.2.slots = s.slots := rfl
@[simp] theorem State.draw_freeCtr (s : State) : s.draw.2.freeCtr = s.freeCtr + 1 := rfl
@[simp] theorem State.draw_fst (s : State) : s.draw.1 = s.freeCtr := rfl

@[simp] theorem State.onGroup_clock (s : State) (k : Nat) (f : Group → Group) : (s.onGroup k f).clock = s.clock := by unfold State.onGroup; split <;> rfl
@[simp] theorem State.onGroup_ms (s : State) (k : Nat) (f : Group → Group) : (s.onGroup k f).ms = s.ms := by unfold State.onGroup; split <;> rfl
@[simp] theorem State.onGroup_vm (s : State) (k : Nat) (f : Group → Group) : (s.onGroup k f).vm = s.vm := by unfold State.onGroup; split <;> rfl
@[simp] theorem State.onGroup_eng (s : State) (k : Nat) (f : Group → Group) : (s.onGroup k f).eng = s.eng := by unfold State.onGroup; split <;> rfl
@[simp] theorem State.onGroup_pkg (s : State) (k : Nat) (f : Group → Group) : (s.onGroup k f).pkg = s.pkg := by unfold State.onGroup; split <;> rfl
@[simp] theorem State.onGroup_sel (s : State) (k : Nat) (f : Group → Group) : (s.onGroup k f).sel = s.sel := by unfold State.onGroup; split <;> rfl
@[simp] theorem State.onGroup_pre (s : State) (k : Nat) (f : Group → Group) : (s.onGroup k f).pre = s.pre := by unfold State.onGroup; split <;> rfl
@[simp] theorem State.onGroup_last (s : State) (k : Nat) (f : Group → Group) : (s.onGroup k f).last = s.last := by unfold State.onGroup; split <;> rfl
@[simp] theorem State.onGroup_agenda (s : State) (k : Nat) (f : Group → Group) : (s.onGroup k f).agenda = s.agenda := by unfold State.onGroup; split <;> rfl
@[simp] theorem State.onGroup_issuing (s : State) (k : Nat) (f : Group → Group) : (s.onGroup k f).issuing = s.issuing := by unfold State.onGroup; split <;> rfl
@[simp] theorem State.onGroup_slots (s : State) (k : Nat) (f : Group → Group) : (s.onGroup k f).slots = s.slots := by unfold State.onGroup; split <;> rfl
@[simp] theorem State.onGroup_freeCtr (s : State) (k : Nat) (f : Group → Group) : (s.onGroup k f).freeCtr = s.freeCtr := by unfold State.onGroup; split <;> rfl

@[simp] theorem State.onTeam_clock (s : State) (k : Nat) (f : Team → Team) : (s.onTeam k f).clock = s.clock := by unfold State.onTeam; split <;> rfl
@[simp] theorem State.onTeam_ms (s : State) (k : Nat) (f : Team → Team) : (s.onTeam k f).ms = s.ms := by unfold State.onTeam; split <;> rfl
@[simp] theorem State.onTeam_vm (s : State) (k : Nat) (f : Team → Team) : (s.onTeam k f).vm = s.vm := by unfold State.onTeam; split <;> rfl
@[simp] theorem State.onTeam_eng (s : State) (k : Nat) (f : Team → Team) : (s.onTeam k f).eng = s.eng := by unfold State.onTeam; split <;> rfl
@[simp] theorem State.onTeam_pkg (s : State) (k : Nat) (f : Team → Team) : (s.onTeam k f).pkg = s.pkg := by unfold State.onTeam; split <;> rfl
@[simp] theorem State.onTeam_sel (s : State) (k : Nat) (f : Team → Team) : (s.onTeam k f).sel = s.sel := by unfold State.onTeam; split <;> rfl
@[simp] theorem State.onTeam_pre (s : State) (k : Nat) (f : Team → Team) : (s.onTeam k f).pre = s.pre := by unfold State.onTeam; split <;> rfl
@[simp] theorem State.onTeam_last (s : State) (k : Nat) (f : Team → Team) : (s.onTeam k f).last = s.last := by unfold State.onTeam; split <;> rfl
@[simp] theorem State.onTeam_agenda (s : State) (k : Nat) (f : Team → Team) : (s.onTeam k f).agenda = s.agenda := by unfold State.onTeam; split <;> rfl
@[simp] theorem State.onTeam_issuing (s : State) (k : Nat) (f : Team → Team) : (s.onTeam k f).issuing = s.issuing := by unfold State.onTeam; split <;> rfl
@[simp] theorem State.onTeam_slots (s : State) (k : Nat) (f : Team → Team) : (s.onTeam k f).slots = s.slots := by unfold State.onTeam; split <;> rfl
@[simp] theorem State.onTeam_freeCtr (s : State) (k : Nat) (f : Team → Team) : (s.onTeam k f).freeCtr = s.freeCtr := by unfold State.onTeam; split <;> rfl

@[simp] theorem Group.onRegs_info (g : Group) (f : Regs → Regs) : (g.onRegs f).info = g.info := rfl
@[simp] theorem Group.onRegs_regs (g : Group) (f : Regs → Regs) : (g.onRegs f).regs = f g.regs := rfl
@[simp] theorem Group.onRegs_sys (g : Group) (f : Regs → Regs) : (g.onRegs f).sys = g.sys := rfl
@[simp] theorem Group.onRegs_off (g : Group) (f : Regs → Regs) : (g.onRegs f).off = g.off := rfl
@[simp] theorem Group.onRegs_gone (g : Group) (f : Regs → Regs) : (g.onRegs f).gone = g.gone := rfl
@[simp] theorem Group.onRegs_splits (g : Group) (f : Regs → Regs) : (g.onRegs f).splits = g.splits := rfl
@[simp] theorem Group.onRegs_nextDiv (g : Group) (f : Regs → Regs) : (g.onRegs f).nextDiv = g.nextDiv := rfl
@[simp] theorem Group.onRegs_pend (g : Group) (f : Regs → Regs) : (g.onRegs f).pend = g.pend := rfl
@[simp] theorem Group.onRegs_trap (g : Group) (f : Regs → Regs) : (g.onRegs f).trap = g.trap := rfl
@[simp] theorem Group.onRegs_path (g : Group) (f : Regs → Regs) : (g.onRegs f).path = g.path := rfl
@[simp] theorem Group.onRegs_batches (g : Group) (f : Regs → Regs) : (g.onRegs f).batches = g.batches := rfl
@[simp] theorem Group.onRegs_targets (g : Group) (f : Regs → Regs) : (g.onRegs f).targets = g.targets := rfl
@[simp] theorem Group.onRegs_region (g : Group) (f : Regs → Regs) : (g.onRegs f).region = g.region := rfl
@[simp] theorem Group.onRegs_out (g : Group) (f : Regs → Regs) : (g.onRegs f).out = g.out := rfl
@[simp] theorem Group.onRegs_mmaj (g : Group) (f : Regs → Regs) : (g.onRegs f).mmaj = g.mmaj := rfl
@[simp] theorem Group.onRegs_signalled (g : Group) (f : Regs → Regs) : (g.onRegs f).signalled = g.signalled := rfl
@[simp] theorem Group.onRegs_lastDelivery (g : Group) (f : Regs → Regs) : (g.onRegs f).lastDelivery = g.lastDelivery := rfl
@[simp] theorem Group.onRegs_emu (g : Group) (f : Regs → Regs) : (g.onRegs f).emu = g.emu := rfl
@[simp] theorem Group.onRegs_proxyOf (g : Group) (f : Regs → Regs) : (g.onRegs f).proxyOf = g.proxyOf := rfl
@[simp] theorem Group.onRegs_proxied (g : Group) (f : Regs → Regs) : (g.onRegs f).proxied = g.proxied := rfl
@[simp] theorem Group.onRegs_halted (g : Group) (f : Regs → Regs) : (g.onRegs f).halted = g.halted := rfl
@[simp] theorem Group.onRegs_traceOn (g : Group) (f : Regs → Regs) : (g.onRegs f).traceOn = g.traceOn := rfl
@[simp] theorem Group.onRegs_lastSync (g : Group) (f : Regs → Regs) : (g.onRegs f).lastSync = g.lastSync := rfl
@[simp] theorem Group.onRegs_lostTrace (g : Group) (f : Regs → Regs) : (g.onRegs f).lostTrace = g.lostTrace := rfl
@[simp] theorem Group.onRegs_reopen (g : Group) (f : Regs → Regs) : (g.onRegs f).reopen = g.reopen := rfl
@[simp] theorem Group.onRegs_repeated (g : Group) (f : Regs → Regs) : (g.onRegs f).repeated = g.repeated := rfl

@[simp] theorem Group.onSys_info (g : Group) (f : SysRegs → SysRegs) : (g.onSys f).info = g.info := rfl
@[simp] theorem Group.onSys_regs (g : Group) (f : SysRegs → SysRegs) : (g.onSys f).regs = g.regs := rfl
@[simp] theorem Group.onSys_sys (g : Group) (f : SysRegs → SysRegs) : (g.onSys f).sys = f g.sys := rfl
@[simp] theorem Group.onSys_off (g : Group) (f : SysRegs → SysRegs) : (g.onSys f).off = g.off := rfl
@[simp] theorem Group.onSys_gone (g : Group) (f : SysRegs → SysRegs) : (g.onSys f).gone = g.gone := rfl
@[simp] theorem Group.onSys_splits (g : Group) (f : SysRegs → SysRegs) : (g.onSys f).splits = g.splits := rfl
@[simp] theorem Group.onSys_nextDiv (g : Group) (f : SysRegs → SysRegs) : (g.onSys f).nextDiv = g.nextDiv := rfl
@[simp] theorem Group.onSys_pend (g : Group) (f : SysRegs → SysRegs) : (g.onSys f).pend = g.pend := rfl
@[simp] theorem Group.onSys_trap (g : Group) (f : SysRegs → SysRegs) : (g.onSys f).trap = g.trap := rfl
@[simp] theorem Group.onSys_path (g : Group) (f : SysRegs → SysRegs) : (g.onSys f).path = g.path := rfl
@[simp] theorem Group.onSys_batches (g : Group) (f : SysRegs → SysRegs) : (g.onSys f).batches = g.batches := rfl
@[simp] theorem Group.onSys_targets (g : Group) (f : SysRegs → SysRegs) : (g.onSys f).targets = g.targets := rfl
@[simp] theorem Group.onSys_region (g : Group) (f : SysRegs → SysRegs) : (g.onSys f).region = g.region := rfl
@[simp] theorem Group.onSys_out (g : Group) (f : SysRegs → SysRegs) : (g.onSys f).out = g.out := rfl
@[simp] theorem Group.onSys_mmaj (g : Group) (f : SysRegs → SysRegs) : (g.onSys f).mmaj = g.mmaj := rfl
@[simp] theorem Group.onSys_signalled (g : Group) (f : SysRegs → SysRegs) : (g.onSys f).signalled = g.signalled := rfl
@[simp] theorem Group.onSys_lastDelivery (g : Group) (f : SysRegs → SysRegs) : (g.onSys f).lastDelivery = g.lastDelivery := rfl
@[simp] theorem Group.onSys_emu (g : Group) (f : SysRegs → SysRegs) : (g.onSys f).emu = g.emu := rfl
@[simp] theorem Group.onSys_proxyOf (g : Group) (f : SysRegs → SysRegs) : (g.onSys f).proxyOf = g.proxyOf := rfl
@[simp] theorem Group.onSys_proxied (g : Group) (f : SysRegs → SysRegs) : (g.onSys f).proxied = g.proxied := rfl
@[simp] theorem Group.onSys_halted (g : Group) (f : SysRegs → SysRegs) : (g.onSys f).halted = g.halted := rfl
@[simp] theorem Group.onSys_traceOn (g : Group) (f : SysRegs → SysRegs) : (g.onSys f).traceOn = g.traceOn := rfl
@[simp] theorem Group.onSys_lastSync (g : Group) (f : SysRegs → SysRegs) : (g.onSys f).lastSync = g.lastSync := rfl
@[simp] theorem Group.onSys_lostTrace (g : Group) (f : SysRegs → SysRegs) : (g.onSys f).lostTrace = g.lostTrace := rfl
@[simp] theorem Group.onSys_reopen (g : Group) (f : SysRegs → SysRegs) : (g.onSys f).reopen = g.reopen := rfl
@[simp] theorem Group.onSys_repeated (g : Group) (f : SysRegs → SysRegs) : (g.onSys f).repeated = g.repeated := rfl

@[simp] theorem Group.setReg_info (g : Group) (n : Nat) (m : Mask) (x : LaneReg) : (g.setReg n m x).info = g.info := rfl
@[simp] theorem Group.setReg_regs (g : Group) (n : Nat) (m : Mask) (x : LaneReg) : (g.setReg n m x).regs = { g.regs with v := g.regs.v.setIfInBounds n (LaneReg.merge m x (g.reg n)) } := rfl
@[simp] theorem Group.setReg_sys (g : Group) (n : Nat) (m : Mask) (x : LaneReg) : (g.setReg n m x).sys = g.sys := rfl
@[simp] theorem Group.setReg_off (g : Group) (n : Nat) (m : Mask) (x : LaneReg) : (g.setReg n m x).off = g.off := rfl
@[simp] theorem Group.setReg_gone (g : Group) (n : Nat) (m : Mask) (x : LaneReg) : (g.setReg n m x).gone = g.gone := rfl
@[simp] theorem Group.setReg_splits (g : Group) (n : Nat) (m : Mask) (x : LaneReg) : (g.setReg n m x).splits = g.splits := rfl
@[simp] theorem Group.setReg_nextDiv (g : Group) (n : Nat) (m : Mask) (x : LaneReg) : (g.setReg n m x).nextDiv = g.nextDiv := rfl
@[simp] theorem Group.setReg_pend (g : Group) (n : Nat) (m : Mask) (x : LaneReg) : (g.setReg n m x).pend = g.pend := rfl
@[simp] theorem Group.setReg_trap (g : Group) (n : Nat) (m : Mask) (x : LaneReg) : (g.setReg n m x).trap = g.trap := rfl
@[simp] theorem Group.setReg_path (g : Group) (n : Nat) (m : Mask) (x : LaneReg) : (g.setReg n m x).path = g.path := rfl
@[simp] theorem Group.setReg_batches (g : Group) (n : Nat) (m : Mask) (x : LaneReg) : (g.setReg n m x).batches = g.batches := rfl
@[simp] theorem Group.setReg_targets (g : Group) (n : Nat) (m : Mask) (x : LaneReg) : (g.setReg n m x).targets = g.targets := rfl
@[simp] theorem Group.setReg_region (g : Group) (n : Nat) (m : Mask) (x : LaneReg) : (g.setReg n m x).region = g.region := rfl
@[simp] theorem Group.setReg_out (g : Group) (n : Nat) (m : Mask) (x : LaneReg) : (g.setReg n m x).out = g.out := rfl
@[simp] theorem Group.setReg_mmaj (g : Group) (n : Nat) (m : Mask) (x : LaneReg) : (g.setReg n m x).mmaj = g.mmaj := rfl
@[simp] theorem Group.setReg_signalled (g : Group) (n : Nat) (m : Mask) (x : LaneReg) : (g.setReg n m x).signalled = g.signalled := rfl
@[simp] theorem Group.setReg_lastDelivery (g : Group) (n : Nat) (m : Mask) (x : LaneReg) : (g.setReg n m x).lastDelivery = g.lastDelivery := rfl
@[simp] theorem Group.setReg_emu (g : Group) (n : Nat) (m : Mask) (x : LaneReg) : (g.setReg n m x).emu = g.emu := rfl
@[simp] theorem Group.setReg_proxyOf (g : Group) (n : Nat) (m : Mask) (x : LaneReg) : (g.setReg n m x).proxyOf = g.proxyOf := rfl
@[simp] theorem Group.setReg_proxied (g : Group) (n : Nat) (m : Mask) (x : LaneReg) : (g.setReg n m x).proxied = g.proxied := rfl
@[simp] theorem Group.setReg_halted (g : Group) (n : Nat) (m : Mask) (x : LaneReg) : (g.setReg n m x).halted = g.halted := rfl
@[simp] theorem Group.setReg_traceOn (g : Group) (n : Nat) (m : Mask) (x : LaneReg) : (g.setReg n m x).traceOn = g.traceOn := rfl
@[simp] theorem Group.setReg_lastSync (g : Group) (n : Nat) (m : Mask) (x : LaneReg) : (g.setReg n m x).lastSync = g.lastSync := rfl
@[simp] theorem Group.setReg_lostTrace (g : Group) (n : Nat) (m : Mask) (x : LaneReg) : (g.setReg n m x).lostTrace = g.lostTrace := rfl
@[simp] theorem Group.setReg_reopen (g : Group) (n : Nat) (m : Mask) (x : LaneReg) : (g.setReg n m x).reopen = g.reopen := rfl
@[simp] theorem Group.setReg_repeated (g : Group) (n : Nat) (m : Mask) (x : LaneReg) : (g.setReg n m x).repeated = g.repeated := rfl

@[simp] theorem Group.setScalar_info (g : Group) (n : Nat) (x : W64) : (g.setScalar n x).info = g.info := rfl
@[simp] theorem Group.setScalar_regs (g : Group) (n : Nat) (x : W64) : (g.setScalar n x).regs = { g.regs with sreg := g.regs.sreg.setIfInBounds n x } := rfl
@[simp] theorem Group.setScalar_sys (g : Group) (n : Nat) (x : W64) : (g.setScalar n x).sys = g.sys := rfl
@[simp] theorem Group.setScalar_off (g : Group) (n : Nat) (x : W64) : (g.setScalar n x).off = g.off := rfl
@[simp] theorem Group.setScalar_gone (g : Group) (n : Nat) (x : W64) : (g.setScalar n x).gone = g.gone := rfl
@[simp] theorem Group.setScalar_splits (g : Group) (n : Nat) (x : W64) : (g.setScalar n x).splits = g.splits := rfl
@[simp] theorem Group.setScalar_nextDiv (g : Group) (n : Nat) (x : W64) : (g.setScalar n x).nextDiv = g.nextDiv := rfl
@[simp] theorem Group.setScalar_pend (g : Group) (n : Nat) (x : W64) : (g.setScalar n x).pend = g.pend := rfl
@[simp] theorem Group.setScalar_trap (g : Group) (n : Nat) (x : W64) : (g.setScalar n x).trap = g.trap := rfl
@[simp] theorem Group.setScalar_path (g : Group) (n : Nat) (x : W64) : (g.setScalar n x).path = g.path := rfl
@[simp] theorem Group.setScalar_batches (g : Group) (n : Nat) (x : W64) : (g.setScalar n x).batches = g.batches := rfl
@[simp] theorem Group.setScalar_targets (g : Group) (n : Nat) (x : W64) : (g.setScalar n x).targets = g.targets := rfl
@[simp] theorem Group.setScalar_region (g : Group) (n : Nat) (x : W64) : (g.setScalar n x).region = g.region := rfl
@[simp] theorem Group.setScalar_out (g : Group) (n : Nat) (x : W64) : (g.setScalar n x).out = g.out := rfl
@[simp] theorem Group.setScalar_mmaj (g : Group) (n : Nat) (x : W64) : (g.setScalar n x).mmaj = g.mmaj := rfl
@[simp] theorem Group.setScalar_signalled (g : Group) (n : Nat) (x : W64) : (g.setScalar n x).signalled = g.signalled := rfl
@[simp] theorem Group.setScalar_lastDelivery (g : Group) (n : Nat) (x : W64) : (g.setScalar n x).lastDelivery = g.lastDelivery := rfl
@[simp] theorem Group.setScalar_emu (g : Group) (n : Nat) (x : W64) : (g.setScalar n x).emu = g.emu := rfl
@[simp] theorem Group.setScalar_proxyOf (g : Group) (n : Nat) (x : W64) : (g.setScalar n x).proxyOf = g.proxyOf := rfl
@[simp] theorem Group.setScalar_proxied (g : Group) (n : Nat) (x : W64) : (g.setScalar n x).proxied = g.proxied := rfl
@[simp] theorem Group.setScalar_halted (g : Group) (n : Nat) (x : W64) : (g.setScalar n x).halted = g.halted := rfl
@[simp] theorem Group.setScalar_traceOn (g : Group) (n : Nat) (x : W64) : (g.setScalar n x).traceOn = g.traceOn := rfl
@[simp] theorem Group.setScalar_lastSync (g : Group) (n : Nat) (x : W64) : (g.setScalar n x).lastSync = g.lastSync := rfl
@[simp] theorem Group.setScalar_lostTrace (g : Group) (n : Nat) (x : W64) : (g.setScalar n x).lostTrace = g.lostTrace := rfl
@[simp] theorem Group.setScalar_reopen (g : Group) (n : Nat) (x : W64) : (g.setScalar n x).reopen = g.reopen := rfl
@[simp] theorem Group.setScalar_repeated (g : Group) (n : Nat) (x : W64) : (g.setScalar n x).repeated = g.repeated := rfl

@[simp] theorem Group.setPred_info (g : Group) (n : Nat) (m x : Mask) : (g.setPred n m x).info = g.info := rfl
@[simp] theorem Group.setPred_regs (g : Group) (n : Nat) (m x : Mask) : (g.setPred n m x).regs = { g.regs with p := g.regs.p.setIfInBounds n ((x &&& m) ||| (g.pred n &&& ~~~m)) } := rfl
@[simp] theorem Group.setPred_sys (g : Group) (n : Nat) (m x : Mask) : (g.setPred n m x).sys = g.sys := rfl
@[simp] theorem Group.setPred_off (g : Group) (n : Nat) (m x : Mask) : (g.setPred n m x).off = g.off := rfl
@[simp] theorem Group.setPred_gone (g : Group) (n : Nat) (m x : Mask) : (g.setPred n m x).gone = g.gone := rfl
@[simp] theorem Group.setPred_splits (g : Group) (n : Nat) (m x : Mask) : (g.setPred n m x).splits = g.splits := rfl
@[simp] theorem Group.setPred_nextDiv (g : Group) (n : Nat) (m x : Mask) : (g.setPred n m x).nextDiv = g.nextDiv := rfl
@[simp] theorem Group.setPred_pend (g : Group) (n : Nat) (m x : Mask) : (g.setPred n m x).pend = g.pend := rfl
@[simp] theorem Group.setPred_trap (g : Group) (n : Nat) (m x : Mask) : (g.setPred n m x).trap = g.trap := rfl
@[simp] theorem Group.setPred_path (g : Group) (n : Nat) (m x : Mask) : (g.setPred n m x).path = g.path := rfl
@[simp] theorem Group.setPred_batches (g : Group) (n : Nat) (m x : Mask) : (g.setPred n m x).batches = g.batches := rfl
@[simp] theorem Group.setPred_targets (g : Group) (n : Nat) (m x : Mask) : (g.setPred n m x).targets = g.targets := rfl
@[simp] theorem Group.setPred_region (g : Group) (n : Nat) (m x : Mask) : (g.setPred n m x).region = g.region := rfl
@[simp] theorem Group.setPred_out (g : Group) (n : Nat) (m x : Mask) : (g.setPred n m x).out = g.out := rfl
@[simp] theorem Group.setPred_mmaj (g : Group) (n : Nat) (m x : Mask) : (g.setPred n m x).mmaj = g.mmaj := rfl
@[simp] theorem Group.setPred_signalled (g : Group) (n : Nat) (m x : Mask) : (g.setPred n m x).signalled = g.signalled := rfl
@[simp] theorem Group.setPred_lastDelivery (g : Group) (n : Nat) (m x : Mask) : (g.setPred n m x).lastDelivery = g.lastDelivery := rfl
@[simp] theorem Group.setPred_emu (g : Group) (n : Nat) (m x : Mask) : (g.setPred n m x).emu = g.emu := rfl
@[simp] theorem Group.setPred_proxyOf (g : Group) (n : Nat) (m x : Mask) : (g.setPred n m x).proxyOf = g.proxyOf := rfl
@[simp] theorem Group.setPred_proxied (g : Group) (n : Nat) (m x : Mask) : (g.setPred n m x).proxied = g.proxied := rfl
@[simp] theorem Group.setPred_halted (g : Group) (n : Nat) (m x : Mask) : (g.setPred n m x).halted = g.halted := rfl
@[simp] theorem Group.setPred_traceOn (g : Group) (n : Nat) (m x : Mask) : (g.setPred n m x).traceOn = g.traceOn := rfl
@[simp] theorem Group.setPred_lastSync (g : Group) (n : Nat) (m x : Mask) : (g.setPred n m x).lastSync = g.lastSync := rfl
@[simp] theorem Group.setPred_lostTrace (g : Group) (n : Nat) (m x : Mask) : (g.setPred n m x).lostTrace = g.lostTrace := rfl
@[simp] theorem Group.setPred_reopen (g : Group) (n : Nat) (m x : Mask) : (g.setPred n m x).reopen = g.reopen := rfl
@[simp] theorem Group.setPred_repeated (g : Group) (n : Nat) (m x : Mask) : (g.setPred n m x).repeated = g.repeated := rfl

@[simp] theorem Group.setSplit_info (g : Group) (sp : Split) : (g.setSplit sp).info = g.info := rfl
@[simp] theorem Group.setSplit_regs (g : Group) (sp : Split) : (g.setSplit sp).regs = g.regs := rfl
@[simp] theorem Group.setSplit_sys (g : Group) (sp : Split) : (g.setSplit sp).sys = g.sys := rfl
@[simp] theorem Group.setSplit_off (g : Group) (sp : Split) : (g.setSplit sp).off = g.off := rfl
@[simp] theorem Group.setSplit_gone (g : Group) (sp : Split) : (g.setSplit sp).gone = g.gone := rfl
@[simp] theorem Group.setSplit_splits (g : Group) (sp : Split) : (g.setSplit sp).splits = g.splits.map fun x => if x.id == sp.id then sp else x := rfl
@[simp] theorem Group.setSplit_nextDiv (g : Group) (sp : Split) : (g.setSplit sp).nextDiv = g.nextDiv := rfl
@[simp] theorem Group.setSplit_pend (g : Group) (sp : Split) : (g.setSplit sp).pend = g.pend := rfl
@[simp] theorem Group.setSplit_trap (g : Group) (sp : Split) : (g.setSplit sp).trap = g.trap := rfl
@[simp] theorem Group.setSplit_path (g : Group) (sp : Split) : (g.setSplit sp).path = g.path := rfl
@[simp] theorem Group.setSplit_batches (g : Group) (sp : Split) : (g.setSplit sp).batches = g.batches := rfl
@[simp] theorem Group.setSplit_targets (g : Group) (sp : Split) : (g.setSplit sp).targets = g.targets := rfl
@[simp] theorem Group.setSplit_region (g : Group) (sp : Split) : (g.setSplit sp).region = g.region := rfl
@[simp] theorem Group.setSplit_out (g : Group) (sp : Split) : (g.setSplit sp).out = g.out := rfl
@[simp] theorem Group.setSplit_mmaj (g : Group) (sp : Split) : (g.setSplit sp).mmaj = g.mmaj := rfl
@[simp] theorem Group.setSplit_signalled (g : Group) (sp : Split) : (g.setSplit sp).signalled = g.signalled := rfl
@[simp] theorem Group.setSplit_lastDelivery (g : Group) (sp : Split) : (g.setSplit sp).lastDelivery = g.lastDelivery := rfl
@[simp] theorem Group.setSplit_emu (g : Group) (sp : Split) : (g.setSplit sp).emu = g.emu := rfl
@[simp] theorem Group.setSplit_proxyOf (g : Group) (sp : Split) : (g.setSplit sp).proxyOf = g.proxyOf := rfl
@[simp] theorem Group.setSplit_proxied (g : Group) (sp : Split) : (g.setSplit sp).proxied = g.proxied := rfl
@[simp] theorem Group.setSplit_halted (g : Group) (sp : Split) : (g.setSplit sp).halted = g.halted := rfl
@[simp] theorem Group.setSplit_traceOn (g : Group) (sp : Split) : (g.setSplit sp).traceOn = g.traceOn := rfl
@[simp] theorem Group.setSplit_lastSync (g : Group) (sp : Split) : (g.setSplit sp).lastSync = g.lastSync := rfl
@[simp] theorem Group.setSplit_lostTrace (g : Group) (sp : Split) : (g.setSplit sp).lostTrace = g.lostTrace := rfl
@[simp] theorem Group.setSplit_reopen (g : Group) (sp : Split) : (g.setSplit sp).reopen = g.reopen := rfl
@[simp] theorem Group.setSplit_repeated (g : Group) (sp : Split) : (g.setSplit sp).repeated = g.repeated := rfl

@[simp] theorem Group.raiseHorizon_info (g : Group) (t : Nat) : (g.raiseHorizon t).info = g.info := rfl
@[simp] theorem Group.raiseHorizon_regs (g : Group) (t : Nat) : (g.raiseHorizon t).regs = g.regs := rfl
@[simp] theorem Group.raiseHorizon_sys (g : Group) (t : Nat) : (g.raiseHorizon t).sys = { g.sys with horizon := max g.sys.horizon t } := rfl
@[simp] theorem Group.raiseHorizon_off (g : Group) (t : Nat) : (g.raiseHorizon t).off = g.off := rfl
@[simp] theorem Group.raiseHorizon_gone (g : Group) (t : Nat) : (g.raiseHorizon t).gone = g.gone := rfl
@[simp] theorem Group.raiseHorizon_splits (g : Group) (t : Nat) : (g.raiseHorizon t).splits = g.splits := rfl
@[simp] theorem Group.raiseHorizon_nextDiv (g : Group) (t : Nat) : (g.raiseHorizon t).nextDiv = g.nextDiv := rfl
@[simp] theorem Group.raiseHorizon_pend (g : Group) (t : Nat) : (g.raiseHorizon t).pend = g.pend := rfl
@[simp] theorem Group.raiseHorizon_trap (g : Group) (t : Nat) : (g.raiseHorizon t).trap = g.trap := rfl
@[simp] theorem Group.raiseHorizon_path (g : Group) (t : Nat) : (g.raiseHorizon t).path = g.path := rfl
@[simp] theorem Group.raiseHorizon_batches (g : Group) (t : Nat) : (g.raiseHorizon t).batches = g.batches := rfl
@[simp] theorem Group.raiseHorizon_targets (g : Group) (t : Nat) : (g.raiseHorizon t).targets = g.targets := rfl
@[simp] theorem Group.raiseHorizon_region (g : Group) (t : Nat) : (g.raiseHorizon t).region = g.region := rfl
@[simp] theorem Group.raiseHorizon_out (g : Group) (t : Nat) : (g.raiseHorizon t).out = g.out := rfl
@[simp] theorem Group.raiseHorizon_mmaj (g : Group) (t : Nat) : (g.raiseHorizon t).mmaj = g.mmaj := rfl
@[simp] theorem Group.raiseHorizon_signalled (g : Group) (t : Nat) : (g.raiseHorizon t).signalled = g.signalled := rfl
@[simp] theorem Group.raiseHorizon_lastDelivery (g : Group) (t : Nat) : (g.raiseHorizon t).lastDelivery = g.lastDelivery := rfl
@[simp] theorem Group.raiseHorizon_emu (g : Group) (t : Nat) : (g.raiseHorizon t).emu = g.emu := rfl
@[simp] theorem Group.raiseHorizon_proxyOf (g : Group) (t : Nat) : (g.raiseHorizon t).proxyOf = g.proxyOf := rfl
@[simp] theorem Group.raiseHorizon_proxied (g : Group) (t : Nat) : (g.raiseHorizon t).proxied = g.proxied := rfl
@[simp] theorem Group.raiseHorizon_halted (g : Group) (t : Nat) : (g.raiseHorizon t).halted = g.halted := rfl
@[simp] theorem Group.raiseHorizon_traceOn (g : Group) (t : Nat) : (g.raiseHorizon t).traceOn = g.traceOn := rfl
@[simp] theorem Group.raiseHorizon_lastSync (g : Group) (t : Nat) : (g.raiseHorizon t).lastSync = g.lastSync := rfl
@[simp] theorem Group.raiseHorizon_lostTrace (g : Group) (t : Nat) : (g.raiseHorizon t).lostTrace = g.lostTrace := rfl
@[simp] theorem Group.raiseHorizon_reopen (g : Group) (t : Nat) : (g.raiseHorizon t).reopen = g.reopen := rfl
@[simp] theorem Group.raiseHorizon_repeated (g : Group) (t : Nat) : (g.raiseHorizon t).repeated = g.repeated := rfl

@[simp] theorem Group.raiseFlags_info (g : Group) (f : BitVec 5) : (g.raiseFlags f).info = g.info := rfl
@[simp] theorem Group.raiseFlags_regs (g : Group) (f : BitVec 5) : (g.raiseFlags f).regs = g.regs := rfl
@[simp] theorem Group.raiseFlags_sys (g : Group) (f : BitVec 5) : (g.raiseFlags f).sys = { g.sys with fflags := g.sys.fflags ||| f } := rfl
@[simp] theorem Group.raiseFlags_off (g : Group) (f : BitVec 5) : (g.raiseFlags f).off = g.off := rfl
@[simp] theorem Group.raiseFlags_gone (g : Group) (f : BitVec 5) : (g.raiseFlags f).gone = g.gone := rfl
@[simp] theorem Group.raiseFlags_splits (g : Group) (f : BitVec 5) : (g.raiseFlags f).splits = g.splits := rfl
@[simp] theorem Group.raiseFlags_nextDiv (g : Group) (f : BitVec 5) : (g.raiseFlags f).nextDiv = g.nextDiv := rfl
@[simp] theorem Group.raiseFlags_pend (g : Group) (f : BitVec 5) : (g.raiseFlags f).pend = g.pend := rfl
@[simp] theorem Group.raiseFlags_trap (g : Group) (f : BitVec 5) : (g.raiseFlags f).trap = g.trap := rfl
@[simp] theorem Group.raiseFlags_path (g : Group) (f : BitVec 5) : (g.raiseFlags f).path = g.path := rfl
@[simp] theorem Group.raiseFlags_batches (g : Group) (f : BitVec 5) : (g.raiseFlags f).batches = g.batches := rfl
@[simp] theorem Group.raiseFlags_targets (g : Group) (f : BitVec 5) : (g.raiseFlags f).targets = g.targets := rfl
@[simp] theorem Group.raiseFlags_region (g : Group) (f : BitVec 5) : (g.raiseFlags f).region = g.region := rfl
@[simp] theorem Group.raiseFlags_out (g : Group) (f : BitVec 5) : (g.raiseFlags f).out = g.out := rfl
@[simp] theorem Group.raiseFlags_mmaj (g : Group) (f : BitVec 5) : (g.raiseFlags f).mmaj = g.mmaj := rfl
@[simp] theorem Group.raiseFlags_signalled (g : Group) (f : BitVec 5) : (g.raiseFlags f).signalled = g.signalled := rfl
@[simp] theorem Group.raiseFlags_lastDelivery (g : Group) (f : BitVec 5) : (g.raiseFlags f).lastDelivery = g.lastDelivery := rfl
@[simp] theorem Group.raiseFlags_emu (g : Group) (f : BitVec 5) : (g.raiseFlags f).emu = g.emu := rfl
@[simp] theorem Group.raiseFlags_proxyOf (g : Group) (f : BitVec 5) : (g.raiseFlags f).proxyOf = g.proxyOf := rfl
@[simp] theorem Group.raiseFlags_proxied (g : Group) (f : BitVec 5) : (g.raiseFlags f).proxied = g.proxied := rfl
@[simp] theorem Group.raiseFlags_halted (g : Group) (f : BitVec 5) : (g.raiseFlags f).halted = g.halted := rfl
@[simp] theorem Group.raiseFlags_traceOn (g : Group) (f : BitVec 5) : (g.raiseFlags f).traceOn = g.traceOn := rfl
@[simp] theorem Group.raiseFlags_lastSync (g : Group) (f : BitVec 5) : (g.raiseFlags f).lastSync = g.lastSync := rfl
@[simp] theorem Group.raiseFlags_lostTrace (g : Group) (f : BitVec 5) : (g.raiseFlags f).lostTrace = g.lostTrace := rfl
@[simp] theorem Group.raiseFlags_reopen (g : Group) (f : BitVec 5) : (g.raiseFlags f).reopen = g.reopen := rfl
@[simp] theorem Group.raiseFlags_repeated (g : Group) (f : BitVec 5) : (g.raiseFlags f).repeated = g.repeated := rfl

@[simp] theorem Group.push_info (g : Group) (lanes act : Mask) (x : LaneReg) : (g.push lanes act x).info = g.info := rfl
@[simp] theorem Group.push_sys (g : Group) (lanes act : Mask) (x : LaneReg) : (g.push lanes act x).sys = g.sys := rfl
@[simp] theorem Group.push_off (g : Group) (lanes act : Mask) (x : LaneReg) : (g.push lanes act x).off = g.off := rfl
@[simp] theorem Group.push_gone (g : Group) (lanes act : Mask) (x : LaneReg) : (g.push lanes act x).gone = g.gone := rfl
@[simp] theorem Group.push_splits (g : Group) (lanes act : Mask) (x : LaneReg) : (g.push lanes act x).splits = g.splits := rfl
@[simp] theorem Group.push_nextDiv (g : Group) (lanes act : Mask) (x : LaneReg) : (g.push lanes act x).nextDiv = g.nextDiv := rfl
@[simp] theorem Group.push_trap (g : Group) (lanes act : Mask) (x : LaneReg) : (g.push lanes act x).trap = g.trap := rfl
@[simp] theorem Group.push_path (g : Group) (lanes act : Mask) (x : LaneReg) : (g.push lanes act x).path = g.path := rfl
@[simp] theorem Group.push_batches (g : Group) (lanes act : Mask) (x : LaneReg) : (g.push lanes act x).batches = g.batches := rfl
@[simp] theorem Group.push_targets (g : Group) (lanes act : Mask) (x : LaneReg) : (g.push lanes act x).targets = g.targets := rfl
@[simp] theorem Group.push_region (g : Group) (lanes act : Mask) (x : LaneReg) : (g.push lanes act x).region = g.region := rfl
@[simp] theorem Group.push_out (g : Group) (lanes act : Mask) (x : LaneReg) : (g.push lanes act x).out = g.out := rfl
@[simp] theorem Group.push_mmaj (g : Group) (lanes act : Mask) (x : LaneReg) : (g.push lanes act x).mmaj = g.mmaj := rfl
@[simp] theorem Group.push_signalled (g : Group) (lanes act : Mask) (x : LaneReg) : (g.push lanes act x).signalled = g.signalled := rfl
@[simp] theorem Group.push_lastDelivery (g : Group) (lanes act : Mask) (x : LaneReg) : (g.push lanes act x).lastDelivery = g.lastDelivery := rfl
@[simp] theorem Group.push_emu (g : Group) (lanes act : Mask) (x : LaneReg) : (g.push lanes act x).emu = g.emu := rfl
@[simp] theorem Group.push_proxyOf (g : Group) (lanes act : Mask) (x : LaneReg) : (g.push lanes act x).proxyOf = g.proxyOf := rfl
@[simp] theorem Group.push_proxied (g : Group) (lanes act : Mask) (x : LaneReg) : (g.push lanes act x).proxied = g.proxied := rfl
@[simp] theorem Group.push_halted (g : Group) (lanes act : Mask) (x : LaneReg) : (g.push lanes act x).halted = g.halted := rfl
@[simp] theorem Group.push_traceOn (g : Group) (lanes act : Mask) (x : LaneReg) : (g.push lanes act x).traceOn = g.traceOn := rfl
@[simp] theorem Group.push_lastSync (g : Group) (lanes act : Mask) (x : LaneReg) : (g.push lanes act x).lastSync = g.lastSync := rfl
@[simp] theorem Group.push_lostTrace (g : Group) (lanes act : Mask) (x : LaneReg) : (g.push lanes act x).lostTrace = g.lostTrace := rfl
@[simp] theorem Group.push_reopen (g : Group) (lanes act : Mask) (x : LaneReg) : (g.push lanes act x).reopen = g.reopen := rfl
@[simp] theorem Group.push_repeated (g : Group) (lanes act : Mask) (x : LaneReg) : (g.push lanes act x).repeated = g.repeated := rfl

@[simp] theorem Group.onRegion_info (g : Group) (f : Region → Region) : (g.onRegion f).info = g.info := rfl
@[simp] theorem Group.onRegion_regs (g : Group) (f : Region → Region) : (g.onRegion f).regs = g.regs := rfl
@[simp] theorem Group.onRegion_sys (g : Group) (f : Region → Region) : (g.onRegion f).sys = g.sys := rfl
@[simp] theorem Group.onRegion_off (g : Group) (f : Region → Region) : (g.onRegion f).off = g.off := rfl
@[simp] theorem Group.onRegion_gone (g : Group) (f : Region → Region) : (g.onRegion f).gone = g.gone := rfl
@[simp] theorem Group.onRegion_splits (g : Group) (f : Region → Region) : (g.onRegion f).splits = g.splits := rfl
@[simp] theorem Group.onRegion_nextDiv (g : Group) (f : Region → Region) : (g.onRegion f).nextDiv = g.nextDiv := rfl
@[simp] theorem Group.onRegion_pend (g : Group) (f : Region → Region) : (g.onRegion f).pend = g.pend := rfl
@[simp] theorem Group.onRegion_trap (g : Group) (f : Region → Region) : (g.onRegion f).trap = g.trap := rfl
@[simp] theorem Group.onRegion_path (g : Group) (f : Region → Region) : (g.onRegion f).path = g.path := rfl
@[simp] theorem Group.onRegion_batches (g : Group) (f : Region → Region) : (g.onRegion f).batches = g.batches := rfl
@[simp] theorem Group.onRegion_targets (g : Group) (f : Region → Region) : (g.onRegion f).targets = g.targets := rfl
@[simp] theorem Group.onRegion_region (g : Group) (f : Region → Region) : (g.onRegion f).region = g.region.map f := rfl
@[simp] theorem Group.onRegion_out (g : Group) (f : Region → Region) : (g.onRegion f).out = g.out := rfl
@[simp] theorem Group.onRegion_mmaj (g : Group) (f : Region → Region) : (g.onRegion f).mmaj = g.mmaj := rfl
@[simp] theorem Group.onRegion_signalled (g : Group) (f : Region → Region) : (g.onRegion f).signalled = g.signalled := rfl
@[simp] theorem Group.onRegion_lastDelivery (g : Group) (f : Region → Region) : (g.onRegion f).lastDelivery = g.lastDelivery := rfl
@[simp] theorem Group.onRegion_emu (g : Group) (f : Region → Region) : (g.onRegion f).emu = g.emu := rfl
@[simp] theorem Group.onRegion_proxyOf (g : Group) (f : Region → Region) : (g.onRegion f).proxyOf = g.proxyOf := rfl
@[simp] theorem Group.onRegion_proxied (g : Group) (f : Region → Region) : (g.onRegion f).proxied = g.proxied := rfl
@[simp] theorem Group.onRegion_halted (g : Group) (f : Region → Region) : (g.onRegion f).halted = g.halted := rfl
@[simp] theorem Group.onRegion_traceOn (g : Group) (f : Region → Region) : (g.onRegion f).traceOn = g.traceOn := rfl
@[simp] theorem Group.onRegion_lastSync (g : Group) (f : Region → Region) : (g.onRegion f).lastSync = g.lastSync := rfl
@[simp] theorem Group.onRegion_lostTrace (g : Group) (f : Region → Region) : (g.onRegion f).lostTrace = g.lostTrace := rfl
@[simp] theorem Group.onRegion_reopen (g : Group) (f : Region → Region) : (g.onRegion f).reopen = g.reopen := rfl
@[simp] theorem Group.onRegion_repeated (g : Group) (f : Region → Region) : (g.onRegion f).repeated = g.repeated := rfl

@[simp] theorem Group.await_info (g : Group) (o : List Outstanding) : (g.await o).info = g.info := rfl
@[simp] theorem Group.await_regs (g : Group) (o : List Outstanding) : (g.await o).regs = g.regs := rfl
@[simp] theorem Group.await_sys (g : Group) (o : List Outstanding) : (g.await o).sys = g.sys := rfl
@[simp] theorem Group.await_off (g : Group) (o : List Outstanding) : (g.await o).off = g.off := rfl
@[simp] theorem Group.await_gone (g : Group) (o : List Outstanding) : (g.await o).gone = g.gone := rfl
@[simp] theorem Group.await_splits (g : Group) (o : List Outstanding) : (g.await o).splits = g.splits := rfl
@[simp] theorem Group.await_nextDiv (g : Group) (o : List Outstanding) : (g.await o).nextDiv = g.nextDiv := rfl
@[simp] theorem Group.await_pend (g : Group) (o : List Outstanding) : (g.await o).pend = g.pend := rfl
@[simp] theorem Group.await_trap (g : Group) (o : List Outstanding) : (g.await o).trap = g.trap := rfl
@[simp] theorem Group.await_path (g : Group) (o : List Outstanding) : (g.await o).path = g.path := rfl
@[simp] theorem Group.await_batches (g : Group) (o : List Outstanding) : (g.await o).batches = g.batches := rfl
@[simp] theorem Group.await_targets (g : Group) (o : List Outstanding) : (g.await o).targets = g.targets := rfl
@[simp] theorem Group.await_region (g : Group) (o : List Outstanding) : (g.await o).region = g.region := rfl
@[simp] theorem Group.await_out (g : Group) (o : List Outstanding) : (g.await o).out = g.out ++ o := rfl
@[simp] theorem Group.await_mmaj (g : Group) (o : List Outstanding) : (g.await o).mmaj = g.mmaj := rfl
@[simp] theorem Group.await_signalled (g : Group) (o : List Outstanding) : (g.await o).signalled = g.signalled := rfl
@[simp] theorem Group.await_lastDelivery (g : Group) (o : List Outstanding) : (g.await o).lastDelivery = g.lastDelivery := rfl
@[simp] theorem Group.await_emu (g : Group) (o : List Outstanding) : (g.await o).emu = g.emu := rfl
@[simp] theorem Group.await_proxyOf (g : Group) (o : List Outstanding) : (g.await o).proxyOf = g.proxyOf := rfl
@[simp] theorem Group.await_proxied (g : Group) (o : List Outstanding) : (g.await o).proxied = g.proxied := rfl
@[simp] theorem Group.await_halted (g : Group) (o : List Outstanding) : (g.await o).halted = g.halted := rfl
@[simp] theorem Group.await_traceOn (g : Group) (o : List Outstanding) : (g.await o).traceOn = g.traceOn := rfl
@[simp] theorem Group.await_lastSync (g : Group) (o : List Outstanding) : (g.await o).lastSync = g.lastSync := rfl
@[simp] theorem Group.await_lostTrace (g : Group) (o : List Outstanding) : (g.await o).lostTrace = g.lostTrace := rfl
@[simp] theorem Group.await_reopen (g : Group) (o : List Outstanding) : (g.await o).reopen = g.reopen := rfl
@[simp] theorem Group.await_repeated (g : Group) (o : List Outstanding) : (g.await o).repeated = g.repeated := rfl

end Sys2Proof.Machine
end

