-- ==== Sys2Proof/Laws/Issue.lean ====
section
/-! SUPPORT. The issue of one word: what the checks of R212 answer, what a word that went on leaves, and what writing a
result does. The claims' proofs cite these and unfold no operation. -/

namespace Sys2Proof.Machine

/-! ## Maps -/

/-- A key just set gives its value. -/
@[simp] theorem NMap.get?_set_self {α : Type} (m : NMap α) (k : Nat) (x : α) : NMap.get? (NMap.set m k x) k = some x := by
  induction m with
  | nil => simp [NMap.set, NMap.get?]
  | cons e m ih =>
    obtain ⟨j, a⟩ := e
    unfold NMap.set
    split
    · simp [NMap.get?]
    · split
      · simp [NMap.get?]
      · rw [NMap.get?, if_neg ‹_›]; exact ih

/-- Another key keeps its value. -/
theorem NMap.get?_set_ne {α : Type} (m : NMap α) {k j : Nat} (x : α) (h : j ≠ k) :
    NMap.get? (NMap.set m k x) j = NMap.get? m j := by
  induction m with
  | nil => simp [NMap.set, NMap.get?, Ne.symm h]
  | cons e m ih =>
    obtain ⟨i, a⟩ := e
    unfold NMap.set
    split
    · rw [NMap.get?, if_neg (Ne.symm h)]
    · split
      · rename_i hi
        subst hi
        rw [NMap.get?, if_neg (Ne.symm h), NMap.get?, if_neg (Ne.symm h)]
      · rw [NMap.get?, NMap.get?, ih]

/-- The group just written. -/
@[simp] theorem State.group?_setGroup (s : State) (k : Nat) (g : Group) : (s.setGroup k g).group? k = some g :=
  NMap.get?_set_self _ _ _

/-- Another group after a group is written. -/
theorem State.group?_setGroup_ne (s : State) {k j : Nat} (g : Group) (h : j ≠ k) :
    (s.setGroup k g).group? j = s.group? j := NMap.get?_set_ne _ _ h

/-- The team just written. -/
@[simp] theorem State.team?_setTeam (s : State) (k : Nat) (m : Team) : (s.setTeam k m).team? k = some m :=
  NMap.get?_set_self _ _ _

/-- Another team after a team is written. -/
theorem State.team?_setTeam_ne (s : State) {k j : Nat} (m : Team) (h : j ≠ k) :
    (s.setTeam k m).team? j = s.team? j := NMap.get?_set_ne _ _ h

/-- Groups stay when a team is written. -/
@[simp] theorem State.group?_setTeam (s : State) (k : Nat) (m : Team) (j : Nat) : (s.setTeam k m).group? j = s.group? j := rfl

/-- Teams stay when a group is written. -/
@[simp] theorem State.team?_setGroup (s : State) (k : Nat) (g : Group) (j : Nat) : (s.setGroup k g).team? j = s.team? j := rfl

/-! ## Lanes -/

/-- A lane of a register built lane by lane. -/
@[simp] theorem lane_ofFn (f : Nat → W64) {l : Nat} (h : l < 32) : (LaneReg.ofFn f).lane l = f l := by
  simp [LaneReg.ofFn, LaneReg.lane, h]

/-- Entry `n` of a register file of 24 after one entry is written. -/
theorem getD_set {n : Nat} {α : Type} (v : Vector α n) (i j : Nat) (x d : α) (hj : j < n) :
    (v.setIfInBounds i x).toArray.toList.getD j d = if i = j then x else v.toArray.toList.getD j d := by
  have hj' : j < v.toArray.size := by simpa using hj
  simp only [Vector.toArray_setIfInBounds, Array.toList_setIfInBounds, List.getD_eq_getElem?_getD]
  by_cases h : i = j
  · subst h
    rw [List.getElem?_set_self (by simpa using hj)]
    simp
  · rw [List.getElem?_set_ne h, if_neg h]

/-! ## The unit in hand -/

/-- What the unit in hand is: the group of the selected slot and its split. -/
theorem cx?_eq {i : Instr} {s : State} {c : Cx} (h : cx? i s = some c) :
    c.s = s ∧ c.k = unitKey s.sel ∧ s.group? c.k = some c.g ∧ c.g.split? c.sp.id = some c.sp ∧ c.i = i ∧
      c.rd = s.pre.getD c.g := by
  unfold cx? at h
  simp only at h
  split at h
  · cases h
  · rename_i g hg
    split at h
    · cases h
    · rename_i sp hsp
      simp only [Option.some.injEq] at h
      subst h
      have hid : sp.id = s.sel.split := by
        have := List.find?_some hsp
        simpa using this
      exact ⟨rfl, rfl, hg, by rw [hid]; exact hsp, rfl, rfl⟩

/-- A split that stands in a group stands there after it is written back. -/
theorem split?_setSplit {g : Group} {sp : Split} (h : (g.split? sp.id).isSome = true) :
    (g.setSplit sp).split? sp.id = some sp := by
  unfold Group.split? Group.setSplit at *
  simp only
  generalize g.splits = l at *
  induction l with
  | nil => simp at h
  | cons a l ih =>
    by_cases ha : a.id = sp.id
    · simp [ha]
    · have hf : (a.id == sp.id) = false := by simpa using ha
      simp only [List.find?_cons, hf, List.map_cons] at h ⊢
      simp only [Bool.false_eq_true, if_false, hf]
      exact ih h

/-- The other splits after a split is written back. -/
theorem split?_setSplit_ne {g : Group} {sp : Split} {j : Nat} (h : j ≠ sp.id) :
    (g.setSplit sp).split? j = g.split? j := by
  unfold Group.split? Group.setSplit
  simp only
  generalize g.splits = l
  induction l with
  | nil => rfl
  | cons a l ih =>
    by_cases ha : a.id = sp.id
    · have h1 : (a.id == sp.id) = true := by simpa using ha
      have h2 : (sp.id == j) = false := by simpa using Ne.symm h
      have h3 : (a.id == j) = false := by rw [ha]; exact h2
      simp only [List.map_cons, h1, if_true, List.find?_cons, h2, h3]
      exact ih
    · have h1 : (a.id == sp.id) = false := by simpa using ha
      simp only [List.map_cons, h1, Bool.false_eq_true, if_false, List.find?_cons]
      split
      · rfl
      · exact ih

/-! ## The checks -/

/-- The k-queues hold nothing back when they have what the word pops and room for what it pushes (R184). -/
theorem kHold_none {c : Cx} (h : c.Clear) : kHold c c.i.uses = none := by
  have h1 : ∀ q < 4, ¬ (c.poppable q).length < (c.i.uses.pop.filter (· == q)).length := by
    intro q hq; have := h.filled q hq; unfold Uses.popsOf at this; omega
  have h2 : ∀ q < 4, ¬ (0 < (c.i.uses.push.filter (· == q)).length ∧
      8 < (c.kqueue q).length - (c.i.uses.pop.filter (· == q)).length + (c.i.uses.push.filter (· == q)).length) := by
    rintro q hq ⟨ha, hb⟩
    have hm : q ∈ c.i.uses.push := by
      obtain ⟨x, hx⟩ := List.exists_mem_of_length_pos ha
      have := List.mem_filter.1 hx
      have hxq : x = q := by simpa using this.2
      exact hxq ▸ this.1
    have := h.room q hq hm
    unfold Uses.popsOf Uses.pushesOf at this
    omega
  unfold kHold
  simp only [List.filterMap_cons, List.filterMap_nil, if_neg (h1 0 (by omega)), if_neg (h1 1 (by omega)),
    if_neg (h1 2 (by omega)), if_neg (h1 3 (by omega)), if_neg (h2 0 (by omega)), if_neg (h2 1 (by omega)),
    if_neg (h2 2 (by omega)), if_neg (h2 3 (by omega)), List.head?_nil]

/-- A word that passes the checks runs its body, when its own structural checks pass too (R212). -/
theorem checks_clear {ck : Checks} {c : Cx} (h : c.Clear) (h0 : ∀ n ∈ ck.names c, n < c.g.names) (h1 : ck.illconv c = false)
    (h2 : ck.illwait c = none) (h3 : ck.illregion c = false) (body : Cx → State) : checks ck c body = body c := by
  have hn : (c.i.uses.v ++ c.i.uses.d ++ ck.names c).any (fun n => decide (c.g.names ≤ n)) = false := by
    rw [List.any_eq_false]
    intro n hn
    rcases List.mem_append.1 hn with hn | hn
    · have := h.names n hn
      simpa using this
    · simpa using h0 n hn
  have hw : c.inWindow = none := by
    unfold Cx.inWindow
    rw [List.find?_eq_none]
    intro p hp
    simp only [Bool.and_eq_true, decide_eq_true_eq, not_and]
    intro hr
    rcases List.mem_append.1 hp with hp | hp
    · simpa using h.closed p hp hr
    · have hs : (p.room c.sp.id).isSome = true := by
        cases hx : p.room c.sp.id with
        | none => rw [hx] at hr; exact absurd hr (by simp)
        | some _ => rfl
      simpa using h.free p hp hs
  have hu : c.waitsResult = false := by
    unfold Cx.waitsResult
    rw [Bool.or_eq_false_iff, List.any_eq_false, List.any_eq_false]
    refine ⟨fun p hp => ?_, fun p hp => ?_⟩
    · simp only [Bool.and_eq_true, not_and]
      intro hr
      simpa using h.free p hp hr
    · simp only [Bool.and_eq_true, beq_iff_eq, not_and]
      intro hr
      simpa using h.quiet p hp hr
  have hk : kWait c c.i.uses = false := by
    unfold kWait
    rcases h.queues with ⟨h1, h2⟩ | h0
    · simp [h1, h2]
    · simp [h0]
  have hr : (c.g.inRegion && !c.i.uses.pop.isEmpty) = false := by
    unfold Group.inRegion
    cases hreg : c.g.region.isSome with
    | false => rfl
    | true => simp [h.popless hreg]
  unfold checks
  simp only [hn, h.native, hw, hu, ite_self, Bool.or_self, h1, h2, hk, h3, hr, h.arrives, kHold_none h, Bool.not_true, Bool.false_eq_true,
    if_false]

/-- A bit of the low three of INJECT is clear. -/
theorem inject_clear {c : Cx} (h : c.Clear) :
    c.g.sys.inject.getLsbD 0 = false ∧ c.g.sys.inject.getLsbD 1 = false ∧ c.g.sys.inject.getLsbD 2 = false := by
  have hx := h.sound
  refine ⟨?_, ?_, ?_⟩
  · have := congrArg (fun b : W64 => b.getLsbD 0) hx
    simpa using this
  · have := congrArg (fun b : W64 => b.getLsbD 1) hx
    simpa using this
  · have := congrArg (fun b : W64 => b.getLsbD 2) hx
    simpa using this

/-- A word that passes the checks runs its body on the unit in hand (R212, R393). -/
theorem issue_clear {i : Instr} {ck : Checks} {s : State} {c : Cx} (hc : cx? i s = some c) (h : c.Clear)
    (h0 : ∀ n ∈ ck.names c, n < c.g.names) (h1 : ck.illconv c = false) (h2 : ck.illwait c = none) (h3 : ck.illregion c = false) (body : Cx → State) :
    issue i ck s body = .next (body c) := by
  obtain ⟨-, hb, hs⟩ := inject_clear h
  have hr : c.reopened = some c := by
    unfold Cx.reopened
    rw [if_neg]
    rintro hh
    have : c.g.reopen = .now ∧ c.g.region.isNone = true := by simpa using hh
    rcases h.opened with ho | ho
    · exact ho this.1
    · rw [Option.isNone_iff_eq_none] at this
      rw [this.2] at ho
      exact absurd ho (by simp)
  unfold issue
  simp only [hc, hr, hs, hb, Bool.false_and, Bool.false_eq_true, if_false, checks_clear h h0 h1 h2 h3]

/-- Without a resident unit every word faults (R428). -/
theorem issue_none {i : Instr} {s : State} (hc : cx? i s = none) (ck : Checks) (body : Cx → State) :
    issue i ck s body = .fault .noUnit := by
  unfold issue; rw [hc]

/-- With a resident unit a word answers a next state: it issues, is held or traps. -/
theorem issue_next {i : Instr} {s : State} {c : Cx} (hc : cx? i s = some c) (ck : Checks) (body : Cx → State) :
    ∃ t, issue i ck s body = .next t := by
  unfold issue; rw [hc]; exact ⟨_, rfl⟩

/-! ## A word that has issued -/

/-- What issuing leaves outside the split in hand. -/
theorem done_spec {c : Cx} (h : (c.g.split? c.sp.id).isSome = true) :
    c.done.last = .issued ∧ State.sameOutside c.s c.done c.k c.g.info.team ∧
      ∃ g, c.done.group? c.k = some g ∧ Group.sameElse c.g g ∧ c.wentOn g c.nextPc ∧ g.regs = c.g.regs ∧ g.sys = c.g.sys := by
  refine ⟨rfl, ⟨rfl, rfl, rfl, rfl, rfl, ?_, ?_, rfl, rfl⟩, ?_⟩
  · intro j hj
    exact State.group?_setGroup_ne _ _ hj
  · intro j _; rfl
  · refine ⟨(c.advance c.nextPc).g, State.group?_setGroup _ _ _, rfl, ⟨⟨(c.advance c.nextPc).sp, ?_, rfl, rfl, rfl, rfl, rfl, rfl⟩, ?_⟩, rfl, rfl⟩
    · exact split?_setSplit (sp := (c.advance c.nextPc).sp) h
    · intro j hj
      exact split?_setSplit_ne (sp := (c.advance c.nextPc).sp) hj

/-! ## Writing a result -/

/-- Popping operands leaves everything but the team's k-queues, which lose their oldest entries (R184). -/
theorem pops_spec (c : Cx) :
    (c.pops c.i.uses).g = c.g ∧ (c.pops c.i.uses).sp = c.sp ∧ (c.pops c.i.uses).k = c.k ∧ (c.pops c.i.uses).i = c.i ∧
      State.sameOutside c.s (c.pops c.i.uses).s c.k c.g.info.team ∧
      (c.pops c.i.uses).s.group? c.k = c.s.group? c.k ∧
      ∀ q < 4, (c.pops c.i.uses).s.kvalues c.g.info.team q =
        (c.s.kvalues c.g.info.team q).drop (Uses.popsOf c.i.uses q) := by
  unfold Cx.pops
  split
  · rename_i h
    have h0 : ∀ q, Uses.popsOf c.i.uses q = 0 := by
      intro q; unfold Uses.popsOf; rw [List.isEmpty_iff.1 h]; rfl
    exact ⟨rfl, rfl, rfl, rfl, ⟨rfl, rfl, rfl, rfl, rfl, fun _ _ => rfl, fun _ _ => rfl, rfl, rfl⟩, rfl,
      fun q _ => by rw [h0, List.drop_zero]⟩
  · refine ⟨rfl, rfl, rfl, rfl, ?_⟩
    simp only [State.onTeam]
    split
    · rename_i m hm
      refine ⟨⟨rfl, rfl, rfl, rfl, rfl, fun _ _ => rfl, fun j hj => State.team?_setTeam_ne _ _ hj, ?_, rfl⟩, rfl, ?_⟩
      · rw [State.team?_setTeam, hm]; rfl
      · intro q hq
        unfold State.kvalues
        rw [State.team?_setTeam, hm]
        simp only [Option.map_some, Option.getD_some, ← List.map_drop]
        congr 1
        unfold popQueues Uses.popsOf
        simp only [List.foldl_cons, List.foldl_nil]
        rcases (by omega : q = 0 ∨ q = 1 ∨ q = 2 ∨ q = 3) with rfl | rfl | rfl | rfl <;>
          simp
    · rename_i hm
      refine ⟨⟨rfl, rfl, rfl, rfl, rfl, fun _ _ => rfl, fun _ _ => rfl, rfl, rfl⟩, rfl, ?_⟩
      intro q _
      unfold State.kvalues
      rw [hm]
      simp

/-- One push onto the result queue (R179, R191). -/
theorem push_aged (g : Group) (lanes act : Mask) (x : LaneReg) {n l : Nat} (hn : n < 16) (hl : l < 32) :
    ((g.push lanes act x).aged n).lane l =
      if lanes.has l then (if n = 0 then (if act.has l then x.lane l else 0) else (g.aged (n - 1)).lane l)
      else (g.aged n).lane l := by
  unfold Group.push Group.onRegs
  simp only [Group.aged, List.getD_eq_getElem?_getD, List.getElem?_map, List.getElem?_range hn, Option.map_some, Option.getD_some]
  exact lane_ofFn _ hl

/-- A named register after a masked write (R191). -/
theorem setReg_reg (g : Group) (i : Nat) (m : Mask) (x : LaneReg) {n l : Nat} (hn : n < 24) (hl : l < 32) :
    ((g.setReg i m x).reg n).lane l = if i = n ∧ m.has l then x.lane l else (g.reg n).lane l := by
  unfold Group.setReg Group.onRegs
  rw [Group.reg, getD_set _ _ _ _ _ hn]
  by_cases h : i = n
  · subst h
    rw [if_pos rfl, LaneReg.merge, lane_ofFn _ hl]
    by_cases hm : m.has l = true <;> simp [hm]
  · rw [if_neg h, if_neg (fun hh => h hh.1)]
    rfl

/-- Writing a result: the group afterwards (R179, R191). -/
theorem write_group (c : Cx) (d : Dst) (act : Mask) (x : LaneReg) :
    let h := (c.write d act x).g
    (c.write d act x).sp = c.sp ∧ (c.write d act x).k = c.k ∧ (c.write d act x).i = c.i ∧ Group.sameElse c.g h ∧
      h.splits = c.g.splits ∧ h.sys = c.g.sys ∧ c.pushed act (fun l => x.lane l) h ∧
      { h.regs with v := c.g.regs.v, rq := c.g.regs.rq } = c.g.regs ∧
      ∀ n < 24, ∀ l < 32, (h.reg n).lane l = if Dst.isReg d n && act.has l then x.lane l else (c.g.reg n).lane l := by
  have hp : ∀ g : Group, g.regs.rq = (c.g.push c.sp.lanes act x).regs.rq → c.pushed act (fun l => x.lane l) g := by
    intro g hg l hl n hn
    have : g.aged n = (c.g.push c.sp.lanes act x).aged n := by unfold Group.aged; rw [hg]
    rw [this, push_aged _ _ _ _ hn hl]
  cases d with
  | v r =>
    refine ⟨rfl, rfl, rfl, rfl, rfl, rfl, hp _ rfl, rfl, ?_⟩
    intro n hn l hl
    show (((c.g.push c.sp.lanes act x).setReg r.val act x).reg n).lane l = _
    rw [setReg_reg _ _ _ _ hn hl]
    simp only [Dst.isReg, Bool.and_eq_true, beq_iff_eq]
    rfl
  | none => exact ⟨rfl, rfl, rfl, rfl, rfl, rfl, hp _ rfl, rfl, fun n _ l _ => by simp [Dst.isReg]; rfl⟩
  | k q =>
    have hk : ∀ c' : Cx, ∀ y b, ((c'.kpush q.val y b).2.g.regs = c'.g.regs ∧ (c'.kpush q.val y b).2.sp = c'.sp ∧
        (c'.kpush q.val y b).2.k = c'.k ∧ (c'.kpush q.val y b).2.i = c'.i ∧ Group.sameElse c'.g (c'.kpush q.val y b).2.g ∧
        (c'.kpush q.val y b).2.g.splits = c'.g.splits ∧ (c'.kpush q.val y b).2.g.sys = c'.g.sys) := by
      intro c' y b
      unfold Cx.kpush
      split
      · exact ⟨rfl, rfl, rfl, rfl, rfl, rfl, rfl⟩
      · refine ⟨?_, rfl, rfl, rfl, ?_, ?_, ?_⟩ <;> (simp only; split <;> rfl)
    obtain ⟨h1, h2, h3, h4, h5, h6, h7⟩ := hk { c with g := c.g.push c.sp.lanes act x } (LaneReg.merge act x LaneReg.zero) true
    refine ⟨h2, h3, h4, ?_, h6, h7, hp _ (congrArg Regs.rq h1), ?_, ?_⟩
    · exact congrArg (fun y : Group => { y with regs := c.g.regs, pend := c.g.pend, late := c.g.late }) h5
    · show { ((({ c with g := c.g.push c.sp.lanes act x } : Cx).kpush q.val (LaneReg.merge act x LaneReg.zero) true).2.g).regs with
          v := c.g.regs.v, rq := c.g.regs.rq } = c.g.regs
      rw [h1]; rfl
    · intro n hn l hl
      have : (c.write (.k q) act x).g.reg n = c.g.reg n := by
        show (({ c with g := c.g.push c.sp.lanes act x } : Cx).kpush q.val (LaneReg.merge act x LaneReg.zero) true).2.g.reg n = _
        unfold Group.reg; rw [h1]; rfl
      rw [this]
      simp [Dst.isReg]

/-- Writing a result: the state around the group (R184). -/
theorem write_state (c : Cx) (d : Dst) (act : Mask) (x : LaneReg) (ht : (c.s.team? c.g.info.team).isSome = true) :
    State.sameOutside c.s (c.write d act x).s c.k c.g.info.team ∧
      ∀ q < 4, (c.write d act x).s.kvalues c.g.info.team q =
        c.s.kvalues c.g.info.team q ++ (if Dst.isQueue d q then [LaneReg.merge act x LaneReg.zero] else []) := by
  have same : State.sameOutside c.s c.s c.k c.g.info.team :=
    ⟨rfl, rfl, rfl, rfl, rfl, fun _ _ => rfl, fun _ _ => rfl, rfl, rfl⟩
  cases d with
  | v r => exact ⟨same, fun q _ => by simp [Dst.isQueue]; rfl⟩
  | none => exact ⟨same, fun q _ => by simp [Dst.isQueue]; rfl⟩
  | k r =>
    obtain ⟨m, hm⟩ := Option.isSome_iff_exists.1 ht
    have hw : (c.write (.k r) act x).s = c.s.setTeam c.g.info.team { m with
        nextK := m.nextK + 1
        kq := m.kq.setIfInBounds r.val (m.kq.toArray.toList.getD r.val [] ++
          [⟨m.nextK, LaneReg.merge act x LaneReg.zero, true, !c.g.inRegion, c.s.clock.cycle + 4⟩]) } := by
      show (({ c with g := c.g.push c.sp.lanes act x } : Cx).kpush r.val (LaneReg.merge act x LaneReg.zero) true).2.s = _
      unfold Cx.kpush
      have : ({ c with g := c.g.push c.sp.lanes act x } : Cx).s.team? ({ c with g := c.g.push c.sp.lanes act x } : Cx).g.info.team
          = some m := hm
      rw [this]
      rfl
    rw [hw]
    refine ⟨⟨rfl, rfl, rfl, rfl, rfl, fun _ _ => rfl, fun j hj => State.team?_setTeam_ne _ _ hj, ?_, rfl⟩, ?_⟩
    · rw [State.team?_setTeam, hm]; rfl
    · intro q hq
      unfold State.kvalues
      rw [State.team?_setTeam, hm]
      simp only [Option.map_some, Option.getD_some, getD_set _ _ _ _ _ hq, Dst.isQueue, beq_iff_eq]
      split <;> simp_all

/-- Changes outside a group and its team, one after the other. -/
theorem sameOutside_trans {s t u : State} {k m : Nat} (h : State.sameOutside s t k m) (h' : State.sameOutside t u k m) :
    State.sameOutside s u k m := by
  obtain ⟨a, b, c, d, e, f, g, i, j⟩ := h
  obtain ⟨a', b', c', d', e', f', g', i', j'⟩ := h'
  refine ⟨a'.trans a, b'.trans b, c'.trans c, d'.trans d, e'.trans e, fun n hn => (f' n hn).trans (f n hn),
    fun n hn => (g' n hn).trans (g n hn), i'.trans i, ?_⟩
  rw [← j]
  exact congrArg (fun w : Work => { w with groups := s.work.groups, teams := s.work.teams }) j'

/-- A WORD WITH ONE RESULT: popping, raising flags, writing and going on to the next word leave what `Cx.Wrote` says. -/
theorem wrote_done (c : Cx) (d : Dst) (act : Mask) (x : LaneReg) (fl : BitVec 5) (hs : (c.g.split? c.sp.id).isSome = true)
    (ht : (c.s.team? c.g.info.team).isSome = true) :
    let c₁ := (c.pops c.i.uses).write d act x
    c.Wrote d act (fun l => x.lane l) fl ({ c₁ with g := c₁.g.raiseFlags fl } : Cx).done := by
  intro c₁
  obtain ⟨p1, p2, p3, p4, p5, p6, p7⟩ := pops_spec c
  obtain ⟨g1, g2, g3, g4, g5, g6, g7, g8, g9⟩ := write_group (c.pops c.i.uses) d act x
  have htp : ((c.pops c.i.uses).s.team? (c.pops c.i.uses).g.info.team).isSome = true := by
    rw [p1]
    have := congrArg Option.isSome p5.2.2.2.2.2.2.2.1
    simp only [Option.isSome_map] at this
    rw [this]; exact ht
  obtain ⟨w1, w2⟩ := write_state (c.pops c.i.uses) d act x htp
  have hinfo : c₁.g.info = c.g.info := by
    have := congrArg Group.info g4
    rw [p1] at this
    exact this
  have hsp : c₁.sp = c.sp := g1.trans p2
  have hk : c₁.k = c.k := g2.trans p3
  have hi : c₁.i = c.i := g3.trans p4
  have hsome : (({ c₁ with g := c₁.g.raiseFlags fl } : Cx).g.split? ({ c₁ with g := c₁.g.raiseFlags fl } : Cx).sp.id).isSome = true := by
    show ((c₁.g.split? c₁.sp.id)).isSome = true
    rw [hsp]
    unfold Group.split? at *
    rw [show c₁.g.splits = c.g.splits from g5.trans (congrArg Group.splits p1)]
    exact hs
  obtain ⟨d1, d2, h, d3, d4, d5, d6, d7⟩ := done_spec hsome
  rw [p1, p3] at w1
  rw [p1] at w2
  have hout : State.sameOutside c.s ({ c₁ with g := c₁.g.raiseFlags fl } : Cx).done c.k c.g.info.team := by
    refine sameOutside_trans p5 (sameOutside_trans w1 ?_)
    have key : ∀ (u : State) (k m : Nat), k = c.k → m = c.g.info.team → State.sameOutside c₁.s u k m →
        State.sameOutside c₁.s u c.k c.g.info.team := by
      intro u k m e1 e2 e3
      rw [← e1, ← e2]; exact e3
    exact key _ _ _ hk (congrArg GroupInfo.team hinfo) d2
  refine ⟨d1, hout, ?_, h, ?_, ?_, ?_, ?_, ?_, ?_, ?_⟩
  · intro q hq
    show c₁.s.kvalues c.g.info.team q = _
    rw [w2 q hq, p7 q hq]
    congr 1
  · rw [← hk]; exact d3
  · unfold Group.sameElse at *
    rw [p1] at g4
    have e1 := congrArg (fun y : Group => { y with regs := c.g.regs, sys := c.g.sys, splits := c.g.splits, pend := c.g.pend, late := c.g.late, region := c.g.region }) d4
    exact e1.trans g4
  · obtain ⟨⟨sp, a1, a2, a3, a4, a5, a6, a7⟩, b⟩ := d5
    have hsp' : ({ c₁ with g := c₁.g.raiseFlags fl } : Cx).sp = c.sp := hsp
    have hi' : ({ c₁ with g := c₁.g.raiseFlags fl } : Cx).i = c.i := hi
    rw [hsp'] at a1 a4 a5 a6 a7 b
    refine ⟨⟨sp, a1, ?_, a3, a4, a5, a6, a7⟩, ?_⟩
    · rw [a2]; unfold Cx.nextPc; rw [hsp', hi']
    · intro j hj
      rw [b j hj]
      unfold Group.split?
      rw [show ({ c₁ with g := c₁.g.raiseFlags fl } : Cx).g.splits = c.g.splits from g5.trans (congrArg Group.splits p1)]
  · intro l hl n hn
    have := g7 l hl n hn
    rw [p1, p2] at this
    rw [← this]
    unfold Group.aged
    rw [d6]
    rfl
  · rw [d7]
    show ({ c₁.g.sys with fflags := c₁.g.sys.fflags ||| fl } : SysRegs) = _
    rw [show c₁.g.sys = c.g.sys from g6.trans (congrArg Group.sys p1)]
  · rw [d6]
    show ({ c₁.g.regs with v := c.g.regs.v, rq := c.g.regs.rq } : Regs) = _
    rw [p1] at g8; exact g8
  · intro n hn l hl
    have := g9 n hn l hl
    rw [p1] at this
    rw [← this]
    unfold Group.reg
    rw [d6]
    rfl

/-- A predicate after a masked write (R191). -/
theorem setPred_pred (g : Group) (i : Nat) (m x : Mask) {n : Nat} (hn : n < 12) (l : Nat) :
    ((g.setPred i m x).pred n).has l = if i = n ∧ m.has l then x.has l else (g.pred n).has l := by
  unfold Group.setPred Group.onRegs
  rw [Group.pred, getD_set _ _ _ _ _ hn]
  by_cases h : i = n
  · subst h
    rw [if_pos rfl]
    unfold Mask.has
    by_cases hm : m.getLsbD l = true
    · simp [hm]
    · have hf : m.getLsbD l = false := by simpa using hm
      have hlt : l < 32 ∨ 32 ≤ l := by omega
      rcases hlt with hlt | hlt
      · simp only [BitVec.getLsbD_or, BitVec.getLsbD_and, BitVec.getLsbD_not, hf, hlt]
        simp
      · simp [BitVec.getLsbD_of_ge _ _ hlt]
  · rw [if_neg h, if_neg (fun hh => h hh.1)]
    rfl

/-- A COMPARE: popping, writing the predicate and its complement, raising flags and going on leave what `Cx.Compared` says. -/
theorem compared_done (c : Cx) (d : PDst) (act x : Mask) (fl : BitVec 5) (hs : (c.g.split? c.sp.id).isSome = true) :
    let c₁ := c.pops c.i.uses
    c.Compared d act (fun l => x.has l) fl ({ c₁ with g := (c₁.g.setCompare d act x).raiseFlags fl } : Cx).done := by
  intro c₁
  obtain ⟨p1, p2, p3, p4, p5, p6, p7⟩ := pops_spec c
  have hg : (c₁.g.setCompare d act x) = c.g.setCompare d act x := by rw [show c₁.g = c.g from p1]
  have hsome : (({ c₁ with g := (c₁.g.setCompare d act x).raiseFlags fl } : Cx).g.split?
      ({ c₁ with g := (c₁.g.setCompare d act x).raiseFlags fl } : Cx).sp.id).isSome = true := by
    show ((c₁.g.setCompare d act x).split? c₁.sp.id).isSome = true
    rw [hg, show c₁.sp = c.sp from p2]
    unfold Group.setCompare Group.split? at *
    split <;> exact hs
  obtain ⟨d1, d2, h, d3, d4, d5, d6, d7⟩ := done_spec hsome
  have hinfo : (c.g.setCompare d act x).info = c.g.info := by unfold Group.setCompare; split <;> rfl
  have helse : Group.sameElse c.g (c.g.setCompare d act x) := by
    unfold Group.sameElse Group.setCompare; split <;> rfl
  have hsplits : (c.g.setCompare d act x).splits = c.g.splits := by unfold Group.setCompare; split <;> rfl
  have hsys : (c.g.setCompare d act x).sys = c.g.sys := by unfold Group.setCompare; split <;> rfl
  refine ⟨d1, ?_, fun q hq => p7 q hq, h, ?_, ?_, ?_, ?_, ?_, ?_⟩
  · refine sameOutside_trans p5 ?_
    have key : ∀ (u : State) (k m : Nat), k = c.k → m = c.g.info.team → State.sameOutside c₁.s u k m →
        State.sameOutside c₁.s u c.k c.g.info.team := by
      intro u k m e1 e2 e3
      rw [← e1, ← e2]; exact e3
    refine key _ _ _ p3 ?_ d2
    show ((c₁.g.setCompare d act x).info.team) = _
    rw [hg, hinfo]
  · have : c₁.k = c.k := p3
    rw [← this]; exact d3
  · unfold Group.sameElse at *
    have e1 := congrArg (fun y : Group => { y with regs := c.g.regs, sys := c.g.sys, splits := c.g.splits, pend := c.g.pend, late := c.g.late, region := c.g.region }) d4
    refine e1.trans ?_
    show ({ (c₁.g.setCompare d act x) with regs := c.g.regs, sys := c.g.sys, splits := c.g.splits, pend := c.g.pend, late := c.g.late, region := c.g.region } : Group) = _
    rw [hg]; exact helse
  · obtain ⟨⟨sp, a1, a2, a3, a4, a5, a6, a7⟩, b⟩ := d5
    have hsp' : c₁.sp = c.sp := p2
    refine ⟨⟨sp, ?_, ?_, a3, ?_, ?_, ?_, ?_⟩, ?_⟩
    · rw [← hsp']; exact a1
    · rw [a2]; unfold Cx.nextPc; show c₁.sp.pc.add c₁.i.width = _; rw [hsp', show c₁.i = c.i from p4]
    · rw [a4]; show c₁.sp.m = _; rw [hsp']
    · rw [a5]; show c₁.sp.lanes = _; rw [hsp']
    · rw [a6]; show c₁.sp.stack = _; rw [hsp']
    · rw [a7]; show c₁.sp.rets = _; rw [hsp']
    · intro j hj
      rw [b j (by show j ≠ c₁.sp.id; rw [hsp']; exact hj)]
      show ((c₁.g.setCompare d act x).split? j) = _
      rw [hg]; unfold Group.split?; rw [hsplits]
  · rw [d7]
    show ({ (c₁.g.setCompare d act x).sys with fflags := (c₁.g.setCompare d act x).sys.fflags ||| fl } : SysRegs) = _
    rw [hg, hsys]
  · rw [d6]
    show ({ (c₁.g.setCompare d act x).regs with p := c.g.regs.p } : Regs) = _
    rw [hg]; unfold Group.setCompare; split <;> rfl
  · intro n hn l hl
    have e : h.pred n = (c.g.setCompare d act x).pred n := by
      unfold Group.pred; rw [d6]
      show (c₁.g.setCompare d act x).regs.p.toArray.toList.getD n 0 = _
      rw [hg]
    rw [e]
    unfold Group.setCompare
    cases hk : d.k
    · simp only [Bool.false_eq_true, if_false, setPred_pred _ _ _ _ hn, Bool.false_and, Bool.and_eq_true, decide_eq_true_eq]
      by_cases h1 : d.p.val = n
      · subst h1; simp
      · simp [h1, Ne.symm h1]
    · have h32 : (~~~x).has l = !x.has l := by
        unfold Mask.has; simp [hl]
      simp only [if_true, setPred_pred _ _ _ _ hn, h32, Bool.true_and, Bool.and_eq_true, decide_eq_true_eq]
      by_cases h1 : d.p.val = n
      · subst h1; simp
      · by_cases h2 : d.p.val + 1 = n
        · subst h2; simp
        · simp [h1, Ne.symm h1, h2, Ne.symm h2]

end Sys2Proof.Machine
end

