-- ==== Sys2Proof/Laws/Control.lean ====
section
/-! SUPPORT. What the shared operations around a word leave: a held word, a trace packet, taking a trap and returning from
one, and a pending result. -/

namespace Sys2Proof.Machine

/-- A held word has done nothing: its split waits, and memory, the clock, the engines and the other groups are as before. -/
theorem held_spec (c : Cx) (w : Hold) (h : (c.g.split? c.sp.id).isSome = true) :
    c.Holds w (c.held w) ∧ (c.held w).ms = c.s.ms ∧ (c.held w).vm = c.s.vm ∧ (c.held w).eng = c.s.eng ∧
      (c.held w).pkg = c.s.pkg ∧ (c.held w).clock = c.s.clock ∧ (c.held w).work.teams = c.s.work.teams ∧
      ∀ j, j ≠ c.k → (c.held w).group? j = c.s.group? j := by
  refine ⟨⟨rfl, ?_⟩, rfl, rfl, rfl, rfl, rfl, rfl, fun j hj => NMap.get?_set_ne _ _ hj⟩
  unfold Cx.held
  exact ⟨_, _, NMap.get?_set_self _ _ _, split?_setSplit (by simpa using h), rfl, rfl, rfl, rfl⟩

/-- A group with other trace marks only. -/
def Group.retraced (g h : Group) : Prop :=
  { h with traceOn := g.traceOn, lastSync := g.lastSync, lostTrace := g.lostTrace } = g

/-- What a trace packet may change: the trace queues of the package, and the trace marks of the group. -/
def State.traced (s t : State) (k : Nat) : Prop :=
  t.clock = s.clock ∧ t.ms = s.ms ∧ t.vm = s.vm ∧ t.eng = s.eng ∧ t.last = s.last ∧ { t.pkg with traceq := s.pkg.traceq } = s.pkg ∧
    { t.work with groups := s.work.groups } = s.work ∧ (∀ j, j ≠ k → t.group? j = s.group? j) ∧
    ∀ g, s.group? k = some g → ∃ h, t.group? k = some h ∧ Group.retraced g h

theorem State.traced_refl (s : State) (k : Nat) : State.traced s s k :=
  ⟨rfl, rfl, rfl, rfl, rfl, rfl, rfl, fun _ _ => rfl, fun g hg => ⟨g, hg, rfl⟩⟩

theorem State.traced_trans {s t u : State} {k : Nat} (h : State.traced s t k) (h' : State.traced t u k) : State.traced s u k := by
  obtain ⟨a, b, c, d, e, f, w, o, g⟩ := h
  obtain ⟨a', b', c', d', e', f', w', o', g'⟩ := h'
  refine ⟨a'.trans a, b'.trans b, c'.trans c, d'.trans d, e'.trans e, ?_, ?_, fun j hj => (o' j hj).trans (o j hj), ?_⟩
  · rw [← f, ← f']
  · rw [← w, ← w']
  · intro x hx
    obtain ⟨y, hy, hxy⟩ := g x hx
    obtain ⟨z, hz, hyz⟩ := g' y hy
    refine ⟨z, hz, ?_⟩
    simp only [Group.retraced] at *
    rw [← hxy, ← hyz]

theorem State.traced_ite {s t u : State} {k : Nat} {p : Prop} [Decidable p] (h : State.traced s t k) (h' : State.traced s u k) :
    State.traced s (if p then t else u) k := by
  split
  · exact h
  · exact h'

/-- A trace packet. -/
theorem traceEnter_spec (s : State) (k split ty payload : Nat) (extra : List W64) :
    State.traced s (traceEnter s k split ty payload extra) k := by
  unfold traceEnter
  dsimp only
  split
  · split
    · exact State.traced_refl s k
    · rename_i g hg
      have key : ∀ q h, Group.retraced g h →
          State.traced s ((s.onPkg fun p => { p with traceq := NMap.set p.traceq (coreOf k) q }).setGroup k h) k := by
        intro q h hh
        refine ⟨rfl, rfl, rfl, rfl, rfl, rfl, rfl, fun j hj => NMap.get?_set_ne _ _ hj, fun x hx => ?_⟩
        rw [hg] at hx
        cases hx
        exact ⟨h, NMap.get?_set_self _ _ _, hh⟩
      exact State.traced_ite (key _ _ rfl) (key _ _ rfl)
  · exact State.traced_refl s k

theorem traceBranch_spec (s : State) (k split : Nat) (pc : Pc) : State.traced s (traceBranch s k split pc) k := by
  unfold traceBranch
  split
  · split
    · exact traceEnter_spec ..
    · exact State.traced_refl ..
  · exact State.traced_refl ..

theorem traceMask_spec (s : State) (k split : Nat) (old new : Mask) : State.traced s (traceMask s k split old new) k := by
  unfold traceMask
  split
  · split
    · exact traceEnter_spec ..
    · exact State.traced_refl ..
  · exact State.traced_refl ..

theorem traceNote_spec (s : State) (k split ty payload : Nat) : State.traced s (traceNote s k split ty payload) k := by
  unfold traceNote
  split
  · split
    · exact traceEnter_spec ..
    · exact State.traced_refl ..
  · exact State.traced_refl ..

/-- A partner that takes its operands back changes the engines alone. -/
theorem dropJoint_spec (s : State) (k : Nat) (g : Group) (sp : Split) :
    (∃ f, dropJoint s k g sp = s.onEng f) ∧ (sp.hold ≠ some (.wait .mmaj) → dropJoint s k g sp = s) := by
  unfold dropJoint
  split
  · exact ⟨⟨_, rfl⟩, fun h => absurd ‹_› h⟩
  · exact ⟨⟨id, rfl⟩, fun _ => rfl⟩

/-- A group with nothing pending and no trap waiting has nothing to settle. -/
theorem settleTraps_spec {s : State} {k : Nat} {g : Group} (hg : s.group? k = some g) (ht : g.traps = []) (hd : g.drain = false) :
    settleTraps s k = s := by
  unfold settleTraps
  rw [hg]
  simp only [ht, List.filter_nil, hd, Bool.false_eq_true, if_false]
  split
  · split
    · rename_i e
      cases e
    · rfl
  · rfl

/-- Words that are written become pending: one entry joins the group's list, and of its registers only the result queue
changes (R179, R208). -/
theorem later_spec (c : Cx) (on : PendOn) (act : Mask) (regs : List Nat) (vals : List LaneReg) (kq : Option (Nat × Nat))
    (flags : BitVec 5) (flagLanes : Mask) (trap : Option DelivTrap) (stamp : Nat) :
    let c' := c.later on act regs vals kq flags flagLanes trap stamp
    c'.s = c.s ∧ c'.k = c.k ∧ c'.sp = c.sp ∧ c'.i = c.i ∧ c'.g.sys = c.g.sys ∧ c'.g.info = c.g.info ∧
      c'.g.splits = c.g.splits ∧ { c'.g.regs with rq := c.g.regs.rq } = c.g.regs ∧
      ∃ p : Pending, c'.g.pend.getLast? = some p ∧ c'.g.pend.length = c.g.pend.length + 1 ∧ p.on = on ∧ p.act = act ∧ p.regs = regs ∧ p.vals = vals ∧ p.kq = kq ∧
        p.flags = flags ∧ p.trap = trap ∧ p.stamp = stamp := by
  have key : ∀ (l : List Nat) (g : Group), let h := l.foldl (fun g _ => g.push c.sp.lanes 0 LaneReg.zero) g
      h.sys = g.sys ∧ h.info = g.info ∧ h.splits = g.splits ∧ { h.regs with rq := g.regs.rq } = g.regs ∧ h.pend.length = g.pend.length := by
    intro l
    induction l with
    | nil => intro g; exact ⟨rfl, rfl, rfl, rfl, rfl⟩
    | cons a l ih =>
      intro g
      obtain ⟨h1, h2, h3, h4, h5⟩ := ih (g.push c.sp.lanes 0 LaneReg.zero)
      refine ⟨h1.trans rfl, h2.trans rfl, h3.trans rfl, ?_, ?_⟩
      · rw [List.foldl_cons]
        have : (g.push c.sp.lanes 0 LaneReg.zero).regs = { g.regs with rq := (g.push c.sp.lanes 0 LaneReg.zero).regs.rq } := rfl
        rw [this] at h4
        exact congrArg (fun r : Regs => { r with rq := g.regs.rq }) h4
      · rw [List.foldl_cons, h5]
        simp [Group.push, Group.onRegs]
  obtain ⟨h1, h2, h3, h4, h5⟩ := key (List.range vals.length) c.g
  refine ⟨rfl, rfl, rfl, rfl, h1, h2, h3, h4, _, List.getLast?_concat .., ?_, rfl, rfl, rfl, rfl, rfl, rfl, rfl, rfl⟩
  refine (List.length_append
    (as := ((List.range vals.length).foldl (fun g _ => g.push c.sp.lanes 0 LaneReg.zero) c.g).pend) (bs := [_])).trans ?_
  rw [h5]
  rfl

/-- A trap with a handler, outside handler mode: the frame is written, the trap slot holds what RTT gives back, and the split stands
at the handler with empty stacks; memory stays as it was (R436). -/
theorem takeTrap_handled {s : State} {k split : Nat} {t : Trap} {xpc rp : Pc} {g : Group} {sp : Split} {hp : Nat}
    (hg : s.group? k = some g) (hs : g.split? split = some sp) (hh : g.info.handler = some hp) (ht : g.trap = none) :
    let u := takeTrap s k split t xpc rp false
    u.last = .trapped ∧ u.ms = s.ms ∧ u.vm = s.vm ∧ (sp.hold ≠ some (.wait .mmaj) → u.eng = s.eng) ∧ u.clock = s.clock ∧
      u.work.teams = s.work.teams ∧
      (∀ j, j ≠ k → u.group? j = s.group? j) ∧ ∃ h sp', u.group? k = some h ∧ h.regs = g.regs ∧
      h.sys = (g.frame xpc (t.mask.getD (sp.m &&& ~~~g.off)) t).sys ∧
      h.trap = some ⟨sp.id, sp.m, sp.stack, sp.rets, g.regs.rq, rp, false, g.reopen⟩ ∧ h.split? sp.id = some sp' ∧
      sp'.pc = ⟨hp, 0⟩ ∧ sp'.stack = [] ∧ sp'.rets = [] ∧ sp'.hold = none ∧
      sp'.m = if sp.m = 0 then sp.lanes &&& ~~~(g.off ||| g.gone) else sp.m := by
  have hid : sp.id = split := by simpa using List.find?_some hs
  intro u
  obtain ⟨⟨f, hf⟩, hf'⟩ := dropJoint_spec { s with last := .trapped } k { g with late := [], emu := none } sp
  set s₀ : State := dropJoint { s with last := .trapped } k { g with late := [], emu := none } sp with hs0
  have e0 : s₀.last = .trapped ∧ s₀.ms = s.ms ∧ s₀.vm = s.vm ∧ (sp.hold ≠ some (.wait .mmaj) → s₀.eng = s.eng) ∧
      s₀.clock = s.clock ∧ s₀.work = s.work := by
    refine ⟨?_, ?_, ?_, fun h => by rw [hf' h], ?_, ?_⟩ <;> rw [hf] <;> rfl
  set g₁ := ({ g with late := [], emu := none } : Group).frame xpc (t.mask.getD (sp.m &&& ~~~g.off)) t with hg1
  set s₁ := traceNote (s₀.setGroup k g₁) k sp.id 4 (t.cause * 2 ^ 26) with hs1
  have h1 := traceNote_spec (s₀.setGroup k g₁) k sp.id 4 (t.cause * 2 ^ 26)
  obtain ⟨g₂, hg2, hr2⟩ := h1.2.2.2.2.2.2.2.2 g₁ (NMap.get?_set_self _ _ _)
  let g₃ : Group := { g₂ with trap := some ⟨sp.id, sp.m, sp.stack, sp.rets, g₂.regs.rq, rp, false, g₂.reopen⟩, reopen := .no }
  let sp₁ : Split :=
    { sp with
      pc := ⟨hp, 0⟩
      m := if sp.m = 0 then sp.lanes &&& ~~~(g₂.off ||| g₂.gone) else sp.m
      stack := []
      rets := []
      arrive := none
      hold := none
      waitStart := none
      waitTarget := none
      reread := 0
      got := []
      watch := []
      logMark := none }
  have e : u = traceMask (traceBranch (s₁.setGroup k (g₃.setSplit sp₁)) k sp.id ⟨hp, 0⟩) k sp.id sp.m sp₁.m := by
    show takeTrap s k split t xpc rp false = _
    have hsp : (({ g with late := [], emu := none } : Group).split? split).orElse (fun _ => g.splits.head?) = some sp := by
      rw [show ({ g with late := [], emu := none } : Group).split? split = some sp from hs]
      rfl
    unfold takeTrap
    dsimp only
    rw [show ({ s with last := .trapped } : State).group? k = some g from hg]
    dsimp only
    rw [hsp]
    dsimp only
    rw [← hs0, show ({ g with late := [], emu := none } : Group).off = g.off from rfl, ← hg1, ← hs1, hg2,
      show g₁.info.handler = some hp from hh, show g₁.trap = none from ht]
    rfl
  have key : ∃ G x, State.traced (s₁.setGroup k G) u k ∧ G.regs = g₂.regs ∧ G.sys = g₂.sys ∧
      G.trap = some ⟨sp.id, sp.m, sp.stack, sp.rets, g₂.regs.rq, rp, false, g₂.reopen⟩ ∧ G.split? sp.id = some x ∧
      x.pc = ⟨hp, 0⟩ ∧ x.stack = [] ∧ x.rets = [] ∧ x.hold = none ∧
      x.m = if sp.m = 0 then sp.lanes &&& ~~~(g₂.off ||| g₂.gone) else sp.m := by
    have hsp : (g₃.split? sp₁.id).isSome = true := by
      show (g₂.split? sp.id).isSome = true
      unfold Group.split?
      rw [show g₂.splits = g.splits from (by have q := congrArg Group.splits hr2; exact q)]
      rw [hid]
      exact Option.isSome_iff_exists.mpr ⟨sp, hs⟩
    refine ⟨g₃.setSplit sp₁, sp₁, ?_, rfl, rfl, rfl, split?_setSplit hsp, rfl, rfl, rfl, rfl, rfl⟩
    rw [e]
    exact State.traced_trans (traceBranch_spec ..) (traceMask_spec ..)
  clear_value u
  obtain ⟨G, x, h2, r1, r2, r3, r4, r5, r6, r7, r8, r9⟩ := key
  obtain ⟨a1, a2, a3, a4, a5, -, a6, a7, -⟩ := h1
  obtain ⟨b1, b2, b3, b4, b5, -, b6, b7, b8⟩ := h2
  obtain ⟨h, hu, hr⟩ := b8 G (NMap.get?_set_self _ _ _)
  obtain ⟨c1, c2, c3, c4, c5, c6⟩ := e0
  refine ⟨(b5.trans a5).trans c1, (b2.trans a2).trans c2, (b3.trans a3).trans c3, fun w => (b4.trans a4).trans (c4 w),
    (b1.trans a1).trans c5, ?_, fun j hj => ?_, h, x, hu, ?_, ?_, ?_, ?_, r5, r6, r7, r8, ?_⟩
  · rw [← c6]
    exact (congrArg Work.teams b6).trans (by have q := congrArg Work.teams a6; exact q)
  · refine (b7 j hj).trans ((NMap.get?_set_ne _ _ hj).trans ((a7 j hj).trans ((NMap.get?_set_ne _ _ hj).trans ?_)))
    rw [c6]
    rfl
  · exact (congrArg Group.regs hr).trans (r1.trans (by have q := congrArg Group.regs hr2; exact q))
  · exact (congrArg Group.sys hr).trans (r2.trans (by have q := congrArg Group.sys hr2; exact q))
  · exact (congrArg Group.trap hr).trans (r3.trans (by
      rw [show g₂.regs = g.regs from (by have q := congrArg Group.regs hr2; exact q), show g₂.reopen = g.reopen from (by have q := congrArg Group.reopen hr2; exact q)]))
  · rw [← r4]
    unfold Group.split?
    rw [show h.splits = G.splits from (by have q := congrArg Group.splits hr; exact q)]
  · rw [r9, show g₂.off = g.off from (by have q := congrArg Group.off hr2; exact q), show g₂.gone = g.gone from (by have q := congrArg Group.gone hr2; exact q)]

/-- Returning from a handler while no trap waits: the mask without the lanes that have gone, both stacks and the result queue come
back, and the split resumes where RTT says; memory and the other groups stay as they were (R438). -/
theorem returnTrap_spec {s : State} {k : Nat} {ts : TrapSlot} {g : Group} {sp : Split}
    (hg : s.group? k = some g) (hs : g.split? ts.split = some sp) (hq : g.traps = []) (hd : g.drain = false) :
    let u := returnTrap s k ts
    u.ms = s.ms ∧ u.vm = s.vm ∧ u.eng = s.eng ∧ u.clock = s.clock ∧ u.work.teams = s.work.teams ∧
      (∀ j, j ≠ k → u.group? j = s.group? j) ∧ ∃ h sp', u.group? k = some h ∧
      h.regs = { g.regs with rq := ts.rq } ∧ h.sys = g.sys ∧ h.trap = none ∧ h.split? sp.id = some sp' ∧
      sp'.pc = (if ts.xpcWritten then ⟨g.sys.xpc.toNat / 4 % 2 ^ 32, g.sys.xpc.toNat % 4⟩ else ts.rp) ∧
      sp'.m = ts.m &&& ~~~(g.off ||| g.gone) ∧ sp'.stack = ts.stack ∧ sp'.rets = ts.rets ∧ sp'.hold = none := by
  intro u
  have hid : sp.id = ts.split := by simpa using List.find?_some hs
  let g₃ : Group :=
    { (g.onRegs fun r => { r with rq := ts.rq }) with
      trap := none
      late := []
      reopen := if ts.xpcWritten && ts.reopen == Reopen.now then .no else ts.reopen }
  let pc : Pc := if ts.xpcWritten then ⟨g.sys.xpc.toNat / 4 % 2 ^ 32, g.sys.xpc.toNat % 4⟩ else ts.rp
  let sp₁ : Split :=
    { sp with
      pc := pc
      m := ts.m &&& ~~~(g.off ||| g.gone)
      stack := ts.stack
      rets := ts.rets
      arrive := none
      hold := none
      lastIssue := s.clock.cycle }
  have hsp : (g₃.split? sp₁.id).isSome = true := by
    show (g.split? sp.id).isSome = true
    rw [hid]
    exact Option.isSome_iff_exists.mpr ⟨sp, hs⟩
  have h2 : State.traced (s.setGroup k (g₃.setSplit sp₁)) u k := by
    have h3 : State.traced (s.setGroup k (g₃.setSplit sp₁))
        (traceMask (traceBranch (s.setGroup k (g₃.setSplit sp₁)) k sp.id pc) k sp.id sp.m sp₁.m) k :=
      State.traced_trans (traceBranch_spec ..) (traceMask_spec ..)
    obtain ⟨y, hy, hr⟩ := h3.2.2.2.2.2.2.2.2 (g₃.setSplit sp₁) (NMap.get?_set_self _ _ _)
    have e : u = traceMask (traceBranch (s.setGroup k (g₃.setSplit sp₁)) k sp.id pc) k sp.id sp.m sp₁.m := by
      show returnTrap s k ts = _
      unfold returnTrap
      rw [hg]
      dsimp only
      rw [hs]
      exact settleTraps_spec hy ((by have q := congrArg Group.traps hr; exact q : y.traps = g.traps).trans hq)
        ((by have q := congrArg Group.drain hr; exact q : y.drain = g.drain).trans hd)
    rw [e]
    exact h3
  clear_value u
  obtain ⟨b1, b2, b3, b4, -, -, b6, b7, b8⟩ := h2
  obtain ⟨h, hu, hr⟩ := b8 (g₃.setSplit sp₁) (NMap.get?_set_self _ _ _)
  refine ⟨b2, b3, b4, b1, (by have q := congrArg Work.teams b6; exact q), fun j hj => ?_, h, sp₁, hu, ?_, ?_, ?_, ?_, rfl, rfl, rfl, rfl, rfl⟩
  · exact (b7 j hj).trans (NMap.get?_set_ne _ _ hj)
  · have q := congrArg Group.regs hr; exact q
  · have q := congrArg Group.sys hr; exact q
  · have q := congrArg Group.trap hr; exact q
  · refine Eq.trans ?_ (split?_setSplit hsp)
    unfold Group.split?
    rw [show h.splits = (g₃.setSplit sp₁).splits from (by have q := congrArg Group.splits hr; exact q)]

end Sys2Proof.Machine
end

