-- ==== Sys2Proof/Laws/Memory.lean ====
section
/-! SUPPORT. The list of memory bytes: reading what was written, and the canonical form, which every operation that writes
main memory, a scratchpad or a page image keeps. -/

namespace Sys2Proof.Machine

/-! ## The form as two plain facts -/

/-- A list is in its form when its addresses rise and it lists no zero. -/
theorem Memory.wf_iff (m : List Host.Cell) :
    Memory.wf m = true ↔ m.Pairwise (fun a b => a.1 < b.1) ∧ ∀ c ∈ m, c.2 ≠ 0 := by
  induction m with
  | nil => simp [Memory.wf]
  | cons c m ih =>
    obtain ⟨a, b⟩ := c
    cases m with
    | nil => simp [Memory.wf]
    | cons c' m =>
      obtain ⟨a', b'⟩ := c'
      simp only [Memory.wf, Bool.and_eq_true, bne_iff_ne, ne_eq, decide_eq_true_eq, ih]
      constructor
      · rintro ⟨⟨hb, ha⟩, hp, hn⟩
        refine ⟨List.pairwise_cons.2 ⟨?_, hp⟩, ?_⟩
        · intro x hx
          rcases List.mem_cons.1 hx with rfl | hx
          · exact ha
          · exact lt_trans ha ((List.pairwise_cons.1 hp).1 x hx)
        · intro x hx
          rcases List.mem_cons.1 hx with rfl | hx
          · exact hb
          · exact hn x hx
      · rintro ⟨hp, hn⟩
        obtain ⟨h1, h2⟩ := List.pairwise_cons.1 hp
        exact ⟨⟨hn _ List.mem_cons_self, h1 _ List.mem_cons_self⟩, h2, fun x hx => hn x (List.mem_cons_of_mem _ hx)⟩

/-- The tail of a list in its form is in its form. -/
theorem Memory.wf_tail {c : Host.Cell} {m : List Host.Cell} (h : Memory.wf (c :: m) = true) : Memory.wf m = true := by
  rw [Memory.wf_iff] at *
  exact ⟨(List.pairwise_cons.1 h.1).2, fun x hx => h.2 x (List.mem_cons_of_mem _ hx)⟩

/-! ## One byte -/

/-- Addresses listed after a write: those before it, and the one written. -/
theorem cellSet_mem {m : List Host.Cell} {x : Nat} {v : Byte} {c : Host.Cell} (h : c ∈ cellSet m x v) :
    c ∈ m ∨ (c = (x, v) ∧ v ≠ 0) := by
  induction m with
  | nil =>
    unfold cellSet at h
    split at h
    · cases h
    · simp only [List.mem_singleton] at h; exact .inr ⟨h, ‹_›⟩
  | cons d m ih =>
    obtain ⟨a, b⟩ := d
    unfold cellSet at h
    split at h
    · split at h
      · exact .inl h
      · rcases List.mem_cons.1 h with h | h
        · exact .inr ⟨h, ‹_›⟩
        · exact .inl h
    · split at h
      · split at h
        · exact .inl (List.mem_cons_of_mem _ h)
        · rcases List.mem_cons.1 h with h | h
          · exact .inr ⟨h, ‹_›⟩
          · exact .inl (List.mem_cons_of_mem _ h)
      · rcases List.mem_cons.1 h with h | h
        · exact .inl (h ▸ List.mem_cons_self)
        · rcases ih h with h | h
          · exact .inl (List.mem_cons_of_mem _ h)
          · exact .inr h

/-- Writing a byte keeps the canonical form. -/
theorem cellSet_wf {m : List Host.Cell} (h : Memory.wf m = true) (x : Nat) (v : Byte) :
    Memory.wf (cellSet m x v) = true := by
  rw [Memory.wf_iff] at *
  obtain ⟨hp, hn⟩ := h
  refine ⟨?_, ?_⟩
  · induction m with
    | nil => unfold cellSet; split <;> simp
    | cons d m ih =>
      obtain ⟨a, b⟩ := d
      obtain ⟨h1, h2⟩ := List.pairwise_cons.1 hp
      have hn' : ∀ c ∈ m, c.2 ≠ 0 := fun c hc => hn c (List.mem_cons_of_mem _ hc)
      unfold cellSet
      split
      · rename_i hx
        split
        · exact hp
        · refine List.pairwise_cons.2 ⟨?_, hp⟩
          intro c hc
          rcases List.mem_cons.1 hc with rfl | hc
          · exact hx
          · exact lt_trans hx (h1 c hc)
      · split
        · rename_i hx
          subst hx
          split
          · exact h2
          · exact List.pairwise_cons.2 ⟨fun c hc => h1 c hc, h2⟩
        · refine List.pairwise_cons.2 ⟨?_, ih h2 hn'⟩
          intro c hc
          rcases cellSet_mem hc with hc | ⟨rfl, -⟩
          · exact h1 c hc
          · simp only; omega
  · intro c hc
    rcases cellSet_mem hc with hc | ⟨rfl, h⟩
    · exact hn c hc
    · exact h

/-- An address below every listed one reads zero. -/
theorem cellGet_below {m : List Host.Cell} {x : Nat} (h : ∀ c ∈ m, x < c.1) : cellGet m x = 0 := by
  cases m with
  | nil => rfl
  | cons c m =>
    have := h c List.mem_cons_self
    unfold cellGet
    rw [if_neg (by omega), if_pos (by omega)]

/-- A read after a write: the written address gives the value, every other one what it gave before. -/
theorem cellGet_cellSet {m : List Host.Cell} (h : Memory.wf m = true) (x : Nat) (v : Byte) (y : Nat) :
    cellGet (cellSet m x v) y = if y = x then v else cellGet m y := by
  induction m with
  | nil =>
    unfold cellSet
    split
    · rename_i hv; subst hv; simp [cellGet]
    · unfold cellGet cellGet
      split
      · rename_i hx; rw [if_pos hx.symm]
      · rename_i hx; rw [if_neg (Ne.symm hx)]; split <;> rfl
  | cons d m ih =>
    obtain ⟨a, b⟩ := d
    have hr := ((Memory.wf_iff _).1 h).1
    have hlt := (List.pairwise_cons.1 hr).1
    have ih := ih (Memory.wf_tail h)
    unfold cellSet
    split
    · rename_i hx
      split
      · rename_i hv
        subst hv
        split
        · rename_i hy
          subst hy
          exact cellGet_below (by
            intro c hc
            rcases List.mem_cons.1 hc with rfl | hc
            · exact hx
            · exact lt_trans hx (hlt c hc))
        · rfl
      · rw [cellGet]
        split
        · rename_i hy; rw [if_pos hy.symm]
        · rename_i hy
          rw [if_neg (Ne.symm hy)]
          split
          · rename_i hy'
            rw [cellGet, if_neg (by omega), if_pos (by omega)]
          · rfl
    · split
      · rename_i hx
        subst hx
        split
        · rename_i hv
          subst hv
          split
          · rename_i hy
            subst hy
            exact cellGet_below hlt
          · rename_i hy
            rw [show cellGet ((a, b) :: m) y = if a = y then b else if y < a then 0 else cellGet m y from rfl, if_neg (Ne.symm hy)]
            split
            · exact cellGet_below (fun c hc => lt_trans ‹_› (hlt c hc))
            · rfl
        · rw [cellGet, cellGet]
          by_cases hy : a = y
          · simp [hy]
          · simp [hy, Ne.symm hy]
      · rename_i hxa hax
        rw [cellGet, ih]
        by_cases hy : a = y
        · subst hy
          rw [if_pos rfl, if_neg hax, cellGet, if_pos rfl]
        · rw [if_neg hy]
          rw [show cellGet ((a, b) :: m) y = if a = y then b else if y < a then 0 else cellGet m y from rfl, if_neg hy]
          by_cases hyx : y = x
          · subst hyx
            simp only [if_true]
            rw [if_neg hxa]
          · simp only [if_neg hyx]

/-! ## Operations over memories -/

/-- Writing one byte after another keeps the form. -/
theorem foldl_wf {α : Type} (l : List α) (f : List Host.Cell → α → List Host.Cell)
    (hf : ∀ m a, Memory.wf m = true → Memory.wf (f m a) = true) {m : List Host.Cell} (h : Memory.wf m = true) :
    Memory.wf (l.foldl f m) = true := by
  induction l generalizing m with
  | nil => exact h
  | cons a l ih => exact ih (hf m a h)

/-- Writing a run of bytes keeps the form. -/
theorem cellPut_wf {m : List Host.Cell} (h : Memory.wf m = true) (x : Nat) (bs : List Byte) :
    Memory.wf (cellPut m x bs) = true :=
  foldl_wf _ _ (fun _ _ h => cellSet_wf h _ _) h

/-- Part of a list in its form is in its form. -/
theorem filter_wf {m : List Host.Cell} (h : Memory.wf m = true) (p : Host.Cell → Bool) :
    Memory.wf (m.filter p) = true := by
  rw [Memory.wf_iff] at *
  exact ⟨h.1.filter p, fun c hc => h.2 c (List.mem_filter.1 hc).1⟩

/-- Storing into a sector of main memory keeps the form (R18, R78). -/
theorem setMemSector_wf {ms : MemSide} (h : Memory.wf ms.mem = true) (sec : Nat) (m : Word32) (x : Sector) :
    Memory.wf (setMemSector ms sec m x).mem = true :=
  foldl_wf _ _ (fun _ _ h => by split; exacts [cellSet_wf h _ _, h]) h

/-- Writing a granule of a scratchpad keeps the form (R88). -/
theorem Scratch.write_wf {sc : Scratch} (h : Memory.wf sc.bytes = true) (g : Nat) (m : Word32) (x : Sector) (p : Bool) :
    Memory.wf (sc.write g m x p).bytes = true :=
  foldl_wf _ _ (fun _ _ h => by split; exacts [cellSet_wf h _ _, h]) (by split; exacts [h, h])

/-- Expanding a page over a frame keeps the form (R68). -/
theorem expand_wf {m : List Host.Cell} (h : Memory.wf m = true) (p : Host.Cell → Bool) (pa : Nat) (cells : List Host.Cell) :
    Memory.wf (cells.foldl (fun m c => cellSet m (pa + c.1) c.2) (m.filter p)) = true :=
  foldl_wf _ _ (fun _ _ h => cellSet_wf h _ _) (filter_wf h p)

/-- Shifting addresses down by a page's base keeps the form: a page image (R67). -/
theorem pageCells_wf (s : State) (pa : Nat) (h : Memory.wf s.ms.mem = true) : Memory.wf (pageCells s pa) = true := by
  have hw := filter_wf h fun c => decide (pa ≤ c.1) && decide (c.1 < pa + 2 ^ 16)
  have hb : ∀ c ∈ s.ms.mem.filter (fun c => decide (pa ≤ c.1) && decide (c.1 < pa + 2 ^ 16)), pa ≤ c.1 := by
    intro c hc
    simpa using (And.left (by simpa using (List.mem_filter.1 hc).2) : pa ≤ c.1)
  rw [Memory.wf_iff] at *
  unfold pageCells
  refine ⟨List.pairwise_map.2 (hw.1.imp_of_mem ?_), ?_⟩
  · intro a b ha hb' hab
    have := hb a ha
    simp only
    omega
  · intro c hc
    obtain ⟨d, hd, rfl⟩ := List.mem_map.1 hc
    exact hw.2 d hd

/-! ## Sectors and bytes -/

/-- Byte `i` of a little-endian number. -/
theorem leNat_byte (l : List Byte) (i : Nat) : leNat l / 256 ^ i % 256 = (l.getD i 0).toNat := by
  induction l generalizing i with
  | nil => simp [leNat]
  | cons b l ih =>
    have hb := b.isLt
    cases i with
    | zero => simp [leNat]; omega
    | succ i =>
      rw [List.getD_cons_succ, ← ih i, Nat.pow_succ, Nat.mul_comm (256 ^ i), ← Nat.div_div_eq_div_mul]
      simp only [leNat]
      congr 2
      omega

theorem leNat_lt (l : List Byte) : leNat l < 256 ^ l.length := by
  induction l with
  | nil => simp [leNat]
  | cons b l ih =>
    have hb := b.isLt
    simp only [leNat, List.length_cons, Nat.pow_succ]
    omega

/-- Byte `i` of a sector built from bytes. -/
@[simp] theorem byte_ofBytes (f : Nat → Byte) {i : Nat} (h : i < 32) : Sector.byte (Sector.ofBytes f) i = f i := by
  apply BitVec.eq_of_toNat_eq
  have hl := leNat_lt ((List.range 32).map f)
  have hb := leNat_byte ((List.range 32).map f) i
  simp only [List.length_map, List.length_range] at hl
  rw [show ((List.range 32).map f).getD i 0 = f i by simp [List.getD_eq_getElem?_getD, h]] at hb
  unfold Sector.byte Sector.ofBytes
  generalize leNat ((List.range 32).map f) = n at hl hb ⊢
  rw [BitVec.toNat_setWidth, BitVec.toNat_ushiftRight, BitVec.toNat_ofNat, Nat.shiftRight_eq_div_pow, Nat.pow_mul,
    Nat.mod_eq_of_lt (lt_of_lt_of_eq hl (by norm_num))]
  exact hb

/-- Byte `i` of a merge. -/
@[simp] theorem byte_mergeBytes (m : Word32) (new old : Sector) {i : Nat} (h : i < 32) :
    Sector.byte (Sector.mergeBytes m new old) i = if m.getLsbD i then Sector.byte new i else Sector.byte old i := by
  unfold Sector.mergeBytes
  rw [byte_ofBytes _ h]

/-- A byte of main memory after a store into a sector: the stored bytes, and every other byte as it was (R18, R78). -/
theorem setMemSector_get {ms : MemSide} (h : Memory.wf ms.mem = true) (sec : Nat) (m : Word32) (x : Sector) (y : Nat) :
    cellGet (setMemSector ms sec m x).mem y =
      if y / 32 = sec ∧ m.getLsbD (y % 32) then Sector.byte x (y % 32) else cellGet ms.mem y := by
  have key : ∀ (n : Nat) (c : List Host.Cell), Memory.wf c = true →
      cellGet ((List.range n).foldl (fun c i => if m.getLsbD i then cellSet c (sec * 32 + i) (Sector.byte x i) else c) c) y =
        if sec * 32 ≤ y ∧ y < sec * 32 + n ∧ m.getLsbD (y - sec * 32) then Sector.byte x (y - sec * 32) else cellGet c y := by
    intro n c hc
    induction n with
    | zero => simp; omega
    | succ n ih =>
      rw [List.range_succ, List.foldl_append]
      simp only [List.foldl_cons, List.foldl_nil]
      have hw : Memory.wf ((List.range n).foldl (fun c i => if m.getLsbD i then cellSet c (sec * 32 + i) (Sector.byte x i) else c) c)
          = true := foldl_wf _ _ (fun _ _ h => by split; exacts [cellSet_wf h _ _, h]) hc
      by_cases hm : m.getLsbD n = true
      · rw [if_pos hm, cellGet_cellSet hw, ih]
        by_cases hy : y = sec * 32 + n
        · subst hy
          simp [hm]
        · rw [if_neg (by omega)]
          congr 1
          simp only [eq_iff_iff]
          constructor
          · rintro ⟨a, b, d⟩; exact ⟨a, by omega, d⟩
          · rintro ⟨a, b, d⟩; exact ⟨a, by omega, d⟩
      · rw [if_neg hm, ih]
        congr 1
        simp only [eq_iff_iff]
        constructor
        · rintro ⟨a, b, d⟩; exact ⟨a, by omega, d⟩
        · rintro ⟨a, b, d⟩
          refine ⟨a, ?_, d⟩
          by_contra hne
          have : y - sec * 32 = n := by omega
          rw [this] at d
          exact hm d
  refine (key 32 ms.mem h).trans ?_
  have e : y / 32 = sec → y - sec * 32 = y % 32 := by omega
  by_cases hy : y / 32 = sec
  · rw [e hy]
    congr 1
    simp only [eq_iff_iff]
    constructor
    · rintro ⟨a, b, d⟩; exact ⟨hy, d⟩
    · rintro ⟨a, d⟩; exact ⟨by omega, by omega, d⟩
  · rw [if_neg (by rintro ⟨a, b, -⟩; omega), if_neg (by rintro ⟨a, -⟩; exact hy a)]

/-! ## What the device's own accesses leave

Reads and writes of the base dies change memory with its caches, channels and times, and post records: the clock, translation,
the dispatcher and the engines stay as they were, and memory keeps its form. -/

/-- `t` has memory in its form when `s` has, and differs from `s` in memory and the package alone. -/
def State.memoryOnly (s t : State) : Prop :=
  (Memory.wf s.ms.mem = true → Memory.wf t.ms.mem = true) ∧ t.clock = s.clock ∧ t.vm = s.vm ∧ t.work = s.work ∧ t.eng = s.eng

theorem State.memoryOnly_refl (s : State) : s.memoryOnly s := ⟨id, rfl, rfl, rfl, rfl⟩

theorem State.memoryOnly.andThen {s t u : State} (h : s.memoryOnly t) (k : t.memoryOnly u) : s.memoryOnly u :=
  ⟨fun w => k.1 (h.1 w), k.2.1.trans h.2.1, k.2.2.1.trans h.2.2.1, k.2.2.2.1.trans h.2.2.2.1, k.2.2.2.2.trans h.2.2.2.2⟩

/-- A change of the memory side that leaves the listed bytes alone. -/
theorem memoryOnly_onMs (s : State) {f : MemSide → MemSide} (h : Memory.wf s.ms.mem = true → Memory.wf (f s.ms).mem = true) :
    s.memoryOnly (s.onMs f) := ⟨h, rfl, rfl, rfl, rfl⟩

theorem memoryOnly_onPkg (s : State) (f : Package → Package) : s.memoryOnly (s.onPkg f) := ⟨id, rfl, rfl, rfl, rfl⟩

theorem memoryOnly_setChan (s : State) (ch : Nat) (c : Channel) : s.memoryOnly (s.setChan ch c) := memoryOnly_onMs s id

theorem memoryOnly_foldl {α : Type} (l : List α) {f : State → α → State} (h : ∀ (s : State) a, s.memoryOnly (f s a)) (s : State) :
    s.memoryOnly (l.foldl f s) := by
  induction l generalizing s with
  | nil => exact s.memoryOnly_refl
  | cons a l ih => exact (h s a).andThen (ih _)

theorem memoryOnly_onPacket (s : State) (ch n : Nat) (f : Packet → Packet) : s.memoryOnly (onPacket s ch n f) :=
  memoryOnly_setChan ..

theorem memoryOnly_dropPacket (s : State) (ch n : Nat) : s.memoryOnly (dropPacket s ch n) := memoryOnly_setChan ..

theorem memoryOnly_awaitMove (s : State) (line : Nat) : s.memoryOnly (awaitMove s line) := by
  unfold awaitMove
  split
  exacts [memoryOnly_setChan .., s.memoryOnly_refl]

theorem memoryOnly_performStamp (s : State) (line : Nat) : s.memoryOnly (performStamp s line).2 := memoryOnly_onMs s id

theorem memoryOnly_setL2Sector (s : State) (die sec : Nat) (x : L2Sector) (now : Nat) :
    s.memoryOnly (s.onMs fun ms => setL2Sector ms die sec x now) := memoryOnly_onMs s id

/-- A check leaves all but memory and the package alone. -/
def Check.memoryOnly (check : Check) : Prop :=
  ∀ (s : State) sec ty ctx, s.memoryOnly (check s sec ty ctx).2

theorem noCheck_memoryOnly : Check.memoryOnly noCheck := fun (s : State) _ _ _ => s.memoryOnly_refl

section Packets
variable {check : Check} (hc : Check.memoryOnly check)
include hc

theorem memoryOnly_takePart (s : State) (ch n i : Nat) : s.memoryOnly (takePart check s ch n i) := by
  unfold takePart
  split
  · exact s.memoryOnly_refl
  · split
    · exact s.memoryOnly_refl
    · exact (hc ..).andThen (memoryOnly_onPacket ..)

theorem memoryOnly_performWith (s : State) (ch n sec ctx : Nat) (m : Word32) (x : Sector) :
    s.memoryOnly (performWith check s ch n sec ctx m x).2 := by
  unfold performWith
  dsimp only
  have h := memoryOnly_foldl ((s.chan ch).packets.filter fun p => !p.wr && decide (p.n < n) && p.line == sec / 4 &&
    p.names (sec % 4)) (fun (s : State) (p : Packet) => memoryOnly_takePart hc s ch p.n (sec % 4)) s
  split
  · exact (h.andThen (memoryOnly_setChan ..)).andThen (memoryOnly_onMs _ fun w => setMemSector_wf w ..)
  · exact ((h.andThen (memoryOnly_setChan ..)).andThen (hc ..)).andThen
      (memoryOnly_onMs _ fun w => setMemSector_wf w ..)

theorem memoryOnly_performPart (s : State) (ch n i : Nat) : s.memoryOnly (performPart check s ch n i) := by
  unfold performPart
  split
  · exact s.memoryOnly_refl
  · exact (memoryOnly_performWith hc ..).andThen (memoryOnly_onPacket ..)

theorem memoryOnly_settleWith (s : State) (sec n : Nat) : s.memoryOnly (settleWith check s sec n) :=
  memoryOnly_foldl _ (fun (s : State) p => by
    split
    exacts [memoryOnly_performPart hc .., s.memoryOnly_refl]) s

theorem memoryOnly_serveRead (s : State) (ch n : Nat) : s.memoryOnly (serveRead check s ch n) := by
  unfold serveRead
  split
  · exact s.memoryOnly_refl
  · exact ((memoryOnly_foldl _ (fun (s : State) i => (memoryOnly_settleWith hc ..).andThen (memoryOnly_takePart hc ..)) s).andThen
      (memoryOnly_setChan ..)).andThen (memoryOnly_onPacket ..)

omit hc in
theorem memoryOnly_deliverRead (s : State) (ch : Nat) (p : Packet) : s.memoryOnly (deliverRead s ch p) :=
  (memoryOnly_dropPacket ..).andThen (memoryOnly_foldl _ (fun (s : State) g => by
    dsimp only
    split
    exacts [memoryOnly_setL2Sector .., s.memoryOnly_refl]) _)

theorem memoryOnly_completeWith (s : State) (ch n : Nat) : s.memoryOnly (completeWith check s ch n) := by
  unfold completeWith
  split
  · exact s.memoryOnly_refl
  · dsimp only
    split
    · exact ((memoryOnly_awaitMove ..).andThen (memoryOnly_foldl _ (fun (s : State) i =>
        (memoryOnly_settleWith hc ..).andThen (memoryOnly_performPart hc ..)) _)).andThen (memoryOnly_dropPacket ..)
    · split
      · exact ((memoryOnly_awaitMove ..).andThen (memoryOnly_serveRead hc ..)).andThen (memoryOnly_deliverRead ..)
      · exact (memoryOnly_awaitMove ..).andThen (memoryOnly_serveRead hc ..)

theorem memoryOnly_endFillsWith (s : State) (sec : Nat) : s.memoryOnly (endFillsWith check s sec) :=
  memoryOnly_foldl _ (fun (s : State) p => by
    split
    exacts [memoryOnly_completeWith hc .., s.memoryOnly_refl]) s

theorem memoryOnly_unitWriteWith (s : State) (sec ctx : Nat) (m : Word32) (x : Sector) (p : Bool) :
    s.memoryOnly (unitWriteWith check s sec ctx m x p) := by
  unfold unitWriteWith
  have h := memoryOnly_endFillsWith hc s sec
  dsimp only
  split
  · exact h.andThen (memoryOnly_setL2Sector ..)
  · split
    · exact (((h.andThen (memoryOnly_awaitMove ..)).andThen (memoryOnly_settleWith hc ..)).andThen
        (memoryOnly_performWith hc ..)).andThen (memoryOnly_onMs _ id)
    · exact ((h.andThen (memoryOnly_awaitMove ..)).andThen (memoryOnly_settleWith hc ..)).andThen (memoryOnly_performWith hc ..)

theorem memoryOnly_physWriteWith (s : State) (pa : Nat) (bs : List Byte) : s.memoryOnly (physWriteWith check s pa bs) :=
  memoryOnly_foldl _ (fun _ _ => (memoryOnly_unitWriteWith hc ..).andThen (memoryOnly_performStamp ..)) s

end Packets

/-- A record on a ring. -/
theorem memoryOnly_post {write : State → Nat → List Byte → State} (hw : ∀ (s : State) a bs, s.memoryOnly (write s a bs)) (r : Ring)
    (n rec : Nat) (s : State) : s.memoryOnly (r.post write n rec s).2 := by
  unfold Ring.post
  split
  exacts [s.memoryOnly_refl, hw ..]

theorem memoryOnly_draw (s : State) : s.memoryOnly s.draw.2 := ⟨id, rfl, rfl, rfl, rfl⟩

theorem memoryOnly_postFaq (s : State) (ty source ch bank row pa ctx : Nat) :
    s.memoryOnly (postFaq s ty source ch bank row pa ctx) := by
  have hw := memoryOnly_physWriteWith noCheck_memoryOnly
  have hp (s : State) (r : Ring) (rec : Nat) : s.memoryOnly (r.post (physWriteWith noCheck) 4096 rec s).2 :=
    memoryOnly_post hw r 4096 rec s
  unfold postFaq
  split
  · exact hw ..
  · by_cases hd : ty = 2 ∨ ty = 3 ∨ ty = 7
    all_goals
      simp only [hd, if_true, if_false]
      split
    · exact (((memoryOnly_draw s).andThen (hp ..)).andThen (memoryOnly_onMs _ id)).andThen
        (memoryOnly_onPkg ..)
    · exact ((memoryOnly_draw s).andThen (hp ..)).andThen (memoryOnly_onMs _ id)
    · exact ((hp s ..).andThen (memoryOnly_onMs _ id)).andThen (memoryOnly_onPkg ..)
    · exact (hp s ..).andThen (memoryOnly_onMs _ id)

theorem memoryOnly_copyGranule (s : State) (ch bank row sec : Nat) : s.memoryOnly (copyGranule s ch bank row sec) := by
  unfold copyGranule
  split
  · exact s.memoryOnly_refl
  · exact memoryOnly_onMs s id
  · exact (memoryOnly_onMs s id).andThen (memoryOnly_postFaq ..)

theorem memoryOnly_remapRow (s : State) (ch bank row pa : Nat) : s.memoryOnly (remapRow s ch bank row pa) := by
  unfold remapRow
  dsimp only
  split
  · exact s.memoryOnly_refl
  · split
    · exact ((memoryOnly_setChan ..).andThen
        (memoryOnly_foldl _ (fun (s : State) _ => memoryOnly_copyGranule s ..) _)).andThen (memoryOnly_postFaq ..)
    · exact memoryOnly_postFaq ..

theorem memoryOnly_retireWay (s : State) (sec : Nat) : s.memoryOnly (retireWay s sec) := by
  unfold retireWay
  dsimp only
  split
  · exact s.memoryOnly_refl
  · split
    · exact ((memoryOnly_draw s).andThen (memoryOnly_setChan ..)).andThen (memoryOnly_postFaq ..)
    · exact memoryOnly_draw s

theorem checkGranule_memoryOnly : Check.memoryOnly checkGranule := by
  intro s sec ty ctx
  unfold checkGranule
  dsimp only
  split
  · exact s.memoryOnly_refl
  · have h := memoryOnly_onMs s (f := fun ms => { ms with marks := NMap.erase ms.marks sec }) id
    generalize (s.onMs fun ms => { ms with marks := NMap.erase ms.marks sec }) = t at h ⊢
    refine h.andThen ?_
    have k (ch c) := (memoryOnly_setChan t ch c).andThen (memoryOnly_retireWay _ sec)
    split <;> split
    exacts [(k ..).andThen (memoryOnly_remapRow ..), k .., (k ..).andThen (memoryOnly_remapRow ..), k ..]
  · have h := memoryOnly_onMs s (f := fun ms => setPoison { ms with marks := NMap.erase ms.marks sec } sec true) id
    generalize (s.onMs fun ms => setPoison { ms with marks := NMap.erase ms.marks sec } sec true) = t at h ⊢
    refine h.andThen ?_
    have k (a b c d e f g) := (memoryOnly_postFaq t a b c d e f g).andThen (memoryOnly_retireWay _ sec)
    by_cases hty : ty = 3
    · rw [if_pos hty]
      exact k ..
    · rw [if_neg hty]
      exact (k ..).andThen (memoryOnly_remapRow ..)

theorem memoryOnly_postCrq (s : State) (ty kind index ctx grid addr score detail : Nat) :
    s.memoryOnly (postCrq s ty kind index ctx grid addr score detail) := by
  have hp (r : Ring) (rec : Nat) : s.memoryOnly (r.post (physWriteWith checkGranule) 1024 rec s).2 :=
    memoryOnly_post (memoryOnly_physWriteWith checkGranule_memoryOnly) r 1024 rec s
  unfold postCrq
  dsimp only
  split
  · exact ((hp ..).andThen (memoryOnly_onPkg ..)).andThen (memoryOnly_onPkg ..)
  · exact (hp ..).andThen (memoryOnly_onPkg ..)

theorem memoryOnly_addScore (s : State) (kind index weight : Nat) : s.memoryOnly (addScore s kind index weight) := by
  unfold addScore
  dsimp only
  split <;> split
  · exact ((memoryOnly_onPkg ..).andThen (memoryOnly_onPkg ..)).andThen (memoryOnly_postCrq ..)
  · exact (memoryOnly_onPkg ..).andThen (memoryOnly_postCrq ..)
  · exact (memoryOnly_onPkg ..).andThen (memoryOnly_onPkg ..)
  · exact memoryOnly_onPkg ..

theorem memoryOnly_l2Check (s : State) (die sec : Nat) : s.memoryOnly (l2Check s die sec) := by
  unfold l2Check
  dsimp only
  split
  · exact s.memoryOnly_refl
  · split
    · exact (memoryOnly_onMs _ id).andThen (memoryOnly_addScore ..)
    · split
      · exact ((memoryOnly_onMs _ id).andThen (memoryOnly_addScore ..)).andThen (memoryOnly_setL2Sector ..)
      · exact ((memoryOnly_onMs _ id).andThen (memoryOnly_addScore ..)).andThen (memoryOnly_setL2Sector ..)
      · exact ((memoryOnly_onMs _ id).andThen (memoryOnly_addScore ..)).andThen (memoryOnly_setL2Sector ..)
      · exact (memoryOnly_onMs _ id).andThen (memoryOnly_addScore ..)

/-- A run of bytes written by a unit of the device keeps the memory's form, and touches nothing but memory and the package's
records (R39, R411). -/
theorem memoryOnly_physWrite (s : State) (pa : Nat) (bs : List Byte) : s.memoryOnly (physWrite s pa bs) :=
  (memoryOnly_foldl _ (fun (s : State) sec => by
    unfold l2CheckHome
    split
    exacts [memoryOnly_l2Check .., s.memoryOnly_refl]) s).andThen
    (memoryOnly_physWriteWith checkGranule_memoryOnly ..)

/-- Every memory has its form after reset. -/
theorem reset_canonical : State.reset.canonical = true := by decide

end Sys2Proof.Machine
end

