-- ==== Sys2Proof/Tests/Slice0.lean ====
section
/-! SUPPORT. Tests of the model: ill-formed terms that the checks refuse, words written out from the spec's encodings, single
steps of the spec's worked cases, and for each claim with hypotheses a state and operands that meet them together. -/

namespace Sys2Proof.Tests

open Sys2Proof Sys2Proof.Machine

set_option Elab.async false

/-- Each list of words decodes to the instruction beside it, whatever NOP follows. -/
def reads (l : List (List Nat × Instr)) : Bool :=
  l.all fun x => match decodeWords (x.1 ++ [0x78B00000]) with
    | .ok (i, n) => i == x.2 && n == x.1.length
    | .error _ => false

/-- Every word of integer forms, its bits placed as spec/opcode_table.json places its fields. -/
theorem test_decode_integer : reads
    [([0x001CBCB0], .iadd .stop .always .none (.s 3) (.v 11) .w32),
     ([0x819983C3], .isub .chain (.p 11) (.k 1) (.age 4) .zero .w64),
     ([0x006527D5], .iaddc .stop (.p 2) (.v 5) (.v 9) .lane .w64),
     ([0x821CBCB0], .imul .chain .always .none (.s 3) (.v 11) .w32),
     ([0x039983C3], .imulhI .stop (.p 11) (.k 1) (.age 4) .zero .w64),
     ([0x826527D5], .imulhN .chain (.p 2) (.v 5) (.v 9) .lane .w64),
     ([0x05CBCB60], .imad .stop .none (.s 3) (.v 11) 6 .w32),
     ([0x879983C1], .andB .chain (.p 11) (.k 1) (.age 4) .zero .w64),
     ([0x066527D3], .orB .stop (.p 2) (.v 5) (.v 9) .lane .w64),
     ([0x861CBCB4], .xorB .chain .always .none (.s 3) (.v 11) .w32),
     ([0x079983C7], .andn .stop (.p 11) (.k 1) (.age 4) .zero .w64),
     ([0x866527D9], .orn .chain (.p 2) (.v 5) (.v 9) .lane .w64),
     ([0x061CBFCA], .notB .stop .always .none (.s 3) .w32),
     ([0x899983C1], .shl .chain (.p 11) (.k 1) (.age 4) .zero .w64),
     ([0x086527D3], .shr .stop (.p 2) (.v 5) (.v 9) .lane .w64),
     ([0x881CBCB4], .sar .chain .always .none (.s 3) (.v 11) .w32),
     ([0x099983C7], .rol .stop (.p 11) (.k 1) (.age 4) .zero .w64),
     ([0x886527D9], .ror .chain (.p 2) (.v 5) (.v 9) .lane .w64),
     ([0x0A1CBFC0], .popc .stop .always .none (.s 3) .w32),
     ([0x8B9983C3], .clz .chain (.p 11) (.k 1) (.age 4) .w64),
     ([0x0A6527C5], .ctz .stop (.p 2) (.v 5) (.v 9) .w64),
     ([0x8A1CBFC6], .brev .chain .always .none (.s 3) .w32),
     ([0x0B9983C9], .bfeN .stop (.p 11) (.k 1) (.age 4) .zero .w64),
     ([0x8A6527DB], .bfeI .chain (.p 2) (.v 5) (.v 9) .lane .w64),
     ([0x0A04BCBC], .bfi .stop .always 4 (.s 3) (.v 11) .w32),
     ([0x8D9983C1], .minI .chain (.p 11) (.k 1) (.age 4) .zero .w64),
     ([0x0C6527D3], .minN .stop (.p 2) (.v 5) (.v 9) .lane .w64),
     ([0x8C1CBCB4], .maxI .chain .always .none (.s 3) (.v 11) .w32),
     ([0x0D9983C7], .maxN .stop (.p 11) (.k 1) (.age 4) .zero .w64),
     ([0x8C6527C9], .absI .chain (.p 2) (.v 5) (.v 9) .w64),
     ([0x0C1CBFCA], .negI .stop .always .none (.s 3) .w32),
     ([0x8D9983CD], .sel .chain (.p 11) (.k 1) (.age 4) .zero .w64),
     ([0x0E6527C1], .mov .stop (.p 2) (.v 5) (.v 9) .w64),
     ([0x8E06BFC2], .movs .chain .always 6 (.s 3) .w32),
     ([0x0F9983C5], .lea .stop (.p 11) (.k 1) (.age 4) .zero .w64)] = true := by decide

/-- Every word of predicate and lane forms, its bits placed as spec/opcode_table.json places its fields. -/
theorem test_decode_predicate_and_lane : reads
    [([0x906927D7], .icmp32 .chain (.p 2) ⟨4, true⟩ (.v 9) .lane .leN),
     ([0x1216BCBA], .icmp64 .stop .always ⟨11, false⟩ (.s 3) (.v 11) .tst),
     ([0x958904A0], .pand true (.p 11) ⟨4, true⟩ 1 10),
     ([0x14691CA1], .por false (.p 2) ⟨4, true⟩ 7 10),
     ([0x94162CA2], .pxor true .always ⟨11, false⟩ 11 10),
     ([0x15890403], .pnot false (.p 11) ⟨4, true⟩ 1),
     ([0x94691C04], .pmov true (.p 2) ⟨4, true⟩ 7),
     ([0x161CBFC0], .censusNz .stop .always .none (.s 3)),
     ([0x979983C2], .censusLsb .chain (.p 11) (.k 1) (.age 4)),
     ([0x166527C4], .censusSgn .stop (.p 2) (.v 5) (.v 9)),
     ([0x981CBCB0], .routeFrom .chain .always .none (.s 3) (.v 11) .w32),
     ([0x199983C3], .routeRot .stop (.p 11) (.k 1) (.age 4) .zero .w64),
     ([0x986527D5], .routeShift .chain (.p 2) (.v 5) (.v 9) .lane .w64),
     ([0x181CBCB6], .routeFlip .stop .always .none (.s 3) (.v 11) .w32),
     ([0x999983C9], .peers .chain (.p 11) (.k 1) (.age 4) .w64)] = true := by decide

/-- Every word of float forms, its bits placed as spec/opcode_table.json places its fields. -/
theorem test_decode_float : reads
    [([0x206527D4], .fadd .stop (.p 2) (.v 5) (.v 9) .lane .ru .f64),
     ([0xA1BCBCB1], .fsub .chain .none (.s 3) (.v 11) .rn .f32),
     ([0x239983CA], .fmul .stop (.p 11) (.k 1) (.age 4) .zero .ro .f64),
     ([0xA4527D64], .ffma .chain (.v 5) (.v 9) .lane 6 .ru .f64),
     ([0x27CBCB61], .ffms .stop .none (.s 3) (.v 11) 6 .rn .f32),
     ([0xA9983C6A], .fnma .chain (.k 1) (.age 4) .zero 6 .ro .f64),
     ([0x2A6527D0], .fmin .stop (.p 2) (.v 5) (.v 9) .lane .f64),
     ([0xAA1CBCB3], .fmax .chain .always .none (.s 3) (.v 11) .f32),
     ([0x2B9983C4], .fminNum .stop (.p 11) (.k 1) (.age 4) .zero .f64),
     ([0xAA6527D6], .fmaxNum .chain (.p 2) (.v 5) (.v 9) .lane .f64),
     ([0x2C16BCBD], .fcmp .stop .always ⟨11, false⟩ (.s 3) (.v 11) .un .f32),
     ([0xAF99825A], .fcvt .chain (.p 11) (.k 1) (.age 4) 37 .ro false),
     ([0x306527C0], .fclass .stop (.p 2) (.v 5) (.v 9) .f64),
     ([0xB004BFC3], .ffrexp .chain .always 4 (.s 3) .f32),
     ([0x319983C4], .fabs .stop (.p 11) (.k 1) (.age 4) .f64),
     ([0xB06527C6], .fneg .chain (.p 2) (.v 5) (.v 9) .f64),
     ([0x301CBCB9], .fcpysgn .stop .always .none (.s 3) (.v 11) .f32),
     ([0xB1B983CA], .fscale .chain (.k 1) (.age 4) .zero .ro .f64),
     ([0x332527D4], .fdiv .stop 9 (.v 5) (.v 9) .lane .ru .f64),
     ([0xB53CBC01], .fsqrt .chain 9 .none (.s 3) .rn .f32),
     ([0x3539801A], .frcp .stop 9 (.k 1) (.age 4) .ro .f64),
     ([0xB5252420], .frsq .chain 9 (.v 5) (.v 9) .rn .f64),
     ([0x373CBC01], .fexp2 .stop 9 .none (.s 3) .f32),
     ([0xB7398010], .flog2 .chain 9 (.k 1) (.age 4) .f64),
     ([0x37252420], .fsin .stop 9 (.v 5) (.v 9) .f64),
     ([0xB73CBC31], .fcos .chain 9 .none (.s 3) .f32),
     ([0x37398040], .ftanh .stop 9 (.k 1) (.age 4) .f64)] = true := by decide

/-- Every word of narrow forms, its bits placed as spec/opcode_table.json places its fields. -/
theorem test_decode_narrow : reads
    [([0xC06527D4], .pkadd16 .chain (.p 2) (.v 5) (.v 9) .lane .ru .f16),
     ([0x41BCBCB1], .pkmul16 .stop .none (.s 3) (.v 11) .rn .bf16),
     ([0xC1D083CA], .pkfma16 .chain 16 (.age 4) .zero .ro .f16),
     ([0x41E827D4], .pkfna16 .stop 8 (.v 9) .lane .ru .f16),
     ([0xC21CBC31], .cvtn .chain .always .none (.s 3) 3 .rn true),
     ([0x459083C0], .dot4I8 .stop (.p 11) 16 (.age 4) .zero),
     ([0xC46827D2], .dot4N8 .chain (.p 2) 8 (.v 9) .lane),
     ([0x4404BCB4], .dot8E4m3 .stop .always 4 (.s 3) (.v 11)),
     ([0xC59083C6], .dot8E5m2 .chain (.p 11) 16 (.age 4) .zero),
     ([0x466527D2], .sclx .stop (.p 2) (.v 5) (.v 9) .lane 2),
     ([0xC61CBCB6], .scls .chain .always .none (.s 3) (.v 11) 2),
     ([0x499983CA], .pkaddF32 .stop (.p 11) (.k 1) (.age 4) .zero .ro),
     ([0xC9A527D4], .pkmulF32 .chain (.v 5) (.v 9) .lane .ru),
     ([0x49C4BCB0], .pkfmaF32 .stop 4 (.s 3) (.v 11) .rn),
     ([0xC9F083CA], .pkfnaF32 .chain 16 (.age 4) .zero .ro)] = true := by decide

/-- Every word of matrix forms, its bits placed as spec/opcode_table.json places its fields. -/
theorem test_decode_matrix : reads
    [([0x51282924], .mmad false 9 8 10 18 .ru),
     ([0xD3242924], .mmaF32 true 9 4 10 18 .ra),
     ([0x53302926], .mmaBf16 false 9 16 10 18),
     ([0xD3282927], .mmaF16 true 9 8 10 18),
     ([0x55242929], .mmaq false 9 4 10 18 .e3m2 .e5m2),
     ([0xD7302924, 0xFEA01800], .mmas 9 16 10 18 .e4m3 true 20 0 3 0),
     ([0x59282AE5], .mmat .stop 9 8 10 (.s 2) .e5m2),
     ([0xDB242926], .mmaj true 9 4 10 18 .bf16),
     ([0x5D302BC1], .tfact false 9 16 10 .chol),
     ([0xDD282925], .tsolv true 9 8 10 18 .chol),
     ([0xDD242929, 0x7F200000], .tref 9 4 10 18 .chol false 9)] = true := by decide

/-- Every word of memory forms, its bits placed as spec/opcode_table.json places its fields. -/
theorem test_decode_memory : reads
    [([0xE1926790, 0xFE030070], .ld (.p 11) 9 (.v 12) .zero (-16) true .b64),
     ([0xE26010DF, 0x7E010070], .st (.p 2) (.v 2) (.v 6) (-1) false .b16),
     ([0xE412E62F, 0xFE040070], .ldl .always 9 .none (.s 5) 15 true .i8),
     ([0xE5815F90, 0x7E120070], .stl (.p 11) (.age 15) .zero (-16) false .b32),
     ([0xE67228DF, 0xFE090070], .ldc (.p 2) 9 (.v 5) (.v 6) (-1) true .n16),
     ([0xE8139E2F, 0x7E6B601C], .atom .always 9 (.s 7) (.s 5) 15 false .inc .n64 .die (.v 7)),
     ([0xEB815F90, 0xFE1CA070], .red (.p 11) (.age 15) .zero (-16) true .min .f32 .sys),
     ([0xEC7210DF, 0x7E0249D4], .acas (.p 2) 9 (.v 2) (.v 6) (-1) false .b32 .clu (.v 19) (.v 21)),
     ([0xEC139E2F, 0xFE132070], .axch .always 9 (.s 7) (.s 5) 15 true .b64 .team .none),
     ([0x6E0001C5], .fence false .ld .ldst .sys),
     ([0xEE0011C5], .fenceS true .ld .ldst .sys),
     ([0x6E1222A8], .waitm false .always 9 10 .ltI .w32),
     ([0xEF803340], .cctlInv true (.p 11) (.v 13)),
     ([0x6E003F01], .cctlInvall false),
     ([0xEE003B42], .cctlWb true .always (.s 1)),
     ([0x6F804341], .pref false (.p 11) (.v 13) true)] = true := by decide

/-- Every word of async forms, its bits placed as spec/opcode_table.json places its fields. -/
theorem test_decode_async : reads
    [([0xF060027D], .copy .chain (.p 2) (.v 9) .lane),
     ([0x70001BCB], .copyr .stop .always (.s 3) (.v 11)),
     ([0xF2120F3C], .batch true 9),
     ([0x7212127C], .waitb .stop 9 (.v 9)),
     ([0xF2002F06], .qfence true 6),
     ([0x739232BC], .tile .stop (.p 11) 9 10 .zero),
     ([0xF4000246], .barInit .chain (.v 9) 6),
     ([0x74001F06], .barArrive false 6),
     ([0xF4122F06], .barWait true 9 6),
     ([0x74123F06], .barTest false 9 6),
     ([0xF4124F04], .qstat true 9 .kq),
     ([0x7780083C], .coll .stop (.p 11) (.age 4) .zero)] = true := by decide

/-- Every word of control forms, its bits placed as spec/opcode_table.json places its fields. -/
theorem test_decode_control : reads
    [([0xF803FFFE], .ifW true (.p 2) (-2)),
     ([0x78100006], .elseW false 6),
     ([0xF8200000], .endif true),
     ([0x7833FFFE], .loopW false (.p 2) (-2)),
     ([0xF8400000], .endloop true .always),
     ([0x785C0000], .brk false (.p 11)),
     ([0xF8630000], .cont true (.p 2)),
     ([0x78700006], .jmp false .always 6),
     ([0xF88CFFFE], .call true (.p 11) (-2)),
     ([0x78930000], .ret false (.p 2)),
     ([0xF8A00000], .exit true .always),
     ([0x78B00000], .nop false)] = true := by decide

/-- Every word of system forms, its bits placed as spec/opcode_table.json places its fields. -/
theorem test_decode_system : reads
    [([0xFA72027D], .launch .chain (.p 2) 9 (.v 9) .lane),
     ([0x7A121BFC], .waitchild .stop 9 (.s 3)),
     ([0xFB80283A], .spawn .chain (.p 11) (.age 4) (.s 14)),
     ([0x7A60327A], .yieldW .stop (.p 2) (.v 9) (.s 14)),
     ([0xFA004F3C], .task .chain .zero),
     ([0x7A005F3C], .commit false),
     ([0xFA00697A], .regs .chain 37 (.s 14)),
     ([0x7A007F3C], .endregs false),
     ([0xFA00897A], .grow .chain 37 (.s 14)),
     ([0x7A00997C], .shrink false 37),
     ([0xFA00A94B], .trap .chain .always 37 (.v 11)),
     ([0x7A00BF3C], .rtt false),
     ([0xFA72C97C], .getsr true (.p 2) 9 37),
     ([0x7A00D94B], .setsr .stop .always 37 (.v 11)),
     ([0xFA00EF3C], .waitpred true),
     ([0x7A00FF3C], .sigsucc false),
     ([0xFA01094B], .traceW .chain .always 37 (.v 11))] = true := by decide

/-- Every word of path forms, its bits placed as spec/opcode_table.json places its fields. -/
theorem test_decode_path : reads
    [([0x7C00083C], .pathb .stop (.age 4) .zero),
     ([0xFC6012BC], .segl true (.p 2) 10),
     ([0x7C0022BC], .segq false .always 10),
     ([0xFD8032BC], .segc true (.p 11) 10),
     ([0x7C00427D], .pathe .stop (.v 9) .lane),
     ([0xFC125BCB], .covrd .chain .always 9 (.s 3) (.v 11))] = true := by decide

/-! ## States and units that meet the claims' hypotheses -/

/-- One group in slot 0 of core 0, as a launch leaves it. -/
def base : State := State.reset.withFetchWord 32 0

/-- That group in another condition. -/
def unit (f : Group → Group) : State := base.onGroup 0 f

/-- A group whose registers hold a value per lane. -/
def Group.holding (l : List (Nat × (Nat → Nat))) (g : Group) : Group :=
  l.foldl (fun g x => g.setReg x.1 Mask.all (LaneReg.ofFn fun i => w64 (x.2 i))) g

/-- The group with its registers set so. -/
def holding (l : List (Nat × (Nat → Nat))) : State := unit (Group.holding l)

/-- The unit passes the checks of R212, decided. -/
def clears (c : Cx) : Bool :=
  decide (c.g.reopen ≠ .now ∨ c.g.region.isSome = true) && decide (c.g.sys.inject &&& 7 = 0) &&
  decide ((c.s.team? c.g.info.team).isSome = true) && decide (∀ n ∈ c.i.uses.v ++ c.i.uses.d, n < c.g.names) &&
  c.emulate.isNone && decide (∀ p ∈ c.g.pend, (p.room c.sp.id).isSome = true → p.usedBy c.sp.lanes c.i.uses = false) &&
  decide (∀ p ∈ c.g.late, 0 < (p.room c.sp.id).getD 0 → p.usedBy c.sp.lanes c.i.uses = false) &&
  decide (∀ p ∈ c.g.pend.take c.rd.pend.length, p.room c.sp.id = some 0 → mayTrap c p = false) &&
  decide (c.i.uses.pop = [] ∧ c.i.uses.push = [] ∨ c.cls = 0) &&
  decide (c.g.region.isSome = true → c.i.uses.pop = []) && decide (arrivalOk c.sp.arrive c.i = true) &&
  decide (∀ q ∈ List.range 4, Uses.popsOf c.i.uses q ≤ (c.poppable q).length) &&
  decide (∀ q ∈ List.range 4, q ∈ c.i.uses.push →
    (c.kqueue q).length - Uses.popsOf c.i.uses q + Uses.pushesOf c.i.uses q ≤ 8)

theorem clears_spec {c : Cx} (h : clears c = true) : c.Clear := by
  simp only [clears, Bool.and_eq_true, decide_eq_true_eq, Option.isNone_iff_eq_none] at h
  obtain ⟨⟨⟨⟨⟨⟨⟨⟨⟨⟨⟨⟨a, b⟩, d⟩, e⟩, n⟩, f⟩, o⟩, g⟩, i⟩, j⟩, k⟩, l⟩, m⟩ := h
  exact ⟨a, b, d, e, n, f, o, g, i, j, k, fun q hq => l q (List.mem_range.2 hq), fun q hq => m q (List.mem_range.2 hq)⟩

/-- The word's unit passes the checks and is as `p` says. -/
def meets (i : Instr) (s : State) (p : Cx → Prop) [DecidablePred p] : Bool :=
  match cx? i s with
  | some c => clears c && decide (p c)
  | none => false

theorem meets_spec {i : Instr} {s : State} {p : Cx → Prop} [DecidablePred p] (h : meets i s p = true) :
    ∃ c, cx? i s = some c ∧ c.Clear ∧ p c := by
  unfold meets at h
  split at h
  · rename_i c hc
    rw [Bool.and_eq_true, decide_eq_true_eq] at h
    exact ⟨c, hc, clears_spec h.1, h.2⟩
  · cases h

/-- The word's unit in a state; `base`'s own where there is none. -/
def cxOf (i : Instr) (s : State) : Cx :=
  match cx? i s with
  | some c => c
  | none =>
    let g := newGroup 0 (fetchInfo 1 0 0 0) 0 24 [] 0 fun _ => LaneReg.zero
    ⟨base, 0, g, g, ⟨0, ⟨0, 0⟩, 0, 0, [], [], [], none, none, none, none, 0, [], [], none, [], 0, 0⟩, 0, i⟩

theorem cxOf_spec {i : Instr} {s : State} (h : (cx? i s).isSome = true) : cx? i s = some (cxOf i s) := by
  obtain ⟨c, hc⟩ := Option.isSome_iff_exists.1 h
  unfold cxOf
  rw [hc]

/-- The word has a unit there, and it passes the checks. -/
def stands (i : Instr) (s : State) : Bool := (cx? i s).isSome && clears (cxOf i s)

theorem stands_spec {i : Instr} {s : State} (h : stands i s = true) : cx? i s = some (cxOf i s) ∧ (cxOf i s).Clear := by
  rw [stands, Bool.and_eq_true] at h
  exact ⟨cxOf_spec h.1, clears_spec h.2⟩

/-- The lanes of an access that translation maps, and the state after the lookups. -/
def Cx.mapped (c : Cx) (acc : AccessKind) (atomic : Bool) (ls : List (Nat × Nat)) : Xlated × State :=
  translateLanes c.s c.k c.g.info.ctx acc atomic ls

theorem reaches_spec {c : Cx} {acc : AccessKind} {atomic : Bool} {ls : List (Nat × Nat)}
    (h : (Cx.mapped c acc atomic ls).1.denied = [] ∧ (Cx.mapped c acc atomic ls).1.waiting = [] ∧
      missRoom (Cx.mapped c acc atomic ls).2 (coreOf c.k) = true ∧
      ∀ e ∈ ls, slogHolds (Cx.mapped c acc atomic ls).2 (coreOf c.k) c.g.info.ctx e.2
        (some (c.sp.logMark.getD (Cx.mapped c acc atomic ls).2.vm.slogNext)) = false) :
    c.Reaches acc atomic ls (Cx.mapped c acc atomic ls).1.ok (Cx.mapped c acc atomic ls).2 := by
  refine ⟨?_, h.2.2⟩
  show Cx.mapped c acc atomic ls = _
  obtain ⟨a, b, -⟩ := h
  generalize Cx.mapped c acc atomic ls = x at a b ⊢
  obtain ⟨⟨ok, den, wai⟩, s⟩ := x
  simp only at a b
  subst a b
  rfl

/-! ## Witnesses: integer, floating-point and special-function words -/

theorem witness_IntegerWordCompletes :
    (∃ p ∈ intWords2, ∃ c, cx? (p.1 .stop (.p 2) (.k 1) (.v 2) (.v 3) .w64) base = some c ∧ c.Clear) ∧
    ∃ p ∈ intWords1, ∃ c, cx? (p.1 .stop .always (.v 5) .lane .w32) base = some c ∧ c.Clear ∧ c.guard .always ≠ 0 :=
  ⟨⟨(Instr.iadd, _), List.mem_cons_self, (meets_spec (p := fun _ => True) (by decide)).imp fun _ h => ⟨h.1, h.2.1⟩⟩,
    ⟨(Instr.notB, _), List.mem_cons_self, meets_spec (by decide)⟩⟩

theorem witness_IntegerAndLaneWordCompletes : ∃ c r, cx? (.imad .stop (.v 5) (.v 1) (.v 2) 3 .w64) base = some c ∧ c.Clear ∧
    c.intResult (.imad .stop (.v 5) (.v 1) (.v 2) 3 .w64) = some r := by
  obtain ⟨c, h, hc, -⟩ := meets_spec (i := .imad .stop (.v 5) (.v 1) (.v 2) 3 .w64) (s := base) (p := fun _ => True) (by decide)
  exact ⟨c, _, h, hc, rfl⟩

theorem witness_MovsWritesScalar :
    (∃ c, cx? (.movs .stop .always 6 (.v 6) .w64) base = some c ∧ c.Clear ∧ (c.guard .always).lowest? = some 0) ∧
    (∃ c, cx? (.movs .stop (.p 0) 6 (.v 6) .w64) base = some c ∧ c.Clear ∧ (c.guard (.p 0)).lowest? = none) ∧
    (fld 0x0E101BC3 25 6 = 7 ∧ fld 0x0E101BC3 1 3 = 1 ∧ 16 ≤ fld 0x0E101BC3 16 5) ∧
    fld 0x0E061BB3 25 6 = 7 ∧ fld 0x0E061BB3 1 3 = 1 ∧ fld 0x0E061BB3 4 6 ≠ 60 :=
  ⟨meets_spec (by decide), meets_spec (by decide), by decide, by decide⟩

theorem witness_PredicateWordCompletes : ∃ c r, cx? (.icmp64 .stop .always ⟨4, true⟩ (.v 6) (.v 7) .ltI) base = some c ∧
    c.Clear ∧ c.predResult (.icmp64 .stop .always ⟨4, true⟩ (.v 6) (.v 7) .ltI) = some r := by
  obtain ⟨c, h, hc, -⟩ := meets_spec (i := .icmp64 .stop .always ⟨4, true⟩ (.v 6) (.v 7) .ltI) (s := base)
    (p := fun _ => True) (by decide)
  exact ⟨c, _, h, hc, rfl⟩

theorem witness_FloatWordCompletes :
    (∃ c d act r, cx? (.fadd .stop .always (.v 5) (.v 1) (.v 2) .rn .f64) base = some c ∧ c.Clear ∧
      c.floatResult (.fadd .stop .always (.v 5) (.v 1) (.v 2) .rn .f64) = some (d, act, r) ∧
      laneFlags act r &&& c.g.info.fpen = 0) ∧
    ∃ c d act r, cx? (.pkadd16 .stop (.p 0) (.v 5) (.v 1) (.v 2) .rn .f16) base = some c ∧ c.Clear ∧
      c.narrowResult (.pkadd16 .stop (.p 0) (.v 5) (.v 1) (.v 2) .rn .f16) = some (d, act, r) ∧
      laneFlags act r &&& c.g.info.fpen = 0 := by
  constructor
  · obtain ⟨c, h, hc, hp⟩ := meets_spec (i := .fadd .stop .always (.v 5) (.v 1) (.v 2) .rn .f64) (s := base)
      (p := fun c => c.g.info.fpen = 0) (by decide)
    exact ⟨c, _, _, _, h, hc, rfl, by rw [hp]; exact BitVec.and_zero⟩
  · obtain ⟨c, h, hc, hp⟩ := meets_spec (i := .pkadd16 .stop (.p 0) (.v 5) (.v 1) (.v 2) .rn .f16) (s := base)
      (p := fun c => c.g.info.fpen = 0) (by decide)
    exact ⟨c, _, _, _, h, hc, rfl, by rw [hp]; exact BitVec.and_zero⟩

theorem witness_FcmpAndFfrexpComplete :
    (∃ c, cx? (.fcmp .stop .always ⟨4, true⟩ (.v 1) (.v 2) .lt .f64) base = some c ∧ c.Clear ∧
      laneFlags (c.guard .always) (fun l => (0, (Fmt.f64.compare .lt (c.floatA .stop .f64 (.v 1) l)
        (c.floatB .stop .f64 (.v 1) (.v 2) l)).2)) &&& c.g.info.fpen = 0) ∧
    ∃ c, cx? (.ffrexp .stop .always 22 (.v 1) .f32) base = some c ∧ c.Clear ∧
      laneFlags (c.guard .always) (fun l => (0, (Fmt.f32.frexp (c.floatA .stop .f32 (.v 1) l)).2.2)) &&& c.g.info.fpen = 0 := by
  constructor
  · obtain ⟨c, h, hc, hp⟩ := meets_spec (i := .fcmp .stop .always ⟨4, true⟩ (.v 1) (.v 2) .lt .f64) (s := base)
      (p := fun c => c.g.info.fpen = 0) (by decide)
    exact ⟨c, h, hc, by rw [hp]; exact BitVec.and_zero⟩
  · obtain ⟨c, h, hc, hp⟩ := meets_spec (i := .ffrexp .stop .always 22 (.v 1) .f32) (s := base)
      (p := fun c => c.g.info.fpen = 0) (by decide)
    exact ⟨c, h, hc, by rw [hp]; exact BitVec.and_zero⟩

theorem witness_SpecialFunctionIssues : ∃ c r, cx? (.fdiv .stop 1 (.v 6) (.v 1) (.v 2) .rn .f64) base = some c ∧ c.Clear ∧
    c.specialResult (.fdiv .stop 1 (.v 6) (.v 1) (.v 2) .rn .f64) = some r := by
  obtain ⟨c, h, hc, -⟩ := meets_spec (i := .fdiv .stop 1 (.v 6) (.v 1) (.v 2) .rn .f64) (s := base) (p := fun _ => True)
    (by decide)
  exact ⟨c, _, h, hc, rfl⟩

/-! ## Witnesses: memory words -/

/-- Lanes 0 and 3 guarded by p0, addresses in v6 in one sector, data in v2 and v3, scratchpad offsets in v7. -/
def ready : State := unit fun g =>
  (Group.holding [(6, fun l => 0x10100 + 8 * l), (2, fun l => 7 + l), (3, fun l => 9 + l), (7, fun l => 64 + 8 * l)] g).setPred
    0 Mask.all 9

/-- The group with a region just opened. -/
def Group.opened (g : Group) : Group :=
  { g with region := (g.splits.head?).map fun sp => Region.new ⟨0, 0⟩ false (g.snapshot sp ⟨0, 1⟩ 0) 0 }

/-- The same machine in a region. -/
def inRegion (s : State) : State := s.onGroup 0 Group.opened

/-- The home slice of die 0 holds the sector of those addresses. -/
def atHome (s : State) : State := s.onMs fun ms => setL2Sector ms 0 0x808 ⟨.c, 0x1234, false, 0, 0⟩ 0

/-- The sector of those addresses in its home slice. -/
def homeLine : L2Line := ⟨[⟨.c, 0x1234, false, 0, 0⟩, L2Sector.invalid, L2Sector.invalid, L2Sector.invalid], 0⟩

/-- A slice that holds that line alone holds its sector as home. -/
theorem homeAt_spec {s : State} {l : Leaf} (h : s.ms.l2 = [(0x202, homeLine)]) (hm : s.ms.l2marks = []) (hl : l.home = 0) :
    homeAt s l 0x808 := by
  have hs (d : Nat) : (l2Sector s.ms d 0x808).st = if d = 0 then .c else .i := by
    unfold l2Sector
    rw [h]
    simp only [NMap.get?, l2Key]
    rcases Nat.eq_zero_or_pos d with rfl | hd
    · rfl
    · have : ¬ 514 = d * 2 ^ 33 + 0x808 / 4 := by omega
      simp only [this, if_false, if_neg (Nat.pos_iff_ne_zero.1 hd)]
      rfl
  refine ⟨?_, .inl (by rw [hl, hs]; rfl), fun d => ⟨?_, by rw [hm]; rfl⟩⟩
  · unfold homeHolding
    rw [h, hl]
    rfl
  · rw [hs]
    split <;> decide

theorem placed_spec {size : Nat} {ls : List (Nat × Nat)} (h : ∀ e ∈ ls, e.2 % size = 0 ∧ wildAddr e.2 = false) :
    placed size ls := h

/-- A load of guarded lanes. -/
def loadI (spread : Bool) : Instr := loadWord spread (.p 0) 4 (.v 5) (.v 6) 0 false .b64

/-- What its addresses give. -/
def loadX (spread : Bool) (s : State) : Xlated × State :=
  Cx.mapped (cxOf (loadI spread) s) .read false ((cxOf (loadI spread) s).loadAddrs spread (.p 0) (.v 6) 0 .b64)

theorem witness_LoadCompletes (spread : Bool) : ∃ c ok s', cx? (loadI spread) ready = some c ∧ c.Clear ∧
    placed 8 (c.loadAddrs spread (.p 0) (.v 6) 0 .b64) ∧ c.Reaches .read false (c.loadAddrs spread (.p 0) (.v 6) 0 .b64) ok s' ∧
    ok ≠ [] ∧ (∀ y ∈ ok, y.leaf.tgt = 0) ∧ (c.after s').fits 0 ((c.after s').newHolds (sectorsOf ok)) := by
  have h := stands_spec (i := loadI spread) (s := ready) (by cases spread <;> decide)
  exact ⟨_, (loadX spread ready).1.ok, (loadX spread ready).2, h.1, h.2, placed_spec (by cases spread <;> decide),
    reaches_spec (by cases spread <;> decide), by cases spread <;> decide, by cases spread <;> decide,
    .inl (by cases spread <;> decide)⟩

/-- The core holds a running copy of the sector. -/
def copied : State := setL1 ready 0 0x808 ⟨0x1234, false, 100, 0, 0⟩

theorem witness_LoadsReadTheirCopies :
    (∃ c ok s', ∃ copy : Nat → L1Copy, cx? (loadI false) copied = some c ∧ c.Clear ∧ c.g.region = none ∧
      placed 8 (c.loadAddrs false (.p 0) (.v 6) 0 .b64) ∧ c.Reaches .read false (c.loadAddrs false (.p 0) (.v 6) 0 .b64) ok s' ∧
      ok ≠ [] ∧ ∀ y ∈ ok, y.leaf.tgt = 0 ∧ l1Copy s' (coreOf c.k) (y.pa / 32) = some (copy (y.pa / 32)) ∧
        s'.clock.dtime < (copy (y.pa / 32)).lease ∧
        NMap.get? s'.ms.l1marks (l1Owner s' (coreOf c.k) (y.pa / 32 / 4) * 2 ^ 35 + y.pa / 32) = none) ∧
    l1Copy (atHome ready) 0 0x808 = none ∧ dieOf 0 = (Leaf.of 0x1008D).home ∧ homeAt (atHome ready) (Leaf.of 0x1008D) 0x808 := by
  have h := stands_spec (i := loadI false) (s := copied) (by decide)
  exact ⟨⟨_, (loadX false copied).1.ok, (loadX false copied).2, fun _ => ⟨0x1234, false, 100, 0, 0⟩, h.1, h.2, by decide,
    placed_spec (by decide), reaches_spec (by decide), by decide, by decide⟩, by decide, by decide,
    homeAt_spec rfl rfl (by decide)⟩

/-- A store of guarded lanes. -/
def storeI : Instr := .st (.p 0) (.v 2) (.v 6) 0 false .b64

/-- A reduction of them. -/
def redI : Instr := .red (.p 0) (.v 2) (.v 6) 0 false .add .n64 .dev

/-- Their addresses. -/
def storeAddrs (i : Instr) (s : State) : List (Nat × Nat) := (cxOf i s).addrs (.v 6) 0 8 ((cxOf i s).guard (.p 0))

/-- What they give. -/
def storeX (i : Instr) (atomic : Bool) (s : State) : Xlated × State := Cx.mapped (cxOf i s) .write atomic (storeAddrs i s)

/-- The word's sector requests. -/
def storeReqs (i : Instr) (atomic : Bool) (s : State) : List LanePart :=
  ((cxOf i s).after (storeX i atomic s).2).requests (storeX i atomic s).1 (storeAddrs i s)
    ((((cxOf i s).storeWord i).map fun w => w.2.2.2).getD fun _ _ => .store 0 0)

theorem witness_StoreCompletes : ∀ i ∈ [storeI, redI], ∃ c size ls at? kind x s', cx? i ready = some c ∧ c.Clear ∧
    c.g.region = none ∧ c.storeWord i = some (size, ls, at?, kind) ∧ placed size ls ∧ ls ≠ [] ∧
    translateLanes c.s c.k c.g.info.ctx .write at? ls = (x, s') ∧ x.denied = [] ∧ missRoom s' (coreOf c.k) = true ∧
    unmapped ((c.after s').requests x ls kind) = 0 := by
  intro i hi
  rcases List.mem_cons.1 hi with rfl | hi
  · have h := stands_spec (i := storeI) (s := ready) (by decide)
    exact ⟨_, _, _, _, _, (storeX storeI false ready).1, _, h.1, h.2, by decide, rfl, placed_spec (by decide), by decide, rfl,
      by decide, by decide, by decide⟩
  · obtain rfl := List.mem_singleton.1 hi
    have h := stands_spec (i := redI) (s := ready) (by decide)
    exact ⟨_, _, _, _, _, (storeX redI true ready).1, _, h.1, h.2, by decide, rfl, placed_spec (by decide), by decide, rfl,
      by decide, by decide, by decide⟩

/-- A store whose page is not mapped any more. -/
def unplaced : State := ready.onGroup 0 (Group.holding [(6, fun l => 0x7F00100 + 8 * l)])

theorem witness_StoreCompletes_waits : ∃ c, cx? storeI unplaced = some c ∧ c.Clear ∧ c.g.region = none ∧
    placed 8 (storeAddrs storeI unplaced) ∧ (storeX storeI false unplaced).1.denied = [] ∧
    unmapped (storeReqs storeI false unplaced) = 1 ∧ ownerlessOf (storeX storeI false unplaced).2 (coreOf c.k) = [] ∧
    (slogOf (storeX storeI false unplaced).2 (coreOf c.k)).length + 1 ≤ 256 := by
  have h := stands_spec (i := storeI) (s := unplaced) (by decide)
  exact ⟨_, h.1, h.2, by decide, placed_spec (by decide), by decide +kernel, by decide +kernel, by decide +kernel, by decide +kernel⟩

theorem witness_StoreWritesItsBytes : ∃ c xl s', cx? storeI (atHome ready) = some c ∧ c.Clear ∧ c.g.region = none ∧
    placed 8 (storeAddrs storeI (atHome ready)) ∧
    translateLanes c.s c.k c.g.info.ctx .write false (storeAddrs storeI (atHome ready)) = (xl, s') ∧ xl.denied = [] ∧
    missRoom s' (coreOf c.k) = true ∧ storeReqs storeI false (atHome ready) ≠ [] ∧
    ∀ q ∈ storeReqs storeI false (atHome ready), q.lands s' := by
  have h := stands_spec (i := storeI) (s := atHome ready) (by decide)
  refine ⟨_, (storeX storeI false (atHome ready)).1, (storeX storeI false (atHome ready)).2, h.1, h.2, by decide,
    placed_spec (by decide), rfl, by decide, by decide, by decide, fun q hq => ?_⟩
  have key : ∀ q ∈ storeReqs storeI false (atHome ready),
      ∃ x, q.xl = some x ∧ x.1.tgt = 0 ∧ x.1.peer = 0 ∧ x.1.home = 0 ∧ x.2 / 32 = 0x808 := by
    intro q hq
    have : (storeReqs storeI false (atHome ready)).all (fun q => match q.xl with
      | some x => decide (x.1.tgt = 0 ∧ x.1.peer = 0 ∧ x.1.home = 0 ∧ x.2 / 32 = 0x808)
      | none => false) = true := by decide
    have := List.all_eq_true.1 this q hq
    split at this
    · rename_i x hx
      exact ⟨x, hx, of_decide_eq_true this⟩
    · cases this
  obtain ⟨x, hx, ht, hp, hh, hs⟩ := key q hq
  exact ⟨x.1, x.2, hx, ht, hp, by rw [hs]; exact homeAt_spec (by decide) (by decide) hh⟩

theorem witness_HighestLanePrevails :
    (0x1001 % 32 + [(3 : Byte)].length ≤ 32 ∧ 0x1001 % 32 ≤ 1 ∧ [(3 : Byte)][1 - 0x1001 % 32]? = some 3) ∧
    let ls : List LanePart := [⟨0x1000, none, storePart 0x1000 [1, 2]⟩, ⟨0x1001, none, storePart 0x1001 [3]⟩]
    ∃ n j : Nat, ∃ e : LanePart, (∀ y ∈ ls, ∃ d m, y.kind = .store d m) ∧ j < 32 ∧ ls[n]? = some e ∧ e.mask.getLsbD j = true ∧
      ∀ m : Nat, ∀ y : LanePart, n < m → ls[m]? = some y → reqKey y.va y.xl = reqKey e.va e.xl → y.mask.getLsbD j = false := by
  refine ⟨by decide, 1, 1, _, ?_, by decide, rfl, by decide, fun m y hm hy => ?_⟩
  · intro y hy
    rcases List.mem_cons.1 hy with rfl | hy
    · exact ⟨_, _, rfl⟩
    · obtain rfl := List.mem_singleton.1 hy
      exact ⟨_, _, rfl⟩
  · have : m < 2 := (List.getElem?_eq_some_iff.1 hy).1
    omega

/-- Atomics of guarded lanes. -/
def atomI : Instr := .atom (.p 0) 4 (.v 2) (.v 6) 0 false .add .n64 .dev (.v 5)

/-- What their addresses give. -/
def atomX (s : State) : Xlated × State := Cx.mapped (cxOf atomI s) .write true (storeAddrs atomI s)

theorem witness_RegionKeepsItsWrites :
    (∃ c r xl s', cx? storeI (inRegion ready) = some c ∧ c.Clear ∧ c.g.region = some r ∧
      placed 8 (storeAddrs storeI (inRegion ready)) ∧
      translateLanes c.s c.k c.g.info.ctx .write false (storeAddrs storeI (inRegion ready)) = (xl, s') ∧ xl.denied = [] ∧
      storeReqs storeI false (inRegion ready) ≠ [] ∧
      (c.after s').fits ((storeReqs storeI false (inRegion ready)).filter fun q =>
        (r.mergeAt false q.va (physKey q.xl)).isNone).length 0) ∧
    ∃ c r act ty d ls op ok s', cx? atomI (inRegion (atHome ready)) = some c ∧ c.Clear ∧ c.g.region = some r ∧
      c.atomicWord atomI = some (act, ty, d, ls, op) ∧ placed (MemTy.size ty) ls ∧ c.Reaches .write true ls ok s' ∧ ok ≠ [] ∧
      (∀ y ∈ ok, y.leaf.tgt = 0) ∧ r.atomicOut = false ∧ r.atomic = none ∧ r.buf = [] ∧ ∀ y ∈ ok, homeAt s' y.leaf (y.pa / 32) := by
  have h := stands_spec (i := storeI) (s := inRegion ready) (by decide)
  have h' := stands_spec (i := atomI) (s := inRegion (atHome ready)) (by decide)
  refine ⟨⟨_, _, (storeX storeI false (inRegion ready)).1, _, h.1, h.2, rfl, placed_spec (by decide), rfl, by decide, by decide,
    .inr (by decide)⟩,
    _, _, _, _, _, _, _, (atomX (inRegion (atHome ready))).1.ok, (atomX (inRegion (atHome ready))).2, h'.1, h'.2, rfl, rfl,
    placed_spec (by decide), reaches_spec (by decide), by decide, by decide, rfl, rfl, rfl, fun y hy => ?_⟩
  obtain ⟨a, b⟩ := (by decide : ∀ y ∈ (atomX (inRegion (atHome ready))).1.ok, y.leaf.home = 0 ∧ y.pa / 32 = 0x808) y hy
  rw [b]
  exact homeAt_spec (by decide) (by decide) a

theorem witness_AtomicActsAtItsHome : homeAt (atHome ready) (Leaf.of 0x1008D) (0x10100 / 32) ∧
    (l2Sector (atHome ready).ms (Leaf.of 0x1008D).home (0x10100 / 32)).poison = false ∧
    0x10100 % 32 + MemOp.size (.atom .add .n64 7) ≤ 32 ∧ (MemOp.apply (.atom .add .n64 7) 0x1234).isSome = true ∧
    MemOp.apply (.acas .b64 1 2) 0x1234 = none :=
  ⟨homeAt_spec rfl rfl (by decide), by decide, by decide, by decide, by decide⟩

theorem witness_AtomicCompletes : ∃ c act ty d ls op ok s', cx? atomI ready = some c ∧ c.Clear ∧ c.g.region = none ∧
    c.atomicWord atomI = some (act, ty, d, ls, op) ∧ placed (MemTy.size ty) ls ∧ c.Reaches .write true ls ok s' ∧ ok ≠ [] ∧
    ∀ y ∈ ok, y.leaf.tgt = 0 := by
  have h := stands_spec (i := atomI) (s := ready) (by decide)
  exact ⟨_, _, _, _, _, _, (atomX ready).1.ok, (atomX ready).2, h.1, h.2, by decide, rfl, placed_spec (by decide),
    reaches_spec (by decide), by decide, by decide⟩

/-- The team's scratchpad has its first words initialised. -/
def primed : State := ready.onTeam 0 fun m => { m with scr := { m.scr with init := List.range 64 } }

/-- Scratchpad words of guarded lanes. -/
def ldlI : Instr := .ldl (.p 0) 4 (.v 5) (.v 7) 0 false .b64

/-- See `ldlI`. -/
def stlI : Instr := .stl (.p 0) (.v 2) (.v 7) 0 false .b64

/-- Their offsets. -/
def scratchAddrs (i : Instr) (s : State) : List (Nat × Nat) := (cxOf i s).addrs (.v 7) 0 8 ((cxOf i s).guard (.p 0))

theorem witness_ScratchAccessCompletes :
    (∃ c, cx? ldlI primed = some c ∧ c.Clear ∧ c.g.region = none ∧ (∀ e ∈ scratchAddrs ldlI primed, e.2 % 8 = 0) ∧
      c.violations true 8 (scratchAddrs ldlI primed) = [] ∧ scratchAddrs ldlI primed ≠ []) ∧
    ∃ c, cx? stlI ready = some c ∧ c.Clear ∧ c.g.region = none ∧ (∀ e ∈ scratchAddrs stlI ready, e.2 % 8 = 0) ∧
      c.violations false 8 (scratchAddrs stlI ready) = [] ∧ Memory.wf c.scratch.bytes = true ∧ scratchAddrs stlI ready ≠ [] := by
  have h := stands_spec (i := ldlI) (s := primed) (by decide)
  have h' := stands_spec (i := stlI) (s := ready) (by decide)
  exact ⟨⟨_, h.1, h.2, by decide, by decide, by decide, by decide⟩,
    _, h'.1, h'.2, by decide, by decide, by decide, by decide, by decide⟩

theorem witness_ScratchViolationSwitchesOff : ∃ c load size act ls, cx? ldlI ready = some c ∧ c.Clear ∧ c.g.region = none ∧
    c.scratchWord ldlI = some (load, size, act, ls) ∧ (∀ e ∈ ls, e.2 % size = 0) ∧ c.g.sys.tracectl = 0 ∧
    c.violations load size ls ≠ [] ∧ c.sp.m &&& ~~~(lanesMask ((c.violations load size ls).map Prod.fst)) ≠ 0 := by
  have h := stands_spec (i := ldlI) (s := ready) (by decide)
  exact ⟨_, _, _, _, _, h.1, h.2, by decide, rfl, by decide, by decide, by decide, by decide⟩

theorem witness_FenceWaitsForItsConditions :
    (∃ c, cx? (.fence false .st .st .dev) ready = some c ∧ c.Clear ∧ c.g.region = none) ∧
    (∃ c r, cx? (.fence false .st .st .dev) (inRegion ready) = some c ∧ c.Clear ∧ c.g.region = some r ∧
      c.fenceSeams r false .st .st = true) ∧
    ∃ c r, cx? (.fenceS false .ld .ld .dev) (inRegion ready) = some c ∧ c.Clear ∧ c.g.region = some r ∧
      r.runsPast true = true ∧ c.fenceSeams r true .ld .ld = false := by
  have h := stands_spec (i := .fence false .st .st .dev) (s := ready) (by decide)
  have h' := stands_spec (i := .fence false .st .st .dev) (s := inRegion ready) (by decide)
  have h'' := stands_spec (i := .fenceS false .ld .ld .dev) (s := inRegion ready) (by decide)
  exact ⟨⟨_, h.1, h.2, by decide⟩, ⟨_, _, h'.1, h'.2, rfl, by decide⟩, _, _, h''.1, h''.2, rfl, by decide, by decide⟩

/-- A wait of guarded lanes whose memory differs from what v7 holds. -/
def waitmI : Instr := .waitm false (.p 0) 4 6 .ne .w64

/-- The lanes that it reads. -/
def waitmLanes : List (Nat × Nat) :=
  let c := cxOf waitmI ready
  ((c.guard (.p 0)).lanes.filter fun x => (NMap.get? c.sp.got x).isNone).map fun x => (x, ((c.rd.reg 6).lane x).toNat)

/-- What their addresses give. -/
def waitmX : Xlated × State := Cx.mapped (cxOf waitmI ready) .read false waitmLanes

theorem witness_WaitmCompletes : ∃ c ok s', cx? waitmI ready = some c ∧ c.Clear ∧ c.cls ≠ 2 ∧ c.g.region = none ∧
    (c.sp.hold = some (.wait .waitm) → c.sp.reread ≤ c.s.clock.dtime) ∧ placed 8 waitmLanes ∧
    c.Reaches .read false waitmLanes ok s' ∧ ok ≠ [] ∧ ((c.after s').waitmReads 6 .ne .w64 ok).bad = [] ∧
    ∀ x ∈ (c.guard (.p 0)).lanes, (NMap.get? ((c.after s').waitmReads 6 .ne .w64 ok).got x).isSome = true := by
  have h := stands_spec (i := waitmI) (s := ready) (by decide)
  exact ⟨_, waitmX.1.ok, waitmX.2, h.1, h.2, by decide, by decide, by decide, placed_spec (by decide), reaches_spec (by decide),
    by decide, by decide, by decide⟩

/-- More bytes above those listed. -/
def placing (l : List Host.Cell) (s : State) : State := s.onMs fun ms => { ms with mem := ms.mem ++ l }

/-- Page tables at 0x20000 that map the page of the code, with the low byte of its leaf. -/
def paged (b : Byte) (s : State) : State :=
  (placing [⟨0x20000, 1⟩, ⟨0x20001, 0x10⟩, ⟨0x20002, 2⟩, ⟨0x21000, 1⟩, ⟨0x21001, 0x20⟩, ⟨0x21002, 2⟩, ⟨0x22000, 1⟩, ⟨0x22001, 0x30⟩,
    ⟨0x22002, 2⟩, ⟨0x23008, b⟩, ⟨0x2300A, 1⟩] s).onWork fun w =>
      { w with ctxs := w.ctxs.map fun x => (x.1, { x.2 with l3 := 0x20000 }) }

/-- The page is mapped as the TLB has it. -/
def tabled (s : State) : State := paged 0x8D s

/-- Cache-control words over those lanes. -/
def cacheWords : List Instr :=
  [.cctlInv false (.p 0) (.v 6), .cctlInvall false, .cctlWb false (.p 0) (.v 6), .pref false (.p 0) (.v 6) true]

/-- The home holds the sector dirty; page tables map it. -/
def dirtyHome : State := (tabled ready).onMs fun ms => setL2Sector ms 0 0x808 ⟨.d, 0x1234, false, 0, 0⟩ 0

theorem witness_CacheWordsComplete : (∀ i ∈ cacheWords, ∃ c, cx? i ready = some c ∧ c.Clear) ∧
    (∃ c, cx? (.cctlWb false (.p 0) (.v 6)) dirtyHome = some c ∧ c.Clear ∧ c.s.ms.marks = [] ∧ c.s.ms.l2marks = [] ∧
      ∃ e ∈ c.hintSectors (.p 0) (.v 6), (l2Sector c.s.ms e.1 e.2).st = .d ∧
        ∀ p ∈ (c.s.chan (channelOf (e.2 / 4))).packets, p.line ≠ e.2 / 4) ∧
    missRoom ready (coreOf 0) = true ∧
    missRoom (ready.onMs fun ms => { ms with l1miss := [(0, List.replicate 65 99)] }) (coreOf 0) = false := by
  have h := stands_spec (i := .cctlWb false (.p 0) (.v 6)) (s := dirtyHome) (by decide)
  exact ⟨fun i hi => ⟨_, stands_spec ((by decide : ∀ i ∈ cacheWords, stands i ready = true) i hi)⟩,
    ⟨_, h.1, h.2, by decide, by decide, (0, 0x808), by decide, by decide, by decide⟩, by decide, by decide⟩

/-- Lanes whose addresses in v6 are misaligned, or wild, in a group with a handler. -/
def astray (wild : Bool) : State := ready.onGroup 0 fun g =>
  Group.holding [(6, fun l => if wild then 2 ^ 48 + 8 * l else 0x10101 + 8 * l)] { g with info := { g.info with handler := some 9 } }

/-- The lanes that trap. -/
def strayLanes (i : Instr) (wild : Bool) : List (Nat × Nat) :=
  (storeAddrs i (astray wild)).filter fun e => if wild then wildAddr e.2 else e.2 % 8 != 0

theorem witness_MisalignedAccessTraps (wild : Bool) :
    (∃ c, cx? storeI (astray wild) = some c ∧ c.Clear ∧ c.g.info.handler.isSome = true ∧ c.g.trap = none ∧ c.g.pend = [] ∧
      (∃ a b, c.storeWord storeI = some (8, storeAddrs storeI (astray wild), a, b)) ∧ strayLanes storeI wild ≠ [] ∧
      (wild = true → ∀ e ∈ storeAddrs storeI (astray wild), e.2 % 8 = 0)) ∧
    (∃ c, cx? (loadI false) (astray wild) = some c ∧ c.Clear ∧
      storeAddrs (loadI false) (astray wild) = c.loadAddrs false (.p 0) (.v 6) 0 .b64 ∧ strayLanes (loadI false) wild ≠ [] ∧
      (wild = true → ∀ e ∈ storeAddrs (loadI false) (astray wild), e.2 % 8 = 0)) ∧
    ∃ c act ty d op, cx? atomI (astray wild) = some c ∧ c.Clear ∧ MemTy.size ty = 8 ∧
      c.atomicWord atomI = some (act, ty, d, storeAddrs atomI (astray wild), op) ∧ strayLanes atomI wild ≠ [] ∧
      (wild = true → ∀ e ∈ storeAddrs atomI (astray wild), e.2 % 8 = 0) := by
  have h := stands_spec (i := storeI) (s := astray wild) (by cases wild <;> decide)
  have h' := stands_spec (i := loadI false) (s := astray wild) (by cases wild <;> decide)
  have h'' := stands_spec (i := atomI) (s := astray wild) (by cases wild <;> decide)
  exact ⟨⟨_, h.1, h.2, by cases wild <;> decide, by cases wild <;> decide, by cases wild <;> decide, ⟨_, _, rfl⟩, by cases wild <;> decide, by cases wild <;> decide⟩,
    ⟨_, h'.1, h'.2, rfl, by cases wild <;> decide, by cases wild <;> decide⟩,
    _, _, .n64, _, _, h''.1, h''.2, rfl, rfl, by cases wild <;> decide, by cases wild <;> decide⟩

/-! ## Witnesses: control words -/

theorem witness_MaskWordMovesItsSplit :
    (∃ c m st pc, cx? (.ifW false (.p 0) 8) ready = some c ∧ c.Clear ∧ c.control (.ifW false (.p 0) 8) = some (m, st, pc) ∧
      m ≠ 0) ∧
    ∃ c m st pc packet a, cx? (.ifW false (.p 1) 8) ready = some c ∧ c.Clear ∧
      c.control (.ifW false (.p 1) 8) = some (m, st, pc) ∧ m = 0 ∧ c.lanesWith 0 st ≠ 0 ∧
      Split.resume { c.sp with m := 0, stack := st } (decide (1 < c.g.splits.length)) = .goesTo packet a := by
  have h := stands_spec (i := .ifW false (.p 0) 8) (s := ready) (by decide)
  have h' := stands_spec (i := .ifW false (.p 1) 8) (s := ready) (by decide)
  exact ⟨⟨_, _, _, _, h.1, h.2, rfl, by decide⟩, _, _, _, _, _, _, h'.1, h'.2, rfl, by decide, by decide, rfl⟩

/-- The split has a call to return from. -/
def called : State := ready.onGroup 0 fun g => { g with splits := g.splits.map fun sp => { sp with rets := [⟨5, 0⟩] } }

theorem witness_TransferCompletes :
    (∃ c t, cx? (.jmp false .always 8) ready = some c ∧ c.Clear ∧ c.mixed .always = false ∧
      targetPacket c.sp.pc.packet 8 = some t) ∧
    (∃ c t, cx? (.call false .always 8) ready = some c ∧ c.Clear ∧ c.mixed .always = false ∧
      targetPacket c.sp.pc.packet 8 = some t ∧ c.taken .always = true ∧ c.sp.rets.length < 16) ∧
    (∃ c, cx? (.ret false (.p 1)) ready = some c ∧ c.Clear ∧ c.mixed (.p 1) = false ∧ c.taken (.p 1) = false) ∧
    (∃ c e rest, cx? (.ret false .always) called = some c ∧ c.Clear ∧ c.mixed .always = false ∧ c.taken .always = true ∧
      c.sp.rets = e :: rest ∧ c.sp.stack.length = e.depth ∧ ∀ d ∈ c.sp.divs, d.rets < c.sp.rets.length) ∧
    ∃ c, cx? (.nop false) ready = some c ∧ c.Clear := by
  have a := stands_spec (i := .jmp false .always 8) (s := ready) (by decide)
  have b := stands_spec (i := .call false .always 8) (s := ready) (by decide)
  have d := stands_spec (i := .ret false (.p 1)) (s := ready) (by decide)
  have e := stands_spec (i := .ret false .always) (s := called) (by decide)
  exact ⟨⟨_, _, a.1, a.2, by decide, rfl⟩, ⟨_, _, b.1, b.2, by decide, rfl, by decide, by decide⟩,
    ⟨_, d.1, d.2, by decide, by decide⟩, ⟨_, _, _, e.1, e.2, by decide, by decide, rfl, by decide, by decide⟩,
    _, stands_spec (by decide)⟩

theorem witness_ExitRemovesItsLanes :
    (∃ c, cx? (.exit false (.p 0)) ready = some c ∧ c.Clear ∧ c.sp.m &&& ~~~(c.sp.m &&& c.rd.pred 0) &&&
      ~~~(c.g.off ||| (c.g.gone ||| (c.sp.m &&& c.rd.pred 0))) ≠ 0) ∧
    ∃ c, cx? (.exit false .always) ready = some c ∧ c.Clear ∧ c.sp.m &&& ~~~(c.sp.m &&& Mask.all) &&&
      ~~~(c.g.off ||| (c.g.gone ||| (c.sp.m &&& Mask.all))) = 0 ∧
      c.lanesWith 0 (c.sp.stack.map fun e => { e with
        o := e.o &&& ~~~(c.sp.m &&& Mask.all), e := e.e &&& ~~~(c.sp.m &&& Mask.all), ct := e.ct &&& ~~~(c.sp.m &&& Mask.all) }) = 0 ∧
      c.g.pend = [] ∧ c.g.region = none := by
  have h := stands_spec (i := .exit false (.p 0)) (s := ready) (by decide)
  have h' := stands_spec (i := .exit false .always) (s := ready) (by decide)
  exact ⟨⟨_, h.1, h.2, by decide⟩, _, h'.1, h'.2, by decide, by decide, by decide, by decide⟩

/-- The split's mask stack, or its return stack, is full. -/
def full : State := ready.onGroup 0 fun g => { g with splits := g.splits.map fun sp => { sp with
  stack := List.replicate 32 ⟨false, Mask.all, 0, 0, false, 4, 0, none⟩, rets := List.replicate 16 ⟨5, 0⟩ } }

theorem witness_ControlTraps :
    (∀ i ∈ [Instr.ifW false .always 8, .loopW false .always 8, .call false .always 8], ∃ c, cx? i full = some c ∧ c.Clear ∧
      (targetPacket c.sp.pc.packet 8).isSome = true ∧ 32 ≤ c.sp.stack.length ∧ 16 ≤ c.sp.rets.length ∧ c.mixed .always = false ∧
      c.taken .always = true) ∧
    (∀ i ∈ [Instr.elseW false 8, .endif false, .endloop false .always, .brk false .always, .cont false .always, .ret false .always],
      ∃ c, cx? i ready = some c ∧ c.Clear ∧ c.sp.stack = [] ∧ c.sp.divs = [] ∧ c.sp.innerLoop = none ∧ c.sp.rets = [] ∧
        c.mixed .always = false ∧ c.taken .always = true) ∧
    ∃ c, cx? (.jmp false (.p 0) 8) ready = some c ∧ c.Clear ∧ c.mixed (.p 0) = true := by
  have h : ∀ i ∈ [Instr.ifW false .always 8, .loopW false .always 8, .call false .always 8], stands i full = true ∧
      (targetPacket (cxOf i full).sp.pc.packet 8).isSome = true ∧ 32 ≤ (cxOf i full).sp.stack.length ∧
      16 ≤ (cxOf i full).sp.rets.length ∧ (cxOf i full).mixed .always = false ∧ (cxOf i full).taken .always = true := by decide
  have h' : ∀ i ∈ [Instr.elseW false 8, .endif false, .endloop false .always, .brk false .always, .cont false .always,
      .ret false .always], stands i ready = true ∧ (cxOf i ready).sp.stack = [] ∧ (cxOf i ready).sp.divs = [] ∧
      (cxOf i ready).sp.innerLoop = none ∧ (cxOf i ready).sp.rets = [] ∧ (cxOf i ready).mixed .always = false ∧
      (cxOf i ready).taken .always = true := by decide
  have a := stands_spec (i := .jmp false (.p 0) 8) (s := ready) (by decide)
  refine ⟨fun i hi => ?_, fun i hi => ?_, _, a.1, a.2, by decide⟩
  · exact ⟨_, (stands_spec (h i hi).1).1, (stands_spec (h i hi).1).2, (h i hi).2⟩
  · exact ⟨_, (stands_spec (h' i hi).1).1, (stands_spec (h' i hi).1).2, (h' i hi).2⟩

/-- The group is divided in two. -/
def divided : State := ready.onGroup 0 fun g => { g with splits := g.splits.flatMap fun sp =>
  [{ sp with m := 9, lanes := 9 }, { sp with id := 1, m := 6, lanes := 6 }] }

theorem witness_ControlTraps_divided :
    (∀ i ∈ [Instr.commit false, .endregs false, .regs (.lit 0 false) 12 .lit, .barArrive false 0, .pathe .stop (.v 1) (.v 1),
      .mmad false 0 8 0 2 .ru], ∃ c, cx? i divided = some c ∧ c.Clear ∧ wholeWord i = true ∧ c.g.inSplits = true) ∧
    ∃ c, cx? (.task (.lit 0xC false) .lit) divided = some c ∧ c.Clear ∧ c.g.inSplits = true ∧
      ∀ n ∈ maskNames (c.maskOf (.lit 0xC false) .lit), n < c.g.names := by
  have h : ∀ i ∈ [Instr.commit false, .endregs false, .regs (.lit 0 false) 12 .lit, .barArrive false 0, .pathe .stop (.v 1) (.v 1),
      .mmad false 0 8 0 2 .ru], stands i divided = true ∧ wholeWord i = true ∧ (cxOf i divided).g.inSplits = true := by decide
  have t := stands_spec (i := .task (.lit 0xC false) .lit) (s := divided) (by decide)
  exact ⟨fun i hi => ⟨_, (stands_spec (h i hi).1).1, (stands_spec (h i hi).1).2, (h i hi).2⟩, _, t.1, t.2, by decide, by decide⟩

/-! ## Witnesses: launch, region and system words -/

/-- The first lane of a lookup. -/
def firstLane (x : Xlated) : LaneXl :=
  match x.ok with
  | y :: _ => y
  | [] => ⟨0, 0, Leaf.of 0, 0⟩

/-- The unit's read of a descriptor or header in global memory. -/
def descOf (c : Cx) (lane addr n : Nat) : List Byte × Bool × Nat × Cx :=
  let x := Cx.mapped c .read false [(lane, addr)]
  (c.after x.2).descSectors (firstLane x.1).leaf (firstLane x.1).pa addr n

theorem reads_spec {c : Cx} {lane addr n align : Nat} (h : addr % align = 0 ∧ wildAddr addr = false)
    (hx : (Cx.mapped c .read false [(lane, addr)]).1.denied = [] ∧ (Cx.mapped c .read false [(lane, addr)]).1.waiting = [] ∧
      missRoom (Cx.mapped c .read false [(lane, addr)]).2 (coreOf c.k) = true ∧
      ∀ e ∈ [(lane, addr)], slogHolds (Cx.mapped c .read false [(lane, addr)]).2 (coreOf c.k) c.g.info.ctx e.2
        (some (c.sp.logMark.getD (Cx.mapped c .read false [(lane, addr)]).2.vm.slogNext)) = false)
    (ho : (Cx.mapped c .read false [(lane, addr)]).1.ok = [firstLane (Cx.mapped c .read false [(lane, addr)]).1] ∧
      (firstLane (Cx.mapped c .read false [(lane, addr)]).1).leaf.tgt = 0 ∧ (descOf c lane addr n).2.1 = false)
    (hf : (c.after (Cx.mapped c .read false [(lane, addr)]).2).fits 0
      ((c.after (Cx.mapped c .read false [(lane, addr)]).2).newHolds ((List.range (n / 32)).map
        ((firstLane (Cx.mapped c .read false [(lane, addr)]).1).pa / 32 + ·)))) :
    c.Reads lane addr n align (descOf c lane addr n).2.2.2 (wordsOfBytes (descOf c lane addr n).1 (n / 8)) := by
  refine ⟨h.1, h.2, firstLane (Cx.mapped c .read false [(lane, addr)]).1,
    (Cx.mapped c .read false [(lane, addr)]).2, ?_, ho.2.1, hf, ho.2.2, rfl, rfl⟩
  have r := reaches_spec hx
  rw [ho.1] at r
  exact r

/-- A launch from guarded lanes. -/
def launchI (g : Guard) : Instr := .launch .stop g 4 (.v 6) (.v 2)

/-- The group is not its team's first, or stands at level 10, or the dispatcher's queue is full. -/
def unlaunched : List State :=
  [ready.onGroup 0 fun g => { g with info := { g.info with ix := 1 } },
   ready.onGroup 0 fun g => { g with info := { g.info with level := 10 } }]

/-- The dispatcher's queue is full. -/
def dlqFull : State := ready.onWork fun w => { w with dlq := [(0, List.replicate 256 ⟨1, 0, 0, 0, [], 0, 0, 1, []⟩)] }

theorem witness_LaunchReleasesAGrid :
    (∃ c, cx? (launchI (.p 1)) ready = some c ∧ c.Clear ∧ c.g.info.ix = 0 ∧ c.g.info.level < 10 ∧
      (c.guard (.p 1)).lowest? = none) ∧
    (∀ s ∈ [ready, inRegion ready], ∃ c n c' ws, cx? (launchI (.p 0)) s = some c ∧ c.Clear ∧ c.g.info.ix = 0 ∧
      c.g.info.level < 10 ∧ (c.guard (.p 0)).lowest? = some n ∧ (dlqOf c.s (dieOf (coreOf c.k))).length < 256 ∧
      c.Reads n ((c.opA .stop .int (.v 6)).lane n).toNat 128 128 c' ws) ∧
    (∀ s ∈ unlaunched, ∃ c, cx? (launchI (.p 0)) s = some c ∧ c.Clear ∧ (c.g.info.ix ≠ 0 ∨ c.g.info.ix = 0 ∧ 10 ≤ c.g.info.level)) ∧
    ∃ c, cx? (launchI (.p 0)) dlqFull = some c ∧ c.Clear ∧ c.g.info.ix = 0 ∧ c.g.info.level < 10 ∧
      (c.guard (.p 0)).lowest? = some 0 ∧ 256 ≤ (dlqOf c.s (dieOf (coreOf c.k))).length := by
  have h := stands_spec (i := launchI (.p 1)) (s := ready) (by decide)
  have h' := stands_spec (i := launchI (.p 0)) (s := ready) (by decide)
  have h'' := stands_spec (i := launchI (.p 0)) (s := inRegion ready) (by decide)
  have e : ∀ s ∈ unlaunched, stands (launchI (.p 0)) s = true ∧ ((cxOf (launchI (.p 0)) s).g.info.ix ≠ 0 ∨
      (cxOf (launchI (.p 0)) s).g.info.ix = 0 ∧ 10 ≤ (cxOf (launchI (.p 0)) s).g.info.level) := by decide
  have d := stands_spec (i := launchI (.p 0)) (s := dlqFull) (by decide +kernel)
  refine ⟨⟨_, h.1, h.2, by decide, by decide, by decide⟩, fun s hs => ?_, fun s hs =>
    ⟨_, (stands_spec (e s hs).1).1, (stands_spec (e s hs).1).2, (e s hs).2⟩,
    _, d.1, d.2, by decide +kernel, by decide +kernel, by decide +kernel, by decide +kernel⟩
  rcases List.mem_cons.1 hs with rfl | hs
  · exact ⟨_, 0, _, _, h'.1, h'.2, by decide, by decide, by decide, by decide,
      reads_spec (by decide) (by decide) (by decide) (.inl (by decide))⟩
  · obtain rfl := List.mem_singleton.1 hs
    exact ⟨_, 0, _, _, h''.1, h''.2, by decide, by decide, by decide, by decide,
      reads_spec (by decide) (by decide) (by decide) (.inr (by decide))⟩

/-- The team and grid have something to wait for. -/
def waiting : State :=
  let s := ready.onTeam 0 fun m => { m with
    children := [⟨1, none, none⟩], nb := m.nb.set 0 ⟨true, 2, 0, 0, 0, 0⟩ }
  s.onWork fun w => { w with grids := w.grids.map fun x => (x.1, { x.2 with deps := [0] }) }

/-- The wait words. -/
def waitI : List Instr := [.waitpred false, .waitchild .stop 4 (.v 1), .waitb .stop 4 (.v 1), .barWait false 4 0]

theorem witness_WaitsForItsCondition :
    (∀ i ∈ waitI.take 3, ∃ c, cx? i ready = some c ∧ c.Clear ∧ c.g.region = none ∧ c.cls ≠ 2 ∧
      ∃ k v, c.waitsFor i = some (k, some v)) ∧
    ∀ i ∈ [Instr.waitpred false, .waitchild .stop 4 (.v 1)], ∃ c, cx? i waiting = some c ∧ c.Clear ∧ c.g.region = none ∧
      c.cls ≠ 2 ∧ ∃ k, c.waitsFor i = some (k, none) := by
  have h : ∀ i ∈ waitI.take 3, stands i ready = true ∧ (cxOf i ready).g.region = none ∧ (cxOf i ready).cls ≠ 2 ∧
      (((cxOf i ready).waitsFor i).bind Prod.snd).isSome = true := by decide
  have h' : ∀ i ∈ [Instr.waitpred false, .waitchild .stop 4 (.v 1)], stands i waiting = true ∧
      (cxOf i waiting).g.region = none ∧ (cxOf i waiting).cls ≠ 2 ∧
      ((cxOf i waiting).waitsFor i).map Prod.snd = some none := by decide
  constructor
  · intro i hi
    obtain ⟨a, b, d, e⟩ := h i hi
    obtain ⟨v, hv⟩ := Option.isSome_iff_exists.1 e
    obtain ⟨⟨k, x⟩, hx, rfl⟩ := Option.bind_eq_some_iff.1 hv
    exact ⟨_, (stands_spec a).1, (stands_spec a).2, b, d, k, v, hx⟩
  · intro i hi
    obtain ⟨a, b, d, e⟩ := h' i hi
    obtain ⟨⟨k, x⟩, hx, rfl⟩ := Option.map_eq_some_iff.1 e
    exact ⟨_, (stands_spec a).1, (stands_spec a).2, b, d, k, hx⟩

/-- The split is in the then arm of an IF whose else arm has lanes left. -/
def armed : State := physWrite ((tabled waiting).onGroup 0 fun g => { g with splits := g.splits.map fun sp => { sp with
  m := 6, stack := [⟨false, Mask.all, 9, 0, false, 8, 0, some 8⟩] } }) 0x10060 (leBytes 4 ((encode (.elseW false 4)).headD 0))

theorem witness_WaitDividesTheGroup : ∃ c n e merge id, cx? (.waitpred false) armed = some c ∧ c.cls = 0 ∧
    c.g.info.roleSize ≤ 1 ∧ c.g.region = none ∧ c.g.trap = none ∧ c.g.splits.length < 4 ∧
    pendingArm (c.s.setGroup c.k (c.g.setSplit { c.sp with
        hold := some (.wait .waitpred), waitStart := c.sp.waitStart.orElse fun _ => some c.s.clock.cycle }))
      (c.g.setSplit { c.sp with
        hold := some (.wait .waitpred), waitStart := c.sp.waitStart.orElse fun _ => some c.s.clock.cycle })
      { c.sp with hold := some (.wait .waitpred), waitStart := c.sp.waitStart.orElse fun _ => some c.s.clock.cycle } =
        some (n, e, merge) ∧
    freeSplit (c.g.setSplit { c.sp with
      hold := some (.wait .waitpred), waitStart := c.sp.waitStart.orElse fun _ => some c.s.clock.cycle }) = some id := by
  have h := stands_spec (i := .waitpred false) (s := armed) (by decide)
  exact ⟨cxOf (.waitpred false) armed, 0, ⟨false, Mask.all, 9, 0, false, 8, 0, some 8⟩, 12, 1, h.1, by decide, by decide,
    by decide, by decide, by decide, by decide +kernel, by decide +kernel⟩

/-- The context has a tray table whose one header takes entry 5 with a scope of 24 names. -/
def trayed : State :=
  let s := placing [⟨0x18031, 24⟩, ⟨0x18034, 5⟩] ready
  let s := s.onWork fun w => { w with ctxs := w.ctxs.map fun x => (x.1, { x.2 with trt := 0x18000, trtn := 1 }) }
  s.onGroup 0 (Group.holding [(9, fun _ => 5)])

/-- SPAWN and YIELD from guarded lanes, with names 2 and 3. -/
def spawnI : Instr := .spawn (.lit 0xC false) (.p 0) (.v 9) .lit

/-- See `spawnI`. -/
def yieldI (g : Guard) : Instr := .yieldW (.lit 0xC false) g (.v 9) .lit

theorem spawns_spec {c : Cx} {g : Guard} {a : Src} (h : (∀ n ∈ maskNames (c.maskOf (.lit 0xC false) .lit), n < c.g.names) ∧
    c.g.pend = [] ∧ c.g.late = [] ∧ (maskNames (c.maskOf (.lit 0xC false) .lit)).length ≤ 16 ∧
    (∀ l ∈ (c.guard g).lanes, ∃ h ∈ findTray c.s c.g.info.ctx ((c.opA (.lit 0xC false) .int a).lane l).toNat,
      ∀ n ∈ maskNames (c.maskOf (.lit 0xC false) .lit), n < trayRegs h) ∧
    trayFits c.s (dieOf (coreOf c.k)) c.g.info.ctx
      (laneEntries ((c.guard g).lanes.map fun l => (l, ((c.opA (.lit 0xC false) .int a).lane l).toNat))) = true) :
    c.Spawns (.lit 0xC false) g a .lit :=
  ⟨h.1, fun p hp => (by rw [h.2.1] at hp; cases hp), fun p hp => (by rw [h.2.2.1] at hp; cases hp), h.2.2.2.1,
    fun l hl => (h.2.2.2.2.1 l hl).imp fun _ y => ⟨y.1, y.2⟩, h.2.2.2.2.2⟩

theorem witness_SpawnReleasesRecords (r : Bool) : ∃ c, cx? spawnI (if r then inRegion trayed else trayed) = some c ∧ c.Clear ∧
    c.Spawns (.lit 0xC false) (.p 0) (.v 9) .lit ∧ c.g.region.isSome = r ∧ c.guard (.p 0) ≠ 0 := by
  have h := stands_spec (i := spawnI) (s := if r then inRegion trayed else trayed) (by cases r <;> decide)
  exact ⟨_, h.1, h.2, spawns_spec (by cases r <;> decide +kernel), by cases r <;> decide, by cases r <;> decide⟩

theorem witness_YieldReleasesAndLeaves (g : Guard) (hg : g ∈ [Guard.p 0, .p 1]) : ∃ c, cx? (yieldI g) trayed = some c ∧ c.Clear ∧
    c.g.region = none ∧ c.Spawns (.lit 0xC false) g (.v 9) .lit ∧ (c.guard g = 0 ↔ g = .p 1) ∧
    c.sp.m &&& ~~~(c.guard g) &&& ~~~(c.g.off ||| (c.g.gone ||| c.guard g)) ≠ 0 := by
  rcases List.mem_cons.1 hg with rfl | hg
  · have h := stands_spec (i := yieldI (.p 0)) (s := trayed) (by decide)
    exact ⟨_, h.1, h.2, by decide, spawns_spec (by decide +kernel), by decide, by decide⟩
  · rcases List.mem_cons.1 hg with rfl | hg
    · have h := stands_spec (i := yieldI (.p 1)) (s := trayed) (by decide)
      exact ⟨_, h.1, h.2, by decide, spawns_spec (by decide +kernel), by decide, by decide⟩
    · cases hg

theorem witness_TaskOpensARegion : ∃ c, cx? (.task (.lit 0xC false) .lit) ready = some c ∧ c.Clear ∧ c.g.inSplits = false ∧
    c.g.region = none ∧ c.g.regs.scope.isSome = true ∧ (∀ n ∈ maskNames (c.maskOf (.lit 0xC false) .lit), n < c.g.names) ∧
    c.g.pend = [] := by
  have h := stands_spec (i := .task (.lit 0xC false) .lit) (s := ready) (by decide)
  exact ⟨_, h.1, h.2, by decide, by decide, by decide, by decide, by decide⟩

/-- In a region whose buffer holds a store; or one with a fence to validate. -/
def buffered (f : Bool) : State := (inRegion ready).onGroup 0 fun g => g.onRegion fun r =>
  { r.store false 0x10100 none (.store 0x1234 0xFF) 0 with fences := if f then [⟨.ld, .ld, .dev, [], []⟩] else [] }

theorem witness_CommitSendsTheBuffer :
    (∃ c r, cx? (.commit false) (buffered false) = some c ∧ c.Clear ∧ c.g.inSplits = false ∧ c.g.region = some r ∧
      commitReady c.s c.g r = true ∧ c.g.proxyOf = none ∧ r.atomic = none ∧ r.effects = []) ∧
    ∃ c r, cx? (.commit false) (buffered true) = some c ∧ c.Clear ∧ c.g.inSplits = false ∧ c.g.region = some r ∧
      commitReady c.s c.g r = false := by
  have h := stands_spec (i := .commit false) (s := buffered false) (by decide)
  have h' := stands_spec (i := .commit false) (s := buffered true) (by decide)
  exact ⟨⟨_, _, h.1, h.2, by decide, rfl, by decide, by decide, rfl, rfl⟩, _, _, h'.1, h'.2, by decide, rfl, by decide⟩

/-- The group without a scope, or in a scope of eight names. -/
def inScope (n : Option Nat) : State := base.onGroup 0 fun g => { g with regs := { g.regs with scope := n } }

theorem witness_ScopeWordsComplete :
    (∃ c, cx? (.regs (.lit 0 false) 12 .lit) (inScope none) = some c ∧ c.Clear ∧ c.g.inSplits = false ∧ c.g.region = none ∧
      c.g.regs.scope = none ∧ grants c.s c.k c.g 24 = true) ∧
    ∀ i ∈ [Instr.endregs false, .grow (.lit 0 false) 12 .lit, .shrink false 4], ∃ c, cx? i (inScope (some 8)) = some c ∧ c.Clear ∧
      c.g.inSplits = false ∧ c.g.region = none ∧ c.g.regs.scope = some 8 ∧ grants c.s c.k c.g 8 = true := by
  have h := stands_spec (i := .regs (.lit 0 false) 12 .lit) (s := inScope none) (by decide)
  have h' : ∀ i ∈ [Instr.endregs false, .grow (.lit 0 false) 12 .lit, .shrink false 4], stands i (inScope (some 8)) = true ∧
      (cxOf i (inScope (some 8))).g.inSplits = false ∧ (cxOf i (inScope (some 8))).g.region = none ∧
      (cxOf i (inScope (some 8))).g.regs.scope = some 8 ∧
      grants (cxOf i (inScope (some 8))).s (cxOf i (inScope (some 8))).k (cxOf i (inScope (some 8))).g 8 = true := by decide
  exact ⟨⟨_, h.1, h.2, by decide, by decide, by decide, by decide⟩, fun i hi =>
    ⟨_, (stands_spec (h' i hi).1).1, (stands_spec (h' i hi).1).2, (h' i hi).2⟩⟩

/-- The group is in its handler, and XPC holds a value. -/
def handling (xpc : Nat) : State := base.onGroup 0 fun g =>
  { g with
    trap := some ⟨0, Mask.all, [], [], g.regs.rq, ⟨3, 1⟩, false, .no⟩
    sys  := { g.sys with xpc := w64 xpc } }

theorem witness_RttReturns : (∃ c, cx? (.rtt false) ready = some c ∧ c.Clear ∧ c.g.trap = none) ∧
    (∃ c ts, cx? (.rtt false) (handling 3) = some c ∧ c.Clear ∧ c.g.trap = some ts ∧ c.g.sys.xpc.toNat % 4 = 3) ∧
    ∃ c ts, cx? (.rtt false) (handling 5) = some c ∧ c.Clear ∧ c.g.trap = some ts ∧ c.g.sys.xpc.toNat % 4 ≠ 3 ∧ c.g.pend = [] ∧
      c.g.traps = [] ∧ (c.g.split? ts.split).isSome = true := by
  have h := stands_spec (i := .rtt false) (s := ready) (by decide)
  have h' := stands_spec (i := .rtt false) (s := handling 3) (by decide)
  have h'' := stands_spec (i := .rtt false) (s := handling 5) (by decide)
  exact ⟨⟨_, h.1, h.2, by decide⟩, ⟨_, _, h'.1, h'.2, rfl, by decide⟩, _, _, h''.1, h''.2, rfl, by decide, by decide, by decide,
    by decide⟩

theorem witness_SystemRegistersReadAndWrite :
    (∃ c v, cx? (.getsr false .always 4 35) ready = some c ∧ c.Clear ∧ c.g.info.priv = true ∧ (35, v) ∈ c.sysValues) ∧
    (∃ c y, cx? (.setsr .stop .always 8 (.v 2)) ready = some c ∧ c.Clear ∧ c.guard .always ≠ 0 ∧
      (8, y) ∈ SysRegs.written c.g.sys (uniform (c.guard .always) (c.opA .stop .int (.v 2)))) ∧
    ∃ c, cx? (.setsr .stop (.p 1) 8 (.v 2)) ready = some c ∧ c.Clear ∧ (∃ y, (8, y) ∈ c.sysValues) ∧ c.guard (.p 1) = 0 := by
  have a := stands_spec (i := .getsr false .always 4 35) (s := ready) (by decide)
  have b := stands_spec (i := .setsr .stop .always 8 (.v 2)) (s := ready) (by decide)
  have d := stands_spec (i := .setsr .stop (.p 1) 8 (.v 2)) (s := ready) (by decide)
  exact ⟨⟨_, _, a.1, a.2, by decide, by simp [Cx.sysValues]; rfl⟩, ⟨_, _, b.1, b.2, by decide, by simp [SysRegs.written]; rfl⟩,
    _, d.1, d.2, ⟨_, by simp [Cx.sysValues]; rfl⟩, by decide⟩

/-- An unprivileged context. -/
def unprivileged : State := base.onGroup 0 fun g => { g with info := { g.info with priv := false } }

theorem witness_PrivilegedRegistersTrap :
    (∃ c, cx? (.getsr false .always 4 32) unprivileged = some c ∧ c.g.info.priv = false) ∧
    (∃ c, cx? (.setsr .stop .always 35 (.v 2)) unprivileged = some c ∧ c.g.info.priv = false) ∧
    (cx? (.getsr false .always 4 14) base).isSome = true ∧ (cx? (.setsr .stop .always 63 (.v 2)) base).isSome = true :=
  ⟨⟨_, cxOf_spec (by decide), by decide⟩, ⟨_, cxOf_spec (by decide), by decide⟩, by decide, by decide⟩

/-- The group traces, and its core's queue is empty or full. -/
def tracing (n : Bool) : State :=
  let s := ready.onGroup 0 fun g => { g with sys := { g.sys with tracectl := 4 } }
  s.onPkg fun p => { p with trace := [⟨0, 0, false, true, 0, 0, 0⟩], traceq := [(0, ⟨if n then [List.replicate 64 0] else [], 0, 0⟩)] }

theorem witness_SignalAndTraceComplete :
    (∃ c, cx? (.sigsucc false) ready = some c ∧ c.Clear ∧ c.g.region = none ∧ c.g.signalled = false) ∧
    (∃ c, cx? (.sigsucc false) (inRegion ready) = some c ∧ c.Clear ∧ c.g.region.isSome = true) ∧
    (∃ c, cx? (.traceW .stop .always 3 (.v 2)) ready = some c ∧ c.Clear ∧ c.g.sys.tracectl.getLsbD 2 = false) ∧
    ∀ n, ∃ c, cx? (.traceW .stop .always 3 (.v 2)) (tracing n) = some c ∧ c.Clear ∧ c.guard .always ≠ 0 ∧
      c.g.sys.tracectl.getLsbD 2 = true ∧ (c.s.traceUnit (dieOf (coreOf c.k))).en = true ∧
      ((c.s.traceQ (coreOf c.k)).lost = 0 ∧ (c.s.traceQ (coreOf c.k)).words + 4 ≤ 64 ↔ n = false) := by
  have a := stands_spec (i := .sigsucc false) (s := ready) (by decide)
  have b := stands_spec (i := .sigsucc false) (s := inRegion ready) (by decide)
  have d := stands_spec (i := .traceW .stop .always 3 (.v 2)) (s := ready) (by decide)
  refine ⟨⟨_, a.1, a.2, by decide, by decide⟩, ⟨_, b.1, b.2, by decide⟩, ⟨_, d.1, d.2, by decide⟩, fun n => ?_⟩
  have e := stands_spec (i := .traceW .stop .always 3 (.v 2)) (s := tracing n) (by cases n <;> decide +kernel)
  exact ⟨_, e.1, e.2, by cases n <;> decide +kernel, by cases n <;> decide +kernel, by cases n <;> decide +kernel,
    by cases n <;> decide +kernel⟩

/-- The grid has a trap handler. -/
def handled : State := ready.onGroup 0 fun g => { g with info := { g.info with handler := some 9 } }

theorem witness_TrapEntry (g : Guard) (hg : g ∈ [Guard.p 0, .p 1]) : ∃ c, cx? (.trap .stop g 7 (.v 2)) handled = some c ∧
    c.Clear ∧ c.g.info.handler = some 9 ∧ c.g.trap = none ∧ c.g.pend = [] ∧ c.g.traps = [] ∧ (c.guard g = 0 ↔ g = .p 1) := by
  have h : ∀ g ∈ [Guard.p 0, .p 1], stands (.trap .stop g 7 (.v 2)) handled = true ∧
      (cxOf (.trap .stop g 7 (.v 2)) handled).g.info.handler = some 9 ∧ (cxOf (.trap .stop g 7 (.v 2)) handled).g.trap = none ∧
      (cxOf (.trap .stop g 7 (.v 2)) handled).g.pend = [] ∧ (cxOf (.trap .stop g 7 (.v 2)) handled).g.traps = [] ∧
      ((cxOf (.trap .stop g 7 (.v 2)) handled).guard g = 0 ↔ g = .p 1) := by decide
  exact ⟨_, (stands_spec (h g hg).1).1, (stands_spec (h g hg).1).2, (h g hg).2⟩

theorem witness_UnhandledTrapStopsItsGrid : ∃ c gk x, cx? (.nop false) ready = some c ∧ c.g.info.handler = none ∧
    c.g.pend = [] ∧ gk ∈ c.g.grids ∧ c.s.grid? gk = some x :=
  ⟨_, 0, _, cxOf_spec (by decide), by decide, by decide, by decide, rfl⟩

/-! ## Witnesses: copies, barriers, collectives, paths and matrix words -/

/-- v10 and v1 are zero, v11 names the descriptor at 0x10100, v12 a command with its descriptor in the scratchpad, v14 one that
writes the scratchpad; barrier 0 is set up. -/
def commanding : State :=
  let s := primed.onGroup 0 (Group.holding [(11, fun _ => 0x10100), (12, fun _ => 2 ^ 19), (14, fun _ => 2 ^ 20)])
  s.onTeam 0 fun m => { m with nb := m.nb.set 0 ⟨true, 2, 0, 0, 0, 0⟩ }

theorem global_spec {c c' : Cx} {lane cmd addr : Nat} {ws : List W64} (h : cmd.testBit 19 = false)
    (r : c.Reads lane addr 64 64 c' ws) : c.Descriptor lane cmd addr c' ws := by
  rw [Cx.Descriptor, h]
  exact r

/-- The unit after it has read a descriptor of its scratchpad. -/
def scratchRead (c : Cx) (addr : Nat) : Cx :=
  { c with s := onScratch c.s c.g.info.team fun _ => c.scratch.check [addr / 32, addr / 32 + 1] }

theorem scratch_spec {c : Cx} {lane cmd addr : Nat} (h : cmd.testBit 19 = true) (r : addr % 64 = 0 ∧ addr + 64 ≤ c.scratch.size)
    (b : ∀ j ∈ List.range 2, c.scratch.isBusy (addr / 32 + j) = false ∧
      (c.scratch.check [addr / 32, addr / 32 + 1]).poison.contains (addr / 32 + j) = false)
    (i : ∀ w ∈ wordsOf addr 64, c.scratch.isInit w = true) :
    c.Descriptor lane cmd addr (scratchRead c addr)
      (wordsOfBytes (c.scratch.take addr 64) 8) := by
  rw [Cx.Descriptor, h]
  exact ⟨r.1, r.2, rfl, rfl, fun j hj => b j (List.mem_range.2 hj), i⟩

theorem passes_spec {b : Box} {ws : List W64} (h : b.malformed ws = false ∧ b.misaligned = none ∧ b.wild = none) : b.passes ws := h

/-- The queues of the group's core are full. -/
def crammed (s : State) : State := s.setQueues 0
  { copy := List.replicate 64 (.op ⟨0, 0, [], 0, 1, 0, 0, [], false, 0, false, false, [], none⟩)
    coll := List.replicate 8 (.op ⟨0, 0, [], 0, 1, 0, 0, 0, CollDesc.of [], 0, none, 0, 0, 0, [], [], none, 0, [], false, 0, none, 0, false⟩)
    path := List.replicate 8 (.op ⟨0, .finish⟩), matFences := [] }

/-- The descriptor names a box of more than 4,096 sectors. -/
def vast : State := physWrite (inRegion commanding) 0x10110 (leBytes 8 0xFFFFFF)

/-- The copy's unit after its descriptor has come from 0x10100, and the descriptor. -/
def copyDesc (i : Instr) (s : State) : Cx × List W64 :=
  ((descOf (cxOf i s) 0 0x10100 64).2.2.2, wordsOfBytes (descOf (cxOf i s) 0 0x10100 64).1 8)

theorem copyDesc_spec {i : Instr} {s : State} (h : stands i s = true)
    (hx : (Cx.mapped (cxOf i s) .read false [(0, 0x10100)]).1.denied = [] ∧
      (Cx.mapped (cxOf i s) .read false [(0, 0x10100)]).1.waiting = [] ∧
      missRoom (Cx.mapped (cxOf i s) .read false [(0, 0x10100)]).2 (coreOf (cxOf i s).k) = true ∧
      ∀ e ∈ [(0, 0x10100)], slogHolds (Cx.mapped (cxOf i s) .read false [(0, 0x10100)]).2 (coreOf (cxOf i s).k)
        (cxOf i s).g.info.ctx e.2
        (some ((cxOf i s).sp.logMark.getD (Cx.mapped (cxOf i s) .read false [(0, 0x10100)]).2.vm.slogNext)) = false)
    (ho : (Cx.mapped (cxOf i s) .read false [(0, 0x10100)]).1.ok =
        [firstLane (Cx.mapped (cxOf i s) .read false [(0, 0x10100)]).1] ∧
      (firstLane (Cx.mapped (cxOf i s) .read false [(0, 0x10100)]).1).leaf.tgt = 0 ∧ (descOf (cxOf i s) 0 0x10100 64).2.1 = false)
    (hf : ((cxOf i s).after (Cx.mapped (cxOf i s) .read false [(0, 0x10100)]).2).fits 0
      (((cxOf i s).after (Cx.mapped (cxOf i s) .read false [(0, 0x10100)]).2).newHolds ((List.range 2).map
        ((firstLane (Cx.mapped (cxOf i s) .read false [(0, 0x10100)]).1).pa / 32 + ·)))) :
    cx? i s = some (cxOf i s) ∧ (cxOf i s).Clear ∧
      (cxOf i s).Reads 0 0x10100 64 64 (copyDesc i s).1 (copyDesc i s).2 :=
  ⟨(stands_spec h).1, (stands_spec h).2, reads_spec (by decide) hx ho hf⟩

/-- A copy with its command in a register and its descriptor at 0x10100. -/
def copyI (ragged : Bool) (cmd : VReg) : Instr := copyInstr ragged .stop (.p 0) (.v cmd) (.v 11)

/-- A copy whose descriptor lies in the scratchpad. -/
def copyS (ragged : Bool) : Instr := copyInstr ragged .stop (.p 0) (.v 12) (.v 7)

theorem witness_CopyEntersItsQueue (ragged : Bool) :
    (∃ c, cx? (copyInstr ragged .stop (.p 1) (.v 10) (.v 11)) commanding = some c ∧ c.Clear ∧ (c.guard (.p 1)).lowest? = none) ∧
    (∀ n, ∃ c c' ws, cx? (copyI ragged 10) (if n then crammed commanding else commanding) = some c ∧ c.Clear ∧
      c.g.region = none ∧ (c.guard (.p 0)).lowest? = some 0 ∧ cmdLegal 0 false = true ∧ c.Reads 0 0x10100 64 64 c' ws ∧
      (Box.of 0 ws ragged).passes ws ∧ (64 ≤ (queueOps (c'.s.queues (coreOf c.k)).copy).length ↔ n = true) ∧
      copyLeaving c'.s c.k = false) ∧
    (∃ c c' ws, cx? (copyS ragged) commanding = some c ∧ c.Clear ∧ c.g.region = none ∧
      (c.guard (.p 0)).lowest? = some 0 ∧ cmdLegal (2 ^ 19) false = true ∧
      c.Descriptor 0 (2 ^ 19) ((c.opB .stop .int (.v 12) (.v 7)).lane 0).toNat c' ws ∧ (Box.of (2 ^ 19) ws ragged).passes ws) ∧
    (∀ cmd ∈ ([10, 14] : List VReg), ∃ c c' ws, cx? (copyI ragged cmd) (inRegion commanding) = some c ∧ c.Clear ∧
      c.g.region.isSome = true ∧ (c.guard (.p 0)).lowest? = some 0 ∧ c.Reads 0 0x10100 64 64 c' ws ∧
      cmdLegal ((c.opA .stop .int (.v cmd)).lane 0).toNat false = true ∧
      (Box.of ((c.opA .stop .int (.v cmd)).lane 0).toNat ws ragged).passes ws ∧
      ((Box.of ((c.opA .stop .int (.v cmd)).lane 0).toNat ws ragged).dsp = true ↔ cmd = 14) ∧ copyLeaving c'.s c.k = false ∧
      c'.fits 0 (Box.of ((c.opA .stop .int (.v cmd)).lane 0).toNat ws ragged).bound ∧
      (Box.of ((c.opA .stop .int (.v cmd)).lane 0).toNat ws ragged).bound ≤ 4096 ∧
      (queueOps (c'.s.queues (coreOf c.k)).copy).length < 64) ∧
    ∃ c c' ws, cx? (copyI ragged 14) vast = some c ∧ c.Clear ∧ c.g.region.isSome = true ∧ (c.guard (.p 0)).lowest? = some 0 ∧
      c.Reads 0 0x10100 64 64 c' ws ∧ (Box.of (2 ^ 20) ws ragged).passes ws ∧ copyLeaving c'.s c.k = false ∧
      4096 < (Box.of (2 ^ 20) ws ragged).bound := by
  have h := stands_spec (i := copyInstr ragged .stop (.p 1) (.v 10) (.v 11)) (s := commanding) (by cases ragged <;> decide)
  have h'' := stands_spec (i := copyS ragged) (s := commanding) (by cases ragged <;> decide)
  have r' : (((cxOf (copyS ragged) commanding).opB .stop .int (.v 12) (.v 7)).lane 0).toNat = 64 := by
    cases ragged <;> decide
  refine ⟨⟨_, h.1, h.2, by cases ragged <;> decide⟩, fun n => ?_, ⟨_, scratchRead (cxOf (copyS ragged) commanding) 64,
    wordsOfBytes ((cxOf (copyS ragged) commanding).scratch.take 64 64) 8, h''.1, h''.2,
    by cases ragged <;> decide, by cases ragged <;> decide, by decide, ?_, passes_spec (by cases ragged <;> decide +kernel)⟩, fun cmd hc => ?_, ?_⟩
  · have d := copyDesc_spec (i := copyI ragged 10) (s := if n then crammed commanding else commanding)
      (by cases ragged <;> cases n <;> decide +kernel) (by cases ragged <;> cases n <;> decide +kernel)
      (by cases ragged <;> cases n <;> decide +kernel) (.inl (by cases ragged <;> cases n <;> decide +kernel))
    exact ⟨_, _, _, d.1, d.2.1, by cases ragged <;> cases n <;> decide +kernel, by cases ragged <;> cases n <;> decide +kernel,
      by decide, d.2.2, passes_spec (by cases ragged <;> cases n <;> decide +kernel),
      by cases ragged <;> cases n <;> decide +kernel, by cases ragged <;> cases n <;> decide +kernel⟩
  · rw [r']
    exact scratch_spec (by decide) (by cases ragged <;> decide) (by cases ragged <;> decide) (by cases ragged <;> decide)
  · have d := copyDesc_spec (i := copyI ragged cmd) (s := inRegion commanding) (by revert cmd; cases ragged <;> decide +kernel)
      (by revert cmd; cases ragged <;> decide +kernel) (by revert cmd; cases ragged <;> decide +kernel)
      (.inr (by revert cmd; cases ragged <;> decide +kernel))
    exact ⟨_, _, _, d.1, d.2.1, by clear d; revert cmd; cases ragged <;> decide +kernel, by clear d; revert cmd; cases ragged <;> decide +kernel,
      d.2.2, by clear d; revert cmd; cases ragged <;> decide +kernel, passes_spec (by clear d; revert cmd; cases ragged <;> decide +kernel),
      by clear d; revert cmd; cases ragged <;> decide +kernel, by clear d; revert cmd; cases ragged <;> decide +kernel,
      .inr (by clear d; revert cmd; cases ragged <;> decide +kernel), by clear d; revert cmd; cases ragged <;> decide +kernel,
      by clear d; revert cmd; cases ragged <;> decide +kernel⟩
  · have d := copyDesc_spec (i := copyI ragged 14) (s := vast) (by cases ragged <;> decide +kernel)
      (by cases ragged <;> decide +kernel) (by cases ragged <;> decide +kernel) (.inr (by cases ragged <;> decide +kernel))
    exact ⟨_, _, _, d.1, d.2.1, by cases ragged <;> decide +kernel, by cases ragged <;> decide +kernel, d.2.2,
      passes_spec (by cases ragged <;> decide +kernel), by cases ragged <;> decide +kernel, by cases ragged <;> decide +kernel⟩

/-- A configured set of `m` members, and at 0x10200 a descriptor of one element for it. -/
def members (m : Nat) : State :=
  let s := [(0x100, 1 + 256 * m), (0x10200, 0x10140), (0x10208, 0x10180), (0x10220, 1), (0x10230, 2 ^ 24 + 2 * 2 ^ 8), (0x10238, 0x101A0)].foldl
    (fun s e => physWrite s e.1 (leBytes 8 e.2)) (tabled commanding)
  s.onGroup 0 (Group.holding [(13, fun _ => 0x10200)])

/-- A binding of handle 0, and a collective of the set. -/
def tileI (g : Guard) : Instr := .tile .stop g 4 10 (.v 1)

/-- See `tileI`. -/
def collI (g : Guard) : Instr := .coll .stop g (.v 13) (.v 1)

theorem witness_TileAndCollComplete :
    (∀ i ∈ [tileI (.p 0), collI (.p 0)], ∃ c, cx? i (inRegion commanding) = some c ∧ c.Clear ∧ c.g.region.isSome = true) ∧
    (∀ i ∈ [tileI (.p 1), collI (.p 1)], ∃ c, cx? i commanding = some c ∧ c.Clear ∧ c.g.region = none ∧
      (c.guard (.p 1)).lowest? = none) ∧
    (∃ c c' ws, cx? (tileI (.p 0)) commanding = some c ∧ c.Clear ∧ c.g.region = none ∧
      (c.guard (.p 0)).lowest? = some 0 ∧ cmdLegal ((c.rd.reg 10).lane 0).toNat true = true ∧
      ((c.opA .stop .int (.v 1)).lane 0).toNat < 32 ∧
      c.Descriptor 0 ((c.rd.reg 10).lane 0).toNat ((c.rd.reg 11).lane 0).toNat c' ws ∧ (Box.of 0 ws false).passes ws) ∧
    ∀ n, ∃ c c' ws, cx? (collI (.p 0)) (if n then crammed (members 1) else members 1) = some c ∧ c.Clear ∧ c.g.region = none ∧
      (c.guard (.p 0)).lowest? = some 0 ∧ bitsOf ((c.opB .stop .int (.v 13) (.v 1)).lane 0).toNat 63 5 = 0 ∧
      ((c.opB .stop .int (.v 13) (.v 1)).lane 0).getLsbD 4 = false ∧
      c.Reads 0 ((c.opA .stop .int (.v 13)).lane 0).toNat 64 64 c' ws ∧ collIllegal c'.s ws = false ∧
      (CollDesc.of ws).misaligned = none ∧ (CollDesc.of ws).wild = none ∧
      (8 ≤ (queueOps (c'.s.queues (coreOf c.k)).coll).length ↔ n = true) := by
  have a : ∀ i ∈ [tileI (.p 0), collI (.p 0)], stands i (inRegion commanding) = true ∧
      (cxOf i (inRegion commanding)).g.region.isSome = true := by decide
  have b : ∀ i ∈ [tileI (.p 1), collI (.p 1)], stands i commanding = true ∧ (cxOf i commanding).g.region = none ∧
      ((cxOf i commanding).guard (.p 1)).lowest? = none := by decide
  have h := copyDesc_spec (i := tileI (.p 0)) (s := commanding) (by decide) (by decide) (by decide) (.inl (by decide))
  have r : ((cxOf (tileI (.p 0)) commanding).rd.reg 11).lane 0 = 0x10100 := by decide
  have r' : ((cxOf (tileI (.p 0)) commanding).rd.reg 10).lane 0 = 0 := by decide
  refine ⟨fun i hi => ⟨_, (stands_spec (a i hi).1).1, (stands_spec (a i hi).1).2, (a i hi).2⟩,
    fun i hi => ⟨_, (stands_spec (b i hi).1).1, (stands_spec (b i hi).1).2, (b i hi).2⟩,
    ⟨_, (copyDesc (tileI (.p 0)) commanding).1, (copyDesc (tileI (.p 0)) commanding).2, h.1, h.2.1, by decide, by decide,
      by decide, by decide, ?_, passes_spec (by decide +kernel)⟩, fun n => ?_⟩
  · rw [r, r']
    exact global_spec (by decide) h.2.2
  · have h' := stands_spec (i := collI (.p 0)) (s := if n then crammed (members 1) else members 1) (by cases n <;> decide +kernel)
    have q : (((cxOf (collI (.p 0)) (if n then crammed (members 1) else members 1)).opA .stop .int (.v 13)).lane 0).toNat = 0x10200 := by
      cases n <;> decide +kernel
    refine ⟨_, (descOf (cxOf (collI (.p 0)) (if n then crammed (members 1) else members 1)) 0 0x10200 64).2.2.2,
      wordsOfBytes (descOf (cxOf (collI (.p 0)) (if n then crammed (members 1) else members 1)) 0 0x10200 64).1 8, h'.1, h'.2,
      by cases n <;> decide +kernel, by cases n <;> decide +kernel, by cases n <;> decide +kernel, by cases n <;> decide +kernel,
      ?_, by cases n <;> decide +kernel, by cases n <;> decide +kernel, by cases n <;> decide +kernel,
      by cases n <;> decide +kernel⟩
    rw [q]
    exact reads_spec (by decide) (by cases n <;> decide +kernel) (by cases n <;> decide +kernel)
      (.inl (by cases n <;> decide +kernel))

theorem witness_QueueAndBarrierWordsComplete :
    ∀ i ∈ [Instr.batch false 4, .qfence false 15, .qstat false 4 .cpq, .barTest false 4 0, .barInit .stop (.v 2) 0,
      .barArrive false 0], ∃ c, cx? i commanding = some c ∧ c.Clear ∧ c.g.region = none ∧ c.g.inSplits = false ∧
      c.g.batches.pending.length < 15 ∧ copyLeaving c.s c.k = false ∧
      (barrierOf c.s c.g.info.team 0).init = true ∧ (barrierOf c.s c.g.info.team 0).cnt = 0 ∧
      barrierNamed c.s c.g.info.team (coreOf c.k) 0 = false ∧ (uniform c.act (c.opA .stop .int (.v 2))).toNat = 7 := by
  have h : ∀ i ∈ [Instr.batch false 4, .qfence false 15, .qstat false 4 .cpq, .barTest false 4 0, .barInit .stop (.v 2) 0,
      .barArrive false 0], stands i commanding = true ∧ (cxOf i commanding).g.region = none ∧
      (cxOf i commanding).g.inSplits = false ∧ (cxOf i commanding).g.batches.pending.length < 15 ∧
      copyLeaving (cxOf i commanding).s (cxOf i commanding).k = false ∧
      (barrierOf (cxOf i commanding).s (cxOf i commanding).g.info.team 0).init = true ∧
      (barrierOf (cxOf i commanding).s (cxOf i commanding).g.info.team 0).cnt = 0 ∧
      barrierNamed (cxOf i commanding).s (cxOf i commanding).g.info.team (coreOf (cxOf i commanding).k) 0 = false ∧
      (uniform (cxOf i commanding).act ((cxOf i commanding).opA .stop .int (.v 2))).toNat = 7 := by decide
  exact fun i hi => ⟨_, (stands_spec (h i hi).1).1, (stands_spec (h i hi).1).2, (h i hi).2⟩

/-- The group's path in a state, in a machine with a tray for its spawns. -/
def pathing (st : PathState) : State := trayed.onGroup 0 fun g => { g with path := { g.path with st := st } }

/-- Path words with their operands in v1, which is zero, and v2. -/
def pathI : List Instr := [.pathb .stop (.v 1) (.v 1), .segl false .always 1, .pathe .stop (.v 1) (.v 1),
  .covrd .stop .always 4 (.v 2) (.v 1)]

theorem witness_PathWordsComplete_stops :
    (∀ i ∈ pathI, (∃ c, cx? i (inRegion ready) = some c ∧ c.Clear ∧ c.g.region.isSome = true ∧ c.g.inSplits = false) ∧
      (∃ c, cx? i (pathing .leaving) = some c ∧ c.Clear ∧ c.g.region = none ∧ c.g.path.st = .leaving) ∧
      ∃ c, cx? i (crammed (pathing (if i = pathI.headD i then .none else if i = .covrd .stop .always 4 (.v 2) (.v 1) then .closed
        else .opened))) = some c ∧ c.Clear ∧ c.g.region = none ∧ 8 ≤ (queueOps (c.s.queues (coreOf c.k)).path).length) ∧
    (∀ x ∈ [(PathState.opened, pathI.take 1), (.none, (pathI.drop 1).take 2), (.opened, pathI.drop 3)], ∀ i ∈ x.2,
      ∃ c ok reason, cx? i (pathing x.1) = some c ∧ c.Clear ∧ c.g.region = none ∧ pathNeeds i = some (ok, reason) ∧
        c.g.path.st ≠ .leaving ∧ ok c.g.path.st = false) ∧
    (∃ c, cx? (.pathb .stop (.v 1) (.v 6)) (pathing .none) = some c ∧ c.Clear ∧ c.g.region = none ∧ c.g.path.st = .none ∧
      let ctl := (uniform c.act (c.opB .stop .int (.v 1) (.v 6))).toNat
      tileOk ctl 0 0 (bitsOf ctl 5 0 + 1) (bitsOf ctl 13 8 + 1) = false) ∧
    (∃ c, cx? (.pathe .stop (.v 1) (.v 9)) (pathing .opened) = some c ∧ c.Clear ∧ c.g.region = none ∧ c.g.path.st = .opened ∧
      (uniform c.act (c.opA .stop .int (.v 1))).toNat = 0 ∧ (uniform c.act (c.opB .stop .int (.v 1) (.v 9))).toNat = 5) ∧
    (∃ c, cx? (.pathe .stop (.v 2) (.v 1)) (pathing .opened) = some c ∧ c.Clear ∧ c.g.region = none ∧ c.g.path.st = .opened ∧
      (uniform c.act (c.opA .stop .int (.v 2))).toNat = 7 ∧ (uniform c.act (c.opB .stop .int (.v 2) (.v 1))).toNat = 0 ∧
      findTray c.s c.g.info.ctx 7 = none) ∧
    ∃ c, cx? (.covrd .stop .always 4 (.v 1) (.v 10)) ((pathing .closed).onGroup 0 (Group.holding [(10, fun _ => 6)])) = some c ∧
      c.Clear ∧ c.g.region = none ∧ c.g.path.st = .closed ∧ c.guard .always ≠ 0 ∧
      ruleOk (uniform (c.guard .always) (c.opB .stop .int (.v 1) (.v 10))).toNat = false := by
  have a : ∀ i ∈ pathI, (stands i (inRegion ready) = true ∧ (cxOf i (inRegion ready)).g.region.isSome = true ∧
      (cxOf i (inRegion ready)).g.inSplits = false) ∧ (stands i (pathing .leaving) = true ∧
      (cxOf i (pathing .leaving)).g.region = none ∧ (cxOf i (pathing .leaving)).g.path.st = .leaving) := by decide
  have b : ∀ i ∈ pathI, let s := crammed (pathing (if i = pathI.headD i then .none else
      if i = .covrd .stop .always 4 (.v 2) (.v 1) then .closed else .opened))
      stands i s = true ∧ (cxOf i s).g.region = none ∧ 8 ≤ (queueOps ((cxOf i s).s.queues (coreOf (cxOf i s).k)).path).length := by
    decide +kernel
  have d : ∀ x ∈ [(PathState.opened, pathI.take 1), (.none, (pathI.drop 1).take 2), (.opened, pathI.drop 3)], ∀ i ∈ x.2,
      stands i (pathing x.1) = true ∧ (cxOf i (pathing x.1)).g.region = none ∧ (cxOf i (pathing x.1)).g.path.st ≠ .leaving ∧
      ((pathNeeds i).map fun y => y.1 (cxOf i (pathing x.1)).g.path.st) = some false := by decide
  have e := stands_spec (i := .pathb .stop (.v 1) (.v 6)) (s := pathing .none) (by decide)
  have f := stands_spec (i := .pathe .stop (.v 1) (.v 9)) (s := pathing .opened) (by decide)
  have g := stands_spec (i := .pathe .stop (.v 2) (.v 1)) (s := pathing .opened) (by decide)
  have h := stands_spec (i := .covrd .stop .always 4 (.v 1) (.v 10))
    (s := (pathing .closed).onGroup 0 (Group.holding [(10, fun _ => 6)])) (by decide)
  refine ⟨fun i hi => ⟨⟨_, (stands_spec (a i hi).1.1).1, (stands_spec (a i hi).1.1).2, (a i hi).1.2⟩,
      ⟨_, (stands_spec (a i hi).2.1).1, (stands_spec (a i hi).2.1).2, (a i hi).2.2⟩,
      _, (stands_spec (b i hi).1).1, (stands_spec (b i hi).1).2, (b i hi).2⟩, fun x hx i hi => ?_,
    ⟨_, e.1, e.2, by decide, by decide, by decide⟩, ⟨_, f.1, f.2, by decide, by decide, by decide, by decide⟩,
    ⟨_, g.1, g.2, by decide, by decide, by decide, by decide, by decide⟩,
    _, h.1, h.2, by decide, by decide, by decide, by decide⟩
  obtain ⟨u, v, w, y⟩ := d x hx i hi
  obtain ⟨⟨ok, r⟩, hp, hq⟩ := Option.map_eq_some_iff.1 y
  exact ⟨_, ok, r, (stands_spec u).1, (stands_spec u).2, v, hp, w, hq⟩

theorem witness_PathWordsComplete :
    (∃ c k st, cx? (.pathb .stop (.v 1) (.v 1)) (pathing .none) = some c ∧ c.Clear ∧ c.g.region = none ∧
      c.pathWord (.pathb .stop (.v 1) (.v 1)) = some (k, st)) ∧
    (∀ i ∈ [Instr.segl false .always 1, .segq false .always 1, .segc false .always 1, .pathe .stop (.v 1) (.v 1)],
      ∃ c, cx? i (pathing .opened) = some c ∧ c.Clear ∧ c.g.region = none ∧ (c.pathWord i).isSome = true ∧
        (queueOps (c.s.queues (coreOf c.k)).path).length < 8) ∧
    (∃ c tray, cx? (.pathe .stop (.v 9) (.v 1)) (pathing .opened) = some c ∧ c.Clear ∧ c.g.region = none ∧
      c.g.inSplits = false ∧ c.g.path.st = .opened ∧ (uniform c.act (c.opA .stop .int (.v 9))).toNat = 5 ∧
      (uniform c.act (c.opB .stop .int (.v 9) (.v 1))).toNat = 0 ∧ findTray c.s c.g.info.ctx 5 = some tray ∧
      (c.s.queues (coreOf c.k)).path = [] ∧
      trayFits c.s (dieOf (coreOf c.k)) c.g.info.ctx [(5, (c.g.path.records 0 c.g.info.grid).length)] = true) ∧
    ∀ g ∈ [Guard.p 0, .p 1], ∃ c, cx? (.covrd .stop g 4 (.v 2) (.v 1)) (pathing .closed) = some c ∧ c.Clear ∧
      c.g.region = none ∧ c.g.path.st = .closed ∧ (c.guard g = 0 ↔ g = .p 1) ∧
      ruleOk (uniform (c.guard g) (c.opB .stop .int (.v 2) (.v 1))).toNat = true := by
  have a := stands_spec (i := .pathb .stop (.v 1) (.v 1)) (s := pathing .none) (by decide)
  have b : ∀ i ∈ [Instr.segl false .always 1, .segq false .always 1, .segc false .always 1, .pathe .stop (.v 1) (.v 1)],
      stands i (pathing .opened) = true ∧ (cxOf i (pathing .opened)).g.region = none ∧
      ((cxOf i (pathing .opened)).pathWord i).isSome = true ∧
      (queueOps ((cxOf i (pathing .opened)).s.queues (coreOf (cxOf i (pathing .opened)).k)).path).length < 8 := by decide
  have d := stands_spec (i := .pathe .stop (.v 9) (.v 1)) (s := pathing .opened) (by decide)
  have e : ∀ g ∈ [Guard.p 0, .p 1], stands (.covrd .stop g 4 (.v 2) (.v 1)) (pathing .closed) = true ∧
      (cxOf (.covrd .stop g 4 (.v 2) (.v 1)) (pathing .closed)).g.region = none ∧
      (cxOf (.covrd .stop g 4 (.v 2) (.v 1)) (pathing .closed)).g.path.st = .closed ∧
      ((cxOf (.covrd .stop g 4 (.v 2) (.v 1)) (pathing .closed)).guard g = 0 ↔ g = .p 1) ∧
      ruleOk (uniform ((cxOf (.covrd .stop g 4 (.v 2) (.v 1)) (pathing .closed)).guard g)
        ((cxOf (.covrd .stop g 4 (.v 2) (.v 1)) (pathing .closed)).opB .stop .int (.v 2) (.v 1))).toNat = true := by decide
  have t : ((findTray (pathing .opened) (cxOf (.pathe .stop (.v 9) (.v 1)) (pathing .opened)).g.info.ctx 5)).isSome = true := by
    decide
  obtain ⟨tray, ht⟩ := Option.isSome_iff_exists.1 t
  exact ⟨⟨_, _, _, a.1, a.2, by decide, rfl⟩,
    fun i hi => ⟨_, (stands_spec (b i hi).1).1, (stands_spec (b i hi).1).2, (b i hi).2⟩,
    ⟨_, tray, d.1, d.2, by decide, by decide, by decide, by decide, by decide, ht, by decide, by decide⟩,
    fun g hg => ⟨_, (stands_spec (e g hg).1).1, (stands_spec (e g hg).1).2, (e g hg).2⟩⟩

/-- Handle 0 is bound to a tile of 4 rows of 16 numbers of 8 bytes. -/
def tiled : State := base.onTeam 0 fun m => { m with
  tiles := m.tiles.set 0 ⟨true, 3 * 2 ^ 22, [0x10000, 0, 3 * 2 ^ 24 + 15, 0, 0, 0, 0, 0], 1⟩ }

/-- Words that the engine performs, and one that the control core performs. -/
def engineI : List Instr := [.mmad false 0 8 0 2 .ru, .mmaq false 0 8 0 2 .e5m2 .e4m3, .tfact false 0 8 0 .lu,
  .tref 0 8 0 2 .lu false 3]

/-- See `engineI`. -/
def emulI : Instr := .mmaq false 0 8 0 2 .e3m2 .e4m3

/-- A product with the tile of handle 0. -/
def mmatI (f : TFmt) : Instr := .mmat .stop 0 8 0 (.v 1) f

/-- The reservation table of the cluster is full. -/
def busyTable (s : State) : State := setTable s 0 (List.replicate 32 ((cxOf (.mmad false 0 8 0 2 .ru) base).newOp 0 [] none none false))

/-- The control core is done with the group's word. -/
def emulatedAt (i : Instr) (s : State) : State := s.onGroup 0 fun g => { g with emu := some ⟨0, 0, i⟩ }

/-- The tile of the word has been fetched. -/
def fetched : State :=
  let s := emulatedAt (mmatI .int4) tiled
  setTable s 0 [(cxOf (mmatI .int4) s).newOp 0 [(cxOf (mmatI .int4) s).run 0 2, [], (cxOf (mmatI .int4) s).run 8 4]
    (some ⟨0, 0, 1, 3 * 2 ^ 22, [], some ([], [], 0, 0)⟩) none false]

theorem witness_MatrixWordEntersTheTable :
    (∀ i ∈ engineI, ∀ n, ∃ c, cx? i (if n then busyTable base else base) = some c ∧ c.Clear ∧ c.g.region = none ∧
      c.g.inSplits = false ∧ c.act = Mask.all ∧ emulated i = false ∧
      (((matTable c.s (clusterOf (coreOf c.k))).filter MatOp.native).length < 32 ↔ n = false) ∧ ∃ x, c.matWord? i = some x) ∧
    ∃ c, cx? (mmatI .f64) tiled = some c ∧ c.Clear ∧ c.g.region = none ∧ c.g.inSplits = false ∧ c.act = Mask.all ∧
      emulated (mmatI .f64) = false ∧ ((c.opA .stop .int (.v 1)).lane 0).toNat = 0 ∧
      ((c.s.team? c.g.info.team).bind fun m => m.tiles.toArray.toList[0]?) =
        some ⟨true, 3 * 2 ^ 22, [0x10000, 0, 3 * 2 ^ 24 + 15, 0, 0, 0, 0, 0], 1⟩ ∧
      (let box := Box.of (3 * 2 ^ 22) [0x10000, 0, 3 * 2 ^ 24 + 15, 0, 0, 0, 0, 0] false
       (box.planes, box.rows, box.width, box.ds) = tileBox .f64) := by
  have h : ∀ i ∈ engineI, ∀ n, stands i (if n then busyTable base else base) = true ∧
      (cxOf i (if n then busyTable base else base)).g.region = none ∧
      (cxOf i (if n then busyTable base else base)).g.inSplits = false ∧
      (cxOf i (if n then busyTable base else base)).act = Mask.all ∧ emulated i = false ∧
      (((matTable (cxOf i (if n then busyTable base else base)).s
        (clusterOf (coreOf (cxOf i (if n then busyTable base else base)).k))).filter MatOp.native).length < 32 ↔ n = false) := by
    decide +kernel
  have h' := stands_spec (i := mmatI .f64) (s := tiled) (by decide)
  refine ⟨fun i hi n => ?_, _, h'.1, h'.2, by decide, by decide, by decide, by decide, by decide, by decide, by decide⟩
  obtain ⟨a, b, d, e, f, g⟩ := h i hi n
  refine ⟨_, (stands_spec a).1, (stands_spec a).2, b, d, e, f, g, ?_⟩
  simp only [engineI, List.mem_cons, List.not_mem_nil, or_false] at hi
  rcases hi with rfl | rfl | rfl | rfl <;> exact ⟨_, rfl⟩

theorem witness_EmulatedWordCompletes :
    (∃ c, cx? emulI base = some c ∧ emulated emulI = true ∧ (c.g.reopen ≠ .now ∨ c.g.region.isSome = true) ∧
      c.g.sys.inject &&& 7 = 0 ∧ (∀ n ∈ emulI.uses.v ++ emulI.uses.d, n < c.g.names) ∧ c.g.emu = none) ∧
    (∃ c runs d n pred, cx? emulI (emulatedAt emulI base) = some c ∧ c.Clear ∧ c.g.region = none ∧ c.g.inSplits = false ∧
      c.act = Mask.all ∧ c.g.traps = [] ∧ c.matWord? emulI = some (runs, d, n, pred) ∧
      ((matTable c.s (clusterOf (coreOf c.k))).find? fun o => o.group == c.k && !o.native) = none ∧
      ((c.emuOp runs).result c.s).flags &&& c.g.info.fpen = 0 ∧ ∀ o ∈ matTable c.s (clusterOf (coreOf c.k)), o.id < c.s.eng.nextId) ∧
    (∃ c, cx? (mmatI .int4) (emulatedAt (mmatI .int4) tiled) = some c ∧ c.Clear ∧ c.g.region = none ∧ c.g.inSplits = false ∧
      c.act = Mask.all ∧ c.g.traps = [] ∧ ((c.opA .stop .int (.v 1)).lane 0).toNat = 0 ∧
      (((c.s.team? c.g.info.team).bind fun m => m.tiles.toArray.toList[0]?).map Tile.bound) = some true ∧
      ((matTable c.s (clusterOf (coreOf c.k))).find? fun o => o.group == c.k && !o.native) = none) ∧
    ∃ c o, cx? (mmatI .int4) fetched = some c ∧ c.Clear ∧ c.g.region = none ∧ c.g.inSplits = false ∧ c.act = Mask.all ∧
      c.g.traps = [] ∧ ((c.opA .stop .int (.v 1)).lane 0).toNat = 0 ∧
      ((matTable c.s (clusterOf (coreOf c.k))).find? fun o => o.group == c.k && !o.native) = some o ∧
      (o.tile.bind TileUse.got).isSome = true ∧ (o.result c.s).trap = none ∧ (o.result c.s).flags &&& c.g.info.fpen = 0 := by
  have a := cxOf_spec (i := emulI) (s := base) (by decide)
  have b := stands_spec (i := emulI) (s := emulatedAt emulI base) (by decide)
  have d := stands_spec (i := mmatI .int4) (s := emulatedAt (mmatI .int4) tiled) (by decide)
  have e := stands_spec (i := mmatI .int4) (s := fetched) (by decide +kernel)
  have p : (cxOf emulI (emulatedAt emulI base)).g.info.fpen = 0 := by decide
  have q : (cxOf (mmatI .int4) fetched).g.info.fpen = 0 := by decide +kernel
  exact ⟨⟨_, a, by decide, by decide, by decide, by decide, by decide⟩,
    ⟨_, _, _, _, _, b.1, b.2, by decide, by decide, by decide, by decide, rfl, by decide, by rw [p]; exact BitVec.and_zero,
      by decide⟩,
    ⟨_, d.1, d.2, by decide, by decide, by decide, by decide, by decide, by decide, by decide⟩,
    _, _, e.1, e.2, by decide +kernel, by decide +kernel, by decide +kernel, by decide +kernel, by decide +kernel, rfl, rfl, rfl,
    by rw [q]; exact BitVec.and_zero⟩

/-- A joint product. -/
def mmajI : Instr := .mmaj false 0 8 0 2 .bf16

/-- Partners of the group stand on the other clusters of its four; their words have come, or not. -/
def quad (come : Bool) : State :=
  let g := (cxOf mmajI base).g
  let s := [128, 256, 384].foldl (fun s k => s.setGroup k g) base
  if come then
    [1, 2, 3].foldl (fun s n => setTable s n
      [{ (cxOf mmajI base).newOp (10 + n) [] none (some 0) false with group := 128 * n, core := 4 * n }]) s
  else s

/-- The unit's entry for the joint product, and the state with it. -/
def gathers (s : State) : MatOp × State :=
  (cxOf mmajI s).gathered [(cxOf mmajI s).run 0 2, (cxOf mmajI s).run 2 2, (cxOf mmajI s).run 8 4]

/-- The group has tried before, and its entry stands in the table. -/
def again (s : State) : State :=
  (setTable s 0 [(gathers s).1]).onGroup 0 fun g => { g with splits := g.splits.map fun sp => { sp with hold := some (.wait .mmaj) } }

/-- What the joint product asks of a group of class C whose partners are there. -/
def joins (s : State) : Prop := ∃ c, cx? mmajI s = some c ∧ c.Clear ∧ c.g.inSplits = false ∧ c.act = Mask.all ∧ c.cls = 0 ∧
  c.g.region = none ∧ (∀ n ∈ List.range 4, partnersOn c.s (quadOf (coreOf c.k) + n) c.g.info.grid c.g.info.ix ≠ []) ∧
  (∀ o ∈ matTable c.s (clusterOf (coreOf c.k)), o.group = c.k → o.core = coreOf c.k)

theorem joins_spec {s : State} (h : stands mmajI s = true) (p : (cxOf mmajI s).g.inSplits = false ∧ (cxOf mmajI s).act = Mask.all ∧
    (cxOf mmajI s).cls = 0 ∧ (cxOf mmajI s).g.region = none ∧ (∀ n ∈ List.range 4, partnersOn (cxOf mmajI s).s
      (quadOf (coreOf (cxOf mmajI s).k) + n) (cxOf mmajI s).g.info.grid (cxOf mmajI s).g.info.ix ≠ []) ∧
    (∀ o ∈ matTable (cxOf mmajI s).s (clusterOf (coreOf (cxOf mmajI s).k)), o.group = (cxOf mmajI s).k →
      o.core = coreOf (cxOf mmajI s).k)) : joins s :=
  ⟨_, (stands_spec h).1, (stands_spec h).2, p⟩

theorem witness_JointProductGathers (come : Bool) : joins (quad come) ∧ (cxOf mmajI (quad come)).sp.hold ≠ some (.wait .mmaj) ∧
    ((matTable (gathers (quad come)).2 0).filter MatOp.native).length ≤ 32 ∧
    (jointAll (gathers (quad come)).2 0 0 (cxOf mmajI (quad come)).g.info.ix (cxOf mmajI (quad come)).g.mmaj).isSome = come ∧
    joins (again (quad come)) ∧ (cxOf mmajI (again (quad come))).sp.hold = some (.wait .mmaj) ∧
    (∃ o ∈ matTable (again (quad come)) 0, o.group = 0 ∧ o.mmaj = some (cxOf mmajI (again (quad come))).g.mmaj) ∧
    (jointAll (gathers (again (quad come))).2 0 0 (cxOf mmajI (again (quad come))).g.info.ix
      (cxOf mmajI (again (quad come))).g.mmaj).isSome = come :=
  ⟨joins_spec (by cases come <;> decide) (by cases come <;> decide), by cases come <;> decide, by cases come <;> decide,
    by cases come <;> decide, joins_spec (by cases come <;> decide +kernel) (by cases come <;> decide +kernel),
    by cases come <;> decide +kernel, by cases come <;> decide +kernel, by cases come <;> decide +kernel⟩

theorem witness_JointProductGathers_stops :
    (∃ c, cx? mmajI ((quad false).onGroup 0 fun g => { g with info := { g.info with cls := 1 } }) = some c ∧ c.Clear ∧
      c.g.inSplits = false ∧ c.act = Mask.all ∧ c.cls ≠ 0) ∧
    (∃ c, cx? mmajI (inRegion (quad false)) = some c ∧ c.Clear ∧ c.g.inSplits = false ∧ c.act = Mask.all ∧ c.cls = 0 ∧
      c.g.region.isSome = true) ∧
    (∃ c, cx? mmajI base = some c ∧ c.Clear ∧ c.g.inSplits = false ∧ c.act = Mask.all ∧ c.cls = 0 ∧ c.g.region = none ∧
      partnerAway c.s c.g.info.grid c.g.info.ix = false ∧ ∃ n < 4, partnersOn c.s (quadOf (coreOf c.k) + n) c.g.info.grid c.g.info.ix = []) ∧
    joins (busyTable (quad false)) ∧ (cxOf mmajI (busyTable (quad false))).sp.hold ≠ some (.wait .mmaj) ∧
    ¬ ((matTable (gathers (busyTable (quad false))).2 0).filter MatOp.native).length ≤ 32 := by
  have a := stands_spec (i := mmajI) (s := (quad false).onGroup 0 fun g => { g with info := { g.info with cls := 1 } }) (by decide)
  have b := stands_spec (i := mmajI) (s := inRegion (quad false)) (by decide)
  have d := stands_spec (i := mmajI) (s := base) (by decide)
  exact ⟨⟨_, a.1, a.2, by decide, by decide, by decide⟩, ⟨_, b.1, b.2, by decide, by decide, by decide, by decide⟩,
    ⟨_, d.1, d.2, by decide, by decide, by decide, by decide, by decide, 1, by decide, by decide⟩,
    joins_spec (by decide +kernel) (by decide +kernel), by decide +kernel, by decide +kernel⟩

/-! ## Witnesses: events -/

/-- The state in which a meaning leaves the machine. -/
def outState (o : Host.Outcome State Fault Refusal) (s : State) : State :=
  match o with
  | .next t => t
  | _ => s

/-- A value is there, and `p` holds of it. -/
def has {α : Type} (o : Option α) (p : α → Bool) : Bool :=
  match o with
  | some x => p x
  | none => false

theorem has_spec {α : Type} {o : Option α} {p : α → Bool} (h : has o p = true) : ∃ x, o = some x ∧ p x = true := by
  cases o with
  | none => cases h
  | some x => exact ⟨x, rfl, h⟩

theorem witness_RegisterWriteReadsBack : base.hostReady = true ∧ plainRegisters.length = 14 := by decide

/-- The list of bad pages holds a page; the context is preempted. -/
def listed : State :=
  (base.onMs fun ms => { ms with bpl := [5] }).onWork fun w => { w with ctxs := w.ctxs.map fun x => (x.1, { x.2 with preempted := true }) }

theorem witness_HostCommandsComplete : base.hostReady = true ∧ listed.hostReady = true ∧ base.ms.bplBusy = false ∧
    (5 ∉ base.ms.bpl ∧ base.ms.bpl.length < 8192) ∧ 5 ∈ listed.ms.bpl ∧ base.vm.regs.busy = false ∧ 63 < base.work.hq.length ∧
    (hqOf base 63).en = false ∧ base.minimal = false ∧ 0 < (hqOf base 63).ring ∧ 0 < base.pkg.trace.length ∧
    base.pkg.boot.mbBusy = false ∧ base.work.sched.preBusy = false ∧
    (∃ c, base.ctx? 1 = some c ∧ c.preempted = false ∧ c.saving = false) ∧ ∃ c, listed.ctx? 1 = some c ∧ c.preempted = true :=
  ⟨by decide, by decide, by decide, by decide, by decide, by decide, by decide, by decide, by decide, by decide, by decide,
    by decide, by decide, ⟨_, rfl, by decide, by decide⟩, _, rfl, by decide⟩

/-- A write packet of one sector has arrived: the whole sector, or some of its bytes; or a read packet. -/
def packeted (wr whole : Bool) : State :=
  if wr then outState (execWr 34 ⟨0, 1⟩ 0x202 1 [if whole then fullMask else 0xFF] [0x1234] base) base
  else outState (execRd 34 ⟨0, 1⟩ 0x202 1 false base) base

/-- That packet is performed. -/
def performed (wr : Bool) : State :=
  if wr then outState (exec (.writePerformed (channelOf 0x202) 0) (packeted true true)) base
  else
    let s := outState (exec (.readServiceComplete (channelOf 0x202) 0) (packeted false false)) base
    s.onMs fun ms => setL2Sector ms 0 0x808 ⟨.f, 0, false, 0, 0⟩ 0

theorem witness_BaseDieEventsComplete :
    mayArrive base 34 0 0x202 = true ∧
    (∀ wr whole : Bool, Memory.wf (packeted wr whole).ms.mem = true ∧ ∃ p, oneSector (packeted wr whole) (channelOf 0x202) 0 0 p ∧
      p.wr = wr ∧ ((packeted wr whole).chan (channelOf 0x202)).wbuf.length < 64 ∧ (wr = true → (p.masks.getD 0 0 = fullMask ↔ whole = true))) ∧
    (Memory.wf (performed false).ms.mem = true ∧ ∃ p x b k, packetOf (performed false) (channelOf 0x202) 0 = some p ∧ p.wr = false ∧
      p.served = true ∧ p.got = [(0, x, b, k)] ∧ (l2Sector (performed false).ms (p.slice / 48) (p.line * 4)).st = .f ∧
      missesOf (performed false) p.slice = []) ∧
    (Memory.wf (performed true).ms.mem = true ∧ ((performed true).chan (channelOf 0x202)).wbuf ≠ [] ∧
      ∃ p, packetOf (performed true) (channelOf 0x202) 0 = some p ∧ p.wr = true ∧ p.served = true ∧
        missesOf (performed true) p.slice = []) ∧
    ((base.chan (channelOf 0x202)).packets = [] ∧ 0x808 * 32 < Config.memBytes) ∧
    sliceOf (0x10100 / 128) = 34 % 48 ∧ outsideMemory 0x10100 = false ∧ homeHolding (atHome ready).ms (0x10100 / 32) = some (34 / 48) ∧
    missesOf (atHome ready) 34 = [] ∧ NMap.get? (atHome ready).ms.l2marks (l2MarkKey (34 / 48) (0x10100 / 32)) = none ∧
    ((atHome ready).chan (channelOf (0x10100 / 128))).packets = [] := by
  have a : ∀ wr whole : Bool, has (packetOf (packeted wr whole) (channelOf 0x202) 0) (fun p =>
      p.line == 0x202 && p.sectors == 1 && p.doneSecs == 0 && p.got.isEmpty && !p.served && sectorFree (packeted wr whole) (channelOf 0x202) p 0 &&
      !rowMoving (packeted wr whole) p.line && p.wr == wr && (!wr || decide (p.masks.getD 0 0 = fullMask ↔ whole = true)) &&
      (NMap.get? (packeted wr whole).ms.marks (p.line * 4)).isNone) = true := by decide
  have b : has (packetOf (performed false) (channelOf 0x202) 0) (fun p => !p.wr && p.served && p.got == [(0, 0, false, false)] &&
      decide ((l2Sector (performed false).ms (p.slice / 48) (p.line * 4)).st = .f) &&
      (missesOf (performed false) p.slice).isEmpty) = true := by decide
  have d : has (packetOf (performed true) (channelOf 0x202) 0) (fun p => p.wr && p.served && (missesOf (performed true) p.slice).isEmpty) = true := by decide
  refine ⟨by decide, fun wr whole => ⟨by cases wr <;> cases whole <;> decide, ?_⟩, ⟨by decide, ?_⟩, ⟨by decide, by decide, ?_⟩,
    by decide, by decide, by decide, by decide, by decide, by decide, by decide⟩
  · obtain ⟨p, hp, h⟩ := has_spec (a wr whole)
    simp only [Bool.and_eq_true, Bool.or_eq_true, Bool.not_eq_true', beq_iff_eq, List.isEmpty_iff, Option.isNone_iff_eq_none,
      decide_eq_true_eq] at h
    obtain ⟨⟨⟨⟨⟨⟨⟨⟨⟨h0, h1⟩, h2⟩, h3⟩, h4⟩, h5⟩, h6⟩, h7⟩, h8⟩, h9⟩ := h
    exact ⟨p, ⟨hp, by rw [h0], h9, by decide, h1, h2, h3, h4, h5, h6⟩, h7, by cases wr <;> cases whole <;> decide,
      fun hw => h8.resolve_left (by rw [hw]; decide)⟩
  · obtain ⟨p, hp, h⟩ := has_spec b
    simp only [Bool.and_eq_true, Bool.not_eq_true', beq_iff_eq, List.isEmpty_iff, decide_eq_true_eq] at h
    obtain ⟨⟨⟨⟨h1, h2⟩, h3⟩, h4⟩, h5⟩ := h
    exact ⟨p, _, _, _, hp, h1, h2, h3, h4, h5⟩
  · obtain ⟨p, hp, h⟩ := has_spec d
    simp only [Bool.and_eq_true, List.isEmpty_iff] at h
    exact ⟨p, hp, h.1.1, h.1.2, h.2⟩

/-! ## Ill-formed terms and words are refused -/

/-- Terms that the encoding cannot say, one for each check. -/
def illFormed : List Instr :=
  [.iadd (.lit 5 false) .always (.v 1) (.v 2) (.v 3) .w64, .iadd .stop .always (.v 1) (.v 2) .lit .w64,
   .task .stop .lit, .icmp32 .stop .always ⟨11, true⟩ (.v 1) (.v 2) .eq, .pand false .always ⟨11, true⟩ 0 1,
   .fcvt .stop .always (.v 1) (.v 2) 0x20 .rz true, .ffrexp .stop .always 23 (.v 1) .f32, .frsq .stop 0 (.v 1) (.v 2) .rz .f64,
   .cvtn .stop .always (.v 1) (.v 2) 6 .rn false, .cvtn .stop .always (.v 1) (.v 2) 0 .rn true,
   .mmas 0 12 4 6 .e4m3 false 8 9 2 0, .mmat .stop 0 8 0 (.k 1) .f64, .ld .always 0 (.v 23) (.v 6) 0 false .b128,
   .ldc .always 0 (.k 0) (.v 6) 0 false .b128, .st .always (.v 2) (.v 6) 0 false .i32, .st .always (.v 23) (.v 6) 0 false .b128,
   .stl .always .lit (.v 6) 0 false .b32, .atom .always 0 (.v 2) (.v 6) 0 false .and .n32 .dev (.v 5),
   .red .always (.v 2) (.v 6) 0 false .inc .f32 .dev, .acas .always 0 (.v 2) (.v 6) 0 false .n32 .dev (.v 3) (.v 5),
   .axch .always 0 (.v 2) (.v 6) 0 false .b16 .dev (.v 5), .waitm false .always 0 23 .eq .w64, .qfence false 0,
   .tile .stop .always 0 23 (.v 1), .launch .stop .always 0 (.k 1) (.v 2), .waitchild .stop 0 (.k 1),
   .spawn .stop .always (.k 1) .zero, .yieldW .stop .always (.k 1) .zero, .trap .stop .always 3 (.k 1), .setsr .stop .always 0 (.k 1),
   .traceW .stop .always 0 (.k 1), .pathb .stop (.k 1) (.v 1), .pathe .stop (.v 1) (.k 1), .covrd .stop .always 0 (.k 1) (.v 1)]

theorem test_ill_formed_refused : (illFormed.all fun i => !i.wf) = true := by decide

/-- Words that the spec calls illegal: K with PD4 = 11 (R205), a guard that names no predicate (R205), MOVS with D5 = 16 (R229), MMAS
without a modifier (R207), QFENCE of no queue (R339), and literal words in an instruction's place (R202). -/
theorem test_illegal_words_refused : ([0x12391872, 0x0E101BC3, 0x4C000000, 0x7E000000].all fun w =>
    match decodeWords [w, 0x78B00000] with
    | .ok _ => false
    | .error _ => true) = true := by decide

/-! ## Single steps of the spec's worked cases -/

/-- The state after a word. -/
def after (i : Instr) (s : State) : State := outState (exec i s) s

/-- A register of the group in a lane. -/
def regOf (s : State) (n l : Nat) : W64 := ((s.group? 0).map fun g => (g.reg n).lane l).getD 0

/-- The flags of the group. -/
def flagsOf (s : State) : Nat := ((s.group? 0).map fun g => g.sys.fflags.toNat).getD 0

/-- The value that the group's last pending result gives a lane. -/
def pendOf (s : State) (l : Nat) : W64 := (((s.group? 0).bind fun g => g.pend.getLast?).bind fun p => p.vals.head?.map fun v => v.lane l).getD 0

/-- Lanes 0 to 3 active, v1 with the values of chapter 10's case. -/
def four : State := unit fun g =>
  { Group.holding [(1, fun l => if l ≤ 3 then 10 + 10 * l else 50), (2, fun l => [20, 30, 40, 40].getD l 7)] g with
    splits := g.splits.map fun sp => { sp with m := 0xF } }

theorem test_route_shift : decodeWords [0x980207F5, 0x7E000501] = .ok (.routeShift (.lit 0x501 false) .always (.v 2) (.v 1) .lit .w64, 2) ∧
    (List.range 5).map (regOf (after (.routeShift (.lit 0x501 false) .always (.v 2) (.v 1) .lit .w64) four) 2) = [20, 30, 40, 40, 7] := by
  decide +kernel

theorem test_route_rot_segment :
    regOf (after (.routeRot (.lit 0x201 false) .always (.v 2) (.v 1) .lit .w64) four) 2 3 = 10 := by decide +kernel

theorem test_census : regOf (after (.censusNz .stop .always (.v 3) (.v 1)) four) 3 2 = 0x000007040000000F := by
  decide +kernel

theorem test_peers : (List.range 4).map (regOf (after (.peers .stop .always (.v 4) (.v 2) .w64) four) 4) =
    [0x0000002000000001, 0x0000002000000002, 0x000000200000000C, 0x000000010000000C] := by decide +kernel

theorem test_iaddc : regOf (after (.iaddc .stop .always (.v 5) (.v 0) (.v 2) .w64)
    (holding [(0, fun _ => 2 ^ 64 - 1), (2, fun _ => 1)])) 5 0 = 1 := by decide +kernel

/-- FCVT of a bit pattern. -/
def converted (x f : Nat) (r : Rnd) : W64 × Nat :=
  let t := after (.fcvt .stop .always (.v 5) (.v 4) (BitVec.ofNat 6 f).toFin r false) (holding [(4, fun _ => x)])
  (regOf t 5 0, flagsOf t)

theorem test_fcvt : converted 0x4004000000000000 0x20 .rn = (2, 1) ∧ converted 0x4004000000000000 0x20 .ra = (3, 1) ∧
    converted 0x4202A05F20000000 0x20 .rn = (0x7FFFFFFF, 16) ∧ converted 0xBFE0000000000000 0x22 .rz = (0, 1) ∧
    converted 0xBFE0000000000000 0x22 .rd = (0, 16) := by decide +kernel

theorem test_fdiv_brackets_a_third :
    pendOf (after (.fdiv .stop 1 (.v 2) (.v 0) (.v 1) .rd .f64)
      (holding [(0, fun _ => 0x3FF0000000000000), (1, fun _ => 0x4008000000000000)])) 0 = 0x3FD5555555555555 ∧
    pendOf (after (.fdiv .stop 0 (.v 3) (.v 0) (.v 1) .ru .f64)
      (holding [(0, fun _ => 0x3FF0000000000000), (1, fun _ => 0x4008000000000000)])) 0 = 0x3FD5555555555556 := by decide +kernel

theorem test_scls : regOf (after (.scls .stop .always (.v 9) (.v 3) (.v 8) 2)
    (holding [(3, fun _ => 0xC0B00000), (8, fun _ => 0x1111222233334444)])) 9 0 = 0x1111CB7F33334444 := by decide +kernel

theorem test_sclx :
    let t := after (.sclx .stop .always (.v 10) (.v 4) (.v 9) 2)
      (holding [(4, fun _ => 0xC0E0403AC0B040A0), (9, fun _ => 0x0000CB7F00000000)])
    regOf t 10 0 = 0xF586 ∧ flagsOf t = 5 := by decide +kernel

/-- The exact sum of a K group keeps 1.0 beside 2^30 - 2^30 + 2^-30 (R173). -/
theorem test_k_group : kGroup 0x3F800000 [(Fmt.f32.value 0x47000000, Fmt.f32.value 0x47000000),
    (Fmt.f32.value 0xC7000000, Fmt.f32.value 0x47000000), (Fmt.f32.value 0x38000000, Fmt.f32.value 0x38000000)] =
    (0x3F800000, 1) := by decide +kernel

/-- Chapter 14's atomic: A = 0x10100 holds 10 and A + 4 holds 100. -/
def summing : State := (physWrite ready 0x10100 [10, 0, 0, 0, 100, 0, 0, 0]).onGroup 0 fun g =>
  { Group.holding [(4, fun l => if l = 2 then 0x10104 else 0x10100), (5, fun l => 1 + l)] g with
    splits := g.splits.map fun sp => { sp with m := 0xF } }

theorem test_atom_add :
    let t := after (.atom .always 0 (.v 5) (.v 4) 0 false .add .n32 .dev (.v 3)) summing
    (List.range 4).map (pendOf t) = [10, 11, 100, 13] ∧ byteNow t.ms 0x10100 = 17 ∧ byteNow t.ms 0x10104 = 103 := by decide +kernel

/-- Chapter 8's second line: the guarded sum reads the newest entry of the result queue. -/
theorem test_fadd_ages :
    let s := after (.fmul .stop .always (.v 1) (.v 2) (.v 3) .rn .f64)
      (holding [(2, fun _ => 0x4000000000000000), (3, fun _ => 0x4008000000000000), (5, fun _ => 0x3FF0000000000000)])
    regOf (after (.fadd .stop .always (.v 4) (.age 0) (.v 5) .rn .f64) s) 4 0 = 0x401C000000000000 := by decide +kernel

/-- Chapter 2's line: PA 0xC080 is in channel 4 (R18); chapter 1's core: core 358 is of die 3 and cluster 89 (R13). -/
theorem test_placement : channelOf (0xC080 / 128) = 4 ∧ dieOf 358 = 3 ∧ clusterOf 358 = 89 := by decide

/-- That state at a later time. -/
def aged (s : State) : State := { s with clock := { s.clock with cycle := 2000000, dtime := 200000 } }

/-- A result of a group: a register with a value, due at a cycle. -/
def due (n : Nat) : Pending := ⟨.cycle n, ⟨0, 0⟩, [], Mask.all, [], 1, [5], 0, [LaneReg.ofFn fun _ => 7], none, none, 0, 0, none, 0⟩

/-- The group in hand with its split held. -/
def heldBy (h : Hold) (s : State) : State := aged (s.onGroup 0 fun g =>
  { g with splits := g.splits.map fun sp => { sp with hold := some h, waitStart := some 0, reread := 1 } })

/-- In a region whose fence validates a load; the load's line has been written since, or not. -/
def validating (stale : Bool) : State :=
  let s := aged ((inRegion base).onGroup 0 fun g => g.onRegion fun r => { r with fences := [⟨.ld, .ld, .grp, [], [⟨0, 0, 0⟩]⟩] })
  if stale then s.onMs fun ms => { ms with times := [(0, ⟨0, 9⟩)] } else s

/-- Another group of the core buffers in a region, whose result is pending, while the first waits for the budget. -/
def crowded : State :=
  let s := heldBy .budget base
  s.setGroup 1 ((Group.opened (cxOf (.nop false) base).g).onRegion fun r => r.store false 0x10100 none (.store 0x1234 0xFF) 0) |>.onGroup 1 fun g =>
    { g with pend := [due 3000000] }

/-- A region whose COMMIT waits. -/
def committing : State := (heldBy .commit (inRegion ready)).onGroup 0 fun g => g.onRegion fun r =>
  { r with
    phase := .commitWait
    after := .close }

/-- A release is due. -/
def releasing (e : Effect) : State :=
  let s := aged ready
  s.onWork fun w => { w with releases := [⟨0, 0, 0, 0, 1, e, [], 0⟩] }

/-- A tray holds a record. -/
def laden : State := aged (trayed.onWork fun w => { w with trays := [⟨1, 0, 5, [⟨[(3, 4)], 0, 0⟩]⟩] })

/-- A class P group waits in WAITM for long; teams of its grid are not admitted, or all are. -/
def watched (more : Bool) : State :=
  let s := (heldBy (.wait .waitm) base).onGroup 0 fun g => { g with info := { g.info with cls := 1 } }
  s.onWork fun w => { w with grids := w.grids.map fun x => (x.1, { x.2 with total := if more then 2 else 1 }) }

theorem witness_GroupEventsComplete :
    (∃ g, base.group? 0 = some g) ∧
    (∃ g p n, (unit fun g => { g with pend := [due 0] }).group? 0 = some g ∧ g.traps = [] ∧
      g.pend.find? (pendDue (unit fun g => { g with pend := [due 0] }) 0) = some p ∧ p.on = .cycle n ∧ p.trap = none ∧ p.pred = none ∧
      p.flags &&& g.info.fpen = 0) ∧
    (∃ g, base.group? 0 = some g ∧ base.pkg.outreqs = []) ∧
    (∃ g sp, (heldBy (.fence .st .st .dev) base).group? 0 = some g ∧ g.split? 0 = some sp ∧ sp.hold = some (.fence .st .st .dev) ∧
      fenceHolds (heldBy (.fence .st .st .dev) base) 0 (g.settle (heldBy (.fence .st .st .dev) base))
        ((g.settle (heldBy (.fence .st .st .dev) base)).out.filter fun o => o.split == sp.id) .st .dev = true) ∧
    (∀ stale : Bool, ∃ g f r, (validating stale).group? 0 = some g ∧ fenceSDue (validating stale) 0 = some f ∧ g.region = some r ∧
      g.proxyOf = none ∧ (validating stale).pkg.cns.verbose = false ∧ ∃ l, f.loads = [l] ∧
        ((l.lease ≤ (g.settle (validating stale)).sys.horizon ∧ l.stamp < (lineTimes (validating stale).ms (l.pa / 4)).wct) ↔
          stale = true)) := by
  refine ⟨⟨_, rfl⟩, ⟨_, due 0, 0, rfl, rfl, by decide, rfl, rfl, rfl, by decide⟩, ⟨_, rfl, by decide⟩,
    ⟨_, _, rfl, rfl, rfl, by decide⟩, fun stale => ?_⟩
  cases stale <;> exact ⟨_, ⟨.ld, .ld, .grp, [], [⟨0, 0, 0⟩]⟩, _, rfl, by decide, rfl, rfl, rfl, _, rfl, by decide⟩

theorem witness_GroupEventsComplete_commits :
    (∃ g r, (committing.group? 0 = some g ∧ commitDue committing 0 = true ∧ g.region = some r ∧ r.after = .close ∧ r.atomic = none ∧
      r.effects = [] ∧ r.replays = 0 ∧ g.proxyOf = none)) ∧
    (∃ x r, seamVictims crowded 0 = [1] ∧ crowded.group? 1 = some x ∧ x.region = some r ∧ commitReady crowded x r = false) ∧
    (∀ e ∈ [Effect.signal, .launch ⟨1, 0, 0, 1, [], 0, 0, 2, []⟩, .arrive 0], releaseDue (releasing e) 0 = true) ∧
    (∃ hdr, trayDue laden 0 = true ∧ findTray laden 1 5 = some hdr ∧ trayRefused hdr = false ∧ 3 < trayRegs hdr) ∧
    rereadDue (heldBy (.wait .waitm) base) ⟨0, 0, 0⟩ = true ∧
    ∀ more : Bool, ∃ g sp, (watched more).group? 0 = some g ∧ g.pend = [] ∧ g.traps = [] ∧ watchDue (watched more) ⟨0, 0, 0⟩ = true ∧ g.split? 0 = some sp ∧
      pendingArm (watched more) g sp = none ∧ (((groupsOfGrid (watched more) g.info.grid).all fun e =>
        match e.2.waitingSince with
        | some t => decide ((watched more).starve ≤ (watched more).clock.cycle - t)
        | none => false) && (((watched more).grid? g.info.grid).map fun x => decide (x.next < x.total)).getD false) = more := by
  have a : has (findTray laden 1 5) (fun h => !trayRefused h && decide (3 < trayRegs h)) = true := by decide +kernel
  refine ⟨⟨_, _, rfl, by decide, rfl, rfl, rfl, rfl, rfl, rfl⟩, ⟨_, _, by decide, rfl, rfl, by decide⟩, by decide, ?_, by decide,
    fun more => ?_⟩
  · obtain ⟨h, hh, p⟩ := has_spec a
    simp only [Bool.and_eq_true, Bool.not_eq_true', decide_eq_true_eq] at p
    exact ⟨h, by decide +kernel, hh, p.1, p.2⟩
  · cases more <;> exact ⟨_, _, rfl, rfl, rfl, by decide +kernel, rfl, by decide +kernel, by decide +kernel⟩

/-- A product is in the table of cluster 0; it has been granted, or not. -/
def multiplying (granted : Bool) : State :=
  let s := outState (exec (.mmad false 0 8 0 2 .rn) base) base
  aged (if granted then outState (exec (.enginePassGrant 0) s) s else s)

/-- Its result's residue check is to fail. -/
def faulty : State := setTable (multiplying true) 0 ((matTable (multiplying true) 0).map fun o => { o with inject := true })

/-- The table's first entry. -/
def firstOp (s : State) : MatOp := (matTable s 0).headD ((cxOf mmajI base).newOp 0 [] none none false)

/-- All four partners' words are granted and due. -/
def joined : State :=
  let s := outState (exec mmajI (quad true)) (quad true)
  let s := [0, 128, 256, 384].foldl (fun s k => s.onGroup k fun g => { g with mmaj := 1 }) s
  aged ([0, 1, 2, 3].foldl (fun s n => setTable s n ((matTable s n).map fun o => { o with granted := some 0, issued := 0 })) s)

/-- One partner's word has come, and its group waits. -/
def gathering (away : Bool) : State :=
  let s := outState (exec mmajI (quad false)) (quad false)
  aged (if away then s.onWork fun w => { w with saved :=
    [⟨1, ((base.work.teams.head?).getD (0, newTeam 0 1 0 0 0 0 [] 0 false)).2, 0, [(0, (cxOf mmajI base).g)], [], [], [], [], 0, 0, 0⟩] } else s)

/-- A product of a format without a datapath is in hand. -/
def emulating : State := aged (outState (exec (.mmaq false 0 8 0 2 .e3m2 .e4m3) base) base)

/-- A product with a tile waits for its bytes: they are in the operand cache, or their source is outside the scratchpad. -/
def fetching (hit : Bool) : State :=
  let s := tiled.onTeam 0 fun m => { m with
    tiles := m.tiles.set 0 ⟨true, 3 * 2 ^ 22 + 2 ^ 21, [2 ^ 20, 0, 3 * 2 ^ 24 + 15, 0, 0, 0, 0, 0], 1⟩ }
  let s := outState (exec (.mmat .stop 0 8 0 (.v 1) .f64) s) s
  if hit then s.onEng fun e => { e with oc := [⟨0, 0, 0, 1, List.replicate 512 0, [], 0, 0⟩] } else s

/-- A copy of one byte is in the queue, or with an engine: within the scratchpad, or from a page that no table maps. -/
def copying (near started : Bool) : State :=
  let s := [(0x10100, 0x40), (0x10108, 0x80)].foldl (fun s e => physWrite s e.1 (leBytes 8 e.2)) commanding
  let s := s.onGroup 0 (Group.holding [(10, fun _ => if near then 3 * 2 ^ 20 else 0)])
  let s := outState (exec (copyInstr false .stop (.p 0) (.v 10) (.v 11)) s) s
  if started then outState (exec (.copyDispatch 0) s) s else s

/-- A collective of `m` members is in its queue; or with an engine. -/
def collecting (m : Nat) (started : Bool) : State :=
  let s := aged (outState (exec (.coll .stop (.p 0) (.v 13) (.v 1)) (members m)) base)
  if started then beginColl s 0 else s

/-- Much later. -/
def afterwards (s : State) : State := { s with clock := { s.clock with dtime := 10 ^ 9 } }

/-- The collective of one member has written its element and its record. -/
def collected : State := (collecting 1 true).onEng fun e => { e with
  colls := e.colls.map fun r => { r with mine := leBytes 8 7, wrote := 2 } }

theorem witness_EngineEventsComplete_grants : (∃ o, nextGrant (markEligible (multiplying false) 0) 0 = some o ∧ o.cluster = 0) ∧
    nextGrant (markEligible base 0) 0 = none ∧
    (∃ o g p, (matTable (multiplying true) 0).find? (fun o => o.id == 0 && o.native) = some o ∧ o.cluster = 0 ∧
      (multiplying true).group? o.group = some g ∧ o.mmaj = none ∧ matDue (multiplying true) o = true ∧ o.inject = false ∧
      waitsEngine g o (o.result (multiplying true)) p) ∧
    (∃ o os, (matTable joined 0).find? (fun o => o.id == (firstOp joined).id && o.native) = some o ∧ o.cluster = 0 ∧
      (joined.group? o.group).isSome = true ∧ o.mmaj = some 0 ∧ jointAll joined o.core 0 0 0 = some os ∧
      ∀ x ∈ os, matDue joined x = true ∧ x.issued + 48 ≤ joined.clock.cycle ∧ ∃ y, joined.group? x.group = some y ∧ 0 < y.mmaj) ∧
    (∃ g e, emulating.group? 0 = some g ∧ g.emu = some e ∧ e.due ≠ 0 ∧ e.due ≤ emulating.clock.cycle) ∧
    (∃ o, (matTable faulty 0).find? (fun o => o.id == 0 && o.native) = some o ∧ o.mmaj = none ∧ matDue faulty o = true ∧
      o.inject = true ∧ ((faulty.group? o.group).map fun g => g.region.isNone) = some true) ∧
    ∀ away : Bool, ∃ o g sp, (matTable (gathering away) 0).find? (fun o => o.id == 0) = some o ∧ o.mmaj = some 0 ∧ (gathering away).group? o.group = some g ∧
      (List.range 4).filterMap (fun i => jointEntry (gathering away) (quadOf o.core + i) g.info.grid g.info.ix 0) = [o] ∧
      g.split? o.split = some sp ∧ sp.hold = some (.wait .mmaj) ∧ o.issued + (gathering away).starve ≤ (gathering away).clock.cycle ∧
      partnerAway (gathering away) g.info.grid g.info.ix = away ∧ g.pend = [] ∧ g.traps = [] := by
  have g : (nextGrant (markEligible (multiplying false) 0) 0).isSome = true := by decide
  have c : ∀ o, nextGrant (markEligible (multiplying false) 0) 0 = some o → o.cluster = 0 := by decide
  have j : has (jointAll joined 0 0 0 0) (fun os => os.all fun x => matDue joined x && decide (x.issued + 48 ≤ joined.clock.cycle) &&
      has (joined.group? x.group) fun y => decide (0 < y.mmaj)) = true := by decide
  obtain ⟨o, ho⟩ := Option.isSome_iff_exists.1 g
  obtain ⟨os, hos, h⟩ := has_spec j
  refine ⟨⟨o, ho, c o ho⟩, by decide,
    ⟨firstOp (multiplying true), _, ((multiplying true).group? 0 |>.bind fun g => g.pend.head?).getD (due 0), by decide, by decide, rfl,
      by decide, by decide, by decide, by decide, by decide, rfl, BitVec.and_zero⟩,
    ⟨firstOp joined, os, by decide, by decide, by decide, by decide, hos, fun x hx => ?_⟩,
    ⟨_, _, rfl, rfl, by decide, by decide⟩, ⟨firstOp faulty, by decide, by decide, by decide, by decide, by decide⟩,
    fun away => ?_⟩
  rotate_left
  · have gs : has ((gathering away).group? (firstOp (gathering away)).group) (fun g =>
        decide ((List.range 4).filterMap (fun i => jointEntry (gathering away) (quadOf (firstOp (gathering away)).core + i) g.info.grid
          g.info.ix 0) = [firstOp (gathering away)]) && has (g.split? (firstOp (gathering away)).split)
            (fun sp => decide (sp.hold = some (.wait .mmaj))) &&
        partnerAway (gathering away) g.info.grid g.info.ix == away && g.pend.isEmpty && g.traps.isEmpty) = true := by
      cases away <;> decide
    obtain ⟨g, hg, p⟩ := has_spec gs
    simp only [Bool.and_eq_true, beq_iff_eq, decide_eq_true_eq, List.isEmpty_iff] at p
    obtain ⟨⟨⟨⟨p1, p2⟩, p3⟩, p4⟩, p5⟩ := p
    obtain ⟨sp, hs, q⟩ := has_spec p2
    exact ⟨firstOp (gathering away), g, sp, by cases away <;> decide, by cases away <;> decide, hg, p1, hs, of_decide_eq_true q,
      by cases away <;> decide, p3, p4, p5⟩
  have := List.all_eq_true.1 h x hx
  simp only [Bool.and_eq_true, decide_eq_true_eq] at this
  obtain ⟨y, hy, hp⟩ := has_spec this.2
  exact ⟨this.1.1, this.1.2, y, hy, of_decide_eq_true hp⟩

/-- The machine with room for the tile in the operand cache. -/
def roomy : State := (ocRoom (settleFences (fetching false) 0) 0).getD base

/-- The copy run of a tile's fetch. -/
def tileRun : CopyRun × State :=
  (fetchRun roomy 0 ((firstOp (fetching false)).fetchCmd (((firstOp (fetching false)).tile).getD ⟨0, 0, 0, 0, [], none⟩) 1 [0] false)).getD
    (⟨(firstOp (fetching false)).fetchCmd ⟨0, 0, 0, 0, [], none⟩ 1 [0] false, 0, 0, 0, 0, 0, none, none, [], [], [], [], [], [], false, false, false⟩, base)

/-- The run after it has moved, and the machine. -/
def fetchMoved : CopyRun × State := tileRun.1.advance tileRun.2

/-- The run of a copy that an engine has. -/
def copyRun (near : Bool) : CopyRun := ((copying near true).eng.copies.head?).getD tileRun.1

theorem witness_EngineEventsComplete_fetches : (∀ hit : Bool, ∃ tile,
      (matTable (fetching hit) 0).find? (fun o => o.id == 0) = some (firstOp (fetching hit)) ∧ (firstOp (fetching hit)).cluster = 0 ∧
      (firstOp (fetching hit)).tile = some tile ∧ tile.got = none ∧ fetchTurn (fetching hit) (firstOp (fetching hit)) = true ∧
      ((fetching hit).eng.oc.find? fun e => e.cluster == 0 && e.team == tile.team && e.handle == tile.handle && e.gen == tile.gen).isSome
        = hit) ∧
    ocRoom (settleFences (fetching false) 0) 0 = some roomy ∧ (fetchRun roomy 0 ((firstOp (fetching false)).fetchCmd
      (((firstOp (fetching false)).tile).getD ⟨0, 0, 0, 0, [], none⟩) 1 [0] false)).isSome = true ∧
    (∃ g, roomy.group? (firstOp (fetching false)).group = some g ∧ g.info.ctx = 1 ∧ g.grids = [0] ∧ g.inRegion = false) ∧
    fetchMoved.1.ended = true ∧ matTable fetchMoved.2 0 = matTable (fetching false) 0 := by
  have r : (ocRoom (settleFences (fetching false) 0) 0).isSome = true := by decide +kernel
  have g : has (roomy.group? (firstOp (fetching false)).group) (fun g => g.info.ctx == 1 && g.grids == [0] && !g.inRegion) = true := by
    decide +kernel
  refine ⟨fun hit => ?_, ?_, by decide +kernel, ?_, by decide +kernel, by decide +kernel⟩
  rotate_left
  · obtain ⟨x, hx⟩ := Option.isSome_iff_exists.1 r
    rw [roomy, hx]
    rfl
  · obtain ⟨x, hx, p⟩ := has_spec g
    simp only [Bool.and_eq_true, Bool.not_eq_true', beq_iff_eq] at p
    exact ⟨x, hx, p.1.1, p.1.2, p.2⟩
  have h : has (firstOp (fetching hit)).tile (fun tile => tile.got.isNone && ((fetching hit).eng.oc.find? fun e =>
      e.cluster == 0 && e.team == tile.team && e.handle == tile.handle && e.gen == tile.gen).isSome == hit) = true := by
    cases hit <;> decide
  obtain ⟨tile, ht, p⟩ := has_spec h
  simp only [Bool.and_eq_true, beq_iff_eq, Option.isNone_iff_eq_none] at p
  exact ⟨tile, by cases hit <;> decide, by cases hit <;> decide, ht, p.1, by cases hit <;> decide, p.2⟩

theorem witness_EngineEventsComplete_copies (near : Bool) :
    (∃ c rest e, ((settleFences (copying near false) 0).queues 0).copy = .op c :: rest ∧
      copyBusy (settleFences (copying near false) 0) 0 = false ∧ pickEngine (settleFences (copying near false) 0) (dieOf 0) = some e) ∧
    (copying near true).eng.copies.find? (fun r => r.cmd.id == (copyRun near).cmd.id && r.cmd.cache.isNone && !r.finished) =
      some (copyRun near) ∧
    let m := (copyRun near).advance (copying near true)
    (m.1.ended && (m.1.gwct == 0 || decide (m.1.gwct < m.2.clock.dtime))) = near ∧ m.1.cmd.arriveHeld = false ∧
      ∃ g, m.2.group? m.1.cmd.group = some g ∧ g.region = none := by
  have h : (has ((settleFences (copying near false) 0).queues 0).copy.head? (fun x => match x with
        | .op _ => true
        | .fence _ => false) && !copyBusy (settleFences (copying near false) 0) 0 &&
      (pickEngine (settleFences (copying near false) 0) (dieOf 0)).isSome) = true := by cases near <;> decide +kernel
  have m : (let m := (copyRun near).advance (copying near true)
      ((m.1.ended && (m.1.gwct == 0 || decide (m.1.gwct < m.2.clock.dtime))) == near) && !m.1.cmd.arriveHeld &&
        has (m.2.group? m.1.cmd.group) fun g => g.region.isNone) = true := by cases near <;> decide +kernel
  simp only [Bool.and_eq_true, Bool.not_eq_true', beq_iff_eq] at h m
  obtain ⟨x, hx, p⟩ := has_spec h.1.1
  obtain ⟨rest, hr⟩ := List.head?_eq_some_iff.1 hx
  obtain ⟨n, hn⟩ := Option.isSome_iff_exists.1 h.2
  obtain ⟨g, hg, q⟩ := has_spec m.2
  cases x with
  | op c => exact ⟨⟨c, rest, n, hr, h.1.2, hn⟩, by cases near <;> decide +kernel, m.1.1, m.1.2, g, hg, Option.isNone_iff_eq_none.1 q⟩
  | fence n => cases p

/-- A path operation is in the queue. -/
def drawing : State := outState (exec (.pathb .stop (.v 1) (.v 1)) (pathing .none)) base

theorem witness_EngineEventsComplete_collectives :
    (∃ r, collOf (afterwards (collecting 2 false)) 1 = some r ∧ memberLate (afterwards (collecting 2 false)) 1 1 = true ∧
      1 ∈ r.missing) ∧
    (∃ r, collOf collected 1 = some r ∧ r.engine.isSome = true ∧ collected.eng.colls.find? (fun x => x.key == 1) = some r ∧
      (r.desc.op = 3 → r.desc.root ∉ r.lost) ∧ (CollRun.run collected.freeCtr r.fuel r collected).1 = true ∧
      (CollRun.run collected.freeCtr r.fuel r collected).2.1.torn = false ∧
      (∃ g, (CollRun.run collected.freeCtr r.fuel r collected).2.2.group? (CollRun.run collected.freeCtr r.fuel r collected).2.1.group =
        some g ∧ g.region = none) ∧
      (CollRun.run collected.freeCtr r.fuel r collected).2.1.gwct = 0) ∧
    ∃ o rest g, ((settleFences drawing 0).queues 0).path = .op o :: rest ∧ drawing.group? o.group = some g := by
  have a : has (collOf (afterwards (collecting 2 false)) 1) (fun r => r.missing.contains 1) = true := by decide +kernel
  have b : has (collOf collected 1) (fun r => r.engine.isSome && decide (collected.eng.colls.find? (fun x => x.key == 1) = some r) &&
      r.desc.op != 3 && (CollRun.run collected.freeCtr r.fuel r collected).1 &&
      !(CollRun.run collected.freeCtr r.fuel r collected).2.1.torn &&
      has ((CollRun.run collected.freeCtr r.fuel r collected).2.2.group? (CollRun.run collected.freeCtr r.fuel r collected).2.1.group)
        (fun g => g.region.isNone) &&
      decide ((CollRun.run collected.freeCtr r.fuel r collected).2.1.gwct = 0)) = true := by decide +kernel
  have d : has ((settleFences drawing 0).queues 0).path.head? (fun x => match x with
      | .op o => (drawing.group? o.group).isSome
      | .fence _ => false) = true := by decide +kernel
  obtain ⟨r, hr, p⟩ := has_spec a
  obtain ⟨q, hq, h⟩ := has_spec b
  obtain ⟨x, hx, y⟩ := has_spec d
  simp only [Bool.and_eq_true, decide_eq_true_eq, bne_iff_ne, Bool.not_eq_true'] at h
  obtain ⟨⟨⟨⟨⟨⟨h1, h2⟩, h3⟩, h4⟩, h5⟩, h7⟩, h6⟩ := h
  obtain ⟨g, hg, h7⟩ := has_spec h7
  refine ⟨⟨r, hr, by decide +kernel, List.contains_iff_mem.1 p⟩, ⟨q, hq, h1, h2, fun e => absurd e h3, h4, h5,
    ⟨g, hg, Option.isNone_iff_eq_none.1 h7⟩, h6⟩, ?_⟩
  obtain ⟨rest, hx⟩ := List.head?_eq_some_iff.1 hx
  cases x with
  | op o =>
    obtain ⟨g, hg⟩ := Option.isSome_iff_exists.1 y
    exact ⟨o, rest, g, hx, hg⟩
  | fence n => cases y

/-- A device launch waits at the dispatcher. -/
def launched : State := base.onWork fun w => { w with dlq := [(0, [⟨1, 0, 0, 1, List.replicate 16 0, 0, 0, 2, []⟩])] }

/-- The grid has a team to come; or a tray's group waits. -/
def admitting (tray : Bool) : State :=
  if tray then
    laden.onWork fun w => { w with trayGroups := [⟨1, 0, (findTray laden 1 5).getD [], [⟨[(3, 4)], 0, 0⟩], 0⟩] }
  else base.onWork fun w => { w with grids := w.grids.map fun x => (x.1, { x.2 with next := 0 }) }

/-- The grid's work is over; a host queue launched it, or a team. -/
def ended (host : Bool) : State := base.onWork fun w => { w with
  grids := w.grids.map fun x => (x.1, { x.2 with
    groups := 0
    origin := if host then .host 0 0 else .team 0 }) }

/-- An enabled queue has an entry of an OP, whose header, if any, is at 0x10400. -/
def queued (op : Nat) : State :=
  let s := placing [⟨0x30000, BitVec.ofNat 8 op⟩, ⟨0x30009, 4⟩, ⟨0x3000A, 1⟩, ⟨0x3101C, 1⟩] (tabled base)
  onHq s 0 fun x => { x with
    base := 0x30
    desc := 0x31000
    en   := true
    tail := 1 }

/-- The queue's head as a launch reads it. -/
def launchHead (s : State) : State := touchHead (dropRecords (flushRecords s 0 fun e => e.op == 1 || e.refuse != 0)) 0

/-- A context is about to be saved; or its unit may return. -/
def saving (back : Bool) : State :=
  let s := outState (exec (.preempt 1) base) base
  if back then
    let s := outState (exec (.contextSaveComplete 1) s) s
    outState (exec (.resume 1) s) s
  else s

theorem head_spec {o : Option (Nat × List W64)} {op : Nat} (h : has o (fun x => !hqMalformed x.2 && hqOp x.2 == op) = true) :
    ∃ ctx e, o = some (ctx, e) ∧ hqMalformed e = false ∧ hqOp e = op := by
  obtain ⟨⟨ctx, e⟩, h, p⟩ := has_spec h
  simp only [Bool.and_eq_true, Bool.not_eq_true', beq_iff_eq] at p
  exact ⟨ctx, e, h, p.1, p.2⟩

theorem witness_DispatcherEventsComplete :
    (∃ l rest, dlqOf launched 0 = l :: rest ∧ ctxHalted launched l.ctx = false ∧ (launched.ctx? l.ctx).isSome = true) ∧
    (∃ c core g, nextAdmission (admitting false) = some (c, [core]) ∧ c.tray = false ∧ (admitting false).grid? c.key = some g) ∧
    (∃ c core x, nextAdmission (admitting true) = some (c, [core]) ∧ c.tray = true ∧
      (admitting true).work.trayGroups.find? (fun t => t.seq == c.key) = some x) ∧
    (∃ g m, (ended false).grid? 0 = some g ∧ gridOver (ended false) 0 = true ∧ g.origin = .team 0 ∧ (ended false).team? 0 = some m) ∧
    (∃ g, (ended true).grid? 0 = some g ∧ gridOver (ended true) 0 = true ∧ g.origin = .host 0 0 ∧ 0 < (ended true).work.hq.length ∧
      ∀ e ∈ (hqOf (ended true) 0).entries, e.grid = some 0 → e.cmp = 0) ∧
    (∀ op ∈ [2, 3, 4], ∃ ctx e, hqHead (touchHead (dropRecords (flushRecords (queued op) 0 fun x => x.op == op)) 0) 0 = some (ctx, e) ∧
      hqMalformed e = false ∧ hqOp e = op) ∧
    (∃ ctx e, hqHead (launchHead (queued 1)) 0 = some (ctx, e) ∧ hqMalformed e = false ∧ hqOp e = 1) ∧
    (∃ hdr, (readHeader (loadCtx (launchHead (queued 1)) (hqOf (launchHead (queued 1)) 0).desc).2 0 1 0x10400).1 = .words hdr) ∧
    (∀ op ∈ [2, 4], hqClear (queued op) 0 = true) ∧
    (∃ x cores, nextRestore (saving true) = some x ∧ restoreAt (saving true) x = some cores) ∧ saveDue (saving false) 1 = true ∧
    (base.onWork fun w => { w with sched := { w.sched with tdBusy := true } }).work.sched.tdBusy = true := by
  have a : has (nextAdmission (admitting false)) (fun c => c.2.length == 1 && !c.1.tray && ((admitting false).grid? c.1.key).isSome)
      = true := by decide +kernel
  have b : has (nextAdmission (admitting true)) (fun c => c.2.length == 1 && c.1.tray &&
      ((admitting true).work.trayGroups.find? (fun t => t.seq == c.1.key)).isSome) = true := by decide +kernel
  have q : ∀ op ∈ [2, 3, 4], has (hqHead (touchHead (dropRecords (flushRecords (queued op) 0 fun x => x.op == op)) 0) 0)
      (fun x => !hqMalformed x.2 && hqOp x.2 == op) = true := by decide +kernel
  have q1 : has (hqHead (launchHead (queued 1)) 0) (fun x => !hqMalformed x.2 && hqOp x.2 == 1) = true := by decide +kernel
  have r : (match (readHeader (loadCtx (launchHead (queued 1)) (hqOf (launchHead (queued 1)) 0).desc).2 0 1 0x10400).1 with
      | .words _ => true
      | _ => false) = true := by decide +kernel
  have x : has (nextRestore (saving true)) (fun x => (restoreAt (saving true) x).isSome) = true := by decide +kernel
  refine ⟨⟨_, _, rfl, by decide, by decide⟩, ?_, ?_, ⟨_, _, rfl, by decide +kernel, rfl, rfl⟩,
    ⟨_, rfl, by decide +kernel, rfl, by decide, by decide⟩, fun op h => head_spec (q op h), head_spec q1, ?_, by decide +kernel, ?_,
    by decide +kernel, rfl⟩
  · obtain ⟨⟨c, l⟩, h, p⟩ := has_spec a
    simp only [Bool.and_eq_true, Bool.not_eq_true', beq_iff_eq] at p
    obtain ⟨core, rfl⟩ := List.length_eq_one_iff.1 p.1.1
    obtain ⟨g, hg⟩ := Option.isSome_iff_exists.1 p.2
    exact ⟨c, core, g, h, p.1.2, hg⟩
  · obtain ⟨⟨c, l⟩, h, p⟩ := has_spec b
    simp only [Bool.and_eq_true, beq_iff_eq] at p
    obtain ⟨core, rfl⟩ := List.length_eq_one_iff.1 p.1.1
    obtain ⟨g, hg⟩ := Option.isSome_iff_exists.1 p.2
    exact ⟨c, core, g, h, p.1.2, hg⟩
  · generalize (readHeader (loadCtx (launchHead (queued 1)) (hqOf (launchHead (queued 1)) 0).desc).2 0 1 0x10400).1 = y at r ⊢
    cases y with
    | words l => exact ⟨l, rfl⟩
    | _ => cases r
  · obtain ⟨y, h, p⟩ := has_spec x
    obtain ⟨l, hl⟩ := Option.isSome_iff_exists.1 p
    exact ⟨y, l, h, hl⟩

/-- The core's TLB has nothing. -/
def untranslated : State := base.onVm fun vm => { vm with tlb := [] }

/-- A store of eight bytes in a side log. -/
def heldStore : SlogEntry := ⟨0, 1, 0x10100, .store 0x1234 0xFF, false, 0, 0, 0, 0, [0], false, none, 0, 0⟩

/-- The core's side log has a store to the page of the code, which is in device memory, at the host, read-only, or not there. -/
def logged (n : Nat) : State :=
  ((if n = 1 then placing [⟨0x2300D, 1⟩] else id) (paged (if n = 2 then 0x89 else if n = 3 then 0x8C else 0x8D)
    untranslated)).onVm fun vm => { vm with slog := [(0, [heldStore])] }

/-- The walk of that store's page. -/
def walked (n : Nat) : Xl × State := Machine.translate (logged n) 0 none 1 0x10100 .write false

/-- An invalidation of everything; a request through it is under way, or none. -/
def removing (busy : Bool) : State := (base.onVm fun vm => { vm with inval := some ⟨none, none, false, none⟩ }).onPkg fun p =>
  { p with
    nextReq := 4
    outreqs := if busy then [⟨3, .copy 0, 1, 0, [0], 0, none, none, false, false, 0, 0x10100, .read 8, false, 0, 0⟩] else [] }

/-- The page of the code is about to move, to die 1 or to an image. -/
def leaving (d : Bool) : State := (tabled base).onVm fun vm =>
  { vm with moves := [⟨0, 1, 0x10000, 0x23008, 0x1008D, if d then some 1 else none⟩] }

/-- Die 1 uses the page most. -/
def counted : State := (tabled base).onVm fun vm =>
  { vm with
    counts := [⟨0, 1, 0x10000, 2 ^ 16, [0, 100, 0, 0], 0, 0⟩]
    regs   := { vm.regs with migen := true } }

/-- The page is compressed; a frame is free, or none. -/
def compressed (free : Bool) : State := (paged 0xAD base).onVm fun vm =>
  { vm with
    images := [(1, [])]
    frames := if free then [9] else [] }

theorem witness_TranslationEventsComplete_walks : (wildAddr 0x10100 = false ∧
      (tlbOf (tabled untranslated) 0).find? (fun x => x.covers 1 0x10100) = none ∧
      ∃ lv e, (finishWalk (walkDie (tabled untranslated) (dieOf 0) 1 0x10100).2 (walkDie (tabled untranslated) (dieOf 0) 1 0x10100).1
        (coreAgent 0) 1 0x10100 .read false).2.1 = some (lv, e)) ∧
    (∀ busy : Bool, ∃ i, (removing busy).vm.inval = some i ∧
      rangeBusy (beginInval (removing busy) i) i.ctx i.range (beginInval (removing busy) i).pkg.nextReq = busy ∧ i.upto = none ∧
      i.refuse = false) ∧
    ∀ d : Bool, (leaving d).vm.inval = none ∧ (leaving d).vm.moves = [⟨0, 1, 0x10000, 0x23008, 0x1008D, if d then some 1 else none⟩] ∧
      let p := readMarked (flushAll ((leaving d).onVm fun vm => { vm with moves := [] }) 0x10000 (2 ^ 16)) 0x10000 (2 ^ 16) 1
      pagePoisoned p 0x10000 = false ∧ ∃ place, coldPlace p = some place := by
  have a : (finishWalk (walkDie (tabled untranslated) (dieOf 0) 1 0x10100).2 (walkDie (tabled untranslated) (dieOf 0) 1 0x10100).1
      (coreAgent 0) 1 0x10100 .read false).2.1.isSome = true := by decide +kernel
  have b : ∀ d, (coldPlace (readMarked (flushAll ((leaving d).onVm fun vm => { vm with moves := [] }) 0x10000 (2 ^ 16)) 0x10000 (2 ^ 16)
      1)).isSome = true := by decide +kernel
  obtain ⟨⟨lv, e⟩, he⟩ := Option.isSome_iff_exists.1 a
  exact ⟨⟨by decide, by decide, lv, e, he⟩, fun busy => ⟨_, rfl, by cases busy <;> decide, rfl, rfl⟩, fun d => ⟨rfl, rfl,
    by cases d <;> decide +kernel, Option.isSome_iff_exists.1 (b d)⟩⟩

theorem witness_TranslationEventsComplete_replays : (∀ n < 4, slogOf (logged n) 0 = [heldStore] ∧ ownerlessOf (logged n) 0 = [] ∧
      replayable (logged n) 0 false = some heldStore) ∧
    (∃ l pa, (walked 0).1 = .ok l pa ∧ l.tgt = 0) ∧
    (∃ l pa o, (walked 1).1 = .ok l pa ∧ l.tgt ≠ 0 ∧ kindOps heldStore.performs = [o] ∧
      (sendRemote (samplePage (walked 1).2 l 1 0x10100 0) (.slog 0 heldStore) (heldStore.writer 0).sender l (pa / 32 * 32 + o.1)
        (0x10100 / 32 * 32 + o.1) o.2 false).1 = none) ∧
    (walked 2).1 = .denied ∧ (walked 3).1 = .wait := by
  have a : (match (walked 0).1 with
      | .ok l _ => l.tgt == 0
      | _ => false) = true := by decide +kernel
  have b : (match (walked 1).1 with
      | .ok l pa => l.tgt != 0 && has (kindOps heldStore.performs).head? fun o =>
        ((sendRemote (samplePage (walked 1).2 l 1 0x10100 0) (.slog 0 heldStore) (heldStore.writer 0).sender l (pa / 32 * 32 + o.1)
          (0x10100 / 32 * 32 + o.1) o.2 false).1).isNone
      | _ => false) = true := by decide +kernel
  have k : (kindOps heldStore.performs).length = 1 := by decide
  refine ⟨by decide, ?_, ?_, by decide +kernel, by decide +kernel⟩
  · generalize (walked 0).1 = y at a ⊢
    cases y with
    | ok l pa => exact ⟨l, pa, rfl, beq_iff_eq.1 a⟩
    | _ => cases a
  · generalize hy : (walked 1).1 = y at b ⊢
    cases y with
    | ok l pa =>
      simp only [Bool.and_eq_true, bne_iff_ne] at b
      obtain ⟨o, ho, q⟩ := has_spec b.2
      obtain ⟨x, hx⟩ := List.length_eq_one_iff.1 k
      rw [hx] at ho
      cases ho
      exact ⟨l, pa, o, rfl, b.1, hx, Option.isNone_iff_eq_none.1 q⟩
    | _ => cases b

theorem witness_TranslationEventsComplete_places :
    (base.onVm fun vm => { vm with regs := { vm.regs with
      migen  := false
      colden := false } }).vm.regs.migen = false ∧
    (∃ x l pa lv at?, counted.vm.regs.migen = true ∧ counted.vm.counts = [x] ∧ x.die = 0 ∧ x.target counted = some 1 ∧
      leafNow counted x.ctx x.va = some (l, pa, lv, at?) ∧ lv < 2 ∧ x.size = levelSpan lv ∧ l.tgt = 0 ∧ l.pin = false ∧ l.home = 0 ∧
      (casLeaf counted at? (w64 (physNat counted at? 8)) (leafTransit (w64 (physNat counted at? 8)))).1 = true) ∧
    ∀ free : Bool, ∃ at? e cells, (walkTop (compressed free) 1 0x10000).1 = .leaf 0 at? e ∧ (Leaf.of e).dev = true ∧
      (Leaf.of e).v = true ∧ (Leaf.of e).cold = true ∧
      NMap.get? (compressed free).vm.images ((Leaf.of e).pa / 2 ^ 16) = some cells ∧
      ((compressed free).vm.frames.find? fun f => !avoided (compressed free) f) = (if free then some 9 else none) ∧
      (casLeaf (dropL1Range (flushAll (readMarked (compressed free) ((Leaf.of e).pa / 2 ^ 16 * 2 ^ 16) imageBytes 1) (9 * 2 ^ 16)
        (2 ^ 16)) (9 * 2 ^ 16) (2 ^ 16)) at? (w64 e) (leafHome (leafPage (w64 e) 9 &&& ~~~(0x20 : W64)) 0)).1 = true := by
  have d : has (leafNow counted 1 0x10000) (fun x => x.1.tgt == 0 && !x.1.pin && x.1.home == 0 && x.2.2.1 == 0 &&
      (casLeaf counted x.2.2.2 (w64 (physNat counted x.2.2.2 8)) (leafTransit (w64 (physNat counted x.2.2.2 8)))).1) = true := by
    decide +kernel
  refine ⟨rfl, ?_, fun free => ?_⟩
  · obtain ⟨⟨l, pa, lv, n⟩, hx, p⟩ := has_spec d
    simp only [Bool.and_eq_true, beq_iff_eq, Bool.not_eq_true'] at p
    obtain ⟨⟨⟨⟨h1, h2⟩, h3⟩, rfl⟩, h5⟩ := p
    exact ⟨_, l, pa, 0, n, rfl, rfl, rfl, by decide, hx, by decide, rfl, h1, h2, h3, h5⟩
  · exact ⟨0x23008, 0x100AD, [], by cases free <;> decide +kernel, by decide, by decide, by decide, by cases free <;> decide,
      by cases free <;> decide, by cases free <;> decide +kernel⟩

/-- The group is at a product of the checked pipe; units are not tested by themselves. -/
def checked (f : Group → Group) : State :=
  ((tabled (State.reset.withFetchWord 32 0x22010830)).onGroup 0 f).onPkg fun p => { p with cns := { p.cns with autotest := false } }

/-- The group's region is replayed elsewhere, in a stage of it. -/
def proxying (p : Proxy) : State :=
  let s := aged (checked fun g => { Group.opened g with proxied := true })
  let s := s.onPkg fun x => { x with proxies := [p] }
  match p.proxy with
  | some k => s.setGroup k { (cxOf (.nop false) base).g with halted := true }
  | none => s

/-- No core of the die can take a replay. -/
def barred : State := (proxying ⟨0, none, 0, .placing 0⟩).onPkg fun p =>
  { p with scores := (List.range 96).map fun c => (unitScoreKey 2 c, ⟨100, 2, 0⟩) }

theorem witness_ContainmentEventsComplete_units :
    (∀ f ∈ [id, Group.opened, fun g => { g with info := { g.info with handler := some 9 } }], ∃ c, nextWord (checked f) ⟨0, 0, 0⟩ = some c ∧
      (checked f).pkg.cns.autotest = false ∧ c.g.proxied = false ∧ (matTable (checked f) (clusterOf (coreOf 0))) = [] ∧
      checkedBy c.i (coreOf 0) = some (0, 0) ∧ readsParity c.i.uses = true ∧ c.g.repeated = none ∧ c.g.trap = none ∧
      c.g.pend = [] ∧ c.g.traps = [] ∧ c.g.proxyOf = none ∧ (checked f).pkg.cns.verbose = false ∧ ∀ r, c.g.region = some r → r.fails < 2) ∧
    (∃ c r, nextWord (checked Group.opened) ⟨0, 0, 0⟩ = some c ∧ c.g.region = some r) ∧
    (∀ e ∈ (checked id).work.groups, clusterOf (coreOf e.1) ≠ 5) ∧ (∀ e ∈ (checked id).groupsOf 0, e.2.region = none) := by
  have h : ∀ f ∈ [id, Group.opened, fun g => { g with info := { g.info with handler := some 9 } }],
      has (nextWord (checked f) ⟨0, 0, 0⟩) (fun c => !c.g.proxied && checkedBy c.i (coreOf 0) == some (0, 0) && readsParity c.i.uses &&
        c.g.repeated.isNone && c.g.trap.isNone && c.g.pend.isEmpty && c.g.traps.isEmpty && c.g.proxyOf.isNone &&
        (c.g.region.isNone || has c.g.region fun r => decide (r.fails < 2))) = true := by decide +kernel
  have e : has (nextWord (checked Group.opened) ⟨0, 0, 0⟩) (fun c => c.g.region.isSome) = true := by decide +kernel
  have r : ∀ f ∈ [id, Group.opened, fun g => { g with info := { g.info with handler := some 9 } }],
      (matTable (checked f) (clusterOf (coreOf 0))).isEmpty = true := by decide
  refine ⟨fun f hf => ?_, ?_, by decide, by decide⟩
  · obtain ⟨c, hc, p⟩ := has_spec (h f hf)
    simp only [Bool.and_eq_true, Bool.or_eq_true, Bool.not_eq_true', beq_iff_eq, Option.isNone_iff_eq_none, List.isEmpty_iff] at p
    obtain ⟨⟨⟨⟨⟨⟨⟨⟨h1, h2⟩, h3⟩, h4⟩, h5⟩, h6⟩, h9⟩, h7⟩, h8⟩ := p
    refine ⟨c, hc, rfl, h1, List.isEmpty_iff.1 (r f hf), h2, h3, h4, h5, h6, h9, h7, rfl, fun r hr => ?_⟩
    rcases h8 with h | h
    · rw [hr] at h
      cases h
    · obtain ⟨y, hy, q⟩ := has_spec h
      rw [hr] at hy
      cases hy
      exact of_decide_eq_true q
  · obtain ⟨c, hc, p⟩ := has_spec e
    obtain ⟨r, hr⟩ := Option.isSome_iff_exists.1 p
    exact ⟨c, r, hc, hr⟩

theorem witness_ContainmentEventsComplete_replays :
    ((barred.group? 0).isSome = true ∧ barred.pkg.cns.autotest = false ∧ proxyLate barred 0 = true) ∧
    (∃ p c g slot rest, proxyEntry (proxying ⟨0, none, 0, .placing 0⟩) 0 = some p ∧ p.stage = .placing 0 ∧
      proxyCore (proxying ⟨0, none, 0, .placing 0⟩) p = some c ∧ (proxying ⟨0, none, 0, .placing 0⟩).group? 0 = some g ∧
      freeSlots (proxying ⟨0, none, 0, .placing 0⟩) c 1 = slot :: rest) ∧
    (∃ p g, proxyEntry (proxying ⟨0, some 128, 0, .transfer 0⟩) 0 = some p ∧ p.proxy = some 128 ∧
      (proxying ⟨0, some 128, 0, .transfer 0⟩).group? 128 = some g) ∧
    (∃ g p, (proxying ⟨0, some 128, 0, .running⟩).group? 0 = some g ∧ proxyOver (proxying ⟨0, some 128, 0, .running⟩) 0 = some (128, p) ∧
      ∀ sp ∈ p.splits, sp.hold ≠ some .commit) ∧
    decayDue { base with clock := { base.clock with dtime := 10 ^ 15 } } = true ∧
    (scoreOf (base.onPkg fun p => { p with scores := [(unitScoreKey 0 3, ⟨9, 1, 0⟩)] }) 0 3).state = 1 ∧ 0 < spareCount 0 := by
  have a : (proxyCore (proxying ⟨0, none, 0, .placing 0⟩) ⟨0, none, 0, .placing 0⟩).isSome = true := by decide +kernel
  have f : ∀ c, proxyCore (proxying ⟨0, none, 0, .placing 0⟩) ⟨0, none, 0, .placing 0⟩ = some c →
      (freeSlots (proxying ⟨0, none, 0, .placing 0⟩) c 1).isEmpty = false := by decide +kernel
  have o : has (proxyOver (proxying ⟨0, some 128, 0, .running⟩) 0) (fun x => x.1 == 128 && x.2.splits.all fun sp => sp.hold.isNone)
      = true := by decide +kernel
  refine ⟨⟨rfl, rfl, by decide +kernel⟩, ?_, ⟨_, _, rfl, rfl, rfl⟩, ?_, by decide, rfl, by decide⟩
  · obtain ⟨c, hc⟩ := Option.isSome_iff_exists.1 a
    have g := f c hc
    cases e : freeSlots (proxying ⟨0, none, 0, .placing 0⟩) c 1 with
    | nil =>
      rw [e] at g
      cases g
    | cons slot rest => exact ⟨_, c, _, slot, rest, rfl, rfl, hc, rfl, e⟩
  · obtain ⟨⟨n, p⟩, hp, q⟩ := has_spec o
    rw [Bool.and_eq_true, beq_iff_eq] at q
    obtain ⟨rfl, q⟩ := q
    refine ⟨_, p, rfl, hp, fun sp hs => ?_⟩
    rw [Option.isNone_iff_eq_none.1 (List.all_eq_true.1 q sp hs)]
    decide

/-- A store of one byte in a side log, which a peer has refused. -/
def sentStore : SlogEntry := ⟨0, 1, 0x10100, .store 7 1, false, 0, 0, 0, 0, [0], false, some 0, 0, 4⟩

/-- A request to the host or to a peer is outstanding, for long. -/
def outstanding (peer : Option Nat) : State :=
  let s := afterwards base
  s.onPkg fun p => { p with outreqs := [⟨3, .slog 0 sentStore, 1, 0, [0], 0, peer, none, false, false, 0, 0x10100, .read 8, false, 0, 0⟩] }

/-- A peer window, which permits writes, or not. -/
def windowed (w : Bool) : State := base.onPkg fun p => { p with peers := { p.peers with
  en      := true
  windows := [⟨1, 1, w, true⟩] } }

/-- The core's side log has an entry that failed; its retry has been answered, or its time is over. -/
def failing (rep : Option Reply) : State :=
  let s := afterwards ((aged base).onVm fun vm => { vm with slog := [(0, [sentStore])] })
  match rep with
  | some r => s.onPkg fun p => { p with
      outreqs := [⟨3, .slog 0 sentStore, 1, 0, [0], 0, some 1, none, false, false, 0, 0x10100, .write [7], false, 0, 0⟩]
      inbox   := [(3, r)] }
  | none => s

/-- Tracing is on; core 0's queue has a packet, or has lost some. -/
def traced (lost : Nat) : State :=
  let s := base.onGroup 0 fun g => { g with sys := { g.sys with tracectl := 5 } }
  let s := s.onPkg fun p => { p with trace := p.trace.map fun t => { t with en := true } }
  { setTraceQ s 0 ⟨if lost = 0 then [[7]] else [], lost, 0⟩ with clock := { s.clock with cycle := 4000 } }

theorem witness_LinkEventsComplete :
    (bar2Serves base 0x10100 8 = true ∧ 0x10100 % 32 + 8 ≤ 32 ∧ base.ms.missq = [] ∧ base.ms.l2marks = [] ∧ homeHolding base.ms (0x10100 / 32) = none ∧ NMap.get? base.ms.marks (0x10100 / 32) = none ∧
      Memory.wf base.ms.mem = true ∧ (base.chan (channelOf (0x10100 / 128))).packets = []) ∧
    hostLate (outstanding none) 3 = true ∧ peerLate (outstanding (some 1)) 3 = true ∧
    (∀ w : Bool, (windowed w).pkg.peers.en = true ∧ (windowed w).minimal = false ∧ ∃ x, windowOf (windowed w) 0x10100 = some x ∧ x.w = w) ∧
    (∀ rep ∈ [Reply.ok [] false, .fail 4], ∃ e r, slogOf (failing (some rep)) 0 = [e] ∧ ownerlessOf (failing (some rep)) 0 = [] ∧
      retryAnswered (failing (some rep)) 0 = some (r, e, rep)) ∧
    (∃ e x, slogOf (failing none) 0 = [e] ∧ ownerlessOf (failing none) 0 = [] ∧ dropReady (failing none) 0 = some e ∧
      (failing none).grid? e.grid = some x) ∧
    (∃ x, base.pkg.peers.ports[11]? = some x) ∧
    (0 < (traced 0).pkg.trace.length ∧ ((traced 0).traceUnit 0).en = true ∧ traceTurn (traced 0) 0 = some 0 ∧
      ((traced 0).traceQ 0).packets = [[7]] ∧ (∀ c, c / 96 = 0 → c ≠ 0 → ((traced 0).traceQ c).packets = []) ∧
      ((traced 0).traceUnit 0).takes 1 = true) ∧
    (∃ g sp rest, (traced 0).group? 0 = some g ∧ g.splits = sp :: rest ∧ syncDue (traced 0) 0 = true ∧
      ((traced 0).traceQ (coreOf 0)).lost = 0 ∧ ((traced 0).traceQ (coreOf 0)).words + 2 ≤ 64) ∧
    lossDue (traced 3) 0 = true ∧ lostGroups (traced 3) 0 = [] ∧
    (traced 3).clock.cycle - ((traced 3).traceQ 0).last ≤ 4095 := by
  refine ⟨⟨by decide, by decide, rfl, rfl, by decide, by decide, by decide, by decide⟩, by decide, by decide, fun w => ⟨rfl, by cases w <;> decide, ⟨1, 1, w, true⟩,
    by cases w <;> rfl, rfl⟩, ?_, ⟨_, _, rfl, rfl, by decide, rfl⟩, ⟨_, rfl⟩, ⟨by decide, by decide, by decide, rfl, ?_, by decide⟩,
    ⟨_, _, _, rfl, rfl, by decide, by decide, by decide⟩, by decide, by decide, by decide⟩
  · intro rep h
    simp only [List.mem_cons, List.not_mem_nil, or_false] at h
    rcases h with rfl | rfl <;> exact ⟨_, _, rfl, rfl, rfl⟩
  · intro c _ hc
    cases c with
    | zero => exact absurd rfl hc
    | succ c => rfl

/-- A start at a stage. -/
def starting (stage : Nat) : State := State.reset.onPkg fun p => { p with boot := { p.boot with stage := stage } }

/-- The mailbox activates a slot. -/
def commanded : State := base.onPkg fun p => { p with boot := { p.boot with
  mbBusy := true
  mbcmd  := 3 } }

theorem find_or (p : Nat → Bool) (l : List Nat) : (∃ x, l.find? p = some x) ∨ ∀ x ∈ l, p x = false := by
  cases h : l.find? p with
  | some x => exact .inl ⟨x, rfl⟩
  | none => exact .inr fun x hx => by simpa using List.find?_eq_none.1 h x hx

theorem witness_StartEventsComplete : (State.reset.ms.chans.map Prod.fst).Nodup ∧
    (∀ n ∈ [1, 2, 3, 4], (starting n).pkg.boot.state = 0 ∧ (starting n).pkg.boot.powered = true ∧ (starting n).pkg.boot.stage = n ∧
      (starting n).pkg.boot.fails < 2 ∧
      ((∃ x, (slotOrder (starting n).pkg.boot).find? (fun x => imageOk (starting n) (slotImage (starting n).pkg.boot (n == 2) x)) = some x) ∨
        ∀ x ∈ slotOrder (starting n).pkg.boot, imageOk (starting n) (slotImage (starting n).pkg.boot (n == 2) x) = false)) ∧
    stageLate { State.reset with clock := { State.reset.clock with dtime := 10 ^ 15 } } = true ∧
    (commanded.pkg.boot.mbBusy = true ∧ mbRequest commanded = none ∧ commanded.pkg.boot.mbcmd = 3) ∧ powerFits base 2200 95 18 = true := by
  refine ⟨by decide, fun n hn => ⟨rfl, rfl, rfl, (by decide : 0 < 2), find_or _ _⟩, by decide, ⟨rfl, by decide, rfl⟩, by decide⟩

/-! ## Witnesses: the machine -/

/-- The group is at a NOP. -/
def idle : State := State.reset.withFetchWord 32 0x78B00000

/-- No unit is in line. -/
def lineless : State := { idle with issuing := [] }

/-- The machine is without power; its agenda holds these events. -/
def unpowered (l : List Instr) : State :=
  ({ base with agenda := l }).onPkg fun p => { p with boot := { p.boot with powered := false } }

theorem witness_StepRunsDecoded :
    (idle.pkg.boot.powered = true ∧ idle.agenda = [] ∧ idle.issuing = [⟨0, 0, 0⟩] ∧
      unitRuns { idle with issuing := [] } ⟨0, 0, 0⟩ = true ∧ unitFits { idle with issuing := [] } ⟨0, 0, 0⟩ = true ∧
      unitReady { idle with issuing := [] } ⟨0, 0, 0⟩ = true ∧ unitGroups { idle with issuing := [] } ⟨0, 0, 0⟩ = [0] ∧
      ∃ c f pa x, cx? (.nop false) { ({ idle with issuing := [] } : State) with
          sel := ⟨coreOf 0, slotOf 0, 0⟩
          pre := none } = some c ∧ c.g.info.code + 12 * c.sp.pc.packet = 0x10000 ∧ wildAddr (0x10000 + 11) = false ∧
        Machine.translate c.s c.k none c.g.info.ctx 0x10000 .fetch false = (.ok f pa, x) ∧ f.tgt = 0 ∧
        physPoison (touchPhys x pa 12 c.g.info.ctx) pa 12 = false ∧
        readChain (packetWords (physRead (touchPhys x pa 12 c.g.info.ctx) pa 12)) c.sp.pc.slot = ([.ins (.nop false)], none)) ∧
    ((unpowered []).agenda = [] ∧ (unpowered []).pkg.boot.powered = false) ∧
    (∃ i, nextEvent lineless = some i ∧ lineless.issuing = [] ∧ lineless.pkg.boot.powered = true ∧ lineless.agenda = []) ∧
    (nextEvent (lineless.onMs fun ms => { ms with chans := [] }) = none) ∧
    (unpowered [.nop false]).agenda = .nop false :: [] := by
  have e : (nextEvent lineless).isSome = true := by decide +kernel
  obtain ⟨i, hi⟩ := Option.isSome_iff_exists.1 e
  refine ⟨⟨rfl, rfl, rfl, by decide, by decide, by decide, by decide, ?_⟩, ⟨rfl, rfl⟩, ⟨i, hi, rfl, rfl, rfl⟩, by decide +kernel, rfl⟩
  have h : has (cx? (.nop false) { ({ idle with issuing := [] } : State) with
      sel := ⟨coreOf 0, slotOf 0, 0⟩
      pre := none }) (fun c =>
        c.g.info.code + 12 * c.sp.pc.packet == 0x10000 &&
        (match Machine.translate c.s c.k none c.g.info.ctx 0x10000 .fetch false with
        | (.ok f pa, x) => f.tgt == 0 && !physPoison (touchPhys x pa 12 c.g.info.ctx) pa 12 &&
          decide (readChain (packetWords (physRead (touchPhys x pa 12 c.g.info.ctx) pa 12)) c.sp.pc.slot = ([.ins (.nop false)], none))
        | _ => false)) = true := by decide +kernel
  obtain ⟨c, hc, p⟩ := has_spec h
  rw [Bool.and_eq_true, beq_iff_eq] at p
  obtain ⟨h1, h2⟩ := p
  generalize ht : Machine.translate c.s c.k none c.g.info.ctx 0x10000 .fetch false = y at h2
  obtain ⟨y, x⟩ := y
  cases y with
  | ok f pa =>
    simp only [Bool.and_eq_true, Bool.not_eq_true', beq_iff_eq, decide_eq_true_eq] at h2
    exact ⟨c, f, pa, x, hc, h1, by decide, ht, h2.1.1, h2.1.2, h2.2⟩
  | _ => cases h2

theorem witness_EncodeDecode : (Instr.nop false).isEvent = false ∧ (Instr.nop false).wf = true ∧ encode (.nop false) = [0x78B00000] ∧
    fld 0x78B00000 31 1 = 0 ∧ (Instr.nop true).wf = true ∧ encode (.nop true) = [0xF8B00000] ∧ fld 0xF8B00000 31 1 = 1 ∧
    isLitWord 0x78B00000 = false := by decide

theorem witness_SlotsFitKept : idle.slotsFit ∧ (match step idle with
    | .next _ => true
    | _ => false) = true :=
  ⟨fun _ => ⟨Nat.zero_le _, rfl⟩, by decide +kernel⟩

end Sys2Proof.Tests
end

section
/-! What a package reset leaves, read off the reset state by the lemmas about memory, host queues and issue slots (R15, R416, R429,
R481). -/

namespace Sys2Proof.Machine

/-- A sector of main memory read by bytes: what the list of memory cells holds there. -/
theorem byte_memSector (ms : MemSide) (sec : Nat) {b : Nat} (h : b < 32) :
    Sector.byte (memSector ms sec) b = cellGet ms.mem (sec * 32 + b) :=
  byte_ofBytes (fun i => cellGet ms.mem (sec * 32 + i)) h

/-- Empty memory reads zero, which the model takes from reset on (LOG 47). -/
theorem byte_memSector_of_mem_nil {ms : MemSide} (hm : ms.mem = []) (sec : Nat) {b : Nat} (h : b < 32) :
    Sector.byte (memSector ms sec) b = 0 := by
  rw [byte_memSector ms sec h, hm, cellGet]

theorem granPoison_of_poison_nil {ms : MemSide} (hp : ms.poison = []) (sec : Nat) : granPoison ms sec = false := by
  rw [granPoison, hp, List.contains_nil]

/-- Cores that have issued nothing in this cycle are within their limits (R429). -/
theorem slotsFit_of_slots_nil {s : State} (h : s.slots = []) : s.slotsFit := by
  intro core
  have hc : coreSlots s core = [] := by rw [coreSlots, h]; rfl
  rw [hc]
  exact ⟨Nat.zero_le 2, rfl⟩

/-- Every host queue of a state whose queues are all as after reset is so, whatever its number. -/
theorem hqOf_of_replicate {s : State} {n : Nat} (h : s.work.hq = List.replicate n HostQueue.reset) (q : Nat) :
    hqOf s q = HostQueue.reset := by
  rw [hqOf, h, List.getD_eq_getElem?_getD, List.getElem?_getD_replicate_default_eq]

/-- Settles O59: the lemmas above read memory, queues and issue slots; each other clause names one field of the reset state. -/
theorem resetFacts : Obligations.ResetFacts := by
  have hq (q : Nat) : hqOf State.reset q = HostQueue.reset := hqOf_of_replicate rfl q
  unfold Obligations.ResetFacts
  refine ⟨reset_canonical, slotsFit_of_slots_nil rfl, rfl, fun sec _ hb => byte_memSector_of_mem_nil rfl sec hb,
    granPoison_of_poison_nil rfl, rfl, rfl, rfl, fun q _ => by rw [hq q]; rfl, ?_⟩
  and_intros <;> rfl

end Sys2Proof.Machine
end

section
/-! Lists and maps of the state: what an entry is after a change of its list or map. -/

namespace Sys2Proof.Machine

/-! ## Maps -/

/-- A key that a map does not list has no entry. -/
theorem NMap.get?_of_not_mem {α : Type} {m : NMap α} {k : Nat} (h : k ∉ m.map Prod.fst) : NMap.get? m k = none := by
  induction m with
  | nil => rfl
  | cons e m ih =>
    obtain ⟨j, a⟩ := e
    obtain ⟨hj, hm⟩ := List.ne_and_not_mem_of_not_mem_cons h
    rw [NMap.get?, if_neg (Ne.symm hj), ih hm]

/-- An entry of a map that lists each key once, after a filter. -/
theorem NMap.get?_filter {α : Type} {m : NMap α} (h : (m.map Prod.fst).Nodup) (p : Nat × α → Bool) (k : Nat) :
    NMap.get? (m.filter p) k = (NMap.get? m k).filter fun a => p (k, a) := by
  induction m with
  | nil => rfl
  | cons e m ih =>
    obtain ⟨j, a⟩ := e
    obtain ⟨hj, hm⟩ := List.nodup_cons.1 h
    by_cases hk : j = k
    · subst hk
      by_cases hp : p (j, a) <;> simp [NMap.get?, Option.filter, hp, ih hm, NMap.get?_of_not_mem hj]
    · by_cases hp : p (j, a) <;> simp [NMap.get?, hp, hk, ih hm]

/-- An entry of a map whose values are changed alike. -/
theorem NMap.get?_map {α β : Type} (m : NMap α) (f : α → β) (k : Nat) :
    NMap.get? (m.map fun e => (e.1, f e.2)) k = (NMap.get? m k).map f := by
  induction m with
  | nil => rfl
  | cons e m ih => by_cases hk : e.1 = k <;> simp [NMap.get?, hk, ih]

/-- The entry of a key whose entry is changed. -/
theorem NMap.get?_adjust_self {α : Type} (m : NMap α) (k : Nat) (f : α → α) :
    NMap.get? (NMap.adjust m k f) k = (NMap.get? m k).map f := by
  unfold NMap.adjust
  cases h : NMap.get? m k with
  | none => exact h
  | some a => exact NMap.get?_set_self ..

/-! ## Lists -/

theorem mem_insNat (l : List Nat) (x y : Nat) : y ∈ insNat l x ↔ y = x ∨ y ∈ l := by
  induction l with
  | nil => simp [insNat]
  | cons a l ih =>
    unfold insNat
    split
    · exact List.mem_cons
    · split
      · next h => subst h; simp
      · simp only [List.mem_cons, ih]; tauto

theorem mem_delNat (l : List Nat) (x y : Nat) : y ∈ delNat l x ↔ y ≠ x ∧ y ∈ l := by
  simp [delNat, and_comm]

/-- An element of a list in which one element is changed. -/
theorem getElem?_mapAt {α : Type} (l : List α) (n : Nat) (f : α → α) (j : Nat) :
    (l.zipIdx.map fun x => if x.2 = n then f x.1 else x.1)[j]? = if j = n then l[j]?.map f else l[j]? := by
  rw [List.getElem?_map, List.getElem?_zipIdx, Option.map_map]
  by_cases h : j = n
  · rw [if_pos h]
    exact congrArg (Option.map · l[j]?) (funext fun a => if_pos (by simpa using h))
  · rw [if_neg h]
    have : ((fun x => if x.2 = n then f x.1 else x.1) ∘ fun a => (a, 0 + j)) = id :=
      funext fun a => if_neg (by simpa using h)
    rw [this, Option.map_id_fun, id]

end Sys2Proof.Machine
end

section
/-! Start-up, the mailbox and power (R42, R461, R464, R481-R489): what a lost state keeps, what each stage of a start does, and the
claim put together from them. -/

namespace Sys2Proof.Machine

/-! ## What a lost state keeps -/

/-- The remap tables stand in fuses (R38). -/
theorem lostState_remap (s : State) (b : Boot) (h : (s.ms.chans.map Prod.fst).Nodup) (ch : Nat) :
    ((lostState s b).chan ch).remap = (s.chan ch).remap := by
  have hc : NMap.get? (lostState s b).ms.chans ch = ((NMap.get? s.ms.chans ch).filter fun c => !c.remap.isEmpty).map fun c =>
      ⟨[], 0, [], [], [], c.remap, [], []⟩ := by
    rw [← NMap.get?_filter h fun c => !c.2.remap.isEmpty, ← NMap.get?_map]
    rfl
  unfold State.chan
  rw [hc]
  cases NMap.get? s.ms.chans ch with
  | none => rfl
  | some c => by_cases hr : c.remap = [] <;> simp [Option.filter, hr]

/-- Everything is lost but what flash and fuses hold, and the start that the boot block describes begins with stage 1. -/
def State.lostTo (s t : State) : Prop :=
  t.work = State.reset.work ∧ t.ms.mem = [] ∧ t.ms.l2 = [] ∧ t.ms.l1 = [] ∧
    t.ms.bpl = s.ms.bpl ∧ t.ms.l2off = s.ms.l2off ∧ (∀ ch, (t.chan ch).remap = (s.chan ch).remap) ∧
    t.pkg.flashScores = s.pkg.flashScores ∧ t.pkg.health = s.pkg.health ∧ t.pkg.boot.slots = s.pkg.boot.slots ∧
    t.pkg.boot.fuses = s.pkg.boot.fuses ∧ t.pkg.boot.active = s.pkg.boot.nextActive ∧ t.pkg.boot.state = 0 ∧ t.pkg.boot.stage = 1

/-- A lost state whose boot block differs from a fresh start's in power, in the trip mark, and in how the last start failed. -/
theorem lostTo_lostState (s : State) (h : (s.ms.chans.map Prod.fst).Nodup) (powered tripped : Bool) (fails reason : Nat) :
    s.lostTo (lostState s { s.pkg.boot.again with powered := powered, tripped := tripped, fails := fails, reason := reason }) :=
  ⟨rfl, rfl, rfl, rfl, rfl, rfl, lostState_remap s _ h, rfl, rfl, rfl, rfl, rfl, rfl, rfl⟩

/-! ## Failed starts -/

/-- The third failed start in a row leads to the minimal mode (R482). -/
theorem startFails_boot (s : State) (reason : Nat) :
    (startFails s reason).work = State.reset.work ∧ (startFails s reason).ms.mem = [] ∧
      (startFails s reason).pkg.boot.reason = reason ∧ (startFails s reason).pkg.boot.fails = min (s.pkg.boot.fails + 1) 3 ∧
      (startFails s reason).pkg.boot.state = if 2 ≤ s.pkg.boot.fails then 2 else 0 := by
  unfold startFails
  by_cases h : 2 ≤ s.pkg.boot.fails
  · rw [if_pos h]
    dsimp only
    rw [if_pos (by omega)]
    exact ⟨rfl, rfl, rfl, rfl, rfl⟩
  · rw [if_neg h]
    dsimp only
    rw [if_neg (by omega)]
    exact ⟨rfl, rfl, rfl, rfl, rfl⟩

/-- Until the third failure in a row another start begins (R482). -/
theorem startFails_again (s : State) (h : (s.ms.chans.map Prod.fst).Nodup) (hf : s.pkg.boot.fails < 2) (reason : Nat) :
    s.lostTo (startFails s reason) ∧ (startFails s reason).pkg.boot.fails = s.pkg.boot.fails + 1 ∧
      (startFails s reason).pkg.boot.reason = reason := by
  have e : startFails s reason = lostState s { s.pkg.boot.again with fails := s.pkg.boot.fails + 1, reason := reason } := by
    unfold startFails
    dsimp only
    rw [if_neg (by omega), Nat.min_eq_left (by omega)]
  rw [e]
  exact ⟨lostTo_lostState s h true false _ _, rfl, rfl⟩

theorem imageReason_mem (s : State) (control : Bool) : imageReason s control ∈ [1, 2, 3] := by
  unfold imageReason
  cases control <;> split <;> simp

/-! ## The stages of a start -/

section Stages
variable {s : State} (h0 : s.pkg.boot.state = 0) (hp : s.pkg.boot.powered = true)
include h0 hp

/-- A start is under way, so that its next stage can end (R481). -/
theorem start_underWay : ¬ (s.pkg.boot.state ≠ 0 ∨ (!s.pkg.boot.powered) = true) := by
  simp [h0, hp]

/-- Stage 1 runs the PMU's image of the first slot that has one (R481). -/
theorem bootStageComplete_pmu (h1 : s.pkg.boot.stage = 1) {x : Nat}
    (hx : (slotOrder s.pkg.boot).find? (fun x => imageOk s (slotImage s.pkg.boot false x)) = some x) :
    exec .bootStageComplete s = .next { s with pkg := { s.pkg with boot :=
      { s.pkg.boot with stage := 2, since := s.clock.dtime, slot := x,
                        svn := min (Config.imageSvn (slotImage s.pkg.boot false x)) 255 } } } := by
  show execBootStageComplete s = _
  unfold execBootStageComplete
  dsimp only
  rw [if_neg (start_underWay h0 hp), h1]
  simp only [hx]
  rfl

/-- Stage 2 runs the control cores' image, and they apply the lists that flash keeps (R42, R64, R461, R464, R481). -/
theorem bootStageComplete_control (h2 : s.pkg.boot.stage = 2) {x : Nat}
    (hx : (slotOrder s.pkg.boot).find? (fun x => imageOk s (slotImage s.pkg.boot true x)) = some x) :
    exec .bootStageComplete s = .next (onBoot (loadLists s) fun b => { b with stage := 3, since := s.clock.dtime }) := by
  show execBootStageComplete s = _
  unfold execBootStageComplete
  dsimp only
  rw [if_neg (start_underWay h0 hp), h2]
  simp only [hx]
  rfl

theorem bootStageComplete_third (h3 : s.pkg.boot.stage = 3) :
    exec .bootStageComplete s = .next { s with pkg := { s.pkg with boot :=
      { s.pkg.boot with stage := 4, since := s.clock.dtime } } } := by
  show execBootStageComplete s = _
  unfold execBootStageComplete
  dsimp only
  rw [if_neg (start_underWay h0 hp), h3]
  rfl

/-- The start is complete: it counts as no failure, and the fuses take the version that runs (R481, R483). -/
theorem bootStageComplete_last (h4 : s.pkg.boot.stage = 4) :
    exec .bootStageComplete s = .next { s with pkg := { s.pkg with boot :=
      { s.pkg.boot with stage := 5, since := s.clock.dtime, state := 1, fails := 0,
                        fuses := max s.pkg.boot.fuses (min s.pkg.boot.svn 64) } } } := by
  show execBootStageComplete s = _
  unfold execBootStageComplete
  dsimp only
  rw [if_neg (start_underWay h0 hp), h4]
  rfl

/-- A start fails where neither slot holds an image that runs (R482). -/
theorem bootStageComplete_fails {control : Bool} (hst : s.pkg.boot.stage = if control then 2 else 1)
    (hx : ∀ x ∈ slotOrder s.pkg.boot, imageOk s (slotImage s.pkg.boot control x) = false) :
    exec .bootStageComplete s = .next (startFails s (imageReason s control)) := by
  have hnone : (slotOrder s.pkg.boot).find? (fun x => imageOk s (slotImage s.pkg.boot control x)) = none := by
    rw [List.find?_eq_none]
    intro x hm
    rw [hx x hm]
    decide
  show execBootStageComplete s = _
  unfold execBootStageComplete
  dsimp only
  rw [if_neg (start_underWay h0 hp), hst]
  cases control <;> simp only [Bool.false_eq_true, if_false, if_true, hnone]

end Stages

/-- What the stages that a start has left leave to check, by their number (R481, R482). -/
theorem bootStageComplete_spec (s : State) (h : (s.ms.chans.map Prod.fst).Nodup) (h0 : s.pkg.boot.state = 0)
    (hp : s.pkg.boot.powered = true) (hlt : s.pkg.boot.stage < 3) (hpos : 0 < s.pkg.boot.stage)
    (hx : ∀ x ∈ slotOrder s.pkg.boot, imageOk s (slotImage s.pkg.boot (s.pkg.boot.stage == 2) x) = false)
    (hf : s.pkg.boot.fails < 2) :
    ∃ t, exec .bootStageComplete s = .next t ∧ s.lostTo t ∧ t.pkg.boot.fails = s.pkg.boot.fails + 1 ∧
      t.pkg.boot.reason ∈ [1, 2, 3] := by
  have hst : s.pkg.boot.stage = if (s.pkg.boot.stage == 2) = true then 2 else 1 := by
    rcases (by omega : s.pkg.boot.stage = 1 ∨ s.pkg.boot.stage = 2) with e | e <;> rw [e] <;> rfl
  obtain ⟨hl, hn, hr⟩ := startFails_again s h hf (imageReason s (s.pkg.boot.stage == 2))
  exact ⟨_, bootStageComplete_fails h0 hp hst hx, hl, hn, by rw [hr]; exact imageReason_mem s _⟩

/-! ## The mailbox and the PMU -/

/-- The image of the other slot becomes the one that the next start tries first (R484). -/
theorem mailboxComplete_activate {s : State} (hb : s.pkg.boot.mbBusy = true) (hr : mbRequest s = none)
    (hc : s.pkg.boot.mbcmd = 3) : ∃ t, exec .mailboxComplete s = .next t ∧
      t.pkg.boot = { s.pkg.boot with nextActive := 1 - s.pkg.boot.slot % 2, mbBusy := false, mbResult := 0, mbData := [] } ∧
      t.pkg.msix = s.pkg.msix ++ [4] ∧ t.work = s.work ∧ t.ms = s.ms := by
  have hn : s.pkg.boot.mbcmd.toNat = 3 := by rw [hc]; rfl
  refine ⟨mbFinish (onBoot s fun b => { b with nextActive := 1 - s.pkg.boot.slot % 2 }) 0, ?_, rfl, rfl, rfl, rfl⟩
  show execMailboxComplete s = _
  unfold execMailboxComplete
  simp only [hb, hr, mbStep, hn, Bool.not_true, Bool.false_eq_true, if_false]
  rfl

/-- The PMU sets a clock step that fits (R487, R488). -/
theorem powerControl_spec {s : State} {watts temp step : Nat} (hf : powerFits s watts temp step = true) :
    ∃ t, exec (.powerControl watts temp step) s = .next t ∧
      t.clock.mhz = 900 + 75 * step ∧ t.clock.dtime = s.clock.dtime ∧ t.pkg.power.watts = watts ∧ t.pkg.power.temp = temp ∧
      t.work = s.work ∧ t.ms = s.ms := by
  refine ⟨_, rfl, ?_⟩
  rw [if_pos hf]
  dsimp only
  split <;> exact ⟨rfl, rfl, rfl, rfl, rfl, rfl⟩

/-- Settles O55: each event's own lemma above says what it leaves; what is lost and what is kept is `lostTo_lostState`. -/
theorem startEventsComplete : Obligations.StartEventsComplete := by
  unfold Obligations.StartEventsComplete
  intro s h lost
  refine ⟨⟨_, rfl, lostTo_lostState s h true false _ _, rfl⟩, ⟨_, rfl, lostTo_lostState s h false false _ _, rfl⟩,
    ⟨_, rfl, lostTo_lostState s h false true _ _, rfl, rfl⟩, fun h0 hp => ?_, fun hl => ?_,
    fun hb hr hc => mailboxComplete_activate hb hr hc, fun _ _ _ hf => powerControl_spec hf⟩
  · refine ⟨fun h1 _ hx => bootStageComplete_pmu h0 hp h1 hx, fun h2 _ hx => ?_, bootStageComplete_third h0 hp,
      bootStageComplete_last h0 hp, fun hlt hpos hx hf => bootStageComplete_spec s h h0 hp hlt hpos hx hf⟩
    exact ⟨_, bootStageComplete_control h0 hp h2 hx, rfl, rfl, rfl⟩
  · refine ⟨startFails s 8, ?_, startFails_boot s 8⟩
    show execBootStageTimeout s = _
    rw [execBootStageTimeout, if_pos hl]

end Sys2Proof.Machine
end

section
/-! The host's command registers (R43, R56, R62, R65, R122, R416, R442, R447, R467, R484, R487): a host write that may take effect
does what its register's rule says. -/

namespace Sys2Proof.Machine

/-- A host write takes effect once the host's earlier writes are performed (R122). -/
theorem hostWrite_ready {s : State} (h : s.hostReady = true) (f : State → State) : hostWrite s f = f s := by
  rw [hostWrite, if_pos h]

/-! ## The bad-page list -/

/-- The pages of main memory that the list may name (R43). -/
theorem badPages_eq : Config.memBytes / 2 ^ 16 = 0xC00000 := by decide

section BadPages
variable {s : State} {page : Nat} (h : s.hostReady = true) (hb : s.ms.bplBusy = false) (hp : page < 0xC00000)
include h hb hp

/-- A page of main memory joins the list (R43). -/
theorem bplAdd_spec (hn : page ∉ s.ms.bpl) (hl : s.ms.bpl.length < 8192) : ∃ t, exec (.bplAdd page) s = .next t ∧
    (∀ p, p ∈ t.ms.bpl ↔ p = page ∨ p ∈ s.ms.bpl) ∧ t.ms.bplBusy = true ∧ t.work = s.work ∧ t.ms.mem = s.ms.mem := by
  refine ⟨s.onMs fun ms => { ms with bpl := insNat ms.bpl page, bplBusy := true }, ?_, mem_insNat _ _, rfl, rfl, rfl⟩
  have hx : ¬ Config.memBytes / 2 ^ 16 ≤ page := by rw [badPages_eq]; omega
  have hl' : ¬ 8192 ≤ s.ms.bpl.length := by omega
  show Host.Outcome.next (hostWrite s fun s => bplAddSet s page) = _
  rw [hostWrite_ready h, bplAddSet]
  simp only [hb, hx, hn, hl', List.contains_eq_mem, decide_false, Bool.or_self, Bool.false_eq_true, if_false]

/-- A listed page leaves the list (R43). -/
theorem bplRemove_spec (hm : page ∈ s.ms.bpl) : ∃ t, exec (.bplRemove page) s = .next t ∧
    (∀ p, p ∈ t.ms.bpl ↔ p ≠ page ∧ p ∈ s.ms.bpl) ∧ t.ms.bplBusy = true ∧ t.work = s.work ∧ t.ms.mem = s.ms.mem := by
  refine ⟨s.onMs fun ms => { ms with bpl := delNat ms.bpl page, bplRemoved := insNat ms.bplRemoved page, bplBusy := true }, ?_,
    mem_delNat _ _, rfl, rfl, rfl⟩
  have hx : ¬ Config.memBytes / 2 ^ 16 ≤ page := by rw [badPages_eq]; omega
  show Host.Outcome.next (hostWrite s fun s => bplRemoveSet s page) = _
  rw [hostWrite_ready h, bplRemoveSet]
  simp only [hb, hx, hm, List.contains_eq_mem, decide_false, decide_true, Bool.not_true, Bool.or_self, Bool.false_eq_true, if_false]

end BadPages

/-! ## Invalidations -/

/-- An invalidation starts while none runs (R56). -/
theorem vminvStart_idle {s : State} (hb : s.vm.regs.busy = false) (i : VmRegs → Invalidation) :
    vminvStart s i = { s with vm := { s.vm with regs := { s.vm.regs with busy := true }
                                                inval := some (i { s.vm.regs with busy := true }) } } := by
  rw [vminvStart, if_neg (by rw [hb]; decide)]
  rfl

/-- Each invalidation command records what it is to drop (R56, R62). -/
theorem vminv_spec {s : State} (h : s.hostReady = true) (hb : s.vm.regs.busy = false) :
    ∀ e ∈ [(Instr.vminvRange, Invalidation.mk (some s.vm.regs.ctx) (some s.vm.regs.range) false none),
        (.vminvContext, ⟨some s.vm.regs.ctx, none, false, none⟩), (.vminvAll, ⟨none, none, false, none⟩),
        (.vminvRefuseRange, ⟨some s.vm.regs.ctx, some s.vm.regs.range, true, none⟩)],
      exec e.1 s = .next { s with vm := { s.vm with regs := { s.vm.regs with busy := true }, inval := some e.2 } } := by
  have key (i : VmRegs → Invalidation) : Host.Outcome.next (hostWrite s fun s => vminvStart s i) =
      (.next { s with vm := { s.vm with regs := { s.vm.regs with busy := true }
                                        inval := some (i { s.vm.regs with busy := true }) } } : Out) := by
    rw [hostWrite_ready h, vminvStart_idle hb]
  intro e he
  simp only [List.mem_cons, List.not_mem_nil, or_false] at he
  rcases he with rfl | rfl | rfl | rfl
  · exact key _
  · exact key _
  · exact key _
  · exact key _

/-! ## Launch queues -/

/-- `t` is `s` with another host queue `q`. -/
def State.onlyQueue (s : State) (q : Nat) (t : State) (y : HostQueue) : Prop :=
  hqOf t q = y ∧ (∀ j, j ≠ q → hqOf t j = hqOf s j) ∧ t.ms = s.ms ∧ t.work.groups = s.work.groups

/-- A change of one host queue leaves the others (R416). -/
theorem onlyQueue_onHq {s : State} {q : Nat} (hq : q < s.work.hq.length) (f : HostQueue → HostQueue) :
    s.onlyQueue q (onHq s q f) (f (hqOf s q)) := by
  have hx (j : Nat) : hqOf (onHq s q f) j = ((if j = q then s.work.hq[j]?.map f else s.work.hq[j]?).getD HostQueue.reset) := by
    rw [← getElem?_mapAt, ← List.getD_eq_getElem?_getD]
    rfl
  refine ⟨?_, fun j hj => ?_, rfl, rfl⟩
  · rw [hx, if_pos rfl, hqOf, List.getD_eq_getElem?_getD, List.getElem?_eq_getElem hq]
    rfl
  · rw [hx, if_neg hj, hqOf, List.getD_eq_getElem?_getD]

section Queues
variable {s : State} {q : Nat} (h : s.hostReady = true) (hq : q < s.work.hq.length) (v : W64)
include h hq

/-- A queue that is not served takes a write of its registers (R416). -/
theorem hqWrite_idle (hen : (hqOf s q).en = false) (f : HostQueue → HostQueue) :
    ∃ t, Host.Outcome.next (hostWrite s fun s => hqWrite s q f) = (.next t : Out) ∧ s.onlyQueue q t (f (hqOf s q)) := by
  refine ⟨hqWrite s q f, by rw [hostWrite_ready h], ?_⟩
  have := onlyQueue_onHq hq fun x => if x.en then { x with err := true } else f x
  rwa [hen, if_neg Bool.false_ne_true] at this

/-- A queue that is not served takes its size and mode, and is served from then on where EN says so (R416). -/
theorem hqctlWrite_idle (hen : (hqOf s q).en = false) (hm : s.minimal = false) :
    ∃ t, exec (.hqctlWrite q v) s = .next t ∧ s.onlyQueue q t { hqOf s q with
      err := (hqOf s q).err && !v.getLsbD 2, size := bitsOf v.toNat 19 16, render := v.getLsbD 1, en := v.getLsbD 0 } := by
  refine ⟨hqctlSet s q v, congrArg Host.Outcome.next (hostWrite_ready h _), ?_⟩
  refine Eq.mp (congrArg (s.onlyQueue q (hqctlSet s q v)) ?_) (onlyQueue_onHq hq _)
  simp only [hen, hm, Bool.false_and, Bool.or_false, Bool.not_false, Bool.and_true, Bool.false_eq_true, if_false]

/-- The tail of a queue's ring moves to where HQDB says (R416). -/
theorem hqDoorbell_spec (hv : v.toNat % 2 ^ 16 < (hqOf s q).ring) :
    ∃ t, exec (.hqDoorbell q v) s = .next t ∧ s.onlyQueue q t { hqOf s q with tail := v.toNat % 2 ^ 16 } := by
  refine ⟨hqdbSet s q v, congrArg Host.Outcome.next (hostWrite_ready h _), ?_⟩
  refine Eq.mp (congrArg (s.onlyQueue q (hqdbSet s q v)) ?_) (onlyQueue_onHq hq _)
  simp only [Nat.not_le.2 hv, if_false]

end Queues

/-! ## Traces -/

/-- TRCTL sets its die's unit, whose WR counts from zero when it is switched on (R447). -/
theorem trctlWrite_spec {s : State} (h : s.hostReady = true) {die : Nat} (hd : die < s.pkg.trace.length) (v : W64) :
    ∃ t, exec (.trctlWrite die v) s = .next t ∧ t.ms = s.ms ∧
      t.traceUnit die = { s.traceUnit die with
        size := bitsOf v.toNat 7 4, wrap := v.getLsbD 1, en := v.getLsbD 0
        wr := if v.getLsbD 0 && !(s.traceUnit die).en then 0 else (s.traceUnit die).wr } := by
  have hx (f : TraceUnit → TraceUnit) : (onTrace s die f).traceUnit die = f (s.traceUnit die) := by
    have e : (onTrace s die f).traceUnit die = ((if die = die then s.pkg.trace[die]?.map f else s.pkg.trace[die]?).getD
        ⟨0, 0, false, false, 0, 0, 0⟩) := by
      rw [← getElem?_mapAt, ← List.getD_eq_getElem?_getD]
      rfl
    rw [e, if_pos rfl, State.traceUnit, List.getD_eq_getElem?_getD, List.getElem?_eq_getElem hd]
    rfl
  refine ⟨trctlSet s die v, congrArg Host.Outcome.next (hostWrite_ready h _), ?_, ?_⟩
  · unfold trctlSet
    dsimp only
    split <;> rfl
  · rw [← hx fun t => { t with size := bitsOf v.toNat 7 4, wrap := v.getLsbD 1, en := v.getLsbD 0
                               wr := if v.getLsbD 0 && !(s.traceUnit die).en then 0 else t.wr }]
    unfold trctlSet
    dsimp only
    split <;> rfl

/-! ## The mailbox -/

/-- The mailbox takes a command while none runs (R484). -/
theorem mb_spec {s : State} (h : s.hostReady = true) (hb : s.pkg.boot.mbBusy = false) :
    ∀ e ∈ [(Instr.mbAttest, (1 : W64)), (.mbImageWrite, 2), (.mbSlotActivate, 3), (.mbCertRead, 4), (.mbRestart, 5)],
      exec e.1 s = .next { s with pkg := { s.pkg with boot :=
        { s.pkg.boot with mbcmd := e.2, mbBusy := true, mbData := [] } } } := by
  have key (v : W64) : Host.Outcome.next (hostWrite s fun s => mbcmdSet s v) = (.next { s with pkg := { s.pkg with boot :=
      { s.pkg.boot with mbcmd := v, mbBusy := true, mbData := [] } } } : Out) := by
    rw [hostWrite_ready h]
    simp only [mbcmdSet, onBoot, State.onPkg, hb, Bool.false_eq_true, if_false]
  intro e he
  simp only [List.mem_cons, List.not_mem_nil, or_false] at he
  rcases he with rfl | rfl | rfl | rfl | rfl
  · exact key _
  · exact key _
  · exact key _
  · exact key _
  · exact key _

/-! ## Pre-emption -/

/-- The context of a command is there, and is changed alone. -/
theorem ctx?_onCtx {s : State} {ctx : Nat} {c : Ctx} (hc : s.ctx? ctx = some c) (f : Ctx → Ctx) :
    (s.onCtx ctx f).ctx? ctx = some (f c) := by
  show NMap.get? (NMap.adjust s.work.ctxs ctx f) ctx = _
  rw [NMap.get?_adjust_self, show NMap.get? s.work.ctxs ctx = some c from hc, Option.map_some]

/-- A context that runs is to be saved: its groups halt one after the other (R442-R444). -/
theorem preempt_spec {s : State} (h : s.hostReady = true) (hb : s.work.sched.preBusy = false) {ctx : Nat} {c : Ctx}
    (hc : s.ctx? ctx = some c) (hp : c.preempted = false) (hs : c.saving = false) :
    ∃ t u, exec (.preempt ctx) s = .next t ∧
      u.ctx? ctx = some { c with saving := true } ∧ u.work.groups = s.work.groups ∧ u.ms = s.ms ∧
      u.work.sched = { s.work.sched with preBusy := true, preCtx := ctx, preRun := ctx } ∧
      t = (((s.work.groups.filter fun e => e.2.info.ctx == ctx && e.2.proxyOf.isNone).map Prod.fst).foldl haltGroup u) := by
  refine ⟨_, (preBegin s ctx).onCtx ctx fun c => { c with saving := true }, ?_, ctx?_onCtx hc _, rfl, rfl, rfl, rfl⟩
  show Host.Outcome.next (hostWrite s fun s => preemptCtx s ctx) = _
  have hx : ctxHalted s ctx = false := by
    unfold ctxHalted
    rw [hc, Option.map_some, Option.getD_some, hp, hs, Bool.or_self]
  rw [hostWrite_ready h]
  unfold preemptCtx
  simp only [hb, hc, hx, Option.isNone_some, Bool.or_self, Bool.false_eq_true, if_false]
  rfl

/-- `t` differs from `s` in translation alone, and keeps the saved entries of the side logs. -/
def State.logsOnly (s t : State) : Prop := ∃ vm, t = { s with vm := vm } ∧ vm.slogSaved = s.vm.slogSaved

/-- A saved entry that returns to its log stays in no other place (R446). -/
theorem logsOnly_slogReturn (s : State) (core : Nat) (e : SlogEntry) : s.logsOnly (slogReturn s core e) := by
  unfold slogReturn
  dsimp only
  split <;> exact ⟨_, rfl, rfl⟩

theorem logsOnly_foldl (l : List (Nat × SlogEntry)) (s : State) :
    s.logsOnly (l.foldl (fun s e => slogReturn s e.1 e.2) s) := by
  induction l generalizing s with
  | nil => exact ⟨_, rfl, rfl⟩
  | cons e l ih =>
    obtain ⟨vm, ht, hv⟩ := logsOnly_slogReturn s e.1 e.2
    obtain ⟨vm', ht', hv'⟩ := ih (slogReturn s e.1 e.2)
    rw [ht] at ht' hv'
    exact ⟨vm', by rw [List.foldl_cons, ht, ht'], hv'.trans hv⟩

/-- The end of a resume changes the scheduling block's busy bit alone (R442). -/
theorem resumeOver_eq (s : State) : ∃ b, resumeOver s = s.onWork fun w => { w with sched := { w.sched with preBusy := b } } := by
  unfold resumeOver
  dsimp only
  split
  · exact ⟨false, rfl⟩
  · exact ⟨s.work.sched.preBusy, rfl⟩

/-- The state of a resume before its saved entries return: the context runs, and its entries are saved no more. -/
def resumeStart (s : State) (ctx : Nat) : State :=
  ((preBegin s ctx).onCtx ctx fun c => { c with preempted := false }).onVm fun vm =>
    { vm with slogSaved := vm.slogSaved.filter fun e => e.2.ctx != ctx }

/-- The state of a resume with the context's saved entries back in their logs (R446). -/
def resumeLogs (s : State) (ctx : Nat) : State :=
  (s.vm.slogSaved.filter fun e => e.2.ctx == ctx).foldl (fun s e => slogReturn s e.1 e.2) (resumeStart s ctx)

/-- A tray of the context, its timers started at a cycle (R363). -/
def Tray.restart (ctx now : Nat) (t : Tray) : Tray :=
  if t.ctx = ctx then { t with recs := t.recs.map fun (r : TrayRec) => { r with written := now } } else t

/-- A resume of a pre-empted context. -/
theorem resumeCtx_eq {s : State} (hb : s.work.sched.preBusy = false) {ctx : Nat} {c : Ctx} (hc : s.ctx? ctx = some c)
    (hp : c.preempted = true) :
    resumeCtx s ctx = resumeOver ((resumeLogs s ctx).onWork fun w =>
      { w with trays := w.trays.map (Tray.restart ctx (resumeLogs s ctx).clock.cycle) }) := by
  unfold resumeCtx
  simp only [hb, hc, hp, Option.map_some, Option.getD_some, Bool.not_true, Bool.or_self, Bool.false_eq_true, if_false]
  rfl

/-- A pre-empted context runs again: its saved log entries return, and its trays' timers restart (R442, R446). -/
theorem resume_spec {s : State} (h : s.hostReady = true) (hb : s.work.sched.preBusy = false) {ctx : Nat} {c : Ctx}
    (hc : s.ctx? ctx = some c) (hp : c.preempted = true) :
    ∃ t, exec (.resume ctx) s = .next t ∧ t.ctx? ctx = some { c with preempted := false } ∧
      t.work.groups = s.work.groups ∧ t.ms = s.ms ∧ t.work.sched.preCtx = ctx ∧
      (∀ e ∈ t.vm.slogSaved, e.2.ctx ≠ ctx) ∧
      ∀ x ∈ t.work.trays, x.ctx = ctx → ∀ r ∈ x.recs, r.written = s.clock.cycle := by
  obtain ⟨vm, hlogs, hvm⟩ : (resumeStart s ctx).logsOnly (resumeLogs s ctx) := logsOnly_foldl _ _
  have hsaved : (resumeLogs s ctx).vm.slogSaved = (resumeStart s ctx).vm.slogSaved := by rw [hlogs]; exact hvm
  have hwork : (resumeLogs s ctx).work = (resumeStart s ctx).work := by rw [hlogs]
  have hms : (resumeLogs s ctx).ms = (resumeStart s ctx).ms := by rw [hlogs]
  have hclock : (resumeLogs s ctx).clock = (resumeStart s ctx).clock := by rw [hlogs]
  obtain ⟨b, hover⟩ := resumeOver_eq ((resumeLogs s ctx).onWork fun w =>
    { w with trays := w.trays.map (Tray.restart ctx (resumeLogs s ctx).clock.cycle) })
  refine ⟨_, congrArg Host.Outcome.next (hostWrite_ready h _), ?_⟩
  rw [resumeCtx_eq hb hc hp, hover]
  refine ⟨?_, (congrArg Work.groups hwork :), hms,
    (congrArg (fun w : Work => w.sched.preCtx) hwork :), fun e he => ?_, fun x hx hctx r hr => ?_⟩
  · show NMap.get? (resumeLogs s ctx).work.ctxs ctx = _
    rw [hwork]
    exact ctx?_onCtx (s := preBegin s ctx) hc _
  · have he' : e ∈ (resumeStart s ctx).vm.slogSaved := hsaved ▸ he
    simpa using (List.mem_filter.1 he').2
  · obtain ⟨y, -, rfl⟩ := List.mem_map.1 hx
    have hy : y.ctx = ctx := by
      unfold Tray.restart at hctx
      split at hctx
      · assumption
      · exact hctx
    rw [Tray.restart, if_pos hy] at hr
    obtain ⟨r', -, rfl⟩ := List.mem_map.1 hr
    exact congrArg Clock.cycle hclock

/-- Settles O47: each register's write, once it may take effect, is its rule's own function, whose effect a lemma above says. -/
theorem hostCommandsComplete : Obligations.HostCommandsComplete := by
  intro s v h
  refine ⟨fun page hb hp => ⟨bplAdd_spec h hb hp, bplRemove_spec h hb hp⟩, fun hb => vminv_spec h hb, fun q hq =>
    ⟨fun hen => ⟨hqWrite_idle h hq hen _, hqWrite_idle h hq hen _, hqctlWrite_idle h hq v hen⟩, hqDoorbell_spec h hq v⟩,
    ⟨_, congrArg Host.Outcome.next (hostWrite_ready h _), rfl, rfl, rfl⟩,
    ⟨_, congrArg Host.Outcome.next (hostWrite_ready h _), rfl, rfl, rfl⟩,
    ⟨_, congrArg Host.Outcome.next (hostWrite_ready h _), rfl, rfl, rfl⟩, fun die hd => trctlWrite_spec h hd v, mb_spec h,
    fun hb ctx c hc => ⟨preempt_spec h hb hc, resume_spec h hb hc⟩⟩

end Sys2Proof.Machine
end

section
/-! Words that reach memory (R32, R75, R302-R312): the checks of their addresses pass, and a store outside regions sends its requests. -/

namespace Sys2Proof.Machine

/-! ## Checks of addresses -/

/-- Aligned addresses pass the checks, when those of main memory lie in the 48-bit space (R302, R212). -/
theorem checkAddrs_pass {size : Nat} {ls : List (Nat × Nat)} (global : Bool) (h : ∀ e ∈ ls, e.2 % size = 0)
    (hw : ∀ e ∈ ls, global = true → wildAddr e.2 = false) (c : Cx) (body : State) : c.checkAddrs size global ls body = body := by
  have hoff : ls.filter (fun e => e.2 % size != 0) = [] :=
    List.filter_eq_nil_iff.2 fun e he => by simp [h e he]
  have hwild : (if global = true then ls.filter fun e => wildAddr e.2 else []) = [] := by
    split
    · next hg => exact List.filter_eq_nil_iff.2 fun e he => by simp [hw e he hg]
    · rfl
  simp only [Cx.checkAddrs, hoff, hwild, List.isEmpty_nil, Bool.not_true, Bool.false_eq_true, if_false]

theorem checkAddrs_placed {size : Nat} {ls : List (Nat × Nat)} (h : placed size ls) (c : Cx) (global : Bool) (body : State) :
    c.checkAddrs size global ls body = body :=
  checkAddrs_pass global (fun e he => (h e he).1) (fun e he _ => (h e he).2) c body

/-! ## A word that has issued -/

/-- The group of a word that has issued keeps its pending words. -/
theorem done_group (c : Cx) : c.done.group? c.k = some (c.advance c.nextPc).g := State.group?_setGroup _ _ _

theorem advance_pend_length (c : Cx) (pc : Pc) : (c.advance pc).g.pend.length = c.g.pend.length :=
  List.length_map _

/-- A split after writes of its core woke the waits that watch their sectors (R320). -/
theorem split?_wake (g : Group) (secs : List Nat) (id : Nat) :
    (g.wake secs).split? id = (g.split? id).map fun sp => sp.wake secs := by
  have hid (sp : Split) : (sp.wake secs).id = sp.id := by unfold Split.wake; dsimp only; split <;> rfl
  unfold Group.split? Group.wake
  simp only [List.find?_map, Function.comp_def, hid]

/-- What `Passed` says of a unit concerns its group, split, number and word alone. -/
theorem Cx.Passed.of_same {c d : Cx} (hg : d.g = c.g) (hsp : d.sp = c.sp) (hk : d.k = c.k) (hi : d.i = c.i) {h : Group} {t : State}
    (hp : d.Passed h t) : c.Passed h t := by
  obtain ⟨⟨hlast, hgr, hst, hregs⟩, hsys⟩ := hp
  have hpc : d.nextPc = c.nextPc := by unfold Cx.nextPc; rw [hsp, hi]
  refine ⟨⟨hlast, hk ▸ hgr, ?_, hg ▸ hregs⟩, hg ▸ hsys⟩
  unfold Cx.stands at hst ⊢
  rwa [← hpc, ← hsp]

/-- The unit after a store's requests left it: its group waits for what is outstanding. -/
theorem sendReqs_done {c : Cx} (h : (c.g.split? c.sp.id).isSome = true) (reqs : List LanePart) :
    let sent := sendParts c.s c.writer reqs
    ∃ g, c.Passed g (c.sendReqs reqs).done ∧ g.pend.length = c.g.pend.length ∧ g.out = c.g.out ++ sent.1 ∧
      (c.sendReqs reqs).done.ms = sent.2.ms ∧ (c.sendReqs reqs).done.vm = sent.2.vm := by
  have hs : ((c.sendReqs reqs).g.split? (c.sendReqs reqs).sp.id).isSome = true := by
    show ((Group.wake _ _).split? c.sp.id).isSome = true
    rw [split?_wake, Option.isSome_map]
    exact h
  obtain ⟨hlast, ⟨-, hms, hvm, -⟩, g, hg, helse, ⟨hst, -⟩, hregs, hsys⟩ := done_spec hs
  have hg' := hg.symm.trans (done_group _)
  obtain rfl := Option.some.inj hg'
  exact ⟨_, ⟨⟨hlast, hg, hst, hregs⟩, hsys⟩, advance_pend_length _ _, (congrArg Group.out helse :), hms, hvm⟩

/-! ## Stores -/

section Stores
variable {c : Cx} {s' : State} {x : Xlated} {ls : List (Nat × Nat)} {atomic : Bool}

/-- Outside regions, writes that no page denies go on to their requests, when the core's miss queue and the side log have
room (R58-R61, R77). -/
theorem writing_clear (ht : translateLanes c.s c.k c.g.info.ctx .write atomic ls = (x, s')) (hd : x.denied = [])
    (hm : missRoom s' (coreOf c.k) = true) (kind : Nat → Nat → StoreKind)
    (hroom : unmapped ((c.after s').requests x ls kind) = 0 ∨ ownerlessOf s' (coreOf c.k) = [] ∧
      (slogOf s' (coreOf c.k)).length + unmapped ((c.after s').requests x ls kind) ≤ 256)
    (body : Cx → List LanePart → State) :
    c.writing atomic ls kind body = body (c.after s') ((c.after s').requests x ls kind) := by
  have hfull : (decide (0 < unmapped ((c.after s').requests x ls kind)) && (!(ownerlessOf s' (coreOf c.k)).isEmpty ||
      decide (256 < (slogOf s' (coreOf c.k)).length + unmapped ((c.after s').requests x ls kind)))) = false := by
    rcases hroom with h | ⟨h, hl⟩
    · rw [h]; rfl
    · rw [h, decide_eq_false (Nat.not_lt.2 hl), List.isEmpty_nil]
      exact Bool.and_false _
  unfold Cx.writing
  rw [ht]
  show ite _ _ (ite ((!c.g.inRegion && decide (0 < unmapped ((c.after s').requests x ls kind)) &&
    (!(ownerlessOf s' (coreOf c.k)).isEmpty || decide (256 < (slogOf s' (coreOf c.k)).length +
      unmapped ((c.after s').requests x ls kind)))) = true) _ _) = _
  rw [Bool.and_assoc, hfull, Bool.and_false, hd, if_neg (by decide), if_neg (by decide), hm, Bool.not_true, Bool.and_false,
    if_neg (by decide)]
  rfl

end Stores

/-- A store word outside regions that is clear and placed sends its requests. -/
theorem exec_storeWord {i : Instr} {s s' : State} {c : Cx} {size : Nat} {ls : List (Nat × Nat)} {atomic : Bool}
    {kind : Nat → Nat → StoreKind} {x : Xlated} (hc : cx? i s = some c) (h : c.Clear) (hr : c.g.region = none)
    (hw : c.storeWord i = some (size, ls, atomic, kind)) (hp : placed size ls)
    (ht : translateLanes c.s c.k c.g.info.ctx .write atomic ls = (x, s')) (hd : x.denied = [])
    (hm : missRoom s' (coreOf c.k) = true)
    (hroom : unmapped ((c.after s').requests x ls kind) = 0 ∨ ownerlessOf s' (coreOf c.k) = [] ∧
      (slogOf s' (coreOf c.k)).length + unmapped ((c.after s').requests x ls kind) ≤ 256) :
    exec i s = .next ((((c.after s').pops i.uses).sendReqs ((c.after s').requests x ls kind)).done) := by
  have hin : (c.after s').g.inRegion = false := by show c.g.region.isSome = false; rw [hr]; rfl
  have hr' : (c.after s').g.region = none := hr
  unfold Cx.storeWord at hw
  split at hw
  · simp only [Option.some.injEq, Prod.mk.injEq] at hw
    obtain ⟨hsize, hls, hat, hkind⟩ := hw
    subst hsize hls hat hkind
    refine (issue_clear (ck := Checks.none) hc h (fun _ hn => nomatch hn) rfl rfl rfl _).trans (congrArg _ ?_)
    dsimp only
    rw [checkAddrs_placed hp, writing_clear ht hd hm _ hroom]
    simp only [hr']
  · simp only [Option.some.injEq, Prod.mk.injEq] at hw
    obtain ⟨hsize, hls, hat, hkind⟩ := hw
    subst hsize hls hat hkind
    refine (issue_clear (ck := Checks.none) hc h (fun _ hn => nomatch hn) rfl rfl rfl _).trans (congrArg _ ?_)
    dsimp only
    rw [checkAddrs_placed hp, writing_clear ht hd hm _ hroom]
    simp only [hin, Bool.false_eq_true, if_false]
  · cases hw

/-- Settles O10: outside regions a store word passes its checks to `sendReqs`, whose unit then issues. -/
theorem storeCompletes : Obligations.StoreCompletes := by
  intro i s s' c size ls atomic kind x hc h hr hw hp ht hd hm reqs hroom sent
  obtain ⟨-, -, -, hsplit, hi, -⟩ := cx?_eq hc
  subst hi
  obtain ⟨hg, hsp, hk, hi, -⟩ : _ ∧ _ ∧ _ ∧ _ ∧ _ := pops_spec (c.after s')
  have hs : (((c.after s').pops c.i.uses).g.split? ((c.after s').pops c.i.uses).sp.id).isSome = true :=
    (congrArg₂ (fun (g : Group) (sp : Split) => (g.split? sp.id).isSome) hg hsp :).trans (Option.isSome_iff_exists.2 ⟨_, hsplit⟩)
  have hwr : ((c.after s').pops c.i.uses).writer = c.writer := by
    unfold Cx.writer
    rw [show ((c.after s').pops c.i.uses).g = c.g from hg, show ((c.after s').pops c.i.uses).k = c.k from hk,
      show ((c.after s').pops c.i.uses).sp = c.sp from hsp]
  obtain ⟨g, hpass, hpend, hout, hms, hvm⟩ := sendReqs_done hs reqs
  rw [hwr] at hout hms hvm
  rw [show ((c.after s').pops c.i.uses).g = c.g from hg] at hpend hout
  exact ⟨_, g, exec_storeWord hc h hr hw hp ht hd hm hroom, hpass.of_same hg hsp hk hi, hpend, hout, hms, hvm⟩

end Sys2Proof.Machine
end

section
/-! A load word's result (R208, R303, R304): what its lanes got is pending for its registers, and what that leaves unchanged. -/

namespace Sys2Proof.Machine

/-! ## What a result changes beside its own entry -/

/-- `d` is `c` but for its region's effects, the counters of grids and the k-queues of teams. -/
structure Cx.sameWork (c d : Cx) : Prop where
  k : d.k = c.k
  sp : d.sp = c.sp
  i : d.i = c.i
  group : ∃ r, d.g = { c.g with region := r }
  clock : d.s.clock = c.s.clock
  ms : d.s.ms = c.s.ms
  others : ∀ j, d.s.group? j = c.s.group? j
  scratch : ∀ j, (d.s.team? j).map Team.scr = (c.s.team? j).map Team.scr

/-- Counting substituted lanes changes counters of grids alone (R299). -/
theorem countSubst_grids (s : State) (g : Group) (n : Nat) :
    ∃ gs, countSubst s g n = { s with work := { s.work with grids := gs } } := by
  have key (f : Grid → Grid) (l : List Nat) (s : State) :
      ∃ gs, l.foldl (fun s gk => s.onGrid gk f) s = { s with work := { s.work with grids := gs } } := by
    induction l generalizing s with
    | nil => exact ⟨_, rfl⟩
    | cons a l ih =>
      obtain ⟨gs, h⟩ := ih (s.onGrid a f)
      exact ⟨gs, h⟩
  unfold countSubst
  split
  · exact ⟨_, rfl⟩
  · exact key _ _ _

/-- A pushed queue entry leaves the scratchpads as they were (R180). -/
theorem kpush_sameWork (c : Cx) (q : Nat) (x : LaneReg) (filled : Bool) : c.sameWork (c.kpush q x filled).2 := by
  unfold Cx.kpush
  split
  · exact ⟨rfl, rfl, rfl, ⟨_, rfl⟩, rfl, rfl, fun _ => rfl, fun _ => rfl⟩
  · next t ht =>
    refine ⟨rfl, rfl, rfl, ?_, rfl, rfl, fun _ => rfl, fun j => ?_⟩
    · dsimp only
      split <;> exact ⟨_, rfl⟩
    · by_cases hj : j = c.g.info.team
      · rw [hj, ht]
        show ((c.s.setTeam c.g.info.team _).team? c.g.info.team).map Team.scr = _
        rw [State.team?_setTeam]
        rfl
      · exact congrArg (Option.map Team.scr) (State.team?_setTeam_ne _ _ hj)

/-- The unit that has counted substituted lanes. -/
def Cx.substituted (c : Cx) (gs : List LaneGot) : Cx :=
  { c with s := countSubst c.s c.g (if c.g.info.accept then (gs.filter LaneGot.poison).length else 0) }

/-- A load's result is a pending word of a unit that differs in counters and queues alone. -/
theorem result_eq_later (c : Cx) (d : Dst) (ty : MemTy) (act : Mask) (gs : List LaneGot) (n delay stamp : Nat) (remote : Bool) :
    ∃ c' kq, c.sameWork c' ∧ c.result d ty act gs n delay stamp remote =
      c'.later (if remote then .reply n else .cycle (c.s.clock.cycle + delay)) act (Dst.run d (gotRegs ty gs).length)
        (gotRegs ty gs) kq 0 0 (gotTrap c.g.info.accept gs) stamp := by
  obtain ⟨grids, hs⟩ := countSubst_grids c.s c.g (if c.g.info.accept then (gs.filter LaneGot.poison).length else 0)
  have h0 : c.sameWork (c.substituted gs) := by
    unfold Cx.substituted
    rw [hs]
    exact ⟨rfl, rfl, rfl, ⟨_, rfl⟩, rfl, rfl, fun _ => rfl, fun _ => rfl⟩
  have hclock : (c.substituted gs).s.clock = c.s.clock := h0.clock
  have hinfo {c' : Cx} (h : c.sameWork c') : c'.g.info = c.g.info := by
    obtain ⟨r, hr⟩ := h.group
    rw [hr]
  cases d with
  | v r => exact ⟨c.substituted gs, none, h0, by rw [← hclock]; rfl⟩
  | none => exact ⟨c.substituted gs, none, h0, by rw [← hclock]; rfl⟩
  | k q =>
    obtain ⟨e1, e2, e3, e4, e5, e6, e7, e8⟩ := kpush_sameWork (c.substituted gs) q.val LaneReg.zero false
    have h1 : c.sameWork ((c.substituted gs).kpush q.val LaneReg.zero false).2 :=
      ⟨e1, e2, e3, e4, e5.trans hclock, e6.trans h0.ms, fun j => (e7 j).trans (h0.others j), fun j => (e8 j).trans (h0.scratch j)⟩
    refine ⟨_, some (q.val, ((c.substituted gs).kpush q.val LaneReg.zero false).1), h1, ?_⟩
    rw [← h1.clock, ← hinfo h1]
    rfl

/-- A load's result leaves the split as it was. -/
theorem result_sp (c : Cx) (d : Dst) (ty : MemTy) (act : Mask) (gs : List LaneGot) (n delay stamp : Nat) (remote : Bool) :
    (c.result d ty act gs n delay stamp remote).sp = c.sp := by
  obtain ⟨c', kq, hw, heq⟩ := result_eq_later c d ty act gs n delay stamp remote
  rw [heq]
  exact hw.sp

/-! ## A pending word after its issue -/

/-- What `Awaits` says of a unit concerns its group's registers, its split but for the log's mark, its number and its word. -/
theorem Cx.Awaits.of_same {c d : Cx} (hregs : d.g.regs = c.g.regs) (hsys : d.g.sys = c.g.sys)
    (hsp : { d.sp with logMark := c.sp.logMark } = c.sp) (hk : d.k = c.k) (hi : d.i = c.i) {t : State} {p : Pending}
    (hp : d.Awaits t p) : c.Awaits t p := by
  obtain ⟨hlast, h, hgr, hst, hpend, hr, hs⟩ := hp
  have hpc : d.nextPc = c.nextPc := by rw [Cx.nextPc, Cx.nextPc, ← hsp, hi]
  refine ⟨hlast, h, hk ▸ hgr, ?_, hpend, hregs ▸ hr, hs.trans hsys⟩
  unfold Cx.stands at hst ⊢
  rw [← hpc, ← hsp]
  exact hst

/-- A word whose result is pending issues: its entry is the newest of the group's. -/
theorem later_done {c : Cx} (h : (c.g.split? c.sp.id).isSome = true) (on : PendOn) (act : Mask) (regs : List Nat)
    (vals : List LaneReg) (kq : Option (Nat × Nat)) (flags : BitVec 5) (flagLanes : Mask) (trap : Option DelivTrap) (stamp : Nat) :
    let u := (c.later on act regs vals kq flags flagLanes trap stamp).done
    ∃ p, c.Awaits u p ∧ p.prod = c.sp.pc ∧ p.on = on ∧ p.act = act ∧ p.regs = regs ∧ p.vals = vals ∧ p.trap = trap ∧
      u.ms = c.s.ms ∧ (∀ j, j ≠ c.k → u.group? j = c.s.group? j) ∧ ∀ j, u.team? j = c.s.team? j := by
  intro u
  obtain ⟨-, -, -, -, hsys, -, hsplits, hrq, -⟩ := later_spec c on act regs vals kq flags flagLanes trap stamp
  have hs : ((c.later on act regs vals kq flags flagLanes trap stamp).g.split? c.sp.id).isSome = true := by
    unfold Group.split? at h ⊢
    rwa [hsplits]
  obtain ⟨hlast, ⟨-, hms, -, -, -, hgroups, -⟩, g, hg, -, ⟨hst, -⟩, hregs, hsys'⟩ := done_spec hs
  obtain rfl := Option.some.inj (hg.symm.trans (done_group _))
  have hpend {f : Pending → Pending} {l : List Pending} {p : Pending} : ((l ++ [p]).map f).getLast? = some (f p) :=
    (congrArg List.getLast? List.map_append).trans List.getLast?_concat
  exact ⟨_, ⟨hlast, _, hg, hst, hpend, by rw [hregs, hrq], hsys'.trans hsys⟩, rfl, rfl, rfl, rfl, rfl, rfl,
    hms, hgroups, fun _ => rfl⟩

/-- A load's result, issued. -/
theorem result_done {c : Cx} (h : (c.g.split? c.sp.id).isSome = true) (d : Dst) (ty : MemTy) (act : Mask) (gs : List LaneGot)
    (n delay stamp : Nat) (remote : Bool) :
    let u := (c.result d ty act gs n delay stamp remote).done
    ∃ p, c.Awaits u p ∧ p.prod = c.sp.pc ∧ p.on = (if remote then .reply n else .cycle (c.s.clock.cycle + delay)) ∧ p.act = act ∧
      p.vals = gotRegs ty gs ∧ p.regs = Dst.run d p.vals.length ∧ p.trap = gotTrap c.g.info.accept gs ∧ u.ms = c.s.ms ∧
      (∀ j, j ≠ c.k → u.group? j = c.s.group? j) ∧ ∀ j, (u.team? j).map Team.scr = (c.s.team? j).map Team.scr := by
  obtain ⟨c', kq, hw, heq⟩ := result_eq_later c d ty act gs n delay stamp remote
  obtain ⟨r, hr⟩ := hw.group
  have h' : (c'.g.split? c'.sp.id).isSome = true := by
    rw [hw.sp, hr]
    exact h
  obtain ⟨p, hp, hprod, hon, hact, hregs, hvals, htrap, hms, hgroups, hteams⟩ := later_done h'
    (if remote then .reply n else .cycle (c.s.clock.cycle + delay)) act (Dst.run d (gotRegs ty gs).length) (gotRegs ty gs) kq 0 0
    (gotTrap c.g.info.accept gs) stamp
  intro u
  have hu : u = _ := congrArg Cx.done heq
  rw [← hu] at hp hms hgroups hteams
  refine ⟨p, hp.of_same (by rw [hr]) (by rw [hr]) (by rw [hw.sp]) hw.k hw.i, hprod.trans (by rw [hw.sp]), hon, hact, hvals,
    hvals ▸ hregs, htrap, hms.trans hw.ms, fun j hj => ?_, fun j => ?_⟩
  · rw [hgroups j (hw.k ▸ hj), hw.others]
  · rw [hteams, hw.scratch]

end Sys2Proof.Machine
end

section
/-! The scratchpad words (R33, R87, R88, R307, R309): a granule's write, the sector requests of one store, and what LDL and STL leave. -/

namespace Sys2Proof.Machine

/-! ## Writing granules of a scratchpad -/

/-- The init bit of word `w` after a write of granule `g` under a byte mask (R88). -/
def wordWritten (g : Nat) (m : Word32) (w : Nat) : Bool := g == w / 8 && (List.range 4).any fun b => m.getLsbD (4 * (w % 8) + b)

section Write
variable (sc : Scratch) (g : Nat) (m : Word32) (x : Sector)

/-- A byte after a granule is written: the masked bytes are the data's, and every other stays (R88). -/
theorem Scratch.write_bytes (h : Memory.wf sc.bytes = true) (p : Bool) (n : Nat) :
    cellGet (sc.write g m x p).bytes n =
      if n / 32 = g ∧ m.getLsbD (n % 32) then Sector.byte x (n % 32) else cellGet sc.bytes n := by
  have hb : (sc.write g m x p).bytes = (setMemSector { State.reset.ms with mem := sc.bytes } g m x).mem := by
    unfold Scratch.write setMemSector
    simp only [Nat.mul_comm 32 g]
    split <;> rfl
  rw [hb]
  exact setMemSector_get h g m x n

/-- A write leaves the size and the busy granules. -/
theorem Scratch.write_size (p : Bool) : (sc.write g m x p).size = sc.size := by unfold Scratch.write; dsimp only; split <;> rfl

theorem Scratch.write_busy (p : Bool) : (sc.write g m x p).busy = sc.busy := by unfold Scratch.write; dsimp only; split <;> rfl

/-- A write sets the init bits of the words it touches (R88). -/
theorem Scratch.write_isInit (p : Bool) (w : Nat) : (sc.write g m x p).isInit w = (sc.isInit w || wordWritten g m w) := by
  have hmem (ws l : List Nat) : w ∈ ws.foldl (fun l w => insNat l (8 * g + w)) l ↔ w ∈ l ∨ ∃ v ∈ ws, w = 8 * g + v := by
    induction ws generalizing l with
    | nil => simp
    | cons v ws ih => rw [List.foldl_cons, ih, mem_insNat]; simp only [List.mem_cons, exists_eq_or_imp]; tauto
  have hi : (sc.write g m x p).init = ((List.range 8).filter fun w => (List.range 4).any fun b => m.getLsbD (4 * w + b)).foldl
      (fun l w => insNat l (8 * g + w)) sc.init := by
    unfold Scratch.write; dsimp only; split <;> rfl
  rw [Bool.eq_iff_iff, Scratch.isInit, Scratch.isInit, hi, List.contains_iff_mem, hmem, Bool.or_eq_true, List.contains_iff_mem]
  refine or_congr_right ⟨?_, fun h => ?_⟩
  · rintro ⟨v, hv, rfl⟩
    obtain ⟨hlt, hany⟩ := List.mem_filter.1 hv
    have hlt := List.mem_range.1 hlt
    rw [wordWritten, show (8 * g + v) / 8 = g by omega, show (8 * g + v) % 8 = v by omega, hany, beq_self_eq_true]
    rfl
  · obtain ⟨hg, hany⟩ := Bool.and_eq_true_iff.1 h
    exact ⟨w % 8, List.mem_filter.2 ⟨List.mem_range.2 (Nat.mod_lt _ (by decide)), hany⟩, by rw [beq_iff_eq.1 hg]; omega⟩

end Write

/-- A request of a store written to a scratchpad. -/
def Scratch.put (sc : Scratch) (q : LanePart) : Scratch :=
  match q.kind with
  | .store x m => sc.write (q.va / 32) m x false
  | .red _ _ _ => sc

section Put
variable (sc : Scratch) (q : LanePart)

theorem Scratch.put_wf (h : Memory.wf sc.bytes = true) : Memory.wf (sc.put q).bytes = true := by
  unfold Scratch.put
  split
  · exact Scratch.write_wf h _ _ _ _
  · exact h

theorem Scratch.put_size : (sc.put q).size = sc.size := by
  unfold Scratch.put
  split
  · exact Scratch.write_size ..
  · rfl

theorem Scratch.put_busy : (sc.put q).busy = sc.busy := by
  unfold Scratch.put
  split
  · exact Scratch.write_busy ..
  · rfl

theorem Scratch.put_bytes (h : Memory.wf sc.bytes = true) (n : Nat) :
    cellGet (sc.put q).bytes n =
      if n / 32 = q.va / 32 ∧ q.mask.getLsbD (n % 32) then Sector.byte q.data (n % 32) else cellGet sc.bytes n := by
  obtain ⟨va, xl, kind⟩ := q
  cases kind with
  | store x m => exact Scratch.write_bytes _ _ _ _ h _ _
  | red op ty ops => exact (if_neg fun e => absurd e.2 (by simp [LanePart.mask])).symm

theorem Scratch.put_isInit (w : Nat) : (sc.put q).isInit w = (sc.isInit w || wordWritten (q.va / 32) q.mask w) := by
  obtain ⟨va, xl, kind⟩ := q
  cases kind with
  | store x m => exact Scratch.write_isInit ..
  | red op ty ops => simp [Scratch.put, LanePart.mask, wordWritten]

end Put

section PutAll
variable (reqs : List LanePart) (sc : Scratch)

theorem Scratch.putAll_size : (reqs.foldl Scratch.put sc).size = sc.size := by
  induction reqs generalizing sc with
  | nil => rfl
  | cons q reqs ih => rw [List.foldl_cons, ih, Scratch.put_size]

theorem Scratch.putAll_busy : (reqs.foldl Scratch.put sc).busy = sc.busy := by
  induction reqs generalizing sc with
  | nil => rfl
  | cons q reqs ih => rw [List.foldl_cons, ih, Scratch.put_busy]

theorem Scratch.putAll_isInit (w : Nat) :
    (reqs.foldl Scratch.put sc).isInit w = (sc.isInit w || reqs.any fun q => wordWritten (q.va / 32) q.mask w) := by
  induction reqs generalizing sc with
  | nil => simp
  | cons q reqs ih => rw [List.foldl_cons, ih, Scratch.put_isInit, List.any_cons, Bool.or_assoc]

/-- A byte of a granule that no request names stays. -/
theorem Scratch.putAll_bytes_other {n : Nat} (h : Memory.wf sc.bytes = true) (hn : ∀ q ∈ reqs, q.va / 32 ≠ n / 32) :
    cellGet (reqs.foldl Scratch.put sc).bytes n = cellGet sc.bytes n := by
  induction reqs generalizing sc with
  | nil => rfl
  | cons q reqs ih =>
    have hq := hn q List.mem_cons_self
    rw [List.foldl_cons, ih _ (Scratch.put_wf _ _ h) fun q' hq' => hn q' (List.mem_cons_of_mem _ hq'), Scratch.put_bytes _ _ h,
      if_neg fun e => hq e.1.symm]

/-- A byte of a granule that one request names is that request's, where its mask says so. -/
theorem Scratch.putAll_bytes_mem (hd : (reqs.map fun q => q.va / 32).Nodup) (h : Memory.wf sc.bytes = true) {q : LanePart} (hq : q ∈ reqs)
    {j : Nat} (hj : j < 32) :
    cellGet (reqs.foldl Scratch.put sc).bytes (32 * (q.va / 32) + j) =
      if q.mask.getLsbD j then Sector.byte q.data j else cellGet sc.bytes (32 * (q.va / 32) + j) := by
  induction reqs generalizing sc with
  | nil => cases hq
  | cons r reqs ih =>
    obtain ⟨hr, hd'⟩ := List.nodup_cons.1 hd
    have hdiv (a : Nat) : (32 * a + j) / 32 = a := by omega
    rw [List.foldl_cons]
    rcases List.mem_cons.1 hq with rfl | hq'
    · rw [Scratch.putAll_bytes_other reqs _ (Scratch.put_wf _ _ h) fun p hp e => hr (List.mem_map.2 ⟨p, hp, e.trans (hdiv _)⟩),
        Scratch.put_bytes _ _ h, hdiv, show (32 * (q.va / 32) + j) % 32 = j by omega]
      simp only [true_and]
    · rw [ih _ hd' (Scratch.put_wf _ _ h) hq', Scratch.put_bytes _ _ h, hdiv, if_neg (c := _ ∧ _)]
      rintro ⟨e, -⟩
      exact hr (List.mem_map.2 ⟨q, hq', e⟩)

end PutAll

/-! ## Sector requests -/

/-- Setting a key of an ordered map keeps its order. -/
theorem NMap.set_ordered {α : Type} {m : NMap α} (h : m.Pairwise fun a b => a.1 < b.1) (k : Nat) (x : α) :
    (NMap.set m k x).Pairwise (fun a b => a.1 < b.1) ∧ ∀ e ∈ NMap.set m k x, e = (k, x) ∨ e ∈ m := by
  induction m with
  | nil => simp [NMap.set]
  | cons e m ih =>
    obtain ⟨j, a⟩ := e
    obtain ⟨hj, hm⟩ := List.pairwise_cons.1 h
    obtain ⟨ih, hmem⟩ := ih hm
    unfold NMap.set
    split
    · next hk =>
      refine ⟨List.pairwise_cons.2 ⟨fun b hb => ?_, h⟩, fun b hb => List.mem_cons.1 hb⟩
      rcases List.mem_cons.1 hb with rfl | hb
      · exact hk
      · exact hk.trans (hj b hb)
    · split
      · next hk =>
        subst hk
        exact ⟨List.pairwise_cons.2 ⟨hj, hm⟩, fun b hb => (List.mem_cons.1 hb).imp_right (List.mem_cons_of_mem _)⟩
      · next hk hne =>
        refine ⟨List.pairwise_cons.2 ⟨fun b hb => ?_, ih⟩, fun b hb => ?_⟩
        · rcases hmem b hb with rfl | hb
          · exact lt_of_le_of_ne (not_lt.1 hk) hne
          · exact hj b hb
        · rcases List.mem_cons.1 hb with rfl | hb
          · exact .inr List.mem_cons_self
          · exact (hmem b hb).imp_right (List.mem_cons_of_mem _)

/-- An entry that a map gives stands in it. -/
theorem NMap.mem_of_get? {α : Type} {m : NMap α} {k : Nat} {x : α} (h : NMap.get? m k = some x) : (k, x) ∈ m := by
  induction m with
  | nil => cases h
  | cons e m ih =>
    rw [NMap.get?] at h
    split at h
    · next hk =>
      obtain ⟨j, a⟩ := e
      obtain rfl := Option.some.inj h
      obtain rfl := hk
      exact List.mem_cons_self
    · exact List.mem_cons_of_mem _ (ih h)

/-- The requests with one lane's part joined (R75). -/
def joinReq (m : NMap LanePart) (l : LanePart) : NMap LanePart :=
  NMap.set m (reqKey l.va l.xl) (((NMap.get? m (reqKey l.va l.xl)).map fun r => { r with kind := r.kind.join l.kind }).getD l)

theorem sectorReqs_eq (ls : List LanePart) : sectorReqs ls = ls.foldl joinReq [] := by
  unfold sectorReqs
  congr 1
  funext m l
  unfold joinReq
  dsimp only
  cases NMap.get? m (reqKey l.va l.xl) <;> rfl

/-- Requests in the order of their keys, each under its own key and with a target of one of the lanes' parts. -/
def OrderedReqs (ls : List LanePart) (m : NMap LanePart) : Prop :=
  m.Pairwise (fun a b => a.1 < b.1) ∧ ∀ e ∈ m, e.1 = reqKey e.2.va e.2.xl ∧ ∃ l ∈ ls, e.2.xl = l.xl

theorem joinReq_ordered {ls : List LanePart} {m : NMap LanePart} (h : OrderedReqs ls m) {l : LanePart} (hl : l ∈ ls) :
    OrderedReqs ls (joinReq m l) := by
  obtain ⟨ho, hk⟩ := h
  refine ⟨(NMap.set_ordered ho _ _).1, fun e he => ?_⟩
  rcases (NMap.set_ordered ho _ _).2 e he with rfl | he
  · cases hg : NMap.get? m (reqKey l.va l.xl) with
    | none => exact ⟨rfl, l, hl, rfl⟩
    | some r =>
      have := hk _ (NMap.mem_of_get? hg)
      exact this
  · exact hk e he

/-- The sector requests of a word stand in the order of their sectors, each under its own key (R75). -/
theorem sectorReqs_ordered (ls : List LanePart) : OrderedReqs ls (sectorReqs ls) := by
  rw [sectorReqs_eq]
  have key (ls' : List LanePart) (m : NMap LanePart) (hm : OrderedReqs ls m) (hl : ∀ l ∈ ls', l ∈ ls) :
      OrderedReqs ls (ls'.foldl joinReq m) := by
    induction ls' generalizing m with
    | nil => exact hm
    | cons l ls' ih => exact ih _ (joinReq_ordered hm (hl l List.mem_cons_self)) fun x hx => hl x (List.mem_cons_of_mem _ hx)
  exact key ls [] ⟨List.Pairwise.nil, fun e he => nomatch he⟩ fun _ h => h

/-- Requests without a translation name each granule once. -/
theorem sectorReqs_granules_nodup {ls : List LanePart} (h : ∀ l ∈ ls, l.xl = none) :
    (((sectorReqs ls).map Prod.snd).map fun q => q.va / 32).Nodup := by
  obtain ⟨ho, hk⟩ := sectorReqs_ordered ls
  have hkey (e : Nat × LanePart) (he : e ∈ sectorReqs ls) : e.1 = 2 ^ 60 + e.2.va / 32 := by
    obtain ⟨he1, l, hl, hx⟩ := hk e he
    rw [he1, hx, h l hl]
    rfl
  rw [List.map_map]
  refine List.Pairwise.map _ (R := fun a b => a ∈ sectorReqs ls ∧ b ∈ sectorReqs ls ∧ a.1 < b.1) (fun a b ⟨ha, hb, hab⟩ =>
    ?_) ?_
  · have := hkey a ha
    have := hkey b hb
    show a.2.va / 32 ≠ b.2.va / 32
    omega
  · exact ho.imp_of_mem fun ha hb hab => ⟨ha, hb, hab⟩

/-! ## The team's scratchpad -/

/-- Changing a team's scratchpad changes that team alone. -/
theorem onScratch_team? {s : State} {k : Nat} {m : Team} (h : s.team? k = some m) (f : Scratch → Scratch) :
    (onScratch s k f).team? k = some { m with scr := f m.scr } ∧ (∀ j, j ≠ k → (onScratch s k f).team? j = s.team? j) := by
  unfold onScratch State.onTeam
  rw [h]
  exact ⟨State.team?_setTeam _ _ _, fun j hj => State.team?_setTeam_ne _ _ hj⟩

/-- It leaves memory, the clock and the groups. -/
theorem onScratch_rest (s : State) (k : Nat) (f : Scratch → Scratch) :
    (onScratch s k f).ms = s.ms ∧ (onScratch s k f).clock = s.clock ∧ ∀ j, (onScratch s k f).group? j = s.group? j := by
  unfold onScratch State.onTeam
  split <;> exact ⟨rfl, rfl, fun _ => rfl⟩

/-- A word's scratchpad is its team's. -/
theorem Cx.scratch_eq {c : Cx} {m : Team} (h : c.s.team? c.g.info.team = some m) : c.scratch = m.scr := by
  unfold Cx.scratch
  rw [h]
  rfl

/-! ## Lanes that stay on -/

/-- Lanes that do not violate stay on (R89). -/
theorem switchOff_nil (c : Cx) : c.switchOff [] = c := by
  have hm : lanesMask [] = 0 := by decide
  have hn (m : Mask) : m &&& ~~~(0 : Mask) = m := by
    show m &&& ~~~(0#32) = m
    rw [BitVec.not_zero, BitVec.and_allOnes]
  unfold Cx.switchOff Group.onSys
  simp only [List.map_nil, hm, hn, List.any_nil, Bool.false_eq_true, if_false]
  simp

/-- A word that switched no lane off issues as any other. -/
theorem doneMask_same {c b : Cx} (h : c.sp.m = b.sp.m) : c.doneMask b = c.done := by
  unfold Cx.doneMask
  rw [h, bne_self_eq_false, if_neg (by simp), if_neg Bool.false_ne_true]

/-- A mask of at least one byte is not empty. -/
theorem byteMask_ne_zero {i n : Nat} (hi : i < 32) (hn : 0 < n) : byteMask i n ≠ 0 := by
  intro h
  have hbit : (byteMask i n).getLsbD i = true := by
    rw [byteMask, BitVec.getLsbD_ofNat, Nat.testBit_mul_two_pow, Nat.testBit_two_pow_sub_one, Nat.sub_self, decide_eq_true hi,
      decide_eq_true hn, decide_eq_true (le_refl i)]
    rfl
  rw [h] at hbit
  exact absurd hbit (by simp)

theorem MemTy.size_pos (ty : MemTy) : 0 < MemTy.size ty := by cases ty <;> decide

/-! ## LDL -/

/-- What LDL's lanes get of initialised words of their team's scratchpad, outside regions (R307). -/
def Cx.scratchGot (c : Cx) (size : Nat) (ls : List (Nat × Nat)) : List LaneGot :=
  ls.map fun e => ⟨e.1, e.2, Sector.field (c.scratch.sector (e.2 / 32)) (e.2 % 32) size,
    (c.scratch.check (granulesOf ls)).poison.contains (e.2 / 32), none⟩

/-- The unit in hand once LDL's granules are checked (R92). -/
def Cx.scratchChecked (c : Cx) (ls : List (Nat × Nat)) : Cx :=
  { c with s := onScratch c.s c.g.info.team fun _ => c.scratch.check (granulesOf ls) }

/-- An LDL outside regions whose lanes do not violate delivers what its granules hold. -/
theorem exec_ldl {g : Guard} {l : La} {x : Dst} {a : Base} {o : Off} {mc : Bool} {ty : MemTy} {s : State} {c : Cx}
    (hc : cx? (.ldl g l x a o mc ty) s = some c) (h : c.Clear) (hr : c.g.region = none)
    (hp : ∀ e ∈ c.addrs a o (MemTy.size ty) (c.guard g), e.2 % MemTy.size ty = 0)
    (hv : c.violations true (MemTy.size ty) (c.addrs a o (MemTy.size ty) (c.guard g)) = []) :
    let ls := c.addrs a o (MemTy.size ty) (c.guard g)
    exec (.ldl g l x a o mc ty) s = .next (((c.scratchChecked ls).fresh.2.result x ty (c.guard g) (c.scratchGot (MemTy.size ty) ls)
      (c.scratchChecked ls).fresh.1 (23 + bankCycles (MemTy.size ty) ls) 0 false).done) := by
  refine (issue_clear (ck := Checks.none) hc h (fun _ hn => nomatch hn) rfl rfl rfl _).trans (congrArg _ ?_)
  dsimp only
  rw [checkAddrs_pass false hp (fun _ _ h => nomatch h), hv]
  have hgood (ls : List (Nat × Nat)) : ls.filter (fun e => !([] : List (Nat × Bool × Bool × Bool)).any fun b => b.1 == e.1) = ls :=
    List.filter_eq_self.2 fun _ _ => rfl
  have hreg (f : Region → Region) : c.g.onRegion f = c.g := by
    unfold Group.onRegion
    rw [hr, Option.map_none, ← hr]
  have hmask (m : Mask) : m &&& ~~~(lanesMask []) = m := by
    show m &&& ~~~(0#32) = m
    rw [BitVec.not_zero, BitVec.and_allOnes]
  have hown (i : Nat) : ((0 : Word32) &&& byteMask (i % 32) (MemTy.size ty) != byteMask (i % 32) (MemTy.size ty)) = true := by
    rw [show (0 : Word32) &&& byteMask (i % 32) (MemTy.size ty) = 0 from BitVec.zero_and]
    simpa using (byteMask_ne_zero (Nat.mod_lt i (by decide)) (MemTy.size_pos ty)).symm
  unfold Cx.budget
  simp only [hgood, hr, hreg, List.map_nil, switchOff_nil, hmask, Cx.granule, Option.bind_none, hown, Bool.and_true]
  exact doneMask_same (congrArg Split.m (result_sp _ _ _ _ _ _ _ _ _))

/-- What LDL does outside regions. -/
theorem ldl_completes (g : Guard) (l : La) (x : Dst) (a : Base) (o : Off) (mc : Bool) (ty : MemTy) (s : State) (c : Cx)
    (hc : cx? (.ldl g l x a o mc ty) s = some c) (h : c.Clear) (hr : c.g.region = none)
    (hp : ∀ e ∈ c.addrs a o (MemTy.size ty) (c.guard g), e.2 % MemTy.size ty = 0)
    (hv : c.violations true (MemTy.size ty) (c.addrs a o (MemTy.size ty) (c.guard g)) = []) :
    let ls := c.addrs a o (MemTy.size ty) (c.guard g)
    let sc := c.scratch.check (granulesOf ls)
    ∃ u p m, exec (.ldl g l x a o mc ty) s = .next u ∧ c.Awaits u p ∧
      p.on = .cycle (c.s.clock.cycle + 23 + bankCycles (MemTy.size ty) ls) ∧ p.act = c.guard g ∧
      p.vals = gotRegs ty (c.scratchGot (MemTy.size ty) ls) ∧
      p.regs = Dst.run x p.vals.length ∧ p.trap = gotTrap c.g.info.accept (c.scratchGot (MemTy.size ty) ls) ∧ u.ms = c.s.ms ∧
      (∀ j, j ≠ c.k → u.group? j = c.s.group? j) ∧
      u.team? c.g.info.team = some m ∧ m.scr = sc ∧ m.scr.bytes = c.scratch.bytes ∧ m.scr.init = c.scratch.init ∧
      ∀ j, j ≠ c.g.info.team → (u.team? j).map Team.scr = (c.s.team? j).map Team.scr := by
  intro ls sc
  obtain ⟨-, -, -, hsplit, -⟩ := cx?_eq hc
  obtain ⟨m, hm⟩ := Option.isSome_iff_exists.1 h.team
  obtain ⟨hself, hothers⟩ := onScratch_team? hm fun _ => sc
  obtain ⟨hms, hclock, hgroups⟩ := onScratch_rest c.s c.g.info.team fun _ => sc
  obtain ⟨p, hp', -, hon, hact, hvals, hregs, htrap, hms', hgroups', hteams⟩ := result_done
    (c := (c.scratchChecked ls).fresh.2) (Option.isSome_iff_exists.2 ⟨_, hsplit⟩) x ty (c.guard g)
    (c.scratchGot (MemTy.size ty) ls) (c.scratchChecked ls).fresh.1 (23 + bankCycles (MemTy.size ty) ls) 0 false
  obtain ⟨m', hm', hscr⟩ := Option.map_eq_some_iff.1 ((hteams c.g.info.team).trans (congrArg (Option.map Team.scr) hself))
  refine ⟨_, p, m', exec_ldl hc h hr hp hv, hp'.of_same rfl rfl rfl rfl rfl, ?_, hact, hvals, hregs, htrap, hms'.trans hms,
    fun j hj => (hgroups' j hj).trans (hgroups j), hm', hscr, by rw [hscr]; rfl, by rw [hscr]; rfl,
    fun j hj => (hteams j).trans (congrArg (Option.map Team.scr) (hothers j hj))⟩
  have hcycle : (c.scratchChecked ls).fresh.2.s.clock.cycle = c.s.clock.cycle := congrArg Clock.cycle hclock
  rw [hon, if_neg Bool.false_ne_true, hcycle, Nat.add_assoc]

/-! ## STL -/

/-- The sector requests of an STL (R75). -/
def Cx.stlReqs (c : Cx) (x : Src) (ty : MemTy) (ls : List (Nat × Nat)) : List LanePart :=
  (sectorReqs (ls.map fun e => ⟨e.2, none, storeKindOf ty (c.storeData x).1 (c.storeData x).2 e.1 e.2⟩)).map Prod.snd

/-- The unit in hand once STL's requests stand in its team's scratchpad. -/
def Cx.scratchStored (c : Cx) (us : Uses) (reqs : List LanePart) : Cx :=
  { c.pops us with s := onScratch (c.pops us).s c.g.info.team fun sc => reqs.foldl Scratch.put sc }

/-- An STL outside regions whose lanes do not violate writes its requests. -/
theorem exec_stl {g : Guard} {x : Src} {a : Base} {o : Off} {mc : Bool} {ty : MemTy} {s : State} {c : Cx}
    (hc : cx? (.stl g x a o mc ty) s = some c) (h : c.Clear) (hr : c.g.region = none)
    (hp : ∀ e ∈ c.addrs a o (MemTy.size ty) (c.guard g), e.2 % MemTy.size ty = 0)
    (hv : c.violations false (MemTy.size ty) (c.addrs a o (MemTy.size ty) (c.guard g)) = []) :
    exec (.stl g x a o mc ty) s = .next (c.scratchStored (Instr.stl g x a o mc ty).uses
      (c.stlReqs x ty (c.addrs a o (MemTy.size ty) (c.guard g)))).done := by
  refine (issue_clear (ck := Checks.none) hc h (fun _ hn => nomatch hn) rfl rfl rfl _).trans (congrArg _ ?_)
  dsimp only
  rw [checkAddrs_pass false hp (fun _ _ h => nomatch h), hv]
  have hgood (ls : List (Nat × Nat)) : ls.filter (fun e => !([] : List (Nat × Bool × Bool × Bool)).any fun b => b.1 == e.1) = ls :=
    List.filter_eq_self.2 fun _ _ => rfl
  simp only [hgood, hr, switchOff_nil]
  have hm : (c.pops (Instr.stl g x a o mc ty).uses).sp.m = c.sp.m := by unfold Cx.pops; split <;> rfl
  exact doneMask_same (c := c.scratchStored (Instr.stl g x a o mc ty).uses
    (c.stlReqs x ty (c.addrs a o (MemTy.size ty) (c.guard g)))) hm

/-- What STL does outside regions. -/
theorem stl_completes (g : Guard) (x : Src) (a : Base) (o : Off) (mc : Bool) (ty : MemTy) (s : State) (c : Cx)
    (hc : cx? (.stl g x a o mc ty) s = some c) (h : c.Clear) (hr : c.g.region = none)
    (hp : ∀ e ∈ c.addrs a o (MemTy.size ty) (c.guard g), e.2 % MemTy.size ty = 0)
    (hv : c.violations false (MemTy.size ty) (c.addrs a o (MemTy.size ty) (c.guard g)) = []) :
    ∃ u h m, exec (.stl g x a o mc ty) s = .next u ∧ c.Passed h u ∧ u.ms = c.s.ms ∧ u.team? c.g.info.team = some m ∧
      m.scr = (c.stlReqs x ty (c.addrs a o (MemTy.size ty) (c.guard g))).foldl Scratch.put c.scratch ∧
      (∀ j, j ≠ c.k → u.group? j = c.s.group? j) ∧
      ∀ j, j ≠ c.g.info.team → (u.team? j).map Team.scr = (c.s.team? j).map Team.scr := by
  obtain ⟨-, -, -, hsplit, hi, -⟩ := cx?_eq hc
  obtain ⟨m, hm⟩ := Option.isSome_iff_exists.1 h.team
  obtain ⟨hg, hsp, hk, hi', ⟨-, hms, -, -, -, hgroups, hteams, hrest, -⟩, -⟩ := pops_spec c
  obtain ⟨m₁, hm₁, hrest₁⟩ := Option.map_eq_some_iff.1 (hrest.trans (congrArg (Option.map Team.rest) hm))
  have hscr : m₁.scr = c.scratch := by
    rw [Cx.scratch_eq hm]
    exact congrArg (fun r => r.2.2.2.2.2.1) hrest₁
  generalize hreqs : c.stlReqs x ty (c.addrs a o (MemTy.size ty) (c.guard g)) = reqs
  obtain ⟨hself, hothers⟩ := onScratch_team? hm₁ fun sc => reqs.foldl Scratch.put sc
  obtain ⟨hms', -, hgroups'⟩ := onScratch_rest (c.pops c.i.uses).s c.g.info.team fun sc => reqs.foldl Scratch.put sc
  have hs : ((c.scratchStored c.i.uses reqs).g.split? (c.scratchStored c.i.uses reqs).sp.id).isSome = true :=
    (congrArg₂ (fun (g : Group) (sp : Split) => (g.split? sp.id).isSome) hg hsp :).trans (Option.isSome_iff_exists.2 ⟨_, hsplit⟩)
  obtain ⟨hlast, ⟨-, hdms, -, -, -, hdgroups, -⟩, h', hgr, -, ⟨hst, -⟩, hregs, hsys⟩ := done_spec hs
  have hpass : (c.scratchStored c.i.uses reqs).Passed h' (c.scratchStored c.i.uses reqs).done := ⟨⟨hlast, hgr, hst, hregs⟩, hsys⟩
  refine ⟨(c.scratchStored c.i.uses reqs).done, h', _, ?_, hpass.of_same hg hsp hk hi', hdms.trans (hms'.trans hms), hself, ?_,
    fun j hj => ?_, fun j hj => ?_⟩
  · rw [hi, ← hreqs]
    exact exec_stl hc h hr hp hv
  · exact congrArg (reqs.foldl Scratch.put) hscr
  · exact (hdgroups j (hk ▸ hj)).trans ((hgroups' j).trans (hgroups j hj))
  · exact congrArg (Option.map Team.scr) ((hothers j hj).trans (hteams j hj))

/-- Settles O16: LDL's lanes get what their granules hold, and STL's requests, one for each granule, write theirs. -/
theorem scratchAccessCompletes : Obligations.ScratchAccessCompletes := by
  refine ⟨ldl_completes, ?_⟩
  intro g x a o mc ty s c ls reqs hc h hr hp hv hwf
  have hnodup : (reqs.map fun q => q.va / 32).Nodup := sectorReqs_granules_nodup fun l hl => by
    obtain ⟨e, -, rfl⟩ := List.mem_map.1 hl
    rfl
  obtain ⟨u, h', m, hex, hpass, hms, hteam, hscr, hgroups, hteams⟩ := stl_completes g x a o mc ty s c hc h hr hp hv
  have hscr : m.scr = reqs.foldl Scratch.put c.scratch := hscr
  refine ⟨u, h', m, hex, hpass, hms, hteam, ?_, ?_, fun q hq j hj => ?_, fun n hn => ?_, fun w => ?_, hgroups, hteams⟩
  · rw [hscr, Scratch.putAll_size]
  · rw [hscr, Scratch.putAll_busy]
  · rw [hscr, Scratch.putAll_bytes_mem reqs _ hnodup hwf hq hj]
  · rw [hscr, Scratch.putAll_bytes_other reqs _ hwf hn]
  · rw [hscr, Scratch.putAll_isInit]
    rfl

end Sys2Proof.Machine
end

section
/-! The events of base dies (R28, R35, R38): a state in which an early read of a write's sector reaches another line's granule. -/

namespace Sys2Proof.Machine

/-- A packet of one sector, the first of its line; a write fills it with zeros. -/
def packetAt (n line : Nat) (wr : Bool) : Packet :=
  { n := n, ctx := 0, slice := 0, tag := n, line := line, wr := wr, sectors := 1, noalloc := false
    masks := [fullMask], data := [0], doneSecs := 0, got := [], served := false, mergePois := false }

/-- A write waits at channel 0 behind two reads that bear one number: its own line's, and one of line 1, whose first granule has a
correctable error, the third of its row. The fault-address queue is served from address 4,096 on. -/
def sharedNumber : State :=
  State.reset.onMs fun ms => { ms with
    marks := [(4, .correctable)], faq := ⟨1, 0, 0, true, false, false, 0⟩
    chans := [(0, ⟨[packetAt 0 1 false, packetAt 0 0 false, packetAt 1 0 true], 2, [], [], [], [], [], []⟩),
      (1, ⟨[], 0, [], [], [], [], [(0, 0, 5), (0, 0, 6)], []⟩)] }

/-- The hypotheses of a write's event hold of it. -/
theorem oneSector_sharedNumber : oneSector sharedNumber 0 1 0 (packetAt 1 0 true) := by
  unfold oneSector
  decide

/-- The write's event remaps the row of line 1, and reports that at address 4,096, which held zeros (R38, R39). -/
theorem sharedNumber_reports :
    memSector (performSectors sharedNumber 0 1 true).ms 128 ≠ memSector sharedNumber.ms 128 := by
  decide +kernel

/-- Refutes O48: where two packets of a channel bear one number, the early read that a write performs can find another line's
granule, and what that finds is reported into memory. The statement does not ask that packets' numbers differ. -/
theorem not_baseDieEventsComplete : ¬ Obligations.BaseDieEventsComplete := by
  intro h
  obtain ⟨-, hwrite, -⟩ := h sharedNumber rfl
  obtain ⟨hfull, -⟩ := hwrite 0 1 0 _ oneSector_sharedNumber rfl (by decide)
  obtain ⟨t, hex, hmem, -⟩ := hfull rfl
  obtain rfl : performSectors sharedNumber 0 1 true = t := Host.Outcome.next.inj hex
  exact sharedNumber_reports (hmem 128)

end Sys2Proof.Machine
end

section
/-! The cache-control words (R321): a state whose list of memory cells names one address twice, where a writeback's data do not stand
in main memory. -/

namespace Sys2Proof.Machine

/-- The split of a group of which lane 0 runs. -/
def oneLaneSplit : Split :=
  { id := 0, pc := ⟨0, 0⟩, lanes := 1, m := 1, stack := [], rets := [], divs := [], arrive := none
    hold := none, waitStart := none, waitTarget := none, reread := 0, got := [], watch := [], logMark := none
    queue := [], ready := 0, lastIssue := 0 }

/-- A group of context 1 of which lane 0 runs; its registers hold zero. -/
def oneLane : Group :=
  { newGroup 0 (fetchInfo 1 0 0 0) 0 24 [] 0 (fun _ => LaneReg.zero) with splits := [oneLaneSplit] }

/-- The group's page at virtual address 0 stands at 0x10000, by page tables at 0x20000 on, and its first sector, of zeros, is dirty at
its home. Main memory lists the byte at 0x10000 twice. -/
def doubledCell : State :=
  ((State.reset.setTeam 0 (newTeam 0 1 0 0 0 1 [0] 1024 false)).setGroup 0 oneLane).onWork (fun w =>
    { w with ctxs := [(1, ⟨0, 0, 0, 0, 0, true, 0x20000, 2, false, false⟩)] }) |>.onMs fun ms =>
      { ms with
        mem := [(0x10000, 1), (0x10000, 1), (0x20000, 1), (0x20001, 0x10), (0x20002, 2), (0x21000, 1), (0x21001, 0x20),
          (0x21002, 2), (0x22000, 1), (0x22001, 0x30), (0x22002, 2), (0x23000, 0x8D), (0x23002, 1)]
        l2 := [(0x200, ⟨[⟨.d, 0, false, 0, 0⟩], 0⟩)] }

/-- The group's writeback of the line. -/
def lineWriteback : Instr := .cctlWb false .always (.v 0)

/-- The group's unit. -/
def doubledUnit : Cx := ⟨doubledCell, 0, oneLane, oneLane, oneLaneSplit, 1, lineWriteback⟩

theorem cx?_doubledCell : cx? lineWriteback doubledCell = some doubledUnit := rfl

theorem doubledUnit_clear : doubledUnit.Clear where
  opened := by decide
  sound := by decide
  team := by decide
  names := by decide
  native := by decide
  free := by decide
  closed := by decide
  quiet := by decide
  queues := by decide
  popless := by decide
  arrives := by decide
  filled := by decide
  room := by decide

/-- The unit after the line's writeback. -/
def writtenBack : Cx :=
  { doubledUnit with s := (doubledUnit.hints .always (.v 0)).foldl (fun s x => flushLine s x.1.home (lineOf x.2.1) true) doubledCell }

theorem exec_lineWriteback : exec lineWriteback doubledCell = .next writtenBack.done :=
  issue_clear (ck := Checks.none) cx?_doubledCell doubledUnit_clear (fun _ hn => nomatch hn) rfl rfl rfl _

/-- The writeback stores the sector's zeros, which leaves the second cell of the first byte. -/
theorem writtenBack_keeps : memSector writtenBack.done.ms 0x800 ≠ 0 := by
  decide +kernel

/-- No other die holds the sector. -/
theorem doubledCell_elsewhere {d : Nat} (h : d ≠ 0) : (l2Sector doubledCell.ms d 0x800).st ≠ .d := by
  have hkey : NMap.get? doubledCell.ms.l2 (l2Key d (0x800 / 4)) = none := by
    refine NMap.get?_of_not_mem ?_
    show l2Key d (0x800 / 4) ∉ [0x200]
    simp only [l2Key, List.mem_singleton]
    omega
  rw [l2Sector, hkey]
  decide

/-- Refutes O20: where the list of memory cells names an address twice, a sector's writeback does not make its data stand in main
memory. The statement does not ask for memory in its canonical form (`Memory.wf`), as O16 and O48 do. -/
theorem not_cacheWordsComplete : ¬ Obligations.CacheWordsComplete := by
  intro h
  obtain ⟨-, -, hwb, -⟩ := h false false .always (.v 0) doubledCell doubledUnit
  obtain ⟨u, g, hex, -, -, hlines⟩ := hwb cx?_doubledCell doubledUnit_clear
  obtain ⟨-, hdirty⟩ := hlines rfl rfl (0, 0x800) (by decide)
  obtain ⟨-, hmem⟩ := hdirty (by decide)
  obtain ⟨hdata, -⟩ := hmem (fun d hd => doubledCell_elsewhere hd) (by decide)
  obtain rfl : writtenBack.done = u := Host.Outcome.next.inj (exec_lineWriteback.symm.trans hex)
  exact writtenBack_keeps (hdata.trans (by decide))

end Sys2Proof.Machine
end

section
/-! What the reads of cores and units leave (R26-R37, R77-R80, R98-R101): slices, L1s and base dies change memory and the package alone,
so that the clock, translation, the dispatcher and the engines stay as they were. -/

namespace Sys2Proof.Machine

/-! ## Base dies -/

theorem memoryOnly_arrivePacket (s : State) (ch : Nat) (p : Packet) : s.memoryOnly (arrivePacket s ch p) := memoryOnly_setChan ..

theorem memoryOnly_settle (s : State) (sec n : Nat) : s.memoryOnly (settleWith checkGranule s sec n) :=
  memoryOnly_settleWith checkGranule_memoryOnly ..

theorem memoryOnly_endFills (s : State) (sec : Nat) : s.memoryOnly (endFillsWith checkGranule s sec) :=
  memoryOnly_endFillsWith checkGranule_memoryOnly ..

theorem memoryOnly_perform (s : State) (ch n sec ctx : Nat) (m : Word32) (x : Sector) :
    s.memoryOnly (performWith checkGranule s ch n sec ctx m x).2 :=
  memoryOnly_performWith checkGranule_memoryOnly ..

theorem memoryOnly_setPoison (s : State) (sec : Nat) (p : Bool) : s.memoryOnly (s.onMs fun ms => setPoison ms sec p) :=
  memoryOnly_onMs s id

theorem memoryOnly_raiseLease (s : State) (line till : Nat) : s.memoryOnly (s.onMs fun ms => raiseLease ms line till) :=
  memoryOnly_onMs s id

theorem memoryOnly_writePoisoned (s : State) (sec : Nat) (x : Sector) : s.memoryOnly (writePoisoned s sec x) := by
  unfold writePoisoned
  dsimp only
  refine State.memoryOnly.andThen ?_ (memoryOnly_setPoison ..)
  exact ((memoryOnly_awaitMove ..).andThen (memoryOnly_settle ..)).andThen (memoryOnly_perform ..)

theorem memoryOnly_l2CheckHome (s : State) (sec : Nat) : s.memoryOnly (l2CheckHome s sec) := by
  unfold l2CheckHome
  split
  exacts [memoryOnly_l2Check .., s.memoryOnly_refl]

theorem memoryOnly_touchGranule (s : State) (sec ctx : Nat) : s.memoryOnly (touchGranule s sec ctx) := by
  unfold touchGranule
  dsimp only
  split
  · exact memoryOnly_endFills ..
  · exact (((memoryOnly_endFills ..).andThen (memoryOnly_awaitMove ..)).andThen (memoryOnly_settle ..)).andThen
      (checkGranule_memoryOnly ..)

/-- A read by a unit of the device touches its granules alone. -/
theorem memoryOnly_touchPhys (s : State) (pa n ctx : Nat) : s.memoryOnly (touchPhys s pa n ctx) :=
  memoryOnly_foldl _ (fun (s : State) _ => (memoryOnly_l2CheckHome s _).andThen (memoryOnly_touchGranule ..)) s

/-! ## Slices -/

theorem memoryOnly_sendWaiting (s : State) (slice ch : Nat) : s.memoryOnly (sendWaiting s slice ch) :=
  memoryOnly_foldl _ (fun (s : State) _ => by
    dsimp only
    split
    · split
      exacts [memoryOnly_arrivePacket .., s.memoryOnly_refl]
    · exact s.memoryOnly_refl) s

theorem memoryOnly_takeTag (s : State) (slice ch : Nat) (writeback : Bool) (fuel : Nat) :
    s.memoryOnly (takeTag s slice ch writeback fuel) := by
  induction fuel generalizing s with
  | zero => exact s.memoryOnly_refl
  | succ fuel ih =>
    have h : s.memoryOnly (if writeback then s else sendWaiting s slice ch) := by
      split
      exacts [s.memoryOnly_refl, memoryOnly_sendWaiting ..]
    rw [takeTag]
    generalize (if writeback = true then s else sendWaiting s slice ch) = t at h ⊢
    split
    · exact h
    · split
      · exact (h.andThen (memoryOnly_completeWith checkGranule_memoryOnly ..)).andThen (ih _)
      · exact h

theorem memoryOnly_baseRead (s : State) (die sec ctx : Nat) (noalloc : Bool) :
    s.memoryOnly (baseRead s die sec ctx noalloc).2.2 := by
  unfold baseRead
  dsimp only
  refine State.memoryOnly.andThen ?_ (memoryOnly_setChan ..)
  exact (((memoryOnly_takeTag ..).andThen (memoryOnly_awaitMove ..)).andThen (memoryOnly_settle ..)).andThen
    (checkGranule_memoryOnly ..)

theorem memoryOnly_baseWrite (s : State) (die sec ctx : Nat) (m : Word32) (x : Sector) (writeback : Bool) :
    s.memoryOnly (baseWrite s die sec ctx m x writeback).2 := by
  unfold baseWrite
  dsimp only
  exact (((memoryOnly_takeTag ..).andThen (memoryOnly_awaitMove ..)).andThen (memoryOnly_settle ..)).andThen
    (memoryOnly_perform ..)

theorem memoryOnly_writeBackSector (s : State) (die sec : Nat) : s.memoryOnly (writeBackSector s die sec) := by
  unfold writeBackSector
  dsimp only
  split
  · split
    · exact (memoryOnly_l2Check ..).andThen (memoryOnly_writePoisoned ..)
    · exact (memoryOnly_l2Check ..).andThen (memoryOnly_baseWrite ..)
  · exact memoryOnly_l2Check ..

theorem memoryOnly_flushLine (s : State) (die line : Nat) (keep : Bool) : s.memoryOnly (flushLine s die line keep) := by
  unfold flushLine
  dsimp only
  have h := memoryOnly_foldl (List.range 4) (f := fun s i => writeBackSector s die (line * 4 + i))
    (fun (s : State) _ => memoryOnly_writeBackSector s ..) s
  generalize (List.range 4).foldl (fun s i => writeBackSector s die (line * 4 + i)) s = t at h ⊢
  refine h.andThen (memoryOnly_onMs t fun hw => ?_)
  split <;> exact hw

theorem memoryOnly_endLineFills (s : State) (line : Nat) : s.memoryOnly (endLineFills s line) :=
  memoryOnly_foldl _ (fun (s : State) _ => memoryOnly_endFills s _) s

theorem memoryOnly_makeRoom (s : State) (die line : Nat) : s.memoryOnly (makeRoom s die line) := by
  unfold makeRoom
  split
  · exact s.memoryOnly_refl
  · dsimp only
    split
    · exact s.memoryOnly_refl
    · split
      · exact (memoryOnly_endLineFills ..).andThen (memoryOnly_flushLine ..)
      · exact s.memoryOnly_refl

theorem memoryOnly_homeFetch (s : State) (home sec ctx : Nat) (noalloc : Bool) :
    s.memoryOnly (homeFetch s home sec ctx noalloc).2 := by
  have h := (memoryOnly_endFills s sec).andThen (memoryOnly_l2Check (endFillsWith checkGranule s sec) home sec)
  unfold homeFetch
  dsimp only
  generalize l2Check (endFillsWith checkGranule s sec) home sec = t at h ⊢
  split
  · exact h.andThen (memoryOnly_setL2Sector ..)
  · refine State.memoryOnly.andThen ?_ (memoryOnly_setL2Sector ..)
    have hread := (h.andThen (memoryOnly_makeRoom t home (sec / 4))).andThen (memoryOnly_baseRead _ home sec ctx noalloc)
    generalize baseRead (makeRoom t home (sec / 4)) home sec ctx noalloc = r at hread ⊢
    exact hread

theorem memoryOnly_remoteFill (s : State) (die home sec ctx : Nat) (noalloc : Bool) :
    s.memoryOnly (remoteFill s die home sec ctx noalloc).2 := by
  unfold remoteFill
  dsimp only
  refine State.memoryOnly.andThen ?_ (memoryOnly_setL2Sector ..)
  exact ((memoryOnly_homeFetch ..).andThen (memoryOnly_raiseLease ..)).andThen (memoryOnly_makeRoom ..)

theorem memoryOnly_remoteFetch (s : State) (die home sec ctx : Nat) (noalloc : Bool) :
    s.memoryOnly (remoteFetch s die home sec ctx noalloc).2 := by
  unfold remoteFetch
  dsimp only
  split
  · exact (memoryOnly_l2Check ..).andThen (memoryOnly_setL2Sector ..)
  · exact (memoryOnly_l2Check ..).andThen (memoryOnly_remoteFill ..)

theorem memoryOnly_sliceRead (s : State) (die home sec ctx : Nat) (noalloc : Bool) :
    s.memoryOnly (sliceRead s die home sec ctx noalloc).2 := by
  unfold sliceRead
  dsimp only
  split
  · exact (memoryOnly_homeFetch ..).andThen (memoryOnly_raiseLease ..)
  · exact memoryOnly_remoteFetch ..

/-! ## L1 -/

theorem memoryOnly_dropL1 (s : State) (core sec : Nat) : s.memoryOnly (dropL1 s core sec) := memoryOnly_onMs s id

theorem memoryOnly_setL1 (s : State) (core sec : Nat) (x : L1Copy) : s.memoryOnly (setL1 s core sec x) := memoryOnly_onMs s id

theorem memoryOnly_noteMiss (s : State) (core delay : Nat) : s.memoryOnly (noteMiss s core delay) := memoryOnly_onMs s id

theorem memoryOnly_l1Check (s : State) (core sec : Nat) : s.memoryOnly (l1Check s core sec) := by
  unfold l1Check
  dsimp only
  split
  · exact s.memoryOnly_refl
  · split
    · exact memoryOnly_onMs _ id
    · split
      · exact (memoryOnly_onMs _ id).andThen (memoryOnly_addScore ..)
      · exact ((memoryOnly_onMs _ id).andThen (memoryOnly_dropL1 ..)).andThen (memoryOnly_addScore ..)

/-- A core's read of a sector. -/
theorem memoryOnly_coreRead (s : State) (core home sec ctx : Nat) (noalloc : Bool) :
    s.memoryOnly (coreRead s core home sec ctx noalloc).2 := by
  unfold coreRead
  dsimp only
  split
  · exact memoryOnly_l1Check ..
  · exact (((memoryOnly_l1Check ..).andThen (memoryOnly_noteMiss ..)).andThen (memoryOnly_sliceRead ..)).andThen (memoryOnly_setL1 ..)

end Sys2Proof.Machine
end

section
/-! What translation and the pages' counts leave (R50-R58, R70): no lookup moves the clock. -/

namespace Sys2Proof.Machine

/-! ## Walks -/

theorem walkReads_clock (s : State) (ctx va lv table : Nat) : (walkReads s ctx va lv table).clock = s.clock := by
  induction lv generalizing s table with
  | zero => exact (memoryOnly_touchPhys ..).2.1
  | succ lv ih =>
    rw [walkReads]
    split
    · exact (memoryOnly_touchPhys ..).2.1
    · exact (ih _ _).trans (memoryOnly_touchPhys ..).2.1

theorem walkDie_clock (s : State) (die ctx va : Nat) : (walkDie s die ctx va).2.clock = s.clock := walkReads_clock ..

theorem casLeaf_clock (s : State) (addr : Nat) (old new : W64) : (casLeaf s addr old new).2.clock = s.clock := by
  unfold casLeaf
  dsimp only
  split
  · exact (memoryOnly_physWrite ..).2.1.trans (memoryOnly_touchPhys ..).2.1
  · exact (memoryOnly_touchPhys ..).2.1

theorem invalidateRange_clock (s : State) (ctx : Option Nat) (range : Option (Nat × Nat)) :
    (invalidateRange s ctx range).clock = s.clock := rfl

theorem abandonCompression_clock (s : State) (ctx va : Nat) : (abandonCompression s ctx va).clock = s.clock := by
  unfold abandonCompression
  split
  · rfl
  · next m _ =>
    have h := casLeaf_clock s m.leafAt ((m.old &&& ~~~(w64 1)) ||| w64 0x20) m.old
    dsimp only
    generalize casLeaf s m.leafAt ((m.old &&& ~~~(w64 1)) ||| w64 0x20) m.old = r at h ⊢
    exact (invalidateRange_clock ..).trans h

theorem postVmFault_clock (s : State) (ctx va kind access : Nat) (ag : Agent) (lv : Nat) :
    (postVmFault s ctx va kind access ag lv).clock = s.clock := by
  have hp (r : Ring) (rec : Nat) (s : State) : (r.post physWrite 1024 rec s).2.clock = s.clock :=
    (memoryOnly_post memoryOnly_physWrite r 1024 rec s).2.1
  unfold postVmFault
  dsimp only
  split
  · rfl
  · split <;> exact hp ..

theorem finishWalk_clock (s : State) (w : Walk) (ag : Agent) (ctx va : Nat) (acc : AccessKind) (atomic : Bool) :
    (finishWalk s w ag ctx va acc atomic).2.2.clock = s.clock := by
  unfold finishWalk
  dsimp only
  split
  · exact postVmFault_clock ..
  · exact postVmFault_clock ..
  · split
    · exact postVmFault_clock ..
    · split
      · rfl
      · split <;> rfl
      · rfl
      · exact postVmFault_clock ..

theorem walkFor_clock (s : State) (ag : Agent) (ctx va : Nat) (acc : AccessKind) (atomic : Bool) :
    (walkFor s ag ctx va acc atomic).2.2.clock = s.clock := by
  unfold walkFor
  dsimp only
  split
  · split
    · exact (finishWalk_clock ..).trans ((walkDie_clock ..).trans ((abandonCompression_clock ..).trans (walkDie_clock ..)))
    · exact (finishWalk_clock ..).trans (walkDie_clock ..)
  · exact (finishWalk_clock ..).trans (walkDie_clock ..)

/-! ## Translation -/

theorem translate_clock (s : State) (k : Nat) (lane : Option Nat) (ctx va : Nat) (acc : AccessKind) (atomic : Bool) :
    (translate s k lane ctx va acc atomic).2.clock = s.clock := by
  unfold translate
  dsimp only
  split
  · rfl
  · split
    · cases lane with
      | none => rfl
      | some l => split <;> rfl
    · have h := walkFor_clock s (coreAgent (coreOf k)) ctx va acc atomic
      generalize walkFor s (coreAgent (coreOf k)) ctx va acc atomic = w at h ⊢
      obtain ⟨r, m, s'⟩ := w
      cases m with
      | none => exact h
      | some e =>
        cases lane with
        | none => exact h
        | some l => cases r <;> exact h

/-- The lookups of an instruction's lanes take no time of the clock. -/
theorem translateLanes_clock (s : State) (k ctx : Nat) (acc : AccessKind) (atomic : Bool) (ls : List (Nat × Nat)) :
    (translateLanes s k ctx acc atomic ls).2.clock = s.clock := by
  unfold translateLanes
  generalize (⟨[], [], []⟩ : Xlated) = x
  induction ls generalizing s x with
  | nil => rfl
  | cons e ls ih =>
    rw [List.foldl_cons]
    have h := translate_clock s k (some e.1) ctx e.2 acc atomic
    dsimp only
    generalize translate s k (some e.1) ctx e.2 acc atomic = r at h ⊢
    obtain ⟨r, s'⟩ := r
    cases r <;> exact (ih ..).trans h

/-! ## Pages' counts -/

theorem samplePage_clock (s : State) (l : Leaf) (ctx va die : Nat) : (samplePage s l ctx va die).clock = s.clock := by
  unfold samplePage
  split <;> rfl

theorem sampleLines_clock (s : State) (ctx die : Nat) (rs : List (Leaf × Nat × Nat)) :
    (sampleLines s ctx die rs).clock = s.clock := by
  unfold sampleLines
  generalize (none : Option (Nat × Nat × Nat)) = l
  induction rs generalizing s l with
  | nil => rfl
  | cons r rs ih =>
    rw [List.foldl_cons]
    dsimp only
    split
    · exact ih ..
    · exact (ih ..).trans (samplePage_clock ..)

end Sys2Proof.Machine
end

section
/-! Loads (R32, R208, R303, R306, R308, R313): the addresses reach the caches, and what the lanes get is pending. -/

namespace Sys2Proof.Machine

/-! ## Units that differ in what a load changes -/

/-- `d` is `c` but for memory, the region's holds and the accesses that are out. -/
structure Cx.sameUnit (c d : Cx) : Prop where
  k : d.k = c.k
  sp : d.sp = c.sp
  i : d.i = c.i
  regs : d.g.regs = c.g.regs
  sys : d.g.sys = c.g.sys
  info : d.g.info = c.g.info
  splits : d.g.splits = c.g.splits
  clock : d.s.clock = c.s.clock

theorem Cx.sameUnit_refl (c : Cx) : c.sameUnit c := ⟨rfl, rfl, rfl, rfl, rfl, rfl, rfl, rfl⟩

theorem Cx.sameUnit.andThen {c d e : Cx} (h : c.sameUnit d) (h' : d.sameUnit e) : c.sameUnit e :=
  ⟨h'.k.trans h.k, h'.sp.trans h.sp, h'.i.trans h.i, h'.regs.trans h.regs, h'.sys.trans h.sys, h'.info.trans h.info,
    h'.splits.trans h.splits, h'.clock.trans h.clock⟩

theorem sameUnit_foldl {α β : Type} (l : List α) {f : β × Cx → α → β × Cx}
    (h : ∀ (r : β × Cx) a, r.2.sameUnit (f r a).2) (r : β × Cx) :
    r.2.sameUnit (l.foldl f r).2 := by
  induction l generalizing r with
  | nil => exact r.2.sameUnit_refl
  | cons a l ih => exact (h r a).andThen (ih _)

/-! ## Loads of sectors -/

theorem loadSector_sameUnit (c : Cx) (l : Leaf) (pa : Nat) : c.sameUnit (c.loadSector l pa).2 := by
  have hclock : (coreRead c.s (coreOf c.k) l.home (pa / 32) c.g.info.ctx l.noalloc).2.clock = c.s.clock :=
    (memoryOnly_coreRead ..).2.1
  unfold Cx.loadSector
  dsimp only
  generalize coreRead c.s (coreOf c.k) l.home (pa / 32) c.g.info.ctx l.noalloc = r at hclock ⊢
  cases c.g.region with
  | none => exact ⟨rfl, rfl, rfl, rfl, rfl, rfl, rfl, hclock⟩
  | some r =>
    dsimp only [Option.bind_some]
    cases r.held? false (pa / 32) with
    | none => exact ⟨rfl, rfl, rfl, rfl, rfl, rfl, rfl, hclock⟩
    | some h => exact c.sameUnit_refl

theorem loadSectors_sameUnit (c : Cx) (ls : List LaneXl) : c.sameUnit (c.loadSectors ls).2 :=
  sameUnit_foldl _ (fun r sec => by
    split
    · exact loadSector_sameUnit ..
    · exact r.2.sameUnit_refl) (([] : NMap Loaded), c)

/-- The unit whose place in the side log is noted (R59). -/
def Cx.marked (c : Cx) (mark : Nat) : Cx := { c with sp := { c.sp with logMark := some mark } }

theorem loadSector_marked (c : Cx) (mark : Nat) (l : Leaf) (pa : Nat) :
    (c.marked mark).loadSector l pa = ((c.loadSector l pa).1, (c.loadSector l pa).2.marked mark) := by
  unfold Cx.loadSector Cx.marked
  dsimp only
  cases c.g.region with
  | none => rfl
  | some r =>
    dsimp only [Option.bind_some]
    cases r.held? false (pa / 32) <;> rfl

/-- The note of a place in the side log does not matter to what the caches give. -/
theorem loadSectors_marked (c : Cx) (mark : Nat) (ls : List LaneXl) :
    (c.marked mark).loadSectors ls = ((c.loadSectors ls).1, (c.loadSectors ls).2.marked mark) := by
  unfold Cx.loadSectors
  generalize ([] : NMap Loaded) = m
  induction sectorsOf ls generalizing m c with
  | nil => rfl
  | cons sec secs ih =>
    rw [List.foldl_cons, List.foldl_cons]
    cases ls.find? fun l => l.pa / 32 == sec with
    | none => exact ih ..
    | some l =>
      dsimp only
      rw [loadSector_marked]
      exact ih ..

/-! ## The checks of a load -/

/-- A load whose lanes all reach their pages goes on to the caches (R32, R55, R58, R59). -/
theorem reading_reaches {c : Cx} {acc : AccessKind} {atomic : Bool} {ls : List (Nat × Nat)} {ok : List LaneXl} {s' : State}
    (h : c.Reaches acc atomic ls ok s') (body : Cx → List LaneXl → State) :
    c.reading acc atomic ls body = body ((c.after s').marked (c.sp.logMark.getD s'.vm.slogNext)) ok := by
  obtain ⟨ht, hroom, hlog⟩ := h
  have hany : (ls.any fun e => slogHolds s' (coreOf c.k) c.g.info.ctx e.2 (some (c.sp.logMark.getD s'.vm.slogNext))) = false :=
    List.any_eq_false.2 fun e he => by rw [hlog e he]; exact Bool.false_ne_true
  unfold Cx.reading
  rw [ht]
  dsimp only
  rw [hany, hroom]
  rfl

/-- A word within its core's budgets goes on (R84). -/
theorem budget_fits {c : Cx} {entries holds : Nat} (h : c.fits entries holds) (body : Cx → State) :
    c.budget entries holds body = body c := by
  unfold Cx.budget
  split
  · rfl
  · next r hr =>
    rcases h with h | h
    · rw [hr] at h
      cases h
    · exact if_pos h

/-- A load word that reaches the caches runs its body. -/
theorem exec_loadWord {spread : Bool} {g : Guard} {l : La} {x : Dst} {a : Base} {o : Off} {mc : Bool} {ty : MemTy} {s s' : State} {c : Cx}
    {ok : List LaneXl} (hc : cx? (loadWord spread g l x a o mc ty) s = some c) (h : c.Clear)
    (hp : placed (MemTy.size ty) (c.loadAddrs spread g a o ty)) (hr : c.Reaches .read false (c.loadAddrs spread g a o ty) ok s') :
    exec (loadWord spread g l x a o mc ty) s =
      .next (((c.after s').marked (c.sp.logMark.getD s'.vm.slogNext)).load x ty (c.guard g) ok spread) := by
  cases spread with
  | false =>
    refine (issue_clear (ck := Checks.none) hc h (fun _ hn => nomatch hn) rfl rfl rfl _).trans (congrArg _ ?_)
    exact (checkAddrs_placed hp c true _).trans (reading_reaches hr _)
  | true =>
    refine (issue_clear (ck := Checks.none) hc h (fun _ hn => nomatch hn) rfl rfl rfl _).trans (congrArg _ ?_)
    exact (checkAddrs_placed hp c true _).trans (reading_reaches hr _)

/-! ## What a load delivers -/

theorem le_foldl_max (l : List Nat) (n : Nat) : n ≤ l.foldl max n := by
  induction l generalizing n with
  | nil => exact le_refl n
  | cons a l ih => exact (le_max_left n a).trans (ih _)

/-- Cycles until the last sector of a load is back (R305). -/
def loadDelay (m : NMap Loaded) : Nat := (m.map fun e => e.2.delay).foldl max 28

/-- The newest stamp of a load's sectors (R102). -/
def loadStamp (m : NMap Loaded) : Nat := (m.map fun e => e.2.stamp).foldl max 0

/-- The unit once a load's sectors stand read: its region's fences know the loads, and its group waits for them. -/
def Cx.afterLoads (c : Cx) (ok : List LaneXl) : Cx :=
  let m := (c.loadSectors ok).1
  let d := ((c.loadSectors ok).2.sampleLoads ok m).fresh.2
  let d := { d with g := d.g.onRegion fun r => r.speculate (m.map fun e => ⟨e.1, e.2.stamp, e.2.lease⟩) }
  if ok.isEmpty then d
  else { d with g := d.g.await [⟨d.sp.id, .ld, some (d.s.clock.cycle + loadDelay m), none, loadStamp m⟩] }

theorem afterLoads_sameUnit (c : Cx) (ok : List LaneXl) : c.sameUnit (c.afterLoads ok) := by
  refine (loadSectors_sameUnit c ok).andThen ?_
  have hclock : ((c.loadSectors ok).2.sampleLoads ok (c.loadSectors ok).1).s.clock = (c.loadSectors ok).2.s.clock :=
    sampleLines_clock ..
  unfold Cx.afterLoads
  dsimp only
  split <;> exact ⟨rfl, rfl, rfl, rfl, rfl, rfl, rfl, hclock⟩

/-- A load of device addresses within its core's budgets: the unit whose result is what the lanes get of their sectors. -/
theorem load_eq_result {c : Cx} {ok : List LaneXl} (hdev : ∀ y ∈ ok, y.leaf.tgt = 0) (hfit : c.fits 0 (c.newHolds (sectorsOf ok)))
    (x : Dst) (ty : MemTy) (act : Mask) (spread : Bool) :
    ∃ n, c.load x ty act ok spread = ((c.afterLoads ok).result x ty act
      (spreadGot spread act (ok.map ((c.loadSectors ok).2.laneBytes (c.loadSectors ok).1 (MemTy.size ty))))
        n (loadDelay (c.loadSectors ok).1) (loadStamp (c.loadSectors ok).1) false).done := by
  have hnear : ok.filter (fun l => l.leaf.tgt == 0) = ok := List.filter_eq_self.2 fun y hy => by simp [hdev y hy]
  have hfar : ok.filter (fun l => l.leaf.tgt != 0) = [] := List.filter_eq_nil_iff.2 fun y hy => by simp [hdev y hy]
  unfold Cx.load
  rw [hnear, hfar, budget_fits hfit]
  refine ⟨((c.loadSectors ok).2.sampleLoads ok (c.loadSectors ok).1).fresh.1, ?_⟩
  show (Cx.result _ x ty act (if spread = true then List.flatMap _ (ok.map _ ++ []) else ok.map _ ++ []) _ _ _ false).done = _
  rw [List.append_nil]
  rfl

/-- Settles O8: a load's unit differs from the one in hand in memory, holds and accesses, and its result is pending. -/
theorem loadCompletes : Obligations.LoadCompletes := by
  intro spread g l x a o mc ty s s' c ok hc h hp hr hdev hfit read got
  obtain ⟨-, -, -, hsplit, -⟩ := cx?_eq hc
  have hclock : s'.clock = c.s.clock := by
    have := translateLanes_clock c.s c.k c.g.info.ctx .read false (c.loadAddrs spread g a o ty)
    rwa [hr.1] at this
  generalize hmark : c.sp.logMark.getD s'.vm.slogNext = mark
  obtain ⟨n, heq⟩ := load_eq_result (c := (c.after s').marked mark) hdev hfit x ty (c.guard g) spread
  rw [loadSectors_marked] at heq
  obtain ⟨hk, hsp, hi, hregs, hsys, hinfo, hsplits, hcycle⟩ := afterLoads_sameUnit ((c.after s').marked mark) ok
  have hs : ((((c.after s').marked mark).afterLoads ok).g.split? (((c.after s').marked mark).afterLoads ok).sp.id).isSome = true := by
    rw [hsp, Group.split?, hsplits]
    exact Option.isSome_iff_exists.2 ⟨_, hsplit⟩
  obtain ⟨p, hp', hprod, hon, hact, hvals, hpregs, htrap, -⟩ := result_done hs x ty (c.guard g) got n (loadDelay read)
    (loadStamp read) false
  have hexec := exec_loadWord hc h hp hr
  rw [hmark, heq] at hexec
  refine ⟨_, p, _, hexec, hp'.of_same hregs hsys (by rw [hsp]) hk hi, hprod.trans (by rw [hsp]; rfl), hact, hon, ?_, hvals, hpregs,
    htrap.trans (by rw [hinfo]; rfl)⟩
  rw [hcycle]
  show c.s.clock.cycle + 28 ≤ s'.clock.cycle + loadDelay read
  rw [hclock]
  exact Nat.add_le_add_left (le_foldl_max _ _) _

end Sys2Proof.Machine
end

section
/-! Stores to a page that is homed at another die than die 0 (R75, R77): a byte 2^40 above what they write, which the L2's keys do not tell
from it. -/

namespace Sys2Proof.Machine

/-- The group of `oneLane`, whose page at virtual address 0 stands at 0x10000 with die 1 as its home, by page tables at 0x20000 on. Die 1's
L2 holds the page's first sector, whose first byte is 1. -/
def homedAtDie1 : State :=
  ((State.reset.setTeam 0 (newTeam 0 1 0 0 0 1 [0] 1024 false)).setGroup 0 oneLane).onWork (fun w =>
    { w with ctxs := [(1, ⟨0, 0, 0, 0, 0, true, 0x20000, 2, false, false⟩)] }) |>.onMs fun ms =>
      { ms with
        mem := [(0x20000, 1), (0x20001, 0x10), (0x20002, 2), (0x21000, 1), (0x21001, 0x20), (0x21002, 2), (0x22000, 1),
          (0x22001, 0x30), (0x22002, 2), (0x23000, 0x8D), (0x23002, 1), (0x23005, 4)]
        l2 := [(l2Key 1 0x200, ⟨[⟨.d, 1, false, 0, 0⟩], 0⟩)] }

/-- The group's store of zeros to virtual address 0. -/
def zeroStore : Instr := .st .always (.v 1) (.v 0) 0 false .b64

/-- The group's unit at that store. -/
def storeUnit : Cx := ⟨homedAtDie1, 0, oneLane, oneLane, oneLaneSplit, 1, zeroStore⟩

theorem cx?_homedAtDie1 : cx? zeroStore homedAtDie1 = some storeUnit := rfl

theorem storeUnit_clear : storeUnit.Clear where
  opened := by decide
  sound := by decide
  team := by decide
  names := by decide
  native := by decide
  free := by decide
  closed := by decide
  quiet := by decide
  queues := by decide
  popless := by decide
  arrives := by decide
  filled := by decide
  room := by decide

theorem storeUnit_addrs : storeUnit.addrs (.v 0) 0 (MemTy.size .b64) (storeUnit.guard .always) = [(0, 0)] := by decide

theorem storeUnit_placed : placed (MemTy.size .b64) (storeUnit.addrs (.v 0) 0 (MemTy.size .b64) (storeUnit.guard .always)) := by
  rw [storeUnit_addrs]
  intro e he
  obtain rfl := List.mem_singleton.1 he
  decide

/-- The store's lookups: their answers and the state after them. -/
def storeLookups : Xlated × State := translateLanes homedAtDie1 0 1 .write false [(0, 0)]

/-- The store's one sector request. -/
def zeroRequest : LanePart := ⟨0, some (Leaf.of 0x4000001008D, 0x10000), .store 0 0xFF⟩

theorem storeUnit_requests : (storeUnit.after storeLookups.2).requests storeLookups.1
    (storeUnit.addrs (.v 0) 0 (MemTy.size .b64) (storeUnit.guard .always))
    (storeKindOf .b64 (storeUnit.storeData (.v 1)).1 (storeUnit.storeData (.v 1)).2) = [zeroRequest] := by
  decide +kernel

theorem storeLookups_ms : storeLookups.2.ms = homedAtDie1.ms := by decide +kernel

/-- A slice's copy of a sector, where one line stands in all of the L2. -/
theorem l2Sector_of_singleton {ms : MemSide} {key : Nat} {x : L2Line} (h : ms.l2 = [(key, x)]) (d sec : Nat) :
    l2Sector ms d sec = L2Sector.invalid ∨ l2Sector ms d sec = (x.secs[sec % 4]?).getD L2Sector.invalid := by
  unfold l2Sector
  rw [h]
  by_cases hk : key = l2Key d (sec / 4)
  · exact .inr (by rw [NMap.get?, if_pos hk]; rfl)
  · exact .inl (by rw [NMap.get?, if_neg hk]; rfl)

/-- The request goes to a sector that its home holds. -/
theorem zeroRequest_lands : zeroRequest.lands storeLookups.2 := by
  refine ⟨_, _, rfl, by decide, by decide, ?_⟩
  unfold homeAt
  rw [storeLookups_ms]
  refine ⟨by decide, .inr (by decide), fun d => ⟨?_, rfl⟩⟩
  rcases l2Sector_of_singleton (ms := homedAtDie1.ms) rfl d (0x10000 / 32) with h | h <;> rw [h] <;> decide

/-- The state after the store. -/
def zeroStored : State := (((storeUnit.after storeLookups.2).pops zeroStore.uses).sendReqs [zeroRequest]).done

theorem exec_zeroStore : exec zeroStore homedAtDie1 = .next zeroStored :=
  (exec_storeWord (x := storeLookups.1) (s' := storeLookups.2) cx?_homedAtDie1 storeUnit_clear rfl rfl
    storeUnit_placed rfl (by decide +kernel) (by decide +kernel) (.inl (by decide +kernel))).trans
    (congrArg (fun reqs => Host.Outcome.next (((storeUnit.after storeLookups.2).pops zeroStore.uses).sendReqs reqs).done)
      storeUnit_requests)

/-- Die 1's key of the request's line is die 0's key of the line 2^40 above it, whose first byte changes with the store. -/
theorem zeroStored_above : byteNow zeroStored.ms (2 ^ 40 + 0x10000) ≠ byteNow storeLookups.2.ms (2 ^ 40 + 0x10000) := by
  decide +kernel

/-- Refutes O11: the L2 keys a line of a die by the die's number times 2^33 plus the line's, so that a byte of die 1's page and the
address 2^40 above it, which lies outside main memory, read one copy. The statement's last clause ranges over every number `pa`, and
does not ask that it be an address of main memory. -/
theorem not_storeWritesItsBytes : ¬ Obligations.StoreWritesItsBytes := by
  intro h
  obtain ⟨u, hex, -, hothers, -⟩ := h .always (.v 1) (.v 0) 0 false .b64 homedAtDie1 storeLookups.2 storeUnit storeLookups.1
    cx?_homedAtDie1 storeUnit_clear rfl storeUnit_placed rfl (by decide +kernel) (by decide +kernel)
    (by
      intro q hq
      obtain rfl := List.mem_singleton.1 (storeUnit_requests ▸ hq)
      exact zeroRequest_lands)
  obtain rfl : zeroStored = u := Host.Outcome.next.inj (exec_zeroStore.symm.trans hex)
  refine zeroStored_above (hothers _ fun q hq j hj _ hpa => ?_)
  obtain rfl := List.mem_singleton.1 (storeUnit_requests ▸ hq)
  have hat : zeroRequest.byteAt j = 0x10000 + j := rfl
  omega

end Sys2Proof.Machine
end

section
/-! What writes, flushes and requests of other devices leave (R77-R81, R97-R101, R121, R441, R471-R478): like reads, they change memory
and the package alone. -/

namespace Sys2Proof.Machine

/-! ## Folds that carry an answer -/

/-- A fold whose steps each give an answer beside the state. -/
theorem memoryOnly_foldl_snd {α β : Type} (l : List α) {f : β × State → α → β × State}
    (h : ∀ (r : β × State) a, r.2.memoryOnly (f r a).2) (r : β × State) : r.2.memoryOnly (l.foldl f r).2 := by
  induction l generalizing r with
  | nil => exact r.2.memoryOnly_refl
  | cons a l ih => exact (h r a).andThen (ih _)

/-- A fold whose steps each give two answers beside the state. -/
theorem memoryOnly_foldl_snd_snd {α β γ : Type} (l : List α) {f : β × γ × State → α → β × γ × State}
    (h : ∀ (r : β × γ × State) a, r.2.2.memoryOnly (f r a).2.2) (r : β × γ × State) : r.2.2.memoryOnly (l.foldl f r).2.2 := by
  induction l generalizing r with
  | nil => exact r.2.2.memoryOnly_refl
  | cons a l ih => exact (h r a).andThen (ih _)

/-! ## Writes -/

theorem memoryOnly_raiseVector (s : State) (v : Nat) : s.memoryOnly (s.raiseVector v) := memoryOnly_onPkg ..

theorem memoryOnly_homeWrite (s : State) (home sec ctx : Nat) (m : Word32) (x : Sector) (poison : Bool) :
    s.memoryOnly (homeWrite s home sec ctx m x poison).2 := by
  have h := (memoryOnly_endFills s sec).andThen (memoryOnly_l2Check (endFillsWith checkGranule s sec) home sec)
  unfold homeWrite
  dsimp only
  generalize l2Check (endFillsWith checkGranule s sec) home sec = t at h ⊢
  refine State.memoryOnly.andThen ?_ (memoryOnly_performStamp ..)
  split
  · exact h.andThen (memoryOnly_setL2Sector ..)
  · split
    · exact (h.andThen (memoryOnly_makeRoom t home (sec / 4))).andThen (memoryOnly_setL2Sector ..)
    · refine State.memoryOnly.andThen ?_ (memoryOnly_onMs _ id)
      have hwrite := (h.andThen (memoryOnly_makeRoom t home (sec / 4))).andThen (memoryOnly_baseWrite _ home sec ctx m x false)
      generalize (baseWrite (makeRoom t home (sec / 4)) home sec ctx m x false).2 = u at hwrite ⊢
      split
      · exact hwrite.andThen (memoryOnly_setPoison ..)
      · exact hwrite

theorem memoryOnly_passRemote (s : State) (die home sec ctx gwct : Nat) (m : Word32) (x : Sector) (poison : Bool) :
    s.memoryOnly (passRemote s die home sec ctx gwct m x poison) := by
  have h := memoryOnly_l2Check s die sec
  unfold passRemote
  dsimp only
  split
  · exact h
  · split
    · exact h.andThen (memoryOnly_remoteFill ..)
    · exact h.andThen (memoryOnly_setL2Sector ..)
    · exact h

theorem memoryOnly_agentWrite (s : State) (die : Option Nat) (home sec ctx : Nat) (m : Word32) (x : Sector) (poison : Bool) :
    s.memoryOnly (agentWrite s die home sec ctx m x poison).2 := by
  have h := memoryOnly_homeWrite s home sec ctx m x poison
  unfold agentWrite
  generalize homeWrite s home sec ctx m x poison = r at h ⊢
  cases die with
  | none => exact h
  | some d => exact h.andThen (memoryOnly_passRemote ..)

theorem memoryOnly_coreWrite (s : State) (core home sec ctx : Nat) (m : Word32) (x : Sector) (poison : Bool) :
    s.memoryOnly (coreWrite s core home sec ctx m x poison).2 := by
  have h := (memoryOnly_noteMiss s core (homeDelay core home)).andThen
    (memoryOnly_agentWrite _ (some (dieOf core)) home sec ctx m x poison)
  unfold coreWrite
  dsimp only
  generalize agentWrite (noteMiss s core (homeDelay core home)) (some (dieOf core)) home sec ctx m x poison = r at h ⊢
  split
  · exact h.andThen (memoryOnly_setL1 ..)
  · exact h

theorem memoryOnly_dropCopies (s : State) (core home sec : Nat) : s.memoryOnly (dropCopies s core home sec) := by
  unfold dropCopies
  dsimp only
  split
  · exact memoryOnly_dropL1 ..
  · exact (memoryOnly_dropL1 ..).andThen (memoryOnly_setL2Sector ..)

/-! ## Flushes -/

theorem memoryOnly_flushPage (s : State) (die pa size : Nat) : s.memoryOnly (flushPage s die pa size) :=
  memoryOnly_foldl _ (fun (s : State) _ => (memoryOnly_endLineFills s _).andThen (memoryOnly_flushLine ..)) s

theorem memoryOnly_flushAll (s : State) (pa size : Nat) : s.memoryOnly (flushAll s pa size) :=
  memoryOnly_foldl _ (fun (s : State) _ => memoryOnly_flushPage s ..) s

theorem memoryOnly_dropL1Range (s : State) (pa size : Nat) : s.memoryOnly (dropL1Range s pa size) := memoryOnly_onMs s id

theorem memoryOnly_readMarked (s : State) (pa size ctx : Nat) : s.memoryOnly (readMarked s pa size ctx) :=
  memoryOnly_foldl _ (fun (s : State) _ => (memoryOnly_l2CheckHome s _).andThen (memoryOnly_touchGranule ..)) s

/-- A compare-and-swap of a leaf reads and writes memory alone (R53). -/
theorem memoryOnly_casLeaf (s : State) (addr : Nat) (old new : W64) : s.memoryOnly (casLeaf s addr old new).2 := by
  unfold casLeaf
  dsimp only
  split
  · exact (memoryOnly_touchPhys ..).andThen (memoryOnly_physWrite ..)
  · exact memoryOnly_touchPhys ..

/-! ## Records and requests -/

theorem memoryOnly_postAsync (s : State) (ctx rcd : Nat) : s.memoryOnly (postAsync s ctx rcd) := by
  unfold postAsync
  split
  · exact s.memoryOnly_refl
  · split
    · exact s.memoryOnly_refl
    · next c _ _ =>
      have h := memoryOnly_touchPhys s c.aring 64 ctx
      dsimp only
      generalize touchPhys s c.aring 64 ctx = t at h ⊢
      generalize (if 4 ≤ physNat t (c.aring + 16) 1 ∧ physNat t (c.aring + 16) 1 ≤ 12 then physNat t (c.aring + 16) 1 else 12) = sz
      split
      · exact h.andThen (memoryOnly_physWrite ..)
      · exact (h.andThen (memoryOnly_physWrite t _ _)).andThen (memoryOnly_physWrite ..)

theorem memoryOnly_homeBytes (s : State) (l : Leaf) (ctx pa n : Nat) : s.memoryOnly (homeBytes s l ctx pa n).2.2 := by
  unfold homeBytes
  dsimp only
  exact memoryOnly_foldl_snd_snd (touched pa n) (fun r sec => memoryOnly_homeFetch r.2.2 l.home sec ctx l.noalloc)
    (([] : List Byte), false, s)

theorem memoryOnly_outerRead (s : State) (pa n : Nat) : s.memoryOnly (outerRead s pa n).2.2 := by
  unfold outerRead
  dsimp only
  refine memoryOnly_foldl_snd_snd (touched pa n) (fun r sec => ?_) (([] : List (Nat × Sector)), false, s)
  have h := memoryOnly_endFills r.2.2 sec
  dsimp only
  generalize endFillsWith checkGranule r.2.2 sec = t at h ⊢
  split
  · next d _ =>
    dsimp only
    exact h.andThen (memoryOnly_homeFetch t d sec 0 false)
  · have hread := memoryOnly_baseRead t 0 sec 0 false
    generalize baseRead t 0 sec 0 false = q at hread ⊢
    exact h.andThen hread

theorem memoryOnly_outerWrite (s : State) (pa : Nat) (bs : List Byte) (poison : Bool) :
    s.memoryOnly (outerWrite s pa bs poison).2 := by
  unfold outerWrite
  refine memoryOnly_foldl_snd (touched pa bs.length) (fun r sec => ?_) (0, s)
  have h := memoryOnly_endFills r.2 sec
  dsimp only
  generalize endFillsWith checkGranule r.2 sec = t at h ⊢
  split
  · exact h.andThen (memoryOnly_homeWrite t _ sec 0 _ _ poison)
  · refine State.memoryOnly.andThen ?_ (memoryOnly_performStamp ..)
    have hwrite (m : Word32) (x : Sector) := h.andThen (memoryOnly_baseWrite t 0 sec 0 m x false)
    split
    · exact (hwrite _ _).andThen (memoryOnly_setPoison ..)
    · exact hwrite _ _

theorem memoryOnly_performPhys (s : State) (pa : Nat) (op : MemOp) (poison : Bool) :
    s.memoryOnly (performPhys s pa op poison).2.2.2 := by
  unfold performPhys
  cases op with
  | write bs => exact memoryOnly_outerWrite s pa bs poison
  | read n => exact memoryOnly_outerRead s pa n
  | atom | acas | axch =>
    have h := memoryOnly_outerRead s pa
    dsimp only
    split
    · exact h _
    · exact (h _).andThen (memoryOnly_outerWrite _ pa _ false)

theorem memoryOnly_serveInbound (s : State) (rq : PeerReq) : s.memoryOnly (serveInbound s rq).2.2 := by
  have hrefuse (code : Nat) := memoryOnly_postFaq s 0x10 16 rq.peer code 0 rq.addr 0
  unfold serveInbound
  extract_lets writes refuse
  generalize writes = w
  subst refuse
  split
  · exact hrefuse 3
  · split
    · exact hrefuse 1
    · split
      · exact hrefuse 2
      · exact memoryOnly_performPhys s rq.addr rq.op rq.poison

theorem memoryOnly_sendRemote (s : State) (ow : ReqOwner) (f : Sender) (l : Leaf) (pa va : Nat) (op : MemOp) (poison : Bool) :
    s.memoryOnly (sendRemote s ow f l pa va op poison).2.2 := by
  unfold sendRemote
  dsimp only
  split
  · split
    · exact memoryOnly_onPkg ..
    · exact s.memoryOnly_refl
  · split
    · exact ((memoryOnly_serveInbound s _).andThen (memoryOnly_onPkg ..)).andThen (memoryOnly_onPkg ..)
    · split
      · exact s.memoryOnly_refl
      · split
        · exact s.memoryOnly_refl
        · exact memoryOnly_onPkg ..

end Sys2Proof.Machine
end

section
/-! What lookups and invalidations leave (R50-R62, R67): the dispatcher's holdings beside the holds of groups, what names the
collectives, and the entries of side logs that do not wait for a page. -/

namespace Sys2Proof.Machine

/-- What names a collective, and whether it is torn (R342, R345). -/
def CollRun.name (r : CollRun) : Nat × Nat × Bool := (r.id, r.ctx, r.torn)

/-- `t` has the holdings of `s` but for its groups, its collectives by name, and its side logs where nothing in them waits. -/
structure State.lookupOnly (s t : State) : Prop where
  work : { t.work with groups := s.work.groups } = s.work
  colls : t.eng.colls.map CollRun.name = s.eng.colls.map CollRun.name
  logs : ∀ core, (∀ e ∈ slogOf s core ++ ownerlessOf s core, e.waits = false) →
    slogOf t core = slogOf s core ∧ ownerlessOf t core = ownerlessOf s core

theorem State.lookupOnly_refl (s : State) : s.lookupOnly s := ⟨rfl, rfl, fun _ _ => ⟨rfl, rfl⟩⟩

theorem State.lookupOnly.andThen {s t u : State} (h : s.lookupOnly t) (k : t.lookupOnly u) : s.lookupOnly u where
  work := by
    rw [← h.work, ← k.work]
  colls := k.colls.trans h.colls
  logs core hw := by
    obtain ⟨hs, ho⟩ := h.logs core hw
    obtain ⟨ks, ko⟩ := k.logs core (by rwa [hs, ho])
    exact ⟨ks.trans hs, ko.trans ho⟩

theorem State.memoryOnly.lookupOnly {s t : State} (h : s.memoryOnly t) : s.lookupOnly t := by
  obtain ⟨-, -, hvm, hwork, heng⟩ := h
  refine ⟨by rw [hwork], by rw [heng], fun core _ => ?_⟩
  unfold slogOf ownerlessOf
  rw [hvm]
  exact ⟨rfl, rfl⟩

/-- A change of translation that leaves the side logs. -/
theorem lookupOnly_onVm (s : State) {f : VmSide → VmSide} (h : (f s.vm).slog = s.vm.slog) (h' : (f s.vm).ownerless = s.vm.ownerless) :
    s.lookupOnly (s.onVm f) := by
  refine ⟨rfl, rfl, fun core _ => ?_⟩
  unfold slogOf ownerlessOf
  rw [State.onVm_vm, h, h']
  exact ⟨rfl, rfl⟩

/-! ## Invalidations -/

/-- Where nothing waits, releasing entries of some pages changes none. -/
theorem map_release_of_not_waiting {l : List SlogEntry} (h : ∀ e ∈ l, e.waits = false) (p : SlogEntry → Bool) :
    l.map (fun e => if p e then { e with waits := false } else e) = l := by
  refine (List.map_congr_left fun e he => ?_).trans (List.map_id l)
  split
  · rw [← h e he]
    rfl
  · rfl

theorem lookupOnly_invalidateRange (s : State) (ctx : Option Nat) (range : Option (Nat × Nat)) :
    s.lookupOnly (invalidateRange s ctx range) := by
  refine ⟨rfl, ?_, fun core hw => ?_⟩
  · show ((s.eng.colls.map _).map CollRun.name) = _
    rw [List.map_map]
    refine List.map_congr_left fun r _ => ?_
    dsimp only [Function.comp_apply]
    split <;> rfl
  · have hmap (m : NMap (List SlogEntry)) (p : SlogEntry → Bool) (hw : ∀ e ∈ (NMap.get? m core).getD [], e.waits = false) :
        (NMap.get? (m.map fun x => (x.1, x.2.map fun e => if p e then { e with waits := false } else e)) core).getD [] =
          (NMap.get? m core).getD [] := by
      rw [NMap.get?_map]
      cases h : NMap.get? m core with
      | none => rfl
      | some l =>
        rw [h] at hw
        exact map_release_of_not_waiting hw p
    exact ⟨hmap s.vm.slog _ fun e he => hw e (List.mem_append_left _ he),
      hmap s.vm.ownerless _ fun e he => hw e (List.mem_append_right _ he)⟩

/-- An access that ends a compression (R67). -/
theorem lookupOnly_abandonCompression (s : State) (ctx va : Nat) : s.lookupOnly (abandonCompression s ctx va) := by
  unfold abandonCompression
  split
  · exact s.lookupOnly_refl
  · next m _ =>
    have h := (memoryOnly_casLeaf s m.leafAt ((m.old &&& ~~~(w64 1)) ||| w64 0x20) m.old).lookupOnly
    dsimp only
    generalize casLeaf s m.leafAt ((m.old &&& ~~~(w64 1)) ||| w64 0x20) m.old = r at h ⊢
    exact (h.andThen (lookupOnly_onVm _ rfl rfl)).andThen (lookupOnly_invalidateRange ..)

/-! ## Walks -/

theorem memoryOnly_walkReads (s : State) (ctx va lv table : Nat) : s.memoryOnly (walkReads s ctx va lv table) := by
  induction lv generalizing s table with
  | zero => exact memoryOnly_touchPhys ..
  | succ lv ih =>
    rw [walkReads]
    split
    · exact memoryOnly_touchPhys ..
    · exact (memoryOnly_touchPhys ..).andThen (ih _ _)

theorem lookupOnly_walkDie (s : State) (die ctx va : Nat) : s.lookupOnly (walkDie s die ctx va).2 := by
  unfold walkDie
  dsimp only
  exact (memoryOnly_walkReads s ctx va _ _).lookupOnly.andThen (lookupOnly_onVm _ rfl rfl)

theorem lookupOnly_postVmFault (s : State) (ctx va kind access : Nat) (ag : Agent) (lv : Nat) :
    s.lookupOnly (postVmFault s ctx va kind access ag lv) := by
  unfold postVmFault
  dsimp only
  split
  · exact s.lookupOnly_refl
  · have hposted : s.lookupOnly (s.onVm fun vm =>
        { vm with posted := vm.posted ++ [⟨ctx, va / levelSpan lv * levelSpan lv, levelSpan lv⟩] }) := lookupOnly_onVm s rfl rfl
    have hp (r : Ring) (rec : Nat) := hposted.andThen (memoryOnly_post memoryOnly_physWrite r 1024 rec _).lookupOnly
    split
    · exact ((hp _ _).andThen (lookupOnly_onVm _ rfl rfl)).andThen (memoryOnly_raiseVector ..).lookupOnly
    · exact (hp _ _).andThen (lookupOnly_onVm _ rfl rfl)

theorem lookupOnly_finishWalk (s : State) (w : Walk) (ag : Agent) (ctx va : Nat) (acc : AccessKind) (atomic : Bool) :
    s.lookupOnly (finishWalk s w ag ctx va acc atomic).2.2 := by
  unfold finishWalk
  dsimp only
  split
  · exact lookupOnly_postVmFault ..
  · exact lookupOnly_postVmFault ..
  · split
    · exact lookupOnly_postVmFault ..
    · split
      · exact s.lookupOnly_refl
      · dsimp only
        split
        · exact s.lookupOnly_refl
        · exact ⟨rfl, rfl, fun _ _ => ⟨rfl, rfl⟩⟩
      · exact s.lookupOnly_refl
      · exact lookupOnly_postVmFault ..

theorem lookupOnly_walkFor (s : State) (ag : Agent) (ctx va : Nat) (acc : AccessKind) (atomic : Bool) :
    s.lookupOnly (walkFor s ag ctx va acc atomic).2.2 := by
  have h := lookupOnly_walkDie s ag.die ctx va
  unfold walkFor
  dsimp only
  generalize walkDie s ag.die ctx va = r at h ⊢
  split
  · split
    · exact ((h.andThen (lookupOnly_abandonCompression r.2 ctx va)).andThen (lookupOnly_walkDie _ ag.die ctx va)).andThen
        (lookupOnly_finishWalk ..)
    · exact h.andThen (lookupOnly_finishWalk ..)
  · exact h.andThen (lookupOnly_finishWalk ..)

/-! ## Translation -/

theorem lookupOnly_setLastPage (s : State) (k lane : Nat) (x : Xlate) : s.lookupOnly (setLastPage s k lane x) :=
  lookupOnly_onVm s rfl rfl

theorem lookupOnly_translate (s : State) (k : Nat) (lane : Option Nat) (ctx va : Nat) (acc : AccessKind) (atomic : Bool) :
    s.lookupOnly (translate s k lane ctx va acc atomic).2 := by
  unfold translate
  dsimp only
  split
  · exact s.lookupOnly_refl
  · split
    · cases lane with
      | none => exact s.lookupOnly_refl
      | some l =>
        split
        · exact lookupOnly_setLastPage ..
        · exact s.lookupOnly_refl
    · have h := lookupOnly_walkFor s (coreAgent (coreOf k)) ctx va acc atomic
      generalize walkFor s (coreAgent (coreOf k)) ctx va acc atomic = w at h ⊢
      obtain ⟨r, m, s'⟩ := w
      cases m with
      | none => exact h
      | some e =>
        cases lane with
        | none => exact h.andThen (lookupOnly_onVm s' (f := fun vm => { vm with tlb := _ }) rfl rfl)
        | some l =>
          dsimp only
          split
          · exact (h.andThen (lookupOnly_onVm s' rfl rfl)).andThen (lookupOnly_setLastPage ..)
          · exact h.andThen (lookupOnly_onVm s' rfl rfl)

theorem lookupOnly_translateWalk (s : State) (ag : Agent) (ctx va : Nat) (acc : AccessKind) (atomic : Bool) :
    s.lookupOnly (translateWalk s ag ctx va acc atomic).2 := by
  unfold translateWalk
  dsimp only
  split
  · exact s.lookupOnly_refl
  · have h := lookupOnly_walkFor s ag ctx va acc atomic
    generalize walkFor s ag ctx va acc atomic = w at h ⊢
    split
    · dsimp only
      exact h.andThen (lookupOnly_onVm _ rfl rfl)
    · exact h

/-! ## Groups that stand as before -/

theorem groupsKept_of_groups {s t : State} (h : t.work.groups = s.work.groups) : groupsKept s t := fun k g hg =>
  ⟨g, by rw [State.group?, h]; exact hg, rfl, rfl, rfl⟩

theorem groupsKept_trans {s t u : State} (h : groupsKept s t) (h' : groupsKept t u) : groupsKept s u := by
  intro k g hg
  obtain ⟨x, hx, hregs, hsys, hpcs⟩ := h k g hg
  obtain ⟨y, hy, hregs', hsys', hpcs'⟩ := h' k x hx
  exact ⟨y, hy, hregs'.trans hregs, hsys'.trans hsys, hpcs'.trans hpcs⟩

theorem State.memoryOnly.groupsKept {s t : State} (h : s.memoryOnly t) : Machine.groupsKept s t := by
  obtain ⟨-, -, -, hwork, -⟩ := h
  exact groupsKept_of_groups (by rw [hwork])

/-- A hold that ends leaves its split where it stands (R57). -/
theorem release_pc (sp : Split) (meets : Nat → Nat → Nat → Bool) : (sp.release meets).pc = sp.pc := by
  unfold Split.release
  split
  · split <;> rfl
  · rfl

theorem groupsKept_invalidateRange (s : State) (ctx : Option Nat) (range : Option (Nat × Nat)) :
    groupsKept s (invalidateRange s ctx range) := by
  intro k g hg
  refine ⟨{ g with splits := g.splits.map fun (sp : Split) => sp.release (invalMeets ctx range) }, ?_, rfl, rfl, ?_⟩
  · have := NMap.get?_map s.work.groups (fun (g : Group) =>
      { g with splits := g.splits.map fun (sp : Split) => sp.release (invalMeets ctx range) }) k
    rw [show NMap.get? s.work.groups k = some g from hg] at this
    exact this
  · show (g.splits.map _).map Split.pc = _
    rw [List.map_map]
    exact List.map_congr_left fun sp _ => release_pc sp _

end Sys2Proof.Machine
end

section
/-! The events of translation and placement (R54, R57, R59, R62, R66-R71): what each does, and the claim put together from them. -/

namespace Sys2Proof.Machine

/-! ## Walks -/

/-- A walk that gives a translation met no compression under way: it is the first and only one (R50, R67). -/
theorem walkFor_mapped {s : State} {ag : Agent} {ctx va : Nat} {acc : AccessKind} {atomic : Bool} {x : Nat × W64}
    (h : (finishWalk (walkDie s ag.die ctx va).2 (walkDie s ag.die ctx va).1 ag ctx va acc atomic).2.1 = some x) :
    walkFor s ag ctx va acc atomic = finishWalk (walkDie s ag.die ctx va).2 (walkDie s ag.die ctx va).1 ag ctx va acc atomic := by
  unfold walkFor
  dsimp only
  generalize walkDie s ag.die ctx va = r at h ⊢
  obtain ⟨w, s'⟩ := r
  cases w with
  | absent | malformed => rfl
  | leaf lv a e =>
    by_cases hl : ((Leaf.of e).dev && !(Leaf.of e).v && (Leaf.of e).cold) = true
    · simp only [Bool.and_eq_true, Bool.not_eq_true'] at hl
      obtain ⟨⟨hdev, hv⟩, hcold⟩ := hl
      simp [finishWalk, Leaf.at, hdev, hv, hcold] at h
    · exact if_neg hl

/-- A core's access that misses its TLB, whose walk gives a translation: it stands first in the TLB then (R54). -/
theorem translate_miss {s s' : State} {k ctx va lv : Nat} {acc : AccessKind} {atomic : Bool} {r : Xl} {e : W64}
    (h : (tlbOf s (coreOf k)).find? (fun x => x.covers ctx va) = none)
    (hw : walkFor s (coreAgent (coreOf k)) ctx va acc atomic = (r, some (lv, e), s')) :
    tlbOf (translate s k none ctx va acc atomic).2 (coreOf k) =
      ⟨ctx, va / levelSpan lv * levelSpan lv, levelSpan lv, e⟩ :: (tlbOf s' (coreOf k)).take 511 := by
  unfold translate
  simp only [Option.bind_none, h, hw]
  unfold tlbOf
  rw [State.onVm_vm, NMap.get?_set_self]
  rfl

theorem levelSpan_pos (lv : Nat) : 0 < levelSpan lv := by
  unfold levelSpan
  split <;> decide

/-- The page of an address, of any span, holds it. -/
theorem covers_page (ctx va : Nat) (lv : Nat) (e : W64) :
    (⟨ctx, va / levelSpan lv * levelSpan lv, levelSpan lv, e⟩ : Xlate).covers ctx va = true := by
  have hlt : va % levelSpan lv < levelSpan lv := Nat.mod_lt _ (levelSpan_pos lv)
  have hdiv : levelSpan lv * (va / levelSpan lv) + va % levelSpan lv = va := Nat.div_add_mod va _
  have hcomm : va / levelSpan lv * levelSpan lv = levelSpan lv * (va / levelSpan lv) := Nat.mul_comm ..
  unfold Xlate.covers
  simp only [beq_self_eq_true, Bool.true_and, Bool.and_eq_true, decide_eq_true_eq]
  omega

/-- A walk that finds a leaf enters its core's TLB (R54). -/
theorem walkComplete_spec {s : State} {core ctx va lv : Nat} {acc : AccessKind} {e : W64} (hwild : wildAddr va = false)
    (hmiss : (tlbOf s core).find? (fun x => x.covers ctx va) = none)
    (hleaf : (finishWalk (walkDie s (dieOf core) ctx va).2 (walkDie s (dieOf core) ctx va).1 (coreAgent core) ctx va acc false).2.1 =
      some (lv, e)) :
    ∃ t x, exec (.walkComplete core ctx va acc) s = .next t ∧ x ∈ tlbOf t core ∧ x.covers ctx va = true ∧ x.leaf = e ∧
      x.size = levelSpan lv := by
  have hcore : coreOf (core * 32) = core := Nat.mul_div_cancel core (by decide)
  have hwalk := walkFor_mapped (ag := coreAgent core) hleaf
  have htlb := translate_miss (k := core * 32) (r := (walkFor s (coreAgent core) ctx va acc false).1)
    (s' := (walkFor s (coreAgent core) ctx va acc false).2.2) (by rw [hcore]; exact hmiss)
    (by rw [hcore, ← hleaf, hwalk]; rfl)
  rw [hcore] at htlb
  refine ⟨(translate s (core * 32) none ctx va acc false).2, _, ?_, ?_, covers_page ctx va lv e, rfl, rfl⟩
  · show Host.Outcome.next (if wildAddr va = true then s else _) = _
    rw [hwild, if_neg Bool.false_ne_true]
  · rw [htlb]
    exact List.mem_cons_self

/-! ## Invalidations -/

theorem tlbOf_dropXlates (s : State) (meets : Nat → Nat → Nat → Bool) (core : Nat) :
    tlbOf (dropXlates s meets) core = (tlbOf s core).filter fun x => !meets x.ctx x.base x.size := by
  have h := NMap.get?_map s.vm.tlb (fun l : List Xlate => l.filter fun x => !meets x.ctx x.base x.size) core
  unfold tlbOf
  refine (congrArg (Option.getD · []) h).trans ?_
  cases NMap.get? s.vm.tlb core <;> rfl

theorem tlbOf_invalidateRange (s : State) (ctx : Option Nat) (range : Option (Nat × Nat)) (core : Nat) :
    tlbOf (invalidateRange s ctx range) core = (tlbOf s core).filter fun x => !invalMeets ctx range x.ctx x.base x.size :=
  tlbOf_dropXlates s (invalMeets ctx range) core

/-- No split stays held on a page of the range (R57). -/
theorem release_hold {sp : Split} {meets : Nat → Nat → Nat → Bool} {ctx : Nat} {lanes : List (Nat × Nat)} {acc : AccessKind}
    (h : (sp.release meets).hold = some (.fault ctx lanes acc)) : ∀ l ∈ lanes, meets ctx (l.2 / 2 ^ 16 * 2 ^ 16) (2 ^ 16) = false := by
  unfold Split.release at h
  split at h
  · next c ls a hold =>
    split at h
    · cases h
    · next hany =>
      rw [hold] at h
      cases h
      intro l hl
      exact Bool.eq_false_iff.2 fun hm => hany (List.any_eq_true.2 ⟨l, hl, hm⟩)
  · next hno => exact absurd h (hno ctx lanes acc)

theorem invalidateRange_holds (s : State) (ctx : Option Nat) (range : Option (Nat × Nat)) :
    ∀ e ∈ (invalidateRange s ctx range).work.groups, ∀ sp ∈ e.2.splits, ∀ c lanes acc, sp.hold = some (.fault c lanes acc) →
      ∀ l ∈ lanes, invalMeets ctx range c (l.2 / 2 ^ 16 * 2 ^ 16) (2 ^ 16) = false := by
  intro e he sp hsp c lanes acc hold
  obtain ⟨e, -, rfl⟩ := List.mem_map.1 he
  obtain ⟨sp, -, rfl⟩ := List.mem_map.1 hsp
  exact release_hold hold

/-- The end of an invalidation, whether or not its range is refused (R57, R62). -/
theorem endInval_spec (s : State) (i : Invalidation) :
    (endInval s i).vm.regs.busy = false ∧ (endInval s i).vm.inval = none ∧
      (∀ core, ∀ x ∈ tlbOf (endInval s i) core, invalMeets i.ctx i.range x.ctx x.base x.size = false) ∧
      ∀ e ∈ (endInval s i).work.groups, ∀ sp ∈ e.2.splits, ∀ ctx lanes acc, sp.hold = some (.fault ctx lanes acc) →
        ∀ l ∈ lanes, invalMeets i.ctx i.range ctx (l.2 / 2 ^ 16 * 2 ^ 16) (2 ^ 16) = false := by
  unfold endInval
  dsimp only
  refine ⟨rfl, rfl, fun core x hx => ?_, invalidateRange_holds _ i.ctx i.range⟩
  have hx' := (tlbOf_invalidateRange _ i.ctx i.range core ▸ hx : x ∈ List.filter _ _)
  simpa using (List.mem_filter.1 hx').2

/-- An invalidation without a refusal removes translations and ends holds alone (R57). -/
theorem endInval_plain {s : State} {i : Invalidation} (h : i.refuse = false) :
    groupsKept s (endInval s i) ∧ (endInval s i).ms = s.ms ∧ ∀ core, tlbOf (endInval s i) core =
      (tlbOf s core).filter fun x => !invalMeets i.ctx i.range x.ctx x.base x.size := by
  unfold endInval
  rw [h]
  exact ⟨groupsKept_invalidateRange s i.ctx i.range, rfl, tlbOf_invalidateRange s i.ctx i.range⟩

/-- The state in which an invalidation waits for accesses: its translations are gone (R57). -/
def begunInval (s : State) (i : Invalidation) : State := if i.upto.isNone then beginInval s i else s

/-- Removing translations before the wait adds nothing to what the end of the invalidation removes. -/
theorem begunInval_spec (s : State) (i : Invalidation) :
    groupsKept s (begunInval s i) ∧ (begunInval s i).ms = s.ms ∧ ∀ core,
      (tlbOf (begunInval s i) core).filter (fun x => !invalMeets i.ctx i.range x.ctx x.base x.size) =
        (tlbOf s core).filter fun x => !invalMeets i.ctx i.range x.ctx x.base x.size := by
  unfold begunInval
  split
  · refine ⟨groupsKept_of_groups rfl, rfl, fun core => ?_⟩
    have htlb : tlbOf (beginInval s i) core = _ := tlbOf_dropXlates s (invalMeets i.ctx i.range) core
    rw [htlb, List.filter_filter]
    simp only [Bool.and_self]
  · exact ⟨groupsKept_of_groups rfl, rfl, fun _ => rfl⟩

/-- An invalidation waits for accesses under way, then leaves no translation of its range and no access held on its pages (R57). -/
theorem invalidationComplete_spec {s : State} {i : Invalidation} (h : s.vm.inval = some i) :
    let b := begunInval s i
    (rangeBusy b i.ctx i.range (i.upto.getD b.pkg.nextReq) = true → exec .invalidationComplete s = .next b) ∧
    (rangeBusy b i.ctx i.range (i.upto.getD b.pkg.nextReq) = false →
      ∃ t, exec .invalidationComplete s = .next t ∧ t.vm.regs.busy = false ∧ t.vm.inval = none ∧
        (∀ core, ∀ x ∈ tlbOf t core, invalMeets i.ctx i.range x.ctx x.base x.size = false) ∧
        (∀ e ∈ t.work.groups, ∀ sp ∈ e.2.splits, ∀ ctx lanes acc, sp.hold = some (.fault ctx lanes acc) →
          ∀ l ∈ lanes, invalMeets i.ctx i.range ctx (l.2 / 2 ^ 16 * 2 ^ 16) (2 ^ 16) = false) ∧
        (i.refuse = false → groupsKept s t ∧ t.ms = s.ms ∧ ∀ core, tlbOf t core =
          (tlbOf s core).filter fun x => !invalMeets i.ctx i.range x.ctx x.base x.size)) := by
  intro b
  have hexec : exec .invalidationComplete s =
      .next (if rangeBusy b i.ctx i.range (i.upto.getD b.pkg.nextReq) then b else endInval b i) := by
    show execInvalidationComplete s = _
    unfold execInvalidationComplete
    rw [h]
    rfl
  obtain ⟨hkept, hms, htlb⟩ := begunInval_spec s i
  obtain ⟨hbusy, hinval, hnone, hholds⟩ := endInval_spec b i
  refine ⟨fun hb => by rw [hexec, hb, if_pos rfl], fun hb => ⟨endInval b i, by rw [hexec, hb, if_neg Bool.false_ne_true], hbusy,
    hinval, hnone, hholds, fun hr => ?_⟩⟩
  obtain ⟨hkept', hms', htlb'⟩ := endInval_plain (s := b) hr
  exact ⟨groupsKept_trans hkept hkept', hms'.trans hms, fun core => (htlb' core).trans (htlb core)⟩

/-! ## Moves -/

/-- The leaf of a page that moves to a new home is written, behind the write-back of its lines: whether it was, and the state (R71). -/
def homeLeaf (s : State) (m : PageMove) (d : Nat) : Bool × State :=
  casLeaf (flushPage s m.die (Leaf.of m.old.toNat).pa (m.size s)) m.leafAt (leafTransit m.old) (leafHome m.old d)

/-- The state of a move's end but for its last invalidation (R71). -/
def movedHome (s : State) (m : PageMove) (d : Nat) : State :=
  if (homeLeaf s m d).1 then (homeLeaf s m d).2.onVm fun vm => { vm with recent := vm.recent ++ [⟨d, m.ctx, m.va, 0⟩] }
  else (homeLeaf s m d).2

/-- A page that is compressed is read, behind the write-back of its lines (R66, R67). -/
def readPage (s : State) (m : PageMove) : State :=
  readMarked (flushAll s (Leaf.of m.old.toNat).pa (2 ^ 16)) (Leaf.of m.old.toNat).pa (2 ^ 16) m.ctx

/-- The leaf of a compressed page is written, behind the page's image: whether it was, and the state (R67). -/
def coldLeaf (s : State) (m : PageMove) (place : Nat) : Bool × State :=
  casLeaf (writeImage s place (pageCells s (Leaf.of m.old.toNat).pa)) m.leafAt (leafTransit m.old) (leafPage m.old place ||| 0x20)

/-- The state of a compression's end but for its last invalidation (R67). -/
def movedCold (s : State) (m : PageMove) (place : Nat) : State :=
  if (coldLeaf s m place).1 then
    (dropL1Range (coldLeaf s m place).2 (Leaf.of m.old.toNat).pa (2 ^ 16)).onVm fun vm =>
      { vm with frames := insNat vm.frames ((Leaf.of m.old.toNat).pa / 2 ^ 16) }
  else (coldLeaf s m place).2.onVm fun vm => { vm with images := NMap.erase vm.images place }

/-- The state in which a move is no longer listed. -/
def moveTaken (s : State) (m : PageMove) : State := s.onVm fun vm => { vm with moves := vm.moves.erase m }

theorem finishMove_home {s : State} {m : PageMove} {d : Nat} (h : m.newHome = some d) :
    finishMove s m = invalidateRange (movedHome (moveTaken s m) m d) (some m.ctx) (some (m.va, m.size (moveTaken s m))) := by
  unfold finishMove
  dsimp only
  rw [h]
  rfl

theorem finishMove_cold {s : State} {m : PageMove} (h : m.newHome = none) :
    finishMove s m = invalidateRange
      (((if pagePoisoned (readPage (moveTaken s m) m) (Leaf.of m.old.toNat).pa then none
          else coldPlace (readPage (moveTaken s m) m)).map (movedCold (readPage (moveTaken s m) m) m)).getD
        (casLeaf (readPage (moveTaken s m) m) m.leafAt (leafTransit m.old) m.old).2)
      (some m.ctx) (some (m.va, m.size (moveTaken s m))) := by
  unfold finishMove
  dsimp only
  rw [h]
  refine congrArg (invalidateRange · _ _) ?_
  show (match (if pagePoisoned (readPage (moveTaken s m) m) (Leaf.of m.old.toNat).pa then none
          else coldPlace (readPage (moveTaken s m) m)) with
      | none => (casLeaf (readPage (moveTaken s m) m) m.leafAt (leafTransit m.old) m.old).2
      | some place => movedCold (readPage (moveTaken s m) m) m place) = _
  split
  · next h => rw [h, Option.map_none, Option.getD_none]
  · next h => rw [h, Option.map_some, Option.getD_some]

theorem memoryOnly_homeLeaf (s : State) (m : PageMove) (d : Nat) : s.memoryOnly (homeLeaf s m d).2 :=
  (memoryOnly_flushPage s m.die _ _).andThen (memoryOnly_casLeaf ..)

/-- The page's leaf names its new home: of translation only the list of recent moves changes, and no group does. -/
theorem movedHome_spec (s : State) (m : PageMove) (d : Nat) :
    (movedHome s m d).vm.moves = s.vm.moves ∧ (movedHome s m d).work = s.work ∧ (movedHome s m d).ms = (homeLeaf s m d).2.ms ∧
      ((homeLeaf s m d).1 = true → ⟨d, m.ctx, m.va, 0⟩ ∈ (movedHome s m d).vm.recent) := by
  obtain ⟨-, -, hvm, hwork, -⟩ := memoryOnly_homeLeaf s m d
  unfold movedHome
  generalize homeLeaf s m d = x at hvm hwork ⊢
  have hmoves := congrArg VmSide.moves hvm
  split
  · exact ⟨hmoves, hwork, rfl, fun _ => List.mem_append_right _ List.mem_cons_self⟩
  · next hne => exact ⟨hmoves, hwork, rfl, fun h => absurd h hne⟩

/-- Behind the write of its leaf, a compressed page's image stands at its place. -/
theorem coldLeaf_spec (s : State) (m : PageMove) (place : Nat) :
    (coldLeaf s m place).2.vm.moves = s.vm.moves ∧ (coldLeaf s m place).2.work = s.work ∧
      NMap.get? (coldLeaf s m place).2.vm.images place = some (pageCells s (Leaf.of m.old.toNat).pa) := by
  have himage : NMap.get? (writeImage s place (pageCells s (Leaf.of m.old.toNat).pa)).vm.images place =
      some (pageCells s (Leaf.of m.old.toNat).pa) := NMap.get?_set_self ..
  have hmoves : (writeImage s place (pageCells s (Leaf.of m.old.toNat).pa)).vm.moves = s.vm.moves := rfl
  have hwork : (writeImage s place (pageCells s (Leaf.of m.old.toNat).pa)).work = s.work := rfl
  unfold coldLeaf
  generalize writeImage s place (pageCells s (Leaf.of m.old.toNat).pa) = w at himage hmoves hwork ⊢
  obtain ⟨-, -, hvm', hwork', -⟩ := memoryOnly_casLeaf w m.leafAt (leafTransit m.old) (leafPage m.old place ||| 0x20)
  rw [hvm', hwork']
  exact ⟨hmoves, hwork, himage⟩

/-- The page's leaf names its image: no group changes, and the page's frame is free (R67). -/
theorem movedCold_spec (s : State) (m : PageMove) (place : Nat) :
    (movedCold s m place).vm.moves = s.vm.moves ∧ (movedCold s m place).work = s.work ∧
      ((coldLeaf s m place).1 = true →
        NMap.get? (movedCold s m place).vm.images place = some (pageCells s (Leaf.of m.old.toNat).pa) ∧
          (Leaf.of m.old.toNat).pa / 2 ^ 16 ∈ (movedCold s m place).vm.frames) := by
  obtain ⟨hmoves, hwork, himage⟩ := coldLeaf_spec s m place
  unfold movedCold
  generalize coldLeaf s m place = x at hmoves hwork himage ⊢
  split
  · exact ⟨hmoves, hwork, fun _ => ⟨himage, (mem_insNat _ _ _).2 (.inl rfl)⟩⟩
  · next hne => exact ⟨hmoves, hwork, fun h => absurd h hne⟩

theorem memoryOnly_readPage (s : State) (m : PageMove) : s.memoryOnly (readPage s m) :=
  (memoryOnly_flushAll ..).andThen (memoryOnly_readMarked ..)

/-- The end of a move with its last invalidation: the list of moves and the groups are as the state before that has them. -/
theorem moveEnd_spec {s t : State} {m : PageMove} (hmoves : t.vm.moves = (moveTaken s m).vm.moves) (hwork : t.work = s.work)
    (ctx : Option Nat) (range : Option (Nat × Nat)) :
    (invalidateRange t ctx range).vm.moves = s.vm.moves.erase m ∧ groupsKept s (invalidateRange t ctx range) :=
  ⟨hmoves, groupsKept_trans (groupsKept_of_groups (congrArg Work.groups hwork)) (groupsKept_invalidateRange t ctx range)⟩

/-- Every move ends with the list shorter by itself, and with every group where it stood (R67, R71). -/
theorem finishMove_spec (s : State) (m : PageMove) :
    (finishMove s m).vm.moves = s.vm.moves.erase m ∧ groupsKept s (finishMove s m) := by
  cases h : m.newHome with
  | some d =>
    obtain ⟨hmoves, hwork, -⟩ := movedHome_spec (moveTaken s m) m d
    rw [finishMove_home h]
    exact moveEnd_spec hmoves hwork _ _
  | none =>
    obtain ⟨-, -, hvm, hwork, -⟩ := memoryOnly_readPage (moveTaken s m) m
    rw [finishMove_cold h]
    generalize readPage (moveTaken s m) m = p at hvm hwork ⊢
    have hmoves := congrArg VmSide.moves hvm
    cases (if pagePoisoned p (Leaf.of m.old.toNat).pa then none else coldPlace p) with
    | none =>
      have hcas := memoryOnly_casLeaf p m.leafAt (leafTransit m.old) m.old
      rw [Option.map_none, Option.getD_none]
      generalize casLeaf p m.leafAt (leafTransit m.old) m.old = r at hcas ⊢
      obtain ⟨-, -, hvm', hwork', -⟩ := hcas
      exact moveEnd_spec ((congrArg VmSide.moves hvm').trans hmoves) (hwork'.trans hwork) _ _
    | some place =>
      obtain ⟨hmoves', hwork', -⟩ := movedCold_spec p m place
      rw [Option.map_some, Option.getD_some]
      generalize movedCold p m place = r at hmoves' hwork' ⊢
      exact moveEnd_spec (hmoves'.trans hmoves) (hwork'.trans hwork) _ _

/-- Without a command of the driver's the oldest move ends: at its new home, or as an image (R67, R71). -/
theorem invalidationComplete_move {s : State} {m : PageMove} {rest : List PageMove} (h : s.vm.inval = none)
    (hm : s.vm.moves = m :: rest) :
    ∃ t, exec .invalidationComplete s = .next t ∧ t.vm.moves = rest ∧ groupsKept s t ∧
      (∀ d, m.newHome = some d → t.ms = (homeLeaf (moveTaken s m) m d).2.ms ∧
        ((homeLeaf (moveTaken s m) m d).1 = true → ⟨d, m.ctx, m.va, 0⟩ ∈ t.vm.recent)) ∧
      (m.newHome = none → ∀ place, pagePoisoned (readPage (moveTaken s m) m) (Leaf.of m.old.toNat).pa = false →
        coldPlace (readPage (moveTaken s m) m) = some place → (coldLeaf (readPage (moveTaken s m) m) m place).1 = true →
        NMap.get? t.vm.images place = some (pageCells (readPage (moveTaken s m) m) (Leaf.of m.old.toNat).pa) ∧
          (Leaf.of m.old.toNat).pa / 2 ^ 16 ∈ t.vm.frames) := by
  obtain ⟨hmoves, hkept⟩ := finishMove_spec s m
  refine ⟨finishMove s m, ?_, by rw [hmoves, hm, List.erase_cons_head], hkept, fun d hd => ?_, fun hn place hp hplace hleaf => ?_⟩
  · show execInvalidationComplete s = _
    unfold execInvalidationComplete
    rw [h, hm]
  · obtain ⟨-, -, hms, hrecent⟩ := movedHome_spec (moveTaken s m) m d
    rw [finishMove_home hd]
    generalize movedHome (moveTaken s m) m d = r at hms hrecent ⊢
    exact ⟨hms, hrecent⟩
  · rw [finishMove_cold hn]
    generalize readPage (moveTaken s m) m = p at hp hplace hleaf ⊢
    obtain ⟨-, -, himage⟩ := movedCold_spec p m place
    rw [hp, if_neg Bool.false_ne_true, hplace, Option.map_some, Option.getD_some]
    have himage := himage hleaf
    generalize movedCold p m place = r at himage ⊢
    exact himage

end Sys2Proof.Machine
end

section
/-! The replay of a side log's only entry (R59, R61, R62, R478): whether it is performed, sent, dropped or waits again, the replay
ends after it. -/

namespace Sys2Proof.Machine

/-! ## Logs of one entry -/

theorem slogOf_of_vm {s t : State} (h : t.vm = s.vm) (core : Nat) : slogOf t core = slogOf s core := by
  unfold slogOf
  rw [h]

theorem ownerlessOf_of_vm {s t : State} (h : t.vm = s.vm) (core : Nat) : ownerlessOf t core = ownerlessOf s core := by
  unfold ownerlessOf
  rw [h]

theorem slogOf_setSlog (s : State) (core : Nat) (l : List SlogEntry) : slogOf (setSlog s core l) core = l := by
  unfold slogOf setSlog
  rw [State.onVm_vm, NMap.get?_set_self]
  rfl

/-- Nothing enters a log while nothing waits for room in it. -/
theorem refillLog_of_ownerless_nil {s : State} {core : Nat} (h : ownerlessOf s core = []) : refillLog s core = s := by
  unfold refillLog
  dsimp only
  rw [h, List.take_nil]
  rfl

theorem swapEntry_single {s : State} {core : Nat} {e : SlogEntry} (h : slogOf s core = [e]) (new : List SlogEntry) :
    swapEntry s core e new = setSlog s core new := by
  unfold swapEntry
  have hidx : [e].findIdx? (· == e) = some 0 := by rw [List.findIdx?_cons, beq_self_eq_true]; rfl
  dsimp only
  rw [h, hidx]
  dsimp only
  rw [List.take_zero, List.nil_append, List.drop_one, List.tail_cons, List.append_nil]

theorem removeEntry_single {s : State} {core : Nat} {e : SlogEntry} (h : slogOf s core = [e]) (h' : ownerlessOf s core = []) :
    removeEntry s core e = setSlog s core [] := by
  unfold removeEntry
  rw [swapEntry_single h]
  exact refillLog_of_ownerless_nil h'

/-- Only what does not wait, and is not under way, replays. -/
theorem of_replayable {s : State} {core : Nat} {failed : Bool} {e : SlogEntry} (h : replayable s core failed = some e) :
    e.waits = false ∧ inFlight s core e = false := by
  have hp := List.find?_some h
  simp only [Bool.and_eq_true, Bool.not_eq_true'] at hp
  obtain ⟨⟨⟨⟨-, hwaits⟩, hflight⟩, -⟩, -⟩ := hp
  exact ⟨hwaits, hflight⟩

theorem replayable_nil {s : State} {core : Nat} (h : slogOf s core = []) (failed : Bool) : replayable s core failed = none := by
  unfold replayable
  rw [h]
  rfl

/-- A log whose only entry waits, or is under way, has nothing to replay. -/
theorem replayable_single {s : State} {core : Nat} {e : SlogEntry} (h : slogOf s core = [e])
    (hno : e.waits = true ∨ inFlight s core e = true) (failed : Bool) : replayable s core failed = none := by
  cases hr : replayable s core failed with
  | none => rfl
  | some x =>
    have hx : x ∈ slogOf s core := List.mem_of_find?_eq_some hr
    rw [h, List.mem_singleton] at hx
    subst hx
    obtain ⟨hwaits, hflight⟩ := of_replayable hr
    rw [hwaits, hflight] at hno
    simp at hno

/-- A log whose only entry replays, with nothing more to replay then, is done after it. -/
theorem sideLogReplay_once {s t : State} {core : Nat} {e : SlogEntry} (h : slogOf s core = [e]) (h' : ownerlessOf s core = [])
    (hr : replayable s core false = some e) (ht : replayEntry s core e = t) (hdone : replayable t core false = none) :
    exec (.sideLogReplay core) s = .next t := by
  show execSideLogReplay core s = _
  unfold execSideLogReplay
  rw [refillLog_of_ownerless_nil h', h, h']
  show Host.Outcome.next (replayLog core (31 + 1 + 1) s) = _
  rw [replayLog, hr]
  dsimp only
  rw [ht, replayLog, hdone]

/-! ## What a request leaves of translation -/

/-- A fold whose steps each leave a part of the state. -/
theorem State.foldl_keeps {α β : Type} (p : State → β) (l : List α) {f : State → α → State} (h : ∀ s a, p (f s a) = p s) (s : State) :
    p (l.foldl f s) = p s := by
  induction l generalizing s with
  | nil => rfl
  | cons a l ih => exact (ih _).trans (h s a)

/-- A fold whose steps each give two answers beside the state. -/
theorem vm_foldl_snd_snd {α β γ : Type} (l : List α) {f : β × γ × State → α → β × γ × State}
    (h : ∀ (r : β × γ × State) a, (f r a).2.2.vm = r.2.2.vm) (r : β × γ × State) : (l.foldl f r).2.2.vm = r.2.2.vm := by
  induction l generalizing r with
  | nil => rfl
  | cons a l ih => exact (ih _).trans (h r a)

theorem memoryOnly_vm {s t : State} (h : s.memoryOnly t) : t.vm = s.vm := by
  obtain ⟨-, -, hvm, -, -⟩ := h
  exact hvm

theorem postKind_vm (s : State) (ctx gk : Nat) (addr core cause info kind : Nat) :
    (postKind s ctx gk addr core cause info kind).vm = s.vm :=
  (State.onGrid_vm ..).trans <| memoryOnly_vm (memoryOnly_postAsync s ctx (asyncRecord s ctx (gridId s gk) addr core cause info kind))

theorem redPoison_vm (s : State) (w : Writer) (va bad : Nat) : (redPoison s w va bad).vm = s.vm := by
  unfold redPoison
  extract_lets grid accept
  generalize accept = a
  split
  · rfl
  · split
    · exact State.foldl_keeps State.vm _ (fun s gk => State.onGrid_vm s gk _) s
    · exact postKind_vm ..

theorem atomDevice_vm (s : State) (core : Nat) (l : Leaf) (pa ctx : Nat) (op : MemOp) :
    (atomDevice s core l pa ctx op).2.2.2.vm = s.vm := by
  have h := ((memoryOnly_noteMiss s core (homeDelay core l.home)).andThen
    (memoryOnly_dropCopies _ core l.home (pa / 32))).andThen (memoryOnly_homeFetch _ l.home (pa / 32) ctx l.noalloc)
  unfold atomDevice
  dsimp only
  generalize homeFetch (dropCopies (noteMiss s core (homeDelay core l.home)) core l.home (pa / 32)) l.home (pa / 32) ctx l.noalloc = r
    at h ⊢
  obtain ⟨x, t⟩ := r
  dsimp only at h ⊢
  split
  · exact memoryOnly_vm h
  · split
    · exact memoryOnly_vm h
    · next v _ =>
      have hwrite := memoryOnly_vm (h.andThen (memoryOnly_homeWrite t l.home (pa / 32) ctx (byteMask (pa % 32) (MemOp.size op))
        (Sector.ofNat v (pa % 32) (MemOp.size op)) false))
      generalize homeWrite t l.home (pa / 32) ctx (byteMask (pa % 32) (MemOp.size op)) (Sector.ofNat v (pa % 32) (MemOp.size op)) false =
        q at hwrite ⊢
      exact hwrite

/-- A sector sent to device memory leaves translation as it is. -/
theorem sendSector_vm (s : State) (w : Writer) {l : Leaf} (h : l.tgt = 0) (pa va : Nat) (kind : StoreKind) (poison : Bool) :
    (sendSector s w l pa va kind poison).2.vm = s.vm := by
  unfold sendSector
  rw [if_pos h]
  cases kind with
  | store x m =>
    have h := memoryOnly_vm (memoryOnly_coreWrite s w.core l.home (pa / 32) w.ctx m x poison)
    dsimp only
    generalize coreWrite s w.core l.home (pa / 32) w.ctx m x poison = r at h ⊢
    exact h
  | red op ty ops =>
    dsimp only
    refine (redPoison_vm ..).trans (vm_foldl_snd_snd ops (fun r o => ?_) (0, 0, s))
    exact atomDevice_vm r.2.2 w.core l (pa / 32 * 32 + o.1) w.ctx (.atom op ty o.2)

/-- What an entry leaves outstanding is noted with its group and grids: memory and translation stand as before. -/
theorem noteReplay_vm (s : State) (e : SlogEntry) (o : List Outstanding) :
    (noteReplay s e o).vm = s.vm ∧ (noteReplay s e o).ms = s.ms := by
  unfold noteReplay
  dsimp only
  split
  · exact ⟨State.onGroup_vm .., State.onGroup_ms ..⟩
  · exact ⟨State.foldl_keeps State.vm _ (fun s gk => State.onGrid_vm s gk _) _,
      State.foldl_keeps State.ms _ (fun s gk => State.onGrid_ms s gk _) _⟩

theorem samplePage_logs (s : State) (l : Leaf) (ctx va die core : Nat) :
    slogOf (samplePage s l ctx va die) core = slogOf s core ∧ ownerlessOf (samplePage s l ctx va die) core = ownerlessOf s core := by
  unfold samplePage
  dsimp only
  split
  · exact ⟨rfl, rfl⟩
  · unfold slogOf ownerlessOf
    rw [State.onVm_vm]
    split <;> exact ⟨rfl, rfl⟩

/-- A request that goes out, or that this package answers itself, is under way. -/
theorem inFlight_sendRemote {s : State} {core : Nat} {e : SlogEntry} {f : Sender} {l : Leaf} {pa va : Nat} {op : MemOp} {poison : Bool}
    (h : (sendRemote s (.slog core e) f l pa va op poison).1 = none) :
    inFlight (sendRemote s (.slog core e) f l pa va op poison).2.2 core e = true := by
  have hlast (t : State) (r : OutReq) (p : Package) (hp : p.outreqs = t.pkg.outreqs ++ [r]) (hr : r.owner = .slog core e) :
      inFlight (t.onPkg fun _ => p) core e = true := by
    unfold inFlight
    rw [State.onPkg_pkg, hp, List.any_append, Bool.or_eq_true]
    refine .inr ?_
    simp [OutReq.retries, hr]
  revert h
  unfold sendRemote
  dsimp only
  split
  · split
    · exact fun _ => hlast s _ _ rfl rfl
    · exact fun h => absurd h (by simp)
  · split
    · exact fun _ => hlast (serveInbound s ⟨l.peer, pa, op, poison⟩).2.2 _ _ rfl rfl
    · split
      · exact fun h => absurd h (by simp)
      · split
        · exact fun h => absurd h (by simp)
        · exact fun _ => hlast s _ _ rfl rfl

/-- The page of a log's only entry is dropped with it. -/
theorem dropPage_single {s : State} {core : Nat} {e : SlogEntry} (h : slogOf s core = [e]) (h' : ownerlessOf s core = [])
    (cause kind : Nat) : slogOf (dropPage s core e.ctx (e.va / 2 ^ 16) cause kind) core = [] := by
  unfold dropPage
  dsimp only
  rw [h, h', List.append_nil, List.find?_singleton, if_pos (by simp)]
  dsimp only
  generalize hp : postKind _ e.ctx e.grid (e.va / 2 ^ 16 * 2 ^ 16) core cause 1 kind = p
  have hvm : p.vm = _ := hp ▸ postKind_vm ..
  have hown : ownerlessOf p core = [] := by
    unfold ownerlessOf
    rw [hvm, State.onVm_vm, NMap.get?_adjust_self]
    unfold ownerlessOf at h'
    show ((NMap.get? s.vm.ownerless core).map _).getD [] = []
    cases ho : NMap.get? s.vm.ownerless core with
    | none => rfl
    | some l =>
      rw [ho] at h'
      have hl : l = [] := h'
      rw [hl]
      rfl
  rw [refillLog_of_ownerless_nil hown, slogOf, hvm]
  refine (slogOf_setSlog s core _).trans ?_
  simp

/-! ## The replay by the page's state -/

section
variable {s : State} {core : Nat} {e : SlogEntry}

/-- The translation that the replay of an entry asks for. -/
def replayLookup (s : State) (core : Nat) (e : SlogEntry) : Xl × State := translate s (core * 32) none e.ctx e.va .write e.kind.isRed

theorem replayEntry_eq (s : State) (core : Nat) (e : SlogEntry) : replayEntry s core e =
    match (replayLookup s core e).1 with
    | .wait => swapEntry (replayLookup s core e).2 core e [{ e with waits := true }]
    | .denied => dropPage (replayLookup s core e).2 core e.ctx (e.va / 2 ^ 16) causeProt 4
    | .ok l pa =>
      let s' := samplePage (replayLookup s core e).2 l e.ctx e.va (dieOf core)
      if l.tgt ≠ 0 then sendEntry s' core e l pa
      else noteReplay (sendSector (removeEntry s' core e) (e.writer core) l pa e.va e.performs e.poison).2 e
        (sendSector (removeEntry s' core e) (e.writer core) l pa e.va e.performs e.poison).1 := by
  unfold replayEntry replayLookup StoreKind.isRed
  dsimp only
  all_goals
    generalize translate s (core * 32) none e.ctx e.va .write _ = r
    obtain ⟨x, t⟩ := r
    cases x <;> rfl

variable (hlog : slogOf s core = [e]) (hnone : ownerlessOf s core = []) (hr : replayable s core false = some e)
include hlog hnone hr

/-- The lookup of a replay leaves the log, whose entry does not wait, as it is. -/
theorem replayLookup_logs : slogOf (replayLookup s core e).2 core = [e] ∧ ownerlessOf (replayLookup s core e).2 core = [] := by
  obtain ⟨hwaits, -⟩ := of_replayable hr
  obtain ⟨hs, ho⟩ := (lookupOnly_translate s (core * 32) none e.ctx e.va .write e.kind.isRed).logs core (by
    rw [hlog, hnone]
    intro x hx
    rw [List.append_nil, List.mem_singleton] at hx
    rw [hx, hwaits])
  exact ⟨hs.trans hlog, ho.trans hnone⟩

/-- On a page of device memory the entry is performed, and leaves the log (R59). -/
theorem sideLogReplay_device {l : Leaf} {pa : Nat} (hx : (replayLookup s core e).1 = .ok l pa) (htgt : l.tgt = 0) :
    ∃ t, exec (.sideLogReplay core) s = .next t ∧ slogOf t core = [] ∧
      t.ms = (sendSector (removeEntry (samplePage (replayLookup s core e).2 l e.ctx e.va (dieOf core)) core e) (e.writer core) l pa e.va
        e.performs e.poison).2.ms := by
  have heq := replayEntry_eq s core e
  obtain ⟨hs, ho⟩ := replayLookup_logs hlog hnone hr
  obtain ⟨hs', ho'⟩ := samplePage_logs (replayLookup s core e).2 l e.ctx e.va (dieOf core) core
  generalize (replayLookup s core e).2 = x at hs ho hs' ho' heq ⊢
  have hrem := removeEntry_single (hs'.trans hs) (ho'.trans ho)
  have hempty : slogOf (removeEntry (samplePage x l e.ctx e.va (dieOf core)) core e) core = [] := by rw [hrem, slogOf_setSlog]
  rw [hx] at heq
  dsimp only at heq
  rw [if_neg (not_not_intro htgt)] at heq
  have hsend := sendSector_vm (removeEntry (samplePage x l e.ctx e.va (dieOf core)) core e) (e.writer core) htgt pa e.va e.performs
    e.poison
  generalize removeEntry (samplePage x l e.ctx e.va (dieOf core)) core e = y at hempty hsend heq ⊢
  generalize sendSector y (e.writer core) l pa e.va e.performs e.poison = z at hsend heq ⊢
  obtain ⟨hvm, hms⟩ := noteReplay_vm z.2 e z.1
  have hdone : slogOf (noteReplay z.2 e z.1) core = [] := (slogOf_of_vm (hvm.trans hsend) core).trans hempty
  exact ⟨_, sideLogReplay_once hlog hnone hr heq (replayable_nil hdone false), hdone, hms⟩

/-- On a remote page the entry is sent, and stays until it is answered (R59, R478). -/
theorem sideLogReplay_remote {l : Leaf} {pa : Nat} {o : Nat × MemOp} (hx : (replayLookup s core e).1 = .ok l pa) (htgt : l.tgt ≠ 0)
    (hops : kindOps e.performs = [o])
    (hsent : (sendRemote (samplePage (replayLookup s core e).2 l e.ctx e.va (dieOf core)) (.slog core e) (e.writer core).sender l
      (pa / 32 * 32 + o.1) (e.va / 32 * 32 + o.1) o.2 e.poison).1 = none) :
    ∃ t, exec (.sideLogReplay core) s = .next t ∧ slogOf t core = [e] ∧ inFlight t core e = true := by
  have heq := replayEntry_eq s core e
  obtain ⟨hs, ho⟩ := replayLookup_logs hlog hnone hr
  obtain ⟨hs', -⟩ := samplePage_logs (replayLookup s core e).2 l e.ctx e.va (dieOf core) core
  generalize (replayLookup s core e).2 = x at hs hs' heq hsent ⊢
  have hlog' := hs'.trans hs
  rw [hx] at heq
  dsimp only at heq
  rw [if_pos htgt] at heq
  generalize samplePage x l e.ctx e.va (dieOf core) = y at hlog' heq hsent
  have hvm := memoryOnly_vm (memoryOnly_sendRemote y (.slog core e) (e.writer core).sender l (pa / 32 * 32 + o.1)
    (e.va / 32 * 32 + o.1) o.2 e.poison)
  have hflight := inFlight_sendRemote hsent
  unfold sendEntry at heq
  rw [hops] at heq
  dsimp only at heq
  generalize sendRemote y (.slog core e) (e.writer core).sender l (pa / 32 * 32 + o.1) (e.va / 32 * 32 + o.1) o.2 e.poison = z
    at hsent hvm hflight heq
  rw [hsent] at heq
  have hlog'' := (slogOf_of_vm hvm core).trans hlog'
  exact ⟨z.2.2, sideLogReplay_once hlog hnone hr heq (replayable_single hlog'' (.inr hflight) false), hlog'', hflight⟩

/-- A page without W drops its entries (R62). -/
theorem sideLogReplay_denied (hx : (replayLookup s core e).1 = .denied) :
    ∃ t, exec (.sideLogReplay core) s = .next t ∧ slogOf t core = [] := by
  have heq := replayEntry_eq s core e
  obtain ⟨hs, ho⟩ := replayLookup_logs hlog hnone hr
  rw [hx] at heq
  dsimp only at heq
  have hdone := dropPage_single hs ho causeProt 4
  exact ⟨_, sideLogReplay_once hlog hnone hr heq (replayable_nil hdone false), hdone⟩

/-- An entry whose page is still not there waits again (R57). -/
theorem sideLogReplay_wait (hx : (replayLookup s core e).1 = .wait) :
    ∃ t, exec (.sideLogReplay core) s = .next t ∧ slogOf t core = [{ e with waits := true }] := by
  have heq := replayEntry_eq s core e
  obtain ⟨hs, -⟩ := replayLookup_logs hlog hnone hr
  rw [hx] at heq
  dsimp only at heq
  rw [swapEntry_single hs] at heq
  have hdone := slogOf_setSlog (replayLookup s core e).2 core [{ e with waits := true }]
  exact ⟨_, sideLogReplay_once hlog hnone hr heq (replayable_single hdone (.inl rfl) false), hdone⟩

end

end Sys2Proof.Machine
end

section
/-! Epochs, expansions, and the claim of the events of translation and placement (R54, R57, R59, R62, R66-R71). -/

namespace Sys2Proof.Machine

/-! ## Epochs -/

/-- With both engines off a placement unit leaves its pages (R65). -/
theorem placePage_off {s : State} (hmig : s.vm.regs.migen = false) (hcold : s.vm.regs.colden = false) (p : PageCount) :
    placePage s p = s := by
  unfold placePage
  dsimp only
  rw [hmig, hcold]
  split
  · rfl
  · split
    · rfl
    · simp

/-- An epoch halves its die's counts, and leaves all else with both engines off (R65, R70). -/
theorem epochEnd_off {s : State} (hmig : s.vm.regs.migen = false) (hcold : s.vm.regs.colden = false) (die : Nat) :
    exec (.epochEnd die) s = .next { s with
      vm := { s.vm with
        counts := s.vm.counts.map fun p =>
          if p.die = die then { p with counts := p.counts.map (· / 2), idle := p.idle + 1 } else p
        recent := (s.vm.recent.map fun r => if r.die = die then { r with epochs := r.epochs + 1 } else r).filter fun r =>
          decide (r.epochs < 4) } } := by
  show execEpochEnd die s = _
  unfold execEpochEnd
  rw [List.foldl_fixed' (placePage_off hmig hcold)]
  rfl

/-- A move that begins is the last of those under way (R67, R71). -/
theorem beginMove_moves {s : State} {leafAt : Nat} {old : W64} (h : (casLeaf s leafAt old (leafTransit old)).1 = true)
    (die ctx va size : Nat) (home : Option Nat) :
    (beginMove s die ctx va leafAt old size home).vm.moves = s.vm.moves ++ [⟨die, ctx, va, leafAt, old, home⟩] := by
  have hcas := memoryOnly_vm (memoryOnly_casLeaf s leafAt old (leafTransit old))
  unfold beginMove
  generalize casLeaf s leafAt old (leafTransit old) = r at h hcas ⊢
  obtain ⟨ok, t⟩ := r
  dsimp only at h hcas ⊢
  rw [if_pos h, ← hcas]
  rfl

/-- A page that most requests of another die count to starts to move there (R71). -/
theorem placePage_migrates {s : State} {p : PageCount} {d pa lv at? : Nat} {l : Leaf} (hmig : s.vm.regs.migen = true)
    (htarget : p.target s = some d) (hleaf : leafNow s p.ctx p.va = some (l, pa, lv, at?)) (hlv : lv < 2)
    (hsize : p.size = levelSpan lv) (htgt : l.tgt = 0) (hpin : l.pin = false) (hhome : l.home = p.die) :
    placePage s p = beginMove s p.die p.ctx p.va at? (w64 (physNat s at? 8)) p.size (some d) := by
  unfold placePage
  dsimp only
  rw [hleaf, hmig, htarget]
  dsimp only
  rw [if_neg]
  simp only [htgt, hpin, hhome, hsize]
  simp only [ne_eq, not_true_eq_false, Bool.false_eq_true, or_false, false_or, Nat.not_le]
  exact hlv

theorem epochEnd_migrates {s : State} {die d pa lv at? : Nat} {x : PageCount} {rest : List PageCount} {l : Leaf}
    (hmig : s.vm.regs.migen = true) (hcounts : s.vm.counts = x :: rest) (hrest : ∀ p ∈ rest, p.die ≠ die) (hdie : x.die = die)
    (htarget : x.target s = some d) (hleaf : leafNow s x.ctx x.va = some (l, pa, lv, at?)) (hlv : lv < 2)
    (hsize : x.size = levelSpan lv) (htgt : l.tgt = 0) (hpin : l.pin = false) (hhome : l.home = die)
    (hcas : (casLeaf s at? (w64 (physNat s at? 8)) (leafTransit (w64 (physNat s at? 8)))).1 = true) :
    ∃ t, exec (.epochEnd die) s = .next t ∧
      t.vm.moves = s.vm.moves ++ [⟨die, x.ctx, x.va, at?, w64 (physNat s at? 8), some d⟩] := by
  have hmine : (s.vm.counts.filter fun p => p.die == die) = [x] := by
    rw [hcounts, List.filter_cons_of_pos (by simp [hdie]), List.filter_eq_nil_iff.2 (by simpa using hrest)]
  have hplace := placePage_migrates hmig htarget hleaf hlv hsize htgt hpin (hhome.trans hdie.symm)
  have hmoves := beginMove_moves hcas x.die x.ctx x.va x.size (some d)
  have hexec : exec (.epochEnd die) s = execEpochEnd die s := rfl
  unfold execEpochEnd at hexec
  rw [hmine, List.foldl_cons, List.foldl_nil, hplace] at hexec
  generalize beginMove s x.die x.ctx x.va at? (w64 (physNat s at? 8)) x.size (some d) = t at hexec hmoves
  rw [hdie] at hmoves
  exact ⟨_, hexec, hmoves⟩

/-! ## Expansions -/

/-- Without its image or without a free frame, the fault of the access to a compressed page goes to the host (R62, R68). -/
theorem pageExpansion_fault {s : State} {ctx at? e : Nat} {v : PageTouch} (die : Nat)
    (hwalk : (walkTop s ctx v.va).1 = .leaf 0 at? e) (hdev : (Leaf.of e).dev = true) (hv : (Leaf.of e).v = true)
    (hcold : (Leaf.of e).cold = true) (h : NMap.get? s.vm.images ((Leaf.of e).pa / 2 ^ 16) = none ∨
      (s.vm.frames.find? fun f => !avoided s f) = none) :
    exec (.pageExpansion die ctx v) s = .next (postVmFault s ctx v.va 4 v.access ⟨die, v.agent, v.unit⟩ 0) := by
  show execPageExpansion die ctx v s = _
  unfold execPageExpansion
  simp only [hwalk]
  rw [hdev, hv, hcold, if_neg (by simp)]
  split
  · next himage hfree => exact absurd h (not_or.2 ⟨himage ▸ Option.some_ne_none _, hfree ▸ Option.some_ne_none _⟩)
  · rfl

/-- The page's leaf names its new frame: whether it was written, and the state (R53, R68). -/
def expandLeaf (s : State) (die ctx at? e f : Nat) : Bool × State :=
  casLeaf (dropL1Range (flushAll (readMarked s ((Leaf.of e).pa / 2 ^ 16 * 2 ^ 16) imageBytes ctx) (f * 2 ^ 16) (2 ^ 16)) (f * 2 ^ 16)
    (2 ^ 16)) at? (w64 e) (leafHome (leafPage (w64 e) f &&& ~~~(0x20 : W64)) die)

theorem memoryOnly_expandLeaf (s : State) (die ctx at? e f : Nat) : s.memoryOnly (expandLeaf s die ctx at? e f).2 :=
  (((memoryOnly_readMarked ..).andThen (memoryOnly_flushAll ..)).andThen (memoryOnly_dropL1Range ..)).andThen
    (memoryOnly_casLeaf ..)

theorem NMap.get?_erase_self {α : Type} (m : NMap α) (k : Nat) : NMap.get? (NMap.erase m k) k = none := by
  refine NMap.get?_of_not_mem fun h => ?_
  obtain ⟨e, he, rfl⟩ := List.mem_map.1 h
  simpa using (List.mem_filter.1 he).2

/-- A compressed page expands into a free frame (R68). -/
theorem pageExpansion_expands {s : State} {die ctx at? e f : Nat} {v : PageTouch} {cells : List Host.Cell}
    (hwalk : (walkTop s ctx v.va).1 = .leaf 0 at? e) (hdev : (Leaf.of e).dev = true) (hv : (Leaf.of e).v = true)
    (hcold : (Leaf.of e).cold = true) (himage : NMap.get? s.vm.images ((Leaf.of e).pa / 2 ^ 16) = some cells)
    (hfree : (s.vm.frames.find? fun f => !avoided s f) = some f) (hcas : (expandLeaf s die ctx at? e f).1 = true) :
    ∃ t, exec (.pageExpansion die ctx v) s = .next t ∧ NMap.get? t.vm.images ((Leaf.of e).pa / 2 ^ 16) = none ∧ f ∉ t.vm.frames ∧
      groupsKept s t ∧ t.ms.mem = cells.foldl (fun m c => cellSet m (f * 2 ^ 16 + c.1) c.2)
        ((expandLeaf s die ctx at? e f).2.ms.mem.filter fun c => decide (c.1 < f * 2 ^ 16) || decide (f * 2 ^ 16 + 2 ^ 16 ≤ c.1)) := by
  have hexec : exec (.pageExpansion die ctx v) s = execPageExpansion die ctx v s := rfl
  have hkept := (memoryOnly_expandLeaf s die ctx at? e f).groupsKept
  unfold execPageExpansion at hexec
  simp only [hwalk] at hexec
  rw [hdev, hv, hcold, if_neg (by simp), himage, hfree] at hexec
  dsimp only at hexec
  unfold expandLeaf at hkept hcas ⊢
  generalize imageBroken _ _ = broken at hexec
  generalize casLeaf _ at? (w64 e) _ = x at hexec hkept hcas ⊢
  obtain ⟨ok, t⟩ := x
  dsimp only at hexec hkept hcas ⊢
  subst hcas
  rw [if_neg (by simp)] at hexec
  exact ⟨_, hexec, NMap.get?_erase_self .., fun h => ((mem_delNat ..).1 h).1 rfl,
    groupsKept_trans hkept (groupsKept_trans (groupsKept_of_groups rfl) (groupsKept_invalidateRange _ _ _)), rfl⟩

/-! ## The claim -/

/-- Settles O52: each event by its own lemma. -/
theorem translationEventsComplete : Obligations.TranslationEventsComplete := by
  unfold Obligations.TranslationEventsComplete
  intro s
  refine ⟨fun core ctx va acc lv e hwild hmiss hleaf _ => walkComplete_spec hwild hmiss hleaf,
    fun i hi => invalidationComplete_spec hi, fun m rest hno hm => ?_,
    fun core e hlog hnone hr => ⟨fun l pa hx htgt => sideLogReplay_device hlog hnone hr hx htgt,
      fun l pa o hx htgt hops hsent => sideLogReplay_remote hlog hnone hr hx htgt hops hsent,
      fun hx => sideLogReplay_denied hlog hnone hr hx, fun hx => sideLogReplay_wait hlog hnone hr hx⟩,
    fun die hmig hcold => epochEnd_off hmig hcold die,
    fun die d x rest hmig hcounts hrest hdie htarget l pa lv at? hleaf hlv hsize htgt hpin hhome hcas =>
      epochEnd_migrates hmig hcounts hrest hdie htarget hleaf hlv hsize htgt hpin hhome hcas,
    fun die ctx v at? e hwalk hdev hv hcold => ⟨fun h => pageExpansion_fault die hwalk hdev hv hcold h,
      fun cells f himage hfree => ?_⟩⟩
  · have hmove := invalidationComplete_move hno hm
    unfold homeLeaf coldLeaf readPage moveTaken at hmove
    exact hmove
  · have hexpand := pageExpansion_expands (die := die) hwalk hdev hv hcold himage hfree
    unfold expandLeaf at hexpand
    exact hexpand

end Sys2Proof.Machine
end

section
/-! Launches become grids (R72, R397, R412-R414, R419, R433). -/

namespace Sys2Proof.Machine

/-! ## Maps of the dispatcher -/

/-- A grid that is changed stands changed. -/
theorem grid?_onGrid_self {s : State} {gk : Nat} {g : Grid} (h : s.grid? gk = some g) (f : Grid → Grid) :
    (s.onGrid gk f).grid? gk = some (f g) := by
  have hmap : (s.onGrid gk f).grid? gk = (s.grid? gk).map f := NMap.get?_adjust_self ..
  rw [hmap, h]
  rfl

/-! ## Votes -/

/-- `t` differs from `s` in memory, the package, and the votes and the preferred die of a grid (R72). -/
structure State.votesOnly (gk : Nat) (s t : State) : Prop where
  work : { t.work with grids := s.work.grids } = s.work
  grid : ∀ g, s.grid? gk = some g → ∃ votes die, t.grid? gk = some { g with votes := votes, die := die }

theorem State.votesOnly.andThen {gk : Nat} {s t u : State} (h : s.votesOnly gk t) (k : t.votesOnly gk u) : s.votesOnly gk u where
  work := by rw [← h.work, ← k.work]
  grid g hg := by
    obtain ⟨v, d, ht⟩ := h.grid g hg
    obtain ⟨v', d', hu⟩ := k.grid _ ht
    exact ⟨v', d', hu⟩

theorem State.memoryOnly.votesOnly {s t : State} (h : s.memoryOnly t) (gk : Nat) : s.votesOnly gk t := by
  obtain ⟨-, -, -, hwork, -⟩ := h
  refine ⟨by rw [hwork], fun g hg => ⟨g.votes, g.die, ?_⟩⟩
  rw [State.grid?, hwork]
  exact hg

theorem votesOnly_onGrid (s : State) (gk : Nat) (votes : Grid → List Nat) (die : Grid → Option Nat) :
    s.votesOnly gk (s.onGrid gk fun g => { g with votes := votes g, die := die g }) :=
  ⟨rfl, fun g hg => ⟨votes g, die g, grid?_onGrid_self hg _⟩⟩

theorem memoryOnly_argValue (s : State) (ctx va : Nat) : s.memoryOnly (argValue s ctx va).2 := by
  unfold argValue
  split
  · exact s.memoryOnly_refl
  · split
    · dsimp only
      split
      · split
        · exact s.memoryOnly_refl
        · exact memoryOnly_touchPhys ..
      · exact s.memoryOnly_refl
      · exact s.memoryOnly_refl
    · exact s.memoryOnly_refl

theorem votesOnly_settleVotes (s : State) (gk : Nat) : s.votesOnly gk (settleVotes s gk) := by
  unfold settleVotes
  split
  · exact s.memoryOnly_refl.votesOnly gk
  · exact votesOnly_onGrid s gk Grid.votes fun g => preferredDie s g.votes

theorem votesOnly_foldl {α : Type} {gk : Nat} (l : List α) {f : State → α → State} (h : ∀ (s : State) a, s.votesOnly gk (f s a))
    (s : State) : s.votesOnly gk (l.foldl f s) := by
  induction l generalizing s with
  | nil => exact s.memoryOnly_refl.votesOnly gk
  | cons a l ih => exact (h s a).andThen (ih _)

theorem votesOnly_startVotes (s : State) (gk ctx args : Nat) : s.votesOnly gk (startVotes s gk ctx args) := by
  unfold startVotes
  refine (votesOnly_foldl _ (fun (s : State) i => ?_) s).andThen (votesOnly_settleVotes ..)
  have h := (memoryOnly_argValue s ctx (args + 8 * i)).votesOnly gk
  dsimp only
  generalize argValue s ctx (args + 8 * i) = r at h ⊢
  obtain ⟨v, t⟩ := r
  cases v with
  | absent => exact h
  | known v => exact h.andThen (votesOnly_onGrid t gk (fun g => addVote t ctx v g.votes) Grid.die)
  | asked l pa => exact h.andThen ((memoryOnly_sendRemote ..).votesOnly gk)

/-! ## Acceptance -/

/-- The number of a launch: its own, or a fresh one (R405, R414). -/
def takeId (s : State) (l : Launch) : Nat × State := match l.id with
  | some id => (id, s)
  | none => freshId s l.ctx

/-- The grid that a launch becomes (R412-R414, R419). -/
def newGrid (s : State) (l : Launch) (id : Nat) : Grid :=
  let h := Header.of l.hdr
  let refuse := if l.refuse = 0 then headerRefuse s l.hdr else l.refuse
  { id := id, ctx := l.ctx, hdr := { h with args := if l.args = 0 then h.args else l.args }, hdrAddr := l.hdrAddr
    level := l.level, origin := l.origin, parent := l.parent
    deps := if refuse = 0 then depKeys s l.ctx h.deps l.rel else [], prio := l.prio h.prio
    die := none, votes := [0, 0, 0, 0], next := 0
    total := if refuse = 0 then h.teams else 0, signals := 0, groups := 0, refuse := refuse, flags := 0, psub := 0
    horizon := 0, done := false, stopping := false }

/-- A grid enters under the next key. -/
def addGrid (s : State) (g : Grid) : State :=
  s.onWork fun w => { w with grids := NMap.set w.grids s.work.nextGrid g, nextGrid := s.work.nextGrid + 1 }

theorem acceptGrid_eq (s : State) (l : Launch) : acceptGrid s l =
    ((takeId s l).2.work.nextGrid,
      if (newGrid (takeId s l).2 l (takeId s l).1).refuse = 0 ∧ (newGrid (takeId s l).2 l (takeId s l).1).hdr.teams ≠ 0 then
        startVotes (addGrid (takeId s l).2 (newGrid (takeId s l).2 l (takeId s l).1)) (takeId s l).2.work.nextGrid l.ctx
          (newGrid (takeId s l).2 l (takeId s l).1).hdr.args.toNat
      else addGrid (takeId s l).2 (newGrid (takeId s l).2 l (takeId s l).1)) := rfl

/-- A fresh number is noted with its context alone. -/
theorem takeId_spec (s : State) (l : Launch) :
    (∀ id, l.id = some id → (takeId s l).1 = id) ∧ (takeId s l).2.ms = s.ms ∧ (takeId s l).2.pkg = s.pkg ∧
      { (takeId s l).2.work with ctxs := s.work.ctxs } = s.work := by
  unfold takeId
  cases l.id with
  | some id => exact ⟨fun _ h => Option.some.inj h, rfl, rfl, rfl⟩
  | none => exact ⟨fun _ h => (nomatch h), rfl, rfl, rfl⟩

/-- What an accepted launch leaves of the dispatcher's holdings: all but grids and contexts (R414). -/
structure State.acceptsOnly (s t : State) : Prop where
  work : { t.work with grids := s.work.grids, nextGrid := s.work.nextGrid, ctxs := s.work.ctxs } = s.work

theorem acceptsOnly_acceptGrid (s : State) (l : Launch) : s.acceptsOnly (acceptGrid s l).2 := by
  obtain ⟨-, -, -, hwork⟩ := takeId_spec s l
  rw [acceptGrid_eq]
  generalize takeId s l = r at hwork ⊢
  obtain ⟨id, s'⟩ := r
  dsimp only at hwork ⊢
  refine ⟨?_⟩
  split
  · have hvotes := (votesOnly_startVotes (addGrid s' (newGrid s' l id)) s'.work.nextGrid l.ctx
      (newGrid s' l id).hdr.args.toNat).work
    generalize startVotes _ _ _ _ = t at hvotes ⊢
    have hall : { t.work with grids := s.work.grids, nextGrid := s.work.nextGrid, ctxs := s.work.ctxs } =
        { ({ t.work with grids := (addGrid s' (newGrid s' l id)).work.grids } : Work) with
          grids := s.work.grids, nextGrid := s.work.nextGrid, ctxs := s.work.ctxs } := rfl
    rw [hall, hvotes, ← hwork]
    rfl
  · rw [← hwork]
    rfl

/-- A launch becomes the grid of the next key, refused or not; of its fields only the votes come from memory (R72, R412-R414). -/
theorem acceptGrid_spec (s : State) (l : Launch) :
    (acceptGrid s l).1 = s.work.nextGrid ∧ ∃ g, (acceptGrid s l).2.grid? s.work.nextGrid = some g ∧ g.ctx = l.ctx ∧
      (∀ id, l.id = some id → g.id = id) ∧ g.level = l.level ∧ g.parent = l.parent ∧ g.origin = l.origin ∧ g.done = false ∧
      g.next = 0 ∧ (l.refuse = 0 → g.refuse = headerRefuse s l.hdr) ∧
      g.total = (if g.refuse = 0 then (Header.of l.hdr).teams else 0) ∧ (g.refuse ≠ 0 → (acceptGrid s l).2.ms = s.ms) := by
  obtain ⟨hid, hms, hpkg, hwork⟩ := takeId_spec s l
  rw [acceptGrid_eq]
  generalize takeId s l = r at hid hms hpkg hwork ⊢
  obtain ⟨id, s'⟩ := r
  dsimp only at hid hms hpkg hwork ⊢
  have hnext : s'.work.nextGrid = s.work.nextGrid := (congrArg Work.nextGrid hwork :)
  have hgrid : (addGrid s' (newGrid s' l id)).grid? s'.work.nextGrid = some (newGrid s' l id) := NMap.get?_set_self ..
  have hrefuse : l.refuse = 0 → (newGrid s' l id).refuse = headerRefuse s l.hdr := by
    intro h
    show (if l.refuse = 0 then headerRefuse s' l.hdr else l.refuse) = _
    rw [if_pos h]
    unfold headerRefuse coreOffline unitIn scoreOf
    rw [hpkg]
  refine ⟨hnext, ?_⟩
  rw [← hnext]
  split
  · next h =>
    obtain ⟨v, d, hv⟩ := (votesOnly_startVotes (addGrid s' (newGrid s' l id)) s'.work.nextGrid l.ctx
      (newGrid s' l id).hdr.args.toNat).grid _ hgrid
    exact ⟨_, hv, rfl, hid, rfl, rfl, rfl, rfl, rfl, hrefuse, rfl, fun hne => absurd h.1 hne⟩
  · exact ⟨_, hgrid, rfl, hid, rfl, rfl, rfl, rfl, rfl, hrefuse, rfl, fun _ => hms⟩

/-! ## Device launches -/

/-- The state in which a die's queue of launches has lost its first. -/
def takeLaunch (s : State) (n : Nat) (rest : List DevLaunch) : State :=
  s.onWork fun w => { w with dlq := if rest.isEmpty then NMap.erase w.dlq n else NMap.set w.dlq n rest }

theorem dlqOf_takeLaunch (s : State) (n : Nat) (rest : List DevLaunch) : dlqOf (takeLaunch s n rest) n = rest := by
  show (NMap.get? (if rest.isEmpty then NMap.erase s.work.dlq n else NMap.set s.work.dlq n rest) n).getD [] = rest
  split
  · next h => rw [NMap.get?_erase_self, List.isEmpty_iff.1 h]; rfl
  · rw [NMap.get?_set_self]; rfl

/-- A child's grid is noted with its team, resident or saved (R397). -/
theorem noteChild_spec (s : State) (team id gk : Nat) : (noteChild s team id gk).ms = s.ms ∧
    { (noteChild s team id gk).work with teams := s.work.teams, saved := s.work.saved } = s.work := by
  unfold noteChild State.onTeam
  dsimp only
  split <;> exact ⟨rfl, rfl⟩

/-- The oldest launch of a die's queue becomes a grid of its team's (R397, R412, R433). -/
theorem launchAccept_spec {s : State} {n : Nat} {l : DevLaunch} {rest : List DevLaunch} (hq : dlqOf s n = l :: rest)
    (hhalt : ctxHalted s l.ctx = false) (hctx : (s.ctx? l.ctx).isSome = true) :
    ∃ t g, exec (.launchAccept n) s = .next t ∧ dlqOf t n = rest ∧ t.grid? s.work.nextGrid = some g ∧ g.ctx = l.ctx ∧
      g.id = l.id ∧ g.level = l.level + 1 ∧ g.parent = some l.grid ∧ g.origin = .team l.team ∧ g.done = false ∧ g.next = 0 ∧
      g.refuse = headerRefuse s l.hdr ∧ g.total = (if g.refuse = 0 then (Header.of l.hdr).teams else 0) ∧
      t.work.groups = s.work.groups ∧ (g.refuse ≠ 0 → t.ms = s.ms) := by
  have hexec : exec (.launchAccept n) s = execLaunchAccept n s := rfl
  unfold execLaunchAccept at hexec
  rw [hq] at hexec
  dsimp only at hexec
  rw [hhalt, if_neg Bool.false_ne_true] at hexec
  have hsome : ((takeLaunch s n rest).ctx? l.ctx).isNone = false := by
    rw [Option.isNone_eq_false_iff]
    exact hctx
  unfold takeLaunch at hsome
  rw [hsome, if_neg Bool.false_ne_true] at hexec
  have hdlq := dlqOf_takeLaunch s n rest
  unfold takeLaunch at hdlq
  generalize hx : (s.onWork _ : State) = x at hdlq hexec hsome
  have hxms : x.ms = s.ms := hx ▸ rfl
  have hxgroups : x.work.groups = s.work.groups := hx ▸ rfl
  have hxnext : x.work.nextGrid = s.work.nextGrid := hx ▸ rfl
  have hxrefuse : headerRefuse x l.hdr = headerRefuse s l.hdr := hx ▸ rfl
  generalize hL : (Launch.mk ..) = L at hexec
  obtain ⟨hkey, g, hg, gctx, gid, glevel, gparent, gorigin, gdone, gnext, grefuse, gtotal, gms⟩ := acceptGrid_spec x L
  have hwork := (acceptsOnly_acceptGrid x L).work
  generalize acceptGrid x L = r at hexec hkey hg gms hwork
  obtain ⟨gk, y⟩ := r
  dsimp only at hexec hkey hg gms hwork
  obtain ⟨nms, nwork⟩ := noteChild_spec y l.team l.id gk
  generalize noteChild y l.team l.id gk = t at hexec nms nwork
  subst hL
  rw [hxnext] at hg
  refine ⟨t, g, hexec, ?_, ?_, gctx, gid _ rfl, glevel, gparent, gorigin, gdone, gnext, (grefuse rfl).trans hxrefuse, gtotal, ?_,
    fun h => nms.trans ((gms h).trans hxms)⟩
  · have h1 : t.work.dlq = y.work.dlq := (congrArg Work.dlq nwork :)
    have h2 : y.work.dlq = x.work.dlq := (congrArg Work.dlq hwork :)
    rw [← hdlq, dlqOf, h1, h2, dlqOf]
  · have h1 : t.work.grids = y.work.grids := (congrArg Work.grids nwork :)
    rw [State.grid?, h1]
    exact hg
  · have h1 : t.work.groups = y.work.groups := (congrArg Work.groups nwork :)
    have h2 : y.work.groups = x.work.groups := (congrArg Work.groups hwork :)
    exact h1.trans (h2.trans hxgroups)

end Sys2Proof.Machine
end

section
/-! Admission of teams and of groups that a tray issued (R86, R190, R350, R354, R355, R359, R422-R427). -/

namespace Sys2Proof.Machine

/-! ## Modes and slots -/

/-- A cluster's mode and its L1s are all that a change of mode changes (R86). -/
theorem setMode_work (s : State) (core : Nat) (fuse : Bool) :
    { (setMode s core fuse).work with cores := s.work.cores } = s.work := by
  have hfold (l : List Nat) (s : State) :
      { (l.foldl (fun (s : State) i => (s.onWork fun w => { w with cores := NMap.set w.cores (clusterOf core * 4 + i) ⟨fuse⟩ }).onMs fun ms =>
        { ms with l1 := NMap.erase ms.l1 (clusterOf core * 4 + i)
                  l1marks := ms.l1marks.filter fun m => m.1 / 2 ^ 35 != clusterOf core * 4 + i }) s).work with
        cores := s.work.cores } = s.work := by
    induction l generalizing s with
    | nil => rfl
    | cons i l ih => exact congrArg (fun w : Work => { w with cores := s.work.cores }) (ih _)
  unfold setMode
  split
  · rfl
  · exact hfold ..

theorem setMode_group? (s : State) (core : Nat) (fuse : Bool) (k : Nat) : (setMode s core fuse).group? k = s.group? k :=
  congrArg (NMap.get? · k) (congrArg Work.groups (setMode_work s core fuse) :)

theorem freeSlots_setMode (s : State) (core : Nat) (fuse : Bool) (n : Nat) :
    freeSlots (setMode s core fuse) core n = freeSlots s core n := by
  unfold freeSlots
  simp only [setMode_group?]

/-- Groups that are placed are groups and last-page registers alone (R54). -/
theorem placeGroups_work (s : State) (core : Nat) (gs : List (Nat × Group)) :
    { (placeGroups s core gs).work with groups := s.work.groups } = s.work := by
  unfold placeGroups
  induction gs generalizing s with
  | nil => rfl
  | cons e gs ih => exact congrArg (fun w : Work => { w with groups := s.work.groups }) (ih _)

/-- In every slot that a group was placed in stands a group that was placed. -/
theorem placeGroups_group? {P : Group → Prop} {core i : Nat} {gs : List (Nat × Group)} (hP : ∀ e ∈ gs, P e.2) {s : State}
    (h : i ∈ gs.map Prod.fst ∨ ∃ g, s.group? (core * 32 + i) = some g ∧ P g) :
    ∃ g, (placeGroups s core gs).group? (core * 32 + i) = some g ∧ P g := by
  induction gs generalizing s with
  | nil => exact h.resolve_left List.not_mem_nil
  | cons e gs ih =>
    refine ih (fun e' he' => hP e' (List.mem_cons_of_mem _ he')) ?_
    by_cases hi : i = e.1
    · subst hi
      exact .inr ⟨e.2, State.group?_setGroup .., hP e List.mem_cons_self⟩
    · refine h.imp (fun hm => ?_) fun ⟨g, hg, hp⟩ => ⟨g, ?_, hp⟩
      · rw [List.map_cons, List.mem_cons] at hm
        exact hm.resolve_left hi
      · exact (State.group?_setGroup_ne _ _ (by omega)).trans hg

/-- A header's roles name one role for each group of its teams (R356). -/
theorem groupRoles_length (h : Header) : h.groupRoles.length = h.teamGroups := by
  unfold Header.groupRoles Header.teamGroups
  rw [List.length_flatMap]
  simp only [List.length_replicate]
  have hmap : h.roles.zipIdx.map (Role.groups ∘ Prod.fst) = h.roles.map Role.groups := by
    rw [← List.map_map, List.zipIdx_map_fst]
  exact congrArg List.sum hmap

/-! ## Teams of grids -/

/-- A grid's next team takes the lowest free slots of its core, a group in each (R350, R422). -/
theorem admitTeam_spec {s : State} {gk : Nat} {g : Grid} (hg : s.grid? gk = some g) (core : Nat) :
    ∃ m, (admitTeam s gk g core).team? s.work.nextTeam = some m ∧ m.grid = gk ∧ m.core = core ∧ m.index = g.next ∧ m.ctx = g.ctx ∧
      m.slots = freeSlots s core g.hdr.teamGroups ∧ m.scr.size = roundKiB g.hdr.scratch ∧ m.tray = false ∧
      (∀ i ∈ m.slots, ∃ h, (admitTeam s gk g core).group? (core * 32 + i) = some h ∧ h.info.team = s.work.nextTeam ∧
        h.info.grid = gk ∧ h.info.ctx = g.ctx) ∧
      (admitTeam s gk g core).grid? gk = some { g with
        next := g.next + 1, groups := g.groups + (m.slots.zip g.hdr.groupRoles.zipIdx).length } := by
  have hmode := setMode_work s core g.hdr.fuse
  have hslots := freeSlots_setMode s core g.hdr.fuse g.hdr.teamGroups
  unfold admitTeam
  dsimp only
  generalize setMode s core g.hdr.fuse = u at hmode hslots ⊢
  have hnext : u.work.nextTeam = s.work.nextTeam := (congrArg Work.nextTeam hmode :)
  have hgrids : u.work.grids = s.work.grids := (congrArg Work.grids hmode :)
  generalize hgs : List.map _ _ = gs
  generalize hm : newTeam gk g.ctx core g.next _ _ _ _ false = m
  have hlen : gs.length = (m.slots.zip g.hdr.groupRoles.zipIdx).length := by
    rw [← hgs, ← hm, List.length_map]
    rfl
  have hfst : gs.map Prod.fst = m.slots := by
    rw [← hgs, List.map_map, ← hm]
    show (List.map Prod.fst (List.zip (freeSlots u core g.hdr.teamGroups) g.hdr.groupRoles.zipIdx)) = _
    rw [List.map_fst_zip]
    · rfl
    · rw [List.length_zipIdx, groupRoles_length]
      exact List.length_take_le ..
  have hinfo : ∀ e ∈ gs, e.2.info.team = s.work.nextTeam ∧ e.2.info.grid = gk ∧ e.2.info.ctx = g.ctx := by
    intro e he
    rw [← hgs] at he
    obtain ⟨x, -, rfl⟩ := List.mem_map.1 he
    exact ⟨hnext, rfl, rfl⟩
  have hplaced (i : Nat) (hi : i ∈ gs.map Prod.fst) :=
    placeGroups_group? (P := fun h => h.info.team = s.work.nextTeam ∧ h.info.grid = gk ∧ h.info.ctx = g.ctx) (core := core) hinfo
      (s := u.setTeam u.work.nextTeam m) (.inl hi)
  have hwork := placeGroups_work (u.setTeam u.work.nextTeam m) core gs
  generalize placeGroups (u.setTeam u.work.nextTeam m) core gs = v at hplaced hwork ⊢
  have hteams : v.work.teams = NMap.set u.work.teams u.work.nextTeam m := (congrArg Work.teams hwork :)
  have hvgrids : v.work.grids = u.work.grids := (congrArg Work.grids hwork :)
  refine ⟨m, ?_, hm ▸ rfl, hm ▸ rfl, hm ▸ rfl, hm ▸ rfl, hm ▸ hslots, hm ▸ rfl, hm ▸ rfl, fun i hi => hplaced i (hfst ▸ hi), ?_⟩
  · show NMap.get? v.work.teams s.work.nextTeam = _
    rw [hteams, hnext, NMap.get?_set_self]
  · have hvg : v.grid? gk = some g := by
      rw [State.grid?, hvgrids, hgrids]
      exact hg
    rw [← hlen]
    exact grid?_onGrid_self (s := v.onWork fun w => { w with nextTeam := u.work.nextTeam + 1, nextSeq := w.nextSeq + 1 }) hvg
      fun g => { g with next := g.next + 1, groups := g.groups + gs.length }

/-! ## Groups of trays -/

/-- The grids of a tray's group count it: the other holdings stand as before (R355). -/
theorem countGroups_work (l : List Nat) (s : State) :
    { (l.foldl (fun (s : State) gk => s.onGrid gk fun g => { g with groups := g.groups + 1 }) s).work with grids := s.work.grids } =
      s.work := by
  induction l generalizing s with
  | nil => rfl
  | cons gk l ih => exact congrArg (fun w : Work => { w with grids := s.work.grids }) (ih _)

/-- A group that a tray issued becomes a team of its own (R354, R355, R426). -/
theorem admitTray_spec (s : State) (x : TrayGroup) (core : Nat) :
    ∃ m, (admitTray s x core).team? s.work.nextTeam = some m ∧ m.core = core ∧ m.ctx = x.ctx ∧ m.tray = true ∧
      m.slots = freeSlots s core 1 ∧ (admitTray s x core).work.trayGroups = s.work.trayGroups.filter fun y => y.seq != x.seq := by
  unfold admitTray
  extract_lets s₁ s₂ slots tk grids first handler prio info name gone g s₃ s₄
  have hmode : { s₂.work with cores := s₁.work.cores } = s₁.work := setMode_work s₁ core false
  have hslots : slots = freeSlots s core 1 := freeSlots_setMode s₁ core false 1
  have hnext : tk = s.work.nextTeam := (congrArg Work.nextTeam hmode :)
  have htrays : s₂.work.trayGroups = s.work.trayGroups.filter fun y => y.seq != x.seq := (congrArg Work.trayGroups hmode :)
  have hplaced := placeGroups_work (s₂.setTeam tk (newTeam first x.ctx core 0 (x.hdr.getD 0 0) (x.hdr.getD 1 0) slots
    (roundKiB (trayField x.hdr 415 397)) true)) core (slots.map fun i => (i, g))
  have hteams : s₃.work.teams = NMap.set s₂.work.teams tk (newTeam first x.ctx core 0 (x.hdr.getD 0 0) (x.hdr.getD 1 0) slots
    (roundKiB (trayField x.hdr 415 397)) true) := (congrArg Work.teams hplaced :)
  have htrays₃ : s₃.work.trayGroups = s₂.work.trayGroups := (congrArg Work.trayGroups hplaced :)
  have hcount := countGroups_work grids s₄
  refine ⟨newTeam first x.ctx core 0 (x.hdr.getD 0 0) (x.hdr.getD 1 0) slots (roundKiB (trayField x.hdr 415 397)) true, ?_, rfl, rfl,
    rfl, hslots, ?_⟩
  · have h : (grids.foldl (fun (s : State) gk => s.onGrid gk fun g => { g with groups := g.groups + 1 }) s₄).work.teams = s₃.work.teams :=
      (congrArg Work.teams hcount :)
    rw [State.team?, h, hteams, ← hnext, NMap.get?_set_self]
  · exact (congrArg Work.trayGroups hcount :).trans (htrays₃.trans htrays)

/-! ## The event -/

theorem teamAdmission_grid {s : State} {c : Candidate} {core : Nat} (hnext : nextAdmission s = some (c, [core]))
    (htray : c.tray = false) {g : Grid} (hg : s.grid? c.key = some g) :
    exec (.teamAdmission c.key) s = .next (admitTeam s c.key g core) := by
  show execTeamAdmission c.key s = _
  unfold execTeamAdmission
  rw [hnext]
  dsimp only
  rw [if_neg (not_not_intro rfl), htray, if_neg Bool.false_ne_true, List.foldl_cons, List.foldl_nil, hg]

theorem teamAdmission_tray {s : State} {c : Candidate} {core : Nat} (hnext : nextAdmission s = some (c, [core]))
    (htray : c.tray = true) {x : TrayGroup} (hx : s.work.trayGroups.find? (fun t => t.seq == c.key) = some x) :
    exec (.teamAdmission c.key) s = .next (admitTray s x core) := by
  show execTeamAdmission c.key s = _
  unfold execTeamAdmission
  rw [hnext]
  dsimp only
  rw [if_neg (not_not_intro rfl), htray, if_pos rfl, hx]

/-- The first candidate that can be admitted takes its core, as a grid's next team or as a tray's group (R190, R354, R422-R427). -/
theorem teamAdmission_spec {s : State} {c : Candidate} {core : Nat} (hnext : nextAdmission s = some (c, [core])) :
    (c.tray = false → ∀ g, s.grid? c.key = some g → ∃ t m, exec (.teamAdmission c.key) s = .next t ∧
      t.team? s.work.nextTeam = some m ∧ m.grid = c.key ∧ m.core = core ∧ m.index = g.next ∧ m.ctx = g.ctx ∧
      m.slots = freeSlots s core g.hdr.teamGroups ∧ m.scr.size = roundKiB g.hdr.scratch ∧ m.tray = false ∧
      (∀ i ∈ m.slots, ∃ h, t.group? (core * 32 + i) = some h ∧ h.info.team = s.work.nextTeam ∧ h.info.grid = c.key ∧
        h.info.ctx = g.ctx) ∧
      t.grid? c.key = some { g with
        next := g.next + 1, groups := g.groups + (m.slots.zip g.hdr.groupRoles.zipIdx).length }) ∧
    (c.tray = true → ∀ x, s.work.trayGroups.find? (fun t => t.seq == c.key) = some x →
      ∃ t m, exec (.teamAdmission c.key) s = .next t ∧ t.team? s.work.nextTeam = some m ∧ m.core = core ∧ m.ctx = x.ctx ∧
        m.tray = true ∧ m.slots = freeSlots s core 1 ∧ ∀ y ∈ t.work.trayGroups, y.seq ≠ c.key) := by
  refine ⟨fun htray g hg => ?_, fun htray x hx => ?_⟩
  · obtain ⟨m, hm⟩ := admitTeam_spec hg core
    exact ⟨_, m, teamAdmission_grid hnext htray hg, hm⟩
  · obtain ⟨m, hm, hcore, hctx, hmtray, hslots, htrays⟩ := admitTray_spec s x core
    refine ⟨_, m, teamAdmission_tray hnext htray hx, hm, hcore, hctx, hmtray, hslots, fun y hy heq => ?_⟩
    rw [htrays, List.mem_filter] at hy
    have hseq := List.find?_some hx
    simp only [beq_iff_eq] at hseq
    simp [hseq, heq] at hy

end Sys2Proof.Machine
end

section
/-! Complete grids, and the host launch queues (R63, R112, R352, R415-R418). -/

namespace Sys2Proof.Machine

/-! ## Places of queues -/

/-- What a queue's next entry is found by (R416). -/
def HostQueue.place (x : HostQueue) : Nat × Nat := (x.head, x.size)

/-- Every host queue stands at the same entry. -/
def State.placesKept (s t : State) : Prop := t.work.hq.map HostQueue.place = s.work.hq.map HostQueue.place

theorem State.placesKept.andThen {s t u : State} (h : s.placesKept t) (k : t.placesKept u) : s.placesKept u := Eq.trans k h

theorem placesKept_of_hq {s t : State} (h : t.work.hq = s.work.hq) : s.placesKept t := congrArg (List.map HostQueue.place) h

theorem State.lookupOnly.placesKept {s t : State} (h : s.lookupOnly t) : s.placesKept t :=
  placesKept_of_hq (congrArg Work.hq h.work :)

theorem State.memoryOnly.placesKept {s t : State} (h : s.memoryOnly t) : s.placesKept t := h.lookupOnly.placesKept

theorem State.placesKept.length {s t : State} (h : s.placesKept t) : t.work.hq.length = s.work.hq.length := by
  simpa only [List.length_map] using congrArg List.length h

theorem State.placesKept.place {s t : State} (h : s.placesKept t) (q : Nat) : (hqOf t q).place = (hqOf s q).place := by
  unfold hqOf
  rw [← List.getD_map (f := HostQueue.place), ← List.getD_map (f := HostQueue.place), h]

theorem State.placesKept.head {s t : State} (h : s.placesKept t) (q : Nat) : (hqOf t q).head = (hqOf s q).head :=
  congrArg Prod.fst (h.place q)

theorem State.placesKept.ring {s t : State} (h : s.placesKept t) (q : Nat) : (hqOf t q).ring = (hqOf s q).ring := by
  have hsize : (hqOf t q).size = (hqOf s q).size := congrArg Prod.snd (h.place q)
  unfold HostQueue.ring
  rw [hsize]

theorem placesKept_onHq (s : State) (q : Nat) {f : HostQueue → HostQueue} (h : ∀ x, (f x).place = x.place) :
    s.placesKept (onHq s q f) := by
  show ((s.work.hq.zipIdx.map _).map HostQueue.place) = _
  rw [List.map_map]
  have hmap : s.work.hq.zipIdx.map (HostQueue.place ∘ Prod.fst) = s.work.hq.map HostQueue.place := by
    rw [← List.map_map, List.zipIdx_map_fst]
  refine Eq.trans (List.map_congr_left fun x _ => ?_) hmap
  dsimp only [Function.comp_apply]
  split
  · exact h x.1
  · rfl

/-! ## Completion records -/

theorem lookupOnly_writeHqRecord (s : State) (e : HqEntry) : s.lookupOnly (writeHqRecord s e).2 := by
  unfold writeHqRecord
  dsimp only
  split
  · exact s.lookupOnly_refl
  · have h := lookupOnly_translateWalk s ioAgent e.ctx (e.cmp.toNat / 32 * 32) .write false
    generalize translateWalk s ioAgent e.ctx (e.cmp.toNat / 32 * 32) .write false = r at h ⊢
    obtain ⟨x, t⟩ := r
    cases x with
    | wait | denied => exact h
    | ok l pa =>
      dsimp only at h ⊢
      generalize hqRecord t e = rcd
      split
      · exact h.andThen (memoryOnly_agentWrite ..).lookupOnly
      · exact h.andThen (memoryOnly_sendRemote ..).lookupOnly

theorem settleEntry_ms (s : State) (q : Nat) (e : HqEntry) : (settleEntry s q e).ms = s.ms := by
  unfold settleEntry
  dsimp only
  cases e.grid <;> cases e.irq <;> rfl

theorem settleEntry_hq (s : State) (q : Nat) (e : HqEntry) :
    (settleEntry s q e).work.hq = (onHq s q fun x => { x with entries := x.entries.filter (· != e) }).work.hq := by
  unfold settleEntry
  dsimp only
  cases e.grid <;> cases e.irq <;> rfl

theorem placesKept_settleEntry (s : State) (q : Nat) (e : HqEntry) : s.placesKept (settleEntry s q e) :=
  (placesKept_onHq s q (f := fun x => { x with entries := x.entries.filter (· != e) }) fun _ => rfl).andThen
    (placesKept_of_hq (settleEntry_hq s q e))

theorem placesKept_foldl {α : Type} (l : List α) {f : State → α → State} (h : ∀ (s : State) a, s.placesKept (f s a)) (s : State) :
    s.placesKept (l.foldl f s) := by
  induction l generalizing s with
  | nil => rfl
  | cons a l ih => exact (h s a).andThen (ih _)

/-- Writes the record of one completed entry, if its page answers (R418). -/
def flushEntry (q : Nat) (s : State) (e : HqEntry) : State :=
  if (writeHqRecord s e).1 then settleEntry (writeHqRecord s e).2 q e else (writeHqRecord s e).2

theorem flushRecords_eq (s : State) (q : Nat) (mine : HqEntry → Bool) :
    flushRecords s q mine = ((hqOf s q).entries.filter fun e => e.done && mine e).foldl (flushEntry q) s := rfl

theorem placesKept_flushEntry (q : Nat) (s : State) (e : HqEntry) : s.placesKept (flushEntry q s e) := by
  have h := (lookupOnly_writeHqRecord s e).placesKept
  unfold flushEntry
  split
  · exact h.andThen (placesKept_settleEntry ..)
  · exact h

theorem placesKept_flushRecords (s : State) (q : Nat) (mine : HqEntry → Bool) : s.placesKept (flushRecords s q mine) :=
  placesKept_foldl _ (placesKept_flushEntry q) s

/-- An entry that asks for no record settles at once (R418). -/
theorem settleEntry_entries {s : State} {q : Nat} (hq : q < s.work.hq.length) (e : HqEntry) :
    (hqOf (settleEntry s q e) q).entries = (hqOf s q).entries.filter (· != e) := by
  obtain ⟨h, -⟩ := onlyQueue_onHq hq fun x => { x with entries := x.entries.filter (· != e) }
  unfold hqOf at h ⊢
  rw [settleEntry_hq, h]

/-- Entries that ask for no record leave their queue, and memory stands as before (R418). -/
theorem flushEntries_spec {q : Nat} {l : List HqEntry} (hl : ∀ e ∈ l, e.cmp = 0) {s : State} (hq : q < s.work.hq.length) :
    (l.foldl (flushEntry q) s).ms = s.ms ∧
      ∀ x ∈ (hqOf (l.foldl (flushEntry q) s) q).entries, x ∈ (hqOf s q).entries ∧ x ∉ l := by
  induction l generalizing s with
  | nil => exact ⟨rfl, fun x hx => ⟨hx, List.not_mem_nil⟩⟩
  | cons e l ih =>
    have hwrite : writeHqRecord s e = (true, s) := if_pos (.inl (hl e List.mem_cons_self))
    have hstep : flushEntry q s e = settleEntry s q e := by
      unfold flushEntry
      rw [hwrite, if_pos rfl]
    rw [List.foldl_cons, hstep]
    obtain ⟨hms, hmem⟩ := ih (fun x hx => hl x (List.mem_cons_of_mem _ hx)) (s := settleEntry s q e)
      ((placesKept_settleEntry s q e).length ▸ hq)
    refine ⟨hms.trans (settleEntry_ms ..), fun x hx => ?_⟩
    obtain ⟨hin, hout⟩ := hmem x hx
    rw [settleEntry_entries hq, List.mem_filter, bne_iff_ne] at hin
    exact ⟨hin.1, List.not_mem_cons_of_ne_of_not_mem hin.2 hout⟩

/-! ## Complete grids -/

/-- A grid that is complete is marked, and its parent learns of trouble (R415). -/
def markGrid (s : State) (gk : Nat) (g : Grid) : State :=
  let s := s.onGrid gk fun x => { x with done := true }
  match g.parent with
  | some p => if g.troubled then setGridFlag s p 3 else s
  | none => s

theorem markGrid_spec (s : State) (gk : Nat) (g : Grid) :
    (markGrid s gk g).ms = s.ms ∧ { (markGrid s gk g).work with grids := s.work.grids } = s.work := by
  unfold markGrid
  dsimp only
  cases g.parent with
  | none => exact ⟨rfl, rfl⟩
  | some p => dsimp only; split <;> exact ⟨rfl, rfl⟩

theorem gridComplete_eq {s : State} {gk : Nat} {g : Grid} (hg : s.grid? gk = some g) (hover : gridOver s gk = true) :
    exec (.gridComplete gk) s = .next (match g.origin with
      | .team t => (giveStatus (markGrid s gk g) t gk g.status).onWork fun w => { w with grids := NMap.erase w.grids gk }
      | .host q _ => flushRecords (onHq (markGrid s gk g) q fun x =>
          { x with entries := x.entries.map fun e => if e.grid = some gk then { e with done := true } else e }) q fun e =>
            e.grid == some gk) := by
  show execGridComplete gk s = _
  unfold execGridComplete
  rw [hg]
  dsimp only
  rw [hover, if_pos rfl]
  unfold completeGrid
  rw [hg]
  rfl

/-- A child's status stands with its team (R398, R415). -/
theorem giveStatus_team? {s : State} {tk : Nat} {m : Team} (h : s.team? tk = some m) (gk : Nat) (st : W64) :
    (giveStatus s tk gk st).team? tk = some { m with
      children := m.children.map fun c => if c.grid = some gk then { c with status := some st } else c } := by
  unfold giveStatus State.onTeam
  rw [h]
  exact State.team?_setTeam s tk _

/-- A complete grid tells its team (R415). -/
theorem gridComplete_team {s : State} {gk tk : Nat} {g : Grid} {m : Team} (hg : s.grid? gk = some g) (hover : gridOver s gk = true)
    (horigin : g.origin = .team tk) (hm : s.team? tk = some m) :
    ∃ t, exec (.gridComplete gk) s = .next t ∧ t.grid? gk = none ∧ t.team? tk = some { m with
      children := m.children.map fun c => if c.grid = (some gk) then { c with status := some g.status } else c } := by
  have hexec := gridComplete_eq hg hover
  obtain ⟨-, hwork⟩ := markGrid_spec s gk g
  generalize markGrid s gk g = u at hexec hwork
  rw [horigin] at hexec
  have hteam : u.team? tk = some m := by
    have hteams : u.work.teams = s.work.teams := (congrArg Work.teams hwork :)
    rw [State.team?, hteams]
    exact hm
  dsimp only at hexec
  exact ⟨_, hexec, NMap.get?_erase_self .., giveStatus_team? hteam gk g.status⟩

/-- A complete grid tells its host queue, and entries that ask for no record leave it (R418). -/
theorem gridComplete_host {s : State} {gk q n : Nat} {g : Grid} (hg : s.grid? gk = some g) (hover : gridOver s gk = true)
    (horigin : g.origin = .host q n) (hq : q < s.work.hq.length) (hcmp : ∀ e ∈ (hqOf s q).entries, e.grid = some gk → e.cmp = 0) :
    ∃ t, exec (.gridComplete gk) s = .next t ∧ (∀ e ∈ (hqOf t q).entries, e.grid ≠ some gk) ∧ t.ms = s.ms := by
  have hexec := gridComplete_eq hg hover
  obtain ⟨hms, hwork⟩ := markGrid_spec s gk g
  generalize markGrid s gk g = u at hexec hms hwork
  rw [horigin] at hexec
  dsimp only at hexec
  rw [flushRecords_eq] at hexec
  have hhq : u.work.hq = s.work.hq := (congrArg Work.hq hwork :)
  obtain ⟨hv, -, hvms, -⟩ := onlyQueue_onHq (hhq ▸ hq : q < u.work.hq.length) fun x =>
    { x with entries := x.entries.map fun e => if e.grid = some gk then { e with done := true } else e }
  have hlen := (placesKept_onHq u q (f := fun x =>
    { x with entries := x.entries.map fun e => if e.grid = some gk then { e with done := true } else e }) fun _ => rfl).length
  generalize onHq u q _ = v at hexec hv hvms hlen
  have hu : hqOf u q = hqOf s q := by rw [hqOf, hhq]; rfl
  rw [hu] at hv
  have hentries : ∀ e ∈ (hqOf v q).entries, e.grid = some gk → e.cmp = 0 ∧ e.done = true := by
    intro e he hgk
    rw [hv] at he
    obtain ⟨x, hx, rfl⟩ := List.mem_map.1 he
    by_cases hxg : x.grid = some gk
    · rw [if_pos hxg]
      exact ⟨hcmp x hx hxg, rfl⟩
    · rw [if_neg hxg] at hgk
      exact absurd hgk hxg
  have hl : ∀ e ∈ (hqOf v q).entries.filter (fun e => e.done && e.grid == some gk), e.cmp = 0 := by
    intro e he
    obtain ⟨hmem, hp⟩ := List.mem_filter.1 he
    rw [Bool.and_eq_true, beq_iff_eq] at hp
    exact (hentries e hmem hp.2).1
  obtain ⟨hflush, hmem⟩ := flushEntries_spec hl (hlen.trans (congrArg List.length hhq) ▸ hq : q < v.work.hq.length)
  refine ⟨_, hexec, fun e he hgk => ?_, hflush.trans (hvms.trans hms)⟩
  obtain ⟨hin, hout⟩ := hmem e he
  exact hout (List.mem_filter.2 ⟨hin, by rw [(hentries e hin hgk).2, hgk, beq_self_eq_true]; rfl⟩)

end Sys2Proof.Machine
end

section
/-! The entries of host launch queues (R63, R412-R418). -/

namespace Sys2Proof.Machine

/-! ## What an entry's lookups leave -/

theorem lookupOnly_foldl {α : Type} (l : List α) {f : State → α → State} (h : ∀ (s : State) a, s.lookupOnly (f s a)) (s : State) :
    s.lookupOnly (l.foldl f s) := by
  induction l generalizing s with
  | nil => exact s.lookupOnly_refl
  | cons a l ih => exact (h s a).andThen (ih _)

theorem memoryOnly_endRequest (s : State) (n : Nat) : s.memoryOnly (endRequest s n) := memoryOnly_onPkg ..

theorem memoryOnly_dropRecords (s : State) : s.memoryOnly (dropRecords s) :=
  memoryOnly_foldl _ (fun (s : State) (r : OutReq) => memoryOnly_endRequest s r.n) s

theorem memoryOnly_touchHead (s : State) (q : Nat) : s.memoryOnly (touchHead s q) := by
  unfold touchHead
  dsimp only
  split
  · exact s.memoryOnly_refl
  · exact (memoryOnly_touchPhys ..).andThen (memoryOnly_touchPhys ..)

/-- A context is read into the list of contexts alone (R411). -/
theorem loadCtx_work (s : State) (desc : Nat) : { (loadCtx s desc).2.work with ctxs := s.work.ctxs } = s.work := by
  obtain ⟨-, -, -, hwork, -⟩ := memoryOnly_touchPhys s desc 64 0
  unfold loadCtx
  dsimp only
  generalize touchPhys s desc 64 0 = t at hwork ⊢
  rw [← hwork]
  split <;> rfl

theorem memoryOnly_setDev (s : State) (ctx va : Nat) (on : Bool) : s.memoryOnly (setDev s ctx va on) := by
  unfold setDev
  split
  · next lv a e _ =>
    dsimp only
    generalize (if on then w64 e ||| 0x80 else w64 e &&& ~~~(0x80 : W64)) = new
    split
    · exact (memoryOnly_foldl _ (fun (s : State) d => memoryOnly_flushPage s d _ _) s).andThen (memoryOnly_casLeaf ..)
    · exact memoryOnly_casLeaf ..
  · exact s.memoryOnly_refl

/-- Handing a range over is lookups, leaves and an invalidation (R63). -/
theorem lookupOnly_handRange (s : State) (ctx base units : Nat) (on : Bool) : s.lookupOnly (handRange s ctx base units on) := by
  unfold handRange
  dsimp only
  refine (lookupOnly_foldl _ (fun (s : State) i => ?_) s).andThen (lookupOnly_invalidateRange ..)
  have hmany (va : Nat) : s.lookupOnly ((List.range 32).foldl (fun s j => setDev s ctx (va + j * 2 ^ 16) on) s) :=
    (memoryOnly_foldl _ (fun (s : State) j => memoryOnly_setDev s ctx (va + j * 2 ^ 16) on) s).lookupOnly
  split
  · exact hmany _
  · exact hmany _
  · exact (memoryOnly_setDev ..).lookupOnly

theorem lookupOnly_readHeader (s : State) (q ctx addr : Nat) : s.lookupOnly (readHeader s q ctx addr).2 := by
  unfold readHeader
  dsimp only
  split
  · split
    · exact s.lookupOnly_refl
    · split <;> exact (memoryOnly_endRequest ..).lookupOnly
  · split
    · exact s.lookupOnly_refl
    · split
      · exact s.lookupOnly_refl
      · have h := lookupOnly_translateWalk s ioAgent ctx addr .read false
        generalize translateWalk s ioAgent ctx addr .read false = r at h ⊢
        obtain ⟨x, t⟩ := r
        cases x with
        | wait | denied => exact h
        | ok l pa =>
          dsimp only at h ⊢
          split
          · split <;> exact h.andThen (memoryOnly_touchPhys ..).lookupOnly
          · have hsend := h.andThen (memoryOnly_sendRemote t (.held (nobody + 1 + q) 0 32) ⟨ctx, [], 0⟩ l pa addr (.read 128)
              false).lookupOnly
            generalize sendRemote t (.held (nobody + 1 + q) 0 32) ⟨ctx, [], 0⟩ l pa addr (.read 128) false = y at hsend ⊢
            split <;> exact hsend

/-! ## Entries taken -/

/-- The state in which the dispatcher looks at a queue's head: the records that could be written are (R418). -/
def lookedAt (s : State) (q : Nat) (mine : HqEntry → Bool) : State := touchHead (dropRecords (flushRecords s q mine)) q

theorem placesKept_lookedAt (s : State) (q : Nat) (mine : HqEntry → Bool) : s.placesKept (lookedAt s q mine) :=
  ((placesKept_flushRecords s q mine).andThen (memoryOnly_dropRecords ..).placesKept).andThen (memoryOnly_touchHead ..).placesKept

theorem placesKept_loadCtx (s : State) (desc : Nat) : s.placesKept (loadCtx s desc).2 :=
  placesKept_of_hq (congrArg Work.hq (loadCtx_work s desc) :)

/-- An entry that is taken moves its queue's head by one (R417). -/
theorem hqTake_head {s t : State} {q : Nat} (h : s.placesKept t) (hq : q < s.work.hq.length) (ctx : Nat) (e : List W64)
    (grid : Option Nat) (refuse : Nat) (over' : Bool) :
    (hqOf (hqTake t q ctx e grid refuse over') q).head = ((hqOf s q).head + 1) % (hqOf s q).ring := by
  obtain ⟨hx, -⟩ := onlyQueue_onHq (h.length ▸ hq : q < t.work.hq.length) fun x =>
    { x with head := (x.head + 1) % x.ring
             entries := x.entries ++ [⟨x.head, ctx, hqOp e, grid, e.getD 3 0, (e.getD 0 0).getLsbD 8, refuse, over', false⟩]
             launches := match grid with
               | some gk => gk :: x.launches.take 254
               | none => x.launches }
  have htake : (hqOf (hqTake t q ctx e grid refuse over') q).head = ((hqOf t q).head + 1) % (hqOf t q).ring :=
    congrArg HostQueue.head hx
  rw [htake, h.head, h.ring]

theorem hqAct_eq (s : State) (q op : Nat) (ready : Bool) (act : State → Nat → List W64 → State) :
    let a := lookedAt s q fun x => x.op == op
    let b := loadCtx a (hqOf a q).desc
    hqAct s q op ready act = match hqHead a q with
      | none => a
      | some (_, e) =>
        if hqMalformed e || hqOp e != op || !ready then a
        else flushRecords (hqTake (act b.2 b.1 e) q b.1 e none 0 true) q fun x => x.op == op := rfl

/-- An entry that acts at its queue's head: it acts, is taken, and its record is written where it can be (R63, R418). -/
theorem hqAct_spec {s : State} {q ctx op : Nat} {e : List W64} {ready : Bool} {f : Nat → State → State}
    (hf : ∀ c (x : State), x.placesKept (f c x)) (hq : q < s.work.hq.length) {act : State → Nat → List W64 → State}
    (hact : ∀ x c, act x c e = f c x) {i : Instr} (hi : exec i s = .next (hqAct s q op ready act)) :
    let a := lookedAt s q fun x => x.op == op
    hqHead a q = some (ctx, e) → hqMalformed e = false → hqOp e = op → ready = true →
    let b := loadCtx a (hqOf a q).desc
    ∃ t, exec i s = .next t ∧ (hqOf t q).head = ((hqOf a q).head + 1) % (hqOf a q).ring ∧
      t = flushRecords (hqTake (f b.1 b.2) q b.1 e none 0 true) q fun x => x.op == op := by
  intro a hhead hok hop hready b
  have hlen : a.work.hq.length = s.work.hq.length := (placesKept_lookedAt s q fun x => x.op == op).length
  have hb : a.placesKept b.2 := placesKept_loadCtx a (hqOf a q).desc
  have heq : hqAct s q op ready act = flushRecords (hqTake (f b.1 b.2) q b.1 e none 0 true) q fun x => x.op == op := by
    rw [hqAct_eq, hhead]
    dsimp only
    rw [hok, hop, hready, bne_self_eq_false, if_neg (by decide), hact]
  refine ⟨_, hi.trans (congrArg _ heq), ?_, rfl⟩
  rw [(placesKept_flushRecords ..).head]
  exact hqTake_head (hb.andThen (hf b.1 b.2)) (hlen ▸ hq) ..

/-! ## Launches -/

/-- A queue's LAUNCH becomes a grid of the queue's (R412-R417). -/
theorem hqAccept_spec {s : State} {q : Nat} (hq : q < s.work.hq.length) (e hdr : List W64) :
    ∃ g, (hqAccept s q e hdr 0).grid? s.work.nextGrid = some g ∧ g.origin = .host q (hqOf s q).head ∧ g.level = 1 ∧
      g.parent = none ∧ g.done = false ∧ g.next = 0 ∧ g.refuse = headerRefuse (loadCtx s (hqOf s q).desc).2 hdr ∧
      (hqOf (hqAccept s q e hdr 0) q).head = ((hqOf s q).head + 1) % (hqOf s q).ring := by
  have hload := loadCtx_work s (hqOf s q).desc
  have hplaces := placesKept_loadCtx s (hqOf s q).desc
  unfold hqAccept
  dsimp only
  generalize loadCtx s (hqOf s q).desc = b at hload hplaces ⊢
  obtain ⟨ctx, t⟩ := b
  dsimp only at hload hplaces ⊢
  have hnext : t.work.nextGrid = s.work.nextGrid := (congrArg Work.nextGrid hload :)
  generalize hL : (Launch.mk ..) = L
  obtain ⟨-, g, hg, -, -, glevel, gparent, gorigin, gdone, gnext, grefuse, -⟩ := acceptGrid_spec t L
  have haccept : t.placesKept (acceptGrid t L).2 := placesKept_of_hq (congrArg Work.hq (acceptsOnly_acceptGrid t L).work :)
  generalize acceptGrid t L = r at hg haccept ⊢
  subst hL
  exact ⟨g, hnext ▸ hg, gorigin, glevel, gparent, gdone, gnext, grefuse rfl, hqTake_head (hplaces.andThen haccept) hq ..⟩

/-- A LAUNCH whose header can be read is accepted (R418). -/
theorem hqLaunch_spec {s : State} {q ctx : Nat} {e hdr : List W64} (hq : q < s.work.hq.length)
    (hhead : hqHead (lookedAt s q fun e => e.op == 1 || e.refuse != 0) q = some (ctx, e)) (hop : hqOp e = 1)
    (hok : hqMalformed e = false) {r : State}
    (hread : readHeader (loadCtx (lookedAt s q fun e => e.op == 1 || e.refuse != 0)
      (hqOf (lookedAt s q fun e => e.op == 1 || e.refuse != 0) q).desc).2 q ctx (e.getD 1 0).toNat = (.words hdr, r)) :
    ∃ t g, exec (.hqLaunch q) s = .next t ∧ t.grid? r.work.nextGrid = some g ∧ g.origin = .host q (hqOf r q).head ∧
      g.level = 1 ∧ g.parent = none ∧ g.done = false ∧ g.next = 0 ∧
      g.refuse = headerRefuse (loadCtx r (hqOf r q).desc).2 hdr ∧ (hqOf t q).head = ((hqOf r q).head + 1) % (hqOf r q).ring := by
  have hlen := (placesKept_lookedAt s q fun e => e.op == 1 || e.refuse != 0).length
  have hexec : exec (.hqLaunch q) s = .next (hqAccept r q e hdr 0) := by
    show execHqLaunch q s = _
    unfold execHqLaunch
    have hlaunch : hqLaunches e = true := by
      unfold hqLaunches
      rw [hok, hop]
      rfl
    unfold lookedAt at hhead hread
    dsimp only
    generalize touchHead _ q = a at hhead hread ⊢
    rw [hhead]
    dsimp only
    rw [hlaunch, hop, hok, if_neg (by decide), if_neg (by decide), if_neg (by decide), hread]
  have hr : (lookedAt s q fun e => e.op == 1 || e.refuse != 0).placesKept r := by
    have hb := placesKept_loadCtx (lookedAt s q fun e => e.op == 1 || e.refuse != 0)
      (hqOf (lookedAt s q fun e => e.op == 1 || e.refuse != 0) q).desc
    have h := (lookupOnly_readHeader (loadCtx (lookedAt s q fun e => e.op == 1 || e.refuse != 0)
      (hqOf (lookedAt s q fun e => e.op == 1 || e.refuse != 0) q).desc).2 q ctx (e.getD 1 0).toNat).placesKept
    rw [hread] at h
    exact hb.andThen h
  obtain ⟨g, hg, gorigin, glevel, gparent, gdone, gnext, grefuse, ghead⟩ :=
    hqAccept_spec ((hr.length.trans hlen) ▸ hq : q < r.work.hq.length) e hdr
  exact ⟨_, g, hexec, hg, gorigin, glevel, gparent, gdone, gnext, grefuse, ghead⟩

end Sys2Proof.Machine
end

section
/-! Restored units, saved contexts, and tear-downs (R345, R432, R433, R442-R446). -/

namespace Sys2Proof.Machine

/-! ## Restored units -/

theorem traceNote_saved (s : State) (k split ty payload : Nat) : (traceNote s k split ty payload).work.saved = s.work.saved := by
  obtain ⟨-, -, -, -, -, -, hwork, -⟩ := traceNote_spec s k split ty payload
  exact (congrArg Work.saved hwork :)

theorem traceSync_saved (s : State) (k split : Nat) : (traceSync s k split).work.saved = s.work.saved := by
  unfold traceSync
  dsimp only
  split
  · rfl
  · split <;> rfl

theorem slogReturn_saved (s : State) (core : Nat) (e : SlogEntry) : (slogReturn s core e).work.saved = s.work.saved := by
  unfold slogReturn
  dsimp only
  split <;> rfl

theorem enqueueCopy_saved (s : State) (c : CopyCmd) : (enqueueCopy s c).work.saved = s.work.saved := rfl

theorem onTeam_saved (s : State) (k : Nat) (f : Team → Team) : (s.onTeam k f).work.saved = s.work.saved := by
  unfold State.onTeam
  split <;> rfl

/-- A unit that returns is no longer saved; every other one is (R446). -/
theorem restoreUnit_saved (s : State) (x : Saved) (core : Nat) :
    (restoreUnit s x core).work.saved = s.work.saved.filter fun y => y.seq != x.seq := by
  unfold restoreUnit
  extract_lets s₁ s₂ slots names f s₃ s₄ team s₅ s₆ s₇ q s₈ s₉
  have h₂ : s₂.work.saved = s₁.work.saved := by
    show (if x.single then s₁ else setMode s₁ core (savedGrid s₁ x).1).work.saved = _
    split
    · rfl
    · exact (congrArg Work.saved (setMode_work s₁ core (savedGrid s₁ x).1) :)
  have h₄ : s₄.work.saved = s₃.work.saved := (congrArg Work.saved (placeGroups_work s₃ core _) :)
  have h₅ : s₅.work.saved = s₄.work.saved := by
    show (if x.single then s₄.onTeam x.teamKey _ else _ : State).work.saved = _
    split
    · exact onTeam_saved ..
    · rfl
  have h₇ : s₇.work.saved = s₆.work.saved := State.foldl_keeps (fun s => s.work.saved) _ (fun s _ => enqueueCopy_saved s _) s₆
  have h₉ : s₉.work.saved = s₈.work.saved := State.foldl_keeps (fun s => s.work.saved) _ (fun s _ => slogReturn_saved s core _) s₈
  refine (State.foldl_keeps (fun s => s.work.saved) names (fun s n => ?_) s₉).trans
    (h₉.trans (h₇.trans (h₅.trans (h₄.trans h₂))))
  dsimp only
  split
  · rfl
  · split
    · exact (traceNote_saved ..).trans (traceSync_saved ..)
    · exact traceNote_saved ..

/-- Units that return together are no longer saved (R359, R446). -/
theorem restoreUnits_saved (l : List (Saved × Nat)) (s : State) :
    ∀ y ∈ (l.foldl (fun s e => restoreUnit s e.1 e.2) s).work.saved, y ∈ s.work.saved ∧ ∀ e ∈ l, y.seq ≠ e.1.seq := by
  induction l generalizing s with
  | nil => exact fun y hy => ⟨hy, fun _ h => absurd h List.not_mem_nil⟩
  | cons a l ih =>
    intro y hy
    obtain ⟨hin, hrest⟩ := ih _ y hy
    rw [restoreUnit_saved, List.mem_filter, bne_iff_ne] at hin
    exact ⟨hin.1, List.forall_mem_cons.2 ⟨hin.2, hrest⟩⟩

/-- The unit that returns next is saved. -/
theorem mem_of_nextRestore {s : State} {x : Saved} (h : nextRestore s = some x) : x ∈ s.work.saved := by
  have hfold (l : List Saved) (b : Option Saved) (hb : ∀ y, b = some y → y ∈ s.work.saved) (hl : ∀ y ∈ l, y ∈ s.work.saved) :
      ∀ y, l.foldl (fun (b : Option Saved) x => match b with
        | some y => if (savedGrid s y).2.1 < (savedGrid s x).2.1 then some x else b
        | none => some x) b = some y → y ∈ s.work.saved := by
    induction l generalizing b with
    | nil => exact hb
    | cons a l ih =>
      have ha := hl a List.mem_cons_self
      refine ih _ (fun y hy => ?_) fun y hy => hl y (List.mem_cons_of_mem _ hy)
      cases b with
      | none => exact Option.some.inj hy ▸ ha
      | some z =>
        dsimp only at hy
        split at hy
        · exact Option.some.inj hy ▸ ha
        · exact hb y hy
  exact hfold _ none (fun y hy => (nomatch hy)) (fun y hy => (List.mem_filter.1 hy).1) x h

/-- A unit returns with itself among those that return (R359, R446). -/
theorem mem_restoreSet {s : State} {x : Saved} (h : x ∈ s.work.saved) : x ∈ restoreSet s x := by
  unfold restoreSet
  split
  · next hall =>
    rw [Bool.and_eq_true, Bool.and_eq_true] at hall
    obtain ⟨⟨hgrid, h1⟩, h3⟩ := hall
    have htray : x.team.tray = false := by
      by_contra hne
      unfold savedGrid at hgrid
      rw [Bool.not_eq_false] at hne
      rw [hne] at hgrid
      split at hgrid <;> exact absurd hgrid Bool.false_ne_true
    refine List.mem_filter.2 ⟨h, ?_⟩
    rw [beq_self_eq_true, htray, h1, h3]
    rfl
  · exact List.mem_singleton.2 rfl

/-- Units that are placed take a core each. -/
theorem restorePlaces_length {s : State} {blocked : List Nat} {l : List Saved} {extra : List (Nat × Need)} {cores : List Nat}
    (h : restorePlaces s blocked l extra = some cores) : cores.length = l.length := by
  induction l generalizing extra cores with
  | nil => exact congrArg List.length (Option.some.inj h).symm
  | cons x l ih =>
    unfold restorePlaces at h
    dsimp only at h
    split at h
    · cases h
    · obtain ⟨rest, hrest, rfl⟩ := Option.map_eq_some_iff.1 h
      exact congrArg (· + 1) (ih hrest)

/-- A saved unit returns, with those it returns with; none of them stays saved (R446). -/
theorem groupRestore_spec {s : State} {x : Saved} {cores : List Nat} (hx : nextRestore s = some x)
    (hcores : restoreAt s x = some cores) :
    ∃ t, exec (.groupRestore x.seq) s = .next t ∧ ∀ y ∈ t.work.saved, y ∈ s.work.saved ∧ y.seq ≠ x.seq := by
  have hexec : exec (.groupRestore x.seq) s =
      .next (resumeOver (((restoreSet s x).zip cores).foldl (fun s e => restoreUnit s e.1 e.2) s)) := by
    show execGroupRestore x.seq s = _
    unfold execGroupRestore
    rw [hx]
    dsimp only
    rw [if_neg (not_not_intro rfl), hcores]
  have hlen : cores.length = (restoreSet s x).length := by
    unfold restoreAt at hcores
    split at hcores
    · exact restorePlaces_length hcores
    · cases hcores
  have hmem : x ∈ ((restoreSet s x).zip cores).map Prod.fst := by
    rw [List.map_fst_zip (Nat.le_of_eq hlen.symm)]
    exact mem_restoreSet (mem_of_nextRestore hx)
  obtain ⟨e, he, hfst⟩ := List.mem_map.1 hmem
  obtain ⟨b, hover⟩ := resumeOver_eq (((restoreSet s x).zip cores).foldl (fun s e => restoreUnit s e.1 e.2) s)
  rw [hover] at hexec
  refine ⟨_, hexec, fun y hy => ?_⟩
  obtain ⟨hin, hne⟩ := restoreUnits_saved _ s y hy
  exact ⟨hin, hfst ▸ hne e he⟩

/-! ## Saved contexts -/

theorem settleFences_work (s : State) (core : Nat) : (settleFences s core).work = s.work := by
  unfold settleFences
  refine State.foldl_keeps State.work _ (fun s n => ?_) s
  split <;> rfl

theorem NMap.get?_ne_none_of_mem {α : Type} {m : NMap α} {e : Nat × α} (h : e ∈ m) : NMap.get? m e.1 ≠ none := by
  induction m with
  | nil => cases h
  | cons a m ih =>
    unfold NMap.get?
    split
    · exact Option.some_ne_none _
    · next hne => exact ih ((List.mem_cons.1 h).resolve_left fun heq => hne (congrArg Prod.fst heq.symm))

/-- A team that is saved whole leaves; contexts stand as before (R444, R445). -/
theorem saveGroups_spec (s : State) (tk : Nat) (ks : List Nat) (reason : Nat) :
    (saveGroups s tk ks true reason).work.ctxs = s.work.ctxs ∧
      ∀ e ∈ (saveGroups s tk ks true reason).work.teams, e ∈ s.work.teams ∧ e.1 ≠ tk := by
  unfold saveGroups
  split
  · next hnone => exact ⟨rfl, fun e he => ⟨he, fun heq => NMap.get?_ne_none_of_mem he (heq ▸ hnone)⟩⟩
  · next team _ =>
    extract_lets seq core cl s₁ keys gs blocks ms mine running q copies past colls logs ids s₂ s₃ s₄ s₅ s₆ left saved s₇
    have hdrop : s₆.work.ctxs = s₅.work.ctxs ∧ s₆.work.teams = s₅.work.teams :=
      ⟨State.foldl_keeps (fun s => s.work.ctxs) ks (f := State.dropGroup) (fun _ _ => rfl) s₅,
        State.foldl_keeps (fun s => s.work.teams) ks (f := State.dropGroup) (fun _ _ => rfl) s₅⟩
    rw [settleFences_work]
    refine ⟨hdrop.1, fun e he => ?_⟩
    have hmem := List.mem_filter.1 (he : e ∈ NMap.erase s₆.work.teams tk)
    exact ⟨hdrop.2 ▸ hmem.1, bne_iff_ne.1 hmem.2⟩

theorem saveTeams_spec (tks : List Nat) (s : State) :
    let t := tks.foldl (fun s tk => saveGroups s tk (teamKeys s tk) true 0) s
    t.work.ctxs = s.work.ctxs ∧ ∀ e ∈ t.work.teams, e ∈ s.work.teams ∧ e.1 ∉ tks := by
  induction tks generalizing s with
  | nil => exact ⟨rfl, fun e he => ⟨he, List.not_mem_nil⟩⟩
  | cons tk tks ih =>
    obtain ⟨hctxs, hteams⟩ := saveGroups_spec s tk (teamKeys s tk) 0
    obtain ⟨hctxs', hteams'⟩ := ih (saveGroups s tk (teamKeys s tk) true 0)
    refine ⟨hctxs'.trans hctxs, fun e he => ?_⟩
    obtain ⟨hin, hout⟩ := hteams' e he
    obtain ⟨hin', hne⟩ := hteams e hin
    exact ⟨hin', List.not_mem_cons_of_ne_of_not_mem hne hout⟩

/-- A context's save ends: its teams and its side-log entries have left (R442, R444, R445). -/
theorem contextSaveComplete_spec {s : State} {ctx : Nat} (hdue : saveDue s ctx = true) :
    ∃ t c, exec (.contextSaveComplete ctx) s = .next t ∧ t.ctx? ctx = some c ∧ c.saving = false ∧ c.preempted = true ∧
      t.work.sched.preBusy = false ∧ (∀ e ∈ t.work.teams, e.2.ctx ≠ ctx) ∧ ∀ core, ∀ e ∈ slogOf t core, e.ctx ≠ ctx := by
  have hexec : exec (.contextSaveComplete ctx) s = execContextSaveComplete ctx s := rfl
  unfold execContextSaveComplete at hexec
  rw [hdue, if_pos rfl] at hexec
  dsimp only at hexec
  obtain ⟨hctxs, hteams⟩ := saveTeams_spec ((s.work.teams.filter fun t => t.2.ctx == ctx).map Prod.fst) s
  generalize List.foldl _ s _ = u at hexec hctxs hteams
  obtain ⟨c, hc⟩ : ∃ c, s.ctx? ctx = some c := by
    unfold saveDue at hdue
    rw [Bool.and_eq_true, Bool.and_eq_true] at hdue
    cases hc : s.ctx? ctx with
    | none =>
      rw [hc] at hdue
      exact absurd hdue.1.1 Bool.false_ne_true
    | some c => exact ⟨c, rfl⟩
  refine ⟨_, { c with saving := false, preempted := true }, hexec, ?_, rfl, rfl, rfl, fun e he hectx => ?_, fun core e he => ?_⟩
  · refine (NMap.get?_adjust_self u.work.ctxs ctx fun c => { c with saving := false, preempted := true }).trans ?_
    rw [hctxs]
    exact congrArg (Option.map _) hc
  · obtain ⟨hin, hout⟩ := hteams e he
    exact hout (List.mem_map.2 ⟨e, List.mem_filter.2 ⟨hin, beq_iff_eq.2 hectx⟩, rfl⟩)
  · have hmap := NMap.get?_map u.vm.slog (fun l : List SlogEntry => l.filter fun e => e.ctx != ctx) core
    have hlog : e ∈ (NMap.get? (u.vm.slog.map fun c => (c.1, c.2.filter fun e => e.ctx != ctx)) core).getD [] := he
    rw [hmap] at hlog
    cases hget : NMap.get? u.vm.slog core with
    | none =>
      rw [hget] at hlog
      exact absurd hlog List.not_mem_nil
    | some l =>
      rw [hget] at hlog
      exact bne_iff_ne.1 (List.mem_filter.1 hlog).2

end Sys2Proof.Machine
end

section
/-! Tear-downs, and the claim of the dispatcher's events (R345, R432, R433). -/

namespace Sys2Proof.Machine

/-! ## Collectives of a context that is torn down -/

theorem lookupOnly_collAccess (s : State) (r : CollRun) (va : Nat) (op : MemOp) (poison : Bool) :
    s.lookupOnly (collAccess s r va op poison).2 := by
  unfold collAccess
  extract_lets writes
  generalize writes = w
  split
  · split
    · exact s.lookupOnly_refl
    · dsimp only
      split <;> exact (memoryOnly_endRequest ..).lookupOnly
  · split
    · exact s.lookupOnly_refl
    · have h := lookupOnly_translateWalk s ioAgent r.ctx va (if w then .write else .read) false
      generalize translateWalk s ioAgent r.ctx va (if w then .write else .read) false = y at h ⊢
      obtain ⟨x, t⟩ := y
      cases x with
      | denied | wait => exact h
      | ok l pa =>
        dsimp only at h ⊢
        split
        · split
          · exact h.andThen (memoryOnly_agentWrite ..).lookupOnly
          · exact h.andThen (memoryOnly_homeBytes ..).lookupOnly
        · have hsend := h.andThen (memoryOnly_sendRemote t (.copy r.id) ⟨r.ctx, r.grids, r.core⟩ l pa va op poison).lookupOnly
          generalize sendRemote t (.copy r.id) ⟨r.ctx, r.grids, r.core⟩ l pa va op poison = z at hsend ⊢
          split <;> exact hsend

/-- A contribution is read by lookups alone, and the collective keeps its number and context (R345). -/
theorem contribute_spec (n : Nat) (r : CollRun) (s : State) :
    s.lookupOnly (r.contribute n s).2 ∧ (r.contribute n s).1.id = r.id ∧ (r.contribute n s).1.ctx = r.ctx := by
  induction n generalizing r s with
  | zero => exact ⟨s.lookupOnly_refl, rfl, rfl⟩
  | succ n ih =>
    unfold CollRun.contribute
    split
    · next va k _ =>
      have h := lookupOnly_collAccess s r va (.read k) false
      generalize collAccess s r va (.read k) false = y at h ⊢
      obtain ⟨m, t⟩ := y
      cases m with
      | done bs p _ =>
        obtain ⟨hs, hid, hctx⟩ := ih { r with mine := r.mine ++ bs, pois := r.pois || p, req := none } t
        exact ⟨h.andThen hs, hid, hctx⟩
      | waits | pending | stop => exact ⟨h, rfl, rfl⟩
    · exact ⟨s.lookupOnly_refl, rfl, rfl⟩

/-- What a tear-down does to one collective (R345). -/
def tearColl (ctx : Nat) (s : State) (r : CollRun) : State :=
  if r.ctx != ctx || r.torn then s
  else
    (r.contribute r.fuel s).2.onEng fun e => { e with colls := e.colls.map fun x =>
      if x.id = (r.contribute r.fuel s).1.id then
        { (r.contribute r.fuel s).1.unpark (r.contribute r.fuel s).2.clock.dtime with torn := true, req := none }
      else x }

theorem tearColls_eq (s : State) (ctx : Nat) : tearColls s ctx = s.eng.colls.foldl (tearColl ctx) s := rfl

/-- A collective that stays as it was is another than the one that is torn. -/
theorem tearColl_colls (ctx : Nat) (s : State) (r : CollRun) :
    ∀ x ∈ (tearColl ctx s r).eng.colls, x.torn = true ∨
      (x.name ∈ s.eng.colls.map CollRun.name ∧ (r.ctx = ctx → r.torn = false → r.id ≠ x.id)) := by
  intro x hx
  unfold tearColl at hx
  split at hx
  · next hskip =>
    refine .inr ⟨List.mem_map_of_mem hx, fun hctx htorn => ?_⟩
    simp [hctx, htorn] at hskip
  · obtain ⟨hlook, hid, -⟩ := contribute_spec r.fuel r s
    generalize r.contribute r.fuel s = c at hx hlook hid
    obtain ⟨y, hy, rfl⟩ := List.mem_map.1 hx
    split
    · exact .inl rfl
    · next hne => exact .inr ⟨hlook.colls ▸ List.mem_map_of_mem hy, fun _ _ heq => hne (heq.symm.trans hid.symm)⟩

theorem tearColls_fold (ctx : Nat) (l : List CollRun) (s : State) :
    ∀ x ∈ (l.foldl (tearColl ctx) s).eng.colls, x.torn = true ∨
      (x.name ∈ s.eng.colls.map CollRun.name ∧ ∀ r ∈ l, r.ctx = ctx → r.torn = false → r.id ≠ x.id) := by
  induction l generalizing s with
  | nil => exact fun x hx => .inr ⟨List.mem_map_of_mem hx, fun _ h => absurd h List.not_mem_nil⟩
  | cons r l ih =>
    intro x hx
    refine (ih _ x hx).elim .inl fun ⟨hname, hl⟩ => ?_
    obtain ⟨y, hy, heq⟩ := List.mem_map.1 hname
    have hid : y.id = x.id := congrArg Prod.fst heq
    have htorn : y.torn = x.torn := congrArg (fun n => n.2.2) heq
    refine (tearColl_colls ctx s r y hy).imp (fun h => htorn ▸ h) fun ⟨hin, hr⟩ => ⟨heq ▸ hin, List.forall_mem_cons.2 ⟨?_, hl⟩⟩
    exact fun h h' => hid ▸ hr h h'

/-- Every collective of a context that is torn down is torn (R345). -/
theorem tearColls_torn (s : State) (ctx : Nat) : ∀ x ∈ (tearColls s ctx).eng.colls, x.ctx = ctx → x.torn = true := by
  intro x hx hctx
  rw [tearColls_eq] at hx
  refine (tearColls_fold ctx _ s x hx).elim id fun ⟨hname, hall⟩ => ?_
  obtain ⟨r, hr, heq⟩ := List.mem_map.1 hname
  have hid : r.id = x.id := congrArg Prod.fst heq
  have hrctx : r.ctx = x.ctx := congrArg (fun n => n.2.1) heq
  have htorn : r.torn = x.torn := congrArg (fun n => n.2.2) heq
  by_contra hne
  exact hall r hr (hrctx.trans hctx) (htorn.trans (Bool.eq_false_iff.2 hne)) hid

/-- Without a collective of the context nothing is torn. -/
theorem tearColls_none {s : State} {ctx : Nat} (h : ∀ r ∈ s.eng.colls, r.ctx ≠ ctx) : tearColls s ctx = s := by
  have hfold (l : List CollRun) (hl : ∀ r ∈ l, r.ctx ≠ ctx) : l.foldl (tearColl ctx) s = s := by
    induction l with
    | nil => rfl
    | cons r l ih =>
      obtain ⟨hr, hrest⟩ := List.forall_mem_cons.1 hl
      have hskip : tearColl ctx s r = s := if_pos (by rw [bne_iff_ne.2 hr]; rfl)
      rw [List.foldl_cons, hskip, ih hrest]
  exact hfold _ h

/-! ## Tear-downs -/

/-- Nothing of a context is left behind but its collectives, which are torn (R143, R345, R432, R433). -/
theorem dropContext_spec (s : State) (ctx : Nat) :
    (dropContext s ctx).ctx? ctx = none ∧ (∀ e ∈ (dropContext s ctx).work.groups, e.2.info.ctx ≠ ctx) ∧
      (∀ e ∈ (dropContext s ctx).work.teams, e.2.ctx ≠ ctx) ∧ (∀ e ∈ (dropContext s ctx).work.grids, e.2.ctx ≠ ctx) ∧
      (∀ e ∈ (dropContext s ctx).work.saved, e.ctx ≠ ctx) ∧ (∀ r ∈ (dropContext s ctx).eng.copies, r.cmd.ctx ≠ ctx) ∧
      (∀ r ∈ (dropContext s ctx).eng.colls, r.ctx = ctx → r.torn = true) ∧
      ((∀ r ∈ s.eng.colls, r.ctx ≠ ctx) → ∀ e ∈ s.work.groups, e.2.info.ctx ≠ ctx → e ∈ (dropContext s ctx).work.groups) := by
  have hout {α : Type} {l : List α} {f : α → Nat} : ∀ e ∈ l.filter (fun e => f e != ctx), f e ≠ ctx :=
    fun e he => bne_iff_ne.1 (List.mem_filter.1 he).2
  refine ⟨NMap.get?_erase_self .., hout, hout (f := fun t : Nat × Team => t.2.ctx), hout (f := fun g : Nat × Grid => g.2.ctx),
    hout (f := Saved.ctx), hout (f := fun r : CopyRun => r.cmd.ctx), tearColls_torn s ctx, fun hno e he hne => ?_⟩
  have hmem : e ∈ (tearColls s ctx).work.groups.filter fun e => e.2.info.ctx != ctx := by
    rw [tearColls_none hno]
    exact List.mem_filter.2 ⟨he, bne_iff_ne.2 hne⟩
  exact hmem

/-- A tear-down leaves nothing of its context (R432, R433). -/
theorem teardown_spec {s : State} (hbusy : s.work.sched.tdBusy = true) :
    let ctx := physNat (touchPhys s s.work.sched.tddesc.toNat 64 0) (s.work.sched.tddesc.toNat + 28) 4
    ∃ t, exec .teardown s = .next t ∧ t.work.sched.tdBusy = false ∧ t.ctx? ctx = none ∧
      (∀ e ∈ t.work.groups, e.2.info.ctx ≠ ctx) ∧ (∀ e ∈ t.work.teams, e.2.ctx ≠ ctx) ∧
      (∀ e ∈ t.work.grids, e.2.ctx ≠ ctx) ∧ (∀ e ∈ t.work.saved, e.ctx ≠ ctx) ∧ (∀ r ∈ t.eng.copies, r.cmd.ctx ≠ ctx) ∧
      (∀ r ∈ t.eng.colls, r.ctx = ctx → r.torn = true) ∧
      ((∀ r ∈ s.eng.colls, r.ctx ≠ ctx) → ∀ e ∈ s.work.groups, e.2.info.ctx ≠ ctx → e ∈ t.work.groups) := by
  intro ctx
  have hexec : exec .teardown s = execTeardown s := rfl
  unfold execTeardown at hexec
  rw [hbusy, if_neg (by decide)] at hexec
  obtain ⟨-, -, -, htouch, heng⟩ := memoryOnly_touchPhys s s.work.sched.tddesc.toNat 64 0
  have hctx : physNat (touchPhys s s.work.sched.tddesc.toNat 64 0)
      ((touchPhys s s.work.sched.tddesc.toNat 64 0).work.sched.tddesc.toNat + 28) 4 = ctx := by rw [htouch]
  dsimp only at hexec
  rw [hctx] at hexec
  clear_value ctx
  generalize touchPhys s s.work.sched.tddesc.toNat 64 0 = u at hexec htouch heng hctx
  generalize hv : u.onWork _ = v at hexec
  have hgroups : v.work.groups = s.work.groups := by rw [← hv, ← htouch]; rfl
  have hcolls : v.eng.colls = s.eng.colls := by rw [← hv, ← heng]; rfl
  obtain ⟨hc, hg, ht, hgr, hs, hco, hcl, hkeep⟩ := dropContext_spec v ctx
  rw [hgroups, hcolls] at hkeep
  generalize dropContext v ctx = w at hexec hc hg ht hgr hs hco hcl hkeep
  generalize hz : physWrite w _ _ = z at hexec
  have hphys : w.memoryOnly z := hz ▸ memoryOnly_physWrite ..
  obtain ⟨-, -, -, hzwork, hzeng⟩ := hphys
  rw [State.ctx?, ← hzwork] at hc
  rw [← hzwork] at hg ht hgr hs hkeep
  rw [← hzeng] at hco hcl
  exact ⟨_, hexec, rfl, hc, hg, ht, hgr, hs, hco, hcl, hkeep⟩

/-! ## The claim -/

/-- Settles O51: each event by its own lemma. -/
theorem dispatcherEventsComplete : Obligations.DispatcherEventsComplete := by
  unfold Obligations.DispatcherEventsComplete
  intro s
  refine ⟨fun n l rest hq hhalt hctx => launchAccept_spec hq hhalt hctx, fun c core hnext => teamAdmission_spec hnext,
    fun gk g hg hover => ⟨fun tk m horigin hm => gridComplete_team hg hover horigin hm,
      fun q n horigin hq hcmp => gridComplete_host hg hover horigin hq hcmp⟩,
    fun q ctx e hq => ⟨fun hhead hop hok hdr hread => ?_, ?_, ?_, ?_⟩,
    fun x cores hx hcores => groupRestore_spec hx hcores, fun ctx hdue => contextSaveComplete_spec hdue,
    fun hbusy => teardown_spec hbusy⟩
  · exact hqLaunch_spec hq hhead hop hok (Prod.ext hread rfl)
  · exact hqAct_spec (fun c x => (lookupOnly_handRange x c (e.getD 4 0).toNat (e.getD 5 0).toNat false).placesKept) hq
      (fun _ _ => rfl) rfl
  · exact hqAct_spec (fun c x => (lookupOnly_handRange x c (e.getD 4 0).toNat (e.getD 5 0).toNat true).placesKept) hq
      (fun _ _ => rfl) rfl
  · exact hqAct_spec (fun _ x => (rfl : x.placesKept x)) hq (fun _ _ => rfl) rfl

end Sys2Proof.Machine
end

section
/-! Sector requests of stores (R75, R76): what a lane's part holds, and whose byte prevails where lanes meet. -/

namespace Sys2Proof.Machine

/-! ## A lane's part -/

/-- A bit of a byte mask: its bytes are those from `i` on. -/
theorem byteMask_getLsbD (i n : Nat) {j : Nat} (hj : j < 32) : (byteMask i n).getLsbD j = true ↔ i ≤ j ∧ j < i + n := by
  rw [byteMask, BitVec.getLsbD_ofNat, Nat.testBit_mul_two_pow, Nat.testBit_two_pow_sub_one]
  simp only [hj, Bool.and_eq_true, decide_eq_true_eq, true_and]
  omega

/-- A byte of a number that stands in a sector from byte `i` on. -/
theorem byte_sectorOfNat (bs : List Byte) {i j : Nat} (hlen : i + bs.length ≤ 32) (hij : i ≤ j) {b : Byte} (hb : bs[j - i]? = some b) :
    Sector.byte (Sector.ofNat (leNat bs) i bs.length) j = b := by
  have hlt := leNat_lt bs
  rw [show (256 : Nat) ^ bs.length = 2 ^ (8 * bs.length) by rw [Nat.pow_mul]] at hlt
  have hfit : leNat bs * 2 ^ (8 * i) < 2 ^ 256 :=
    calc leNat bs * 2 ^ (8 * i) < 2 ^ (8 * bs.length) * 2 ^ (8 * i) := Nat.mul_lt_mul_of_pos_right hlt (Nat.two_pow_pos _)
      _ = 2 ^ (8 * bs.length + 8 * i) := (Nat.pow_add ..).symm
      _ ≤ 2 ^ 256 := Nat.pow_le_pow_right (by decide) (by omega)
  have hbyte := leNat_byte bs (j - i)
  rw [List.getD_eq_getElem?_getD, hb, Option.getD_some, show (256 : Nat) ^ (j - i) = 2 ^ (8 * (j - i)) by rw [Nat.pow_mul]] at hbyte
  apply BitVec.eq_of_toNat_eq
  rw [← hbyte, Sector.byte, Sector.ofNat, BitVec.toNat_setWidth, BitVec.toNat_ushiftRight, BitVec.toNat_ofNat,
    Nat.mod_eq_of_lt hlt, Nat.mod_eq_of_lt hfit, Nat.shiftRight_eq_div_pow,
    show 8 * j = 8 * i + 8 * (j - i) by omega, Nat.pow_add, ← Nat.div_div_eq_div_mul, Nat.mul_div_cancel _ (Nat.two_pow_pos _)]

/-! ## Parts that meet -/

/-- A store's part of a sector, not a reduction's. -/
def LanePart.isStore (q : LanePart) : Prop := ∃ d m, q.kind = .store d m

/-- A part with a later part of its sector joined (R75, R76). -/
def LanePart.joined (q l : LanePart) : LanePart := { q with kind := q.kind.join l.kind }

section Joined
variable {q l : LanePart} (hq : q.isStore) (hl : l.isStore)
include hq hl

theorem LanePart.isStore_joined : (q.joined l).isStore := by
  obtain ⟨d, m, hq⟩ := hq
  obtain ⟨d', m', hl⟩ := hl
  exact ⟨_, _, by rw [LanePart.joined, hq, hl]; rfl⟩

/-- Of two parts that meet, the bytes of both are written, and the later part's bytes are the ones that stand. -/
theorem LanePart.joined_byte {j : Nat} (hj : j < 32) :
    (q.joined l).mask.getLsbD j = (q.mask.getLsbD j || l.mask.getLsbD j) ∧
      Sector.byte (q.joined l).data j = if l.mask.getLsbD j then Sector.byte l.data j else Sector.byte q.data j := by
  obtain ⟨d, m, hq⟩ := hq
  obtain ⟨d', m', hl⟩ := hl
  simp only [LanePart.joined, LanePart.mask, LanePart.data, hq, hl, StoreKind.join, BitVec.getLsbD_or, byte_mergeBytes _ _ _ hj,
    and_self]

end Joined

theorem joinReq_eq (m : NMap LanePart) (l : LanePart) :
    joinReq m l = NMap.set m (reqKey l.va l.xl) (((NMap.get? m (reqKey l.va l.xl)).map fun r => r.joined l).getD l) := rfl

theorem sectorReqs_concat (ls : List LanePart) (l : LanePart) : sectorReqs (ls ++ [l]) = joinReq (sectorReqs ls) l := by
  rw [sectorReqs_eq, sectorReqs_eq, List.foldl_append]
  rfl

/-- The requests of stores are stores, each under its own key. -/
theorem sectorReqs_get {ls : List LanePart} (hst : ∀ y ∈ ls, y.isStore) {k : Nat} {q : LanePart}
    (h : NMap.get? (sectorReqs ls) k = some q) : q.isStore ∧ reqKey q.va q.xl = k := by
  refine ⟨?_, ((sectorReqs_ordered ls).2 _ (NMap.mem_of_get? h)).1.symm⟩
  induction ls using List.reverseRecOn generalizing k q with
  | nil => cases h
  | append_singleton ls l ih =>
    have hst' (y : LanePart) (hy : y ∈ ls) : y.isStore := hst y (List.mem_append_left _ hy)
    have hl : l.isStore := hst l (List.mem_append_right _ List.mem_cons_self)
    rw [sectorReqs_concat, joinReq_eq] at h
    by_cases hk : k = reqKey l.va l.xl
    · rw [hk, NMap.get?_set_self, Option.some.injEq] at h
      subst h
      cases hg : NMap.get? (sectorReqs ls) (reqKey l.va l.xl) with
      | none => exact hl
      | some r => exact LanePart.isStore_joined (ih hst' hg) hl
    · rw [NMap.get?_set_ne _ _ hk] at h
      exact ih hst' h

/-- Where no later lane stores to a byte of its sector, a lane's byte stands in the sector's request (R75, R76). -/
theorem sectorReqs_byte {ls : List LanePart} (hst : ∀ y ∈ ls, y.isStore) {n j : Nat} {e : LanePart} (hj : j < 32) (he : ls[n]? = some e)
    (hbit : e.mask.getLsbD j = true)
    (hlast : ∀ m y, n < m → ls[m]? = some y → reqKey y.va y.xl = reqKey e.va e.xl → y.mask.getLsbD j = false) :
    ∃ q, NMap.get? (sectorReqs ls) (reqKey e.va e.xl) = some q ∧ q.mask.getLsbD j = true ∧
      Sector.byte q.data j = Sector.byte e.data j := by
  induction ls using List.reverseRecOn with
  | nil => cases he
  | append_singleton ls l ih =>
    have hst' (y : LanePart) (hy : y ∈ ls) : y.isStore := hst y (List.mem_append_left _ hy)
    have hl : l.isStore := hst l (List.mem_append_right _ List.mem_cons_self)
    rw [sectorReqs_concat, joinReq_eq]
    rcases Nat.lt_or_ge n ls.length with hn | hn
    · -- an earlier lane: its byte stands in its request so far, and the last lane leaves it there
      rw [List.getElem?_append_left hn] at he
      obtain ⟨q, hq, hqbit, hqbyte⟩ := ih hst' he fun m y hm hy => hlast m y hm (by
        rw [List.getElem?_append_left (List.getElem?_eq_some_iff.1 hy).1]
        exact hy)
      by_cases hk : reqKey e.va e.xl = reqKey l.va l.xl
      · have hno : l.mask.getLsbD j = false := hlast ls.length l hn (by simp) hk.symm
        obtain ⟨hm, hd⟩ := LanePart.joined_byte (sectorReqs_get hst' hq).1 hl hj
        rw [hk] at hq
        rw [hk, NMap.get?_set_self, hq]
        exact ⟨_, rfl, by rw [Option.map_some, Option.getD_some, hm, hqbit, Bool.true_or],
          by rw [Option.map_some, Option.getD_some, hd, hno, if_neg Bool.false_ne_true, hqbyte]⟩
      · rw [NMap.get?_set_ne _ _ hk]
        exact ⟨q, hq, hqbit, hqbyte⟩
    · -- the last lane: its bytes prevail over what its request held
      obtain rfl : n = ls.length := by
        have := (List.getElem?_eq_some_iff.1 he).1
        rw [List.length_append, List.length_singleton] at this
        omega
      rw [List.getElem?_concat_length, Option.some.injEq] at he
      subst he
      rw [NMap.get?_set_self]
      refine ⟨_, rfl, ?_⟩
      cases hg : NMap.get? (sectorReqs ls) (reqKey l.va l.xl) with
      | none => exact ⟨hbit, rfl⟩
      | some r =>
        obtain ⟨hm, hd⟩ := LanePart.joined_byte (sectorReqs_get hst' hg).1 hl hj
        rw [Option.map_some, Option.getD_some, hm, hd, hbit, Bool.or_true, if_pos rfl]
        exact ⟨rfl, rfl⟩

/-- Settles O12: a part's bytes by the arithmetic of its mask and data, and the prevailing lane by induction on the lanes. -/
theorem highestLanePrevails : Obligations.HighestLanePrevails := by
  refine ⟨fun va j bs hlen hj => ⟨byteMask_getLsbD _ _ hj, fun hle b hb => byte_sectorOfNat bs hlen hle hb⟩, ?_⟩
  intro ls n j e hst hj he hbit hlast
  obtain ⟨q, hq, hqbit, hqbyte⟩ := sectorReqs_byte hst hj he hbit hlast
  exact ⟨q, hq, (sectorReqs_get hst hq).2, hqbit, hqbyte⟩

end Sys2Proof.Machine
end

section
/-! Lanes of LDL and STL that violate the scratchpad (R89-R91): they are switched off with their causes in SCRMASK, and the word goes on. -/

namespace Sys2Proof.Machine

/-! ## A word that has switched lanes off -/

/-- Without MASK packets, a word that leaves a lane on issues as any other (R91, R448). -/
theorem doneMask_on {c : Cx} (b : Cx) (hm : c.sp.m ≠ 0) (ht : c.g.sys.tracectl = 0) : c.doneMask b = c.done := by
  have htrace : traceMask c.done c.k c.sp.id b.sp.m c.sp.m = c.done := by
    unfold traceMask
    rw [done_group]
    show (if (c.g.sys.tracectl.getLsbD 1 && _) = true then _ else _) = _
    rw [ht, show (0 : W64).getLsbD 1 = false from rfl, Bool.false_and, if_neg Bool.false_ne_true]
  have hzero : ¬ ((decide (c.sp.m = 0) && b.sp.m != 0) = true) := by
    rw [decide_eq_false hm, Bool.false_and]
    exact Bool.false_ne_true
  unfold Cx.doneMask
  rw [if_neg hzero, htrace, ite_self]

/-- A pending word leaves the lanes that are switched off (R208). -/
theorem later_off (c : Cx) (on : PendOn) (act : Mask) (regs : List Nat) (vals : List LaneReg) (kq : Option (Nat × Nat))
    (flags : BitVec 5) (flagLanes : Mask) (trap : Option DelivTrap) (stamp : Nat) :
    (c.later on act regs vals kq flags flagLanes trap stamp).g.off = c.g.off := by
  have key (l : List Nat) (g : Group) : (l.foldl (fun g _ => g.push c.sp.lanes 0 LaneReg.zero) g).off = g.off := by
    induction l generalizing g with
    | nil => rfl
    | cons a l ih => exact ih _
  exact key _ _

/-- The unit in hand, whose group has not yet issued the word, once some lanes are off: what its issue leaves of them. -/
structure Cx.offBy (c : Cx) (bad : List (Nat × Bool × Bool × Bool)) (d : Cx) : Prop where
  k : d.k = c.k
  i : d.i = c.i
  sp : d.sp = (c.switchOff bad).sp
  sys : d.g.sys = (c.switchOff bad).g.sys
  off : d.g.off = (c.switchOff bad).g.off
  splits : d.g.splits = c.g.splits

/-- What a word leaves that has switched lanes off and keeps a lane on (R90, R91). -/
theorem offBy_doneMask {c d : Cx} {bad : List (Nat × Bool × Bool × Bool)} (h : c.offBy bad d)
    (hs : (c.g.split? c.sp.id).isSome = true) (ht : c.g.sys.tracectl = 0) (b : Cx)
    (hon : c.sp.m &&& ~~~(lanesMask (bad.map Prod.fst)) ≠ 0) :
    let off := lanesMask (bad.map Prod.fst)
    ∃ g sp, (d.doneMask b).last = .issued ∧ (d.doneMask b).group? c.k = some g ∧ g.off = c.g.off ||| off ∧
      g.split? c.sp.id = some sp ∧ sp.m = c.sp.m &&& ~~~off ∧ sp.pc = c.nextPc ∧
      { g.sys with scrmask := c.g.sys.scrmask } = c.g.sys ∧
      g.sys.scrmask = c.g.sys.scrmask ||| off.setWidth 64 |||
        (if bad.any fun b => b.2.1 then w64 (2 ^ 32) else 0) ||| (if bad.any fun b => b.2.2.1 then w64 (2 ^ 33) else 0) |||
        (if bad.any fun b => b.2.2.2 then w64 (2 ^ 34) else 0) := by
  obtain ⟨hk, hi, hsp, hsys, hoff, hsplits⟩ := h
  have hm : d.sp.m = c.sp.m &&& ~~~(lanesMask (bad.map Prod.fst)) := congrArg Split.m hsp
  have hid : d.sp.id = c.sp.id := (congrArg Split.id hsp :)
  have hpc : d.nextPc = c.nextPc := by
    unfold Cx.nextPc
    rw [hsp, hi]
    rfl
  have hds : (d.g.split? d.sp.id).isSome = true := by
    unfold Group.split? at hs ⊢
    rw [hsplits, hid]
    exact hs
  obtain ⟨hlast, -, g, hg, -, ⟨⟨sp, hsplit, hspc, -, hspm, -⟩, -⟩, -, hgsys⟩ := done_spec hds
  have hgoff : g.off = d.g.off := by
    rw [Option.some.inj (hg.symm.trans (done_group d))]
    rfl
  rw [doneMask_on b (hm ▸ hon) ((congrArg SysRegs.tracectl hsys).trans ht)]
  refine ⟨g, sp, hlast, hk ▸ hg, hgoff.trans hoff, hid ▸ hsplit, hspm.trans hm, hspc.trans hpc, ?_, ?_⟩
  · rw [hgsys, hsys]
    rfl
  · rw [hgsys, hsys, BitVec.or_assoc, BitVec.or_assoc, BitVec.or_assoc, ← BitVec.or_assoc (BitVec.setWidth 64 _),
      ← BitVec.or_assoc (BitVec.setWidth 64 _ ||| _)]
    rfl

/-! ## The words -/

/-- LDL outside regions, whose violating lanes are switched off before its result is pending (R89, R307). -/
theorem exec_ldl_off {g : Guard} {l : La} {x : Dst} {a : Base} {o : Off} {mc : Bool} {ty : MemTy} {s : State} {c : Cx}
    (hc : cx? (.ldl g l x a o mc ty) s = some c) (h : c.Clear) (hr : c.g.region = none)
    (hp : ∀ e ∈ c.addrs a o (MemTy.size ty) (c.guard g), e.2 % MemTy.size ty = 0) :
    let bad := c.violations true (MemTy.size ty) (c.addrs a o (MemTy.size ty) (c.guard g))
    ∃ sc act gs n delay, exec (.ldl g l x a o mc ty) s =
      .next ((((c.after (onScratch c.s c.g.info.team sc)).switchOff bad).fresh.2.result x ty act gs n delay 0 false).doneMask
        (c.after (onScratch c.s c.g.info.team sc))) := by
  intro bad
  have hreg (f : Region → Region) : c.g.onRegion f = c.g := by
    unfold Group.onRegion
    rw [hr, Option.map_none, ← hr]
  show ∃ sc act gs n delay, execLdl g l x a o mc ty s = _
  unfold execLdl
  rw [issue_clear (ck := Checks.none) hc h (fun _ hn => nomatch hn) rfl rfl rfl]
  dsimp only
  rw [checkAddrs_pass false hp (fun _ _ h => nomatch h)]
  unfold Cx.budget
  simp only [hr, hreg]
  exact ⟨_, _, _, _, _, rfl⟩

/-- STL outside regions, whose violating lanes are switched off before the others store (R89, R309). -/
theorem exec_stl_off {g : Guard} {x : Src} {a : Base} {o : Off} {mc : Bool} {ty : MemTy} {s : State} {c : Cx}
    (hc : cx? (.stl g x a o mc ty) s = some c) (h : c.Clear) (hr : c.g.region = none)
    (hp : ∀ e ∈ c.addrs a o (MemTy.size ty) (c.guard g), e.2 % MemTy.size ty = 0) :
    let i := Instr.stl g x a o mc ty
    let bad := c.violations false (MemTy.size ty) (c.addrs a o (MemTy.size ty) (c.guard g))
    ∃ t, exec i s = .next ((((c.pops i.uses).switchOff bad).after t).doneMask c) := by
  intro i bad
  show ∃ t, execStl g x a o mc ty s = _
  unfold execStl
  rw [issue_clear (ck := Checks.none) hc h (fun _ hn => nomatch hn) rfl rfl rfl]
  dsimp only
  rw [checkAddrs_pass false hp (fun _ _ h => nomatch h)]
  simp only [hr]
  exact ⟨_, rfl⟩

/-- A pending result leaves the lanes that a word has switched off. -/
theorem offBy_result {c : Cx} (bad : List (Nat × Bool × Bool × Bool)) (s : State) (x : Dst) (ty : MemTy) (act : Mask) (gs : List LaneGot)
    (n delay : Nat) : c.offBy bad ((((c.after s).switchOff bad).fresh.2.result x ty act gs n delay 0 false)) := by
  obtain ⟨d, kq, ⟨hk, hsp, hi, ⟨r, hg⟩, -⟩, heq⟩ := result_eq_later ((c.after s).switchOff bad).fresh.2 x ty act gs n delay 0 false
  obtain ⟨-, hk', hsp', hi', hsys, -, hsplits, -⟩ := later_spec d (.cycle (((c.after s).switchOff bad).fresh.2.s.clock.cycle + delay)) act
    (Dst.run x (gotRegs ty gs).length) (gotRegs ty gs) kq 0 0 (gotTrap ((c.after s).switchOff bad).fresh.2.g.info.accept gs) 0
  rw [heq]
  exact ⟨hk'.trans hk, hi'.trans hi, hsp'.trans hsp, hsys.trans (by rw [hg]; rfl), (later_off ..).trans (by rw [hg]; rfl),
    hsplits.trans (by rw [hg]; rfl)⟩

/-- So do popped operands. -/
theorem offBy_pops {c : Cx} (bad : List (Nat × Bool × Bool × Bool)) (s : State) {us : Uses} (h : us = c.i.uses) :
    c.offBy bad (((c.pops us).switchOff bad).after s) := by
  subst h
  obtain ⟨hg, hsp, hk, hi, -⟩ := pops_spec c
  have hsw : ∀ d : Cx, d.g = c.g → d.sp = c.sp →
      (d.switchOff bad).g = (c.switchOff bad).g ∧ (d.switchOff bad).sp = (c.switchOff bad).sp := by
    intro d hg hsp
    unfold Cx.switchOff
    rw [hg, hsp]
    exact ⟨rfl, rfl⟩
  obtain ⟨hsg, hssp⟩ := hsw _ hg hsp
  exact ⟨hk, hi, hssp, congrArg Group.sys hsg, congrArg Group.off hsg, (congrArg Group.splits hsg :)⟩

/-- Settles O17: LDL and STL differ in what they do for the lanes that stay on, which `offBy_doneMask` leaves open. -/
theorem scratchViolationSwitchesOff : Obligations.ScratchViolationSwitchesOff := by
  intro i s c load size act ls hc h hr hw hp ht bad off _ hon
  obtain ⟨-, -, -, hsplit, -⟩ := cx?_eq hc
  have hs : (c.g.split? c.sp.id).isSome = true := Option.isSome_iff_exists.2 ⟨_, hsplit⟩
  unfold Cx.scratchWord at hw
  split at hw
  · simp only [Option.some.injEq, Prod.mk.injEq] at hw
    obtain ⟨rfl, rfl, rfl, rfl⟩ := hw
    obtain ⟨sc, act, gs, n, delay, hex⟩ := exec_ldl_off hc h hr hp
    obtain ⟨g, sp, hdone⟩ := offBy_doneMask (offBy_result bad _ _ _ act gs n delay) hs ht (c.after (onScratch c.s c.g.info.team sc)) hon
    exact ⟨_, g, sp, hex, hdone⟩
  · simp only [Option.some.injEq, Prod.mk.injEq] at hw
    obtain ⟨rfl, rfl, rfl, rfl⟩ := hw
    obtain ⟨t, hex⟩ := exec_stl_off hc h hr hp
    obtain ⟨g, sp, hdone⟩ := offBy_doneMask (offBy_pops bad t (by rw [(cx?_eq hc).2.2.2.2.1])) hs ht c hon
    exact ⟨_, g, sp, hex, hdone⟩
  · cases hw

end Sys2Proof.Machine
end

section
/-! Fences (R84, R104-R107, R316, R317): FENCE and FENCE.S issue or are held by their conditions, seam their region, or run past it. -/

namespace Sys2Proof.Machine

/-! ## Accesses that are complete -/

theorem settle_rest (g : Group) (s : State) :
    (g.settle s).regs = g.regs ∧ (g.settle s).splits = g.splits ∧ (g.settle s).region = g.region := by
  have key (l : List Outstanding) (g : Group) :
      let h := l.foldl (fun g o => g.raiseHorizon o.gwct) g
      h.regs = g.regs ∧ h.splits = g.splits ∧ h.region = g.region := by
    induction l generalizing g with
    | nil => exact ⟨rfl, rfl, rfl⟩
    | cons o l ih => exact ih (g.raiseHorizon o.gwct)
  exact key _ _

/-- Dropping a team's operand-cache entries changes the engines alone (R120). -/
theorem fenceTiles_ms (s : State) (team : Nat) (p su : Sets) (e : Scope) : (fenceTiles s team p su e).ms = s.ms := by
  unfold fenceTiles
  split <;> rfl

/-! ## A fence outside seams -/

/-- The word of a fence issues when its conditions hold, else its split is held; either way the group's complete accesses have raised
HORIZON (R103, R104). -/
theorem fence_spec {c : Cx} (hs : c.g.split? c.sp.id = some c.sp) (su pr : Sets) (e : Scope) :
    let g := c.g.settle c.s
    ∃ h, (c.fence su pr e).group? c.k = some h ∧ h.regs = c.g.regs ∧ h.sys = g.sys ∧ h.out = g.out ∧
      (c.fence su pr e).ms = c.s.ms ∧
      if fenceHolds c.s c.k g (g.out.filter fun x => x.split == c.sp.id) pr e then
        (c.fence su pr e).last = .issued ∧ c.stands h c.nextPc
      else (c.fence su pr e).last = .held ∧ h.split? c.sp.id = some { c.sp with hold := some (.fence pr su e) } := by
  intro g
  obtain ⟨hregs, hsplits, -⟩ := settle_rest c.g c.s
  have hsome : (g.split? c.sp.id).isSome = true := by
    unfold Group.split? at hs ⊢
    rw [hsplits, hs]
    rfl
  unfold Cx.fence
  dsimp only
  split
  · obtain ⟨hlast, ⟨-, hms, -⟩, h, hg, helse, ⟨hst, -⟩, hregs', hsys⟩ :=
      done_spec (c := { c with g := g, s := fenceTiles c.s g.info.team pr su e }) hsome
    exact ⟨h, hg, hregs'.trans hregs, hsys, (congrArg Group.out helse :), hms.trans (fenceTiles_ms ..), hlast, hst⟩
  · exact ⟨_, State.group?_setGroup _ _ _, hregs, rfl, rfl, rfl, rfl,
      split?_setSplit (sp := { c.sp with hold := some (.fence pr su e) }) hsome⟩

/-- A region after a word of its group has issued: only the cycle of its last result may be another (R453). -/
theorem advance_region {c : Cx} {r : Region} (h : c.g.region = some r) (pc : Pc) :
    ∃ n, (c.advance pc).g.region = some { r with lastResult := n } := by
  show ∃ n, (if Instr.delivers c.i then c.g.region.map fun r => { r with lastResult := c.s.clock.cycle } else c.g.region) = _
  rw [h]
  split
  · exact ⟨_, rfl⟩
  · exact ⟨r.lastResult, rfl⟩

/-! ## A fence that its region runs past -/

/-- The unit whose group runs past a FENCE.S, which stays with the region to be validated (R106). -/
def Cx.pastFence (c : Cx) (su pr : Sets) (e : Scope) : Cx :=
  let g := c.g.settle c.s
  let f : FenceS := ⟨pr, su, e, g.out.filter fun o => o.split == c.sp.id, []⟩
  { c with s := fenceTiles c.s g.info.team pr su e, g := g.onRegion fun r => { r with fences := r.fences ++ [f] } }

theorem pastFence_spec {c : Cx} (hs : c.g.split? c.sp.id = some c.sp) {r : Region} (hr : c.g.region = some r) (su pr : Sets) (e : Scope) :
    let g := c.g.settle c.s
    ∃ h r', c.Went h (c.pastFence su pr e).done ∧ h.sys = g.sys ∧ (c.pastFence su pr e).done.ms = c.s.ms ∧ h.region = some r' ∧
      r'.buf = r.buf ∧ r'.fences = r.fences ++ [⟨pr, su, e, g.out.filter fun o => o.split == c.sp.id, []⟩] := by
  intro g
  obtain ⟨hregs, hsplits, hregion⟩ := settle_rest c.g c.s
  have hsome : ((c.pastFence su pr e).g.split? (c.pastFence su pr e).sp.id).isSome = true := by
    show (g.split? c.sp.id).isSome = true
    unfold Group.split? at hs ⊢
    rw [hsplits, hs]
    rfl
  have hpast : (c.pastFence su pr e).g.region =
      some { r with fences := r.fences ++ [⟨pr, su, e, g.out.filter fun o => o.split == c.sp.id, []⟩] } := by
    show g.region.map _ = _
    rw [hregion, hr]
    rfl
  obtain ⟨hlast, ⟨-, hms, -⟩, h, hg, -, ⟨hst, -⟩, hregs', hsys⟩ := done_spec hsome
  obtain ⟨n, hn⟩ := advance_region hpast (c.pastFence su pr e).nextPc
  obtain rfl := Option.some.inj (hg.symm.trans (done_group _))
  exact ⟨_, _, ⟨hlast, hg, hst, hregs'.trans hregs⟩, hsys, hms.trans (fenceTiles_ms ..), hn, rfl, rfl⟩

/-! ## The words -/

/-- Both fence words: outside regions, and in a region where they neither seam nor are run past, they wait for their conditions. -/
theorem exec_fenceWord {i : Instr} {s : State} {c : Cx} {spec : Bool} {su pr : Sets} {e : Scope} (hc : cx? i s = some c) (h : c.Clear)
    (hw : fenceWord i = some (spec, su, pr, e)) :
    exec i s = .next (match c.g.region with
      | none => c.fence su pr e
      | some r =>
        if c.fenceSeams r spec su pr then c.commit .seam
        else if r.runsPast spec then (c.pastFence su pr e).done else c.fence su pr e) := by
  unfold fenceWord at hw
  split at hw
  · next cb su pr e =>
    simp only [Option.some.injEq, Prod.mk.injEq] at hw
    obtain ⟨rfl, rfl, rfl, rfl⟩ := hw
    show execFence cb su pr e s = _
    unfold execFence
    rw [issue_clear (ck := Checks.none) hc h (fun _ hn => nomatch hn) rfl rfl rfl]
    cases c.g.region with
    | none => rfl
    | some r =>
      simp only [Cx.fenceSeams, Region.runsPast, Bool.false_and, Bool.not_false, Bool.true_and, Bool.false_eq_true, if_false,
        Bool.or_comm (Sets.hasSt pr)]
  · next cb su pr e =>
    simp only [Option.some.injEq, Prod.mk.injEq] at hw
    obtain ⟨rfl, rfl, rfl, rfl⟩ := hw
    show execFenceS cb su pr e s = _
    unfold execFenceS
    rw [issue_clear (ck := Checks.none) hc h (fun _ hn => nomatch hn) rfl rfl rfl]
    cases c.g.region with
    | none => rfl
    | some r =>
      cases hno : r.noSpec with
      | true =>
        simp only [Cx.fenceSeams, Region.runsPast, hno, Bool.not_true, Bool.and_false, Bool.not_false, Bool.true_and,
          Bool.false_eq_true, if_false, if_true, Bool.or_comm (Sets.hasSt pr)]
      | false =>
        simp only [Cx.fenceSeams, Region.runsPast, hno, Bool.not_false, Bool.and_true, Bool.not_true, Bool.false_and, Bool.or_false,
          Bool.false_eq_true, if_false, if_true]
        rfl
  · cases hw

/-- Settles O18: the three ways of `exec_fenceWord`, each by its own lemma. -/
theorem fenceWaitsForItsConditions : Obligations.FenceWaitsForItsConditions := by
  intro i s c spec su pr e hc h hw g wait
  obtain ⟨-, -, -, hsplit, -⟩ := cx?_eq hc
  have hex := exec_fenceWord hc h hw
  refine ⟨fun hwait => ?_, fun r hr hseam => ?_, fun r hr hpast hseam => ?_⟩
  · obtain ⟨h, hspec⟩ := fence_spec hsplit su pr e
    refine ⟨_, h, hex.trans (congrArg _ ?_), hspec⟩
    rcases hwait with hr | ⟨r, hr, hpast, hseam⟩
    · simp only [hr]
    · simp only [hr, hpast, hseam, Bool.false_eq_true, if_false]
  · simp only [hex, hr, hseam, if_true]
  · obtain ⟨h, r', hspec⟩ := pastFence_spec hsplit hr su pr e
    refine ⟨_, h, r', hex.trans (congrArg _ ?_), hspec⟩
    simp only [hr, hpast, hseam, Bool.false_eq_true, if_false, if_true]

end Sys2Proof.Machine
end

section
/-! An atomic at a page that is homed at another die than die 0 (R77, R312): a byte 2^40 above what it writes, which the L2's keys do not
tell from it. -/

namespace Sys2Proof.Machine

/-- The leaf of the page of `homedAtDie1`: its home is die 1. -/
def die1Leaf : Leaf := Leaf.of 0x4000001008D

/-- Die 1's L2 holds the page's first sector as home, and its first byte is 1. -/
theorem homeAt_homedAtDie1 : homeAt homedAtDie1 die1Leaf (0x10000 / 32) := by
  refine ⟨by decide, .inr (by decide), fun d => ⟨?_, rfl⟩⟩
  rcases l2Sector_of_singleton (ms := homedAtDie1.ms) rfl d (0x10000 / 32) with h | h <;> rw [h] <;> decide

/-- An exchange with zero of the page's first eight bytes, by a core of die 0. -/
def exchanged : State := (atomDevice homedAtDie1 0 die1Leaf 0x10000 1 (.axch .b64 0)).2.2.2

/-- Die 1's key of the sector's line is die 0's key of the line 2^40 above it, whose first byte changes with the exchange. -/
theorem exchanged_above : byteNow exchanged.ms (2 ^ 40 + 0x10000) ≠ byteNow homedAtDie1.ms (2 ^ 40 + 0x10000) := by
  decide +kernel

/-- Refutes O14: the L2 keys a line of a die by the die's number times 2^33 plus the line's, so that a byte of die 1's page and the
address 2^40 above it, which lies outside main memory, read one copy. The statement's last clause ranges over every number `x`, and
does not ask that it be an address of main memory. -/
theorem not_atomicActsAtItsHome : ¬ Obligations.AtomicActsAtItsHome := by
  intro h
  obtain ⟨-, -, -, -, -, hothers⟩ := h homedAtDie1 0 0x10000 1 die1Leaf (.axch .b64 0) homeAt_homedAtDie1 (by decide) (by decide)
  exact exchanged_above (hothers (2 ^ 40 + 0x10000) (.inr (by decide)))

end Sys2Proof.Machine
end

section
/-! A region's first returning atomic by a core of die 1, on a page that is homed at die 0 (R81, R109): it drops die 1's read copy of the
sector, whose line the L2's keys do not tell from the line 2^40 above it. -/

namespace Sys2Proof.Machine

/-- `oneLane` in a region that holds nothing. -/
def regionLane : Group :=
  { oneLane with region := some (Region.new ⟨0, 0⟩ false (oneLane.snapshot oneLaneSplit ⟨0, 1⟩ 0) 0) }

/-- The group on a core of die 1; its page at virtual address 0 stands at 0x10000 with die 0 as its home, by page tables at 0x20000 on.
Die 0's L2 holds the page's first sector as home, with zeros; die 1's L2 holds a copy of it whose first byte is 1. -/
def copiedAtDie1 : State :=
  (((State.reset.setTeam 0 (newTeam 0 1 96 0 0 1 [0] 1024 false)).setGroup 3072 regionLane).onWork (fun w =>
    { w with ctxs := [(1, ⟨0, 0, 0, 0, 0, true, 0x20000, 2, false, false⟩)] }) |>.onMs fun ms =>
      { ms with
        mem := [(0x20000, 1), (0x20001, 0x10), (0x20002, 2), (0x21000, 1), (0x21001, 0x20), (0x21002, 2), (0x22000, 1),
          (0x22001, 0x30), (0x22002, 2), (0x23000, 0x8D), (0x23002, 1)]
        l2 := [(l2Key 0 0x200, ⟨[⟨.c, 0, false, 0, 0⟩], 0⟩), (l2Key 1 0x200, ⟨[⟨.c, 1, false, 0, 0⟩], 0⟩)] }) |> fun s =>
    { s with sel := ⟨96, 0, 0⟩ }

/-- The group's exchange at virtual address 0. -/
def regionExchange : Instr := .axch .always 0 (.v 1) (.v 0) 0 false .b64 .dev (.v 2)

/-- The group's unit at that exchange. -/
def exchangeUnit : Cx := ⟨copiedAtDie1, 3072, regionLane, regionLane, oneLaneSplit, 1, regionExchange⟩

theorem cx?_copiedAtDie1 : cx? regionExchange copiedAtDie1 = some exchangeUnit := rfl

theorem exchangeUnit_clear : exchangeUnit.Clear where
  opened := by decide
  sound := by decide
  team := by decide
  names := by decide
  native := by decide
  free := by decide
  closed := by decide
  quiet := by decide
  queues := by decide
  popless := by decide
  arrives := by decide
  filled := by decide
  room := by decide

/-- The exchange's lookups: their answers and the state after them. -/
def exchangeLookups : Xlated × State := translateLanes copiedAtDie1 3072 1 .write true [(0, 0)]

theorem exchangeLookups_fst : exchangeLookups.1 = ⟨[⟨0, 0, Leaf.of 0x1008D, 0x10000⟩], [], []⟩ := by decide +kernel

/-- The lookups map the lane. -/
theorem exchangeLookups_eq : exchangeLookups = (⟨[⟨0, 0, Leaf.of 0x1008D, 0x10000⟩], [], []⟩, exchangeLookups.2) :=
  Prod.ext exchangeLookups_fst rfl

theorem exchangeUnit_placed : placed 8 [(0, 0)] := by
  intro e he
  obtain rfl := List.mem_singleton.1 he
  decide

theorem exchangeUnit_reaches :
    exchangeUnit.Reaches .write true [(0, 0)] [⟨0, 0, Leaf.of 0x1008D, 0x10000⟩] exchangeLookups.2 :=
  ⟨exchangeLookups_eq, by decide +kernel, by decide +kernel⟩

theorem exchangeUnit_word : exchangeUnit.atomicWord regionExchange =
    some (1, .b64, .v 2, [(0, 0)], fun n => .axch .b64 ((exchangeUnit.source .stop .int (.v 1) 0).lane n)) :=
  congrArg₂ (fun m ls => some (m, MemTy.b64, Dst.v 2, ls, fun n => MemOp.axch .b64 ((exchangeUnit.source .stop .int (.v 1) 0).lane n)))
    (show exchangeUnit.guard .always = 1 by decide)
    (show exchangeUnit.addrs (.v 0) 0 (MemTy.size .b64) (exchangeUnit.guard .always) = [(0, 0)] by decide)

/-- The state in which the exchange reads, and which it leaves to COMMIT. -/
def exchangeRead : State := (exchangeUnit.after exchangeLookups.2).atHomes [⟨0, 0, Leaf.of 0x1008D, 0x10000⟩]

theorem exchangeRead_eq : exchangeRead = (exchangeUnit.after exchangeLookups.2).atHomes [⟨0, 0, Leaf.of 0x1008D, 0x10000⟩] := rfl

/-- Die 1's key of the sector's line is die 0's key of the line 2^40 above it, whose first byte changes when die 1's copy goes. -/
theorem exchangeRead_above : byteNow exchangeRead.ms (2 ^ 40 + 0x10000) ≠ byteNow exchangeLookups.2.ms (2 ^ 40 + 0x10000) := by
  decide +kernel

theorem exchangeLookups_ms : exchangeLookups.2.ms = copiedAtDie1.ms := by decide +kernel

/-- Both L2s' copies of the page's first sector are clean: no slice waits for it. -/
theorem copiedAtDie1_l2Sector (d : Nat) : (l2Sector copiedAtDie1.ms d (0x10000 / 32)).st ≠ .f := by
  by_cases h0 : d = 0
  · subst h0; decide
  by_cases h1 : d = 1
  · subst h1; decide
  have hkey : NMap.get? copiedAtDie1.ms.l2 (l2Key d (0x10000 / 32 / 4)) = none := by
    refine NMap.get?_of_not_mem ?_
    show l2Key d (0x10000 / 32 / 4) ∉ [l2Key 0 0x200, l2Key 1 0x200]
    simp only [l2Key, List.mem_cons, List.not_mem_nil, or_false]
    omega
  rw [l2Sector, hkey]
  decide

/-- Die 0's L2 holds the exchange's sector as home. -/
theorem exchangeLookups_homeAt : homeAt exchangeLookups.2 (Leaf.of 0x1008D) (0x10000 / 32) := by
  unfold homeAt
  rw [exchangeLookups_ms]
  exact ⟨by decide, .inl (by decide), fun d => ⟨copiedAtDie1_l2Sector d, rfl⟩⟩

/-- Refutes O13: the L2 keys a line of a die by the die's number times 2^33 plus the line's, so that die 1's read copy of a sector and
the sector 2^40 above it, which lies outside main memory, are one copy; the atomic drops it. The statement's last clause ranges over
every number `pa`, and does not ask that it be an address of main memory. -/
theorem not_regionKeepsItsWrites : ¬ Obligations.RegionKeepsItsWrites := by
  rintro ⟨-, h⟩
  obtain ⟨u, -, -, -, -, -, -, -, hread, -, -, -, -, -, -, -, hbytes⟩ :=
    h regionExchange copiedAtDie1 exchangeLookups.2 exchangeUnit 1 .b64 (.v 2) [(0, 0)] _ _ _ cx?_copiedAtDie1 exchangeUnit_clear rfl
      exchangeUnit_word exchangeUnit_placed exchangeUnit_reaches (by decide) (by decide) rfl rfl (fun _ _ _ he => nomatch he)
  refine exchangeRead_above ?_
  rw [← exchangeRead_eq] at hread
  rw [← hread]
  refine hbytes (fun y hy => ?_) (2 ^ 40 + 0x10000)
  obtain rfl := List.mem_singleton.1 hy
  exact exchangeLookups_homeAt

end Sys2Proof.Machine
end

section
/-! COPY in a region, of more than 4,096 sectors, while another result of the group is pending (R129, R145, R201): it is held with the mark
of the side log that its descriptor's read has set. -/

namespace Sys2Proof.Machine

/-- A result that no split's window covers and no register waits for. -/
def idleResult : Pending :=
  { on := .cycle 1000, prod := ⟨0, 0⟩, rooms := [], lanes := 1, ages := [], act := 1, regs := [], nq := 0, vals := [], kq := none
    pred := none, flags := 0, flagLanes := 0, trap := none, stamp := 0 }

/-- A group of context 1 in a region, of which lane 0 runs, with a result pending. Its register 0 holds a command that writes the
scratchpad; its other registers hold zero. -/
def copyLane : Group :=
  { newGroup 0 (fetchInfo 1 0 0 0) 0 24 [] 0 (fun n => if n = 0 then LaneReg.splat 0x100000 else LaneReg.zero) with
    splits := [oneLaneSplit], pend := [idleResult]
    region := some (Region.new ⟨0, 0⟩ false (oneLane.snapshot oneLaneSplit ⟨0, 1⟩ 0) 0) }

/-- The group's page at virtual address 0 stands at 0x10000, by page tables at 0x20000 on. It holds the descriptor of a row of 2^24
elements. -/
def vastDescriptor : State :=
  ((State.reset.setTeam 0 (newTeam 0 1 0 0 0 1 [0] 1024 false)).setGroup 0 copyLane).onWork (fun w =>
    { w with ctxs := [(1, ⟨0, 0, 0, 0, 0, true, 0x20000, 2, false, false⟩)] }) |>.onMs fun ms =>
      { ms with
        mem := [(0x10010, 0xFF), (0x10011, 0xFF), (0x10012, 0xFF), (0x20000, 1), (0x20001, 0x10), (0x20002, 2), (0x21000, 1),
          (0x21001, 0x20), (0x21002, 2), (0x22000, 1), (0x22001, 0x30), (0x22002, 2), (0x23000, 0x8D), (0x23002, 1)] }

/-- The group's copy. -/
def vastCopy : Instr := copyInstr false .stop .always (.v 0) (.v 1)

/-- The group's unit at that copy. -/
def copyUnit : Cx := ⟨vastDescriptor, 0, copyLane, copyLane, oneLaneSplit, 1, vastCopy⟩

theorem cx?_vastDescriptor : cx? vastCopy vastDescriptor = some copyUnit := rfl

theorem copyUnit_clear : copyUnit.Clear where
  opened := by decide
  sound := by decide
  team := by decide
  names := by decide
  native := by decide
  free := by decide
  closed := by decide
  quiet := by decide
  queues := by decide
  popless := by decide
  arrives := by decide
  filled := by decide
  room := by decide

/-- The lookups of the descriptor's read: their answers and the state after them. -/
def descLookups : Xlated × State := translateLanes vastDescriptor 0 1 .read false [(0, 0)]

theorem descLookups_fst : descLookups.1 = ⟨[⟨0, 0, Leaf.of 0x1008D, 0x10000⟩], [], []⟩ := by decide +kernel

theorem descLookups_eq : descLookups = (⟨[⟨0, 0, Leaf.of 0x1008D, 0x10000⟩], [], []⟩, descLookups.2) := Prod.ext descLookups_fst rfl

theorem copyUnit_reaches : copyUnit.Reaches .read false [(0, 0)] [⟨0, 0, Leaf.of 0x1008D, 0x10000⟩] descLookups.2 :=
  ⟨descLookups_eq, by decide +kernel, by decide +kernel⟩

/-- The descriptor's read: its bytes, whether they are poisoned and where, and the unit after it. -/
def descRead : List Byte × Bool × Nat × Cx := (copyUnit.after descLookups.2).descSectors (Leaf.of 0x1008D) 0x10000 0 64

/-- The words of the descriptor. -/
def descWords : List W64 := wordsOfBytes descRead.1 8

theorem descWords_eq : descWords = [0, 0, 0xFFFFFF, 0, 0, 0, 0, 0] := by decide +kernel

/-- A descriptor of 64 bytes arrives where its lane's address is mapped in device memory, as the reads of its sectors give it. -/
theorem Cx.Reads.of_reaches {c : Cx} {lane addr : Nat} {x : LaneXl} {s : State} {d : List Byte × Bool × Nat × Cx}
    (ha : addr % 64 = 0) (hw : wildAddr addr = false)
    (hr : c.Reaches .read false [(lane, addr)] [x] s) (ht : x.leaf.tgt = 0)
    (hf : (c.after s).fits 0 ((c.after s).newHolds ((List.range 2).map (x.pa / 32 + ·))))
    (hd : d = (c.after s).descSectors x.leaf x.pa addr 64) (hp : d.2.1 = false) :
    c.Reads lane addr 64 64 d.2.2.2 (wordsOfBytes d.1 8) := by
  subst hd
  exact ⟨ha, hw, x, s, hr, ht, hf, hp, rfl, rfl⟩

theorem descRead_eq : descRead = (copyUnit.after descLookups.2).descSectors (Leaf.of 0x1008D) 0x10000 0 64 := by
  rw [descRead]

theorem descRead_sound : descRead.2.1 = false := by decide +kernel

theorem copyUnit_fits : (copyUnit.after descLookups.2).fits 0
    ((copyUnit.after descLookups.2).newHolds ((List.range 2).map (0x10000 / 32 + ·))) :=
  .inr (by decide +kernel)

theorem copyUnit_reads : copyUnit.Reads 0 0 64 64 descRead.2.2.2 descWords :=
  Cx.Reads.of_reaches (by decide) (by decide) copyUnit_reaches (by decide) copyUnit_fits descRead_eq descRead_sound

/-- The mark of the side log that the group's split keeps. -/
def State.keptMark (s : State) : Option Nat := (s.group? 0).bind fun g => (g.split? 0).bind Split.logMark

/-- The unit that the statement speaks of has no mark. -/
theorem raise_keptMark : (descRead.2.2.2.raise 0x0E 0).keptMark = none := by decide +kernel

/-- What holds of a word's effect holds of the state that its unit issues to. -/
theorem exists_issue_clear {i : Instr} {s : State} {c : Cx} {body : Cx → State} {p : State → Prop} (hc : cx? i s = some c)
    (h : c.Clear) (hp : p (body c)) : ∃ u, issue i Checks.none s body = .next u ∧ p u :=
  ⟨_, issue_clear (ck := Checks.none) hc h (fun _ hn => nomatch hn) rfl rfl rfl body, hp⟩

/-- The word itself is held with the mark that its descriptor's read has set. -/
theorem exec_vastCopy : ∃ u, exec vastCopy vastDescriptor = .next u ∧ u.keptMark = some 0 := by
  show ∃ u, execCopy .stop .always (.v 0) (.v 1) vastDescriptor = .next u ∧ u.keptMark = some 0
  unfold execCopy copyWord
  exact exists_issue_clear (p := fun u => u.keptMark = some 0) cx?_vastDescriptor copyUnit_clear (by decide +kernel)

theorem copyUnit_command : (copyUnit.opA .stop .int (.v 0)).lane 0 = 0x100000 := by decide +kernel

theorem copyUnit_address : ((copyUnit.opB .stop .int (.v 0) (.v 1)).lane 0).toNat = 0 := by decide +kernel

/-- Refutes O40: the descriptor's read marks the split's place in the side log (`Cx.reading`), and where a result of the group is
pending the word that takes ILLREGION is held with that mark (`Cx.trap`). The statement's unit `c'` is without it, and the statement
does not ask that nothing be pending. -/
theorem not_copyEntersItsQueue : ¬ Obligations.CopyEntersItsQueue := by
  intro h
  obtain ⟨-, hlane⟩ := h false .stop .always (.v 0) (.v 1) vastDescriptor copyUnit cx?_vastDescriptor copyUnit_clear
  have hcopy := hlane 0 descRead.2.2.2 descWords (by decide)
  dsimp only at hcopy
  rw [copyUnit_command, copyUnit_address, descWords_eq] at hcopy
  obtain ⟨-, hregion⟩ := hcopy (by decide) (by decide) ⟨by decide, by decide, by decide⟩ (by decide +kernel)
  obtain ⟨-, hlarge, -⟩ := hregion _ rfl (by decide) (descWords_eq ▸ copyUnit_reads)
  obtain ⟨u, hex, hmark⟩ := exec_vastCopy
  have hu := Host.Outcome.next.inj (hex.symm.trans (hlarge (by decide) (by decide)))
  rw [hu, raise_keptMark] at hmark
  cases hmark

end Sys2Proof.Machine
end

section
/-! What the stores that a region sends leave of groups (R57, R82, R320): a group whose splits are held for COMMIT stands as it was. -/

namespace Sys2Proof.Machine

/-- The group's splits are all held for COMMIT. -/
def Group.heldForCommit (g : Group) : Prop := ∀ sp ∈ g.splits, sp.hold = some .commit

/-- Groups that are held for COMMIT in `s` stand in `t` as they were. -/
structure State.heldKept (s t : State) : Prop where
  group : ∀ k g, s.group? k = some g → g.heldForCommit → t.group? k = some g

theorem State.heldKept_refl (s : State) : s.heldKept s := ⟨fun _ _ hg _ => hg⟩

theorem State.heldKept.andThen {s t u : State} (h : s.heldKept t) (h' : t.heldKept u) : s.heldKept u :=
  ⟨fun k g hg hh => h'.group k g (h.group k g hg hh) hh⟩

theorem heldKept_of_groups {s t : State} (h : t.work.groups = s.work.groups) : s.heldKept t :=
  ⟨fun k g hg _ => by rw [State.group?, h]; exact hg⟩

theorem State.memoryOnly.heldKept {s t : State} (h : s.memoryOnly t) : s.heldKept t := by
  obtain ⟨-, -, -, hwork, -⟩ := h
  exact heldKept_of_groups (congrArg Work.groups hwork)

theorem heldKept_onVm (s : State) (f : VmSide → VmSide) : s.heldKept (s.onVm f) := heldKept_of_groups rfl

/-- An entry of a map whose entries change by their keys. -/
theorem NMap.get?_mapKeys {α β : Type} (m : NMap α) (f : Nat → α → β) (k : Nat) :
    NMap.get? (m.map fun e => (e.1, f e.1 e.2)) k = (NMap.get? m k).map (f k) := by
  induction m with
  | nil => rfl
  | cons e m ih =>
    by_cases hk : e.1 = k
    · simp only [List.map_cons, NMap.get?, hk, if_true, Option.map_some]
    · simp only [List.map_cons, NMap.get?, hk, if_false, ih]

/-- The group with its splits changed. -/
def Group.mapSplits (f : Split → Split) (g : Group) : Group := { g with splits := g.splits.map f }

/-- A change of splits that leaves those held for COMMIT. -/
theorem heldKept_mapSplits {s t : State} {f : Nat → Split → Split} (hf : ∀ k sp, sp.hold = some .commit → f k sp = sp)
    (h : t.work.groups = s.work.groups.map fun e => (e.1, e.2.mapSplits (f e.1))) : s.heldKept t := by
  refine ⟨fun k g hg hheld => ?_⟩
  rw [State.group?, h, NMap.get?_mapKeys s.work.groups fun k => Group.mapSplits (f k),
    show NMap.get? s.work.groups k = some g from hg]
  exact congrArg (fun l => some { g with splits := l })
    ((List.map_congr_left fun sp hsp => hf k sp (hheld sp hsp)).trans (List.map_id g.splits))

/-! ## Lookups -/

theorem heldKept_invalidateRange (s : State) (ctx : Option Nat) (range : Option (Nat × Nat)) :
    s.heldKept (invalidateRange s ctx range) :=
  heldKept_mapSplits (f := fun _ sp => sp.release (invalMeets ctx range)) (fun _ sp hsp => by rw [Split.release, hsp]) rfl

/-- An access that ends a compression (R67). -/
theorem heldKept_abandonCompression (s : State) (ctx va : Nat) : s.heldKept (abandonCompression s ctx va) := by
  unfold abandonCompression
  split
  · exact s.heldKept_refl
  · next m _ =>
    have h := (memoryOnly_casLeaf s m.leafAt ((m.old &&& ~~~(w64 1)) ||| w64 0x20) m.old).heldKept
    dsimp only
    generalize casLeaf s m.leafAt ((m.old &&& ~~~(w64 1)) ||| w64 0x20) m.old = r at h ⊢
    exact (h.andThen (heldKept_onVm ..)).andThen (heldKept_invalidateRange ..)

theorem heldKept_walkDie (s : State) (die ctx va : Nat) : s.heldKept (walkDie s die ctx va).2 := by
  unfold walkDie
  dsimp only
  exact (memoryOnly_walkReads s ctx va _ _).heldKept.andThen (heldKept_onVm ..)

theorem heldKept_postVmFault (s : State) (ctx va kind access : Nat) (ag : Agent) (lv : Nat) :
    s.heldKept (postVmFault s ctx va kind access ag lv) := by
  unfold postVmFault
  dsimp only
  split
  · exact s.heldKept_refl
  · have hposted (posted : List PostedFault) (r : Ring) (rec : Nat) := (heldKept_onVm s fun vm => { vm with posted := posted }).andThen
      (memoryOnly_post memoryOnly_physWrite r 1024 rec _).heldKept
    split
    · exact ((hposted _ _ _).andThen (heldKept_onVm ..)).andThen (memoryOnly_raiseVector ..).heldKept
    · exact (hposted _ _ _).andThen (heldKept_onVm ..)

theorem heldKept_finishWalk (s : State) (w : Walk) (ag : Agent) (ctx va : Nat) (acc : AccessKind) (atomic : Bool) :
    s.heldKept (finishWalk s w ag ctx va acc atomic).2.2 := by
  unfold finishWalk
  dsimp only
  split
  · exact heldKept_postVmFault ..
  · exact heldKept_postVmFault ..
  · split
    · exact heldKept_postVmFault ..
    · split
      · exact s.heldKept_refl
      · dsimp only
        split
        · exact s.heldKept_refl
        · exact heldKept_of_groups rfl
      · exact s.heldKept_refl
      · exact heldKept_postVmFault ..

theorem heldKept_walkFor (s : State) (ag : Agent) (ctx va : Nat) (acc : AccessKind) (atomic : Bool) :
    s.heldKept (walkFor s ag ctx va acc atomic).2.2 := by
  have h := heldKept_walkDie s ag.die ctx va
  unfold walkFor
  dsimp only
  generalize walkDie s ag.die ctx va = r at h ⊢
  split
  · split
    · exact ((h.andThen (heldKept_abandonCompression r.2 ctx va)).andThen (heldKept_walkDie _ ag.die ctx va)).andThen
        (heldKept_finishWalk ..)
    · exact h.andThen (heldKept_finishWalk ..)
  · exact h.andThen (heldKept_finishWalk ..)

theorem heldKept_translate (s : State) (k : Nat) (lane : Option Nat) (ctx va : Nat) (acc : AccessKind) (atomic : Bool) :
    s.heldKept (translate s k lane ctx va acc atomic).2 := by
  have hpage (t : State) (l : Nat) (x : Xlate) : t.heldKept (setLastPage t k l x) := heldKept_onVm ..
  unfold translate
  dsimp only
  split
  · exact s.heldKept_refl
  · split
    · cases lane with
      | none => exact s.heldKept_refl
      | some l =>
        split
        · exact hpage ..
        · exact s.heldKept_refl
    · have h := heldKept_walkFor s (coreAgent (coreOf k)) ctx va acc atomic
      generalize walkFor s (coreAgent (coreOf k)) ctx va acc atomic = w at h ⊢
      obtain ⟨r, m, s'⟩ := w
      cases m with
      | none => exact h
      | some e =>
        cases lane with
        | none => exact h.andThen (heldKept_onVm s' fun vm => { vm with tlb := _ })
        | some l =>
          dsimp only
          split
          · exact (h.andThen (heldKept_onVm s' _)).andThen (hpage ..)
          · exact h.andThen (heldKept_onVm s' _)

theorem heldKept_samplePage (s : State) (l : Leaf) (ctx va die : Nat) : s.heldKept (samplePage s l ctx va die) := by
  unfold samplePage
  dsimp only
  split
  · exact s.heldKept_refl
  · exact heldKept_onVm ..

/-! ## Stores that leave -/

theorem heldKept_slogEnter (s : State) (core : Nat) (e : SlogEntry) : s.heldKept (slogEnter s core e) := by
  unfold slogEnter
  dsimp only
  split
  · exact heldKept_of_groups rfl
  · exact heldKept_of_groups rfl

/-- Waits in WAITM alone read again (R320). -/
theorem heldKept_wakeWaits (s : State) (core : Nat) (secs : List Nat) : s.heldKept (wakeWaits s core secs) := by
  refine heldKept_mapSplits (f := fun k sp => if coreOf k = core then sp.wake secs else sp) (fun k sp hsp => ?_)
    (List.map_congr_left fun e _ => ?_)
  · have hwake : sp.wake secs = sp := if_neg fun hw => by
      rw [hsp] at hw
      exact nomatch hw.1
    rw [hwake, ite_self]
  · split
    · rfl
    · simp only [Group.mapSplits, List.map_id']

theorem heldKept_postKind (s : State) (ctx gk addr core cause info kind : Nat) :
    s.heldKept (postKind s ctx gk addr core cause info kind) :=
  (memoryOnly_postAsync ..).heldKept.andThen (heldKept_of_groups rfl)

theorem onGrid_groups (s : State) (gk : Nat) (f : Grid → Grid) : (s.onGrid gk f).work.groups = s.work.groups := rfl

theorem heldKept_redPoison (s : State) (w : Writer) (va bad : Nat) : s.heldKept (redPoison s w va bad) := by
  unfold redPoison
  extract_lets grid accept
  generalize accept = a
  split
  · exact s.heldKept_refl
  · split
    · exact heldKept_of_groups (State.foldl_keeps (fun s => s.work.groups) _ (fun s gk => onGrid_groups s gk _) s)
    · exact heldKept_postKind ..

/-- A fold whose steps each give an answer beside the state. -/
theorem heldKept_foldl_snd {α β : Type} (l : List α) {f : β × State → α → β × State}
    (h : ∀ (r : β × State) a, r.2.heldKept (f r a).2) (r : β × State) : r.2.heldKept (l.foldl f r).2 := by
  induction l generalizing r with
  | nil => exact r.2.heldKept_refl
  | cons a l ih => exact (h r a).andThen (ih _)

/-- A fold whose steps each give two answers beside the state. -/
theorem heldKept_foldl_snd_snd {α β γ : Type} (l : List α) {f : β × γ × State → α → β × γ × State}
    (h : ∀ (r : β × γ × State) a, r.2.2.heldKept (f r a).2.2) (r : β × γ × State) : r.2.2.heldKept (l.foldl f r).2.2 := by
  induction l generalizing r with
  | nil => exact r.2.2.heldKept_refl
  | cons a l ih => exact (h r a).andThen (ih _)

/-- An atomic at its home writes memory and wakes waits (R312, R320). -/
theorem heldKept_atomDevice (s : State) (core : Nat) (l : Leaf) (pa ctx : Nat) (op : MemOp) :
    s.heldKept (atomDevice s core l pa ctx op).2.2.2 := by
  have h := ((memoryOnly_noteMiss s core (homeDelay core l.home)).andThen
    (memoryOnly_dropCopies _ core l.home (pa / 32))).andThen (memoryOnly_homeFetch _ l.home (pa / 32) ctx l.noalloc)
  unfold atomDevice
  dsimp only
  generalize homeFetch (dropCopies (noteMiss s core (homeDelay core l.home)) core l.home (pa / 32)) l.home (pa / 32) ctx l.noalloc = r
    at h ⊢
  split
  · exact h.heldKept
  · split
    · exact h.heldKept
    · next v _ =>
      exact (h.andThen (memoryOnly_homeWrite r.2 l.home (pa / 32) ctx _ (Sector.ofNat v (pa % 32) _) false)).heldKept.andThen
        (heldKept_wakeWaits ..)

theorem heldKept_sendSector (s : State) (w : Writer) (l : Leaf) (pa va : Nat) (kind : StoreKind) (poison : Bool) :
    s.heldKept (sendSector s w l pa va kind poison).2 := by
  unfold sendSector
  split
  · cases kind with
    | store x m => exact (memoryOnly_coreWrite s w.core l.home (pa / 32) w.ctx m x poison).heldKept.andThen (heldKept_wakeWaits ..)
    | red op ty ops =>
      dsimp only
      refine State.heldKept.andThen (heldKept_foldl_snd_snd ops (fun r o => ?_) (0, 0, s)) (heldKept_redPoison ..)
      exact heldKept_atomDevice r.2.2 w.core l (pa / 32 * 32 + o.1) w.ctx (.atom op ty o.2)
  · refine heldKept_foldl_snd (kindOps kind) (fun r o => ?_) (([] : List Outstanding), s)
    have h := (memoryOnly_sendRemote r.2 (.store w.k w.split) w.sender l (pa / 32 * 32 + o.1) (va / 32 * 32 + o.1) o.2 poison).heldKept
    dsimp only
    generalize sendRemote r.2 (.store w.k w.split) w.sender l (pa / 32 * 32 + o.1) (va / 32 * 32 + o.1) o.2 poison = q at h ⊢
    split
    · exact h
    · exact h.andThen (heldKept_slogEnter ..)

theorem heldKept_storeOut (s : State) (w : Writer) (va : Nat) (kind : StoreKind) (poison : Bool) :
    s.heldKept (storeOut s w va kind poison).2 := by
  unfold storeOut
  split
  · exact heldKept_slogEnter ..
  · have h := heldKept_translate s w.k none w.ctx va .write false
    generalize translate s w.k none w.ctx va .write false = r at h ⊢
    obtain ⟨x, t⟩ := r
    dsimp only at h ⊢
    cases x with
    | ok l pa => exact (h.andThen (heldKept_samplePage ..)).andThen (heldKept_sendSector ..)
    | wait => exact h.andThen (heldKept_slogEnter ..)
    | denied => exact h.andThen (heldKept_postKind ..)

/-- A region's buffer leaves (R82): groups that are held for COMMIT stand as they were. -/
theorem heldKept_sendBuffer (s : State) (w : Writer) (team : Nat) (buf : List BufEntry) :
    s.heldKept (sendBuffer s w team buf).2 := by
  refine heldKept_foldl_snd buf (fun r e => ?_) (([] : List Outstanding), s)
  dsimp only
  split
  · split
    · obtain ⟨-, -, hgroups⟩ := onScratch_rest r.2 team (fun sc => sc.write (e.va / 32) _ _ false)
      exact ⟨fun k g hg _ => (hgroups k).trans hg⟩
    · exact r.2.heldKept_refl
  · exact heldKept_storeOut ..

end Sys2Proof.Machine
end

section
/-! COMMIT (R404): what its commit leaves of its group, and the claim put together. -/

namespace Sys2Proof.Machine

theorem onGroup_of_group? {s : State} {k : Nat} {g : Group} (h : s.group? k = some g) (f : Group → Group) :
    s.onGroup k f = s.setGroup k (f g) := by
  rw [State.onGroup, h]

/-- An undivided group has the split in hand alone. -/
theorem Cx.splits_of_undivided {c : Cx} (hsp : c.g.split? c.sp.id = some c.sp) (h : c.g.inSplits = false) : c.g.splits = [c.sp] := by
  have hmem : c.sp ∈ c.g.splits := List.mem_of_find?_eq_some hsp
  have hlen : ¬ 1 < c.g.splits.length := of_decide_eq_false h
  generalize c.g.splits = l at hmem hlen ⊢
  rcases l with _ | ⟨sp, _ | ⟨sp', l⟩⟩
  · exact nomatch hmem
  · rw [List.mem_singleton.1 hmem]
  · simp at hlen

/-! ## The group while its commit is on the way -/

/-- The region of a commit on the way. -/
def Region.closing (r : Region) : Region := { r with phase := .commitWait, after := .close }

/-- A split that is held for COMMIT. -/
def Split.committing (sp : Split) : Split := { sp with hold := some .commit }

/-- The group of `Cx.committing`. -/
def Cx.committingGroup (c : Cx) : Group := (c.g.onRegion Region.closing).mapSplits Split.committing

theorem Cx.committing_eq (c : Cx) : c.committing = ({ c.st with last := .held } : State).setGroup c.k c.committingGroup :=
  onGroup_of_group? (s := { c.st with last := .held }) (State.group?_setGroup c.s c.k c.g) _

theorem Cx.committing_group (c : Cx) : c.committing.group? c.k = some c.committingGroup := by
  rw [c.committing_eq]
  exact State.group?_setGroup ..

theorem Cx.committing_ms (c : Cx) : c.committing.ms = c.s.ms := by
  rw [c.committing_eq]
  rfl

theorem Cx.committingGroup_heldForCommit (c : Cx) : c.committingGroup.heldForCommit := fun _ hsp => by
  obtain ⟨sp, -, rfl⟩ := List.mem_map.1 hsp
  rfl

theorem Cx.committingGroup_region {c : Cx} {r : Region} (h : c.g.region = some r) : c.committingGroup.region = some r.closing :=
  congrArg (Option.map Region.closing) h

/-- A commit's conditions are those of the group before it. -/
theorem Cx.commitReady_committing (c : Cx) (r : Region) :
    commitReady c.committing c.committingGroup r.closing = commitReady c.s c.g r := by
  rw [c.committing_eq]
  rfl

theorem Cx.commit_close {c : Cx} {r : Region} (h : c.g.region = some r) :
    c.commit .close = if commitReady c.s c.g r then finishCommit c.committing c.k else c.committing := by
  have hcommit : c.commit .close = match c.committing.group? c.k with
      | none => c.committing
      | some g =>
        match g.region with
        | none => c.committing
        | some r => if commitReady c.committing g r then finishCommit c.committing c.k else c.committing := rfl
  rw [hcommit, c.committing_group]
  dsimp only
  rw [Cx.committingGroup_region h]
  dsimp only
  rw [c.commitReady_committing]

/-! ## The commit -/

/-- The group after its region's buffer has left. -/
def Cx.committedGroup (c : Cx) (o : List Outstanding) : Group := { c.committingGroup.await o with region := none }

theorem Cx.committingGroup_writer {c : Cx} (h : c.g.splits = [c.sp]) :
    c.committingGroup.writer c.k ((c.committingGroup.splits.head?.map Split.id).getD 0) = c.writer := by
  have hs : c.committingGroup.splits = [c.sp.committing] := congrArg (List.map Split.committing) h
  rw [hs]
  rfl

/-- A commit without a returning atomic and without held effects sends the buffer, and the region is gone. -/
theorem Cx.commitRegion_committing {c : Cx} {r : Region} (hr : c.g.region = some r) (hs : c.g.splits = [c.sp])
    (ha : r.atomic = none) (he : r.effects = []) :
    ∃ t, commitRegion c.committing c.k = some t ∧ t.ms = (sendBuffer c.committing c.writer c.g.info.team r.buf).2.ms ∧
      t.group? c.k = some (c.committedGroup (sendBuffer c.committing c.writer c.g.info.team r.buf).1) := by
  have hsent := (heldKept_sendBuffer c.committing c.writer c.g.info.team r.buf).group c.k _ c.committing_group
    c.committingGroup_heldForCommit
  have hclosed := onGroup_of_group? hsent fun g =>
    { g.await (sendBuffer c.committing c.writer c.g.info.team r.buf).1 with region := none }
  unfold commitRegion
  rw [c.committing_group]
  dsimp only
  rw [Cx.committingGroup_region hr]
  dsimp only
  rw [show r.closing.atomic = none from ha, show r.closing.effects = [] from he, Cx.committingGroup_writer hs,
    show r.closing.buf = r.buf from rfl, show c.committingGroup.info = c.g.info from rfl]
  dsimp only [List.foldl_nil, List.nil_append]
  rw [hclosed]
  refine ⟨_, rfl, ?_, ?_⟩
  · split <;> rfl
  · have hg (s : State) (g : Group) := State.group?_setGroup s c.k g
    split <;> exact hg _ _

/-- A split at the next word after its group's commit. -/
def Split.pastCommit (cycle : Nat) (sp : Split) : Split :=
  { sp with hold := none, waitStart := none, pc := sp.pc.add 1, arrive := none, lastIssue := cycle }

/-- The group at the next word after its commit, halted or not. -/
def Group.pastCommit (g : Group) (cycle : Nat) (b : Bool) : Group :=
  ({ g.shrinkWindows ((g.splits.head?.map Split.id).getD 0) 1 with halted := b } : Group).mapSplits (Split.pastCommit cycle)

/-- A commit of COMMIT's own ends with the group at the next word. -/
theorem finishCommit_close {s t : State} {k : Nat} {g h : Group} {r : Region} (hg : s.group? k = some g) (hr : g.region = some r)
    (ha : r.after = .close) (hc : commitRegion s k = some t) (ht : t.group? k = some h) :
    ∃ x b, finishCommit s k = { (t.setGroup k x).setGroup k (h.pastCommit t.clock.cycle b) with last := .issued } := by
  unfold finishCommit
  simp only [hg, Option.bind_some, hr, hc, ha, ht, onGroup_of_group? ht, onGroup_of_group? (State.group?_setGroup t k _)]
  exact ⟨_, h.halted || h.proxyOf.isSome, rfl⟩

/-! ## The claim -/

theorem exec_commit {b : Bool} {s : State} {c : Cx} {r : Region} (hc : cx? (.commit b) s = some c) (h : c.Clear)
    (hi : c.g.inSplits = false) (hr : c.g.region = some r) :
    exec (.commit b) s = .next (if commitReady c.s c.g r then finishCommit c.committing c.k else c.committing) := by
  show execCommit b s = _
  unfold execCommit
  rw [issue_clear (ck := wholeChecks) hc h (fun _ hn => nomatch hn) hi rfl rfl, ← Cx.commit_close hr]
  exact congrArg Host.Outcome.next (if_pos (by rw [Group.inRegion, hr]; rfl))

theorem State.last_eq_issued (s : State) : ({ s with last := .issued } : State).last = .issued := rfl

/-- COMMIT takes one word. -/
theorem width_commit (b : Bool) : Instr.width (.commit b) = 1 := by
  cases b <;> decide

/-- A commit leaves the group's registers and system registers, and closes its region. -/
theorem Cx.pastCommit_committedGroup (c : Cx) (o : List Outstanding) (cycle : Nat) (halt : Bool) :
    ((c.committedGroup o).pastCommit cycle halt).regs = c.g.regs ∧ ((c.committedGroup o).pastCommit cycle halt).sys = c.g.sys ∧
      ((c.committedGroup o).pastCommit cycle halt).region = none ∧
      ((c.committedGroup o).pastCommit cycle halt).splits = (c.g.splits.map Split.committing).map (Split.pastCommit cycle) := by
  simp only [Group.pastCommit, Group.mapSplits, Group.shrinkWindows, Cx.committedGroup, Group.await, Cx.committingGroup,
    Group.onRegion, and_self]

/-- The group is at the next word, its registers and system registers as before. -/
theorem Cx.passed_pastCommit {b : Bool} {s u : State} {c : Cx} (hc : cx? (.commit b) s = some c) (hs : c.g.splits = [c.sp])
    {o : List Outstanding} {cycle : Nat} {halt : Bool} (hlast : u.last = .issued)
    (hu : u.group? c.k = some ((c.committedGroup o).pastCommit cycle halt)) :
    c.Passed ((c.committedGroup o).pastCommit cycle halt) u := by
  obtain ⟨hregs, hsys, -, hsplits⟩ := c.pastCommit_committedGroup o cycle halt
  obtain ⟨-, -, -, -, hi, -⟩ := cx?_eq hc
  have hnext : c.nextPc = c.sp.pc.add 1 := by rw [Cx.nextPc, hi, width_commit]
  generalize (c.committedGroup o).pastCommit cycle halt = g at *
  refine ⟨⟨hlast, hu, ⟨c.sp.committing.pastCommit cycle, ?_, hnext.symm, rfl, rfl, rfl, rfl, rfl⟩, hregs⟩, hsys⟩
  rw [Group.split?, hsplits, hs]
  exact List.find?_cons_of_pos (beq_self_eq_true c.sp.id)

/-- Settles O32: while the stores leave, every split of the group is held for COMMIT, and nothing that they do touches such a split, so
that the group stands as it was until its commit ends. -/
theorem commitSendsTheBuffer : Obligations.CommitSendsTheBuffer := by
  intro b s c r hc h hi hr
  obtain ⟨-, -, -, hsp, -, -⟩ := cx?_eq hc
  have hs := Cx.splits_of_undivided hsp hi
  rw [exec_commit hc h hi hr]
  refine ⟨fun hready _ ha he => ?_, fun hready => ?_⟩
  · obtain ⟨t, hcommit, hms, hgroup⟩ := Cx.commitRegion_committing hr hs ha he
    obtain ⟨x, halt, hfinish⟩ := finishCommit_close c.committing_group (Cx.committingGroup_region hr) rfl hcommit hgroup
    rw [if_pos hready, hfinish]
    obtain ⟨-, -, hregion, -⟩ := c.pastCommit_committedGroup (sendBuffer c.committing c.writer c.g.info.team r.buf).1 t.clock.cycle halt
    exact ⟨_, _, rfl, Cx.passed_pastCommit hc hs (State.last_eq_issued _) (State.group?_setGroup (t.setGroup c.k x) c.k _),
      hregion, hms⟩
  · rw [hready]
    refine ⟨_, _, rfl, ⟨?_, _, c.sp.committing, c.committing_group, ?_, rfl, rfl, rfl, rfl⟩, c.committing_group, ?_,
      c.committing_ms⟩
    · rw [if_neg Bool.false_ne_true, c.committing_eq]
      rfl
    · rw [Group.split?, show c.committingGroup.splits = [c.sp.committing] from congrArg (List.map Split.committing) hs]
      exact List.find?_cons_of_pos (beq_self_eq_true c.sp.id)
    · rw [Cx.committingGroup_region hr]
      rfl

end Sys2Proof.Machine
end

section
/-! What records leave (R41, R461-R467): a record that the device writes to memory changes neither a unit's score nor any other register of
containment, nor what L1s hold, nor the errors that wait in slices. -/

namespace Sys2Proof.Machine

/-- `t` has the package of `s` but for the vectors raised and the containment ring, its L1s, and in its slices no new error. -/
structure State.unitsKept (s t : State) : Prop where
  pkg : { t.pkg with msix := s.pkg.msix, crq := s.pkg.crq } = s.pkg
  l1 : t.ms.l1 = s.ms.l1
  marks : ∀ e ∈ t.ms.l2marks, e ∈ s.ms.l2marks

theorem State.unitsKept_refl (s : State) : s.unitsKept s := ⟨rfl, rfl, fun _ => id⟩

theorem State.unitsKept.andThen {s t u : State} (h : s.unitsKept t) (h' : t.unitsKept u) : s.unitsKept u :=
  ⟨by rw [← h.pkg, ← h'.pkg], h'.l1.trans h.l1, fun e he => h.marks e (h'.marks e he)⟩

section Kept
variable {s t : State} (h : s.unitsKept t)
include h

theorem State.unitsKept.cns : t.pkg.cns = s.pkg.cns := by rw [← h.pkg]

theorem State.unitsKept.scores : t.pkg.scores = s.pkg.scores := by rw [← h.pkg]

theorem State.unitsKept.health : t.pkg.health = s.pkg.health := by rw [← h.pkg]

theorem State.unitsKept.scoreOf (kind index : Nat) : Machine.scoreOf t kind index = Machine.scoreOf s kind index := by
  rw [Machine.scoreOf, h.scores]
  rfl

end Kept

/-- A change of the memory side that leaves L1s and the slices' errors alone. -/
theorem unitsKept_onMs (s : State) {f : MemSide → MemSide} (h : (f s.ms).l1 = s.ms.l1 := by rfl)
    (h' : ∀ e ∈ (f s.ms).l2marks, e ∈ s.ms.l2marks := by exact fun _ => id) :
    s.unitsKept (s.onMs f) := ⟨rfl, h, h'⟩

theorem unitsKept_raiseVector (s : State) (v : Nat) : s.unitsKept (s.raiseVector v) := ⟨rfl, rfl, fun _ => id⟩

theorem unitsKept_draw (s : State) : s.unitsKept s.draw.2 := ⟨rfl, rfl, fun _ => id⟩

theorem unitsKept_setChan (s : State) (ch : Nat) (c : Channel) : s.unitsKept (s.setChan ch c) := unitsKept_onMs s

theorem unitsKept_foldl {α : Type} (l : List α) {f : State → α → State} (h : ∀ (s : State) a, s.unitsKept (f s a)) (s : State) :
    s.unitsKept (l.foldl f s) := by
  induction l generalizing s with
  | nil => exact s.unitsKept_refl
  | cons a l ih => exact (h s a).andThen (ih _)

/-! ## Packets -/

theorem unitsKept_onPacket (s : State) (ch n : Nat) (f : Packet → Packet) : s.unitsKept (onPacket s ch n f) := unitsKept_setChan ..

theorem unitsKept_dropPacket (s : State) (ch n : Nat) : s.unitsKept (dropPacket s ch n) := unitsKept_setChan ..

theorem unitsKept_awaitMove (s : State) (line : Nat) : s.unitsKept (awaitMove s line) := by
  unfold awaitMove
  split
  exacts [unitsKept_setChan .., s.unitsKept_refl]

theorem unitsKept_performStamp (s : State) (line : Nat) : s.unitsKept (performStamp s line).2 := ⟨rfl, rfl, fun _ => id⟩

theorem unitsKept_setL2Sector (s : State) (die sec : Nat) (x : L2Sector) (now : Nat) :
    s.unitsKept (s.onMs fun ms => setL2Sector ms die sec x now) :=
  unitsKept_onMs s rfl fun _ he => List.mem_of_mem_filter he

theorem unitsKept_setPoison (s : State) (sec : Nat) (p : Bool) : s.unitsKept (s.onMs fun ms => setPoison ms sec p) :=
  unitsKept_onMs s

/-- A check that leaves units alone. -/
def Check.unitsKept (check : Check) : Prop := ∀ (s : State) sec ty ctx, s.unitsKept (check s sec ty ctx).2

theorem noCheck_unitsKept : Check.unitsKept noCheck := fun (s : State) _ _ _ => s.unitsKept_refl

section Packets
variable {check : Check} (hc : Check.unitsKept check)
include hc

theorem unitsKept_takePart (s : State) (ch n i : Nat) : s.unitsKept (takePart check s ch n i) := by
  unfold takePart
  split
  · exact s.unitsKept_refl
  · split
    · exact s.unitsKept_refl
    · exact (hc ..).andThen (unitsKept_onPacket ..)

theorem unitsKept_performWith (s : State) (ch n sec ctx : Nat) (m : Word32) (x : Sector) :
    s.unitsKept (performWith check s ch n sec ctx m x).2 := by
  unfold performWith
  dsimp only
  have h := unitsKept_foldl ((s.chan ch).packets.filter fun p => !p.wr && decide (p.n < n) && p.line == sec / 4 &&
    p.names (sec % 4)) (fun (s : State) (p : Packet) => unitsKept_takePart hc s ch p.n (sec % 4)) s
  split <;> dsimp only
  · exact (h.andThen (unitsKept_setChan ..)).andThen (unitsKept_onMs _)
  · exact ((h.andThen (unitsKept_setChan ..)).andThen (hc ..)).andThen (unitsKept_onMs _)

theorem unitsKept_performPart (s : State) (ch n i : Nat) : s.unitsKept (performPart check s ch n i) := by
  unfold performPart
  split
  · exact s.unitsKept_refl
  · exact (unitsKept_performWith hc ..).andThen (unitsKept_onPacket ..)

theorem unitsKept_settleWith (s : State) (sec n : Nat) : s.unitsKept (settleWith check s sec n) :=
  unitsKept_foldl _ (fun (s : State) p => by
    split
    exacts [unitsKept_performPart hc .., s.unitsKept_refl]) s

theorem unitsKept_serveRead (s : State) (ch n : Nat) : s.unitsKept (serveRead check s ch n) := by
  unfold serveRead
  split
  · exact s.unitsKept_refl
  · exact ((unitsKept_foldl _ (fun (s : State) i => (unitsKept_settleWith hc ..).andThen (unitsKept_takePart hc ..)) s).andThen
      (unitsKept_setChan ..)).andThen (unitsKept_onPacket ..)

omit hc in
theorem unitsKept_deliverRead (s : State) (ch : Nat) (p : Packet) : s.unitsKept (deliverRead s ch p) :=
  (unitsKept_dropPacket ..).andThen (unitsKept_foldl _ (fun (s : State) g => by
    dsimp only
    split
    exacts [unitsKept_setL2Sector .., s.unitsKept_refl]) _)

theorem unitsKept_completeWith (s : State) (ch n : Nat) : s.unitsKept (completeWith check s ch n) := by
  unfold completeWith
  split
  · exact s.unitsKept_refl
  · dsimp only
    split
    · exact ((unitsKept_awaitMove ..).andThen (unitsKept_foldl _ (fun (s : State) i =>
        (unitsKept_settleWith hc ..).andThen (unitsKept_performPart hc ..)) _)).andThen (unitsKept_dropPacket ..)
    · split
      · exact ((unitsKept_awaitMove ..).andThen (unitsKept_serveRead hc ..)).andThen (unitsKept_deliverRead ..)
      · exact (unitsKept_awaitMove ..).andThen (unitsKept_serveRead hc ..)

theorem unitsKept_endFillsWith (s : State) (sec : Nat) : s.unitsKept (endFillsWith check s sec) :=
  unitsKept_foldl _ (fun (s : State) p => by
    split
    exacts [unitsKept_completeWith hc .., s.unitsKept_refl]) s

theorem unitsKept_unitWriteWith (s : State) (sec ctx : Nat) (m : Word32) (x : Sector) (p : Bool) :
    s.unitsKept (unitWriteWith check s sec ctx m x p) := by
  unfold unitWriteWith
  have h := unitsKept_endFillsWith hc s sec
  dsimp only
  split
  · exact h.andThen (unitsKept_setL2Sector ..)
  · split
    · exact (((h.andThen (unitsKept_awaitMove ..)).andThen (unitsKept_settleWith hc ..)).andThen
        (unitsKept_performWith hc ..)).andThen (unitsKept_onMs _)
    · exact ((h.andThen (unitsKept_awaitMove ..)).andThen (unitsKept_settleWith hc ..)).andThen (unitsKept_performWith hc ..)

theorem unitsKept_physWriteWith (s : State) (pa : Nat) (bs : List Byte) : s.unitsKept (physWriteWith check s pa bs) :=
  unitsKept_foldl _ (fun _ _ => (unitsKept_unitWriteWith hc ..).andThen (unitsKept_performStamp ..)) s

/-- A record on a ring. -/
theorem unitsKept_post (r : Ring) (n rec : Nat) (s : State) : s.unitsKept (r.post (physWriteWith check) n rec s).2 := by
  unfold Ring.post
  split
  exacts [s.unitsKept_refl, unitsKept_physWriteWith hc ..]

end Packets

/-! ## Errors in main memory -/

theorem unitsKept_postFaq (s : State) (ty source ch bank row pa ctx : Nat) : s.unitsKept (postFaq s ty source ch bank row pa ctx) := by
  have hp (s : State) (r : Ring) (rec : Nat) := unitsKept_post noCheck_unitsKept r 4096 rec s
  unfold postFaq
  split
  · exact unitsKept_physWriteWith noCheck_unitsKept ..
  · by_cases hd : ty = 2 ∨ ty = 3 ∨ ty = 7
    all_goals
      simp only [hd, if_true, if_false]
      split
    · exact (((unitsKept_draw s).andThen (hp ..)).andThen (unitsKept_onMs _)).andThen (unitsKept_raiseVector ..)
    · exact ((unitsKept_draw s).andThen (hp ..)).andThen (unitsKept_onMs _)
    · exact ((hp s ..).andThen (unitsKept_onMs _)).andThen (unitsKept_raiseVector ..)
    · exact (hp s ..).andThen (unitsKept_onMs _)

theorem unitsKept_copyGranule (s : State) (ch bank row sec : Nat) : s.unitsKept (copyGranule s ch bank row sec) := by
  unfold copyGranule
  split
  · exact s.unitsKept_refl
  · exact unitsKept_onMs s
  · exact (unitsKept_onMs s).andThen (unitsKept_postFaq ..)

theorem unitsKept_remapRow (s : State) (ch bank row pa : Nat) : s.unitsKept (remapRow s ch bank row pa) := by
  unfold remapRow
  dsimp only
  split
  · exact s.unitsKept_refl
  · split
    · exact ((unitsKept_setChan ..).andThen
        (unitsKept_foldl _ (fun (s : State) _ => unitsKept_copyGranule s ..) _)).andThen (unitsKept_postFaq ..)
    · exact unitsKept_postFaq ..

theorem unitsKept_retireWay (s : State) (sec : Nat) : s.unitsKept (retireWay s sec) := by
  unfold retireWay
  dsimp only
  split
  · exact s.unitsKept_refl
  · split
    · exact ((unitsKept_draw s).andThen (unitsKept_setChan ..)).andThen (unitsKept_postFaq ..)
    · exact unitsKept_draw s

theorem checkGranule_unitsKept : Check.unitsKept checkGranule := by
  intro s sec ty ctx
  unfold checkGranule
  dsimp only
  split
  · exact s.unitsKept_refl
  · have h := unitsKept_onMs s (f := fun ms => { ms with marks := NMap.erase ms.marks sec })
    generalize (s.onMs fun ms => { ms with marks := NMap.erase ms.marks sec }) = t at h ⊢
    refine h.andThen ?_
    have k (ch c) := (unitsKept_setChan t ch c).andThen (unitsKept_retireWay _ sec)
    split <;> split
    exacts [(k ..).andThen (unitsKept_remapRow ..), k .., (k ..).andThen (unitsKept_remapRow ..), k ..]
  · have h := unitsKept_onMs s (f := fun ms => setPoison { ms with marks := NMap.erase ms.marks sec } sec true)
    generalize (s.onMs fun ms => setPoison { ms with marks := NMap.erase ms.marks sec } sec true) = t at h ⊢
    refine h.andThen ?_
    have k (a b c d e f g) := (unitsKept_postFaq t a b c d e f g).andThen (unitsKept_retireWay _ sec)
    by_cases hty : ty = 3
    · rw [if_pos hty]
      exact k ..
    · rw [if_neg hty]
      exact (k ..).andThen (unitsKept_remapRow ..)

/-! ## Containment's own records -/

theorem unitsKept_postCrq (s : State) (ty kind index ctx grid addr score detail : Nat) :
    s.unitsKept (postCrq s ty kind index ctx grid addr score detail) := by
  have hp (r : Ring) (rec : Nat) := unitsKept_post checkGranule_unitsKept r 1024 rec s
  have hring (s : State) (r : Ring) : s.unitsKept (s.onPkg fun p => { p with crq := r }) := ⟨rfl, rfl, fun _ => id⟩
  unfold postCrq
  dsimp only
  split
  · exact ((hp ..).andThen (hring ..)).andThen (unitsKept_raiseVector ..)
  · exact (hp ..).andThen (hring ..)

/-- What a raised score leaves: the other registers of containment, the L1s, and no new error in slices. -/
structure State.scored (s t : State) (key : Nat) (u : Suspicion) : Prop where
  cns : t.pkg.cns = s.pkg.cns
  scores : t.pkg.scores = NMap.set s.pkg.scores key u
  l1 : t.ms.l1 = s.ms.l1
  marks : ∀ e ∈ t.ms.l2marks, e ∈ s.ms.l2marks

theorem State.scored.andThen {s t v : State} {key : Nat} {u : Suspicion} (h : s.scored t key u) (h' : t.unitsKept v) :
    s.scored v key u :=
  ⟨h'.cns.trans h.cns, h'.scores.trans h.scores, h'.l1.trans h.l1, fun e he => h.marks e (h'.marks e he)⟩

/-- A unit whose score is raised (R461). -/
def Suspicion.raised (u : Suspicion) (weight : Nat) : Suspicion := { u with score := min (u.score + weight) 0xFFFF }

theorem addScore_scored (s : State) (kind index weight : Nat) :
    s.scored (addScore s kind index weight) (unitScoreKey kind index) ((scoreOf s kind index).raised weight) := by
  have hset (flash : NMap Nat) : s.scored (s.onPkg fun p => { p with
      scores := NMap.set p.scores (unitScoreKey kind index) ((scoreOf s kind index).raised weight), flashScores := flash })
      (unitScoreKey kind index) ((scoreOf s kind index).raised weight) := ⟨rfl, rfl, rfl, fun _ => id⟩
  unfold addScore
  dsimp only
  split <;> split
  · exact (hset _).andThen (unitsKept_postCrq ..)
  · exact (hset _).andThen (unitsKept_postCrq ..)
  · exact hset _
  · exact hset _

theorem scoreOf_of_scored {s t : State} {kind index : Nat} {u : Suspicion} (h : s.scored t (unitScoreKey kind index) u) :
    scoreOf t kind index = u := by
  rw [scoreOf, h.scores, NMap.get?_set_self]
  rfl

/-- Without automatic tests no drain begins (R463). -/
theorem drainUnit_of_no_autotest {s : State} (h : s.pkg.cns.autotest = false) (kind index : Nat) : drainUnit s kind index = s := by
  unfold drainUnit
  refine if_neg ?_
  rw [drainWanted, h]
  exact Bool.false_ne_true

end Sys2Proof.Machine
end

section
/-! Errors at a unit's next word (R239, R451-R457, R494): a region rolls back for another cluster, a word outside regions is repeated or
takes STRIKE. -/

namespace Sys2Proof.Machine

/-! ## What traces and traps leave of the package -/

/-- `t` has the registers of containment and the scores of `s`. -/
def State.containsAs (s t : State) : Prop := t.pkg.cns = s.pkg.cns ∧ t.pkg.scores = s.pkg.scores

theorem State.containsAs_trans {s t u : State} (h : s.containsAs t) (h' : t.containsAs u) : s.containsAs u :=
  ⟨h'.1.trans h.1, h'.2.trans h.2⟩

theorem containsAs_of_pkg {s t : State} (h : t.pkg = s.pkg) : s.containsAs t := by
  rw [State.containsAs, h]
  exact ⟨rfl, rfl⟩

theorem containsAs_of_traced {s t u : State} {k : Nat} (h : State.traced t u k) (hp : t.pkg = s.pkg := by rfl) : s.containsAs u := by
  obtain ⟨-, -, -, -, -, hpkg, -⟩ := h
  rw [State.containsAs, ← hp, ← hpkg]
  exact ⟨rfl, rfl⟩

theorem State.scoreOf_of_containsAs {s t : State} (h : s.containsAs t) (kind index : Nat) :
    scoreOf t kind index = scoreOf s kind index := by
  rw [scoreOf, h.2]
  rfl

/-- A trap that a handler takes leaves containment alone. -/
theorem takeTrap_containsAs {s : State} {k split : Nat} {t : Trap} {xpc rp : Pc} {g : Group} {sp : Split} {hp : Nat}
    (hg : s.group? k = some g) (hs : g.split? split = some sp) (hh : g.info.handler = some hp) (ht : g.trap = none) :
    s.containsAs (takeTrap s k split t xpc rp false) := by
  have hsp : (({ g with late := [], emu := none } : Group).split? split).orElse (fun _ => g.splits.head?) = some sp := by
    rw [show ({ g with late := [], emu := none } : Group).split? split = some sp from hs]
    rfl
  obtain ⟨⟨f, hf⟩, -⟩ := dropJoint_spec { s with last := .trapped } k { g with late := [], emu := none } sp
  unfold takeTrap
  dsimp only
  rw [show ({ s with last := .trapped } : State).group? k = some g from hg]
  dsimp only
  rw [hsp]
  dsimp only
  rw [hf, show (Group.frame { g with late := [], emu := none } xpc _ t).info.handler = some hp from hh,
    show (Group.frame { g with late := [], emu := none } xpc _ t).trap = none from ht]
  have hnote := traceNote_spec ((({ s with last := .trapped } : State).onEng f).setGroup k
    (Group.frame { g with late := [], emu := none } xpc (t.mask.getD (sp.m &&& ~~~g.off)) t)) k sp.id 4 (t.cause * 2 ^ 26)
  have hkept : s.containsAs _ := containsAs_of_traced hnote
  dsimp only
  generalize traceNote _ k sp.id 4 (t.cause * 2 ^ 26) = u at hkept ⊢
  split
  · exact hkept
  · next x _ =>
    exact State.containsAs_trans hkept (containsAs_of_traced (State.traced_trans (traceBranch_spec ..) (traceMask_spec ..)))

/-! ## Rollbacks -/

theorem onTeam_containsAs (s : State) (k : Nat) (f : Team → Team) : s.containsAs (s.onTeam k f) :=
  containsAs_of_pkg (State.onTeam_pkg ..)

theorem foldl_containsAs {α : Type} (l : List α) {f : State → α → State} (h : ∀ (s : State) a, s.containsAs (f s a)) (s : State) :
    s.containsAs (l.foldl f s) := by
  induction l generalizing s with
  | nil => exact containsAs_of_pkg rfl
  | cons a l ih => exact State.containsAs_trans (h s a) (ih _)

theorem dropPushes_containsAs (s : State) (g : Group) (r : Region) : s.containsAs (dropPushes s g r) :=
  foldl_containsAs _ (fun s _ => onTeam_containsAs s ..) s

theorem markBusy_containsAs (s : State) (c : CopyCmd) (up : Bool) : s.containsAs (markBusy s c up) := by
  unfold markBusy
  split
  · exact onTeam_containsAs ..
  · exact containsAs_of_pkg rfl

theorem abandonCopies_containsAs (s : State) (k : Nat) : s.containsAs (abandonCopies s k) :=
  State.containsAs_trans (foldl_containsAs _ (fun s c => markBusy_containsAs s c false) s) (containsAs_of_pkg rfl)

/-- The count of rollbacks goes up (R467). -/
def Containment.rolled (c : Containment) : Containment := { c with rollbk := min (c.rollbk + 1) 0xFFFFFFFF }

/-- A group whose region `r` has rolled back for another cluster: it stands as at its snapshot, and its region replays (R455-R457). -/
def Group.rolledBack (h : Group) (r : Region) : Prop :=
  h.proxied = true ∧ ∃ y, h.region = some y ∧ y.phase = .replaying ∧ y.fails = r.fails + 1 ∧ y.buf = [] ∧ y.effects = [] ∧
    h.regs.rq = r.snap.rq ∧ h.pend = []

theorem RollCause.unit_of_moves {cause : RollCause} (h : cause.moves = true) (s : State) (core : Nat) :
    ∃ u, cause.unit s core = some u :=
  match cause, h with
  | .residue _ _, _ | .parity, _ | .entry, _ | .refetched, _ => ⟨_, rfl⟩

theorem RollCause.isError_of_moves {cause : RollCause} (h : cause.moves = true) : cause.isError = true :=
  match cause, h with
  | .residue _ _, _ | .parity, _ | .entry, _ | .refetched, _ => rfl

/-- An error in a region that has failed less than twice moves its next run to another cluster. -/
theorem rollback_moves {s : State} {k : Nat} {g : Group} {r : Region} {cause : RollCause} (hg : s.group? k = some g)
    (hr : g.region = some r) (ho : g.proxyOf = none) (hf : r.fails < 2) (hv : s.pkg.cns.verbose = false) (hm : cause.moves = true) :
    (rollback s k cause true).pkg.cns = s.pkg.cns.rolled ∧
      ∃ h, (rollback s k cause true).group? k = some h ∧ h.rolledBack r := by
  have hnote := traceNote_spec s k ((g.splits.head?.map Split.id).getD 0) 5 0
  obtain ⟨hcns, -⟩ := containsAs_of_traced hnote
  obtain ⟨-, -, -, -, -, -, -, -, hgroup⟩ := hnote
  obtain ⟨h, hh, hre⟩ := hgroup g hg
  have howner : h.proxyOf = none := (congrArg Group.proxyOf hre :).trans ho
  unfold rollback
  rw [hg]
  dsimp only
  rw [hr]
  dsimp only
  generalize traceNote s k ((g.splits.head?.map Split.id).getD 0) 5 0 = t at hcns hh ⊢
  rw [hh, Option.getD_some]
  obtain ⟨⟨kind, i, w⟩, hu⟩ := RollCause.unit_of_moves hm t (coreOf k)
  rw [hu, RollCause.isError_of_moves hm, hm, howner]
  dsimp only
  have hfew : ¬ (true && decide (3 ≤ r.fails + 1)) = true := by
    simp only [Bool.true_and, decide_eq_true_eq]
    omega
  simp only [if_true, Option.getD_none, if_neg hfew]
  have hscored :
      ((addScore t kind i w).onPkg fun p => { p with cns := { p.cns with rollbk := min (p.cns.rollbk + 1) 0xFFFFFFFF } }).pkg.cns =
        s.pkg.cns.rolled := congrArg Containment.rolled ((addScore_scored t kind i w).cns.trans hcns)
  generalize ((addScore t kind i w).onPkg fun p => { p with cns := { p.cns with rollbk := min (p.cns.rollbk + 1) 0xFFFFFFFF } }) = a
    at hscored ⊢
  have hdropped (r : Region) := (State.containsAs_trans (dropPushes_containsAs a h r) (abandonCopies_containsAs _ k)).1.trans hscored
  rw [if_neg (by rw [State.onEng_pkg, hdropped]; exact ne_true_of_eq_false hv)]
  refine ⟨?_, ?_⟩
  · rw [State.setGroup_pkg, State.onPkg_pkg]
    dsimp only
    rw [State.onEng_pkg, hdropped]
  · rw [State.group?_setGroup]
    exact ⟨_, rfl, rfl, _, rfl, rfl, rfl, rfl, rfl, rfl, rfl⟩

/-! ## Events at a unit's next word -/

/-- A unit's next word: its group and split. -/
theorem nextWord_spec {s : State} {u : UnitRef} {c : Cx} (h : nextWord s u = some c) :
    c.s = { s with sel := u, pre := none } ∧ c.k = unitKey u ∧ s.group? (unitKey u) = some c.g ∧ c.g.split? c.sp.id = some c.sp := by
  unfold nextWord at h
  split at h
  · exact nomatch h
  · split at h
    · exact nomatch h
    · split at h
      · obtain ⟨hs, hk, hg, hsp, -⟩ := cx?_eq h
        rw [hk] at hg
        exact ⟨hs, hk, hg, hsp⟩
      · exact nomatch h

theorem exec_residueMismatch {s : State} {u : UnitRef} {c : Cx} {kind index : Nat} (hn : nextWord s u = some c)
    (hp : c.g.proxied = false) (hf : (matTable s (clusterOf (coreOf (unitKey u)))).find? (fun o => o.group == unitKey u && o.checked &&
      o.granted.isSome) = none) (hk : checkedBy c.i (coreOf (unitKey u)) = some (kind, index)) :
    exec (.residueMismatch u) s = .next { pipeMismatch c kind index with sel := s.sel, pre := s.pre } := by
  obtain ⟨-, -, hg, -⟩ := nextWord_spec hn
  show execResidueMismatch u s = _
  unfold execResidueMismatch
  dsimp only
  rw [hg]
  dsimp only
  rw [hp, if_neg Bool.false_ne_true, hf]
  dsimp only
  rw [hn]
  dsimp only
  rw [hk]

theorem exec_parityError {s : State} {u : UnitRef} {c : Cx} (hn : nextWord s u = some c) (hp : c.g.proxied = false)
    (hr : readsParity c.i.uses = true) :
    exec (.parityError u) s = .next { drainUnit (parityAt c true) 2 (coreOf c.k) with sel := s.sel, pre := s.pre } := by
  show execParityError u s = _
  unfold execParityError
  rw [hn]
  dsimp only
  rw [hp, hr, if_neg (by decide)]

/-- A first mismatch outside a region raises the pipe's score and marks the word (R239). -/
theorem pipeMismatch_first {c : Cx} {kind index : Nat} (ha : c.s.pkg.cns.autotest = false) (hg : c.s.group? c.k = some c.g)
    (hr : c.g.region = none) (hf : c.g.repeated ≠ some (c.sp.id, c.sp.pc, c.sp.lastIssue)) :
    (pipeMismatch c kind index).group? c.k = some { c.g with repeated := some (c.sp.id, c.sp.pc, c.sp.lastIssue) } ∧
      scoreOf (pipeMismatch c kind index) kind index = (scoreOf c.s kind index).raised c.s.pkg.cns.wmis := by
  have hscored := addScore_scored c.s kind index c.s.pkg.cns.wmis
  have hgroup : (addScore c.s kind index c.s.pkg.cns.wmis).group? c.k = some c.g := by
    obtain ⟨-, -, -, hwork, -⟩ := memoryOnly_addScore c.s kind index c.s.pkg.cns.wmis
    rw [State.group?, hwork]
    exact hg
  unfold pipeMismatch
  dsimp only
  have hdrain (g : Group) := drainUnit_of_no_autotest (s := (addScore c.s kind index c.s.pkg.cns.wmis).setGroup c.k g)
    ((congrArg Containment.autotest hscored.cns).trans ha) kind index
  rw [if_neg (by rw [Group.inRegion, hr]; exact Bool.false_ne_true), if_pos hf, onGroup_of_group? hgroup, hdrain]
  exact ⟨State.group?_setGroup .., (scoreOf_of_scored hscored :)⟩

/-- A mismatch in a region rolls it back (R239). -/
theorem pipeMismatch_inRegion {c : Cx} {r : Region} {kind index : Nat} (ha : c.s.pkg.cns.autotest = false)
    (hg : c.s.group? c.k = some c.g) (hr : c.g.region = some r) (ho : c.g.proxyOf = none) (hf : r.fails < 2)
    (hv : c.s.pkg.cns.verbose = false) :
    (pipeMismatch c kind index).pkg.cns = c.s.pkg.cns.rolled ∧
      ∃ h, (pipeMismatch c kind index).group? c.k = some h ∧ h.rolledBack r := by
  have hrolled := rollback_moves (cause := .residue kind index) hg hr ho hf hv rfl
  unfold pipeMismatch
  rw [if_pos (by rw [Group.inRegion, hr]; rfl), drainUnit_of_no_autotest ((congrArg Containment.autotest hrolled.1).trans ha)]
  exact hrolled

/-- A parity error in a region rolls it back (R451). -/
theorem parityAt_inRegion {c : Cx} {r : Region} (hr : c.g.region = some r) (ho : c.g.proxyOf = none) (hf : r.fails < 2)
    (hv : c.s.pkg.cns.verbose = false) :
    (parityAt c true).pkg.cns = c.s.pkg.cns.rolled ∧ ∃ h, (parityAt c true).group? c.k = some h ∧ h.rolledBack r := by
  have hrolled := rollback_moves (s := c.st) (cause := .parity) (State.group?_setGroup ..) hr ho hf hv rfl
  unfold parityAt
  rw [if_pos (by rw [Group.inRegion, hr]; rfl)]
  exact hrolled

/-- With nothing pending a trap is taken at once. -/
theorem postTrap_of_quiet {s : State} {k split : Nat} {g : Group} (hg : s.group? k = some g) (hp : g.pend = []) (ht : g.traps = [])
    (word : Bool) (t : Trap) (xpc rp : Pc) (reopen : Bool) :
    postTrap s k split word t xpc rp reopen = takeTrap s k split t xpc rp reopen := by
  unfold postTrap
  rw [hg]
  dsimp only
  rw [hp, ht]
  rfl

/-- A trap of the unit that its handler takes. -/
theorem Cx.entered_takeTrap {c : Cx} {s : State} {hp : Nat} {t : Trap} {rp : Pc} (hg : s.group? c.k = some c.g)
    (hsp : c.g.split? c.sp.id = some c.sp) (hh : c.g.info.handler = some hp) (ht : c.g.trap = none) :
    c.Entered (takeTrap s c.k c.sp.id t c.sp.pc rp false) t.cause (t.mask.getD (c.sp.m &&& ~~~c.g.off)) t.addr t.info rp := by
  obtain ⟨hlast, -, -, -, -, -, -, h, sp, hgroup, hregs, hsys, htrap, hsplit, hpc, hstack, hrets, hhold, hm⟩ :=
    takeTrap_handled (t := t) (xpc := c.sp.pc) (rp := rp) hg hsp hh ht
  exact ⟨hlast, hp, h, _, sp, hh, hgroup, hsys, hregs, htrap, rfl, rfl, rfl, rfl, rfl, rfl, rfl, hsplit, hpc, hstack, hrets, hhold, hm⟩

/-- A parity error outside regions raises the core's score, and the group's handler takes STRIKE after the word (R451). -/
theorem parityAt_outside {c : Cx} (hsp : c.g.split? c.sp.id = some c.sp) (hr : c.g.region = none) (ht : c.g.trap = none)
    (hpend : c.g.pend = []) (htraps : c.g.traps = []) (hh : c.g.info.handler.isSome = true) :
    c.Entered (parityAt c true) 0x13 (c.sp.m &&& ~~~c.g.off) 0 2 c.nextPc ∧ (parityAt c true).pkg.cns = c.s.pkg.cns ∧
      scoreOf (parityAt c true) 2 (coreOf c.k) = (scoreOf c.s 2 (coreOf c.k)).raised c.s.pkg.cns.wpar := by
  obtain ⟨hp, hp'⟩ := Option.isSome_iff_exists.1 hh
  have hscored := addScore_scored c.st 2 (coreOf c.k) c.s.pkg.cns.wpar
  have hmem := memoryOnly_addScore c.st 2 (coreOf c.k) c.s.pkg.cns.wpar
  unfold parityAt
  rw [if_neg (by rw [Group.inRegion, hr]; exact Bool.false_ne_true)]
  dsimp only
  rw [if_pos rfl]
  generalize addScore c.st 2 (coreOf c.k) c.s.pkg.cns.wpar = a at hscored hmem ⊢
  have hposted := hscored.andThen
    (unitsKept_postCrq a 0x03 2 (coreOf c.k) c.g.info.ctx (gridId a c.g.info.grid) 0 (scoreOf a 2 (coreOf c.k)).score 2)
  have hmem := hmem.andThen
    (memoryOnly_postCrq a 0x03 2 (coreOf c.k) c.g.info.ctx (gridId a c.g.info.grid) 0 (scoreOf a 2 (coreOf c.k)).score 2)
  generalize postCrq a 0x03 2 (coreOf c.k) c.g.info.ctx (gridId a c.g.info.grid) 0 (scoreOf a 2 (coreOf c.k)).score 2 = b
    at hposted hmem ⊢
  have hgroup : b.group? c.k = some c.g := by
    obtain ⟨-, -, -, hwork, -⟩ := hmem
    rw [State.group?, hwork]
    exact State.group?_setGroup ..
  rw [postTrap_of_quiet hgroup hpend htraps]
  have hkept := takeTrap_containsAs (t := ⟨causeStrike, true, none, 0, 2⟩) (xpc := c.sp.pc) (rp := c.nextPc) hgroup hsp hp' ht
  exact ⟨Cx.entered_takeTrap hgroup hsp hp' ht, hkept.1.trans hposted.cns,
    (State.scoreOf_of_containsAs hkept 2 (coreOf c.k)).trans (scoreOf_of_scored hposted)⟩

end Sys2Proof.Machine
end

section
/-! Containment's other events (R79, R453, R454, R457, R461-R464). -/

namespace Sys2Proof.Machine

/-! ## Zones, slices and L1s -/

/-- A strike report of a zone without groups only ends what its engine works on (R453). -/
theorem strikeZone_of_empty {s : State} {zone : Nat} (h : ∀ e ∈ s.work.groups, clusterOf (coreOf e.1) ≠ zone) :
    strikeZone s zone = s.onEng fun e => { e with mats := NMap.adjust e.mats zone fun l => l.map fun m => { m with granted := none } } := by
  have hnone : s.work.groups.filter (fun e => clusterOf (coreOf e.1) == zone) = [] :=
    List.filter_eq_nil_iff.2 fun e he => by simpa using h e he
  unfold strikeZone
  rw [hnone]
  rfl

theorem matTable_adjust (s : State) (zone : Nat) (f : MatOp → MatOp) :
    matTable (s.onEng fun e => { e with mats := NMap.adjust e.mats zone fun l => l.map f }) zone = (matTable s zone).map f := by
  unfold matTable
  rw [State.onEng_eng]
  dsimp only
  rw [NMap.get?_adjust_self]
  cases NMap.get? s.eng.mats zone <;> rfl

/-- What a slice's check of a sector leaves: containment's registers, and no error in that sector nor a new one elsewhere (R79). -/
theorem l2Check_clears (s : State) (die sec : Nat) :
    (l2Check s die sec).pkg.cns = s.pkg.cns ∧
      ∀ e ∈ (l2Check s die sec).ms.l2marks, e ∈ s.ms.l2marks ∧ e.1 ≠ l2MarkKey die sec := by
  unfold l2Check
  dsimp only
  split
  · next hnone => exact ⟨rfl, fun e he => ⟨he, fun hk => NMap.get?_ne_none_of_mem he (hk ▸ hnone)⟩⟩
  · have herase (e : Nat × EccMark) (he : e ∈ NMap.erase s.ms.l2marks (l2MarkKey die sec)) :
        e ∈ s.ms.l2marks ∧ e.1 ≠ l2MarkKey die sec := by
      obtain ⟨hmem, hne⟩ := List.mem_filter.1 he
      exact ⟨hmem, by simpa using hne⟩
    have hcns : (s.onMs fun ms => { ms with l2marks := NMap.erase ms.l2marks (l2MarkKey die sec) }).pkg.cns = s.pkg.cns := rfl
    have hmarks (e) (he : e ∈ (s.onMs fun ms => { ms with l2marks := NMap.erase ms.l2marks (l2MarkKey die sec) }).ms.l2marks) :=
      herase e he
    generalize (s.onMs fun ms => { ms with l2marks := NMap.erase ms.l2marks (l2MarkKey die sec) }) = t at hcns hmarks ⊢
    have hset {u : State} {key : Nat} {x : Suspicion} (h : t.scored u key x) :
        u.pkg.cns = s.pkg.cns ∧ ∀ e ∈ u.ms.l2marks, e ∈ s.ms.l2marks ∧ e.1 ≠ l2MarkKey die sec :=
      ⟨h.cns.trans hcns, fun e he => hmarks e (h.marks e he)⟩
    split
    · exact hset (addScore_scored ..)
    · split
      · exact hset ((addScore_scored ..).andThen (unitsKept_setL2Sector ..))
      · exact hset ((addScore_scored ..).andThen (unitsKept_setL2Sector ..))
      · exact hset ((addScore_scored ..).andThen (unitsKept_setL2Sector ..))
      · exact hset (addScore_scored ..)

/-- A scrub of some sectors leaves no error in them. -/
theorem scrub_clears (ks : List Nat) (s : State) :
    let t := ks.foldl (fun s k => l2Check s (k / 2 ^ 35) (k % 2 ^ 35)) s
    t.pkg.cns = s.pkg.cns ∧ ∀ e ∈ t.ms.l2marks, e ∈ s.ms.l2marks ∧ e.1 ∉ ks := by
  induction ks generalizing s with
  | nil => exact ⟨rfl, fun e he => ⟨he, List.not_mem_nil⟩⟩
  | cons k ks ih =>
    obtain ⟨hcns, hmarks⟩ := l2Check_clears s (k / 2 ^ 35) (k % 2 ^ 35)
    obtain ⟨hcns', hmarks'⟩ := ih (l2Check s (k / 2 ^ 35) (k % 2 ^ 35))
    refine ⟨hcns'.trans hcns, fun e he => ?_⟩
    obtain ⟨hmem, hks⟩ := hmarks' e he
    obtain ⟨hmem, hk⟩ := hmarks e hmem
    rw [show l2MarkKey (k / 2 ^ 35) (k % 2 ^ 35) = k from by rw [l2MarkKey, Nat.mul_comm, Nat.div_add_mod]] at hk
    exact ⟨hmem, by rw [List.mem_cons, not_or]; exact ⟨hk, hks⟩⟩

theorem l1Copy_dropL1 (s : State) (core sec : Nat) : l1Copy (dropL1 s core sec) core sec = none := by
  have howner : l1Owner (dropL1 s core sec) core (sec / 4) = l1Owner s core (sec / 4) := rfl
  have hl1 : (dropL1 s core sec).ms.l1 =
      NMap.set s.ms.l1 (l1Owner s core (sec / 4)) (NMap.erase (l1Of s.ms (l1Owner s core (sec / 4))) sec) :=
    rfl
  rw [l1Copy, howner, l1Of, hl1, NMap.get?_set_self]
  exact NMap.get?_erase_self ..

/-- No region of a group on the core holds or buffers the sector. -/
theorem regionL1Error_of_groupsOf {s : State} {core pa : Nat} {real : Bool} (h : ∀ e ∈ s.groupsOf core, e.2.region = none) {k : Nat}
    (hk : k ∈ (s.groupsOf core).map Prod.fst) : regionL1Error s k pa real = none := by
  obtain ⟨e, he, rfl⟩ := List.mem_map.1 hk
  unfold regionL1Error
  split
  · rfl
  · next g hg =>
    have hmem : (e.1, g) ∈ s.groupsOf core := List.mem_filter.2 ⟨NMap.mem_of_get? hg, (List.mem_filter.1 he).2⟩
    rw [h _ hmem]

/-- A fold whose steps change nothing. -/
theorem foldl_of_fixed {α β : Type} {f : α → β → α} {a : α} {l : List β} (h : ∀ b ∈ l, f a b = a) : l.foldl f a = a := by
  induction l with
  | nil => rfl
  | cons b l ih =>
    rw [List.foldl_cons, h b List.mem_cons_self]
    exact ih fun b hb => h b (List.mem_cons_of_mem _ hb)

/-- Outside regions an L1's error drops the sector and scores (R454). -/
theorem exec_l1Uncorrectable {s : State} {core : Nat} (pa : Nat) (ha : s.pkg.cns.autotest = false)
    (h : ∀ e ∈ s.groupsOf core, e.2.region = none) :
    exec (.l1Uncorrectable core pa) s = .next (addScore (dropL1 s core (pa / 32)) 3 core s.pkg.cns.wunc) := by
  show execL1Uncorrectable core pa s = _
  unfold execL1Uncorrectable
  dsimp only
  rw [foldl_of_fixed]
  · dsimp only
    have hcns := (addScore_scored (dropL1 s core (pa / 32)) 3 core (dropL1 s core (pa / 32)).pkg.cns.wunc).cns
    rw [if_neg Bool.false_ne_true, drainUnit_of_no_autotest ((congrArg Containment.autotest hcns).trans ha)]
    rfl
  · intro k hk
    dsimp only
    rw [regionL1Error_of_groupsOf (s := dropL1 s core (pa / 32)) h hk]

/-! ## Replays on another cluster -/

/-- A change of a replay's entry that keeps its group's name. -/
theorem proxyEntry_onProxy {s : State} {k : Nat} {p : Proxy} (h : proxyEntry s k = some p) {f : Proxy → Proxy}
    (hf : ∀ x, (f x).orig = x.orig) : proxyEntry (onProxy s k f) k = some (f p) := by
  have hp : p.orig = k := by simpa using List.find?_some h
  have hmap : (fun x : Proxy => x.orig == k) ∘ (fun x => if x.orig = k then f x else x) = fun x => x.orig == k := by
    funext x
    dsimp only [Function.comp_apply]
    split
    · rw [hf]
    · rfl
  show (s.pkg.proxies.map fun x => if x.orig = k then f x else x).find? (fun x => x.orig == k) = _
  rw [List.find?_map, hmap, show s.pkg.proxies.find? (fun x => x.orig == k) = some p from h]
  exact congrArg some (if_pos hp)

theorem dropProxies_spec (s : State) (k : Nat) :
    ∀ x ∈ (s.onPkg fun p => { p with proxies := p.proxies.filter fun x => x.orig != k }).pkg.proxies, x.orig ≠ k := fun x hx => by
  simpa using (List.mem_filter.1 hx).2

/-- A replay that has found no core in time takes place in its own (R457). -/
theorem exec_proxyPlacementTimeout {s : State} {k : Nat} {g : Group} (hg : s.group? k = some g) (hl : proxyLate s k = true) :
    exec (.proxyPlacementTimeout k) s =
      .next ((s.onPkg fun p => { p with proxies := p.proxies.filter fun x => x.orig != k }).setGroup k { g with proxied := false }) := by
  show execProxyPlacementTimeout k s = _
  unfold execProxyPlacementTimeout
  rw [if_pos hl, onGroup_of_group? (s := s.onPkg _) hg]

/-- The proxy of a group as it is set up. -/
def Group.asProxy (g : Group) (k : Nat) : Group :=
  { g with proxyOf := some k, proxied := false, halted := true, out := [], traceOn := false, lastDelivery := none, repeated := none }

/-- A core is found: the proxy is set up and the transfer begins (R457). -/
theorem exec_proxyPlaced {s : State} {k n c slot : Nat} {rest : List Nat} {p : Proxy} {g : Group} (hp : proxyEntry s k = some p)
    (hs : p.stage = .placing n) (hc : proxyCore s p = some c) (hg : s.group? k = some g) (hf : freeSlots s c 1 = slot :: rest) :
    exec (.proxyTransferComplete k) s = .next (onProxy (s.setGroup (c * 32 + slot) (g.asProxy k)) k fun x =>
      { x with proxy := some (c * 32 + slot), stage := .transfer (s.clock.cycle + 6750) }) := by
  show execProxyTransferComplete k s = _
  unfold execProxyTransferComplete
  rw [hp]
  dsimp only
  rw [hs]
  dsimp only
  rw [hc]
  dsimp only
  unfold placeProxy
  rw [hg, hf]
  rfl

/-- A proxy group begins to run. -/
def Group.started (g : Group) (cycle : Nat) : Group :=
  { g with halted := false, splits := g.splits.map fun (sp : Split) => { sp with lastIssue := cycle } }

/-- The transfer is over: the proxy runs (R457). -/
theorem exec_proxyTransferred {s : State} {k n pk : Nat} {p : Proxy} {g : Group} (hp : proxyEntry s k = some p)
    (hs : p.stage = .transfer n) (hk : p.proxy = some pk) (hn : n ≤ s.clock.cycle) (hg : s.group? pk = some g) :
    exec (.proxyTransferComplete k) s =
      .next ((onProxy s k fun x => { x with stage := .running }).setGroup pk (g.started s.clock.cycle)) := by
  show execProxyTransferComplete k s = _
  unfold execProxyTransferComplete
  rw [hp]
  dsimp only
  rw [hs, hk]
  dsimp only
  rw [if_pos hn, onGroup_of_group? (s := onProxy s k _) hg]
  rfl

/-- The original group as its proxy leaves it. -/
def Group.resumed (p g : Group) (cycle : Nat) : Group :=
  { p with info := g.info, proxyOf := none, proxied := false, halted := false, traceOn := g.traceOn, lastSync := g.lastSync
           lostTrace := g.lostTrace, lastDelivery := none
           splits := p.splits.map fun (sp : Split) => { sp with lastIssue := cycle } }

/-- The proxy's state goes back to its group, and its slot is free (R457). -/
theorem exec_proxyResume {s : State} {k pk : Nat} {g p : Group} (hg : s.group? k = some g) (hp : proxyOver s k = some (pk, p))
    (hh : ∀ sp ∈ p.splits, sp.hold ≠ some .commit) :
    exec (.proxyResume k) s = .next (((((reown s fun x => if x = pk then k else x).dropGroup pk).onVm fun vm =>
      { vm with lastPage := NMap.erase vm.lastPage pk }).onPkg fun x =>
        { x with proxies := x.proxies.filter fun y => y.orig != k }).setGroup k (p.resumed g s.clock.cycle)) := by
  have hstay : (p.splits.any fun sp => sp.hold == some .commit) = false := by
    rw [List.any_eq_false]
    exact fun sp hsp => by simpa using hh sp hsp
  show execProxyResume k s = _
  unfold execProxyResume
  rw [hp, hg]
  dsimp only
  rw [hstay, if_neg Bool.false_ne_true]
  rfl

/-! ## Write-backs of a slice without errors -/

theorem State.unitsKept.unmarked {s t : State} (h : s.unitsKept t) (hs : s.ms.l2marks = []) : t.ms.l2marks = [] :=
  List.eq_nil_iff_forall_not_mem.2 fun e he => List.not_mem_nil (hs ▸ h.marks e he)

/-- A fold over states without errors in their slices. -/
theorem unitsKept_foldl_unmarked {α : Type} (l : List α) {f : State → α → State}
    (h : ∀ (s : State) a, s.ms.l2marks = [] → s.unitsKept (f s a)) {s : State} (hs : s.ms.l2marks = []) :
    s.unitsKept (l.foldl f s) := by
  induction l generalizing s with
  | nil => exact s.unitsKept_refl
  | cons a l ih => exact (h s a hs).andThen (ih ((h s a hs).unmarked hs))

theorem l2Check_of_unmarked {s : State} (h : s.ms.l2marks = []) (die sec : Nat) : l2Check s die sec = s := by
  unfold l2Check
  rw [h]
  rfl

theorem unitsKept_sendWaiting (s : State) (slice ch : Nat) : s.unitsKept (sendWaiting s slice ch) :=
  unitsKept_foldl _ (fun (s : State) _ => by
    dsimp only
    split
    · split
      exacts [unitsKept_setChan .., s.unitsKept_refl]
    · exact s.unitsKept_refl) s

theorem unitsKept_takeTag (s : State) (slice ch : Nat) (writeback : Bool) (fuel : Nat) :
    s.unitsKept (takeTag s slice ch writeback fuel) := by
  induction fuel generalizing s with
  | zero => exact s.unitsKept_refl
  | succ fuel ih =>
    have h : s.unitsKept (if writeback then s else sendWaiting s slice ch) := by
      split
      exacts [s.unitsKept_refl, unitsKept_sendWaiting ..]
    rw [takeTag]
    generalize (if writeback = true then s else sendWaiting s slice ch) = t at h ⊢
    split
    · exact h
    · split
      · exact (h.andThen (unitsKept_completeWith checkGranule_unitsKept ..)).andThen (ih _)
      · exact h

theorem unitsKept_baseWrite (s : State) (die sec ctx : Nat) (m : Word32) (x : Sector) (writeback : Bool) :
    s.unitsKept (baseWrite s die sec ctx m x writeback).2 := by
  unfold baseWrite
  dsimp only
  exact (((unitsKept_takeTag ..).andThen (unitsKept_awaitMove ..)).andThen (unitsKept_settleWith checkGranule_unitsKept ..)).andThen
    (unitsKept_performWith checkGranule_unitsKept ..)

theorem unitsKept_writePoisoned (s : State) (sec : Nat) (x : Sector) : s.unitsKept (writePoisoned s sec x) := by
  unfold writePoisoned
  dsimp only
  refine State.unitsKept.andThen ?_ (unitsKept_setPoison ..)
  exact ((unitsKept_awaitMove ..).andThen (unitsKept_settleWith checkGranule_unitsKept ..)).andThen
    (unitsKept_performWith checkGranule_unitsKept ..)

theorem unitsKept_writeBackSector {s : State} (h : s.ms.l2marks = []) (die sec : Nat) : s.unitsKept (writeBackSector s die sec) := by
  unfold writeBackSector
  dsimp only
  rw [l2Check_of_unmarked h]
  split
  · split
    · exact unitsKept_writePoisoned ..
    · exact unitsKept_baseWrite ..
  · exact s.unitsKept_refl

theorem unitsKept_flushLine {s : State} (h : s.ms.l2marks = []) (die line : Nat) (keep : Bool) :
    s.unitsKept (flushLine s die line keep) := by
  have hback := unitsKept_foldl_unmarked (List.range 4) (f := fun s i => writeBackSector s die (line * 4 + i))
    (fun (s : State) _ hs => unitsKept_writeBackSector hs ..) h
  have hnone := hback.unmarked h
  unfold flushLine
  dsimp only
  generalize (List.range 4).foldl (fun s i => writeBackSector s die (line * 4 + i)) s = t at hback hnone ⊢
  cases keep with
  | true => exact hback.andThen (unitsKept_onMs t)
  | false => exact hback.andThen (unitsKept_onMs t rfl fun _ he => List.mem_of_mem_filter he)

theorem unitsKept_trimSlice {s : State} (h : s.ms.l2marks = []) (slice : Nat) : s.unitsKept (trimSlice s slice) :=
  unitsKept_foldl_unmarked _ (fun (s : State) _ hs => by
    dsimp only
    split
    exacts [unitsKept_flushLine hs .., s.unitsKept_refl]) h

/-! ## Scores and tests -/

theorem exec_scoreDecay {s : State} (h : decayDue s = true) :
    exec .scoreDecay s = .next (s.onPkg fun p => { p with
      scores := p.scores.map fun e => (e.1, { e.2 with score := e.2.score / 2 })
      flashScores := p.scores.map fun e => (e.1, e.2.score / 2)
      cns := { p.cns with lastDecay := p.cns.lastDecay + decayPeriod s } }) := by
  show execScoreDecay s = _
  unfold execScoreDecay
  rw [if_pos h]
  dsimp only
  simp only [List.map_map]
  rfl

theorem exec_unitTestComplete {s : State} {kind index : Nat} (h : (scoreOf s kind index).state = 1) (r : TestResult) :
    exec (.unitTestComplete kind index r) s = .next (testEnd s kind index r) := by
  show execUnitTestComplete kind index r s = _
  unfold execUnitTestComplete
  rw [if_pos h]

theorem scoreOf_setUnit (s : State) (kind index : Nat) (u : Suspicion) : scoreOf (setUnit s kind index u) kind index = u := by
  show (NMap.get? (NMap.set s.pkg.scores (unitScoreKey kind index) u) (unitScoreKey kind index)).getD _ = u
  rw [NMap.get?_set_self]
  rfl

/-- The health list takes a unit as it stands, with its score zero (R464). -/
theorem noteHealth_spec (s : State) (kind index : Nat) :
    scoreOf (noteHealth s kind index) kind index = scoreOf s kind index ∧
      NMap.get? (noteHealth s kind index).pkg.health (unitScoreKey kind index) = some { scoreOf s kind index with score := 0 } :=
  ⟨rfl, NMap.get?_set_self ..⟩

/-- A tested unit that passes returns (R463). -/
theorem scoreOf_testEnd_pass (s : State) (kind index : Nat) :
    scoreOf (testEnd s kind index .pass) kind index = ⟨0, 0, (scoreOf s kind index).spares⟩ :=
  ((unitsKept_postCrq ..).scoreOf kind index).trans (scoreOf_setUnit ..)

/-- A tested unit that a spare replaces returns (R463). -/
theorem scoreOf_testEnd_repaired {s : State} {kind index : Nat} (n : Nat) (hn : (scoreOf s kind index).spares < spareCount kind)
    (hm : kind = 5 → s.ms.l2marks = []) :
    scoreOf (testEnd s kind index (.repaired n)) kind index = ⟨0, 0, (scoreOf s kind index).spares + 1⟩ := by
  have hnoted : scoreOf (noteHealth (setUnit s kind index ⟨0, 0, (scoreOf s kind index).spares + 1⟩) kind index) kind index =
      ⟨0, 0, (scoreOf s kind index).spares + 1⟩ := scoreOf_setUnit ..
  unfold testEnd
  dsimp only
  rw [if_pos hn]
  split
  · next h5 =>
    refine Eq.trans ?_ hnoted
    have hoff (off : NMap (List Nat)) := unitsKept_onMs
      (noteHealth (setUnit s kind index ⟨0, 0, (scoreOf s kind index).spares + 1⟩) kind index)
      (f := fun ms => { ms with l2off := off })
    have htrim (off : NMap (List Nat)) := (hoff off).andThen (unitsKept_trimSlice ((hoff off).unmarked (hm h5)) index)
    exact ((htrim _).andThen (unitsKept_postCrq ..)).scoreOf kind index
  · exact ((unitsKept_postCrq ..).scoreOf kind index).trans hnoted

/-- A tested unit beyond repair goes out of service, and the health list learns it (R463, R464). -/
theorem testEnd_beyond (s : State) (kind index : Nat) :
    scoreOf (testEnd s kind index .beyond) kind index = { scoreOf s kind index with state := if kind = 5 then 3 else 2 } ∧
      NMap.get? (testEnd s kind index .beyond).pkg.health (unitScoreKey kind index) =
        some { scoreOf s kind index with state := if kind = 5 then 3 else 2, score := 0 } := by
  have hset := scoreOf_setUnit s kind index { scoreOf s kind index with state := if kind = 5 then 3 else 2 }
  obtain ⟨hscore, hhealth⟩ := noteHealth_spec (setUnit s kind index { scoreOf s kind index with state := if kind = 5 then 3 else 2 })
    kind index
  unfold testEnd
  dsimp only
  refine ⟨((unitsKept_postCrq ..).scoreOf kind index).trans (hscore.trans hset), ?_⟩
  rw [(unitsKept_postCrq ..).health, hhealth, hset]

/-! ## The claim -/

/-- A mismatch in a pipe's word: outside regions the pipe scores and the word is marked, in a region the region rolls back. -/
theorem residueMismatch_completes {s : State} {u : UnitRef} {c : Cx} {kind index : Nat} (ha : s.pkg.cns.autotest = false)
    (hn : nextWord s u = some c) (hp : c.g.proxied = false)
    (hf : (matTable s (clusterOf (coreOf (unitKey u)))).find? (fun o => o.group == unitKey u && o.checked &&
      o.granted.isSome) = none) (hk : checkedBy c.i (coreOf (unitKey u)) = some (kind, index)) :
    (c.g.region = none → c.g.repeated ≠ some (c.sp.id, c.sp.pc, c.sp.lastIssue) →
      ∃ t, exec (.residueMismatch u) s = .next t ∧
        t.group? (unitKey u) = some { c.g with repeated := some (c.sp.id, c.sp.pc, c.sp.lastIssue) } ∧
        scoreOf t kind index = (scoreOf s kind index).raised s.pkg.cns.wmis) ∧
    ∀ r, c.g.region = some r → c.g.proxyOf = none → r.fails < 2 → s.pkg.cns.verbose = false →
      ∃ t h, exec (.residueMismatch u) s = .next t ∧ t.group? (unitKey u) = some h ∧ h.rolledBack r ∧
        t.pkg.cns = s.pkg.cns.rolled := by
  obtain ⟨hs, hkey, hg, -⟩ := nextWord_spec hn
  have hg' : c.s.group? c.k = some c.g := by rw [hs, hkey]; exact hg
  have hpkg : c.s.pkg = s.pkg := by rw [hs]
  have hscore : scoreOf c.s kind index = scoreOf s kind index := by rw [hs]; rfl
  rw [exec_residueMismatch hn hp hf hk, ← hkey, ← hscore, ← hpkg]
  rw [← hpkg] at ha
  refine ⟨fun hr hfirst => ?_, fun r hr ho hfails hv => ?_⟩
  · obtain ⟨hgroup, hraised⟩ := pipeMismatch_first (kind := kind) (index := index) ha hg' hr hfirst
    exact ⟨_, rfl, hgroup, hraised⟩
  · obtain ⟨hcns, h, hgroup, hrolled⟩ := pipeMismatch_inRegion (kind := kind) (index := index) ha hg' hr ho hfails hv
    exact ⟨_, h, rfl, hgroup, hrolled, hcns⟩

/-- A parity error at a word: outside regions the group's handler takes STRIKE, in a region the region rolls back. -/
theorem parityError_completes {s : State} {u : UnitRef} {c : Cx} (ha : s.pkg.cns.autotest = false) (hn : nextWord s u = some c)
    (hp : c.g.proxied = false) (hread : readsParity c.i.uses = true) :
    (c.g.region = none → c.g.trap = none → c.g.pend = [] → c.g.traps = [] → c.g.info.handler.isSome = true →
      ∃ t, exec (.parityError u) s = .next t ∧ c.Entered t 0x13 (c.sp.m &&& ~~~c.g.off) 0 2 c.nextPc ∧
        scoreOf t 2 (coreOf c.k) = (scoreOf s 2 (coreOf c.k)).raised s.pkg.cns.wpar) ∧
    ∀ r, c.g.region = some r → c.g.proxyOf = none → r.fails < 2 → s.pkg.cns.verbose = false →
      ∃ t h, exec (.parityError u) s = .next t ∧ t.group? (unitKey u) = some h ∧ h.rolledBack r := by
  obtain ⟨hs, hkey, -, hsp⟩ := nextWord_spec hn
  have hpkg : c.s.pkg = s.pkg := by rw [hs]
  have hscore : scoreOf c.s 2 (coreOf c.k) = scoreOf s 2 (coreOf c.k) := by rw [hs]; rfl
  rw [exec_parityError hn hp hread, ← hkey, ← hscore, ← hpkg]
  rw [← hpkg] at ha
  refine ⟨fun hr ht hpend htraps hh => ?_, fun r hr ho hfails hv => ?_⟩
  · obtain ⟨hentered, hcns, hraised⟩ := parityAt_outside hsp hr ht hpend htraps hh
    rw [drainUnit_of_no_autotest ((congrArg Containment.autotest hcns).trans ha)]
    exact ⟨_, rfl, hentered, hraised⟩
  · obtain ⟨hcns, h, hgroup, hrolled⟩ := parityAt_inRegion hr ho hfails hv
    rw [drainUnit_of_no_autotest ((congrArg Containment.autotest hcns).trans ha)]
    exact ⟨_, h, rfl, hgroup, hrolled⟩

/-- A slice's report scrubs its sectors, and touches no group (R79). -/
theorem sliceCricketReport_completes {s : State} (ha : s.pkg.cns.autotest = false) (slice : Nat) :
    ∃ t, exec (.sliceCricketReport slice) s = .next t ∧ t.work = s.work ∧ ∀ e ∈ t.ms.l2marks, e ∈ s.ms.l2marks ∧
      ¬ (e.1 / 2 ^ 35 = slice / 48 ∧ sliceOf (e.1 % 2 ^ 35 / 4) = slice % 48) := by
  have hscrub := scrub_clears ((s.ms.l2marks.map Prod.fst).filter fun k =>
    k / 2 ^ 35 == slice / 48 && sliceOf (k % 2 ^ 35 / 4) == slice % 48) s
  have hmem := memoryOnly_foldl ((s.ms.l2marks.map Prod.fst).filter fun k =>
    k / 2 ^ 35 == slice / 48 && sliceOf (k % 2 ^ 35 / 4) == slice % 48)
    (fun (s : State) k => memoryOnly_l2Check s (k / 2 ^ 35) (k % 2 ^ 35)) s
  obtain ⟨hcns, hmarks⟩ := hscrub
  obtain ⟨-, -, -, hwork, -⟩ := hmem
  refine ⟨_, congrArg Host.Outcome.next (drainUnit_of_no_autotest ((congrArg Containment.autotest hcns).trans ha) 5 slice), hwork,
    fun e he => ?_⟩
  obtain ⟨hold, hnot⟩ := hmarks e he
  refine ⟨hold, fun hmine => hnot (List.mem_filter.2 ⟨List.mem_map_of_mem hold, ?_⟩)⟩
  simpa using hmine

/-- An L1's error outside regions drops the sector and scores (R454). -/
theorem l1Uncorrectable_completes {s : State} {core : Nat} (pa : Nat) (ha : s.pkg.cns.autotest = false)
    (h : ∀ e ∈ s.groupsOf core, e.2.region = none) :
    ∃ t, exec (.l1Uncorrectable core pa) s = .next t ∧ l1Copy t core (pa / 32) = none ∧ t.work = s.work ∧
      scoreOf t 3 core = (scoreOf s 3 core).raised s.pkg.cns.wunc := by
  have hscored := addScore_scored (dropL1 s core (pa / 32)) 3 core s.pkg.cns.wunc
  obtain ⟨-, -, -, hwork, -⟩ := memoryOnly_addScore (dropL1 s core (pa / 32)) 3 core s.pkg.cns.wunc
  refine ⟨_, exec_l1Uncorrectable pa ha h, ?_, hwork, scoreOf_of_scored hscored⟩
  refine Eq.trans ?_ (l1Copy_dropL1 s core (pa / 32))
  rw [l1Copy, l1Copy, l1Of, l1Of, hscored.l1, l1Owner, l1Owner, State.core, State.core, hwork]

/-- A zone's report without groups ends what its engine works on (R453). -/
theorem strikeReport_completes {s : State} {zone : Nat} (hz : zone < 96) (h : ∀ e ∈ s.work.groups, clusterOf (coreOf e.1) ≠ zone) :
    ∃ t, exec (.strikeReport zone) s = .next t ∧ t.work = s.work ∧ t.ms = s.ms ∧ ∀ o ∈ matTable t zone, o.granted = none := by
  refine ⟨_, congrArg Host.Outcome.next ((if_pos hz).trans (strikeZone_of_empty h)), rfl, rfl, fun o ho => ?_⟩
  rw [matTable_adjust] at ho
  obtain ⟨m, -, rfl⟩ := List.mem_map.1 ho
  rfl

/-- A replay without a core takes place in its own (R457). -/
theorem proxyPlacementTimeout_completes {s : State} {k : Nat} {g : Group} (hg : s.group? k = some g) (hl : proxyLate s k = true) :
    ∃ t, exec (.proxyPlacementTimeout k) s = .next t ∧ t.group? k = some { g with proxied := false } ∧
      (∀ x ∈ t.pkg.proxies, x.orig ≠ k) ∧ t.ms = s.ms :=
  ⟨_, exec_proxyPlacementTimeout hg hl, State.group?_setGroup .., dropProxies_spec s k, rfl⟩

/-- A core is found, and the transfer begins (R457). -/
theorem proxyPlaced_completes {s : State} {k n c slot : Nat} {rest : List Nat} {p : Proxy} {g : Group} (hp : proxyEntry s k = some p)
    (hs : p.stage = .placing n) (hc : proxyCore s p = some c) (hg : s.group? k = some g) (hf : freeSlots s c 1 = slot :: rest) :
    ∃ t h, exec (.proxyTransferComplete k) s = .next t ∧ t.group? (c * 32 + slot) = some h ∧ h.proxyOf = some k ∧ h.halted = true ∧
      h.region = g.region ∧ h.regs = g.regs ∧ h.sys = g.sys ∧ h.splits = g.splits ∧ t.ms = s.ms ∧
      proxyEntry t k = some { p with proxy := some (c * 32 + slot), stage := .transfer (s.clock.cycle + 6750) } :=
  ⟨_, g.asProxy k, exec_proxyPlaced hp hs hc hg hf, State.group?_setGroup .., rfl, rfl, rfl, rfl, rfl, rfl, rfl,
    proxyEntry_onProxy (s := s.setGroup _ _) hp fun _ => rfl⟩

/-- The transfer is over, and the proxy runs (R457). -/
theorem proxyTransferred_completes {s : State} {k n pk : Nat} {p : Proxy} {g : Group} (hp : proxyEntry s k = some p)
    (hs : p.stage = .transfer n) (hk : p.proxy = some pk) (hn : n ≤ s.clock.cycle) (hg : s.group? pk = some g) :
    ∃ t h, exec (.proxyTransferComplete k) s = .next t ∧ t.group? pk = some h ∧ h.halted = false ∧ h.regs = g.regs ∧
      h.splits.map Split.pc = g.splits.map Split.pc ∧ proxyEntry t k = some { p with stage := .running } ∧ t.ms = s.ms :=
  ⟨_, g.started s.clock.cycle, exec_proxyTransferred hp hs hk hn hg, State.group?_setGroup .., rfl, rfl, List.map_map,
    proxyEntry_onProxy hp fun _ => rfl, rfl⟩

/-- The proxy's state goes back, and its slot and entry are free (R457). -/
theorem proxyResume_completes {s : State} {k pk : Nat} {g p : Group} (hg : s.group? k = some g) (hp : proxyOver s k = some (pk, p))
    (hne : pk ≠ k) (hh : ∀ sp ∈ p.splits, sp.hold ≠ some .commit) :
    ∃ t h, exec (.proxyResume k) s = .next t ∧ t.group? k = some h ∧ h.regs = p.regs ∧ h.sys = p.sys ∧ h.info = g.info ∧
      h.splits.map Split.pc = p.splits.map Split.pc ∧ h.proxied = false ∧ h.halted = false ∧ t.group? pk = none ∧
      (∀ x ∈ t.pkg.proxies, x.orig ≠ k) ∧ t.ms = s.ms := by
  refine ⟨_, p.resumed g s.clock.cycle, exec_proxyResume hg hp hh, State.group?_setGroup .., rfl, rfl, rfl, List.map_map, rfl, rfl, ?_,
    dropProxies_spec _ k, rfl⟩
  rw [State.group?_setGroup_ne _ _ hne]
  exact NMap.get?_erase_self ..

/-- Scores are halved and written to flash (R461, R462). -/
theorem scoreDecay_completes {s : State} (h : decayDue s = true) :
    ∃ t, exec .scoreDecay s = .next t ∧ t.work = s.work ∧ t.ms = s.ms ∧
      t.pkg.scores = s.pkg.scores.map (fun e => (e.1, { e.2 with score := e.2.score / 2 })) ∧
      t.pkg.flashScores = s.pkg.scores.map (fun e => (e.1, e.2.score / 2)) ∧
      t.pkg.cns.lastDecay = s.pkg.cns.lastDecay + decayPeriod s :=
  ⟨_, exec_scoreDecay h, State.onPkg_work .., State.onPkg_ms .., rfl, rfl, rfl⟩

/-- Settles O53: what an error scores is posted as a record, and no such record touches a score, a register of containment, an L1 or a
group; without automatic tests no drain begins, so that each event leaves exactly what its own steps write. -/
theorem containmentEventsComplete : Obligations.ContainmentEventsComplete := by
  intro s ha
  refine ⟨fun u c kind index ⟨hn, hp, hf⟩ hk => ?_, fun u c hn hp hread => ?_, fun zone hz h => strikeReport_completes hz h,
    sliceCricketReport_completes ha, fun core pa h => ?_, fun k g hg hl => proxyPlacementTimeout_completes hg hl,
    fun k p hp => ⟨fun n c g slot rest hs hc hg hf => proxyPlaced_completes hp hs hc hg hf,
      fun n pk g hs hk hn hg => proxyTransferred_completes hp hs hk hn hg⟩,
    fun k g pk p hg hp hne hh => proxyResume_completes hg hp hne hh, fun hd => scoreDecay_completes hd, fun kind index ht => ?_⟩
  · obtain ⟨hfirst, hregion⟩ := residueMismatch_completes ha hn hp hf hk
    refine ⟨fun hr hrep => ?_, fun r ⟨hr, ho, hfails, hv⟩ => ?_⟩
    · obtain ⟨t, hex, hgroup, hscore⟩ := hfirst hr hrep
      exact ⟨t, hex, hgroup, congrArg Suspicion.score hscore⟩
    · obtain ⟨t, h, hex, hgroup, ⟨hprox, y, hy⟩, hcns⟩ := hregion r hr ho hfails hv
      exact ⟨t, hex, ⟨h, y, hgroup, hprox, hy⟩, congrArg Containment.rollbk hcns⟩
  · obtain ⟨houtside, hregion⟩ := parityError_completes ha hn hp hread
    refine ⟨fun hr ht hpend htraps hh => ?_, fun r ⟨hr, ho, hfails, hv⟩ => ?_⟩
    · obtain ⟨t, hex, hentered, hscore⟩ := houtside hr ht hpend htraps hh
      exact ⟨t, hex, hentered, congrArg Suspicion.score hscore⟩
    · obtain ⟨t, h, hex, hgroup, hprox, y, hy⟩ := hregion r hr ho hfails hv
      exact ⟨t, hex, h, y, hgroup, hprox, hy⟩
  · obtain ⟨t, hex, hcopy, hwork, hscore⟩ := l1Uncorrectable_completes pa ha h
    exact ⟨t, hex, hcopy, hwork, congrArg Suspicion.score hscore⟩
  · exact ⟨⟨_, exec_unitTestComplete ht _, scoreOf_testEnd_pass s kind index⟩,
      fun n hn hm => ⟨_, exec_unitTestComplete ht _, scoreOf_testEnd_repaired n hn hm⟩,
      _, exec_unitTestComplete ht _, testEnd_beyond s kind index⟩

end Sys2Proof.Machine
end

section
/-! Plain registers of BAR0 (R41, R65, R363, R432, R462, R465, R473, R475, R480, R484): a register's fields are disjoint bits of the
written word, so that the word read back is the written one under the register's mask. -/

namespace Sys2Proof.Machine

/-! ## Fields of a word -/

/-- The bits `hi` to `lo` of a word. -/
def fieldMask (hi lo : Nat) : W64 := w64 (2 ^ (hi + 1) - 2 ^ lo)

theorem getLsbD_fieldMask {hi lo i : Nat} (hl : lo ≤ hi + 1) (hi64 : i < 64) :
    (fieldMask hi lo).getLsbD i = decide (lo ≤ i ∧ i ≤ hi) := by
  have hsub : 2 ^ (hi + 1) - 2 ^ lo = (2 ^ (hi + 1 - lo) - 1) <<< lo := by
    rw [Nat.shiftLeft_eq, Nat.sub_mul, one_mul, ← pow_add, Nat.sub_add_cancel hl]
  rw [fieldMask, w64, BitVec.getLsbD_ofNat, hsub, Nat.testBit_shiftLeft, Nat.testBit_two_pow_sub_one]
  by_cases h : lo ≤ i
  · by_cases h' : i ≤ hi
    · simp [h, h', hi64]; omega
    · simp [h', hi64]; omega
  · simp [h]

/-- A field put back in its place is the word under the field's mask. -/
theorem w64_field (v : W64) {hi lo : Nat} (hl : lo ≤ hi + 1) : w64 (bitsOf v.toNat hi lo * 2 ^ lo) = v &&& fieldMask hi lo := by
  apply BitVec.eq_of_getLsbD_eq
  intro i hi64
  rw [BitVec.getLsbD_and, getLsbD_fieldMask hl hi64, w64, BitVec.getLsbD_ofNat, bitsOf, Nat.testBit_mul_two_pow]
  by_cases h : lo ≤ i
  · rw [Nat.testBit_mod_two_pow, Nat.testBit_div_two_pow, Nat.sub_add_cancel h]
    simp only [hi64, h, BitVec.getLsbD, true_and, decide_true, Bool.true_and]
    rw [Bool.and_comm]
    congr 1
    exact decide_eq_decide.2 (by omega)
  · simp [h]

/-- One bit put back in its place. -/
theorem w64_bit (v : W64) (i : Nat) : w64 (b2n (v.getLsbD i) * 2 ^ i) = v &&& fieldMask i i := by
  rw [← w64_field v (Nat.le_succ i), bitsOf, Nat.add_sub_cancel_left, pow_one, ← Nat.toNat_testBit]
  unfold b2n BitVec.getLsbD
  cases v.toNat.testBit i <;> rfl

/-- Fields without a common bit add up to the word under both masks. -/
theorem and_add_and (v : W64) {m n : W64} (h : m &&& n = 0) : (v &&& m) + (v &&& n) = v &&& (m ||| n) := by
  have hdisjoint : (v &&& m) &&& (v &&& n) = 0 := by
    rw [BitVec.and_assoc, BitVec.and_comm m, BitVec.and_assoc, BitVec.and_comm n, h]
    simp
  rw [BitVec.add_eq_or_of_and_eq_zero _ _ hdisjoint, BitVec.and_or_distrib_left]

theorem w64_add (x y : Nat) : w64 (x + y) = w64 x + w64 y := BitVec.ofNat_add ..

/-! ## The registers -/

theorem exec_registerWrite {s : State} (h : s.hostReady = true) (off : Nat) (v : W64) :
    exec (.registerWrite off v) s = .next (writeRegister s off v) :=
  congrArg Host.Outcome.next (hostWrite_ready h _)

/-- What the plain registers read. -/
theorem readRegister_plain (s : State) : plainRegisters.map (fun r => readRegister s r.1) =
    [w64 s.work.sched.starve, s.work.sched.tddesc, s.work.sched.tdrec, w64 (s.vm.vmfq.base * 2 ^ 12),
      w64 (s.vm.regs.migmin * 2 ^ 32 + s.vm.regs.coldep * 2 ^ 24 + s.vm.regs.epoch * 2 ^ 16 + b2n s.vm.regs.migen * 2 ^ 3 +
        b2n s.vm.regs.colden * 2 ^ 2 + s.vm.regs.coldFlash),
      w64 s.vm.regs.hostwin, w64 (s.ms.faq.base * 2 ^ 12), cnsctl s.pkg.cns, w64 (s.pkg.cns.selKind * 2 ^ 12 + s.pkg.cns.selIndex),
      w64 (s.pkg.crq.base * 2 ^ 12), w64 (s.pkg.peers.timeout * 2 ^ 12 + b2n s.pkg.peers.en * 2 ^ 10 + s.pkg.peers.id),
      w64 s.pkg.peers.prt, w64 (s.pkg.peers.coltab * 2 ^ 16), s.pkg.boot.mbaddr] := rfl

/-- What a write of a plain register changes. -/
theorem writeRegister_plain (s : State) (v : W64) : plainRegisters.map (fun r => writeRegister s r.1 v) =
    [onSched s fun c => { c with starve := v.toNat % 2 ^ 32 },
      onSched s fun c => { c with tddesc := w64 (bitsOf v.toNat 47 6 * 2 ^ 6) },
      onSched s fun c => { c with tdrec := w64 (bitsOf v.toNat 47 5 * 2 ^ 5) },
      s.onVm fun vm => { vm with vmfq := { vm.vmfq with base := bitsOf v.toNat 39 12 } }, plctlSet s v,
      onVmRegs s fun c => { c with hostwin := bitsOf v.toNat 47 12 * 2 ^ 12 },
      s.onMs fun ms => { ms with faq := { ms.faq with base := bitsOf v.toNat 39 12 } }, onCns s fun c => cnsctlSet c v,
      onCns s fun c => { c with selKind := bitsOf v.toNat 15 12, selIndex := v.toNat % 2 ^ 10 },
      s.onPkg fun p => { p with crq := { p.crq with base := bitsOf v.toNat 39 12 } },
      onPeers s fun c => { c with timeout := bitsOf v.toNat 31 12, en := v.getLsbD 10, id := v.toNat % 2 ^ 10 },
      onPeers s fun c => { c with prt := bitsOf v.toNat 39 11 * 2 ^ 11 },
      onPeers s fun c => { c with coltab := bitsOf v.toNat 39 16 },
      onBoot s fun b => { b with mbaddr := w64 (bitsOf v.toNat 39 6 * 2 ^ 6) }] := rfl

/-- A plain register reads the bits that were written, field by field. -/
theorem readRegister_writeRegister_self (s : State) (v : W64) :
    ∀ r ∈ plainRegisters, readRegister (writeRegister s r.1 v) r.1 = v &&& r.2 := by
  have field (hi lo : Nat) (hl : lo ≤ hi + 1 := by decide) : w64 (bitsOf v.toNat hi lo * 2 ^ lo) = v &&& fieldMask hi lo :=
    w64_field v hl
  have low (hi : Nat) : w64 (v.toNat % 2 ^ (hi + 1)) = v &&& fieldMask hi 0 := by
    rw [← w64_field v (Nat.zero_le _), bitsOf, pow_zero, Nat.div_one, mul_one, Nat.sub_zero]
  have bit (i : Nat) : w64 (b2n (v.getLsbD i) * 2 ^ i) = v &&& fieldMask i i := w64_bit v i
  have bit0 : w64 (b2n (v.getLsbD 0)) = v &&& fieldMask 0 0 := by rw [← w64_bit, pow_zero, mul_one]
  have plus {x y : Nat} {m n : W64} (hx : w64 x = v &&& m) (hy : w64 y = v &&& n) (hd : m &&& n = 0 := by decide) :
      w64 (x + y) = v &&& (m ||| n) := by
    rw [w64_add, hx, hy, and_add_and v hd]
  have under {x m n : W64} (hx : x = v &&& m) (hm : m = n := by decide) : x = v &&& n := hm ▸ hx
  have hplctl := plus (plus (plus (plus (plus (field 47 32) (field 31 24)) (field 23 16)) (bit 3)) (bit 2)) (low 1)
  have hcnsctl := plus (plus (plus (plus (plus (plus (plus (plus (plus (field 63 48) (field 47 40)) (field 39 32)) (field 31 24))
    (field 23 16)) (field 15 8)) (bit 3)) (bit 2)) (bit 1)) bit0
  have hreads := readRegister_plain
  have hwrites := writeRegister_plain s v
  simp only [plainRegisters, List.map_cons, List.map_nil, List.cons.injEq, and_true, forall_and] at hreads hwrites
  simp only [plainRegisters, List.forall_mem_cons, List.not_mem_nil, false_imp_iff, implies_true, and_true, hreads, hwrites]
  exact ⟨under (low 31), under (field 47 6), under (field 47 5), under (field 39 12), under hplctl, under (field 47 12),
    under (field 39 12), under hcnsctl, under (plus (field 15 12) (low 9)), under (field 39 12),
    under (plus (plus (field 31 12) (bit 10)) (low 9)), under (field 39 11), under (field 39 16), under (field 39 6)⟩

/-- A write of a plain register leaves what the other plain registers read. -/
theorem readRegister_writeRegister_ne (s : State) (v : W64) :
    ∀ r ∈ plainRegisters, ∀ q ∈ plainRegisters, q.1 ≠ r.1 → readRegister (writeRegister s r.1 v) q.1 = readRegister s q.1 := by
  have hreads := readRegister_plain
  have hwrites := writeRegister_plain s v
  simp only [plainRegisters, List.map_cons, List.map_nil, List.cons.injEq, and_true, forall_and] at hreads hwrites
  simp only [plainRegisters, List.forall_mem_cons, List.not_mem_nil, false_imp_iff, implies_true, and_true, ne_eq, Nat.reduceEqDiff,
    not_true_eq_false, not_false_eq_true, true_imp_iff, true_and, hreads, hwrites]
  and_intros <;> rfl

/-- A write of a plain register leaves memory and the groups. -/
theorem writeRegister_keeps (s : State) (v : W64) :
    ∀ r ∈ plainRegisters, (writeRegister s r.1 v).ms.mem = s.ms.mem ∧ (writeRegister s r.1 v).work.groups = s.work.groups := by
  have hwrites := writeRegister_plain s v
  simp only [plainRegisters, List.map_cons, List.map_nil, List.cons.injEq, and_true] at hwrites
  simp only [plainRegisters, List.forall_mem_cons, List.not_mem_nil, false_imp_iff, implies_true, and_true, hwrites]
  and_intros <;> rfl

/-- Settles O46: the write takes effect, its fields read back, and each other register reads parts of the state that it does not touch. -/
theorem registerWriteReadsBack : Obligations.RegisterWriteReadsBack := by
  intro s v h r hr
  obtain ⟨hmem, hgroups⟩ := writeRegister_keeps s v r hr
  exact ⟨_, exec_registerWrite h r.1 v, readRegister_writeRegister_self s v r hr, readRegister_writeRegister_ne s v r hr, hmem,
    hgroups⟩

end Sys2Proof.Machine
end

section
/-! BATCH, QFENCE, QSTAT, BAR.TEST, BAR.INIT and BAR.ARRIVE outside regions (R117, R137, R325, R328, R332, R334-R340). -/

namespace Sys2Proof.Machine

/-! ## Words that have issued -/

/-- A unit that issues with its group's registers as they were. -/
theorem passed_done {c : Cx} (h : (c.g.split? c.sp.id).isSome = true) :
    c.Passed (c.advance c.nextPc).g c.done := by
  obtain ⟨hlast, -, g, hg, -, ⟨hst, -⟩, hregs, hsys⟩ := done_spec h
  obtain rfl := Option.some.inj (hg.symm.trans (done_group _))
  exact ⟨⟨hlast, hg, hst, hregs⟩, hsys⟩

/-- What `Pushes` says of a unit concerns its registers, its split but for the log's mark, its number, its word and the cycle. -/
theorem Cx.Pushes.of_same {c d : Cx} (hregs : d.g.regs = c.g.regs) (hsys : d.g.sys = c.g.sys)
    (hsp : { d.sp with logMark := c.sp.logMark } = c.sp) (hk : d.k = c.k) (hi : d.i = c.i)
    (hclock : d.s.clock = c.s.clock) {u : State} {act : Mask} {x : W64} (hp : d.Pushes u act x) : c.Pushes u act x := by
  obtain ⟨p, v, hawaits, hprod, hon, hrest⟩ := hp
  exact ⟨p, v, hawaits.of_same hregs hsys hsp hk hi, hprod.trans (by rw [← hsp]), hclock ▸ hon, hrest⟩

/-- A word that pushes one value has issued: the value is pending, and nothing but the group changes. -/
theorem pushValue_done {c : Cx} (h : (c.g.split? c.sp.id).isSome = true) (act : Mask) (x : W64) :
    let u := (c.pushValue act x).done
    c.Pushes u act x ∧ u.ms = c.s.ms ∧ u.eng = c.s.eng ∧ u.work.teams = c.s.work.teams ∧
      ∃ h, u.group? c.k = some h ∧ h.batches = c.g.batches := by
  obtain ⟨-, -, -, -, hsys, -, hsplits, hrq, -⟩ := later_spec c (.cycle (c.s.clock.cycle + 4)) act []
    [LaneReg.merge act (LaneReg.splat x) LaneReg.zero] none 0 0 none 0
  have hs : ((c.pushValue act x).g.split? c.sp.id).isSome = true := by
    unfold Group.split? at h ⊢
    rwa [show (c.pushValue act x).g.splits = c.g.splits from hsplits]
  obtain ⟨⟨hlast, hg, hst, hregs⟩, hsys'⟩ := passed_done (c := c.pushValue act x) hs
  have hpend {f : Pending → Pending} {l : List Pending} {p : Pending} : ((l ++ [p]).map f).getLast? = some (f p) :=
    (congrArg List.getLast? List.map_append).trans List.getLast?_concat
  refine ⟨⟨_, _, ⟨hlast, _, hg, hst, hpend, hrq ▸ congrArg (fun r : Regs => { r with rq := c.g.regs.rq }) hregs, hsys'.trans hsys⟩,
    rfl, rfl, rfl, rfl, rfl, rfl, rfl, rfl, fun l hl => ?_⟩, rfl, rfl, rfl, _, hg, rfl⟩
  rw [LaneReg.merge, lane_ofFn _ hl]
  cases act.has l
  · simp [LaneReg.zero, lane_ofFn _ hl]
  · simp [LaneReg.splat, lane_ofFn _ hl]

/-- A unit that pops its operands and goes on: nothing but its group and its team's k-queues changes. -/
theorem pops_done {c : Cx} (h : (c.g.split? c.sp.id).isSome = true) :
    let u := (c.pops c.i.uses).done
    c.Passed ((c.pops c.i.uses).advance (c.pops c.i.uses).nextPc).g u ∧ u.ms = c.s.ms ∧ u.eng = c.s.eng ∧
      (u.team? c.g.info.team).map Team.rest = (c.s.team? c.g.info.team).map Team.rest := by
  obtain ⟨hg, hsp, hk, hi, ⟨-, hms, -, heng, -, -, -, hteam, -⟩, -⟩ := pops_spec c
  exact ⟨(passed_done (by rw [hg, hsp]; exact h)).of_same hg hsp hk hi, hms, heng, hteam⟩

/-! ## Queues -/

/-- The queues just written. -/
theorem queues_setQueues (s : State) (core : Nat) (q : CoreQueues) : (s.setQueues core q).queues core = q := by
  rw [State.queues, State.setQueues_eng, NMap.get?_set_self]
  rfl

/-- The queues of the core once a fence of the queues in `k` has entered them (R332). -/
def Cx.fenceQueues (c : Cx) (k : Nat) : CoreQueues :=
  let q := c.s.queues (coreOf c.k)
  let n := c.s.eng.nextFence
  { copy := if k.testBit 0 then q.copy ++ [.fence n] else q.copy
    matFences := if k.testBit 1 then q.matFences ++ [(n, c.s.eng.nextId)] else q.matFences
    coll := if k.testBit 2 then q.coll ++ [.fence n] else q.coll
    path := if k.testBit 3 then q.path ++ [.fence n] else q.path }

/-- The unit once such a fence has entered. -/
def Cx.fenced (c : Cx) (k : Nat) : Cx :=
  { c with s := (c.s.setQueues (coreOf c.k) (c.fenceQueues k)).onEng fun e => { e with nextFence := c.s.eng.nextFence + 1 } }

/-- The unit once a barrier of its team is set up (R336). -/
def Cx.barrierSet (c : Cx) (k n : Nat) : Cx :=
  { c with s := c.s.onTeam c.g.info.team fun m => { m with nb := m.nb.setIfInBounds k ⟨true, n, 0, 0, 0, 0⟩ } }

/-- The word that BAR.TEST pushes (R339). -/
def Barrier.testWord (b : Barrier) (ready : Bool) : W64 :=
  w64 (b2n ready * 2 ^ 63 + b.last.toNat * 2 ^ 32 + b.cnt % 2 ^ 16 * 2 ^ 16 + b.phase % 2 ^ 16)

/-- A team's barriers are beside its k-queues. -/
theorem barrierOf_of_rest {s t : State} {team : Nat} (h : (t.team? team).map Team.rest = (s.team? team).map Team.rest) (k : Nat) :
    barrierOf t team k = barrierOf s team k := by
  have hnb : (t.team? team).map Team.nb = (s.team? team).map Team.nb := by
    have := congrArg (Option.map fun r : Nat × Nat × Nat × Nat × List Nat × Scratch × Vector Barrier 16 × Vector Tile 32 ×
      List Child => r.2.2.2.2.2.2.1) h
    rwa [Option.map_map, Option.map_map] at this
  have hof (u : State) : barrierOf u team k =
      (((u.team? team).map Team.nb).map fun nb => nb.toArray.toList.getD k ⟨false, 0, 0, 0, 0, 0⟩).getD ⟨false, 0, 0, 0, 0, 0⟩ := by
    rw [Option.map_map]
    rfl
  rw [hof, hof, hnb]

section Words
variable {s : State} {c : Cx} (h : c.Clear) (hr : c.g.region = none)
include h hr

/-- BATCH (R328). -/
theorem batch_completes {b : Bool} {l : La} (hc : cx? (.batch b l) s = some c) (hp : c.g.batches.pending.length < 15) :
    ∃ u h, exec (.batch b l) s = .next u ∧ c.Pushes u c.act (w64 c.g.batches.cur.num) ∧ u.group? c.k = some h ∧
      h.batches = c.g.batches.close ∧ u.ms = c.s.ms := by
  obtain ⟨-, -, -, hsplit, -⟩ := cx?_eq hc
  have hregion : batchChecks.illregion c = false := by
    show (match c.g.region, c.g.batches.pending with
      | some r, b :: rest => decide (15 ≤ rest.length + 1) && r.holdsBatch b.num
      | _, _ => false) = false
    rw [hr]
  let d : Cx := { c with g := { c.g with batches := c.g.batches.close } }
  obtain ⟨hpush, hms, -, -, g, hg, hb⟩ := pushValue_done (c := d) (Option.isSome_iff_exists.2 ⟨_, hsplit⟩) c.act
    (w64 c.g.batches.cur.num)
  have hexec : exec (.batch b l) s = .next (d.pushValue c.act (w64 c.g.batches.cur.num)).done :=
    (issue_clear hc h (fun _ hn => absurd hn List.not_mem_nil) rfl rfl hregion _).trans
      (congrArg Host.Outcome.next (if_neg (Nat.not_le.2 hp)))
  exact ⟨_, g, hexec, hpush.of_same rfl rfl rfl rfl rfl rfl, hg, hb, hms⟩

/-- QFENCE (R332, R117). -/
theorem qfence_completes {b : Bool} {k : Four} (hc : cx? (.qfence b k) s = some c)
    (hl : k.val.testBit 0 = true → copyLeaving c.s c.k = false) :
    ∃ u h, exec (.qfence b k) s = .next u ∧ c.Passed h u ∧ u.ms = c.s.ms ∧ u.eng.nextFence = c.s.eng.nextFence + 1 ∧
      u.queues (coreOf c.k) = c.fenceQueues k.val := by
  obtain ⟨-, -, -, hsplit, -⟩ := cx?_eq hc
  have hleaving : (k.val.testBit 0 && copyLeaving c.s c.k) = false := by
    cases hb : k.val.testBit 0
    · rfl
    · rw [hl hb]; rfl
  have hexec : exec (.qfence b k) s = .next (c.fenced k.val).done := by
    refine (issue_clear (ck := Checks.none) hc h (fun _ hn => nomatch hn) rfl rfl rfl _).trans (congrArg _ ?_)
    simp only [hr, Bool.and_false, Bool.false_eq_true, if_false, hleaving]
    rfl
  exact ⟨_, _, hexec, (passed_done (c := c.fenced k.val) (Option.isSome_iff_exists.2 ⟨_, hsplit⟩)).of_same rfl rfl rfl rfl, rfl, rfl,
    queues_setQueues c.s (coreOf c.k) (c.fenceQueues k.val)⟩

omit hr in
/-- QSTAT (R340). -/
theorem qstat_completes {b : Bool} {l : La} {q : QSel} (hc : cx? (.qstat b l q) s = some c) :
    ∃ u, exec (.qstat b l q) s = .next u ∧ c.Pushes u c.act (w64 (c.qstat q)) ∧ u.ms = c.s.ms := by
  obtain ⟨-, -, -, hsplit, -⟩ := cx?_eq hc
  obtain ⟨hpush, hms, -⟩ := pushValue_done (c := c) (Option.isSome_iff_exists.2 ⟨_, hsplit⟩) c.act (w64 (c.qstat q))
  exact ⟨_, issue_clear (ck := Checks.none) hc h (fun _ hn => nomatch hn) rfl rfl rfl _, hpush, hms⟩

omit hr in
/-- BAR.TEST (R339). -/
theorem barTest_completes {b : Bool} {l : La} {k : Four} (hc : cx? (.barTest b l k) s = some c)
    (hi : (barrierOf c.s c.g.info.team k.val).init = true) :
    ∃ u, exec (.barTest b l k) s = .next u ∧ u.ms = c.s.ms ∧
      c.Pushes u c.act ((barrierOf c.s c.g.info.team k.val).testWord
        (((c.barTarget k.val).map (phaseOver (barrierOf c.s c.g.info.team k.val))).getD false)) := by
  obtain ⟨-, -, -, hsplit, -⟩ := cx?_eq hc
  have hready (f : Nat → Bool) (o : Option Nat) : (o.map f).getD false = match o with
      | some t => f t
      | none => false := by
    cases o <;> rfl
  rw [hready]
  obtain ⟨hpush, hms, -⟩ := pushValue_done (c := c) (Option.isSome_iff_exists.2 ⟨_, hsplit⟩) c.act
    ((barrierOf c.s c.g.info.team k.val).testWord (match c.barTarget k.val with
      | some t => phaseOver (barrierOf c.s c.g.info.team k.val) t
      | none => false))
  refine ⟨_, (issue_clear (ck := Checks.none) hc h (fun _ hn => nomatch hn) rfl rfl rfl _).trans (congrArg _ ?_), hms, hpush⟩
  dsimp only
  rw [hi, Bool.not_true, if_neg Bool.false_ne_true]
  rfl

omit hr in
/-- The barriers of a team once one of them is set up. -/
theorem barrierOf_barrierSet (k n : Nat) {j : Nat} (hj : j < 16) :
    barrierOf (c.barrierSet k n).s c.g.info.team j =
      if j = k then ⟨true, n, 0, 0, 0, 0⟩ else barrierOf c.s c.g.info.team j := by
  obtain ⟨m, hm⟩ := Option.isSome_iff_exists.1 h.team
  unfold barrierOf Cx.barrierSet State.onTeam
  dsimp only
  rw [hm]
  dsimp only
  rw [State.team?_setTeam]
  simp only [Option.map_some, Option.getD_some, getD_set _ _ _ _ _ hj, eq_comm]

/-- BAR.INIT (R336). -/
theorem barInit_completes {t : Tail} {a : Src} {k : Four} (hc : cx? (.barInit t a k) s = some c) (hs : c.g.inSplits = false)
    (hcnt : (barrierOf c.s c.g.info.team k.val).cnt = 0) (hn : barrierNamed c.s c.g.info.team (coreOf c.k) k.val = false)
    (h1 : 1 ≤ (uniform c.act (c.opA t .int a)).toNat) (h2 : (uniform c.act (c.opA t .int a)).toNat ≤ 65535) :
    ∃ u h, exec (.barInit t a k) s = .next u ∧ c.Passed h u ∧ u.ms = c.s.ms ∧ ∀ j < 16, barrierOf u c.g.info.team j =
      if j = k.val then ⟨true, (uniform c.act (c.opA t .int a)).toNat, 0, 0, 0, 0⟩ else barrierOf c.s c.g.info.team j := by
  obtain ⟨-, -, -, hsplit, hi, -⟩ := cx?_eq hc
  generalize hv : (uniform c.act (c.opA t .int a)).toNat = n at h1 h2 ⊢
  have hregion : c.g.inRegion = false := by rw [Group.inRegion, hr]; rfl
  have hexec : exec (.barInit t a k) s = .next ((c.barrierSet k.val n).pops (Instr.barInit t a k).uses).done := by
    refine (issue_clear (ck := barInitChecks) hc h (fun _ hn => absurd hn List.not_mem_nil) hs rfl hregion _).trans (congrArg _ ?_)
    dsimp only
    rw [hcnt, hn, hv, if_neg (by decide), if_neg (by omega)]
    rfl
  rw [show (Instr.barInit t a k).uses = (c.barrierSet k.val n).i.uses from congrArg Instr.uses hi.symm] at hexec
  obtain ⟨hpassed, hms, -, hteam⟩ := pops_done (c := c.barrierSet k.val n) (Option.isSome_iff_exists.2 ⟨_, hsplit⟩)
  refine ⟨_, _, hexec, hpassed.of_same rfl rfl rfl rfl, hms.trans (State.onTeam_ms ..), fun j hj => ?_⟩
  exact (barrierOf_of_rest hteam j).trans (barrierOf_barrierSet h k.val n hj)

omit h hr in
/-- The arrival of a group counts: the barrier has one arrival more, and the group has its target (R337). -/
theorem countArrival_spec {s : State} {team k n : Nat} {g : Group} (hg : s.group? k = some g) (ht : g.info.team = team)
    (hm : (s.team? team).isSome = true) (hn : n < 16) :
    (countArrival s team k n).ms = s.ms ∧ (countArrival s team k n).work.releases = s.work.releases ∧
      barrierOf (countArrival s team k n) team n = (barrierOf s team n).arrive 0 ∧
      (countArrival s team k n).group? k =
        some { g with targets := g.targets.setIfInBounds n (some (barrierOf s team n).phase) } := by
  obtain ⟨m, hm⟩ := Option.isSome_iff_exists.1 hm
  have hteam : (s.setGroup k { g with targets := g.targets.setIfInBounds n (some (barrierOf s team n).phase) }).team? team = some m := hm
  have heq : countArrival s team k n = (s.setGroup k { g with
      targets := g.targets.setIfInBounds n (some (barrierOf s team n).phase) }).setTeam team
        { m with nb := m.nb.setIfInBounds n ((barrierOf s team n).arrive 0) } := by
    unfold countArrival
    dsimp only
    rw [State.onGroup, hg]
    dsimp only
    rw [if_pos ht, arriveAt, State.onTeam, hteam]
    rfl
  rw [heq]
  refine ⟨rfl, rfl, ?_, State.group?_setGroup ..⟩
  rw [barrierOf, State.team?_setTeam]
  exact (getD_set _ _ _ _ _ hn).trans (if_pos rfl)

omit h hr in
/-- Counting what is complete changes a group's horizon and the list of what is out alone (R103). -/
theorem settle_eq (g : Group) (s : State) : ∃ n o, g.settle s = { g with sys := { g.sys with horizon := n }, out := o } := by
  have key (l : List Outstanding) (g : Group) :
      ∃ n, l.foldl (fun g o => g.raiseHorizon o.gwct) g = { g with sys := { g.sys with horizon := n } } := by
    induction l generalizing g with
    | nil => exact ⟨_, rfl⟩
    | cons o l ih =>
      obtain ⟨n, hn⟩ := ih (g.raiseHorizon o.gwct)
      exact ⟨n, hn⟩
  obtain ⟨n, hn⟩ := key (g.out.filter (Outstanding.isDone s)) g
  exact ⟨n, _, by rw [Group.settle, hn]⟩

/-- BAR.ARRIVE (R337): counted at once when every access of the group is complete, else it waits for them. -/
theorem barArrive_completes {b : Bool} {k : Four} (hc : cx? (.barArrive b k) s = some c) (hs : c.g.inSplits = false)
    (hi : (barrierOf c.s c.g.info.team k.val).init = true) :
    let bar := barrierOf c.s c.g.info.team k.val
    let g := c.g.settle c.s
    ∃ u h, exec (.barArrive b k) s = .next u ∧ c.Went h u ∧ u.ms = c.s.ms ∧
      if g.out = [] ∧ logOf c.s c.k g = [] then
        barrierOf u c.g.info.team k.val = bar.arrive 0 ∧ h.targets.toArray.toList.getD k.val none = some bar.phase ∧
          u.work.releases = c.s.work.releases
      else u.work.releases = c.s.work.releases ++ [releaseOf g c.k (.arrive k.val)] ∧ barrierOf u c.g.info.team k.val = bar := by
  intro bar g
  obtain ⟨-, -, -, hsplit, -⟩ := cx?_eq hc
  obtain ⟨horizon, out, hg⟩ : ∃ n o, g = { c.g with sys := { c.g.sys with horizon := n }, out := o } := settle_eq c.g c.s
  have hexec : exec (.barArrive b k) s = .next (if g.out.isEmpty && (logOf c.s c.k g).isEmpty then
      { countArrival ({ c with g := g } : Cx).done c.g.info.team c.k k.val with last := .issued }
    else ({ c with g := g, s := c.s.addRelease (releaseOf g c.k (.arrive k.val)) } : Cx).done) := by
    refine (issue_clear (ck := { Checks.none with illconv := fun c => c.g.inSplits }) hc h (fun _ hn => nomatch hn) hs rfl rfl _).trans
      (congrArg _ ?_)
    dsimp only
    rw [hi, Bool.not_true, if_neg Bool.false_ne_true, Group.inRegion, hr, Option.isSome_none, if_neg Bool.false_ne_true]
  have hempty : (g.out.isEmpty && (logOf c.s c.k g).isEmpty) = true ↔ g.out = [] ∧ logOf c.s c.k g = [] := by
    rw [Bool.and_eq_true, List.isEmpty_iff, List.isEmpty_iff]
  have hsplit' : (g.split? c.sp.id).isSome = true := by
    rw [hg]
    exact Option.isSome_iff_exists.2 ⟨_, hsplit⟩
  have hregs : g.regs = c.g.regs := by rw [hg]
  have hinfo : g.info = c.g.info := by rw [hg]
  rw [hexec]
  split_ifs with hnow hboth hboth
  · obtain ⟨⟨hlast, hgroup, ⟨sp, hsp, hstands⟩, hregs'⟩, -⟩ := passed_done (c := { c with g := g }) hsplit'
    obtain ⟨hms, hrel, hbar, hgroup'⟩ := countArrival_spec (n := k.val) hgroup (congrArg GroupInfo.team hinfo) h.team k.isLt
    exact ⟨_, _, rfl, ⟨rfl, hgroup', ⟨sp, hsp, hstands⟩, hregs'.trans hregs⟩, hms, hbar, (getD_set _ _ _ _ _ k.isLt).trans (if_pos rfl),
      hrel⟩
  · exact absurd (hempty.1 hnow) hboth
  · exact absurd (hempty.2 hboth) hnow
  · obtain ⟨⟨hlast, hgroup, hst, hregs'⟩, -⟩ := passed_done
      (c := { c with g := g, s := c.s.addRelease (releaseOf g c.k (.arrive k.val)) }) hsplit'
    exact ⟨_, _, rfl, ⟨hlast, hgroup, hst, hregs'.trans hregs⟩, rfl, rfl, rfl⟩

end Words

/-- Settles O42: each word passes its checks, and the unit it leaves is the one that its rule names, issued. -/
theorem queueAndBarrierWordsComplete : Obligations.QueueAndBarrierWordsComplete := by
  intro t b l a k q s c h hr core bar
  refine ⟨fun hc hp => batch_completes h hr hc hp, fun hc hl => ?_, fun hc => qstat_completes h hc,
    fun hc hi => barTest_completes h hc hi, fun hc hs hcnt hn h1 h2 => barInit_completes h hr hc hs hcnt hn h1 h2,
    fun hc hs hi => barArrive_completes h hr hc hs hi⟩
  obtain ⟨u, g, hexec, hpassed, hms, hnext, hqueues⟩ := qfence_completes h hr hc hl
  exact ⟨u, g, hexec, hpassed, hms, hnext, congrArg CoreQueues.copy hqueues, congrArg CoreQueues.coll hqueues,
    congrArg CoreQueues.path hqueues, congrArg CoreQueues.matFences hqueues⟩

end Sys2Proof.Machine
end

section
/-! Descriptors that arrive outside regions (R33, R87, R129, R130, R326): what their reads leave of the unit. -/

namespace Sys2Proof.Machine

/-! ## Sectors of a descriptor -/

/-- `d` is `c` but for memory, translation and the group's horizon. -/
structure Cx.afterRead (c d : Cx) : Prop where
  k : d.k = c.k
  sp : d.sp = c.sp
  i : d.i = c.i
  group : ∃ n, d.g = { c.g with sys := { c.g.sys with horizon := n } }
  team : ∀ k, (d.s.team? k).isSome = (c.s.team? k).isSome

theorem Cx.afterRead_refl (c : Cx) : c.afterRead c := ⟨rfl, rfl, rfl, ⟨_, rfl⟩, fun _ => rfl⟩

theorem Cx.afterRead.andThen {c d e : Cx} (h : c.afterRead d) (h' : d.afterRead e) : c.afterRead e where
  k := h'.k.trans h.k
  sp := h'.sp.trans h.sp
  i := h'.i.trans h.i
  group := by
    obtain ⟨_, hg⟩ := h.group
    obtain ⟨n, hg'⟩ := h'.group
    exact ⟨n, by rw [hg', hg]⟩
  team k := (h'.team k).trans (h.team k)

theorem Cx.afterRead.region {c d : Cx} (h : c.afterRead d) : d.g.region = c.g.region := by
  obtain ⟨n, hg⟩ := h.group
  rw [hg]

theorem team_isSome_of_teams {s t : State} (h : t.work.teams = s.work.teams) (k : Nat) : (t.team? k).isSome = (s.team? k).isSome := by
  rw [State.team?, h]
  rfl

theorem samplePage_teams (s : State) (l : Leaf) (ctx va die : Nat) : (samplePage s l ctx va die).work.teams = s.work.teams := by
  unfold samplePage
  split <;> rfl

theorem sampleLines_teams (s : State) (ctx die : Nat) (rs : List (Leaf × Nat × Nat)) :
    (sampleLines s ctx die rs).work.teams = s.work.teams := by
  unfold sampleLines
  generalize (none : Option (Nat × Nat × Nat)) = l
  induction rs generalizing s l with
  | nil => rfl
  | cons r rs ih =>
    rw [List.foldl_cons]
    dsimp only
    split
    · exact ih ..
    · exact (ih ..).trans (samplePage_teams ..)

/-- Outside regions a load of a sector changes memory alone. -/
theorem loadSector_afterRead {c : Cx} (hr : c.g.region = none) (l : Leaf) (pa : Nat) : c.afterRead (c.loadSector l pa).2 := by
  obtain ⟨-, -, -, hwork, -⟩ := memoryOnly_coreRead c.s (coreOf c.k) l.home (pa / 32) c.g.info.ctx l.noalloc
  unfold Cx.loadSector
  dsimp only
  rw [hr]
  exact ⟨rfl, rfl, rfl, ⟨_, rfl⟩, team_isSome_of_teams (congrArg Work.teams hwork)⟩

theorem onRegion_of_none {g : Group} (h : g.region = none) (f : Region → Region) : g.onRegion f = g := by
  rw [Group.onRegion, h, Option.map_none, ← h]

theorem descSectors_afterRead {c : Cx} (hr : c.g.region = none) (l : Leaf) (pa va n : Nat) :
    c.afterRead (c.descSectors l pa va n).2.2.2 := by
  unfold Cx.descSectors
  refine List.foldlRecOn (motive := fun r : List Byte × Bool × Nat × Cx => c.afterRead r.2.2.2) _ _ c.afterRead_refl
    fun r hc i _ => hc.andThen ?_
  have hregion : r.2.2.2.g.region = none := hc.region.trans hr
  have hload := loadSector_afterRead hregion l (pa + 32 * i)
  generalize r.2.2.2.loadSector l (pa + 32 * i) = x at hload ⊢
  obtain ⟨x, d⟩ := x
  refine hload.andThen ?_
  have hnone : (d.g.raiseHorizon x.stamp).region = none := hload.region.trans hregion
  dsimp only
  cases x.hit
  · exact ⟨rfl, rfl, rfl, ⟨_, onRegion_of_none hnone _⟩, team_isSome_of_teams (sampleLines_teams ..)⟩
  · exact ⟨rfl, rfl, rfl, ⟨_, onRegion_of_none hnone _⟩, fun _ => rfl⟩

/-- The note of a place in the side log does not matter to what a descriptor's sectors give. -/
theorem descSectors_marked (c : Cx) (mark : Nat) (l : Leaf) (pa va n : Nat) :
    (c.marked mark).descSectors l pa va n = ((c.descSectors l pa va n).1, (c.descSectors l pa va n).2.1, (c.descSectors l pa va n).2.2.1,
      (c.descSectors l pa va n).2.2.2.marked mark) := by
  unfold Cx.descSectors
  dsimp only
  refine List.foldl_hom (init := ([], false, 0, c)) (fun r : List Byte × Bool × Nat × Cx =>
    (r.1, r.2.1, r.2.2.1, r.2.2.2.marked mark)) fun r i => ?_
  dsimp only
  rw [loadSector_marked]
  generalize r.2.2.2.loadSector l (pa + 32 * i) = x
  obtain ⟨x, d⟩ := x
  dsimp only
  cases x.hit <;> rfl

theorem translateLanes_teams (s : State) (k ctx : Nat) (acc : AccessKind) (atomic : Bool) (ls : List (Nat × Nat)) :
    (translateLanes s k ctx acc atomic ls).2.work.teams = s.work.teams := by
  unfold translateLanes
  generalize (⟨[], [], []⟩ : Xlated) = x
  induction ls generalizing s x with
  | nil => rfl
  | cons e ls ih =>
    rw [List.foldl_cons]
    have h := congrArg Work.teams (lookupOnly_translate s k (some e.1) ctx e.2 acc atomic).work
    dsimp only at h ⊢
    generalize translate s k (some e.1) ctx e.2 acc atomic = r at h ⊢
    obtain ⟨r, s'⟩ := r
    cases r <;> exact (ih ..).trans h

/-! ## Descriptors -/

/-- The unit with another note of its place in the side log. -/
def Cx.noted (c : Cx) (m : Option Nat) : Cx := { c with sp := { c.sp with logMark := m } }

/-- A descriptor in global memory arrives: the word goes on with its words (R129, R326). -/
theorem readGlobal_reads {c c' : Cx} {lane addr : Nat} {ws : List W64} (hr : c.g.region = none)
    (h : c.Reads lane addr 64 64 c' ws) :
    c.afterRead c' ∧ ∀ us act pushes, ∃ m, ∀ body, c.readGlobal ⟨us, act, lane, pushes⟩ addr 64 64 body = body (c'.noted m) ws := by
  obtain ⟨hal, hwild, x, s', hreach, htgt, hfit, hpois, hc', hws⟩ := h
  subst hc' hws
  have hteams := translateLanes_teams c.s c.k c.g.info.ctx .read false [(lane, addr)]
  rw [hreach.1] at hteams
  have hafter : c.afterRead (c.after s') := ⟨rfl, rfl, rfl, ⟨_, rfl⟩, team_isSome_of_teams hteams⟩
  refine ⟨hafter.andThen (descSectors_afterRead (c := c.after s') hr ..), fun us act pushes => ⟨some (c.sp.logMark.getD s'.vm.slogNext), fun body => ?_⟩⟩
  unfold Cx.readGlobal
  dsimp only
  rw [checkAddrs_placed (fun e he => by obtain rfl := List.mem_singleton.1 he; exact ⟨hal, hwild⟩), reading_reaches hreach]
  dsimp only
  rw [if_pos htgt, budget_fits (c := (c.after s').marked _) (Or.inl hr), descSectors_marked]
  dsimp only
  rw [hpois, if_neg Bool.false_ne_true]
  rfl

theorem granule_of_none {c : Cx} (h : c.g.region = none) (s : State) (sc : Scratch) (n : Nat) :
    ({ c with s := s } : Cx).granule sc n = (sc.sector n, sc.poison.contains n) := by
  unfold Cx.granule
  rw [h]
  rfl

/-- A descriptor in the team's scratchpad arrives: the word goes on with its words (R129, R130). -/
theorem readScratch_arrives {c c' : Cx} {lane cmd addr : Nat} {ws : List W64} (hr : c.g.region = none) (hcmd : cmd.testBit 19 = true)
    (h : c.Descriptor lane cmd addr c' ws) (us : Uses) (act : Mask) (pushes : Bool)
    (body : Cx → List W64 → State) : c.readScratch ⟨us, act, lane, pushes⟩ addr body = body c' ws := by
  rw [Cx.Descriptor, if_pos hcmd] at h
  obtain ⟨hal, hsize, rfl, rfl, hsound, hinit⟩ := h
  have hoff : (addr % 64 != 0) = false := by rw [hal]; rfl
  have hrange : decide ((c.scratch.check [addr / 32, addr / 32 + 1]).size < addr + 64) = false := decide_eq_false (Nat.not_lt.2 hsize)
  have hbusy : ((List.range 2).any fun i => (c.scratch.check [addr / 32, addr / 32 + 1]).isBusy (addr / 32 + i)) = false :=
    List.any_eq_false.2 fun i hi => by
      rw [show (c.scratch.check [addr / 32, addr / 32 + 1]).isBusy (addr / 32 + i) = false from (hsound i (List.mem_range.1 hi)).1]
      exact Bool.false_ne_true
  have huninit : ((wordsOf addr 64).any fun w => !(c.scratch.check [addr / 32, addr / 32 + 1]).isInit w &&
      (c.ownScratch (4 * w) &&& byteMask (4 * w % 32) 4) != byteMask (4 * w % 32) 4) = false :=
    List.any_eq_false.2 fun w hw => by
      rw [show (c.scratch.check [addr / 32, addr / 32 + 1]).isInit w = true from hinit w hw]
      exact Bool.false_ne_true
  unfold Cx.readScratch
  dsimp only
  rw [hoff, hrange, hbusy, huninit]
  simp only [Bool.false_eq_true, if_false]
  rw [budget_fits (c := { c with s := onScratch c.s c.g.info.team fun _ => c.scratch.check [addr / 32, addr / 32 + 1] }) (Or.inl hr)]
  simp only [hr, onRegion_of_none hr, granule_of_none hr]
  have hfind : ([0, 1] : List Nat).find? (fun i => (c.scratch.check [addr / 32, addr / 32 + 1]).poison.contains (addr / 32 + i) &&
      (0 : Word32) != fullMask) = none :=
    List.find?_eq_none.2 fun i hi => by
      have hi : i = 0 ∨ i = 1 := by simpa using hi
      rw [(hsound i (by omega)).2]
      exact Bool.false_ne_true
  rw [hfind]
  rfl

/-- A change of a team leaves the teams that are there. -/
theorem onTeam_isSome (s : State) (k : Nat) (f : Team → Team) (j : Nat) : ((s.onTeam k f).team? j).isSome = (s.team? j).isSome := by
  unfold State.onTeam
  split
  · next m hm =>
    by_cases hj : j = k
    · rw [hj, State.team?_setTeam, hm]
      rfl
    · rw [State.team?_setTeam_ne _ _ hj]
  · rfl

/-- A descriptor arrives, in either space: the word goes on with its words. -/
theorem readDesc_arrives {c c' : Cx} {lane cmd addr : Nat} {ws : List W64} (hr : c.g.region = none)
    (h : c.Descriptor lane cmd addr c' ws) :
    c.afterRead c' ∧ ∀ us act pushes, ∃ m, ∀ body, c.readDesc ⟨us, act, lane, pushes⟩ cmd addr body = body (c'.noted m) ws := by
  cases hcmd : cmd.testBit 19
  · rw [Cx.Descriptor, hcmd, if_neg Bool.false_ne_true] at h
    obtain ⟨hafter, hbody⟩ := readGlobal_reads hr h
    refine ⟨hafter, fun us act pushes => ?_⟩
    obtain ⟨m, hm⟩ := hbody us act pushes
    exact ⟨m, fun body => by rw [Cx.readDesc, hcmd, if_neg Bool.false_ne_true, hm]⟩
  · have hbody := readScratch_arrives hr hcmd h
    rw [Cx.Descriptor, if_pos hcmd] at h
    obtain ⟨-, -, rfl, -⟩ := h
    exact ⟨⟨rfl, rfl, rfl, ⟨_, rfl⟩, fun _ => onTeam_isSome ..⟩, fun us act pushes => ⟨c.sp.logMark, fun body => by
      rw [Cx.readDesc, hcmd, if_pos rfl, hbody]
      rfl⟩⟩

/-- A descriptor that passes R130's checks goes on. -/
theorem checkDesc_passes {b : Box} {ws : List W64} (h : b.passes ws) (c : Cx) (lane addr : Nat) (body : Cx → State) :
    c.checkDesc lane b ws addr body = body c := by
  obtain ⟨hmal, hmis, hwild⟩ := h
  rw [Cx.checkDesc, hmal, if_neg Bool.false_ne_true, hmis, hwild]

end Sys2Proof.Machine
end

section
/-! TILE and COLL (R120, R136, R333, R341, R342). -/

namespace Sys2Proof.Machine

/-! ## In a region -/

/-- A word that no region may hold takes ILLREGION in one (R212, R146). -/
theorem issue_illregion {i : Instr} {ck : Checks} {s : State} {c : Cx} (hc : cx? i s = some c) (h : c.Clear)
    (h0 : ∀ n ∈ ck.names c, n < c.g.names) (h1 : ck.illconv c = false) (h2 : ck.illwait c = none) (h3 : ck.illregion c = true)
    (body : Cx → State) : issue i ck s body = .next (c.raise 0x0E 0) := by
  obtain ⟨-, hparity, hstrike⟩ := inject_clear h
  have hopen : c.reopened = some c := by
    have hreopen : (c.g.reopen = .now && c.g.region.isNone) = false := by
      rcases h.opened with ho | ho
      · rw [decide_eq_false ho, Bool.false_and]
      · rw [Option.isNone_eq_false_iff.2 ho, Bool.and_false]
    rw [Cx.reopened, hreopen]
    rfl
  have hnames : (c.i.uses.v ++ c.i.uses.d ++ ck.names c).any (fun n => decide (c.g.names ≤ n)) = false :=
    List.any_eq_false.2 fun n hn => by
      have hlt : n < c.g.names := (List.mem_append.1 hn).elim (h.names n) (h0 n)
      simpa using hlt
  have hfree (p) (hp : p ∈ c.g.pend) (hroom : (p.room c.sp.id).isSome = true) : ¬ p.usedBy c.sp.lanes c.i.uses = true := by
    rw [h.free p hp hroom]
    exact Bool.false_ne_true
  have hwindow : c.inWindow = none := List.find?_eq_none.2 fun p hp hin => by
    obtain ⟨hroom, hused⟩ := (Bool.and_eq_true _ _ ▸ hin : _ ∧ _)
    have hroom : 0 < (p.room c.sp.id).getD 0 := of_decide_eq_true hroom
    rcases List.mem_append.1 hp with hlate | hpend
    · exact absurd hused (by rw [h.closed p hlate hroom]; exact Bool.false_ne_true)
    · refine hfree p hpend ?_ hused
      cases hx : p.room c.sp.id with
      | none => rw [hx] at hroom; exact absurd hroom (Nat.lt_irrefl 0)
      | some n => rfl
  have hwaits : c.waitsResult = false := Bool.or_eq_false_iff.2
    ⟨List.any_eq_false.2 fun p hp hin => by
      obtain ⟨hroom, hused⟩ := (Bool.and_eq_true _ _ ▸ hin : _ ∧ _)
      exact hfree p hp hroom hused,
    List.any_eq_false.2 fun p hp hin => by
      obtain ⟨hroom, htrap⟩ := (Bool.and_eq_true _ _ ▸ hin : _ ∧ _)
      exact absurd htrap (by rw [h.quiet p hp (by simpa using hroom)]; exact Bool.false_ne_true)⟩
  have hk : kWait c c.i.uses = false := by
    rcases h.queues with ⟨hpop, hpush⟩ | hcls
    · simp [kWait, hpop, hpush]
    · simp [kWait, hcls]
  unfold issue
  simp only [hc, hopen, hstrike, hparity, Bool.false_and, Bool.false_eq_true, if_false, checks, hnames, h.native, hwindow, hwaits, h1,
    h2, hk, h3, Bool.true_or, if_true, ite_self]
  rfl

/-! ## TILE -/

/-- The tiles of a team (R136). -/
def tilesOf (s : State) (team : Nat) : List Tile := ((s.team? team).map fun m => m.tiles.toArray.toList).getD []

/-- The next generation of a tile (R333). -/
def nextGen (s : State) (team handle : Nat) : Nat := (((tilesOf s team).getD handle ⟨false, 0, [], 0⟩).gen + 1) % 2 ^ 16

/-- The unit once its team's tile is bound and the operand caches have lost what they held of it (R120, R136). -/
def Cx.tiled (c : Cx) (handle : Nat) (x : Tile) : Cx :=
  { c with s := (c.s.onTeam c.g.info.team fun m => { m with tiles := m.tiles.setIfInBounds handle x }).onEng fun e =>
      { e with oc := e.oc.filter fun y => !(y.team == c.g.info.team && y.handle == handle) } }

theorem tilesOf_of_rest {s t : State} {team : Nat} (h : (t.team? team).map Team.rest = (s.team? team).map Team.rest) :
    tilesOf t team = tilesOf s team := by
  have htiles : (t.team? team).map Team.tiles = (s.team? team).map Team.tiles := by
    have := congrArg (Option.map fun r : Nat × Nat × Nat × Nat × List Nat × Scratch × Vector Barrier 16 × Vector Tile 32 ×
      List Child => r.2.2.2.2.2.2.2.1) h
    rwa [Option.map_map, Option.map_map] at this
  have hof (u : State) : tilesOf u team = (((u.team? team).map Team.tiles).map fun v => v.toArray.toList).getD [] := by
    rw [Option.map_map]
    rfl
  rw [hof, hof, htiles]

theorem tilesOf_tiled {c : Cx} (h : (c.s.team? c.g.info.team).isSome = true) (handle : Nat) (x : Tile) {j : Nat} (hj : j < 32) :
    (tilesOf (c.tiled handle x).s c.g.info.team)[j]? = if j = handle then some x else (tilesOf c.s c.g.info.team)[j]? := by
  obtain ⟨m, hm⟩ := Option.isSome_iff_exists.1 h
  have hset : (c.tiled handle x).s.team? c.g.info.team = some { m with tiles := m.tiles.setIfInBounds handle x } := by
    unfold Cx.tiled State.onTeam
    rw [hm]
    exact State.team?_setTeam ..
  unfold tilesOf
  rw [hset, hm]
  simp only [Option.map_some, Option.getD_some, Vector.toArray_setIfInBounds, Array.toList_setIfInBounds, List.getElem?_set,
    Array.length_toList, Vector.size_toArray, eq_comm (a := j)]
  by_cases hh : handle = j
  · rw [if_pos hh, if_pos hh, if_pos (hh ▸ hj)]
  · rw [if_neg hh, if_neg hh]

theorem tile_getD (s : State) (team handle : Nat) (x : Tile) :
    ((s.team? team).map fun m => m.tiles.toArray.toList.getD handle x).getD x = (tilesOf s team).getD handle x := by
  unfold tilesOf
  cases s.team? team <;> rfl

/-- The words of a unit whose tile is bound push its generation (R333). -/
def Cx.tilePushes (c : Cx) (us : Uses) (act : Mask) (handle : Nat) (cmd : W64) (ws : List W64) : State :=
  let gen := nextGen c.s c.g.info.team handle
  (((c.tiled handle ⟨true, cmd, ws, gen⟩).pops us).pushValue act (w64 gen)).done

/-- A tile is bound: its generation is pushed, and the caches have lost what they held of its handle (R120, R136, R333). -/
theorem tilePushes_spec {c : Cx} (h : (c.g.split? c.sp.id).isSome = true) (ht : (c.s.team? c.g.info.team).isSome = true) (act : Mask)
    (handle : Nat) (cmd : W64) (ws : List W64) :
    let u := c.tilePushes c.i.uses act handle cmd ws
    let gen := nextGen c.s c.g.info.team handle
    c.Pushes u act (w64 gen) ∧ u.ms = c.s.ms ∧
      (∀ j < 32, (tilesOf u c.g.info.team)[j]? = if j = handle then some ⟨true, cmd, ws, gen⟩ else (tilesOf c.s c.g.info.team)[j]?) ∧
      ∀ e, e ∈ u.eng.oc ↔ e ∈ c.s.eng.oc ∧ ¬ (e.team = c.g.info.team ∧ e.handle = handle) := by
  intro u gen
  obtain ⟨hg, hsp, hk, hi, ⟨hclock, hms, -, heng, -, -, -, hteam, -⟩, -⟩ := pops_spec (c.tiled handle ⟨true, cmd, ws, gen⟩)
  have hs : (((c.tiled handle ⟨true, cmd, ws, gen⟩).pops c.i.uses).g.split?
      ((c.tiled handle ⟨true, cmd, ws, gen⟩).pops c.i.uses).sp.id).isSome = true :=
    (congrArg₂ (fun (g : Group) (sp : Split) => (g.split? sp.id).isSome) hg hsp :).trans h
  obtain ⟨hpush, hms', heng', hteams, -⟩ := pushValue_done hs act (w64 gen)
  have hpush' : c.Pushes u act (w64 gen) :=
    Cx.Pushes.of_same (c := c) (congrArg Group.regs hg) (congrArg Group.sys hg) (by rw [hsp]; rfl) hk hi
      (hclock.trans (State.onTeam_clock ..)) hpush
  have htiles : tilesOf u c.g.info.team = tilesOf (c.tiled handle ⟨true, cmd, ws, gen⟩).s c.g.info.team := by
    refine (tilesOf_of_rest ?_).trans (tilesOf_of_rest hteam)
    exact congrArg (fun teams => (NMap.get? teams c.g.info.team).map Team.rest) hteams
  refine ⟨hpush', hms'.trans (hms.trans (State.onTeam_ms ..)), fun j hj => ?_, fun e => ?_⟩
  · rw [htiles]
    exact tilesOf_tiled ht handle _ hj
  · have hoc : u.eng.oc = c.s.eng.oc.filter fun y => !(y.team == c.g.info.team && y.handle == handle) := by
      rw [show u.eng = (c.tiled handle ⟨true, cmd, ws, gen⟩).s.eng from heng'.trans heng]
      exact congrArg (fun e : Engines => e.oc.filter fun y => !(y.team == c.g.info.team && y.handle == handle)) (State.onTeam_eng ..)
    rw [hoc, List.mem_filter]
    simp only [Bool.not_eq_true', ← Bool.not_eq_true, Bool.and_eq_true, beq_iff_eq]

section Tile
variable {t : Tail} {g : Guard} {l : La} {a : VReg} {b : Src} {s : State} {c : Cx} (hc : cx? (.tile t g l a b) s = some c) (h : c.Clear)
include hc h

theorem tile_illregion (hr : c.g.region.isSome = true) : exec (.tile t g l a b) s = .next (c.raise 0x0E 0) :=
  issue_illregion (ck := { Checks.none with illregion := fun c => c.g.inRegion }) hc h (fun _ hn => nomatch hn) rfl rfl hr _

theorem tile_passes (hr : c.g.region = none) (hn : (c.guard g).lowest? = none) :
    ∃ u h, exec (.tile t g l a b) s = .next u ∧ c.Passed h u ∧ u.ms = c.s.ms := by
  obtain ⟨-, -, -, hsplit, hi, -⟩ := cx?_eq hc
  obtain ⟨hpassed, hms, -⟩ := pops_done (c := c) (Option.isSome_iff_exists.2 ⟨_, hsplit⟩)
  have hregion : c.g.inRegion = false := by rw [Group.inRegion, hr]; rfl
  refine ⟨_, _, (issue_clear (ck := { Checks.none with illregion := fun c => c.g.inRegion }) hc h (fun _ hn => nomatch hn) rfl rfl
    hregion _).trans (congrArg _ ?_), hpassed, hms⟩
  dsimp only
  rw [hn, hi]

theorem exec_tile {c' : Cx} {n : Nat} {ws : List W64} (hr : c.g.region = none) (hn : (c.guard g).lowest? = some n)
    (hcmd : cmdLegal ((c.rd.reg a.val).lane n).toNat true = true) (hh : ((c.opA t .int b).lane n).toNat < 32)
    (hd : c.Descriptor n ((c.rd.reg a.val).lane n).toNat ((c.rd.reg (a.val + 1)).lane n).toNat c' ws)
    (hb : (Box.of ((c.rd.reg a.val).lane n).toNat ws (((c.rd.reg a.val).lane n).toNat.testBit 13)).passes ws) :
    ∃ m, exec (.tile t g l a b) s = .next ((c'.noted m).tilePushes (Instr.tile t g l a b).uses (c.guard g)
      ((c.opA t .int b).lane n).toNat ((c.rd.reg a.val).lane n) ws) := by
  have hregion : c.g.inRegion = false := by rw [Group.inRegion, hr]; rfl
  obtain ⟨hafter, hbody⟩ := readDesc_arrives hr hd
  obtain ⟨m, hm⟩ := hbody (Instr.tile t g l a b).uses (c.guard g) true
  refine ⟨m, (issue_clear (ck := { Checks.none with illregion := fun c => c.g.inRegion }) hc h (fun _ hn => nomatch hn) rfl rfl
    hregion _).trans (congrArg _ ?_)⟩
  dsimp only
  rw [hn]
  dsimp only
  rw [hcmd, Bool.not_true, if_neg Bool.false_ne_true, if_neg (Nat.not_le.2 hh), hm, checkDesc_passes hb, Cx.tilePushes, nextGen,
    ← tile_getD]
  rfl

theorem tile_binds {c' : Cx} {n : Nat} {ws : List W64} (hr : c.g.region = none) (hn : (c.guard g).lowest? = some n)
    (hcmd : cmdLegal ((c.rd.reg a.val).lane n).toNat true = true) (hh : ((c.opA t .int b).lane n).toNat < 32)
    (hd : c.Descriptor n ((c.rd.reg a.val).lane n).toNat ((c.rd.reg (a.val + 1)).lane n).toNat c' ws)
    (hb : (Box.of ((c.rd.reg a.val).lane n).toNat ws (((c.rd.reg a.val).lane n).toNat.testBit 13)).passes ws) :
    let handle := ((c.opA t .int b).lane n).toNat
    let gen := nextGen c'.s c.g.info.team handle
    ∃ u, exec (.tile t g l a b) s = .next u ∧ c'.Pushes u (c.guard g) (w64 gen) ∧ u.ms = c'.s.ms ∧
      (∀ j < 32, (tilesOf u c.g.info.team)[j]? =
        if j = handle then some ⟨true, (c.rd.reg a.val).lane n, ws, gen⟩ else (tilesOf c'.s c.g.info.team)[j]?) ∧
      ∀ e, e ∈ u.eng.oc ↔ e ∈ c'.s.eng.oc ∧ ¬ (e.team = c.g.info.team ∧ e.handle = handle) := by
  obtain ⟨m, hexec⟩ := exec_tile hc h hr hn hcmd hh hd hb
  obtain ⟨⟨hk, hsp, hi, ⟨horizon, hg⟩, hteam⟩, -⟩ := readDesc_arrives hr hd
  obtain ⟨-, -, -, hsplit, hword, -⟩ := cx?_eq hc
  intro handle gen
  have hinfo : c'.g.info = c.g.info := by rw [hg]
  have huses : (Instr.tile t g l a b).uses = c'.i.uses := by rw [hi, hword]
  rw [huses] at hexec
  have hs : (c'.g.split? c'.sp.id).isSome = true := by
    rw [hg, hsp]
    exact Option.isSome_iff_exists.2 ⟨_, hsplit⟩
  obtain ⟨hpush, hrest⟩ := tilePushes_spec (c := c'.noted m) hs (by
    show (c'.s.team? c'.g.info.team).isSome = true
    rw [hinfo, hteam, h.team]) (c.guard g) handle ((c.rd.reg a.val).lane n) ws
  rw [show (c'.noted m).g.info.team = c.g.info.team from congrArg GroupInfo.team hinfo] at hpush hrest
  exact ⟨_, hexec, hpush.of_same rfl rfl rfl rfl rfl rfl, hrest⟩

end Tile

/-! ## COLL -/

/-- A collective as COLL enters it (R341, R342). -/
def Cx.collRun (c : Cx) (bar : W64) (x : CollDesc) : CollRun :=
  { id := c.s.eng.nextId, group := c.k, grids := c.g.grids, team := c.g.info.team, ctx := c.g.info.ctx, core := coreOf c.k
    batch := c.g.batches.cur.num, bar := bar, desc := x, seq := (NMap.get? c.s.eng.collSeq x.set).getD 0, engine := none
    start := c.s.clock.dtime, m := (setInfo c.s x.set).2.1, self := (setInfo c.s x.set).2.2, got := [], lost := [], parked := none
    gwct := 0, mine := [], pois := false, wrote := 0, req := none, status := 0, torn := false }

/-- The unit once a collective stands behind those of its core's queues `q` (R342). -/
def Cx.queued (c : Cx) (q : CoreQueues) (r : CollRun) : Cx :=
  { c with
    s := (c.fresh.2.s.setQueues (coreOf c.k) { q with coll := q.coll ++ [.op r] }).onEng fun e => { e with collSeq := NMap.set e.collSeq r.desc.set (r.seq + 1) }
    g := { c.g with batches := c.g.batches.join } }

/-- What a member set's descriptor says depends on memory and on where the table is (R480). -/
theorem setInfo_of_same {s t : State} (hms : t.ms = s.ms) (hpkg : t.pkg = s.pkg) (n : Nat) : setInfo t n = setInfo s n := by
  unfold setInfo setAddr physNat physRead
  rw [hms, hpkg]

/-- Popping operands changes the state alone. -/
theorem pops_eq_after (c : Cx) (us : Uses) : c.pops us = c.after (c.pops us).s := by
  unfold Cx.pops
  split <;> rfl

section Coll
variable {t : Tail} {g : Guard} {a b : Src} {s : State} {c : Cx} (hc : cx? (.coll t g a b) s = some c) (h : c.Clear)
include hc h

theorem coll_illregion (hr : c.g.region.isSome = true) : exec (.coll t g a b) s = .next (c.raise 0x0E 0) :=
  issue_illregion (ck := { Checks.none with illregion := fun c => c.g.inRegion }) hc h (fun _ hn => nomatch hn) rfl rfl hr _

theorem coll_passes (hr : c.g.region = none) (hn : (c.guard g).lowest? = none) :
    ∃ u h, exec (.coll t g a b) s = .next u ∧ c.Passed h u ∧ u.ms = c.s.ms := by
  obtain ⟨-, -, -, hsplit, hi, -⟩ := cx?_eq hc
  obtain ⟨hpassed, hms, -⟩ := pops_done (c := c) (Option.isSome_iff_exists.2 ⟨_, hsplit⟩)
  have hregion : c.g.inRegion = false := by rw [Group.inRegion, hr]; rfl
  refine ⟨_, _, (issue_clear (ck := { Checks.none with illregion := fun c => c.g.inRegion }) hc h (fun _ hn => nomatch hn) rfl rfl
    hregion _).trans (congrArg _ ?_), hpassed, hms⟩
  dsimp only
  rw [hn, hi]

theorem exec_coll {c' : Cx} {n : Nat} {ws : List W64} (hr : c.g.region = none) (hn : (c.guard g).lowest? = some n)
    (hbits : bitsOf ((c.opB t .int a b).lane n).toNat 63 5 = 0)
    (hbar : ((c.opB t .int a b).lane n).getLsbD 4 = true →
      (barrierOf c.s c.g.info.team (((c.opB t .int a b).lane n).toNat % 16)).init = true)
    (hd : c.Reads n ((c.opA t .int a).lane n).toNat 64 64 c' ws) (hl : collIllegal c'.s ws = false)
    (hm : (CollDesc.of ws).misaligned = none) (hw : (CollDesc.of ws).wild = none) :
    ∃ m, exec (.coll t g a b) s = .next (if 8 ≤ (queueOps (c'.s.queues (coreOf c'.k)).coll).length then (c'.noted m).held .full
      else
        let d := (c'.noted m).after ((c'.noted m).pops (Instr.coll t g a b).uses).s
        (d.queued (c'.s.queues (coreOf c'.k)) (d.collRun ((c.opB t .int a b).lane n) (CollDesc.of ws))).done) := by
  have hregion : c.g.inRegion = false := by rw [Group.inRegion, hr]; rfl
  obtain ⟨hafter, hbody⟩ := readGlobal_reads hr hd
  obtain ⟨m, hread⟩ := hbody (Instr.coll t g a b).uses (c.guard g) false
  have hnamed : (((c.opB t .int a b).lane n).getLsbD 4 &&
      !(barrierOf c.s c.g.info.team (((c.opB t .int a b).lane n).toNat % 16)).init) = false := by
    cases hset : ((c.opB t .int a b).lane n).getLsbD 4
    · rfl
    · rw [hbar hset]; rfl
  refine ⟨m, (issue_clear (ck := { Checks.none with illregion := fun c => c.g.inRegion }) hc h (fun _ hn => nomatch hn) rfl rfl
    hregion _).trans (congrArg _ ?_)⟩
  dsimp only
  rw [hn]
  dsimp only
  rw [hnamed, if_neg Bool.false_ne_true, hbits, if_neg (by decide), hread]
  rw [show collIllegal (c'.noted m).s ws = false from hl, if_neg Bool.false_ne_true, hm, hw, pops_eq_after]
  rfl

theorem coll_enters {c' : Cx} {n : Nat} {ws : List W64} (hr : c.g.region = none) (hn : (c.guard g).lowest? = some n)
    (hbits : bitsOf ((c.opB t .int a b).lane n).toNat 63 5 = 0)
    (hbar : ((c.opB t .int a b).lane n).getLsbD 4 = true →
      (barrierOf c.s c.g.info.team (((c.opB t .int a b).lane n).toNat % 16)).init = true)
    (hd : c.Reads n ((c.opA t .int a).lane n).toNat 64 64 c' ws) (hl : collIllegal c'.s ws = false)
    (hm : (CollDesc.of ws).misaligned = none) (hw : (CollDesc.of ws).wild = none) :
    (8 ≤ (queueOps (c'.s.queues (coreOf c.k)).coll).length → ∃ u, exec (.coll t g a b) s = .next u ∧ c'.Holds .full u) ∧
    ((queueOps (c'.s.queues (coreOf c.k)).coll).length < 8 →
      ∃ u h r, exec (.coll t g a b) s = .next u ∧ c'.Passed h u ∧ h.batches = c.g.batches.join ∧ u.ms = c'.s.ms ∧
        (u.queues (coreOf c.k)).coll = (c'.s.queues (coreOf c.k)).coll ++ [.op r] ∧ r = c'.collRun ((c.opB t .int a b).lane n) (CollDesc.of ws) ∧
        NMap.get? u.eng.collSeq (CollDesc.of ws).set = some (r.seq + 1)) := by
  obtain ⟨m, hexec⟩ := exec_coll hc h hr hn hbits hbar hd hl hm hw
  obtain ⟨⟨hk, hsp, hi, ⟨horizon, hg⟩, -⟩, -⟩ := readGlobal_reads hr hd
  obtain ⟨-, -, -, hsplit, hword, -⟩ := cx?_eq hc
  have huses : (Instr.coll t g a b).uses = c'.i.uses := by rw [hi, hword]
  rw [huses, hk] at hexec
  have hs : (c'.g.split? c'.sp.id).isSome = true := by
    rw [hg, hsp]
    exact Option.isSome_iff_exists.2 ⟨_, hsplit⟩
  have hbatches : c'.g.batches = c.g.batches := by rw [hg]
  refine ⟨fun hfull => ?_, fun hroom => ?_⟩
  · rw [if_pos hfull] at hexec
    exact ⟨_, hexec, (held_spec (c'.noted m) .full hs).1⟩
  · rw [if_neg (Nat.not_le.2 hroom)] at hexec
    dsimp only at hexec
    obtain ⟨-, -, -, -, ⟨dclock, dms, -, deng, dpkg, -⟩, -⟩ := pops_spec (c'.noted m)
    rw [show (c'.noted m).i = c'.i from rfl] at dclock dms deng dpkg
    generalize ((c'.noted m).pops c'.i.uses).s = s₂ at hexec dclock dms deng dpkg
    have hrun (bar : W64) (x : CollDesc) : ((c'.noted m).after s₂).collRun bar x = c'.collRun bar x := by
      unfold Cx.collRun
      rw [show ((c'.noted m).after s₂).s = s₂ from rfl, setInfo_of_same dms dpkg, dclock, deng]
      rfl
    rw [hrun] at hexec
    generalize hr' : c'.collRun ((c.opB t .int a b).lane n) (CollDesc.of ws) = r at hexec
    refine ⟨_, _, r, hexec, passed_done (c := ((c'.noted m).after s₂).queued (c'.s.queues (coreOf c.k)) r) hs,
      congrArg Batches.join hbatches, dms, ?_, rfl, ?_⟩
    · have hqueues := congrArg CoreQueues.coll (queues_setQueues ((c'.noted m).after s₂).fresh.2.s (coreOf c'.k)
        { c'.s.queues (coreOf c.k) with coll := (c'.s.queues (coreOf c.k)).coll ++ [.op r] })
      refine Eq.trans ?_ hqueues
      rw [← hk]
      rfl
    · subst hr'
      exact NMap.get?_set_self ..

end Coll

/-- Settles O41: outside regions each word reads its descriptor and then changes its team's tiles or its core's queue alone. -/
theorem tileAndCollComplete : Obligations.TileAndCollComplete := by
  refine ⟨fun t g l a b s c hc h => ⟨tile_illregion hc h, tile_passes hc h, fun c' n ws hr hn hcmd hh hd hb => ?_⟩,
    fun t g a b s c hc h => ⟨coll_illregion hc h, coll_passes hc h, fun c' n ws hr hn hbits hbar hd hl hm hw => ?_⟩⟩
  · exact tile_binds hc h hr hn hcmd hh hd hb
  · obtain ⟨hfull, hroom⟩ := coll_enters hc h hr hn hbits hbar hd hl hm hw
    refine ⟨hfull, fun hlen => ?_⟩
    obtain ⟨u, h', r, hexec, hpassed, hbatches, hms, hqueue, hrun, hseq⟩ := hroom hlen
    obtain ⟨⟨hk, -, -, ⟨horizon, hg⟩, -⟩, -⟩ := readGlobal_reads hr hd
    have hteam : c'.g.info.team = c.g.info.team := by rw [hg]
    have hnum : c'.g.batches.cur.num = c.g.batches.cur.num := by rw [hg]
    subst hrun
    exact ⟨u, h', _, hexec, hpassed, hbatches, hms, hqueue, rfl, rfl, hk, hteam, hnum, rfl, rfl, rfl, hseq⟩

end Sys2Proof.Machine
end

section
/-! What an access of the host finds where no packet and no error stands in its way (R21-R38, R122): a read leaves main memory as it was,
and a write stores its bytes in its own sector. -/

namespace Sys2Proof.Machine

/-! ## Channels -/

theorem chan_setChan_self (s : State) (ch : Nat) (c : Channel) : (s.setChan ch c).chan ch = c := by
  unfold State.chan State.setChan
  rw [State.onMs_ms, NMap.get?_set_self]
  rfl

theorem chan_setChan_ne (s : State) {ch j : Nat} (c : Channel) (h : j ≠ ch) : (s.setChan ch c).chan j = s.chan j := by
  unfold State.chan State.setChan
  rw [State.onMs_ms, NMap.get?_set_ne _ _ h]

theorem crustTouch_packets (c : Channel) (set w : Nat) : (crustTouch c set w).packets = c.packets := by
  unfold crustTouch
  dsimp only
  split <;> rfl

theorem crustReady_packets (c : Channel) (q : Nat) (wait : Bool) : (crustReady c q wait).2.packets = c.packets := by
  unfold crustReady
  split
  · rfl
  · split <;> rfl

theorem crustFill_packets (c : Channel) (q : Nat) : (crustFill c q).packets = c.packets := by
  unfold crustFill
  dsimp only
  split
  · exact crustTouch_packets ..
  · split
    · rfl
    · exact crustTouch_packets ..

theorem crustRead_packets (c : Channel) (q : Nat) (noalloc wait : Bool) : (crustRead c q noalloc wait).2.packets = c.packets := by
  unfold crustRead
  split
  · exact crustTouch_packets ..
  · split
    · rfl
    · dsimp only
      split
      · exact (crustFill_packets ..).trans (crustReady_packets ..)
      · exact crustReady_packets ..

/-! ## A channel without packets -/

/-- What a quiet read keeps: main memory, its errors, the miss tables and the packets; errors of slices do not appear. -/
structure State.storeKept (s t : State) : Prop where
  mem : t.ms.mem = s.ms.mem
  marks : t.ms.marks = s.ms.marks
  missq : t.ms.missq = s.ms.missq
  l2marks : s.ms.l2marks = [] → t.ms.l2marks = []
  packets : ∀ ch, (t.chan ch).packets = (s.chan ch).packets

theorem State.storeKept_refl (s : State) : s.storeKept s := ⟨rfl, rfl, rfl, id, fun _ => rfl⟩

theorem State.storeKept.andThen {s t u : State} (h : s.storeKept t) (h' : t.storeKept u) : s.storeKept u :=
  ⟨h'.mem.trans h.mem, h'.marks.trans h.marks, h'.missq.trans h.missq, fun hm => h'.l2marks (h.l2marks hm),
    fun ch => (h'.packets ch).trans (h.packets ch)⟩

theorem storeKept_setChan {s : State} {ch : Nat} {c : Channel} (h : c.packets = (s.chan ch).packets) : s.storeKept (s.setChan ch c) where
  mem := rfl
  marks := rfl
  missq := rfl
  l2marks := id
  packets j := by
    by_cases hj : j = ch
    · rw [hj, chan_setChan_self, h]
    · rw [chan_setChan_ne s c hj]

theorem storeKept_awaitMove (s : State) (line : Nat) : s.storeKept (awaitMove s line) := by
  unfold awaitMove
  split
  · exact storeKept_setChan rfl
  · exact s.storeKept_refl

theorem storeKept_setL2Sector (s : State) (die sec : Nat) (x : L2Sector) (now : Nat) :
    s.storeKept (s.onMs fun ms => setL2Sector ms die sec x now) :=
  ⟨rfl, rfl, rfl, fun h => by
    show NMap.erase s.ms.l2marks _ = []
    rw [h]
    rfl, fun _ => rfl⟩

section Quiet
variable {s : State} {sec : Nat} (h : (s.chan (channelOf (sec / 4))).packets = [])
include h

theorem endFills_of_no_packets : endFillsWith checkGranule s sec = s := by
  unfold endFillsWith
  dsimp only
  rw [h]
  rfl

theorem settle_of_no_packets (n : Nat) : settleWith checkGranule s sec n = s := by
  unfold settleWith
  dsimp only
  rw [h]
  rfl

omit h in
theorem sendWaiting_of_no_misses (hq : s.ms.missq = []) (slice ch : Nat) : sendWaiting s slice ch = s := by
  unfold sendWaiting missesOf
  rw [hq]
  rfl

/-- A free tag is taken at once. -/
theorem takeTag_of_no_packets (hq : s.ms.missq = []) (slice : Nat) (writeback : Bool) :
    takeTag s slice (channelOf (sec / 4)) writeback tagFuel = s := by
  have hfree : (freeTag s (channelOf (sec / 4)) slice).isSome = true := by
    unfold freeTag tagsTaken
    rw [h]
    rfl
  show takeTag s slice (channelOf (sec / 4)) writeback (271 + 1) = s
  rw [takeTag, sendWaiting_of_no_misses hq, ite_self]
  exact if_pos hfree

end Quiet

theorem checkGranule_of_unmarked {s : State} {sec : Nat} (h : NMap.get? s.ms.marks sec = none) (ty ctx : Nat) :
    checkGranule s sec ty ctx = (false, s) := by
  unfold checkGranule
  rw [h]

/-! ## Reads -/

/-- A read of a sector finds neither packets nor errors (R28, R34). -/
def State.quietAt (s : State) (sec : Nat) : Prop :=
  NMap.get? s.ms.marks sec = none ∧ (s.chan (channelOf (sec / 4))).packets = []

theorem State.storeKept.quietAt {s t : State} {sec : Nat} (h : s.storeKept t) (hq : s.quietAt sec) : t.quietAt sec :=
  ⟨h.marks ▸ hq.1, (h.packets _).trans hq.2⟩

theorem storeKept_baseRead {s : State} {sec : Nat} (hm : s.ms.missq = []) (h : s.quietAt sec) (die ctx : Nat) (noalloc : Bool) :
    s.storeKept (baseRead s die sec ctx noalloc).2.2 := by
  obtain ⟨hmark, hpackets⟩ := h
  have hmove := storeKept_awaitMove s (sec / 4)
  unfold baseRead
  dsimp only
  rw [takeTag_of_no_packets hpackets hm]
  generalize awaitMove s (sec / 4) = t at hmove ⊢
  have hmark' : NMap.get? t.ms.marks sec = none := by rw [hmove.marks]; exact hmark
  rw [settle_of_no_packets ((hmove.packets _).trans hpackets), checkGranule_of_unmarked hmark']
  exact hmove.andThen (storeKept_setChan (crustRead_packets ..))

/-- A home finds its valid copy, and takes nothing from memory (R78). -/
theorem storeKept_homeFetch {s : State} {sec home : Nat} (hl : s.ms.l2marks = []) (h : s.quietAt sec)
    (hhome : homeHolding s.ms sec = some home) (ctx : Nat) (noalloc : Bool) : s.storeKept (homeFetch s home sec ctx noalloc).2 := by
  have hvalid : ((l2Sector s.ms home sec).st == .c || (l2Sector s.ms home sec).st == .d) = true := by
    have hfound := List.find?_some hhome
    unfold l2Sector l2Key
    cases hline : NMap.get? s.ms.l2 (home * 2 ^ 33 + sec / 4) with
    | none =>
      rw [hline] at hfound
      exact nomatch hfound
    | some l =>
      rw [hline] at hfound
      dsimp only at hfound
      cases hsec : l.secs[sec % 4]? with
      | none =>
        rw [hsec] at hfound
        exact nomatch hfound
      | some x =>
        rw [hsec] at hfound
        rw [Option.bind_some, hsec]
        exact hfound
  unfold homeFetch
  dsimp only
  rw [endFills_of_no_packets h.2, l2Check_of_unmarked hl, if_pos hvalid]
  exact storeKept_setL2Sector ..

/-- One sector of a read of the host or a peer (R35, R122). -/
def outerFetch (s : State) (sec : Nat) : Sector × Bool × State :=
  let s := endFillsWith checkGranule s sec
  match homeHolding s.ms sec with
  | some d =>
    let (x, s) := homeFetch s d sec 0 false
    (x.data, x.poison, s)
  | none => baseRead s 0 sec 0 false

/-- A read goes through its sectors in their order. -/
theorem outerRead_state (s : State) (pa n : Nat) :
    (outerRead s pa n).2.2 = (touched pa n).foldl (fun s sec => (outerFetch s sec).2.2) s := by
  have key (l : List Nat) (r : List (Nat × Sector) × Bool × State) :
      (l.foldl (fun acc sec => (acc.1 ++ [(sec, (outerFetch acc.2.2 sec).1)], acc.2.1 || (outerFetch acc.2.2 sec).2.1,
        (outerFetch acc.2.2 sec).2.2)) r).2.2 = l.foldl (fun s sec => (outerFetch s sec).2.2) r.2.2 := by
    induction l generalizing r with
    | nil => rfl
    | cons sec l ih => exact ih _
  exact key (touched pa n) ([], false, s)

theorem storeKept_outerFetch {s : State} {sec : Nat} (hl : s.ms.l2marks = []) (hm : s.ms.missq = []) (h : s.quietAt sec) :
    s.storeKept (outerFetch s sec).2.2 := by
  unfold outerFetch
  dsimp only
  rw [endFills_of_no_packets h.2]
  split
  · next d hd => exact storeKept_homeFetch hl h hd 0 false
  · exact storeKept_baseRead hm h 0 0 false

theorem storeKept_fetches (l : List Nat) {s : State} (hl : s.ms.l2marks = []) (hm : s.ms.missq = []) (h : ∀ sec ∈ l, s.quietAt sec) :
    s.storeKept (l.foldl (fun s sec => (outerFetch s sec).2.2) s) := by
  induction l generalizing s with
  | nil => exact s.storeKept_refl
  | cons sec l ih =>
    have hone := storeKept_outerFetch hl hm (h sec List.mem_cons_self)
    exact hone.andThen (ih (hone.l2marks hl) (hone.missq.trans hm) fun x hx => hone.quietAt (h x (List.mem_cons_of_mem _ hx)))

theorem mem_touched {pa n sec : Nat} (h : sec ∈ touched pa n) (hn : 0 < n) : ∃ b, pa ≤ b ∧ b < pa + n ∧ b / 32 = sec := by
  obtain ⟨i, hi, rfl⟩ := List.mem_map.1 h
  have hi := List.mem_range.1 hi
  exact ⟨max pa ((pa / 32 + i) * 32), by omega, by omega, by omega⟩

/-- What a host's read of BAR2 leaves (R122). -/
theorem hostBar2Read_spec {s : State} {off n : Nat} (hs : bar2Serves s off n = true) (hn : 0 < n) :
    ∃ t, exec (.hostBar2Read off n) s = .next t ∧ t.work = s.work ∧ (s.ms.l2marks = [] → s.ms.missq = [] →
      (∀ b, off ≤ b → b < off + n → NMap.get? s.ms.marks (b / 32) = none ∧ (s.chan (channelOf (b / 128))).packets = []) →
      t.ms.mem = s.ms.mem) := by
  obtain ⟨-, -, -, hwork, -⟩ := memoryOnly_outerRead s off n
  refine ⟨_, congrArg Host.Outcome.next (if_pos hs), hwork, fun hl hm hquiet => ?_⟩
  rw [outerRead_state]
  refine (storeKept_fetches (touched off n) hl hm fun sec hsec => ?_).mem
  obtain ⟨b, hlo, hhi, rfl⟩ := mem_touched hsec hn
  obtain ⟨hmark, hpackets⟩ := hquiet b hlo hhi
  rw [show b / 128 = b / 32 / 4 by omega] at hpackets
  exact ⟨hmark, hpackets⟩

/-! ## Writes -/

/-- A write that no packet and no error awaits stores its bytes, and leaves the lines' times and the host horizon (R29, R30). -/
theorem performWith_quiet {s : State} {sec : Nat} (h : s.quietAt sec) (n ctx : Nat) (m : Word32) (x : Sector) :
    let t := (performWith checkGranule s (channelOf (sec / 4)) n sec ctx m x).2
    t.ms.mem = (setMemSector s.ms sec m x).mem ∧ t.ms.times = s.ms.times ∧ t.ms.hostHorizon = s.ms.hostHorizon := by
  obtain ⟨hmark, hpackets⟩ := h
  intro t
  subst t
  unfold performWith
  dsimp only
  rw [hpackets, List.filter_nil, List.foldl_nil]
  generalize (if ((s.chan (channelOf (sec / 4))).wbuf.contains sec || decide ((s.chan (channelOf (sec / 4))).wbuf.length < 64)) = true
    then s.chan (channelOf (sec / 4)) else drainBuffer (s.chan (channelOf (sec / 4))) true) = c
  split
  · exact ⟨rfl, rfl, rfl⟩
  · rw [checkGranule_of_unmarked (s := s.setChan (channelOf (sec / 4)) { c with wbuf := insNat c.wbuf sec }) hmark]
    exact ⟨rfl, rfl, rfl⟩

/-- What a quiet write of one sector at its base die leaves. -/
theorem baseWrite_quiet {s : State} {sec : Nat} (hm : s.ms.missq = []) (h : s.quietAt sec) (die ctx : Nat) (m : Word32) (x : Sector)
    (writeback : Bool) : let t := (baseWrite s die sec ctx m x writeback).2
    t.ms.mem = (setMemSector s.ms sec m x).mem ∧ t.ms.times = s.ms.times ∧ t.ms.hostHorizon = s.ms.hostHorizon := by
  have hmove := storeKept_awaitMove s (sec / 4)
  have hrest : (awaitMove s (sec / 4)).ms.times = s.ms.times ∧ (awaitMove s (sec / 4)).ms.hostHorizon = s.ms.hostHorizon := by
    unfold awaitMove
    split <;> exact ⟨rfl, rfl⟩
  intro t
  subst t
  unfold baseWrite
  dsimp only
  rw [takeTag_of_no_packets h.2 hm]
  generalize awaitMove s (sec / 4) = u at hmove hrest ⊢
  obtain ⟨htimes, hhorizon⟩ := hrest
  rw [settle_of_no_packets (hmove.quietAt h).2]
  obtain ⟨hmem', htimes', hhorizon'⟩ := performWith_quiet (hmove.quietAt h) (u.chan (channelOf (sec / 4))).next ctx m x
  refine ⟨hmem'.trans ?_, htimes'.trans htimes, hhorizon'.trans hhorizon⟩
  unfold setMemSector
  dsimp only
  rw [hmove.mem]

theorem touched_of_one_sector {pa n : Nat} (hn : 0 < n) (h : pa % 32 + n ≤ 32) : touched pa n = [pa / 32] := by
  unfold touched
  rw [show (pa + n + 31) / 32 - pa / 32 = 1 by omega]
  rfl

/-- The number whose bits below `n` are those that satisfy `f`. -/
theorem testBit_sumBits (f : Nat → Bool) (n : Nat) :
    (List.range n).foldl (fun acc l => if f l then acc + 2 ^ l else acc) 0 < 2 ^ n ∧
      ∀ l, ((List.range n).foldl (fun acc l => if f l then acc + 2 ^ l else acc) 0).testBit l = (decide (l < n) && f l) := by
  induction n with
  | zero => exact ⟨Nat.one_pos, fun l => by simp⟩
  | succ n ih =>
    rw [List.range_succ, List.foldl_append]
    generalize (List.range n).foldl (fun acc l => if f l then acc + 2 ^ l else acc) 0 = a at ih ⊢
    obtain ⟨hlt, hbits⟩ := ih
    have hpow : 2 ^ (n + 1) = 2 ^ n + 2 ^ n := by omega
    have hout : (if f n then a + 2 ^ n else a) < 2 ^ (n + 1) := by split <;> omega
    refine ⟨hout, fun l => ?_⟩
    show (if f n then a + 2 ^ n else a).testBit l = _
    obtain hl | rfl | hl := Nat.lt_trichotomy l n
    · have hsame : (if f n then a + 2 ^ n else a).testBit l = a.testBit l := by
        split
        · rw [Nat.add_comm, Nat.testBit_two_pow_add_gt hl]
        · rfl
      rw [hsame, hbits, decide_eq_true hl, decide_eq_true (Nat.lt_succ_of_lt hl)]
    · have hclear : a.testBit l = false := Nat.testBit_lt_two_pow hlt
      rw [decide_eq_true (Nat.lt_succ_self l), Bool.true_and]
      split
      · next hf => rw [Nat.add_comm, Nat.testBit_two_pow_add_eq, hclear, hf]; rfl
      · next hf => rw [hclear, Bool.eq_false_of_not_eq_true hf]
    · rw [Nat.testBit_lt_two_pow (Nat.lt_of_lt_of_le hout (Nat.pow_le_pow_right Nat.two_pos hl)), decide_eq_false (by omega)]
      rfl

theorem getLsbD_ofFn (f : Nat → Bool) {b : Nat} (h : b < 32) : (Mask.ofFn f).getLsbD b = f b := by
  unfold Mask.ofFn
  rw [BitVec.getLsbD_ofNat, (testBit_sumBits f 32).2, decide_eq_true h, Bool.true_and, Bool.true_and]

/-- The byte of a run that falls on byte `i` of a sector. -/
def byteOfRun (pa : Nat) (bs : List Byte) (sec i : Nat) : Option Byte := if sec * 32 + i < pa then none else bs[sec * 32 + i - pa]?

theorem byteOfRun_eq {pa : Nat} {bs : List Byte} {i : Nat} :
    byteOfRun pa bs (pa / 32) i = if pa % 32 ≤ i ∧ i < pa % 32 + bs.length then some (bs.getD (i - pa % 32) 0) else none := by
  have hsub : pa / 32 * 32 + i - pa = i - pa % 32 := by omega
  unfold byteOfRun
  by_cases hlo : pa % 32 ≤ i
  · rw [if_neg (by omega), hsub]
    by_cases hhi : i < pa % 32 + bs.length
    · rw [if_pos ⟨hlo, hhi⟩, List.getElem?_eq_getElem (by omega), List.getD_eq_getElem?_getD, List.getElem?_eq_getElem (by omega)]
      rfl
    · rw [if_neg (fun hc => hhi hc.2), List.getElem?_eq_none (by omega)]
  · rw [if_pos (by omega), if_neg fun hc => hlo hc.1]

/-- A sector after bytes are stored in it. -/
theorem byte_memSector_set {ms : MemSide} (h : Memory.wf ms.mem = true) (sec : Nat) (m : Word32) (x : Sector) (n : Nat) {b : Nat}
    (hb : b < 32) : Sector.byte (memSector (setMemSector ms sec m x) n) b =
      if n = sec ∧ m.getLsbD b then Sector.byte x b else Sector.byte (memSector ms n) b := by
  rw [byte_memSector _ _ hb, byte_memSector _ _ hb, setMemSector_get h, show (n * 32 + b) / 32 = n by omega,
    show (n * 32 + b) % 32 = b by omega]

/-- What a host's write of BAR2 leaves where no home holds its sector (R122, R470). -/
theorem hostBar2Write_spec {s : State} {off : Nat} {bs : ByteList} (hs : bar2Serves s off bs.length = true) (hn : 0 < bs.length)
    (hone : off % 32 + bs.length ≤ 32) (hhome : homeHolding s.ms (off / 32) = none) (hmark : NMap.get? s.ms.marks (off / 32) = none)
    (hm : s.ms.missq = []) (hwf : Memory.wf s.ms.mem = true) (hpackets : (s.chan (channelOf (off / 128))).packets = []) :
    ∃ t, exec (.hostBar2Write off bs) s = .next t ∧ t.work = s.work ∧
      t.ms.hostHorizon = max s.ms.hostHorizon (max s.clock.dtime (lineTimes s.ms (off / 128)).leaseEnd + 2) ∧
      ∀ n b, b < 32 → Sector.byte (memSector t.ms n) b =
        if n = off / 32 ∧ off % 32 ≤ b ∧ b < off % 32 + bs.length then bs.getD (b - off % 32) 0
        else Sector.byte (memSector s.ms n) b := by
  have hline : off / 128 = off / 32 / 4 := by omega
  have hquiet : s.quietAt (off / 32) := ⟨hmark, hline ▸ hpackets⟩
  generalize hmask : (Mask.ofFn fun i => (byteOfRun off bs (off / 32) i).isSome : Word32) = m
  generalize hdata : (Sector.ofBytes fun i => (byteOfRun off bs (off / 32) i).getD 0) = x
  have hwrite : outerWrite s off bs false =
      (max 0 (performStamp (baseWrite s 0 (off / 32) 0 m x false).2 (off / 32 / 4)).1,
        (performStamp (baseWrite s 0 (off / 32) 0 m x false).2 (off / 32 / 4)).2) := by
    unfold outerWrite
    rw [touched_of_one_sector hn hone, List.foldl_cons, List.foldl_nil, endFills_of_no_packets hquiet.2, ← hmask, ← hdata]
    dsimp only
    rw [hhome]
    rfl
  obtain ⟨-, hclock, -, hwork, -⟩ := memoryOnly_baseWrite s 0 (off / 32) 0 m x false
  obtain ⟨hmem, htimes, hhorizon⟩ := baseWrite_quiet hm hquiet 0 0 m x false
  refine ⟨_, congrArg Host.Outcome.next ((if_pos hs).trans (congrArg (fun r : Nat × State =>
    r.2.onMs fun ms => { ms with hostHorizon := max ms.hostHorizon r.1 }) hwrite)), ?_, ?_, fun n b hb => ?_⟩
  · exact hwork
  · generalize (baseWrite s 0 (off / 32) 0 m x false).2 = t at hclock hmem htimes hhorizon
    show max t.ms.hostHorizon (max 0 (max t.clock.dtime (lineTimes t.ms (off / 32 / 4)).leaseEnd + 2)) = _
    unfold lineTimes
    rw [hhorizon, hclock, htimes, hline, Nat.zero_max]
  · have hsector (ms ms' : MemSide) (h : ms.mem = ms'.mem) : memSector ms n = memSector ms' n := by
      unfold memSector
      rw [h]
    refine (congrArg (Sector.byte · b) (hsector _ (setMemSector s.ms (off / 32) m x) hmem)).trans ?_
    rw [byte_memSector_set hwf _ _ _ _ hb]
    have hbit : m.getLsbD b = decide (off % 32 ≤ b ∧ b < off % 32 + bs.length) := by
      rw [← hmask, getLsbD_ofFn (fun i => (byteOfRun off bs (off / 32) i).isSome) hb, byteOfRun_eq]
      split <;> simp [*]
    have hbyte : off % 32 ≤ b ∧ b < off % 32 + bs.length → Sector.byte x b = bs.getD (b - off % 32) 0 := fun hin => by
      rw [← hdata, byte_ofBytes _ hb, byteOfRun_eq, if_pos hin]
      rfl
    simp only [hbit, decide_eq_true_eq]
    split
    · next hin => exact hbyte hin.2
    · rfl

end Sys2Proof.Machine
end

section
/-! What the device's own accesses and records leave of the links and the trace units (R447, R471-R478): requests to other devices, trace
units and trace queues stay as they were. -/

namespace Sys2Proof.Machine

/-- `t` has the outstanding requests, the trace units and the trace queues of `s`. -/
structure State.linksKept (s t : State) : Prop where
  outreqs : t.pkg.outreqs = s.pkg.outreqs
  trace : t.pkg.trace = s.pkg.trace
  traceq : t.pkg.traceq = s.pkg.traceq

theorem State.linksKept_refl (s : State) : s.linksKept s := ⟨rfl, rfl, rfl⟩

theorem State.linksKept.andThen {s t u : State} (h : s.linksKept t) (h' : t.linksKept u) : s.linksKept u :=
  ⟨h'.outreqs.trans h.outreqs, h'.trace.trans h.trace, h'.traceq.trans h.traceq⟩

theorem State.unitsKept.linksKept {s t : State} (h : s.unitsKept t) : s.linksKept t :=
  ⟨by rw [← h.pkg], by rw [← h.pkg], by rw [← h.pkg]⟩

theorem linksKept_of_pkg {s t : State} (h : t.pkg = s.pkg) : s.linksKept t := ⟨by rw [h], by rw [h], by rw [h]⟩

theorem linksKept_foldl {α : Type} (l : List α) {f : State → α → State} (h : ∀ (s : State) a, s.linksKept (f s a)) (s : State) :
    s.linksKept (l.foldl f s) := by
  induction l generalizing s with
  | nil => exact s.linksKept_refl
  | cons a l ih => exact (h s a).andThen (ih _)

theorem linksKept_onMs (s : State) (f : MemSide → MemSide) : s.linksKept (s.onMs f) := ⟨rfl, rfl, rfl⟩

theorem linksKept_addScore (s : State) (kind index weight : Nat) : s.linksKept (addScore s kind index weight) := by
  have hpost (t : State) (n : Nat) : t.linksKept (postCrq t 0x04 kind index 0 0 0 n 0) := (unitsKept_postCrq ..).linksKept
  have hscores (m : NMap Suspicion) : s.linksKept (s.onPkg fun p => { p with scores := m }) := ⟨rfl, rfl, rfl⟩
  have hflash (t : State) (n : Nat) :
      t.linksKept (t.onPkg fun p => { p with flashScores := NMap.set p.flashScores (unitScoreKey kind index) n }) := ⟨rfl, rfl, rfl⟩
  unfold addScore
  dsimp only
  split <;> split
  · exact ((hscores _).andThen (hflash ..)).andThen (hpost ..)
  · exact (hscores _).andThen (hpost ..)
  · exact (hscores _).andThen (hflash ..)
  · exact hscores _

theorem linksKept_l2Check (s : State) (die sec : Nat) : s.linksKept (l2Check s die sec) := by
  unfold l2Check
  dsimp only
  split
  · exact s.linksKept_refl
  · split
    · exact (linksKept_onMs ..).andThen (linksKept_addScore ..)
    · split
      · exact ((linksKept_onMs ..).andThen (linksKept_addScore ..)).andThen (linksKept_onMs ..)
      · exact ((linksKept_onMs ..).andThen (linksKept_addScore ..)).andThen (linksKept_onMs ..)
      · exact ((linksKept_onMs ..).andThen (linksKept_addScore ..)).andThen (linksKept_onMs ..)
      · exact (linksKept_onMs ..).andThen (linksKept_addScore ..)

theorem linksKept_l2CheckHome (s : State) (sec : Nat) : s.linksKept (l2CheckHome s sec) := by
  unfold l2CheckHome
  split
  · exact linksKept_l2Check ..
  · exact s.linksKept_refl

theorem linksKept_physWrite (s : State) (pa : Nat) (bs : List Byte) : s.linksKept (physWrite s pa bs) :=
  (linksKept_foldl _ linksKept_l2CheckHome s).andThen (unitsKept_physWriteWith checkGranule_unitsKept ..).linksKept

theorem linksKept_touchGranule (s : State) (sec ctx : Nat) : s.linksKept (touchGranule s sec ctx) := by
  have hfills := (unitsKept_endFillsWith checkGranule_unitsKept s sec).linksKept
  unfold touchGranule
  dsimp only
  split
  · exact hfills
  · have hcheck (t : State) (ty : Nat) : t.linksKept (checkGranule t sec ty ctx).2 := (checkGranule_unitsKept t sec ty ctx).linksKept
    have hsettle (t : State) (n : Nat) := (unitsKept_settleWith checkGranule_unitsKept t sec n).linksKept
    have hmove (t : State) := (unitsKept_awaitMove t (sec / 4)).linksKept
    exact ((hfills.andThen (hmove _)).andThen (hsettle ..)).andThen (hcheck ..)

theorem linksKept_touchPhys (s : State) (pa n ctx : Nat) : s.linksKept (touchPhys s pa n ctx) :=
  linksKept_foldl _ (fun s sec => (linksKept_l2CheckHome s sec).andThen (linksKept_touchGranule ..)) s

theorem linksKept_postAsync (s : State) (ctx rcd : Nat) : s.linksKept (postAsync s ctx rcd) := by
  unfold postAsync
  split
  · exact s.linksKept_refl
  · split
    · exact s.linksKept_refl
    · next c _ _ =>
      have h := linksKept_touchPhys s c.aring 64 ctx
      dsimp only
      generalize touchPhys s c.aring 64 ctx = t at h ⊢
      generalize (if 4 ≤ physNat t (c.aring + 16) 1 ∧ physNat t (c.aring + 16) 1 ≤ 12 then physNat t (c.aring + 16) 1 else 12) = sz
      split
      · exact h.andThen (linksKept_physWrite ..)
      · exact (h.andThen (linksKept_physWrite t _ _)).andThen (linksKept_physWrite ..)

theorem linksKept_onGrid (s : State) (gk : Nat) (f : Grid → Grid) : s.linksKept (s.onGrid gk f) := ⟨rfl, rfl, rfl⟩

theorem linksKept_postKind (s : State) (ctx gk : Nat) (addr core cause info kind : Nat) :
    s.linksKept (postKind s ctx gk addr core cause info kind) := by
  unfold postKind setGridFlag
  exact (linksKept_postAsync ..).andThen (linksKept_onGrid ..)

theorem linksKept_redPoison (s : State) (w : Writer) (va bad : Nat) : s.linksKept (redPoison s w va bad) := by
  unfold redPoison
  extract_lets grid accept
  generalize accept = a
  split
  · exact s.linksKept_refl
  · split
    · exact linksKept_foldl _ (fun s gk => linksKept_onGrid s gk _) s
    · exact linksKept_postKind ..

end Sys2Proof.Machine
end

section
/-! The events of links and trace units (R122, R123, R392, R447-R450, R470-R479). -/

namespace Sys2Proof.Machine

/-! ## Peers -/

/-- The operation writes. -/
def opWrites : MemOp → Bool
  | .read _ => false
  | _ => true

/-- A request that is refused, with the record of it (R476, R477). -/
def refusedReply (rq : PeerReq) (s : State) (code : Nat) : Reply × Nat × State :=
  (.fail code, 0, postFaq s 0x10 16 rq.peer code 0 rq.addr 0)

/-- What a request that its window lets through does (R476). -/
def servedReply (rq : PeerReq) (s : State) : Reply × Nat × State :=
  let x := performPhys s rq.addr rq.op rq.poison
  (.ok x.1 x.2.1, if opWrites rq.op then x.2.2.1 else 0, x.2.2.2)

theorem serveInbound_eq (s : State) (rq : PeerReq) : serveInbound s rq =
    if !s.pkg.peers.en || s.minimal then refusedReply rq s 3
    else match windowOf s rq.addr with
      | none => refusedReply rq s 1
      | some w => if opWrites rq.op && !w.w then refusedReply rq s 2 else servedReply rq s := rfl

/-- A request whose reply is owed (R123). -/
def owedReply (rq : PeerReq) (r : Reply × Nat × State) : State :=
  r.2.2.onPkg fun p => { p with acks := p.acks ++ [⟨rq.peer, rq.addr, r.1, r.2.1⟩] }

theorem exec_peerInboundRequest {s : State} {rq : PeerReq} {r : Reply × Nat × State} (h : serveInbound s rq = r) :
    exec (.peerInboundRequest rq) s = .next (owedReply rq r) := h ▸ rfl

/-- A peer's request is refused, or performed through its window (R476-R478). -/
theorem serveInbound_spec (s : State) (rq : PeerReq) :
    ((s.pkg.peers.en = false ∨ s.minimal = true) → serveInbound s rq = refusedReply rq s 3) ∧
    (s.pkg.peers.en = true → s.minimal = false →
      (windowOf s rq.addr = none → serveInbound s rq = refusedReply rq s 1) ∧
      ∀ w, windowOf s rq.addr = some w → (opWrites rq.op = true → w.w = false → serveInbound s rq = refusedReply rq s 2) ∧
        ((w.w = true ∨ opWrites rq.op = false) → serveInbound s rq = servedReply rq s)) := by
  rw [serveInbound_eq]
  refine ⟨fun hoff => if_pos (by rcases hoff with h | h <;> simp [h]), fun hen hmin => ?_⟩
  rw [hen, hmin, if_neg (by decide)]
  refine ⟨fun hw => by rw [hw], fun w hw => ?_⟩
  rw [hw]
  dsimp only
  refine ⟨fun hwrites hro => if_pos (by rw [hwrites, hro]; rfl), fun hok => if_neg ?_⟩
  rcases hok with h | h <;> simp [h]

/-! ## Retries -/

theorem not_mem_endRequest (s : State) (n : Nat) : ∀ x ∈ (endRequest s n).pkg.outreqs, x.n ≠ n := fun _ hx => by
  simpa using (List.mem_filter.1 hx).2

/-- An answered entry leaves its core's log, or waits for its next try (R471, R478). -/
theorem peerRetry_spec {s : State} {core : Nat} {e : SlogEntry} {r : OutReq} {rep : Reply} (hl : slogOf s core = [e])
    (ho : ownerlessOf s core = []) (hr : retryAnswered s core = some (r, e, rep)) :
    ∃ t, exec (.peerRetry core) s = .next t ∧ (∀ x ∈ t.pkg.outreqs, x.n ≠ r.n) ∧
      (∀ bs, rep = .ok bs false → slogOf t core = [] ∧ t.work = s.work ∧ t.ms = s.ms) ∧
      (∀ bs, rep = .ok bs true → slogOf t core = []) ∧
      ∀ c, rep = .fail c → t.work = s.work ∧ t.ms = s.ms ∧ slogOf t core =
        [{ e with code := c, first := some (e.first.getD r.sent), retryAt := max s.clock.dtime (r.sent + 100000) }] := by
  have hexec : exec (.peerRetry core) s = .next (retryTake s core r e rep) := by
    show execPeerRetry core s = _
    unfold execPeerRetry
    rw [hr]
  have hended := not_mem_endRequest s r.n
  have hl' : slogOf (endRequest s r.n) core = [e] := hl
  have ho' : ownerlessOf (endRequest s r.n) core = [] := ho
  have htake {u : State} (hvm : u.vm = s.vm) : removeEntry u core e = setSlog u core [] :=
    removeEntry_single ((slogOf_of_vm hvm core).trans hl) ((ownerlessOf_of_vm hvm core).trans ho)
  have htaken (bs : List Byte) (bad : Bool) : ∃ u, retryTake s core r e (.ok bs bad) = removeEntry u core e ∧ u.vm = s.vm ∧
      (endRequest s r.n).linksKept u := by
    unfold retryTake
    dsimp only
    split
    · exact ⟨_, rfl, redPoison_vm .., linksKept_redPoison ..⟩
    · exact ⟨_, rfl, rfl, State.linksKept_refl _⟩
  refine ⟨_, hexec, ?_, ?_, ?_, ?_⟩
  · cases rep with
    | fail code =>
      show ∀ x ∈ (swapEntry (endRequest s r.n) core e _).pkg.outreqs, x.n ≠ r.n
      rw [swapEntry_single hl']
      exact hended
    | ok bs bad =>
      obtain ⟨u, hu, hvm, hlinks⟩ := htaken bs bad
      rw [hu, htake hvm]
      show ∀ x ∈ u.pkg.outreqs, x.n ≠ r.n
      rw [hlinks.outreqs]
      exact hended
  · rintro bs rfl
    have hu : retryTake s core r e (.ok bs false) = removeEntry (endRequest s r.n) core e := rfl
    rw [hu, htake (u := endRequest s r.n) rfl]
    exact ⟨slogOf_setSlog .., rfl, rfl⟩
  · rintro bs rfl
    obtain ⟨u, hu, hvm, -⟩ := htaken bs true
    rw [hu, htake hvm, slogOf_setSlog]
  · rintro c rfl
    unfold retryTake
    dsimp only
    rw [swapEntry_single hl']
    exact ⟨rfl, rfl, slogOf_setSlog ..⟩

/-- A failed entry whose time is over is dropped, and its grid told (R415, R478). -/
theorem peerStoreDrop_spec {s : State} {core : Nat} {e : SlogEntry} (hl : slogOf s core = [e]) (ho : ownerlessOf s core = [])
    (hd : dropReady s core = some e) :
    ∃ t, exec (.peerStoreDrop core) s = .next t ∧ slogOf t core = [] ∧ t.work.groups = s.work.groups ∧
      ∀ x, s.grid? e.grid = some x → t.grid? e.grid = some { x with flags := x.flags ||| 0x10 } := by
  generalize hp : (s.onPkg fun p =>
    { p with outreqs := p.outreqs.filter fun r => !(r.retries core == some e)
             inbox := p.inbox.filter fun x =>
              !((s.pkg.outreqs.filter fun r => r.retries core == some e).map OutReq.n).contains x.1 }) = u
  have hvm : u.vm = s.vm := hp ▸ rfl
  have hwork : u.work = s.work := hp ▸ rfl
  have hremoved : removeEntry u core e = setSlog u core [] :=
    removeEntry_single ((slogOf_of_vm hvm core).trans hl) ((ownerlessOf_of_vm hvm core).trans ho)
  have hexec : exec (.peerStoreDrop core) s =
      .next (postKind (setSlog u core []) e.ctx e.grid (e.va / 32 * 32) core causeRemote e.code 2) := by
    show execPeerStoreDrop core s = _
    unfold execPeerStoreDrop
    rw [hd, ← hremoved, ← hp]
  have hvm' := postKind_vm (setSlog u core []) e.ctx e.grid (e.va / 32 * 32) core causeRemote e.code 2
  refine ⟨_, hexec, (slogOf_of_vm hvm' core).trans (slogOf_setSlog ..), ?_, fun x hx => ?_⟩ <;> unfold postKind setGridFlag <;>
    obtain ⟨-, -, -, hasync, -⟩ := memoryOnly_postAsync (setSlog u core []) e.ctx
      (asyncRecord (setSlog u core []) e.ctx (gridId (setSlog u core []) e.grid) (e.va / 32 * 32) core causeRemote e.code 2)
  · rw [onGrid_groups, hasync]
    exact congrArg Work.groups hwork
  · refine grid?_onGrid_self ?_ _
    rw [State.grid?, hasync]
    exact (congrArg (fun w : Work => NMap.get? w.grids e.grid) hwork).trans hx

/-! ## Ports -/

theorem ports_onPort (s : State) (p : Nat) (f : Port → Port) : (onPort s p f).pkg.peers.ports[p]? = s.pkg.peers.ports[p]?.map f :=
  (getElem?_mapAt s.pkg.peers.ports p f p).trans (if_pos rfl)

/-- A port goes down, and its change raises a vector (R472, R479). -/
theorem peerPortDown_spec {s : State} {p : Nat} {x : Port} (hp : p < 12) (hx : s.pkg.peers.ports[p]? = some x) :
    ∃ t, exec (.peerPortDown p) s = .next t ∧ t.pkg.peers.ports[p]? = some { x with up := false, downEv := true } ∧
      t.pkg.msix = s.pkg.msix ++ [6] ∧ t.work = s.work ∧ t.ms = s.ms := by
  refine ⟨_, congrArg Host.Outcome.next (if_neg (Nat.not_le.2 hp)), ?_, rfl, rfl, rfl⟩
  refine (ports_onPort s p fun x => { x with up := false, downEv := true }).trans ?_
  rw [hx]
  rfl

theorem peerPortUp_spec {s : State} {p : Nat} {x : Port} (hx : s.pkg.peers.ports[p]? = some x) :
    ∃ t, exec (.peerPortUp p) s = .next t ∧ t.pkg.peers.ports[p]? = some { x with up := true, replays := 0 } ∧
      t.pkg.msix = s.pkg.msix ∧ t.work = s.work ∧ t.ms = s.ms := by
  refine ⟨_, rfl, (ports_onPort s p fun x => { x with up := true, replays := 0 }).trans ?_, rfl, rfl, rfl⟩
  rw [hx]
  rfl

/-! ## Trace units -/

theorem traceUnit_onTrace {s : State} {die : Nat} (h : die < s.pkg.trace.length) (f : TraceUnit → TraceUnit) :
    (onTrace s die f).traceUnit die = f (s.traceUnit die) := by
  have hget : (onTrace s die f).pkg.trace[die]? = s.pkg.trace[die]?.map f :=
    (getElem?_mapAt s.pkg.trace die f die).trans (if_pos rfl)
  unfold State.traceUnit
  rw [List.getD_eq_getElem?_getD, List.getD_eq_getElem?_getD, hget, List.getElem?_eq_getElem h]
  rfl

theorem length_onTrace (s : State) (die : Nat) (f : TraceUnit → TraceUnit) :
    (onTrace s die f).pkg.trace.length = s.pkg.trace.length := by
  unfold onTrace
  rw [State.onPkg_pkg, List.length_map, List.length_zipIdx]

theorem traceQ_of_traceq {s t : State} (h : t.pkg.traceq = s.pkg.traceq) (core : Nat) : t.traceQ core = s.traceQ core := by
  unfold State.traceQ
  rw [h]

theorem traceQ_setTraceQ_self (s : State) (core : Nat) (q : TraceQueue) : (setTraceQ s core q).traceQ core = q := by
  unfold State.traceQ setTraceQ
  rw [State.onPkg_pkg, NMap.get?_set_self]
  rfl

theorem traceQ_setTraceQ_ne (s : State) {core j : Nat} (q : TraceQueue) (h : j ≠ core) : (setTraceQ s core q).traceQ j = s.traceQ j := by
  unfold State.traceQ setTraceQ
  rw [State.onPkg_pkg, NMap.get?_set_ne _ _ h]

/-- A die without packets has no core's turn (R447). -/
theorem traceTurn_of_no_packets {s : State} {die : Nat} (h : ∀ c, c / 96 = die → (s.traceQ c).packets = []) : traceTurn s die = none := by
  unfold traceTurn
  refine List.find?_eq_none.2 fun c hc => ?_
  obtain ⟨i, -, rfl⟩ := List.mem_map.1 hc
  rw [h _ (by omega)]
  decide

theorem traceMove_of_no_turn {s : State} {die : Nat} (h : traceTurn s die = none) (n left : Nat) : traceMove die (n + 1) left s = s := by
  rw [traceMove, h]

/-- A trace unit whose die holds one packet of one word moves it to its ring (R447). -/
theorem traceRingWrite_spec {s : State} {die core : Nat} {w : W64} (hd : die < s.pkg.trace.length) (hen : (s.traceUnit die).en = true)
    (hturn : traceTurn s die = some core) (hq : (s.traceQ core).packets = [[w]])
    (hothers : ∀ c, c / 96 = die → c ≠ core → (s.traceQ c).packets = []) (htakes : (s.traceUnit die).takes 1 = true) :
    ∃ t, exec (.traceRingWrite die) s = .next t ∧ (s.traceQ core).lost = (t.traceQ core).lost ∧ (t.traceQ core).packets = [] ∧
      (t.traceUnit die).wr = ((s.traceUnit die).wr + 8) % 2 ^ 64 ∧
      t.ms = (physWriteW (setTraceQ s core { s.traceQ core with packets := [] })
        ((s.traceUnit die).base * 4096 + (s.traceUnit die).wr % (s.traceUnit die).ring) w).ms := by
  generalize hsent : setTraceQ s core { s.traceQ core with packets := [] } = u
  have hqueue : u.traceQ core = { s.traceQ core with packets := [] } := hsent ▸ traceQ_setTraceQ_self ..
  have hempty (c : Nat) (hc : c / 96 = die) : (u.traceQ c).packets = [] := by
    by_cases he : c = core
    · rw [he, hqueue]
    · rw [← hsent, traceQ_setTraceQ_ne _ _ he]
      exact hothers c hc he
  have htrace : u.pkg.trace = s.pkg.trace := hsent ▸ rfl
  have hunit : u.traceUnit die = s.traceUnit die := by rw [State.traceUnit, htrace, State.traceUnit]
  have hlinks := linksKept_physWrite u ((s.traceUnit die).base * 4096 + (s.traceUnit die).wr % (s.traceUnit die).ring) (leBytes 8 w.toNat)
  have hwritten : physWrite u ((s.traceUnit die).base * 4096 + (s.traceUnit die).wr % (s.traceUnit die).ring) (leBytes 8 w.toNat) =
    physWriteW u ((s.traceUnit die).base * 4096 + (s.traceUnit die).wr % (s.traceUnit die).ring) w := rfl
  rw [hwritten] at hlinks
  have hword : traceWord u die w = onTrace (physWriteW u ((s.traceUnit die).base * 4096 + (s.traceUnit die).wr % (s.traceUnit die).ring) w)
      die fun t => { t with wr := (t.wr + 8) % 2 ^ 64 } := by
    unfold traceWord
    rw [hunit]
  generalize physWriteW u ((s.traceUnit die).base * 4096 + (s.traceUnit die).wr % (s.traceUnit die).ring) w = v at hlinks hword ⊢
  generalize hend : onTrace (traceWord u die w) die (fun t => { t with next := (core % 96 + 1) % 96 }) = t
  have htq (c : Nat) : t.traceQ c = u.traceQ c := by
    rw [← hend, hword]
    exact traceQ_of_traceq hlinks.traceq c
  have hvd : die < v.pkg.trace.length := by rw [hlinks.trace, htrace]; exact hd
  have hstep : traceMove die 8 8 s = traceMove die 7 7 t := by
    show traceMove die (7 + 1) 8 s = _
    rw [traceMove, hturn]
    dsimp only
    rw [hq]
    dsimp only
    rw [if_pos (by rw [Bool.and_eq_true]; exact ⟨rfl, htakes⟩), hsent, ← hend]
    rfl
  have hexec : exec (.traceRingWrite die) s = .next t := by
    show execTraceRingWrite die s = _
    unfold execTraceRingWrite
    rw [if_pos hen, hstep, traceMove_of_no_turn (traceTurn_of_no_packets fun c hc => by rw [htq]; exact hempty c hc)]
  refine ⟨t, hexec, ?_, ?_, ?_, ?_⟩
  · rw [htq, hqueue]
  · rw [htq, hqueue]
  · rw [← hend, hword, traceUnit_onTrace (by rw [length_onTrace]; exact hvd), traceUnit_onTrace hvd]
    show ((v.traceUnit die).wr + 8) % 2 ^ 64 = _
    rw [State.traceUnit, hlinks.trace, ← State.traceUnit, hunit]
  · rw [← hend, hword]
    rfl

/-- A traced group whose SYNC is due enters it (R392, R449). -/
theorem traceSyncTimer_spec {s : State} {k : Nat} {g : Group} {sp : Split} {rest : List Split} (hg : s.group? k = some g)
    (hsp : g.splits = sp :: rest) (hdue : syncDue s k = true) (hlost : (s.traceQ (coreOf k)).lost = 0)
    (hroom : (s.traceQ (coreOf k)).words + 2 ≤ 64) :
    ∃ t, exec (.traceSyncTimer k) s = .next t ∧ t.group? k = some { g with traceOn := true, lastSync := s.clock.cycle } ∧
      t.ms = s.ms ∧ (t.traceQ (coreOf k)).packets = (s.traceQ (coreOf k)).packets ++ [syncPacket s k g sp.id] := by
  have hen : (s.traceUnit (dieOf (coreOf k))).en = true := by
    unfold syncDue at hdue
    rw [hg] at hdue
    simp only [Bool.and_eq_true] at hdue
    exact hdue.1.2
  have hexec : exec (.traceSyncTimer k) s = .next (traceSync s k sp.id) := by
    show execTraceSyncTimer k s = _
    unfold execTraceSyncTimer
    rw [if_pos hdue, hg, Option.bind_some, hsp]
    rfl
  have hsync : traceSync s k sp.id = (setTraceQ s (coreOf k)
      ⟨(s.traceQ (coreOf k)).packets ++ [syncPacket s k g sp.id], 0, s.clock.cycle⟩).setGroup k
        { g with traceOn := true, lastSync := s.clock.cycle } := by
    unfold traceSync
    simp only [hg, hen, hlost, hroom, Bool.not_true, Bool.false_eq_true, if_false, decide_true, beq_self_eq_true, Bool.and_self, if_true,
      Bool.or_true, Bool.not_true, Bool.or_false]
    rfl
  rw [hsync] at hexec
  refine ⟨_, hexec, State.group?_setGroup .., rfl, ?_⟩
  exact congrArg TraceQueue.packets (traceQ_setTraceQ_self s (coreOf k) _)

/-- A core whose queue has room again enters its LOSS (R450). -/
theorem loss_spec {s : State} {core : Nat} (hdue : lossDue s core = true) (hgroups : lostGroups s core = [])
    (hd : s.clock.cycle - (s.traceQ core).last ≤ 4095) :
    ∃ t, exec (.loss core) s = .next t ∧ t.work = s.work ∧ t.ms = s.ms ∧ t.traceQ core = ⟨(s.traceQ core).packets ++
      [[traceHeader 8 (s.clock.cycle - (s.traceQ core).last) core 0 0 (s.traceQ core).lost]], 0, s.clock.cycle⟩ := by
  have hexec : exec (.loss core) s = .next (setTraceQ s core ⟨(s.traceQ core).packets ++
      [[traceHeader 8 (s.clock.cycle - (s.traceQ core).last) core 0 0 (s.traceQ core).lost]], 0, s.clock.cycle⟩) := by
    show execLoss core s = _
    unfold execLoss
    simp only [if_pos hdue, if_pos hd, hgroups, List.map_nil, List.append_nil, List.foldl_nil]
  exact ⟨_, hexec, rfl, rfl, traceQ_setTraceQ_self ..⟩

/-- Settles O54: each event's own lemma, in the order of the claim. -/
theorem linkEventsComplete : Obligations.LinkEventsComplete := by
  intro s
  refine ⟨fun off n hs hn => hostBar2Read_spec hs hn,
    fun off bs hs hn hone hhome hmark hm hwf hp => hostBar2Write_spec hs hn hone hhome hmark hm hwf hp,
    fun n hn => congrArg Host.Outcome.next (if_pos hn), fun n hn => congrArg Host.Outcome.next (if_pos hn), fun rq => ?_,
    fun core e r rep hl ho hr => peerRetry_spec hl ho hr, fun core e hl ho hd => peerStoreDrop_spec hl ho hd,
    fun p x hp hx => ⟨peerPortDown_spec hp hx, peerPortUp_spec hx⟩,
    fun die core w hd hen hturn hq hothers htakes => traceRingWrite_spec hd hen hturn hq hothers htakes,
    fun k g sp rest hg hsp hdue hlost hroom => traceSyncTimer_spec hg hsp hdue hlost hroom,
    fun core hdue hgroups hd => loss_spec hdue hgroups hd⟩
  obtain ⟨hoff, hon⟩ := serveInbound_spec s rq
  refine ⟨fun h => exec_peerInboundRequest (hoff h), fun hen hmin => ?_⟩
  obtain ⟨hno, hwin⟩ := hon hen hmin
  refine ⟨fun hw => exec_peerInboundRequest (hno hw), fun w hw => ?_⟩
  obtain ⟨hrefused, hserved⟩ := hwin w hw
  exact ⟨fun hwrites hro => exec_peerInboundRequest (hrefused hwrites hro), fun hok => exec_peerInboundRequest (hserved hok)⟩

end Sys2Proof.Machine
end

section
/-! A pending result is delivered (R209, R264): its registers take its values, its entry leaves, and a group whose traps are none takes
none. -/

namespace Sys2Proof.Machine

/-! ## Registers -/

theorem reg_setReg_ne (g : Group) {i n : Nat} (m : Mask) (x : LaneReg) (hn : n < 24) (h : i ≠ n) : (g.setReg i m x).reg n = g.reg n := by
  unfold Group.setReg Group.onRegs
  rw [Group.reg, getD_set _ _ _ _ _ hn, if_neg h]
  rfl

/-- Several registers take values, in the lanes of `m`. -/
def Group.setRegs (g : Group) (m : Mask) (l : List (Nat × LaneReg)) : Group := l.foldl (fun g rv => g.setReg rv.1 m rv.2) g

theorem reg_setRegs_of_not_mem (m : Mask) {l : List (Nat × LaneReg)} (g : Group) {n : Nat} (hn : n < 24) (h : ∀ e ∈ l, e.1 ≠ n) :
    (g.setRegs m l).reg n = g.reg n := by
  induction l generalizing g with
  | nil => rfl
  | cons e l ih =>
    exact (ih (g.setReg e.1 m e.2) fun x hx => h x (List.mem_cons_of_mem _ hx)).trans (reg_setReg_ne g m e.2 hn (h e List.mem_cons_self))

theorem reg_setRegs (m : Mask) {regs : List Nat} (hd : regs.Nodup) (vals : List LaneReg) (g : Group) {i r : Nat} {v : LaneReg}
    (hr : regs[i]? = some r) (hv : vals[i]? = some v) (h24 : r < 24) {l : Nat} (hl : l < 32) :
    ((g.setRegs m (regs.zip vals)).reg r).lane l = if m.has l then v.lane l else (g.reg r).lane l := by
  induction regs generalizing vals g i with
  | nil => exact nomatch hr
  | cons a regs ih =>
    obtain ⟨ha, hd⟩ := List.nodup_cons.1 hd
    cases vals with
    | nil => exact nomatch hv
    | cons b vals =>
      show (((g.setReg a m b).setRegs m (regs.zip vals)).reg r).lane l = _
      cases i with
      | zero =>
        obtain rfl : a = r := Option.some.inj hr
        obtain rfl : b = v := Option.some.inj hv
        have hrest : ∀ e ∈ regs.zip vals, e.1 ≠ a := fun e he hea => ha (hea ▸ (List.of_mem_zip he).1)
        rw [reg_setRegs_of_not_mem m _ h24 hrest, setReg_reg g a m b h24 hl]
        exact if_congr (by simp) rfl rfl
      | succ i =>
        have har : a ≠ r := fun har => ha (har ▸ List.mem_of_getElem? hr)
        rw [ih hd vals (g.setReg a m b) hr hv, reg_setReg_ne g m b h24 har]

theorem setRegs_rest (m : Mask) (l : List (Nat × LaneReg)) (g : Group) :
    (g.setRegs m l).splits = g.splits ∧ (g.setRegs m l).sys = g.sys ∧ (g.setRegs m l).pend = g.pend ∧ (g.setRegs m l).traps = g.traps ∧
      (g.setRegs m l).info = g.info := by
  induction l generalizing g with
  | nil => exact ⟨rfl, rfl, rfl, rfl, rfl⟩
  | cons e l ih => exact ih (g.setReg e.1 m e.2)

/-! ## A delivery -/

/-- What a delivery writes of a group: registers, and in the system registers flags and HORIZON. -/
theorem deliver_spec (g : Group) (p : Pending) :
    (g.deliver p).splits = g.splits ∧ (g.deliver p).pend = g.pend ∧ (g.deliver p).traps = g.traps ∧ (g.deliver p).info = g.info ∧
      (g.deliver p).sys.fflags = g.sys.fflags ||| p.flags ∧ ∀ n, (g.deliver p).reg n = (g.setRegs p.act (p.regs.zip p.vals)).reg n := by
  obtain ⟨hsplits, hsys, hpend, htraps, hinfo⟩ := setRegs_rest p.act (p.regs.zip p.vals) g
  unfold Group.deliver
  rw [← Group.setRegs]
  generalize g.setRegs p.act (p.regs.zip p.vals) = h at hsplits hsys hpend htraps hinfo ⊢
  cases p.pred with
  | none => exact ⟨hsplits, hpend, htraps, hinfo, congrArg (fun x : SysRegs => x.fflags ||| p.flags) hsys, fun _ => rfl⟩
  | some e => exact ⟨hsplits, hpend, htraps, hinfo, congrArg (fun x : SysRegs => x.fflags ||| p.flags) hsys, fun _ => rfl⟩

theorem fillK_rest (s : State) (team : Nat) (kq : Option (Nat × Nat)) (x : LaneReg) :
    (fillK s team kq x).work.groups = s.work.groups ∧ (fillK s team kq x).ms = s.ms ∧ (fillK s team kq x).eng = s.eng := by
  have hgroups (f : Team → Team) : (s.onTeam team f).work.groups = s.work.groups := by unfold State.onTeam; split <;> rfl
  unfold fillK
  split
  · exact ⟨rfl, rfl, rfl⟩
  · exact ⟨hgroups .., State.onTeam_ms .., State.onTeam_eng ..⟩

/-- A group without traps that wait takes none, and at most its halt's end of windows is over (R209, R436). -/
theorem settleTraps_of_no_traps {s : State} {k : Nat} {g : Group} (hg : s.group? k = some g) (ht : g.traps = []) :
    ∃ b, settleTraps s k = s.setGroup k { g with drain := b } ∨ settleTraps s k = s := by
  unfold settleTraps
  rw [hg]
  dsimp only
  rw [ht, List.filter_nil]
  refine ⟨false, ?_⟩
  split
  · split
    · next heq => exact nomatch heq
    · split
      · exact .inl rfl
      · exact .inr rfl
  · exact .inr rfl

/-- The group as a delivery leaves it: the result's entry may stand among those whose windows are open (R209). -/
def Group.delivered (g : Group) (p : Pending) (late : List Pending) (cycle : Nat) : Group :=
  Group.onRegion { Group.deliver { g with pend := g.pend.erase p, late := late } p with lastDelivery := some cycle } fun r =>
    { r with lastResult := cycle }

theorem deliverPending_eq {s : State} {k : Nat} {g : Group} {p : Pending} (hg : s.group? k = some g) (hno : p.trap = none) :
    ∃ late x, deliverPending s k p = settleTraps (if p.flags &&& (g.delivered p late s.clock.cycle).info.fpen = 0 then
      fillK (s.setGroup k (g.delivered p late s.clock.cycle)) (g.delivered p late s.clock.cycle).info.team p.kq
        (p.vals.headD LaneReg.zero) else x) k := by
  unfold deliverPending
  rw [hg]
  dsimp only
  rw [hno]
  exact ⟨_, _, rfl⟩

theorem delivered_spec {g : Group} {p : Pending} (hp : p ∈ g.pend) (late : List Pending) (cycle : Nat) :
    Delivered g (g.delivered p late cycle) p p.vals p.flags ∧ (g.delivered p late cycle).traps = g.traps ∧
      (g.delivered p late cycle).info = g.info := by
  obtain ⟨hsplits, hpend, htraps, hinfo, hflags, hreg⟩ := deliver_spec { g with pend := g.pend.erase p, late := late } p
  refine ⟨⟨hsplits, ?_, hflags, fun hd i r v hr hv h24 l hl => ?_, fun n hn hmem => ?_⟩, htraps, hinfo⟩
  · show (Group.deliver { g with pend := g.pend.erase p, late := late } p).pend.length + 1 = _
    rw [hpend, List.length_erase_of_mem hp]
    exact Nat.sub_add_cancel (List.length_pos_of_mem hp)
  · show ((Group.deliver { g with pend := g.pend.erase p, late := late } p).reg r).lane l = _
    rw [hreg, reg_setRegs p.act hd p.vals _ hr hv h24 hl]
    rfl
  · show (Group.deliver { g with pend := g.pend.erase p, late := late } p).reg n = _
    rw [hreg, reg_setRegs_of_not_mem p.act _ hn fun e he hen => hmem (hen ▸ (List.of_mem_zip he).1)]
    rfl

/-- A result that traps nothing reaches its registers. -/
theorem deliverPending_spec {s : State} {k : Nat} {g : Group} {p : Pending} (hg : s.group? k = some g) (hp : p ∈ g.pend)
    (ht : g.traps = []) (hno : p.trap = none) (hen : p.flags &&& g.info.fpen = 0) :
    ∃ h, (deliverPending s k p).group? k = some h ∧ Delivered g h p p.vals p.flags ∧ (deliverPending s k p).ms = s.ms ∧
      (deliverPending s k p).eng = s.eng := by
  obtain ⟨late, x, heq⟩ := deliverPending_eq hg hno
  obtain ⟨hdel, htraps, hinfo⟩ := delivered_spec hp late s.clock.cycle
  rw [heq, hinfo, if_pos hen]
  generalize g.delivered p late s.clock.cycle = h at hdel htraps ⊢
  obtain ⟨hgroups, hms, heng⟩ := fillK_rest (s.setGroup k h) g.info.team p.kq (p.vals.headD LaneReg.zero)
  have hself : (fillK (s.setGroup k h) g.info.team p.kq (p.vals.headD LaneReg.zero)).group? k = some h := by
    rw [State.group?, hgroups]
    exact State.group?_setGroup ..
  generalize fillK (s.setGroup k h) g.info.team p.kq (p.vals.headD LaneReg.zero) = t at hms heng hself ⊢
  obtain ⟨b, hdrained | hsame⟩ := settleTraps_of_no_traps hself (htraps.trans ht)
  · rw [hdrained]
    obtain ⟨hsplits, hpend, hflags, hregs, hothers⟩ := hdel
    exact ⟨_, State.group?_setGroup .., ⟨hsplits, hpend, hflags, hregs, hothers⟩, hms, heng⟩
  · rw [hsame]
    exact ⟨h, hself, hdel, hms, heng⟩

end Sys2Proof.Machine
end

section
/-! The events of groups (R103-R113, R209, R320, R337, R364, R404, R427, R429). -/

namespace Sys2Proof.Machine

/-! ## Selection -/

/-- A unit that does not stand behind another at selection: it is starved and was admitted no later, or neither is starved and it has
the higher priority or, with the same, has waited no less (R364, R429). -/
theorem unitBefore_eq_false_iff {s : State} {a b : UnitRef × Group × Split} : unitBefore s b a = false ↔
    (starved s a.2.2 = true ∧ (starved s b.2.2 = true → a.2.1.info.born ≤ b.2.1.info.born)) ∨
      (starved s a.2.2 = false ∧ starved s b.2.2 = false ∧ (b.2.1.info.prio < a.2.1.info.prio ∨
        a.2.1.info.prio = b.2.1.info.prio ∧ a.2.2.lastIssue ≤ b.2.2.lastIssue)) := by
  unfold unitBefore
  cases starved s b.2.2 <;> cases starved s a.2.2
  · by_cases hp : b.2.1.info.prio ≠ a.2.1.info.prio
    · simp [hp]
      omega
    · simp [hp]
      omega
  · simp
  · simp
  · simp

/-- What stands behind neither of two stands behind none of them: the order has no circle. -/
theorem unitBefore_trans {s : State} {a b c : UnitRef × Group × Split} (h : unitBefore s b a = false) (h' : unitBefore s c b = false) :
    unitBefore s c a = false := by
  rw [unitBefore_eq_false_iff] at *
  obtain ⟨ha, hborn⟩ | ⟨ha, hb, hrank⟩ := h
  · refine .inl ⟨ha, fun hc => ?_⟩
    obtain ⟨hb, hborn'⟩ | ⟨-, hc', -⟩ := h'
    · exact (hborn hb).trans (hborn' hc)
    · exact absurd (hc.symm.trans hc') (by decide)
  · obtain ⟨hb', -⟩ | ⟨-, hc, hrank'⟩ := h'
    · exact absurd (hb.symm.trans hb') (by decide)
    · exact .inr ⟨ha, hc, by omega⟩

theorem unitBefore_asymm {s : State} {a b : UnitRef × Group × Split} (h : unitBefore s a b = true) : unitBefore s b a = false := by
  rw [← Bool.not_eq_false, unitBefore_eq_false_iff] at h
  rw [unitBefore_eq_false_iff]
  cases ha : starved s a.2.2
  · cases hb : starved s b.2.2
    · simp only [ha, hb] at h
      exact .inr ⟨rfl, rfl, by simp at h; omega⟩
    · simp [ha, hb] at h
  · refine .inl ⟨rfl, fun hb => ?_⟩
    simp only [ha, hb] at h
    simp at h
    omega

theorem insUnit_perm (s : State) (u : UnitRef × Group × Split) (l : List (UnitRef × Group × Split)) : (insUnit s u l).Perm (u :: l) := by
  induction l with
  | nil => exact .refl _
  | cons x l ih =>
    rw [insUnit]
    split
    · exact .refl _
    · exact (ih.cons x).trans (.swap u x l)

/-- In the order of selection: none comes before an earlier one (R429). -/
def inOrder (s : State) (l : List (UnitRef × Group × Split)) : Prop := l.Pairwise fun a b => unitBefore s b a = false

theorem insUnit_inOrder {s : State} (u : UnitRef × Group × Split) {l : List (UnitRef × Group × Split)} (h : inOrder s l) :
    inOrder s (insUnit s u l) := by
  induction l with
  | nil => exact List.pairwise_singleton ..
  | cons x l ih =>
    obtain ⟨hx, hl⟩ := List.pairwise_cons.1 h
    rw [insUnit]
    split
    · next hu =>
      refine List.pairwise_cons.2 ⟨fun y hy => ?_, h⟩
      obtain rfl | hy := List.mem_cons.1 hy
      · exact unitBefore_asymm hu
      · exact unitBefore_trans (unitBefore_asymm hu) (hx y hy)
    · next hu =>
      refine List.pairwise_cons.2 ⟨fun y hy => ?_, ih hl⟩
      obtain rfl | hy := List.mem_cons.1 ((insUnit_perm s u l).subset hy)
      · exact Bool.eq_false_of_not_eq_true hu
      · exact hx y hy

theorem insUnits_spec (s : State) (us l : List (UnitRef × Group × Split)) (h : inOrder s l) :
    (us.foldl (fun l u => insUnit s u l) l).Perm (us ++ l) ∧ inOrder s (us.foldl (fun l u => insUnit s u l) l) := by
  induction us generalizing l with
  | nil => exact ⟨.refl _, h⟩
  | cons u us ih =>
    obtain ⟨hperm, horder⟩ := ih (insUnit s u l) (insUnit_inOrder u h)
    exact ⟨hperm.trans (((insUnit_perm s u l).append_left us).trans List.perm_middle), horder⟩

/-- A cycle puts every unit of a core in line (R429). -/
theorem issueCycle_spec (s : State) (core : Nat) : ∃ l : List (UnitRef × Group × Split), l.Perm (unitsOf s core) ∧
    l.Pairwise (fun a b => unitBefore s b a = false) ∧
    exec (.issueCycle core) s = .next { s with issuing := s.issuing ++ l.map Prod.fst } := by
  obtain ⟨hperm, horder⟩ := insUnits_spec s (unitsOf s core) [] List.Pairwise.nil
  rw [List.append_nil] at hperm
  exact ⟨_, hperm, horder, rfl⟩

/-- Starved units come first in line (R364). -/
theorem starvationLimit_spec (s : State) (core : Nat) : ∃ l : List UnitRef, l.Perm s.issuing ∧ exec (.starvationLimit core) s =
    .next ((eviction { s with issuing := l } core).getD { s with issuing := l }) := by
  refine ⟨_, ?_, rfl⟩
  have hnot : ∀ u : UnitRef, (u.core != core || !(((unitsOf s core).filter fun u => starved s u.2.2).any fun x => x.1 == u)) =
      !(u.core == core && ((unitsOf s core).filter fun u => starved s u.2.2).any fun x => x.1 == u) := fun u => by
    rw [Bool.not_and]
    rfl
  simp only [hnot]
  exact List.filter_append_perm ..

/-! ## Results and accesses -/

/-- A due result reaches its registers (R209). -/
theorem resultDelivery_spec {s : State} {u : UnitRef} {k n : Nat} {g : Group} {p : Pending} (hg : s.group? k = some g)
    (hu : unitKey u = k) (ht : g.traps = []) (hp : g.pend.find? (pendDue s k) = some p) (hon : p.on = .cycle n) (hno : p.trap = none)
    (hen : p.flags &&& g.info.fpen = 0) :
    ∃ t h, exec (.resultDelivery u) s = .next t ∧ t.group? k = some h ∧ Delivered g h p p.vals p.flags ∧ t.ms = s.ms := by
  have hreplies : takeReplies s k p = (p, s) := by
    unfold takeReplies
    rw [hon]
  have hsame : (g.pend.map fun y => if y = p then p else y) = g.pend :=
    List.map_id'' (fun y => by split; exacts [Eq.symm ‹_›, rfl]) g.pend
  have hself : (s.setGroup k g).group? k = some g := State.group?_setGroup ..
  have hexec : exec (.resultDelivery u) s = .next (deliverPending (s.setGroup k g) k p) := by
    show Host.Outcome.next (deliverDue s (unitKey u)) = _
    rw [hu]
    unfold deliverDue
    rw [hg, Option.bind_some, hp]
    dsimp only
    rw [hreplies]
    dsimp only
    rw [onGroup_of_group? hg, hsame]
  obtain ⟨h, hgroup, hdel, hms, -⟩ := deliverPending_spec hself (List.mem_of_find?_eq_some hp) ht hno hen
  exact ⟨_, h, hexec, hgroup, hdel, hms⟩

/-- A group whose stores have no requests out takes no replies (R103, R478). -/
theorem storeReplies_of_none {s : State} {k : Nat} (h : ∀ r ∈ s.pkg.outreqs, ∀ a, r.owner ≠ .store k a) : storeReplies s k = s := by
  unfold storeReplies
  generalize s.pkg.outreqs = l at h
  refine foldl_of_fixed fun r hr => ?_
  split
  · next g a rep howner _ =>
    refine if_neg fun hgk => h r hr a ?_
    rw [howner, hgk]
  · rfl

theorem settle_horizon (g : Group) (s : State) : ∀ o ∈ g.out, Outstanding.isDone s o = true → o.gwct ≤ (g.settle s).sys.horizon := by
  have key (l : List Outstanding) (g : Group) : g.sys.horizon ≤ (l.foldl (fun g o => g.raiseHorizon o.gwct) g).sys.horizon ∧
      ∀ o ∈ l, o.gwct ≤ (l.foldl (fun g o => g.raiseHorizon o.gwct) g).sys.horizon := by
    induction l generalizing g with
    | nil => exact ⟨le_refl _, fun _ h => nomatch h⟩
    | cons x l ih =>
      obtain ⟨hfrom, hall⟩ := ih (g.raiseHorizon x.gwct)
      refine ⟨le_trans (le_max_left _ x.gwct) hfrom, fun o ho => ?_⟩
      obtain rfl | ho := List.mem_cons.1 ho
      · exact le_trans (le_max_right g.sys.horizon o.gwct) hfrom
      · exact hall o ho
  intro o ho hd
  exact (key (g.out.filter (Outstanding.isDone s)) g).2 o (List.mem_filter.2 ⟨ho, hd⟩)

/-- Complete accesses raise HORIZON and leave the group's list (R103). -/
theorem gwctReturn_spec {s : State} {k : Nat} {g : Group} (hg : s.group? k = some g)
    (hr : ∀ r ∈ s.pkg.outreqs, ∀ a, r.owner ≠ .store k a) :
    ∃ t h, (exec (.gwctReturn k) s = .next t ∧ t.group? k = some h) ∧ h.regs = g.regs ∧ t.ms = s.ms ∧
      h.out = g.out.filter (fun o => !Outstanding.isDone s o) ∧
      ∀ o ∈ g.out, Outstanding.isDone s o = true → o.gwct ≤ h.sys.horizon := by
  obtain ⟨n, o, hsettle⟩ := settle_eq g s
  refine ⟨s.setGroup k (g.settle s), g.settle s, ⟨?_, State.group?_setGroup ..⟩, by rw [hsettle], rfl, rfl, settle_horizon g s⟩
  show Host.Outcome.next ((storeReplies s k).onGroup k fun g => g.settle (storeReplies s k)) = _
  rw [storeReplies_of_none hr, onGroup_of_group? hg]

/-! ## Fences -/

/-- What a fence looks at beside its group: the logs, the time and the requests that are out. -/
theorem fenceHolds_of_sel (s : State) (u : UnitRef) (pre : Option Group) (k : Nat) (g : Group) (l : List Outstanding) (p : Sets) (e : Scope) :
    fenceHolds { s with sel := u, pre := pre } k g l p e = fenceHolds s k g l p e := rfl

/-- A fence whose conditions hold lets its split go on (R104). -/
theorem fenceComplete_spec {s : State} {u : UnitRef} {k : Nat} {g : Group} {sp : Split} {p su : Sets} {e : Scope} (hg : s.group? k = some g)
    (hu : unitKey u = k) (hsp : g.split? u.split = some sp) (hh : sp.hold = some (.fence p su e))
    (hf : fenceHolds s k (g.settle s) ((g.settle s).out.filter fun o => o.split == sp.id) p e = true) :
    ∃ t h y, (exec (.fenceComplete u) s = .next t ∧ t.group? k = some h) ∧ h.split? u.split = some y ∧ y.hold = none ∧
      y.pc = sp.pc.add 1 ∧ y.m = sp.m ∧ h.regs = g.regs ∧ t.ms = s.ms := by
  obtain ⟨n, o, hsettle⟩ := settle_eq g s
  have hid : sp.id = u.split := by simpa using List.find?_some hsp
  generalize hc : (⟨{ s with sel := u, pre := none }, k, g, g, sp, ((g.split? sp.id).map Split.m).getD sp.m &&& ~~~g.off,
    .fence false su p e⟩ : Cx) = c
  have hcx : cx? (.fence false su p e) { s with sel := u, pre := none } = some c := by
    unfold cx?
    dsimp only
    rw [hu, show ({ s with sel := u, pre := none } : State).group? k = some g from hg]
    dsimp only
    rw [hsp, ← hc]
    rfl
  generalize hd : ({ c with s := fenceTiles c.s (g.settle s).info.team p su e, g := g.settle s } : Cx) = d
  have hexec : exec (.fenceComplete u) s = .next d.done := by
    show execFenceComplete u s = _
    unfold execFenceComplete
    rw [hu, hg, Option.bind_some, hsp]
    dsimp only
    rw [hh]
    dsimp only
    rw [hcx, ← hd, ← hc]
    exact congrArg Host.Outcome.next (if_pos hf)
  have hsplit : (d.g.split? d.sp.id).isSome = true := by
    rw [← hd, ← hc, hsettle]
    exact Option.isSome_iff_exists.2 ⟨sp, hid ▸ hsp⟩
  obtain ⟨-, ⟨-, hms, -⟩, h, hgroup, -, ⟨⟨y, hy, hpc, hhold, hm, -⟩, -⟩, hregs, -⟩ := done_spec hsplit
  subst hd hc
  have htiles (t : State) : (fenceTiles t (g.settle s).info.team p su e).ms = t.ms := by
    unfold fenceTiles
    split <;> rfl
  refine ⟨_, h, y, ⟨hexec, hgroup⟩, hid ▸ hy, hhold, hpc, hm, hregs.trans (by rw [hsettle]), hms.trans (htiles _)⟩

/-- The regions' fences: of one whose conditions hold. -/
theorem exec_fenceSValidation {s : State} {k : Nat} {g : Group} {f : FenceS} (hg : s.group? k = some g) (hf : fenceSDue s k = some f) :
    exec (.fenceSValidation k) s = .next (
      if f.loads.any fun l => decide (l.lease ≤ (g.settle s).sys.horizon) && decide (l.stamp < (lineTimes s.ms (l.pa / 4)).wct) then
        rollback (s.setGroup k (g.settle s)) k .speculation true
      else (s.setGroup k (g.settle s)).setGroup k ((g.settle s).onRegion fun r => { r with fences := r.fences.erase f })) := by
  show execFenceSValidation k s = _
  unfold execFenceSValidation
  rw [hf, onGroup_of_group? hg]
  dsimp only
  rw [State.group?_setGroup, onGroup_of_group? (State.group?_setGroup s k (g.settle s))]
  rfl

/-- A speculation that fails puts the group back, and its next run does not speculate (R85, R107). -/
theorem rollback_speculation {s : State} {k : Nat} {g : Group} {r : Region} (hg : s.group? k = some g) (hr : g.region = some r) :
    ∃ h x, (rollback s k .speculation true).group? k = some h ∧ h.region = some x ∧ x.phase = .replaying ∧ x.buf = [] ∧
      x.effects = [] ∧ x.noSpec = true ∧ h.regs.rq = r.snap.rq ∧ h.regs.p = r.snap.p ∧ h.pend = [] := by
  have hnospec : (r.noSpec || RollCause.speculation == RollCause.speculation) = true := by rw [beq_self_eq_true, Bool.or_true]
  unfold rollback
  rw [hg]
  dsimp only
  rw [hr]
  dsimp only
  generalize traceNote s k ((g.splits.head?.map Split.id).getD 0) 5 0 = t
  generalize (t.group? k).getD g = h
  have hcounts (b : Bool) : ¬ (RollCause.speculation.isError && b) = true := Bool.false_ne_true
  have hstays : ¬ RollCause.speculation.moves = true := Bool.false_ne_true
  rw [if_neg (hcounts _), if_neg hstays]
  exact ⟨_, _, State.group?_setGroup .., rfl, rfl, rfl, rfl, hnospec, rfl, rfl, rfl⟩

/-- A FENCE.S whose conditions hold leaves its region, or its speculation fails (R106, R107). -/
theorem fenceSValidation_spec {s : State} {k : Nat} {g : Group} {f : FenceS} {r : Region} (hg : s.group? k = some g)
    (hf : fenceSDue s k = some f) (hr : g.region = some r) :
    let stale (l : SpecLoad) : Prop := l.lease ≤ (g.settle s).sys.horizon ∧ l.stamp < (lineTimes s.ms (l.pa / 4)).wct
    ((∀ l ∈ f.loads, ¬ stale l) → ∃ t h, (exec (.fenceSValidation k) s = .next t ∧ t.group? k = some h) ∧ t.ms = s.ms ∧
      h.regs = g.regs ∧ h.region.map Region.fences = some (r.fences.erase f)) ∧
    ((∃ l ∈ f.loads, stale l) → ∃ t h x, (exec (.fenceSValidation k) s = .next t ∧ t.group? k = some h) ∧
      h.region = some x ∧ x.phase = .replaying ∧ x.buf = [] ∧ x.effects = [] ∧ x.noSpec = true ∧ h.regs.rq = r.snap.rq ∧
      h.regs.p = r.snap.p ∧ h.pend = []) := by
  intro stale
  have hexec := exec_fenceSValidation hg hf
  obtain ⟨n, o, hsettle⟩ := settle_eq g s
  refine ⟨fun hno => ?_, fun ⟨l, hl, hstale⟩ => ?_⟩
  · have hfresh : ¬ (f.loads.any fun l => decide (l.lease ≤ (g.settle s).sys.horizon) &&
        decide (l.stamp < (lineTimes s.ms (l.pa / 4)).wct)) = true := by
      rw [List.any_eq_true]
      rintro ⟨l, hl, hs⟩
      rw [Bool.and_eq_true, decide_eq_true_eq, decide_eq_true_eq] at hs
      exact hno l hl hs
    rw [if_neg hfresh] at hexec
    refine ⟨_, _, ⟨hexec, State.group?_setGroup ..⟩, rfl, ?_, ?_⟩
    · rw [hsettle]
      rfl
    · rw [hsettle, Group.onRegion, hr]
      rfl
  · have hold : (f.loads.any fun l => decide (l.lease ≤ (g.settle s).sys.horizon) &&
        decide (l.stamp < (lineTimes s.ms (l.pa / 4)).wct)) = true := by
      refine List.any_eq_true.2 ⟨l, hl, ?_⟩
      rw [Bool.and_eq_true, decide_eq_true_eq, decide_eq_true_eq]
      exact hstale
    rw [if_pos hold] at hexec
    have hregion : (g.settle s).region = some r := by rw [hsettle]; exact hr
    obtain ⟨h, x, hgroup, hx⟩ := rollback_speculation (State.group?_setGroup s k (g.settle s)) hregion
    exact ⟨_, h, x, ⟨hexec, hgroup⟩, hx⟩

/-! ## Commits -/

/-- A region without a returning atomic and without held effects sends its buffer, and is gone. -/
theorem commitRegion_of_held {s : State} {k : Nat} {g : Group} {r : Region} (hg : s.group? k = some g) (hr : g.region = some r)
    (hheld : g.heldForCommit) (ha : r.atomic = none) (he : r.effects = []) (hn : r.replays = 0) :
    let sent := sendBuffer s (g.writer k ((g.splits.head?.map Split.id).getD 0)) g.info.team r.buf
    ∃ t, commitRegion s k = some t ∧ t.ms = sent.2.ms ∧ t.group? k = some { g.await sent.1 with region := none } := by
  intro sent
  have hself := (heldKept_sendBuffer s (g.writer k ((g.splits.head?.map Split.id).getD 0)) g.info.team r.buf).group k g hg hheld
  have hclosed := onGroup_of_group? hself fun g => { g.await sent.1 with region := none }
  unfold commitRegion
  rw [hg]
  dsimp only
  rw [hr]
  dsimp only
  rw [ha, he, hn]
  dsimp only [List.foldl_nil, List.nil_append]
  rw [hclosed, if_neg (Nat.lt_irrefl 0)]
  have hgroup (s : State) (g : Group) := State.group?_setGroup s k g
  exact ⟨_, rfl, rfl, hgroup _ _⟩

theorem commitDue_spec {s : State} {k : Nat} {g : Group} {r : Region} (hg : s.group? k = some g) (hr : g.region = some r)
    (h : commitDue s k = true) : g.heldForCommit := by
  unfold commitDue at h
  rw [hg] at h
  dsimp only at h
  rw [hr] at h
  simp only [Bool.and_eq_true] at h
  obtain ⟨⟨⟨hcommitting, -⟩, -⟩, -⟩ := h
  unfold Group.committing at hcommitting
  obtain ⟨-, hall⟩ := (Bool.and_eq_true ..).mp hcommitting
  exact fun sp hsp => by simpa using List.all_eq_true.1 hall sp hsp

/-- A commit whose conditions hold sends its buffer, and every split goes on (R404). -/
theorem regionCommit_spec {s : State} {k : Nat} {g : Group} {r : Region} (hg : s.group? k = some g) (hdue : commitDue s k = true)
    (hr : g.region = some r) (hafter : r.after = .close) (ha : r.atomic = none) (he : r.effects = []) (hn : r.replays = 0) :
    ∃ t h, (exec (.regionCommit k) s = .next t ∧ t.group? k = some h) ∧ h.region = none ∧ (∀ sp ∈ h.splits, sp.hold = none) ∧
      h.splits.map Split.pc = g.splits.map (fun sp => sp.pc.add 1) ∧
      t.ms = (sendBuffer s (g.writer k ((g.splits.head?.map Split.id).getD 0)) g.info.team r.buf).2.ms := by
  obtain ⟨t, hcommit, hms, hgroup⟩ := commitRegion_of_held hg hr (commitDue_spec hg hr hdue) ha he hn
  obtain ⟨x, b, hfinish⟩ := finishCommit_close hg hr hafter hcommit hgroup
  have hexec : exec (.regionCommit k) s = .next (finishCommit s k) := congrArg Host.Outcome.next (if_pos hdue)
  rw [hfinish] at hexec
  refine ⟨_, _, ⟨hexec, State.group?_setGroup (t.setGroup k x) k _⟩, rfl, fun sp hsp => ?_, ?_, hms⟩
  · obtain ⟨y, -, rfl⟩ := List.mem_map.1 hsp
    rfl
  · exact List.map_map

/-- A group that waited for its budget makes the one other group that can give some seam (R84). -/
theorem seamWaitTimeout_spec {s : State} {k v : Nat} {x : Group} {r : Region} (hv : seamVictims s k = [v]) (hx : s.group? v = some x)
    (hr : x.region = some r) (hready : commitReady s x r = false) :
    ∃ t h y, exec (.seamWaitTimeout k) s = .next t ∧ t.group? v = some h ∧ h.region = some y ∧ y.phase = .seam ∧ y.after = .seam ∧
      y.buf = r.buf ∧ (∀ sp ∈ h.splits, sp.hold = some .commit) ∧ t.ms = s.ms := by
  generalize hh : ({ (x.onRegion fun r => { r with phase := .seam, after := .seam }) with
    splits := x.splits.map fun sp => { sp with hold := some .commit } } : Group) = h
  have hregion : h.region = some { r with phase := .seam, after := .seam } := by
    rw [← hh, Group.onRegion, hr]
    rfl
  have hsame : commitReady (s.setGroup v h) h { r with phase := .seam, after := .seam } = commitReady s x r := by
    rw [← hh]
    rfl
  have hstart : startCommit s v .seam = s.setGroup v h := by
    unfold startCommit
    dsimp only
    rw [if_pos (.inl rfl), onGroup_of_group? hx, hh, State.group?_setGroup]
    dsimp only
    rw [hregion]
    dsimp only
    rw [hsame, hready]
    rfl
  have hexec : exec (.seamWaitTimeout k) s = .next (s.setGroup v h) := by
    show Host.Outcome.next ((seamVictims s k).foldl (fun s v => startCommit s v .seam) s) = _
    rw [hv, List.foldl_cons, List.foldl_nil, hstart]
  refine ⟨_, h, _, hexec, State.group?_setGroup .., hregion, rfl, rfl, rfl, fun sp hsp => ?_, rfl⟩
  rw [← hh] at hsp
  obtain ⟨y, -, rfl⟩ := List.mem_map.1 hsp
  rfl

/-! ## Releases and trays -/

/-- An arrival counts at its team's barrier, and leaves the releases as they were (R113, R337). -/
theorem countArrival_barrier {s : State} {team k n : Nat} {m : Team} (hm : s.team? team = some m) (hn : n < 16) :
    (countArrival s team k n).work.releases = s.work.releases ∧
      barrierOf (countArrival s team k n) team n = (barrierOf s team n).arrive 0 := by
  have hnote (f : Group → Group) : (s.onGroup k f).team? team = some m ∧ (s.onGroup k f).work.releases = s.work.releases := by
    unfold State.onGroup
    split
    · exact ⟨hm, rfl⟩
    · exact ⟨hm, rfl⟩
  unfold countArrival
  dsimp only
  generalize (fun x : Group => if x.info.team = team then
    { x with targets := x.targets.setIfInBounds n (some (barrierOf s team n).phase) } else x) = f
  obtain ⟨hteam, hreleases⟩ := hnote f
  have hbarrier : barrierOf (s.onGroup k f) team n = barrierOf s team n := by
    unfold barrierOf
    rw [hteam, hm]
  generalize s.onGroup k f = t at hteam hreleases hbarrier ⊢
  rw [arriveAt, State.onTeam, hteam]
  refine ⟨hreleases, ?_⟩
  rw [barrierOf, State.team?_setTeam]
  exact ((getD_set _ _ _ _ _ hn).trans (if_pos rfl)).trans (by rw [hbarrier])

/-- A release that is due leaves the list, and its effect takes place (R111). -/
theorem effectRelease_spec {s : State} {n : Nat} {r : Release} (hr : s.work.releases[n]? = some r) (hdue : releaseDue s n = true) :
    let left := s.work.releases.eraseIdx n
    (r.eff = .signal → ∀ x, s.grid? r.grid = some x → ∃ t, exec (.effectRelease n) s = .next t ∧
      t.grid? r.grid = some { x with signals := x.signals + 1 } ∧ t.work.releases = left) ∧
    (∀ l, r.eff = .launch l → ∃ t, exec (.effectRelease n) s = .next t ∧ dlqOf t r.die = dlqOf s r.die ++ [l] ∧
      t.work.releases = left) ∧
    exec (.effectRelease n) s = .next (doRelease { s with work := { s.work with releases := left } } r) ∧
    (∀ j m, r.eff = .arrive j → j < 16 → s.team? r.team = some m → ∃ t, exec (.barrierArrivalCount n) s = .next t ∧
      barrierOf t r.team j = (barrierOf s r.team j).arrive 0 ∧ t.work.releases = left) := by
  intro left
  have hat : releaseAt s n = doRelease { s with work := { s.work with releases := left } } r := by
    unfold releaseAt
    rw [hr]
    rfl
  have hexec : exec (.effectRelease n) s = .next (doRelease { s with work := { s.work with releases := left } } r) := by
    rw [← hat]
    exact congrArg Host.Outcome.next (if_pos hdue)
  refine ⟨fun he x hx => ⟨_, hexec, ?_⟩, fun l he => ⟨_, hexec, ?_⟩, hexec, fun j m he hj hm => ?_⟩
  · unfold doRelease
    rw [he]
    exact ⟨grid?_onGrid_self (s := { s with work := { s.work with releases := left } }) hx _, rfl⟩
  · unfold doRelease
    rw [he]
    refine ⟨?_, rfl⟩
    show (NMap.get? (NMap.set s.work.dlq r.die _) r.die).getD [] = _
    rw [NMap.get?_set_self]
    rfl
  · have harrival : exec (.barrierArrivalCount n) s = .next (doRelease { s with work := { s.work with releases := left } } r) := by
      rw [← hat]
      show execBarrierArrivalCount n s = _
      unfold execBarrierArrivalCount
      rw [hr, Option.map_some, he]
      exact congrArg Host.Outcome.next (if_pos (by rw [hdue]; rfl))
    refine ⟨_, harrival, ?_⟩
    unfold doRelease
    rw [he]
    obtain ⟨hleft, hbarrier⟩ := countArrival_barrier (s := { s with work := { s.work with releases := left } }) (k := r.group) hm hj
    exact ⟨hbarrier, hleft⟩

/-- A tray whose timer is over issues a group of its oldest records (R354, R427). -/
theorem trayTimerExpiry_spec {s : State} {n : Nat} {x : Tray} {hdr : List W64} (hx : s.work.trays[n]? = some x)
    (hdue : trayDue s n = true) (hf : findTray s x.ctx x.entry = some hdr) (hr : trayRefused hdr = false)
    (hv : ∀ r ∈ x.recs.take 32, ∀ v ∈ r.vals, v.1 < trayRegs hdr) :
    ∃ t, exec (.trayTimerExpiry n) s = .next t ∧ t.work.trayGroups = s.work.trayGroups ++
      [⟨x.ctx, x.die, hdr, x.recs.take 32, s.work.nextGrid⟩] := by
  have hfits : ¬ (trayRefused hdr || (x.recs.take 32).any fun r => r.vals.any fun v => decide (trayRegs hdr ≤ v.1)) = true := by
    rw [hr, Bool.false_or, List.any_eq_true]
    rintro ⟨r, hmem, hany⟩
    obtain ⟨v, hvmem, hle⟩ := List.any_eq_true.1 hany
    exact absurd (hv r hmem v hvmem) (Nat.not_lt.2 (of_decide_eq_true hle))
  have hexec : exec (.trayTimerExpiry n) s = .next (trayIssue s x) := by
    show execTrayTimerExpiry n s = _
    unfold execTrayTimerExpiry
    rw [hx]
    exact congrArg Host.Outcome.next (if_pos hdue)
  refine ⟨_, hexec, ?_⟩
  unfold trayIssue
  dsimp only
  split
  · next hnone => exact nomatch hf.symm.trans hnone
  · next h hsome =>
    obtain rfl : hdr = h := Option.some.inj (hf.symm.trans hsome)
    rw [if_neg hfits]
    rfl

/-! ## Waits -/

/-- A split whose next attempt reads again what is due (R320). -/
def Split.readsAgain (now : Nat) (sp : Split) : Split :=
  { sp with reread := 0, watch := sp.watch.map fun e => if e.2.1 ≤ now then (e.1, 0, e.2.2) else e }

/-- A split in WAITM reads again what is due (R320). -/
theorem waitmReread_spec {s : State} {u : UnitRef} {k : Nat} {g : Group} (hg : s.group? k = some g) (hu : unitKey u = k)
    (hdue : rereadDue s u = true) :
    ∃ t h, (exec (.waitmReread u) s = .next t ∧ t.group? k = some h) ∧ h.regs = g.regs ∧ t.ms = s.ms ∧
      ∀ y ∈ h.splits, y.id = u.split → y.reread = 0 ∧ ∀ e ∈ y.watch, e.2.1 = 0 ∨ s.clock.dtime < e.2.1 := by
  have hexec : exec (.waitmReread u) s = .next (s.setGroup k
      { g with splits := g.splits.map fun sp => if sp.id = u.split then sp.readsAgain s.clock.dtime else sp }) := by
    show execWaitmReread u s = _
    unfold execWaitmReread
    rw [if_pos hdue, hu, onGroup_of_group? hg]
    rfl
  refine ⟨_, _, ⟨hexec, State.group?_setGroup ..⟩, rfl, rfl, fun y hy hid => ?_⟩
  obtain ⟨sp, -, rfl⟩ := List.mem_map.1 hy
  by_cases hsp : sp.id = u.split
  · rw [if_pos hsp]
    refine ⟨rfl, fun e he => ?_⟩
    obtain ⟨w, -, rfl⟩ := List.mem_map.1 he
    split
    · exact .inl rfl
    · next hlate => exact .inr (Nat.lt_of_not_le hlate)
  · rw [if_neg hsp] at hid
    exact absurd hid hsp

/-- A watched wait traps, or its timer starts again (R367). -/
theorem exec_watchedWaitExpiry {s : State} {u : UnitRef} {k : Nat} {g : Group} {sp : Split} (hg : s.group? k = some g) (hu : unitKey u = k)
    (hdue : watchDue s u = true) (hsp : g.split? u.split = some sp) :
    exec (.watchedWaitExpiry u) s = .next (
      if (((groupsOfGrid s g.info.grid).all fun e => match e.2.waitingSince with
          | some t => decide (s.starve ≤ s.clock.cycle - t)
          | none => false) && ((s.grid? g.info.grid).map fun x => decide (x.next < x.total)).getD false) || (pendingArm s g sp).isSome then
        postTrap s k sp.id true (Trap.word causeIllwait 0x12) sp.pc sp.pc false
      else s.setGroup k (g.setSplit { sp with waitStart := some s.clock.cycle })) := by
  show execWatchedWaitExpiry u s = _
  unfold execWatchedWaitExpiry
  rw [hu, hg, hdue]
  dsimp only
  rw [hsp] <;> rfl

/-- Settles O49: each event's own lemma, in the order of the claim. -/
theorem groupEventsComplete : Obligations.GroupEventsComplete := by
  intro s k g hg
  refine ⟨issueCycle_spec s, fun u p n hu ht hp hon hno _ hen => ?_, fun hr => gwctReturn_spec hg hr,
    fun u sp p su e hu hsp hh hf => fenceComplete_spec hg hu hsp hh hf, fun f r hf hr => ?_,
    fun r hdue hr hafter ha he hn _ => regionCommit_spec hg hdue hr hafter ha he hn,
    fun v x r hv hx hr hready => seamWaitTimeout_spec hv hx hr hready, fun n r hr hdue => effectRelease_spec hr hdue,
    fun n x hdr hx hdue hf hr hv => trayTimerExpiry_spec hx hdue hf hr hv, fun u hu hdue => waitmReread_spec hg hu hdue,
    fun u sp hu hdue hsp => ?_, starvationLimit_spec s⟩
  · obtain ⟨t, h, hexec, hgroup, hdel, hms⟩ := resultDelivery_spec hg hu ht hp hon hno hen
    exact ⟨t, h, ⟨hexec, hgroup⟩, hdel, hms⟩
  · obtain ⟨hfresh, hstale⟩ := fenceSValidation_spec hg hf hr
    exact ⟨hfresh, fun h _ _ => hstale h⟩
  · have hexec := exec_watchedWaitExpiry hg hu hdue hsp
    have hid : sp.id = u.split := by simpa using List.find?_some hsp
    refine ⟨fun hstuck harm => ?_, fun hcause hp ht => ?_⟩
    · have hput : (g.setSplit { sp with waitStart := some s.clock.cycle }).split? sp.id = some { sp with waitStart := some s.clock.cycle } :=
        split?_setSplit (sp := { sp with waitStart := some s.clock.cycle }) (Option.isSome_iff_exists.2 ⟨sp, hid ▸ hsp⟩)
      generalize hy : ({ sp with waitStart := some s.clock.cycle } : Split) = y at hput hexec
      rw [hid] at hput
      refine ⟨_, _, y, ⟨hexec.trans (congrArg Host.Outcome.next (if_neg ?_)), State.group?_setGroup ..⟩, hput, hy ▸ rfl, hy ▸ rfl, rfl⟩
      rw [harm, Option.isSome_none, Bool.or_false]
      exact ne_true_of_eq_false hstuck
    · exact (hexec.trans (congrArg Host.Outcome.next (if_pos ((Bool.or_eq_true ..).mpr hcause)))).trans
        (congrArg Host.Outcome.next (hu.symm ▸ postTrap_of_quiet hg hp ht ..))

end Sys2Proof.Machine
end

section
/-! The reservation tables of the matrix engines (R264-R273, R430): which entries a step keeps, and what a delivery does. -/

namespace Sys2Proof.Machine

/-! ## Tables -/

theorem matTable_setTable (s : State) (cl : Nat) (l : List MatOp) : matTable (setTable s cl l) cl = l := by
  unfold matTable setTable
  rw [State.onEng_eng, NMap.get?_set_self]
  rfl

theorem matTable_of_eng {s t : State} (h : t.eng = s.eng) (cl : Nat) : matTable t cl = matTable s cl := by
  unfold matTable
  rw [h]

theorem matTable_onOp {o : MatOp} {cl : Nat} (h : o.cluster = cl) (s : State) (f : MatOp → MatOp) :
    matTable (onOp s o f) cl = (matTable s cl).map fun x => if x.id = o.id then f x else x := by
  subst h
  exact matTable_setTable ..

theorem matTable_dropOp {o : MatOp} {cl : Nat} (h : o.cluster = cl) (s : State) :
    matTable (dropOp s o) cl = (matTable s cl).filter fun x => x.id != o.id := by
  subst h
  exact matTable_setTable ..

/-! ## The arbiter -/

/-- An entry with the note of when it became eligible (R430). -/
def MatOp.noted (ids : List Nat) (now : Nat) (o : MatOp) : MatOp :=
  if ids.contains o.id && o.eligible.isNone then { o with eligible := some now } else o

theorem matTable_markEligible (s : State) (cl : Nat) : matTable (markEligible s cl) cl =
    (matTable s cl).map (MatOp.noted ((eligibleOps s cl).map MatOp.id) s.clock.cycle) := matTable_setTable ..

theorem mem_of_mem_eligibleOps {s : State} {cl : Nat} {x : MatOp} (h : x ∈ eligibleOps s cl) : x ∈ matTable s cl :=
  (List.mem_filter.1 (List.mem_filter.1 h).1).1

/-- An eligible entry keeps the cycle at which it became so, or takes this one. -/
theorem markEligible_spec {s : State} {cl : Nat} {x : MatOp} (h : x ∈ eligibleOps s cl) :
    ∃ y ∈ matTable (markEligible s cl) cl, y.id = x.id ∧ y.eligible = x.eligible.orElse fun _ => some s.clock.cycle := by
  have hid : ((eligibleOps s cl).map MatOp.id).contains x.id = true :=
    List.contains_iff_mem.2 (List.mem_map_of_mem h)
  refine ⟨x.noted ((eligibleOps s cl).map MatOp.id) s.clock.cycle, ?_, ?_⟩
  · rw [matTable_markEligible]
    exact List.mem_map_of_mem (mem_of_mem_eligibleOps h)
  · unfold MatOp.noted
    rw [hid, Bool.true_and]
    cases he : x.eligible with
    | none => exact ⟨rfl, rfl⟩
    | some n => exact ⟨rfl, he⟩

/-- The head of the arbiter's order is an entry of the table. -/
theorem mem_of_nextGrant {s : State} {cl : Nat} {o : MatOp} (h : nextGrant s cl = some o) : o ∈ matTable s cl := by
  have hhead (l : List MatOp) (a : MatOp) : l.foldl (fun a b => if grantBefore s.clock.cycle b a then b else a) a ∈ a :: l := by
    induction l generalizing a with
    | nil => exact List.mem_singleton_self a
    | cons b l ih =>
      have hin := ih (if grantBefore s.clock.cycle b a then b else a)
      obtain hfirst | hin := List.mem_cons.1 hin
      · rw [List.foldl_cons, hfirst]
        split
        · exact List.mem_cons_of_mem _ List.mem_cons_self
        · exact List.mem_cons_self
      · exact List.mem_cons_of_mem _ (List.mem_cons_of_mem _ hin)
  unfold nextGrant at h
  dsimp only at h
  split at h
  · exact nomatch h
  · next a r hlist =>
    have hmem : r.foldl (fun a b => if grantBefore s.clock.cycle b a then b else a) a ∈ eligibleOps s cl := hlist ▸ hhead r a
    generalize r.foldl (fun a b => if grantBefore s.clock.cycle b a then b else a) a = head at h hmem
    have hsome : some head = some o := by
      split at h
      · split at h
        · exact h
        · exact nomatch h
      · split at h
        · exact nomatch h
        · split at h
          · exact h
          · exact nomatch h
    exact Option.some.inj hsome ▸ mem_of_mem_eligibleOps hmem

/-- A grant marks its operation, and leaves the others (R430). -/
theorem enginePassGrant_spec {s : State} {cl : Nat} {o : MatOp} (h : nextGrant (markEligible s cl) cl = some o) (hc : o.cluster = cl) :
    ∃ t, exec (.enginePassGrant cl) s = .next t ∧ (∃ x ∈ matTable t cl, x.id = o.id) ∧
      (∀ x ∈ matTable t cl, x.id = o.id → x.granted = some s.clock.cycle) ∧
      ∀ x ∈ matTable t cl, x.id ≠ o.id → x ∈ matTable (markEligible s cl) cl := by
  have hexec : exec (.enginePassGrant cl) s = .next (onOp (markEligible s cl) o fun x => { x with granted := some s.clock.cycle }) := by
    show execEnginePassGrant cl s = _
    unfold execEnginePassGrant
    dsimp only
    rw [h]
    rfl
  refine ⟨_, hexec, ?_⟩
  rw [matTable_onOp hc]
  refine ⟨⟨_, List.mem_map_of_mem (mem_of_nextGrant h), by rw [if_pos rfl]⟩, fun x hx hid => ?_, fun x hx hid => ?_⟩ <;>
    obtain ⟨y, hy, rfl⟩ := List.mem_map.1 hx <;> by_cases hyo : y.id = o.id
  · rw [if_pos hyo]
  · rw [if_neg hyo] at hid
    exact absurd hid hyo
  · rw [if_pos hyo] at hid
    exact absurd hyo hid
  · rw [if_neg hyo]
    exact hy

/-! ## Deliveries -/

/-- What an operation computes counts poisoned operands for its grids at most (R264, R299). -/
theorem result_state (o : MatOp) (s : State) : ∃ gs, (o.result s).s = { s with work := { s.work with grids := gs } } := by
  unfold MatOp.result
  dsimp only
  split
  case h_7 =>
    split
    · exact ⟨_, rfl⟩
    · split
      · exact ⟨_, rfl⟩
      · split
        · split
          · next g _ => exact countSubst_grids s g 1
          · exact ⟨_, rfl⟩
        · exact ⟨_, rfl⟩
  all_goals exact ⟨_, rfl⟩

/-- A result that traps nothing reaches its group, and its entry leaves the table (R264). -/
theorem deliverOp_spec {s : State} {cl : Nat} {o : MatOp} {g : Group} {p : Pending} (hc : o.cluster = cl) (hg : s.group? o.group = some g)
    (hw : waitsEngine g o (o.result s) p) :
    ∃ h, (deliverOp o (o.result s)).group? o.group = some h ∧ Delivered g h p (o.result s).regs (o.result s).flags ∧
      ∀ x ∈ matTable (deliverOp o (o.result s)) cl, x.id ≠ o.id := by
  obtain ⟨htraps, hp, hno, hen⟩ := hw
  obtain ⟨gs, hstate⟩ := result_state o s
  generalize o.result s = x at hno hen hstate ⊢
  have hg' : (dropOp x.s o).group? o.group = some g := by
    rw [hstate]
    exact hg
  have htable : ∀ y ∈ matTable (dropOp x.s o) cl, y.id ≠ o.id := fun y hy => by
    rw [matTable_dropOp hc] at hy
    exact bne_iff_ne.1 (List.mem_filter.1 hy).2
  generalize hq : ({ p with vals := x.regs, flags := x.flags, flagLanes := Mask.all, trap := x.trap, on := .cycle (dropOp x.s o).clock.cycle
                            pred := p.pred.map fun y => (y.1, x.pred) } : Pending) = q
  generalize hh : ({ g with pend := g.pend.map fun y => if y = p then q else y } : Group) = h
  have heq : deliverOp o x = deliverPending ((dropOp x.s o).setGroup o.group h) o.group q := by
    unfold deliverOp
    dsimp only
    rw [hg']
    dsimp only
    rw [hp]
    dsimp only
    rw [hq, hh]
  have hmem : q ∈ h.pend := by
    rw [← hh]
    exact List.mem_map.2 ⟨p, List.mem_of_find?_eq_some hp, if_pos rfl⟩
  obtain ⟨r, hgroup, ⟨hsplits, hpend, hflags, hregs, hothers⟩, -, heng⟩ := deliverPending_spec
    (State.group?_setGroup (dropOp x.s o) o.group h) hmem (by rw [← hh]; exact htraps) (by rw [← hq]; exact hno)
    (by rw [← hq, ← hh]; exact hen)
  rw [heq]
  subst hh hq
  refine ⟨r, hgroup, ⟨hsplits, ?_, hflags, hregs, hothers⟩, ?_⟩
  · rw [hpend]
    exact List.length_map ..
  · rw [matTable_of_eng heng]
    exact htable

/-- An operation whose latency is over delivers, or runs once more where its check failed outside regions (R264, R266). -/
theorem matrixDelivery_spec {s : State} {cl n : Nat} {o : MatOp} {g : Group} {p : Pending}
    (ho : (matTable s cl).find? (fun o => o.id == n && o.native) = some o) (hc : o.cluster = cl) (hg : s.group? o.group = some g) :
    (o.mmaj = none → matDue s o = true → o.inject = false → waitsEngine g o (o.result s) p →
      ∃ t h, exec (.matrixDelivery cl n) s = .next t ∧ t.group? o.group = some h ∧
        Delivered g h p (o.result s).regs (o.result s).flags ∧ ∀ x ∈ matTable t cl, x.id ≠ o.id) ∧
    (o.mmaj = none → matDue s o = true → o.inject = true → g.region = none → exec (.matrixDelivery cl n) s =
      .next (onOp s o fun x => { x with inject := false, granted := some s.clock.cycle })) ∧
    (∀ m os, o.mmaj = some m → jointAll s o.core g.info.grid g.info.ix m = some os →
      (∀ x ∈ os, matDue s x = true ∧ x.issued + 48 ≤ s.clock.cycle ∧ ∃ y, s.group? x.group = some y ∧ m < y.mmaj) →
      exec (.matrixDelivery cl n) s = .next (deliverJoint s os)) := by
  have hexec : exec (.matrixDelivery cl n) s = execMatrixDelivery cl n s := rfl
  have hinRegion : ((s.group? o.group).map Group.inRegion).getD false = g.region.isSome := by rw [hg]; rfl
  unfold execMatrixDelivery at hexec
  rw [ho] at hexec
  dsimp only at hexec
  refine ⟨fun hm hdue hinj hw => ?_, fun hm hdue hinj hr => ?_, fun m os hm hall hready => ?_⟩
  · rw [hm] at hexec
    dsimp only at hexec
    rw [if_pos hdue, deliverChecked, hinj] at hexec
    obtain ⟨h, hgroup, hdel, htable⟩ := deliverOp_spec hc hg hw
    exact ⟨_, h, hexec, hgroup, hdel, htable⟩
  · rw [hm] at hexec
    dsimp only at hexec
    rw [if_pos hdue, deliverChecked, hinRegion, hinj, hr] at hexec
    exact hexec
  · have hissued : os.all (fun x => !x.unissued s) = true := List.all_eq_true.2 fun x hx => by
      obtain ⟨-, -, y, hy, hlt⟩ := hready x hx
      unfold MatOp.unissued
      rw [hy]
      cases hxm : x.mmaj with
      | none => rfl
      | some k =>
        have hkm : k = m := by
          unfold jointAll at hall
          dsimp only at hall
          split at hall
          · obtain rfl := Option.some.inj hall
            obtain ⟨i, -, hi⟩ := List.mem_filterMap.1 hx
            have hfound := List.find?_some hi
            rw [hxm, Bool.and_eq_true] at hfound
            simpa using hfound.1
          · exact nomatch hall
        simp [hkm, hlt]
    have hdue : os.all (fun x => matDue s x && decide (x.issued + 48 ≤ s.clock.cycle)) = true := List.all_eq_true.2 fun x hx => by
      obtain ⟨hxdue, hlate, -⟩ := hready x hx
      rw [hxdue, decide_eq_true hlate]
      rfl
    rw [hm] at hexec
    dsimp only at hexec
    rw [hg, Option.bind_some, hall] at hexec
    dsimp only at hexec
    rw [hissued, hdue] at hexec
    exact hexec

/-- A joint product whose only partner waited too long takes ILLWAIT, unless the others are away (R273). -/
theorem mmajGatherTimeout_spec {s : State} {cl n m : Nat} {o : MatOp} {g : Group} {sp : Split}
    (ho : (matTable s cl).find? (fun o => o.id == n) = some o) (hm : o.mmaj = some m) (hg : s.group? o.group = some g)
    (hos : (List.range 4).filterMap (fun i => jointEntry s (quadOf o.core + i) g.info.grid g.info.ix m) = [o])
    (hsp : g.split? o.split = some sp) (hh : sp.hold = some (.wait .mmaj)) (hlate : o.issued + s.starve ≤ s.clock.cycle) :
    (partnerAway s g.info.grid g.info.ix = true → exec (.mmajGatherTimeout cl n) s = .next s) ∧
    (partnerAway s g.info.grid g.info.ix = false → g.pend = [] → g.traps = [] → exec (.mmajGatherTimeout cl n) s =
      .next (takeTrap (dropOp s o) o.group sp.id (Trap.word 0x0C 0x71) sp.pc sp.pc false)) := by
  have hwaits : gathering s o = true := by
    unfold gathering
    rw [hg, Option.bind_some, hsp]
    exact beq_iff_eq.2 hh
  have hexec : exec (.mmajGatherTimeout cl n) s = execMmajGatherTimeout cl n s := rfl
  unfold execMmajGatherTimeout at hexec
  rw [ho] at hexec
  dsimp only at hexec
  rw [hm, hg] at hexec
  dsimp only at hexec
  rw [hos] at hexec
  refine ⟨fun haway => ?_, fun hhere hp ht => ?_⟩
  · rw [haway, Bool.not_true, Bool.and_false] at hexec
    exact hexec
  · have hg' : (dropOp s o).group? o.group = some g := hg
    rw [hhere, List.any_cons, hwaits, decide_eq_true hlate, List.filter_cons_of_pos hwaits, List.filter_nil, List.foldl_cons,
      List.foldl_nil, hg, Option.bind_some, hsp] at hexec
    dsimp only at hexec
    rw [postTrap_of_quiet hg' hp ht] at hexec
    exact hexec


/-- A word that the control core has performed comes next of its group's (R156). -/
theorem fmtemuComplete_spec {s : State} {k : Nat} {g : Group} {e : Emulation} (hg : s.group? k = some g) (he : g.emu = some e) (hdue : e.due ≠ 0)
    (hnow : e.due ≤ s.clock.cycle) : exec (.fmtemuComplete k) s =
      .next { s.setGroup k { g with emu := some { e with due := 0 } } with issuing := ⟨coreOf k, slotOf k, e.split⟩ :: s.issuing } := by
  show execFmtemuComplete k s = _
  unfold execFmtemuComplete
  rw [hg]
  dsimp only
  rw [he]
  dsimp only
  rw [if_neg (by omega)]
  rfl

/-! ## What the end of an engine's operation leaves unchanged -/

/-- Memory, groups, copies and begun collectives stand as before: teams, saved entries and QFENCE marks may have changed. -/
structure EnginesKept (s t : State) : Prop where
  ms : t.ms = s.ms
  groups : t.work.groups = s.work.groups
  copies : t.eng.copies = s.eng.copies
  colls : t.eng.colls = s.eng.colls

theorem EnginesKept.refl (s : State) : EnginesKept s s := ⟨rfl, rfl, rfl, rfl⟩

theorem EnginesKept.trans {s t u : State} (h : EnginesKept s t) (h' : EnginesKept t u) : EnginesKept s u :=
  ⟨h'.ms.trans h.ms, h'.groups.trans h.groups, h'.copies.trans h.copies, h'.colls.trans h.colls⟩

theorem EnginesKept.group? {s t : State} (h : EnginesKept s t) (k : Nat) : t.group? k = s.group? k := by
  unfold State.group?
  rw [h.groups]

/-- Settling QFENCE marks changes the queues alone (R117). -/
theorem settleFences_eq (s : State) (core : Nat) : ∃ q, settleFences s core = s.onEng fun e => { e with queues := q } := by
  have hfold (l : List Nat) (s : State) :
      ∃ q, l.foldl (fun s n => if fenceReady s core n then dropFence s core n else s) s = s.onEng fun e => { e with queues := q } := by
    induction l generalizing s with
    | nil => exact ⟨s.eng.queues, rfl⟩
    | cons n l ih =>
      obtain ⟨q, hq⟩ := ih (if fenceReady s core n then dropFence s core n else s)
      rw [List.foldl_cons, hq]
      split
      · exact ⟨q, rfl⟩
      · exact ⟨q, rfl⟩
  exact hfold _ s

theorem enginesKept_settleFences (s : State) (core : Nat) : EnginesKept s (settleFences s core) := by
  obtain ⟨q, hq⟩ := settleFences_eq s core
  rw [hq]
  exact ⟨rfl, rfl, rfl, rfl⟩

theorem enginesKept_onTeam (s : State) (k : Nat) (f : Team → Team) : EnginesKept s (s.onTeam k f) := by
  unfold State.onTeam
  split <;> exact ⟨rfl, rfl, rfl, rfl⟩

theorem enginesKept_endTeam (s : State) (team : Nat) : EnginesKept s (endTeam s team) := by
  unfold endTeam
  split
  · split <;> exact ⟨rfl, rfl, rfl, rfl⟩
  · exact EnginesKept.refl s

theorem enginesKept_markBusy (s : State) (c : CopyCmd) (up : Bool) : EnginesKept s (markBusy s c up) := by
  unfold markBusy
  split
  · exact enginesKept_onTeam ..
  · exact EnginesKept.refl s

theorem enginesKept_arriveAt (s : State) (team k : Nat) (st : BitVec 16) : EnginesKept s (arriveAt s team k st) :=
  enginesKept_onTeam ..

/-! ## Tile fetches -/

/-- An MMAT that has its tile keeps it in its entry (R271). -/
theorem gotTile_spec {s : State} {cl : Nat} {o : MatOp} {tile : TileUse} (ho : o ∈ matTable s cl) (hc : o.cluster = cl)
    (ht : o.tile = some tile) (bytes : List Byte) (pois : List Nat) (st : BitVec 16) (far : Nat) :
    ∃ y z, y ∈ matTable (gotTile s o tile bytes pois st far) cl ∧ y.id = o.id ∧ y.tile = some z ∧
      z.got = some (bytes, pois, st, far) := by
  have heng : (gotTile s o tile bytes pois st far).eng =
      (onOp s o fun x => { x with tile := x.tile.map fun u => { u with got := some (bytes, pois, st, far) } }).eng := by
    unfold gotTile
    dsimp only
    split
    · rfl
    · exact State.onGroup_eng ..
  rw [matTable_of_eng heng, matTable_onOp hc]
  refine ⟨_, { tile with got := some (bytes, pois, st, far) }, List.mem_map_of_mem ho, ?_⟩
  rw [if_pos rfl]
  exact ⟨rfl, by rw [ht]; rfl, rfl⟩

/-- The next MMAT of a core finds its tile in the operand cache, or its fetch moves on and, at its end, brings it (R270, R271). -/
theorem operandFetchComplete_spec {s : State} {cl n : Nat} {o : MatOp} {tile : TileUse}
    (ho : (matTable s cl).find? (fun o => o.id == n) = some o) (hc : o.cluster = cl) (ht : o.tile = some tile) (hgot : tile.got = none)
    (hturn : fetchTurn s o = true) :
    let s₁ := settleFences s o.core
    let found (i : Instr) (x : List Byte × List Nat × BitVec 16 × Nat) : Prop :=
      ∃ t y z, exec i s = .next t ∧ y ∈ matTable t cl ∧ y.id = n ∧ y.tile = some z ∧ z.got = some x
    let cached := s.eng.oc.find? fun e =>
      e.cluster == cl && e.team == tile.team && e.handle == tile.handle && e.gen == tile.gen
    (∀ e, cached = some e → found (.operandFetchComplete cl n) (e.bytes, e.pois, e.status, 0)) ∧
    (cached = none → ∀ s₂ g y, ocRoom s₁ cl = some s₂ → s₂.group? o.group = some g →
      fetchRun s₂ cl (o.fetchCmd tile g.info.ctx g.grids g.inRegion) = some y →
      let x := y.1.advance y.2
      (x.1.ended = false → exec (.operandFetchComplete cl n) s = .next (setRun x.2 x.1)) ∧
      (x.1.ended = true → matTable x.2 cl = matTable s cl → found (.operandFetchComplete cl n)
        (if x.1.status.getLsbD 0 then ([], [], x.1.status, x.1.far) else (x.1.bytes, x.1.pois, x.1.status, 0)))) := by
  have hmem : o ∈ matTable s cl := List.mem_of_find?_eq_some ho
  have hid : o.id = n := beq_iff_eq.1 (List.find?_some (p := fun o : MatOp => o.id == n) ho)
  have hexec : exec (.operandFetchComplete cl n) s = execOperandFetchComplete cl n s := rfl
  obtain ⟨q, hq⟩ := settleFences_eq s o.core
  have hoc : (settleFences s o.core).eng.oc = s.eng.oc := by rw [hq]; rfl
  have htable : matTable (settleFences s o.core) cl = matTable s cl := by rw [hq]; rfl
  unfold execOperandFetchComplete at hexec
  rw [ho] at hexec
  dsimp only at hexec
  rw [ht] at hexec
  dsimp only at hexec
  rw [hgot, hturn, if_neg (by decide), hoc] at hexec
  intro s₁ found cached
  -- An entry that holds its tile serves as the witness, whatever became of the operand cache and the copies.
  have hfound {t : State} {b : List Byte} {p : List Nat} {st : BitVec 16} {far : Nat}
      (hnext : exec (.operandFetchComplete cl n) s = .next (gotTile t o tile b p st far)) (htab : matTable t cl = matTable s cl) :
      found (.operandFetchComplete cl n) (b, p, st, far) := by
    obtain ⟨y, z, hy, hyid, hyt, hz⟩ := gotTile_spec (s := t) (htab ▸ hmem) hc ht b p st far
    exact ⟨_, y, z, hnext, hy, hyid.trans hid, hyt, hz⟩
  refine ⟨fun e he => ?_, fun hnone s₂ g y hroom hg hrun => ?_⟩
  · rw [show s.eng.oc.find? _ = some e from he] at hexec
    exact hfound hexec htable
  · rw [show s.eng.oc.find? _ = none from hnone] at hexec
    dsimp only at hexec
    rw [hroom] at hexec
    dsimp only at hexec
    rw [hg] at hexec
    dsimp only [Option.map_some, Option.getD_some] at hexec
    rw [hrun] at hexec
    dsimp only at hexec
    intro x
    refine ⟨fun hopen => ?_, fun hend htab => ?_⟩
    · rw [show (y.1.advance y.2).1.ended = false from hopen] at hexec
      exact hexec
    · rw [show (y.1.advance y.2).1.ended = true from hend, if_neg (by decide)] at hexec
      by_cases herr : x.1.status.getLsbD 0 = true
      · rw [if_pos herr] at hexec ⊢
        exact hfound hexec htab
      · rw [if_neg herr] at hexec ⊢
        by_cases hstale : x.1.stale = true
        · rw [if_pos hstale] at hexec
          exact hfound hexec htab
        · rw [if_neg hstale] at hexec
          exact hfound hexec htab

/-! ## Copies -/

/-- The command at a queue's head goes to an engine (R127). -/
theorem copyDispatch_spec {s : State} {q e : Nat} {c : CopyCmd} {rest : List (QueueItem CopyCmd)}
    (hq : ((settleFences s q).queues q).copy = .op c :: rest) (hbusy : copyBusy (settleFences s q) q = false)
    (hpick : pickEngine (settleFences s q) (queueDie (settleFences s q) q) = some e) :
    ∃ t, exec (.copyDispatch q) s = .next t ∧ (t.queues q).copy = rest ∧
      t.eng.copies = (settleFences s q).eng.copies ++ [CopyRun.begin (settleFences s q) c e] ∧ t.ms = s.ms := by
  have hexec : exec (.copyDispatch q) s = execCopyDispatch q s := rfl
  unfold execCopyDispatch at hexec
  dsimp only at hexec
  rw [hq] at hexec
  dsimp only at hexec
  rw [hbusy, if_neg (by decide), hpick] at hexec
  refine ⟨_, hexec, ?_, rfl, (enginesKept_settleFences s q).ms⟩
  exact congrArg CoreQueues.copy (queues_setQueues (settleFences s q) q _)

/-- A group whose command completes outside an open region learns it in its batch (R137). -/
theorem batchDone_group? {s : State} {k : Nat} {g : Group} (hg : s.group? k = some g) (hr : g.region = none) (num : Nat) (st : BitVec 16)
    (inRegion : Bool) :
    batchDone s k num st inRegion = s.setGroup k { g with batches := g.batches.finish num st } := by
  unfold batchDone
  rw [onGroup_of_group? hg]
  dsimp only
  split
  · rfl
  · unfold Group.onRegion
    rw [hr]
    congr

theorem batchDone_rest (s : State) (k num : Nat) (st : BitVec 16) (inRegion : Bool) :
    (batchDone s k num st inRegion).ms = s.ms ∧ (batchDone s k num st inRegion).eng = s.eng :=
  ⟨State.onGroup_ms .., State.onGroup_eng ..⟩

/-- A complete copy leaves its engine, and its batch learns its status (R137-R139). -/
theorem finishCopy_spec {s : State} {r : CopyRun} (hheld : r.cmd.arriveHeld = false) :
    (finishCopy s r).ms = s.ms ∧ (∀ x ∈ (finishCopy s r).eng.copies, x.cmd.id ≠ r.cmd.id) ∧
      ∀ g, s.group? r.cmd.group = some g → g.region = none →
        (finishCopy s r).group? r.cmd.group = some { g with batches := g.batches.finish r.cmd.batch r.status } := by
  have hmark := enginesKept_markBusy s r.cmd false
  generalize hm : markBusy s r.cmd false = a at hmark
  obtain ⟨hms, heng⟩ := batchDone_rest a r.cmd.group r.cmd.batch r.status r.cmd.inRegion
  have hgroup (g : Group) (hg : s.group? r.cmd.group = some g) (hr : g.region = none) :
      (batchDone a r.cmd.group r.cmd.batch r.status r.cmd.inRegion).group? r.cmd.group =
        some { g with batches := g.batches.finish r.cmd.batch r.status } := by
    rw [batchDone_group? ((hmark.group? _).trans hg) hr]
    exact State.group?_setGroup ..
  generalize hb : batchDone a r.cmd.group r.cmd.batch r.status r.cmd.inRegion = b at hms heng hgroup
  have hlast : EnginesKept (b.onEng fun e => { e with copies := e.copies.filter fun x => x.cmd.id != r.cmd.id }) (finishCopy s r) := by
    unfold finishCopy
    rw [hm]
    dsimp only
    rw [hb, hheld, if_neg (by decide)]
    split
    · exact enginesKept_arriveAt ..
    · exact EnginesKept.refl _
  refine ⟨hlast.ms.trans (hms.trans hmark.ms), fun x hx => ?_, fun g hg hr => (hlast.group? _).trans (hgroup g hg hr)⟩
  rw [hlast.copies] at hx
  exact bne_iff_ne.1 (List.mem_filter.1 hx).2

/-- A copy takes its next step, and completes once its last write is older than DTIME (R125, R137). -/
theorem copyComplete_spec {s : State} {n : Nat} {r : CopyRun}
    (hr : s.eng.copies.find? (fun r => r.cmd.id == n && r.cmd.cache.isNone && !r.finished) = some r) :
    let m := r.advance s
    let over' := m.1.ended && (m.1.gwct == 0 || decide (m.1.gwct < m.2.clock.dtime))
    (over' = true → m.1.cmd.arriveHeld = false → ∃ t, exec (.copyComplete n) s = .next t ∧ t.ms = m.2.ms ∧
      (∀ x ∈ t.eng.copies, x.cmd.id ≠ m.1.cmd.id) ∧ ∀ g, m.2.group? m.1.cmd.group = some g → g.region = none →
        ∃ h, t.group? m.1.cmd.group = some h ∧ h.batches = g.batches.finish m.1.cmd.batch m.1.status) ∧
    (over' = false → exec (.copyComplete n) s = .next (setRun m.2 m.1)) := by
  have hexec : exec (.copyComplete n) s = execCopyComplete n s := rfl
  unfold execCopyComplete at hexec
  rw [hr] at hexec
  dsimp only at hexec
  intro m over'
  have hover : ((r.advance s).1.ended && ((r.advance s).1.gwct == 0 ||
      decide ((r.advance s).1.gwct < (setRun (r.advance s).2 (r.advance s).1).clock.dtime))) = over' := rfl
  rw [hover] at hexec
  refine ⟨fun ho hheld => ?_, fun ho => ?_⟩
  · rw [ho, if_pos rfl] at hexec
    obtain ⟨hms, hcopies, hbatch⟩ := finishCopy_spec (s := setRun m.2 m.1) hheld
    have hend := (enginesKept_settleFences (finishCopy (setRun m.2 m.1) m.1) m.1.cmd.core).trans (enginesKept_endTeam _ m.1.cmd.team)
    refine ⟨_, hexec, hend.ms.trans hms, fun x hx => hcopies x (hend.copies ▸ hx), fun g hg hregion => ?_⟩
    exact ⟨_, (hend.group? _).trans (hbatch g hg hregion), rfl⟩
  · rw [ho] at hexec
    exact hexec

/-! ## Collectives -/

/-- A change of a collective that keeps its number is what its number then finds. -/
theorem collOf_onColl {s : State} {n : Nat} {r : CollRun} (hr : collOf s n = some r) {f : CollRun → CollRun}
    (hkey : ∀ x, (f x).key = x.key) : collOf (onColl s n f) n = some (f r) := by
  have hrkey : r.key = n := beq_iff_eq.1 (List.find?_some (p := fun r : CollRun => r.key == n) hr)
  generalize hchange : (fun x : CollRun => if x.key = n then f x else x) = change
  have hchangeKey (x : CollRun) : (change x).key = x.key := by
    rw [← hchange]
    dsimp only
    split
    · exact hkey x
    · rfl
  have hqueue (l : List (QueueItem CollRun)) : queueOps (l.map fun x => match x with
      | .op a => .op (change a)
      | .fence m => .fence m) = (queueOps l).map change := by
    induction l with
    | nil => rfl
    | cons x l ih =>
      cases x with
      | op a => exact congrArg (change a :: ·) ih
      | fence m => exact ih
  have hall : (onColl s n f).eng.colls ++ ((onColl s n f).eng.queues.flatMap fun x => queueOps x.2.coll) =
      (s.eng.colls ++ s.eng.queues.flatMap fun x => queueOps x.2.coll).map change := by
    rw [List.map_append, List.map_flatMap]
    subst hchange
    refine congrArg₂ (· ++ ·) rfl ?_
    refine (List.flatMap_map ..).trans (congrArg (List.flatMap · _) (funext fun x => ?_))
    exact hqueue x.2.coll
  unfold collOf at hr ⊢
  rw [hall, List.find?_map, show (fun r : CollRun => r.key == n) ∘ change = fun r => r.key == n from
    funext fun x => congrArg (· == n) (hchangeKey x), hr, ← hchange]
  exact congrArg some (if_pos hrkey)

/-- A member of a collective is lost after its timeout, or heard, or lost by its refusal (R343, R480). -/
theorem collMembers_spec {s : State} {n : Nat} {r : CollRun} (hr : collOf s n = some r) (j : Nat) :
    (memberLate s n j = true → ∃ t, exec (.collMemberTimeout n j) s = .next t ∧
      collOf t n = some { r with lost := insNat r.lost j }) ∧
    (j ∈ r.missing → (∀ xs, ∃ t, exec (.memberContribution n j (.data xs)) s = .next t ∧
        collOf t n = some { r with got := r.got ++ [(j, xs)] }) ∧
      ∃ t, exec (.memberContribution n j .refused) s = .next t ∧ collOf t n = some { r with lost := insNat r.lost j }) := by
  refine ⟨fun hlate => ?_, fun hmissing => ?_⟩
  · have hexec : exec (.collMemberTimeout n j) s = .next (onColl s n fun r => { r with lost := insNat r.lost j }) := by
      show execCollMemberTimeout n j s = _
      unfold execCollMemberTimeout
      rw [hlate]
      rfl
    exact ⟨_, hexec, collOf_onColl hr fun _ => rfl⟩
  · have hcontains : r.missing.contains j = true := List.contains_iff_mem.2 hmissing
    refine ⟨fun xs => ?_, ?_⟩
    · have hexec : exec (.memberContribution n j (.data xs)) s = .next (onColl s n fun r => { r with got := r.got ++ [(j, xs)] }) := by
        show execMemberContribution n j (.data xs) s = _
        unfold execMemberContribution
        rw [hr]
        dsimp only
        rw [hcontains]
        rfl
      exact ⟨_, hexec, collOf_onColl hr fun _ => rfl⟩
    · have hexec : exec (.memberContribution n j .refused) s = .next (onColl s n fun r => { r with lost := insNat r.lost j }) := by
        show execMemberContribution n j .refused s = _
        unfold execMemberContribution
        rw [hr]
        dsimp only
        rw [hcontains]
        rfl
      exact ⟨_, hexec, collOf_onColl hr fun _ => rfl⟩

/-- A completion reaches its group's batch, and for the rest teams and saved entries alone (R345). -/
theorem enginesKept_collDone (s : State) (r : CollRun) (st : BitVec 16) :
    EnginesKept (batchDone s r.group r.batch st false) (collDone s r st) := by
  unfold collDone
  dsimp only
  split
  · exact ⟨rfl, rfl, rfl, rfl⟩
  · split
    · refine EnginesKept.trans ?_ (enginesKept_arriveAt ..)
      exact ⟨rfl, rfl, rfl, rfl⟩
    · exact ⟨rfl, rfl, rfl, rfl⟩

/-- The status that a complete collective reports: POIS besides its own bits, when a source was poisoned (R344). -/
def CollRun.report (r : CollRun) : BitVec 16 := if r.pois then r.status ||| 2 else r.status

/-- A complete collective leaves its engine, and its batch learns its status unless its context is torn down (R344, R345). -/
theorem finishColl_spec (s : State) (r : CollRun) :
    (finishColl s r).ms = s.ms ∧ (∀ y ∈ (finishColl s r).eng.colls, y.id ≠ r.id) ∧
      ∀ g, r.torn = false → s.group? r.group = some g → g.region = none →
        (finishColl s r).group? r.group = some { g with batches := g.batches.finish r.batch r.report } := by
  generalize ha : (s.onEng fun e => { e with colls := e.colls.filter fun x => x.id != r.id }) = a
  have hcolls : ∀ y ∈ a.eng.colls, y.id ≠ r.id := fun y hy => by
    rw [← ha] at hy
    exact bne_iff_ne.1 (List.mem_filter.1 hy).2
  have hams : a.ms = s.ms := by rw [← ha]; rfl
  have hgroup (k : Nat) : a.group? k = s.group? k := by rw [← ha]; rfl
  have heq : finishColl s r = settleFences (if r.torn then a else collDone a r r.report) r.core := by
    rw [← ha]
    rfl
  have hsettle := enginesKept_settleFences (if r.torn then a else collDone a r r.report) r.core
  rw [heq]
  by_cases htorn : r.torn = true
  · rw [if_pos htorn] at hsettle ⊢
    refine ⟨hsettle.ms.trans hams, fun y hy => hcolls y (hsettle.colls ▸ hy), fun g hno => ?_⟩
    exact nomatch hno.symm.trans htorn
  · rw [if_neg htorn] at hsettle ⊢
    obtain ⟨hms, heng⟩ := batchDone_rest a r.group r.batch r.report false
    have hdone := (enginesKept_collDone a r r.report).trans hsettle
    refine ⟨hdone.ms.trans (hms.trans hams), fun y hy => hcolls y ?_, fun g _ hg hregion => ?_⟩
    · rw [hdone.colls, heng] at hy
      exact hy
    · rw [hdone.group?, batchDone_group? ((hgroup _).trans hg) hregion]
      exact State.group?_setGroup ..

/-- A collective whose root is not lost moves on, and completes once its last write is older than DTIME (R342-R345). -/
theorem collComplete_spec {s : State} {n : Nat} {r : CollRun} (hr : collOf s n = some r) (hengine : r.engine.isSome = true)
    (hbegun : s.eng.colls.find? (fun x => x.key == n) = some r) (hroot : r.desc.op = 3 → r.desc.root ∉ r.lost) :
    let x := CollRun.run s.freeCtr r.fuel r s
    x.1 = true → (x.2.1.gwct = 0 ∨ x.2.1.gwct < x.2.2.clock.dtime) →
    ∃ t, exec (.collComplete n) s = .next t ∧ t.ms = x.2.2.ms ∧ (∀ y ∈ t.eng.colls, y.id ≠ x.2.1.id) ∧
      ∀ g, x.2.1.torn = false → x.2.2.group? x.2.1.group = some g → g.region = none →
        ∃ h, t.group? x.2.1.group = some h ∧ h.batches =
          g.batches.finish x.2.1.batch (if x.2.1.pois then x.2.1.status ||| 2 else x.2.1.status) := by
  have hnone : r.engine.isNone = false := by rw [← Option.not_isSome, hengine]; rfl
  have hheard : ¬ (decide (r.desc.op = 3) && r.lost.contains r.desc.root) = true := fun h => by
    obtain ⟨hop, hlost⟩ := Bool.and_eq_true_iff.1 h
    exact hroot (of_decide_eq_true hop) (List.contains_iff_mem.1 hlost)
  have hexec : exec (.collComplete n) s = execCollComplete n s := rfl
  unfold execCollComplete at hexec
  rw [hr] at hexec
  dsimp only at hexec
  rw [hnone, if_neg (by decide), hbegun] at hexec
  dsimp only at hexec
  rw [if_neg hheard] at hexec
  intro x hover hgwct
  change exec (.collComplete n) s = .next (if (x.1 && (x.2.1.gwct == 0 || decide (x.2.1.gwct < x.2.2.clock.dtime))) = true then
    { finishColl (onColl x.2.2 n fun _ => x.2.1) x.2.1 with freeCtr := s.freeCtr + 64 * x.2.1.desc.count }
    else onColl x.2.2 n fun _ => x.2.1) at hexec
  have hdue : (x.2.1.gwct == 0 || decide (x.2.1.gwct < x.2.2.clock.dtime)) = true := by
    rw [Bool.or_eq_true, beq_iff_eq, decide_eq_true_iff]
    exact hgwct
  rw [hover, hdue, if_pos (by decide)] at hexec
  obtain ⟨hms, hcolls, hbatch⟩ := finishColl_spec (onColl x.2.2 n fun _ => x.2.1) x.2.1
  exact ⟨_, hexec, hms, hcolls, fun g htorn hg hregion => ⟨_, hbatch g htorn hg hregion, rfl⟩⟩

/-! ## Path operations -/

/-- A mark that is dropped is no operation. -/
theorem queueOps_cut {α : Type} (l : List (QueueItem α)) (n : Nat) : queueOps (l.filter fun x => match x with
    | .fence m => m != n
    | .op _ => true) = queueOps l := by
  induction l with
  | nil => rfl
  | cons x l ih =>
    cases x with
    | op a => exact congrArg (a :: ·) ih
    | fence m =>
      rw [List.filter_cons]
      dsimp only
      split <;> exact ih

/-- Settling QFENCE marks keeps a core's path operations (R117). -/
theorem settleFences_pathOps (s : State) (core : Nat) :
    queueOps ((settleFences s core).queues core).path = queueOps (s.queues core).path := by
  unfold settleFences
  refine State.foldl_keeps (fun s => queueOps (s.queues core).path) _ (fun s n => ?_) s
  split
  · show queueOps ((dropFence s core n).queues core).path = _
    unfold dropFence
    rw [queues_setQueues]
    exact queueOps_cut _ n
  · rfl

/-- The operation at the head of a core's path queue takes effect on its group (R281, R284). -/
theorem pathOperation_spec {s : State} {core : Nat} {o : PathOp} {rest : List (QueueItem PathOp)} {g : Group}
    (hq : ((settleFences s core).queues core).path = .op o :: rest) (hg : s.group? o.group = some g) :
    ∃ t, exec (.pathOperation core) s = .next t ∧ t.group? o.group = some (o.kind.run s.clock.cycle g) ∧ t.ms = s.ms ∧
      queueOps (t.queues core).path = queueOps rest := by
  have hfirst := enginesKept_settleFences s core
  have hclock : (settleFences s core).clock = s.clock := by
    obtain ⟨q, hq⟩ := settleFences_eq s core
    rw [hq]
    rfl
  have hexec : exec (.pathOperation core) s = execPathOperation core s := rfl
  unfold execPathOperation at hexec
  dsimp only at hexec
  rw [hq] at hexec
  dsimp only at hexec
  generalize (settleFences s core).queues core = before at hexec
  generalize hb : ({ before with path := rest } : CoreQueues) = b at hexec
  rw [State.setQueues_clock, hclock,
    onGroup_of_group? (show ((settleFences s core).setQueues core b).group? o.group = some g from (hfirst.group? _).trans hg)] at hexec
  have hlast := enginesKept_settleFences
    (((settleFences s core).setQueues core b).setGroup o.group (o.kind.run s.clock.cycle g)) core
  refine ⟨_, hexec, ?_, hlast.ms.trans hfirst.ms, ?_⟩
  · rw [hlast.group?]
    exact State.group?_setGroup ..
  · rw [settleFences_pathOps]
    refine congrArg (fun q : CoreQueues => queueOps q.path) ((queues_setQueues (settleFences s core) core b).trans hb.symm)

/-- Settles O50: each event of the arbiter, the matrix engines, the copy engines, the collective engines and the path queue, by the
lemma about its execution. -/
theorem engineEventsComplete : Obligations.EngineEventsComplete := by
  unfold Obligations.EngineEventsComplete
  intro s
  refine ⟨fun cl => ⟨rfl, fun x hx => markEligible_spec hx, fun hnone => ?_, fun o ho hc => enginePassGrant_spec ho hc⟩,
    fun cl n o g p ho hc hg => matrixDelivery_spec ho hc hg,
    fun k g e hg he hdue hnow => fmtemuComplete_spec hg he hdue hnow,
    fun cl n o m g sp ho hm hg hos hsp hh hlate => mmajGatherTimeout_spec ho hm hg hos hsp hh hlate,
    fun cl n o tile ho hc ht hgot hturn => operandFetchComplete_spec ho hc ht hgot hturn,
    fun q c rest e hq hbusy hpick => copyDispatch_spec hq hbusy hpick,
    fun n r hr => copyComplete_spec hr,
    fun n r hr => ⟨fun j => collMembers_spec hr j, fun hengine hbegun hroot => collComplete_spec hr hengine hbegun hroot⟩,
    fun core o rest g hq hg => pathOperation_spec hq hg⟩
  show execEnginePassGrant cl s = _
  unfold execEnginePassGrant
  dsimp only
  rw [hnone]

end Sys2Proof.Machine
end

section
/-! Floating-point, packed and narrow words of the vector pipe (R168, R169, R239-R250, R258-R262): one lemma for the words that carry
the residue check, one for those that do not, and the word that each instruction is. -/

namespace Sys2Proof.Machine

/-! ## Flags and residues -/

/-- Reading every lane of a register built lane by lane, and building it again. -/
theorem ofFn_lane_ofFn (f : Nat → W64) : LaneReg.ofFn (fun l => (LaneReg.ofFn f).lane l) = LaneReg.ofFn f := rfl

/-- Popping operands and writing a result keep what the group's launch has fixed. -/
theorem info_pops_write (c : Cx) (d : Dst) (act : Mask) (x : LaneReg) :
    ((c.pops c.i.uses).write d act x).g.info = c.g.info := by
  obtain ⟨hpops, -⟩ := pops_spec c
  obtain ⟨-, -, -, helse, -⟩ := write_group (c.pops c.i.uses) d act x
  exact (congrArg Group.info helse).trans (congrArg Group.info hpops)

/-- Flags that FPEN does not enable are raised, and the word goes on without a trap (R168, R169). -/
theorem doneFlags_of_disabled {c : Cx} {act : Mask} {r : Nat → W64 × FFlags} (h : laneFlags act r &&& c.g.info.fpen = 0) :
    c.doneFlags (fun l => (r l).2) act = ({ c with g := c.g.raiseFlags (laneFlags act r) } : Cx).done := by
  unfold Cx.doneFlags
  exact if_pos h

/-- Where no injected mismatch is armed, a residue-checked word runs its body on the unit in hand (R239, R393). -/
theorem residueChecked_clear {c : Cx} (h : c.Clear) (kind index : Nat) (body : Cx → State) :
    c.residueChecked kind index body = body c := by
  obtain ⟨hresidue, -⟩ := inject_clear h
  simp only [Cx.residueChecked, Cx.residue, hresidue, Bool.false_eq_true, if_false, Bool.false_and]

/-! ## Words with one result and flags -/

section Words
variable {i : Instr} {s : State} {c : Cx} (hc : cx? i s = some c) (h : c.Clear) (g : Guard) (d : Dst)
include hc h

/-- What every such word does once it passes its checks: it pops its operands, writes, and raises the flags. -/
theorem writeFlags_wrote {act : Mask} {r : Nat → W64 × FFlags} (hfl : laneFlags act r &&& c.g.info.fpen = 0) :
    c.Wrote d act (fun l => (r l).1) (laneFlags act r)
      (((c.pops i.uses).write d act (LaneReg.ofFn fun l => (r l).1)).doneFlags (fun l => (r l).2) act) := by
  obtain ⟨-, -, -, hsplit, rfl, -⟩ := cx?_eq hc
  rw [doneFlags_of_disabled (by rwa [info_pops_write])]
  obtain ⟨hlast, houtside, hqueue, k, hk, helse, hwent, hpushed, hsys, hregs, hreg⟩ :=
    wrote_done c d act (LaneReg.ofFn fun l => (r l).1) (laneFlags act r) (by rw [hsplit]; rfl) h.team
  rw [ofFn_lane_ofFn] at hqueue
  refine ⟨hlast, houtside, hqueue, k, hk, helse, hwent, fun l hl n hn => ?_, hsys, hregs, fun n hn l hl => ?_⟩
  · rw [hpushed l hl n hn]
    dsimp only
    rw [lane_ofFn _ hl]
  · rw [hreg n hn l hl, lane_ofFn _ hl]

/-- A word without residue check. -/
theorem flagWord_completes (f : Cx → Mask → Nat → W64 × FFlags)
    (hfl : laneFlags (c.guard g) (f c (c.guard g)) &&& c.g.info.fpen = 0) :
    ∃ u, flagWord i g d s f = .next u ∧
      c.Wrote d (c.guard g) (fun l => (f c (c.guard g) l).1) (laneFlags (c.guard g) (f c (c.guard g))) u :=
  ⟨_, issue_clear hc h (fun _ hn => absurd hn List.not_mem_nil) rfl rfl rfl _, writeFlags_wrote hc h d hfl⟩

/-- A word that carries the residue check in .f64 (R239). -/
theorem fpWord_completes (w : FWidth) (f : Cx → Mask → Nat → FRes)
    (hfl : laneFlags (c.guard g) (fun l => floatWord (f c (c.guard g) l)) &&& c.g.info.fpen = 0) :
    ∃ u, fpWord i w g d s f = .next u ∧ c.Wrote d (c.guard g) (fun l => (floatWord (f c (c.guard g) l)).1)
      (laneFlags (c.guard g) fun l => floatWord (f c (c.guard g) l)) u := by
  refine ⟨_, issue_clear hc h (fun _ hn => absurd hn List.not_mem_nil) rfl rfl rfl _, ?_⟩
  dsimp only
  rw [residueChecked_clear h, ite_self]
  exact writeFlags_wrote hc h d hfl

end Words

/-- Execution takes the word for one without residue check (`flagWord`) or with it (`fpWord`), whose lanes and results on the unit
in hand are `act` and `r`. -/
inductive Cx.Runs (c : Cx) (i : Instr) (s : State) (d : Dst) (act : Mask) (r : Nat → W64 × FFlags) : Prop
  | flag (g : Guard) (f : Cx → Mask → Nat → W64 × FFlags) (run : exec i s = flagWord i g d s f) (lanes : c.guard g = act)
      (results : f c act = r)
  | checked (w : FWidth) (g : Guard) (f : Cx → Mask → Nat → FRes) (run : exec i s = fpWord i w g d s f) (lanes : c.guard g = act)
      (results : (fun l => floatWord (f c act l)) = r)

/-- Either kind of word completes where FPEN enables none of its flags. -/
theorem Cx.Runs.completes {c : Cx} {i : Instr} {s : State} {d : Dst} {act : Mask} {r : Nat → W64 × FFlags} (hr : c.Runs i s d act r)
    (hc : cx? i s = some c) (h : c.Clear) (hfl : laneFlags act r &&& c.g.info.fpen = 0) :
    ∃ u, exec i s = .next u ∧ c.Wrote d act (fun l => (r l).1) (laneFlags act r) u := by
  cases hr with
  | flag g f run lanes results =>
    subst lanes results
    rw [run]
    exact flagWord_completes hc h g d f hfl
  | checked w g f run lanes results =>
    subst lanes results
    rw [run]
    exact fpWord_completes hc h g d w f hfl

/-! ## The shared forms -/

section Forms
variable {c : Cx} {i : Instr} {s : State} {w : FWidth} {t : Tail} {g : Guard} {d : Dst} {a b : Src}

/-- Two operands and the residue check (R237, R240). -/
theorem fpWord2_runs (op : Fmt → Nat → Nat → FRes) (run : exec i s = fpWord2 i w t g d a b s op) :
    c.Runs i s d (c.guard g) fun l => floatWord (op (FWidth.fmt w) (c.floatA t w a l) (c.floatB t w a b l)) :=
  .checked w g _ (run.trans (by unfold fpWord2; rfl)) rfl rfl

/-- A fused word (R241). -/
theorem fmaWord_runs {q : Cq} {r : Rnd} (k : Fused) (run : exec i s = fmaWord i k t d a b q r w s) :
    c.Runs i s d c.act fun l => floatWord ((FWidth.fmt w).fma k r (c.floatA t w a l) (c.floatB t w a b l) (c.floatC w q l)) :=
  .checked w .always _ (run.trans (by unfold fmaWord; rfl)) rfl rfl

/-- Two operands without residue check (R242, R249). -/
theorem plainFp2_runs (op : Fmt → Nat → Nat → FRes) (run : exec i s = plainFp2 i w t g d a b s op) :
    c.Runs i s d (c.guard g) fun l => floatWord (op (FWidth.fmt w) (c.floatA t w a l) (c.floatB t w a b l)) :=
  .flag g _ (run.trans (by unfold plainFp2; rfl)) rfl rfl

/-- One operand without residue check (R246, R249). -/
theorem plainFp1_runs (op : Fmt → Nat → FRes) (run : exec i s = plainFp1 i w t g d a s op) :
    c.Runs i s d (c.guard g) fun l => floatWord (op (FWidth.fmt w) (c.floatA t w a l)) :=
  .flag g _ (run.trans (by unfold plainFp1; rfl)) rfl rfl

/-- Packed words that read no old contents (R250, R258). -/
theorem packedWord_runs {f : Fmt} {lit : LitTy} (op : Nat → Nat → Nat → FRes)
    (run : exec i s = packedWord i f lit t g d none a b s op) :
    c.Runs i s d (c.guard g) fun l => packedOp f ((c.opA t lit a).lane l) ((c.opB t lit a b).lane l) 0 op :=
  .flag g _ (run.trans (by unfold packedWord; rfl)) rfl rfl

/-- Packed words that add to their destination (R250, R258). -/
theorem packedWord_old_runs {f : Fmt} {lit : LitTy} {n : Nat} (op : Nat → Nat → Nat → FRes)
    (run : exec i s = packedWord i f lit t g d (some n) a b s op) :
    c.Runs i s d (c.guard g) fun l =>
      packedOp f ((c.opA t lit a).lane l) ((c.opB t lit a b).lane l) ((c.rd.reg n).lane l) op :=
  .flag g _ (run.trans (by unfold packedWord; rfl)) rfl rfl

/-- Dot products of four bytes (R260). -/
theorem dot4Word_runs {n : VReg} (signed : Bool) (run : exec i s = dot4Word i signed t g n a b s) :
    c.Runs i s (.v n) (c.guard g) fun l =>
      (w64 (pack 32 2 fun m => dot4Half signed ((c.rd.reg n.val).lane l) ((c.opA t .b8 a).lane l) ((c.opB t .b8 a b).lane l) m), 0) :=
  .flag g _ (run.trans (by unfold dot4Word; rfl)) rfl rfl

/-- Dot products of eight narrow values (R260). -/
theorem dot8Word_runs {n : VReg} (f : Fmt) (run : exec i s = dot8Word i f t g n a b s) :
    c.Runs i s (.v n) (c.guard g) fun l => floatWord (kGroup (opBits .f32 ((c.rd.reg n.val).lane l))
      ((List.range 8).map fun m => (f.value (element 8 ((c.opA t .b8 a).lane l) m), f.value (element 8 ((c.opB t .b8 a b).lane l) m)))) :=
  .flag g _ (run.trans (by unfold dot8Word; rfl)) rfl rfl

end Forms

/-! ## The instructions -/

/-- The floating-point words: sums, products and fused words carry the residue check, the others do not (R239-R249). -/
theorem floatResult_runs {c : Cx} {i : Instr} {s : State} {d : Dst} {act : Mask} {r : Nat → W64 × FFlags}
    (h : c.floatResult i = some (d, act, r)) : c.Runs i s d act r := by
  unfold Cx.floatResult at h
  split at h <;> cases h
  case h_1 r _ => exact fpWord2_runs (fun f x y => f.add r x y) rfl
  case h_2 r _ => exact fpWord2_runs (g := .always) (fun f x y => f.sub r x y) rfl
  case h_3 r _ => exact fpWord2_runs (fun f x y => f.mul r x y) rfl
  case h_4 => exact fmaWord_runs .pc rfl
  case h_5 => exact fmaWord_runs .pmc rfl
  case h_6 => exact fmaWord_runs .cmp rfl
  case h_7 => exact plainFp2_runs (fun f x y => f.minMax false x y) rfl
  case h_8 => exact plainFp2_runs (fun f x y => f.minMax true x y) rfl
  case h_9 => exact plainFp2_runs (fun f x y => f.minMaxNum false x y) rfl
  case h_10 => exact plainFp2_runs (fun f x y => f.minMaxNum true x y) rfl
  case h_11 t g a f r u => exact .flag g _ (by show execFcvt t g d a f r u s = _; unfold execFcvt; rfl) rfl rfl
  case h_12 => exact plainFp1_runs (fun f x => (f.classOf x, 0)) rfl
  case h_13 => exact plainFp1_runs (fun f x => (x % f.sign, 0)) rfl
  case h_14 => exact plainFp1_runs (fun f x => (Nat.xor x f.sign, 0)) rfl
  case h_15 => exact plainFp2_runs (fun f x y => (x % f.sign + y / f.sign % 2 * f.sign, 0)) rfl
  case h_16 t a b r w => exact .flag .always _ (by show execFscale t d a b r w s = _; unfold execFscale; rfl) rfl rfl

/-- The packed and narrow words (R250, R258-R262). -/
theorem narrowResult_runs {c : Cx} {i : Instr} {s : State} {d : Dst} {act : Mask} {r : Nat → W64 × FFlags}
    (h : c.narrowResult i = some (d, act, r)) : c.Runs i s d act r := by
  unfold Cx.narrowResult at h
  dsimp only at h
  split at h <;> cases h
  case h_1 r f => exact packedWord_runs (fun x y _ => (HFmt.fmt f).add r x y) rfl
  case h_2 r f => exact packedWord_runs (g := .always) (fun x y _ => (HFmt.fmt f).mul r x y) rfl
  case h_3 r f => exact packedWord_old_runs (g := .always) (fun x y z => (HFmt.fmt f).fma .pc r x y z) rfl
  case h_4 r f => exact packedWord_old_runs (g := .always) (fun x y z => (HFmt.fmt f).fma .cmp r x y z) rfl
  case h_5 r => exact packedWord_runs (fun x y _ => Fmt.f32.add r x y) rfl
  case h_6 r => exact packedWord_runs (g := .always) (fun x y _ => Fmt.f32.mul r x y) rfl
  case h_7 r => exact packedWord_old_runs (g := .always) (fun x y z => Fmt.f32.fma .pc r x y z) rfl
  case h_8 r => exact packedWord_old_runs (g := .always) (fun x y z => Fmt.f32.fma .cmp r x y z) rfl
  case h_9 t g a f r u => exact .flag g _ (by show execCvtn t g d a f r u s = _; unfold execCvtn; rfl) rfl rfl
  case h_10 => exact dot4Word_runs true rfl
  case h_11 => exact dot4Word_runs false rfl
  case h_12 => exact dot8Word_runs .e4m3 rfl
  case h_13 => exact dot8Word_runs .e5m2 rfl
  case h_14 t g a b j => exact .flag g _ (by show execSclx t g d a b j s = _; unfold execSclx; rfl) rfl rfl
  case h_15 t g a b j => exact .flag g _ (by show execScls t g d a b j s = _; unfold execScls; rfl) rfl rfl

/-- Settles O5: each instruction is a word of `flagWord` or `fpWord`, and `Cx.Runs.completes` says what such a word leaves. -/
theorem floatWordCompletes : Obligations.FloatWordCompletes := by
  unfold Obligations.FloatWordCompletes
  intro i s c d act r hc hclear hresult hfl
  have hruns : c.Runs i s d act r := hresult.elim floatResult_runs narrowResult_runs
  exact hruns.completes hc hclear hfl

end Sys2Proof.Machine
end

section
/-! REGS, ENDREGS, GROW and SHRINK outside regions (R185-R189): which names a change of the scope zeroes, and the unit that such a word
leaves. -/

namespace Sys2Proof.Machine

/-! ## Names of a scope -/

/-- A group `h` whose scope is that of `g` changed: the names of `zero` are zero and the other names are as in `g`; beside its scope,
its names and its working set its registers are those of `g`. -/
def Group.Rescoped (g h : Group) (scope : Option Nat) (zero : Nat → Bool) : Prop :=
  h.regs.scope = scope ∧ (∀ j < 24, h.reg j = if zero j then LaneReg.zero else g.reg j) ∧
    { h.regs with scope := g.regs.scope, v := g.regs.v, ws := g.regs.ws } = g.regs

/-- A register file given name by name holds at each name what it was given. -/
theorem reg_of_names {g : Group} {f : Nat → LaneReg} {hf : ((List.range 24).map f).toArray.size = 24}
    (hv : g.regs.v = ⟨⟨(List.range 24).map f⟩, hf⟩) {j : Nat} (hj : j < 24) : g.reg j = f j := by
  simp [Group.reg, hv, hj]

/-- A scope of the size it has is no change. -/
theorem rescoped_self {g : Group} {n : Nat} (h : g.regs.scope = some n) :
    g.Rescoped g (some n) fun j => decide (n ≤ j) && decide (j < n) :=
  ⟨h, fun j _ => (if_neg (by simp)).symm, rfl⟩

/-- A group given its names name by name, by a function that zeroes those of `zero` and keeps the others. -/
theorem rescoped_of_names {g d : Group} {scope : Option Nat} {ws : BitVec 24} {f : Nat → LaneReg} {zero : Nat → Bool}
    {hf : ((List.range 24).map f).toArray.size = 24}
    (hd : d.regs = { g.regs with scope := scope, ws := ws, v := ⟨⟨(List.range 24).map f⟩, hf⟩ })
    (hz : ∀ j < 24, f j = if zero j then LaneReg.zero else g.reg j) : g.Rescoped d scope zero :=
  ⟨by rw [hd], fun j hj => (reg_of_names (by rw [hd]) hj).trans (hz j hj), by rw [hd]⟩

/-- A scope that widens from `m` to `n` names zeroes the new ones, whatever its working set becomes (R185, R187). -/
theorem rescoped_widen (g : Group) (m n : Nat) (ws : BitVec 24) (old : Regs → BitVec 24) :
    g.Rescoped (g.onRegs fun r => (r.widen m n ws).limit (old r)) (some n) fun j => decide (m ≤ j) && decide (j < n) := by
  refine rescoped_of_names rfl fun j _ => ?_
  simp only [Bool.and_eq_true, decide_eq_true_eq]
  rfl

/-! ## The unit that a scope word leaves -/

/-- A word has issued that leaves its group with a scope, the names of `zero` zero, and nothing else of its registers, of its system
registers and of memory changed. -/
def Cx.Scopes (c : Cx) (i : Instr) (s : State) (scope : Option Nat) (zero : Nat → Bool) : Prop :=
  ∃ u h, exec i s = .next u ∧ u.last = .issued ∧ u.group? c.k = some h ∧ c.stands h c.nextPc ∧ h.sys = c.g.sys ∧
    h.regs.scope = scope ∧ (∀ j < 24, h.reg j = if zero j then LaneReg.zero else c.g.reg j) ∧
    { h.regs with scope := c.g.regs.scope, v := c.g.regs.v, ws := c.g.regs.ws } = c.g.regs ∧ u.ms = c.s.ms

/-- A word that acts outside any region issues, and a region may be to reopen after it (R189, R458). -/
theorem doneReopen_eq (c : Cx) : ∃ r, c.doneReopen = ({ c with g := { c.g with reopen := r } } : Cx).done := by
  unfold Cx.doneReopen
  split
  · exact ⟨.now, rfl⟩
  · exact ⟨c.g.reopen, rfl⟩

section Words

variable {i : Instr} {s : State} {c : Cx} {d : Group} {scope : Option Nat} {zero : Nat → Bool}

/-- A word that changes its group's scope, leaves the splits and system registers, and issues. -/
theorem scopes_of_done (hc : cx? i s = some c) (hexec : exec i s = .next ({ c with g := d } : Cx).done)
    (hsplits : d.splits = c.g.splits) (hsys : d.sys = c.g.sys) (h : c.g.Rescoped d scope zero) : c.Scopes i s scope zero := by
  obtain ⟨-, -, -, hsp, -⟩ := cx?_eq hc
  have hsplit : (d.split? c.sp.id).isSome = true := by
    rw [Group.split?, hsplits]
    exact Option.isSome_iff_exists.2 ⟨_, hsp⟩
  obtain ⟨⟨hlast, hgroup, hstands, hregs⟩, hsys'⟩ := passed_done (c := { c with g := d }) hsplit
  obtain ⟨hscope, hnames, hrest⟩ := h
  refine ⟨_, _, hexec, hlast, hgroup, hstands, hsys'.trans hsys, ?_, ?_, ?_, rfl⟩
  · rw [hregs, hscope]
  · intro j hj
    rw [Group.reg, hregs]
    exact hnames j hj
  · rw [hregs, hrest]

/-- The same for a word after which a region may reopen. -/
theorem scopes_of_doneReopen (hc : cx? i s = some c) (hexec : exec i s = .next ({ c with g := d } : Cx).doneReopen)
    (hsplits : d.splits = c.g.splits) (hsys : d.sys = c.g.sys) (h : c.g.Rescoped d scope zero) : c.Scopes i s scope zero := by
  obtain ⟨r, hr⟩ := doneReopen_eq { c with g := d }
  exact scopes_of_done (d := { d with reopen := r }) hc (hexec.trans (congrArg _ hr)) hsplits hsys h

/-- A word for the whole group with legal fields runs its body where the group is undivided (R189, R212). -/
theorem staticWord_whole (hc : cx? i s = some c) (h : c.Clear) (hs : c.g.inSplits = false) {bad : Option Nat} (hbad : bad = none)
    (body : Cx → State) : staticWord i bad wholeChecks s body = .next (body c) := by
  subst hbad
  exact issue_clear (ck := wholeChecks) hc h (fun _ hn => absurd hn List.not_mem_nil) hs rfl rfl body

end Words

/-! ## The words -/

section Scope

variable {s : State} {c : Cx} (h : c.Clear) (hs : c.g.inSplits = false)
include h hs

/-- REGS opens a scope whose names are zero (R185). -/
theorem regs_scopes {t : Tail} {n : Six} {x : MaskSrc} (hc : cx? (.regs t n x) s = some c) (h0 : 0 < n.val) (h24 : n.val ≤ 24)
    (hscope : c.g.regs.scope = none) (hgrants : grants c.s c.k c.g (2 * n.val) = true) :
    c.Scopes (.regs t n x) s (some n.val) fun j => decide (j < n.val) := by
  have hexec : exec (.regs t n x) s = .next _ := staticWord_whole hc h hs (if_neg (by omega)) _
  simp only [hscope, hgrants, Option.isSome_none, Bool.not_true, Bool.false_eq_true, if_false] at hexec
  have hzero : (fun j => decide (j < n.val)) = fun j => decide (0 ≤ j) && decide (j < n.val) := by simp
  exact hzero ▸ scopes_of_done hc hexec rfl rfl (rescoped_widen c.g 0 n.val _ fun _ => 0)

/-- ENDREGS closes the scope, and every name dies (R186). -/
theorem endregs_scopes {b : Bool} (hr : c.g.region = none) (hc : cx? (.endregs b) s = some c) (hscope : c.g.regs.scope.isSome = true) :
    c.Scopes (.endregs b) s none fun _ => true := by
  have hregion : c.g.inRegion = false := by rw [Group.inRegion, hr]; rfl
  have hexec : exec (.endregs b) s = .next _ :=
    issue_clear (ck := endregsChecks) hc h (fun _ hn => absurd hn List.not_mem_nil) hs rfl hregion _
  rw [Option.isNone_eq_false_iff.2 hscope, if_neg Bool.false_ne_true] at hexec
  exact scopes_of_done hc hexec rfl rfl (rescoped_of_names rfl fun _ _ => rfl)

/-- GROW to the size that the scope has does nothing, and to a larger one it adds names that are zero (R187). -/
theorem grow_scopes {t : Tail} {n : Six} {x : MaskSrc} {m : Nat} (hr : c.g.region = none) (hc : cx? (.grow t n x) s = some c)
    (hscope : c.g.regs.scope = some m) (hm : m ≤ n.val) (h24 : n.val ≤ 24)
    (hgrants : m < n.val → grants c.s c.k c.g (2 * (n.val - m)) = true) :
    c.Scopes (.grow t n x) s (some n.val) fun j => decide (m ≤ j) && decide (j < n.val) := by
  have hnames : c.g.names = m := by rw [Group.names, hscope]; rfl
  have hexec : exec (.grow t n x) s = .next _ := staticWord_whole hc h hs (if_neg (by omega)) _
  simp only [hscope, hnames, Option.isNone_some, Bool.false_eq_true, if_false, if_neg (show ¬ n.val < m by omega)] at hexec
  rcases hm.eq_or_lt with rfl | hlt
  · rw [if_pos rfl] at hexec
    exact scopes_of_doneReopen hc hexec rfl rfl (rescoped_self hscope)
  · simp only [if_neg hlt.ne', Group.inRegion, hr, hgrants hlt, Option.isSome_none, Bool.not_true,
      Bool.false_eq_true, if_false] at hexec
    exact scopes_of_doneReopen hc hexec rfl rfl (rescoped_widen c.g m n.val _ Regs.ws)

/-- SHRINK to a smaller scope: the names from its size on die (R188). -/
theorem shrink_scopes {b : Bool} {n : Six} {m : Nat} (hr : c.g.region = none) (hc : cx? (.shrink b n) s = some c)
    (hscope : c.g.regs.scope = some m) (h0 : 0 < n.val) (hm : n.val < m) :
    c.Scopes (.shrink b n) s (some n.val) fun j => decide (n.val ≤ j) := by
  have hnames : c.g.names = m := by rw [Group.names, hscope]; rfl
  have hexec : exec (.shrink b n) s = .next _ := staticWord_whole hc h hs (if_neg (by omega)) _
  simp only [hscope, hnames, Group.inRegion, hr, Option.isNone_some, Option.isSome_none, Bool.false_eq_true, if_false,
    if_neg (show ¬ m < n.val by omega), if_neg hm.ne] at hexec
  refine scopes_of_doneReopen hc hexec rfl rfl (rescoped_of_names rfl fun j _ => ?_)
  simp only [decide_eq_true_eq, ← not_lt, ite_not]
  rfl

end Scope

/-- Settles O33: each word passes its checks, and the group that it leaves is rescoped as its own rule says. -/
theorem scopeWordsComplete : Obligations.ScopeWordsComplete := by
  intro t b n x s c h hs hr leaves
  exact ⟨regs_scopes h hs, endregs_scopes h hs hr, fun _ => grow_scopes h hs hr, fun _ => shrink_scopes h hs hr⟩

end Sys2Proof.Machine
end

section
/-! The issue slots of a cycle (R200, R429): what a tick, an issued chain and an event leave in them. -/

namespace Sys2Proof.Machine

/-! ## Pipes -/

theorem Pipes.add_assoc (p q r : Pipes) : (p.add q).add r = p.add (q.add r) := by
  simp only [Pipes.add, Nat.add_assoc]

theorem Pipes.add_comm (p q : Pipes) : p.add q = q.add p := by
  simp only [Pipes.add, Nat.add_comm]

/-- The pipes that chains take do not depend on their order: a chain counts the same before the others and after them. -/
theorem Pipes.foldl_add (l : List Pipes) (p q : Pipes) : l.foldl Pipes.add (p.add q) = (l.foldl Pipes.add p).add q := by
  induction l generalizing p with
  | nil => rfl
  | cons r l ih =>
    rw [List.foldl_cons, List.foldl_cons, Pipes.add_assoc, Pipes.add_comm q r, ← Pipes.add_assoc, ih]

theorem Pipes.zero_add (p : Pipes) : Pipes.add ⟨0, 0, 0, 0⟩ p = p := by
  simp only [Pipes.add, Nat.zero_add]

/-! ## Slots -/

theorem slotsFit_of_slots_eq {s t : State} (h : t.slots = s.slots) (hs : s.slotsFit) : t.slotsFit := by
  intro core
  have hc : coreSlots t core = coreSlots s core := by rw [coreSlots, h, coreSlots]
  exact hc ▸ hs core

/-- A chain that has issued takes a slot of its own core and none of another. -/
theorem coreSlots_append {s t : State} {n : Nat} {p : Pipes} (h : t.slots = s.slots ++ [(n, p)]) (core : Nat) :
    coreSlots t core = coreSlots s core ++ if n = core then [p] else [] := by
  by_cases hn : n = core <;> simp [coreSlots, h, hn]

/-- A chain that fits beside the chains of its core keeps the core within its slots and pipes (R429). -/
theorem slotsFit_of_unitFits {s t : State} {u : UnitRef} (hs : s.slotsFit) (hu : unitFits s u = true)
    (ht : t.slots = s.slots ++ [(u.core, unitPipes s u)]) : t.slotsFit := by
  intro core
  rw [coreSlots_append ht]
  by_cases hc : u.core = core
  · simp only [unitFits, Bool.and_eq_true, decide_eq_true_eq] at hu
    obtain ⟨⟨⟨⟨⟨hlen, hfit⟩, -⟩, -⟩, -⟩, -⟩ := hu
    rw [hc] at hlen hfit
    rw [if_pos hc, List.length_append, List.foldl_append]
    refine ⟨Nat.succ_le_of_lt hlen, ?_⟩
    rw [← Pipes.zero_add (unitPipes s u), Pipes.foldl_add] at hfit
    exact hfit
  · rw [if_neg hc, List.append_nil]
    exact hs core

/-! ## Steps -/

@[simp] theorem endRequest_slots (s : State) (n : Nat) : (endRequest s n).slots = s.slots := rfl

@[simp] theorem holdJoints_slots (s : State) : (holdJoints s).slots = s.slots := by
  unfold holdJoints
  split <;> rfl

@[simp] theorem sendHeld_slots (s : State) : (sendHeld s).slots = s.slots := by
  unfold sendHeld
  dsimp only
  split <;> rfl

@[simp] theorem settleVotes_slots (s : State) (gk : Nat) : (settleVotes s gk).slots = s.slots := by
  unfold settleVotes
  split <;> rfl

theorem takeVote_slots (s : State) (r : OutReq) : (takeVote s r).slots = s.slots := by
  unfold takeVote
  split
  · dsimp only
    rw [settleVotes_slots]
    split <;> rfl
  · rfl

/-- What goes on by itself as a cycle passes takes no issue slot. -/
theorem passCycle_slots (s : State) : (passCycle s).slots = s.slots := by
  have hvotes (s : State) : (takeVotes s).slots = s.slots := State.foldl_keeps State.slots _ takeVote_slots s
  have horphans (s : State) : (dropOrphans s).slots = s.slots :=
    State.foldl_keeps State.slots _ (fun s (r : OutReq) => endRequest_slots s r.n) s
  rw [passCycle, horphans, hvotes, sendHeld_slots]
  exact holdJoints_slots s

/-- With the next cycle every slot is free again. -/
theorem tick_slots (s : State) : (tick s).slots = [] := passCycle_slots _

/-- An event takes no issue slot. -/
theorem keepSlots_slots {s t : State} {o : Out} (h : keepSlots s o = .next t) : t.slots = s.slots := by
  cases o with
  | next u => obtain rfl := Host.Outcome.next.inj h; rfl
  | fault | refused => cases h

/-- Issuing a unit's chain leaves the slots, or takes one for a chain that fits (R429). -/
theorem issueUnit_slots {s t : State} {u : UnitRef} (h : issueUnit s u = .next t) :
    t.slots = s.slots ∨
      unitFits { s with issuing := s.issuing.filter (· != u) } u = true ∧
        t.slots = s.slots ++ [(u.core, unitPipes { s with issuing := s.issuing.filter (· != u) } u)] := by
  unfold issueUnit at h
  dsimp only at h
  split at h
  · obtain rfl := Host.Outcome.next.inj h
    exact .inl rfl
  · next hruns =>
    simp only [Bool.or_eq_true, Bool.not_eq_true', not_or, Bool.not_eq_false] at hruns
    split at h
    · cases h
    · split at h
      · obtain rfl := Host.Outcome.next.inj h
        exact .inl rfl
      · split at h
        · obtain rfl := Host.Outcome.next.inj h
          exact .inl rfl
        · obtain rfl := Host.Outcome.next.inj h
          exact .inr ⟨hruns.1.2, rfl⟩

/-- Settles O58: a step is an event, which takes no slot, a unit's chain, which takes one where it fits, or a tick, which frees
them all. -/
theorem slotsFitKept : Obligations.SlotsFitKept := by
  intro s t hs h
  unfold step stepBody at h
  split at h
  · exact slotsFit_of_slots_eq (keepSlots_slots h) hs
  · split at h
    · obtain rfl := Host.Outcome.next.inj h
      exact hs
    · split at h
      · rcases issueUnit_slots h with hsame | ⟨hfits, hslots⟩
        · exact slotsFit_of_slots_eq hsame hs
        · refine slotsFit_of_unitFits ?_ hfits hslots
          exact slotsFit_of_slots_eq rfl hs
      · split at h
        · exact slotsFit_of_slots_eq (keepSlots_slots h) hs
        · obtain rfl := Host.Outcome.next.inj h
          exact slotsFit_of_slots_nil (tick_slots s)

end Sys2Proof.Machine
end

section
/-! The codes of operands (R204-R211): each fits its field, and decoding a code gives the operand back. -/

namespace Sys2Proof

theorem Guard.code_le (g : Guard) : g.code ≤ 12 := by
  cases g with
  | always => decide
  | p n => simp only [Guard.code]; omega

theorem Guard.code_lt (g : Guard) : g.code < 2 ^ 4 := Nat.lt_of_le_of_lt g.code_le (by decide)

theorem Src.code_lt (a : Src) : a.code < 2 ^ 6 := by
  cases a <;> simp only [Src.code] <;> omega

theorem Dst.code_lt (d : Dst) : d.code < 2 ^ 5 := by
  cases d <;> simp only [Dst.code] <;> omega

theorem bitCode_lt (b : Bool) : bitCode b < 2 ^ 1 := by
  cases b <;> decide

theorem PDst.code_lt (d : PDst) : d.code < 2 ^ 5 := by
  have := bitCode_lt d.k
  simp only [PDst.code]
  omega

theorem Base.code_lt (a : Base) : a.code < 2 ^ 6 := by
  cases a <;> simp only [Base.code] <;> omega

theorem Addr6.code_lt (a : Addr6) : a.code < 2 ^ 6 := by
  cases a <;> simp only [Addr6.code] <;> omega

theorem MaskSrc.code_lt (b : MaskSrc) : b.code < 2 ^ 6 := by
  cases b <;> simp only [MaskSrc.code] <;> omega

theorem Sets.code_lt (s : Sets) : s.code < 2 ^ 2 := by cases s <;> decide
theorem Width.code_lt (w : Width) : w.code < 2 ^ 1 := by cases w <;> decide
theorem FWidth.code_lt (w : FWidth) : w.code < 2 ^ 1 := by cases w <;> decide
theorem HFmt.code_lt (h : HFmt) : h.code < 2 ^ 1 := by cases h <;> decide
theorem Rnd.code_le (r : Rnd) : r.code ≤ 5 := by cases r <;> decide
theorem ICond.code_lt (n : ICond) : n.code < 2 ^ 4 := by cases n <;> decide
theorem FCond.code_lt (n : FCond) : n.code < 2 ^ 3 := by cases n <;> decide
theorem WCond.code_lt (n : WCond) : n.code < 2 ^ 3 := by cases n <;> decide
theorem MemTy.code_lt (ty : MemTy) : ty.code < 2 ^ 4 := by cases ty <;> decide
theorem Scope.code_lt (e : Scope) : e.code < 2 ^ 3 := by cases e <;> decide
theorem AOp.code_lt (op : AOp) : op.code < 2 ^ 5 := by cases op <;> decide
theorem QSel.code_lt (s : QSel) : s.code < 2 ^ 6 := by cases s <;> decide
theorem SolveKind.code_lt (k : SolveKind) : k.code < 2 ^ 2 := by cases k <;> decide
theorem QFmt.code_lt (f : QFmt) : f.code < 2 ^ 2 := by cases f <;> decide
theorem SFmt.code_lt (f : SFmt) : f.code < 2 ^ 2 := by cases f <;> decide
theorem TFmt.code_lt (f : TFmt) : f.code < 2 ^ 4 := by cases f <;> decide

theorem JFmt.code_lt (f : JFmt) : f.code < 2 ^ 4 := by
  cases f with
  | f32 r => exact Nat.lt_of_le_of_lt r.code_le (by decide)
  | bf16 | f16 => decide

@[simp] theorem finOfCode_val {m : Nat} (n : Fin m) : finOfCode m n.val = .ok n := dif_pos n.isLt

@[simp] theorem bitOfCode_bitCode (b : Bool) : bitOfCode (bitCode b) = b := by
  cases b <;> rfl

@[simp] theorem Guard.ofCode_code (g : Guard) : Guard.ofCode g.code = .ok g := by
  cases g with
  | always => rfl
  | p n => simp [Guard.code, Guard.ofCode]

@[simp] theorem Src.ofCode_code (a : Src) : Src.ofCode a.code = .ok a := by
  cases a with
  | v n | k n => simp [Src.code, Src.ofCode]
  | age n =>
    rw [Src.code, Src.ofCode, dif_neg (by omega), dif_neg (by omega), dif_pos (by omega)]
    simp
  | s n =>
    rw [Src.code, Src.ofCode, dif_neg (by omega), dif_neg (by omega), dif_neg (by omega), dif_pos (by omega)]
    simp
  | zero | lane | lit => rfl

@[simp] theorem Dst.ofCode_code (d : Dst) : Dst.ofCode d.code = .ok d := by
  cases d with
  | v n | k n => simp [Dst.code, Dst.ofCode]
  | none => rfl

@[simp] theorem PDst.ofCode_code (d : PDst) : PDst.ofCode d.code = .ok d := by
  have hk := bitCode_lt d.k
  have hp : d.code / 2 = d.p.val := by simp only [PDst.code]; omega
  have hb : d.code % 2 = bitCode d.k := by simp only [PDst.code]; omega
  simp [PDst.ofCode, hp, hb]

@[simp] theorem Base.ofCode_code (a : Base) : Base.ofCode a.code = .ok a := by
  cases a with
  | v n => simp [Base.code, Base.ofCode]
  | s n =>
    rw [Base.code, Base.ofCode, dif_neg (by omega), if_neg (by omega), dif_pos (by omega)]
    simp
  | zero => rfl

@[simp] theorem Addr6.ofCode_code (a : Addr6) : Addr6.ofCode a.code = .ok a := by
  cases a with
  | v n => simp [Addr6.code, Addr6.ofCode]
  | s n =>
    rw [Addr6.code, Addr6.ofCode, dif_neg (by omega), if_neg (by omega), dif_pos (by omega)]
    simp

@[simp] theorem MaskSrc.ofCode_code (b : MaskSrc) : MaskSrc.ofCode b.code = .ok b := by
  cases b with
  | s n => simp [MaskSrc.code, MaskSrc.ofCode]
  | zero | lit => rfl

@[simp] theorem Sets.ofCode_code (s : Sets) : Sets.ofCode s.code = .ok s := by cases s <;> rfl
@[simp] theorem Width.ofCode_code (w : Width) : Width.ofCode w.code = .ok w := by cases w <;> rfl
@[simp] theorem FWidth.ofCode_code (w : FWidth) : FWidth.ofCode w.code = .ok w := by cases w <;> rfl
@[simp] theorem HFmt.ofCode_code (h : HFmt) : HFmt.ofCode h.code = .ok h := by cases h <;> rfl
@[simp] theorem Rnd.ofCode_code (r : Rnd) : Rnd.ofCode r.code = .ok r := by cases r <;> rfl
@[simp] theorem ICond.ofCode_code (n : ICond) : ICond.ofCode n.code = .ok n := by cases n <;> rfl
@[simp] theorem FCond.ofCode_code (n : FCond) : FCond.ofCode n.code = .ok n := by cases n <;> rfl
@[simp] theorem WCond.ofCode_code (n : WCond) : WCond.ofCode n.code = .ok n := by cases n <;> rfl
@[simp] theorem MemTy.ofCode_code (ty : MemTy) : MemTy.ofCode ty.code = .ok ty := by cases ty <;> rfl
@[simp] theorem Scope.ofCode_code (e : Scope) : Scope.ofCode e.code = .ok e := by cases e <;> rfl
@[simp] theorem AOp.ofCode_code (op : AOp) : AOp.ofCode op.code = .ok op := by cases op <;> rfl
@[simp] theorem QSel.ofCode_code (s : QSel) : QSel.ofCode s.code = .ok s := by cases s <;> rfl
@[simp] theorem SolveKind.ofCode_code (k : SolveKind) : SolveKind.ofCode k.code = .ok k := by cases k <;> rfl
@[simp] theorem QFmt.ofCode_code (f : QFmt) : QFmt.ofCode f.code = .ok f := by cases f <;> rfl
@[simp] theorem SFmt.ofCode_code (f : SFmt) : SFmt.ofCode f.code = .ok f := by cases f <;> rfl
@[simp] theorem TFmt.ofCode_code (f : TFmt) : TFmt.ofCode f.code = .ok f := by cases f <;> rfl

@[simp] theorem JFmt.ofCode_code (f : JFmt) : JFmt.ofCode f.code = .ok f := by
  cases f with
  | f32 r => cases r <;> rfl
  | bf16 | f16 => rfl

end Sys2Proof
end

section
/-! A word as the list of its fields, the lowest first (R203): one lemma says what each field of it reads. -/

namespace Sys2Proof

/-- A field of a word: how many bits it has, and a value that fits them. -/
structure WordField where
  width : Nat
  value : Nat
  fits : value < 2 ^ width

/-- A field with a fixed value, cut to its bits. -/
@[simp] def WordField.lit (n v : Nat) : WordField := ⟨n, v % 2 ^ n, Nat.mod_lt _ (Nat.two_pow_pos n)⟩

/-- A field with a number from a range, where the range fits it. -/
@[simp] def WordField.fin (n : Nat) {m : Nat} (x : Fin m) : WordField :=
  if h : m ≤ 2 ^ n then ⟨n, x.val, Nat.lt_of_lt_of_le x.isLt h⟩ else .lit n 0

/-- A field with an operand of as many bits. -/
@[simp] def WordField.bits {n : Nat} (x : BitVec n) : WordField := ⟨n, x.toNat, x.isLt⟩

/-- A field of one bit. -/
@[simp] def WordField.bit (b : Bool) : WordField := ⟨1, bitCode b, bitCode_lt b⟩

@[simp] def Guard.field (g : Guard) : WordField := ⟨4, g.code, g.code_lt⟩
@[simp] def Src.field (a : Src) : WordField := ⟨6, a.code, a.code_lt⟩
@[simp] def Dst.field (d : Dst) : WordField := ⟨5, d.code, d.code_lt⟩
/-- Where a load names its destination in six bits (R300). -/
@[simp] def Dst.field6 (d : Dst) : WordField := ⟨6, d.code, Nat.lt_of_lt_of_le d.code_lt (by decide)⟩

@[simp] def Rnd.field (r : Rnd) : WordField := ⟨3, r.code, Nat.lt_of_le_of_lt r.code_le (by decide)⟩
/-- The matrix words' rounding mode in four bits (R268). -/
@[simp] def Rnd.field4 (r : Rnd) : WordField := ⟨4, r.code, Nat.lt_of_le_of_lt r.code_le (by decide)⟩

@[simp] def PDst.field (d : PDst) : WordField := ⟨5, d.code, d.code_lt⟩
@[simp] def Base.field (a : Base) : WordField := ⟨6, a.code, a.code_lt⟩
@[simp] def Addr6.field (a : Addr6) : WordField := ⟨6, a.code, a.code_lt⟩
@[simp] def MaskSrc.field (b : MaskSrc) : WordField := ⟨6, b.code, b.code_lt⟩
@[simp] def Sets.field (s : Sets) : WordField := ⟨2, s.code, s.code_lt⟩
@[simp] def Width.field (w : Width) : WordField := ⟨1, w.code, w.code_lt⟩
@[simp] def FWidth.field (w : FWidth) : WordField := ⟨1, w.code, w.code_lt⟩
@[simp] def HFmt.field (h : HFmt) : WordField := ⟨1, h.code, h.code_lt⟩
@[simp] def ICond.field (n : ICond) : WordField := ⟨4, n.code, n.code_lt⟩
@[simp] def FCond.field (n : FCond) : WordField := ⟨3, n.code, n.code_lt⟩
@[simp] def WCond.field (n : WCond) : WordField := ⟨3, n.code, n.code_lt⟩
@[simp] def MemTy.field (ty : MemTy) : WordField := ⟨4, ty.code, ty.code_lt⟩
@[simp] def Scope.field (e : Scope) : WordField := ⟨3, e.code, e.code_lt⟩
@[simp] def AOp.field (op : AOp) : WordField := ⟨5, op.code, op.code_lt⟩
@[simp] def QSel.field (s : QSel) : WordField := ⟨6, s.code, s.code_lt⟩
@[simp] def SolveKind.field (k : SolveKind) : WordField := ⟨2, k.code, k.code_lt⟩
@[simp] def QFmt.field (f : QFmt) : WordField := ⟨2, f.code, f.code_lt⟩
@[simp] def SFmt.field (f : SFmt) : WordField := ⟨2, f.code, f.code_lt⟩
@[simp] def TFmt.field (f : TFmt) : WordField := ⟨4, f.code, f.code_lt⟩
@[simp] def JFmt.field (f : JFmt) : WordField := ⟨4, f.code, f.code_lt⟩

/-- The word with given fields. -/
def wordOf : List WordField → Nat
  | [] => 0
  | f :: l => f.value + 2 ^ f.width * wordOf l

/-- What `n` bits from bit `lo` on read in the word with given fields: a field's value where they are that field. -/
def readAt : List WordField → Nat → Nat → Nat
  | [], _, _ => 0
  | f :: l, lo, n =>
    if f.width ≤ lo then readAt l (lo - f.width) n
    else if lo = 0 ∧ n = f.width then f.value
    else fld (wordOf (f :: l)) lo n

theorem fld_wordOf (l : List WordField) (lo n : Nat) : fld (wordOf l) lo n = readAt l lo n := by
  induction l generalizing lo with
  | nil => rw [wordOf, fld, Nat.zero_div, Nat.zero_mod, readAt]
  | cons f l ih =>
    rw [readAt]
    split
    · next h =>
      rw [← ih, fld, fld, wordOf, ← Nat.add_sub_cancel' h, pow_add, ← Nat.div_div_eq_div_mul,
        Nat.add_mul_div_left _ _ (Nat.two_pow_pos _), Nat.div_eq_of_lt f.fits, Nat.zero_add, Nat.add_sub_cancel_left]
    · split
      · next h =>
        obtain ⟨rfl, rfl⟩ := h
        rw [fld, wordOf, pow_zero, Nat.div_one, Nat.add_mul_mod_self_left, Nat.mod_eq_of_lt f.fits]
      · rfl

theorem wordOf_lt (l : List WordField) : wordOf l < 2 ^ (l.map WordField.width).sum := by
  induction l with
  | nil => exact Nat.one_pos
  | cons f l ih =>
    have hl : 2 ^ f.width * (wordOf l + 1) ≤ 2 ^ f.width * 2 ^ (l.map WordField.width).sum := Nat.mul_le_mul_left _ ih
    have hf := f.fits
    rw [wordOf, List.map_cons, List.sum_cons, pow_add]
    rw [Nat.mul_add_one] at hl
    omega

/-- The fields of a word below its chain bit (R203). -/
abbrev HasFields (x : Nat) (l : List WordField) : Prop := ∀ lo n, lo + n ≤ 31 → fld x lo n = readAt l lo n

theorem fld_add_chain (w k : Nat) {lo n : Nat} (h : lo + n ≤ 31) : fld (w + k * 2 ^ 31) lo n = fld w lo n := by
  have h31 : k * 2 ^ 31 = 2 ^ lo * (2 ^ n * (2 ^ (31 - (lo + n)) * k)) := by
    rw [← Nat.mul_assoc, ← Nat.mul_assoc, ← pow_add, ← pow_add, Nat.add_sub_cancel' h, Nat.mul_comm]
  rw [fld, h31, Nat.add_mul_div_left _ _ (Nat.two_pow_pos _), Nat.add_mul_mod_self_left, fld]

/-- The fields of a word do not depend on its chain bit. -/
theorem hasFields_add_chain {w : Nat} {l : List WordField} (hw : w = wordOf l) (k : Nat) : HasFields (w + k * 2 ^ 31) l :=
  fun lo n h => by rw [fld_add_chain w k h, hw, fld_wordOf]

/-- The chain bit of a word of 31 bits below it. -/
theorem chainBit_add {w : Nat} {l : List WordField} (hw : w = wordOf l) (hl : (l.map WordField.width).sum = 31) {k : Nat}
    (hk : k < 2) : fld (w + k * 2 ^ 31) 31 1 = k := by
  have hlt : w < 2 ^ 31 := by rw [hw, ← hl]; exact wordOf_lt l
  rw [fld]
  omega

end Sys2Proof
end

section
/-! What follows an instruction word (R200, R202, R206, R207), and how an instruction is read back from the fields of its words. -/

namespace Sys2Proof

/-- Decoding the words of an instruction gives it back, as R198 to R207 say. -/
def Instr.DecodesBack (i : Instr) : Prop :=
  ∀ rest : List Nat, i.wf = true →
    (∀ w, encode i = [w] → fld w 31 1 = 1 → ∃ x l, rest = x :: l ∧ isLitWord x = false) →
    decodeWords (encode i ++ rest) = .ok (i, (encode i).length)

@[simp] theorem ok_bind {α β : Type} (a : α) (f : α → Except Reject β) : (Except.ok a >>= f) = f a := rfl

@[simp] theorem wantField_of_fld {w lo n v : Nat} (h : fld w lo n = v) : wantField w lo n v = .ok () := if_pos h

@[simp] theorem wantMod_of_fld {w lo n v : Nat} (h : fld w lo n = v) : wantMod w lo n v = .ok () := if_pos h

theorem checked_of_wf {i : Instr} (h : i.wf = true) : checked i = .ok i := if_pos h

theorem decodeWords_of_decodeInstr {i : Instr} {w : Nat} {ws : List Nat} (h : decodeInstr w ws.head? = .ok i) :
    decodeWords (w :: ws) = .ok (i, (encode i).length) := by
  rw [decodeWords, h]

theorem mkTail_stop {w : Nat} (nx : Option Nat) (h : fld w 31 1 = 0) : mkTail w nx false = .ok .stop := by
  unfold mkTail
  rw [h]
  rfl

theorem mkTail_chain {w x : Nat} (h : fld w 31 1 = 1) (hx : isLitWord x = false) : mkTail w (some x) false = .ok .chain := by
  unfold mkTail
  rw [h]
  simp only [hx, Bool.false_eq_true, if_false]

/-- The literal word of a tail (R206). -/
theorem mkTail_lit {w : Nat} (v : BitVec 25) (c : Bool) (h : fld w 31 1 = 1) :
    mkTail w (some (0x7E000000 + v.toNat + bitCode c * 0x80000000)) true = .ok (.lit v c) := by
  have hv := v.isLt
  have hc := bitCode_lt c
  have hlit : isLitWord (0x7E000000 + v.toNat + bitCode c * 0x80000000) = true := by
    rw [isLitWord, beq_iff_eq, fld]
    omega
  have hval : (0x7E000000 + v.toNat + bitCode c * 0x80000000) % 2 ^ 25 = v.toNat := by omega
  have hbit : fld (0x7E000000 + v.toNat + bitCode c * 0x80000000) 31 1 = bitCode c := by
    rw [fld]
    omega
  unfold mkTail
  rw [h]
  simp only [hlit, hval, hbit, if_true, BitVec.ofNat_toNat, BitVec.setWidth_eq, bitOfCode_bitCode]

/-- The words of a tail: a first one, whose chain bit is set unless the tail ends the chain, and perhaps its literal. -/
theorem mkTail_words {w : Nat} {l : List WordField} (hw : w = wordOf l) (hl : (l.map WordField.width).sum = 31)
    {t : Tail} {u : Bool} (ht : t.wfFor u = true) {rest : List Nat}
    (hrest : ∀ x, t.words w = [x] → fld x 31 1 = 1 → ∃ y m, rest = y :: m ∧ isLitWord y = false) :
    ∃ x ws, t.words w ++ rest = x :: ws ∧ HasFields x l ∧ mkTail x ws.head? u = .ok t := by
  have hset : fld (w + 0x80000000) 31 1 = 1 := chainBit_add hw hl (k := 1) (by decide)
  have hfields : HasFields (w + 0x80000000) l := hasFields_add_chain hw 1
  cases t with
  | stop =>
    obtain rfl : u = false := by simpa [Tail.wfFor] using ht
    exact ⟨w, rest, rfl, hasFields_add_chain hw 0, mkTail_stop _ (chainBit_add hw hl (k := 0) (by decide))⟩
  | chain =>
    obtain rfl : u = false := by simpa [Tail.wfFor] using ht
    obtain ⟨y, m, rfl, hy⟩ := hrest _ rfl hset
    exact ⟨_, y :: m, rfl, hfields, mkTail_chain hset hy⟩
  | lit v c =>
    obtain rfl : u = true := ht
    exact ⟨_, _ :: rest, rfl, hfields, mkTail_lit v c hset⟩

/-- The chain bit of a form that takes no literal. -/
theorem mkChain_word {w : Nat} {l : List WordField} (hw : w = wordOf l) (hl : (l.map WordField.width).sum = 31)
    {c : Bool} {rest : List Nat}
    (hrest : fld (w + bitCode c * 2 ^ 31) 31 1 = 1 → ∃ y m, rest = y :: m ∧ isLitWord y = false) :
    mkChain (w + bitCode c * 2 ^ 31) rest.head? = .ok c := by
  have hbit := chainBit_add hw hl (bitCode_lt c)
  cases c with
  | false => rw [mkChain, mkTail_stop _ hbit]; rfl
  | true =>
    obtain ⟨y, m, rfl, hy⟩ := hrest hbit
    rw [mkChain, List.head?_cons, mkTail_chain hbit hy]
    rfl

theorem mkMod_of_lit {w y : Nat} (h : fld w 31 1 = 1) (hy : isLitWord y = true) : mkMod w (some y) = .ok y := by
  unfold mkMod
  rw [h]
  simp only [hy, if_true]

section

variable {i : Instr} {l : List WordField} {dec : Nat → Option Nat → Except Reject Instr}

/-- Words with given fields are read by one decoder (R210). -/
def Picks (l : List WordField) (dec : Nat → Option Nat → Except Reject Instr) : Prop :=
  ∀ x nx, HasFields x l → decodeInstr x nx = dec x nx

/-- A major of one instruction. -/
theorem picks_of_major (dec : Nat → Option Nat → Except Reject Instr) (M : Nat) (hM : readAt l 25 6 = M)
    (hdec : ∀ x nx, fld x 25 6 = M → decodeInstr x nx = dec x nx) : Picks l dec :=
  fun x nx hx => hdec x nx ((hx 25 6 (by decide)).trans hM)

/-- A major whose instructions the `n` bits from bit `lo` on tell apart. -/
theorem picks_of_minor (dec : Nat → Option Nat → Except Reject Instr) (M lo n m : Nat) (hM : readAt l 25 6 = M)
    (hm : readAt l lo n = m) (hn : lo + n ≤ 31)
    (hdec : ∀ x nx, fld x 25 6 = M → fld x lo n = m → decodeInstr x nx = dec x nx) : Picks l dec :=
  fun x nx hx => hdec x nx ((hx 25 6 (by decide)).trans hM) ((hx lo n hn).trans hm)

/-- A major whose instructions two fields tell apart. -/
theorem picks_of_minors (dec : Nat → Option Nat → Except Reject Instr) (M lo n m lo' n' m' : Nat) (hM : readAt l 25 6 = M)
    (hm : readAt l lo n = m) (hm' : readAt l lo' n' = m') (hn : lo + n ≤ 31 ∧ lo' + n' ≤ 31)
    (hdec : ∀ x nx, fld x 25 6 = M → fld x lo n = m → fld x lo' n' = m' → decodeInstr x nx = dec x nx) : Picks l dec :=
  fun x nx hx => hdec x nx ((hx 25 6 (by decide)).trans hM) ((hx lo n hn.1).trans hm) ((hx lo' n' hn.2).trans hm')

/-- A major whose guard field names another instruction by the codes beyond the guards' (R205, R210). -/
theorem picks_of_guard (dec : Nat → Option Nat → Except Reject Instr) (M : Nat) (g : Guard) (hM : readAt l 25 6 = M)
    (hg : readAt l 21 4 = g.code)
    (hdec : ∀ x nx n, n ≤ 12 → fld x 25 6 = M → fld x 21 4 = n → decodeInstr x nx = dec x nx) : Picks l dec :=
  fun x nx hx => hdec x nx g.code g.code_le ((hx 25 6 (by decide)).trans hM) ((hx 21 4 (by decide)).trans hg)

/-- Such a major whose other instructions a minor tells apart. -/
theorem picks_of_guard_minor (dec : Nat → Option Nat → Except Reject Instr) (M : Nat) (g : Guard) (m : Nat)
    (hM : readAt l 25 6 = M) (hg : readAt l 21 4 = g.code) (hm : readAt l 1 3 = m)
    (hdec : ∀ x nx n, n ≤ 12 → fld x 25 6 = M → fld x 21 4 = n → fld x 1 3 = m → decodeInstr x nx = dec x nx) :
    Picks l dec :=
  fun x nx hx =>
    hdec x nx g.code g.code_le ((hx 25 6 (by decide)).trans hM) ((hx 21 4 (by decide)).trans hg) ((hx 1 3 (by decide)).trans hm)

/-- An instruction with a tail: its decoder reads its operands in the fields of its word. -/
theorem decodesBack_of_tail (hpick : Picks l dec) {t : Tail} {u : Bool} {w : Nat} (henc : encode i = t.words w)
    (hwf : i.wf = true → t.wfFor u = true) (hdec : ∀ x nx, HasFields x l → mkTail x nx u = .ok t → dec x nx = checked i)
    (hw : w = wordOf l) (hl : (l.map WordField.width).sum = 31) : i.DecodesBack := by
  intro rest hi hrest
  rw [henc] at hrest ⊢
  obtain ⟨x, ws, hwords, hx, ht⟩ := mkTail_words hw hl (hwf hi) hrest
  rw [hwords, decodeWords_of_decodeInstr ((hpick x _ hx).trans ((hdec x _ hx ht).trans (checked_of_wf hi))), henc]

/-- An instruction that takes no literal. -/
theorem decodesBack_of_chain (hpick : Picks l dec) (c : Bool) {w : Nat} (henc : encode i = [w])
    (hdec : ∀ x nx, HasFields x l → mkChain x nx = .ok c → dec x nx = checked i)
    (hw : w = wordOf l + bitCode c * 2 ^ 31) (hl : (l.map WordField.width).sum = 31) :
    i.DecodesBack := by
  subst hw
  intro rest hi hrest
  have hx := hasFields_add_chain (l := l) rfl (bitCode c)
  have hc := mkChain_word rfl hl (hrest _ henc)
  have hdecoded := (hpick _ _ hx).trans ((hdec _ _ hx hc).trans (checked_of_wf hi))
  rw [henc, List.singleton_append, decodeWords_of_decodeInstr hdecoded, henc]

/-- Words with given fields and a modifier with given fields are read by one decoder (R207, R210). -/
def PicksMod (l m : List WordField) (dec : Nat → Option Nat → Except Reject Instr) : Prop :=
  ∀ x nx y, HasFields x l → mkMod x nx = .ok y → (∀ lo n, fld y lo n = readAt m lo n) → decodeInstr x nx = dec x nx

theorem Picks.mod {m : List WordField} (h : Picks l dec) : PicksMod l m dec := fun x nx _ hx _ _ => h x nx hx

/-- A major whose instructions the modifier's OPX field tells apart. -/
theorem picksMod_of_opx {m : List WordField} (dec : Nat → Option Nat → Except Reject Instr) (M op : Nat)
    (hM : readAt l 25 6 = M) (hop : readAt m 20 5 = op)
    (hdec : ∀ x nx y, fld x 25 6 = M → mkMod x nx = .ok y → fld y 20 5 = op → decodeInstr x nx = dec x nx) :
    PicksMod l m dec :=
  fun x nx y hx hm hy => hdec x nx y ((hx 25 6 (by decide)).trans hM) hm ((hy 20 5).trans hop)

/-- An instruction with a modifier word, whose fields `m` are all of that word (R207). -/
theorem decodesBack_of_mod {m : List WordField} (hpick : PicksMod l m dec) {w y : Nat} (henc : encode i = [w, y])
    (hdec : ∀ x nx y, HasFields x l → mkMod x nx = .ok y → (∀ lo n, fld y lo n = readAt m lo n) → dec x nx = checked i)
    (hw : w = wordOf l + 1 * 2 ^ 31) (hl : (l.map WordField.width).sum = 31) (hy : y = wordOf m)
    (hlit : readAt m 25 6 = 0x3F) : i.DecodesBack := by
  subst hw hy
  intro rest hi _
  have hx := hasFields_add_chain (l := l) rfl 1
  have hy := fld_wordOf m
  have hlitWord : isLitWord (wordOf m) = true := by rw [isLitWord, hy, hlit, beq_self_eq_true]
  have hm := mkMod_of_lit (chainBit_add (l := l) rfl hl (k := 1) Nat.one_lt_two) hlitWord
  have hdecoded := (hpick _ _ _ hx hm hy).trans ((hdec _ _ _ hx hm hy).trans (checked_of_wf hi))
  rw [henc, List.cons_append, decodeWords_of_decodeInstr (ws := [wordOf m] ++ rest) hdecoded, henc]

end

end Sys2Proof
end

section
/-! Integer, predicate and lane words (R217-R236). -/

namespace Sys2Proof

variable (t : Tail) (c : Bool) (g : Guard) (d : Dst) (pd : PDst) (a b : Src) (w : Width) (n : ICond)

theorem iadd_decodesBack : (Instr.iadd t g d a b w).DecodesBack :=
  decodesBack_of_tail (l := [w.field, .lit 3 0, b.field, a.field, d.field, g.field, .lit 6 0x00])
    (picks_of_minor decodeIadd 0x00 1 3 0 rfl rfl (by decide) fun _ _ hM hm => by rw [decodeInstr, hM, hm]; rfl) rfl id
    (fun _ _ hx ht => by simp [decodeIadd, hx, ht, readAt]) (by simp [wordOf]; omega) rfl

theorem isub_decodesBack : (Instr.isub t g d a b w).DecodesBack :=
  decodesBack_of_tail (l := [w.field, .lit 3 1, b.field, a.field, d.field, g.field, .lit 6 0x00])
    (picks_of_minor decodeIsub 0x00 1 3 1 rfl rfl (by decide) fun _ _ hM hm => by rw [decodeInstr, hM, hm]; rfl) rfl id
    (fun _ _ hx ht => by simp [decodeIsub, hx, ht, readAt]) (by simp [wordOf]; omega) rfl

theorem iaddc_decodesBack : (Instr.iaddc t g d a b w).DecodesBack :=
  decodesBack_of_tail (l := [w.field, .lit 3 2, b.field, a.field, d.field, g.field, .lit 6 0x00])
    (picks_of_minor decodeIaddc 0x00 1 3 2 rfl rfl (by decide) fun _ _ hM hm => by rw [decodeInstr, hM, hm]; rfl) rfl id
    (fun _ _ hx ht => by simp [decodeIaddc, hx, ht, readAt]) (by simp [wordOf]; omega) rfl

theorem imul_decodesBack : (Instr.imul t g d a b w).DecodesBack :=
  decodesBack_of_tail (l := [w.field, .lit 3 0, b.field, a.field, d.field, g.field, .lit 6 0x01])
    (picks_of_minor decodeImul 0x01 1 3 0 rfl rfl (by decide) fun _ _ hM hm => by rw [decodeInstr, hM, hm]; rfl) rfl id
    (fun _ _ hx ht => by simp [decodeImul, hx, ht, readAt]) (by simp [wordOf]; omega) rfl

theorem imulhI_decodesBack : (Instr.imulhI t g d a b w).DecodesBack :=
  decodesBack_of_tail (l := [w.field, .lit 3 1, b.field, a.field, d.field, g.field, .lit 6 0x01])
    (picks_of_minor decodeImulhI 0x01 1 3 1 rfl rfl (by decide) fun _ _ hM hm => by rw [decodeInstr, hM, hm]; rfl) rfl id
    (fun _ _ hx ht => by simp [decodeImulhI, hx, ht, readAt]) (by simp [wordOf]; omega) rfl

theorem imulhN_decodesBack : (Instr.imulhN t g d a b w).DecodesBack :=
  decodesBack_of_tail (l := [w.field, .lit 3 2, b.field, a.field, d.field, g.field, .lit 6 0x01])
    (picks_of_minor decodeImulhN 0x01 1 3 2 rfl rfl (by decide) fun _ _ hM hm => by rw [decodeInstr, hM, hm]; rfl) rfl id
    (fun _ _ hx ht => by simp [decodeImulhN, hx, ht, readAt]) (by simp [wordOf]; omega) rfl

theorem imad_decodesBack (q : Cq) : (Instr.imad t d a b q w).DecodesBack :=
  decodesBack_of_tail (l := [w.field, .lit 3 0, .fin 4 q, b.field, a.field, d.field, .lit 6 0x02])
    (picks_of_major decodeImad 0x02 rfl fun _ _ hM => by rw [decodeInstr, hM]; rfl) rfl id
    (fun _ _ hx ht => by simp [decodeImad, hx, ht, readAt]) (by simp [wordOf]; omega) rfl

theorem andB_decodesBack : (Instr.andB t g d a b w).DecodesBack :=
  decodesBack_of_tail (l := [w.field, .lit 3 0, b.field, a.field, d.field, g.field, .lit 6 0x03])
    (picks_of_minor decodeAndB 0x03 1 3 0 rfl rfl (by decide) fun _ _ hM hm => by rw [decodeInstr, hM, hm]; rfl) rfl id
    (fun _ _ hx ht => by simp [decodeAndB, hx, ht, readAt]) (by simp [wordOf]; omega) rfl

theorem orB_decodesBack : (Instr.orB t g d a b w).DecodesBack :=
  decodesBack_of_tail (l := [w.field, .lit 3 1, b.field, a.field, d.field, g.field, .lit 6 0x03])
    (picks_of_minor decodeOrB 0x03 1 3 1 rfl rfl (by decide) fun _ _ hM hm => by rw [decodeInstr, hM, hm]; rfl) rfl id
    (fun _ _ hx ht => by simp [decodeOrB, hx, ht, readAt]) (by simp [wordOf]; omega) rfl

theorem xorB_decodesBack : (Instr.xorB t g d a b w).DecodesBack :=
  decodesBack_of_tail (l := [w.field, .lit 3 2, b.field, a.field, d.field, g.field, .lit 6 0x03])
    (picks_of_minor decodeXorB 0x03 1 3 2 rfl rfl (by decide) fun _ _ hM hm => by rw [decodeInstr, hM, hm]; rfl) rfl id
    (fun _ _ hx ht => by simp [decodeXorB, hx, ht, readAt]) (by simp [wordOf]; omega) rfl

theorem andn_decodesBack : (Instr.andn t g d a b w).DecodesBack :=
  decodesBack_of_tail (l := [w.field, .lit 3 3, b.field, a.field, d.field, g.field, .lit 6 0x03])
    (picks_of_minor decodeAndn 0x03 1 3 3 rfl rfl (by decide) fun _ _ hM hm => by rw [decodeInstr, hM, hm]; rfl) rfl id
    (fun _ _ hx ht => by simp [decodeAndn, hx, ht, readAt]) (by simp [wordOf]; omega) rfl

theorem orn_decodesBack : (Instr.orn t g d a b w).DecodesBack :=
  decodesBack_of_tail (l := [w.field, .lit 3 4, b.field, a.field, d.field, g.field, .lit 6 0x03])
    (picks_of_minor decodeOrn 0x03 1 3 4 rfl rfl (by decide) fun _ _ hM hm => by rw [decodeInstr, hM, hm]; rfl) rfl id
    (fun _ _ hx ht => by simp [decodeOrn, hx, ht, readAt]) (by simp [wordOf]; omega) rfl

theorem notB_decodesBack : (Instr.notB t g d a w).DecodesBack :=
  decodesBack_of_tail (l := [w.field, .lit 3 5, .lit 6 60, a.field, d.field, g.field, .lit 6 0x03])
    (picks_of_minor decodeNotB 0x03 1 3 5 rfl rfl (by decide) fun _ _ hM hm => by rw [decodeInstr, hM, hm]; rfl) rfl id
    (fun _ _ hx ht => by simp [decodeNotB, hx, ht, readAt]) (by simp [wordOf]; omega) rfl

theorem shl_decodesBack : (Instr.shl t g d a b w).DecodesBack :=
  decodesBack_of_tail (l := [w.field, .lit 3 0, b.field, a.field, d.field, g.field, .lit 6 0x04])
    (picks_of_minor decodeShl 0x04 1 3 0 rfl rfl (by decide) fun _ _ hM hm => by rw [decodeInstr, hM, hm]; rfl) rfl id
    (fun _ _ hx ht => by simp [decodeShl, hx, ht, readAt]) (by simp [wordOf]; omega) rfl

theorem shr_decodesBack : (Instr.shr t g d a b w).DecodesBack :=
  decodesBack_of_tail (l := [w.field, .lit 3 1, b.field, a.field, d.field, g.field, .lit 6 0x04])
    (picks_of_minor decodeShr 0x04 1 3 1 rfl rfl (by decide) fun _ _ hM hm => by rw [decodeInstr, hM, hm]; rfl) rfl id
    (fun _ _ hx ht => by simp [decodeShr, hx, ht, readAt]) (by simp [wordOf]; omega) rfl

theorem sar_decodesBack : (Instr.sar t g d a b w).DecodesBack :=
  decodesBack_of_tail (l := [w.field, .lit 3 2, b.field, a.field, d.field, g.field, .lit 6 0x04])
    (picks_of_minor decodeSar 0x04 1 3 2 rfl rfl (by decide) fun _ _ hM hm => by rw [decodeInstr, hM, hm]; rfl) rfl id
    (fun _ _ hx ht => by simp [decodeSar, hx, ht, readAt]) (by simp [wordOf]; omega) rfl

theorem rol_decodesBack : (Instr.rol t g d a b w).DecodesBack :=
  decodesBack_of_tail (l := [w.field, .lit 3 3, b.field, a.field, d.field, g.field, .lit 6 0x04])
    (picks_of_minor decodeRol 0x04 1 3 3 rfl rfl (by decide) fun _ _ hM hm => by rw [decodeInstr, hM, hm]; rfl) rfl id
    (fun _ _ hx ht => by simp [decodeRol, hx, ht, readAt]) (by simp [wordOf]; omega) rfl

theorem ror_decodesBack : (Instr.ror t g d a b w).DecodesBack :=
  decodesBack_of_tail (l := [w.field, .lit 3 4, b.field, a.field, d.field, g.field, .lit 6 0x04])
    (picks_of_minor decodeRor 0x04 1 3 4 rfl rfl (by decide) fun _ _ hM hm => by rw [decodeInstr, hM, hm]; rfl) rfl id
    (fun _ _ hx ht => by simp [decodeRor, hx, ht, readAt]) (by simp [wordOf]; omega) rfl

theorem popc_decodesBack : (Instr.popc t g d a w).DecodesBack :=
  decodesBack_of_tail (l := [w.field, .lit 3 0, .lit 6 60, a.field, d.field, g.field, .lit 6 0x05])
    (picks_of_minor decodePopc 0x05 1 3 0 rfl rfl (by decide) fun _ _ hM hm => by rw [decodeInstr, hM, hm]; rfl) rfl id
    (fun _ _ hx ht => by simp [decodePopc, hx, ht, readAt]) (by simp [wordOf]; omega) rfl

theorem clz_decodesBack : (Instr.clz t g d a w).DecodesBack :=
  decodesBack_of_tail (l := [w.field, .lit 3 1, .lit 6 60, a.field, d.field, g.field, .lit 6 0x05])
    (picks_of_minor decodeClz 0x05 1 3 1 rfl rfl (by decide) fun _ _ hM hm => by rw [decodeInstr, hM, hm]; rfl) rfl id
    (fun _ _ hx ht => by simp [decodeClz, hx, ht, readAt]) (by simp [wordOf]; omega) rfl

theorem ctz_decodesBack : (Instr.ctz t g d a w).DecodesBack :=
  decodesBack_of_tail (l := [w.field, .lit 3 2, .lit 6 60, a.field, d.field, g.field, .lit 6 0x05])
    (picks_of_minor decodeCtz 0x05 1 3 2 rfl rfl (by decide) fun _ _ hM hm => by rw [decodeInstr, hM, hm]; rfl) rfl id
    (fun _ _ hx ht => by simp [decodeCtz, hx, ht, readAt]) (by simp [wordOf]; omega) rfl

theorem brev_decodesBack : (Instr.brev t g d a w).DecodesBack :=
  decodesBack_of_tail (l := [w.field, .lit 3 3, .lit 6 60, a.field, d.field, g.field, .lit 6 0x05])
    (picks_of_minor decodeBrev 0x05 1 3 3 rfl rfl (by decide) fun _ _ hM hm => by rw [decodeInstr, hM, hm]; rfl) rfl id
    (fun _ _ hx ht => by simp [decodeBrev, hx, ht, readAt]) (by simp [wordOf]; omega) rfl

theorem bfeN_decodesBack : (Instr.bfeN t g d a b w).DecodesBack :=
  decodesBack_of_tail (l := [w.field, .lit 3 4, b.field, a.field, d.field, g.field, .lit 6 0x05])
    (picks_of_minor decodeBfeN 0x05 1 3 4 rfl rfl (by decide) fun _ _ hM hm => by rw [decodeInstr, hM, hm]; rfl) rfl id
    (fun _ _ hx ht => by simp [decodeBfeN, hx, ht, readAt]) (by simp [wordOf]; omega) rfl

theorem bfeI_decodesBack : (Instr.bfeI t g d a b w).DecodesBack :=
  decodesBack_of_tail (l := [w.field, .lit 3 5, b.field, a.field, d.field, g.field, .lit 6 0x05])
    (picks_of_minor decodeBfeI 0x05 1 3 5 rfl rfl (by decide) fun _ _ hM hm => by rw [decodeInstr, hM, hm]; rfl) rfl id
    (fun _ _ hx ht => by simp [decodeBfeI, hx, ht, readAt]) (by simp [wordOf]; omega) rfl

theorem bfi_decodesBack (d : VReg) : (Instr.bfi t g d a b w).DecodesBack :=
  decodesBack_of_tail (l := [w.field, .lit 3 6, b.field, a.field, .fin 5 d, g.field, .lit 6 0x05])
    (picks_of_minor decodeBfi 0x05 1 3 6 rfl rfl (by decide) fun _ _ hM hm => by rw [decodeInstr, hM, hm]; rfl) rfl id
    (fun _ _ hx ht => by simp [decodeBfi, hx, ht, readAt]) (by simp [wordOf]; omega) rfl

theorem minI_decodesBack : (Instr.minI t g d a b w).DecodesBack :=
  decodesBack_of_tail (l := [w.field, .lit 3 0, b.field, a.field, d.field, g.field, .lit 6 0x06])
    (picks_of_minor decodeMinI 0x06 1 3 0 rfl rfl (by decide) fun _ _ hM hm => by rw [decodeInstr, hM, hm]; rfl) rfl id
    (fun _ _ hx ht => by simp [decodeMinI, hx, ht, readAt]) (by simp [wordOf]; omega) rfl

theorem minN_decodesBack : (Instr.minN t g d a b w).DecodesBack :=
  decodesBack_of_tail (l := [w.field, .lit 3 1, b.field, a.field, d.field, g.field, .lit 6 0x06])
    (picks_of_minor decodeMinN 0x06 1 3 1 rfl rfl (by decide) fun _ _ hM hm => by rw [decodeInstr, hM, hm]; rfl) rfl id
    (fun _ _ hx ht => by simp [decodeMinN, hx, ht, readAt]) (by simp [wordOf]; omega) rfl

theorem maxI_decodesBack : (Instr.maxI t g d a b w).DecodesBack :=
  decodesBack_of_tail (l := [w.field, .lit 3 2, b.field, a.field, d.field, g.field, .lit 6 0x06])
    (picks_of_minor decodeMaxI 0x06 1 3 2 rfl rfl (by decide) fun _ _ hM hm => by rw [decodeInstr, hM, hm]; rfl) rfl id
    (fun _ _ hx ht => by simp [decodeMaxI, hx, ht, readAt]) (by simp [wordOf]; omega) rfl

theorem maxN_decodesBack : (Instr.maxN t g d a b w).DecodesBack :=
  decodesBack_of_tail (l := [w.field, .lit 3 3, b.field, a.field, d.field, g.field, .lit 6 0x06])
    (picks_of_minor decodeMaxN 0x06 1 3 3 rfl rfl (by decide) fun _ _ hM hm => by rw [decodeInstr, hM, hm]; rfl) rfl id
    (fun _ _ hx ht => by simp [decodeMaxN, hx, ht, readAt]) (by simp [wordOf]; omega) rfl

theorem absI_decodesBack : (Instr.absI t g d a w).DecodesBack :=
  decodesBack_of_tail (l := [w.field, .lit 3 4, .lit 6 60, a.field, d.field, g.field, .lit 6 0x06])
    (picks_of_minor decodeAbsI 0x06 1 3 4 rfl rfl (by decide) fun _ _ hM hm => by rw [decodeInstr, hM, hm]; rfl) rfl id
    (fun _ _ hx ht => by simp [decodeAbsI, hx, ht, readAt]) (by simp [wordOf]; omega) rfl

theorem negI_decodesBack : (Instr.negI t g d a w).DecodesBack :=
  decodesBack_of_tail (l := [w.field, .lit 3 5, .lit 6 60, a.field, d.field, g.field, .lit 6 0x06])
    (picks_of_minor decodeNegI 0x06 1 3 5 rfl rfl (by decide) fun _ _ hM hm => by rw [decodeInstr, hM, hm]; rfl) rfl id
    (fun _ _ hx ht => by simp [decodeNegI, hx, ht, readAt]) (by simp [wordOf]; omega) rfl

theorem sel_decodesBack : (Instr.sel t g d a b w).DecodesBack :=
  decodesBack_of_tail (l := [w.field, .lit 3 6, b.field, a.field, d.field, g.field, .lit 6 0x06])
    (picks_of_minor decodeSel 0x06 1 3 6 rfl rfl (by decide) fun _ _ hM hm => by rw [decodeInstr, hM, hm]; rfl) rfl id
    (fun _ _ hx ht => by simp [decodeSel, hx, ht, readAt]) (by simp [wordOf]; omega) rfl

theorem mov_decodesBack : (Instr.mov t g d a w).DecodesBack :=
  decodesBack_of_tail (l := [w.field, .lit 3 0, .lit 6 60, a.field, d.field, g.field, .lit 6 0x07])
    (picks_of_minor decodeMov 0x07 1 3 0 rfl rfl (by decide) fun _ _ hM hm => by rw [decodeInstr, hM, hm]; rfl) rfl id
    (fun _ _ hx ht => by simp [decodeMov, hx, ht, readAt]) (by simp [wordOf]; omega) rfl

theorem movs_decodesBack (d : SReg) : (Instr.movs t g d a w).DecodesBack :=
  decodesBack_of_tail (l := [w.field, .lit 3 1, .lit 6 60, a.field, .fin 5 d, g.field, .lit 6 0x07])
    (picks_of_minor decodeMovs 0x07 1 3 1 rfl rfl (by decide) fun _ _ hM hm => by rw [decodeInstr, hM, hm]; rfl) rfl id
    (fun _ _ hx ht => by simp [decodeMovs, hx, ht, readAt]) (by simp [wordOf]; omega) rfl

theorem lea_decodesBack : (Instr.lea t g d a b w).DecodesBack :=
  decodesBack_of_tail (l := [w.field, .lit 3 2, b.field, a.field, d.field, g.field, .lit 6 0x07])
    (picks_of_minor decodeLea 0x07 1 3 2 rfl rfl (by decide) fun _ _ hM hm => by rw [decodeInstr, hM, hm]; rfl) rfl id
    (fun _ _ hx ht => by simp [decodeLea, hx, ht, readAt]) (by simp [wordOf]; omega) rfl

theorem icmp32_decodesBack : (Instr.icmp32 t g pd a b n).DecodesBack :=
  decodesBack_of_tail (l := [n.field, b.field, a.field, pd.field, g.field, .lit 6 0x08]) (picks_of_major decodeIcmp32 0x08 rfl
    fun _ _ hM => by rw [decodeInstr, hM]; rfl) rfl Bool.and_elim_left (fun _ _ hx ht => by simp [decodeIcmp32, hx, ht, readAt])
    (by simp [wordOf]; omega) rfl

theorem icmp64_decodesBack : (Instr.icmp64 t g pd a b n).DecodesBack :=
  decodesBack_of_tail (l := [n.field, b.field, a.field, pd.field, g.field, .lit 6 0x09]) (picks_of_major decodeIcmp64 0x09 rfl
    fun _ _ hM => by rw [decodeInstr, hM]; rfl) rfl Bool.and_elim_left (fun _ _ hx ht => by simp [decodeIcmp64, hx, ht, readAt])
    (by simp [wordOf]; omega) rfl

theorem pand_decodesBack (a b : PReg) : (Instr.pand c g pd a b).DecodesBack :=
  decodesBack_of_chain (l := [.lit 4 0, .fin 6 b, .fin 6 a, pd.field, g.field, .lit 6 0x0A])
    (picks_of_minor decodePand 0x0A 0 4 0 rfl rfl (by decide) fun _ _ hM hm => by rw [decodeInstr, hM, hm]; rfl) c rfl
    (fun _ _ hx hc => by simp [decodePand, hx, hc, readAt]) (by simp [wordOf]; omega) rfl

theorem por_decodesBack (a b : PReg) : (Instr.por c g pd a b).DecodesBack :=
  decodesBack_of_chain (l := [.lit 4 1, .fin 6 b, .fin 6 a, pd.field, g.field, .lit 6 0x0A])
    (picks_of_minor decodePor 0x0A 0 4 1 rfl rfl (by decide) fun _ _ hM hm => by rw [decodeInstr, hM, hm]; rfl) c rfl
    (fun _ _ hx hc => by simp [decodePor, hx, hc, readAt]) (by simp [wordOf]; omega) rfl

theorem pxor_decodesBack (a b : PReg) : (Instr.pxor c g pd a b).DecodesBack :=
  decodesBack_of_chain (l := [.lit 4 2, .fin 6 b, .fin 6 a, pd.field, g.field, .lit 6 0x0A])
    (picks_of_minor decodePxor 0x0A 0 4 2 rfl rfl (by decide) fun _ _ hM hm => by rw [decodeInstr, hM, hm]; rfl) c rfl
    (fun _ _ hx hc => by simp [decodePxor, hx, hc, readAt]) (by simp [wordOf]; omega) rfl

theorem pnot_decodesBack (a : PReg) : (Instr.pnot c g pd a).DecodesBack :=
  decodesBack_of_chain (l := [.lit 4 3, .lit 6 0, .fin 6 a, pd.field, g.field, .lit 6 0x0A])
    (picks_of_minor decodePnot 0x0A 0 4 3 rfl rfl (by decide) fun _ _ hM hm => by rw [decodeInstr, hM, hm]; rfl) c rfl
    (fun _ _ hx hc => by simp [decodePnot, hx, hc, readAt]) (by simp [wordOf]; omega) rfl

theorem pmov_decodesBack (a : PReg) : (Instr.pmov c g pd a).DecodesBack :=
  decodesBack_of_chain (l := [.lit 4 4, .lit 6 0, .fin 6 a, pd.field, g.field, .lit 6 0x0A])
    (picks_of_minor decodePmov 0x0A 0 4 4 rfl rfl (by decide) fun _ _ hM hm => by rw [decodeInstr, hM, hm]; rfl) c rfl
    (fun _ _ hx hc => by simp [decodePmov, hx, hc, readAt]) (by simp [wordOf]; omega) rfl

theorem censusNz_decodesBack : (Instr.censusNz t g d a).DecodesBack :=
  decodesBack_of_tail (l := [.lit 1 0, .lit 3 0, .lit 6 60, a.field, d.field, g.field, .lit 6 0x0B])
    (picks_of_minor decodeCensusNz 0x0B 1 3 0 rfl rfl (by decide) fun _ _ hM hm => by rw [decodeInstr, hM, hm]; rfl) rfl id
    (fun _ _ hx ht => by simp [decodeCensusNz, hx, ht, readAt]) (by simp [wordOf]; omega) rfl

theorem censusLsb_decodesBack : (Instr.censusLsb t g d a).DecodesBack :=
  decodesBack_of_tail (l := [.lit 1 0, .lit 3 1, .lit 6 60, a.field, d.field, g.field, .lit 6 0x0B])
    (picks_of_minor decodeCensusLsb 0x0B 1 3 1 rfl rfl (by decide) fun _ _ hM hm => by rw [decodeInstr, hM, hm]; rfl) rfl id
    (fun _ _ hx ht => by simp [decodeCensusLsb, hx, ht, readAt]) (by simp [wordOf]; omega) rfl

theorem censusSgn_decodesBack : (Instr.censusSgn t g d a).DecodesBack :=
  decodesBack_of_tail (l := [.lit 1 0, .lit 3 2, .lit 6 60, a.field, d.field, g.field, .lit 6 0x0B])
    (picks_of_minor decodeCensusSgn 0x0B 1 3 2 rfl rfl (by decide) fun _ _ hM hm => by rw [decodeInstr, hM, hm]; rfl) rfl id
    (fun _ _ hx ht => by simp [decodeCensusSgn, hx, ht, readAt]) (by simp [wordOf]; omega) rfl

theorem routeFrom_decodesBack : (Instr.routeFrom t g d a b w).DecodesBack :=
  decodesBack_of_tail (l := [w.field, .lit 3 0, b.field, a.field, d.field, g.field, .lit 6 0x0C])
    (picks_of_minor decodeRouteFrom 0x0C 1 3 0 rfl rfl (by decide) fun _ _ hM hm => by rw [decodeInstr, hM, hm]; rfl) rfl id
    (fun _ _ hx ht => by simp [decodeRouteFrom, hx, ht, readAt]) (by simp [wordOf]; omega) rfl

theorem routeRot_decodesBack : (Instr.routeRot t g d a b w).DecodesBack :=
  decodesBack_of_tail (l := [w.field, .lit 3 1, b.field, a.field, d.field, g.field, .lit 6 0x0C])
    (picks_of_minor decodeRouteRot 0x0C 1 3 1 rfl rfl (by decide) fun _ _ hM hm => by rw [decodeInstr, hM, hm]; rfl) rfl id
    (fun _ _ hx ht => by simp [decodeRouteRot, hx, ht, readAt]) (by simp [wordOf]; omega) rfl

theorem routeShift_decodesBack : (Instr.routeShift t g d a b w).DecodesBack :=
  decodesBack_of_tail (l := [w.field, .lit 3 2, b.field, a.field, d.field, g.field, .lit 6 0x0C])
    (picks_of_minor decodeRouteShift 0x0C 1 3 2 rfl rfl (by decide) fun _ _ hM hm => by rw [decodeInstr, hM, hm]; rfl) rfl id
    (fun _ _ hx ht => by simp [decodeRouteShift, hx, ht, readAt]) (by simp [wordOf]; omega) rfl

theorem routeFlip_decodesBack : (Instr.routeFlip t g d a b w).DecodesBack :=
  decodesBack_of_tail (l := [w.field, .lit 3 3, b.field, a.field, d.field, g.field, .lit 6 0x0C])
    (picks_of_minor decodeRouteFlip 0x0C 1 3 3 rfl rfl (by decide) fun _ _ hM hm => by rw [decodeInstr, hM, hm]; rfl) rfl id
    (fun _ _ hx ht => by simp [decodeRouteFlip, hx, ht, readAt]) (by simp [wordOf]; omega) rfl

theorem peers_decodesBack : (Instr.peers t g d a w).DecodesBack :=
  decodesBack_of_tail (l := [w.field, .lit 3 4, .lit 6 60, a.field, d.field, g.field, .lit 6 0x0C])
    (picks_of_minor decodePeers 0x0C 1 3 4 rfl rfl (by decide) fun _ _ hM hm => by rw [decodeInstr, hM, hm]; rfl) rfl id
    (fun _ _ hx ht => by simp [decodePeers, hx, ht, readAt]) (by simp [wordOf]; omega) rfl

end Sys2Proof
end

section
/-! Floating-point words (R237-R256). -/

namespace Sys2Proof

variable (t : Tail) (g : Guard) (l : La) (d : Dst) (a b : Src) (q : Cq) (r : Rnd) (w : FWidth)

theorem fadd_decodesBack : (Instr.fadd t g d a b r w).DecodesBack :=
  decodesBack_of_tail (l := [w.field, r.field, b.field, a.field, d.field, g.field, .lit 6 0x10])
    (picks_of_guard decodeFadd 0x10 g rfl rfl fun _ _ n hn hM hg => by rw [decodeInstr, hM, hg]; interval_cases n <;> rfl) rfl id
    (fun _ _ hx ht => by simp [decodeFadd, hx, ht, readAt]) (by simp [wordOf]; omega) rfl

theorem fsub_decodesBack : (Instr.fsub t d a b r w).DecodesBack :=
  decodesBack_of_tail (l := [w.field, r.field, b.field, a.field, d.field, .lit 4 13, .lit 6 0x10])
    (picks_of_minor decodeFsub 0x10 21 4 13 rfl rfl (by decide) fun _ _ hM hm => by rw [decodeInstr, hM, hm]; rfl) rfl id
    (fun _ _ hx ht => by simp [decodeFsub, hx, ht, readAt]) (by simp [wordOf]; omega) rfl

theorem fmul_decodesBack : (Instr.fmul t g d a b r w).DecodesBack :=
  decodesBack_of_tail (l := [w.field, r.field, b.field, a.field, d.field, g.field, .lit 6 0x11])
    (picks_of_major decodeFmul 0x11 rfl fun _ _ hM => by rw [decodeInstr, hM]; rfl) rfl id
    (fun _ _ hx ht => by simp [decodeFmul, hx, ht, readAt]) (by simp [wordOf]; omega) rfl

theorem ffma_decodesBack : (Instr.ffma t d a b q r w).DecodesBack :=
  decodesBack_of_tail (l := [w.field, r.field, .fin 4 q, b.field, a.field, d.field, .lit 6 0x12])
    (picks_of_major decodeFfma 0x12 rfl fun _ _ hM => by rw [decodeInstr, hM]; rfl) rfl id
    (fun _ _ hx ht => by simp [decodeFfma, hx, ht, readAt]) (by simp [wordOf]; omega) rfl

theorem ffms_decodesBack : (Instr.ffms t d a b q r w).DecodesBack :=
  decodesBack_of_tail (l := [w.field, r.field, .fin 4 q, b.field, a.field, d.field, .lit 6 0x13])
    (picks_of_major decodeFfms 0x13 rfl fun _ _ hM => by rw [decodeInstr, hM]; rfl) rfl id
    (fun _ _ hx ht => by simp [decodeFfms, hx, ht, readAt]) (by simp [wordOf]; omega) rfl

theorem fnma_decodesBack : (Instr.fnma t d a b q r w).DecodesBack :=
  decodesBack_of_tail (l := [w.field, r.field, .fin 4 q, b.field, a.field, d.field, .lit 6 0x14])
    (picks_of_major decodeFnma 0x14 rfl fun _ _ hM => by rw [decodeInstr, hM]; rfl) rfl id
    (fun _ _ hx ht => by simp [decodeFnma, hx, ht, readAt]) (by simp [wordOf]; omega) rfl

theorem fmin_decodesBack : (Instr.fmin t g d a b w).DecodesBack :=
  decodesBack_of_tail (l := [w.field, .lit 3 0, b.field, a.field, d.field, g.field, .lit 6 0x15])
    (picks_of_minor decodeFmin 0x15 1 3 0 rfl rfl (by decide) fun _ _ hM hm => by rw [decodeInstr, hM, hm]; rfl) rfl id
    (fun _ _ hx ht => by simp [decodeFmin, hx, ht, readAt]) (by simp [wordOf]; omega) rfl

theorem fmax_decodesBack : (Instr.fmax t g d a b w).DecodesBack :=
  decodesBack_of_tail (l := [w.field, .lit 3 1, b.field, a.field, d.field, g.field, .lit 6 0x15])
    (picks_of_minor decodeFmax 0x15 1 3 1 rfl rfl (by decide) fun _ _ hM hm => by rw [decodeInstr, hM, hm]; rfl) rfl id
    (fun _ _ hx ht => by simp [decodeFmax, hx, ht, readAt]) (by simp [wordOf]; omega) rfl

theorem fminNum_decodesBack : (Instr.fminNum t g d a b w).DecodesBack :=
  decodesBack_of_tail (l := [w.field, .lit 3 2, b.field, a.field, d.field, g.field, .lit 6 0x15])
    (picks_of_minor decodeFminNum 0x15 1 3 2 rfl rfl (by decide) fun _ _ hM hm => by rw [decodeInstr, hM, hm]; rfl) rfl id
    (fun _ _ hx ht => by simp [decodeFminNum, hx, ht, readAt]) (by simp [wordOf]; omega) rfl

theorem fmaxNum_decodesBack : (Instr.fmaxNum t g d a b w).DecodesBack :=
  decodesBack_of_tail (l := [w.field, .lit 3 3, b.field, a.field, d.field, g.field, .lit 6 0x15])
    (picks_of_minor decodeFmaxNum 0x15 1 3 3 rfl rfl (by decide) fun _ _ hM hm => by rw [decodeInstr, hM, hm]; rfl) rfl id
    (fun _ _ hx ht => by simp [decodeFmaxNum, hx, ht, readAt]) (by simp [wordOf]; omega) rfl

theorem fcmp_decodesBack (pd : PDst) (n : FCond) : (Instr.fcmp t g pd a b n w).DecodesBack :=
  decodesBack_of_tail (l := [w.field, n.field, b.field, a.field, pd.field, g.field, .lit 6 0x16])
    (picks_of_major decodeFcmp 0x16 rfl fun _ _ hM => by rw [decodeInstr, hM]; rfl) rfl Bool.and_elim_left
    (fun _ _ hx ht => by simp [decodeFcmp, hx, ht, readAt]) (by simp [wordOf]; omega) rfl

theorem fcvt_decodesBack (f : Six) (u : Bool) : (Instr.fcvt t g d a f r u).DecodesBack :=
  decodesBack_of_tail (l := [.bit u, r.field, .fin 6 f, a.field, d.field, g.field, .lit 6 0x17])
    (picks_of_major decodeFcvt 0x17 rfl fun _ _ hM => by rw [decodeInstr, hM]; rfl) rfl Bool.and_elim_left
    (fun _ _ hx ht => by simp [decodeFcvt, hx, ht, readAt]) (by simp [wordOf]; omega) rfl

theorem fclass_decodesBack : (Instr.fclass t g d a w).DecodesBack :=
  decodesBack_of_tail (l := [w.field, .lit 3 0, .lit 6 60, a.field, d.field, g.field, .lit 6 0x18])
    (picks_of_guard_minor decodeFclass 0x18 g 0 rfl rfl rfl
    fun _ _ n hn hM hg hm => by rw [decodeInstr, hM, hg, hm]; interval_cases n <;> rfl) rfl id
    (fun _ _ hx ht => by simp [decodeFclass, hx, ht, readAt]) (by simp [wordOf]; omega) rfl

theorem ffrexp_decodesBack (d : VReg) : (Instr.ffrexp t g d a w).DecodesBack :=
  decodesBack_of_tail (l := [w.field, .lit 3 1, .lit 6 60, a.field, .fin 5 d, g.field, .lit 6 0x18])
    (picks_of_guard_minor decodeFfrexp 0x18 g 1 rfl rfl rfl
    fun _ _ n hn hM hg hm => by rw [decodeInstr, hM, hg, hm]; interval_cases n <;> rfl) rfl Bool.and_elim_left
    (fun _ _ hx ht => by simp [decodeFfrexp, hx, ht, readAt]) (by simp [wordOf]; omega) rfl

theorem fabs_decodesBack : (Instr.fabs t g d a w).DecodesBack :=
  decodesBack_of_tail (l := [w.field, .lit 3 2, .lit 6 60, a.field, d.field, g.field, .lit 6 0x18])
    (picks_of_guard_minor decodeFabs 0x18 g 2 rfl rfl rfl
    fun _ _ n hn hM hg hm => by rw [decodeInstr, hM, hg, hm]; interval_cases n <;> rfl) rfl id
    (fun _ _ hx ht => by simp [decodeFabs, hx, ht, readAt]) (by simp [wordOf]; omega) rfl

theorem fneg_decodesBack : (Instr.fneg t g d a w).DecodesBack :=
  decodesBack_of_tail (l := [w.field, .lit 3 3, .lit 6 60, a.field, d.field, g.field, .lit 6 0x18])
    (picks_of_guard_minor decodeFneg 0x18 g 3 rfl rfl rfl
    fun _ _ n hn hM hg hm => by rw [decodeInstr, hM, hg, hm]; interval_cases n <;> rfl) rfl id
    (fun _ _ hx ht => by simp [decodeFneg, hx, ht, readAt]) (by simp [wordOf]; omega) rfl

theorem fcpysgn_decodesBack : (Instr.fcpysgn t g d a b w).DecodesBack :=
  decodesBack_of_tail (l := [w.field, .lit 3 4, b.field, a.field, d.field, g.field, .lit 6 0x18])
    (picks_of_guard_minor decodeFcpysgn 0x18 g 4 rfl rfl rfl
    fun _ _ n hn hM hg hm => by rw [decodeInstr, hM, hg, hm]; interval_cases n <;> rfl) rfl id
    (fun _ _ hx ht => by simp [decodeFcpysgn, hx, ht, readAt]) (by simp [wordOf]; omega) rfl

theorem fscale_decodesBack : (Instr.fscale t d a b r w).DecodesBack :=
  decodesBack_of_tail (l := [w.field, r.field, b.field, a.field, d.field, .lit 4 13, .lit 6 0x18])
    (picks_of_minor decodeFscale 0x18 21 4 13 rfl rfl (by decide) fun _ _ hM hm => by rw [decodeInstr, hM, hm]; rfl) rfl id
    (fun _ _ hx ht => by simp [decodeFscale, hx, ht, readAt]) (by simp [wordOf]; omega) rfl

theorem fdiv_decodesBack : (Instr.fdiv t l d a b r w).DecodesBack :=
  decodesBack_of_tail (l := [w.field, r.field, b.field, a.field, d.field, .fin 4 l, .lit 6 0x19])
    (picks_of_major decodeFdiv 0x19 rfl fun _ _ hM => by rw [decodeInstr, hM]; rfl) rfl id
    (fun _ _ hx ht => by simp [decodeFdiv, hx, ht, readAt]) (by simp [wordOf]; omega) rfl

theorem fsqrt_decodesBack : (Instr.fsqrt t l d a r w).DecodesBack :=
  decodesBack_of_tail (l := [w.field, r.field, .lit 6 0, a.field, d.field, .fin 4 l, .lit 6 0x1A])
    (picks_of_minor decodeFsqrt 0x1A 4 6 0 rfl rfl (by decide) fun _ _ hM hm => by rw [decodeInstr, hM, hm]; rfl) rfl id
    (fun _ _ hx ht => by simp [decodeFsqrt, hx, ht, readAt]) (by simp [wordOf]; omega) rfl

theorem frcp_decodesBack : (Instr.frcp t l d a r w).DecodesBack :=
  decodesBack_of_tail (l := [w.field, r.field, .lit 6 1, a.field, d.field, .fin 4 l, .lit 6 0x1A])
    (picks_of_minor decodeFrcp 0x1A 4 6 1 rfl rfl (by decide) fun _ _ hM hm => by rw [decodeInstr, hM, hm]; rfl) rfl id
    (fun _ _ hx ht => by simp [decodeFrcp, hx, ht, readAt]) (by simp [wordOf]; omega) rfl

theorem frsq_decodesBack : (Instr.frsq t l d a r w).DecodesBack :=
  decodesBack_of_tail (l := [w.field, r.field, .lit 6 2, a.field, d.field, .fin 4 l, .lit 6 0x1A])
    (picks_of_minor decodeFrsq 0x1A 4 6 2 rfl rfl (by decide) fun _ _ hM hm => by rw [decodeInstr, hM, hm]; rfl) rfl
    Bool.and_elim_left (fun _ _ hx ht => by simp [decodeFrsq, hx, ht, readAt]) (by simp [wordOf]; omega) rfl

theorem fexp2_decodesBack : (Instr.fexp2 t l d a w).DecodesBack :=
  decodesBack_of_tail (l := [w.field, .lit 3 0, .lit 6 0, a.field, d.field, .fin 4 l, .lit 6 0x1B])
    (picks_of_minor decodeFexp2 0x1B 4 6 0 rfl rfl (by decide) fun _ _ hM hm => by rw [decodeInstr, hM, hm]; rfl) rfl id
    (fun _ _ hx ht => by simp [decodeFexp2, hx, ht, readAt]) (by simp [wordOf]; omega) rfl

theorem flog2_decodesBack : (Instr.flog2 t l d a w).DecodesBack :=
  decodesBack_of_tail (l := [w.field, .lit 3 0, .lit 6 1, a.field, d.field, .fin 4 l, .lit 6 0x1B])
    (picks_of_minor decodeFlog2 0x1B 4 6 1 rfl rfl (by decide) fun _ _ hM hm => by rw [decodeInstr, hM, hm]; rfl) rfl id
    (fun _ _ hx ht => by simp [decodeFlog2, hx, ht, readAt]) (by simp [wordOf]; omega) rfl

theorem fsin_decodesBack : (Instr.fsin t l d a w).DecodesBack :=
  decodesBack_of_tail (l := [w.field, .lit 3 0, .lit 6 2, a.field, d.field, .fin 4 l, .lit 6 0x1B])
    (picks_of_minor decodeFsin 0x1B 4 6 2 rfl rfl (by decide) fun _ _ hM hm => by rw [decodeInstr, hM, hm]; rfl) rfl id
    (fun _ _ hx ht => by simp [decodeFsin, hx, ht, readAt]) (by simp [wordOf]; omega) rfl

theorem fcos_decodesBack : (Instr.fcos t l d a w).DecodesBack :=
  decodesBack_of_tail (l := [w.field, .lit 3 0, .lit 6 3, a.field, d.field, .fin 4 l, .lit 6 0x1B])
    (picks_of_minor decodeFcos 0x1B 4 6 3 rfl rfl (by decide) fun _ _ hM hm => by rw [decodeInstr, hM, hm]; rfl) rfl id
    (fun _ _ hx ht => by simp [decodeFcos, hx, ht, readAt]) (by simp [wordOf]; omega) rfl

theorem ftanh_decodesBack : (Instr.ftanh t l d a w).DecodesBack :=
  decodesBack_of_tail (l := [w.field, .lit 3 0, .lit 6 4, a.field, d.field, .fin 4 l, .lit 6 0x1B])
    (picks_of_minor decodeFtanh 0x1B 4 6 4 rfl rfl (by decide) fun _ _ hM hm => by rw [decodeInstr, hM, hm]; rfl) rfl id
    (fun _ _ hx ht => by simp [decodeFtanh, hx, ht, readAt]) (by simp [wordOf]; omega) rfl

end Sys2Proof
end

section
/-! Narrow and matrix words (R257-R279). -/

namespace Sys2Proof

variable (t : Tail) (c mc : Bool) (g : Guard) (l : La) (d : VReg) (a b : Src) (r : Rnd) (h : HFmt) (j : Sel) (k : SolveKind)

theorem pkadd16_decodesBack (d : Dst) : (Instr.pkadd16 t g d a b r h).DecodesBack :=
  decodesBack_of_tail (l := [h.field, r.field, b.field, a.field, d.field, g.field, .lit 6 0x20])
    (picks_of_guard decodePkadd16 0x20 g rfl rfl fun _ _ n hn hM hg => by rw [decodeInstr, hM, hg]; interval_cases n <;> rfl) rfl
    id (fun _ _ hx ht => by simp [decodePkadd16, hx, ht, readAt]) (by simp [wordOf]; omega) rfl

theorem pkmul16_decodesBack (d : Dst) : (Instr.pkmul16 t d a b r h).DecodesBack :=
  decodesBack_of_tail (l := [h.field, r.field, b.field, a.field, d.field, .lit 4 13, .lit 6 0x20])
    (picks_of_minor decodePkmul16 0x20 21 4 13 rfl rfl (by decide) fun _ _ hM hm => by rw [decodeInstr, hM, hm]; rfl) rfl id
    (fun _ _ hx ht => by simp [decodePkmul16, hx, ht, readAt]) (by simp [wordOf]; omega) rfl

theorem pkfma16_decodesBack : (Instr.pkfma16 t d a b r h).DecodesBack :=
  decodesBack_of_tail (l := [h.field, r.field, b.field, a.field, .fin 5 d, .lit 4 14, .lit 6 0x20])
    (picks_of_minor decodePkfma16 0x20 21 4 14 rfl rfl (by decide) fun _ _ hM hm => by rw [decodeInstr, hM, hm]; rfl) rfl id
    (fun _ _ hx ht => by simp [decodePkfma16, hx, ht, readAt]) (by simp [wordOf]; omega) rfl

theorem pkfna16_decodesBack : (Instr.pkfna16 t d a b r h).DecodesBack :=
  decodesBack_of_tail (l := [h.field, r.field, b.field, a.field, .fin 5 d, .lit 4 15, .lit 6 0x20])
    (picks_of_minor decodePkfna16 0x20 21 4 15 rfl rfl (by decide) fun _ _ hM hm => by rw [decodeInstr, hM, hm]; rfl) rfl id
    (fun _ _ hx ht => by simp [decodePkfna16, hx, ht, readAt]) (by simp [wordOf]; omega) rfl

theorem cvtn_decodesBack (d : Dst) (f : Six) (u : Bool) : (Instr.cvtn t g d a f r u).DecodesBack :=
  decodesBack_of_tail (l := [.bit u, r.field, .fin 6 f, a.field, d.field, g.field, .lit 6 0x21])
    (picks_of_major decodeCvtn 0x21 rfl fun _ _ hM => by rw [decodeInstr, hM]; rfl) rfl (Bool.and_elim_left ∘ Bool.and_elim_left)
    (fun _ _ hx ht => by simp [decodeCvtn, hx, ht, readAt]) (by simp [wordOf]; omega) rfl

theorem dot4I8_decodesBack : (Instr.dot4I8 t g d a b).DecodesBack :=
  decodesBack_of_tail (l := [.lit 1 0, .lit 3 0, b.field, a.field, .fin 5 d, g.field, .lit 6 0x22])
    (picks_of_minor decodeDot4I8 0x22 1 3 0 rfl rfl (by decide) fun _ _ hM hm => by rw [decodeInstr, hM, hm]; rfl) rfl id
    (fun _ _ hx ht => by simp [decodeDot4I8, hx, ht, readAt]) (by simp [wordOf]; omega) rfl

theorem dot4N8_decodesBack : (Instr.dot4N8 t g d a b).DecodesBack :=
  decodesBack_of_tail (l := [.lit 1 0, .lit 3 1, b.field, a.field, .fin 5 d, g.field, .lit 6 0x22])
    (picks_of_minor decodeDot4N8 0x22 1 3 1 rfl rfl (by decide) fun _ _ hM hm => by rw [decodeInstr, hM, hm]; rfl) rfl id
    (fun _ _ hx ht => by simp [decodeDot4N8, hx, ht, readAt]) (by simp [wordOf]; omega) rfl

theorem dot8E4m3_decodesBack : (Instr.dot8E4m3 t g d a b).DecodesBack :=
  decodesBack_of_tail (l := [.lit 1 0, .lit 3 2, b.field, a.field, .fin 5 d, g.field, .lit 6 0x22])
    (picks_of_minor decodeDot8E4m3 0x22 1 3 2 rfl rfl (by decide) fun _ _ hM hm => by rw [decodeInstr, hM, hm]; rfl) rfl id
    (fun _ _ hx ht => by simp [decodeDot8E4m3, hx, ht, readAt]) (by simp [wordOf]; omega) rfl

theorem dot8E5m2_decodesBack : (Instr.dot8E5m2 t g d a b).DecodesBack :=
  decodesBack_of_tail (l := [.lit 1 0, .lit 3 3, b.field, a.field, .fin 5 d, g.field, .lit 6 0x22])
    (picks_of_minor decodeDot8E5m2 0x22 1 3 3 rfl rfl (by decide) fun _ _ hM hm => by rw [decodeInstr, hM, hm]; rfl) rfl id
    (fun _ _ hx ht => by simp [decodeDot8E5m2, hx, ht, readAt]) (by simp [wordOf]; omega) rfl

theorem sclx_decodesBack (d : Dst) : (Instr.sclx t g d a b j).DecodesBack :=
  decodesBack_of_tail (l := [.fin 2 j, .lit 2 0, b.field, a.field, d.field, g.field, .lit 6 0x23])
    (picks_of_minor decodeSclx 0x23 2 2 0 rfl rfl (by decide) fun _ _ hM hm => by rw [decodeInstr, hM, hm]; rfl) rfl id
    (fun _ _ hx ht => by simp [decodeSclx, hx, ht, readAt]) (by simp [wordOf]; omega) rfl

theorem scls_decodesBack (d : Dst) : (Instr.scls t g d a b j).DecodesBack :=
  decodesBack_of_tail (l := [.fin 2 j, .lit 2 1, b.field, a.field, d.field, g.field, .lit 6 0x23])
    (picks_of_minor decodeScls 0x23 2 2 1 rfl rfl (by decide) fun _ _ hM hm => by rw [decodeInstr, hM, hm]; rfl) rfl id
    (fun _ _ hx ht => by simp [decodeScls, hx, ht, readAt]) (by simp [wordOf]; omega) rfl

theorem pkaddF32_decodesBack (d : Dst) : (Instr.pkaddF32 t g d a b r).DecodesBack :=
  decodesBack_of_tail (l := [.lit 1 0, r.field, b.field, a.field, d.field, g.field, .lit 6 0x24])
    (picks_of_guard decodePkaddF32 0x24 g rfl rfl fun _ _ n hn hM hg => by rw [decodeInstr, hM, hg]; interval_cases n <;> rfl)
    rfl id (fun _ _ hx ht => by simp [decodePkaddF32, hx, ht, readAt]) (by simp [wordOf]; omega) rfl

theorem pkmulF32_decodesBack (d : Dst) : (Instr.pkmulF32 t d a b r).DecodesBack :=
  decodesBack_of_tail (l := [.lit 1 0, r.field, b.field, a.field, d.field, .lit 4 13, .lit 6 0x24])
    (picks_of_minor decodePkmulF32 0x24 21 4 13 rfl rfl (by decide) fun _ _ hM hm => by rw [decodeInstr, hM, hm]; rfl) rfl id
    (fun _ _ hx ht => by simp [decodePkmulF32, hx, ht, readAt]) (by simp [wordOf]; omega) rfl

theorem pkfmaF32_decodesBack : (Instr.pkfmaF32 t d a b r).DecodesBack :=
  decodesBack_of_tail (l := [.lit 1 0, r.field, b.field, a.field, .fin 5 d, .lit 4 14, .lit 6 0x24])
    (picks_of_minor decodePkfmaF32 0x24 21 4 14 rfl rfl (by decide) fun _ _ hM hm => by rw [decodeInstr, hM, hm]; rfl) rfl id
    (fun _ _ hx ht => by simp [decodePkfmaF32, hx, ht, readAt]) (by simp [wordOf]; omega) rfl

theorem pkfnaF32_decodesBack : (Instr.pkfnaF32 t d a b r).DecodesBack :=
  decodesBack_of_tail (l := [.lit 1 0, r.field, b.field, a.field, .fin 5 d, .lit 4 15, .lit 6 0x24])
    (picks_of_minor decodePkfnaF32 0x24 21 4 15 rfl rfl (by decide) fun _ _ hM hm => by rw [decodeInstr, hM, hm]; rfl) rfl id
    (fun _ _ hx ht => by simp [decodePkfnaF32, hx, ht, readAt]) (by simp [wordOf]; omega) rfl

theorem mmad_decodesBack (a b : VReg) : (Instr.mmad c l d a b r).DecodesBack :=
  decodesBack_of_chain (l := [.lit 1 0, r.field, .fin 6 b, .fin 6 a, .fin 5 d, .fin 4 l, .lit 6 0x28])
    (picks_of_major decodeMmad 0x28 rfl fun _ _ hM => by rw [decodeInstr, hM]; rfl) c rfl
    (fun _ _ hx hc => by simp [decodeMmad, hx, hc, readAt]) (by simp [wordOf]; omega) rfl

/-- The rounding modes' codes are below those of the other two forms of the major (R268). -/
theorem mmaF32_picks {l : List WordField} (r : Rnd) (hM : readAt l 25 6 = 0x29) (hr : readAt l 0 4 = r.code) :
    Picks l decodeMmaF32 :=
  picks_of_minor decodeMmaF32 0x29 0 4 r.code hM hr (by decide) fun x nx hM hm => by
    rw [decodeInstr, hM, hm]
    cases r <;> rfl

theorem mmaF32_decodesBack (a b : VReg) : (Instr.mmaF32 c l d a b r).DecodesBack :=
  decodesBack_of_chain (l := [r.field4, .fin 6 b, .fin 6 a, .fin 5 d, .fin 4 l, .lit 6 0x29]) (mmaF32_picks r rfl rfl) c rfl
    (fun _ _ hx hc => by simp [decodeMmaF32, hx, hc, readAt]) (by simp [wordOf]; omega) rfl

theorem mmaBf16_decodesBack (a b : VReg) : (Instr.mmaBf16 c l d a b).DecodesBack :=
  decodesBack_of_chain (l := [.lit 4 6, .fin 6 b, .fin 6 a, .fin 5 d, .fin 4 l, .lit 6 0x29])
    (picks_of_minor decodeMmaBf16 0x29 0 4 6 rfl rfl (by decide) fun _ _ hM hm => by rw [decodeInstr, hM, hm]; rfl) c rfl
    (fun _ _ hx hc => by simp [decodeMmaBf16, hx, hc, readAt]) (by simp [wordOf]; omega) rfl

theorem mmaF16_decodesBack (a b : VReg) : (Instr.mmaF16 c l d a b).DecodesBack :=
  decodesBack_of_chain (l := [.lit 4 7, .fin 6 b, .fin 6 a, .fin 5 d, .fin 4 l, .lit 6 0x29])
    (picks_of_minor decodeMmaF16 0x29 0 4 7 rfl rfl (by decide) fun _ _ hM hm => by rw [decodeInstr, hM, hm]; rfl) c rfl
    (fun _ _ hx hc => by simp [decodeMmaF16, hx, hc, readAt]) (by simp [wordOf]; omega) rfl

theorem mmaq_decodesBack (a b : VReg) (fa fb : QFmt) : (Instr.mmaq c l d a b fa fb).DecodesBack :=
  decodesBack_of_chain (l := [fb.field, fa.field, .fin 6 b, .fin 6 a, .fin 5 d, .fin 4 l, .lit 6 0x2A])
    (picks_of_major decodeMmaq 0x2A rfl fun _ _ hM => by rw [decodeInstr, hM]; rfl) c rfl
    (fun _ _ hx hc => by simp [decodeMmaq, hx, hc, readAt]) (by simp [wordOf]; omega) rfl

theorem mmas_decodesBack (a b sa sb : VReg) (fb : SFmt) (ja jb : Sel) : (Instr.mmas l d a b fb mc sa sb ja jb).DecodesBack :=
  decodesBack_of_mod (l := [.lit 2 0, fb.field, .fin 6 b, .fin 6 a, .fin 5 d, .fin 4 l, .lit 6 0x2B])
    (m := [.lit 9 0, .fin 2 jb, .fin 2 ja, .fin 6 sb, .fin 6 sa, .lit 6 0x3F, .bit mc])
    (Picks.mod (picks_of_major decodeMmas 0x2B rfl fun _ _ hM => by rw [decodeInstr, hM]; rfl)) rfl
    (fun _ _ _ hx hm hy => by simp [decodeMmas, hx, hm, hy, readAt]) (by simp [wordOf]; omega) rfl (by simp [wordOf]; omega) rfl

theorem mmat_decodesBack (a : VReg) (h : Src) (f : TFmt) : (Instr.mmat t l d a h f).DecodesBack :=
  decodesBack_of_tail (l := [f.field, h.field, .fin 6 a, .fin 5 d, .fin 4 l, .lit 6 0x2C]) (picks_of_major decodeMmat 0x2C rfl
    fun _ _ hM => by rw [decodeInstr, hM]; rfl) rfl Bool.and_elim_left (fun _ _ hx ht => by simp [decodeMmat, hx, ht, readAt])
    (by simp [wordOf]; omega) rfl

theorem mmaj_decodesBack (a b : VReg) (f : JFmt) : (Instr.mmaj c l d a b f).DecodesBack :=
  decodesBack_of_chain (l := [f.field, .fin 6 b, .fin 6 a, .fin 5 d, .fin 4 l, .lit 6 0x2D]) (picks_of_major decodeMmaj 0x2D rfl
    fun _ _ hM => by rw [decodeInstr, hM]; rfl) c rfl (fun _ _ hx hc => by simp [decodeMmaj, hx, hc, readAt])
    (by simp [wordOf]; omega) rfl

theorem tfact_decodesBack (a : VReg) : (Instr.tfact c l d a k).DecodesBack :=
  decodesBack_of_chain (l := [k.field, .lit 2 0, .lit 6 60, .fin 6 a, .fin 5 d, .fin 4 l, .lit 6 0x2E])
    (picks_of_minor decodeTfact 0x2E 2 2 0 rfl rfl (by decide) fun _ _ hM hm => by rw [decodeInstr, hM, hm]; rfl) c rfl
    (fun _ _ hx hc => by simp [decodeTfact, hx, hc, readAt]) (by simp [wordOf]; omega) rfl

theorem tsolv_decodesBack (a b : VReg) : (Instr.tsolv c l d a b k).DecodesBack :=
  decodesBack_of_chain (l := [k.field, .lit 2 1, .fin 6 b, .fin 6 a, .fin 5 d, .fin 4 l, .lit 6 0x2E])
    (picks_of_minor decodeTsolv 0x2E 2 2 1 rfl rfl (by decide) fun _ _ hM hm => by rw [decodeInstr, hM, hm]; rfl) c rfl
    (fun _ _ hx hc => by simp [decodeTsolv, hx, hc, readAt]) (by simp [wordOf]; omega) rfl

theorem tref_decodesBack (a b : VReg) (pd : PReg) : (Instr.tref l d a b k mc pd).DecodesBack :=
  decodesBack_of_mod (l := [k.field, .lit 2 2, .fin 6 b, .fin 6 a, .fin 5 d, .fin 4 l, .lit 6 0x2E])
    (m := [.lit 21 0, .fin 4 pd, .lit 6 0x3F, .bit mc]) (Picks.mod (picks_of_minor decodeTref 0x2E 2 2 2 rfl rfl (by decide)
    fun _ _ hM hm => by rw [decodeInstr, hM, hm]; rfl)) rfl (fun _ _ _ hx hm hy => by simp [decodeTref, hx, hm, hy, readAt])
    (by simp [wordOf]; omega) rfl (by simp [wordOf]; omega) rfl

end Sys2Proof
end

section
/-! Memory words (R300-R322). -/

namespace Sys2Proof

variable (c mc : Bool) (g : Guard) (l : La) (x : Src) (a : Base) (o : Off) (ty : MemTy) (sc : Scope) (xd : Dst)

theorem ld_decodesBack (x : Dst) : (Instr.ld g l x a o mc ty).DecodesBack :=
  decodesBack_of_mod (l := [.bits o, a.field, x.field6, .fin 4 l, g.field, .lit 6 0x30])
    (m := [.lit 2 0, .lit 5 28, .lit 6 0, .lit 3 0, ty.field, .lit 5 0, .lit 6 0x3F, .bit mc])
    (Picks.mod (picks_of_major decodeLd 0x30 rfl fun _ _ hM => by rw [decodeInstr, hM]; rfl)) rfl
    (fun _ _ _ hx hm hy => by simp [decodeLd, hx, hm, hy, readAt]) (by simp [wordOf]; omega) rfl (by simp [wordOf]; omega) rfl

theorem st_decodesBack : (Instr.st g x a o mc ty).DecodesBack :=
  decodesBack_of_mod (l := [.bits o, a.field, x.field, .lit 4 0, g.field, .lit 6 0x31])
    (m := [.lit 2 0, .lit 5 28, .lit 6 0, .lit 3 0, ty.field, .lit 5 0, .lit 6 0x3F, .bit mc])
    (Picks.mod (picks_of_major decodeSt 0x31 rfl fun _ _ hM => by rw [decodeInstr, hM]; rfl)) rfl
    (fun _ _ _ hx hm hy => by simp [decodeSt, hx, hm, hy, readAt]) (by simp [wordOf]; omega) rfl (by simp [wordOf]; omega) rfl

theorem ldl_decodesBack (x : Dst) : (Instr.ldl g l x a o mc ty).DecodesBack :=
  decodesBack_of_mod (l := [.bits o, a.field, x.field6, .fin 4 l, g.field, .lit 6 0x32])
    (m := [.lit 2 0, .lit 5 28, .lit 6 0, .lit 3 0, ty.field, .lit 5 0, .lit 6 0x3F, .bit mc])
    (picksMod_of_opx decodeLdl 0x32 0 rfl rfl fun _ _ _ hM hm hop => by simp only [decodeInstr, hM, hm, hop]) rfl
    (fun _ _ _ hx hm hy => by simp [decodeLdl, hx, hm, hy, readAt]) (by simp [wordOf]; omega) rfl (by simp [wordOf]; omega) rfl

theorem stl_decodesBack : (Instr.stl g x a o mc ty).DecodesBack :=
  decodesBack_of_mod (l := [.bits o, a.field, x.field, .lit 4 0, g.field, .lit 6 0x32])
    (m := [.lit 2 0, .lit 5 28, .lit 6 0, .lit 3 0, ty.field, .lit 5 1, .lit 6 0x3F, .bit mc])
    (picksMod_of_opx decodeStl 0x32 1 rfl rfl fun _ _ _ hM hm hop => by simp only [decodeInstr, hM, hm, hop]) rfl
    (fun _ _ _ hx hm hy => by simp [decodeStl, hx, hm, hy, readAt]) (by simp [wordOf]; omega) rfl (by simp [wordOf]; omega) rfl

theorem ldc_decodesBack (x : Dst) : (Instr.ldc g l x a o mc ty).DecodesBack :=
  decodesBack_of_mod (l := [.bits o, a.field, x.field6, .fin 4 l, g.field, .lit 6 0x33])
    (m := [.lit 2 0, .lit 5 28, .lit 6 0, .lit 3 0, ty.field, .lit 5 0, .lit 6 0x3F, .bit mc])
    (Picks.mod (picks_of_major decodeLdc 0x33 rfl fun _ _ hM => by rw [decodeInstr, hM]; rfl)) rfl
    (fun _ _ _ hx hm hy => by simp [decodeLdc, hx, hm, hy, readAt]) (by simp [wordOf]; omega) rfl (by simp [wordOf]; omega) rfl

theorem atom_decodesBack (op : AOp) : (Instr.atom g l x a o mc op ty sc xd).DecodesBack :=
  decodesBack_of_mod (l := [.bits o, a.field, x.field, .fin 4 l, g.field, .lit 6 0x34])
    (m := [.lit 2 0, xd.field, .lit 6 0, sc.field, ty.field, op.field, .lit 6 0x3F, .bit mc])
    (Picks.mod (picks_of_major decodeAtom 0x34 rfl fun _ _ hM => by rw [decodeInstr, hM]; rfl)) rfl
    (fun _ _ _ hx hm hy => by simp [decodeAtom, hx, hm, hy, readAt]) (by simp [wordOf]; omega) rfl (by simp [wordOf]; omega) rfl

theorem red_decodesBack (op : AOp) : (Instr.red g x a o mc op ty sc).DecodesBack :=
  decodesBack_of_mod (l := [.bits o, a.field, x.field, .lit 4 0, g.field, .lit 6 0x35])
    (m := [.lit 2 0, .lit 5 28, .lit 6 0, sc.field, ty.field, op.field, .lit 6 0x3F, .bit mc])
    (Picks.mod (picks_of_major decodeRed 0x35 rfl fun _ _ hM => by rw [decodeInstr, hM]; rfl)) rfl
    (fun _ _ _ hx hm hy => by simp [decodeRed, hx, hm, hy, readAt]) (by simp [wordOf]; omega) rfl (by simp [wordOf]; omega) rfl

theorem acas_decodesBack (x2 : Src) : (Instr.acas g l x a o mc ty sc x2 xd).DecodesBack :=
  decodesBack_of_mod (l := [.bits o, a.field, x.field, .fin 4 l, g.field, .lit 6 0x36])
    (m := [.lit 2 0, xd.field, x2.field, sc.field, ty.field, .lit 5 0, .lit 6 0x3F, .bit mc])
    (picksMod_of_opx decodeAcas 0x36 0 rfl rfl fun _ _ _ hM hm hop => by simp only [decodeInstr, hM, hm, hop]) rfl
    (fun _ _ _ hx hm hy => by simp [decodeAcas, hx, hm, hy, readAt]) (by simp [wordOf]; omega) rfl (by simp [wordOf]; omega) rfl

theorem axch_decodesBack : (Instr.axch g l x a o mc ty sc xd).DecodesBack :=
  decodesBack_of_mod (l := [.bits o, a.field, x.field, .fin 4 l, g.field, .lit 6 0x36])
    (m := [.lit 2 0, xd.field, .lit 6 0, sc.field, ty.field, .lit 5 1, .lit 6 0x3F, .bit mc])
    (picksMod_of_opx decodeAxch 0x36 1 rfl rfl fun _ _ _ hM hm hop => by simp only [decodeInstr, hM, hm, hop]) rfl
    (fun _ _ _ hx hm hy => by simp [decodeAxch, hx, hm, hy, readAt]) (by simp [wordOf]; omega) rfl (by simp [wordOf]; omega) rfl

theorem fence_decodesBack (s p : Sets) (e : Scope) : (Instr.fence c s p e).DecodesBack :=
  decodesBack_of_chain (l := [e.field, .lit 3 0, p.field, s.field, .lit 2 0, .lit 5 0, .lit 8 0, .lit 6 0x37])
    (picks_of_minor decodeFence 0x37 12 5 0 rfl rfl (by decide) fun _ _ hM hm => by rw [decodeInstr, hM, hm]; rfl) c rfl
    (fun _ _ hx hc => by simp [decodeFence, hx, hc, readAt]) (by simp [wordOf]; omega) rfl

theorem fenceS_decodesBack (s p : Sets) (e : Scope) : (Instr.fenceS c s p e).DecodesBack :=
  decodesBack_of_chain (l := [e.field, .lit 3 0, p.field, s.field, .lit 2 0, .lit 5 1, .lit 8 0, .lit 6 0x37])
    (picks_of_minor decodeFenceS 0x37 12 5 1 rfl rfl (by decide) fun _ _ hM hm => by rw [decodeInstr, hM, hm]; rfl) c rfl
    (fun _ _ hx hc => by simp [decodeFenceS, hx, hc, readAt]) (by simp [wordOf]; omega) rfl

theorem waitm_decodesBack (a : VReg) (n : WCond) (w : Width) : (Instr.waitm c g l a n w).DecodesBack :=
  decodesBack_of_chain (l := [.lit 2 0, w.field, n.field, .fin 6 a, .lit 5 2, .fin 4 l, g.field, .lit 6 0x37])
    (picks_of_minor decodeWaitm 0x37 12 5 2 rfl rfl (by decide) fun _ _ hM hm => by rw [decodeInstr, hM, hm]; rfl) c rfl
    (fun _ _ hx hc => by simp [decodeWaitm, hx, hc, readAt]) (by simp [wordOf]; omega) rfl

theorem cctlInv_decodesBack (a : Addr6) : (Instr.cctlInv c g a).DecodesBack :=
  decodesBack_of_chain (l := [.lit 6 0, a.field, .lit 5 3, .lit 4 0, g.field, .lit 6 0x37])
    (picks_of_minors decodeCctlInv 0x37 12 5 3 0 6 0 rfl rfl rfl (by decide)
    fun _ _ hM hm hm' => by rw [decodeInstr, hM, hm, hm']; rfl) c rfl (fun _ _ hx hc => by simp [decodeCctlInv, hx, hc, readAt])
    (by simp [wordOf]; omega) rfl

theorem cctlInvall_decodesBack : (Instr.cctlInvall c).DecodesBack :=
  decodesBack_of_chain (l := [.lit 6 1, .lit 6 60, .lit 5 3, .lit 8 0, .lit 6 0x37])
    (picks_of_minors decodeCctlInvall 0x37 12 5 3 0 6 1 rfl rfl rfl (by decide)
    fun _ _ hM hm hm' => by rw [decodeInstr, hM, hm, hm']; rfl) c rfl
    (fun _ _ hx hc => by simp [decodeCctlInvall, hx, hc, readAt]) (by simp [wordOf]) rfl

theorem cctlWb_decodesBack (a : Addr6) : (Instr.cctlWb c g a).DecodesBack :=
  decodesBack_of_chain (l := [.lit 6 2, a.field, .lit 5 3, .lit 4 0, g.field, .lit 6 0x37])
    (picks_of_minors decodeCctlWb 0x37 12 5 3 0 6 2 rfl rfl rfl (by decide)
    fun _ _ hM hm hm' => by rw [decodeInstr, hM, hm, hm']; rfl) c rfl (fun _ _ hx hc => by simp [decodeCctlWb, hx, hc, readAt])
    (by simp [wordOf]; omega) rfl

theorem pref_decodesBack (a : Addr6) (v : Bool) : (Instr.pref c g a v).DecodesBack :=
  decodesBack_of_chain (l := [.bit v, .lit 5 0, a.field, .lit 5 4, .lit 4 0, g.field, .lit 6 0x37])
    (picks_of_minor decodePref 0x37 12 5 4 rfl rfl (by decide) fun _ _ hM hm => by rw [decodeInstr, hM, hm]; rfl) c rfl
    (fun _ _ hx hc => by simp [decodePref, hx, hc, readAt]) (by simp [wordOf]; omega) rfl

end Sys2Proof
end

section
/-! Asynchronous and control words (R324-R342, R372-R383). -/

namespace Sys2Proof

variable (t : Tail) (c : Bool) (g : Guard) (l : La) (a b : Src) (k : Four) (o : Off16)

theorem copy_decodesBack : (Instr.copy t g a b).DecodesBack :=
  decodesBack_of_tail (l := [b.field, a.field, .lit 5 0, .lit 4 0, g.field, .lit 6 0x38])
    (picks_of_minor decodeCopy 0x38 12 5 0 rfl rfl (by decide) fun _ _ hM hm => by rw [decodeInstr, hM, hm]; rfl) rfl id
    (fun _ _ hx ht => by simp [decodeCopy, hx, ht, readAt]) (by simp [wordOf]; omega) rfl

theorem copyr_decodesBack : (Instr.copyr t g a b).DecodesBack :=
  decodesBack_of_tail (l := [b.field, a.field, .lit 5 1, .lit 4 0, g.field, .lit 6 0x38])
    (picks_of_minor decodeCopyr 0x38 12 5 1 rfl rfl (by decide) fun _ _ hM hm => by rw [decodeInstr, hM, hm]; rfl) rfl id
    (fun _ _ hx ht => by simp [decodeCopyr, hx, ht, readAt]) (by simp [wordOf]; omega) rfl

theorem batch_decodesBack : (Instr.batch c l).DecodesBack :=
  decodesBack_of_chain (l := [.lit 12 3900, .lit 5 0, .fin 4 l, .lit 4 0, .lit 6 0x39])
    (picks_of_minor decodeBatch 0x39 12 5 0 rfl rfl (by decide) fun _ _ hM hm => by rw [decodeInstr, hM, hm]; rfl) c rfl
    (fun _ _ hx hc => by simp [decodeBatch, hx, hc, readAt]) (by simp [wordOf]; omega) rfl

theorem waitb_decodesBack : (Instr.waitb t l a).DecodesBack :=
  decodesBack_of_tail (l := [.lit 6 60, a.field, .lit 5 1, .fin 4 l, .lit 4 0, .lit 6 0x39])
    (picks_of_minor decodeWaitb 0x39 12 5 1 rfl rfl (by decide) fun _ _ hM hm => by rw [decodeInstr, hM, hm]; rfl) rfl id
    (fun _ _ hx ht => by simp [decodeWaitb, hx, ht, readAt]) (by simp [wordOf]; omega) rfl

theorem qfence_decodesBack (m : Four) : (Instr.qfence c m).DecodesBack :=
  decodesBack_of_chain (l := [.fin 4 m, .lit 8 240, .lit 5 2, .lit 8 0, .lit 6 0x39])
    (picks_of_minor decodeQfence 0x39 12 5 2 rfl rfl (by decide) fun _ _ hM hm => by rw [decodeInstr, hM, hm]; rfl) c rfl
    (fun _ _ hx hc => by simp [decodeQfence, hx, hc, readAt]) (by simp [wordOf]; omega) rfl

theorem tile_decodesBack (a : VReg) : (Instr.tile t g l a b).DecodesBack :=
  decodesBack_of_tail (l := [b.field, .fin 6 a, .lit 5 3, .fin 4 l, g.field, .lit 6 0x39])
    (picks_of_minor decodeTile 0x39 12 5 3 rfl rfl (by decide) fun _ _ hM hm => by rw [decodeInstr, hM, hm]; rfl) rfl
    Bool.and_elim_left (fun _ _ hx ht => by simp [decodeTile, hx, ht, readAt]) (by simp [wordOf]; omega) rfl

theorem barInit_decodesBack : (Instr.barInit t a k).DecodesBack :=
  decodesBack_of_tail (l := [.fin 4 k, .lit 2 0, a.field, .lit 5 0, .lit 8 0, .lit 6 0x3A])
    (picks_of_minor decodeBarInit 0x3A 12 5 0 rfl rfl (by decide) fun _ _ hM hm => by rw [decodeInstr, hM, hm]; rfl) rfl id
    (fun _ _ hx ht => by simp [decodeBarInit, hx, ht, readAt]) (by simp [wordOf]; omega) rfl

theorem barArrive_decodesBack : (Instr.barArrive c k).DecodesBack :=
  decodesBack_of_chain (l := [.fin 4 k, .lit 8 240, .lit 5 1, .lit 8 0, .lit 6 0x3A])
    (picks_of_minor decodeBarArrive 0x3A 12 5 1 rfl rfl (by decide) fun _ _ hM hm => by rw [decodeInstr, hM, hm]; rfl) c rfl
    (fun _ _ hx hc => by simp [decodeBarArrive, hx, hc, readAt]) (by simp [wordOf]; omega) rfl

theorem barWait_decodesBack : (Instr.barWait c l k).DecodesBack :=
  decodesBack_of_chain (l := [.fin 4 k, .lit 8 240, .lit 5 2, .fin 4 l, .lit 4 0, .lit 6 0x3A])
    (picks_of_minor decodeBarWait 0x3A 12 5 2 rfl rfl (by decide) fun _ _ hM hm => by rw [decodeInstr, hM, hm]; rfl) c rfl
    (fun _ _ hx hc => by simp [decodeBarWait, hx, hc, readAt]) (by simp [wordOf]; omega) rfl

theorem barTest_decodesBack : (Instr.barTest c l k).DecodesBack :=
  decodesBack_of_chain (l := [.fin 4 k, .lit 8 240, .lit 5 3, .fin 4 l, .lit 4 0, .lit 6 0x3A])
    (picks_of_minor decodeBarTest 0x3A 12 5 3 rfl rfl (by decide) fun _ _ hM hm => by rw [decodeInstr, hM, hm]; rfl) c rfl
    (fun _ _ hx hc => by simp [decodeBarTest, hx, hc, readAt]) (by simp [wordOf]; omega) rfl

theorem qstat_decodesBack (s : QSel) : (Instr.qstat c l s).DecodesBack :=
  decodesBack_of_chain (l := [s.field, .lit 6 60, .lit 5 4, .fin 4 l, .lit 4 0, .lit 6 0x3A])
    (picks_of_minor decodeQstat 0x3A 12 5 4 rfl rfl (by decide) fun _ _ hM hm => by rw [decodeInstr, hM, hm]; rfl) c rfl
    (fun _ _ hx hc => by simp [decodeQstat, hx, hc, readAt]) (by simp [wordOf]; omega) rfl

theorem coll_decodesBack : (Instr.coll t g a b).DecodesBack :=
  decodesBack_of_tail (l := [b.field, a.field, .lit 5 0, .lit 4 0, g.field, .lit 6 0x3B])
    (picks_of_minor decodeColl 0x3B 12 5 0 rfl rfl (by decide) fun _ _ hM hm => by rw [decodeInstr, hM, hm]; rfl) rfl id
    (fun _ _ hx ht => by simp [decodeColl, hx, ht, readAt]) (by simp [wordOf]; omega) rfl

theorem ifW_decodesBack : (Instr.ifW c g o).DecodesBack :=
  decodesBack_of_chain (l := [.bits o, g.field, .lit 5 0, .lit 6 0x3C]) (picks_of_minor decodeIfW 0x3C 20 5 0 rfl rfl (by decide)
    fun _ _ hM hm => by rw [decodeInstr, hM, hm]; rfl) c rfl (fun _ _ hx hc => by simp [decodeIfW, hx, hc, readAt])
    (by simp [wordOf]; omega) rfl

theorem elseW_decodesBack : (Instr.elseW c o).DecodesBack :=
  decodesBack_of_chain (l := [.bits o, .lit 4 0, .lit 5 1, .lit 6 0x3C])
    (picks_of_minor decodeElseW 0x3C 20 5 1 rfl rfl (by decide) fun _ _ hM hm => by rw [decodeInstr, hM, hm]; rfl) c rfl
    (fun _ _ hx hc => by simp [decodeElseW, hx, hc, readAt]) (by simp [wordOf]; omega) rfl

theorem endif_decodesBack : (Instr.endif c).DecodesBack :=
  decodesBack_of_chain (l := [.lit 20 0, .lit 5 2, .lit 6 0x3C]) (picks_of_minor decodeEndif 0x3C 20 5 2 rfl rfl (by decide)
    fun _ _ hM hm => by rw [decodeInstr, hM, hm]; rfl) c rfl (fun _ _ hx hc => by simp [decodeEndif, hx, hc, readAt])
    (by simp [wordOf]) rfl

theorem loopW_decodesBack : (Instr.loopW c g o).DecodesBack :=
  decodesBack_of_chain (l := [.bits o, g.field, .lit 5 3, .lit 6 0x3C])
    (picks_of_minor decodeLoopW 0x3C 20 5 3 rfl rfl (by decide) fun _ _ hM hm => by rw [decodeInstr, hM, hm]; rfl) c rfl
    (fun _ _ hx hc => by simp [decodeLoopW, hx, hc, readAt]) (by simp [wordOf]; omega) rfl

theorem endloop_decodesBack : (Instr.endloop c g).DecodesBack :=
  decodesBack_of_chain (l := [.lit 16 0, g.field, .lit 5 4, .lit 6 0x3C])
    (picks_of_minor decodeEndloop 0x3C 20 5 4 rfl rfl (by decide) fun _ _ hM hm => by rw [decodeInstr, hM, hm]; rfl) c rfl
    (fun _ _ hx hc => by simp [decodeEndloop, hx, hc, readAt]) (by simp [wordOf]; omega) rfl

theorem brk_decodesBack : (Instr.brk c g).DecodesBack :=
  decodesBack_of_chain (l := [.lit 16 0, g.field, .lit 5 5, .lit 6 0x3C])
    (picks_of_minor decodeBrk 0x3C 20 5 5 rfl rfl (by decide) fun _ _ hM hm => by rw [decodeInstr, hM, hm]; rfl) c rfl
    (fun _ _ hx hc => by simp [decodeBrk, hx, hc, readAt]) (by simp [wordOf]; omega) rfl

theorem cont_decodesBack : (Instr.cont c g).DecodesBack :=
  decodesBack_of_chain (l := [.lit 16 0, g.field, .lit 5 6, .lit 6 0x3C])
    (picks_of_minor decodeCont 0x3C 20 5 6 rfl rfl (by decide) fun _ _ hM hm => by rw [decodeInstr, hM, hm]; rfl) c rfl
    (fun _ _ hx hc => by simp [decodeCont, hx, hc, readAt]) (by simp [wordOf]; omega) rfl

theorem jmp_decodesBack : (Instr.jmp c g o).DecodesBack :=
  decodesBack_of_chain (l := [.bits o, g.field, .lit 5 7, .lit 6 0x3C]) (picks_of_minor decodeJmp 0x3C 20 5 7 rfl rfl (by decide)
    fun _ _ hM hm => by rw [decodeInstr, hM, hm]; rfl) c rfl (fun _ _ hx hc => by simp [decodeJmp, hx, hc, readAt])
    (by simp [wordOf]; omega) rfl

theorem call_decodesBack : (Instr.call c g o).DecodesBack :=
  decodesBack_of_chain (l := [.bits o, g.field, .lit 5 8, .lit 6 0x3C])
    (picks_of_minor decodeCall 0x3C 20 5 8 rfl rfl (by decide) fun _ _ hM hm => by rw [decodeInstr, hM, hm]; rfl) c rfl
    (fun _ _ hx hc => by simp [decodeCall, hx, hc, readAt]) (by simp [wordOf]; omega) rfl

theorem ret_decodesBack : (Instr.ret c g).DecodesBack :=
  decodesBack_of_chain (l := [.lit 16 0, g.field, .lit 5 9, .lit 6 0x3C])
    (picks_of_minor decodeRet 0x3C 20 5 9 rfl rfl (by decide) fun _ _ hM hm => by rw [decodeInstr, hM, hm]; rfl) c rfl
    (fun _ _ hx hc => by simp [decodeRet, hx, hc, readAt]) (by simp [wordOf]; omega) rfl

theorem exit_decodesBack : (Instr.exit c g).DecodesBack :=
  decodesBack_of_chain (l := [.lit 16 0, g.field, .lit 5 10, .lit 6 0x3C])
    (picks_of_minor decodeExit 0x3C 20 5 10 rfl rfl (by decide) fun _ _ hM hm => by rw [decodeInstr, hM, hm]; rfl) c rfl
    (fun _ _ hx hc => by simp [decodeExit, hx, hc, readAt]) (by simp [wordOf]; omega) rfl

theorem nop_decodesBack : (Instr.nop c).DecodesBack :=
  decodesBack_of_chain (l := [.lit 20 0, .lit 5 11, .lit 6 0x3C]) (picks_of_minor decodeNop 0x3C 20 5 11 rfl rfl (by decide)
    fun _ _ hM hm => by rw [decodeInstr, hM, hm]; rfl) c rfl (fun _ _ hx hc => by simp [decodeNop, hx, hc, readAt])
    (by simp [wordOf]) rfl

end Sys2Proof
end

section
/-! Launch, system and path words (R184-R188, R290-R295, R384-R410). -/

namespace Sys2Proof

variable (t : Tail) (c : Bool) (g : Guard) (l : La) (a b : Src) (n : Six)

theorem launch_decodesBack : (Instr.launch t g l a b).DecodesBack :=
  decodesBack_of_tail (l := [b.field, a.field, .lit 5 0, .fin 4 l, g.field, .lit 6 0x3D])
    (picks_of_minor decodeLaunch 0x3D 12 5 0 rfl rfl (by decide) fun _ _ hM hm => by rw [decodeInstr, hM, hm]; rfl) rfl
    (Bool.and_elim_left ∘ Bool.and_elim_left) (fun _ _ hx ht => by simp [decodeLaunch, hx, ht, readAt]) (by simp [wordOf]; omega)
    rfl

theorem waitchild_decodesBack : (Instr.waitchild t l a).DecodesBack :=
  decodesBack_of_tail (l := [.lit 6 60, a.field, .lit 5 1, .fin 4 l, .lit 4 0, .lit 6 0x3D])
    (picks_of_minor decodeWaitchild 0x3D 12 5 1 rfl rfl (by decide) fun _ _ hM hm => by rw [decodeInstr, hM, hm]; rfl) rfl
    Bool.and_elim_left (fun _ _ hx ht => by simp [decodeWaitchild, hx, ht, readAt]) (by simp [wordOf]; omega) rfl

theorem spawn_decodesBack (b : MaskSrc) : (Instr.spawn t g a b).DecodesBack :=
  decodesBack_of_tail (l := [b.field, a.field, .lit 5 2, .lit 4 0, g.field, .lit 6 0x3D])
    (picks_of_minor decodeSpawn 0x3D 12 5 2 rfl rfl (by decide) fun _ _ hM hm => by rw [decodeInstr, hM, hm]; rfl) rfl
    Bool.and_elim_left (fun _ _ hx ht => by simp [decodeSpawn, hx, ht, readAt]) (by simp [wordOf]; omega) rfl

theorem yieldW_decodesBack (b : MaskSrc) : (Instr.yieldW t g a b).DecodesBack :=
  decodesBack_of_tail (l := [b.field, a.field, .lit 5 3, .lit 4 0, g.field, .lit 6 0x3D])
    (picks_of_minor decodeYieldW 0x3D 12 5 3 rfl rfl (by decide) fun _ _ hM hm => by rw [decodeInstr, hM, hm]; rfl) rfl
    Bool.and_elim_left (fun _ _ hx ht => by simp [decodeYieldW, hx, ht, readAt]) (by simp [wordOf]; omega) rfl

theorem task_decodesBack (b : MaskSrc) : (Instr.task t b).DecodesBack :=
  decodesBack_of_tail (l := [b.field, .lit 6 60, .lit 5 4, .lit 8 0, .lit 6 0x3D])
    (picks_of_minor decodeTask 0x3D 12 5 4 rfl rfl (by decide) fun _ _ hM hm => by rw [decodeInstr, hM, hm]; rfl) rfl id
    (fun _ _ hx ht => by simp [decodeTask, hx, ht, readAt]) (by simp [wordOf]; omega) rfl

theorem commit_decodesBack : (Instr.commit c).DecodesBack :=
  decodesBack_of_chain (l := [.lit 12 3900, .lit 5 5, .lit 8 0, .lit 6 0x3D])
    (picks_of_minor decodeCommit 0x3D 12 5 5 rfl rfl (by decide) fun _ _ hM hm => by rw [decodeInstr, hM, hm]; rfl) c rfl
    (fun _ _ hx hc => by simp [decodeCommit, hx, hc, readAt]) (by simp [wordOf]) rfl

theorem regs_decodesBack (b : MaskSrc) : (Instr.regs t n b).DecodesBack :=
  decodesBack_of_tail (l := [b.field, .fin 6 n, .lit 5 6, .lit 8 0, .lit 6 0x3D])
    (picks_of_minor decodeRegs 0x3D 12 5 6 rfl rfl (by decide) fun _ _ hM hm => by rw [decodeInstr, hM, hm]; rfl) rfl id
    (fun _ _ hx ht => by simp [decodeRegs, hx, ht, readAt]) (by simp [wordOf]; omega) rfl

theorem endregs_decodesBack : (Instr.endregs c).DecodesBack :=
  decodesBack_of_chain (l := [.lit 12 3900, .lit 5 7, .lit 8 0, .lit 6 0x3D])
    (picks_of_minor decodeEndregs 0x3D 12 5 7 rfl rfl (by decide) fun _ _ hM hm => by rw [decodeInstr, hM, hm]; rfl) c rfl
    (fun _ _ hx hc => by simp [decodeEndregs, hx, hc, readAt]) (by simp [wordOf]) rfl

theorem grow_decodesBack (b : MaskSrc) : (Instr.grow t n b).DecodesBack :=
  decodesBack_of_tail (l := [b.field, .fin 6 n, .lit 5 8, .lit 8 0, .lit 6 0x3D])
    (picks_of_minor decodeGrow 0x3D 12 5 8 rfl rfl (by decide) fun _ _ hM hm => by rw [decodeInstr, hM, hm]; rfl) rfl id
    (fun _ _ hx ht => by simp [decodeGrow, hx, ht, readAt]) (by simp [wordOf]; omega) rfl

theorem shrink_decodesBack : (Instr.shrink c n).DecodesBack :=
  decodesBack_of_chain (l := [.lit 6 60, .fin 6 n, .lit 5 9, .lit 8 0, .lit 6 0x3D])
    (picks_of_minor decodeShrink 0x3D 12 5 9 rfl rfl (by decide) fun _ _ hM hm => by rw [decodeInstr, hM, hm]; rfl) c rfl
    (fun _ _ hx hc => by simp [decodeShrink, hx, hc, readAt]) (by simp [wordOf]; omega) rfl

theorem trap_decodesBack : (Instr.trap t g n b).DecodesBack :=
  decodesBack_of_tail (l := [b.field, .fin 6 n, .lit 5 10, .lit 4 0, g.field, .lit 6 0x3D])
    (picks_of_minor decodeTrap 0x3D 12 5 10 rfl rfl (by decide) fun _ _ hM hm => by rw [decodeInstr, hM, hm]; rfl) rfl
    Bool.and_elim_left (fun _ _ hx ht => by simp [decodeTrap, hx, ht, readAt]) (by simp [wordOf]; omega) rfl

theorem rtt_decodesBack : (Instr.rtt c).DecodesBack :=
  decodesBack_of_chain (l := [.lit 12 3900, .lit 5 11, .lit 8 0, .lit 6 0x3D])
    (picks_of_minor decodeRtt 0x3D 12 5 11 rfl rfl (by decide) fun _ _ hM hm => by rw [decodeInstr, hM, hm]; rfl) c rfl
    (fun _ _ hx hc => by simp [decodeRtt, hx, hc, readAt]) (by simp [wordOf]) rfl

theorem getsr_decodesBack : (Instr.getsr c g l n).DecodesBack :=
  decodesBack_of_chain (l := [.lit 6 60, .fin 6 n, .lit 5 12, .fin 4 l, g.field, .lit 6 0x3D])
    (picks_of_minor decodeGetsr 0x3D 12 5 12 rfl rfl (by decide) fun _ _ hM hm => by rw [decodeInstr, hM, hm]; rfl) c rfl
    (fun _ _ hx hc => by simp [decodeGetsr, hx, hc, readAt]) (by simp [wordOf]; omega) rfl

theorem setsr_decodesBack : (Instr.setsr t g n b).DecodesBack :=
  decodesBack_of_tail (l := [b.field, .fin 6 n, .lit 5 13, .lit 4 0, g.field, .lit 6 0x3D])
    (picks_of_minor decodeSetsr 0x3D 12 5 13 rfl rfl (by decide) fun _ _ hM hm => by rw [decodeInstr, hM, hm]; rfl) rfl
    Bool.and_elim_left (fun _ _ hx ht => by simp [decodeSetsr, hx, ht, readAt]) (by simp [wordOf]; omega) rfl

theorem waitpred_decodesBack : (Instr.waitpred c).DecodesBack :=
  decodesBack_of_chain (l := [.lit 12 3900, .lit 5 14, .lit 8 0, .lit 6 0x3D])
    (picks_of_minor decodeWaitpred 0x3D 12 5 14 rfl rfl (by decide) fun _ _ hM hm => by rw [decodeInstr, hM, hm]; rfl) c rfl
    (fun _ _ hx hc => by simp [decodeWaitpred, hx, hc, readAt]) (by simp [wordOf]) rfl

theorem sigsucc_decodesBack : (Instr.sigsucc c).DecodesBack :=
  decodesBack_of_chain (l := [.lit 12 3900, .lit 5 15, .lit 8 0, .lit 6 0x3D])
    (picks_of_minor decodeSigsucc 0x3D 12 5 15 rfl rfl (by decide) fun _ _ hM hm => by rw [decodeInstr, hM, hm]; rfl) c rfl
    (fun _ _ hx hc => by simp [decodeSigsucc, hx, hc, readAt]) (by simp [wordOf]) rfl

theorem traceW_decodesBack : (Instr.traceW t g n b).DecodesBack :=
  decodesBack_of_tail (l := [b.field, .fin 6 n, .lit 5 16, .lit 4 0, g.field, .lit 6 0x3D])
    (picks_of_minor decodeTraceW 0x3D 12 5 16 rfl rfl (by decide) fun _ _ hM hm => by rw [decodeInstr, hM, hm]; rfl) rfl
    Bool.and_elim_left (fun _ _ hx ht => by simp [decodeTraceW, hx, ht, readAt]) (by simp [wordOf]; omega) rfl

theorem pathb_decodesBack : (Instr.pathb t a b).DecodesBack :=
  decodesBack_of_tail (l := [b.field, a.field, .lit 5 0, .lit 8 0, .lit 6 0x3E])
    (picks_of_minor decodePathb 0x3E 12 5 0 rfl rfl (by decide) fun _ _ hM hm => by rw [decodeInstr, hM, hm]; rfl) rfl
    (Bool.and_elim_left ∘ Bool.and_elim_left) (fun _ _ hx ht => by simp [decodePathb, hx, ht, readAt]) (by simp [wordOf]; omega)
    rfl

theorem segl_decodesBack (a : VReg) : (Instr.segl c g a).DecodesBack :=
  decodesBack_of_chain (l := [.lit 6 60, .fin 6 a, .lit 5 1, .lit 4 0, g.field, .lit 6 0x3E])
    (picks_of_minor decodeSegl 0x3E 12 5 1 rfl rfl (by decide) fun _ _ hM hm => by rw [decodeInstr, hM, hm]; rfl) c rfl
    (fun _ _ hx hc => by simp [decodeSegl, hx, hc, readAt]) (by simp [wordOf]; omega) rfl

theorem segq_decodesBack (a : VReg) : (Instr.segq c g a).DecodesBack :=
  decodesBack_of_chain (l := [.lit 6 60, .fin 6 a, .lit 5 2, .lit 4 0, g.field, .lit 6 0x3E])
    (picks_of_minor decodeSegq 0x3E 12 5 2 rfl rfl (by decide) fun _ _ hM hm => by rw [decodeInstr, hM, hm]; rfl) c rfl
    (fun _ _ hx hc => by simp [decodeSegq, hx, hc, readAt]) (by simp [wordOf]; omega) rfl

theorem segc_decodesBack (a : VReg) : (Instr.segc c g a).DecodesBack :=
  decodesBack_of_chain (l := [.lit 6 60, .fin 6 a, .lit 5 3, .lit 4 0, g.field, .lit 6 0x3E])
    (picks_of_minor decodeSegc 0x3E 12 5 3 rfl rfl (by decide) fun _ _ hM hm => by rw [decodeInstr, hM, hm]; rfl) c rfl
    (fun _ _ hx hc => by simp [decodeSegc, hx, hc, readAt]) (by simp [wordOf]; omega) rfl

theorem pathe_decodesBack : (Instr.pathe t a b).DecodesBack :=
  decodesBack_of_tail (l := [b.field, a.field, .lit 5 4, .lit 8 0, .lit 6 0x3E])
    (picks_of_minor decodePathe 0x3E 12 5 4 rfl rfl (by decide) fun _ _ hM hm => by rw [decodeInstr, hM, hm]; rfl) rfl
    (Bool.and_elim_left ∘ Bool.and_elim_left) (fun _ _ hx ht => by simp [decodePathe, hx, ht, readAt]) (by simp [wordOf]; omega)
    rfl

theorem covrd_decodesBack : (Instr.covrd t g l a b).DecodesBack :=
  decodesBack_of_tail (l := [b.field, a.field, .lit 5 5, .fin 4 l, g.field, .lit 6 0x3E])
    (picks_of_minor decodeCovrd 0x3E 12 5 5 rfl rfl (by decide) fun _ _ hM hm => by rw [decodeInstr, hM, hm]; rfl) rfl
    (Bool.and_elim_left ∘ Bool.and_elim_left) (fun _ _ hx ht => by simp [decodeCovrd, hx, ht, readAt]) (by simp [wordOf]; omega)
    rfl

end Sys2Proof
end

section
/-! Encoding and decoding agree (R198-R207), and so on the words that the spec writes out. -/

namespace Sys2Proof

/-- Every encoded instruction is read back, by its own lemma; an event has no words. -/
theorem Instr.decodesBack {i : Instr} (h : i.isEvent = false) : i.DecodesBack := by
  cases i with
  | iadd => apply iadd_decodesBack
  | isub => apply isub_decodesBack
  | iaddc => apply iaddc_decodesBack
  | imul => apply imul_decodesBack
  | imulhI => apply imulhI_decodesBack
  | imulhN => apply imulhN_decodesBack
  | imad => apply imad_decodesBack
  | andB => apply andB_decodesBack
  | orB => apply orB_decodesBack
  | xorB => apply xorB_decodesBack
  | andn => apply andn_decodesBack
  | orn => apply orn_decodesBack
  | notB => apply notB_decodesBack
  | shl => apply shl_decodesBack
  | shr => apply shr_decodesBack
  | sar => apply sar_decodesBack
  | rol => apply rol_decodesBack
  | ror => apply ror_decodesBack
  | popc => apply popc_decodesBack
  | clz => apply clz_decodesBack
  | ctz => apply ctz_decodesBack
  | brev => apply brev_decodesBack
  | bfeN => apply bfeN_decodesBack
  | bfeI => apply bfeI_decodesBack
  | bfi => apply bfi_decodesBack
  | minI => apply minI_decodesBack
  | minN => apply minN_decodesBack
  | maxI => apply maxI_decodesBack
  | maxN => apply maxN_decodesBack
  | absI => apply absI_decodesBack
  | negI => apply negI_decodesBack
  | sel => apply sel_decodesBack
  | mov => apply mov_decodesBack
  | movs => apply movs_decodesBack
  | lea => apply lea_decodesBack
  | icmp32 => apply icmp32_decodesBack
  | icmp64 => apply icmp64_decodesBack
  | pand => apply pand_decodesBack
  | por => apply por_decodesBack
  | pxor => apply pxor_decodesBack
  | pnot => apply pnot_decodesBack
  | pmov => apply pmov_decodesBack
  | censusNz => apply censusNz_decodesBack
  | censusLsb => apply censusLsb_decodesBack
  | censusSgn => apply censusSgn_decodesBack
  | routeFrom => apply routeFrom_decodesBack
  | routeRot => apply routeRot_decodesBack
  | routeShift => apply routeShift_decodesBack
  | routeFlip => apply routeFlip_decodesBack
  | peers => apply peers_decodesBack
  | fadd => apply fadd_decodesBack
  | fsub => apply fsub_decodesBack
  | fmul => apply fmul_decodesBack
  | ffma => apply ffma_decodesBack
  | ffms => apply ffms_decodesBack
  | fnma => apply fnma_decodesBack
  | fmin => apply fmin_decodesBack
  | fmax => apply fmax_decodesBack
  | fminNum => apply fminNum_decodesBack
  | fmaxNum => apply fmaxNum_decodesBack
  | fcmp => apply fcmp_decodesBack
  | fcvt => apply fcvt_decodesBack
  | fclass => apply fclass_decodesBack
  | ffrexp => apply ffrexp_decodesBack
  | fabs => apply fabs_decodesBack
  | fneg => apply fneg_decodesBack
  | fcpysgn => apply fcpysgn_decodesBack
  | fscale => apply fscale_decodesBack
  | fdiv => apply fdiv_decodesBack
  | fsqrt => apply fsqrt_decodesBack
  | frcp => apply frcp_decodesBack
  | frsq => apply frsq_decodesBack
  | fexp2 => apply fexp2_decodesBack
  | flog2 => apply flog2_decodesBack
  | fsin => apply fsin_decodesBack
  | fcos => apply fcos_decodesBack
  | ftanh => apply ftanh_decodesBack
  | pkadd16 => apply pkadd16_decodesBack
  | pkmul16 => apply pkmul16_decodesBack
  | pkfma16 => apply pkfma16_decodesBack
  | pkfna16 => apply pkfna16_decodesBack
  | cvtn => apply cvtn_decodesBack
  | dot4I8 => apply dot4I8_decodesBack
  | dot4N8 => apply dot4N8_decodesBack
  | dot8E4m3 => apply dot8E4m3_decodesBack
  | dot8E5m2 => apply dot8E5m2_decodesBack
  | sclx => apply sclx_decodesBack
  | scls => apply scls_decodesBack
  | pkaddF32 => apply pkaddF32_decodesBack
  | pkmulF32 => apply pkmulF32_decodesBack
  | pkfmaF32 => apply pkfmaF32_decodesBack
  | pkfnaF32 => apply pkfnaF32_decodesBack
  | mmad => apply mmad_decodesBack
  | mmaF32 => apply mmaF32_decodesBack
  | mmaBf16 => apply mmaBf16_decodesBack
  | mmaF16 => apply mmaF16_decodesBack
  | mmaq => apply mmaq_decodesBack
  | mmas => apply mmas_decodesBack
  | mmat => apply mmat_decodesBack
  | mmaj => apply mmaj_decodesBack
  | tfact => apply tfact_decodesBack
  | tsolv => apply tsolv_decodesBack
  | tref => apply tref_decodesBack
  | ld => apply ld_decodesBack
  | st => apply st_decodesBack
  | ldl => apply ldl_decodesBack
  | stl => apply stl_decodesBack
  | ldc => apply ldc_decodesBack
  | atom => apply atom_decodesBack
  | red => apply red_decodesBack
  | acas => apply acas_decodesBack
  | axch => apply axch_decodesBack
  | fence => apply fence_decodesBack
  | fenceS => apply fenceS_decodesBack
  | waitm => apply waitm_decodesBack
  | cctlInv => apply cctlInv_decodesBack
  | cctlInvall => apply cctlInvall_decodesBack
  | cctlWb => apply cctlWb_decodesBack
  | pref => apply pref_decodesBack
  | copy => apply copy_decodesBack
  | copyr => apply copyr_decodesBack
  | batch => apply batch_decodesBack
  | waitb => apply waitb_decodesBack
  | qfence => apply qfence_decodesBack
  | tile => apply tile_decodesBack
  | barInit => apply barInit_decodesBack
  | barArrive => apply barArrive_decodesBack
  | barWait => apply barWait_decodesBack
  | barTest => apply barTest_decodesBack
  | qstat => apply qstat_decodesBack
  | coll => apply coll_decodesBack
  | ifW => apply ifW_decodesBack
  | elseW => apply elseW_decodesBack
  | endif => apply endif_decodesBack
  | loopW => apply loopW_decodesBack
  | endloop => apply endloop_decodesBack
  | brk => apply brk_decodesBack
  | cont => apply cont_decodesBack
  | jmp => apply jmp_decodesBack
  | call => apply call_decodesBack
  | ret => apply ret_decodesBack
  | exit => apply exit_decodesBack
  | nop => apply nop_decodesBack
  | launch => apply launch_decodesBack
  | waitchild => apply waitchild_decodesBack
  | spawn => apply spawn_decodesBack
  | yieldW => apply yieldW_decodesBack
  | task => apply task_decodesBack
  | commit => apply commit_decodesBack
  | regs => apply regs_decodesBack
  | endregs => apply endregs_decodesBack
  | grow => apply grow_decodesBack
  | shrink => apply shrink_decodesBack
  | trap => apply trap_decodesBack
  | rtt => apply rtt_decodesBack
  | getsr => apply getsr_decodesBack
  | setsr => apply setsr_decodesBack
  | waitpred => apply waitpred_decodesBack
  | sigsucc => apply sigsucc_decodesBack
  | traceW => apply traceW_decodesBack
  | pathb => apply pathb_decodesBack
  | segl => apply segl_decodesBack
  | segq => apply segq_decodesBack
  | segc => apply segc_decodesBack
  | pathe => apply pathe_decodesBack
  | covrd => apply covrd_decodesBack
  | _ => cases h

/-- Settles O57: each instruction is read back from the fields of its words. -/
theorem encodeDecode : Obligations.EncodeDecode :=
  fun _ rest hevent hwf hrest => Instr.decodesBack hevent rest hwf hrest

/-- Settles O60: each word of the spec is its instruction's encoding, which decodes back. -/
theorem wordsDecode : Obligations.WordsDecode := by
  intro x hx
  obtain ⟨henc, hevent, hwf, hchain⟩ :
      x.1 = encode x.2 ∧ x.2.isEvent = false ∧ x.2.wf = true ∧ isLitWord 0x78B00000 = false := by
    revert x
    decide
  rw [henc]
  exact encodeDecode x.2 [0x78B00000] hevent hwf fun _ _ _ => ⟨_, _, rfl, hchain⟩

end Sys2Proof
end

section
/-! GETSR and SETSR of registers that they may not name (R212, R389, R394). -/

namespace Sys2Proof.Machine

variable {i : Instr} {s : State} {c : Cx} {bad : Option Nat}

/-- A word whose fixed fields are illegal takes its trap whatever else would stand in its way. -/
theorem staticWord_of_bad (hc : cx? i s = some c) {info : Nat} (hbad : bad = some info) (ck : Checks) (body : Cx → State) :
    staticWord i bad ck s body = .next (c.raise causeIllegal info) := by
  subst hbad
  rw [staticWord, hc]

/-- A word whose fixed fields are legal, and that every word's checks let through, runs its body. -/
theorem staticWord_of_clear (hc : cx? i s = some c) (h : c.Clear) (hbad : bad = none) (body : Cx → State) :
    staticWord i bad Checks.none s body = .next (body c) := by
  subst hbad
  exact issue_clear (ck := Checks.none) hc h (fun _ hn => absurd hn List.not_mem_nil) rfl rfl rfl body

theorem sysForbidden_of_unassigned {n : Nat} (h : (14 ≤ n ∧ n ≤ 31) ∨ 36 ≤ n) : sysForbidden n = some 2 := if_pos h

theorem sysForbidden_of_privileged {n : Nat} (h₁ : 32 ≤ n) (h₂ : n ≤ 35) : sysForbidden n = none := if_neg (by omega)

theorem sysDenied_of_unprivileged {n : Nat} (h : 32 ≤ n) (hp : c.g.info.priv = false) : c.sysDenied n = true := by
  rw [Cx.sysDenied, hp, decide_eq_true h]
  rfl

/-- Settles O36: an unassigned register stops the word at its fixed fields, and a privileged one the word's body. -/
theorem privilegedRegistersTrap : Obligations.PrivilegedRegistersTrap := by
  intro t b g l n x s c i hi hc
  refine ⟨fun hclear h₁ h₂ hp => ?_, fun hn => ?_⟩
  · have hbad := sysForbidden_of_privileged h₁ h₂
    have hdenied := sysDenied_of_unprivileged h₁ hp
    obtain rfl | rfl := hi
    · exact (staticWord_of_clear hc hclear hbad _).trans (congrArg _ (if_pos hdenied))
    · exact (staticWord_of_clear hc hclear hbad _).trans (congrArg _ (if_pos hdenied))
  · have hbad := sysForbidden_of_unassigned hn
    obtain rfl | rfl := hi
    · exact staticWord_of_bad hc hbad _ _
    · exact staticWord_of_bad hc hbad _ _

end Sys2Proof.Machine
end

section
/-! One chain of one instruction (R198-R201, R212, R218, R428, R429): what a step does with it, from its fetch to its issue
slot. -/

namespace Sys2Proof.Machine

/-! ## Units in line -/

/-- The machine with a unit out of line. -/
def State.outOfLine (s : State) (u : UnitRef) : State := { s with issuing := s.issuing.filter (· != u) }

theorem unitKey_of_key (k split : Nat) : unitKey ⟨coreOf k, slotOf k, split⟩ = k := by
  simp only [unitKey, coreOf, slotOf]
  omega

/-- A unit that may issue names its group's core and slot. -/
theorem eq_of_unitRuns {s : State} {u : UnitRef} (h : unitRuns s u = true) :
    u = ⟨coreOf (unitKey u), slotOf (unitKey u), u.split⟩ := by
  rw [unitRuns, Bool.and_eq_true, List.any_eq_true] at h
  obtain ⟨⟨x, hx, hxu⟩, -⟩ := h
  obtain ⟨e, he, hx⟩ := List.mem_flatMap.1 hx
  have hcore : coreOf e.1 = u.core := by simpa using (List.mem_filter.1 he).2
  obtain ⟨-, hx⟩ := List.mem_ite_nil_left.1 hx
  obtain ⟨sp, -, rfl⟩ := List.mem_map.1 hx
  have hu : ⟨u.core, slotOf e.1, sp.id⟩ = u := by simpa using hxu
  have hslot : u.slot < 32 := by
    rw [← hu]
    exact Nat.mod_lt _ (by decide)
  have hkey : coreOf (unitKey u) = u.core ∧ slotOf (unitKey u) = u.slot := by
    simp only [unitKey, coreOf, slotOf]
    omega
  rw [hkey.1, hkey.2]

/-- The split of a unit in hand is the one that its name selects. -/
theorem split?_of_cx? {i : Instr} {s : State} {c : Cx} (h : cx? i s = some c) : c.g.split? s.sel.split = some c.sp := by
  unfold cx? at h
  dsimp only at h
  split at h
  · cases h
  · split at h
    · cases h
    · next hsp =>
      obtain rfl := Option.some.inj h
      exact hsp

/-! ## The chain -/

/-- The chain of a unit whose packet lies in device memory within a page (R199): what the packet's words read, after the fetch. -/
theorem nextChain_of_bytes {c : Cx} {f : Leaf} {pa : Nat} {x : State} {l : List ChainItem}
    (hpage : (c.g.info.code + 12 * c.sp.pc.packet) % 2 ^ 16 ≤ 2 ^ 16 - 12)
    (hwild : wildAddr (c.g.info.code + 12 * c.sp.pc.packet + 11) = false)
    (hxl : translate c.s c.k none c.g.info.ctx (c.g.info.code + 12 * c.sp.pc.packet) .fetch false = (.ok f pa, x))
    (htgt : f.tgt = 0) (hsound : physPoison (touchPhys x pa 12 c.g.info.ctx) pa 12 = false)
    (hread : readChain (packetWords (physRead (touchPhys x pa 12 c.g.info.ctx) pa 12)) c.sp.pc.slot = (l, none)) :
    c.nextChain = (.chain l, { c with s := touchPhys x pa 12 c.g.info.ctx }) := by
  have hn : min 12 (2 ^ 16 - (c.g.info.code + 12 * c.sp.pc.packet) % 2 ^ 16) = 12 := by omega
  have hpart : c.fetchPart 64 (c.g.info.code + 12 * c.sp.pc.packet) 12 =
      (.bytes (physRead (touchPhys x pa 12 c.g.info.ctx) pa 12), { c with s := touchPhys x pa 12 c.g.info.ctx }) := by
    simp [Cx.fetchPart, hwild, hxl, htgt, hsound]
  have hpacket : c.fetchPacket =
      (.bytes (physRead (touchPhys x pa 12 c.g.info.ctx) pa 12), { c with s := touchPhys x pa 12 c.g.info.ctx }) := by
    unfold Cx.fetchPacket
    simp only [hn, hpart, if_true]
  simp [Cx.nextChain, hpacket, hread]

/-- The fetch of a packet takes no time. -/
theorem fetched_clock {c : Cx} {va pa : Nat} {f : Leaf} {x : State}
    (hxl : translate c.s c.k none c.g.info.ctx va .fetch false = (.ok f pa, x)) :
    (touchPhys x pa 12 c.g.info.ctx).clock = c.s.clock := by
  obtain ⟨-, hclock, -⟩ := memoryOnly_touchPhys x pa 12 c.g.info.ctx
  have hx : x.clock = c.s.clock := by simpa [hxl] using translate_clock c.s c.k none c.g.info.ctx va .fetch false
  exact hclock.trans hx

/-- How the one word of a chain ends it. -/
def endOf (t : State) : Ended :=
  match t.last with
  | .issued => .done
  | .held => .held
  | _ => .stopped

/-- The words of a chain of one that have issued: none where it is held, and one that traps where the trap counts it (R436). -/
def wordsIssued (t : State) (k split : Nat) (pc : Pc) : Nat :=
  match t.last with
  | .issued => 1
  | .held => 0
  | _ => passed t k split pc

theorem passed_le_one (t : State) (k split : Nat) (pc : Pc) : passed t k split pc ≤ 1 := by
  unfold passed
  split
  · rw [b2n]; split <;> decide
  · exact Nat.zero_le _

theorem wordsIssued_le_one (t : State) (k split : Nat) (pc : Pc) : wordsIssued t k split pc ≤ 1 := by
  unfold wordsIssued
  split
  · exact le_rfl
  · exact Nat.zero_le _
  · exact passed_le_one ..

theorem endOf_eq_held_iff {t : State} : endOf t = .held ↔ t.last = .held := by
  unfold endOf
  split <;> simp_all

theorem wordsIssued_of_held {t : State} (h : endOf t = .held) (k split : Nat) (pc : Pc) : wordsIssued t k split pc = 0 := by
  rw [wordsIssued, endOf_eq_held_iff.1 h]

/-- The instructions of a chain of one that have issued. -/
theorem itemWords_take {n : Nat} (h : n ≤ 1) (i : Instr) : itemWords ([.ins i].take n) = if n = 0 then [] else [i] := by
  interval_cases n <;> rfl

/-- A chain of one instruction runs it (R201). -/
theorem runItems_single {s₀ s t : State} {k split : Nat} {sp : Split} {i : Instr} (hsp : unitSplit s k split = some sp)
    (h : exec i s = .next t) :
    runItems s₀ k split sp.pc [.ins i] 0 s = .ok ⟨t, wordsIssued t k split sp.pc, endOf t⟩ := by
  unfold runItems
  simp only [runItem, h, hsp, Option.map_some, Option.getD_some, wordsIssued, endOf]
  cases t.last <;> simp [runItems]

theorem runItems_single_fault {s₀ s : State} {k split n : Nat} {pc : Pc} {i : Instr} {e : Fault} (h : exec i s = .fault e) :
    runItems s₀ k split pc [.ins i] n s = .error e := by
  unfold runItems
  simp only [runItem, h]

section Chain

variable {s : State} {k split : Nat} {c d : Cx} {i : Instr}
  (hc : cx? (.nop false) { s with sel := ⟨coreOf k, slotOf k, split⟩, pre := none } = some c)
  (hchain : c.nextChain = (.chain [.ins i], d))
include hc hchain

/-- A chain of one instruction, run for its group, with the cycles of its results and of the split's next word (R218, R373). -/
theorem runChain_single (hk : d.k = k) (hsp : d.g.split? split = some d.sp) (hclock : d.s.clock = s.clock) {t : State}
    (h : exec i { d.s.setGroup k d.g with pre := none } = .next t) {n : Nat} (hn : wordsIssued t k split d.sp.pc = n)
    {ws : List Instr} (hws : itemWords ([.ins i].take n) = ws) :
    runChain s k split 3 = .ok ⟨if n = 0 then { t with pre := none } else State.onGroup { t with pre := none } k fun g =>
      (g.paced split s.clock.cycle ws d.sp.pc).nextAt d.sp s.clock.cycle ws, n, endOf t⟩ := by
  subst hn hws
  have hsplit : unitSplit { d.s.setGroup k d.g with pre := none } k split = some d.sp := by
    have hgroup := congrArg (Option.bind · fun g => g.split? split) (State.group?_setGroup d.s k d.g)
    exact hgroup.trans hsp
  have hitems := runItems_single (s₀ := d.s.setGroup k d.g) hsplit h
  have hheld : (endOf t = .held ∨ wordsIssued t k split d.sp.pc = 0) ↔ wordsIssued t k split d.sp.pc = 0 :=
    or_iff_right_of_imp fun h => wordsIssued_of_held h ..
  unfold runChain
  simp only [hc, hchain, Cx.st, hk, List.length_singleton, le_refl, if_true, List.take_succ_cons, List.take_nil, hitems, hheld]
  rw [State.setGroup_clock, hclock]

theorem runChain_single_fault (hk : d.k = k) {e : Fault} (h : exec i { d.s.setGroup k d.g with pre := none } = .fault e) :
    runChain s k split 3 = .error e := by
  have hitems := runItems_single_fault (s₀ := d.s.setGroup k d.g) (k := k) (split := split) (n := 0) (pc := d.sp.pc) h
  unfold runChain
  simp only [hc, hchain, Cx.st, hk, List.length_singleton, le_refl, if_true, List.take_succ_cons, List.take_nil, hitems]

theorem unitItems_single {u : UnitRef} (hu : u = ⟨coreOf k, slotOf k, split⟩) : unitItems s u = [.ins i] := by
  subst hu
  unfold unitItems
  simp only [hc, hchain]

end Chain

/-! ## The issue -/

section Unit

variable {s : State} {u : UnitRef} {k : Nat} (hk : k = unitKey u) (hruns : unitRuns (s.outOfLine u) u = true)
  (hfits : unitFits (s.outOfLine u) u = true) (hready : unitReady (s.outOfLine u) u = true)
  (hgroups : unitGroups (s.outOfLine u) u = [k])
include hk hruns hfits hready hgroups

/-- A unit of one group whose chain runs: a chain that is held takes no slot, a free NOP's unit stays in line, and another chain
takes a slot with its pipes (R428, R429; LOG 54). -/
theorem issueUnit_of_runChain {i : Instr} {sp : Split} {n : Nat} {how : Ended} {v : State} {ws : List Instr}
    (hsp : unitSplit (s.outOfLine u) k u.split = some sp) (hitems : unitItems (s.outOfLine u) u = [.ins i])
    (hws : itemWords ([.ins i].take n) = ws) (h : runChain (s.outOfLine u) k u.split 3 = .ok ⟨v, n, how⟩) :
    issueUnit s u = .next (if how = .held then { v with slots := s.slots }
      else if freeWords ws sp.pc then { v with slots := s.slots, issuing := s.issuing }
      else { occupy 1 (memCycles (s.outOfLine u) u) (v.group? k) u.core ws sp.pc v with
        slots := s.slots ++ [(u.core, unitPipes (s.outOfLine u) u)] }) := by
  subst hk
  unfold State.outOfLine at *
  unfold issueUnit
  simp only [hruns, hfits, hready, hgroups, h, hsp, hitems, hws, Bool.not_true, Bool.or_self, Bool.false_eq_true, if_false,
    Option.map_some, Option.getD_some, List.length_singleton]
  split
  · rfl
  · split <;> rfl

omit hk in
theorem issueUnit_of_fault {e : Fault} (h : runChain (s.outOfLine u) k u.split 3 = .error e) : issueUnit s u = .fault e := by
  unfold State.outOfLine at *
  unfold issueUnit
  simp only [hruns, hfits, hready, hgroups, h, Bool.not_true, Bool.or_self, Bool.false_eq_true, if_false]

end Unit

/-! ## Steps -/

theorem step_event {s : State} {i : Instr} {l : List Instr} (h : s.agenda = i :: l) :
    step s = keepSlots s (exec i { s with agenda := l }) := by
  rw [step, stepBody, h]

theorem step_unpowered {s : State} (ha : s.agenda = []) (hp : s.pkg.boot.powered = false) : step s = .next s := by
  rw [step, stepBody, ha, hp]
  rfl

section Powered

variable {s : State} (ha : s.agenda = []) (hp : s.pkg.boot.powered = true)
include ha hp

theorem step_issues {u : UnitRef} {l : List UnitRef} (hi : s.issuing = u :: l) : step s = issueUnit s u := by
  rw [step, stepBody, ha, hp, hi]
  rfl

theorem step_next_event {i : Instr} (hi : s.issuing = []) (he : nextEvent s = some i) : step s = keepSlots s (exec i s) := by
  simp only [step, stepBody, ha, hp, hi, he, Bool.not_true, Bool.false_eq_true, if_false]

theorem step_tick (hi : s.issuing = []) (he : nextEvent s = none) : step s = .next (tick s) := by
  simp only [step, stepBody, ha, hp, hi, he, Bool.not_true, Bool.false_eq_true, if_false]

end Powered

/-- Settles O56: the fetch reads the chain's one instruction, the chain runs it, and the unit's issue takes the slot. -/
theorem stepRunsDecoded : Obligations.StepRunsDecoded := by
  refine ⟨?_, fun s ha hp => step_unpowered ha hp, fun s ha hp hi => ⟨?_, step_tick ha hp hi⟩, fun s i l ha => ⟨?_, ?_⟩⟩
  · intro s u l k c x f pa i hp ha hi hk r hruns hfits hready hgroups hc va hpage hwild hxl htgt y hsound hread now
    have hu : u = ⟨coreOf k, slotOf k, u.split⟩ := hk ▸ eq_of_unitRuns hruns
    have hchain := nextChain_of_bytes hpage hwild hxl htgt hsound hread
    obtain ⟨hs, hkey, hgroup, -⟩ := cx?_eq hc
    have hck : c.k = k := hkey.trans (unitKey_of_key ..)
    have hsplit : c.g.split? u.split = some c.sp := split?_of_cx? hc
    have hsp : unitSplit r k u.split = some c.sp := by
      have hg : r.group? k = some c.g := hck ▸ hgroup
      rw [unitSplit, hg]
      exact hsplit
    have hclock : y.clock = r.clock := (fetched_clock hxl).trans (by rw [hs])
    have hitems : unitItems r u = [.ins i] := unitItems_single hc hchain hu
    refine ⟨fun t ht => ?_, fun e he => ?_⟩
    · have hrun := runChain_single hc hchain hck hsplit hclock ht rfl (itemWords_take (wordsIssued_le_one ..) i)
      rw [step_issues ha hp hi, issueUnit_of_runChain hk hruns hfits hready hgroups hsp hitems
        (itemWords_take (wordsIssued_le_one ..) i) hrun]
      simp only [endOf_eq_held_iff]
      rfl
    · rw [step_issues ha hp hi]
      exact issueUnit_of_fault hruns hfits hready hgroups (runChain_single_fault hc hchain hck he)
  · intro i t he ht
    rw [step_next_event ha hp hi he, ht]
    rfl
  · intro t ht
    rw [step_event ha, ht]
    rfl
  · intro e he
    rw [step_event ha, he]
    rfl

end Sys2Proof.Machine
end

section
/-! The special-function words (R208, R238, R251-R254): one lemma for what their pending result is, and how each of
them comes to it. -/

namespace Sys2Proof.Machine

/-! ## The unit whose result is pending -/

theorem pops_sameUnit (c : Cx) : c.sameUnit (c.pops c.i.uses) := by
  obtain ⟨hg, hsp, hk, hi, ⟨hclock, -⟩, -⟩ := pops_spec c
  exact ⟨hk, hsp, hi, by rw [hg], by rw [hg], by rw [hg], by rw [hg], hclock⟩

theorem Cx.sameWork.sameUnit {c d : Cx} (h : c.sameWork d) : c.sameUnit d := by
  obtain ⟨r, hr⟩ := h.group
  exact ⟨h.k, h.sp, h.i, by rw [hr], by rw [hr], by rw [hr], by rw [hr], h.clock⟩

/-- The newest entry once a word whose result is pending has issued: its window begins after the word itself (R208). -/
theorem later_done_newest {c : Cx} (on : PendOn) (act : Mask) (regs : List Nat) (vals : List LaneReg) (kq : Option (Nat × Nat))
    (flags : BitVec 5) (flagLanes : Mask) (trap : Option DelivTrap) (stamp : Nat) {h : Group} {p : Pending}
    (hg : (c.later on act regs vals kq flags flagLanes trap stamp).done.group? c.k = some h) (hp : h.pend.getLast? = some p) :
    p.nq = vals.length ∧ p.rooms = [(c.sp.id, c.i.window)] ∧ p.flags = flags := by
  obtain rfl := Option.some.inj (hg.symm.trans (done_group (c.later on act regs vals kq flags flagLanes trap stamp)))
  have hlast {f : Pending → Pending} {l : List Pending} {q : Pending} : ((l ++ [q]).map f).getLast? = some (f q) :=
    (congrArg List.getLast? List.map_append).trans List.getLast?_concat
  obtain rfl := Option.some.inj (hp.symm.trans hlast)
  exact ⟨rfl, by simp [Cx.later], rfl⟩

/-! ## What such a word issues -/

/-- The lanes' results: nothing in a lane that is not active. -/
def inLanes (act : Mask) (r : Nat → FRes) (l : Nat) : FRes := if act.has l then r l else (0, 0)

theorem inLanes_of_has {act : Mask} {l : Nat} (h : act.has l = true) (r : Nat → FRes) : inLanes act r l = r l := if_pos h

/-- The flags of the active lanes' results. -/
theorem laneFlags_inLanes (act : Mask) (r : Nat → FRes) :
    (act.lanes.foldl (fun (a : FFlags) l => a ||| (inLanes act r l).2) 0) = laneFlags act fun l => floatWord (r l) :=
  List.foldl_ext _ _ _ fun a l hl => by rw [inLanes_of_has (List.mem_filter.1 hl).2]; rfl

section Words
variable {i : Instr} {s : State} {c : Cx} (hc : cx? i s = some c) (h : c.Clear)
include hc h

/-- Its result is a pending word of a unit that has popped its operands and reserved its entry of a k-queue. -/
theorem sfWord_eq_later (w : FWidth) (d : Dst) (n : Nat) (f : Cx → Mask → Nat → FRes) :
    ∃ c' kq who, c.sameUnit c' ∧ sfWord i w d s n f = .next (c'.later (.cycle (c.s.clock.cycle + n)) c.act (Dst.regs d)
      [LaneReg.ofFn fun l => w64 (inLanes c.act (f c c.act) l).1] kq (laneFlags c.act fun l => floatWord (f c c.act l)) who
      none 0).done := by
  obtain ⟨-, -, -, -, rfl, -⟩ := cx?_eq hc
  have hpops := pops_sameUnit c
  have hissue := issue_clear (ck := Checks.none) hc h (fun _ hn => absurd hn List.not_mem_nil) rfl rfl rfl
  unfold sfWord
  rw [hissue]
  dsimp only
  rw [residueChecked_clear h, ite_self, ← laneFlags_inLanes, ← hpops.clock]
  cases d with
  | v m => exact ⟨_, _, _, hpops, rfl⟩
  | none => exact ⟨_, _, _, hpops, rfl⟩
  | k q =>
    have hpush := (kpush_sameWork (c.pops c.i.uses) q.val LaneReg.zero false).sameUnit
    rw [← hpush.clock]
    exact ⟨_, _, _, hpops.andThen hpush, rfl⟩

/-- The word issues, and its result is pending until its cycle. -/
theorem sfWord_awaits (w : FWidth) (d : Dst) (n : Nat) (f : Cx → Mask → Nat → FRes) :
    ∃ u p, sfWord i w d s n f = .next u ∧ c.Awaits u p ∧ p.on = .cycle (c.s.clock.cycle + n) ∧ p.prod = c.sp.pc ∧
      p.act = c.act ∧ p.regs = Dst.regs d ∧ p.nq = 1 ∧ p.rooms = [(c.sp.id, i.window)] ∧
      (∃ x, p.vals = [x] ∧ ∀ l < 32, c.act.has l = true → x.lane l = w64 (f c c.act l).1) ∧
      p.flags = laneFlags c.act fun l => floatWord (f c c.act l) := by
  obtain ⟨-, -, -, hsplit, hi, -⟩ := cx?_eq hc
  obtain ⟨c', kq, who, hsame, hrun⟩ := sfWord_eq_later hc h w d n f
  have hs : (c'.g.split? c'.sp.id).isSome = true := by
    rw [Group.split?, hsame.splits, hsame.sp]
    exact Option.isSome_iff_exists.2 ⟨_, hsplit⟩
  obtain ⟨p, hp, hprod, hon, hact, hregs, hvals, -⟩ := later_done hs (.cycle (c.s.clock.cycle + n)) c.act (Dst.regs d)
    [LaneReg.ofFn fun l => w64 (inLanes c.act (f c c.act) l).1] kq (laneFlags c.act fun l => floatWord (f c c.act l)) who none 0
  obtain ⟨-, g, hg, -, hlast, -⟩ := id hp
  obtain ⟨hnq, hrooms, hflags⟩ := later_done_newest _ _ _ _ _ _ _ _ _ hg hlast
  refine ⟨_, p, hrun, hp.of_same hsame.regs hsame.sys (by rw [hsame.sp]) hsame.k hsame.i, hon, hprod.trans (by rw [hsame.sp]),
    hact, hregs, hnq, by rw [hrooms, hsame.sp, hsame.i, hi], ⟨_, hvals, fun l hl hl' => ?_⟩, hflags⟩
  rw [lane_ofFn _ hl, inLanes_of_has hl']

end Words

/-! ## Each word -/

/-- Execution takes the word for a special-function word whose results on the unit in hand are `r`. -/
def Cx.RunsSpecial (c : Cx) (i : Instr) (s : State) (w : FWidth) (d : Dst) (n : Nat) (r : Nat → FRes) : Prop :=
  ∃ f, exec i s = sfWord i w d s n f ∧ f c c.act = r

/-- One operand (R251). -/
theorem sfWord1_runs {c : Cx} {i : Instr} {s : State} {w : FWidth} {t : Tail} {d : Dst} {a : Src} {n : Nat}
    (op : Fmt → Nat → FRes) (run : exec i s = sfWord1 i w t d a s n op) :
    c.RunsSpecial i s w d n fun l => op (FWidth.fmt w) (c.floatA t w a l) :=
  ⟨_, run.trans (by unfold sfWord1; rfl), rfl⟩

/-- The cycles of FSIN and FCOS go by the lanes of the unit in hand (R238, R254). -/
theorem trigDelay_eq {i : Instr} {s : State} {c : Cx} (hc : cx? i s = some c) (w : FWidth) (t : Tail) (a : Src) :
    trigDelay i w t a s = sfDelay 22 40 w (farArgs w (c.opA t (FWidth.lit w) a) c.act) := by
  rw [trigDelay, hc]

/-- FRSQ has a rule of its own in .f64 (R252). -/
theorem frsq_rule (w : FWidth) (r : Rnd) (x : Nat) :
    (if FWidth.fmt w = .f64 then rsq64 x else (FWidth.fmt w).rsq r x) = if w = .f64 then rsq64 x else (FWidth.fmt w).rsq r x := by
  cases w <;> rfl

/-- Each special-function word has the cycles and the results that its rule gives. -/
theorem runsSpecial_of_specialResult {i : Instr} {s : State} {c : Cx} {w : FWidth} {d : Dst} {n : Nat} {r : Nat → FRes}
    (hc : cx? i s = some c) (hr : c.specialResult i = some (w, d, n, r)) : c.RunsSpecial i s w d n r := by
  unfold Cx.specialResult at hr
  split at hr <;> cases hr
  case h_1 t l a b r => exact ⟨_, by show execFdiv t l d a b r w s = _; unfold execFdiv; rfl, rfl⟩
  case h_2 t l a r => exact sfWord1_runs (fun f x => f.sqrt r x) (by show execFsqrt t l d a r w s = _; unfold execFsqrt; rfl)
  case h_3 t l a r => exact sfWord1_runs (fun f x => f.rcp r x) (by show execFrcp t l d a r w s = _; unfold execFrcp; rfl)
  case h_4 t l a r =>
    obtain ⟨f, run, hf⟩ := sfWord1_runs (c := c) (i := .frsq t l d a r w) (fun f x => if f = .f64 then rsq64 x else f.rsq r x)
      (by show execFrsq t l d a r w s = _; unfold execFrsq; rfl)
    exact ⟨f, run, hf.trans (funext fun l => frsq_rule w r _)⟩
  case h_5 t l a => exact sfWord1_runs (fun f x => f.exp2 x) (by show execFexp2 t l d a w s = _; unfold execFexp2; rfl)
  case h_6 t l a => exact sfWord1_runs (fun f x => f.log2 x) (by show execFlog2 t l d a w s = _; unfold execFlog2; rfl)
  case h_7 t l a =>
    rw [← trigDelay_eq hc]
    exact sfWord1_runs (fun f x => f.sin x) (by show execFsin t l d a w s = _; unfold execFsin; rfl)
  case h_8 t l a =>
    rw [← trigDelay_eq hc]
    exact sfWord1_runs (fun f x => f.cos x) (by show execFcos t l d a w s = _; unfold execFcos; rfl)
  case h_9 t l a => exact sfWord1_runs (fun f x => f.tanh x) (by show execFtanh t l d a w s = _; unfold execFtanh; rfl)

/-- Settles O7: each of the words is a special-function word of its rule's results, which waits as pending. -/
theorem specialFunctionIssues : Obligations.SpecialFunctionIssues := by
  intro i s c w d n r hc h hr
  obtain ⟨f, run, rfl⟩ := runsSpecial_of_specialResult hc hr
  rw [run]
  exact sfWord_awaits hc h w d n f

end Sys2Proof.Machine
end
